-- ==== Sys2Proof/Word.lean ====
section
/-! DEFINITION. The word types, and the one kind of sparse table the model stores state in. -/

namespace Sys2Proof

abbrev Byte := BitVec 8
abbrev W32 := BitVec 32
abbrev W64 := BitVec 64
/-- A vector register, a queue slot's first 64 bytes, a job card (R161, R278). -/
abbrev V512 := BitVec 512

/-- A sparse table: pairs with rising keys; an unlisted key holds the table's default. -/
abbrev Tab (α : Type) := List (Nat × α)

/-- Byte-addressed memory: rising addresses, no listed byte equal to `Mem.blank`. -/
abbrev Mem := Tab Byte

end Sys2Proof
end

