-- ==== Sys2Proof/Machine/Bits.lean ====
section
/-! DEFINITION. Tables and memory as lists of pairs with rising keys, bit fields, byte order and sign (R1). -/

namespace Sys2Proof

/-- The value at a key, or the default `d`. -/
def Tab.get {α : Type} (d : α) : Tab α → Nat → α
  | [], _ => d
  | (a, w) :: t, k => if a = k then w else Tab.get d t k

/-- The table with key `k` holding `v`, keys kept in rising order. -/
def Tab.put {α : Type} : Tab α → Nat → α → Tab α
  | [], k, v => [(k, v)]
  | (a, w) :: t, k, v =>
    if a = k then (k, v) :: t
    else if k < a then (k, v) :: (a, w) :: t
    else (a, w) :: Tab.put t k v

/-- The table without key `k`. -/
def Tab.drop {α : Type} (m : Tab α) (k : Nat) : Tab α := m.filter (fun e => e.1 != k)

/-- The keys strictly rise. -/
def Tab.sorted {α : Type} : Tab α → Bool
  | [] => true
  | [_] => true
  | (a, _) :: (b, w) :: t => decide (a < b) && Tab.sorted ((b, w) :: t)

/-- What an address no entry lists reads as. DESIGN CHOICE, assumption 1. -/
def Mem.blank : Byte := 0

/-- The byte at an address. DESIGN CHOICE, assumption 1. -/
def Mem.read (m : Mem) (a : Nat) : Byte := Tab.get Mem.blank m a

/-- Insert, replace or remove in one pass, so that the canonical form is kept. -/
def Mem.write : Mem → Nat → Byte → Mem
  | [], k, v => if v = Mem.blank then [] else [(k, v)]
  | (a, w) :: t, k, v =>
    if a = k then (if v = Mem.blank then t else (k, v) :: t)
    else if k < a then (if v = Mem.blank then (a, w) :: t else (k, v) :: (a, w) :: t)
    else (a, w) :: Mem.write t k v

/-- The canonical form of memory: strictly rising addresses and no blank byte listed.
DESIGN CHOICE, assumption 52. -/
def Mem.wf (m : Mem) : Bool := Tab.sorted m && m.all (fun e => e.2 != Mem.blank)

/-- The `n` bytes from `a` up, lowest address first. -/
def Mem.readN (m : Mem) (a : Nat) : Nat → List Byte
  | 0 => []
  | n + 1 => Mem.read m a :: Mem.readN m (a + 1) n

/-- Store bytes from `a` up, lowest address first. -/
def Mem.writeL (m : Mem) (a : Nat) : List Byte → Mem
  | [] => m
  | b :: bs => Mem.writeL (Mem.write m a b) (a + 1) bs

/-- The Nat whose little-endian bytes are `bs` (R1). -/
def leNat : List Byte → Nat
  | [] => 0
  | b :: bs => b.toNat + 256 * leNat bs

/-- The `n` little-endian bytes of a Nat (R1). -/
def leBytes : Nat → Nat → List Byte
  | 0, _ => []
  | n + 1, v => BitVec.ofNat 8 v :: leBytes n (v / 256)

/-- The slice x[hi:lo] of R1, as a Nat. -/
def slice (x hi lo : Nat) : Nat := (x / 2 ^ lo) % 2 ^ (hi + 1 - lo)

/-- Bit `i` of a Nat. -/
def bitOf (x i : Nat) : Bool := (x / 2 ^ i) % 2 == 1

/-- `x` with bits `hi` down to `lo` replaced by `v`. -/
def setSlice (x hi lo v : Nat) : Nat :=
  x - slice x hi lo * 2 ^ lo + (v % 2 ^ (hi + 1 - lo)) * 2 ^ lo

/-- The signed reading of the low `w` bits of a Nat. -/
def toSigned (w x : Nat) : Int :=
  let y := x % 2 ^ w
  if 2 * y ≥ 2 ^ w then (y : Int) - (2 ^ w : Nat) else y

/-- The low `w` bits of an integer, as a Nat. -/
def wrapInt (w : Nat) (x : Int) : Nat := (x % ((2 ^ w : Nat) : Int)).toNat

end Sys2Proof
end

