-- ==== Sys2Proof/Machine/Aes.lean ====
section
/-! DEFINITION. AES-256 (R99 names it; FIPS 197 defines it): one block under a key. Bytes of a block and of a key stand
first byte first, in the most significant byte. PRESUMED, assumption 4. -/

namespace Sys2Proof.Machine.Aes

/-- Double in the field of AES. -/
def xtime (b : Nat) : Nat := if b < 128 then 2 * b else (2 * b % 256) ^^^ 0x1B

/-- Multiply by a constant below 4, and, for the inverse, by a power. -/
def mul (a : Nat) : Nat → Nat → Nat
  | _, 0 => 0
  | b, n + 1 => (if b % 2 = 1 then a else 0) ^^^ mul (xtime a) (b / 2) n

/-- a^254, the inverse of a, zero for zero. -/
def inv (a : Nat) : Nat :=
  let m (x y : Nat) : Nat := mul x y 8
  let a2 := m a a
  let a3 := m a2 a
  let a6 := m a3 a3
  let a12 := m a6 a6
  let a15 := m a12 a3
  let a30 := m a15 a15
  let a60 := m a30 a30
  let a120 := m a60 a60
  let a126 := m a120 a6
  let a127 := m a126 a
  m a127 a127

def rotl8 (b k : Nat) : Nat := (b * 2 ^ k) % 256 ^^^ (b / 2 ^ (8 - k))

/-- The S-box. -/
def sub (b : Nat) : Nat :=
  let i := inv b
  i ^^^ rotl8 i 1 ^^^ rotl8 i 2 ^^^ rotl8 i 3 ^^^ rotl8 i 4 ^^^ 0x63

def bytes (n : Nat) (v : Nat) : List Nat := (List.range n).map (fun i => v / 2 ^ (8 * (n - 1 - i)) % 256)

def xorL (a b : List Nat) : List Nat := List.zipWith (fun x y => x ^^^ y) a b

def rcon (i : Nat) : Nat := (List.range (i - 1)).foldl (fun c _ => xtime c) 1

/-- The words of the key schedule, the newest first; `n` are left to add to the `i` there. -/
def expand (i : Nat) (ws : List (List Nat)) : Nat → List (List Nat)
  | 0 => ws
  | n + 1 =>
    let t := ws.headD []
    let t := if i % 8 = 0 then xorL ((t.drop 1 ++ t.take 1).map sub) [rcon (i / 8), 0, 0, 0]
      else if i % 8 = 4 then t.map sub else t
    expand (i + 1) (xorL ((ws[7]?).getD []) t :: ws) n

/-- The fifteen round keys. -/
def roundKeys (key : BitVec 256) : List (List Nat) :=
  let k := bytes 32 key.toNat
  let ws := (expand 8 ((List.range 8).map (fun i => (k.drop (4 * i)).take 4)).reverse 52).reverse
  (List.range 15).map (fun r => ((ws.drop (4 * r)).take 4).flatten)

/-- ShiftRows on a state column by column. -/
def shiftRows (s : List Nat) : List Nat :=
  (List.range 16).map (fun i => s.getD ((i + 4 * (i % 4)) % 16) 0)

def mixColumn (c : List Nat) : List Nat :=
  (List.range 4).map (fun i =>
    let b (k : Nat) : Nat := c.getD ((i + k) % 4) 0
    xtime (b 0) ^^^ (xtime (b 1) ^^^ b 1) ^^^ b 2 ^^^ b 3)

def mixColumns (s : List Nat) : List Nat :=
  ((List.range 4).map (fun j => mixColumn ((s.drop (4 * j)).take 4))).flatten

/-- The rounds on a state: the last has no MixColumns. -/
def rounds (s : List Nat) : List (List Nat) → List Nat
  | [] => s
  | [k] => xorL (shiftRows (s.map sub)) k
  | k :: ks => rounds (xorL (mixColumns (shiftRows (s.map sub))) k) ks

/-- A block under a key. PRESUMED, assumption 4. -/
def encrypt (key : BitVec 256) (block : BitVec 128) : BitVec 128 :=
  let ks := roundKeys key
  let s := rounds (xorL (bytes 16 block.toNat) (ks.headD [])) (ks.drop 1)
  BitVec.ofNat 128 (s.foldl (fun v b => v * 256 + b) 0)

end Sys2Proof.Machine.Aes
end

