-- ==== Sys2Proof/Config.lean ====
section
/-! DEFINITION. What the implementation fixes and what the spec leaves open: uninterpreted constants, with
no body, so that nothing can be proved of their values. -/

namespace Sys2Proof.Config

/-- Nanoseconds of the device time base that pass in a step. DESIGN CHOICE, assumption 3. -/
opaque elapsed : Nat → Nat

/-- Cycles of the arithmetic clock that pass in a step. DESIGN CHOICE, assumption 3. -/
opaque cycles : Nat → Nat

/-- Picojoules of a count of the meter of an index, and a core's static power in picojoules a cycle: the coefficients
calibrated at test (R510). DESIGN CHOICE, assumption 3. -/
opaque energyPer : Nat → Nat
opaque staticPower : Nat → Nat

/-- A free 64-bit value (assumption 2): a fresh one for every draw. DESIGN CHOICE, assumption 2. -/
opaque freeValue : Nat → W64

/-- A die's fused voltage ceiling in steps of 5 mV, and the floor of its timing margin (R512; assumption 2).
DESIGN CHOICE, assumption 2. -/
opaque voltageCeiling : Nat → Nat
opaque marginFloor : Nat → Nat

/-- The counter block of an encrypted line (R99), from its channel identity, its two counters and a 4-bit block index:
the spec gives the parts and not their places. DESIGN CHOICE, assumption 69. -/
opaque counterBlock : Nat → Nat → Nat → Nat → BitVec 128

end Sys2Proof.Config
end

