-- ==== Sys2Proof/Syntax.lean ====
section
/-! DEFINITION. The instructions and events of the Kazzen: one constructor per row of the opcode table. -/

namespace Sys2Proof

/-- The type codes of R190, in code order. -/
inductive Ty where
  | i64 | i32 | i16 | i8 | n64 | n32 | n16 | n8 | fp32 | bf16 | fp16 | e4m3 | e5m2 | e2m1 | pod8 | b1
  deriving DecidableEq, Repr

/-- The control registers of R240. -/
inductive CReg where
  | status | ipend | ienab | ivec | ipc | icause | irep | tcmp | cmask | dead | repst | budget
  | deadline | tidle | hartid | ctxid
  | qbind (n : Fin 16)
  deriving DecidableEq, Repr

/-- An operand field after decoding (R187). -/
inductive Operand where
  | x (r : Fin 32)
  | v (r : Fin 32)
  | p (r : Fin 8)
  | q (h : Fin 16) (c : Fin 32)
  | tile (t : Fin 2)
  | csr (r : CReg)
  | const (c : BitVec 9)
  | none
  deriving DecidableEq, Repr

/-- The guard field (R185): sense and predicate. -/
structure Guard where
  neg : Bool
  p : Fin 8
  deriving DecidableEq, Repr

/-- The hint field (R186). -/
structure Hint where
  yield : Bool
  stagD : Bool
  stagA : Bool
  stagB : Bool
  lastA : Bool
  lastB : Bool
  stall : Fin 4
  deriving DecidableEq, Repr

/-- The fields every program instruction has (R184), less the opcode. -/
structure Fmt where
  guard : Guard
  hint : Hint
  ty : Ty
  var : Fin 16
  d : Operand
  a : Operand
  b : Operand
  imm : W32
  deriving DecidableEq, Repr

/-- What the steading finds and chooses at a boot (R504 to R506): outside input to RESET. -/
structure BootInput where
  imageOk : Bool := true
  trainOk : Bool := true
  /-- The step of steps 4 to 6 that fails, if one does, and the schedule image that step 6 loads (R483, R504). -/
  fails : Option Nat := none
  schedule : Nat := 0
  fusedOff : List Nat := []
  failedChannels : List Nat := []
  tierAbsent : List Nat := []
  /-- The encryptable fractions of R101 in thirty-seconds: 0, 7, 14 or 28. -/
  fracHbm : Nat := 0
  fracTier : Nat := 0
  /-- Lanes of a Furrow link port (R506); a port not listed runs at 8. -/
  lanes : List (Nat × Nat) := []
  deriving DecidableEq, Repr

/-- A host-visible register without behaviour of its own (R499, R501, R503). -/
inductive HostReg where
  | packet (slot dword : Nat)
  | root (slot : Nat)
  | handler (slot : Nat)
  | pool (slot : Nat)
  | qbase (slot : Nat)
  | qback (slot : Nat)
  | migrate (slot : Nat)
  | reldl (slot cls : Nat)
  | sysroot
  | sysentry
  | sysivec
  | recovery (off : Nat)
  | unlisted
  deriving DecidableEq, Repr

/-- The states of a virtual function's TDI (R498). -/
inductive Tdi where
  | unlocked | locked | run | error
  deriving DecidableEq, Repr

/-- The kinds of memory request of R75. -/
inductive ReqKind where
  | read | write | atomic | flush | scratch
  deriving DecidableEq, Repr

/-- A packet as it arrives from the fabric (R494): the request of R75 that it carries. -/
structure FabricPacket where
  src : Nat
  ctx : Nat
  epoch : Nat
  seq : Nat
  /-- The path on which it came (R143). -/
  path : Nat := 0
  /-- The GCM tag holds. -/
  tagOk : Bool
  kind : ReqKind
  dpa : Nat
  size : Nat
  data : Nat
  /-- An atomic's variant as amo has it (R192), 7 for cas; its type, cas's expected value, and whether it is a
  reduce-store, with its tag. -/
  opc : Nat := 0
  ty : Ty := .i64
  expected : Nat := 0
  reduce : Bool := false
  tag : Option Nat := none
  /-- The page has ENC = 1, and the key handle presented, 0 for none (R98). -/
  enc : Bool := false
  key : Nat := 0
  /-- The hart of the sender, whose releases flush its writes (R146), and whether its slice is a rerun (R399). -/
  hart : Nat := 0
  rerun : Bool := false
  deriving DecidableEq, Repr

/-- A packet of a collective as it arrives from a peer (R483, R484, R494): its place in its stream, the port where it
comes, what the step carries, the unit and the stage to which its elements belong, and a failure that it reports (0 none,
else a STATUS of R488). -/
structure CollMsg where
  peer : Nat
  epoch : Nat
  seq : Nat
  path : Nat := 0
  /-- The GCM tag holds. -/
  tagOk : Bool := true
  port : Nat := 0
  ordinal : Nat
  op : Nat
  dtype : Nat
  mode : Nat
  count : Nat
  unit : Nat := 0
  stage : Nat := 0
  data : List Nat
  failed : Nat := 0
  deriving DecidableEq, Repr

/-- What a drill processor does in a step of a collective (R483): it takes a packet that arrives for the collective at a
place of the queue; a port goes on with its chunk, or at a chunk boundary takes one of the chunks ready there, each named
by its collective's place and the peer it goes to (R490); or a peer answers the n-th packet in the buffers, an error where
it refused it (R495). COLL_STEP names the place or the port. -/
inductive CollStep where
  | takes (msg : CollMsg)
  | boundary (ready : List (Nat × Nat))
  | answered (n : Nat) (ok : Bool)
  deriving DecidableEq, Repr

/-- A PLDM request that is no command of R507: a firmware update of type 5, one of another type, or a malformed one. -/
inductive Pldm where
  | update (image : Nat) | typed (type : Nat) | malformed
  deriving DecidableEq, Repr

/-- What the members of the trust domain agree on at a barrier (R497): who they are from here on, and how many packets
each stream to this device had, by stream. -/
structure Agreed where
  members : List Nat
  finals : List (Nat × Nat) := []
  deriving DecidableEq, Repr

/-- Every row of the opcode table. Those with a `Fmt` are program instructions; they act for the
current hart. The others are steps of the host, the steading and the hardware units. -/
inductive Instr where
  | nop (f : Fmt) | brk (f : Fmt) | j (f : Fmt) | jal (f : Fmt) | jr (f : Fmt) | call (f : Fmt)
  | ret (f : Fmt) | loop (f : Fmt) | rep (f : Fmt)
  | add (f : Fmt) | sub (f : Fmt) | mul (f : Fmt) | mulh (f : Fmt) | div (f : Fmt) | rem (f : Fmt)
  | and (f : Fmt) | or (f : Fmt) | xor (f : Fmt) | andn (f : Fmt) | shl (f : Fmt) | shr (f : Fmt)
  | sra (f : Fmt) | min (f : Fmt) | max (f : Fmt) | bits (f : Fmt)
  | cmp (f : Fmt) | sel (f : Fmt) | mov (f : Fmt) | movhi (f : Fmt) | ext (f : Fmt) | ins (f : Fmt)
  | plog (f : Fmt) | addr (f : Fmt) | csrr (f : Fmt) | csrw (f : Fmt) | csrs (f : Fmt) | csrc (f : Fmt)
  | cvt (f : Fmt) | fadd (f : Fmt) | fmul (f : Fmt) | fma (f : Fmt)
  | ld (f : Fmt) | st (f : Fmt) | ldp (f : Fmt) | stp (f : Fmt) | pref (f : Fmt) | prefRow (f : Fmt)
  | amo (f : Fmt) | cas (f : Fmt) | amored (f : Fmt) | waitw (f : Fmt)
  | phase (f : Fmt) | rel (f : Fmt) | acq (f : Fmt) | fenceSc (f : Fmt) | fenceIo (f : Fmt)
  | cinvLine (f : Fmt) | cinvAll (f : Fmt)
  | qpush (f : Fmt) | qpop (f : Fmt) | qadv (f : Fmt) | qprod (f : Fmt) | qwaitFill (f : Fmt)
  | qwaitRoom (f : Fmt) | qfree (f : Fmt) | qbind (f : Fmt) | qstat (f : Fmt) | qstatHead (f : Fmt)
  | qstatTail (f : Fmt)
  | tour (f : Fmt) | tourBind (f : Fmt) | trel (f : Fmt) | trelEnd (f : Fmt) | tstat (f : Fmt)
  | tstatHead (f : Fmt)
  | splprepOpen (f : Fmt) | splprepStage (f : Fmt) | splprepBind (f : Fmt) | splprepDrop (f : Fmt)
  | splinj (f : Fmt) | splstat (f : Fmt) | splstatTake (f : Fmt) | splstatInh (f : Fmt)
  | rngset (f : Fmt) | rngget (f : Fmt) | rnggetLeft (f : Fmt)
  | vadd (f : Fmt) | vsub (f : Fmt) | vmul (f : Fmt) | vfma (f : Fmt) | vfms (f : Fmt) | vmin (f : Fmt)
  | vmax (f : Fmt) | vand (f : Fmt) | vor (f : Fmt) | vxor (f : Fmt) | vshl (f : Fmt) | vshr (f : Fmt)
  | vsra (f : Fmt) | vcmp (f : Fmt) | vsel (f : Fmt) | vun (f : Fmt)
  | vmov (f : Fmt) | vext (f : Fmt) | vins (f : Fmt) | vperm (f : Fmt) | vslide (f : Fmt) | vred (f : Fmt)
  | vscan (f : Fmt) | vpopc (f : Fmt) | vcompr (f : Fmt) | vexpnd (f : Fmt) | vzip (f : Fmt)
  | vunzip (f : Fmt) | viota (f : Fmt)
  | vld (f : Fmt) | vst (f : Fmt) | vldx (f : Fmt) | vstx (f : Fmt) | vlds (f : Fmt) | vsts (f : Fmt)
  | vcvt (f : Fmt) | vcvtp (f : Fmt) | vrequ (f : Fmt) | vscacc (f : Fmt) | vbexp (f : Fmt) | vclip (f : Fmt)
  | vpod (f : Fmt) | vpodd (f : Fmt) | vdot (f : Fmt) | vlut (f : Fmt) | vplane (f : Fmt) | vunpl (f : Fmt)
  | mxq (f : Fmt) | mxwm (f : Fmt) | mxwmWait (f : Fmt) | mxrd (f : Fmt) | mxwr (f : Fmt) | mxcont (f : Fmt)
  | mxstat (f : Fmt) | mxstatSticky (f : Fmt)
  | cpq (f : Fmt) | cpchn (f : Fmt) | cpwm (f : Fmt) | cpstat (f : Fmt) | cpstatLog (f : Fmt) | exq (f : Fmt)
  | hstart (f : Fmt) | hstat (f : Fmt) | hstatH (f : Fmt) | hloadCode (f : Fmt) | hloadTmpl (f : Fmt)
  | kvmap (f : Fmt) | kvmapApp (f : Fmt) | kvmapWr (f : Fmt) | kvswapFork (f : Fmt) | kvswapAccept (f : Fmt)
  | kvswapReject (f : Fmt) | kvtrunc (f : Fmt) | kvwin (f : Fmt) | stframe (f : Fmt) | stadvGen (f : Fmt)
  | stadvPlay (f : Fmt)
  | coll (f : Fmt) | cstat (f : Fmt) | cstatClr (f : Fmt)
  | tspawn (f : Fmt) | tend (f : Fmt) | tyield (f : Fmt) | tdl (f : Fmt) | tlaunch (f : Fmt)
  | ecall (f : Fmt) | eret (f : Fmt) | wfi (f : Fmt) | mtrd (f : Fmt)
  | tlbinvPage (f : Fmt) | tlbinvCtx (f : Fmt) | tlbinvAll (f : Fmt)
  | keyld (f : Fmt) | keyldClear (f : Fmt) | rdtime (f : Fmt) | ctxsw (f : Fmt) | ctxswStat (f : Fmt)
  -- the host and the steading
  | reset (boot : BootInput) | recoveryDoorbell (boot : BootInput) | doorbell (slot : Nat)
  | mstatusClear (slot : Nat) (v : W64) | setup (slot : Nat) | teardown (slot : Nat) | sysgo (v : W64)
  | registerWrite (r : HostReg) (v : W64)
  -- stores to the port window and the debug window
  | mxpush (card : V512) | cppush (ch : Fin 4) (rec : V512) | expush (card : V512)
  | hstartRegister (w : V512) | cphead (ch : Fin 4) (v : W64)
  | debugWindowWrite (member : Fin 16) (off : Nat) (v : W64)
  | hcmdResume (core slot ctx : Nat) | hcmdKill (core slot ctx : Nat)
  | mxcmdResume (core ctx : Nat) | mxcmdKill (core ctx : Nat)
  | cpcmdResume (core ch ctx : Nat) | cpcmdKill (core ch ctx : Nat)
  | hrcmdResume (core ctx : Nat) | hrcmdKill (core ctx : Nat)
  | tourcmdResume (core tour ctx : Nat) | tourcmdKill (core tour ctx : Nat)
  -- management commands
  | readMeters (ctx : Nat) | readPresence | writeTrkctl (v : W64) | writeTrapbase (cluster : Nat) (v : W64)
  | writeReserve (hi lo : Nat) | readEventlog (n : Nat) | raiseMgmt (hart : Nat)
  | installSchedule (image : Nat) (signed : Bool) | setDevidx (v : Option Nat)
  | firmwareUpdate (req : Pldm) | keyImport (ctx : Nat) (key : BitVec 256)
  | domainJoin (members : List Nat) (ok : Bool) | domainBarrier (agreed : Agreed) (timeBase : Nat)
  -- harts, cores and scheduling
  | interruptEntry (hart : Nat) | timerMatch (hart : Nat) | issueQuantumSwitch (core : Nat)
  | deadPowerDown (hart : Nat) | budgetExpiry (hart : Nat) | waitwWake (hart : Nat) | waitwPoll (hart : Nat)
  | swapExchange (core : Nat) | thresherTransfer (core : Nat) | launchUnitProcess (slot : Nat)
  | taskDispatch (hart : Nat) | migrateAbandon (hart ctx : Nat) | endNotice (n : Nat) | endNoticeAck (n : Nat)
  | graphEnd (g : Nat) | reserveAdjust (die ctx : Nat)
  -- the memory system
  | pageWalk (n : Nat) | read (n : Nat) | write (n : Nat) | atomic (n : Nat) | flush (n : Nat) | scratch (n : Nat)
  | readData (n : Nat) | writeAck (n : Nat) | atomicData (n : Nat) | columnCommand (bank n : Nat)
  | tidleExpiry (bank : Nat) | refresh (bank : Nat) | marker (src ctx hart rel total sent : Nat) | flushAck (dev rel : Nat)
  | fabricPacketReceive (pkt : FabricPacket)
  | trackerEpochEnd (io : Nat) | hotPageSelect (io n : Nat) | promotionStart | promotionComplete (n : Nat)
  | promotionAbandon (n : Nat)
  -- the matrix engine of a core
  | zero (core : Nat) | loadb (core : Nat) | runa (core : Nat) | drain (core : Nat) | cont (core : Nat)
  | matrixStop (core : Nat) | matrixJobComplete (core : Nat)
  -- the copy engine of a core
  | copy (core ch : Nat) | fill (core ch : Nat) | plane (core ch : Nat) | unplane (core ch : Nat)
  | fprint (core ch : Nat) | dedup (core ch : Nat) | kvpack (core ch : Nat) | gather (core ch : Nat)
  | chainRecordRead (core ch : Nat) | copyRecordComplete (core ch : Nat) | copyChannelStop (core ch : Nat)
  -- the exponent engine of a core
  | exp2 (core : Nat) | expe (core : Nat) | recip (core : Nat) | rsqrt (core : Nat) | softrow (core : Nat)
  | expCardComplete (core : Nat)
  -- the Harrow of a core
  | harrowNop (core : Nat) | harrowIssue (core : Nat) | harrowWaitq (core : Nat) | harrowWaitwm (core : Nat)
  | harrowWaitc (core : Nat) | harrowSeti (core : Nat) | harrowAddi (core : Nat) | harrowCmpb (core : Nat)
  | harrowLoop (core : Nat) | harrowEndl (core : Nat) | harrowSignal (core : Nat) | harrowTrap (core : Nat)
  | harrowEnd (core : Nat)
  -- tours, rings and pipelines
  | tourLeg (origin tour : Nat) | holdExpiry (core ring : Nat) (slotNo : Nat) | transitDrop (core ring slotNo : Nat)
  | makeGood (origin tour : Nat) | tourComplete (origin tour : Nat) | tourWatchdog (origin tour : Nat)
  | ringPublish (n : Nat) | creditReturn (n : Nat)
  | markerPass (core pipe : Nat) | spliceInsert (core pipe : Nat) | spliceRemove (core pipe : Nat)
  | spliceRebind (core pipe : Nat) | drainAcknowledgement (core pipe : Nat) | spliceComplete (core pipe : Nat)
  -- KV tables and collectives
  | tableOperation (device port : Nat)
  | allreduce (n : Nat) | reducescatter (n : Nat) | allgather (n : Nat) | broadcast (n : Nat) | reduce (n : Nat)
  | alltoall (n : Nat) | barrier (n : Nat)
  | collStep (n : Nat) (step : CollStep) | collComplete (n : Nat)
  -- the trap queue and the die monitors
  | trapPacketAdmit (n : Nat) | trapConsPoll (cluster : Nat)
  | healthMeasure (die : Nat) (margin : Nat) | voltageReplan (die : Nat)
  | tdispRequest (slot : Nat) (wanted : Tdi)
  deriving DecidableEq, Repr

end Sys2Proof
end

