-- ==== Sys2Proof/Machine/Accept.lean ====
section
/-! DEFINITION. The accept sets of the instruction descriptions: for each program instruction the types,
variants, operand kinds and immediates it accepts (R189 to R194 and each description). -/

namespace Sys2Proof

/-- The classes of R190. -/
inductive TyClass where
  | signed | unsigned | float | pod | bit
  deriving DecidableEq, Repr

/-- The type code of R190. -/
def Ty.code : Ty → Nat
  | .i64 => 0 | .i32 => 1 | .i16 => 2 | .i8 => 3 | .n64 => 4 | .n32 => 5 | .n16 => 6 | .n8 => 7
  | .fp32 => 8 | .bf16 => 9 | .fp16 => 10 | .e4m3 => 11 | .e5m2 => 12 | .e2m1 => 13 | .pod8 => 14 | .b1 => 15

/-- The type of a code; 16 and more do not occur in a four-bit field. -/
def Ty.ofCode : Nat → Ty
  | 0 => .i64 | 1 => .i32 | 2 => .i16 | 3 => .i8 | 4 => .n64 | 5 => .n32 | 6 => .n16 | 7 => .n8
  | 8 => .fp32 | 9 => .bf16 | 10 => .fp16 | 11 => .e4m3 | 12 => .e5m2 | 13 => .e2m1 | 14 => .pod8 | _ => .b1

/-- The width in bits of an element (R190). -/
def Ty.width : Ty → Nat
  | .i64 | .n64 => 64
  | .i32 | .n32 | .fp32 => 32
  | .i16 | .n16 | .bf16 | .fp16 => 16
  | .i8 | .n8 | .e4m3 | .e5m2 | .pod8 => 8
  | .e2m1 => 4
  | .b1 => 1

/-- The width in bits of a vector lane: E2M1 and B1 have lanes of one byte (R278). -/
def Ty.laneWidth : Ty → Nat
  | .e2m1 | .b1 => 8
  | t => t.width

/-- The lane count L of R190 and R278. -/
def Ty.lanes (t : Ty) : Nat := 512 / t.laneWidth

/-- The class of a type (R190). -/
def Ty.cls : Ty → TyClass
  | .i64 | .i32 | .i16 | .i8 => .signed
  | .n64 | .n32 | .n16 | .n8 => .unsigned
  | .fp32 | .bf16 | .fp16 | .e4m3 | .e5m2 | .e2m1 => .float
  | .pod8 => .pod
  | .b1 => .bit

def Ty.isFloat (t : Ty) : Bool := t.cls == .float
def Ty.isSigned (t : Ty) : Bool := t.cls == .signed
def Ty.isInt (t : Ty) : Bool := t.code ≤ 7

/-- Sets of type codes the descriptions use. -/
def tyI64 (t : Ty) : Bool := t == .i64
def tyInt (t : Ty) : Bool := t.code ≤ 7
def tyFlt (t : Ty) : Bool := 8 ≤ t.code && t.code ≤ 10
def tyNum (t : Ty) : Bool := t.code ≤ 10
def tyCvt (t : Ty) : Bool := t.code ≤ 12
def tyAll (_ : Ty) : Bool := true

/-- The number of a control register (R240). -/
def CReg.num : CReg → Nat
  | .status => 0x000 | .ipend => 0x001 | .ienab => 0x002 | .ivec => 0x003 | .ipc => 0x004
  | .icause => 0x005 | .irep => 0x006 | .tcmp => 0x007 | .cmask => 0x008 | .dead => 0x009
  | .repst => 0x00A | .budget => 0x00B | .deadline => 0x00C | .tidle => 0x00D | .hartid => 0x010
  | .ctxid => 0x011 | .qbind n => 0x020 + n.val

/-- The control register of a number, where R240 assigns one. -/
def CReg.ofNum (n : Nat) : Option CReg :=
  match n with
  | 0x000 => some .status | 0x001 => some .ipend | 0x002 => some .ienab | 0x003 => some .ivec
  | 0x004 => some .ipc | 0x005 => some .icause | 0x006 => some .irep | 0x007 => some .tcmp
  | 0x008 => some .cmask | 0x009 => some .dead | 0x00A => some .repst | 0x00B => some .budget
  | 0x00C => some .deadline | 0x00D => some .tidle | 0x010 => some .hartid | 0x011 => some .ctxid
  | n => if 0x020 ≤ n ∧ n ≤ 0x02F then some (.qbind (Fin.ofNat 16 (n - 0x020))) else none

/-- Written in no mode (R240): naming one as a destination is an OPERAND failure. -/
def CReg.readOnly : CReg → Bool
  | .hartid | .ctxid | .qbind _ => true
  | _ => false

/-- Written in U mode too (R240). -/
def CReg.userWritable : CReg → Bool
  | .cmask | .dead => true
  | _ => false

/-- The operand kinds a description lists for a position. `q0` is a handle with c = 0 (R251),
`xLow` one of x0 to x15 (R239), `xEven` an even register (R245), `csrW` a register that some mode
may write (R240). -/
inductive Kind where
  | x | xLow | xEven | v | p | q | q0 | tile | csr | csrW | const | none
  deriving DecidableEq, Repr

/-- Whether an operand is of a kind. -/
def Operand.fits (k : Kind) (o : Operand) : Bool :=
  match k, o with
  | .x, .x _ => true
  | .xLow, .x r => r.val < 16
  | .xEven, .x r => r.val % 2 == 0
  | .v, .v _ => true
  | .p, .p _ => true
  | .q, .q _ _ => true
  | .q0, .q _ c => c.val == 0
  | .tile, .tile _ => true
  | .csr, .csr _ => true
  | .csrW, .csr r => !r.readOnly
  | .const, .const _ => true
  | .none, .none => true
  | _, _ => false

/-- What a description accepts. The operand sets depend on the variant, the variants on the type and,
for conversions and reductions, on the immediate. -/
structure Form where
  ty : Ty → Bool
  var : Ty → Nat → Nat → Bool
  d : Nat → List Kind
  a : Nat → List Kind
  b : Nat → List Kind
  imm : Fmt → Bool

/-- POD8 and B1 never accept a constant (R188). -/
def Ty.noConst (t : Ty) : Bool := t == .pod8 || t == .b1

/-- Whether an operand is accepted by a position's kinds under a type. -/
def accepted (ks : List Kind) (t : Ty) (o : Operand) : Bool :=
  ks.any (fun k => o.fits k) && !(t.noConst && o.fits .const)

def Operand.isNone (o : Operand) : Bool := o.fits .none

-- Variants.
def v0 : Ty → Nat → Nat → Bool := fun _ v _ => v == 0
def vUpTo (n : Nat) : Ty → Nat → Nat → Bool := fun _ v _ => v ≤ n
def vIs (n : Nat) : Ty → Nat → Nat → Bool := fun _ v _ => v == n
/-- The rounding family with saturation (R192). -/
def roundVar (v : Nat) : Bool := v % 8 ≤ 4
def satVar (v : Nat) : Bool := v == 0 || v == 8
/-- Integer types take 0 and 8, float types the rounding family (R281, R282, R290). -/
def vArith : Ty → Nat → Nat → Bool := fun t v _ => if t.isFloat then roundVar v else satVar v
def vRound : Ty → Nat → Nat → Bool := fun _ v _ => roundVar v
/-- An integer-to-integer conversion requires VAR[2:0] = 0 (R242, R299). -/
def vCvt : Ty → Nat → Nat → Bool := fun t v m => roundVar v && (!(t.isInt && m % 16 ≤ 7) || v % 8 == 0)
/-- R288: a float sum takes the rounding family, an integer sum 0 or 8, all else 0. -/
def vRed : Ty → Nat → Nat → Bool := fun t v m =>
  if m % 8 == 0 then (if t.isFloat then roundVar v else satVar v) else v == 0

-- Immediates.
def immZero : Fmt → Bool := fun f => f.imm == 0
def immAny : Fmt → Bool := fun _ => true
/-- The last source is immediate-capable and is B (R194). -/
def immB : Fmt → Bool := fun f => f.b.isNone || f.imm == 0
def immA : Fmt → Bool := fun f => f.a.isNone || f.imm == 0
/-- Only the low `n` bits may be nonzero. -/
def immLow (n : Nat) : Fmt → Bool := fun f => f.imm.toNat < 2 ^ n
/-- R193: scope 0 to 5 in bits 2:0, acquire and release in bits 3 and 4, the rest zero; bits 4:3
limited to `ok`. -/
def immOrder (ok : Nat → Bool) : Fmt → Bool := fun f =>
  f.imm.toNat < 32 && f.imm.toNat % 8 ≤ 5 && ok (f.imm.toNat / 8)
/-- R237: position and length. -/
def immField : Fmt → Bool := fun f =>
  let m := f.imm.toNat
  m < 2 ^ 14 && (m / 64) % 4 == 0 && m % 64 + (m / 256) + 1 ≤ 64
/-- R298: IMM[7:4] and IMM[31:11] zero, the part below r; source type in IMM[3:0]. -/
def partOk (dst src : Ty) (m : Nat) : Bool :=
  (m / 16) % 16 == 0 && m < 2 ^ 11 &&
    m / 256 < Nat.max dst.lanes src.lanes / Nat.min dst.lanes src.lanes
/-- R301: the destination format of vcvtp, its width and the part. -/
def cvtpBits (m : Nat) : Option Nat :=
  match m % 16, (m / 16) % 2 with
  | 3, 0 => some 8 | 3, _ => some 4
  | 7, 0 => some 8 | 11, 0 => some 8 | 12, 0 => some 8
  | 9, 0 => some 16 | 10, 0 => some 16
  | 13, 0 => some 4
  | _, _ => none
def immCvtp : Fmt → Bool := fun f =>
  let m := f.imm.toNat
  match cvtpBits m with
  | some b => (m / 32) % 8 == 0 && m < 2 ^ 11 && m / 256 < (512 / b) / f.ty.lanes
  | none => false

-- Operand sets. A consumer or producer queue operand goes wherever an x or v register does (R189).
def kNone : Nat → List Kind := fun _ => [.none]
def kSrc : Nat → List Kind := fun _ => [.x, .q, .const]
def kSrcI : Nat → List Kind := fun _ => [.x, .q, .const, .none]
def kDst : Nat → List Kind := fun _ => [.x, .q]
def kDstN : Nat → List Kind := fun _ => [.x, .q, .none]
def kX : Nat → List Kind := fun _ => [.x]
def kXQ : Nat → List Kind := fun _ => [.x, .q]
def kXN : Nat → List Kind := fun _ => [.x, .none]
def kXQN : Nat → List Kind := fun _ => [.x, .q, .none]
def kEven : Nat → List Kind := fun _ => [.xEven]
def kV : Nat → List Kind := fun _ => [.v]
def kVQ : Nat → List Kind := fun _ => [.v, .q]
def kVX : Nat → List Kind := fun _ => [.v, .q, .x]
/-- Every source of R279, marked imm. -/
def kVecI : Nat → List Kind := fun _ => [.v, .q, .x, .const, .none]
def kP : Nat → List Kind := fun _ => [.p]
def kQ0 : Nat → List Kind := fun _ => [.q0]
def kCnt : Nat → List Kind := fun _ => [.x, .const, .none]
def kTile : Nat → List Kind := fun _ => [.tile]

/-- Operands none, immediate as given. -/
def formNone (imm : Fmt → Bool) : Form :=
  { ty := tyI64, var := v0, d := kNone, a := kNone, b := kNone, imm := imm }
/-- Integer arithmetic of R233. DEDUCED, assumption 12. -/
def formInt (var : Ty → Nat → Nat → Bool) : Form :=
  { ty := tyInt, var := var, d := kDst, a := kSrc, b := kSrcI, imm := immB }
/-- Elementwise vector arithmetic of R281. -/
def formVec (ty : Ty → Bool) (var : Ty → Nat → Nat → Bool) : Form :=
  { ty := ty, var := var, d := kVQ, a := kVQ, b := kVecI, imm := immB }
/-- An I64 form with zero immediate. -/
def formI (var : Nat) (d a b : Nat → List Kind) : Form :=
  { ty := tyI64, var := vIs var, d := d, a := a, b := b, imm := immZero }

/-- The opcode, accept set and fields of a program instruction; none for the events of the host and the
hardware units, which have no instruction word. The instructions whose A refuses a queue as an address base (R189) are
those that access memory there, hload, kvmap, kvswap, kvtrunc, kvwin, stframe, stadv and coll among them; vred of
operations 3 to 5 at a float type has a bad immediate (R288). DESIGN CHOICE, assumption 76. -/
def Instr.parts : Instr → Option (Nat × Form × Fmt)
  | .nop f => some (0x00, formNone immZero, f)
  | .brk f => some (0x01, formNone (immLow 16), f)
  | .j f => some (0x02, formNone immAny, f)
  | .jal f => some (0x03, ⟨tyI64, v0, kXQ, kNone, kNone, immAny⟩, f)
  | .jr f => some (0x04, ⟨tyI64, v0, kXQN, kX, kNone, immZero⟩, f)
  | .call f => some (0x05, ⟨tyI64, v0, kXQN, kXN, kNone, immA⟩, f)
  | .ret f => some (0x06, ⟨tyI64, v0, kNone, kX, kNone, immZero⟩, f)
  | .loop f => some (0x07, ⟨tyI64, v0, kX, kNone, kNone, immAny⟩, f)
  | .rep f => some (0x08, ⟨tyI64, v0, kNone, kXQN, kNone, (fun f => f.imm.toNat < 2 ^ 19 && (f.a.isNone || (f.imm.toNat / 16) % 2 ^ 12 == 0))⟩, f)
  | .add f => some (0x10, formInt (fun _ v _ => satVar v), f)
  | .sub f => some (0x11, formInt (fun _ v _ => satVar v), f)
  | .mul f => some (0x12, formInt v0, f)
  | .mulh f => some (0x13, formInt v0, f)
  | .div f => some (0x14, formInt v0, f)
  | .rem f => some (0x15, formInt v0, f)
  | .and f => some (0x16, formInt v0, f)
  | .or f => some (0x17, formInt v0, f)
  | .xor f => some (0x18, formInt v0, f)
  | .andn f => some (0x19, formInt v0, f)
  | .shl f => some (0x1A, formInt v0, f)
  | .shr f => some (0x1B, formInt v0, f)
  | .sra f => some (0x1C, formInt v0, f)
  | .min f => some (0x1D, formInt v0, f)
  | .max f => some (0x1E, formInt v0, f)
  | .bits f => some (0x1F, ⟨tyInt, (vUpTo 3), kDst, kSrc, kNone, immZero⟩, f)
  | .cmp f => some (0x20, ⟨tyInt, (vUpTo 5), (fun _ => [.p, .x, .q]), kSrc, kSrcI, immB⟩, f)
  | .sel f => some (0x21, ⟨tyInt, v0, kDst, kSrc, kSrc, (immLow 4)⟩, f)
  | .mov f => some (0x22, ⟨tyInt, v0, (fun _ => [.x, .p, .q]), (fun _ => [.x, .p, .q, .const, .none]), kNone, immA⟩, f)
  | .movhi f => some (0x23, ⟨tyI64, v0, kDst, kXQN, kNone, immAny⟩, f)
  | .ext f => some (0x24, ⟨(fun t => t == .i64 || t == .n64), v0, kDst, kXQ, kNone, immField⟩, f)
  | .ins f => some (0x25, ⟨(fun t => t == .i64 || t == .n64), v0, kX, kXQ, kNone, immField⟩, f)
  | .plog f => some (0x26, ⟨tyI64, (vUpTo 5), kP, kP, (fun v => if v == 5 then [.none] else [.p]), immZero⟩, f)
  | .addr f => some (0x27, ⟨tyI64, (vUpTo 2), (fun _ => [.xLow]), (fun v => if v == 2 then [.none] else [.x, .q]), kXQ, (fun f => if f.var.val == 0 then f.imm.toNat < 8 else f.imm == 0)⟩, f)
  | .csrr f => some (0x28, ⟨tyI64, v0, kDst, (fun _ => [.csr]), kNone, immZero⟩, f)
  | .csrw f => some (0x29, ⟨tyI64, v0, (fun _ => [.csrW]), kSrcI, kNone, immA⟩, f)
  | .csrs f => some (0x2A, ⟨tyI64, v0, (fun _ => [.csrW]), kSrcI, kNone, immA⟩, f)
  | .csrc f => some (0x2B, ⟨tyI64, v0, (fun _ => [.csrW]), kSrcI, kNone, immA⟩, f)
  | .cvt f => some (0x2C, ⟨tyCvt, vCvt, kDst, kSrc, kNone, (fun f => f.imm.toNat ≤ 12)⟩, f)
  | .fadd f => some (0x2D, ⟨tyFlt, vRound, kDst, kSrc, kSrc, immZero⟩, f)
  | .fmul f => some (0x2E, ⟨tyFlt, vRound, kDst, kSrc, kSrc, immZero⟩, f)
  | .fma f => some (0x2F, ⟨tyFlt, vRound, kX, kSrc, kSrc, immZero⟩, f)
  | .ld f => some (0x30, ⟨tyInt, (vUpTo 1), kDst, kX, kNone, immAny⟩, f)
  | .st f => some (0x31, ⟨tyInt, (vUpTo 1), kNone, kX, kSrc, immAny⟩, f)
  | .ldp f => some (0x32, ⟨(fun t => t == .i64 || t == .n64), (vUpTo 1), kEven, kX, kNone, immAny⟩, f)
  | .stp f => some (0x33, ⟨(fun t => t == .i64 || t == .n64), (vUpTo 1), kNone, kX, kEven, immAny⟩, f)
  | .pref f => some (0x34, ⟨tyI64, (vIs 0), kNone, kX, kNone, immAny⟩, f)
  | .prefRow f => some (0x34, ⟨tyI64, (vIs 1), kNone, kX, kNone, immAny⟩, f)
  | .amo f => some (0x35, ⟨tyInt, (vUpTo 6), kDstN, kX, kSrc, (immOrder (fun _ => true))⟩, f)
  | .cas f => some (0x36, ⟨tyInt, v0, kX, kX, kSrc, (immOrder (fun _ => true))⟩, f)
  | .amored f => some (0x37, ⟨tyNum, (fun t v _ => v == 0 || v == 4 || v == 5 || (!t.isFloat && v ≤ 5)), kXN, kX, kSrc, (immOrder (fun o => o % 2 == 0))⟩, f)
  | .waitw f => some (0x38, ⟨(fun t => t == .i64 || t == .i32 || t == .n64 || t == .n32), (vUpTo 1), kNone, kX, kSrc, (fun f => immOrder (fun o => o ≤ 1) f && (f.imm.toNat / 8 == 1 || f.imm == 0))⟩, f)
  | .phase f => some (0x39, formNone (immOrder (fun o => o == 3)), f)
  | .rel f => some (0x3A, formNone (immOrder (fun o => o == 2)), f)
  | .acq f => some (0x3B, formNone (immOrder (fun o => o == 1)), f)
  | .fenceSc f => some (0x3C, formNone (immOrder (fun o => o == 0)), f)
  | .fenceIo f => some (0x3C, ⟨tyI64, (vIs 1), kNone, kNone, kNone, (immOrder (fun o => o == 0))⟩, f)
  | .cinvLine f => some (0x3D, ⟨tyI64, v0, kNone, kX, kNone, immAny⟩, f)
  | .cinvAll f => some (0x3D, formI 1 kNone kNone kNone, f)
  | .qpush f => some (0x40, ⟨tyI64, v0, kQ0, (fun _ => [.x, .v, .q, .const]), kNone, immZero⟩, f)
  | .qpop f => some (0x41, ⟨tyI64, v0, (fun _ => [.x, .v, .q]), kQ0, kNone, immZero⟩, f)
  | .qadv f => some (0x42, ⟨tyI64, v0, kNone, kQ0, kCnt, immB⟩, f)
  | .qprod f => some (0x43, ⟨tyI64, v0, kNone, kQ0, kCnt, immB⟩, f)
  | .qwaitFill f => some (0x44, ⟨tyI64, v0, kNone, kQ0, kCnt, immB⟩, f)
  | .qwaitRoom f => some (0x44, ⟨tyI64, (vIs 1), kNone, kQ0, kCnt, immB⟩, f)
  | .qfree f => some (0x45, ⟨tyI64, v0, kNone, kQ0, kNone, immZero⟩, f)
  | .qbind f => some (0x46, ⟨tyI64, v0, kX, kQ0, kX, immZero⟩, f)
  | .qstat f => some (0x47, formI 0 kX kQ0 kNone, f)
  | .qstatHead f => some (0x47, formI 1 kX kQ0 kNone, f)
  | .qstatTail f => some (0x47, formI 2 kX kQ0 kNone, f)
  | .tour f => some (0x48, formI 0 kXN kX kNone, f)
  | .tourBind f => some (0x48, formI 1 kXN kQ0 kNone, f)
  | .trel f => some (0x49, formI 0 kXN kQ0 kXN, f)
  | .trelEnd f => some (0x49, formI 1 kXN kQ0 kXN, f)
  | .tstat f => some (0x4A, formI 0 kXQ kX kNone, f)
  | .tstatHead f => some (0x4A, formI 1 kXQ kQ0 kNone, f)
  | .splprepOpen f => some (0x4B, formI 0 kXN kX kQ0, f)
  | .splprepStage f => some (0x4B, formI 1 kXN kVQ kX, f)
  | .splprepBind f => some (0x4B, formI 2 kXN kQ0 kQ0, f)
  | .splprepDrop f => some (0x4B, formI 3 kXN kX kX, f)
  | .splinj f => some (0x4C, formI 0 kXN kVQ kQ0, f)
  | .splstat f => some (0x4D, formI 0 kXQ kX kNone, f)
  | .splstatTake f => some (0x4D, formI 1 kXQ kQ0 kNone, f)
  | .splstatInh f => some (0x4D, formI 2 kXQ kQ0 kNone, f)
  | .rngset f => some (0x4E, ⟨tyI64, v0, kXN, kVQ, kNone, (immLow 4)⟩, f)
  | .rngget f => some (0x4F, ⟨tyI64, v0, kEven, kNone, kNone, (immLow 4)⟩, f)
  | .rnggetLeft f => some (0x4F, ⟨tyI64, (vIs 1), kXQ, kNone, kNone, (immLow 4)⟩, f)
  | .vadd f => some (0x50, formVec tyNum vArith, f)
  | .vsub f => some (0x51, formVec tyNum vArith, f)
  | .vmul f => some (0x52, formVec tyNum (fun t v _ => if t.isFloat then roundVar v else v == 0), f)
  | .vfma f => some (0x53, ⟨tyNum, vArith, kV, kVQ, kVecI, immB⟩, f)
  | .vfms f => some (0x54, ⟨tyNum, vArith, kV, kVQ, kVecI, immB⟩, f)
  | .vmin f => some (0x55, formVec tyNum v0, f)
  | .vmax f => some (0x56, formVec tyNum v0, f)
  | .vand f => some (0x57, formVec tyInt v0, f)
  | .vor f => some (0x58, formVec tyInt v0, f)
  | .vxor f => some (0x59, formVec tyInt v0, f)
  | .vshl f => some (0x5A, formVec tyInt v0, f)
  | .vshr f => some (0x5B, formVec tyInt v0, f)
  | .vsra f => some (0x5C, formVec tyInt v0, f)
  | .vcmp f => some (0x5D, ⟨tyNum, (vUpTo 5), kP, kVQ, kVecI, immB⟩, f)
  | .vsel f => some (0x5E, ⟨tyAll, v0, kVQ, kVX, kVecI, (immLow 4)⟩, f)
  | .vun f => some (0x5F, ⟨tyNum, (fun t v _ => v == 0 || v == 1 || (v == 2 && !t.isFloat) || ((v == 8 || v == 9) && t.isSigned)), kVQ, kVQ, kNone, immZero⟩, f)
  | .vmov f => some (0x60, ⟨tyAll, v0, kVQ, kVecI, kNone, immA⟩, f)
  | .vext f => some (0x61, ⟨tyAll, v0, kDst, kVQ, kSrcI, immB⟩, f)
  | .vins f => some (0x62, ⟨tyAll, v0, kV, kSrc, kSrcI, immB⟩, f)
  | .vperm f => some (0x63, ⟨tyAll, (vUpTo 1), kVQ, kVQ, kVQ, immZero⟩, f)
  | .vslide f => some (0x64, ⟨tyAll, (vUpTo 1), kVQ, kVQ, (fun _ => [.v, .q, .none]), (fun f => f.imm.toNat ≤ f.ty.lanes)⟩, f)
  | .vred f => some (0x65, ⟨tyNum, vRed, kDst, kVQ, kXQN, (fun f => f.imm.toNat ≤ (if f.ty.isFloat then 2 else 5))⟩, f)
  | .vscan f => some (0x66, ⟨tyNum, vRed, kVQ, kVQ, kNone, (fun f => f.imm.toNat ≤ 2)⟩, f)
  | .vpopc f => some (0x67, ⟨tyInt, (vUpTo 1), kDst, kP, kNone, immZero⟩, f)
  | .vcompr f => some (0x68, ⟨tyAll, v0, kVQ, kVQ, kP, immZero⟩, f)
  | .vexpnd f => some (0x69, ⟨tyAll, v0, kVQ, kVQ, kP, immZero⟩, f)
  | .vzip f => some (0x6A, ⟨tyAll, (vUpTo 1), kVQ, kVQ, kVQ, immZero⟩, f)
  | .vunzip f => some (0x6B, ⟨tyAll, (vUpTo 1), kVQ, kVQ, kVQ, immZero⟩, f)
  | .viota f => some (0x6C, ⟨tyInt, v0, kVQ, (fun _ => [.p, .none]), kNone, immZero⟩, f)
  | .vld f => some (0x6D, ⟨tyAll, (vUpTo 1), kVQ, kX, kNone, immAny⟩, f)
  | .vst f => some (0x6E, ⟨tyAll, (vUpTo 1), kNone, kX, kVX, immAny⟩, f)
  | .vldx f => some (0x6F, ⟨(fun t => t.code ≤ 10 && t.width != 8), (vUpTo 1), kVQ, kX, kVQ, immAny⟩, f)
  | .vstx f => some (0x70, ⟨(fun t => t.code ≤ 10 && t.width != 8), (vUpTo 1), kV, kX, kVX, immAny⟩, f)
  | .vlds f => some (0x71, ⟨tyAll, (vUpTo 1), kVQ, kX, kXQ, immAny⟩, f)
  | .vsts f => some (0x72, ⟨tyAll, (vUpTo 1), kX, kX, kVX, immAny⟩, f)
  | .vcvt f => some (0x73, ⟨tyCvt, vCvt, kV, kVQ, kNone, (fun f => f.imm.toNat % 16 ≤ 12 && partOk f.ty (Ty.ofCode (f.imm.toNat % 16)) f.imm.toNat)⟩, f)
  | .vcvtp f => some (0x74, ⟨tyFlt, vRound, kV, kVQ, kXQ, immCvtp⟩, f)
  | .vrequ f => some (0x75, ⟨(fun t => (1 ≤ t.code && t.code ≤ 3) || (5 ≤ t.code && t.code ≤ 13)), vRound, kVQ, kVQ, kXQ, immZero⟩, f)
  | .vscacc f => some (0x76, ⟨(fun t => t == .fp32), vRound, kV, kVQ, kVX, immZero⟩, f)
  | .vbexp f => some (0x77, ⟨(fun t => t == .bf16 || t == .fp16), (vUpTo 1), (fun v => if v == 0 then [.v, .q] else [.x, .q]), kVQ, kNone, (fun f => f.imm == 4 || f.imm == 5)⟩, f)
  | .vclip f => some (0x78, formVec tyNum v0, f)
  | .vpod f => some (0x79, ⟨(fun t => t == .pod8), vRound, kV, kVQ, kNone, (fun f => let s := f.imm.toNat % 16; ((1 ≤ s && s ≤ 3) || (8 ≤ s && s ≤ 12)) && partOk .pod8 (Ty.ofCode s) f.imm.toNat)⟩, f)
  | .vpodd f => some (0x7A, ⟨(fun t => [1, 2, 8, 9, 10].contains t.code), v0, kV, kVQ, kNone, (fun f => f.imm.toNat % 16 == 0 && partOk f.ty .pod8 f.imm.toNat)⟩, f)
  | .vdot f => some (0x7B, ⟨(fun t => [3, 7, 9, 10, 11, 12].contains t.code), vArith, kV, kVQ, kVQ, immZero⟩, f)
  | .vlut f => some (0x7C, ⟨(fun t => (1 ≤ t.code && t.code ≤ 3) || (5 ≤ t.code && t.code ≤ 12) || t == .pod8), v0, kVQ, kVQ, kVQ, immZero⟩, f)
  | .vplane f => some (0x7D, ⟨(fun t => [2, 3, 6, 7].contains t.code), v0, kV, kVQ, kNone, immZero⟩, f)
  | .vunpl f => some (0x7E, ⟨(fun t => [2, 3, 6, 7].contains t.code), v0, kV, kVQ, kNone, immZero⟩, f)
  | .mxq f => some (0x80, ⟨tyI64, v0, kNone, kVQ, kNone, immZero⟩, f)
  | .mxwm f => some (0x81, ⟨tyI64, v0, kXQ, kTile, kNone, immZero⟩, f)
  | .mxwmWait f => some (0x81, ⟨tyI64, (vIs 1), kNone, kTile, kSrcI, immB⟩, f)
  | .mxrd f => some (0x82, ⟨(fun t => t == .i32), v0, kVQ, kTile, kSrcI, immB⟩, f)
  | .mxwr f => some (0x83, ⟨(fun t => t == .i32), v0, kTile, kSrc, kVQ, immZero⟩, f)
  | .mxcont f => some (0x84, ⟨tyI64, v0, kVQ, kNone, kNone, immZero⟩, f)
  | .mxstat f => some (0x85, ⟨tyI64, v0, kXQ, kNone, kNone, immZero⟩, f)
  | .mxstatSticky f => some (0x85, ⟨tyI64, (vIs 1), kXQ, kTile, kNone, (immLow 1)⟩, f)
  | .cpq f => some (0x90, ⟨tyI64, v0, kNone, kVQ, kNone, (immLow 2)⟩, f)
  | .cpchn f => some (0x91, ⟨tyI64, v0, kNone, kXQ, kNone, (immLow 2)⟩, f)
  | .cpwm f => some (0x92, ⟨tyI64, v0, kXQ, kNone, kNone, (immLow 2)⟩, f)
  | .cpstat f => some (0x93, ⟨tyI64, v0, kXQ, kNone, kNone, (immLow 2)⟩, f)
  | .cpstatLog f => some (0x93, formI 1 kXQ kNone kNone, f)
  | .exq f => some (0x94, ⟨tyI64, v0, kNone, kVQ, kNone, immZero⟩, f)
  | .hstart f => some (0x95, ⟨tyI64, v0, kNone, kXQ, kXQ, (immLow 10)⟩, f)
  | .hstat f => some (0x96, ⟨tyI64, v0, kXQ, kNone, kNone, immZero⟩, f)
  | .hstatH f => some (0x96, ⟨tyI64, (vIs 1), kXQ, kNone, kNone, (immLow 3)⟩, f)
  | .hloadCode f => some (0x97, formI 0 kNone kX kXQ, f)
  | .hloadTmpl f => some (0x97, formI 1 kNone kX kXQ, f)
  | .kvmap f => some (0x99, formI 0 kDstN kX kSrc, f)
  | .kvmapApp f => some (0x99, formI 1 kDstN kX kSrc, f)
  | .kvmapWr f => some (0x99, formI 2 kDstN kX kSrc, f)
  | .kvswapFork f => some (0x9A, formI 0 kDstN kX kSrc, f)
  | .kvswapAccept f => some (0x9A, formI 1 kDstN kX kSrc, f)
  | .kvswapReject f => some (0x9A, formI 2 kDstN kX kSrc, f)
  | .kvtrunc f => some (0x9B, formI 0 kDstN kX kSrc, f)
  | .kvwin f => some (0x9C, formI 0 kDstN kX kSrc, f)
  | .stframe f => some (0x9D, formI 0 kEven kX kSrc, f)
  | .stadvGen f => some (0x9E, formI 0 kDstN kX kSrc, f)
  | .stadvPlay f => some (0x9E, formI 1 kDstN kX kSrc, f)
  | .coll f => some (0xA0, formI 0 kXQN kX kNone, f)
  | .cstat f => some (0xA1, formI 0 kXQ kXQ kNone, f)
  | .cstatClr f => some (0xA1, formI 1 kXQ kXQ kNone, f)
  | .tspawn f => some (0xB0, ⟨tyI64, v0, kXN, kVQ, kNone, immZero⟩, f)
  | .tend f => some (0xB1, formNone immZero, f)
  | .tyield f => some (0xB2, ⟨tyI64, v0, kNone, kXN, kNone, immZero⟩, f)
  | .tdl f => some (0xB3, ⟨tyI64, v0, kXN, kX, kNone, immZero⟩, f)
  | .tlaunch f => some (0xB4, ⟨tyI64, v0, kXN, kX, kNone, immZero⟩, f)
  | .ecall f => some (0xB5, formNone immZero, f)
  | .eret f => some (0xB6, formNone immZero, f)
  | .wfi f => some (0xB7, formNone immZero, f)
  | .mtrd f => some (0xB8, ⟨tyI64, v0, kXQ, kNone, kXN, (fun f => f.imm.toNat ≤ 12)⟩, f)
  | .tlbinvPage f => some (0xB9, formI 0 kNone kX kX, f)
  | .tlbinvCtx f => some (0xB9, formI 1 kNone kNone kX, f)
  | .tlbinvAll f => some (0xB9, formI 2 kNone kNone kNone, f)
  | .keyld f => some (0xBA, formI 0 kXN kX kX, f)
  | .keyldClear f => some (0xBA, formI 1 kXN kX kNone, f)
  | .rdtime f => some (0xBB, ⟨tyI64, v0, kXQ, kNone, kNone, immZero⟩, f)
  | .ctxsw f => some (0xBC, formI 0 kXN kX kX, f)
  | .ctxswStat f => some (0xBC, formI 1 kXN kX kNone, f)
  | .reset .. | .recoveryDoorbell .. | .doorbell .. | .mstatusClear .. | .setup .. | .teardown .. | .sysgo ..
  | .registerWrite .. | .mxpush .. | .cppush .. | .expush .. | .hstartRegister .. | .cphead ..
  | .debugWindowWrite .. | .hcmdResume .. | .hcmdKill .. | .mxcmdResume .. | .mxcmdKill .. | .cpcmdResume ..
  | .cpcmdKill .. | .hrcmdResume .. | .hrcmdKill .. | .tourcmdResume .. | .tourcmdKill .. | .readMeters ..
  | .readPresence .. | .writeTrkctl .. | .writeTrapbase .. | .writeReserve .. | .readEventlog ..
  | .raiseMgmt .. | .installSchedule .. | .setDevidx .. | .firmwareUpdate .. | .keyImport .. | .domainJoin ..
  | .domainBarrier .. | .interruptEntry .. | .timerMatch .. | .issueQuantumSwitch .. | .deadPowerDown ..
  | .budgetExpiry .. | .waitwWake .. | .waitwPoll .. | .swapExchange .. | .thresherTransfer ..
  | .launchUnitProcess .. | .taskDispatch .. | .migrateAbandon .. | .endNotice .. | .endNoticeAck ..
  | .graphEnd .. | .reserveAdjust .. | .pageWalk .. | .read .. | .write .. | .atomic .. | .flush ..
  | .scratch .. | .readData .. | .writeAck .. | .atomicData .. | .columnCommand .. | .tidleExpiry ..
  | .refresh .. | .marker .. | .flushAck .. | .fabricPacketReceive .. | .trackerEpochEnd .. | .hotPageSelect ..
  | .promotionStart .. | .promotionComplete .. | .promotionAbandon .. | .zero .. | .loadb .. | .runa ..
  | .drain .. | .cont .. | .matrixStop .. | .matrixJobComplete .. | .copy .. | .fill .. | .plane ..
  | .unplane .. | .fprint .. | .dedup .. | .kvpack .. | .gather .. | .chainRecordRead ..
  | .copyRecordComplete .. | .copyChannelStop .. | .exp2 .. | .expe .. | .recip .. | .rsqrt .. | .softrow ..
  | .expCardComplete .. | .harrowNop .. | .harrowIssue .. | .harrowWaitq .. | .harrowWaitwm ..
  | .harrowWaitc .. | .harrowSeti .. | .harrowAddi .. | .harrowCmpb .. | .harrowLoop .. | .harrowEndl ..
  | .harrowSignal .. | .harrowTrap .. | .harrowEnd .. | .tourLeg .. | .holdExpiry .. | .transitDrop ..
  | .makeGood .. | .tourComplete .. | .tourWatchdog .. | .ringPublish .. | .creditReturn .. | .markerPass ..
  | .spliceInsert .. | .spliceRemove .. | .spliceRebind .. | .drainAcknowledgement .. | .spliceComplete ..
  | .tableOperation .. | .allreduce .. | .reducescatter .. | .allgather .. | .broadcast .. | .reduce ..
  | .alltoall .. | .barrier .. | .collStep .. | .collComplete .. | .trapPacketAdmit .. | .trapConsPoll ..
  | .healthMeasure .. | .voltageReplan .. | .tdispRequest .. => none

/-- The stagger hints fall on x or v operands only (R179); checked in a rep body. The answer is the
failing position: 1 D, 2 A, 3 B. -/
def Fmt.staggerFault (f : Fmt) : Nat :=
  let bad (h : Bool) (o : Operand) : Bool := h && !(o.fits .x || o.fits .v)
  if bad f.hint.stagD f.d then 1
  else if bad f.hint.stagA f.a then 2
  else if bad f.hint.stagB f.b then 3
  else 0

/-- The first failing operand position under an accept set, or 0 (R197 row 6). DEDUCED, assumption 12. -/
def Form.operandFault (φ : Form) (f : Fmt) : Nat :=
  let v := f.var.val
  if !accepted (φ.d v) f.ty f.d then 1
  else if !accepted (φ.a v) f.ty f.a then 2
  else if !accepted (φ.b v) f.ty f.b then 3
  else 0

/-- The guard ?!p0 is never true and is refused (R185). -/
def Guard.ok (g : Guard) : Bool := !(g.neg && g.p == 0)

/-- The field checks 3 to 6 and 8 of R197 hold. -/
def Form.ok (φ : Form) (f : Fmt) : Bool :=
  f.guard.ok && φ.ty f.ty && φ.var f.ty f.var.val f.imm.toNat && φ.operandFault f == 0 && φ.imm f

/-- An opcode barred from a rep body (R232). -/
def barredInBody (op : Nat) : Bool := (0x01 ≤ op && op ≤ 0x08) || (0xB0 ≤ op && op ≤ 0xBC)

end Sys2Proof
end

