-- ==== Sys2Proof/Machine/State.lean ====
section
/-! DEFINITION. The state of one Kazzen: plain data, every piece of state the spec names. -/

namespace Sys2Proof.Machine

/-- Why the machine stops: for no reason that the spec gives. Every failure it describes is a fault packet, a status
or a log entry, and a value it leaves open is a free value. -/
inductive Fault where
  deriving DecidableEq, Repr

/-- Why an instruction is refused. -/
inductive Refusal where
  /-- The instruction has no meaning in the model yet. Raised by exec's arms only. Safe. -/
  | notModelled (mnemonic : String)
  deriving DecidableEq, Repr

/-- The fault codes of R461. -/
inductive TrapCode where
  | illegal | reservedField | align | xlate | access | key | keyExhaust | integrity | budget | lateFrame
  | tourWatchdog | spillOverflow | queueUnbound | fabricIntegrity
  deriving DecidableEq, Repr

/-- What a fault packet says of a fault besides who raised it (R464). -/
structure TrapInfo where
  code : TrapCode
  cause : Nat := 0
  opnd : Nat := 0
  auxb : Nat := 0xFF
  va : W64 := 0
  brk : Nat := 0
  tag : Nat := 0
  deferred : Bool := false
  deriving DecidableEq, Repr

/-- The sources of fault packets (R465). -/
inductive Source where
  | hart (id : Nat) | matrix (core : Nat) | copy (core ch : Nat) | harrow (core : Nat) | ring (core : Nat)
  deriving DecidableEq, Repr

/-- A fault packet: its source and its eight doublewords (R464). -/
structure Packet where
  src : Source
  dw : List W64
  deriving DecidableEq, Repr

/-- A cluster's trap unit (R467): PROD, CONS as it last read it, the packets it has written that are not consumed as far
as it knows, oldest first, and the one that it is writing. -/
structure TrapUnit where
  prod : Nat := 0
  cons : Nat := 0
  live : List Packet := []
  busy : Option Packet := none
  deriving DecidableEq, Repr

/-- A RESUME or KILL command (R472). -/
inductive UnitCmd where
  | resume | kill
  deriving DecidableEq, Repr

/-- Where a run of accesses goes: memory of this device by physical byte, a scratchpad byte, or a byte of
a peer device. A supervisor hart's access goes to a debug window (R469), a FLUSH to a memory port or tier controller
(R146). -/
inductive Place where
  | mem (phys : Nat) | spad (core off : Nat) | peer (dev addr : Nat) | debug (core off : Nat) | port (n : Nat)
  deriving DecidableEq, Repr

/-- A TLB entry: one leaf of R45, tagged with its context, with the address of the page table entry. -/
structure TlbEntry where
  ctx : Nat
  big : Bool
  /-- VA[55:16], or VA[55:29] for a 512 MiB page. -/
  vpn : Nat
  pte : W64
  entry : Nat
  deriving DecidableEq, Repr

/-- A spilled phase line (R120): its DPA, bytes and dirty mask, and which bytes an acquire has not made stale. -/
structure SpillLine where
  dpa : Nat
  /-- VA[55:6] of the last store to it (R155). -/
  va : Nat
  data : V512
  mask : W64
  valid : W64
  /-- As of a cached line (R135). -/
  fresh : Bool := true
  /-- The leaves through which it was stored to (R52). -/
  leaves : List TlbEntry := []
  deriving DecidableEq, Repr

/-- An entry of the A to E copy queue: a value, or one that a load on its way will give (R173). -/
inductive CopyEntry where
  | ready (v : V512) | awaits (load : Nat)
  deriving DecidableEq, Repr

/-- A load whose instruction has issued it and gone on: its number, its register, and what it loads (R125, R170). -/
structure Pending where
  id : Nat
  reg : Fin 32
  ty : Ty
  deriving DecidableEq, Repr

/-- The destination set of a hart (R145): bit maps of local ports and tier channels, peers with the
paths used, and the overflow mark. -/
structure DestSet where
  ports : List Nat := []
  tiers : List Nat := []
  peers : List (Nat × List Nat) := []
  overflow : Bool := false
  deriving DecidableEq, Repr

/-- A declared region of a footprint (R152). -/
structure Region where
  va : Nat
  size : Nat
  deriving DecidableEq, Repr

/-- A continuation record is 64 bytes (R385); a slice is the run of one (R387). -/
structure Slice where
  record : V512
  launch : Nat
  /-- The deadline the slice started with (R376). -/
  d0 : W64
  counting : Bool
  /-- The loss this slice reruns, if it does (R399). -/
  loss : Option Nat := none
  deriving DecidableEq, Repr

/-- One register bank of a hart: everything R161 lists and what a debug window shows (R471). -/
structure Hart where
  x : Vector W64 32 := Vector.replicate 32 0
  v : Vector V512 32 := Vector.replicate 32 0
  p : Vector W64 8 := Vector.replicate 8 0
  apc : W64 := 0
  epc : W64 := 0
  /-- The stream queues (R173, R174), and the instructions that the access stream has passed and the execute stream has
  not, as the access stream decoded them (R172, R175). -/
  branchQ : List W64 := []
  copyAE : List CopyEntry := []
  copyEA : List V512 := []
  lag : List Instr := []
  /-- The rep state at which the execute stream stands, while it lags. -/
  erep : BitVec 36 := 0
  /-- The values of consumer operands that the access stream has handed to the instruction that the execute stream
  issues, by handle and count (R178). -/
  feed : List ((Fin 16 × Nat) × V512) := []
  /-- Loads that the hart has issued and whose data it has not, oldest first, and the number of the next (R125). -/
  pend : List Pending := []
  nextPend : Nat := 0
  /-- The access of the hart's instruction awaits its translation (R49), and the page for which a load that is to be
  performed ahead does. -/
  xlating : Bool := false
  aheadVpn : Option Nat := none
  status : BitVec 4 := 0
  ipend : BitVec 8 := 0
  ienab : BitVec 8 := 0
  ivec : W64 := 0
  ipc : W64 := 0
  icause : BitVec 3 := 0
  irep : BitVec 36 := 0
  tcmp : W64 := 0
  cmask : W64 := 0
  dead : W64 := 0
  repst : BitVec 36 := 0
  budget : W64 := 0
  deadline : W64 := 0
  qbind : Vector W64 16 := Vector.replicate 16 0
  /-- Roles of mode-3 handles (R425): 1 IN, 2 OUT, 3 HEAD. -/
  roles : Tab Nat := []
  /-- The spill area's lines, oldest first, and its declared count (R120). -/
  spill : List SpillLine := []
  spillMax : Nat := 0
  dest : DestSet := {}
  /-- The number of its next release that sends flush markers (R146). -/
  rel : Nat := 0
  /-- Refusals that came back on an acknowledgement and are not yet taken (R367). -/
  refusals : List TrapInfo := []
  /-- SPILL_OVERFLOWs to take at the next boundaries: the set, the slot of the hart whose access waits, and the fault
  (R121). -/
  owed : List (Nat × Nat × TrapInfo) := []
  /-- Whether the TIMER condition of R165 already stood, so that the line is not set again. -/
  timerSeen : Bool := false
  /-- A slice runs, or a started supervisor's program. -/
  running : Bool := false
  /-- The last issue of the hart ended in a wait. -/
  waiting : Bool := false
  /-- A wfi waits: it is not abandoned for an interrupt (R379). -/
  inWfi : Bool := false
  /-- The granule (R369) of a sleeping waitw and whether it holds a monitor. -/
  sleep : Option (Place × Bool) := none
  poweredDown : Bool := false
  /-- The last wait was inside a rel or phase, which a swap lets complete (R136). -/
  inRel : Bool := false
  /-- The write footprints that the waiting instruction has waited for: the job, and the region (R156). -/
  waited : List (Nat × Region) := []
  /-- Accesses of a waiting vector store that are performed, by their number (R297). -/
  groupsDone : List Nat := []
  /-- The SPILL_OVERFLOWs that the hart has taken, until a RESUME: the set, and the slot of the hart whose access waits
  (R121). -/
  spillSet : List (Nat × Nat) := []
  frozen : Bool := false
  /-- A KILL that acts at the next joined boundary (R472). -/
  killNext : Bool := false
  cmd : Option UnitCmd := none
  lastPacket : List W64 := []
  slice : Option Slice := none
  deriving DecidableEq, Repr

/-- A cached pointer entry of R47: level 1 tagged by VA[55:42], level 2 by VA[55:29]. -/
structure PtrEntry where
  ctx : Nat
  level : Nat
  tag : Nat
  next : Nat
  deriving DecidableEq, Repr

/-- A missing page that a cluster tracks, and its walk (R46, R47): the cores that wait for it, the walker that has taken
it up, and the table and level to read next. -/
structure WalkReq where
  cluster : Nat
  ctx : Nat
  vpn : Nat
  cores : List Nat
  walker : Option Nat := none
  table : Nat := 0
  level : Nat := 1
  deriving DecidableEq, Repr

/-- What a walk that found no leaf answers: the fault of R42 or R86. -/
structure WalkMiss where
  core : Nat
  ctx : Nat
  vpn : Nat
  info : TrapInfo
  deriving DecidableEq, Repr

/-- A data cache line (R64, R65): Clean, or Phase of a hart slot. Lines of a set stand least recently
used first. -/
structure CacheLine where
  ctx : Nat
  /-- DPA[55:6]. -/
  line : Nat
  owner : Option (Fin 4)
  data : V512
  mask : W64
  /-- VA[55:6] of the last store to it, or of its fill (R155, R156). -/
  va : Nat := 0
  /-- Bytes that are dirty or were filled since the last acquire that made them stale (R128, R138, R140). -/
  valid : W64 := 0xFFFFFFFFFFFFFFFF
  /-- The bytes as filled are as new as any that a hart of the core has read there since: no acquire and no newer fill
  came between (R135, R138, R140). -/
  fresh : Bool := true
  /-- The leaves through which a Phase line was stored to (R52). -/
  leaves : List TlbEntry := []
  deriving DecidableEq, Repr

/-- An instruction cache line (R68): VA[55:6], context and bytes. -/
structure ILine where
  ctx : Nat
  line : Nat
  data : V512
  deriving DecidableEq, Repr

/-- What a core has once, whatever its context. -/
structure Core where
  active : Option Nat := none
  shadow : Option Nat := none
  /-- When the shadow bank's context last left the active bank (R399). -/
  outSince : Nat := 0
  /-- The context of a requested swap whose exchange waits for the conditions of R169. -/
  swapTo : Option Nat := none
  /-- Parts the thresher has still to move after exchanges (R474, R477): 0 units, 1 Phase lines, 2 + r
  scratchpad region r. -/
  todo : List Nat := []
  tlb : List TlbEntry := []
  /-- Keyed by set, DPA[13:6]. -/
  dcache : Tab (List CacheLine) := []
  icache : Tab (List ILine) := []
  /-- The slot that issues and the cycles it has issued in a row (R167). -/
  runSlot : Nat := 0
  issued : Nat := 0
  deriving DecidableEq, Repr

/-- Who made a request (R71). -/
inductive Agent where
  | hart (id : Nat) | matrix (core : Nat) | copy (core ch : Nat) | exponent (core : Nat) | harrow (core : Nat)
  | ring (core : Nat) | walker (die n : Nat) | promotion | thresher (core : Nat) | peer (dev : Nat)
  | launcher (slot : Nat)
  /-- A cluster's trap unit (R468). -/
  | trap (cluster : Nat)
  /-- A drill processor's segments, made as the issuing core's (R483). -/
  | drill (core : Nat)
  /-- The table unit of a memory port or tier controller (R446). -/
  | table (unit : Nat)
  deriving DecidableEq, Repr

/-- The read-modify-write operations (R364 to R366). -/
inductive RmwOp where
  | add | and | or | xor | min | max | swap
  /-- Compare with the expected value. -/
  | cas (expected : W64)
  /-- Subtract 1 from a count that is not zero (R445). -/
  | dec
  deriving DecidableEq, Repr

/-- A request message (R75). -/
structure Request where
  kind : ReqKind
  agent : Agent
  ctx : Nat
  place : Place
  /-- Bytes of a read or write. -/
  size : Nat
  mask : W64 := 0
  data : V512 := 0
  op : RmwOp := .add
  ty : Ty := .i64
  /-- Tag of a reduce-store (R149). -/
  tag : Option W64 := none
  reduce : Bool := false
  /-- A reduce-store of a RESTART slice (R399). -/
  rerun : Bool := false
  /-- The address a fault of the access names. -/
  va : W64 := 0
  /-- The page's ENC bit and the key handle presented, 0 for none (R86, R98). -/
  enc : Bool := false
  key : Nat := 0
  /-- The leaf that translated the access: what the hot-page tracker sees, and what a held access is translated
  again by (R88, R94). -/
  leaf : Option TlbEntry := none
  /-- Of a release write, the leaves through which its line was stored to (R52). -/
  through : List TlbEntry := []
  /-- The path of a packet to a peer (R143). -/
  path : Nat := 0
  /-- The hart of a peer device that made the request, or whose release sent the flush (R146). -/
  origin : Nat := 0
  /-- A tier controller at which a promotion met the access and sent it on: a FLUSH there waits for it (R94, R146). -/
  home : Option Nat := none
  /-- What a peer's flush markers carry: the release, and the paths that they go out on (R146). -/
  rel : Nat := 0
  paths : List Nat := []
  /-- The job for which an engine makes it. -/
  job : Option Nat := none
  /-- No instruction waits for the answer: a store, a reduce-store, or a read that is no longer wanted. -/
  posted : Bool := false
  /-- A load performed before the instruction that asks for it, or a fetch: no instruction has issued it (R125, R177). -/
  ahead : Bool := false
  /-- A fill that may be kept as a Clean line: no hart of its core has filled or published the line since (R135). -/
  fresh : Bool := true
  /-- How often a later request was performed ahead of this one (R72). -/
  passed : Nat := 0
  deriving DecidableEq, Repr

/-- The status a response carries (R75, R367). -/
inductive RespStatus where
  | ok | duplicate | absent | integrity | fabric | foreign
  /-- KEY_EXHAUST (R103). -/
  | exhaust
  deriving DecidableEq, Repr

/-- A response message (R75). -/
structure Response where
  kind : ReqKind
  agent : Agent
  ctx : Nat
  place : Place
  size : Nat
  data : V512
  status : RespStatus
  va : W64 := 0
  /-- As the request's. -/
  job : Option Nat := none
  posted : Bool := false
  ahead : Bool := false
  fresh : Bool := true
  deriving DecidableEq, Repr

/-- A DRAM bank's row buffer (R77): the open row, and the instant at which its idle timer reads zero, in eighths of a
memory-clock cycle times five. -/
structure RowBuf where
  row : Option Nat := none
  timer : Nat := 0
  deriving DecidableEq, Repr

/-- An entry of a duplicate window (R150). -/
structure DupEntry where
  /-- Position in the order of all entries (R399). -/
  ord : Nat
  tag : W64
  place : Place
  op : RmwOp
  ty : Ty
  deriving DecidableEq, Repr

/-- The states of a key slot (R96). -/
inductive KeyState where
  | empty | loaded | retired
  deriving DecidableEq, Repr

structure KeySlot where
  key : BitVec 256 := 0
  owner : Nat := 0
  st : KeyState := .empty
  deriving DecidableEq, Repr

/-- An imported key that waits for its keyld (R381, R509). -/
structure Ticket where
  ctx : Nat
  key : BitVec 256
  deriving DecidableEq, Repr

/-- A tour tile that stands published in a ring slot (R408), with the cycle its hold began (R410). -/
structure Visit where
  arr : Nat
  origin : Nat
  tourId : Nat
  stop : Nat
  mg : Bool
  since : Nat
  hold : Nat
  /-- Contents voided by a reclaim behind the head or under a captured job (R410). -/
  void : Bool := false
  /-- A make-good copy into this captured slot is still to land (R410). -/
  refill : Bool := false
  /-- The tour ended while the slot was published (R417). -/
  ended : Bool := false
  deriving DecidableEq, Repr

/-- A slot whose tile is being copied out toward the next stop (R408, R411). -/
structure Transit where
  arr : Nat
  origin : Nat
  tourId : Nat
  /-- Cycles that it has waited for room at the next stop. -/
  waited : Nat := 0
  hold : Nat
  /-- The tile's bytes as they stood at the trel. -/
  data : Nat
  deriving DecidableEq, Repr

/-- A splice marker between slots (R428): SPLICE, or ABORT. What it is to do stands in its pipeline's splice. -/
structure Marker where
  /-- PP at its arrival. -/
  pos : Nat
  /-- Pipeline key: controller core × 65536 + PIPEID. -/
  pipe : Nat
  abort : Bool := false
  /-- The change is still to be made at the effect point. -/
  live : Bool := true
  /-- Taken by the addressed stage's hart (R428). -/
  taken : Bool := false
  /-- Line 4 of the addressed stage's hart has been set (R432). -/
  told : Bool := false
  deriving DecidableEq, Repr

/-- A ring of a core's ring unit (R248): base and slot size in bytes from the core's scratchpad. -/
structure Ring where
  decl : Bool := false
  base : Nat := 0
  slotBytes : Nat := 0
  count : Nat := 0
  pp : Nat := 0
  cp : Nat := 0
  tour : Bool := false
  stage : Bool := false
  /-- The core and link key of the bound peer producer (R250). -/
  peer : Option (Nat × Nat) := none
  visits : List Visit := []
  transit : List Transit := []
  markers : List Marker := []
  /-- The link key of the OUT handle bound with this IN ring (R425). -/
  outKey : Option Nat := none
  /-- The pipeline that holds or has reserved the ring, and its stage index there. -/
  member : Option (Nat × Nat) := none
  /-- The region inherited by this stage and not yet read (R432). -/
  inherit : Option W64 := none
  /-- The code of a REBIND that has passed, for the take that let it (R432). -/
  rebound : Option W64 := none
  /-- Free slots reserved for the tiles of tours (R409). -/
  reserved : Nat := 0
  deriving DecidableEq, Repr

/-- A peer producer's end of a ring, keyed slot × 16 + handle in its core's unit (R250). -/
structure Link where
  core : Nat
  ring : Nat
  /-- The ring's shape as the binding found it. -/
  base : Nat
  slotBytes : Nat
  count : Nat
  pp : Nat
  credit : Nat
  /-- Slots published that have not yet arrived at the owner (R253). -/
  flying : Nat := 0
  /-- Publications held after an effect point (R431), until the drain acknowledgement of a pipeline, which has been sent,
  arrives; where a stage was removed the counters are then set anew. -/
  held : Bool := false
  ackOf : Option Nat := none
  renew : Bool := false
  /-- The launch that declared the ring has ended: publications wait without limit (R426). -/
  dead : Bool := false
  /-- SEQ of the last DATA slot published (R429). -/
  lastSeq : W32 := 0xFFFFFFFF
  deriving DecidableEq, Repr

/-- What travels on the ring network toward a ring or back to a producer (R75, R250, R428). -/
inductive RingPayload where
  | slot (idx : Nat) (data : V512)
  | publish (n : Nat)
  | credit (n : Nat)
  | marker (m : Marker)
  /-- A tile of a tour for one of its stops, or for a captured slot there (R409, R410). -/
  | tile (origin id stop : Nat) (mg : Bool) (into : Option Nat) (data : Nat)
  deriving DecidableEq, Repr

structure RingMsg where
  src : Nat
  dst : Nat
  ctx : Nat
  ring : Nat
  /-- Link key at the producer's core. -/
  link : Nat
  /-- From an OUT or HEAD handle (R425). -/
  staged : Bool := false
  /-- To a ring whose launch has ended: it waits without limit (R426). -/
  dead : Bool := false
  body : RingPayload
  deriving DecidableEq, Repr

/-- Where a leg of a tour copies from (R409). -/
inductive LegFrom where
  | src | slot (core ring arr : Nat)
  deriving DecidableEq, Repr

structure Leg where
  stop : Nat
  source : LegFrom
  mg : Bool := false
  /-- The captured slot a make-good copy refills (R410). -/
  into : Option Nat := none
  /-- Its slot is reserved, or it may write its captured slot (R409). -/
  reserved : Bool := false
  /-- Its tile is on the ring network. -/
  sent : Bool := false
  /-- Bytes of SRC read so far. -/
  got : List Byte := []
  deriving DecidableEq, Repr

inductive TourState where
  | fetching | travelling | makingGood | stopped
  deriving DecidableEq, Repr

/-- A tour kept at its origin (R405, R409). -/
structure Tour where
  src : W64
  bytes : Nat
  key : Nat
  nstop : Nat
  /-- Core, ring and hold limit of each stop. -/
  stops : List (Nat × Nat × Nat)
  makegood : Bool
  loop : Bool
  irq : Bool
  cword : W64
  cvalue : W32
  wd : Nat
  hart : Nat
  st : TourState := .fetching
  cur : Nat := 0
  owed : Nat := 0
  laps : Nat := 0
  legs : List Leg := []
  /-- Accepted by its origin; the push release of its hart is still to end (R416, R421). -/
  offered : Bool := false
  finished : Bool := false
  /-- Stops that Finish still has to make good. -/
  goods : List Nat := []
  /-- Published visits not yet released. -/
  open_ : Nat := 0
  /-- Cycles the watchdog has counted since the last delivery, release, reclaim or drop (R418). -/
  dog : Nat := 0
  /-- The first read of SRC is done (R416). -/
  firstRead : Bool := false
  status : Nat := 0
  /-- A TOURCMD given while the context was out (R472). -/
  cmd : Option UnitCmd := none
  deriving DecidableEq, Repr

/-- A stage of a kept pipeline (R424). -/
structure Stage where
  core : Nat
  ring : Nat
  code : W64
  region : W64
  next : Nat
  deriving DecidableEq, Repr

/-- The splice in flight (R429, R434). -/
structure Splice where
  opk : Nat
  target : Nat
  aux : Nat
  code : W64
  cword : W64
  cvalue : W32
  irq : Bool
  hart : Nat
  /-- 1 travelling to the effect point, 2 draining, 3 aborting. -/
  phase : Nat := 1
  status : Nat := 0
  /-- The head handle is the effect point, and the change is still to be made there. -/
  atHead : Bool := false
  /-- The link held since the effect point: core and link key. -/
  holding : Option (Nat × Nat) := none
  /-- The marker has passed the tail. -/
  tailPassed : Bool := false
  /-- The removed stage, until it has left. -/
  leaver : Option Stage := none
  /-- The STATE region of a removed stage, for its heir (R432). -/
  legacy : W64 := 0
  deriving DecidableEq, Repr

/-- A pipeline kept by a controller, keyed by PIPEID (R423, R426). -/
structure Pipe where
  scope : Nat
  stages : Tab Stage
  first : Nat
  /-- Link key of the HEAD handle on the controller's core. -/
  head : Nat
  /-- The stage reserved and not yet inserted (R439). -/
  reserved : Option (Nat × Stage) := none
  splice : Option Splice := none
  sseq : W32 := 0
  lstatus : Nat := 0
  deriving DecidableEq, Repr

/-- The engines of a core that hold jobs. -/
inductive Engine where
  | matrix | copy (ch : Nat) | exponent | tour (id : Nat)
  deriving DecidableEq, Repr

/-- Where a completion goes, translated at the push and held as one segment until it is written (R50, R313). -/
structure CDest where
  place : Place
  entry : Option TlbEntry
  deriving DecidableEq, Repr

/-- A job the hazard unit tracks (R154): its regions, whether its reads are done, and up to which address a copy has
filled (R157, R345). -/
structure Job where
  id : Nat
  engine : Engine
  reads : List Region
  writes : List Region
  cdest : Option CDest := none
  /-- Key handles with which it passed R97. -/
  keys : List Nat := []
  /-- Where its payload has been written (R145, R158). -/
  dest : DestSet := {}
  /-- How a posted payload write of it was refused (R86, R324). -/
  refused : Option TrapInfo := none
  readsDone : Bool := false
  /-- Bytes of the first write region filled so far. -/
  filled : Nat := 0
  /-- The hart that pushed it or whose cpchn began its chain. -/
  hart : Nat
  deriving DecidableEq, Repr

/-- A card in an engine's queue (R309, R355): `cap` is the ring slot that a LOADB from a tour captured (R313). -/
structure Card where
  job : Nat
  card : V512
  cap : Nat := 0
  deriving DecidableEq, Repr

/-- A card that runs: rows done, the status half of its completion record (R323), and whether it has ended. `layout`
is the layout record as the engine read it (R116). -/
structure Running where
  c : Card
  row : Nat := 0
  status : Nat := 0
  ended : Bool := false
  layout : Option Nat := none
  /-- Of a SOFTROW's row: the row's maximum, and the elements written (R354). -/
  acc : List Nat := []
  deriving DecidableEq, Repr

/-- The stop states of R309. -/
inductive StopState where
  | running | stopped | held
  deriving DecidableEq, Repr

/-- The matrix engine of a core (R309). A tile element is keyed 256 × row + column, a slot cell 256 × k + n; only
nonzero values are listed. -/
structure Matrix where
  tiles : Vector (Tab Int) 2 := Vector.replicate 2 []
  slots : Vector (Tab Int) 2 := Vector.replicate 2 []
  valid : Vector Bool 2 := Vector.replicate 2 true
  sticky : Vector (BitVec 128) 2 := Vector.replicate 2 0
  wm : Vector Nat 2 := Vector.replicate 2 128
  queue : List Card := []
  loader : Option Running := none
  array : Option Running := none
  port : Option Running := none
  stop : StopState := .running
  cont : V512 := 0
  /-- The stopped or held job (R325, R327). -/
  heldJob : Option Running := none
  /-- An XLATE of the running LOADB that has not stopped the engine yet. -/
  xlate : Option TrapInfo := none
  /-- The stop came from a swap (R328). -/
  swapped : Bool := false
  cmd : Option UnitCmd := none
  deriving DecidableEq, Repr

/-- A transfer record as a channel took it (R336): its memory address if it is chained. -/
structure CopyRec where
  job : Nat
  words : V512
  inmem : Option Nat := none
  deriving DecidableEq, Repr

/-- How far a record has come (R346): being checked, moving, written back, or completing. -/
inductive CopyStage where
  | check | move | back | complete
  deriving DecidableEq, Repr

/-- A record that runs (R343): its layout records (R116), the next unit of its work, and its STATUS. -/
structure CopyRun where
  r : CopyRec
  stage : CopyStage := .check
  src : Nat := 0
  dst : Nat := 0
  pos : Nat := 0
  status : Nat := 0
  /-- Lines failed INTEGRITY (R347). -/
  hurt : Bool := false
  /-- What an operation over several units has gathered (R342, R454). -/
  acc : List Nat := []
  deriving DecidableEq, Repr

inductive ChanState where
  | idle | running | stopped
  deriving DecidableEq, Repr

/-- A copy channel (R343). -/
structure Channel where
  queue : List CopyRec := []
  head : Nat := 0
  st : ChanState := .idle
  run : Option CopyRun := none
  /-- The hart whose cpchn started the chain. -/
  hart : Nat := 0
  wm : Nat := 0
  /-- An XLATE that has not stopped the channel yet. -/
  xlate : Option TrapInfo := none
  cmd : Option UnitCmd := none
  deriving DecidableEq, Repr

/-- An entry of the copy status log (R346). -/
structure CopyLog where
  ch : Nat
  status : Nat
  tag : Nat
  deriving DecidableEq, Repr

/-- The copy engine of a core (R343, R346). -/
structure Copy where
  chans : Vector Channel 4 := Vector.replicate 4 {}
  log : List CopyLog := []
  lost : Nat := 0
  deriving DecidableEq, Repr

/-- The exponent engine of a core (R355). -/
structure Exponent where
  queue : List Card := []
  run : Option Running := none
  deriving DecidableEq, Repr

inductive HarrowState where
  | idle | running | trapped | stopped
  deriving DecidableEq, Repr

/-- The Harrow of a core (R356). -/
structure Harrow where
  code : Tab W64 := []
  tmpl : Tab V512 := []
  h : Vector W64 8 := Vector.replicate 8 0
  /-- The loop stack, top first: start and count. -/
  stack : List (Nat × W64) := []
  pc : Nat := 0
  st : HarrowState := .idle
  trapCode : Nat := 0
  starter : Nat := 0
  cmd : Option UnitCmd := none
  deriving DecidableEq, Repr

/-- The units of a core that belong to a context (R161, R256, R309, R356). -/
structure Units where
  rings : Vector Ring 16 := Vector.replicate 16 {}
  links : Tab Link := []
  tours : Tab Tour := []
  pipes : Tab Pipe := []
  /-- Jobs in flight, oldest first (R154). -/
  jobs : List Job := []
  nextJob : Nat := 0
  matrix : Matrix := {}
  copy : Copy := {}
  exponent : Exponent := {}
  harrow : Harrow := {}
  /-- Scratchpad regions written since the grant (R60). -/
  dirty : List Nat := []
  tidle : BitVec 10 := 128
  /-- Phase lines saved while the context is out (R132, R474). -/
  saved : List CacheLine := []
  deriving DecidableEq, Repr

/-- A page the hot-page tracker counts, or one selected, or one being moved (R89, R93). -/
structure HotPage where
  ctx : Nat
  vpn : Nat
  /-- DPA-local address of the leaf entry and its value at translation. -/
  entry : Nat
  pte : W64
  count : Nat := 0
  /-- The count has reached THRESH: the page is to be selected (R89). -/
  due : Bool := false
  deriving DecidableEq, Repr

/-- How far a promotion has come (R93): it looks for a frame, reads the line of a number, writes it, swaps the leaf, or
is to be abandoned. -/
inductive PromoStage where
  | pop | copy (line : Nat) | put (line : Nat) (data : V512) | swap | failed
  deriving DecidableEq, Repr

/-- A promotion under way: the page and, once it is popped from the pool, the frame with its PLACE. -/
structure Promotion where
  page : HotPage
  frame : Nat := 0
  place : Nat := 0
  stage : PromoStage := .pop
  deriving DecidableEq, Repr

/-- A frame that waits for room in its context's return ring, with its kind (R92). -/
structure Returned where
  ctx : Nat
  frame : Nat
  kind : Nat
  deriving DecidableEq, Repr

/-- TRKCTL (R89). -/
structure TrkCtl where
  thresh : Nat := 4096
  epoch : Nat := 4
  en : Bool := false
  deriving DecidableEq, Repr

/-- Entries of the event and health log (R507). -/
inductive LogEntry where
  | poolEmpty (ctx : Nat) | promoBusy (ctx : Nat) | integrity (phys : Nat) | corrected (phys : Nat)
  /-- A dropped record (R386), a lost record without REDO, a full window under a rerun (R399). -/
  | dropped (graph : Nat) | lost (graph : Nat) | windowFull (ctx : Nat)
  /-- A late dispatch or end (R396): graph, CODE and lateness in ticks. -/
  | late (graph : Nat) (code : W64) (by_ : Nat)
  /-- A collective's failed segment: context, COMMID, status and cause (R488). -/
  | collective (ctx comm status cause : Nat)
  | retire (core : Nat) | margin (die m : Nat) | fabric (dev : Nat) | bootFailed (step : Nat)
  deriving DecidableEq, Repr

/-- Counters of one 4 KiB block of an encryptable range (R99 to R102): major, and the minors by line. -/
structure BlockCtr where
  major : Nat := 0
  minors : Tab Nat := []
  deriving DecidableEq, Repr

/-- A GMAC tag, as what it covers under its key (R99): two tags are equal when these are. -/
structure Mac where
  key : BitVec 256
  /-- Channel identity of the line. -/
  ident : Nat
  major : Nat
  minor : Nat
  cipher : V512
  deriving DecidableEq, Repr

/-- A patch entry of a kernel header (R216). -/
structure Patch where
  ioff : Nat
  poff : Nat
  width : Nat
  shift : Nat
  deriving DecidableEq, Repr

/-- An active graph, keyed by graph id: what its launch reserved and how it ends (R390 to R392). -/
structure Launch where
  ctx : Nat
  mask : List Nat
  text : W64
  textSize : Nat
  entry : W64
  patches : List Patch
  params : List Byte
  budget : W64
  scope : Nat
  dword : W64
  dvalue : W64
  tqres : Nat
  spill : Nat
  /-- The device counter's own count (R400). -/
  own : Nat
  deriving DecidableEq, Repr

/-- A core's two headland counts for a graph (R400): its records not ended, its notices not acknowledged. -/
structure Headland where
  records : Nat := 0
  notices : Nat := 0
  deriving DecidableEq, Repr

/-- An end notice on its way to its origin, or its acknowledgement on the way back (R400). -/
structure Notice where
  graph : Nat
  origin : Nat
  ender : Nat
  acked : Bool := false
  deriving DecidableEq, Repr

/-- A range of a sowing unit (R402). -/
structure SowRange where
  ctx : Nat
  id : Nat
  next : Int
  last : Int
  k : Nat
  min : Nat
  p : Nat
  deriving DecidableEq, Repr

inductive SlotState where
  | free | active | tearing
  deriving DecidableEq, Repr

/-- A context slot with its launch mailbox (R498 to R501). -/
structure CtxSlot where
  st : SlotState := .free
  err : Nat := 0
  handler : W64 := 0
  pool : W64 := 0
  qbase : W64 := 0
  qback : W64 := 0
  migrate : W64 := 0
  missed : Nat := 0
  reldl : Vector W64 16 := Vector.replicate 16 0
  packet : Vector W64 32 := Vector.replicate 32 0
  busy : Bool := true
  /-- A doorbell handed PACKET to the launch unit (R500). -/
  rung : Bool := false
  overrun : Bool := false
  result : W64 := 0
  tdi : Tdi := .unlocked
  /-- The function's selective IDE stream carries its transactions (R498). -/
  ide : Bool := false
  /-- MSI-X messages raised (R500). -/
  msix : Nat := 0
  deriving DecidableEq, Repr

/-- A slice lost and not yet rerun to its end (R399): duplicate window entries with an order below `mark` were
present at the loss. -/
structure LostSlice where
  id : Nat
  ctx : Nat
  mark : Nat
  deriving DecidableEq, Repr

/-- A queued record (R393) and the loss it reruns. -/
structure QRec where
  record : V512
  loss : Option Nat := none
  deriving DecidableEq, Repr

/-- One effect of a table operation, decided and translated (R446): a write, a count that gains 1, the release of a
reference, a push to the return ring, or the NOTE line (R456). The leaf is the one that translated the place. -/
inductive TabAct where
  | write (va : W64) (at_ : Place) (leaf : Option TlbEntry) (data : List Byte)
  | add (va : W64) (at_ : Place) (leaf : Option TlbEntry)
  | release (pg : Nat) (va : W64) (at_ : Place) (leaf : Option TlbEntry)
  | push (pg : Nat)
  | note (hart ctx : Nat)
  deriving DecidableEq, Repr

/-- The return ring as a table operation uses it (R443, R445): its base, its size, the next index, where RPROD and RCONS
lie with their leaf, and the translated places of the next entries. -/
structure RetRing where
  base : W64
  size : Nat
  prod : Nat
  prodAt : Place
  consAt : Place
  leaf : Option TlbEntry
  slots : List (Place × Option TlbEntry) := []
  deriving DecidableEq, Repr

/-- The table operations (R446): the KV instructions and kvmap's use by KVPACK, Share and CasInsert, the operations on
stream records, and what those send to the table's unit. -/
inductive TabOp where
  | map (p var : Nat) | win (b : Nat) | swap (j var : Nat) | trunc (t : Nat)
  | share (j r p q : Nat)
  /-- The slot, what it must still hold, and its new contents. -/
  | insert (at_ : W64) (d new : Nat)
  | frame (stamp : Nat) | gen (b : W64) | play (b : W64) | survive (g : Nat)
  deriving DecidableEq, Repr

/-- A translation that an engine holds for the accesses of one job within one page, of its source or its destination
(R50). -/
structure Segment where
  core : Nat
  ctx : Nat
  job : Nat
  store : Bool
  entry : TlbEntry
  deriving DecidableEq, Repr

/-- A table operation at a unit (R445, R446), until its agent has taken the result: who sent it, the table's or record's
VA, and how far it has come. -/
structure TableRun where
  /-- None once every write is performed. -/
  unit : Option Nat
  /-- Nobody takes the result when the agent is none. -/
  agent : Option Agent
  core : Nat
  ctx : Nat
  va : W64
  op : TabOp
  decided : Bool := false
  acts : List TabAct := []
  /-- Where the header lies, and its 128 bytes as read. -/
  table : W64 := 0
  header : Nat := 0
  ring : Option RetRing := none
  vals : List W64 := []
  fault : Option TrapInfo := none
  /-- The leaves that translated its writes (R50, R446). -/
  leaves : List TlbEntry := []
  deriving DecidableEq, Repr

/-- How far a unit of a collective has come at this rank (R483): the stage, how many of its peers have been received
from and sent to, the elements combined so far, and what the first pass of a reproducible sum gave (R485). -/
structure CollWork where
  stage : Nat := 0
  got : Nat := 0
  gone : Nat := 0
  acc : List Nat := []
  aux : List Nat := []
  deriving DecidableEq, Repr

/-- An admitted collective (R481, R483): its block and group as taken, its ordinal in its communicator, and how far it
has come. -/
structure Coll where
  ctx : Nat
  core : Nat
  hart : Nat
  block : List W64
  group : List Nat
  ordinal : Nat
  /-- The algorithm of its steps: 1 ring, 2 double binary tree, 3 halving-doubling, 4 direct (R479). -/
  alg : Nat := 4
  /-- The job number of its segments, and where it has written (R145, R483). -/
  seg : Nat
  dest : DestSet := {}
  /-- It has passed R97, the bytes of SEND read, SEND's elements once all are, and the bytes of RECV written. -/
  began : Bool := false
  raw : List Byte := []
  own : Option (List Nat) := none
  sent : Nat := 0
  /-- Units begun, and the first one whose elements are not all in RECV. -/
  work : Tab CollWork := []
  unit : Nat := 0
  done : Bool := false
  status : Nat := 0
  sat : Bool := false
  deriving DecidableEq, Repr

/-- A chunk under way at a port (R490): its communicator and collective, the peer it goes to, and which chunk of which
block it is. -/
structure PortChunk where
  key : Nat
  ordinal : Nat
  peer : Nat
  chunk : Nat × Nat
  deriving DecidableEq, Repr

/-- A port among the communicators (R490): the chunk under way, the communicator last served, and at how many boundaries
in a row it passed each over. -/
structure PortTurn where
  now : Option PortChunk := none
  last : Option Nat := none
  passed : List (Nat × Nat) := []
  deriving DecidableEq, Repr

/-- A packet of a collective that a drill processor holds in a packet buffer of its communicator (R490): one that came and
is still to be combined, or one that has left with its sequence number and is not yet acknowledged. `note` is 0, or the
status that the packet reports in place of a step, which takes no buffer (R488). -/
structure CollBuf where
  port : Nat
  key : Nat
  ordinal : Nat
  out : Bool
  peer : Nat
  unit : Nat := 0
  stage : Nat := 0
  data : List Nat := []
  seq : Nat := 0
  note : Nat := 0
  deriving DecidableEq, Repr

/-- A communicator on this device, keyed context × 65,536 + COMMID (R482, R484, R490). -/
structure Comm where
  nextOrdinal : Nat := 0
  lstatus : Nat := 0
  sat : Bool := false
  vc : Option Nat := none
  deriving DecidableEq, Repr

/-- A receiver's stream, keyed source device × 128 + context (R494): the lowest missing number and those received
above it. -/
structure FabricStream where
  low : Nat := 0
  got : List Nat := []
  /-- By path, one more than the last number that came on it: a path keeps the order of sending (R143). -/
  paths : Tab Nat := []
  deriving DecidableEq, Repr

/-- The markers of a peer hart's release as they gather, and, once all have come, the ports that have not answered
their FLUSH (R146). -/
structure Gather where
  src : Nat
  ctx : Nat
  hart : Nat
  rel : Nat
  arrived : Nat
  ports : Option (List Nat) := none
  deriving DecidableEq, Repr

/-- The reply of the last management command or key import (R507 to R511). -/
inductive Reply where
  | none | ok
  /-- The steading's report over MCTP that the device is ready (R504). -/
  | ready
  /-- The answer to a PLDM request of type 0 or 2, whose contents the spec does not give (R507). -/
  | pldm (type : Nat) (data : W64)
  /-- ERROR_INVALID_DATA. -/
  | invalid
  /-- ERROR_NOT_READY. -/
  | notReady
  | meters (ctx : Nat) (vals : List Nat) (time : Nat)
  | presence (map : List Byte)
  | eventLog (l : List LogEntry)
  | devidx (d : Nat)
  | ticket (t : Nat)
  /-- The import buffer is full or the slot is not ACTIVE (R509). -/
  | noImport
  deriving DecidableEq, Repr

/-- What can befall memory from outside (R86, R100): an error that a line's check code corrects, one that it does not,
an error of a tree node. -/
inductive Upset where
  | soft (line : Nat) | bad (line : Nat) | node (key : Nat)
  deriving DecidableEq, Repr

/-- One turn of the schedule: a hart issues, or an event happens. -/
inductive Turn where
  | hart (id : Nat)
  | event (i : Instr)
  /-- One stream of a hart issues (R171 to R174). -/
  | access (id : Nat)
  | execute (id : Nat)
  /-- The access stream issues a load and goes on before its data are there (R125, R173). -/
  | pend (id : Nat)
  /-- A load of a hart is performed before earlier accesses of its to other banks (R125). -/
  | ahead (id : Nat) (va : W64) (n : Nat)
  /-- Memory errs. -/
  | upset (u : Upset)
  /-- The steading re-initialises the 4 KiB block of a byte under a key (R103). -/
  | renew (phys key : Nat)
  deriving DecidableEq, Repr

/-- The registers of a processor that runs programs of its own: a drill processor at a Furrow link port, with vector
registers, or a hart of the steading, without (R24, R25). The spec describes no program of theirs.
DESIGN CHOICE, assumption 54. -/
structure Warden where
  x : Vector W64 32 := Vector.replicate 32 0
  f : Vector W64 32 := Vector.replicate 32 0
  v : Vector V512 32 := Vector.replicate 32 0
  pc : W64 := 0
  /-- fcsr, and of a drill processor vl, vtype, vstart and vcsr. -/
  fcsr : W64 := 0
  vl : W64 := 0
  vtype : W64 := 0
  vstart : W64 := 0
  vcsr : W64 := 0
  deriving DecidableEq, Repr

/-- A steading's image: one that a firmware update brought, known by its number, or the bytes of one that came through
the recovery window (R505, R507). -/
inductive Firmware where
  | numbered (n : Nat) | window (bytes : Mem)
  deriving DecidableEq, Repr

/-- The whole machine. -/
structure State where
  /-- The hart whose turn it is. -/
  cur : Nat := 0
  /-- The schedule still to be followed; when it is empty the machine follows `nextAgent`. -/
  turns : List Turn := []
  /-- Position of the round robin over agents that `nextAgent` follows. -/
  auto : Nat := 0
  /-- Steps taken: the argument of the free values of time. -/
  ticks : Nat := 0
  /-- Free values drawn so far. -/
  draws : Nat := 0
  /-- The device time base in ns (R382). -/
  time : Nat := 0
  /-- Arithmetic cycles since reset: what hold counters count (R410). -/
  clock : Nat := 0
  /-- Register banks, keyed hart id × 128 + context (R161, R169). -/
  harts : Tab Hart := []
  cores : Tab Core := []
  /-- Units of a core, keyed core × 128 + context. -/
  units : Tab Units := []
  /-- The ring network, oldest first (R75). -/
  ringNet : List RingMsg := []
  /-- Scratchpads: key (core × 128 + context) × 2^19 + offset (R55, R60). -/
  spad : Mem := []
  /-- Device memory by physical byte: home-local local addresses for HBM, local addresses for the tier. -/
  mem : Mem := []
  /-- Lines whose check code fails on both reads (R86), by physical address / 64. -/
  badLines : List Nat := []
  /-- HBM lines with an error that the check code corrects (R86), by physical address / 64. -/
  softLines : List Nat := []
  /-- GMAC tags of encrypted lines, by physical address / 64; an absent tag never matches (R86, R99). -/
  macs : Tab Mac := []
  blockCtrs : Tab BlockCtr := []
  /-- Tree counters (R100), keyed by level, channel and index, and those whose node fails its check. -/
  treeCtrs : Tab Nat := []
  badNodes : List Nat := []
  trkctl : TrkCtl := {}
  /-- The tracker's page entries, keyed I/O die × 16,384 + entry id (R89). -/
  trackers : Tab HotPage := []
  /-- The cycle at which an I/O die's last tracker epoch ended. -/
  epochAt : Tab Nat := []
  promoQ : List HotPage := []
  promos : List Promotion := []
  /-- Accesses held at the tier controllers while their pages are moved, in order of arrival (R94). -/
  heldAt : List Request := []
  returnsDue : List Returned := []
  events : List LogEntry := []
  /-- Meters, keyed context × 32 + index (R380, R510). -/
  meters : Tab Nat := []
  /-- Requests sent to peer devices and not yet answered, and answers not yet used (R75, R143). -/
  outbox : List Request := []
  inbox : List Response := []
  /-- Payload writes of the engine event under way, which leave when it ends (R118, R158); empty between events. -/
  posts : List Request := []
  slots : Tab CtxSlot := []
  /-- The system slot (R503). -/
  sysentry : W64 := 0
  sysivec : W64 := 0
  sysgo : Bool := false
  launches : Tab Launch := []
  /-- Headland counters, keyed graph × 1,024 + core. -/
  headland : Tab Headland := []
  /-- Nonzero children of the counters above (R400), keyed graph × 128 + cluster, + 64 + die, and + 72 for the device. -/
  headAbove : Tab Nat := []
  notices : List Notice := []
  /-- NORMAL queues by cluster and COMM queues by die, in order of entry (R393). -/
  normalQ : Tab (List QRec) := []
  commQ : Tab (List QRec) := []
  sowing : Tab (List SowRange) := []
  /-- HI, LO and the reserve sizes k, keyed die × 64 + context (R401). -/
  hi : Nat := 8
  lo : Nat := 1
  reserve : Tab Nat := []
  /-- The period of 65,536 ticks in which each k was last adjusted. -/
  reserveAt : Tab Nat := []
  lost : List LostSlice := []
  nextLoss : Nat := 0
  /-- The order of the next duplicate window entry. -/
  nextDup : Nat := 0
  /-- What the steading found at boot: fused cores, failed channels, sizes (R504, R506). -/
  boot : BootInput := {}
  devidx : Nat := 0
  sysroot : W64 := 0
  /-- Table roots of the context slots (R39, R501). -/
  roots : Tab W64 := []
  clusterTlb : Tab (List TlbEntry) := []
  ptrCache : Tab (List PtrEntry) := []
  walkQ : List WalkReq := []
  walkMisses : List WalkMiss := []
  /-- Request and response messages on their way (R75). -/
  reqNet : List Request := []
  respNet : List Response := []
  /-- Inbound buffers of the memory ports and tier controllers, keyed by port, oldest first (R71). -/
  inbound : Tab (List Request) := []
  /-- Bank queues, keyed by ordering bank, oldest first (R71, R84). -/
  bankQ : Tab (List Request) := []
  rowBufs : Tab RowBuf := []
  /-- Duplicate windows, keyed home × 128 + context, oldest first (R150). -/
  dups : Tab (List DupEntry) := []
  tableOps : List TableRun := []
  /-- Open segments of engines (R50). -/
  segments : List Segment := []
  keys : Tab KeySlot := []
  tickets : Tab Ticket := []
  /-- Next SEQ of each source of fault packets (R465). -/
  seqs : List (Source × Nat) := []
  /-- Packets held at their sources, oldest first (R465, R467). -/
  heldPackets : List Packet := []
  /-- The steading's queue for the packets of supervisor harts: those not consumed, oldest first, and its indices (R463,
  R466). -/
  steadingQ : List Packet := []
  steadingProd : Nat := 0
  steadingCons : Nat := 0
  trapBase : Tab W64 := []
  /-- The trust domain: its members besides this device, and the epoch (R493). -/
  domain : List Nat := []
  epoch : Nat := 0
  /-- A domain barrier is under way, with the membership it leads to: new fabric requests wait (R497). -/
  barrier : Option (List Nat) := none
  streams : Tab FabricStream := []
  /-- Next sequence number toward each device and context (R494), keyed as `streams`. -/
  sent : Tab Nat := []
  /-- Streams refused until the next barrier (R495): device × 128 + context. -/
  refused : List Nat := []
  gathers : List Gather := []
  /-- The device's collective queue, in order of admission (R481). -/
  colls : List Coll := []
  /-- The packet buffers in use (R490). -/
  collBufs : List CollBuf := []
  /-- By port (R490). -/
  portTurns : Tab PortTurn := []
  comms : Tab Comm := []
  /-- The schedule image that runs, and one accepted to be installed (R483). -/
  schedule : Nat := 0
  nextSchedule : Option Nat := none
  /-- Devices with an SPDM session that may enter the domain at the next barrier (R493, R497). -/
  joined : List Nat := []
  /-- The last boot step completed, 7 when the device is ready (R504), and whether the recovery window is open, with
  its bytes (R505). -/
  bootStep : Nat := 0
  recovering : Bool := false
  recoveryWin : Mem := []
  /-- The steading's image on NVMe, and one to take effect at the next boot (R505, R507). -/
  firmware : Firmware := .numbered 0
  nextFirmware : Option Nat := none
  /-- Cores to be fused off at the next boot (R512). -/
  retired : List Nat := []
  /-- Timing margin measured, and supply voltage in steps of 5 mV, by die (R512). -/
  margins : Tab Nat := []
  voltages : Tab Nat := []
  /-- The clusters' trap units; one that has not read its descriptor since TRAPBASE was written is not listed (R467). -/
  trapUnits : Tab TrapUnit := []
  /-- Final meter snapshots not yet read, by context (R510). -/
  snapshots : Tab (List Nat) := []
  reply : Reply := .none
  /-- The drill processors by port, and their local memories, 384 KiB each, keyed port × 2^19 + byte (R24). -/
  drills : Vector Warden 36 := Vector.replicate 36 {}
  drillMem : Mem := []
  /-- The eight harts of the steading, and its SRAM of 4 MiB (R25). -/
  wardens : Vector Warden 8 := Vector.replicate 8 {}
  wardenMem : Mem := []
  deriving DecidableEq, Repr

/-- The machine at device reset, before boot (R504): every mailbox BUSY, no core granted, no hart running, time and
every register zero. DESIGN CHOICE, assumption 10. -/
def State.reset : State := {}

end Sys2Proof.Machine
end

