-- ==== Sys2Proof/Machine/Ops.lean ====
section
/-! DEFINITION. The named operations over registers and hart state, taking an exception and returning from
one. -/

namespace Sys2Proof.Machine

-- Numbering (R12 to R16).

/-- The system context of the supervisor harts (R164). -/
def sysCtx : Nat := 64
/-- Supervisor harts take ids 4,096 to 4,351 (R15). -/
def isSup (hid : Nat) : Bool := 4096 ≤ hid
def coreOf (hid : Nat) : Nat := hid / 4
def slotOf (hid : Nat) : Nat := hid % 4
def supCore (core : Nat) : Bool := 1024 ≤ core
def dieOf (core : Nat) : Nat := if supCore core then (core - 1024) / 8 else core / 128
/-- The cluster of a core (R13, R14). -/
def clusterOf (core : Nat) : Nat :=
  if supCore core then core - 1024
  else (core / 128) * 8 + (core % 128 / 16 / 4) * 4 + (core % 16) / 4
/-- The member index of a core in its cluster (R13, R14). -/
def memberOf (core : Nat) : Nat :=
  if supCore core then 16 else (core % 128 / 16 % 4) * 4 + core % 4
/-- The core that is member `m` of a cluster. -/
def memberCore (cluster m : Nat) : Nat :=
  (cluster / 8) * 128 + ((cluster % 8 / 4) * 4 + m / 4) * 16 + (cluster % 4) * 4 + m % 4

/-- A fused-off core is absent (R17, R82). -/
def present (s : State) (core : Nat) : Bool := core < 1024 && !s.boot.fusedOff.contains core

-- Cores, banks and units.

def State.core (s : State) (c : Nat) : Core := Tab.get {} s.cores c
def State.setCore (s : State) (c : Nat) (k : Core) : State := { s with cores := Tab.put s.cores c k }

/-- The context a core runs: the active bank's, or the system context on a supervisor core. A core that no context is
granted counts as context 0's. DESIGN CHOICE, assumption 56. -/
def State.ctxOf (s : State) (core : Nat) : Nat :=
  if supCore core then sysCtx else ((s.core core).active).getD 0

/-- A hart's registers at device reset: zero, but a supervisor hart is in S mode (R162, R163).
DESIGN CHOICE, assumption 10. -/
def Hart.atReset (hid : Nat) : Hart := if isSup hid then { status := 1 } else {}

/-- The register bank of a hart for a context. -/
def State.bank (s : State) (hid ctx : Nat) : Hart := Tab.get (Hart.atReset hid) s.harts (hid * 128 + ctx)
def State.setBank (s : State) (hid ctx : Nat) (h : Hart) : State :=
  { s with harts := Tab.put s.harts (hid * 128 + ctx) h }

/-- The active bank of a hart. -/
def State.hart (s : State) (hid : Nat) : Hart := s.bank hid (s.ctxOf (coreOf hid))
def State.setHart (s : State) (hid : Nat) (h : Hart) : State := s.setBank hid (s.ctxOf (coreOf hid)) h

/-- The current hart's registers. -/
def State.me (s : State) : Hart := s.hart s.cur
def State.setMe (s : State) (h : Hart) : State := s.setHart s.cur h
def State.modMe (s : State) (g : Hart → Hart) : State := s.setMe (g s.me)
def State.myCore (s : State) : Nat := coreOf s.cur
def State.myCtx (s : State) : Nat := s.ctxOf s.myCore

def State.unit (s : State) (core ctx : Nat) : Units := Tab.get {} s.units (core * 128 + ctx)
def State.setUnit (s : State) (core ctx : Nat) (u : Units) : State :=
  { s with units := Tab.put s.units (core * 128 + ctx) u }
def State.myUnit (s : State) : Units := s.unit s.myCore s.myCtx
def State.setMyUnit (s : State) (u : Units) : State := s.setUnit s.myCore s.myCtx u

-- Registers: constants, dead values, discarded writes (R161, R181, R187).

def Hart.isDead (h : Hart) (bit : Nat) : Bool := h.dead.getLsbD bit
def Hart.revive (h : Hart) (bit : Nat) : Hart := { h with dead := h.dead &&& ~~~(1#64 <<< bit) }
def Hart.kill (h : Hart) (bit : Nat) : Hart := { h with dead := h.dead ||| (1#64 <<< bit) }

/-- The values of dead registers are lost (R182); they read zero when they become live again (R181). -/
def Hart.zeroDead (h : Hart) : Hart :=
  { h with
    x := h.x.mapIdx (fun i v => if h.isDead i then 0 else v)
    v := h.v.mapIdx (fun i v => if h.isDead (32 + i) then 0 else v) }

/-- Read an x register: x0 and a dead register read zero. -/
def Hart.rx (h : Hart) (r : Fin 32) : W64 := if r = 0 ∨ h.isDead r.val then 0 else h.x[r]
/-- Write an x register: x0 discards; a dead register becomes live. -/
def Hart.wx (h : Hart) (r : Fin 32) (v : W64) : Hart :=
  if r = 0 then h else Hart.revive { h with x := h.x.set r v } r.val
def Hart.rv (h : Hart) (r : Fin 32) : V512 := if h.isDead (32 + r.val) then 0 else h.v[r]
def Hart.wv (h : Hart) (r : Fin 32) (v : V512) : Hart := Hart.revive { h with v := h.v.set r v } (32 + r.val)
/-- p0 reads all ones and discards writes. -/
def Hart.rp (h : Hart) (r : Fin 8) : W64 := if r = 0 then BitVec.allOnes 64 else h.p[r]
def Hart.wp (h : Hart) (r : Fin 8) (v : W64) : Hart := if r = 0 then h else { h with p := h.p.set r v }

/-- The last-use hints of an instruction's A and B operands mark x and v registers dead (R181). Done before
the destination is written, so that a register the instruction also writes is live. -/
def Hart.lastUse (h : Hart) (f : Fmt) : Hart :=
  let mark (on : Bool) (o : Operand) (h : Hart) : Hart :=
    match on, o with
    | true, .x r => if r = 0 then h else h.kill r.val
    | true, .v r => h.kill (32 + r.val)
    | _, _ => h
  mark f.hint.lastB f.b (mark f.hint.lastA f.a h)

-- Mode and status (R162, R163).

def Hart.modeS (h : Hart) : Bool := h.status.getLsbD 0
def Hart.ie (h : Hart) : Bool := h.status.getLsbD 1
def Hart.pie (h : Hart) : Bool := h.status.getLsbD 2
def Hart.pmode (h : Hart) : Bool := h.status.getLsbD 3
def mkStatus (mode ie pie pmode : Bool) : BitVec 4 :=
  BitVec.ofNat 4 (mode.toNat + 2 * ie.toNat + 4 * pie.toNat + 8 * pmode.toNat)

-- The program counter and the rep state (R180, R183, R231).

def Hart.pc (h : Hart) : W64 := h.apc
/-- Both streams stand at an address: between instructions they are joined. DEDUCED, assumption 5. -/
def Hart.setPc (h : Hart) (a : W64) : Hart := { h with apc := a, epc := a }
/-- R176: both streams at one program counter, and the queues between them empty. DEDUCED, assumption 5. -/
def Hart.join (h : Hart) : Hart := { h with epc := h.apc, branchQ := [], copyAE := [], copyEA := [], lag := [], pend := [] }

/-- The streams are joined and every load has its data (R176, R177). -/
def Hart.joined (h : Hart) : Bool := h.lag.isEmpty && h.pend.isEmpty

def repActive (r : BitVec 36) : Bool := r.getLsbD 19
def repPass (r : BitVec 36) : Nat := slice r.toNat 35 24
def repPos (r : BitVec 36) : Nat := slice r.toNat 23 20
def repS (r : BitVec 36) : Nat := slice r.toNat 18 16
def repMM (r : BitVec 36) : Nat := slice r.toNat 15 4
def repNN (r : BitVec 36) : Nat := slice r.toNat 3 0
def mkRep (pass pos : Nat) (active : Bool) (st mm nn : Nat) : BitVec 36 :=
  BitVec.ofNat 36 (pass % 4096 * 2 ^ 24 + pos % 16 * 2 ^ 20 + active.toNat * 2 ^ 19 + st % 8 * 2 ^ 16
    + mm % 4096 * 16 + nn % 16)

/-- Past an instruction that transfers no control: the next address, and in a rep body the next position or
pass (R231). -/
def Hart.advance (h : Hart) : Hart :=
  let r := h.repst
  let pc := h.pc
  if repActive r then
    if repPos r = repNN r then
      if repPass r = repMM r then
        Hart.setPc { h with repst := mkRep (repPass r) (repPos r) false (repS r) (repMM r) (repNN r) } (pc + 12)
      else
        Hart.setPc { h with repst := mkRep (repPass r + 1) 0 true (repS r) (repMM r) (repNN r) }
          (pc - BitVec.ofNat 64 (12 * repPos r))
    else
      Hart.setPc { h with repst := mkRep (repPass r) (repPos r + 1) true (repS r) (repMM r) (repNN r) } (pc + 12)
  else h.setPc (pc + 12)

-- Stops inside an instruction.

/-- Why an instruction does not complete now: a `wait until` that does not hold yet (it is issued again,
R177), or a fault, each with the state it leaves. -/
inductive Stop where
  | wait (s : State)
  | fault (s : State) (f : TrapInfo)
  deriving DecidableEq, Repr

abbrev Act (α : Type) := Except Stop α

abbrev Result := Host.Outcome State Fault Refusal

-- Causes (R462).
def illegal (cause : Nat) : TrapInfo := { code := .illegal, cause := cause }
def causePrivilege : Nat := 8
def causeQslot : Nat := 9
def causeBreak : Nat := 10
def causeNotask : Nat := 12
def causeEcall : Nat := 13
def accessFault (cause : Nat) (va : W64) : TrapInfo := { code := .access, cause := cause, va := va }
def alignFault (va : W64) : TrapInfo := { code := .align, va := va }
def xlateFault (cause : Nat) (va : W64) : TrapInfo := { code := .xlate, cause := cause, va := va }
/-- 0 unbound handle, 1 ROLE. -/
def queueFault (cause : Nat) : TrapInfo := { code := .queueUnbound, cause := cause }

/-- The number of a code (R461). -/
def TrapCode.num : TrapCode → Nat
  | .illegal => 1 | .reservedField => 2 | .align => 3 | .xlate => 4 | .access => 5 | .key => 6
  | .keyExhaust => 7 | .integrity => 8 | .budget => 9 | .lateFrame => 10 | .tourWatchdog => 11
  | .spillOverflow => 12 | .queueUnbound => 13 | .fabricIntegrity => 14

/-- A code is replayable when the same instruction can succeed later (R461). -/
def TrapCode.replay : TrapCode → Bool
  | .xlate | .budget => true
  | _ => false

/-- An instruction of the hart has completed: it waits no longer. -/
def Hart.awaken (h : Hart) : Hart :=
  { h with waiting := false, inWfi := false, sleep := none, poweredDown := false, inRel := false, groupsDone := []
           xlating := false }

-- Fault packets (R463 to R465).

def State.nextSeq (s : State) (src : Source) : Nat := ((s.seqs.find? (fun e => e.1 == src)).map (·.2)).getD 0
def State.bumpSeq (s : State) (src : Source) : State :=
  { s with seqs := (src, (s.nextSeq src + 1) % 2 ^ 32) :: s.seqs.filter (fun e => e.1 != src) }

/-- The UNIT, SLOT and core fields of a source. -/
def Source.unit : Source → Nat
  | .hart _ => 0 | .matrix _ => 1 | .copy _ _ => 2 | .harrow _ => 3 | .ring _ => 4
def Source.slot : Source → Nat
  | .hart id => slotOf id | .copy _ ch => ch | _ => 0
def Source.core : Source → Nat
  | .hart id => coreOf id | .matrix c => c | .copy c _ => c | .harrow c => c | .ring c => c

/-- The eight doublewords of a packet (R464). DEDUCED, assumption 45. -/
def packetWords (src : Source) (ctx seq : Nat) (pc : W64) (f : TrapInfo) : List W64 :=
  [ BitVec.ofNat 64 (seq * 2 ^ 32 + ctx % 64 * 2 ^ 24 + src.unit * 2 ^ 20 + src.slot * 2 ^ 18
      + memberOf src.core % 16 * 2 ^ 12),
    BitVec.ofNat 64 (f.brk % 2 ^ 16 * 2 ^ 48 + f.auxb % 256 * 2 ^ 40 + f.opnd % 4 * 2 ^ 32
      + f.deferred.toNat * 2 ^ 18 + f.code.replay.toNat * 2 ^ 17 + (!f.code.replay).toNat * 2 ^ 16
      + f.cause % 256 * 2 ^ 8 + f.code.num),
    BitVec.ofNat 64 (f.tag % 2 ^ 32 * 2 ^ 32), 0, pc, f.va, 0, 0 ]

/-- A source sends a packet: it is held at the source until the trap queue admits it (R465, R467). -/
def State.sendPacket (s : State) (src : Source) (ctx : Nat) (pc : W64) (f : TrapInfo) : State :=
  let p : Packet := { src := src, dw := packetWords src ctx (s.nextSeq src) pc f }
  let s := s.bumpSeq src
  { s with heldPackets := s.heldPackets ++ [p] }

/-- The PC field of a hart's packet (R464): the faulting or break instruction. After a brk the program counter
stands on the next one (R463). -/
def faultPc (h : Hart) (f : TrapInfo) : W64 :=
  if f.code == .illegal && f.cause == causeBreak then h.pc - 12 else h.pc

/-- TAKING A FAULT (R463): the hart joins its streams, freezes with its program counter where it stands, and
sends one packet. -/
def State.takeFaultOn (s : State) (hid : Nat) (f : TrapInfo) : State :=
  let h := (s.hart hid).join
  let ctx := s.ctxOf (coreOf hid)
  let at_ := faultPc h f
  let dw := packetWords (.hart hid) ctx (s.nextSeq (.hart hid)) at_ f
  let s := s.setHart hid { h.awaken with frozen := true, lastPacket := dw }
  s.sendPacket (.hart hid) ctx at_ f

def State.takeFault (s : State) (f : TrapInfo) : State := s.takeFaultOn s.cur f

/-- TAKING AN INTERRUPT (R166): the pc and the rep state are saved, the status stacked, and the hart goes to
its handler in S mode with interrupts disabled. -/
def Hart.enterInterrupt (h : Hart) (line : Nat) : Hart :=
  let h := h.join
  Hart.setPc { h with
    ipc := h.pc, irep := h.repst, repst := 0
    status := mkStatus true false h.ie h.modeS
    icause := BitVec.ofNat 3 line, waiting := false, sleep := none, inRel := false, xlating := false } h.ivec

/-- The supervisor call of R378: as an interrupt entry, but with the return address after the ecall, the
handler's ninth instruction, and %icause unchanged. -/
def Hart.enterCall (h : Hart) : Hart :=
  let h := h.join
  Hart.setPc { h with
    ipc := h.pc + 12, irep := h.repst, repst := 0
    status := mkStatus true false h.ie false } (h.ivec + 96)

/-- RETURNING (R378): the status, the rep state and the pc come back from where entry saved them. -/
def Hart.leaveHandler (h : Hart) : Hart :=
  let h := h.join
  Hart.setPc { h with
    status := mkStatus h.pmode h.pie h.pie h.pmode
    repst := h.irep } h.ipc

/-- The lowest pending and enabled line (R166). -/
def lowestLine (p : BitVec 8) : Nat := ((List.range 8).find? (fun i => p.getLsbD i)).getD 8

/-- Whether a hart takes an interrupt now (R166); a waiting wfi completes first (R379). -/
def Hart.takesInterrupt (h : Hart) : Bool :=
  h.running && !h.frozen && !h.inWfi && h.ipend &&& h.ienab != 0 && (!h.modeS || h.ie)

/-- Hardware sets a pending bit (R165). -/
def Hart.raise (h : Hart) (line : Nat) : Hart := { h with ipend := h.ipend ||| (1#8 <<< line) }

-- How an instruction ends.

/-- The queued requests of all banks, and the buffered ones of all ports. -/
def queued (t : Tab (List Request)) : List Request := (t.map (·.2)).flatten

/-- The requests that have not been performed yet, in the order in which they were sent to their bank. -/
def State.inFlight (s : State) : List Request := queued s.bankQ ++ queued s.inbound ++ s.heldAt ++ s.reqNet

/-- Change every request and response of an access that has not ended. -/
def State.mapAccess (s : State) (g : Request → Request) (h : Response → Response) : State :=
  { s with
    reqNet := s.reqNet.map g
    inbound := s.inbound.map (fun b => (b.1, b.2.map g))
    bankQ := s.bankQ.map (fun b => (b.1, b.2.map g))
    heldAt := s.heldAt.map g
    outbox := s.outbox.map g
    respNet := s.respNet.map h
    inbox := s.inbox.map h }

/-- A load whose instruction has gone on: its answer goes to its register (R170). -/
def Agent.pends (ag : Agent) (job : Option Nat) : Bool :=
  match ag with
  | .hart _ => job.isSome
  | _ => false

/-- The accesses of an agent that a test selects are wanted no more: their answers are used by nothing. -/
def State.forsake (s : State) (test : Agent → Nat → Place → Nat → ReqKind → Bool → Bool) : State :=
  let out (r : Request) : Bool := !r.agent.pends r.job && test r.agent r.ctx r.place r.size r.kind r.ahead
  let back (q : Response) : Bool := !q.agent.pends q.job && test q.agent q.ctx q.place q.size q.kind q.ahead
  let t := s.mapAccess (fun r => if out r then { r with posted := true } else r)
    (fun q => if back q then { q with posted := true } else q)
  { t with inbox := t.inbox.filter (fun q => !q.posted) }

/-- The answers that a test selects among those given and not used are wanted no more. -/
def State.forsakeDone (s : State) (test : Response → Bool) : State :=
  { s with
    respNet := s.respNet.map (fun q => if test q then { q with posted := true } else q)
    inbox := s.inbox.filter (fun q => !test q) }

/-- The table operations of an agent whose results it has not taken (R446). -/
def State.runsOf (s : State) (ag : Agent) (ctx : Nat) : List TableRun :=
  s.tableOps.filter (fun r => r.agent == some ag && r.ctx == ctx)

/-- Nobody takes the results of an agent's table operations any more. -/
def State.forsakeRuns (s : State) (ag : Agent) (ctx : Nat) : State :=
  let mine (r : TableRun) : Bool := r.agent == some ag && r.ctx == ctx
  { s with tableOps := (s.tableOps.filter (fun r => !(mine r && r.unit.isNone))).map (fun r =>
      if mine r then { r with agent := none } else r) }

/-- Accesses of an agent that ended without using their answers. -/
def State.forsakeAll (s : State) (ag : Agent) (ctx : Nat) : State :=
  (s.forsakeRuns ag ctx).forsake (fun a c _ _ _ _ => a == ag && c == ctx)

/-- An instruction of a hart has issued an access whose answer it has not used. -/
def State.accessOpen (s : State) (hid ctx : Nat) : Bool :=
  (s.inFlight ++ s.outbox).any (fun r => r.agent == .hart hid && r.ctx == ctx && !r.posted && !r.ahead && r.job.isNone) ||
    (s.respNet ++ s.inbox).any (fun q => q.agent == .hart hid && q.ctx == ctx && !q.posted && !q.ahead && q.job.isNone)

/-- An instruction of the current hart has ended: answers that it did not use are used by no other. -/
def State.dropAnswers (s : State) : State :=
  if s.accessOpen s.cur s.myCtx then s.forsake (fun a c _ _ _ ah => a == .hart s.cur && c == s.myCtx && !ah) else s

/-- Turn the end of an instruction's body into a step: completion, a wait to be issued again, or a fault
taken. -/
def settle (r : Act State) : Result :=
  match r with
  | .ok s => .next (s.dropAnswers.modMe Hart.awaken)
  | .error (.wait s) => .next (s.modMe (fun h => { h with waiting := true }))
  | .error (.fault s f) => .next (s.dropAnswers.takeFault f)

/-- The scalar guard of R185. -/
def guardOn (f : Fmt) (s : State) : Bool := (s.me.rp f.guard.p).getLsbD 0 != f.guard.neg

/-- A guarded-off instruction performs nothing and counts as one pass (R185). -/
def skip (s : State) : Result := .next (s.modMe (fun h => h.advance.awaken))

/-- An instruction under the scalar guard. -/
def scalarRun (f : Fmt) (s : State) (body : Act State) : Result :=
  if guardOn f s then settle body else skip s

/-- The privilege check of R197 comes before the guard: it is a decode check. DEDUCED, assumption 17. -/
def privileged (ok : Bool) (s : State) (r : Result) : Result :=
  if ok then r else .next (s.takeFault (illegal causePrivilege))

def fail {α : Type} (s : State) (f : TrapInfo) : Act α := .error (.fault s f)
def hold {α : Type} (s : State) : Act α := .error (.wait s)
def need (b : Bool) (s : State) (f : TrapInfo) : Act Unit := if b then .ok () else fail s f
def waitFor (b : Bool) (s : State) : Act Unit := if b then .ok () else hold s

/-- Mark last uses, change the hart and go on to the next instruction. -/
def done (f : Fmt) (s : State) (g : Hart → Hart) : State := s.modMe (fun h => (g (h.lastUse f)).advance)

end Sys2Proof.Machine
end

