-- ==== Sys2Proof/Machine/Memory.lean ====
section
/-! DEFINITION. Where bytes lie: views of device memory, ordering banks, scratchpads, and the accesses
performed at them (R35 to R38, R55 to R60, R69 to R75, R83 to R87). -/

namespace Sys2Proof.Machine

-- Device memory.

/-- The first local address of the second tier (R35). -/
def tierBase : Nat := 2 * 2 ^ 40

/-- The present tier channels in ascending order (R83). -/
def tierChannels (s : State) : List Nat := (List.range 96).filter (fun c => !s.boot.tierAbsent.contains c)
def tierCount (s : State) : Nat := (tierChannels s).length

/-- The one byte a local physical address names, whichever view names it: HBM bytes by their home-local
address, tier bytes by their own (R35 to R38, R83). None where nothing backs the address.
DESIGN CHOICE, assumption 52. -/
def physOf (s : State) (a : Nat) : Option Nat :=
  if a < 2 ^ 40 then some a
  else if a < 2 ^ 41 then
    some ((slice a 39 37 * 128 + slice a 15 9) * 2 ^ 30 + slice a 36 16 * 2 ^ 9 + slice a 8 0)
  else if a - tierBase < tierCount s * 2 ^ 35 then some a
  else none

/-- The channel of a byte: pseudo-channels 0 to 1,023, tier channels from 2,048 up (R36, R83). -/
def channelOf (s : State) (phys : Nat) : Nat :=
  if phys < 2 ^ 40 then phys / 2 ^ 30
  else 2048 + ((tierChannels s)[((phys - tierBase) / 4096) % tierCount s]?).getD 0

/-- The offset of a byte in its channel (R36, R83). -/
def channelOffset (s : State) (phys : Nat) : Nat :=
  if phys < 2 ^ 40 then phys % 2 ^ 30
  else ((phys - tierBase) / 4096 / tierCount s) * 4096 + phys % 4096

/-- The ordering bank: (pseudo-channel, c[15:10]) or (tier channel, c[15:12]) as one number (R70, R84). -/
def bankOf (s : State) (phys : Nat) : Nat :=
  let c := channelOffset s phys
  channelOf s phys * 64 + (if phys < 2 ^ 40 then slice c 15 10 else slice c 15 12)

/-- Mesh distance between two compute cores (R12, R80). -/
def meshDist (a b : Nat) : Nat :=
  let x (c : Nat) : Nat := (c / 128 % 2) * 16 + c % 16
  let y (c : Nat) : Nat := (c / 128 / 2) * 8 + c % 128 / 16
  let d (m n : Nat) : Nat := if m ≤ n then n - m else m - n
  d (x a) (x b) + d (y a) (y b)

/-- A core that may foster: present, with a working channel of its own (R80). -/
def mayFoster (s : State) (c : Nat) : Bool := present s c && !s.boot.failedChannels.contains c

/-- The nearest core of a list, ties to the lower id (R80). -/
def nearest (target : Nat) (cs : List Nat) : Option Nat :=
  cs.foldl (fun best c =>
    match best with
    | none => some c
    | some b => if meshDist target c < meshDist target b then some c else some b) none

/-- The foster of a core (R80, R81): on its die if it can be, else anywhere. -/
def fosterOf (s : State) (core : Nat) : Nat :=
  let die := (List.range 128).map (fun l => core / 128 * 128 + l)
  match nearest core (die.filter (fun c => c != core && mayFoster s c)) with
  | some c => c
  | none => (nearest core ((List.range 1024).filter (fun c => c != core && mayFoster s c))).getD core

/-- The home of a core: itself, or its foster when it is fused off or homeless (R80, R81, R506). -/
def homeOf (s : State) (core : Nat) : Nat := if mayFoster s core then core else fosterOf s core

/-- The memory port that serves a pseudo-channel, or the tier controller (R71, R80). -/
def portOf (s : State) (channel : Nat) : Nat :=
  if channel < 1024 then (if present s channel then channel else fosterOf s channel) else channel

/-- A failed pseudo-channel, for one byte or for a striped page of its die (R42). -/
def channelFailed (s : State) (ch : Nat) : Bool := s.boot.failedChannels.contains ch
def dieFailed (s : State) (die : Nat) : Bool := s.boot.failedChannels.any (fun ch => ch / 128 == die)

/-- Bytes of a channel of `size` that tags, counters and nodes hold: one seventh of the encryptable size,
where the fraction is in thirty-seconds (R101). -/
def metaBytes (frac size : Nat) : Nat := frac / 7 * (size / 32)
/-- Where a pseudo-channel's spill reserve begins (R514): 16 MiB below the metadata. -/
def spillBase (s : State) : Nat := 2 ^ 30 - metaBytes s.boot.fracHbm (2 ^ 30) - 2 ^ 24
/-- The encryptable size of a pseudo-channel and of a tier channel (R101, R514). -/
def encHbm (s : State) : Nat := Nat.min (s.boot.fracHbm * 2 ^ 30 / 32) (spillBase s)
def encTier (s : State) : Nat := s.boot.fracTier * 2 ^ 35 / 32
/-- The capacity U of the tier that page tables may map (R475). -/
def tierCapacity (s : State) : Nat := tierCount s * (2 ^ 35 - metaBytes s.boot.fracTier (2 ^ 35)) - 2 ^ 36

/-- Bytes at a local address that no page, port or engine reaches: in a failed channel, past the spill reserve's base,
or beyond the tier's capacity (R42, R101, R514). -/
def absentLocal (s : State) (a n : Nat) : Bool :=
  if a < 2 ^ 40 then channelFailed s (a / 2 ^ 30) || decide (a % 2 ^ 30 + n > spillBase s)
  else if a < 2 ^ 41 then
    dieFailed s (slice a 39 37) || decide (slice a 36 16 * 2 ^ 9 + a % 2 ^ 9 + n > spillBase s)
  else decide (a - tierBase + n > tierCapacity s)

/-- The physical address of bytes at a local address that can be reached. -/
def reachable (s : State) (a n : Nat) : Option Nat := if absentLocal s a n then none else physOf s a

-- Meters (R510).

/-- Nothing lies past the 384 KiB of a drill processor, nor past the 4 MiB of the steading (R24, R25). -/
def State.wardensFit (s : State) : Bool :=
  s.drillMem.all (fun c => c.1 / 2 ^ 19 < 36 && c.1 % 2 ^ 19 < 384 * 2 ^ 10) && s.wardenMem.all (fun c => c.1 < 2 ^ 22)

/-- What a meter counts; that of energy, the static share in picojoules (R510). -/
def State.count (s : State) (ctx idx : Nat) : Nat := Tab.get 0 s.meters (ctx * 32 + idx)
def State.addMeter (s : State) (ctx idx n : Nat) : State :=
  { s with meters := Tab.put s.meters (ctx * 32 + idx) (s.count ctx idx + n) }

/-- Energy in microjoules: the counted activity times its coefficients, plus the static share (R510).
DESIGN CHOICE, assumption 3. -/
def State.energy (s : State) (ctx : Nat) : Nat :=
  ((List.range 11).foldl (fun e i => e + Config.energyPer i * s.count ctx i) (s.count ctx 11)) / 10 ^ 6

/-- A meter of R380. -/
def State.meter (s : State) (ctx idx : Nat) : Nat := if idx = 11 then s.energy ctx else s.count ctx idx

/-- 64 bytes for each granule moved (R510): HBM reads and writes, or the tier's. -/
def State.moved (s : State) (ctx phys : Nat) (isWrite : Bool) (granules : Nat) : State :=
  s.addMeter ctx ((if phys < 2 ^ 40 then 5 else 7) + isWrite.toNat) (64 * granules)

def granules (a n : Nat) : Nat := if n = 0 then 0 else (a + n - 1) / 64 - a / 64 + 1

-- Performing accesses at an ordering bank (R73, R133).

/-- The pages a promotion is moving: the 16 units of the tier frame (R94). -/
def movingAt (s : State) (phys n : Nat) : Bool :=
  s.promos.any (fun p =>
    let f := slice p.page.pte.toNat 53 24 * 2 ^ 16
    phys < f + 2 ^ 16 && f < phys + n)

-- Requests on their way (R71, R75).

/-- The core an agent belongs to (R71). -/
def Agent.coreId : Agent → Option Nat
  | .hart id => some (coreOf id)
  | .matrix c => some c
  | .copy c _ => some c
  | .exponent c => some c
  | .harrow c => some c
  | .ring c => some c
  | .thresher c => some c
  | .drill c => some c
  | .table unit => if unit < 1024 then some unit else none
  | _ => none

/-- The ordering bank of a byte of a peer, as this device knows it: the peer's tier is one (R70).
DESIGN CHOICE, assumption 65. -/
def peerBank (dev addr : Nat) : Nat :=
  dev * 2 ^ 20 +
    (if addr < 2 ^ 40 then addr / 2 ^ 30 * 64 + slice addr 15 10
     else if addr < 2 ^ 41 then (slice addr 39 37 * 128 + slice addr 15 9) * 64 + slice addr 22 17
     else 2 ^ 19)

/-- The ordering bank of a place: a memory bank, a bank of a scratchpad, a 4 KiB block of a debug window, or a peer's
(R59, R70, R84, R470). -/
def bankAt (s : State) : Place → Option (Nat × Nat)
  | .mem p => some (0, bankOf s p)
  | .spad c o => some (1, c * 32 + o / 64 % 32)
  | .peer d a => some (2, peerBank d a)
  | .debug c o => some (3, c * 8 + o / 4096)
  | .port _ => none

/-- Two runs of bytes overlap. -/
def Place.meets (a : Place) (m : Nat) (b : Place) (n : Nat) : Bool :=
  match a, b with
  | .mem x, .mem y => x < y + n && y < x + m
  | .spad c x, .spad d y => c == d && x < y + n && y < x + m
  | .debug c x, .debug d y => c == d && x < y + n && y < x + m
  | _, _ => false

/-- The router a core's messages leave from and arrive at (R75): a supervisor core's is member 0's. -/
def routerOf (core : Nat) : Nat := if supCore core then memberCore (clusterOf core) 0 else core

/-- An agent's router; an agent of no core has one of its own. DESIGN CHOICE, assumption 66. -/
def Agent.router : Agent → Nat
  | .hart id => routerOf (coreOf id)
  | .matrix c => routerOf c
  | .copy c _ => routerOf c
  | .exponent c => routerOf c
  | .harrow c => routerOf c
  | .ring c => routerOf c
  | .thresher c => routerOf c
  | .drill c => routerOf c
  | .walker die n => 4096 + die * 16 + n
  | .promotion => 4300
  | .table unit => if unit < 1024 then routerOf unit else unit
  | .launcher slot => 4400 + slot
  | .trap cluster => 4500 + cluster
  | .peer dev => 8192 + dev

/-- The router that serves a place: of the memory port or tier controller, or of the scratchpad's or window's core (R71,
R75). -/
def Place.router (s : State) : Place → Nat
  | .mem p => portOf s (channelOf s p)
  | .spad c _ => c
  | .debug c _ => c
  | .peer d _ => 8192 + d
  | .port n => n

/-- A request must be performed before an access of an agent: it is the agent's own to the same bank (R124), or it
went before on the core's route to the same bytes (R118). -/
def Request.before (s : State) (r : Request) (ag : Agent) (pl : Place) (n : Nat) : Bool :=
  (r.agent == ag && bankAt s r.place == bankAt s pl) ||
    (ag.coreId.isSome && r.agent.coreId == ag.coreId && r.place.meets r.size pl n)

/-- An access to the scratchpad of its own core, which no message carries, waits for earlier requests of its agent and
its core (R118, R124). DESIGN CHOICE, assumption 19. DEDUCED, assumption 31. -/
def orderBusy (s : State) (ag : Agent) (pl : Place) (n : Nat) : Bool :=
  s.inFlight.any (fun r => r.before s ag pl n)

/-- A request travels no route: to the port or scratchpad of the agent's own core (R57, R72), or to a debug window,
whose blocks are banks of their own (R470). -/
def Request.direct (s : State) (r : Request) : Bool :=
  match r.place with
  | .debug _ _ => true
  | p => r.agent.coreId == some (p.router s)

/-- A message on the same route as another arrives in the order sent; where no route is travelled, only those to the
same bank do (R57, R72, R75). -/
def Request.sameRoute (s : State) (q r : Request) : Bool :=
  q.agent.router == r.agent.router && q.place.router s == r.place.router s &&
    (!(q.direct s || r.direct s) || bankAt s q.place == bankAt s r.place)

/-- A request that would enter its bank's queue is held beside it: its page is being moved, or one of its agent to the
same bank is held (R94, R124). -/
def heldBack (s : State) (r : Request) : Bool :=
  match r.place with
  | .mem p => r.agent != .promotion && (movingAt s p r.size ||
      s.heldAt.any (fun q => q.agent == r.agent && bankAt s q.place == bankAt s r.place))
  | _ => false

/-- The oldest buffered request of a bank enters its queue when the queue has room (R71), or is held (R94). -/
def pullBank (s : State) (port bank : Nat) : State :=
  let q := Tab.get [] s.bankQ bank
  let buf := Tab.get [] s.inbound port
  let mine (r : Request) : Bool := bankAt s r.place == some (0, bank)
  match buf.find? mine with
  | none => s
  | some r =>
    let t : State := { s with inbound := Tab.put s.inbound port (buf.erase r) }
    if heldBack s r then { t with heldAt := t.heldAt ++ [r] }
    else if q.length < 16 then { t with bankQ := Tab.put t.bankQ bank (q ++ [r]) }
    else s

/-- Loads of an agent performed ahead at the bank of an access that it issues now: they may have been performed before
it, so they are performed again (R124). -/
def State.dropAhead (s : State) (ag : Agent) (ctx : Nat) (pl : Place) : State :=
  let any := s.inFlight.any (fun r => r.ahead && r.agent == ag) || (s.respNet ++ s.inbox).any (fun q => q.ahead && q.agent == ag)
  if any then s.forsake (fun a c p _ _ ah => ah && a == ag && c == ctx && bankAt s p == bankAt s pl) else s

/-- Loads performed ahead by the harts of a core are performed again: a job of the core may write what they read
(R156). -/
def State.dropCoreAheads (s : State) (core ctx : Nat) : State :=
  let any := s.inFlight.any (fun r => r.ahead && r.agent.coreId == some core) ||
    (s.respNet ++ s.inbox).any (fun q => q.ahead && q.agent.coreId == some core)
  if any then s.forsake (fun a c _ _ _ ah => ah && c == ctx && a.coreId == some core) else s

-- Peers (R143, R145, R148, R494 to R496).

/-- A device of the current trust domain; this device is always one (R148, R493). -/
def inDomain (s : State) (dev : Nat) : Bool := dev == s.devidx || s.domain.contains dev

/-- How a request is refused before it leaves the device: its target is outside the domain (R496), or its stream is
refused (R495). -/
def fabricRefusal (s : State) (p : Place) (ctx : Nat) : Option RespStatus :=
  match p with
  | .peer d _ =>
    if !inDomain s d then some .foreign
    else if s.refused.contains (d * 128 + ctx) then some .fabric
    else none
  | _ => none

/-- A new request to a peer waits for the end of a domain barrier (R497). -/
def State.fabricWaits (s : State) (p : Place) : Bool :=
  s.barrier.isSome && (match p with
    | .peer _ _ => true
    | _ => false)

/-- A packet leaves for a peer: its stream's next sequence number (R494). DESIGN CHOICE, assumption 21. -/
def State.sendSeq (s : State) (p : Place) (ctx : Nat) : State :=
  match p with
  | .peer d _ => { s with sent := Tab.put s.sent (d * 128 + ctx) (Tab.get 0 s.sent (d * 128 + ctx) + 1) }
  | _ => s

/-- The path of a packet to a peer, one of 144: the sending port's choice, a free value, but the path of an
unacknowledged write of the hart to the same bank (R143). -/
def pathFor (s : State) (r : Request) : State × Nat :=
  match r.agent, s.outbox.find? (fun q => q.agent == r.agent && q.ctx == r.ctx && (q.kind == .write || q.kind == .atomic) &&
      bankAt s q.place == bankAt s r.place) with
  | .hart _, some q => (s, q.path)
  | _, _ => ({ s with draws := s.draws + 1 }, (Config.freeValue s.draws).toNat % 144)

/-- A port or tier channel enters the destination set (R145). -/
def DestSet.addLocal (d : DestSet) (port : Nat) : DestSet :=
  if port < 1024 then (if d.ports.contains port then d else { d with ports := d.ports ++ [port] })
  else if d.tiers.contains (port - 2048) then d else { d with tiers := d.tiers ++ [port - 2048] }

/-- A peer and the path used toward it: up to 32 peers, then overflow (R145). -/
def DestSet.addPeer (d : DestSet) (dev path : Nat) : DestSet :=
  match d.peers.find? (fun p => p.1 == dev) with
  | some p =>
    if p.2.contains path then d
    else { d with peers := d.peers.map (fun q => if q.1 == dev then (q.1, q.2 ++ [path]) else q) }
  | none =>
    if d.peers.length < 32 then { d with peers := d.peers ++ [(dev, [path])] } else { d with overflow := true }

/-- A destination joins a destination set (R145). -/
def DestSet.add (d : DestSet) (s : State) (r : Request) : DestSet :=
  match r.place with
  | .mem a => d.addLocal (portOf s (channelOf s a))
  | .peer e _ => d.addPeer e r.path
  | _ => d

def Units.job (u : Units) (id : Nat) : Option Job := u.jobs.find? (fun j => j.id == id)
def Units.modJob (u : Units) (id : Nat) (g : Job → Job) : Units :=
  { u with jobs := u.jobs.map (fun j => if j.id == id then g j else j) }

/-- A write or atomic joins the destination set of the hart, or of the job, that makes it (R145, R158). -/
def State.noteDest (s : State) (r : Request) : State :=
  if r.kind == .write || r.kind == .atomic then
    match r.agent, r.agent.coreId, r.job with
    | .hart id, _, _ =>
      let h := s.bank id r.ctx
      s.setBank id r.ctx { h with dest := h.dest.add s r }
    | .drill _, _, some job =>
      { s with colls := s.colls.map (fun c => if c.ctx == r.ctx && c.seg == job then { c with dest := c.dest.add s r } else c) }
    | _, some core, some job =>
      s.setUnit core r.ctx ((s.unit core r.ctx).modJob job (fun j => { j with dest := j.dest.add s r }))
    | _, _, _ => s
  else s

/-- A request leaves for its ordering bank: into the bank queue when the port is the core's own and has room, else as
a request message; to a peer over the fabric (R71, R75, R143). -/
def State.sendReq (s : State) (r : Request) : State :=
  let s := s.dropAhead r.agent r.ctx r.place
  match r.place with
  | .mem p =>
    let q := Tab.get [] s.bankQ (bankOf s p)
    let own := r.agent.coreId == some (portOf s (channelOf s p))
    let behind := s.reqNet.any (fun q => q.sameRoute s r)
    let t : State :=
      if own && q.length < 16 && !behind then { s with bankQ := Tab.put s.bankQ (bankOf s p) (q ++ [r]) }
      else { s with reqNet := s.reqNet ++ [r] }
    t.noteDest r
  | .peer _ _ =>
    let (s, path) := pathFor s r
    let s := s.sendSeq r.place r.ctx
    ({ s with outbox := s.outbox ++ [{ r with path := path }] } : State).noteDest { r with path := path }
  | _ => { s with reqNet := s.reqNet ++ [r] }

/-- A request on its way is the one that an access would send. -/
def Request.asks (r q : Request) : Bool :=
  q.agent == r.agent && q.ctx == r.ctx && q.place == r.place && q.kind == r.kind && q.size == r.size &&
    q.job == r.job && !q.posted

/-- A response answers a request. -/
def Request.answeredBy (r : Request) (q : Response) : Bool :=
  q.agent == r.agent && q.ctx == r.ctx && q.place == r.place && q.kind == r.kind && q.size == r.size &&
    q.job == r.job && !q.posted

/-- The request of an access is on its way, or its answer is. -/
def State.asked (s : State) (r : Request) : Bool :=
  (s.inFlight ++ s.outbox).any r.asks || (s.respNet ++ s.inbox).any r.answeredBy

/-- An instruction has issued the access that was performed ahead. -/
def State.claim (s : State) (r : Request) : State :=
  s.mapAccess (fun q => if r.asks q then { q with ahead := r.ahead } else q)
    (fun q => if r.answeredBy q then { q with ahead := r.ahead } else q)

/-- What the accesses of a job wait for is used by nothing. -/
def State.forsakeJob (s : State) (ag : Agent) (ctx : Nat) (job : Option Nat) : State :=
  let t := s.mapAccess (fun r => if r.agent == ag && r.ctx == ctx && r.job == job then { r with posted := true } else r)
    (fun q => if q.agent == ag && q.ctx == ctx && q.job == job then { q with posted := true } else q)
  { t with inbox := t.inbox.filter (fun q => !q.posted) }

def Agent.isPeer : Agent → Bool
  | .peer _ => true
  | _ => false

/-- An agent is a drill processor, whose collectives in flight complete during a domain barrier (R497). -/
def Agent.isDrill : Agent → Bool
  | .drill _ => true
  | _ => false

/-- An access by request and response (R75): sent once, but not during a domain barrier (R497), then waited for; its
answer is used once. -/
def trip (s : State) (r : Request) : Act (State × Response) :=
  match fabricRefusal s r.place r.ctx with
  | some st => .ok (s, { kind := r.kind, agent := r.agent, ctx := r.ctx, place := r.place, size := r.size, data := 0,
                         status := st })
  | none =>
    match s.inbox.find? r.answeredBy with
    | some q => .ok (({ s with inbox := s.inbox.erase q } : State).dropAhead r.agent r.ctx r.place, q)
    | none => hold (if s.asked r then s.claim r else if s.fabricWaits r.place && !r.agent.isDrill then s else s.sendReq r)

/-- An instruction or an engine that waits in the middle of several accesses makes them all again, with the answers it
has. -/
def keepAnswers {α : Type} (s : State) (r : Act α) : Act α :=
  match r with
  | .error (.wait t) => .error (.wait { t with inbox := s.inbox ++ t.inbox.filter (fun q => !s.inbox.contains q) })
  | r => r

/-- An event of an agent that accesses memory: what it does, or its wait with the answers it has. -/
def agentEvent (s : State) (r : Act State) : Result :=
  match keepAnswers s r with
  | .ok t => .next t
  | .error (.wait t) => .next t
  | .error (.fault t _) => .next t

-- Check codes (R86, R87).

/-- A failure found on both reads is logged (R87). -/
def State.logBad (s : State) (phys : Nat) : State := { s with events := s.events ++ [.integrity (phys / 64)] }

/-- An error that the check code corrects is logged (R86). -/
def State.logSoft (s : State) (phys n : Nat) : State :=
  { s with events := s.events ++
      (s.softLines.filter (fun l => l * 64 < phys + n && phys < l * 64 + 64)).map LogEntry.corrected }

/-- A line whose check fails on both reads (R86). DESIGN CHOICE, assumption 30. -/
def lineBad (s : State) (phys n : Nat) : Bool := s.badLines.any (fun l => l * 64 < phys + n && phys < l * 64 + 64)

/-- Read bytes of device memory. DESIGN CHOICE, assumption 30. -/
def memRead (s : State) (ctx phys n : Nat) : State × List Byte :=
  ((s.logSoft phys n).moved ctx phys false (granules phys n), Mem.readN s.mem phys n)

/-- Lines of the tier that hold a GMAC tag: a plain write puts a check code in its place, and a plain read finds that
the tag is none (R86). -/
def encTagged (s : State) (phys n : Nat) : Bool :=
  phys ≥ 2 ^ 40 && s.macs.any (fun m => m.1 * 64 < phys + n && phys < m.1 * 64 + 64)

/-- A plain access finds a line whose check fails on both reads (R86). -/
def badAt (s : State) (phys n : Nat) : Bool := lineBad s phys n || encTagged s phys n

/-- Write bytes of device memory; a write of a whole line replaces its check code (R86). -/
def memWrite (s : State) (ctx phys : Nat) (bs : List Byte) : State :=
  let s := s.moved ctx phys true (granules phys bs.length)
  let whole (l : Nat) : Bool := phys ≤ l * 64 && l * 64 + 64 ≤ phys + bs.length
  { s with
    mem := Mem.writeL s.mem phys bs
    badLines := s.badLines.filter (fun l => !whole l)
    softLines := s.softLines.filter (fun l => !whole l)
    macs := if phys < 2 ^ 40 then s.macs else s.macs.filter (fun m => !whole m.1) }

/-- Write the masked bytes of a line to device memory. -/
def writeMasked (s : State) (ctx phys : Nat) (d : V512) (m : W64) : State :=
  let s := s.moved ctx phys true 1
  let bs := ((List.range 64).zip (leBytes 64 d.toNat)).filter (fun p => m.getLsbD p.1)
  { s with
    mem := bs.foldl (fun mm p => Mem.write mm (phys + p.1) p.2) s.mem
    badLines := if m = BitVec.allOnes 64 then s.badLines.erase (phys / 64) else s.badLines
    softLines := if m = BitVec.allOnes 64 then s.softLines.erase (phys / 64) else s.softLines
    macs := if m = BitVec.allOnes 64 && phys ≥ 2 ^ 40 then Tab.drop s.macs (phys / 64) else s.macs }

/-- A partial write to a line whose check fails is refused (R86). -/
def writeRefused (s : State) (phys n : Nat) : Bool :=
  badAt s phys n && !(phys % 64 = 0 && n % 64 = 0)

-- Scratchpads (R55 to R60).

def spadSize : Nat := 0x60000
/-- DESIGN CHOICE, assumption 52. -/
def spadKey (core ctx off : Nat) : Nat := (core * 128 + ctx) * 2 ^ 19 + off

def spadRead (s : State) (core ctx off n : Nat) : List Byte := Mem.readN s.spad (spadKey core ctx off) n

/-- The 4 KiB regions a write touches, added to the dirty bitmap (R60). -/
def dirtyWith (d : List Nat) (off n : Nat) : List Nat :=
  if n = 0 then d
  else
    let rs := (List.range ((off + n - 1) / 4096 - off / 4096 + 1)).map (fun k => off / 4096 + k)
    d ++ rs.filter (fun r => !d.contains r)

def spadWrite (s : State) (core ctx off : Nat) (bs : List Byte) : State :=
  let s := { s with spad := Mem.writeL s.spad (spadKey core ctx off) bs }
  let u := s.unit core ctx
  s.setUnit core ctx { u with dirty := dirtyWith u.dirty off bs.length }

/-- Remove every listed byte of a key range: zero the range. -/
def Mem.clear (m : Mem) (lo n : Nat) : Mem := m.filter (fun e => !(lo ≤ e.1 && e.1 < lo + n))

/-- The core writes zero to its scratchpad and clears the dirty bitmap (R60). -/
def spadZero (s : State) (core ctx : Nat) : State :=
  let s := { s with spad := Mem.clear s.spad (spadKey core ctx 0) (2 ^ 19) }
  s.setUnit core ctx { s.unit core ctx with dirty := [] }

-- Byte strings and register values.

def bytesOf (n : Nat) (v : Nat) : List Byte := leBytes n v
def v512 (bs : List Byte) : V512 := BitVec.ofNat 512 (leNat bs)
def dwordOf (v : V512) (i : Nat) : W64 := BitVec.ofNat 64 (v.toNat / 2 ^ (64 * i))

/-- Replace the bytes of a 64-byte line at an offset. -/
def lineSet (v : V512) (off : Nat) (bs : List Byte) : V512 :=
  if bs.isEmpty then v
  else BitVec.ofNat 512 (setSlice v.toNat (8 * (off + bs.length) - 1) (8 * off) (leNat bs))
/-- Bytes of a line from an offset. -/
def lineGet (v : V512) (off n : Nat) : List Byte := leBytes n (v.toNat / 2 ^ (8 * off))

end Sys2Proof.Machine
end

