-- ==== Sys2Proof/Machine/Crypt.lean ====
section
/-! DEFINITION. The key store and encrypted lines: counters, tags, the tree over them, and accesses of a line under a
key handle (R96 to R103). -/

namespace Sys2Proof.Machine

-- Keys (R96, R97).

def State.keySlot (s : State) (n : Nat) : KeySlot := Tab.get {} s.keys n
def State.setKeySlot (s : State) (n : Nat) (k : KeySlot) : State :=
  { s with keys := if k = {} then Tab.drop s.keys n else Tab.put s.keys n k }

/-- A handle passes R97 for a context; handle 0 is plaintext. -/
def keyOk (s : State) (ctx h : Nat) : Bool :=
  h == 0 || (h ≤ 4096 && (s.keySlot (h - 1)).st == .loaded && (s.keySlot (h - 1)).owner == ctx)

def keyOf (s : State) (h : Nat) : BitVec 256 := (s.keySlot (h - 1)).key

-- Counters and tags (R99, R100).

/-- Channel identity of a line: channel and channel offset [34:6] (R99). -/
def lineIdent (s : State) (phys : Nat) : Nat := channelOf s phys * 2 ^ 29 + channelOffset s phys / 64
/-- The 4 KiB block of channel offset that holds a byte. -/
def blockIdent (s : State) (phys : Nat) : Nat := channelOf s phys * 2 ^ 23 + channelOffset s phys / 4096
def blockCtr (s : State) (phys : Nat) : BlockCtr := Tab.get {} s.blockCtrs (blockIdent s phys)
def minorOf (s : State) (phys : Nat) : Nat := Tab.get 0 (blockCtr s phys).minors (phys % 4096 / 64)

/-- The 64 stored bytes of the line of a byte. -/
def storedLine (s : State) (phys : Nat) : V512 := v512 (Mem.readN s.mem (phys / 64 * 64) 64)

/-- A line's pad: AES-256 of the counter block of each of its four 16-byte blocks, the last byte of the cipher's output
over the block's lowest address, which R99 leaves open. DESIGN CHOICE, assumption 69. -/
def padAt (s : State) (h phys major minor : Nat) : V512 :=
  (List.range 4).foldl (fun (v : V512) i =>
    v ||| ((Aes.encrypt (keyOf s h) (Config.counterBlock (lineIdent s phys) major minor i)).setWidth 512 <<< (128 * i))) 0

/-- A line's tag under a key and its counters: it covers the ciphertext, the channel identity and both counters (R99).
DESIGN CHOICE, assumption 69. -/
def tagAt (s : State) (h phys major minor : Nat) (cipher : V512) : Mac :=
  { key := keyOf s h, ident := lineIdent s phys, major := major, minor := minor, cipher := cipher }

/-- Keys of the tree counters that cover a counter line, level by level to the root (R100).
DESIGN CHOICE, assumption 62. -/
def treeKeys (s : State) (phys : Nat) : List Nat :=
  let i := channelOffset s phys / 4096
  let levels := if phys < 2 ^ 40 then 7 else 9
  (List.range levels).map (fun l => l * 2 ^ 40 + channelOf s phys * 2 ^ 24 + i / 8 ^ l)

/-- A node over a line's counters fails its check (R100). -/
def nodeBad (s : State) (phys : Nat) : Bool := (treeKeys s phys).any (fun k => s.badNodes.contains k)

/-- The line's tag fits its ciphertext under a handle, and its counters pass their checks (R99, R100). -/
def tagFits (s : State) (h phys : Nat) : Bool :=
  let b := blockCtr s phys
  !nodeBad s phys &&
    (match s.macs.find? (fun m => m.1 == phys / 64) with
     | some m => m.2 == tagAt s h phys b.major (minorOf s phys) (storedLine s phys)
     | none => false)

/-- The plaintext of a line under a handle. -/
def plainLine (s : State) (h phys : Nat) : V512 :=
  storedLine s phys ^^^ padAt s h phys (blockCtr s phys).major (minorOf s phys)

/-- A write would pass a counter's limit (R103). -/
def countersSpent (s : State) (phys : Nat) : Bool :=
  (minorOf s phys == 127 && (blockCtr s phys).major == 2 ^ 64 - 1) ||
    (treeKeys s phys).any (fun k => Tab.get 0 s.treeCtrs k == 2 ^ 64 - 1)

/-- Store a line's ciphertext and tag under given counters. -/
def storeLine (s : State) (h phys major minor : Nat) (plain : V512) : State :=
  let a := phys / 64 * 64
  let c := plain ^^^ padAt s h phys major minor
  { s with
    mem := Mem.writeL s.mem a (leBytes 64 c.toNat)
    macs := Tab.put s.macs (phys / 64) (tagAt s h phys major minor c)
    badLines := s.badLines.erase (phys / 64)
    softLines := s.softLines.erase (phys / 64) }

/-- A keyed read of a line gives its plaintext (R86, R98). -/
def keyedBad (s : State) (h phys : Nat) : Bool := lineBad s (phys / 64 * 64) 64 || !tagFits s h phys

/-- Re-encrypt the block of a byte under major + 1 with minors 0; a line that cannot be read gets an invalid tag
(R102). -/
def reencrypt (s : State) (h phys : Nat) : State :=
  let base := phys / 4096 * 4096
  let b := blockCtr s phys
  let plains := (List.range 64).map (fun i => (i, keyedBad s h (base + 64 * i), plainLine s h (base + 64 * i)))
  let s1 := plains.foldl (fun s p =>
    if p.2.1 then { s with macs := Tab.drop s.macs (base / 64 + p.1) }
    else storeLine s h (base + 64 * p.1) (b.major + 1) 0 p.2.2) s
  { s1 with blockCtrs := Tab.put s1.blockCtrs (blockIdent s phys) { major := b.major + 1, minors := [] } }

/-- An encrypted write of bytes within one line (R98, R99, R102, R103): performed, or refused with KEY_EXHAUST, then
with INTEGRITY. DESIGN CHOICE, assumption 61. -/
def encWrite (s : State) (h phys : Nat) (bs : List Byte) : State × RespStatus :=
  if countersSpent s phys then
    let k := s.keySlot (h - 1)
    (s.setKeySlot (h - 1) { k with st := .retired }, .exhaust)
  else if nodeBad s phys || (bs.length < 64 && keyedBad s h phys) then (s.logBad phys, .integrity)
  else
    let old := if bs.length < 64 then plainLine s h phys else 0
    let s := if minorOf s phys = 127 then reencrypt s h phys else s
    let b := blockCtr s phys
    let m := minorOf s phys + 1
    let s := { s with
      treeCtrs := (treeKeys s phys).foldl (fun t k => Tab.put t k (Tab.get 0 t k + 1)) s.treeCtrs
      blockCtrs := Tab.put s.blockCtrs (blockIdent s phys)
        { b with minors := Tab.put b.minors (phys % 4096 / 64) m } }
    (storeLine s h phys b.major m (lineSet old (phys % 64) bs), .ok)

/-- A block of encrypted lines is re-initialised under a loaded key: zero data, counters reset (R103). -/
def renewBlock (s : State) (h phys : Nat) : State :=
  if h = 0 || (s.keySlot (h - 1)).st != .loaded then s
  else
    let base := phys / 4096 * 4096
    let s : State := { s with
      blockCtrs := Tab.drop s.blockCtrs (blockIdent s base)
      treeCtrs := (treeKeys s base).foldl Tab.drop s.treeCtrs
      badNodes := s.badNodes.filter (fun k => !(treeKeys s base).contains k) }
    (List.range 64).foldl (fun s i => storeLine s h (base + 64 * i) 0 0 0) s

end Sys2Proof.Machine
end

