-- ==== Sys2Proof/Machine/Translate.lean ====
section
/-! DEFINITION. Address spaces: canonical addresses, local windows, page tables, TLBs and walks (R27 to
R53). -/

namespace Sys2Proof.Machine

/-- What an access is for (R43). -/
inductive Acc where
  | load | store | atomic | fetch
  deriving DecidableEq, Repr

/-- Who accesses: a hart or an engine of a core, in a context; `supS` is a supervisor hart in S mode. -/
structure Who where
  core : Nat
  ctx : Nat
  hart : Bool
  supS : Bool
  /-- The job for which an engine accesses (R50). -/
  job : Option Nat := none
  deriving DecidableEq, Repr

/-- Where an address leads: a scratchpad byte, device memory with the path and key facts of its leaf, the
port window, or a debug window. -/
inductive Target where
  | spad (core off : Nat)
  | mem (dpa : Nat) (entry : TlbEntry)
  | port (off : Nat)
  | debug (member off : Nat)
  deriving DecidableEq, Repr

-- Page table entries (R41).
def pteV (p : W64) : Bool := p.getLsbD 0
def pteR (p : W64) : Bool := p.getLsbD 1
def pteW (p : W64) : Bool := p.getLsbD 2
def pteX (p : W64) : Bool := p.getLsbD 3
def pteEager (p : W64) : Bool := p.getLsbD 4
def ptePlace (p : W64) : Nat := slice p.toNat 6 5
def ptePin (p : W64) : Bool := p.getLsbD 7
def pteEnc (p : W64) : Bool := p.getLsbD 8
def pteHot (p : W64) : Bool := p.getLsbD 9
def pteFrame (p : W64) : Nat := slice p.toNat 53 24
def pteDev (p : W64) : Nat := slice p.toNat 63 54
def pteLeaf (p : W64) : Bool := pteR p || pteW p || pteX p

/-- The PLACE of the range a local address falls in (R35); 3 for none. -/
def placeOfLocal (a : Nat) : Nat :=
  if a < 2 ^ 40 then 0 else if a < 2 ^ 41 then 1 else if a < 5 * 2 ^ 40 then 2 else 3

def pageSize (big : Bool) : Nat := if big then 2 ^ 29 else 2 ^ 16

/-- The channel offsets a frame covers: from, and one past the last (R36, R37, R83). -/
def frameOffsets (s : State) (a : Nat) (big : Bool) : Nat × Nat :=
  match placeOfLocal a with
  | 0 => (a % 2 ^ 30, a % 2 ^ 30 + pageSize big)
  | 1 => (slice a 36 16 * 2 ^ 9, slice a 36 16 * 2 ^ 9 + pageSize big / 128)
  | _ =>
    let n := tierCount s
    ((a - tierBase) / 4096 / n * 4096, (a - tierBase + pageSize big - 1) / 4096 / n * 4096 + 4096)

/-- The MALFORMED conditions of R42 and R101 on an entry of a level. -/
def pteMalformed (s : State) (level : Nat) (p : W64) : Bool :=
  let a := pteFrame p * 2 ^ 16
  let big := level == 2
  slice p.toNat 23 10 != 0 || (pteW p && !pteR p) || ptePlace p == 3 || pteDev p ≥ 576 ||
  (if pteLeaf p then
    level == 1 || ptePlace p != placeOfLocal a || (big && pteFrame p % 2 ^ 13 != 0) ||
      (pteEnc p && pteDev p == s.devidx &&
        (frameOffsets s a big).2 > (if ptePlace p == 2 then encTier s else encHbm s))
  else
    level == 3 || pteEager p || ptePlace p != 0 || ptePin p || pteEnc p || pteHot p ||
      pteDev p != s.devidx || placeOfLocal a > 1)

/-- The ABSENT conditions of R42 on a frame of this device. DEDUCED, assumption 46. -/
def pteAbsent (s : State) (level : Nat) (p : W64) : Bool :=
  let a := pteFrame p * 2 ^ 16
  let big := level == 2 && pteLeaf p
  pteDev p == s.devidx &&
    (match placeOfLocal a with
     | 0 => channelFailed s (a / 2 ^ 30) || (frameOffsets s a big).2 > spillBase s
     | 1 => dieFailed s (slice a 39 37) || (frameOffsets s a big).2 > spillBase s
     | _ => a - tierBase + pageSize big > tierCapacity s)

def xInvalid : Nat := 1
def xMalformed : Nat := 2
def xAbsent : Nat := 3

/-- The cause with which an entry stops a walk (R42), or none. -/
def pteStop (s : State) (level : Nat) (p : W64) : Option Nat :=
  if !pteV p then some xInvalid
  else if pteMalformed s level p then some xMalformed
  else if pteAbsent s level p then some xAbsent
  else none

/-- The table root of a context (R39). -/
def rootOf (s : State) (ctx : Nat) : W64 := if ctx = sysCtx then s.sysroot else Tab.get 0 s.roots ctx

/-- Why no walk can start at a table root (R39, R42, R81): it is zero, names no table frame of this device's HBM, or
lies in a failed channel or a spill reserve. DESIGN CHOICE, assumption 68. -/
def rootStop (s : State) (root : W64) : Option Nat :=
  let a := root.toNat % 2 ^ 46
  if root = 0 then some xInvalid
  else if root.toNat / 2 ^ 46 != s.devidx || a % 2 ^ 16 != 0 || placeOfLocal a > 1 then some xMalformed
  else if (match placeOfLocal a with
      | 0 => channelFailed s (a / 2 ^ 30)
      | _ => dieFailed s (slice a 39 37)) || (frameOffsets s a false).2 > spillBase s then some xAbsent
  else none

/-- Index of a level in VA (R39), from VA[55:16]. -/
def levelIndex (vpn level : Nat) : Nat := vpn / 2 ^ (13 * (3 - level)) % 2 ^ 13

/-- The cached pointer that serves a walk best: level 2, then level 1 (R47). -/
def cachedPtr (ps : List PtrEntry) (ctx vpn : Nat) : Option PtrEntry :=
  let hit (lv : Nat) := ps.find? (fun p => p.ctx == ctx && p.level == lv && p.tag == vpn / 2 ^ (13 * (3 - lv)))
  (hit 2).orElse (fun _ => hit 1)

/-- Add to a bounded list, the oldest entry leaving when it is full (assumption 6: the spec names no
replacement rule for the TLBs and the pointer cache). DESIGN CHOICE, assumption 6. -/
def pushBounded {α : Type} (cap : Nat) (l : List α) (x : α) : List α :=
  if l.length < cap then l ++ [x] else l.drop 1 ++ [x]

-- Lookups.

def TlbEntry.hits (e : TlbEntry) (ctx vpn : Nat) : Bool :=
  e.ctx == ctx && e.vpn == (if e.big then vpn / 2 ^ 13 else vpn)

/-- The DPA an entry gives to an address (R40, R41). -/
def TlbEntry.dpa (e : TlbEntry) (va : Nat) : Nat :=
  pteDev e.pte * 2 ^ 46 + pteFrame e.pte * 2 ^ 16 + va % pageSize e.big

def fillCoreTlb (s : State) (core : Nat) (e : TlbEntry) : State :=
  let k := s.core core
  s.setCore core { k with tlb := pushBounded 64 k.tlb e }

/-- The die of a cluster, a supervisor core's among them. -/
def dieOfCluster (cl : Nat) : Nat := cl / 8

/-- A miss of a core joins the request of its cluster for the page, or enters the walk queue of its die; a core tracks
8 pages, a cluster 64, and the queue holds 512 (R46 to R48). DEDUCED, assumption 46. -/
def requestWalk (s : State) (core ctx vpn : Nat) : State :=
  let cl := clusterOf core
  let is (q : WalkReq) : Bool := q.cluster == cl && q.ctx == ctx && q.vpn == vpn
  let mine := s.walkQ.filter (fun q => q.cores.contains core)
  match s.walkQ.find? is with
  | some q =>
    if q.cores.contains core || mine.length ≥ 8 then s
    else { s with walkQ := s.walkQ.map (fun q => if is q then { q with cores := q.cores ++ [core] } else q) }
  | none =>
    let tracked := s.walkQ.filter (fun q => q.cluster == cl)
    let die := s.walkQ.filter (fun q => dieOfCluster q.cluster == dieOfCluster cl)
    if mine.length < 8 && tracked.length < 64 && die.length < 512 then
      { s with walkQ := s.walkQ ++ [{ cluster := cl, ctx := ctx, vpn := vpn, cores := [core] }] }
    else s

/-- Translate: a hit in the core TLB answers; a hit in the cluster TLB fills the core TLB and the access is
looked up again; a recorded failure of the walk is raised; else the access waits for a walk (R45 to R49). -/
def lookup (s : State) (core ctx : Nat) (va : W64) : Act TlbEntry :=
  let vpn := va.toNat % 2 ^ 55 / 2 ^ 16
  match (s.core core).tlb.find? (fun e => e.hits ctx vpn) with
  | some e => .ok e
  | none =>
    match (Tab.get [] s.clusterTlb (clusterOf core)).find? (fun e => e.hits ctx vpn) with
    | some e => hold (fillCoreTlb s core e)
    | none =>
      match s.walkMisses.find? (fun m => m.core == core && m.ctx == ctx && m.vpn == vpn) with
      | some m =>
        fail { s with walkMisses := s.walkMisses.filter (fun q => q != m) } { m.info with va := va }
      | none => hold (requestWalk s core ctx vpn)

/-- PERMISSION (R43) and, for harts, the stores that encrypted pages refuse (R98). -/
def permitted (p : W64) (a : Acc) : Bool :=
  match a with
  | .load => pteR p
  | .store => pteW p
  | .atomic => pteR p && pteW p
  | .fetch => pteX p

def causeNoncanonical : Nat := 1
def causeWindow : Nat := 2
def causePermission : Nat := 3
def causeForeign : Nat := 4
def causeEncrypted : Nat := 5
def causeAbsent : Nat := 6
def causeAccPrivilege : Nat := 7

/-- R27: bits 63:56 equal bit 55. -/
def canonical (va : W64) : Bool := slice va.toNat 63 56 == (if va.getLsbD 55 then 255 else 0)

/-- During a swap a scratchpad region waits until it has been loaded (R474). -/
def regionReady (s : State) (core off : Nat) : Bool :=
  !(s.core core).todo.contains (off / 4096 + 2)

/-- A swap holds accesses from other cores until it completes (R31). -/
def swapBusy (s : State) (core : Nat) : Bool :=
  !(s.core core).todo.isEmpty

/-- A scratchpad of a named core under R31. -/
def spadOf (s : State) (w : Who) (core off : Nat) (va : W64) : Act Target :=
  let own := w.supS && supCore w.core && clusterOf core == clusterOf w.core
  if !present s core then fail s (accessFault causeForeign va)
  else if own then (if regionReady s core off then .ok (.spad core off) else hold s)
  else if core != w.core && swapBusy s core then hold s
  else if (s.core core).active != some w.ctx then fail s (accessFault causeForeign va)
  else if regionReady s core off then .ok (.spad core off)
  else hold s

/-- An address with bit 55 set: the local windows (R29 to R32). -/
def window (s : State) (w : Who) (va : W64) : Act Target :=
  let o := va.toNat % 2 ^ 55
  let r := o % 2 ^ 32
  let bad : Act Target := fail s (accessFault causeWindow va)
  match o / 2 ^ 32 with
  | 0 =>
    if supCore w.core || r ≥ spadSize then bad
    else if regionReady s w.core r then .ok (.spad w.core r) else hold s
  | 1 =>
    if r ≥ 6 * 2 ^ 20 then bad
    else spadOf s w (memberCore (clusterOf w.core) (r / 128 % 16)) (r / 2 ^ 11 * 128 + r % 128) va
  | 2 =>
    if r / 2 ^ 20 ≥ 1024 || r % 2 ^ 20 ≥ spadSize then bad
    else spadOf s w (r / 2 ^ 20) (r % 2 ^ 20) va
  | 3 => if w.hart && r < 2 ^ 16 then .ok (.port r) else bad
  | 4 =>
    if r / 2 ^ 16 ≥ 16 then bad
    else if !w.hart then bad
    else if !w.supS then fail s (accessFault causeAccPrivilege va)
    else .ok (.debug (r / 2 ^ 16) (r % 2 ^ 16))
  | _ => bad

/-- A hart whose access awaits its translation sends no later one (R49). -/
def State.awaiting (s : State) (w : Who) (a : Acc) : State :=
  if w.hart && a != .fetch then s.modMe (fun h => { h with xlating := true }) else s

/-- Check one access and find where it goes: R27, R28, R29 to R32, translation R42, permission R43. The
access lies inside one 64-byte word. -/
def resolve (s : State) (w : Who) (a : Acc) (va : W64) : Act Target :=
  if !canonical va then fail s (accessFault causeNoncanonical va)
  else if va.getLsbD 55 then
    (if a = .fetch then fail s (accessFault causeWindow va) else window s w va)
  else do
    let e ← match lookup s w.core w.ctx va with
      | .error (.wait t) => hold (t.awaiting w a)
      | r => r
    if permitted e.pte a then .ok (.mem (e.dpa va.toNat) e)
    else fail s (accessFault causePermission va)

/-- The job number of a tour's segments in its origin core. -/
def tourJob (id : Nat) : Nat := 2 ^ 32 + id

/-- A segment whose job is still in flight. -/
def Segment.isOpen (g : Segment) (s : State) : Bool :=
  (s.unit g.core g.ctx).tours.any (fun e => tourJob e.1 == g.job) ||
    (s.unit g.core g.ctx).jobs.any (fun j => j.id == g.job) || s.colls.any (fun c => c.ctx == g.ctx && c.seg == g.job)

/-- The segments of a job end (R50). -/
def State.endSegments (s : State) (core ctx : Nat) (job : Nat) : State :=
  { s with segments := s.segments.filter (fun g => !(g.core == core && g.ctx == ctx && g.job == job)) }

/-- As `resolve`, for an engine: within one page one job uses one translation on each side, looked up when the segment
begins, and the segment lasts until the job has no more accesses, or stops (R50, R54). DEDUCED, assumption 72. -/
def engResolve (s : State) (w : Who) (a : Acc) (va : W64) : Act (State × Target) :=
  match w.job with
  | none => do
    let t ← resolve s w a va
    .ok (s, t)
  | some job =>
    let mine (g : Segment) : Bool := g.core == w.core && g.ctx == w.ctx && g.job == job && g.store == (a == .store)
    let vpn := va.toNat % 2 ^ 55 / 2 ^ 16
    match s.segments.find? (fun g => mine g && g.entry.hits w.ctx vpn) with
    | some g =>
      if canonical va && !va.getLsbD 55 && permitted g.entry.pte a then .ok (s, .mem (g.entry.dpa va.toNat) g.entry)
      else do
        let t ← resolve s w a va
        .ok (s, t)
    | none => do
      let t ← resolve s w a va
      match t with
      | .mem _ e =>
        let g : Segment := { core := w.core, ctx := w.ctx, job := job, store := a == .store, entry := e }
        .ok ({ s with segments := s.segments.filter (·.isOpen s) ++ [g] }, t)
      | t => .ok (s, t)

/-- The current hart as an accessor. -/
def State.iAm (s : State) : Who :=
  { core := s.myCore, ctx := s.myCtx, hart := true, supS := isSup s.cur && s.me.modeS }

/-- An address in a debug window of one of the 16 members (R29). DEDUCED, assumption 16. -/
def debugWindow (va : W64) : Bool := canonical va && slice va.toNat 55 32 == 2 ^ 23 + 4 && slice va.toNat 31 20 == 0

/-- An address in the port window (R29, R33). -/
def portWindow (va : W64) : Bool := canonical va && slice va.toNat 55 32 == 2 ^ 23 + 3 && slice va.toNat 31 16 == 0

/-- Before every other check of a hart's access: a debug window without S mode is PRIVILEGE whatever the access (R32);
then the address is a multiple of n, and where `windows` says so, in a debug or the port window, another alignment is
WINDOW (R34, R470). DEDUCED, assumption 16. -/
def alignedIn (windows : Bool) (s : State) (va : W64) (n : Nat) : Act Unit := do
  need (!debugWindow va || s.iAm.supS) s (accessFault causeAccPrivilege va)
  need (va.toNat % n = 0) s
    (if windows && (debugWindow va || portWindow va) then accessFault causeWindow va else alignFault va)

/-- The alignment check of a load or store. -/
def aligned (s : State) (va : W64) (n : Nat) : Act Unit := alignedIn true s va n

-- PAGE_WALK (R47).

/-- Two requests share context and VA[55:29] on one die. -/
def WalkReq.near (r q : WalkReq) : Bool :=
  q.ctx == r.ctx && q.vpn / 2 ^ 13 == r.vpn / 2 ^ 13 && dieOfCluster q.cluster == dieOfCluster r.cluster

/-- A request waits for a walk in progress that shares context and VA[55:29], until that walk has read their level-2
pointer (R47). -/
def walkWaits (s : State) (r : WalkReq) : Bool :=
  s.walkQ.any (fun q => q.walker.isSome && r.near q) &&
    !(Tab.get [] s.ptrCache (dieOfCluster r.cluster)).any (fun p => p.ctx == r.ctx && p.level == 2 && p.tag == r.vpn / 2 ^ 13)

/-- The walker that takes up the n-th request: of its die's 16 the lowest free one, when no older request of the die
could be taken up (R47). -/
def walkerFor (s : State) (n : Nat) (r : WalkReq) : Option Nat :=
  let die := s.walkQ.filter (fun q => dieOfCluster q.cluster == dieOfCluster r.cluster)
  let older := (s.walkQ.take n).any (fun q =>
    dieOfCluster q.cluster == dieOfCluster r.cluster && q.walker.isNone && !walkWaits s q)
  if older || walkWaits s r then none
  else (List.range 16).find? (fun w => !die.any (fun q => q.walker == some w))

def fillClusterTlb (s : State) (cl : Nat) (e : TlbEntry) : State :=
  { s with clusterTlb := Tab.put s.clusterTlb cl (pushBounded 2048 (Tab.get [] s.clusterTlb cl) e) }

/-- The agent of a request's walker. -/
def WalkReq.agent (r : WalkReq) : Agent := .walker (dieOfCluster r.cluster) (r.walker.getD 0)

/-- Requests leave the walk queue, and what their walkers still wait for is used by nothing. -/
def endWalks (s : State) (test : WalkReq → Bool) : State :=
  let t := (s.walkQ.filter (fun q => test q && q.walker.isSome)).foldl (fun s q => s.forsakeAll q.agent q.ctx) s
  { t with walkQ := t.walkQ.filter (fun q => !test q) }

/-- A leaf answers its request, and at level 2 every waiting request under it (R47). -/
def walkLeaf (s : State) (r : WalkReq) (e : TlbEntry) : State :=
  let won (q : WalkReq) : Bool := if e.big then r.near q else q == r
  let ans := s.walkQ.filter won
  let s := (ans.map (·.cores)).flatten.foldl (fun s c => fillCoreTlb s c e) s
  let s := ((ans.map (·.cluster)).eraseDups).foldl (fun s c => fillClusterTlb s c e) s
  endWalks s won

/-- A walk that found no leaf answers the cores that wait for its page. -/
def walkFails (s : State) (r : WalkReq) (f : TrapInfo) : State :=
  let s := endWalks s (fun q => q == r)
  { s with walkMisses := s.walkMisses ++ r.cores.map (fun c => { core := c, ctx := r.ctx, vpn := r.vpn, info := f }) }

/-- A walk reads its next table entry, or uses it (R39 to R42, R47, R86). -/
def walkStep (s : State) (r : WalkReq) : State :=
  let va : W64 := BitVec.ofNat 64 (r.vpn * 2 ^ 16)
  match physOf s (r.table % 2 ^ 46 + 8 * levelIndex r.vpn r.level) with
  | none => walkFails s r (xlateFault xAbsent va)
  | some a =>
    match trip s { kind := .read, agent := r.agent, ctx := r.ctx, place := .mem a, size := 8 } with
    | .error (.wait t) => t
    | .error (.fault t _) => t
    | .ok (s, q) =>
      let p : W64 := BitVec.ofNat 64 q.data.toNat
      if q.status != .ok then walkFails s r { code := .integrity, va := va }
      else
        match pteStop s r.level p with
        | some c => walkFails s r (xlateFault c va)
        | none =>
          if pteLeaf p then
            let big := r.level == 2
            walkLeaf s r { ctx := r.ctx, big := big, vpn := if big then r.vpn / 2 ^ 13 else r.vpn, pte := p, entry := a }
          else
            let e : PtrEntry := {
              ctx := r.ctx, level := r.level, tag := r.vpn / 2 ^ (13 * (3 - r.level)), next := pteFrame p * 2 ^ 16 }
            let die := dieOfCluster r.cluster
            { s with
              ptrCache := Tab.put s.ptrCache die (pushBounded 256 (Tab.get [] s.ptrCache die) e)
              walkQ := s.walkQ.map (fun q => if q == r then { q with table := e.next, level := r.level + 1 } else q) }

/-- The n-th request of the walk queue is taken up by a walker, or its walk goes on. -/
def walkTurn (s : State) (n : Nat) : State :=
  match s.walkQ[n]? with
  | none => s
  | some r =>
    if r.walker.isSome then walkStep s r
    else
      match walkerFor s n r with
      | none => s
      | some w =>
        let root := rootOf s r.ctx
        match rootStop s root with
        | some c => walkFails s r (xlateFault c (BitVec.ofNat 64 (r.vpn * 2 ^ 16)))
        | none =>
          let r1 := match cachedPtr (Tab.get [] s.ptrCache (dieOfCluster r.cluster)) r.ctx r.vpn with
            | some p => { r with walker := some w, table := p.next, level := p.level + 1 }
            | none => { r with walker := some w, table := root.toNat, level := 1 }
          walkStep { s with walkQ := s.walkQ.set n r1 } r1

-- Invalidation (R51, R52).

/-- What tlbinv removes: a page's leaf, a context's entries, or all. -/
inductive Inval where
  | page (va : W64) (ctx : Nat) | ctx (ctx : Nat) | all
  deriving DecidableEq, Repr

def Inval.matchesPage (v : Inval) (ctx vpn : Nat) (big : Bool) : Bool :=
  match v with
  | .all => true
  | .ctx c => c == ctx
  | .page va c =>
    c == ctx && canonical va && !va.getLsbD 55 &&
      (if big then va.toNat / 2 ^ 29 == vpn else va.toNat / 2 ^ 16 == vpn)

def Inval.matchesPtr (v : Inval) (p : PtrEntry) : Bool :=
  match v with
  | .all => true
  | .ctx c => c == p.ctx
  | .page va c => c == p.ctx && canonical va && !va.getLsbD 55 &&
      va.toNat / 2 ^ 16 / 2 ^ (13 * (3 - p.level)) == p.tag

/-- The path of a page goes through an entry that an invalidation removes: the leaf, or a pointer at level 1 or 2. -/
def Inval.onPath (v : Inval) (ctx vpn : Nat) : Bool :=
  v.matchesPage ctx vpn false || v.matchesPage ctx (vpn / 2 ^ 13) true ||
    v.matchesPtr { ctx := ctx, level := 1, tag := vpn / 2 ^ 26, next := 0 } ||
    v.matchesPtr { ctx := ctx, level := 2, tag := vpn / 2 ^ 13, next := 0 }

/-- A walk in progress may have read an entry that is removed: it walks again from the root (R52). -/
def restartWalks (s : State) (v : Inval) : State :=
  let hit (q : WalkReq) : Bool := q.walker.isSome && v.onPath q.ctx q.vpn
  let t := (s.walkQ.filter hit).foldl (fun s q => s.forsakeAll q.agent q.ctx) s
  { t with walkQ := t.walkQ.map (fun q => if hit q then { q with walker := none } else q) }

def Inval.matchesCtx (v : Inval) (ctx : Nat) : Bool :=
  match v with
  | .all => true
  | .ctx c => c == ctx
  | .page _ c => c == ctx

/-- A launch's reads, which go by walks of its own, are made again (R52, R390). DEDUCED, assumption 42. -/
def dropWalked (v : Inval) (s : State) : State :=
  let unit (ag : Agent) : Bool := match ag with
    | .launcher _ => true
    | _ => false
  let writing (ag : Agent) : Bool :=
    (s.inFlight ++ s.outbox).any (fun r => r.agent == ag && r.kind == .write) ||
      (s.respNet ++ s.inbox).any (fun q => q.agent == ag && q.kind == .write)
  if (s.inFlight ++ s.outbox).any (fun r => unit r.agent) || (s.respNet ++ s.inbox).any (fun q => unit q.agent) then
    s.forsake (fun a c _ _ _ _ => unit a && v.matchesCtx c && !writing a)
  else s

/-- Remove the matching entries from every core TLB, cluster TLB and pointer cache, and the answers that a
walk through them left (R52). -/
def invalidate (s : State) (v : Inval) : State :=
  let keep (e : TlbEntry) : Bool := !v.matchesPage e.ctx e.vpn e.big
  dropWalked v <| restartWalks { s with
    cores := s.cores.map (fun c => (c.1, { c.2 with tlb := c.2.tlb.filter keep }))
    clusterTlb := s.clusterTlb.map (fun c => (c.1, c.2.filter keep))
    ptrCache := s.ptrCache.map (fun c => (c.1, c.2.filter (fun p => !v.matchesPtr p)))
    walkMisses := s.walkMisses.filter (fun m => !v.onPath m.ctx m.vpn) } v

end Sys2Proof.Machine
end

