-- ==== Sys2Proof/Machine/Access.lean ====
section
/-! DEFINITION. How a hart's data accesses are performed: the eager and the phase path, the data cache and
its spill area, interlocks with engine jobs, accesses to peer devices, release and acquire (R64 to R67, R86,
R98, R117 to R132, R143 to R146, R156). -/

namespace Sys2Proof.Machine

-- Where a DPA lies.

/-- The place of a DPA: a byte of this device, or of a peer (R35). -/
def placeOf (s : State) (dpa : Nat) : Option Place :=
  if dpa / 2 ^ 46 = s.devidx then (physOf s (dpa % 2 ^ 46)).map .mem
  else some (.peer (dpa / 2 ^ 46) (dpa % 2 ^ 46))

-- Hot pages (R88, R89).

/-- A leaf whose accesses the tracker counts (R88). -/
def qualifies (s : State) (e : TlbEntry) : Bool :=
  !e.big && ptePlace e.pte == 2 && pteHot e.pte && pteEager e.pte && !ptePin e.pte && !pteEnc e.pte &&
    pteDev e.pte == s.devidx

/-- The entry id that counts a page at an I/O die: its own; for a new page the lowest free one, or in a full table
that of the lowest count, the lower id first, among those not about to be selected (R89). DESIGN CHOICE, assumption
63. -/
def entryFor (s : State) (io ctx vpn : Nat) : Option Nat :=
  let es := s.trackers.filter (fun e => e.1 / 16384 == io)
  match es.find? (fun e => e.2.ctx == ctx && e.2.vpn == vpn) with
  | some e => some e.1
  | none =>
    if es.length < 16384 then
      ((List.range 16384).find? (fun i => !es.any (fun e => e.1 == io * 16384 + i))).map (fun i => io * 16384 + i)
    else
      let free := es.filter (fun e => !e.2.due)
      let least := free.foldl (fun m e => Nat.min m e.2.count) 65536
      (free.find? (fun e => e.2.count == least)).map (·.1)

/-- A qualifying access adds its granules to the page's count at the I/O die of the access's tier channel; a context
with no pool is skipped. Counts saturate at 65,535, and a page that reaches THRESH is to be selected (R88, R89, R91).
A page whose units lie on both I/O dies has a count at each, of the granules of its own channels.
DESIGN CHOICE, assumption 63. -/
def State.countHot (s : State) (e : TlbEntry) (phys n : Nat) : State :=
  if s.trkctl.en && qualifies s e && (Tab.get {} s.slots e.ctx).pool != 0 then
    let io := (channelOf s phys - 2048) / 48
    let vpn := e.vpn
    match entryFor s io e.ctx vpn with
    | none => s
    | some id =>
      let page : HotPage := { ctx := e.ctx, vpn := vpn, entry := e.entry, pte := e.pte }
      let old := match s.trackers.find? (fun q => q.1 == id) with
        | some q => if q.2.ctx == e.ctx && q.2.vpn == vpn then q.2.count else 0
        | none => 0
      let c := Nat.min 65535 (old + granules phys n)
      let due := s.trkctl.thresh != 0 && decide (c ≥ s.trkctl.thresh)
      { s with trackers := Tab.put s.trackers id { page with count := c, due := due } }
  else s

-- Interlocks with jobs (R152 to R157).

def Region.hits (r : Region) (va n : Nat) : Bool := r.va < va + n && va < r.va + r.size

/-- A store waits for every read of a job that reads its bytes, and for a job that writes them. -/
def storeBlocked (js : List Job) (va n : Nat) : Bool :=
  js.any (fun j => (!j.readsDone && j.reads.any (·.hits va n)) || j.writes.any (·.hits va n))

/-- A load waits for a job that writes its bytes, unless the watermark has passed them (R157). -/
def loadBlocked (js : List Job) (va n : Nat) : Bool :=
  js.any (fun j => j.writes.any (fun r => r.hits va n && va + n > r.va + j.filled))

def va56 (va : W64) : Nat := va.toNat % 2 ^ 56

/-- The write footprints in flight that an access waits for. -/
def writersOf (js : List Job) (a : Acc) (va n : Nat) : List (Nat × Region) :=
  (js.map (fun j => (j.writes.filter (fun r => r.hits va n && (a != .load || va + n > r.va + j.filled))).map
    (fun r => (j.id, r)))).flatten

/-- The interlock of R156 on an access of the current hart; the footprints waited for are kept until the wait ends.
DESIGN CHOICE, assumption 19. -/
def interlock (s : State) (a : Acc) (va : W64) (n : Nat) : Act Unit :=
  let js := s.myUnit.jobs
  let blocked := if a = .load then loadBlocked js (va56 va) n else storeBlocked js (va56 va) n
  if blocked then
    let ws := writersOf js a (va56 va) n
    hold (s.modMe (fun h => { h with waited := h.waited ++ ws.filter (fun w => !h.waited.contains w) }))
  else .ok ()

-- The data cache (R64 to R67).

def setOf (line : Nat) : Nat := line % 256

def State.cset (s : State) (core line : Nat) : List CacheLine :=
  Tab.get [] (s.core core).dcache (setOf line)
def State.setCset (s : State) (core line : Nat) (l : List CacheLine) : State :=
  let k := s.core core
  s.setCore core { k with dcache := Tab.put k.dcache (setOf line) l }

def CacheLine.is (c : CacheLine) (ctx line : Nat) (owner : Option (Fin 4)) : Bool :=
  c.ctx == ctx && c.line == line && c.owner == owner

/-- Put a line in most recently used position, replacing its old copy. -/
def touch (l : List CacheLine) (c : CacheLine) : List CacheLine :=
  l.filter (fun d => !d.is c.ctx c.line c.owner) ++ [c]

def maskAll (n : Nat) : W64 := BitVec.ofNat 64 (2 ^ n - 1)

/-- The owner of a Phase line as a hart of the core. -/
def ownerHart (core : Nat) (o : Fin 4) : Nat := core * 4 + o.val

def spillFault (line : Nat) : TrapInfo := { code := .spillOverflow, va := BitVec.ofNat 64 (line * 64) }

/-- The owner's spill area has room for another line (R121). -/
def spillRoom (s : State) (core : Nat) (c : CacheLine) : Bool :=
  match c.owner with
  | none => false
  | some o =>
    let h := s.bank (ownerHart core o) c.ctx
    h.spill.length < h.spillMax

/-- Move a Phase line to its owner's spill area (R66, R120). -/
def spillOut (s : State) (core : Nat) (c : CacheLine) : State :=
  match c.owner with
  | none => s
  | some o =>
    let h := s.bank (ownerHart core o) c.ctx
    s.setBank (ownerHart core o) c.ctx
      { h with spill := h.spill ++
          [{ dpa := c.line * 64, va := c.va, data := c.data, mask := c.mask, valid := c.valid, fresh := c.fresh
             leaves := c.leaves }] }

/-- A hart is to fault, or has faulted and has not been resumed since, for the access of a slot to a set (R121). -/
def Hart.chosenFor (h : Hart) (set slot : Nat) : Bool :=
  h.owed.any (fun e => e.1 == set && e.2.1 == slot) || h.spillSet.contains (set, slot)

/-- An owner of a Phase line of a set has been made to fault for the access of a slot (R121). -/
def spillChosen (s : State) (core line : Nat) (me : Fin 4) : Bool :=
  (s.cset core line).any (fun c => match c.owner with
    | some o => (s.bank (ownerHart core o) c.ctx).chosenFor (setOf line) me.val
    | none => false)

/-- The outcome of R121 when no way of the set can be freed: the requester that owns a Phase line of the set faults,
naming its least recently used one (DESIGN CHOICE, assumption 74); else the owner of the least recently used Phase line
whose hart is not frozen is to fault at its next boundary, once for this access, and the requester waits.
DESIGN CHOICE, assumption 74. -/
def noWay {α : Type} (s0 s : State) (core line : Nat) (me : Fin 4) : Act α :=
  let l := s.cset core line
  match l.find? (fun c => c.owner == some me && c.ctx == s.ctxOf core) with
  | some c => fail s0 (spillFault c.line)
  | none =>
    if spillChosen s0 core line me then hold s0
    else
      match l.find? (fun c => match c.owner with
          | some o => !(s.bank (ownerHart core o) c.ctx).frozen
          | none => false) with
      | some c =>
        match c.owner with
        | some o =>
          let h := s0.bank (ownerHart core o) c.ctx
          hold (s0.setBank (ownerHart core o) c.ctx
            { h with owed := h.owed ++ [(setOf line, me.val, spillFault c.line)] })
        | none => hold s0
      | none => hold s0

/-- The access of a slot to a set has found a way: another one is decided anew (R121). -/
def wayFound (s : State) (core line : Nat) (me : Fin 4) : State :=
  (s.cset core line).foldl (fun s c =>
    match c.owner with
    | none => s
    | some o =>
      let h := s.bank (ownerHart core o) c.ctx
      if h.spillSet.contains (setOf line, me.val) then
        s.setBank (ownerHart core o) c.ctx { h with spillSet := h.spillSet.erase (setOf line, me.val) }
      else s) s

/-- A state with a free way of a line's set, if there is one (R66, R121): an Invalid way, else the least recently used
Clean line's, else the least recently used Phase line's whose spill is not refused. -/
def wayFree (s : State) (core line : Nat) : Option State :=
  let l := s.cset core line
  if l.length < 4 then some s
  else
    match l.findIdx? (fun c => c.owner == none) with
    | some i => some (s.setCset core line (l.eraseIdx i))
    | none =>
      match l.findIdx? (fun c => spillRoom s core c) with
      | some i => (l[i]?).map (fun c => spillOut (s.setCset core line (l.eraseIdx i)) core c)
      | none => none

/-- Free a way of a line's set for a hart's access. `s0` is the state an unmet request leaves. -/
def freeWay (s0 s : State) (core line : Nat) (me : Fin 4) : Act State :=
  match wayFree s core line with
  | some t => .ok (wayFound t core line me)
  | none => noWay s0 s core line me

-- How an access is answered.

/-- The fault that an answer gives (R42, R86, R147, R495, R496). -/
def peerFault (st : RespStatus) (va : W64) : Option TrapInfo :=
  match st with
  | .ok | .duplicate => none
  | .absent => some (accessFault causeAbsent va)
  | .foreign => some (accessFault causeForeign va)
  | .integrity => some { code := .integrity, va := va }
  | .fabric => some { code := .fabricIntegrity, va := va }
  | .exhaust => some { code := .keyExhaust, va := va }

def peerCheck (s : State) (st : RespStatus) (va : W64) : Act Unit :=
  match peerFault st va with
  | none => .ok ()
  | some f => fail s f

/-- Fabric meters count 64 bytes for each granule at the port (R510). -/
def State.fabricMoved (s : State) (ctx : Nat) (out : Bool) (n : Nat) : State :=
  s.addMeter ctx (if out then 9 else 10) (64 * n)

-- The eager path.

/-- DESIGN CHOICE, assumption 30. -/
def integrityFault (va : W64) : TrapInfo := { code := .integrity, va := va }

/-- A read by the current hart through a leaf. A page with ENC = 1 gives ciphertext (R86, R98). -/
def State.hartRead (s : State) (p : Place) (n : Nat) (e : TlbEntry) (va : W64) : Request :=
  { kind := .read, agent := .hart s.cur, ctx := s.myCtx, place := p, size := n, va := va, leaf := some e
    enc := pteEnc e.pte }

/-- Read bytes of one granule at its ordering bank (R73, R86), as a response that says whether a fill may be kept. -/
def readTrip (s : State) (dpa n : Nat) (e : TlbEntry) (va : W64) (ahead : Bool) : Act (State × Response) :=
  match placeOf s dpa with
  | none => fail s (accessFault causeAbsent va)
  | some p => do
    let (s, q) ← trip s { s.hartRead p n e va with ahead := ahead }
    peerCheck s q.status va
    .ok (s, q)

def eagerRead (s : State) (dpa n : Nat) (e : TlbEntry) (va : W64) : Act (State × List Byte) := do
  let (s, q) ← readTrip s dpa n e va false
  .ok (s, leBytes n q.data.toNat)

/-- A write request of the current hart: the hart goes on while it travels (R125). -/
def State.hartWrite (s : State) (p : Place) (size : Nat) (mask : W64) (d : V512) (va : W64) : Request :=
  { kind := .write, agent := .hart s.cur, ctx := s.myCtx, place := p, size := size, mask := mask, data := d, va := va
    posted := true }

/-- The current hart's write leaves for its ordering bank, where it is performed later (R73, R75). -/
def State.post (s : State) (p : Place) (size : Nat) (mask : W64) (d : V512) (va : W64) : State :=
  s.sendReq (s.hartWrite p size mask d va)

/-- A failure of the fabric that a later release takes (R367, R495). -/
def deferFabric (s : State) (va : W64) : State :=
  s.modMe (fun h => { h with refusals := h.refusals ++ [{ code := .fabricIntegrity, va := va }] })

/-- One of a list of choices that the spec leaves to the peer (assumption 2). DESIGN CHOICE, assumption 22. -/
def chooseStatus (s : State) (l : List RespStatus) : State × RespStatus :=
  ({ s with draws := s.draws + 1 }, (l[(Config.freeValue s.draws).toNat % l.length]?).getD .ok)

/-- What refuses a store to a peer before it is performed: a device outside the domain (R496), or the peer's own check of
the frame, a free value (R42). DESIGN CHOICE, assumption 22. -/
def storeAbsent (s : State) (p : Place) (va : W64) : State × Option TrapInfo :=
  match p with
  | .peer _ _ =>
    match fabricRefusal s p s.myCtx with
    | some st => (s, if st == .fabric then none else peerFault st va)
    | none =>
      let (s, st) := chooseStatus s [.ok, .absent]
      (s, peerFault st va)
  | _ => (s, none)

/-- What refuses a store as it is performed: a line whose check fails refuses a partial write, a peer's as a free value
(R86). None where the store is sent. DESIGN CHOICE, assumption 22. -/
def storeRefusal (s : State) (p : Place) (n : Nat) (va : W64) : State × Option TrapInfo :=
  match p with
  | .mem a => if writeRefused s a n then (s.logBad a, some (integrityFault va)) else (s, none)
  | .peer _ _ =>
    if (fabricRefusal s p s.myCtx).isSome then (s, none)
    else
      let (s, st) := chooseStatus s [.ok, .integrity]
      (s, peerFault st va)
  | _ => (s, none)

/-- A refusal of `storeAbsent` or `storeRefusal` as a check of the instruction. -/
def refusedAs (r : State × Option TrapInfo) : Act State :=
  match r with
  | (s, some f) => fail s f
  | (s, none) => .ok s

/-- A checked store leaves, or on a refused stream ends in a failure that a later release takes (R495). -/
def sendStore (s : State) (r : Request) : State :=
  if fabricRefusal s r.place s.myCtx == some .fabric then deferFabric s r.va else s.sendReq r

/-- Write bytes of one granule at its ordering bank (R73, R86, R126). -/
def eagerWrite (s : State) (dpa : Nat) (e : TlbEntry) (va : W64) (bs : List Byte) : Act State :=
  match placeOf s dpa with
  | none => fail s (accessFault causeAbsent va)
  | some p => do
    waitFor (!s.fabricWaits p) s
    let s ← refusedAs (storeAbsent s p va)
    let s ← refusedAs (storeRefusal s p bs.length va)
    .ok (sendStore s { s.hartWrite p bs.length 0 (v512 bs) va with leaf := some e })

-- The phase path (R120 to R123).

/-- The current hart's slot, as the owner of its Phase lines. -/
def State.mySlot (s : State) : Fin 4 := Fin.ofNat 4 (slotOf s.cur)

/-- A hart's spilled line for a DPA leaves the area (R120). -/
def takeSpilled (s : State) (line : Nat) : Option (State × SpillLine) :=
  match s.me.spill.find? (fun q => q.dpa == line * 64) with
  | none => none
  | some q => some (s.modMe (fun h => { h with spill := h.spill.erase q }), q)

/-- The current hart has read a line anew, or publishes it: what core-mates read of it earlier is no longer the newest,
and is not kept as a Clean line; a load of theirs performed ahead keeps what it read (R125, R135). -/
def State.newer (s : State) (line : Nat) : State :=
  let core := s.myCore
  let ctx := s.myCtx
  match placeOf s (line * 64) with
  | none => s
  | some pl =>
    let mate (ag : Agent) (c : Nat) (k : ReqKind) (p : Place) (n : Nat) : Bool :=
      c == ctx && k == .read && ag != .hart s.cur && (match ag with | .hart id => coreOf id == core | _ => false) &&
        (p == pl || p.meets n pl 64)
    let s := s.mapAccess (fun r => if mate r.agent r.ctx r.kind r.place r.size then { r with fresh := false } else r)
      (fun q => if mate q.agent q.ctx q.kind q.place q.size then { q with fresh := false } else q)
    let other (o : Option (Fin 4)) : Bool := o.isSome && o != some s.mySlot
    let s := s.setCset core line ((s.cset core line).map (fun c =>
      if c.ctx == ctx && c.line == line && other c.owner then { c with fresh := false } else c))
    [0, 1, 2, 3].foldl (fun s i =>
      let id := core * 4 + i
      let h := s.bank id ctx
      if id == s.cur || !h.spill.any (fun q => q.dpa == line * 64) then s
      else s.setBank id ctx { h with
        spill := h.spill.map (fun q => if q.dpa == line * 64 then { q with fresh := false } else q) }) s

/-- Read a whole line from memory, as a fill, and whether it may be kept (R65). -/
def fillLine (s : State) (line : Nat) (e : TlbEntry) (va : W64) : Act (State × V512 × Bool) := do
  let (s, q) ← readTrip s (line * 64) 64 e va false
  .ok (s.newer line, q.data, q.fresh)

/-- Merge the bytes under a mask. -/
def mergeLine (old new : V512) (m : W64) : V512 :=
  ((List.range 64).filter (fun i => m.getLsbD i)).foldl (fun v i => lineSet v i (lineGet new i 1)) old

/-- A line with the bytes that it lacks taken from another copy of it, where that has them. -/
def CacheLine.filled (c d : CacheLine) : CacheLine :=
  { c with data := mergeLine c.data d.data (d.valid &&& ~~~c.valid), valid := c.valid ||| d.valid }

/-- The bytes of a line that an acquire made stale come again, a Phase line's from the Clean line, else from memory, when
the bytes `want` need them (R122, R138, R140). -/
def refresh (s : State) (c : CacheLine) (want : W64) (e : TlbEntry) (va : W64) : Act (State × CacheLine) :=
  let b := match (s.cset s.myCore c.line).find? (fun d => c.owner.isSome && d.is c.ctx c.line none) with
    | some d => c.filled d
    | none => c
  if want &&& ~~~c.valid = 0 then .ok (s, c)
  else if want &&& ~~~b.valid = 0 then .ok (s, b)
  else do
    let (s, d, fresh) ← fillLine s c.line e va
    .ok (s, { c with data := mergeLine d c.data c.valid, valid := BitVec.allOnes 64, fresh := fresh })

/-- Loads of the current hart performed ahead on a line that it reads in the cache: they are performed again (R135). -/
def State.dropLineAheads (s : State) (line : Nat) : State :=
  if s.inFlight.any (fun r => r.ahead) || (s.respNet ++ s.inbox).any (fun q => q.ahead) then
    match placeOf s (line * 64) with
    | some pl => s.forsake (fun a c p n _ ah => ah && a == .hart s.cur && c == s.myCtx && (p == pl || p.meets n pl 64))
    | none => s
  else s

/-- The line a phase-path load reads: the hart's Phase line, its spilled line brought back, a Clean line, or a
Clean line filled from memory (R122). -/
def loadLine (s : State) (line : Nat) (want : W64) (e : TlbEntry) (va : W64) : Act (State × V512) := do
  let core := s.myCore
  let ctx := s.myCtx
  let me := s.mySlot
  waitFor (!(s.core core).todo.contains 1) s
  match (s.cset core line).find? (fun c => c.is ctx line (some me)) with
  | some c => do
    let (s, c) ← refresh s c want e va
    .ok ((s.setCset core line (touch (s.cset core line) c)).dropLineAheads line, c.data)
  | none =>
    match takeSpilled s line with
    | some (s1, q) => do
      let c : CacheLine :=
        { ctx := ctx, line := line, owner := some me, data := q.data, mask := q.mask, valid := q.valid, va := q.va
          fresh := q.fresh, leaves := q.leaves }
      let (s2, c) ← refresh s1 c want e va
      let s3 ← freeWay s s2 core line me
      .ok ((s3.setCset core line (touch (s3.cset core line) c)).dropLineAheads line, c.data)
    | none =>
      match (s.cset core line).find? (fun c => c.is ctx line none) with
      | some c => do
        let (s, d) ← refresh s c want e va
        let keep := if d.fresh then d else c
        .ok ((s.setCset core line (touch (s.cset core line) keep)).dropLineAheads line, d.data)
      | none => do
        let (s1, d, fresh) ← fillLine s line e va
        if fresh then do
          let s2 ← freeWay s s1 core line me
          let c : CacheLine := { ctx := ctx, line := line, owner := none, data := d, mask := 0, va := va56 va / 64 }
          .ok (s2.setCset core line (touch (s2.cset core line) c), d)
        else .ok (s1, d)

/-- The hart's Phase line for a DPA, allocated when there is none: from its spill area, from the Clean copy, or
from memory (R65, R120). -/
def phaseLine (s : State) (line : Nat) (e : TlbEntry) (va : W64) : Act (State × CacheLine) := do
  let core := s.myCore
  let ctx := s.myCtx
  let me := s.mySlot
  waitFor (!(s.core core).todo.contains 1) s
  let mk (d : V512) (m : W64) : CacheLine :=
    { ctx := ctx, line := line, owner := some me, data := d, mask := m }
  match (s.cset core line).find? (fun c => c.is ctx line (some me)) with
  | some c => .ok (s, c)
  | none =>
    match takeSpilled s line with
    | some (s1, q) => do
      let s2 ← freeWay s s1 core line me
      .ok (s2, { mk q.data q.mask with valid := q.valid, va := q.va, fresh := q.fresh, leaves := q.leaves })
    | none =>
      match (s.cset core line).find? (fun c => c.is ctx line none) with
      | some c => do
        let s1 ← freeWay s s core line me
        .ok (s1, { mk c.data 0 with valid := c.valid })
      | none => do
        let (s1, d, fresh) ← fillLine s line e va
        let s2 ← freeWay s s1 core line me
        .ok (s2, { mk d 0 with fresh := fresh })

/-- A Phase line takes the bytes of a store under a mask, through a leaf (R52, R120). -/
def CacheLine.stored (c : CacheLine) (d : V512) (m : W64) (va : W64) (e : TlbEntry) : CacheLine :=
  { c with data := mergeLine c.data d m, mask := c.mask ||| m, valid := c.valid ||| m, va := va56 va / 64
           leaves := if c.leaves.contains e then c.leaves else c.leaves ++ [e] }

/-- As of a Phase line in the cache, of one in the spill area. -/
def SpillLine.stored (q : SpillLine) (d : V512) (m : W64) (va : W64) (e : TlbEntry) : SpillLine :=
  { q with data := mergeLine q.data d m, mask := q.mask ||| m, valid := q.valid ||| m, va := va56 va / 64
           leaves := if q.leaves.contains e then q.leaves else q.leaves ++ [e] }

/-- A phase store writes its bytes into the Phase line and its dirty mask (R120). -/
def phaseStore (s : State) (dpa : Nat) (e : TlbEntry) (va : W64) (bs : List Byte) : Act State := do
  let line := dpa / 64
  let off := dpa % 64
  let (s, c) ← phaseLine s line e va
  let c := c.stored (lineSet 0 off bs) (maskAll bs.length <<< off) va e
  .ok (s.setCset s.myCore line (touch (s.cset s.myCore line) c))

/-- The striped address of a byte of HBM (R37). -/
def stripedOf (phys : Nat) : Nat :=
  2 ^ 40 + phys / 2 ^ 37 * 2 ^ 37 + phys % 2 ^ 30 / 2 ^ 9 * 2 ^ 16 + phys / 2 ^ 30 % 128 * 2 ^ 9 + phys % 2 ^ 9

/-- The DPAs that name the line of a DPA: its own, and the other view's (R38). -/
def lineNames (s : State) (line : Nat) : List Nat :=
  match placeOf s (line * 64) with
  | some (.mem p) =>
    if p < 2 ^ 40 then [s.devidx * 2 ^ 46 + p, s.devidx * 2 ^ 46 + stripedOf p] else [line * 64]
  | _ => [line * 64]

/-- The leaf of a page as the tables in memory stand (R39 to R42). -/
def tableLeaf (s : State) (ctx vpn : Nat) : Nat → Nat → Option TlbEntry
  | 0, _ => none
  | left + 1, table =>
    let level := 3 - left
    match physOf s (table % 2 ^ 46 + 8 * levelIndex vpn level) with
    | none => none
    | some a =>
      let p : W64 := BitVec.ofNat 64 (leNat (Mem.readN s.mem a 8))
      let big := level == 2
      if (pteStop s level p).isSome then none
      else if pteLeaf p then
        some { ctx := ctx, big := big, vpn := if big then vpn / 2 ^ 13 else vpn, pte := p, entry := a }
      else tableLeaf s ctx vpn left (pteFrame p * 2 ^ 16)

/-- The leaves that a page has for a core: what its TLBs hold, and what the tables give (R38). -/
def pageLeaves (s : State) (core ctx vpn : Nat) : List TlbEntry :=
  let root := rootOf s ctx
  ((s.core core).tlb ++ Tab.get [] s.clusterTlb (clusterOf core)).filter (fun e => e.hits ctx vpn) ++
    (if (rootStop s root).isSome then none else tableLeaf s ctx vpn 3 root.toNat).toList

/-- The runs of DPAs that the bytes of regions have now, page by page (R38). DESIGN CHOICE, assumption 67. -/
def regionFrames (s : State) (core ctx : Nat) (rs : List Region) : List (Nat × Nat) :=
  ((rs.filter (fun r => r.size != 0 && r.va < 2 ^ 55)).map (fun r =>
    (List.range ((r.va + r.size - 1) / 2 ^ 16 - r.va / 2 ^ 16 + 1)).map (fun i =>
      let vpn := r.va / 2 ^ 16 + i
      let lo := Nat.max r.va (vpn * 2 ^ 16)
      let hi := Nat.min (r.va + r.size) (vpn * 2 ^ 16 + 2 ^ 16)
      (pageLeaves s core ctx vpn).map (fun e => (e.dpa lo, hi - lo))))).flatten.flatten

/-- Bytes by DPA lie among runs of them. -/
def framesHit (fs : List (Nat × Nat)) (dpa n : Nat) : Bool := fs.any (fun f => f.1 < dpa + n && dpa < f.1 + f.2)

/-- A line overlaps regions: by the address of its last store or fill, or by its bytes, whatever view or mapping names
them (R38). -/
def lineMeets (s : State) (rs : List Region) (fs : List (Nat × Nat)) (line va : Nat) : Bool :=
  rs.any (fun r => r.hits (va * 64) 64) || (lineNames s line).any (fun d => framesHit fs d 64)

/-- Drop every Clean line of a core that overlaps a region (R156). -/
def dropRegion (s : State) (core ctx : Nat) (r : Region) : State :=
  let k := s.core core
  let clean (c : CacheLine) : Bool := c.ctx == ctx && c.owner == none
  if k.dcache.any (fun e => e.2.any clean) then
    let fs := regionFrames s core ctx [r]
    s.setCore core { k with
      dcache := k.dcache.map (fun e => (e.1, e.2.filter (fun c => !(clean c && lineMeets s [r] fs c.line c.va)))) }
  else s

/-- The eager path of R119: page, variant, or a supervisor hart. -/
def eagerPath (s : State) (var : Bool) (e : TlbEntry) : Bool := var || pteEager e.pte || isSup s.cur

/-- The end of an interlock wait drops every Clean line that overlaps the bytes released: of a job that has completed
its whole footprint, of one in flight what the watermark has passed (R156, R157). -/
def afterInterlock (s : State) : State :=
  if s.me.waited.isEmpty then s
  else
    let ws := s.me.waited
    let js := s.myUnit.jobs
    ws.foldl (fun s w =>
      let r := match js.find? (fun j => j.id == w.1) with
        | some j => { w.2 with size := Nat.min w.2.size j.filled }
        | none => w.2
      dropRegion s s.myCore s.myCtx r) (s.modMe (fun h => { h with waited := [] }))

-- One access of a hart, inside one 64-byte word.

/-- A slot write of the current hart is on its way on the ring network to a bank of a core's scratchpad (R75, R124). -/
def slotFlying (s : State) (core off : Nat) : Bool :=
  s.ringNet.any (fun m => m.src == s.myCore && m.dst == core && m.ctx == s.myCtx && !m.dead && m.link / 16 == slotOf s.cur &&
    (match m.body with
     | .slot i _ =>
       let r := (s.unit core m.ctx).rings[(Fin.ofNat 16 m.ring : Fin 16)]
       (r.base + i * r.slotBytes) / 64 % 32 == off / 64 % 32
     | _ => false))

/-- A read of a scratchpad word by the current hart: of its own core at its step, unless it was performed ahead; of
another core by request and response (R58, R59, R75). DESIGN CHOICE, assumption 19. -/
def spadLoad (s : State) (core off n : Nat) (va : W64) : Act (State × List Byte) := do
  let pl : Place := .spad core off
  let r : Request := { kind := .read, agent := .hart s.cur, ctx := s.myCtx, place := pl, size := n, va := va }
  waitFor (!slotFlying s core off) s
  if core = s.myCore && !s.asked r then
    waitFor (!orderBusy s (.hart s.cur) pl n) s
    .ok (s.dropAhead (.hart s.cur) s.myCtx pl, spadRead s core s.myCtx off n)
  else
    let (s, q) ← trip s r
    .ok (s, leBytes n q.data.toNat)

/-- Perform a load at a resolved target. DESIGN CHOICE, assumption 19. -/
def loadAt (s : State) (t : Target) (va : W64) (n : Nat) (eager : Bool) : Act (State × List Byte) := do
  interlock s .load va n
  match t with
  | .spad core off => spadLoad (afterInterlock s) core off n va
  | .mem dpa e =>
    let s := afterInterlock s
    if eagerPath s eager e then eagerRead s dpa n e va
    else do
      let (s, d) ← loadLine s (dpa / 64) (maskAll n <<< (dpa % 64)) e va
      .ok (s, lineGet d (dpa % 64) n)
  | _ => fail s (accessFault causeWindow va)

/-- Perform a store at a resolved target: on the eager path it leaves for its bank (R125); encrypted pages refuse it
(R98). DESIGN CHOICE, assumption 19. -/
def storeAt (s : State) (t : Target) (va : W64) (bs : List Byte) (eager : Bool) : Act State := do
  match t with
  | .spad core off => do
    interlock s .store va bs.length
    waitFor (!slotFlying s core off) s
    .ok ((afterInterlock s).post (.spad core off) bs.length 0 (v512 bs) va)
  | .mem dpa e => do
    need (!pteEnc e.pte) s (accessFault causeEncrypted va)
    interlock s .store va bs.length
    if eagerPath s eager e then eagerWrite (afterInterlock s) dpa e va bs
    else phaseStore (afterInterlock s) dpa e va bs
  | _ => fail s (accessFault causeWindow va)

/-- Address of a load, store or vector access (R193). -/
def effAddr (base : W64) (imm : W32) : W64 := base + imm.signExtend 64

/-- Load bytes inside one word with all of R244's checks after alignment. -/
def loadBytes (s : State) (va : W64) (n : Nat) (eager : Bool) : Act (State × List Byte) := do
  let t ← resolve s s.iAm .load va
  loadAt s t va n eager

def storeBytes (s : State) (va : W64) (bs : List Byte) (eager : Bool) : Act State := do
  let t ← resolve s s.iAm .store va
  storeAt s t va bs eager

/-- Eager loads of a record of several 64-byte words from a 64-byte, or smaller power of two, aligned address:
every word is checked before any is read. -/
def loadWords (s : State) (va : W64) (step : Nat) : Nat → Act (State × List Byte)
  | 0 => .ok (s, [])
  | k + 1 => do
    let (s, b) ← loadBytes s va step true
    let (s, bs) ← loadWords s (va + BitVec.ofNat 64 step) step k
    .ok (s, b ++ bs)

-- Release and acquire (R127, R128).

/-- One release write: an eager store of a line's dirty bytes at its place (R124, R127). -/
def publish (s : State) (line vline : Nat) (d : V512) (m : W64) (leaves : List TlbEntry) : State :=
  if m = 0 then s
  else
    let va : W64 := BitVec.ofNat 64 (vline * 64)
    match placeOf s (line * 64) with
    | none => s
    | some p => (sendStore s { s.hartWrite p 64 m d va with through := leaves }).newer line

/-- A published line as the Clean line that it becomes (R127): of bytes that a hart of the core may have read newer since
its fill it keeps those that it published (R135, R138, R140). DEDUCED, assumption 32. -/
def CacheLine.settled (c : CacheLine) : CacheLine :=
  { c with owner := none, mask := 0, valid := if c.fresh then c.valid else c.mask, fresh := true, leaves := [] }

/-- A Clean line takes the dirty bytes of a published one (R127). -/
def CacheLine.merged (d : CacheLine) (data : V512) (mask : W64) : CacheLine :=
  { d with data := mergeLine d.data data mask, valid := d.valid ||| mask }

/-- After its bytes are issued a Phase line merges into the Clean line of its DPA, or becomes Clean (R127). -/
def settleLine (s : State) (core : Nat) (c : CacheLine) : State :=
  let l := s.cset core c.line
  match l.find? (fun d => d.is c.ctx c.line none) with
  | some d =>
    s.setCset core c.line ((l.filter (fun e => !e.is c.ctx c.line c.owner)).map (fun e =>
      if e.is c.ctx c.line none then d.merged c.data c.mask else e))
  | none => s.setCset core c.line (l.map (fun e => if e.is c.ctx c.line c.owner then e.settled else e))

/-- The Phase lines of a hart in a core's cache, set by set. -/
def phaseLines (s : State) (core ctx : Nat) (o : Fin 4) : List CacheLine :=
  ((s.core core).dcache.map (fun e => e.2.filter (fun c => c.ctx == ctx && c.owner == some o))).flatten

/-- Publish the current hart's Phase lines that a test selects. -/
def publishLines (s : State) : List CacheLine → State
  | [] => s
  | c :: cs => publishLines (settleLine (publish s c.line c.va c.data c.mask c.leaves) s.myCore c) cs

/-- A published line of the spill area merges into the Clean line, or becomes Clean in a way that R66 frees for it; where
every way is held, it is replaced at once (R67, R127). DEDUCED, assumption 32. -/
def settleSpill (s : State) (q : SpillLine) : State :=
  let line := q.dpa / 64
  let core := s.myCore
  let c : CacheLine :=
    { ctx := s.myCtx, line := line, owner := none, data := q.data, mask := q.mask, valid := q.valid, va := q.va
      fresh := q.fresh }
  let l := s.cset core line
  if l.any (fun e => e.is s.myCtx line none) then
    s.setCset core line (l.map (fun e => if e.is s.myCtx line none then e.merged q.data q.mask else e))
  else
    match wayFree s core line with
    | some t => t.setCset core line (t.cset core line ++ [c.settled])
    | none => s

def publishSpills (s : State) : List SpillLine → State
  | [] => s
  | q :: qs =>
    let s := publish s (q.dpa / 64) q.va q.data q.mask q.leaves
    publishSpills (settleSpill (s.modMe (fun h => { h with spill := h.spill.erase q })) q) qs

/-- A dirty line lies at a device outside the domain: its write is refused before it leaves (R496). -/
def lineForeign (s : State) (line : Nat) (mask : W64) : Bool :=
  mask != 0 && (match placeOf s (line * 64) with
    | some p => fabricRefusal s p s.myCtx == some .foreign
    | none => false)

/-- Publish the unreleased lines of the current hart that a test on a line and the address of its last store selects
(R127, R155), the cache's set by set and then the spill area's, an order that the rules leave open.
DESIGN CHOICE, assumption 75. -/
def publishAll (s : State) (sel : Nat → Nat → Bool) : Act State := do
  waitFor (!(s.core s.myCore).todo.contains 1) s
  let ls := (phaseLines s s.myCore s.myCtx s.mySlot).filter (fun c => sel c.line c.va)
  let qs := s.me.spill.filter (fun q => sel (q.dpa / 64) q.va)
  let all : List (Nat × Nat × W64) :=
    ls.map (fun c : CacheLine => (c.line, c.va, c.mask)) ++ qs.map (fun q : SpillLine => (q.dpa / 64, q.va, q.mask))
  match all.find? (fun l : Nat × Nat × W64 => lineForeign s l.1 l.2.2) with
  | some l => fail s (accessFault causeForeign (BitVec.ofNat 64 (l.2.1 * 64)))
  | none => .ok (publishSpills (publishLines s ls) qs)

/-- The current hart has unreleased lines. -/
def unreleased (s : State) : Bool := !(phaseLines s s.myCore s.myCtx s.mySlot).isEmpty || !s.me.spill.isEmpty

/-- A posted write or reduce-store of the current hart. -/
def Request.mineOut (s : State) (r : Request) : Bool :=
  r.agent == .hart s.cur && r.ctx == s.myCtx && r.posted && (r.kind == .write || r.kind == .atomic)

/-- Writes and reduce-stores of the current hart that are still unacknowledged (R127, R144, R367).
DEDUCED, assumption 20. -/
def writesPending (s : State) : Bool :=
  (s.inFlight ++ s.outbox).any (fun r => r.mineOut s) ||
    s.respNet.any (fun q => q.agent == .hart s.cur && q.ctx == s.myCtx && (q.kind == .write || q.kind == .atomic))

/-- Reduce-stores among them: every release at CLUS or wider waits for their acknowledgements (R367). -/
def reducesPending (s : State) : Bool :=
  (s.inFlight ++ s.outbox).any (fun r => r.mineOut s && r.kind == .atomic) ||
    s.respNet.any (fun q => q.agent == .hart s.cur && q.ctx == s.myCtx && q.kind == .atomic && q.posted)

/-- Writes of the current hart that are not performed at HART and CORE scope: still at their own core's scratchpad or
port, and not in a bank queue (R118). -/
def coreWrites (s : State) : Bool :=
  s.reqNet.any (fun r => r.mineOut s && r.agent.coreId == some (r.place.router s))

/-- Writes of the current hart on their way to a scratchpad or a debug window, which no FLUSH reaches (R145). -/
def localWrites (s : State) : Bool :=
  s.reqNet.any (fun r => r.mineOut s && (match r.place with
    | .spad _ _ => true
    | .debug _ _ => true
    | _ => false))

/-- A refusal that came back is taken by a covering release, fence.sc or tend (R367). -/
def takeRefusal (s : State) : Act Unit :=
  match s.me.refusals with
  | [] => .ok ()
  | f :: rest => fail (s.modMe (fun h => { h with refusals := rest })) { f with deferred := true }

/-- The wait of a release or fence until the hart's writes are performed at a scope (R118, R127, R144): at CLUS and
wider by their acknowledgements, with their refusals (R367). DESIGN CHOICE, assumption 19. -/
def coverWait (s : State) (scope : Nat) : Act Unit :=
  if scope ≥ 2 then do
    waitFor (!writesPending s) s
    takeRefusal s
  else waitFor (!coreWrites s) s

/-- The destinations that a release flushes: local ports and tier controllers, and peers, every device of the domain
when the set overflowed (R146). -/
def DestSet.targets (d : DestSet) (s : State) : List Place :=
  d.ports.map Place.port ++ d.tiers.map (fun c => Place.port (2048 + c)) ++
    (if d.overflow then s.domain else d.peers.map (·.1)).map (fun e => Place.peer e 0)

/-- The paths on which a release sends its markers to a peer: those used, all 144 when the set overflowed (R146). -/
def DestSet.markers (d : DestSet) (dev : Nat) : List Nat :=
  if d.overflow then List.range 144 else ((d.peers.find? (fun p => p.1 == dev)).map (·.2)).getD []

/-- FLUSH to one destination, to a peer as one marker on each path with the release and their number (R75, R146). -/
def sendFlush (d : DestSet) (s : State) (r : Request) : State :=
  match r.place with
  | .peer e _ =>
    let ps := d.markers e
    let s := ps.foldl (fun s _ => s.sendSeq r.place r.ctx) s
    { s with outbox := s.outbox ++ [{ r with paths := ps }] }
  | _ => { s with reqNet := s.reqNet ++ [r] }

/-- Flush markers go out to every destination of a set, and every FLUSH and FLUSH ACK is waited for (R146, R147). -/
def flushFor (s : State) (ag : Agent) (ctx : Nat) (job : Option Nat) (rel : Nat) (d : DestSet) : Act State :=
  let ts := d.targets s
  let req (p : Place) : Request := { kind := .flush, agent := ag, ctx := ctx, place := p, size := 0, job := job, rel := rel }
  let mine (q : Response) : Bool := q.kind == .flush && q.agent == ag && q.ctx == ctx && q.job == job
  if ts.any (fun p => fabricRefusal s p ctx == some .fabric) || s.inbox.any (fun q => mine q && q.status == .fabric) then
    fail s { code := .fabricIntegrity }
  else if ts.all (fun p => s.inbox.any (fun q => mine q && q.place == p)) then
    .ok { s with inbox := s.inbox.filter (fun q => !mine q) }
  else hold ((ts.map req).foldl (fun s r => if s.asked r then s else sendFlush d s r) s)

/-- The current hart's flush round; then its destination set is empty (R145). -/
def flushRound (s : State) : Act State := do
  let s ← flushFor s (.hart s.cur) s.myCtx none s.me.rel s.me.dest
  .ok (s.modMe (fun h => { h with dest := {}, rel := h.rel + 1 }))

/-- A release waits until the hart's writes so far are performed at its scope (R127): at DEV and DOM by flush markers,
in scratchpads as they are performed, and for the acknowledgements of its reduce-stores (R144, R146, R367). -/
def performedAt (s : State) (scope : Nat) : Act State :=
  if scope ≥ 4 then do
    waitFor (!localWrites s) s
    let s ← flushRound s
    waitFor (!reducesPending s) s
    takeRefusal s
    .ok s
  else do
    coverWait s scope
    .ok s

/-- A wait inside a release is marked: a swap and a boundary wait for it (R136, R177). -/
def inRelease {α : Type} (r : Act α) : Act α :=
  match r with
  | .error (.wait s) => .error (.wait (s.modMe (fun h => { h with inRel := true })))
  | r => r

/-- The current hart holds unreleased lines of peers. -/
def linesOfPeers (s : State) : Bool :=
  let away (line : Nat) : Bool := match placeOf s (line * 64) with
    | some (.peer _ _) => true
    | _ => false
  (phaseLines s s.myCore s.myCtx s.mySlot).any (fun c => away c.line) || s.me.spill.any (fun q => away (q.dpa / 64))

/-- What would send to peers, lines or flush markers, does not begin during a domain barrier; a release that has begun
ends (R497). -/
def barrierWait (s : State) (away : Bool) : Act Unit := waitFor (s.me.inRel || s.barrier.isNone || !away) s

/-- rel at a scope (R127): the earlier writes are performed at the scope, the hart's lines are published, and their
writes are performed at it. DEDUCED, assumption 20. -/
def release (s : State) (scope : Nat) : Act State := do
  barrierWait s (!s.me.dest.peers.isEmpty || s.me.dest.overflow || linesOfPeers s)
  inRelease do
    let s ← if unreleased s then performedAt s scope else .ok s
    let s ← publishAll s (fun _ _ => true)
    performedAt s scope

/-- The Clean lines of a context leave a core's data cache; reads performed and not yet used leave no Clean line, and
those of the acquiring hart ahead of their instruction are made again (R128). -/
def dropCleanAll (s : State) (hid ctx : Nat) : State :=
  let core := coreOf hid
  let k := s.core core
  let s := s.setCore core { k with
    dcache := k.dcache.map (fun e => (e.1, e.2.filter (fun c => !(c.ctx == ctx && c.owner == none)))) }
  let mine (q : Response) : Bool :=
    q.ctx == ctx && q.kind == .read && (match q.agent with | .hart id => coreOf id == core | _ => false)
  let s := s.forsakeDone (fun q => q.ahead && q.kind == .read && q.agent == .hart hid && q.ctx == ctx)
  { s with
    respNet := s.respNet.map (fun q => if mine q then { q with fresh := false } else q)
    inbox := s.inbox.map (fun q => if mine q then { q with fresh := false } else q) }

/-- A hart's Phase and spilled lines keep their dirty bytes; the others become stale (R128, R138, R140). No Phase line
of the core becomes Clean with bytes filled before (R138). DEDUCED, assumption 32. -/
def staleLines (s : State) (hid ctx : Nat) : State :=
  let core := coreOf hid
  let o : Fin 4 := Fin.ofNat 4 (slotOf hid)
  let k := s.core core
  let old (c : CacheLine) : CacheLine :=
    if c.owner == some o then { c with valid := c.mask, fresh := false } else { c with fresh := false }
  let s := s.setCore core { k with
    dcache := k.dcache.map (fun e => (e.1, e.2.map (fun c => if c.ctx == ctx && c.owner.isSome then old c else c))) }
  let u := s.unit core ctx
  let s := if u.saved.isEmpty then s else s.setUnit core ctx { u with saved := u.saved.map old }
  [0, 1, 2, 3].foldl (fun s i =>
    let id := core * 4 + i
    let h := s.bank id ctx
    if h.spill.isEmpty then s
    else s.setBank id ctx { h with spill := h.spill.map (fun q =>
      if id == hid then { q with valid := q.mask, fresh := false } else { q with fresh := false }) }) s

/-- An acquire of a hart (R128). DEDUCED, assumption 32. -/
def acquireFor (s : State) (hid ctx : Nat) : State := staleLines (dropCleanAll s hid ctx) hid ctx

/-- acq at any scope (R128). -/
def acquire (s : State) : State := acquireFor s s.cur s.myCtx

/-- fence.sc at a scope: every earlier access is performed, and no later one; Phase lines stay (R130). -/
def fenceAt (s : State) (scope : Nat) : Act State := do
  coverWait s scope
  .ok (s.forsakeDone (fun q => q.ahead && q.agent == .hart s.cur && q.ctx == s.myCtx))

end Sys2Proof.Machine
end

