-- ==== Sys2Proof/Machine/Rings.lean ====
section
/-! DEFINITION. The ring unit: rings, handles, queue operands, publications and credits (R178, R189, R248 to
R257, R407, R425, R428, R431). -/

namespace Sys2Proof.Machine

-- %qbind (R249).
def qbBound (b : W64) : Bool := b.getLsbD 22
def qbRint (b : W64) : Bool := b.getLsbD 21
def qbMode (b : W64) : Nat := slice b.toNat 20 19
def qbPhandle (b : W64) : Nat := slice b.toNat 13 10
def qbPcore (b : W64) : Nat := slice b.toNat 9 0
def mkQbind (bound rint : Bool) (mode ph pc : Nat) : W64 :=
  BitVec.ofNat 64 (bound.toNat * 2 ^ 22 + rint.toNat * 2 ^ 21 + mode % 4 * 2 ^ 19 + ph % 16 * 2 ^ 10 + pc % 1024)

-- Counters (R248).
def Ring.filled (r : Ring) : Nat := (r.pp + 2 ^ 32 - r.cp) % 2 ^ 32
/-- Free slots: a slot in transit does not count as free, nor one reserved for a tile (R408, R409). -/
def Ring.free (r : Ring) : Nat := r.count - r.filled - r.transit.length - r.reserved
/-- Slots before the first unpassed marker (R428). -/
def Ring.visible (r : Ring) : Nat :=
  match r.markers with
  | [] => r.filled
  | m :: _ => Nat.min r.filled ((m.pos + 2 ^ 32 - r.cp) % 2 ^ 32)
def Ring.slotOff (r : Ring) (k : Nat) : Nat := r.base + k % r.count * r.slotBytes
/-- A visit that a hold limit or a swap may reclaim (R410, R412). -/
def Visit.reclaimable (v : Visit) : Bool := v.hold != 0 && !v.mg && !v.void && !v.ended

/-- A slot whose contents a reclaim voided, whose hold limit has expired, or whose make-good copy has not landed yet
(R410). -/
def Ring.voidAt (r : Ring) (clock c : Nat) : Bool :=
  r.visits.any (fun v => v.arr == (r.cp + c) % 2 ^ 32 &&
    (v.void || v.refill || (v.reclaimable && decide (v.since + v.hold < clock))))

def State.ring (s : State) (core ctx n : Nat) : Ring := (s.unit core ctx).rings[Fin.ofNat 16 n]
def State.setRing (s : State) (core ctx n : Nat) (r : Ring) : State :=
  let u := s.unit core ctx
  s.setUnit core ctx { u with rings := u.rings.set (Fin.ofNat 16 n) r }

-- Captured slots and hold limits (R313, R318, R410).

/-- Bits hi:lo of doubleword d of a record held as a Nat. -/
def rf (r d hi lo : Nat) : Nat := slice r (64 * d + hi) (64 * d + lo)

/-- Bits hi:lo of doubleword d of a card. -/
def cf (c : V512) (d hi lo : Nat) : Nat := rf c.toNat d hi lo
def cardOp (c : V512) : Nat := cf c 0 3 0
def cardTour (c : V512) : Bool := cf c 2 63 63 == 1

/-- A LOADB from a tour ring, or one that continues (R313). -/
def cardFromTour (c : V512) : Bool := cardTour c && (cardOp c == 1 || cardOp c == 4)

/-- A job reads a tile, or waits to, from the captured slot of an arrival. -/
def captures (c : Card) (ring arr : Nat) : Bool := cardFromTour c.card && cf c.card 2 3 0 == ring && c.cap == arr

/-- The block of a captured slot that is being fetched, or stopped. -/
def fetchers (m : Matrix) : List Running := ([m.loader, m.heldJob].filterMap id).filter (fun r => !r.ended)

/-- Pushed jobs that captured an arrival and have not read it (R313, R318). -/
def capturedBy (m : Matrix) (ring arr : Nat) : Bool := (m.queue ++ (fetchers m).map (·.c)).any (fun c => captures c ring arr)

/-- The hold limit of a visit has expired, in an earlier cycle than this one: a trel in the same cycle releases it
(R410). -/
def Visit.expired (s : State) (v : Visit) : Bool := v.reclaimable && decide (v.since + v.hold < s.clock)

/-- A visit of a ring is due to be reclaimed and its slot freed or voided, which comes before what a hart next sees of the
ring's counters (R410). DEDUCED, assumption 40. -/
def holdsDue (s : State) (core ctx n : Nat) : Bool :=
  (s.ring core ctx n).visits.any (fun v => v.expired s && !capturedBy (s.unit core ctx).matrix n v.arr)

/-- The key of a hart's link: its slot and handle. -/
def linkKey (slot h : Nat) : Nat := slot * 16 + h
def State.link (s : State) (core ctx key : Nat) : Option Link := ((s.unit core ctx).links.find? (fun e => e.1 == key)).map (·.2)
def State.setLink (s : State) (core ctx key : Nat) (l : Link) : State :=
  let u := s.unit core ctx
  s.setUnit core ctx { u with links := Tab.put u.links key l }
def State.dropLink (s : State) (core ctx key : Nat) : State :=
  let u := s.unit core ctx
  s.setUnit core ctx { u with links := Tab.drop u.links key }

def State.send (s : State) (m : RingMsg) : State := { s with ringNet := s.ringNet ++ [m] }

-- Interrupts (R255).

/-- Set a line of a hart in the bank of a context. -/
def raiseIn (s : State) (hid ctx line : Nat) : State := s.setBank hid ctx ((s.bank hid ctx).raise line)

/-- The filled count of a local ring rose from 0: RING on every hart of the core whose handle is bound to it
with RINT. DEDUCED, assumption 40. -/
def ringRose (s : State) (core ctx n : Nat) : State :=
  (List.range 4).foldl (fun s k =>
    let h := s.bank (core * 4 + k) ctx
    let b := h.qbind[Fin.ofNat 16 n]
    if qbBound b && qbRint b && qbMode b == 0 then raiseIn s (core * 4 + k) ctx 2 else s) s

/-- The free count of a peer binding rose from 0. DEDUCED, assumption 40. -/
def creditRose (s : State) (core ctx key : Nat) : State :=
  let hid := core * 4 + key / 16
  let b := (s.bank hid ctx).qbind[Fin.ofNat 16 key]
  if qbBound b && qbRint b && qbMode b == 1 then raiseIn s hid ctx 2 else s

/-- A core is not in the middle of a swap. -/
def swapIdle (s : State) (core : Nat) : Bool := (s.core core).swapTo.isNone && (s.core core).todo.isEmpty

/-- Ring and engine instructions wait until the units of the incoming context are loaded (R474). -/
def unitsReady (s : State) : Act Unit := waitFor (!(s.core s.myCore).todo.contains 0) s

-- A handle as the current hart holds it.

/-- PCORE and PHANDLE of an OUT or HEAD handle name the ring it publishes to; both are zero when it has none. -/
def nameTarget (s : State) (core ctx key : Nat) (dst : Option (Nat × Nat)) : State :=
  let hid := core * 4 + key / 16
  let h := s.bank hid ctx
  let n : Fin 16 := Fin.ofNat 16 key
  let p := dst.getD (0, 0)
  s.setBank hid ctx { h with qbind := h.qbind.set n (mkQbind true (qbRint h.qbind[n]) 3 p.2 p.1) }

/-- A handle's use after the unbound and role checks: a ring of this core, or a link to a peer's. -/
inductive Handle where
  | local_ (n : Nat) (r : Ring)
  | link (key : Nat) (l : Link)
  deriving DecidableEq, Repr

def roleOf (h : Hart) (n : Fin 16) : Nat := Tab.get 0 h.roles n.val

/-- The consumer end of a handle (R178, R249, R407, R425). -/
def consumerEnd (s : State) (n : Fin 16) : Act Handle := do
  unitsReady s
  let h := s.me
  let b := h.qbind[n]
  let r := s.ring s.myCore s.myCtx n.val
  need (qbBound b) s (queueFault 0)
  match qbMode b with
  | 0 => if r.tour then fail s (queueFault 1) else .ok (.local_ n.val r)
  | 1 => fail s (queueFault 1)
  | 2 => .ok (.local_ n.val r)
  | _ => if roleOf h n == 1 then .ok (.local_ n.val r) else fail s (queueFault 1)

/-- The link of an OUT or HEAD handle: none is a ROLE fault. -/
def linkEnd (s : State) (n : Fin 16) : Act Handle :=
  let key := linkKey (slotOf s.cur) n.val
  match s.link s.myCore s.myCtx key with
  | none => fail s (queueFault 1)
  | some l => if l.held then hold s else .ok (.link key l)

/-- The producer end of a handle (R178, R249, R407, R425). -/
def producerEnd (s : State) (n : Fin 16) : Act Handle := do
  unitsReady s
  let h := s.me
  let b := h.qbind[n]
  let r := s.ring s.myCore s.myCtx n.val
  need (qbBound b) s (queueFault 0)
  match qbMode b with
  | 0 => if r.tour || r.stage then fail s (queueFault 1) else .ok (.local_ n.val r)
  | 1 => linkEnd s n
  | 2 => fail s (queueFault 1)
  | _ => if roleOf h n == 1 then fail s (queueFault 1) else linkEnd s n

/-- The scratchpad offset of slot k of a link's ring (R248). -/
def Link.slotOff (l : Link) (k : Nat) : Nat := l.base + k % l.count * l.slotBytes

def Handle.count : Handle → Nat
  | .local_ _ r => r.count
  | .link _ l => l.count

/-- The core and scratchpad offset of slot c past a handle's pointer: the consumer pointer, or the producer pointer. -/
def Handle.slotAt (s : State) (h : Handle) (consumer : Bool) (c : Nat) : Nat × Nat :=
  match h with
  | .local_ _ r => (s.myCore, r.slotOff ((if consumer then r.cp else r.pp) + c))
  | .link _ l => (l.core, l.slotOff (l.pp + c))

/-- A slot's bytes can be accessed now: no earlier access of the hart to its bank is still under way (R124), and their
region is loaded (R474). -/
def slotFree (s : State) (p : Nat × Nat) : Bool :=
  !orderBusy s (.hart s.cur) (.spad p.1 p.2) 64 && regionReady s p.1 p.2

/-- QSLOT (R189, R251). -/
def qslot (s : State) (h : Handle) (c : Nat) : Act Unit := need (c < h.count) s (illegal causeQslot)
def qcount (s : State) (h : Handle) (n : Nat) : Act Unit := need (n ≤ h.count) s (illegal causeQslot)

/-- A peer producer waits while the owning core runs another context or swaps (R256). -/
def ownerBack (s : State) (l : Link) : Bool :=
  (s.core l.core).active == some s.myCtx && swapIdle s l.core

/-- Room for n more slots at a producer end. -/
def hasRoom (s : State) (h : Handle) (n : Nat) : Bool :=
  match h with
  | .local_ _ r => n ≤ r.free
  | .link _ l => n ≤ l.credit && ownerBack s l

/-- Read the 64 bytes of consumer slot c, or take what the access stream has read there for the execute stream (R178). -/
def queueRead (s : State) (n : Fin 16) (c : Fin 32) : Act V512 :=
  match s.me.feed.find? (fun e => e.1 == (n, c.val)) with
  | some e => .ok e.2
  | none => do
    let h ← consumerEnd s n
    qslot s h c.val
    match h with
    | .link _ _ => fail s (queueFault 1)
    | .local_ _ r => do
      waitFor (c.val < r.visible && !r.voidAt s.clock c.val && slotFree s (h.slotAt s true c.val)) s
      .ok (v512 (spadRead s s.myCore s.myCtx (r.slotOff (r.cp + c.val)) 64))

/-- A producer operand's checks and its wait for c + 1 free slots, before the instruction performs anything. -/
def queueReady (s : State) (n : Fin 16) (c : Fin 32) : Act Handle := do
  let h ← producerEnd s n
  qslot s h c.val
  waitFor (hasRoom s h (c.val + 1) && slotFree s (h.slotAt s false c.val)) s
  .ok h

/-- What a hart's handle in mode 3 sends comes from an OUT or HEAD handle (R425). -/
def stagedKey (s : State) (key : Nat) : Bool := qbMode s.me.qbind[Fin.ofNat 16 key] == 3

/-- Write 64 bytes to slot c past the producer pointer (R178, R250). -/
def slotWrite (s : State) (h : Handle) (c : Nat) (v : V512) : State :=
  match h with
  | .local_ _ r => spadWrite s s.myCore s.myCtx (r.slotOff (r.pp + c)) (bytesOf 64 v.toNat)
  | .link key l =>
    s.send { src := s.myCore, dst := l.core, ctx := s.myCtx, ring := l.ring, link := key, staged := stagedKey s key
             dead := l.dead, body := .slot ((l.pp + c) % l.count) v }

/-- The sequence number a DATA slot carries in bits 63:32 of its first doubleword (R427). -/
def slotSeq (v : V512) : W32 := BitVec.ofNat 32 (v.toNat / 2 ^ 32)

/-- What a link's slot holds once its messages have arrived: the newest one under way, else the owner's bytes. -/
def slotNow (s : State) (key : Nat) (l : Link) (idx : Nat) : V512 :=
  let newest := s.ringNet.reverse.findSome? (fun m =>
    match m.body with
    | .slot i v =>
      if m.src == s.myCore && m.ctx == s.myCtx && m.link == key && m.dst == l.core && i == idx then some v else none
    | _ => none)
  newest.getD (v512 (spadRead s l.core s.myCtx (l.slotOff idx) 64))

/-- Stores of the current hart to a core's scratchpad that are not acknowledged (R251). -/
def storesTo (s : State) (core : Nat) : Bool :=
  let here (p : Place) : Bool := match p with
    | .spad c _ => c == core
    | _ => false
  s.inFlight.any (fun r => r.mineOut s && here r.place) ||
    s.respNet.any (fun q => q.agent == .hart s.cur && q.ctx == s.myCtx && q.posted && q.kind == .write && here q.place)

/-- A publish waits for every earlier store of the hart to the owning core's scratchpad (R251). -/
def mayPublish (s : State) (h : Handle) : Bool :=
  match h with
  | .local_ _ _ => !storesTo s s.myCore
  | .link _ l => !storesTo s l.core

/-- A free waits for every earlier access of the hart to the freed slots (R251). -/
def mayFree (s : State) (h : Handle) (n : Nat) : Bool :=
  match h with
  | .local_ _ r => !s.inFlight.any (fun q => q.agent == .hart s.cur &&
      (List.range n).any (fun k => q.place.meets q.size (.spad s.myCore (r.slotOff (r.cp + k))) r.slotBytes))
  | .link _ _ => true

/-- Publish n slots (R251). -/
def publishSlots (s : State) (h : Handle) (n : Nat) : State :=
  match h with
  | .local_ k _ =>
    let core := s.myCore
    let r := s.ring core s.myCtx k
    let s1 := s.setRing core s.myCtx k { r with pp := (r.pp + n) % 2 ^ 32 }
    if r.filled = 0 && n > 0 then ringRose s1 core s.myCtx k else s1
  | .link key l =>
    let core := s.myCore
    let l' := { l with
      pp := (l.pp + n) % 2 ^ 32, credit := l.credit - n, flying := l.flying + n
      lastSeq := if n = 0 then l.lastSeq
        else slotSeq (slotNow s key l (((l.pp + n - 1) % 2 ^ 32) % l.count)) }
    (s.setLink core s.myCtx key l').send
      { src := core, dst := l.core, ctx := s.myCtx, ring := l.ring, link := key, staged := stagedKey s key
        dead := l.dead, body := .publish n }

/-- A ring's freed slots send credits to its peer producer (R250). -/
def returnCredit (s : State) (core ctx n k : Nat) : State :=
  match (s.ring core ctx n).peer with
  | none => s
  | some (pc, key) => s.send { src := core, dst := pc, ctx := ctx, ring := n, link := key, body := .credit k }

/-- Credits on their way from a ring of a context to a producer. -/
def isCredit (m : RingMsg) (ctx src ring dst key : Nat) : Bool :=
  m.ctx == ctx && m.src == src && m.ring == ring && m.dst == dst && m.link == key && (match m.body with
    | .credit _ => true
    | _ => false)
def creditsComing (s : State) (ctx src ring dst key : Nat) : Nat :=
  (s.ringNet.filter (fun m => isCredit m ctx src ring dst key)).foldl
    (fun a m => match m.body with
      | .credit k => a + k
      | _ => a) 0
def dropCredits (s : State) (ctx src ring dst key : Nat) : State :=
  { s with ringNet := s.ringNet.filter (fun m => !isCredit m ctx src ring dst key) }

-- Markers at a stage (R428, R432).

def State.pipe? (s : State) (ctx key : Nat) : Option Pipe :=
  ((s.unit (key / 2 ^ 16) ctx).pipes.find? (fun e => e.1 == key % 2 ^ 16)).map (·.2)

/-- The marker that stands at the head of a ring. -/
def frontMarker (r : Ring) : Option Marker :=
  match r.markers with
  | m :: _ => if m.pos = r.cp then some m else none
  | [] => none

/-- The marker waits for the act of its stage: it is a SPLICE addressed to it, and not taken yet. -/
def awaitsStage (s : State) (ctx : Nat) (r : Ring) (m : Marker) : Bool :=
  !m.abort && !m.taken &&
    (match s.pipe? ctx m.pipe with
     | some p =>
       match p.splice with
       | some x => x.opk != 0 && r.member == some (m.pipe, x.target)
       | none => false
     | none => false)

/-- A marker addressed to a stage reaches the head of its ring: line 4 of the hart bound to the ring (R432). -/
def markerBell (s : State) (core ctx n : Nat) : State :=
  let r := s.ring core ctx n
  match frontMarker r, r.outKey with
  | some m, some key =>
    if m.told || !awaitsStage s ctx r m then s
    else
      let s := s.setRing core ctx n { r with markers := { m with told := true } :: r.markers.drop 1 }
      raiseIn s (core * 4 + key / 16) ctx 4
  | _, _ => s

/-- Free n slots at the head of a local ring (R251). -/
def freeSlots (s : State) (k n : Nat) : State :=
  let core := s.myCore
  let r := s.ring core s.myCtx k
  let s1 := returnCredit (s.setRing core s.myCtx k { r with cp := (r.cp + n) % 2 ^ 32 }) core s.myCtx k n
  markerBell s1 core s.myCtx k

-- Arrivals (R250, R256, R425).

def ringArrives (s : State) (m : RingMsg) : Bool :=
  (s.core m.dst).active == some m.ctx && swapIdle s m.dst

def dropNth {α : Type} (l : List α) (n : Nat) : List α := l.eraseIdx n

def RingMsg.isCredit (m : RingMsg) : Bool :=
  match m.body with
  | .credit _ => true
  | _ => false

/-- What an OUT or HEAD handle sends to a ring whose STAGE flag is clear waits until the flag is set (R425), a tile for a
ring whose TOUR flag is clear likewise (R407), and what is sent to a ring whose launch has ended waits (R426). -/
def stageWaits (s : State) (m : RingMsg) : Bool :=
  let r := s.ring m.dst m.ctx m.ring
  match m.body with
  | .credit _ => false
  | .tile _ _ _ _ _ _ => !(r.decl && r.tour)
  | _ => m.dead || !r.decl || (m.staged && !r.stage)

/-- The n-th ring message arrives next: no earlier one between its two cores in its context is still to arrive, other than
what waits at another ring there (R75, R436, R437). DEDUCED, assumption 41. -/
def ringFirst (s : State) (n : Nat) (m : RingMsg) : Bool :=
  !(s.ringNet.take n).any (fun q => q.src == m.src && q.dst == m.dst && q.ctx == m.ctx && !q.dead &&
    (!stageWaits s q || (q.ring == m.ring && q.isCredit == m.isCredit)))

/-- A slot, publication or marker reaches the owner. -/
def ringArrive (s : State) (n : Nat) : State :=
  match s.ringNet[n]? with
  | none => s
  | some m =>
    if !ringFirst s n m || !ringArrives s m || stageWaits s m then s
    else
      let r := s.ring m.dst m.ctx m.ring
      let s1 : State := { s with ringNet := dropNth s.ringNet n }
      match m.body with
      | .slot idx v => spadWrite s1 m.dst m.ctx (r.slotOff idx) (bytesOf 64 v.toNat)
      | .publish k =>
        let s2 := s1.setRing m.dst m.ctx m.ring { r with pp := (r.pp + k) % 2 ^ 32 }
        let s3 := match s2.link m.src m.ctx m.link with
          | some l =>
            if l.core = m.dst ∧ l.ring = m.ring then s2.setLink m.src m.ctx m.link { l with flying := l.flying - k } else s2
          | none => s2
        if r.filled = 0 && k > 0 then ringRose s3 m.dst m.ctx m.ring else s3
      | .marker mk =>
        markerBell (s1.setRing m.dst m.ctx m.ring { r with markers := r.markers ++ [{ mk with pos := r.pp }] })
          m.dst m.ctx m.ring
      | _ => s

/-- A freed slot's credit reaches the producer (R250). -/
def creditArrive (s : State) (n : Nat) : State :=
  match s.ringNet[n]? with
  | none => s
  | some m =>
    match m.body with
    | .credit k =>
      if !ringFirst s n m then s
      else
        let s1 : State := { s with ringNet := dropNth s.ringNet n }
        match s1.link m.dst m.ctx m.link with
        | none => s1
        | some l =>
          if l.core != m.src || l.ring != m.ring then s1
          else
            let s2 := s1.setLink m.dst m.ctx m.link { l with credit := l.credit + k }
            if l.credit = 0 && k > 0 then creditRose s2 m.dst m.ctx m.link else s2
    | _ => s

end Sys2Proof.Machine
end

