-- ==== Sys2Proof/WellFormed.lean ====
section
/-! DEFINITION. Well-formed instructions: those whose fields the spec's decode checks accept. -/

namespace Sys2Proof

/-- The instruction passes the field checks of R197. Events of the host and of the hardware units have no
fields to check. -/
def Instr.wf (i : Instr) : Bool :=
  match i.parts with
  | some (_, φ, f) => φ.ok f
  | none => true

/-- The instruction also passes the two checks that a rep body adds (R179, R232). -/
def Instr.wfInBody (i : Instr) : Bool :=
  match i.parts with
  | some (op, φ, f) => φ.ok f && !barredInBody op && f.staggerFault == 0
  | none => true

end Sys2Proof
end

