-- ==== Sys2Proof/Decode.lean ====
section
/-! DEFINITION. The decoder of 96-bit instruction words (R183 to R201) and, after it, the encoder. A word
is a Nat below 2^96: bit 0 is bit 0 of W0, the word at the lowest address. -/

namespace Sys2Proof

/-- The causes of R197 that decoding finds, with the failing operand (1 D, 2 A, 3 B). -/
inductive IllegalWord where
  | opcode | repbody | guard | ty | var | operand (pos : Nat) | hint (pos : Nat) | immediate
  deriving DecidableEq, Repr

/-- An operand field (R187): bits 11:9 the kind, bits 8:0 the index. -/
def operandOf (w : Nat) : Option Operand :=
  let i := w % 512
  match w / 512 % 8 with
  | 0 => if i < 32 then some (.x (Fin.ofNat 32 i)) else none
  | 1 => if i < 32 then some (.v (Fin.ofNat 32 i)) else none
  | 2 => if i < 8 then some (.p (Fin.ofNat 8 i)) else none
  | 3 => some (.q (Fin.ofNat 16 (i / 32)) (Fin.ofNat 32 i))
  | 4 => if i < 2 then some (.tile (Fin.ofNat 2 i)) else none
  | 5 => (CReg.ofNum i).map .csr
  | 6 => some (.const (BitVec.ofNat 9 i))
  | _ => if i = 0 then some .none else none

/-- The guard field (R185). -/
def guardOf (w : Nat) : Guard := { neg := bitOf w 3, p := Fin.ofNat 8 w }

/-- The hint field (R186), bit 83 its top bit. -/
def hintOf (w : Nat) : Hint :=
  { yield := bitOf w 7, stagD := bitOf w 6, stagA := bitOf w 5, stagB := bitOf w 4
    lastA := bitOf w 3, lastB := bitOf w 2, stall := Fin.ofNat 4 w }

/-- The fields of R184 before the operands are read. -/
def rawFmt (w : Nat) (d a b : Operand) : Fmt :=
  { guard := guardOf (slice w 87 84), hint := hintOf (slice w 83 76), ty := Ty.ofCode (slice w 75 72)
    var := Fin.ofNat 16 (slice w 71 68), d := d, a := a, b := b, imm := BitVec.ofNat 32 w }

/-- The constructor of an opcode and variant (R201). Where an opcode has several constructors, an unlisted
variant answers the first, whose variant check then fails. -/
def ctorOf (op var : Nat) : Option (Fmt → Instr) :=
  match op with
  | 0x00 => some .nop
  | 0x01 => some .brk
  | 0x02 => some .j
  | 0x03 => some .jal
  | 0x04 => some .jr
  | 0x05 => some .call
  | 0x06 => some .ret
  | 0x07 => some .loop
  | 0x08 => some .rep
  | 0x10 => some .add
  | 0x11 => some .sub
  | 0x12 => some .mul
  | 0x13 => some .mulh
  | 0x14 => some .div
  | 0x15 => some .rem
  | 0x16 => some .and
  | 0x17 => some .or
  | 0x18 => some .xor
  | 0x19 => some .andn
  | 0x1A => some .shl
  | 0x1B => some .shr
  | 0x1C => some .sra
  | 0x1D => some .min
  | 0x1E => some .max
  | 0x1F => some .bits
  | 0x20 => some .cmp
  | 0x21 => some .sel
  | 0x22 => some .mov
  | 0x23 => some .movhi
  | 0x24 => some .ext
  | 0x25 => some .ins
  | 0x26 => some .plog
  | 0x27 => some .addr
  | 0x28 => some .csrr
  | 0x29 => some .csrw
  | 0x2A => some .csrs
  | 0x2B => some .csrc
  | 0x2C => some .cvt
  | 0x2D => some .fadd
  | 0x2E => some .fmul
  | 0x2F => some .fma
  | 0x30 => some .ld
  | 0x31 => some .st
  | 0x32 => some .ldp
  | 0x33 => some .stp
  | 0x34 => some (match var with | 1 => .prefRow | _ => .pref)
  | 0x35 => some .amo
  | 0x36 => some .cas
  | 0x37 => some .amored
  | 0x38 => some .waitw
  | 0x39 => some .phase
  | 0x3A => some .rel
  | 0x3B => some .acq
  | 0x3C => some (match var with | 1 => .fenceIo | _ => .fenceSc)
  | 0x3D => some (match var with | 1 => .cinvAll | _ => .cinvLine)
  | 0x40 => some .qpush
  | 0x41 => some .qpop
  | 0x42 => some .qadv
  | 0x43 => some .qprod
  | 0x44 => some (match var with | 1 => .qwaitRoom | _ => .qwaitFill)
  | 0x45 => some .qfree
  | 0x46 => some .qbind
  | 0x47 => some (match var with | 1 => .qstatHead | 2 => .qstatTail | _ => .qstat)
  | 0x48 => some (match var with | 1 => .tourBind | _ => .tour)
  | 0x49 => some (match var with | 1 => .trelEnd | _ => .trel)
  | 0x4A => some (match var with | 1 => .tstatHead | _ => .tstat)
  | 0x4B => some (match var with | 1 => .splprepStage | 2 => .splprepBind | 3 => .splprepDrop | _ => .splprepOpen)
  | 0x4C => some .splinj
  | 0x4D => some (match var with | 1 => .splstatTake | 2 => .splstatInh | _ => .splstat)
  | 0x4E => some .rngset
  | 0x4F => some (match var with | 1 => .rnggetLeft | _ => .rngget)
  | 0x50 => some .vadd
  | 0x51 => some .vsub
  | 0x52 => some .vmul
  | 0x53 => some .vfma
  | 0x54 => some .vfms
  | 0x55 => some .vmin
  | 0x56 => some .vmax
  | 0x57 => some .vand
  | 0x58 => some .vor
  | 0x59 => some .vxor
  | 0x5A => some .vshl
  | 0x5B => some .vshr
  | 0x5C => some .vsra
  | 0x5D => some .vcmp
  | 0x5E => some .vsel
  | 0x5F => some .vun
  | 0x60 => some .vmov
  | 0x61 => some .vext
  | 0x62 => some .vins
  | 0x63 => some .vperm
  | 0x64 => some .vslide
  | 0x65 => some .vred
  | 0x66 => some .vscan
  | 0x67 => some .vpopc
  | 0x68 => some .vcompr
  | 0x69 => some .vexpnd
  | 0x6A => some .vzip
  | 0x6B => some .vunzip
  | 0x6C => some .viota
  | 0x6D => some .vld
  | 0x6E => some .vst
  | 0x6F => some .vldx
  | 0x70 => some .vstx
  | 0x71 => some .vlds
  | 0x72 => some .vsts
  | 0x73 => some .vcvt
  | 0x74 => some .vcvtp
  | 0x75 => some .vrequ
  | 0x76 => some .vscacc
  | 0x77 => some .vbexp
  | 0x78 => some .vclip
  | 0x79 => some .vpod
  | 0x7A => some .vpodd
  | 0x7B => some .vdot
  | 0x7C => some .vlut
  | 0x7D => some .vplane
  | 0x7E => some .vunpl
  | 0x80 => some .mxq
  | 0x81 => some (match var with | 1 => .mxwmWait | _ => .mxwm)
  | 0x82 => some .mxrd
  | 0x83 => some .mxwr
  | 0x84 => some .mxcont
  | 0x85 => some (match var with | 1 => .mxstatSticky | _ => .mxstat)
  | 0x90 => some .cpq
  | 0x91 => some .cpchn
  | 0x92 => some .cpwm
  | 0x93 => some (match var with | 1 => .cpstatLog | _ => .cpstat)
  | 0x94 => some .exq
  | 0x95 => some .hstart
  | 0x96 => some (match var with | 1 => .hstatH | _ => .hstat)
  | 0x97 => some (match var with | 1 => .hloadTmpl | _ => .hloadCode)
  | 0x99 => some (match var with | 1 => .kvmapApp | 2 => .kvmapWr | _ => .kvmap)
  | 0x9A => some (match var with | 1 => .kvswapAccept | 2 => .kvswapReject | _ => .kvswapFork)
  | 0x9B => some .kvtrunc
  | 0x9C => some .kvwin
  | 0x9D => some .stframe
  | 0x9E => some (match var with | 1 => .stadvPlay | _ => .stadvGen)
  | 0xA0 => some .coll
  | 0xA1 => some (match var with | 1 => .cstatClr | _ => .cstat)
  | 0xB0 => some .tspawn
  | 0xB1 => some .tend
  | 0xB2 => some .tyield
  | 0xB3 => some .tdl
  | 0xB4 => some .tlaunch
  | 0xB5 => some .ecall
  | 0xB6 => some .eret
  | 0xB7 => some .wfi
  | 0xB8 => some .mtrd
  | 0xB9 => some (match var with | 1 => .tlbinvCtx | 2 => .tlbinvAll | _ => .tlbinvPage)
  | 0xBA => some (match var with | 1 => .keyldClear | _ => .keyld)
  | 0xBB => some .rdtime
  | 0xBC => some (match var with | 1 => .ctxswStat | _ => .ctxsw)
  | _ => none

/-- Checks 2 to 8 of R197 for an instruction of a known opcode, in their order. -/
def decodeAs (inBody : Bool) (w : Nat) (mk : Fmt → Instr) (φ : Form) : Except IllegalWord Instr :=
  let f0 := rawFmt w .none .none .none
  let v := f0.var.val
  if inBody && barredInBody (slice w 95 88) then .error .repbody
  else if !f0.guard.ok then .error .guard
  else if !φ.ty f0.ty then .error .ty
  else if !φ.var f0.ty v f0.imm.toNat then .error .var
  else
    match (operandOf (slice w 67 56)).filter (accepted (φ.d v) f0.ty) with
    | none => .error (.operand 1)
    | some d =>
      match (operandOf (slice w 55 44)).filter (accepted (φ.a v) f0.ty) with
      | none => .error (.operand 2)
      | some a =>
        match (operandOf (slice w 43 32)).filter (accepted (φ.b v) f0.ty) with
        | none => .error (.operand 3)
        | some b =>
          let f := rawFmt w d a b
          if inBody && f.staggerFault != 0 then .error (.hint f.staggerFault)
          else if !φ.imm f then .error .immediate
          else .ok (mk f)

/-- Decode a 96-bit word under the checks of R197, the first failing one named. `inBody` says that a rep
body is in progress (%repst.ACTIVE). -/
def decodeWord (inBody : Bool) (w : Nat) : Except IllegalWord Instr :=
  match ctorOf (slice w 95 88) (slice w 71 68) with
  | none => .error .opcode
  | some mk =>
    match (mk (rawFmt w .none .none .none)).parts with
    | none => .error .opcode
    | some (_, φ, _) => decodeAs inBody w mk φ

/-- Decode the 12 bytes of an instruction, lowest address first (R183). Bytes past the twelfth are not
looked at, and absent ones read as zero. -/
def decode (inBody : Bool) (bytes : List Byte) : Except IllegalWord Instr :=
  decodeWord inBody (leNat (bytes.take 12))

/-- The instruction the decoder reads from a word whose low `nbits` bits are `w` and whose other bits are
zero. -/
def decodeTableWord (nbits w : Nat) : Option Instr :=
  (decode false (leBytes 12 (w % 2 ^ nbits))).toOption

-- The encoder.

/-- The operand field of R187. -/
def Operand.bits : Operand → Nat
  | .x r => r.val
  | .v r => 1 * 512 + r.val
  | .p r => 2 * 512 + r.val
  | .q h c => 3 * 512 + h.val * 32 + c.val
  | .tile t => 4 * 512 + t.val
  | .csr r => 5 * 512 + r.num
  | .const c => 6 * 512 + c.toNat
  | .none => 7 * 512

def Guard.bits (g : Guard) : Nat := (if g.neg then 8 else 0) + g.p.val

def Hint.bits (h : Hint) : Nat :=
  (if h.yield then 128 else 0) + (if h.stagD then 64 else 0) + (if h.stagA then 32 else 0)
    + (if h.stagB then 16 else 0) + (if h.lastA then 8 else 0) + (if h.lastB then 4 else 0) + h.stall.val

/-- The 96-bit word of an opcode and its fields (R184). -/
def Fmt.word (op : Nat) (f : Fmt) : Nat :=
  ((((((((op * 16 + f.guard.bits) * 256 + f.hint.bits) * 16 + f.ty.code) * 16 + f.var.val) * 4096
    + f.d.bits) * 4096 + f.a.bits) * 4096 + f.b.bits) * 2 ^ 32) + f.imm.toNat

/-- The word of a program instruction; an event has none. -/
def encodeWord (i : Instr) : Option Nat := i.parts.map (fun p => Fmt.word p.1 p.2.2)

/-- The three 32-bit words of an instruction in address order: W0, W1, W2. -/
def encode (i : Instr) : List W32 :=
  match encodeWord i with
  | none => []
  | some w => [BitVec.ofNat 32 w, BitVec.ofNat 32 (w / 2 ^ 32), BitVec.ofNat 32 (w / 2 ^ 64)]

/-- The bytes of a list of 32-bit words, each little-endian, in address order. -/
def wordBytes : List W32 → List Byte
  | [] => []
  | w :: ws => leBytes 4 w.toNat ++ wordBytes ws

end Sys2Proof
end

