-- ==== Sys2Proof/Machine/Fetch.lean ====
section
/-! DEFINITION. Fetching an instruction of the current hart: the instruction cache, the checks of a fetch, the
patch overlay, decoding and the stagger of a rep body (R27, R28, R68, R179, R183, R196, R197, R199). -/

namespace Sys2Proof.Machine

/-- The instruction cache set of VA[55:6] (R68). -/
def isetOf (line : Nat) : Nat := line % 256

/-- Keep a filled line among the three ways of its set, the oldest leaving. DESIGN CHOICE, assumption 6. -/
def fillILine (s : State) (core : Nat) (l : ILine) : State :=
  let k := s.core core
  let set := pushBounded 3 (Tab.get [] k.icache (isetOf l.line)) l
  s.setCore core { k with icache := Tab.put k.icache (isetOf l.line) set }

/-- The 64 bytes of the line that holds `va`, the first byte fetched in it: from the cache, or filled from a page
with X set (R68, R199). -/
def fetchLine (s : State) (va : W64) : Act (State × V512) :=
  let core := s.myCore
  let ctx := s.myCtx
  let line := va.toNat % 2 ^ 56 / 64
  if !canonical va then fail s (accessFault causeNoncanonical va)
  else if va.getLsbD 55 then fail s (accessFault causeWindow va)
  else
    match (Tab.get [] (s.core core).icache (isetOf line)).find? (fun l => l.ctx == ctx && l.line == line) with
    | some l => .ok (s, l.data)
    | none => do
      match (← resolve s s.iAm .fetch va) with
      | .mem dpa e => do
        let (s, q) ← readTrip s (dpa / 64 * 64) 64 e va true
        let l : ILine := { ctx := ctx, line := line, data := q.data }
        .ok (fillILine s core l, l.data)
      | _ => fail s (accessFault causeWindow va)

/-- The 12 bytes at the program counter (R183, R199). -/
def fetchBytes (s : State) : Act (State × List Byte) :=
  let pc := s.me.pc
  let n := Nat.min 12 (64 - pc.toNat % 64)
  if pc.toNat % 4 != 0 then fail s (alignFault pc)
  else do
    let (s, l) ← fetchLine s pc
    if n = 12 then .ok (s, lineGet l (pc.toNat % 64) 12)
    else do
      let (s, m) ← fetchLine s (pc + BitVec.ofNat 64 n)
      .ok (s, lineGet l (pc.toNat % 64) n ++ lineGet m 0 (12 - n))

/-- IMM under the patch entries of one text offset (R196). -/
def patchImm (ps : List Patch) (params : List Byte) (off imm : Nat) : Nat :=
  ps.foldl (fun imm p =>
    if p.ioff = off then
      setSlice imm (p.shift + p.width - 1) p.shift (leNat ((params.drop p.poff).take (p.width / 8)))
    else imm) imm

/-- The patch overlay on the fetched bytes: only W0 of an instruction in the launch's kernel text (R196).
DEDUCED, assumption 53. -/
def overlay (s : State) (bytes : List Byte) : List Byte :=
  match s.me.slice with
  | none => bytes
  | some sl =>
    match s.launches.find? (fun e => e.1 == sl.launch) with
    | none => bytes
    | some (_, l) =>
      let off := (s.me.pc - l.text).toNat
      if off < l.textSize then
        leBytes 4 (patchImm l.patches l.params off (leNat (bytes.take 4))) ++ bytes.drop 4
      else bytes

/-- The cause and failing operand of a decode failure (R197, R462, R464). -/
def illegalTrap : IllegalWord → TrapInfo
  | .opcode => illegal 1
  | .repbody => illegal 11
  | .guard => illegal 2
  | .ty => illegal 3
  | .var => illegal 4
  | .operand p => { illegal 5 with opnd := p }
  | .hint p => { illegal 6 with opnd := p }
  | .immediate => illegal 7

/-- A register operand k × s further on, modulo 32 (R179). -/
def shiftReg (n : Nat) : Operand → Operand
  | .x r => .x (Fin.ofNat 32 (r.val + n))
  | .v r => .v (Fin.ofNat 32 (r.val + n))
  | o => o

/-- The operands that pass k of a rep with stride st names (R179). -/
def staggerFmt (f : Fmt) (k st : Nat) : Fmt :=
  { f with
    d := if f.hint.stagD then shiftReg (k * st) f.d else f.d
    a := if f.hint.stagA then shiftReg (k * st) f.a else f.a
    b := if f.hint.stagB then shiftReg (k * st) f.b else f.b }

/-- The instruction that the current pass of a rep performs (R179). -/
def staggered (i : Instr) (k st : Nat) : Instr :=
  match i.parts with
  | none => i
  | some (op, _, f) =>
    match ctorOf op f.var.val with
    | none => i
    | some mk => mk (staggerFmt f k st)

/-- A pass's instruction is one instruction for faults (R179): its own registers are those its description must
accept. -/
def passOk (i : Instr) : Except IllegalWord Instr :=
  match i.parts with
  | none => .ok i
  | some (_, φ, f) => if φ.operandFault f = 0 then .ok i else .error (.operand (φ.operandFault f))

/-- Decode the fetched bytes for the current hart, inside or outside a rep body. -/
def decodeFor (r : BitVec 36) (bytes : List Byte) : Except IllegalWord Instr :=
  if repActive r then (decode true bytes).bind (fun i => passOk (staggered i (repPass r) (repS r)))
  else decode false bytes

/-- The instruction at the program counter of the current hart, and the state after its fetch. -/
def fetchInstr (s : State) : Act (State × Instr) := do
  let (s, bytes) ← fetchBytes s
  match decodeFor s.me.repst (overlay s bytes) with
  | .ok i => .ok (s, i)
  | .error e => fail s (illegalTrap e)

end Sys2Proof.Machine
end

