-- ==== Sys2Proof/Machine/Graph.lean ====
section
/-! DEFINITION. Records, task queues, headland counters, slices and their loss (R385 to R401). -/

namespace Sys2Proof.Machine

-- Continuation records (R385).
def recCode (r : V512) : W64 := dwordOf r 0
def recFrame (r : V512) : W64 := dwordOf r 1
def recJoin (r : V512) : W64 := dwordOf r 2
def recDeadline (r : V512) : W64 := dwordOf r 3
def recBudget (r : V512) : W64 := dwordOf r 4
def recArg0 (r : V512) : W64 := dwordOf r 6
def recArg1 (r : V512) : W64 := dwordOf r 7
def recField (r : V512) (hi lo : Nat) : Nat := slice r.toNat (320 + hi) (320 + lo)
def recCtx (r : V512) : Nat := recField r 5 0
def recGraph (r : V512) : Nat := recField r 13 8
def recAffKind (r : V512) : Nat := recField r 17 16
def recAffId (r : V512) : Nat := recField r 29 20
def recComm (r : V512) : Bool := recField r 32 32 == 1
def recRedo (r : V512) : Bool := recField r 33 33 == 1
def recRestart (r : V512) : Bool := recField r 34 34 == 1
def recOrigin (r : V512) : Nat := recField r 45 35
def recSet (r : V512) (hi lo v : Nat) : V512 := BitVec.ofNat 512 (setSlice r.toNat hi lo v)
def recSetDword (r : V512) (i : Nat) (v : W64) : V512 := recSet r (64 * i + 63) (64 * i) v.toNat
def recSetOrigin (r : V512) (o : Nat) : V512 := recSet r 365 355 o
def recSetRestart (r : V512) : V512 := recSet r 354 354 1
def recSetGraph (r : V512) (g : Nat) : V512 := recSet r 333 328 g
def recSetCtx (r : V512) (c : Nat) : V512 := recSet r 325 320 c

/-- The origin that counts at the launch unit (R385). -/
def originLaunch : Nat := 0x7FF

/-- The record checks of R386 that need no graph. -/
def recBadForm (r : V512) : Bool :=
  recField r 63 46 != 0 || recField r 31 30 != 0 || recField r 19 18 != 0 || recField r 15 14 != 0 ||
    recField r 7 6 != 0 || recOrigin r != 0 || recRestart r || recAffKind r == 3 || recCode r == 0 ||
    (recCode r).toNat % 4 != 0 || (recJoin r).toNat % 128 != 0

/-- The affinity checks of R386 against a launch mask. -/
def recBadAffinity (s : State) (mask : List Nat) (r : V512) : Bool :=
  match recAffKind r with
  | 1 => !mask.contains (recAffId r) || !present s (recAffId r)
  | 2 => !mask.any (fun c => clusterOf c == recAffId r)
  | _ => false

def State.launch (s : State) (g : Nat) : Option Launch := (s.launches.find? (fun e => e.1 == g)).map (·.2)

/-- The launch of a graph that is active for a context (R373). -/
def State.launchFor (s : State) (g ctx : Nat) : Option Launch := (s.launch g).filter (fun l => l.ctx == ctx)

-- Task queues (R393, R394).

inductive QueueId where
  | normal (cluster : Nat) | comm (die : Nat)
  deriving DecidableEq, Repr

def State.queue (s : State) : QueueId → List QRec
  | .normal c => Tab.get [] s.normalQ c
  | .comm d => Tab.get [] s.commQ d
def State.setQueue (s : State) (q : QueueId) (l : List QRec) : State :=
  match q with
  | .normal c => { s with normalQ := Tab.put s.normalQ c l }
  | .comm d => { s with commQ := Tab.put s.commQ d l }

def lowest (l : List Nat) : Nat := l.foldl Nat.min (l.headD 0)

/-- The queue a record enters (R393): `at_` is the enqueuing core, or the lowest mask core for the launch unit,
and `spread` the cluster the launch unit's round robin gives (R391). -/
def queueFor (l : Launch) (r : V512) (at_ : Nat) (spread : Option Nat) : QueueId :=
  if recComm r then
    match recAffKind r with
    | 1 => .comm (dieOf (recAffId r))
    | 2 => .comm (recAffId r / 8)
    | _ => .comm (dieOf at_)
  else
    match recAffKind r with
    | 1 => .normal (clusterOf (recAffId r))
    | 2 => .normal (recAffId r)
    | _ =>
      match spread with
      | some c => .normal c
      | none => .normal (if l.mask.contains at_ then clusterOf at_ else lowest (l.mask.map clusterOf))

def queuedOf (s : State) (q : QueueId) (g : Nat) : Nat := ((s.queue q).filter (fun e => recGraph e.record == g)).length

/-- The clusters of a die that hold a mask core. -/
def maskClusters (l : Launch) (die : Nat) : List Nat :=
  ((l.mask.filter (fun c => dieOf c == die)).map clusterOf).eraseDups

/-- An enqueue would exceed a bound of R394. -/
def queueFull (s : State) (g : Nat) (l : Launch) (q : QueueId) : Bool :=
  let beyond (c : Nat) : Bool :=
    queuedOf s (.normal c) g + queuedOf s (.comm (c / 8)) g + 1 > l.tqres
  match q with
  | .normal c => beyond c
  | .comm d => (maskClusters l d).any beyond

def enqueueAt (s : State) (q : QueueId) (e : QRec) : State := s.setQueue q (s.queue q ++ [e])

-- Headland counters (R400).

def headKey (g core : Nat) : Nat := g * 1024 + core
def State.head (s : State) (g core : Nat) : Headland := Tab.get {} s.headland (headKey g core)

/-- The counters above a core: of its cluster, of its die, of the device. -/
def headParents (g core : Nat) : List Nat := [g * 128 + clusterOf core, g * 128 + 64 + dieOf core, g * 128 + 72]

/-- Set a counter of nonzero children. -/
def State.setAbove (s : State) (key n : Nat) : State :=
  { s with headAbove := if n = 0 then Tab.drop s.headAbove key else Tab.put s.headAbove key n }

/-- A counter that leaves zero, or returns to it, is reported to its parent, and so on up to the device (R400). -/
def State.report (s : State) (rises : Bool) : List Nat → State
  | [] => s
  | k :: ks =>
    let n := Tab.get 0 s.headAbove k
    let m := if rises then n + 1 else n - 1
    let s := s.setAbove k m
    if (n = 0) = (m = 0) then s else s.report rises ks

/-- Change a core's counter, and report upward where it leaves zero or returns to it; a return to zero is reported in
the same step. DEDUCED, assumption 42. -/
def State.setHead (s : State) (g core : Nat) (h : Headland) : State :=
  let was := s.head g core
  let s : State := { s with headland := if h = {} then Tab.drop s.headland (headKey g core)
                                        else Tab.put s.headland (headKey g core) h }
  if (was = {}) = (h = {}) then s else s.report (was = {}) (headParents g core)
def State.setLaunch (s : State) (g : Nat) (l : Launch) : State := { s with launches := Tab.put s.launches g l }

/-- Count a record at its origin. -/
def headlandAdd (s : State) (g core : Nat) : State :=
  let h := s.head g core
  s.setHead g core { h with records := h.records + 1 }

/-- The end of a record at a core: its notice is counted there and sent to the origin. -/
def endRecord (s : State) (core : Nat) (r : V512) : State :=
  let g := recGraph r
  let h := s.head g core
  let s := s.setHead g core { h with notices := h.notices + 1 }
  { s with notices := s.notices ++ [{ graph := g, origin := recOrigin r, ender := core }] }

/-- The origin's counter subtracts 1 and acknowledges. -/
def noticeArrives (s : State) (n : Nat) : State :=
  match s.notices[n]? with
  | none => s
  | some m =>
    if m.acked then s
    else
      let s1 : State := { s with notices := s.notices.set n { m with acked := true } }
      if m.origin = originLaunch then
        match s1.launch m.graph with
        | none => s1
        | some l => s1.setLaunch m.graph { l with own := l.own - 1 }
      else
        let h := s1.head m.graph m.origin
        s1.setHead m.graph m.origin { h with records := h.records - 1 }

/-- The ending core takes the acknowledgement. -/
def noticeAcked (s : State) (n : Nat) : State :=
  match s.notices[n]? with
  | none => s
  | some m =>
    if !m.acked then s
    else
      let h := s.head m.graph m.ender
      let s1 := s.setHead m.graph m.ender { h with notices := h.notices - 1 }
      { s1 with notices := s1.notices.eraseIdx n }

/-- The device counter of a graph is zero: its own count, and its nonzero children (R400). -/
def headlandZero (s : State) (g : Nat) (l : Launch) : Bool := l.own == 0 && Tab.get 0 s.headAbove (g * 128 + 72) == 0

-- Events and missed deadlines.

def State.log (s : State) (e : LogEntry) : State := { s with events := s.events ++ [e] }
def State.slot (s : State) (k : Nat) : CtxSlot := Tab.get {} s.slots k
def State.setSlot (s : State) (k : Nat) (c : CtxSlot) : State := { s with slots := Tab.put s.slots k c }

/-- A deadline that has passed counts as missed and is logged (R396). -/
def noteLate (s : State) (ctx : Nat) (deadline : W64) (r : V512) : State :=
  if deadline != 0 && deadline.toNat < s.time then
    let c := s.slot ctx
    (s.setSlot ctx { c with missed := c.missed + 1 }).log
      (.late (recGraph r) (recCode r) (s.time - deadline.toNat))
  else s

/-- A record that fails R386 where software cannot be told is dropped and logged (R386, R388). A continuation that
is dropped was not yet counted, and counts as though it had been counted and had ended. -/
def dropRecord (s : State) (r : V512) : State := s.log (.dropped (recGraph r))

-- Slices (R387, R396 to R399).

/-- Every x and v register marked dead; bit 0 reads zero (R181). -/
def allDead : W64 := 0xFFFFFFFFFFFFFFFE

/-- A hart leaves its slice (R374): its registers are dead for the next record; a slice that ends after its deadline
is missed (R396). -/
def leaveSlice (s : State) (hid ctx : Nat) : State :=
  let h := s.bank hid ctx
  let s1 := match h.slice with
    | some sl => noteLate s ctx h.deadline sl.record
    | none => s
  s1.setBank hid ctx
    { h.join with running := false, waiting := false, inWfi := false, sleep := none, slice := none,
                  waited := [], groupsDone := [], spillSet := [], dead := allDead }

/-- A slice is lost (R399). -/
def loseSlice (s : State) (hid ctx : Nat) : State :=
  let h := s.bank hid ctx
  match h.slice with
  | none => s
  | some sl =>
    let s1 := (s.forsakeAll (.hart hid) ctx).setBank hid ctx
      { h.join with running := false, waiting := false, inWfi := false, sleep := none, slice := none,
                    waited := [], groupsDone := [], spillSet := [], refusals := [] }
    if recRedo sl.record then
      match s1.launch (recGraph sl.record) with
      | none => s1
      | some l =>
        let (id, s2) : Nat × State :=
          match sl.loss with
          | some i => (i, { s1 with lost := s1.lost.map (fun x => if x.id = i then { x with mark := s1.nextDup } else x) })
          | none => (s1.nextLoss, { s1 with nextLoss := s1.nextLoss + 1,
                                            lost := s1.lost ++ [{ id := s1.nextLoss, ctx := ctx, mark := s1.nextDup }] })
        let r := recSetRestart sl.record
        enqueueAt s2 (queueFor l r (coreOf hid) none) { record := r, loss := some id }
    else endRecord (s1.log (.lost (recGraph sl.record))) (coreOf hid) sl.record

/-- A rerun's tend has completed: its loss no longer holds windows (R399). -/
def closeLoss (s : State) (loss : Option Nat) : State :=
  match loss with
  | none => s
  | some i => { s with lost := s.lost.filter (fun x => x.id != i) }

/-- A hart's Phase and spilled lines are discarded (R121). -/
def discardLines (s : State) (hid ctx : Nat) : State :=
  let core := coreOf hid
  let k := s.core core
  let s := s.setCore core { k with
    dcache := k.dcache.map (fun e => (e.1, e.2.filter (fun c =>
      !(c.ctx == ctx && c.owner == some (Fin.ofNat 4 (slotOf hid)))))) }
  let u := s.unit core ctx
  let s := if u.saved.isEmpty then s
    else s.setUnit core ctx { u with saved := u.saved.filter (fun c => c.owner != some (Fin.ofNat 4 (slotOf hid))) }
  s.setBank hid ctx { s.bank hid ctx with spill := [], owed := [], spillSet := [] }

/-- KILL of a hart (R472): its lines are discarded, its slice is lost, and it asks for work. -/
def killHart (s : State) (hid ctx : Nat) : State :=
  let s := loseSlice (discardLines s hid ctx) hid ctx
  let h := s.bank hid ctx
  s.setBank hid ctx { h.join with frozen := false, waiting := false, inWfi := false, sleep := none
                                  killNext := false, running := h.running && isSup hid }

/-- A slice starts on a hart (R387), in U mode (R162). -/
def startSlice (s : State) (hid ctx : Nat) (e : QRec) (l : Launch) : State :=
  let r := e.record
  let s := noteLate s ctx (recDeadline r) r
  let h := s.bank hid ctx
  let budget := if recBudget r = 0 then l.budget else recBudget r
  let args := Hart.wx (Hart.wx (Hart.wx { h with dead := allDead } 1 (recFrame r)) 2 (recArg0 r)) 3 (recArg1 r)
  let sl : Slice := { record := r, launch := recGraph r, d0 := recDeadline r, counting := budget != 0, loss := e.loss }
  let h := Hart.setPc { args with
    status := mkStatus false h.ie h.pie h.pmode
    budget := budget, deadline := recDeadline r, cmask := 0, p := Vector.replicate 8 0, repst := 0
    branchQ := [], copyAE := [], copyEA := [], lag := []
    running := true, waiting := false, slice := some sl } (recCode r)
  acquireFor (s.setBank hid ctx h) hid ctx

-- Dispatch (R396, R398, R401).

/-- A core granted to a context holds it in a bank (R391). -/
def granted (s : State) (core ctx : Nat) : Bool :=
  (s.core core).active == some ctx || (s.core core).shadow == some ctx

/-- The present cores of a die granted to a context, ascending. -/
def grantedOn (s : State) (die ctx : Nat) : List Nat :=
  ((List.range 128).map (fun l => die * 128 + l)).filter (fun c => present s c && granted s c ctx)

/-- The reserve cores of a context on a die: the k highest-numbered (R401). -/
def reserveCores (s : State) (die ctx : Nat) : List Nat :=
  let cs := grantedOn s die ctx
  if cs.length < 2 then []
  else
    let k := Nat.min (Nat.max 1 (Tab.get 1 s.reserve (die * 64 + ctx))) (Nat.min 16 (cs.length - 1))
    cs.drop (cs.length - k)

def deadlineKey (r : V512) : Nat := if recDeadline r = 0 then 2 ^ 64 - 1 else (recDeadline r).toNat

/-- A record goes before another: reruns first, then the earlier deadline (R396, R399). -/
def goesBefore (a b : V512) : Bool :=
  if recRestart a != recRestart b then recRestart a else deadlineKey a < deadlineKey b

/-- The first of the records that go before all others. -/
def bestOf (l : List (Nat × QRec)) : Option (Nat × QRec) :=
  l.foldl (fun best e =>
    match best with
    | none => some e
    | some b => if goesBefore e.2.record b.2.record then some e else some b) none

def indexed {α : Type} (l : List α) : List (Nat × α) := (List.range l.length).zip l

/-- A queue's next record for which a test holds, and its place. -/
def choose (s : State) (q : QueueId) (test : V512 → Bool) : Option (Nat × QRec) :=
  bestOf ((indexed (s.queue q)).filter (fun e => test e.2.record))

/-- A record that a hart of a core in a context may run (R387, R396). -/
def eligible (s : State) (core ctx : Nat) (r : V512) : Bool :=
  recCtx r == ctx && (recAffKind r != 1 || recAffId r == core) &&
    (match s.launchFor (recGraph r) ctx with
     | some l => l.mask.contains core
     | none => false)

/-- A record that a thief's cluster may take (R398). -/
def stealable (s : State) (cluster : Nat) (r : V512) : Bool :=
  recAffKind r == 0 &&
    (match s.launch (recGraph r) with
     | some l => l.mask.any (fun c => clusterOf c == cluster)
     | none => false)

/-- The neighbour clusters of a die in the order west, east, north, south (R398). -/
def neighbours (cluster : Nat) : List Nat :=
  let col := cluster % 4
  let row := cluster % 8 / 4
  (if col > 0 then [cluster - 1] else []) ++ (if col < 3 then [cluster + 1] else []) ++
    (if row = 1 then [cluster - 4] else []) ++ (if row = 0 then [cluster + 4] else [])

/-- Move the next stealable record of the first neighbour that holds one into the thief's queue (R398). -/
def steal (s : State) (cluster : Nat) : List Nat → State
  | [] => s
  | c :: cs =>
    match choose s (.normal c) (stealable s cluster) with
    | some (i, e) =>
      enqueueAt (s.setQueue (.normal c) ((s.queue (.normal c)).eraseIdx i)) (.normal cluster) e
    | none => steal s cluster cs

def takeFrom (s : State) (q : QueueId) (test : V512 → Bool) : Option (State × QRec) :=
  (choose s q test).map (fun e => (s.setQueue q ((s.queue q).eraseIdx e.1), e.2))

/-- A core that left the reserve still runs COMM slices (R401). -/
def commRuns (s : State) (core ctx : Nat) : Bool :=
  [0, 1, 2, 3].any (fun i => (s.bank (core * 4 + i) ctx).slice.any (fun x => recComm x.record))

/-- What an asking hart of a core is given (R396, R398, R401). -/
def ask (s : State) (core ctx : Nat) : State × Option QRec :=
  let die := dieOf core
  let cl := clusterOf core
  let fit := eligible s core ctx
  let reserve := (reserveCores s die ctx).contains core
  let only := grantedOn s die ctx == [core]
  let commFirst := if reserve || only then takeFrom s (.comm die) fit else none
  match commFirst with
  | some (s1, e) => (s1, some e)
  | none =>
    if reserve then
      match takeFrom s (.normal cl) (fun r => fit r && recAffKind r == 1) with
      | some (s1, e) => (s1, some e)
      | none => (s, none)
    else if !only && commRuns s core ctx then (s, none)
    else
      match takeFrom s (.normal cl) fit with
      | some (s1, e) => (s1, some e)
      | none =>
        let s1 := steal s cl (neighbours cl)
        match takeFrom s1 (.normal cl) fit with
        | some (s2, e) => (s2, some e)
        | none => (s1, none)

/-- A hart may ask for work (R396). -/
def mayAsk (s : State) (hid : Nat) : Bool :=
  let core := coreOf hid
  !isSup hid && present s core && (s.core core).swapTo.isNone && (s.core core).active.isSome &&
    !(s.hart hid).running && !(s.hart hid).frozen

/-- TASK_DISPATCH (R396): an idle hart asks and starts the slice it is given. -/
def dispatch (s : State) (hid : Nat) : State :=
  if mayAsk s hid then
    let core := coreOf hid
    let ctx := s.ctxOf core
    match ask s core ctx with
    | (s1, some e) =>
      match s1.launchFor (recGraph e.record) ctx with
      | some l => startSlice s1 hid ctx e l
      | none => s1
    | (s1, none) => s1
  else s

end Sys2Proof.Machine
end

