-- ==== Sys2Proof/Machine/Operands.lean ====
section
/-! DEFINITION. Operand forms: how a source is read and a destination written (R178, R187 to R189, R194,
R226). -/

namespace Sys2Proof.Machine

/-- The 64 bits of a scalar source operand. A queue operand gives the first 8 bytes of its slot, a constant its
sign-extended value, and `none` the sign-extended immediate (R194, R226). DEDUCED, assumption 11. -/
def src64 (s : State) (o : Operand) (imm : W32) : Act W64 :=
  match o with
  | .x r => .ok (s.me.rx r)
  | .p r => .ok (s.me.rp r)
  | .const c => .ok (c.signExtend 64)
  | .q h c => do
    let v ← queueRead s h c
    .ok (dwordOf v 0)
  | .none => .ok (imm.signExtend 64)
  | _ => .ok 0

/-- The 64 bytes a v register or a consumer operand gives. -/
def src512 (s : State) (o : Operand) : Act V512 :=
  match o with
  | .v r => .ok (s.me.rv r)
  | .q h c => queueRead s h c
  | _ => .ok 0

/-- The low w bits of a source (R226). -/
def lowBits (t : Ty) (v : W64) : Nat := v.toNat % 2 ^ t.width

/-- A w-bit result in a 64-bit register: sign-extended for a signed class, zero-extended otherwise (R226). -/
def extend (t : Ty) (res : Nat) : W64 :=
  if t.isSigned then BitVec.ofInt 64 (toSigned t.width res) else BitVec.ofNat 64 (res % 2 ^ t.width)

/-- The data of a load whose instruction has gone on: in its register, or in the copy queue's entry for it and for the
execute instructions that read its register (R170, R173). -/
def Hart.loaded (h : Hart) (id data : Nat) : Hart :=
  match h.pend.find? (fun p => p.id == id) with
  | none => h
  | some p =>
    let v := extend p.ty (data % 2 ^ p.ty.width)
    { h with
      pend := h.pend.filter (fun q => q.id != id)
      x := if 16 ≤ p.reg.val then h.x else h.x.set p.reg v
      copyAE := h.copyAE.map (fun e => if e == .awaits id then .ready (v.setWidth 512) else e) }

/-- A producer destination must have room before the instruction performs anything (R178). DEDUCED, assumption 11. -/
def dstReady (s : State) (o : Operand) : Act Unit :=
  match o with
  | .q h c => do
    let _ ← queueReady s h c
    .ok ()
  | _ => .ok ()

/-- Write 64 bits to a scalar destination: an x or p register, or the first 8 bytes of a producer slot with 56
zero bytes (R189, R226); `none` discards. -/
def dst64 (s : State) (o : Operand) (v : W64) : Act State :=
  match o with
  | .x r => .ok (s.modMe (fun h => h.wx r v))
  | .p r => .ok (s.modMe (fun h => h.wp r v))
  | .q h c => do
    let e ← queueReady s h c
    .ok (slotWrite s e c.val (v.zeroExtend 512))
  | _ => .ok s

/-- Write 64 bytes to a v register or a whole producer slot. -/
def dst512 (s : State) (o : Operand) (v : V512) : Act State :=
  match o with
  | .v r => .ok (s.modMe (fun h => h.wv r v))
  | .q h c => do
    let e ← queueReady s h c
    .ok (slotWrite s e c.val v)
  | _ => .ok s

/-- The last uses, a 64-bit result, and the next instruction. -/
def put64 (f : Fmt) (s : State) (v : W64) : Act State := do
  dstReady s f.d
  let s ← dst64 (s.modMe (fun h => h.lastUse f)) f.d v
  .ok (s.modMe Hart.advance)

/-- The last uses, a 64-byte result, and the next instruction. -/
def put512 (f : Fmt) (s : State) (v : V512) : Act State := do
  dstReady s f.d
  let s ← dst512 (s.modMe (fun h => h.lastUse f)) f.d v
  .ok (s.modMe Hart.advance)

/-- The last uses and the next instruction, where there is no result. -/
def putNone (f : Fmt) (s : State) : Act State := .ok (done f s id)

/-- A two-operand scalar instruction: both sources read, a w-bit result written (R226). -/
def binary (f : Fmt) (s : State) (op : Nat → Nat → Nat) : Act State := do
  let a ← src64 s f.a f.imm
  let b ← src64 s f.b f.imm
  put64 f s (extend f.ty (op (lowBits f.ty a) (lowBits f.ty b)))

/-- A one-operand scalar instruction. -/
def unary (f : Fmt) (s : State) (op : Nat → Nat) : Act State := do
  let a ← src64 s f.a f.imm
  put64 f s (extend f.ty (op (lowBits f.ty a)))

/-- An x register operand's value, the address or word of instructions that take one. -/
def xval (s : State) (o : Operand) : W64 :=
  match o with
  | .x r => s.me.rx r
  | _ => 0

end Sys2Proof.Machine
end

