-- ==== Sys2Proof/Machine/Flags.lean ====
section
/-! DEFINITION. Comparisons, saturation, and the predicate results that Izrov has in place of flags (R192,
R233, R234). No Izrov instruction sets a status flag (R243). -/

namespace Sys2Proof.Machine

/-- The value of the low w bits by the type's class (R190, R226). -/
def valueOf (t : Ty) (x : Nat) : Int := if t.isSigned then toSigned t.width x else (x % 2 ^ t.width : Nat)

/-- The range of an integer type. -/
def tyMin (t : Ty) : Int := if t.isSigned then -(2 ^ (t.width - 1) : Nat) else 0
def tyMax (t : Ty) : Int := if t.isSigned then (2 ^ (t.width - 1) : Nat) - 1 else (2 ^ t.width : Nat) - 1

def clampInt (lo hi x : Int) : Int := if x < lo then lo else if hi < x then hi else x

/-- The exact result narrowed to w bits: wrapped, or clamped with sat (R200, R233). -/
def narrow (t : Ty) (sat : Bool) (x : Int) : Nat :=
  wrapInt t.width (if sat then clampInt (tyMin t) (tyMax t) x else x)

/-- The comparisons of R192: 0 eq, 1 ne, 2 lt, 3 le, 4 gt, 5 ge. -/
def compareInt (var : Nat) (a b : Int) : Bool :=
  match var with
  | 0 => a == b
  | 1 => a != b
  | 2 => decide (a < b)
  | 3 => decide (a ≤ b)
  | 4 => decide (b < a)
  | _ => decide (b ≤ a)

/-- A comparison's result for a destination: all ones or zero for p, 1 or 0 otherwise (R234). -/
def boolResult (d : Operand) (r : Bool) : W64 :=
  match d with
  | .p _ => if r then BitVec.allOnes 64 else 0
  | _ => if r then 1 else 0

/-- A predicate bit chosen by IMM[2:0] with sense IMM[3] (R235, R284). -/
def selectBit (h : Hart) (imm : W32) (i : Nat) : Bool :=
  (h.rp (Fin.ofNat 8 imm.toNat)).getLsbD i != imm.getLsbD 3

end Sys2Proof.Machine
end

