-- ==== Sys2Proof/Machine/Numbers.lean ====
section
/-! DEFINITION. Number formats and rounding (R259 to R272): exact dyadic values, rounded once. -/

namespace Sys2Proof.Machine

/-- A float format (R261, R262): mantissa bits, bias, the code of the largest finite magnitude, and the codes of
NaN and infinity where the format has them. -/
structure FloatForm where
  width : Nat
  man : Nat
  bias : Nat
  maxCode : Nat
  nan : Option Nat
  hasInf : Bool
  deriving DecidableEq, Repr

/-- The formats of R261 and R262. Types that are no floats answer FP32's. -/
def floatForm (t : Ty) : FloatForm :=
  match t with
  | .bf16 => ⟨16, 7, 127, 0x7F7F, some 0x7FC0, true⟩
  | .fp16 => ⟨16, 10, 15, 0x7BFF, some 0x7E00, true⟩
  | .e4m3 => ⟨8, 3, 7, 0x7E, some 0x7F, false⟩
  | .e5m2 => ⟨8, 2, 15, 0x7B, some 0x7E, true⟩
  | .e2m1 => ⟨4, 1, 1, 0x7, none, false⟩
  | _ => ⟨32, 23, 127, 0x7F7FFFFF, some 0x7FC00000, true⟩

/-- A value: NaN, an infinity, or (−1)^neg × m × 2^e exactly; a zero keeps its sign. -/
inductive Val where
  | nan
  | inf (neg : Bool)
  | fin (neg : Bool) (m : Nat) (e : Int)
  deriving DecidableEq, Repr

/-- The value of an integer. -/
def Val.ofInt (i : Int) : Val := .fin (decide (i < 0)) i.natAbs 0

/-- The value of a float code (R261, R262). -/
def floatVal (φ : FloatForm) (bits : Nat) : Val :=
  let neg := bitOf bits (φ.width - 1)
  let mag := bits % 2 ^ (φ.width - 1)
  let ex := mag / 2 ^ φ.man
  let m := mag % 2 ^ φ.man
  if mag > φ.maxCode then (if φ.hasInf && mag = φ.maxCode + 1 then .inf neg else .nan)
  else if ex = 0 then .fin neg m (1 - φ.bias - φ.man)
  else .fin neg (2 ^ φ.man + m) ((ex : Int) - φ.bias - φ.man)

/-- The value of a POD8 code (R264). -/
def podInt (c : Nat) : Int :=
  let term (s e : Nat) : Int := if s = 1 then -(2 ^ e : Nat) else (2 ^ e : Nat)
  term (slice c 7 7) (slice c 6 4) + term (slice c 3 3) (slice c 2 0)

/-- The value of an element (R259 to R264). -/
def elemVal (t : Ty) (bits : Nat) : Val :=
  match t.cls with
  | .signed => .ofInt (toSigned t.width bits)
  | .unsigned => .ofInt (bits % 2 ^ t.width : Nat)
  | .float => floatVal (floatForm t) (bits % 2 ^ t.width)
  | .pod => .ofInt (podInt (bits % 256))
  | .bit => .ofInt (bits % 2 : Nat)

-- Rounding (R270).

inductive Mode where
  | rne | rtz | rup | rdn | rna
  deriving DecidableEq, Repr

/-- The mode of VAR[2:0] (R192). -/
def modeOf (var : Nat) : Mode :=
  match var % 8 with
  | 0 => .rne
  | 1 => .rtz
  | 2 => .rup
  | 3 => .rdn
  | _ => .rna

/-- The saturation bit VAR[3]. -/
def satOf (var : Nat) : Bool := var / 8 % 2 == 1

/-- m / 2^sh as an integer magnitude of the sign `neg`, rounded under a mode. -/
def roundShift (md : Mode) (neg : Bool) (m sh : Nat) : Nat :=
  let q := m / 2 ^ sh
  let r := m % 2 ^ sh
  if r = 0 then q
  else
    let up : Bool :=
      match md with
      | .rne => decide (2 ^ sh < 2 * r) || (decide (2 * r = 2 ^ sh) && q % 2 == 1)
      | .rtz => false
      | .rup => !neg
      | .rdn => neg
      | .rna => decide (2 ^ sh ≤ 2 * r)
    if up then q + 1 else q

/-- The magnitude m × 2^e at the spacing 2^qe. -/
def atSpacing (md : Mode) (neg : Bool) (m : Nat) (e qe : Int) : Nat :=
  if qe ≤ e then m * 2 ^ (e - qe).toNat else roundShift md neg m (qe - e).toNat

/-- An exact value rounded to an integer (R270). -/
def roundInt (md : Mode) (neg : Bool) (m : Nat) (e : Int) : Int :=
  let q := atSpacing md neg m e 0
  if neg then -(q : Int) else q

/-- The code of a magnitude before the overflow rule: rounded as if the exponent were unbounded, subnormals at
their spacing (R270). -/
def magCode (φ : FloatForm) (md : Mode) (neg : Bool) (m : Nat) (e : Int) : Nat :=
  if m = 0 then 0
  else
    let emin : Int := 1 - φ.bias - φ.man
    let qe := max ((Nat.log2 m : Int) + e - φ.man) emin
    let q := atSpacing md neg m e qe
    -- q has at most man + 1 bits, or is the next power of two
    if q < 2 ^ φ.man then q
    else q - 2 ^ φ.man + ((qe - emin).toNat + 1) * 2 ^ φ.man

/-- A magnitude code with its sign. -/
def signed (φ : FloatForm) (neg : Bool) (c : Nat) : Nat := if neg then 2 ^ (φ.width - 1) + c else c

/-- Overflow gives infinity (R271). -/
def overflowsToInf (φ : FloatForm) (md : Mode) (sat neg : Bool) : Bool :=
  φ.hasInf && !sat &&
    (match md with
     | .rne | .rna => true
     | .rtz => false
     | .rup => !neg
     | .rdn => neg)

/-- The canonical NaN, or +0 where the format has none (R262, R263). -/
def nanCode (φ : FloatForm) : Nat := φ.nan.getD 0

/-- Deliver a value into a float format, rounded once (R263, R270, R271). -/
def roundFloat (φ : FloatForm) (md : Mode) (sat : Bool) (v : Val) : Nat :=
  match v with
  | .nan => nanCode φ
  | .inf neg => signed φ neg (if φ.hasInf && !sat then φ.maxCode + 1 else φ.maxCode)
  | .fin neg m e =>
    let c := magCode φ md neg m e
    if c ≤ φ.maxCode then signed φ neg c
    else signed φ neg (if overflowsToInf φ md sat neg then φ.maxCode + 1 else φ.maxCode)

-- POD8 (R265, R266).

/-- The canonical code of a member of V. -/
def podCode? (v : Int) : Option Nat :=
  (List.range 256).find? (fun c => decide (slice c 2 0 ≤ slice c 6 4) && podInt c == v)

/-- The nearest members at or below, and at or above, an integer in the range. -/
def podBelow (n : Int) : Nat → Int
  | 0 => -256
  | k + 1 => if (podCode? n).isSome then n else podBelow (n - 1) k
def podAbove (n : Int) : Nat → Int
  | 0 => 256
  | k + 1 => if (podCode? n).isSome then n else podAbove (n + 1) k

/-- The exact value, times 2^k, as an integer, for comparing. -/
def scaled (neg : Bool) (m : Nat) (e : Int) (k : Nat) : Int :=
  let q : Int := if 0 ≤ e + k then (m * 2 ^ (e + k).toNat : Nat) else 0
  if neg then -q else q

/-- The member of V that an exact value takes under a mode (R266). -/
def podRound (md : Mode) (neg : Bool) (m : Nat) (e : Int) : Int :=
  let k := (max 0 (-e)).toNat
  let x := clampInt (-(256 * 2 ^ k : Nat)) (256 * 2 ^ k : Nat) (scaled neg m e k)
  let fl := x / ((2 ^ k : Nat) : Int)
  let lo := podBelow fl 600
  let hi := podAbove (if fl * (2 ^ k : Nat) = x then fl else fl + 1) 600
  let dl := x - lo * (2 ^ k : Nat)
  let dh := hi * (2 ^ k : Nat) - x
  match md with
  | .rup => hi
  | .rdn => lo
  | .rtz => if x < 0 then hi else lo
  | .rne => if dl < dh then lo else if dh < dl then hi else if lo.natAbs ≤ hi.natAbs then lo else hi
  | .rna => if dl < dh then lo else if dh < dl then hi else if lo.natAbs ≤ hi.natAbs then hi else lo

/-- Deliver a value into POD8 (R263, R266). -/
def roundPod (md : Mode) (v : Val) : Nat :=
  match v with
  | .nan => 0x08
  | .inf neg => if neg then 0xFF else 0x77
  | .fin neg m e => (podCode? (podRound md neg m e)).getD 0x08

-- Integers (R242, R263).

/-- Deliver a value into an integer type: rounded, and clamped. -/
def roundToInt (t : Ty) (md : Mode) (v : Val) : Nat :=
  match v with
  | .nan => 0
  | .inf neg => wrapInt t.width (if neg then tyMin t else tyMax t)
  | .fin neg m e => wrapInt t.width (clampInt (tyMin t) (tyMax t) (roundInt md neg m e))

/-- Deliver a value into a type. -/
def deliver (t : Ty) (md : Mode) (sat : Bool) (v : Val) : Nat :=
  match t.cls with
  | .float => roundFloat (floatForm t) md sat v
  | .pod => roundPod md v
  | _ => roundToInt t md v

/-- Convert an element (R242): integers among themselves wrap or clamp; a value of the same float type is
unchanged but for NaN. DEDUCED, assumption 15. -/
def convert (src dst : Ty) (md : Mode) (sat : Bool) (bits : Nat) : Nat :=
  if src.isInt && dst.isInt then narrow dst sat (valueOf src bits)
  else if src == dst && src.isFloat then
    (if elemVal src bits = .nan then nanCode (floatForm src) else bits % 2 ^ src.width)
  else deliver dst md sat (elemVal src bits)

/-- A signed constant at a type (R188). -/
def constAt (t : Ty) (i : Int) : Nat :=
  if t.isFloat then roundFloat (floatForm t) .rne true (.ofInt i) else wrapInt t.width i

-- Exact arithmetic (R243, R272).

/-- Bring two exact values to a common exponent. -/
def alignTo (m : Nat) (e low : Int) : Int := (m * 2 ^ (e - low).toNat : Nat)

def withSign (neg : Bool) (m : Int) : Int := if neg then -m else m

/-- The sum of two values, the sign of an exact zero by the mode (R272). -/
def addVal (md : Mode) (a b : Val) : Val :=
  match a, b with
  | .nan, _ => .nan
  | _, .nan => .nan
  | .inf na, .inf nb => if na = nb then .inf na else .nan
  | .inf n, .fin _ _ _ => .inf n
  | .fin _ _ _, .inf n => .inf n
  | .fin na ma ea, .fin nb mb eb =>
    if ma = 0 ∧ mb = 0 ∧ na = nb then .fin na 0 0
    else if ma = 0 ∧ mb ≠ 0 then .fin nb mb eb
    else if mb = 0 ∧ ma ≠ 0 then .fin na ma ea
    else
      let low := min ea eb
      let x := withSign na (alignTo ma ea low) + withSign nb (alignTo mb eb low)
      if x = 0 then .fin (md == .rdn) 0 0 else .fin (decide (x < 0)) x.natAbs low

/-- The product of two values. -/
def mulVal (a b : Val) : Val :=
  match a, b with
  | .nan, _ => .nan
  | _, .nan => .nan
  | .inf na, .inf nb => .inf (na != nb)
  | .inf n, .fin nb m _ => if m = 0 then .nan else .inf (n != nb)
  | .fin na m _, .inf n => if m = 0 then .nan else .inf (n != na)
  | .fin na ma ea, .fin nb mb eb => .fin (na != nb) (ma * mb) (ea + eb)

def negVal (a : Val) : Val :=
  match a with
  | .nan => .nan
  | .inf n => .inf (!n)
  | .fin n m e => .fin (!n) m e

/-- Multiply by a power of two. -/
def scaleVal (a : Val) (k : Int) : Val :=
  match a with
  | .fin n m e => .fin n m (e + k)
  | v => v

/-- The order of two values that are no NaN: negative, zero or positive as a < b, equal, a > b; zeros equal. -/
def compareVal (a b : Val) : Int :=
  match a, b with
  | .inf na, .inf nb => (if na then -1 else 1) - (if nb then -1 else 1)
  | .inf n, _ => if n then -1 else 1
  | _, .inf n => if n then 1 else -1
  | .fin na ma ea, .fin nb mb eb =>
    let low := min ea eb
    withSign na (alignTo ma ea low) - withSign nb (alignTo mb eb low)
  | _, _ => 0

def Val.isNan (a : Val) : Bool := match a with | .nan => true | _ => false
def Val.neg (a : Val) : Bool := match a with | .nan => false | .inf n => n | .fin n _ _ => n
def Val.isZero (a : Val) : Bool := match a with | .fin _ m _ => m == 0 | _ => false

-- Block scales (R267).

/-- The factor 2^(b − 127) of a scale byte applied to a value; 0xFF is a NaN scale. -/
def byScale (b : Nat) (v : Val) : Val := if b % 256 = 255 then .nan else scaleVal v ((b % 256 : Nat) - 127)

/-- The low bits of a source at a type; a constant is converted to a float type (R188). DEDUCED, assumption 15. -/
def srcAt (s : State) (t : Ty) (o : Operand) : Act Nat :=
  match o with
  | .const c => .ok (constAt t c.toInt)
  | _ => do
    let v ← src64 s o 0
    .ok (lowBits t v)

end Sys2Proof.Machine
end

