-- ==== Sys2Proof/Machine/Lanes.lean ====
section
/-! DEFINITION. Lanes of vector registers: sources, guards, destinations (R185, R278, R279), and the fixed order
of sums (R273, R274). -/

namespace Sys2Proof.Machine

/-- The lanes of a given width, lane 0 first (R278). -/
def lanesOf (w : Nat) (v : V512) : List Nat := (List.range (512 / w)).map (fun i => v.toNat / 2 ^ (w * i) % 2 ^ w)

/-- A list of lanes as one Nat, lane 0 lowest. -/
def packLanes (w : Nat) : List Nat → Nat
  | [] => 0
  | x :: xs => x % 2 ^ w + 2 ^ w * packLanes w xs

def ofLanes (w : Nat) (l : List Nat) : V512 := BitVec.ofNat 512 (packLanes w l)

/-- Lane `i` of a list. -/
def lane (l : List Nat) (i : Nat) : Nat := (l[i]?).getD 0

/-- Lane i is enabled by the guard (R185). -/
def laneOn (s : State) (f : Fmt) (i : Nat) : Bool := (s.me.rp f.guard.p).getLsbD i != f.guard.neg

/-- The value one element gives to a whole lane: both nibbles for E2M1, all 8 bits for B1 (R279). -/
def fillLane (t : Ty) (x : Nat) : Nat :=
  match t with
  | .e2m1 => x % 16 * 17
  | .b1 => x % 2 * 255
  | _ => x % 2 ^ t.laneWidth

/-- The lane an immediate gives: sign-extended for an integer type, both nibbles for E2M1, else its low bits as a
pattern (R279). DEDUCED, assumption 14. -/
def immLane (t : Ty) (imm : W32) : Nat :=
  match t with
  | .e2m1 => fillLane .e2m1 imm.toNat
  | t => if t.isInt then wrapInt t.width imm.toInt else imm.toNat % 2 ^ t.laneWidth

/-- The lanes a vector source gives (R279). -/
def srcLanes (s : State) (t : Ty) (o : Operand) (imm : W32) : Act (List Nat) :=
  match o with
  | .v r => .ok (lanesOf t.laneWidth (s.me.rv r))
  | .q h c => do
    let v ← queueRead s h c
    .ok (lanesOf t.laneWidth v)
  | .x r => .ok (List.replicate t.lanes (fillLane t (s.me.rx r).toNat))
  | .const c => .ok (List.replicate t.lanes (fillLane t (constAt t c.toInt)))
  | _ => .ok (List.replicate t.lanes (immLane t imm))

/-- The lanes a v register destination holds before; zeros for a producer slot (R185). -/
def oldLanes (s : State) (w : Nat) (o : Operand) : List Nat :=
  match o with
  | .v r => lanesOf w (s.me.rv r)
  | _ => List.replicate (512 / w) 0

/-- Write the enabled lanes of a result (R185). -/
def putLanes (f : Fmt) (s : State) (w : Nat) (new : List Nat) : Act State :=
  let old := oldLanes s w f.d
  put512 f s (ofLanes w ((List.range (512 / w)).map (fun i => if laneOn s f i then lane new i else lane old i)))

/-- An instruction that works on each lane of A and B by itself. -/
def lanewise (f : Fmt) (s : State) (op : Nat → Nat → Nat) : Act State := do
  let a ← srcLanes s f.ty f.a f.imm
  let b ← srcLanes s f.ty f.b f.imm
  putLanes f s f.ty.laneWidth (List.zipWith op a b)

/-- An instruction that works on each lane of A by itself. -/
def lanewise1 (f : Fmt) (s : State) (op : Nat → Nat) : Act State := do
  let a ← srcLanes s f.ty f.a f.imm
  putLanes f s f.ty.laneWidth (a.map op)

-- Elements.

/-- The sign bit of a float element. -/
def signBit (t : Ty) : Nat := 2 ^ (t.width - 1)

def flipSign (t : Ty) (x : Nat) : Nat := x ^^^ signBit t

/-- A float NaN becomes canonical (R263). -/
def canon (t : Ty) (x : Nat) : Nat :=
  if t.isFloat && (elemVal t x).isNan then nanCode (floatForm t) else x

/-- Sum of two elements, exact and then narrowed or rounded once. -/
def addElem (t : Ty) (md : Mode) (sat : Bool) (a b : Nat) : Nat :=
  if t.isFloat then roundFloat (floatForm t) md sat (addVal md (elemVal t a) (elemVal t b))
  else narrow t sat (valueOf t a + valueOf t b)

def subElem (t : Ty) (md : Mode) (sat : Bool) (a b : Nat) : Nat :=
  if t.isFloat then addElem t md sat a (flipSign t b) else narrow t sat (valueOf t a - valueOf t b)

def mulElem (t : Ty) (md : Mode) (sat : Bool) (a b : Nat) : Nat :=
  if t.isFloat then roundFloat (floatForm t) md sat (mulVal (elemVal t a) (elemVal t b))
  else narrow t false (valueOf t a * valueOf t b)

/-- a × b + c with one rounding; `neg` subtracts the product (R282). -/
def fmaElem (t : Ty) (md : Mode) (sat neg : Bool) (a b c : Nat) : Nat :=
  if t.isFloat then
    let p := mulVal (elemVal t a) (elemVal t b)
    roundFloat (floatForm t) md sat (addVal md (if neg then negVal p else p) (elemVal t c))
  else
    let p := valueOf t a * valueOf t b
    narrow t sat (valueOf t c + (if neg then -p else p))

/-- Minimum and maximum (R281): −0 orders below +0, and a NaN input gives the canonical NaN. -/
def minmaxElem (t : Ty) (wantMax : Bool) (a b : Nat) : Nat :=
  let x := elemVal t a
  let y := elemVal t b
  if x.isNan || y.isNan then nanCode (floatForm t)
  else
    let c := compareVal x y
    let aFirst : Bool := if c = 0 then x.neg || !y.neg else decide (c < 0)
    if aFirst != wantMax then a else b

/-- Comparison (R283): a NaN operand is unequal and unordered. -/
def compareElem (t : Ty) (var a b : Nat) : Bool :=
  let x := elemVal t a
  let y := elemVal t b
  if x.isNan || y.isNan then var == 1 else compareInt var (compareVal x y) 0

-- The fixed tree (R273, R274).

/-- A node of two children of which either may be absent. -/
def joinNode (j : Nat → Nat → Nat) (a b : Option Nat) : Option Nat :=
  match a, b with
  | some x, some y => some (j x y)
  | some x, none => some x
  | none, y => y

/-- The next level of the tree. -/
def pairUp (j : Nat → Nat → Nat) : List (Option Nat) → List (Option Nat)
  | a :: b :: t => joinNode j a b :: pairUp j t
  | l => l

/-- The levels of the tree, leaves first. -/
def treeLevels (j : Nat → Nat → Nat) (l : List (Option Nat)) : Nat → List (List (Option Nat))
  | 0 => [l]
  | n + 1 => l :: treeLevels j (pairUp j l) n

/-- The root over the leaves. -/
def treeRoot (j : Nat → Nat → Nat) (l : List (Option Nat)) : Option Nat :=
  (((treeLevels j l (Nat.log2 l.length)).getLastD []).headD none)

/-- The node of a level that begins at a leaf. -/
def treeNode (lv : List (List (Option Nat))) (k pos : Nat) : Option Nat :=
  (((lv[k]?).getD [])[pos / 2 ^ k]?).getD none

/-- The inclusive prefix of leaves 0 to i: blocks by the set bits of i + 1 from the top down, combined upward
(R274). -/
def treePrefix (j : Nat → Nat → Nat) (lv : List (List (Option Nat))) (i : Nat) : Option Nat :=
  let step (acc : Option Nat × Nat) (k : Nat) : Option Nat × Nat :=
    if bitOf (i + 1) k then (joinNode j acc.1 (treeNode lv k acc.2), acc.2 + 2 ^ k) else acc
  ((List.range lv.length).reverse.foldl step (none, 0)).1

-- Block mantissas (R268).

/-- The exponent of R268 of a nonzero element: subnormals take 1 − bias. -/
def blockExp (man : Nat) (v : Val) : Option Int :=
  match v with
  | .fin _ m e => if m = 0 then none else some (e + man)
  | _ => none

/-- MantissaBlock: the scale byte and the mantissas; `off` is 120 and `lim` 255 for M9. -/
def mantissaBlock (t : Ty) (off : Int) (lim : Nat) (xs : List Nat) : Nat × List Int :=
  let vs := xs.map (elemVal t)
  if vs.any (fun v => match v with | .fin _ _ _ => false | _ => true) then (0xFF, xs.map (fun _ => 0))
  else
    match vs.filterMap (blockExp (floatForm t).man) with
    | [] => (0, xs.map (fun _ => 0))
    | e :: es =>
      let b := (max (es.foldl max e + off) 0).toNat
      (b, vs.map (fun v =>
        match scaleVal v (127 - b) with
        | .fin n m e => clampInt (-lim) lim (roundInt .rne n m e)
        | _ => 0))

end Sys2Proof.Machine
end

