-- ==== Sys2Proof/Machine/Atomics.lean ====
section
/-! DEFINITION. Atomics, reduce-stores, waitw, the ordering instructions, cinv and tlbinv (R51, R52, R247, R361 to
R371). -/

namespace Sys2Proof.Machine

-- Read-modify-write (R84, R364 to R366).

/-- The value an operation leaves, of type-wide patterns; none writes nothing (R364 to R366). -/
def rmwNew (op : RmwOp) (t : Ty) (old b : Nat) : Option Nat :=
  match op with
  | .add => some (addElem t .rne false old b)
  | .and => some (old &&& b)
  | .or => some (old ||| b)
  | .xor => some (old ^^^ b)
  | .min => some (if t.isFloat then minmaxElem t false old b
      else narrow t false (if valueOf t old ≤ valueOf t b then old else b))
  | .max => some (if t.isFloat then minmaxElem t true old b
      else narrow t false (if valueOf t old ≤ valueOf t b then b else old))
  | .swap => some b
  | .cas e => if old = e.toNat then some b else none
  | .dec => if old = 0 then none else some (old - 1)

/-- The variants of amo and amored (R192). -/
def amoOp (var : Nat) : RmwOp :=
  match var with
  | 0 => .add | 1 => .and | 2 => .or | 3 => .xor | 4 => .min | 5 => .max | _ => .swap

/-- The address checks of R362. -/
def atomicTarget (s : State) (va : W64) (n : Nat) (tagged : Bool) : Act Target := do
  alignedIn false s va n
  need (canonical va) s (accessFault causeNoncanonical va)
  need (!(va.getLsbD 55 && (tagged || va.toNat % 2 ^ 55 / 2 ^ 32 ≥ 3))) s (accessFault causeWindow va)
  let t ← resolve s s.iAm .atomic va
  match t with
  | .mem _ e => do
    need (!pteEnc e.pte) s (accessFault causeEncrypted va)
    .ok t
  | _ => .ok t

/-- A read-modify-write of the current hart by request and response: the old value (R73, R75, R363). -/
def rmwTrip (s : State) (p : Place) (leaf : Option TlbEntry) (va : W64) (op : RmwOp) (ty : Ty) (b : Nat) :
    Act (State × Nat) := do
  let (s, q) ← trip s { kind := .atomic, agent := .hart s.cur, ctx := s.myCtx, place := p, size := ty.width / 8
                        data := BitVec.ofNat 512 b, op := op, ty := ty, va := va, leaf := leaf }
  peerCheck s q.status va
  .ok (s, q.data.toNat % 2 ^ ty.width)

/-- A read-modify-write of the scratchpad of the hart's own core at its step (R363). DESIGN CHOICE, assumption 19. -/
def rmwOwn (s : State) (off : Nat) (op : RmwOp) (ty : Ty) (b : Nat) : Act (State × Nat) := do
  let n := ty.width / 8
  let pl : Place := .spad s.myCore off
  waitFor (!orderBusy s (.hart s.cur) pl n && !slotFlying s s.myCore off) s
  let s := s.dropAhead (.hart s.cur) s.myCtx pl
  let old := leNat (spadRead s s.myCore s.myCtx off n)
  match rmwNew op ty old b with
  | some v => .ok (spadWrite s s.myCore s.myCtx off (bytesOf n v), old)
  | none => .ok (s, old)

/-- Perform a read-modify-write at its ordering bank and give the old value (R363, R364). -/
def rmwAt (s : State) (t : Target) (va : W64) (op : RmwOp) (ty : Ty) (b : Nat) : Act (State × Nat) := do
  interlock s .atomic va (ty.width / 8)
  let s := afterInterlock s
  match t with
  | .spad core off =>
    if core = s.myCore then rmwOwn s off op ty b
    else do
      waitFor (!slotFlying s core off) s
      rmwTrip s (.spad core off) none va op ty b
  | .mem dpa e =>
    match placeOf s dpa with
    | some p => rmwTrip s p (some e) va op ty b
    | none => fail s (accessFault causeAbsent va)
  | _ => fail s (accessFault causeWindow va)

/-- The read-modify-write of the current instruction has been issued: its release is behind it. -/
def rmwIssued (s : State) : Bool :=
  (s.inFlight ++ s.outbox).any (fun r => r.agent == .hart s.cur && r.ctx == s.myCtx && !r.posted && r.kind == .atomic) ||
    (s.respNet ++ s.inbox).any (fun q => q.agent == .hart s.cur && q.ctx == s.myCtx && !q.posted && q.kind == .atomic)

/-- The order bits of an atomic (R193). -/
def immScope (f : Fmt) : Nat := f.imm.toNat % 8
def immAcq (f : Fmt) : Bool := f.imm.getLsbD 3
def immRel (f : Fmt) : Bool := f.imm.getLsbD 4

/-- The answer of the read-modify-write that the current instruction has issued. -/
def rmwAnswer (s : State) (va : W64) (ty : Ty) : Act (State × Nat) :=
  match s.inbox.find? (fun q => q.agent == .hart s.cur && q.ctx == s.myCtx && !q.posted && q.kind == .atomic) with
  | none => hold s
  | some q => do
    let s : State := { s with inbox := s.inbox.erase q }
    peerCheck s q.status va
    .ok (s, q.data.toNat % 2 ^ ty.width)

/-- What follows the release of an atomic that has one: a wait after a release that has issued writes is one inside the
instruction (R137, R177). -/
def afterRelease {α : Type} (f : Fmt) (s : State) (body : State → Act α) : Act α :=
  if immRel f then do
    let t ← release s (immScope f)
    if s.me.inRel || unreleased s then inRelease (body t) else body t
  else body s

/-- The body that amo and cas share: check, release, operate, acquire, write the old value. What has been issued is
waited for and is not checked again (R177). -/
def atomicRun (f : Fmt) (s : State) (op : RmwOp) (b : Nat) : Act State := do
  let va := xval s f.a
  let (s, old) ← if rmwIssued s then rmwAnswer s va f.ty
    else do
      let t ← atomicTarget s va (f.ty.width / 8) false
      afterRelease f s (fun s => rmwAt s t va op f.ty b)
  put64 f (if immAcq f then acquire s else s) (extend f.ty old)

/-- amo (R364). -/
def execAmo (f : Fmt) (s : State) : Result :=
  scalarRun f s do
    let b ← src64 s f.b f.imm
    dstReady s f.d
    atomicRun f s (amoOp f.var.val) (lowBits f.ty b)

/-- cas (R365). -/
def execCas (f : Fmt) (s : State) : Result :=
  scalarRun f s do
    let b ← src64 s f.b f.imm
    let e := lowBits f.ty (xval s f.d)
    atomicRun f s (.cas (BitVec.ofNat 64 e)) (lowBits f.ty b)

-- Reduce-stores and duplicate windows (R149, R150, R366, R367).

def State.dupWindow (s : State) (home ctx : Nat) : List DupEntry := Tab.get [] s.dups (home * 128 + ctx)

/-- The four of R150: tag, target, variant, type. -/
def DupEntry.same (e : DupEntry) (tag : W64) (place : Place) (op : RmwOp) (ty : Ty) : Bool :=
  e.tag == tag && e.place == place && e.op == op && e.ty == ty

/-- An entry that a loss keeps in its window until the rerun ends (R399). -/
def heldEntry (s : State) (ctx : Nat) (e : DupEntry) : Bool :=
  s.lost.any (fun x => x.ctx == ctx && e.ord < x.mark)

/-- Enter a tag: in a full window of 8,192 the oldest entry that no loss holds leaves; a rerun's reduce-store that
finds only held ones does not enter, and is logged (R150, R399). -/
def enterTag (s : State) (home ctx : Nat) (tag : W64) (place : Place) (op : RmwOp) (ty : Ty) : State :=
  let w := s.dupWindow home ctx
  let e : DupEntry := { ord := s.nextDup, tag := tag, place := place, op := op, ty := ty }
  let put (l : List DupEntry) : State :=
    { s with nextDup := s.nextDup + 1, dups := Tab.put s.dups (home * 128 + ctx) l }
  if w.length < 8192 then put (w ++ [e])
  else
    match w.findIdx? (fun d => !heldEntry s ctx d) with
    | some i => put (w.eraseIdx i ++ [e])
    | none => s.log (.windowFull ctx)

/-- The current hart's slice is a rerun (R399). -/
def State.reruns (s : State) : Bool :=
  match s.me.slice with
  | some sl => recRestart sl.record
  | none => false

/-- While a loss of its context is open, a tagged reduce-store of a slice that is no rerun waits at its home for a full
window (R399). -/
def windowWaits (s : State) (phys : Nat) (r : Request) : Bool :=
  r.reduce && r.tag.isSome && !r.rerun && s.lost.any (fun x => x.ctx == r.ctx) &&
    decide ((s.dupWindow (portOf s (channelOf s phys)) r.ctx).length ≥ 8192)

/-- A reduce-store at its home in device memory: a duplicate writes nothing (R150). -/
def reduceAt (s : State) (ctx phys : Nat) (tag : Option W64) (op : RmwOp) (ty : Ty) (b : Nat) : State × RespStatus :=
  let n := ty.width / 8
  let home := portOf s (channelOf s phys)
  let apply (s : State) : State :=
    let (s, bs) := memRead s ctx phys n
    match rmwNew op ty (leNat bs) b with
    | some v => memWrite s ctx phys (bytesOf n v)
    | none => s
  match tag with
  | none => (apply s, .ok)
  | some t =>
    if (s.dupWindow home ctx).any (fun e => e.same t (.mem phys) op ty) then (s, .duplicate)
    else (enterTag (apply s) home ctx t (.mem phys) op ty, .ok)

/-- amored (R366, R367): the hart goes on, and a refusal at the home is taken later. -/
def execAmored (f : Fmt) (s : State) : Result :=
  scalarRun f s do
    let b ← srcAt s f.ty f.b
    let va := xval s f.a
    let op := amoOp f.var.val
    let tag := match f.d with
      | .x r => some (s.me.rx r)
      | _ => none
    let t ← atomicTarget s va (f.ty.width / 8) tag.isSome
    afterRelease f s fun s =>
    match t with
    | .mem dpa e => do
      interlock s .atomic va (f.ty.width / 8)
      let s := afterInterlock s
      match placeOf s dpa with
      | none => fail s (accessFault causeAbsent va)
      | some p =>
        let r : Request := { kind := .atomic, agent := .hart s.cur, ctx := s.myCtx, place := p
                             size := f.ty.width / 8, data := BitVec.ofNat 512 b, op := op, ty := f.ty
                             tag := tag, reduce := true, rerun := s.reruns, va := va, leaf := some e, posted := true }
        match fabricRefusal s p s.myCtx with
        | some .foreign => fail s (accessFault causeForeign va)
        | some _ => putNone f (deferFabric s va)
        | none => do
          waitFor (!s.fabricWaits p) s
          putNone f (s.sendReq r)
    | .spad core off => do
      interlock s .atomic va (f.ty.width / 8)
      waitFor (!slotFlying s core off) s
      putNone f ((afterInterlock s).sendReq
        { kind := .atomic, agent := .hart s.cur, ctx := s.myCtx, place := .spad core off, size := f.ty.width / 8
          data := BitVec.ofNat 512 b, op := op, ty := f.ty, reduce := true, va := va, posted := true })
    | _ => fail s (accessFault causeWindow va)

-- waitw (R368, R369).

/-- The 64-byte granule that a monitor watches. -/
def granuleOf (s : State) (t : Target) : Place :=
  match t with
  | .spad core off => .spad core (off / 64 * 64)
  | .mem dpa _ =>
    match placeOf s dpa with
    | some (.mem p) => .mem (p / 64 * 64)
    | some (.peer d a) => .peer d (a / 64 * 64)
    | _ => .mem 0
  | _ => .mem 0

/-- Monitors in use on a core, of 16 (R369). -/
def monitorsUsed (s : State) (core : Nat) : Nat :=
  (s.harts.filter (fun k => coreOf (k.1 / 128) == core &&
    (match k.2.sleep with | some (_, m) => m | none => false))).length

/-- The current hart sleeps on a granule, with a monitor if one is free. -/
def sleepOn (s : State) (g : Place) : State :=
  let m := decide (monitorsUsed s s.myCore < 16)
  s.modMe (fun h => { h with sleep := some (g, m) })

def execWaitw (f : Fmt) (s : State) : Result :=
  scalarRun f s do
    let b ← src64 s f.b f.imm
    let va := xval s f.a
    let n := f.ty.width / 8
    alignedIn false s va n
    need (canonical va) s (accessFault causeNoncanonical va)
    need (!(va.getLsbD 55 && va.toNat % 2 ^ 55 / 2 ^ 32 ≥ 3)) s (accessFault causeWindow va)
    let t ← resolve s s.iAm .load va
    let (s, bs) ← loadAt s t va n true
    if (leNat bs == lowBits f.ty b) != (f.var.val == 1) then
      putNone f (if immAcq f then acquire s else s)
    else hold (sleepOn s (granuleOf s t))

/-- A sleeping waitw reads again (R369): a write to its granule, or 4,096 cy with a monitor. -/
def execWaitwWake (hart : Nat) (s : State) : Result :=
  let h := s.hart hart
  match h.sleep with
  | some (_, true) => .next (s.setHart hart { h with sleep := none, waiting := false })
  | _ => .next s

/-- A sleeping waitw without a monitor reads again every 256 cy (R369). -/
def execWaitwPoll (hart : Nat) (s : State) : Result :=
  let h := s.hart hart
  match h.sleep with
  | some (_, false) => .next (s.setHart hart { h with sleep := none, waiting := false })
  | _ => .next s

-- Ordering instructions (R370, R371).

/-- phase (R129): the acquire part, at once, and the release part. Loads may be performed ahead while it waits. -/
def execPhase (f : Fmt) (s : State) : Result :=
  scalarRun f s do
    let s ← release (if s.me.inRel then s else acquire s) (immScope f)
    putNone f s

/-- rel (R127, R144 to R146). -/
def execRel (f : Fmt) (s : State) : Result :=
  scalarRun f s do
    let s ← release s (immScope f)
    putNone f s

/-- acq (R128). -/
def execAcq (f : Fmt) (s : State) : Result := scalarRun f s (putNone f (acquire s))

/-- fence.sc (R130). -/
def execFenceSc (f : Fmt) (s : State) : Result :=
  scalarRun f s do
    let s ← fenceAt s (immScope f)
    putNone f s

/-- fence.io (R371): port accesses, pushes and launches take effect as they are performed, so it waits for stores to
debug windows and for what fence.sc waits for. -/
def execFenceIo (f : Fmt) (s : State) : Result :=
  scalarRun f s do
    waitFor (!localWrites s) s
    let s ← fenceAt s (immScope f)
    putNone f s

-- cinv (R247).

/-- Keep the instruction cache lines of the current core that a test accepts; fetches answered before fill none. -/
def keepILines (s : State) (keep : ILine → Bool) : State :=
  let k := s.core s.myCore
  let s := s.setCore s.myCore { k with icache := k.icache.map (fun e => (e.1, e.2.filter keep)) }
  s.forsakeDone (fun q => q.ahead && q.ctx == s.myCtx && (match q.agent with | .hart id => coreOf id == s.myCore | _ => false))

/-- cinv variant 0 (R247). -/
def execCinvLine (f : Fmt) (s : State) : Result :=
  let va := effAddr (xval s f.a) f.imm
  scalarRun f s (.ok (done f
    (if canonical va && !va.getLsbD 55 then
      keepILines s (fun l => !(l.ctx == s.myCtx && l.line == va.toNat % 2 ^ 56 / 64))
    else s) id))

/-- cinv variant 1 (R247). -/
def execCinvAll (f : Fmt) (s : State) : Result :=
  scalarRun f s (.ok (done f (keepILines s (fun l => l.ctx != s.myCtx)) id))

-- tlbinv (R51 to R53).

/-- The context that variants 0 and 1 name, checked (R52); a refusal names address 0. DESIGN CHOICE, assumption 57. -/
def tlbinvCtx (f : Fmt) (s : State) : Act Nat := do
  let c := (xval s f.b).toNat
  let sup := isSup s.cur
  need (!(decide (c > 64) || (decide (c = 64) && !sup))) s (accessFault causeForeign 0)
  need (sup || decide (c = s.myCtx)) s (accessFault causeForeign 0)
  .ok c

/-- A leaf is removed by an invalidation. -/
def Inval.hits (v : Inval) (e : TlbEntry) : Bool := v.matchesPage e.ctx e.vpn e.big

/-- A segment translated through what an invalidation removes is open: of an engine's job, of a completion word, or of a
table operation (R50, R52, R313, R446). -/
def heldSegment (s : State) (v : Inval) : Bool :=
  s.units.any (fun u => u.2.jobs.any (fun j => ((j.cdest.bind (·.entry)).map v.hits).getD false)) ||
    s.segments.any (fun g => v.hits g.entry && g.isOpen s) ||
    s.tableOps.any (fun r => r.leaves.any v.hits)

/-- An access translated through what an invalidation removes is not performed yet: a request on its way, or a phase store
that no release has published (R52, R53, R125). -/
def heldAccess (s : State) (v : Inval) : Bool :=
  (s.inFlight ++ s.outbox).any (fun r => (r.leaf.map v.hits).getD false || r.through.any v.hits) ||
    s.cores.any (fun k => k.2.dcache.any (fun e => e.2.any (fun c => c.leaves.any v.hits))) ||
    s.harts.any (fun h => h.2.spill.any (fun q => q.leaves.any v.hits)) ||
    s.units.any (fun u => u.2.saved.any (fun c => c.leaves.any v.hits))

/-- The release, the removal and the waits of R52. -/
def tlbinvRun (f : Fmt) (s : State) (v : Inval) : Act State := do
  let s ← release s 4
  let s ← fenceAt s 4
  let s := invalidate s v
  waitFor (!heldAccess s v) s
  waitFor (!heldSegment s v) s
  putNone f s

/-- tlbinv.page (R51, R52). -/
def execTlbinvPage (f : Fmt) (s : State) : Result :=
  privileged s.me.modeS s <| scalarRun f s do
    let c ← tlbinvCtx f s
    tlbinvRun f s (.page (xval s f.a) c)

/-- tlbinv.ctx (R51, R52). -/
def execTlbinvCtx (f : Fmt) (s : State) : Result :=
  privileged s.me.modeS s <| scalarRun f s do
    let c ← tlbinvCtx f s
    tlbinvRun f s (.ctx c)

/-- tlbinv.all (R51, R52). -/
def execTlbinvAll (f : Fmt) (s : State) : Result :=
  privileged s.me.modeS s <| scalarRun f s do
    need (isSup s.cur) s (accessFault causeAccPrivilege 0)
    tlbinvRun f s .all

end Sys2Proof.Machine
end

