-- ==== Sys2Proof/Machine/Csr.lean ====
section
/-! DEFINITION. Control registers (R79, R163, R165, R180, R181, R240, R241). -/

namespace Sys2Proof.Machine

/-- %status as a read gives it (R163). -/
def statusWord (h : Hart) (hid : Nat) : W64 :=
  BitVec.ofNat 64 (h.status.toNat + slotOf hid * 2 ^ 8 + (isSup hid).toNat * 2 ^ 10)

/-- Read a control register of a hart's bank (R240). -/
def readCsr (s : State) (hid ctx : Nat) (r : CReg) : W64 :=
  let h := s.bank hid ctx
  match r with
  | .status => statusWord h hid
  | .ipend => h.ipend.zeroExtend 64
  | .ienab => h.ienab.zeroExtend 64
  | .ivec => h.ivec
  | .ipc => h.ipc
  | .icause => h.icause.zeroExtend 64
  | .irep => h.irep.zeroExtend 64
  | .tcmp => h.tcmp
  | .cmask => h.cmask
  | .dead => h.dead
  | .repst => h.repst.zeroExtend 64
  | .budget => h.budget
  | .deadline => h.deadline
  | .tidle => (s.unit (coreOf hid) ctx).tidle.zeroExtend 64
  | .hartid => BitVec.ofNat 64 hid
  | .ctxid => BitVec.ofNat 64 ctx
  | .qbind n => h.qbind[n]

/-- A write of %tcmp sets TIMER at once when the time base has already reached it (R165). -/
def writeTcmp (now : Nat) (v : W64) (h : Hart) : Hart :=
  let h := { h with tcmp := v, timerSeen := false }
  if v != 0 && v.toNat ≤ now then { h.raise 1 with timerSeen := true } else h

/-- Bit 0 of %cmask and %dead is ignored and reads zero (R181). -/
def noBit0 (v : W64) : W64 := v &&& ~~~1#64

/-- A control register of a hart takes a value; reserved and read-only fields keep theirs. `mode` is the new MODE,
which control-register instructions leave unchanged (R163). -/
def setCsr (now : Nat) (r : CReg) (v : W64) (mode : Bool) (h : Hart) : Hart :=
  match r with
  | .status => { h with status := mkStatus mode (v.getLsbD 1) (v.getLsbD 2) (v.getLsbD 3) }
  | .ipend => { h with ipend := BitVec.ofNat 8 v.toNat }
  | .ienab => { h with ienab := BitVec.ofNat 8 v.toNat }
  | .ivec => { h with ivec := v }
  | .ipc => { h with ipc := v }
  | .icause => { h with icause := BitVec.ofNat 3 v.toNat }
  | .irep => { h with irep := BitVec.ofNat 36 v.toNat }
  | .tcmp => writeTcmp now v h
  | .cmask => { h with cmask := noBit0 v }
  | .dead => { h.zeroDead with dead := noBit0 v }
  | .repst => { h with repst := BitVec.ofNat 36 v.toNat }
  | .budget => { h with budget := v }
  | .deadline => { h with deadline := v }
  | .tidle | .hartid | .ctxid | .qbind _ => h

/-- Write a control register in a bank. -/
def writeCsr (s : State) (hid ctx : Nat) (r : CReg) (v : W64) (mode : Bool) : State :=
  let s := s.setBank hid ctx (setCsr s.time r v mode (s.bank hid ctx))
  match r with
  | .tidle =>
    let u := s.unit (coreOf hid) ctx
    s.setUnit (coreOf hid) ctx { u with tidle := BitVec.ofNat 10 v.toNat }
  | _ => s

/-- The privilege check of R197 on a control register that is written. -/
def mayWriteCsr (h : Hart) (o : Operand) : Bool :=
  match o with
  | .csr r => h.modeS || r.userWritable
  | _ => true

/-- A write of a control register takes effect from the next instruction on (R241). -/
def csrUpdate (f : Fmt) (s : State) (op : W64 → W64 → W64) : Result :=
  privileged (mayWriteCsr s.me f.d) s <| scalarRun f s do
    let a ← src64 s f.a f.imm
    match f.d with
    | .csr r =>
      let s := s.modMe (fun h => h.lastUse f)
      let old := readCsr s s.cur s.myCtx r
      let s := s.modMe Hart.advance
      .ok (writeCsr s s.cur s.myCtx r (op old a) s.me.modeS)
    | _ => .ok (done f s id)

/-- csrr (R241). -/
def execCsrr (f : Fmt) (s : State) : Result :=
  scalarRun f s (match f.a with
    | .csr r => put64 f s (readCsr s s.cur s.myCtx r)
    | _ => put64 f s 0)

def execCsrw (f : Fmt) (s : State) : Result := csrUpdate f s (fun _ a => a)
def execCsrs (f : Fmt) (s : State) : Result := csrUpdate f s (fun old a => old ||| a)
def execCsrc (f : Fmt) (s : State) : Result := csrUpdate f s (fun old a => old &&& ~~~a)

end Sys2Proof.Machine
end

