-- ==== Sys2Proof/Machine/Sched.lean ====
section
/-! DEFINITION. Timers, the choice of the next turn, and what a hart does at an instruction boundary (R165 to R168,
R176, R397). -/

namespace Sys2Proof.Machine

-- Time.

/-- The TIMER condition of R165. -/
def timerStands (now : Nat) (h : Hart) : Bool := h.tcmp != 0 && h.tcmp.toNat ≤ now

/-- The TIMER line is set once when its condition becomes true (R165). -/
def timerCheck (now : Nat) (h : Hart) : Hart :=
  if timerStands now h then (if h.timerSeen then h else { h.raise 1 with timerSeen := true })
  else if h.timerSeen then { h with timerSeen := false } else h

def Hart.counting (h : Hart) : Bool := (h.slice.map (·.counting)).getD false

/-- %budget of a counting slice counts down while its core runs the context (R397). -/
def budgetCount (n : Nat) (active : Bool) (h : Hart) : Hart :=
  if active && h.counting then { h with budget := BitVec.ofNat 64 (h.budget.toNat - n) } else h

/-- The bank of a key runs. -/
def keyActive (s : State) (key : Nat) : Bool :=
  let core := coreOf (key / 128)
  supCore core || (s.core core).active == some (key % 128)

-- Boundaries.

/-- A counting slice's budget stands at zero (R397). -/
def Hart.budgetDue (h : Hart) : Bool := h.counting && h.budget == 0

/-- An instruction of a hart has issued an access and is not complete: no boundary is taken until it is (R136, R177). -/
def midAccess (s : State) (hid ctx : Nat) : Bool :=
  let h := s.bank hid ctx
  !(s.runsOf (.hart hid) ctx).isEmpty || s.accessOpen hid ctx || h.inRel || !h.groupsDone.isEmpty

/-- What a hart must do before it issues: a KILL, an owed SPILL_OVERFLOW, BUDGET, an interrupt (R121, R166, R397,
R472). -/
def boundary (s : State) : Option State :=
  let h := s.me
  if midAccess s s.cur s.myCtx then none
  else if h.killNext then some (killHart s s.cur s.myCtx)
  else
    match h.owed with
    | e :: rest =>
      some ((s.setMe { h with owed := rest, spillSet := h.spillSet ++ [(e.1, e.2.1)] }).takeFault e.2.2)
    | [] =>
      if h.budgetDue then some (s.takeFault { code := .budget })
      else if h.takesInterrupt then some (s.setMe (h.enterInterrupt (lowestLine (h.ipend &&& h.ienab))))
      else none

/-- A hart that may act in its turn. -/
def Hart.awake (h : Hart) : Bool := h.running && !h.frozen

/-- A hart whose turn can change something: a sleeping one only at a boundary. -/
def Hart.stirs (h : Hart) : Bool :=
  h.awake && (h.sleep.isNone || h.killNext || !h.owed.isEmpty || h.budgetDue || h.takesInterrupt)

-- The thread set (R167).

/-- DEDUCED, assumption 47. -/
def quantum : Nat := 2048

/-- The execute stream of a hart can go on: what it lags behind by, whose first value is there (R167, R173). -/
def Hart.follows (h : Hart) : Bool :=
  !h.lag.isEmpty && (match h.copyAE with
    | .awaits _ :: _ => false
    | _ => true)

/-- The hart a core issues from: the running hart while it is ready and has neither yielded nor used its quantum,
else the next in slot order. A waiting hart may have become ready, so it is asked again. DEDUCED, assumption 47. -/
def pickHart (s : State) (core : Nat) : Option Nat :=
  let k := s.core core
  let h := s.hart (core * 4 + k.runSlot)
  if h.stirs && (!h.waiting || h.follows) && k.issued < quantum then some (core * 4 + k.runSlot)
  else (([1, 2, 3, 4].map (fun i => core * 4 + (k.runSlot + i) % 4)).find? (fun id => (s.hart id).stirs))

/-- A hart's instruction is issued: its translation begins anew, and what a walk for a load ahead of it found wrong is not
its own (R49). -/
def clearXlate (s : State) (hid : Nat) : State :=
  let h := s.hart hid
  let ctx := s.ctxOf (coreOf hid)
  match h.aheadVpn with
  | some v =>
    let t := s.setHart hid { h with xlating := false, aheadVpn := none }
    { t with walkMisses := t.walkMisses.filter (fun m => !(m.core == coreOf hid && m.ctx == ctx && m.vpn == v)) }
  | none => if h.xlating then s.setHart hid { h with xlating := false } else s

/-- A hart issues an instruction: the core's running slot, and its count while another hart can have become ready; a yield
hint ends its run (R167, R168, R186). DEDUCED, assumption 47. -/
def noteIssue (s : State) (hid : Nat) (yield : Bool) : State :=
  let core := coreOf hid
  let k := s.core core
  let rival := (List.range 4).any (fun i => core * 4 + i != hid && (s.hart (core * 4 + i)).stirs)
  let n := if !rival then 0 else if k.runSlot = slotOf hid then k.issued + 1 else 1
  (clearXlate s hid).setCore core { k with runSlot := slotOf hid, issued := if yield then quantum else n }

def yieldHint (i : Instr) : Bool := ((i.parts.map (fun p => p.2.2.hint.yield))).getD false

/-- A hart's turn up to its instruction: what its boundary does or what stops its fetch is a whole step. -/
inductive Issue where
  | whole (r : Result)
  | run (i : Instr) (s : State)

/-- A hart that loads on their way hold back waits for their data. -/
def waitLoads (s : State) : Result := .next (s.modMe (fun h => { h with waiting := true }))

/-- What the current hart does in its turn. A boundary waits for the data of loads on their way, and a fault for every
earlier instruction (R175, R177). -/
def hartIssue (s : State) : Issue :=
  if !s.me.awake then .whole (.next s)
  else
    match boundary s with
    | some t => .whole (if s.me.pend.isEmpty then .next t else waitLoads s)
    | none =>
      if s.me.sleep.isSome then .whole (.next s)
      else
        match fetchInstr s with
        | .ok (t, i) => .run i (noteIssue t t.cur (yieldHint i))
        | .error (.fault t f) => .whole (if s.me.pend.isEmpty then settle (.error (.fault t f)) else waitLoads s)
        | .error (.wait t) => .whole (settle (.error (.wait t)))

end Sys2Proof.Machine
end

