-- ==== Sys2Proof/Machine/System.lean ====
section
/-! DEFINITION. System instructions: ecall, eret, wfi, meters, keys, time, and core swaps (R96, R169, R170, R378 to
R383, R473, R474), with the events of a hart's own hardware (R165 to R167, R182, R397). -/

namespace Sys2Proof.Machine

/-- ecall (R378): in S mode a fault; else the supervisor entry. -/
def execEcall (f : Fmt) (s : State) : Result :=
  scalarRun f s (
    if s.me.modeS then fail s (illegal causeEcall)
    else .ok (s.modMe (fun h => (h.lastUse f).enterCall)))

/-- eret (R378). -/
def execEret (f : Fmt) (s : State) : Result :=
  privileged s.me.modeS s <| scalarRun f s (.ok (s.modMe (fun h => (h.lastUse f).leaveHandler)))

/-- wfi (R379). -/
def execWfi (f : Fmt) (s : State) : Result :=
  scalarRun f s (
    if s.me.ipend &&& s.me.ienab != 0 then putNone f s
    else hold (s.modMe (fun h => { h with inWfi := true })))

/-- rdtime (R382). -/
def execRdtime (f : Fmt) (s : State) : Result := scalarRun f s (put64 f s (BitVec.ofNat 64 s.time))

/-- mtrd (R380); the supervisor's own context has no meters and reads zero (R164). -/
def execMtrd (f : Fmt) (s : State) : Result :=
  scalarRun f s do
    let idx := f.imm.toNat % 32
    let c := if f.b.isNone then s.myCtx else (xval s f.b).toNat
    dstReady s f.d
    need (f.b.isNone || (decide (c < 64) && (decide (c = s.myCtx) || (isSup s.cur && s.me.modeS)))) s
      (accessFault causeForeign 0)
    put64 f s (BitVec.ofNat 64 (if c = sysCtx then 0 else s.meter c idx))

-- Keys (R96, R97, R381).

/-- A job that has passed R97 with the handle of a slot has not completed. -/
def keyInUse (s : State) (n : Nat) : Bool :=
  s.units.any (fun u => u.2.jobs.any (fun j => j.keys.contains (n + 1)) ||
    u.2.tours.any (fun t => t.2.key == n + 1 && t.2.firstRead)) ||
    s.colls.any (fun c => (c.block.getD 9 0).toNat % 2 ^ 16 == n + 1)

def keyldMay (s : State) : Bool := isSup s.cur && s.me.modeS

/-- keyld variant 0 (R381), whose statuses have no stated order: BADWORD, SLOTBUSY, NOTICKET.
DESIGN CHOICE, assumption 76. -/
def execKeyldCode (s : State) (a b : W64) : Nat × State :=
  let n := a.toNat % 4096
  let c := slice a.toNat 21 16
  if slice a.toNat 63 22 != 0 || slice a.toNat 15 12 != 0 || slice b.toNat 63 16 != 0 then (3, s)
  else if (s.keySlot n).st != .empty then (2, s)
  else
    match s.tickets.find? (fun t => t.1 == b.toNat && t.2.ctx == c) with
    | none => (1, s)
    | some t =>
      (0, { (s.setKeySlot n { key := t.2.key, owner := c, st := .loaded }) with tickets := Tab.drop s.tickets t.1 })

def execKeyld (f : Fmt) (s : State) : Result :=
  privileged (keyldMay s) s <| scalarRun f s (
    let r := execKeyldCode s (xval s f.a) (xval s f.b)
    put64 f r.2 (BitVec.ofNat 64 r.1))

/-- keyld.clear (R381). -/
def execKeyldClear (f : Fmt) (s : State) : Result :=
  privileged (keyldMay s) s <| scalarRun f s do
    let a := xval s f.a
    let n := a.toNat % 4096
    if slice a.toNat 63 22 != 0 || slice a.toNat 15 12 != 0 then put64 f s 3
    else do
      waitFor (!keyInUse s n) s
      put64 f (s.setKeySlot n {}) 0

-- Swaps (R169, R170, R383).

/-- The member core that x[A] names. -/
def memberNamed (s : State) (a : W64) : Nat := memberCore (clusterOf s.myCore) (a.toNat % 16)

/-- The status of R383, the first that holds in the rule's order. -/
def ctxswStatus (s : State) (a b : W64) : Nat :=
  let core := memberNamed s a
  let k := s.core core
  let c := b.toNat % 64
  if slice a.toNat 63 4 != 0 || slice b.toNat 63 6 != 0 then 5
  else if !present s core then 2
  else if k.swapTo.isSome then 1
  else if k.active == some c then 4
  else if !granted s core c then 3
  else 0

/-- ctxsw (R383). -/
def execCtxsw (f : Fmt) (s : State) : Result :=
  privileged (keyldMay s) s <| scalarRun f s (
    let a := xval s f.a
    let b := xval s f.b
    let st := ctxswStatus s a b
    let core := memberNamed s a
    let s1 := if st = 0 then s.setCore core { s.core core with swapTo := some (b.toNat % 64) } else s
    put64 f s1 (BitVec.ofNat 64 st))

/-- The stat word of R383. DEDUCED, assumption 34. -/
def ctxswWord (s : State) (a : W64) : W64 :=
  if slice a.toNat 63 4 != 0 then 0x8000
  else
    let k := s.core (memberNamed s a)
    let run := k.active.getD 0
    match k.swapTo with
    | none => BitVec.ofNat 64 (run + run * 2 ^ 8)
    | some t => BitVec.ofNat 64 (run + 2 ^ 6 + t * 2 ^ 8)

/-- ctxsw.stat (R383). -/
def execCtxswStat (f : Fmt) (s : State) : Result :=
  privileged (keyldMay s) s <| scalarRun f s (put64 f s (ctxswWord s (xval s f.a)))

-- Events of the harts (R165 to R167, R182, R397, R507).

/-- INTERRUPT_ENTRY (R166). -/
def execInterruptEntry (hart : Nat) (s : State) : Result :=
  let h := s.hart hart
  .next (if h.takesInterrupt && h.joined && !midAccess s hart (s.ctxOf (coreOf hart)) then
      s.setHart hart (h.enterInterrupt (lowestLine (h.ipend &&& h.ienab)))
    else s)

/-- TIMER_MATCH (R165). -/
def execTimerMatch (hart : Nat) (s : State) : Result := .next (s.setHart hart (timerCheck s.time (s.hart hart)))

/-- ISSUE_QUANTUM_SWITCH (R167): a hart that has issued for its quantum gives way to the next ready one. -/
def execIssueQuantumSwitch (core : Nat) (s : State) : Result :=
  let k := s.core core
  if k.issued < quantum then .next s
  else
    match ([1, 2, 3].map (fun i => (k.runSlot + i) % 4)).find? (fun sl => (s.hart (core * 4 + sl)).stirs) with
    | some sl => .next (s.setCore core { k with runSlot := sl, issued := 0 })
    | none => .next s

/-- DEAD_POWER_DOWN (R182): a waiting hart's dead registers lose their values. -/
def execDeadPowerDown (hart : Nat) (s : State) : Result :=
  let h := s.hart hart
  .next (if h.waiting then s.setHart hart { h.zeroDead with poweredDown := true } else s)

/-- BUDGET_EXPIRY (R397). -/
def execBudgetExpiry (hart : Nat) (s : State) : Result :=
  let h := s.hart hart
  .next (if h.awake && h.budgetDue && h.joined && !midAccess s hart (s.ctxOf (coreOf hart)) then
      s.takeFaultOn hart { code := .budget }
    else s)

/-- RAISE_MGMT (R507): it is answered; a hart that is none makes it malformed. -/
def execRaiseMgmt (hart : Nat) (s : State) : Result :=
  if hart < 4352 then .next { s.setHart hart ((s.hart hart).raise 7) with reply := .ok } else .next { s with reply := .invalid }

end Sys2Proof.Machine
end

