-- ==== Sys2Proof/Machine/Engines.lean ====
section
/-! DEFINITION. What the engines of a core share: the hazard unit, accesses with key handles, pushes and completion
writes (R50, R97 to R103, R152 to R160, R313, R324). -/

namespace Sys2Proof.Machine

-- Which core's units act.

/-- A core's units act for a context: its active one, with the units loaded (R474). -/
def unitsLive (s : State) (core : Nat) : Bool :=
  (supCore core || (s.core core).active.isSome) && !(s.core core).todo.contains 0

/-- Units take no new job while a swap is asked for (R328). -/
def unitsStart (s : State) (core : Nat) : Bool := unitsLive s core && (s.core core).swapTo.isNone

def State.liveUnit (s : State) (core : Nat) : Units := s.unit core (s.ctxOf core)
def State.setLiveUnit (s : State) (core : Nat) (u : Units) : State := s.setUnit core (s.ctxOf core) u

/-- The regions of bytes of a scratchpad are loaded (R474). -/
def regionsReady (s : State) (core off n : Nat) : Bool :=
  (List.range (n / 4096 + 2)).all (fun k => regionReady s core (Nat.min (off + 4096 * k) (off + n - 1)))

/-- Bytes of the scratchpad of an engine's own core can be accessed now: no earlier request to them is on its way, and
their regions are loaded, where the core runs the context (R118, R474). -/
def spadFree (s : State) (core ctx : Nat) (ag : Agent) (off n : Nat) : Bool :=
  !orderBusy s ag (.spad core off) n && (s.ctxOf core != ctx || regionsReady s core off n)

-- Ends of an engine's work.

/-- Why an engine's access does not go on: it waits, it raises XLATE (R50), or its job ends with a status (R324). -/
inductive EStop where
  | wait (s : State)
  | xlate (s : State) (f : TrapInfo)
  | bad (s : State) (code detail : Nat) (va : W64)
  deriving DecidableEq, Repr

abbrev Eng (α : Type) := Except EStop α

/-- The status codes of R324 and R346. -/
def stReserved : Nat := 1
def stAlign : Nat := 2
def stAccess : Nat := 3
def stKey : Nat := 4
def stIntegrity : Nat := 5
def stKilled : Nat := 6
def stBslot : Nat := 7
def stFabric : Nat := 8
def stExhaust : Nat := 9

/-- A fault of a check as an engine sees it. -/
def engFault (s : State) (f : TrapInfo) : EStop :=
  match f.code with
  | .xlate => .xlate s f
  | .align => .bad s stAlign 0 f.va
  | .integrity => .bad s stIntegrity 0 f.va
  | .fabricIntegrity => .bad s stFabric 0 f.va
  | .keyExhaust => .bad s stExhaust 0 f.va
  | _ => .bad s stAccess f.cause f.va

def engOf {α : Type} (r : Act α) : Eng α :=
  match r with
  | .ok v => .ok v
  | .error (.wait s) => .error (.wait s)
  | .error (.fault s f) => .error (engFault s f)

/-- A waiting engine has its answers and translations, and has written and counted nothing (R510). -/
def retry (s t : State) : State := { t with meters := s.meters, inbox := s.inbox, spad := s.spad, posts := s.posts }

/-- The payload writes of an event leave (R118). -/
def State.sendPosts (s : State) : State := s.posts.foldl State.sendReq { s with posts := [] }

/-- Who acts for an engine of a core, and for a job of it. -/
def engineWho (s : State) (core : Nat) : Who := { core := core, ctx := s.ctxOf core, hart := false, supS := false }
def jobWho (s : State) (core job : Nat) : Who := { engineWho s core with job := some job }

-- One access of an engine inside a 64-byte word (R43, R50, R86, R98).

/-- An access of an engine by request and response. -/
def engTrip (s : State) (w : Who) (r : Request) (va : W64) : Eng (State × Response) := do
  let (s, q) ← engOf (trip s { r with ctx := w.ctx, job := w.job, va := va })
  .ok (s, q)

/-- Read; no bytes where the line fails INTEGRITY. -/
def engRead1 (s : State) (w : Who) (ag : Agent) (key : Nat) (va : W64) (n : Nat) :
    Eng (State × Option (List Byte)) := do
  let (s, t) ← engOf (engResolve s w .load va)
  let r : Request := { kind := .read, agent := ag, ctx := w.ctx, place := .spad 0 0, size := n }
  match t with
  | .spad core off =>
    if ag.coreId == some core then
      if spadFree s core w.ctx ag off n then .ok (s, some (spadRead s core w.ctx off n)) else .error (.wait s)
    else do
      let (s, q) ← engTrip s w { r with place := .spad core off } va
      .ok (s, some (leBytes n q.data.toNat))
  | .mem dpa e =>
    match placeOf s dpa with
    | none => .error (.bad s stAccess causeAbsent va)
    | some p => do
      let (s, q) ← engTrip s w { r with place := p, leaf := some e, enc := pteEnc e.pte, key := key } va
      if q.status == .integrity then .ok (s, none)
      else do
        engOf (peerCheck s q.status va)
        .ok (s, some (leBytes n q.data.toNat))
  | _ => .error (.bad s stAccess causeWindow va)

/-- Write: to its core's own scratchpad at its step, elsewhere by request and response. -/
def engWrite1 (s : State) (w : Who) (ag : Agent) (key : Nat) (va : W64) (bs : List Byte) : Eng State := do
  let (s, t) ← engOf (engResolve s w .store va)
  let r : Request := { kind := .write, agent := ag, ctx := w.ctx, place := .spad 0 0, size := bs.length, data := v512 bs }
  match t with
  | .spad core off =>
    if ag.coreId == some core then
      if spadFree s core w.ctx ag off bs.length then .ok (spadWrite s core w.ctx off bs) else .error (.wait s)
    else do
      let (s, _) ← engTrip s w { r with place := .spad core off } va
      .ok s
  | .mem dpa e =>
    if pteEnc e.pte && key = 0 then .error (.bad s stAccess causeEncrypted va)
    else
      match placeOf s dpa with
      | none => .error (.bad s stAccess causeAbsent va)
      | some p => do
        let (s, q) ← engTrip s w { r with place := p, leaf := some e, enc := pteEnc e.pte, key := key } va
        engOf (peerCheck s q.status va)
        .ok s
  | _ => .error (.bad s stAccess causeWindow va)

/-- A payload write of a job: to unencrypted memory of this device, whose line does not refuse it, it is posted; its job
learns a later refusal from the acknowledgement (R118, R158). DEDUCED, assumption 37. -/
def engPost1 (s : State) (w : Who) (ag : Agent) (key : Nat) (va : W64) (bs : List Byte) : Eng State := do
  let (t, x) ← engOf (engResolve s w .store va)
  match x with
  | .mem dpa e =>
    match placeOf t dpa with
    | some (.mem a) =>
      if w.job.isNone || pteEnc e.pte || writeRefused t a bs.length then engWrite1 s w ag key va bs
      else
        let r : Request := { kind := .write, agent := ag, ctx := w.ctx, place := .mem a, size := bs.length, data := v512 bs
                             leaf := some e, va := va, job := w.job, posted := true }
        .ok { t with posts := t.posts ++ [r] }
    | _ => engWrite1 s w ag key va bs
  | _ => engWrite1 s w ag key va bs

/-- Bytes from `va` to the end of its 64-byte word, at most n. -/
def wordPart (va : W64) (n : Nat) : Nat := Nat.min n (64 - va.toNat % 64)

/-- Read n bytes word by word; bytes of failed lines are absent. `fuel` words at most. -/
def engRead (s : State) (w : Who) (ag : Agent) (key : Nat) (va : W64) (n : Nat) :
    Nat → Eng (State × List (Option Byte))
  | 0 => .ok (s, [])
  | fuel + 1 =>
    if n = 0 then .ok (s, [])
    else do
      let k := wordPart va n
      let (s, r) ← engRead1 s w ag key va k
      let here := match r with
        | some bs => bs.map some
        | none => List.replicate k none
      let (s, rest) ← engRead s w ag key (va + BitVec.ofNat 64 k) (n - k) fuel
      .ok (s, here ++ rest)

/-- Words that n bytes may touch. -/
def wordsFor (n : Nat) : Nat := n / 64 + 2

/-- The bytes of a read that has no failed line, as one Nat. -/
def whole (l : List (Option Byte)) : Option Nat :=
  if l.any Option.isNone then none else some (leNat (l.filterMap id))

/-- Read n bytes as a number; a failed line ends the job (R86). -/
def engReadNat (s : State) (w : Who) (ag : Agent) (key : Nat) (va : W64) (n : Nat) : Eng (State × Nat) := do
  let (s, l) ← engRead s w ag key va n (wordsFor n)
  match whole l with
  | some v => .ok (s, v)
  | none => .error (.bad s stIntegrity 0 va)

-- The hazard unit (R152 to R155).

/-- The region of a footprint doubleword (R152). -/
def regionOf (w : W64) : List Region :=
  let count := slice w.toNat 61 48
  let unit := match slice w.toNat 63 62 with
    | 0 => 64 | 1 => 4096 | 2 => 2 ^ 18 | _ => 2 ^ 24
  let va := (if w.getLsbD 47 then 2 ^ 55 else 0) + slice w.toNat 46 0
  if count = 0 then [] else [{ va := va, size := count * unit }]

/-- The 96 bytes of a layout record a job presents (R116). -/
def recordRegion (va : W64) : List Region := [{ va := va56 va, size := 96 }]

def Region.meets (a b : Region) : Bool := a.va < b.va + b.size && b.va < a.va + a.size
def anyMeet (a b : List Region) : Bool := a.any (fun x => b.any (fun y => x.meets y))

/-- An edge of R154 from an earlier job that still holds. -/
def Job.holdsBack (e j : Job) : Bool :=
  anyMeet j.reads e.writes || anyMeet j.writes e.writes || (!e.readsDone && anyMeet j.writes e.reads)

/-- No earlier job holds back a job. -/
def jobFree : List Job → Nat → Bool
  | js, id =>
    match js.find? (fun j => j.id == id) with
    | none => true
    | some j => !(js.takeWhile (fun e => e.id != id)).any (fun e => e.holdsBack j)

def hazardRoom (u : Units) : Bool := u.jobs.length < 32

/-- Add a job to a core's hazard unit. -/
def Units.addJob (u : Units) (e : Engine) (reads writes : List Region) (hart : Nat) (cd : Option CDest) : Units :=
  { u with
    nextJob := u.nextJob + 1
    jobs := u.jobs ++ [{ id := u.nextJob, engine := e, reads := reads, writes := writes, cdest := cd, hart := hart }] }

def Units.endJob (u : Units) (id : Nat) : Units := { u with jobs := u.jobs.filter (fun j => j.id != id) }

/-- A job leaves its core's hazard unit: its segments end, and nothing it asked for is used (R50, R154). -/
def State.endJob (s : State) (core : Nat) (ag : Agent) (id : Nat) : State :=
  let ctx := s.ctxOf core
  let s := ((s.endSegments core ctx id).forsakeJob ag ctx (some id)).forsakeRuns ag ctx
  s.setUnit core ctx ((s.unit core ctx).endJob id)

/-- A push acts as a release of the current hart to its job (R155): what it publishes has left on the core's route,
and the hart's writes and reduce-stores to bytes of a footprint on another device are acknowledged. DEDUCED,
assumption 32. -/
def pushRelease (s : State) (reads writes : List Region) : Act State := do
  barrierWait s (linesOfPeers s)
  inRelease do
    let rs := reads ++ writes
    let fs := if unreleased s || s.outbox.any (fun r => r.mineOut s) then regionFrames s s.myCore s.myCtx rs else []
    let s ← publishAll s (lineMeets s rs fs)
    let hit (r : Request) : Bool :=
      let n := if r.mask = 0 then r.size else 64
      rs.any (fun g => g.hits (va56 r.va) n) || (match r.place with
        | .peer d a => framesHit fs (d * 2 ^ 46 + a) n
        | _ => false)
    waitFor (!s.outbox.any (fun r => r.mineOut s && hit r)) s
    .ok (s.dropCoreAheads s.myCore s.myCtx)

/-- The release of a chain (R344): of every line of the hart, and every earlier store of it. -/
def chainRelease (s : State) : Act State := do
  barrierWait s (linesOfPeers s)
  inRelease do
    let s ← publishAll s (fun _ _ => true)
    waitFor (!coreWrites s && !s.outbox.any (fun r => r.mineOut s)) s
    .ok s

/-- The completion address of a card, checked and translated as the pushing hart's precise check (R313). -/
def pushCword (s : State) (cw : W64) (align : Nat) : Act (Option CDest) :=
  if cw = 0 then .ok none
  else do
    need (cw.toNat % align = 0) s (alignFault cw)
    let w := engineWho s s.myCore
    let t ← resolve s w .store cw
    match t with
    | .spad core off => .ok (some { place := .spad core off, entry := none })
    | .mem dpa e => do
      need (!pteEnc e.pte) s (accessFault causeEncrypted cw)
      match placeOf s dpa with
      | some p => .ok (some { place := p, entry := some e })
      | none => fail s (accessFault causeAbsent cw)
    | _ => fail s (accessFault causeWindow cw)

/-- The payload of a job is over: its destinations and a refusal are taken. -/
def State.payloadOver (s : State) (core ctx job : Nat) : State :=
  s.setUnit core ctx ((s.unit core ctx).modJob job (fun j => { j with dest := {}, refused := none }))

/-- A posted payload write of a job on its way is not performed at a scope: at HART and CORE while it has not left its
core's router or entered its own port's queue, at CLUS and DIE until it is acknowledged (R118, R144). -/
def payloadOut (s : State) (ag : Agent) (core ctx job scope : Nat) : Bool :=
  let mine (r : Request) : Bool := r.agent == ag && r.ctx == ctx && r.job == some job && r.posted && r.kind == .write
  if scope < 2 then s.reqNet.any (fun r => mine r && r.place.router s == core)
  else scope < 4 && (s.inFlight.any mine ||
    s.respNet.any (fun q => q.agent == ag && q.ctx == ctx && q.job == some job && q.posted && q.kind == .write))

/-- The payload of a job is performed at the scope of its completion, at DEV and DOM through flush markers; a posted
write that was refused fails the job (R144, R146, R158, R324). -/
def payloadDone (s : State) (ag : Agent) (core job scope : Nat) : Eng State :=
  let ctx := s.ctxOf core
  match (s.unit core ctx).job job with
  | none => .ok s
  | some j =>
    if payloadOut s ag core ctx job scope then .error (.wait s)
    else do
      let s ← if scope ≥ 4 && j.dest != {} then engOf (flushFor s ag ctx (some job) job j.dest) else .ok s
      match (((s.unit core ctx).job job).map (·.refused)).getD none with
      | some f => .error (engFault s f)
      | none => .ok (if scope ≥ 4 then s.payloadOver core ctx job else s)

/-- Write a completion at its place, after the payload (R158); a refused write is dropped. DEDUCED, assumption 37. -/
def completeAt (s : State) (core : Nat) (ag : Agent) (job : Nat) (cd : Option CDest) (bs : List Byte) : Eng State :=
  match cd with
  | none => .ok s
  | some c =>
    let w := jobWho s core job
    let r : Request := { kind := .write, agent := ag, ctx := w.ctx, place := c.place, size := bs.length, data := v512 bs
                         leaf := c.entry }
    match c.place with
    | .spad k off =>
      if k = core then
        if spadFree s k w.ctx ag off bs.length then .ok (spadWrite s k w.ctx off bs) else .error (.wait s)
      else do
        let (s, _) ← engTrip s w r 0
        .ok s
    | _ => do
      let (s, _) ← engTrip s w r (match c.entry with
        | some e => BitVec.ofNat 64 (e.vpn * pageSize e.big)
        | none => 0)
      .ok s

/-- A whole event of an engine for a job: what it does, or its wait. What a drill processor asked for is forsaken with
its collective. -/
def engineEvent (s : State) (ag : Agent) (job : Option Nat) (r : Eng State) (onXlate : State → TrapInfo → State)
    (onBad : State → Nat → Nat → W64 → State) : Result :=
  let drop (t : State) : State :=
    match if ag.isDrill then none else ag.coreId with
    | some core =>
      let t := t.forsakeJob ag (s.ctxOf core) job
      match job with
      | some id => t.endSegments core (s.ctxOf core) id
      | none => t
    | none => t
  match r with
  | .ok t => .next t.sendPosts
  | .error (.wait t) => .next (retry s t)
  | .error (.xlate t f) => .next (onXlate (drop (retry s t)) f)
  | .error (.bad t c d va) => .next (onBad (drop t.sendPosts) c d va)

end Sys2Proof.Machine
end

