-- ==== Sys2Proof/Machine/Layout.lean ====
section
/-! DEFINITION. Tensor layout records: fields, windows, addresses and checks (R104 to R116). A record is held as the
Nat of its 96 little-endian bytes. -/

namespace Sys2Proof.Machine


def recBase (r : Nat) : Int := toSigned 64 (rf r 0 63 0)
def recTy (r : Nat) : Ty := Ty.ofCode (rf r 1 19 16)
def recKind (r : Nat) : Nat := rf r 1 23 20
/-- The rank n, 1 to 4. -/
def recRank (r : Nat) : Nat := rf r 1 25 24 + 1
def recFillMode (r : Nat) : Nat := rf r 1 27 26
def recBlock (r : Nat) : Nat := rf r 1 39 32
def recSkew (r : Nat) : Nat := rf r 1 47 40
def recKey (r : Nat) : Nat := rf r 1 15 0
def recAux (r : Nat) : Nat := rf r 11 31 0
def recFill (r : Nat) : Nat := rf r 10 63 0
def recExt (r k : Nat) : Nat := rf r (2 + k / 2) (32 * (k % 2) + 31) (32 * (k % 2))
def recStride (r k : Nat) : Int := toSigned 48 (rf r (3 + k) 47 0)
def recWin (r k : Nat) : Nat := rf r 7 (16 * k + 15) (16 * k)
def recOrg (r k : Nat) : Int := toSigned 32 (rf r (8 + k / 2) (32 * (k % 2) + 31) (32 * (k % 2)))

/-- Bits of an element (R105). -/
def elemBits (t : Ty) : Nat := t.width

/-- The kinds a type accepts (R105). -/
def kindOk (t : Ty) (kind : Nat) : Bool :=
  match t with
  | .i64 | .n64 | .i32 | .n32 | .fp32 | .pod8 => kind == 0
  | .i16 | .n16 | .bf16 | .fp16 | .b1 => kind == 0 || kind == 1
  | .i8 | .n8 | .e2m1 => kind ≤ 2
  | .e4m3 | .e5m2 => kind == 0 || kind == 2

/-- Planes P in kind 1 (R105). -/
def planesOf (t : Ty) : Nat :=
  match t with
  | .i16 | .n16 => 16
  | .bf16 | .fp16 => 9
  | .e2m1 => 4
  | .b1 => 1
  | _ => 8

-- Windows (R106).

/-- Positions of a window. -/
def winCount (r : Nat) : Nat := (List.range (recRank r)).foldl (fun n k => n * recWin r k) 1

/-- The tuple of a position in window order. -/
def winPos (r p : Nat) : List Nat :=
  ((List.range (recRank r)).foldl
    (fun (acc : List Nat × Nat) k => (acc.1 ++ [acc.2 % recWin r k], acc.2 / recWin r k)) ([], p)).1

/-- The element index of a position tuple. -/
def elemIndex (r : Nat) (j : List Nat) : List Int := (indexed j).map (fun p => recOrg r p.1 + p.2)

def indexIn (r : Nat) (i : List Int) : Bool := (indexed i).all (fun p => 0 ≤ p.2 && p.2 < recExt r p.1)

def clampIndex (r : Nat) (i : List Int) : List Int :=
  (indexed i).map (fun (p : Nat × Int) => clampInt 0 ((recExt r p.1 : Int) - 1) p.2)

def idx (i : List Int) (k : Nat) : Int := (i[k]?).getD 0

-- Addresses (R106, R109, R111 to R113).

/-- Bytes of n elements along dimension 0. -/
def rowBytes (t : Ty) (n : Nat) : Nat := n * elemBits t / 8

/-- The stride a record uses, derived where a destination has skew (R111). -/
def useStride (r : Nat) (dest : Bool) (k : Nat) : Int :=
  if dest && recSkew r != 0 then
    let s1 := (rowBytes (recTy r) (recExt r 0) + 63) / 64 * 64 + 64 * recSkew r
    match k with
    | 1 => s1
    | 2 => s1 * recExt r 1
    | _ => s1 * recExt r 1 * recExt r 2
  else recStride r k

/-- BASE plus the strided dimensions 1 and up: the row address of R112 and of dense rows. -/
def rowAddr (r : Nat) (dest : Bool) (i : List Int) : Int :=
  (List.range (recRank r)).foldl (fun a k => if k = 0 then a else a + idx i k * useStride r dest k) (recBase r)

/-- The byte of an element that begins in it, of kind 0 or 2. -/
def elemAddr (r : Nat) (dest : Bool) (i : List Int) : Int :=
  rowAddr r dest i + idx i 0 * elemBits (recTy r) / 8

/-- The scale byte of an element of kind 2 (R113). -/
def scaleAddr (r : Nat) (i : List Int) : Int :=
  let nb : Int := (recExt r 0 + 2 ^ recBlock r - 1) / 2 ^ recBlock r
  let e (k : Nat) : Int := if k < recRank r then recExt r k else 1
  recBase r + recAux r + ((idx i 3 * e 2 + idx i 2) * e 1 + idx i 1) * nb + idx i 0 / (2 ^ recBlock r : Nat)

def vaOf (a : Int) : W64 := BitVec.ofInt 64 a

-- Checks (R114, R115).

/-- A condition with its doubleword and bit. -/
def chk (c : Bool) (dw bit : Nat) : List (Nat × Nat) := if c then [(dw, bit)] else []

/-- Lowest set bit of a value whose reserved bits are given as (hi, lo) ranges. -/
def reservedSet (r d : Nat) (ranges : List (Nat × Nat)) : List (Nat × Nat) :=
  ranges.flatMap (fun p => ((List.range (p.1 - p.2 + 1)).filterMap (fun i =>
    if rf r d (p.2 + i) (p.2 + i) = 1 then some (d, p.2 + i) else none)))

/-- The report of R115: the lowest doubleword, and in it the lowest bit. -/
def lowestReport (l : List (Nat × Nat)) : Option (Nat × Nat) :=
  l.foldl (fun best p =>
    match best with
    | none => some p
    | some b => if p.1 < b.1 || (p.1 == b.1 && p.2 < b.2) then some p else some b) none

/-- What dimensions beyond the rank hold. -/
def beyondRank (r : Nat) : List (Nat × Nat) :=
  ((List.range 4).filter (fun k => recRank r ≤ k)).flatMap (fun k =>
    chk (recExt r k != 0) (2 + k / 2) (32 * (k % 2)) ++
    (if k = 0 then [] else chk (rf r (3 + k) 47 0 != 0) (3 + k) 0) ++
    chk (recWin r k != 0) 7 (16 * k) ++
    chk (recOrg r k != 0) (8 + k / 2) (32 * (k % 2)))

/-- E0, O0 and W0 break R109, R112 or R113. -/
def dimZero (r : Nat) : List (Nat × Nat) :=
  let t := recTy r
  let unit : Nat := if t = .e2m1 then 2 else if t = .b1 then 8 else 1
  let packed := recKind r != 1
  chk ((packed && recExt r 0 % unit != 0) || (recKind r == 1 && recExt r 0 > 256) ||
       (recKind r == 1 && recExt r 0 % unit != 0)) 2 0 ++
  chk (recOrg r 0 % unit != 0 || (recKind r == 1 && recOrg r 0 % 8 != 0) ||
       (recKind r == 2 && recOrg r 0 % (2 ^ recBlock r : Nat) != 0)) 8 0 ++
  chk (recWin r 0 % unit != 0 || (recKind r == 1 && recWin r 0 % 8 != 0)) 7 0

/-- The conditions of R114 on one record. DEDUCED, assumption 35. -/
def recChecks (r : Nat) : List (Nat × Nat) :=
  let t := recTy r
  let kind := recKind r
  let size := Nat.max 1 (elemBits t / 8)
  chk (kind ≥ 3) 1 20 ++ chk (recFillMode r == 3) 1 26 ++ chk (recBlock r < 4 || recBlock r > 6) 1 32 ++
  chk (recSkew r ≥ 32 || (recSkew r != 0 && kind == 1)) 1 40 ++ chk (kind ≤ 2 && !kindOk t kind) 1 16 ++
  reservedSet r 1 [(31, 28), (63, 48)] ++ reservedSet r 4 [(63, 48)] ++ reservedSet r 5 [(63, 48)] ++
  reservedSet r 6 [(63, 48)] ++ reservedSet r 11 [(63, 32)] ++ beyondRank r ++
  ((List.range (recRank r)).flatMap (fun k =>
    if k = 0 then [] else chk (recStride r k % (if kind = 1 then 32 else size : Nat) != 0) (3 + k) 0)) ++
  dimZero r ++
  chk ((kind == 0 && recAux r != 0) || (kind == 1 && (recAux r == 0 || recAux r % 32 != 0))) 11 0

/-- The destination's windows differ from the source's (R110). -/
def winDiffers (src dst : Nat) : List (Nat × Nat) :=
  match (List.range 4).find? (fun k => recWin src k != recWin dst k) with
  | some k => [(7, 16 * k)]
  | none => []

-- The checks of R108.

def baseMisaligned (r : Nat) : Bool :=
  let a : Nat := if recKind r = 1 then 32 else Nat.max 1 (elemBits (recTy r) / 8)
  recBase r % a != 0

/-- The indices of dimension k that window positions reach: in range, or clamped where the record clamps. A k-block
index shifts the origin of dimension 1 (R317). -/
def reach (r : Nat) (clamped : Bool) (shift : Int) (k : Nat) : Option (Int × Int) :=
  let lo := recOrg r k + (if k = 1 then shift else 0)
  let hi := lo + recWin r k - 1
  let top : Int := (recExt r k : Int) - 1
  if recWin r k = 0 || top < 0 then none
  else if clamped then some (clampInt 0 top lo, clampInt 0 top hi)
  else
    let a := max lo 0
    let b := min hi top
    if a ≤ b then some (a, b) else none

def inHalves (a b : Int) : Bool :=
  (0 ≤ a && b < (2 ^ 55 : Nat)) || (-(2 ^ 55 : Nat) ≤ a && b < 0)

/-- The lowest and the highest address of the reached elements lie in one canonical half (R108 step 2): in kind 1 of the
bytes of the P planes; scale bytes are left out. DESIGN CHOICE, assumption 64. -/
def rangeBad (r : Nat) (dest : Bool) (shift : Int := 0) : Bool :=
  let clamped := recFillMode r == 1 && !dest
  let spans := (List.range (recRank r)).map (reach r clamped shift)
  if spans.any Option.isNone || winCount r = 0 then false
  else
    let s : List (Int × Int) := spans.filterMap id
    let t := recTy r
    let ends (k : Nat) (p : Int × Int) : Int × Int :=
      if k = 0 then
        (if recKind r = 1 then (p.1 / 8, p.2 / 8 + (planesOf t - 1) * recAux r)
         else (p.1 * elemBits t / 8, p.2 * elemBits t / 8))
      else
        let x := p.1 * useStride r dest k
        let y := p.2 * useStride r dest k
        (min x y, max x y)
    let es := (indexed s).map (fun p => ends p.1 p.2)
    let lo := es.foldl (fun a p => a + p.1) (recBase r)
    let hi := es.foldl (fun a p => a + p.2) (recBase r)
    let last : Int := hi + (Nat.max 1 (if recKind r = 1 then 1 else elemBits t / 8) : Nat) - 1
    !(inHalves lo hi && inHalves lo last)

/-- The refusal of R108 over the records presented, source first: a status code and detail.
DEDUCED, assumption 35. -/
def addressRefusal (recs : List (Nat × Bool)) : Option (Nat × Nat) :=
  if recs.any (fun p => baseMisaligned p.1) then some (stAlign, 0)
  else if recs.any (fun p => rangeBad p.1 p.2) then some (stAccess, causeNoncanonical)
  else none

/-- The refusal of R108 for one row of a GATHER's source, whose dimension 1 starts `shift` further (R339). -/
def rowRefusal (row : Nat) (shift : Int) : Option (Nat × Nat) :=
  if baseMisaligned row then some (stAlign, 0)
  else if rangeBad row false shift then some (stAccess, causeNoncanonical)
  else none

-- Fill and elements (R107).

/-- What an out-of-range position of a source delivers: a fixed pattern, or the clamped element. -/
inductive FillIs where
  | pattern (v : Nat)
  | clamp (i : List Int)
  deriving DecidableEq, Repr

def fillOf (r : Nat) (i : List Int) : FillIs :=
  match recFillMode r with
  | 0 => .pattern (recFill r % 2 ^ elemBits (recTy r))
  | 1 =>
    if (List.range (recRank r)).any (fun k => recExt r k = 0) then .pattern 0 else .clamp (clampIndex r i)
  | _ => .pattern 0

/-- Read one element of kind 0 or 2; none where its line failed. -/
def readElem (s : State) (w : Who) (ag : Agent) (r : Nat) (i : List Int) : Eng (State × Option Nat) := do
  let b := elemBits (recTy r)
  let (s, l) ← engRead s w ag (recKey r) (vaOf (elemAddr r false i)) (Nat.max 1 (b / 8)) 2
  match whole l with
  | none => .ok (s, none)
  | some v => .ok (s, some (if b ≥ 8 then v else v / 2 ^ ((idx i 0).toNat * b % 8) % 2 ^ b))

/-- The element that a window position of a dense source delivers. -/
def windowElem (s : State) (w : Who) (ag : Agent) (r : Nat) (i : List Int) : Eng (State × Option Nat) :=
  if indexIn r i then readElem s w ag r i
  else
    match fillOf r i with
    | .pattern v => .ok (s, some v)
    | .clamp c => readElem s w ag r c

/-- Read n bytes word by word, up to what stops the engine. -/
def readRun (s : State) (w : Who) (ag : Agent) (key : Nat) (va : W64) (n : Nat) :
    Nat → State × List (Option Byte) × Option EStop
  | 0 => (s, [], none)
  | fuel + 1 =>
    if n = 0 then (s, [], none)
    else
      let k := wordPart va n
      match engRead1 s w ag key va k with
      | .error e => (s, [], some e)
      | .ok (s1, r) =>
        let here := match r with
          | some bs => bs.map some
          | none => List.replicate k none
        let (s2, rest, e) := readRun s1 w ag key (va + BitVec.ofNat 64 k) (n - k) fuel
        (s2, here ++ rest, e)

/-- Elements of a type from the bytes that hold them; an incomplete last element is left out. -/
def elemsOf (t : Ty) : Nat → List (Option Byte) → List (Option Nat)
  | 0, _ => []
  | n + 1, bs =>
    let b := elemBits t
    if b ≥ 8 then
      if bs.length < b / 8 then []
      else whole (bs.take (b / 8)) :: elemsOf t n (bs.drop (b / 8))
    else
      match bs with
      | [] => []
      | o :: rest =>
        ((List.range (8 / b)).map (fun i => o.map (fun v => v.toNat / 2 ^ (i * b) % 2 ^ b))) ++ elemsOf t n rest

/-- Deliver elements one by one, up to what stops the engine. -/
def deliverEach (s : State) (f : State → Nat → Eng (State × Option Nat)) :
    List Nat → State × List (Option Nat) × Option EStop
  | [] => (s, [], none)
  | p :: ps =>
    match f s p with
    | .error e => (s, [], some e)
    | .ok (s1, v) =>
      let (s2, vs, e) := deliverEach s1 f ps
      (s2, v :: vs, e)

/-- The elements that n consecutive positions of a row of a dense source deliver, from the index `i` on; the in-range
ones are read word by word. What stops the engine comes after those delivered. -/
def rowElems (s : State) (w : Who) (ag : Agent) (r : Nat) (i : List Int) (n : Nat) :
    State × List (Option Nat) × Option EStop :=
  let at_ (p : Nat) : List Int := (idx i 0 + p) :: i.drop 1
  let one (s : State) (p : Nat) : Eng (State × Option Nat) := windowElem s w ag r (at_ p)
  let rowIn := indexIn r (0 :: i.drop 1)
  let a := Nat.min n (if rowIn then (-(idx i 0)).toNat else n)
  let b := Nat.max a (Nat.min n (if rowIn then ((recExt r 0 : Int) - idx i 0).toNat else n))
  let (s1, v1, e1) := deliverEach s one (List.range a)
  match e1 with
  | some e => (s1, v1, some e)
  | none =>
    let t := recTy r
    let (s2, bs, e2) := if a < b then
        readRun s1 w ag (recKey r) (vaOf (elemAddr r false (at_ a))) (rowBytes t (b - a)) (wordsFor (rowBytes t (b - a)))
      else (s1, [], none)
    let v2 := elemsOf t (b - a) bs
    match e2 with
    | some e => (s2, v1 ++ v2, some e)
    | none =>
      let (s3, v3, e3) := deliverEach s2 one ((List.range (n - b)).map (fun p => b + p))
      (s3, v1 ++ v2 ++ v3, e3)

/-- Read a layout record: an eager engine read under handle 0 (R116). -/
def readRecord (s : State) (w : Who) (ag : Agent) (va : W64) : Eng (State × Nat) := engReadNat s w ag 0 va 96

end Sys2Proof.Machine
end

