-- ==== Sys2Proof/Machine/Table.lean ====
section
/-! DEFINITION. KV block tables, their operations, and stream records (R443 to R460). -/

namespace Sys2Proof.Machine

-- Deciding an operation: reads see the writes decided before them, and the effects are collected in the order of the
-- pseudocode (R446).

/-- How far an operation's decision has come: the state, the unit's table run, the bytes decided, what it sends to another
table's unit, and the first address to be written that cannot be, which is found after every read (R446). -/
structure TabSt where
  s : State
  run : TableRun
  w : Who
  ag : Agent
  view : List (Place × List Byte) := []
  sub : Option (TabOp × W64 × Place) := none
  late : Option EStop := none

/-- Why an operation stops before its effects are issued. -/
abbrev TabM (α : Type) := TabSt → Except EStop (α × TabSt)

def TabM.pure {α : Type} (a : α) : TabM α := fun t => .ok (a, t)
def TabM.bind {α β : Type} (x : TabM α) (g : α → TabM β) : TabM β := fun t =>
  match x t with
  | .ok (a, t1) => g a t1
  | .error e => .error e

/-- Where a target lies, with its leaf. -/
def Target.placed (s : State) : Target → Option (Place × Option TlbEntry)
  | .spad core off => some (.spad core off, none)
  | .mem dpa e => (placeOf s dpa).map (fun p => (p, some e))
  | _ => none

/-- How far a place lies past the start of another. -/
def Place.past (a b : Place) : Int :=
  match a, b with
  | .mem x, .mem y => (x : Int) - y
  | .spad c x, .spad d y => if c = d then (x : Int) - y else -1000
  | .peer c x, .peer d y => if c = d then (x : Int) - y else -1000
  | _, _ => -1000

/-- Bytes read at a place, with a write of the operation over them. -/
def overlayAt (at_ : Place) (bs : List Byte) (v : Place × List Byte) : List Byte :=
  (indexed bs).map (fun p =>
    let k := at_.past v.1 + p.1
    if 0 ≤ k then (v.2[k.toNat]?).getD p.2 else p.2)

/-- Read an n-byte field. -/
def rdTab (va : W64) (n : Nat) : TabM Nat := fun t =>
  match engReadNat t.s t.w t.ag 0 va n with
  | .error e => .error e
  | .ok (s, v) =>
    match (engOf (resolve s t.w .load va)).map (fun x => x.placed s) with
    | .ok (some (p, _)) => .ok (leNat (t.view.foldl (overlayAt p) (leBytes n v)), { t with s := s })
    | _ => .ok (v, { t with s := s })

def TableRun.addLeaf (r : TableRun) (e : Option TlbEntry) : TableRun :=
  match e with
  | some e => if r.leaves.contains e then r else { r with leaves := r.leaves ++ [e] }
  | none => r

/-- A write cannot be placed: the operation ends so once it has read all it needs (R446). -/
def lateTab (e : EStop) : TabM (Place × Option TlbEntry) := fun t =>
  .ok ((.port 0, none), { t with late := t.late.or (some e) })

/-- The place of an address the operation will write (step 2 of R446): W needed, ENC refused. -/
def placeTab (va : W64) : TabM (Place × Option TlbEntry) := fun t =>
  match engOf (resolve t.s t.w .store va) with
  | .error (.wait s) => .error (.wait s)
  | .error e => lateTab e t
  | .ok x =>
    match x, x.placed t.s with
    | .mem _ e, some p =>
      if pteEnc e.pte then lateTab (.bad t.s stAccess causeEncrypted va) t
      else
        match (fabricRefusal t.s p.1 t.w.ctx).bind (fun st => peerFault st va) with
        | some f => lateTab (engFault t.s f) t
        | none => .ok (p, { t with run := t.run.addLeaf p.2 })
    | .spad _ _, some p => .ok (p, t)
    | .mem _ _, none => lateTab (.bad t.s stAccess causeAbsent va) t
    | _, _ => lateTab (.bad t.s stAccess causeWindow va) t

def emit (a : TabAct) : TabM Unit := fun t => .ok ((), { t with run := { t.run with acts := t.run.acts ++ [a] } })

/-- Later reads of the operation see bytes at a place. -/
def seen (p : Place) (bs : List Byte) : TabM Unit := fun t => .ok ((), { t with view := t.view ++ [(p, bs)] })

/-- A write of bytes that lie in one 64-byte word. -/
def wrTab (va : W64) (bs : List Byte) : TabM Unit := TabM.bind (placeTab va) fun p =>
  TabM.bind (emit (.write va p.1 p.2 bs)) fun _ => seen p.1 bs

def wrNat (va : W64) (n v : Nat) : TabM Unit := wrTab va (leBytes n v)

/-- A status that ends the operation before its effects. -/
def badTab {α : Type} (code detail : Nat) (va : W64) : TabM α := fun t => .error (.bad t.s code detail va)

def forTab (g : Nat → TabM Nat) : List Nat → TabM Nat
  | [] => TabM.pure 0
  | j :: js => TabM.bind (g j) fun a => TabM.bind (forTab g js) fun b => TabM.pure (a + b)

def plus (va : W64) (n : Nat) : W64 := va + BitVec.ofNat 64 n

-- The header (R443).

structure Header where
  t : W64
  r : Nat

def Header.dw (h : Header) (k : Nat) : W64 := BitVec.ofNat 64 (rf0 h.r k)
where rf0 (r k : Nat) : Nat := slice r (64 * k + 63) (64 * k)
def Header.bits (h : Header) (d hi lo : Nat) : Nat := slice h.r (64 * d + hi) (64 * d + lo)
def Header.npage (h : Header) : Nat := h.bits 1 31 0
def Header.nblk (h : Header) : Nat := h.bits 1 63 32
def Header.edge (h : Header) : Nat := (h.dw 2).toNat
def Header.flog (h : Header) : Nat := h.bits 6 12 8
def Header.rlog (h : Header) : Nat := h.bits 6 20 16
def Header.dlog (h : Header) : Nat := h.bits 6 4 0

/-- Address of a page, a reference count, an entry and a shadow entry. -/
def Header.page (h : Header) (i : Nat) : W64 := plus (h.dw 0) (4096 * i)
def Header.ref (h : Header) (i : Nat) : W64 := plus (h.dw 3) (4 * i)
def Header.entry (h : Header) (j : Nat) : W64 := plus h.t (128 + 32 * j)
def Header.shadow (h : Header) (j : Nat) : W64 := plus (h.dw 4) (32 * j)

/-- Conditions with their doubleword and lowest bit. -/
def cond (c : Bool) (dw bit : Nat) : List (Nat × Nat) := if c then [(dw, bit)] else []

/-- The malformed headers of R460: the first reserved bit or field out of range. -/
def Header.malformed (h : Header) : Option (Nat × Nat) :=
  (cond (h.bits 0 11 0 != 0) 0 0 ++ cond (h.npage = 0 || h.npage > 2 ^ 24) 1 0 ++
    cond (h.nblk = 0 || h.nblk > 2 ^ 20) 1 32 ++ cond (h.bits 3 1 0 != 0) 3 0 ++ cond (h.bits 4 4 0 != 0) 4 0 ++
    cond (h.bits 5 3 0 != 0) 5 0 ++ cond (h.dw 5 != 0 && (h.dlog < 4 || h.dlog > 24)) 6 0 ++
    cond (h.bits 6 7 5 != 0) 6 5 ++ cond (h.flog > 20) 6 8 ++ cond (h.bits 6 15 13 != 0) 6 13 ++
    cond (h.rlog > 20) 6 16 ++ cond (h.bits 6 63 21 != 0) 6 21 ++ cond (h.bits 7 1 0 != 0) 7 0 ++
    cond (h.bits 10 1 0 != 0) 10 0 ++ cond (h.dw 13 != 0) 13 0 ++ cond (h.dw 14 != 0) 14 0 ++
    cond (h.dw 15 != 0) 15 0).head?

/-- A reserved field as a status: the doubleword and the bit in one number. -/
def reservedDetail (p : Nat × Nat) : Nat := p.1 * 64 + p.2

/-- Read and check a table's header. -/
def headerAt (t : W64) : TabM Header := TabM.bind (rdTab t 128) fun r =>
  let h : Header := { t := t, r := r }
  match h.malformed with
  | some p => badTab stReserved (reservedDetail p) t
  | none => fun st => .ok (h, { st with run := { st.run with table := t, header := r } })

-- Entries and references (R444, R445).

structure Entry where
  pages : List Nat
  surv : Nat
  valid : Bool

def entryOf (r : Nat) : Entry :=
  { pages := (List.range 4).map (fun k => slice r (32 * k + 31) (32 * k))
    surv := slice r 191 128
    valid := bitOf r 192 }

def rdEntry (va : W64) : TabM Entry := TabM.bind (rdTab va 32) fun r => TabM.pure (entryOf r)

/-- The return ring of a table, translated where the operation has not used it before. -/
def ringTab (h : Header) : TabM RetRing := fun t =>
  match t.run.ring with
  | some g => .ok (g, t)
  | none => (TabM.bind (placeTab (plus h.t 88)) fun p => TabM.bind (placeTab (plus h.t 96)) fun c =>
      TabM.pure ({ base := h.dw 10, size := 2 ^ h.rlog, prod := (h.dw 11).toNat, prodAt := p.1, consAt := c.1, leaf := p.2 } :
        RetRing)) t

/-- Keep the place of the entry that the next push will write (R445, R446). -/
def slotTab (h : Header) : TabM Unit := TabM.bind (ringTab h) fun g =>
  TabM.bind (placeTab (plus g.base (4 * ((g.prod + g.slots.length) % g.size)))) fun p t =>
    .ok ((), { t with run := { t.run with ring := some { g with slots := g.slots ++ [p] } } })

/-- Put a page on the return ring (R445). -/
def pushPage (h : Header) (pg : Nat) : TabM Unit := TabM.bind (slotTab h) fun _ => emit (.push pg)

/-- Release a reference (R445). -/
def releasePage (h : Header) (pg : Nat) : TabM Unit :=
  if pg = 0 || pg > h.npage then TabM.pure ()
  else TabM.bind (rdTab (h.ref pg) 4) fun c =>
    if c = 0 then TabM.pure ()
    else TabM.bind (placeTab (h.ref pg)) fun p => TabM.bind (if c = 1 then slotTab h else TabM.pure ()) fun _ =>
      TabM.bind (emit (.release pg (h.ref pg) p.1 p.2)) fun _ => seen p.1 (leBytes 4 (c - 1))

/-- A page gains a reference (R451, R454). -/
def addRef (h : Header) (pg : Nat) : TabM Unit :=
  TabM.bind (rdTab (h.ref pg) 4) fun c => TabM.bind (placeTab (h.ref pg)) fun p =>
    TabM.bind (emit (.add (h.ref pg) p.1 p.2)) fun _ => seen p.1 (leBytes 4 (c + 1))

/-- Release each nonzero page of a valid entry, and count them. -/
def releaseEntry (h : Header) (e : Entry) : TabM Nat :=
  if e.valid then
    forTab (fun pg => if pg = 0 then TabM.pure 0 else TabM.bind (releasePage h pg) fun _ => TabM.pure 1) e.pages
  else TabM.pure 0

/-- Release and zero an entry that is VALID (R450, R452). -/
def freeEntry (h : Header) (va : W64) : TabM Nat :=
  TabM.bind (rdEntry va) fun e =>
    if e.valid then TabM.bind (releaseEntry h e) fun n => TabM.bind (wrNat va 32 0) fun _ => TabM.pure n
    else TabM.pure 0

/-- Discard a shadow entry: release its pages when it is VALID, and zero it (R451). -/
def discard (h : Header) (va : W64) : TabM Nat :=
  TabM.bind (rdEntry va) fun e => TabM.bind (releaseEntry h e) fun n =>
  TabM.bind (wrNat va 32 0) fun _ => TabM.pure n

-- kvmap (R448).

/-- The number of survivors below bit b. -/
def rankOf (surv b : Nat) : Nat := ((List.range b).filter (fun i => bitOf surv i)).length

/-- Copy the 4 KiB of one page to another, word by word. -/
def copyPage (src dst : W64) : List Nat → TabM Unit
  | [] => TabM.pure ()
  | i :: is => TabM.bind (rdTab (plus src (64 * i)) 64) fun v =>
      TabM.bind (wrNat (plus dst (64 * i)) 64 v) fun _ => copyPage src dst is

/-- A copy whose source fails INTEGRITY: FCONS has moved, f goes to the return ring, nothing else changes, and the
operation ends with the fault; a write of it that cannot be placed ends it before (R446, R448). -/
def orReturn (x : TabM Unit) (h : Header) (f : Nat) (go : TabM W64) : TabM W64 := fun t =>
  match x t with
  | .ok (_, t1) => go t1
  | .error (.bad _ 5 _ va) =>
    match TabM.bind (placeTab (h.page f)) (fun _ => go) t with
    | .error e => .error e
    | .ok (_, t1) => (TabM.bind (pushPage h f) fun _ t =>
        .ok (0, { t with run := { t.run with fault := some { code := .integrity, va := va } } })) { t with late := t1.late }
  | .error e => .error e

/-- The mapping of R448. -/
def kvMap (h : Header) (p var : Nat) : TabM W64 :=
  if p ≥ h.nblk * 64 || p < h.edge then TabM.pure 0
  else
    let ea := h.entry (p / 64)
    let b := p % 64
    TabM.bind (rdEntry ea) fun e =>
    let k := rankOf e.surv b
    let pg := (e.pages[k / 16]?).getD 0
    let slot (pg : Nat) : W64 := plus (h.page pg) (256 * (k % 16))
    if !e.valid || (var = 0 && !bitOf e.surv b) || pg = 0 || pg > h.npage then TabM.pure 0
    else if var != 2 then TabM.pure (slot pg)
    else TabM.bind (rdTab (h.ref pg) 4) fun c =>
      if c ≤ 1 then TabM.pure (slot pg)
      else if h.dw 8 = h.dw 9 then TabM.pure 1
      else
        let fcons := (h.dw 9).toNat
        TabM.bind (rdTab (plus (h.dw 7) (4 * (fcons % 2 ^ h.flog))) 4) fun f =>
        TabM.bind (wrNat (plus h.t 72) 8 (fcons + 1)) fun _ =>
        if f = 0 || f > h.npage then TabM.pure 2
        else TabM.bind (rdTab (h.ref f) 4) fun rfc =>
          if rfc != 0 then TabM.pure 2
          else orReturn (copyPage (h.page pg) (h.page f) (List.range 64)) h f
            (TabM.bind (wrNat (h.ref f) 4 1) fun _ => TabM.bind (wrNat (plus ea (4 * (k / 16))) 4 f) fun _ =>
              TabM.bind (releasePage h pg) fun _ => TabM.pure (slot f))

-- kvwin, kvswap, kvtrunc (R450 to R452).

/-- kvwin (R450). -/
def kvWin (h : Header) (b : Nat) : TabM W64 :=
  let edge := Nat.max h.edge b
  TabM.bind (if b > h.edge then wrNat (plus h.t 16) 8 b else TabM.pure ()) fun _ =>
  TabM.bind (forTab (fun j => TabM.bind (freeEntry h (h.entry j)) fun _ =>
    if h.dw 4 = 0 then TabM.pure 0 else freeEntry h (h.shadow j)) (List.range (Nat.min h.nblk (edge / 64)))) fun _ =>
  TabM.pure (BitVec.ofNat 64 edge)

/-- Each page field from 1 to NPAGE of a forked entry gains a reference (R451). -/
def addRefs (h : Header) (e : Entry) : TabM Nat :=
  forTab (fun pg =>
    if pg = 0 || pg > h.npage then TabM.pure 0
    else TabM.bind (addRef h pg) fun _ => TabM.pure 0) e.pages

/-- kvswap (R451). -/
def kvSwap (h : Header) (j var : Nat) : TabM W64 :=
  if h.dw 4 = 0 || j ≥ h.nblk then TabM.pure 1
  else
    let ea := h.entry j
    let sa := h.shadow j
    match var with
    | 0 => TabM.bind (discard h sa) fun _ => TabM.bind (rdTab ea 32) fun r =>
        TabM.bind (wrNat sa 32 r) fun _ =>
        TabM.bind (if (entryOf r).valid then addRefs h (entryOf r) else TabM.pure 0) fun _ => TabM.pure 0
    | 1 => TabM.bind (rdTab sa 32) fun x =>
        if !(entryOf x).valid then TabM.pure 2
        else TabM.bind (rdTab ea 32) fun y => TabM.bind (wrNat ea 32 x) fun _ =>
          TabM.bind (wrNat sa 32 y) fun _ => TabM.bind (discard h sa) fun _ => TabM.pure 0
    | _ => TabM.bind (rdEntry sa) fun x =>
        if !x.valid then TabM.pure 2 else TabM.bind (discard h sa) fun _ => TabM.pure 0

/-- kvtrunc (R452): the count of pages released from live entries. -/
def kvTrunc (h : Header) (t : Nat) : TabM W64 :=
  TabM.bind (forTab (fun j =>
    TabM.bind (if 64 * j ≥ t then freeEntry h (h.entry j)
      else TabM.bind (rdEntry (h.entry j)) fun e =>
        TabM.bind (wrNat (plus (h.entry j) 16) 8 (e.surv % 2 ^ (t % 64))) fun _ => TabM.pure 0) fun n =>
    if h.dw 4 = 0 then TabM.pure n
    else TabM.bind (freeEntry h (h.shadow j)) fun _ => TabM.pure n)
    (((List.range h.nblk).drop (t / 64)))) fun n => TabM.pure (BitVec.ofNat 64 n)

/-- Share (R454): page field r of entry j, p, goes to page q. -/
def kvShare (h : Header) (j r p q : Nat) : TabM W64 :=
  TabM.bind (rdEntry (h.entry j)) fun e =>
  TabM.bind (if q = 0 || q > h.npage then TabM.pure 0 else rdTab (h.ref q) 4) fun c =>
    if (e.pages[r]?).getD 0 = p && e.valid && c ≥ 1 then
      TabM.bind (addRef h q) fun _ => TabM.bind (wrNat (plus (h.entry j) (4 * r)) 4 q) fun _ =>
        TabM.bind (releasePage h p) fun _ => TabM.pure 1
    else TabM.pure 0

-- Streams (R456 to R458).

structure Stream where
  a : W64
  r : Nat

def Stream.dw (x : Stream) (k : Nat) : Nat := slice x.r (64 * k + 63) (64 * k)
def Stream.bits (x : Stream) (d hi lo : Nat) : Nat := slice x.r (64 * d + hi) (64 * d + lo)
def Stream.seq (x : Stream) : Nat := x.bits 2 31 0
def Stream.nhart (x : Stream) : Nat := x.bits 2 44 32
def Stream.ckn (x : Stream) : Nat := x.bits 6 35 32
def Stream.toklog (x : Stream) : Nat := x.bits 6 52 48
def Stream.ckpos (x : Stream) (i : Nat) : Nat := x.dw (8 + i)

/-- The malformed records of R456. -/
def Stream.malformed (x : Stream) : Option (Nat × Nat) :=
  (cond (x.nhart > 4351) 2 32 ++ cond (x.bits 2 63 46 != 0) 2 46 ++ cond (x.bits 6 31 0 % 64 != 0) 6 0 ++
    cond (x.ckn > 8) 6 32 ++ cond (x.bits 6 47 36 != 0) 6 36 ++ cond (x.toklog > 24) 6 48 ++
    cond (x.bits 6 63 53 != 0) 6 53).head?

def streamAt (a : W64) : TabM Stream := TabM.bind (rdTab a 128) fun r =>
  let x : Stream := { a := a, r := r }
  match x.malformed with
  | some p => badTab stReserved (reservedDetail p) a
  | none => TabM.pure x

/-- CasInsert: the slot takes its new contents where it still holds what the probe read (R454). -/
def casInsert (at_ : W64) (d new : Nat) : TabM W64 :=
  TabM.bind (rdTab at_ 16) fun now =>
    if now = d then TabM.bind (wrNat at_ 16 new) fun _ => TabM.pure 1 else TabM.pure 0

/-- The checks of R460 on an address that a table or a record has. -/
def tableAt (s : State) (w : Who) (va : W64) : Act Place := do
  need (va.toNat % 128 = 0) s (alignFault va)
  need (canonical va) s (accessFault causeNoncanonical va)
  need (!va.getLsbD 55) s (accessFault causeWindow va)
  let t ← resolve s w .atomic va
  match t with
  | .mem dpa e => do
    need (!pteEnc e.pte) s (accessFault causeEncrypted va)
    match placeOf s dpa with
    | some p => .ok p
    | none => fail s (accessFault causeAbsent va)
  | _ => fail s (accessFault causeWindow va)

/-- The table of a stream, checked as the operand of an instruction is (R460). -/
def Stream.table (x : Stream) : W64 := BitVec.ofNat 64 (x.dw 4)
def placeTable (x : Stream) : TabM Place := fun t =>
  match engOf (tableAt t.s t.w x.table) with
  | .ok p => .ok (p, t)
  | .error e => .error e

/-- The status that stands for LATE_FRAME. -/
def stLate : Nat := 100

/-- A status as a fault of the issuing hart. -/
def tabFault (code detail : Nat) (va : W64) : TrapInfo :=
  if code = stReserved then { code := .reservedField, cause := detail / 64, auxb := detail % 64, va := va }
  else if code = stAlign then alignFault va
  else if code = stIntegrity then integrityFault va
  else if code = stFabric then { code := .fabricIntegrity, va := va }
  else if code = stLate then { code := .lateFrame, va := va }
  else accessFault detail va

/-- An operation goes from the record's unit to the table's, after the decision; a table that cannot be reached fails it
there (R457, R458). DEDUCED, assumption 36. -/
def sendOp (x : Stream) (op : TabOp) : TabM Unit := fun t =>
  match placeTable x t with
  | .ok (p, t) => .ok ((), { t with sub := some (op, x.table, p) })
  | .error (.wait s) => .error (.wait s)
  | .error (.xlate _ f) => .ok ((), { t with run := { t.run with fault := some f } })
  | .error (.bad _ c d va) => .ok ((), { t with run := { t.run with fault := some (tabFault c d va) } })

/-- The largest checkpoint at or below T, the lowest index on ties (R457). -/
def bestCkpt (x : Stream) (t : Nat) : Option Nat :=
  ((List.range x.ckn).filter (fun i => x.ckpos i ≤ t)).foldl (fun best i =>
    match best with
    | none => some i
    | some b => if x.ckpos i > x.ckpos b then some i else some b) none

/-- stframe (R457): the two values it returns. -/
def stFrame (a : W64) (stamp ctx : Nat) : TabM (List W64) :=
  TabM.bind (streamAt a) fun x =>
  let g := x.dw 0
  let pb := x.dw 1
  let t := Nat.max stamp pb
  if stamp + x.dw 3 < pb then badTab stLate 0 a
  else
    TabM.bind (wrNat (plus a 16) 4 (x.seq + 1)) fun _ => TabM.bind (wrNat a 8 (Nat.min g t)) fun _ =>
    TabM.bind (if x.bits 2 45 45 = 1 then emit (.note x.nhart ctx) else TabM.pure ()) fun _ =>
    TabM.bind (forTab (fun i =>
      if x.ckpos i > t && x.ckpos i != 2 ^ 64 - 1 then
        TabM.bind (wrNat (plus a (64 + 8 * i)) 8 (2 ^ 64 - 1)) fun _ => TabM.pure 0
      else TabM.pure 0) (List.range x.ckn)) fun _ =>
    TabM.bind (sendOp x (.trunc t)) fun _ =>
    let region : W64 := match bestCkpt x t with
      | none => 0
      | some i => BitVec.ofNat 64 (x.dw 7 + i * x.bits 6 31 0)
    TabM.pure [region, BitVec.ofNat 64 t]

/-- stadv.gen (R458). -/
def stGen (a : W64) (b : W64) : TabM (List W64) :=
  TabM.bind (streamAt a) fun x =>
  if slice b.toNat 63 32 != x.seq then TabM.pure [BitVec.allOnes 64]
  else
    let g := x.dw 0
    TabM.bind (placeTable x) fun _ => TabM.bind (headerAt x.table) fun h =>
    if g / 64 ≥ h.nblk then TabM.pure [BitVec.allOnes 64 - 1]
    else TabM.bind (rdEntry (h.entry (g / 64))) fun e =>
      if !e.valid then TabM.pure [BitVec.allOnes 64 - 1]
      else
        TabM.bind (sendOp x (.survive g)) fun _ =>
        TabM.bind (if x.dw 5 = 0 then TabM.pure ()
          else wrNat (BitVec.ofNat 64 (x.dw 5 + 4 * (g % 2 ^ x.toklog))) 4 (b.toNat % 2 ^ 32)) fun _ =>
        TabM.bind (wrNat a 8 (g + 1)) fun _ => TabM.pure [BitVec.ofNat 64 g]

/-- The survivor bit of a position (R458). -/
def surviveBit (h : Header) (g : Nat) : TabM W64 :=
  TabM.bind (rdEntry (h.entry (g / 64))) fun e =>
  let surv := if bitOf e.surv (g % 64) then e.surv else e.surv + 2 ^ (g % 64)
  TabM.bind (wrNat (plus (h.entry (g / 64)) 16) 8 surv) fun _ => TabM.pure 0

/-- stadv.play (R458). -/
def stPlay (a : W64) (b : W64) : TabM (List W64) :=
  TabM.bind (streamAt a) fun x =>
  let pb := Nat.min (Nat.max (x.dw 1) b.toNat) (x.dw 0)
  TabM.bind (wrNat (plus a 8) 8 pb) fun _ => TabM.pure [BitVec.ofNat 64 pb]

/-- What an operation at a VA decides: its results. -/
def TabOp.decide (va : W64) (ctx : Nat) (op : TabOp) : TabM (List W64) :=
  let onTable (g : Header → TabM W64) : TabM (List W64) :=
    TabM.bind (headerAt va) fun h => TabM.bind (g h) fun v => TabM.pure [v]
  match op with
  | .map p var => onTable (fun h => kvMap h p var)
  | .win b => onTable (fun h => kvWin h b)
  | .swap j var => onTable (fun h => kvSwap h j var)
  | .trunc t => onTable (fun h => kvTrunc h t)
  | .share j r p q => onTable (fun h => kvShare h j r p q)
  | .insert at_ d new => TabM.bind (casInsert at_ d new) fun v => TabM.pure [v]
  | .frame stamp => stFrame va stamp ctx
  | .gen b => stGen va b
  | .play b => stPlay va b
  | .survive g => onTable (fun h => surviveBit h g)

-- Performing effects (R445, R446).

/-- Set line 5 of a hart in a context, where its core holds the context (R456). -/
def noteLine (s : State) (hid ctx : Nat) : State :=
  if isSup hid then raiseIn s hid sysCtx 5
  else if granted s (coreOf hid) ctx then raiseIn s hid ctx 5 else s

/-- A table unit as one number: that of a memory port or tier controller of this device (0) or of a peer (one more than
its number). -/
def unitNumber (device port : Nat) : Nat := device * 2 ^ 20 + port

/-- The table unit of a place: its memory port or tier controller (R446), a peer's as its address gives it on a whole
part. DESIGN CHOICE, assumption 65. -/
def unitOfPlace (s : State) (p : Place) : Nat :=
  match p with
  | .mem a => unitNumber 0 (portOf s (channelOf s a))
  | .peer d a => unitNumber (d + 1) (if a < 2 ^ 40 then a / 2 ^ 30 else 1024)
  | _ => 0

/-- What stops a unit, as a wait or a fault of its operation's agent. -/
def EStop.asFault {α : Type} (e : EStop) : Act α :=
  match e with
  | .wait s => hold s
  | .xlate s f => fail s f
  | .bad s code detail va => fail s (tabFault code detail va)

/-- A request of a table unit for its operation. -/
def TableRun.asks (r : TableRun) (u : Nat) (k : ReqKind) (va : W64) (p : Place) (n : Nat) (leaf : Option TlbEntry) :
    Request :=
  { kind := k, agent := .table u, ctx := r.ctx, place := p, size := n, leaf := leaf, va := va }

/-- An eager write of a table unit leaves: all are waited for, and a refusal is the operation's fault (R446). -/
def TableRun.sends (r : TableRun) (u : Nat) (s : State) (va : W64) (p : Place) (leaf : Option TlbEntry)
    (bs : List Byte) : State :=
  s.sendReq { r.asks u .write va p bs.length leaf with data := v512 bs, posted := true }

/-- An access of an operation's effects was refused: that is the operation's fault (R446). -/
def TableRun.fails (r : TableRun) (f : Option TrapInfo) : TableRun := { r with fault := r.fault.or f }

/-- Who translates for an operation: an engine of the issuing core (R446). -/
def TableRun.who (r : TableRun) : Who := { core := r.core, ctx := r.ctx, hart := false, supS := false }

/-- The place of the ring entry that a push writes. DEDUCED, assumption 36. -/
def RetRing.next (g : RetRing) (s : State) (w : Who) : Act (Option (Place × Option TlbEntry)) :=
  match g.slots with
  | p :: _ => .ok (some p)
  | [] =>
    match resolve s w .store (plus g.base (4 * (g.prod % g.size))) with
    | .ok t => .ok (t.placed s)
    | .error (.wait s) => .error (.wait s)
    | .error (.fault _ _) => .ok none

/-- A count that others lowered meanwhile reached 0: the return ring is translated now (R445). DEDUCED, assumption 36. -/
def TableRun.findRing (r : TableRun) (s : State) (u : Nat) : Act (State × TableRun) :=
  match slotTab { t := r.table, r := r.header } { s := s, run := r, w := r.who, ag := .table u } with
  | .ok (_, t) =>
    match t.late with
    | none => .ok (t.s, t.run)
    | some e => e.asFault
  | .error e => e.asFault

/-- Perform the next effect of an operation: what it then stands at, and whether it goes on at once.
DEDUCED, assumption 36. -/
def actStep (s : State) (u : Nat) (r : TableRun) : State × TableRun × Bool :=
  match r.acts with
  | [] => (s, r, false)
  | a :: as =>
    let r1 := { r with acts := as }
    match a with
    | .write va p e bs => if s.fabricWaits p then (s, r, false) else (r.sends u s va p e bs, r1, true)
    | .add va p e =>
      if s.fabricWaits p then (s, r, false)
      else (s.sendReq { r.asks u .atomic va p 4 e with data := 1, op := .add, ty := .n32, posted := true }, r1, true)
    | .note hid c => (noteLine s hid c, r1, true)
    | .release pg va p e =>
      match trip s { r.asks u .atomic va p 4 e with op := .dec, ty := .n32 } with
      | .ok (t, q) =>
        (t, if q.status == .ok && q.data.toNat % 2 ^ 32 = 1 then { r with acts := .push pg :: as }
          else r1.fails (peerFault q.status va), true)
      | .error (.wait t) => (t, r, false)
      | .error (.fault t f) => (t, r1.fails (some f), true)
    | .push pg =>
      match r.ring with
      | none =>
        match r.findRing s u with
        | .error (.wait t) => (t, r, false)
        | .error (.fault t f) => (t, r1.fails (some f), true)
        | .ok (t, r) => (t, r, true)
      | some g =>
        let consVa := plus r.table 96
        match trip s (r.asks u .read consVa g.consAt 8 g.leaf) with
        | .error (.wait t) => (t, r, false)
        | .error (.fault t f) => (t, r1.fails (some f), true)
        | .ok (t, q) =>
          if q.status != .ok then (t, r1.fails (peerFault q.status consVa), true)
          else if (g.prod + 2 ^ 64 - q.data.toNat % 2 ^ 64) % 2 ^ 64 ≥ g.size then (t, r, false)
          else if t.fabricWaits g.prodAt then (t, r, false)
          else
            let slotVa := plus g.base (4 * (g.prod % g.size))
            match g.next t r.who with
            | .error (.wait t) => (t, r, false)
            | .error (.fault t f) => (t, r1.fails (some f), true)
            | .ok none => (t, r1.fails (some (accessFault causeAbsent slotVa)), true)
            | .ok (some p) =>
              let n := (g.prod + 1) % 2 ^ 64
              let t := r.sends u (r.sends u t slotVa p.1 p.2 (leBytes 4 pg)) (plus r.table 88) g.prodAt g.leaf (leBytes 8 n)
              (t, { r1 with ring := some { g with prod := n, slots := g.slots.drop 1 } }, true)

/-- Perform effects in order, up to one that must wait. -/
def runActs (s : State) (u : Nat) (r : TableRun) : Nat → State × TableRun
  | 0 => (s, r)
  | fuel + 1 =>
    match actStep s u r with
    | (s, r, true) => runActs s u r fuel
    | (s, r, false) => (s, r)

/-- A write of a unit is not performed and acknowledged yet. -/
def unitWrites (s : State) (u : Nat) : Bool :=
  (s.inFlight ++ s.outbox).any (fun r => r.agent == .table u) || s.respNet.any (fun q => q.agent == .table u)

/-- The operation that a unit has under way, the oldest. -/
def State.unitRun (s : State) (u : Nat) : Option TableRun := s.tableOps.find? (fun r => r.unit == some u)

/-- The operation at a unit changes. -/
def State.setUnitRun (s : State) (u : Nat) (r : TableRun) : State :=
  { s with tableOps := s.tableOps.map (fun q => if s.unitRun u == some q then r else q) }

/-- A unit's operation is over: its result waits for its agent, if any takes it. -/
def endRun (s : State) (u : Nat) (r : TableRun) : State :=
  let t := s.setUnitRun u { r with unit := none, acts := [], ring := none, leaves := [] }
  let t := t.forsake (fun a _ _ _ _ _ => a == .table u)
  { t with tableOps := t.tableOps.filter (fun q => q.unit.isSome || q.agent.isSome) }

/-- The operation of a stop before the decision: it has written nothing (R446). -/
def failRun (s : State) (u : Nat) (r : TableRun) (f : TrapInfo) : State :=
  endRun s u { r with decided := true, fault := some f }

/-- A unit reads, translates and decides (R446): its operation's effects, and what goes to another unit.
DEDUCED, assumption 36. -/
def decideRun (s : State) (u : Nat) (r : TableRun) : State :=
  let decided : Except EStop (List W64 × TabSt) := match r.op.decide r.va r.ctx { s := s, run := r, w := r.who, ag := .table u } with
    | .error e => .error e
    | .ok (vals, t) =>
      match t.late with
      | some e => .error e
      | none => .ok (vals, t)
  match decided with
  | .error (.wait t) => retry s t
  | .error (.xlate t f) => failRun t u r f
  | .error (.bad t code detail va) => failRun t u r (tabFault code detail va)
  | .ok (vals, t) =>
    let s1 := t.s.setUnitRun u { t.run with decided := true, vals := vals }
    match t.sub with
    | none => s1
    | some (op, va, p) =>
      { s1 with tableOps := s1.tableOps ++
          [{ unit := some (unitOfPlace s p), agent := r.agent, core := r.core, ctx := r.ctx, va := va, op := op }] }

/-- An operation for a peer's unit goes to it by request and response (R446). DESIGN CHOICE, assumption 22. -/
def peerRun (s : State) (u : Nat) (r : TableRun) : State :=
  let answer : Act (State × Response) := do
    let p ← tableAt s r.who r.va
    trip s (r.asks u .atomic r.va p 128 none)
  match answer with
  | .error (.wait t) => t
  | .error (.fault t f) => failRun t u r f
  | .ok (t, q) =>
    match peerFault q.status r.va with
    | some f => failRun t u r f
    | none => endRun t u { r with decided := true, vals := (List.range 2).map (dwordOf q.data) }

/-- TABLE_OPERATION (R446): a unit goes on with its operation; the next begins when every write of it is performed. -/
def execTableOperation (device port : Nat) (s : State) : Result :=
  let u := unitNumber device port
  match s.unitRun u with
  | none => .next s
  | some r =>
    if u ≥ 2 ^ 20 then .next (peerRun s u r)
    else if !r.decided then .next (decideRun s u r)
    else
      let (t, r1) := runActs s u r (2 * r.acts.length + 1)
      if r1.acts.isEmpty && !unitWrites t u then .next (endRun t u r1) else .next (t.setUnitRun u r1)

-- The agents that send operations.

/-- What an operation has come to for its agent: it waits, or it is over with its results or its fault. -/
inductive TabEnd where
  | waits (s : State)
  | done (s : State) (vals : List W64) (fault : Option TrapInfo)

/-- An agent's operation: sent when its unit is free, then waited for (R446). DEDUCED, assumption 31. -/
def tableOp (s : State) (w : Who) (ag : Agent) (at_ : Place) (va : W64) (op : TabOp) : TabEnd :=
  match s.runsOf ag w.ctx with
  | [] =>
    let u := unitOfPlace s at_
    if (s.unitRun u).isSome then .waits s
    else .waits { s with tableOps := s.tableOps ++
      [{ unit := some u, agent := some ag, core := w.core, ctx := w.ctx, va := va, op := op }] }
  | r :: rs =>
    if (r :: rs).all (fun r => r.unit.isNone) then
      .done (s.forsakeRuns ag w.ctx) r.vals ((r :: rs).filterMap (·.fault)).head?
    else .waits s

-- Instructions (R446, R447, R460).

/-- A table operation of the current hart: release, operation, acquire. A wait for a busy unit has performed nothing
(R177). -/
def tableAct (s : State) (va : W64) (op : TabOp) : Act (State × List W64) := do
  let ag : Agent := .hart s.cur
  let w := engineWho s s.myCore
  let s ← if (s.runsOf ag s.myCtx).isEmpty then do
      let _ ← tableAt s s.iAm va
      release s 4
    else .ok s
  let at_ : Place ← if (s.runsOf ag s.myCtx).isEmpty then tableAt s s.iAm va else .ok (.port 0)
  match tableOp s w ag at_ va op with
  | .waits t => if (t.runsOf ag t.myCtx).isEmpty then hold (t.modMe (fun h => { h with inRel := false })) else hold t
  | .done t _ (some f) => fail t f
  | .done t vals none => .ok (acquire t, vals)

/-- An instruction over one table or record, with one result. -/
def tableInstr (f : Fmt) (s : State) (op : W64 → TabOp) : Result :=
  scalarRun f s do
    let b ← src64 s f.b f.imm
    dstReady s f.d
    let (s, vals) ← tableAct s (xval s f.a) (op b)
    put64 f s (vals.headD 0)

def execKvmap (f : Fmt) (s : State) : Result := tableInstr f s (fun b => .map b.toNat 0)
def execKvmapApp (f : Fmt) (s : State) : Result := tableInstr f s (fun b => .map b.toNat 1)
def execKvmapWr (f : Fmt) (s : State) : Result := tableInstr f s (fun b => .map b.toNat 2)
def execKvswapFork (f : Fmt) (s : State) : Result := tableInstr f s (fun b => .swap b.toNat 0)
def execKvswapAccept (f : Fmt) (s : State) : Result := tableInstr f s (fun b => .swap b.toNat 1)
def execKvswapReject (f : Fmt) (s : State) : Result := tableInstr f s (fun b => .swap b.toNat 2)
def execKvtrunc (f : Fmt) (s : State) : Result := tableInstr f s (fun b => .trunc b.toNat)
def execKvwin (f : Fmt) (s : State) : Result := tableInstr f s (fun b => .win b.toNat)

/-- The register after an even one. -/
def nextReg (o : Operand) : Operand :=
  match o with
  | .x r => .x (Fin.ofNat 32 (r.val + 1))
  | o => o

/-- stframe (R457). -/
def execStframe (f : Fmt) (s : State) : Result :=
  scalarRun f s do
    let b ← src64 s f.b f.imm
    let (s, vals) ← tableAct s (xval s f.a) (.frame b.toNat)
    let s := s.modMe (fun h => h.lastUse f)
    let s ← dst64 s f.d (dword0 vals 0)
    let s ← dst64 s (nextReg f.d) (dword0 vals 1)
    .ok (s.modMe Hart.advance)
where dword0 (l : List W64) (i : Nat) : W64 := (l[i]?).getD 0

def execStadvGen (f : Fmt) (s : State) : Result := tableInstr f s .gen
def execStadvPlay (f : Fmt) (s : State) : Result := tableInstr f s .play

end Sys2Proof.Machine
end

