-- ==== Sys2Proof/Machine/CopyWork.lean ====
section
/-! DEFINITION. The copy engine's units of work: the checks of a transfer record and its layout records, and one unit
of each operation (R336 to R342, R454, R455). -/

namespace Sys2Proof.Machine

-- The transfer record (R336). A record is held as its 64 bytes.

def xferOp (w : V512) : Nat := rf w.toNat 1 7 4
def xferScope (w : V512) : Nat := rf w.toNat 1 15 12
def xferOwned (w : V512) : Bool := rf w.toNat 1 0 0 == 1
def xferTag (w : V512) : Nat := rf w.toNat 1 63 32
def xferNext (w : V512) : Nat := rf w.toNat 0 63 0
def xferSrec (w : V512) : W64 := dwordOf w 2
def xferDrec (w : V512) : W64 := dwordOf w 3
def xferCword (w : V512) : W64 := dwordOf w 6
def xferCvalue (w : V512) : W64 := dwordOf w 7

/-- The operation presents a source record, or a destination record (R338). -/
def hasSrc (op : Nat) : Bool := op == 0 || op == 2 || op == 3 || op == 4 || op == 6 || op == 7
def hasDst (op : Nat) : Bool := op ≤ 4 || op == 7

/-- What the transfer record itself can fail (R337, R453, R455). -/
def xferChecks (w : V512) (pushed : Bool) : List (Nat × Nat) :=
  let r := w.toNat
  let op := xferOp w
  reservedSet r 1 [(11, 8), (3, 1)] ++ chk (op ≥ 8) 1 4 ++ chk (xferScope w > 5) 1 12 ++
    chk (pushed && !xferOwned w) 1 0 ++ chk (op = 1 && xferSrec w != 0) 2 0 ++
    chk ((xferCword w).toNat % 8 != 0) 6 0 ++
    (if op = 5 then
      chk (xferSrec w = 0 || (xferSrec w).toNat % 128 != 0) 2 0 ++ chk (rf r 3 47 32 = 0) 3 32 ++
        reservedSet r 3 [(63, 48)]
    else if op = 6 then chk (xferDrec w = 0 || (xferDrec w).toNat % 128 != 0) 3 0 else [])

/-- The types that PLANE and UNPLANE take (R338). -/
def planeTy (t : Ty) : Bool :=
  match t with
  | .i16 | .i8 | .n16 | .n8 | .bf16 | .fp16 | .e2m1 | .b1 => true
  | _ => false

/-- The conditions an operation adds on its source record (R338, R455). -/
def srcConds (op r : Nat) : List (Nat × Nat) :=
  chk (recKind r != (if op = 3 then 1 else 0)) 1 20 ++
    (match op with
     | 2 => chk (!planeTy (recTy r)) 1 16
     | 4 => chk (recTy r != .n64) 1 16 ++ chk (recRank r != 1) 1 24 ++ chk (recWin r 0 % 512 != 0) 7 0
     | 6 => chk (recRank r != 2) 1 24 ++ chk (recWin r 0 * elemBits (recTy r) != 2048) 7 0
     | 7 => chk (recRank r != 2) 1 24 ++ chk (recFillMode r != 2) 1 26
     | _ => [])

/-- The conditions an operation adds on its destination record (R338, R110). -/
def dstConds (op src r : Nat) : List (Nat × Nat) :=
  chk (recKind r != (if op = 2 then 1 else 0)) 1 20 ++
    (match op with
     | 0 | 7 => chk (elemBits (recTy r) != elemBits (recTy src)) 1 16 ++ winDiffers src r
     | 2 | 3 => chk (recTy r != recTy src) 1 16 ++ winDiffers src r
     | 4 => chk (recTy r != .n64) 1 16 ++ chk (recRank r != 1) 1 24 ++ chk (recWin r 0 * 512 != recWin src 0) 7 0
     | _ => []) ++
    (if op = 7 then chk (recRank r != 2) 1 24 else [])

/-- A STATUS (R346). -/
def xferStatus (code which dw detail : Nat) : Nat := code * 2 ^ 12 + which * 2 ^ 10 + dw * 2 ^ 6 + detail % 2 ^ 6
def reservedXfer (which : Nat) (p : Nat × Nat) : Nat := xferStatus stReserved which p.1 p.2

/-- The list of a GATHER (R339). DEDUCED, assumption 37. -/
def gatherList (r : Nat) : Nat := rf r 10 63 0

/-- The refusal of R108 and then of R97 for the records presented. A GATHER's source has no BASE; its list must be
8-byte aligned. -/
def addressStatus (s : State) (ctx op src dst : Nat) : Option Nat :=
  let recs : List (Nat × Bool) :=
    (if hasSrc op && op != 7 then [(src, false)] else []) ++ (if hasDst op then [(dst, true)] else [])
  if op = 7 && gatherList src % 8 != 0 then some (xferStatus stAlign 0 0 0)
  else
    match addressRefusal recs with
    | some p => some (xferStatus p.1 0 0 p.2)
    | none =>
      if (hasSrc op && !keyOk s ctx (recKey src)) || (hasDst op && !keyOk s ctx (recKey dst)) then
        some (xferStatus stKey 0 0 0)
      else none

-- What is still to be written (R345).

/-- The lowest address of the in-range positions of a box of window indices, one interval a dimension. -/
def boxLow (r : Nat) (box : List (Nat × Nat)) : Option Int :=
  let spans := (indexed box).map (fun p =>
    let lo := max (recOrg r p.1 + p.2.1) 0
    let hi := min (recOrg r p.1 + p.2.2) ((recExt r p.1 : Int) - 1)
    if p.2.2 < p.2.1 || hi < lo then none
    else if p.1 = 0 then some (if recKind r = 1 then lo / 8 else lo * elemBits (recTy r) / 8)
    else some (min (lo * useStride r true p.1) (hi * useStride r true p.1)))
  if spans.any Option.isNone then none else some ((spans.filterMap id).foldl (· + ·) (recBase r))

/-- The boxes of the positions from p on: the rest of the row, then the later rows of each dimension. -/
def restBoxes (r p : Nat) : List (List (Nat × Nat)) :=
  let j := winPos r p
  let n := recRank r
  let full (k : Nat) : Nat × Nat := (0, recWin r k - 1)
  (List.range n).map (fun k =>
    (List.range n).map (fun d =>
      if d < k then full d
      else if d = k then ((j[d]?).getD 0 + (if k = 0 then 0 else 1), recWin r d - 1)
      else ((j[d]?).getD 0, (j[d]?).getD 0)))

def lowOf (l : List Int) : Option Int :=
  l.foldl (fun b x => match b with
    | none => some x
    | some y => some (min x y)) none

/-- The lowest address that the positions from p on still write. -/
def remainingLow (r p : Nat) : Option Int :=
  if p ≥ winCount r then none else lowOf ((restBoxes r p).filterMap (boxLow r))

-- Writes.

/-- Write the present bytes of a run, maximal run by maximal run; the Bool tells of a line that refused its part. -/
def writeRuns (s : State) (w : Who) (ag : Agent) (key : Nat) (va : W64) (l : List (Option Byte)) :
    Nat → Eng (State × Bool)
  | 0 => .ok (s, false)
  | fuel + 1 =>
    match l with
    | [] => .ok (s, false)
    | none :: t =>
      let k := (t.takeWhile Option.isNone).length + 1
      writeRuns s w ag key (va + BitVec.ofNat 64 k) (l.drop k) fuel
    | some _ :: t =>
      let k := Nat.min ((t.takeWhile Option.isSome).length + 1) (wordPart va 64)
      let rest (s : State) : Eng (State × Bool) := writeRuns s w ag key (va + BitVec.ofNat 64 k) (l.drop k) fuel
      match engPost1 s w ag key va ((l.take k).filterMap id) with
      | .ok s1 => rest s1
      | .error (.bad s1 c d va1) =>
        if c = stIntegrity then do
          let (s2, _) ← rest s1
          .ok (s2, true)
        else .error (.bad s1 c d va1)
      | .error e => .error e

/-- Elements as the bytes that hold them. -/
def packElems (t : Ty) : Nat → List (Option Nat) → List (Option Byte)
  | 0, _ => []
  | fuel + 1, l =>
    let b := elemBits t
    match l with
    | [] => []
    | o :: rest =>
      if b ≥ 8 then
        (match o with
         | some v => (leBytes (b / 8) v).map some
         | none => List.replicate (b / 8) none) ++ packElems t fuel rest
      else
        let k := 8 / b
        let here := l.take k
        (if here.any Option.isNone then none
         else some (BitVec.ofNat 8 ((here.filterMap id).reverse.foldl (fun a v => a * 2 ^ b + v % 2 ^ b) 0))) ::
          packElems t fuel (l.drop k)

-- Units of work. A unit answers the machine and the run after it.

abbrev Unit_ := Eng (State × CopyRun)

/-- The part of a destination row that starts at position p: positions to skip because they are out of range, and
then in-range positions. -/
def rowPart (dst p : Nat) : Nat × Nat :=
  let j := winPos dst p
  let i := elemIndex dst j
  let left := recWin dst 0 - (j[0]?).getD 0
  if !indexIn dst (0 :: i.drop 1) then (left, 0)
  else
    let i0 := idx i 0
    let skip := Nat.min left (-i0).toNat
    let inside := Nat.min (left - skip) ((recExt dst 0 : Int) - (i0 + skip)).toNat
    if inside = 0 then (left, 0) else (skip, inside)

/-- Elements of a dense destination from position p to the end of its 64-byte word. -/
def toWordEnd (dst : Nat) (i : List Int) : Nat :=
  (64 - (vaOf (elemAddr dst true i)).toNat % 64) * 8 / elemBits (recTy dst)

/-- Write delivered elements at position p of a dense destination, in one 64-byte word. -/
def putElems (s : State) (w : Who) (ag : Agent) (r : CopyRun) (p : Nat) (es : List (Option Nat)) : Unit_ := do
  let i := elemIndex r.dst (winPos r.dst p)
  let bytes := packElems (recTy r.dst) es.length es
  let (s, bad) ← writeRuns s w ag (recKey r.dst) (vaOf (elemAddr r.dst true i)) bytes 128
  .ok (s, { r with pos := p + es.length, hurt := r.hurt || bad || es.any Option.isNone })

/-- One unit of an operation that moves elements into a dense destination: `deliver` gives what n source positions of
one row deliver, up to what stops the engine. -/
def denseUnit (s : State) (w : Who) (ag : Agent) (r : CopyRun)
    (deliver : State → Nat → Nat → State × List (Option Nat) × Option EStop) : Unit_ :=
  let (skip, inside) := rowPart r.dst r.pos
  if inside = 0 then .ok (s, { r with pos := r.pos + skip })
  else
    let p := r.pos + skip
    let n := Nat.min inside (toWordEnd r.dst (elemIndex r.dst (winPos r.dst p)))
    match deliver s p n with
    | (_, _, some (.wait t)) => .error (.wait t)
    | (_, [], some e) => .error e
    | (s1, es, _) => putElems s1 w ag r p es

/-- COPY (R339). -/
def copyUnit (s : State) (w : Who) (ag : Agent) (r : CopyRun) : Unit_ :=
  denseUnit s w ag r (fun s p n => rowElems s w ag r.src (elemIndex r.src (winPos r.src p)) n)

/-- FILL (R339). -/
def fillUnit (s : State) (w : Who) (ag : Agent) (r : CopyRun) : Unit_ :=
  denseUnit s w ag r (fun s _ n => (s, List.replicate n (some (recFill r.dst % 2 ^ elemBits (recTy r.dst))), none))

/-- The GATHER source as one row at a list entry. -/
def gatherRow (r entry : Nat) : Nat :=
  let r1 := setSlice (setSlice r 63 0 entry) (64 * 4 + 47) (64 * 4) 0
  setSlice r1 (64 * 7 + 31) (64 * 7 + 16) 1

/-- What stands for a list entry whose line failed INTEGRITY. -/
def noEntry : Nat := 2 ^ 64

/-- Read and check the list entry of a GATHER's row; where its line fails, the row's positions are not written (R108,
R339, R347). -/
def gatherEntry (s : State) (w : Who) (ag : Agent) (r : CopyRun) (j1 : Nat) : Unit_ := do
  let (s, l) ← engRead s w ag 0 (BitVec.ofNat 64 (gatherList r.src + 8 * j1)) 8 2
  match whole l with
  | none => .ok (s, { r with acc := [j1, noEntry], hurt := true })
  | some e =>
    match (if e = 0 then none else rowRefusal (gatherRow r.src e) j1) with
    | some p => .error (.bad s p.1 p.2 (BitVec.ofNat 64 e))
    | none => .ok (s, { r with acc := [j1, e] })

/-- GATHER: a row's list entry is read and checked once, then the row is copied or filled with zeros (R339). -/
def gatherUnit (s : State) (w : Who) (ag : Agent) (r : CopyRun) : Unit_ :=
  let j := winPos r.dst r.pos
  let j1 := j[1]?.getD 0
  match r.acc with
  | [row, entry] =>
    if row != j1 then .ok (s, { r with acc := [] })
    else if entry = noEntry then .ok (s, { r with pos := r.pos + (recWin r.dst 0 - j[0]?.getD 0) })
    else
      denseUnit s w ag r (fun s p n =>
        if entry = 0 then (s, List.replicate n (some 0), none)
        else rowElems s w ag (gatherRow r.src entry) (elemIndex r.src (winPos r.src p)) n)
  | _ => gatherEntry s w ag r j1

-- PLANE (R340).

/-- Positions that share a plane byte or, for scaled types, a block. -/
def groupLog (dst : Nat) : Nat :=
  match recTy dst with
  | .bf16 | .fp16 | .e2m1 => recBlock dst
  | _ => 3

def scaledTy (t : Ty) : Bool := t == .bf16 || t == .fp16 || t == .e2m1

/-- Bit-plane integers of a block, and its scale byte. -/
def planeInts (t : Ty) (xs : List Nat) : Nat × List Nat :=
  match t with
  | .e2m1 =>
    let (b, m) := mantissaBlock t 125 7 xs
    (b, m.map (wrapInt 4))
  | .bf16 | .fp16 =>
    let (b, m) := mantissaBlock t 120 255 xs
    (b, m.map (wrapInt 9))
  | _ => (0, xs)

/-- The bytes of one plane over integers, eight a byte. -/
def planeBytes (q : Nat) : Nat → List Nat → List Byte
  | 0, _ => []
  | fuel + 1, l =>
    if l.isEmpty then []
    else BitVec.ofNat 8 (((l.take 8).reverse).foldl (fun a v => 2 * a + (bitOf v q).toNat) 0) ::
      planeBytes q fuel (l.drop 8)

/-- The byte of plane q that holds an index of a kind 1 record. -/
def planeAddr (r : Nat) (dest : Bool) (i : List Int) (q : Nat) : Int :=
  rowAddr r dest i + q * recAux r + idx i 0 / 8

def scaleAt (r : Nat) (dest : Bool) (i : List Int) : Int :=
  rowAddr r dest i + planesOf (recTy r) * recAux r + idx i 0 / (2 ^ recBlock r : Nat)

/-- Write the planes of a group; the positions that failed keep their former bits. -/
def putPlanes (s : State) (w : Who) (ag : Agent) (dst : Nat) (i : List Int) (ints : List (Option Nat)) :
    List Nat → Eng (State × Bool)
  | [] => .ok (s, false)
  | q :: qs => do
    let va := vaOf (planeAddr dst true i q)
    let n := (ints.length + 7) / 8
    let new := planeBytes q n (ints.map (fun o => o.getD 0))
    let failed := planeBytes 0 n (ints.map (fun o => if o.isNone then 1 else 0))
    let (s, bs) ← if ints.all Option.isSome then (.ok (s, new.map some) : Eng (State × List (Option Byte)))
      else do
        let (s, old) ← engRead s w ag (recKey dst) va n 2
        .ok (s, (new.zip (failed.zip old)).map (fun p => p.2.2.map (fun o => p.1 ||| (o &&& p.2.1))))
    let (s, b1) ← writeRuns s w ag (recKey dst) va bs 8
    let (s, b2) ← putPlanes s w ag dst i ints qs
    .ok (s, b1 || b2 || bs.any Option.isNone)

/-- The positions of a group that are delivered, with the bits of the others of their plane bytes kept: of an element
type without scale, those before what stops the engine (R348). -/
def putGroup (s : State) (w : Who) (ag : Agent) (r : CopyRun) (p n : Nat) (es : List (Option Nat)) : Unit_ := do
  let i := elemIndex r.dst (winPos r.dst p)
  let lead := (idx i 0).toNat % 8
  let at_ := (idx i 0 - lead) :: i.drop 1
  let ints := List.replicate lead none ++ es ++ List.replicate (n - es.length) none
  let (s, bad) ← putPlanes s w ag r.dst at_ ints (List.range (planesOf (recTy r.dst)))
  .ok (s, { r with pos := p + es.length, hurt := r.hurt || bad || es.any Option.isNone })

/-- PLANE: one group of positions. A block that takes one scale is delivered whole. DEDUCED, assumption 37. -/
def planeUnit (s : State) (w : Who) (ag : Agent) (r : CopyRun) : Unit_ := do
  let (skip, inside) := rowPart r.dst r.pos
  if inside = 0 then .ok (s, { r with pos := r.pos + skip })
  else do
    let p := r.pos + skip
    let i := elemIndex r.dst (winPos r.dst p)
    let g := 2 ^ groupLog r.dst
    let n := Nat.min inside (g - (idx i 0).toNat % g)
    let t := recTy r.dst
    match rowElems s w ag r.src (elemIndex r.src (winPos r.src p)) n with
    | (_, _, some (.wait t)) => .error (.wait t)
    | (s1, es, some e) => if scaledTy t || es.isEmpty then .error e else putGroup s1 w ag r p n es
    | (s, es, none) =>
      if scaledTy t then
        let next := { r with pos := p + n, hurt := r.hurt || es.any Option.isNone }
        if es.any Option.isNone then .ok (s, next)
        else do
          let (b, ints) := planeInts t (es.filterMap id)
          let (s, bad) ← putPlanes s w ag r.dst i (ints.map some) (List.range (planesOf t))
          let (s, bad1) ← writeRuns s w ag (recKey r.dst) (vaOf (scaleAt r.dst true i)) [some (BitVec.ofNat 8 b)] 2
          .ok (s, { next with hurt := next.hurt || bad || bad1 })
      else putGroup s w ag r p n es

-- UNPLANE (R341, R112).

/-- The element that planes and a scale byte give. -/
def unplaneElem (t : Ty) (b v : Nat) : Nat :=
  if scaledTy t then
    deliver t .rne (t == .e2m1) (byScale b (.ofInt (toSigned (planesOf t) v)))
  else v

/-- Read the planes of n in-range positions of a row: the bytes of each plane. -/
def readPlanes (s : State) (w : Who) (ag : Agent) (r : Nat) (i : List Int) (n : Nat) :
    List Nat → Eng (State × List (List (Option Byte)))
  | [] => .ok (s, [])
  | q :: qs => do
    let first := (idx i 0).toNat / 8
    let last := ((idx i 0).toNat + n - 1) / 8
    let (s, bs) ← engRead s w ag (recKey r) (vaOf (planeAddr r false i q)) (last - first + 1) (wordsFor 64)
    let (s, rest) ← readPlanes s w ag r i n qs
    .ok (s, bs :: rest)

/-- The elements of n in-range positions of a bit-plane row. -/
def planeElems (s : State) (w : Who) (ag : Agent) (r : Nat) (i : List Int) (n : Nat) :
    Eng (State × List (Option Nat)) := do
  let t := recTy r
  let i0 := (idx i 0).toNat
  let (s, planes) ← readPlanes s w ag r i n (List.range (planesOf t))
  let b := 2 ^ recBlock r
  let (s, scales) ← if scaledTy t then
      engRead s w ag (recKey r) (vaOf (scaleAt r false i)) ((i0 + n - 1) / b - i0 / b + 1) 4
    else (.ok (s, []) : Eng (State × List (Option Byte)))
  .ok (s, (List.range n).map (fun k =>
    let x := i0 + k
    let byte (l : List (Option Byte)) : Option Byte := (l[x / 8 - i0 / 8]?).getD none
    let scale : Option Byte := if scaledTy t then (scales[x / b - i0 / b]?).getD none else some 0
    match scale with
    | none => none
    | some sc =>
      let bits := planes.map byte
      if bits.any Option.isNone then none
      else some (unplaneElem t sc.toNat
        ((bits.filterMap id).reverse.foldl (fun a v => 2 * a + (v.getLsbD (x % 8)).toNat) 0))))

/-- Elements of positions out of range, one by one. -/
def planeFills (s : State) (w : Who) (ag : Agent) (r : Nat) (i : List Int) : List Nat → Eng (State × List (Option Nat))
  | [] => .ok (s, [])
  | p :: ps => do
    let (s, v) ← match fillOf r ((idx i 0 + p) :: i.drop 1) with
      | .pattern v => (.ok (s, [some v]) : Eng (State × List (Option Nat)))
      | .clamp c => planeElems s w ag r c 1
    let (s, vs) ← planeFills s w ag r i ps
    .ok (s, v ++ vs)

/-- What n positions of a bit-plane source row deliver. -/
def planeRow (s : State) (w : Who) (ag : Agent) (r : Nat) (i : List Int) (n : Nat) :
    Eng (State × List (Option Nat)) := do
  let rowIn := indexIn r (0 :: i.drop 1)
  let a := Nat.min n (if rowIn then (-(idx i 0)).toNat else n)
  let b := Nat.max a (Nat.min n (if rowIn then ((recExt r 0 : Int) - idx i 0).toNat else n))
  let (s, v1) ← planeFills s w ag r i (List.range a)
  let (s, v2) ← if a < b then planeElems s w ag r ((idx i 0 + a) :: i.drop 1) (b - a)
    else (.ok (s, []) : Eng (State × List (Option Nat)))
  let (s, v3) ← planeFills s w ag r i ((List.range (n - b)).map (fun k => b + k))
  .ok (s, v1 ++ v2 ++ v3)

/-- UNPLANE: where something stops the engine, the positions before it are delivered one by one (R348). -/
def unplaneUnit (s : State) (w : Who) (ag : Agent) (r : CopyRun) : Unit_ :=
  denseUnit s w ag r (fun s p n =>
    let i := elemIndex r.src (winPos r.src p)
    match planeRow s w ag r.src i n with
    | .ok (s1, es) => (s1, es, none)
    | .error (.wait t) => (s, [], some (.wait t))
    | .error e =>
      if n = 1 then (s, [], some e)
      else deliverEach s (fun s k => do
        let (s, vs) ← planeRow s w ag r.src ((idx i 0 + k) :: i.drop 1) 1
        .ok (s, (vs.head?).getD none)) (List.range n))

-- FPRINT (R342).

def rotl64 (v k : Nat) : Nat := (v * 2 ^ (k % 64) + v / 2 ^ (64 - k % 64)) % 2 ^ 64

/-- The fingerprint of 512 doublewords. -/
def fingerprint (ds : List Nat) : Nat :=
  let sum := ds.foldl (fun a d => (a + d) % 2 ^ 64) 0
  let x := (indexed ds).foldl (fun a p => a ^^^ rotl64 p.2 p.1) 0
  sum ^^^ x

/-- FPRINT: one group of 512 positions. -/
def fprintUnit (s : State) (w : Who) (ag : Agent) (r : CopyRun) : Unit_ := do
  let i := elemIndex r.dst [r.pos]
  if !indexIn r.dst i then .ok (s, { r with pos := r.pos + 1 })
  else
    match rowElems s w ag r.src (elemIndex r.src [512 * r.pos]) 512 with
    | (_, _, some e) => .error e
    | (s, es, none) =>
      if es.any Option.isNone then .ok (s, { r with pos := r.pos + 1, hurt := true })
      else putElems s w ag r r.pos [some (fingerprint (es.filterMap id))]

-- DEDUP and KVPACK (R454, R455).

/-- A fault of a table operation as the stop of the job that sent it (R446). -/
def tabStop (s : State) (f : TrapInfo) : EStop :=
  if f.code = .reservedField then .bad s stReserved (f.cause * 64 + f.auxb) f.va else engFault s f

/-- A table operation for a channel: its wait, or what it answers, which is nothing where a line of it fails INTEGRITY
(R95, R446, R454, R455). -/
def jobTable (s : State) (w : Who) (ag : Agent) (table : W64) (op : TabOp) : Eng (Sum State (State × Option W64)) := do
  let at_ ← if (s.runsOf ag w.ctx).isEmpty then engOf (tableAt s w table) else .ok (.port 0)
  match tableOp s w ag at_ table op with
  | .waits s => .ok (.inl s)
  | .done s _ (some f) => if f.code = .integrity then .ok (.inr (s, none)) else .error (tabStop s f)
  | .done s vals none => .ok (.inr (s, some (vals.headD 0)))

/-- Read n bytes as a number, or nothing where a line of them fails INTEGRITY (R95). -/
def engReadOr (s : State) (w : Who) (ag : Agent) (va : W64) (n : Nat) : Eng (State × Option Nat) := do
  let (s, l) ← engRead s w ag 0 va n (wordsFor n)
  .ok (s, whole l)

/-- The header that a DEDUP's run holds. -/
def runHeader (r : CopyRun) : Header := { t := xferSrec r.r.words, r := r.src }

/-- A page as 512 doublewords, or none where a line failed. -/
def readPage (s : State) (w : Who) (ag : Agent) (va : W64) : Eng (State × Option (List Nat)) := do
  let (s, l) ← engRead s w ag 0 va 4096 66
  match whole l with
  | some v => .ok (s, some ((List.range 512).map (fun k => v / 2 ^ (64 * k) % 2 ^ 64)))
  | none => .ok (s, none)

/-- The slot of a probe (R453, R454). -/
def dtabSlot (h : Header) (fp q : Nat) : W64 := plus (h.dw 5) (16 * ((fp / 4096 + q) % 2 ^ h.dlog))

/-- What the probes of a page field come to (R454): the field is done, or an operation goes to the table's unit. -/
inductive Probed where
  | over | sends (op : TabOp)
  deriving DecidableEq, Repr

/-- The probes of one page field: at most eight; the Bool tells of a line that failed. A field whose slot or count cannot
be read is left (R95). DEDUCED, assumption 37. -/
def probes (s : State) (w : Who) (ag : Agent) (h : Header) (j k p fp : Nat) (ds : List Nat) :
    List Nat → Eng (State × Probed × Bool)
  | [] => .ok (s, .over, false)
  | q :: qs => do
    let at_ := dtabSlot h fp q
    let (s, slot) ← engReadOr s w ag at_ 16
    let pg := slice (slot.getD 0) 95 64
    let (s, count) ← if pg = 0 || pg > h.npage then (.ok (s, some 0) : Eng (State × Option Nat))
      else engReadOr s w ag (h.ref pg) 4
    match slot, count with
    | some d, some refs =>
      if refs = 0 then .ok (s, .sends (.insert at_ d (fp + p * 2 ^ 64)), false)
      else if pg = p then .ok (s, .over, false)
      else if d % 2 ^ 64 != fp then probes s w ag h j k p fp ds qs
      else do
        let (s, other) ← readPage s w ag (h.page pg)
        match other with
        | none => do
          let (s, o, _) ← probes s w ag h j k p fp ds qs
          .ok (s, o, true)
        | some es => if es = ds then .ok (s, .sends (.share j k p pg), false) else probes s w ag h j k p fp ds qs
    | _, _ => .ok (s, .over, true)

/-- DEDUP: one page field; once it has sent its operation, `acc` says whether a line failed. -/
def dedupUnit (s : State) (w : Who) (ag : Agent) (r : CopyRun) : Unit_ := do
  let h := runHeader r
  let j := rf r.r.words.toNat 3 31 0 + r.pos / 4
  let k := r.pos % 4
  let next := { r with pos := r.pos + 1, acc := [] }
  match r.acc with
  | [bad] =>
    if (s.runsOf ag w.ctx).isEmpty then .ok (s, { r with acc := [] })
    else
      match (← jobTable s w ag h.t (.map 0 0)) with
      | .inl t => .error (.wait t)
      | .inr (t, v) => .ok (t, { next with hurt := next.hurt || bad = 1 || v.isNone })
  | _ => do
    let (s, raw) ← engReadOr s w ag (h.entry j) 32
    let e := entryOf (raw.getD 0)
    let p := (e.pages[k]?).getD 0
    if !e.valid || p = 0 then .ok (s, { next with hurt := next.hurt || raw.isNone })
    else do
      let (s, page) ← readPage s w ag (h.page p)
      match page with
      | none => .ok (s, { next with hurt := true })
      | some ds => do
        let (s, o, bad) ← probes s w ag h j k p (fingerprint ds) ds (List.range 8)
        match o with
        | .over => .ok (s, { next with hurt := next.hurt || bad })
        | .sends op =>
          match (← jobTable s w ag h.t op) with
          | .inl t => if (t.runsOf ag w.ctx).isEmpty then .error (.wait t) else .ok (t, { r with acc := [bad.toNat] })
          | .inr (t, v) => .ok (t, { next with hurt := next.hurt || bad || v.isNone })

/-- The fields a DEDUP visits. -/
def dedupCount (r : CopyRun) : Nat :=
  let first := rf r.r.words.toNat 3 31 0
  4 * (Nat.min (rf r.r.words.toNat 3 47 32) ((runHeader r).nblk - first))

/-- Write elements of a packed row from the k-th on at its slot; with the last of them the row is done. -/
def packWrite (s : State) (w : Who) (ag : Agent) (r : CopyRun) (slot k : Nat) (es : List (Option Nat)) : Unit_ := do
  let bytes := packElems (recTy r.src) es.length es
  let (s, bad) ← writeRuns s w ag 0 (BitVec.ofNat 64 (slot + k * elemBits (recTy r.src) / 8)) bytes 512
  let r := { r with hurt := r.hurt || bad || es.any Option.isNone }
  .ok (s, if k + es.length < recWin r.src 0 then { r with acc := [slot, k + es.length] }
    else { r with pos := r.pos + 1, acc := [] })

/-- Elements that fill whole bytes. -/
def wholeBytes (t : Ty) (es : List (Option Nat)) : List (Option Nat) :=
  let g := if elemBits t ≥ 8 then 1 else 8 / elemBits t
  es.take (es.length / g * g)

/-- KVPACK: a row is mapped, then read and written; where something stops the engine within a row, the positions before it
are performed and the row goes on from there (R348, R455). `acc` holds the slot and the positions done. -/
def kvpackUnit (s : State) (w : Who) (ag : Agent) (r : CopyRun) : Unit_ := do
  let table := xferDrec r.r.words
  let i1 := recOrg r.src 1 + r.pos
  let skip := { r with pos := r.pos + 1, acc := [] }
  if !(0 ≤ i1 && i1 < recExt r.src 1) then .ok (s, skip)
  else
    match r.acc with
    | a :: rest =>
      let k := rest.headD 0
      if a = 0 then .ok (s, skip)
      else if a = 1 || a = 2 then .error (.bad s stAccess causeAbsent table)
      else
        match rowElems s w ag r.src [recOrg r.src 0 + k, i1] (recWin r.src 0 - k) with
        | (_, _, some (.wait t)) => .error (.wait t)
        | (s1, es, some e) =>
          if (wholeBytes (recTy r.src) es).isEmpty then .error e
          else packWrite s1 w ag r a k (wholeBytes (recTy r.src) es)
        | (s1, es, none) => packWrite s1 w ag r a k es
    | [] =>
      match (← jobTable s w ag table (.map i1.toNat 2)) with
      | .inl t => .error (.wait t)
      | .inr (t, some v) => .ok (t, { r with acc := [v.toNat] })
      | .inr (t, none) => .ok (t, { skip with hurt := true })

end Sys2Proof.Machine
end

