-- ==== Sys2Proof/Machine/Queues.lean ====
section
/-! DEFINITION. The queue instructions (R251 to R257, R407, R425). -/

namespace Sys2Proof.Machine

/-- The handle a kind-3 operand names. -/
def handleOf (o : Operand) : Fin 16 :=
  match o with
  | .q h _ => h
  | _ => 0

/-- A count operand: a register, a constant, or IMM (R251). -/
def countOf (s : State) (f : Fmt) (o : Operand) : Act Nat := do
  let v ← src64 s o f.imm
  .ok v.toNat

/-- The consumer end for qpop and qadv: a tour handle is refused (R407). -/
def popEnd (s : State) (n : Fin 16) : Act Handle := do
  unitsReady s
  need (qbBound s.me.qbind[n]) s (queueFault 0)
  need (qbMode s.me.qbind[n] != 2) s (queueFault 1)
  consumerEnd s n

/-- An OUT or HEAD handle's link, waited for where there is none (R425). -/
def linkWait (s : State) (n : Fin 16) : Act Handle := do
  unitsReady s
  let key := linkKey (slotOf s.cur) n.val
  match s.link s.myCore s.myCtx key with
  | some l => .ok (.link key l)
  | none => hold s

/-- The end that qwait.room looks at. -/
def roomEnd (s : State) (n : Fin 16) : Act Handle := do
  unitsReady s
  let b := s.me.qbind[n]
  need (qbBound b) s (queueFault 0)
  match qbMode b with
  | 2 => .ok (.local_ n.val (s.ring s.myCore s.myCtx n.val))
  | 3 => if roleOf s.me n == 1 then fail s (queueFault 1) else linkWait s n
  | _ => producerEnd s n

/-- The free count a handle sees. -/
def Handle.free (h : Handle) : Nat :=
  match h with
  | .local_ _ r => r.free
  | .link _ l => l.credit

/-- Slots that a consumer may reach now. -/
def Handle.ready (h : Handle) : Nat :=
  match h with
  | .local_ _ r => r.visible
  | .link _ _ => 0

def freeAt (s : State) (h : Handle) (n : Nat) : State :=
  if n = 0 then s
  else match h with
  | .local_ k _ => freeSlots s k n
  | .link _ _ => s

/-- The 64 bytes that qpush writes: a whole v register, or 8 bytes and zeros (R251). DEDUCED, assumption 13. -/
def pushBytes (s : State) (f : Fmt) : Act V512 :=
  match f.a with
  | .v r => .ok (s.me.rv r)
  | o => do
    let v ← src64 s o f.imm
    .ok (v.zeroExtend 512)

/-- qpush (R251). -/
def execQpush (f : Fmt) (s : State) : Result :=
  scalarRun f s do
    let v ← pushBytes s f
    let h ← producerEnd s (handleOf f.d)
    waitFor (hasRoom s h 1 && slotFree s (h.slotAt s false 0) && mayPublish s h) s
    .ok (done f (publishSlots (slotWrite s h 0 v) h 1) id)

/-- qpop (R251). -/
def execQpop (f : Fmt) (s : State) : Result :=
  scalarRun f s do
    let h ← popEnd s (handleOf f.a)
    let v ← queueRead s (handleOf f.a) 0
    dstReady s f.d
    waitFor (mayFree s h 1) s
    let s := freeAt s h 1
    match f.d with
    | .v _ => put512 f s v
    | _ => put64 f s (dwordOf v 0)

/-- qadv (R251). -/
def execQadv (f : Fmt) (s : State) : Result :=
  scalarRun f s do
    let n ← countOf s f f.b
    let h ← popEnd s (handleOf f.a)
    qcount s h n
    waitFor (n ≤ h.ready && mayFree s h n) s
    .ok (done f (freeAt s h n) id)

/-- qprod (R251). -/
def execQprod (f : Fmt) (s : State) : Result :=
  scalarRun f s do
    let n ← countOf s f f.b
    let h ← producerEnd s (handleOf f.a)
    qcount s h n
    waitFor (n = 0 || (hasRoom s h n && mayPublish s h)) s
    .ok (done f (if n = 0 then s else publishSlots s h n) id)

/-- qwait.fill (R251): nothing moves. -/
def execQwaitFill (f : Fmt) (s : State) : Result :=
  scalarRun f s do
    let n ← countOf s f f.b
    let h ← consumerEnd s (handleOf f.a)
    qcount s h n
    waitFor (n ≤ h.ready && !holdsDue s s.myCore s.myCtx (handleOf f.a).val) s
    putNone f s

/-- qwait.room (R251). -/
def execQwaitRoom (f : Fmt) (s : State) : Result :=
  scalarRun f s do
    let n ← countOf s f f.b
    let h ← roomEnd s (handleOf f.a)
    qcount s h n
    waitFor (n ≤ h.free) s
    putNone f s

/-- Set the current hart's binding of a handle. -/
def setQbind (s : State) (n : Fin 16) (b : W64) : State := s.modMe (fun h => { h with qbind := h.qbind.set n b })

/-- The ring that a link published to has a place for another peer producer (R250). -/
def releasePeer (s : State) (ctx : Nat) (l : Link) : State :=
  let r := s.ring l.core ctx l.ring
  s.setRing l.core ctx l.ring { r with peer := none }

/-- qfree (R253). -/
def execQfree (f : Fmt) (s : State) : Result :=
  scalarRun f s do
    unitsReady s
    let n := handleOf f.a
    let b := s.me.qbind[n]
    if !qbBound b then putNone f s
    else
      match qbMode b with
      | 0 => putNone f (setQbind s n 0)
      | 1 =>
        let key := linkKey (slotOf s.cur) n.val
        match s.link s.myCore s.myCtx key with
        | none => putNone f (setQbind s n 0)
        | some l => do
          waitFor (l.flying = 0) s
          let s := dropCredits (releasePeer s s.myCtx l) s.myCtx l.core l.ring s.myCore key
          putNone f (setQbind (s.dropLink s.myCore s.myCtx key) n 0)
      | _ => fail s (queueFault 1)

/-- Status of a bind word on a handle (R252), the first that holds in the rule's order. -/
def bindStatus (s : State) (n : Fin 16) (w : W64) : Nat :=
  let mode := qbMode w
  let pc := qbPcore w
  let ctx := s.myCtx
  let r := if mode = 1 then s.ring pc ctx (qbPhandle w) else s.ring s.myCore ctx n.val
  if slice w.toNat 63 22 != 0 || slice w.toNat 18 14 != 0 || mode ≥ 2 ||
      (mode == 0 && (pc != 0 || qbPhandle w != 0)) then 5
  else if qbBound s.me.qbind[n] then 1
  else if mode == 1 && (!present s pc || (s.core pc).active != some ctx) then 3
  else if !r.decl then 2
  else if r.peer.isSome || (mode == 1 && (r.tour || r.stage)) then 4
  else 0

/-- Bind a free handle (R252). -/
def bindHandle (s : State) (n : Fin 16) (w : W64) : State :=
  let s := setQbind s n (mkQbind true (qbRint w) (qbMode w) (qbPhandle w) (qbPcore w))
  let ctx := s.myCtx
  if qbMode w = 0 then
    let r := s.ring s.myCore ctx n.val
    s.setRing s.myCore ctx n.val { r with pp := 0, cp := 0 }
  else
    let pc := qbPcore w
    let key := linkKey (slotOf s.cur) n.val
    let r := s.ring pc ctx (qbPhandle w)
    let s := s.setRing pc ctx (qbPhandle w) { r with peer := some (s.myCore, key) }
    s.setLink s.myCore ctx key { core := pc, ring := qbPhandle w, base := r.base, slotBytes := r.slotBytes, count := r.count
                                 pp := r.pp, credit := r.free }

/-- qbind (R252). -/
def execQbind (f : Fmt) (s : State) : Result :=
  scalarRun f s do
    unitsReady s
    let n := handleOf f.a
    let w := xval s f.b
    let st := bindStatus s n w
    put64 f (if st = 0 then bindHandle s n w else s) (BitVec.ofNat 64 st)

/-- What qstat looks at: a bound handle, in mode 3 OUT or HEAD with its downstream ring (R254, R425). -/
def statEnd (s : State) (n : Fin 16) : Act Handle := do
  unitsReady s
  let b := s.me.qbind[n]
  let own : Act Handle := do
    waitFor (!holdsDue s s.myCore s.myCtx n.val) s
    .ok (.local_ n.val (s.ring s.myCore s.myCtx n.val))
  match qbMode b with
  | 1 => linkWait s n
  | 3 => if roleOf s.me n == 1 then own else linkWait s n
  | _ => own

/-- The status word of qstat variant 0 (R254). -/
def qstatWord (b : W64) (h : Handle) : W64 :=
  let filled := match h with
    | .local_ _ r => r.visible
    | .link _ l => l.count - l.credit
  BitVec.ofNat 64 (filled % 2 ^ 16 + h.free % 2 ^ 16 * 2 ^ 16 + h.count % 2 ^ 16 * 2 ^ 32 + qbMode b * 2 ^ 48 + 2 ^ 50)

/-- The own-scratchpad and any-core windows in register form (R29). -/
def ownWindow (off : Nat) : W64 := BitVec.ofNat 64 (0xFF80000000000000 + off)
def coreWindow (core off : Nat) : W64 := BitVec.ofNat 64 (0xFF80000200000000 + core * 2 ^ 20 + off)

/-- The address of the slot at the consumer pointer; zero on a producer's handle (R254). DEDUCED, assumption 13. -/
def headAddr (h : Handle) : W64 :=
  match h with
  | .local_ _ r => ownWindow (r.slotOff r.cp)
  | .link _ _ => 0
/-- The address of the slot at the producer pointer. DEDUCED, assumption 13. -/
def tailAddr (h : Handle) : W64 :=
  match h with
  | .local_ _ r => ownWindow (r.slotOff r.pp)
  | .link _ l => coreWindow l.core (l.slotOff l.pp)

/-- qstat variant 0 (R254): an unbound handle reads zero. -/
def execQstat (f : Fmt) (s : State) : Result :=
  scalarRun f s do
    let n := handleOf f.a
    let b := s.me.qbind[n]
    if !qbBound b then put64 f s 0
    else do
      let h ← statEnd s n
      put64 f s (qstatWord b h)

/-- qstat.head (R251, R254). -/
def execQstatHead (f : Fmt) (s : State) : Result :=
  scalarRun f s do
    let n := handleOf f.a
    need (qbBound s.me.qbind[n]) s (queueFault 0)
    let h ← statEnd s n
    put64 f s (headAddr h)

/-- qstat.tail (R251, R254). -/
def execQstatTail (f : Fmt) (s : State) : Result :=
  scalarRun f s do
    let n := handleOf f.a
    need (qbBound s.me.qbind[n]) s (queueFault 0)
    let h ← statEnd s n
    put64 f s (tailAddr h)

end Sys2Proof.Machine
end

