-- ==== Sys2Proof/Machine/Matrix.lean ====
section
/-! DEFINITION. The matrix engine: cards, jobs, watermarks, stops and instructions (R307 to R335, and R34 for its
port registers). -/

namespace Sys2Proof.Machine

/-- An instruction of a unit that a supervisor core lacks (R14) is no instruction there: ILLEGAL with cause OPCODE.
DEDUCED, assumption 9. -/
def onCompute (s : State) (r : Result) : Result :=
  if isSup s.cur then .next (s.takeFault (illegal 1)) else r

/-- A register of the port window, as a virtual address (R29). -/
def portVa (off : Nat) : W64 := BitVec.ofNat 64 (2 ^ 64 - 2 ^ 55 + 3 * 2 ^ 32 + off)

/-- A block of the port window that a supervisor core lacks (R34). -/
def onPort (off : Nat) (s : State) (r : Result) : Result :=
  if isSup s.cur then .next (s.takeFault (accessFault causeWindow (portVa off))) else r

-- The card (R310).

def cardTile (c : V512) : Fin 2 := Fin.ofNat 2 (cf c 0 4 4)
def cardSlot (c : V512) : Fin 2 := Fin.ofNat 2 (cf c 0 5 5)
def cardPlanes (c : V512) : Nat := cf c 0 9 6 + 1
def cardSigned (c : V512) : Bool := cf c 0 10 10 == 1
def cardBfmt (c : V512) : Nat := cf c 0 13 11
def cardOrig (c : V512) : Nat := cf c 0 15 14
def cardRows (c : V512) : Nat := cf c 0 22 16 + 1
def cardScope (c : V512) : Nat := cf c 0 27 24
def cardTag (c : V512) : Nat := cf c 0 63 32
def cardVrows (c : V512) : Nat := cf c 1 7 0
def cardVcols (c : V512) : Nat := cf c 1 16 8
def cardVk (c : V512) : Nat := cf c 1 25 17
def cardKbi (c : V512) : Nat := cf c 1 47 32
def cardKey (c : V512) : Nat := cf c 1 63 48
def cardOff (c : V512) : Nat := cf c 2 18 0
def cardPlanePitch (c : V512) : Nat := cf c 3 31 0
def cardRowPitch (c : V512) : Nat := cf c 3 63 32
def cardCword (c : V512) : W64 := dwordOf c 6
def cardCvalue (c : V512) : W64 := dwordOf c 7

/-- The conditions of R312 on a card, with R311's table for the operation it is checked as. -/
def cardChecks (c : V512) : List (Nat × Nat) :=
  let r := c.toNat
  let op := if cardOp c = 4 then cardOrig c else cardOp c
  let isLoad := op == 1
  let isRun := op == 2
  let isDrain := op == 3
  let tour := cardTour c
  chk (cardOp c > 4) 0 0 ++
  chk (if cardOp c = 4 then cardOrig c != 1 else cardOrig c != 0) 0 14 ++
  chk (cardBfmt c > 2 || (!isLoad && cardBfmt c != 0)) 0 11 ++ chk (cardScope c > 5) 0 24 ++
  reservedSet r 0 [(31, 28), (23, 23)] ++ reservedSet r 1 [(31, 26)] ++
  (if cardOp c > 4 then []
   else
    chk (isLoad && cf c 0 4 4 != 0) 0 4 ++
    chk (!(isLoad || isRun) && cf c 0 5 5 != 0) 0 5 ++
    chk (!isRun && cf c 0 9 6 != 0) 0 6 ++ chk (!isRun && cf c 0 10 10 != 0) 0 10 ++
    chk (!isRun && cf c 0 22 16 != 0) 0 16 ++
    chk (if isRun then decide (cardVrows c > cardRows c) else if isDrain then decide (cardVrows c > 128)
      else cardVrows c != 0) 1 0 ++
    chk (if op = 0 then cardVcols c != 0 else decide (cardVcols c > 256)) 1 8 ++
    chk (if isLoad || isRun then decide (cardVk c > 256) else cardVk c != 0) 1 17 ++
    chk (!isLoad && cardKbi c != 0) 1 32 ++ chk (!isLoad && cardKey c != 0) 1 48 ++
    chk (op = 0 && cf c 2 62 0 != 0) 2 0 ++
    (if isLoad && tour then reservedSet r 2 [(62, 4)] else if isRun || isDrain then reservedSet r 2 [(62, 19)]
      else []) ++
    chk (!isLoad && tour) 2 63 ++
    chk (if isRun then cardPlanePitch c % 32 != 0 else cardPlanePitch c != 0) 3 0 ++
    chk (if isRun then cardRowPitch c % 32 != 0 else if isDrain then cardRowPitch c % 4 != 0
      else cardRowPitch c != 0) 3 32)

/-- The conditions that a LOADB adds on its B record, in their order (R312). -/
def loadbCond (c : V512) (r : Nat) : Option (Nat × Nat) :=
  let ty := (match cardBfmt c with | 0 => 3 | 1 => 14 | _ => 2)
  (chk (recRank r != 2) 1 24 ++ chk (recKind r != 0 && recKind r != 2) 1 20 ++ chk (rf r 1 19 16 != ty) 1 16 ++
    chk (recWin r 0 > 256) 7 0 ++ chk (recWin r 1 > 256) 7 16).head?

/-- The status bits of dword 1 for a reserved field (R323). -/
def reservedStatus (inRecord : Bool) (p : Nat × Nat) : Nat :=
  stReserved + p.1 * 2 ^ 8 + inRecord.toNat * 2 ^ 15 + p.2 * 2 ^ 16
def codeStatus (code detail : Nat) : Nat := code + detail * 2 ^ 8

-- Watermarks and pending jobs (R314, R322).

/-- Cards that have not completed: queued, running or stopped. -/
def Matrix.cards (m : Matrix) : List Card :=
  m.queue ++ ([m.loader, m.array, m.port, m.heldJob].filterMap id).map (·.c)

def touchesWm (t : Fin 2) (c : Card) : Bool := (cardOp c.card == 0 || cardOp c.card == 2) && cardTile c.card == t
def usesTile (t : Fin 2) (c : Card) : Bool :=
  (cardOp c.card == 0 || cardOp c.card == 2 || cardOp c.card == 3) && cardTile c.card == t

def Matrix.pending (m : Matrix) (t : Fin 2) : Nat := (m.cards.filter (touchesWm t)).length

def Matrix.setWm (m : Matrix) (t : Fin 2) (n : Nat) : Matrix := { m with wm := m.wm.set t n }

/-- Row r of a running RUNA is final (R322). -/
def Matrix.rowDone (m : Matrix) (t : Fin 2) (r : Nat) : Matrix := if m.pending t = 1 then m.setWm t (r + 1) else m

/-- A ZERO or RUNA on t has completed. -/
def Matrix.tileDone (m : Matrix) (c : Card) : Matrix :=
  let t := cardTile c.card
  if touchesWm t c && m.pending t = 0 then m.setWm t 128 else m

-- Pushing (R313, R327).

/-- The footprint regions of a card, the B record's 96 bytes among the reads (R116). -/
def cardReads (c : V512) : List Region :=
  regionOf (dwordOf c 4) ++
    (if (cardOp c = 1 || cardOp c = 4) && !cardTour c then recordRegion (dwordOf c 2) else [])
def cardWrites (c : V512) : List Region := regionOf (dwordOf c 5)

/-- The ring slot that a tour card captures (R313). -/
def captureSlot (s : State) (c : V512) : Act Nat :=
  if cardFromTour c then do
    let h : Fin 16 := Fin.ofNat 16 (cf c 2 3 0)
    let b := s.me.qbind[h]
    need (qbBound b && qbMode b == 2) s (queueFault 1)
    .ok (s.ring s.myCore s.myCtx h.val).cp
  else .ok 0

/-- A CONT card goes to the held job's place, before the queue, with the held job's edges; the record it names is read as
the old one was (R116, R327). It starts as R314 says. -/
def pushHeld (s : State) (c : V512) (cap : Nat) (cd : Option CDest) : State :=
  let u := s.myUnit
  match u.matrix.heldJob with
  | none => s
  | some h =>
    let run : Running := { c := { job := h.c.job, card := c, cap := cap } }
    let m := { u.matrix with heldJob := some run, stop := .running, cmd := none }
    s.setMyUnit ({ u with matrix := m }.modJob h.c.job (fun j =>
      { j with cdest := cd
               reads := j.reads ++ (if cardTour c then [] else recordRegion (dwordOf c 2)) }))

/-- mxq on a card (R313). -/
def pushMatrix (s : State) (c : V512) : Act State := do
  unitsReady s
  let cap ← captureSlot s c
  let cd ← pushCword s (cardCword c) 16
  let u := s.myUnit
  if u.matrix.stop = .held && cardOp c = 4 && cardOrig c = 1 then do
    let s ← pushRelease s (cardReads c) (cardWrites c)
    .ok (pushHeld s c cap cd)
  else do
    waitFor (u.matrix.queue.length < 2 && hazardRoom u) s
    let s ← pushRelease s (cardReads c) (cardWrites c)
    let u := s.myUnit
    let card : Card := { job := u.nextJob, card := c, cap := cap }
    let m := { u.matrix with queue := u.matrix.queue ++ [card] }
    let m := if cardOp c = 0 || cardOp c = 2 then m.setWm (cardTile c) 0 else m
    .ok (s.setMyUnit ({ u with matrix := m }.addJob .matrix (cardReads c) (cardWrites c) s.cur cd))

-- Starting (R314).

/-- The units of the engine. -/
inductive MxUnit where
  | loader | array | port
  deriving DecidableEq, Repr

def mxUnitOf (c : V512) : MxUnit :=
  match cardOp c with
  | 1 | 4 => .loader
  | 2 => .array
  | _ => .port

def Matrix.unit (m : Matrix) : MxUnit → Option Running
  | .loader => m.loader
  | .array => m.array
  | .port => m.port
def Matrix.setUnitRun (m : Matrix) (x : MxUnit) (r : Option Running) : Matrix :=
  match x with
  | .loader => { m with loader := r }
  | .array => { m with array := r }
  | .port => { m with port := r }

/-- No started job that has not completed stands in a card's way (R314). -/
def Matrix.clearFor (m : Matrix) (c : V512) : Bool :=
  let started := ([m.array, m.port].filterMap id).map (·.c)
  let tileFree := !(cardOp c == 0 || cardOp c == 2 || cardOp c == 3) || !started.any (usesTile (cardTile c))
  let slotFree := match mxUnitOf c with
    | .array => !(m.loader.any (fun r => cardSlot r.c.card == cardSlot c))
    | .loader => !(m.array.any (fun r => cardSlot r.c.card == cardSlot c))
    | .port => true
  tileFree && slotFree

/-- The job a unit runs or now starts: the one in the held job's place first, then the head of the queue, each when R314
allows it. -/
def mxStart (s : State) (core : Nat) (x : MxUnit) : Option (State × Running) :=
  let u := s.liveUnit core
  match u.matrix.unit x with
  | some r => if r.ended then none else some (s, r)
  | none =>
    let starts (c : Card) : Bool := mxUnitOf c.card = x && unitsStart s core && u.matrix.stop = .running &&
      jobFree u.jobs c.job && u.matrix.clearFor c.card
    let go (m : Matrix) (r : Running) : Option (State × Running) :=
      some (s.setLiveUnit core { u with matrix := m.setUnitRun x (some r) }, r)
    match u.matrix.heldJob, u.matrix.queue with
    | some r, _ => if starts r.c then go { u.matrix with heldJob := none } r else none
    | none, [] => none
    | none, c :: rest => if starts c then go { u.matrix with queue := rest } { c := c } else none

/-- Change the engine of a core's live context. -/
def State.modMatrix (s : State) (core : Nat) (g : Matrix → Matrix) : State :=
  let u := s.liveUnit core
  s.setLiveUnit core { u with matrix := g u.matrix }

/-- The running job of a unit ends with a status. -/
def mxEnd (s : State) (core : Nat) (x : MxUnit) (r : Running) (status : Nat) : State :=
  let s := s.modMatrix core (fun m => m.setUnitRun x (some { r with status := status, ended := true }))
  s.setLiveUnit core ((s.liveUnit core).modJob r.c.job (fun j => { j with readsDone := true }))

/-- Run a started job, which its card's check may refuse first (R312). -/
def mxJob (s : State) (core : Nat) (x : MxUnit) (body : State → Running → Result) : Result :=
  match mxStart s core x with
  | none => .next s
  | some (t, r) =>
    match lowestReport (cardChecks r.c.card) with
    | some p => .next (mxEnd t core x r (reservedStatus false p))
    | none => body t r

-- ZERO and DRAIN (R316, R320).

def zeroTile (s : State) (core : Nat) (r : Running) : State :=
  let t := cardTile r.c.card
  mxEnd (s.modMatrix core (fun m => { m with tiles := m.tiles.set t [], sticky := m.sticky.set t 0 })) core .port r 0

/-- A bad operation code waits at the tile port and is refused there (R312). -/
def execZero (core : Nat) (s : State) : Result :=
  mxJob s core .port (fun s r => if cardOp r.c.card = 0 then .next (zeroTile s core r) else .next s)

def Matrix.tileAt (m : Matrix) (t : Fin 2) (row col : Nat) : Int := Tab.get 0 m.tiles[t] (256 * row + col)

/-- The first scratchpad offset past a run of `rows` rows of n bytes. -/
def rowsEnd (off rows pitch n : Nat) : Nat := if rows = 0 || n = 0 then 0 else off + (rows - 1) * pitch + n

/-- The bytes of one drained row. -/
def drainRow (m : Matrix) (c : V512) (r : Nat) : List Byte :=
  ((List.range (cardVcols c)).map (fun n => leBytes 4 (wrapInt 32 (m.tileAt (cardTile c) r n)))).flatten

/-- DRAIN: each event writes the next row. -/
def drain (s : State) (core : Nat) (r : Running) : State :=
  let c := r.c.card
  let off := cardOff c + r.row * cardRowPitch c
  if cardOff c % 4 != 0 then mxEnd s core .port r (codeStatus stAlign 0)
  else if rowsEnd (cardOff c) (cardVrows c) (cardRowPitch c) (4 * cardVcols c) > spadSize then
    mxEnd s core .port r (codeStatus stAccess causeWindow)
  else if r.row ≥ cardVrows c || cardVcols c = 0 then mxEnd s core .port r 0
  else if !spadFree s core (s.ctxOf core) (.matrix core) off (4 * cardVcols c) then s
  else
    let t := spadWrite s core (s.ctxOf core) off (drainRow (s.liveUnit core).matrix c r.row)
    t.modMatrix core (fun m => m.setUnitRun .port (some { r with row := r.row + 1 }))

def execDrain (core : Nat) (s : State) : Result :=
  mxJob s core .port (fun s r => if cardOp r.c.card = 3 then .next (drain s core r) else .next s)

-- RUNA (R308, R319).

/-- The activation that the planes of row r give element k. -/
def activation (s : State) (core : Nat) (c : V512) (r k : Nat) : Int :=
  (List.range (cardPlanes c)).foldl (fun a p =>
    let off := cardOff c + r * cardRowPitch c + p * cardPlanePitch c + k / 8
    let b := (Mem.read s.spad (spadKey core (s.ctxOf core) off)).getLsbD (k % 8)
    let w : Int := if cardSigned c && p + 1 = cardPlanes c then -(2 ^ p : Nat) else (2 ^ p : Nat)
    if b then a + w else a) 0

/-- The partial sums of one row, by column: the exact products of the valid cells. -/
def rowSums (s : State) (core : Nat) (c : V512) (r : Nat) (slot : Tab Int) : Tab Int :=
  let acts := (List.range (cardVk c)).map (activation s core c r)
  slot.foldl (fun t e =>
    let k := e.1 / 256
    let n := e.1 % 256
    if k < cardVk c && n < cardVcols c then Tab.put t n (Tab.get 0 t n + ((acts[k]?).getD 0) * e.2) else t) []

/-- Tables list nonzero values only. -/
def putCell (t : Tab Int) (k : Nat) (v : Int) : Tab Int := if v = 0 then Tab.drop t k else Tab.put t k v

/-- Add a row's sums into a tile, clamped, with the sticky bit, and whether one was set (R308). -/
def addRow (m : Matrix) (t : Fin 2) (r : Nat) (sums : Tab Int) : Matrix × Bool :=
  sums.foldl (fun (m : Matrix × Bool) e =>
    let v := m.1.tileAt t r e.1 + e.2
    let w := clampInt (-(2 ^ 31 : Nat)) ((2 ^ 31 : Nat) - 1) v
    let n := { m.1 with tiles := m.1.tiles.set t (putCell m.1.tiles[t] (256 * r + e.1) w) }
    if w = v then (n, m.2) else ({ n with sticky := n.sticky.set t (n.sticky[t] ||| (1#128 <<< r)) }, true)) (m, false)

/-- Why a RUNA is refused (R319). -/
def runaRefusal (c : V512) : Option Nat :=
  if cardOff c % 32 != 0 then some (codeStatus stAlign 0)
  else if cardVrows c > 0 && cardVk c > 0 &&
      cardOff c + (cardVrows c - 1) * cardRowPitch c + (cardPlanes c - 1) * cardPlanePitch c + 31 ≥ spadSize then
    some (codeStatus stAccess causeWindow)
  else none

/-- The plane words of a row can be read now. -/
def rowFree (s : State) (core : Nat) (c : V512) (r : Nat) : Bool :=
  (List.range (cardPlanes c)).all (fun p =>
    spadFree s core (s.ctxOf core) (.matrix core) (cardOff c + r * cardRowPitch c + p * cardPlanePitch c) ((cardVk c + 7) / 8))

/-- One declared row of a RUNA. -/
def runaRow (s : State) (core : Nat) (r : Running) : State :=
  let c := r.c.card
  let t := cardTile c
  let m := (s.liveUnit core).matrix
  let valid := m.valid[cardSlot c]
  let works := valid && r.row < cardVrows c && cardVk c != 0
  if works && !rowFree s core c r.row then s
  else
    let (m1, sat) := if works then addRow m t r.row (rowSums s core c r.row m.slots[cardSlot c]) else (m, false)
    let status := if valid then r.status ||| (if sat then 2 ^ 22 else 0) else codeStatus stBslot 0
    let r1 := { r with row := r.row + 1, status := status }
    let s1 := s.modMatrix core (fun _ => (m1.setUnitRun .array (some r1)).rowDone t r.row)
    if r1.row = cardRows c then mxEnd s1 core .array r1 r1.status else s1

/-- RUNA: each event is the next declared row. A refusal goes before an INVALID slot (R319).
DESIGN CHOICE, assumption 77. -/
def execRuna (core : Nat) (s : State) : Result :=
  mxJob s core .array (fun s r =>
    match runaRefusal r.c.card with
    | some st => .next (mxEnd s core .array r st)
    | none => .next (runaRow s core r))

-- LOADB (R317, R318).

/-- Widen an element into a 10-bit weight. -/
def widenWeight (bfmt e : Nat) : Int :=
  match bfmt with
  | 0 => toSigned 8 e
  | 1 => podInt e
  | _ => toSigned 9 e

/-- The cells of one k: delivered elements, zero for the rest, and the former value where a line failed. -/
def slotRow (old : Tab Int) (bfmt k : Nat) (es : List (Option Nat)) : Tab Int :=
  ((List.range 256).map (fun n =>
    (256 * k + n,
      match es[n]? with
      | none => 0
      | some none => Tab.get 0 old (256 * k + n)
      | some (some e) => widenWeight bfmt e))).filter (fun p => p.2 != 0)

/-- The elements of one k that a tour brought into the captured slot; none while its bytes cannot be read. Of a slot
smaller than the block, the bytes after it are read (R318). DESIGN CHOICE, assumption 77. -/
def tourRow (s : State) (core : Nat) (c : V512) (cap k : Nat) : Option (List (Option Nat)) :=
  let r := s.ring core (s.ctxOf core) (cf c 2 3 0)
  let z := if cardBfmt c = 2 then 2 else 1
  let off := r.slotOff cap + 256 * k * z
  if spadFree s core (s.ctxOf core) (.matrix core) off (cardVcols c * z) then
    some ((List.range (cardVcols c)).map (fun n => some (leNat (spadRead s core (s.ctxOf core) (off + n * z) z))))
  else none

/-- The captured slot is filled and holds its tile, whose hold limit has not expired (R318, R410). -/
def slotFilled (s : State) (core : Nat) (c : V512) (cap : Nat) : Bool :=
  let r := s.ring core (s.ctxOf core) (cf c 2 3 0)
  let k := (cap + 2 ^ 32 - r.cp) % 2 ^ 32
  decide (k < r.filled) && !r.voidAt s.clock k

/-- One row of the slot is written, and the next is due; a line that failed is kept in mind. -/
def loadRow (s : State) (core : Nat) (r : Running) (es : List (Option Nat)) : State :=
  let x := cardSlot r.c.card
  let put (l : Tab Int) : Tab Int :=
    l.filter (fun e => e.1 / 256 < r.row) ++ slotRow l (cardBfmt r.c.card) r.row es ++ l.filter (fun e => e.1 / 256 > r.row)
  let status := if es.any Option.isNone then codeStatus stIntegrity 0 else r.status
  s.modMatrix core (fun m =>
    { m with slots := m.slots.set x (put m.slots[x]), loader := some { r with row := r.row + 1, status := status } })

/-- The rows past those delivered are zero; the slot is VALID if every element was delivered (R317). -/
def fillSlot (s : State) (core : Nat) (r : Running) (rows : Nat) : State :=
  let x := cardSlot r.c.card
  let s := s.modMatrix core (fun m =>
    { m with slots := m.slots.set x (m.slots[x].filter (fun e => e.1 / 256 < rows)), valid := m.valid.set x (r.status == 0) })
  mxEnd s core .loader r r.status

/-- The slot of a LOADB that goes on past its checks is INVALID (R317). -/
def invalidateSlot (s : State) (core : Nat) (c : V512) : State :=
  s.modMatrix core (fun m => { m with valid := m.valid.set (cardSlot c) false })

/-- The B record's checks after it is read (R312), and then R108 and R97. -/
def loadbRefusal (s : State) (core : Nat) (c : V512) (r : Nat) : Option (Nat × Bool) :=
  match lowestReport (recChecks r) with
  | some p => some (reservedStatus true p, true)
  | none =>
    match loadbCond c r with
    | some p => some (reservedStatus true p, true)
    | none =>
      if recKey r != cardKey c then some (reservedStatus false (1, 48), true)
      else if baseMisaligned r then some (codeStatus stAlign 0, false)
      else if rangeBad r false (256 * cardKbi c) then some (codeStatus stAccess causeNoncanonical, false)
      else if !keyOk s (s.ctxOf core) (cardKey c) then some (codeStatus stKey 0, false)
      else none

/-- The VA of the B record: BSRC is in register form, its bit 63 that of bit 62 (R310). -/
def cardSrcVa (c : V512) : W64 := BitVec.ofNat 64 (cf c 2 62 0 + cf c 2 62 62 * 2 ^ 63)

/-- The record of a LOADB, read once (R116). DEDUCED, assumption 35. -/
def loadbRecord (s : State) (core : Nat) (r : Running) : Eng (State × Nat) :=
  match r.layout with
  | some l => .ok (s, l)
  | none => do
    if (cardSrcVa r.c.card).toNat % 32 != 0 then .error (.bad s stAlign 0 (cardSrcVa r.c.card))
    readRecord s (jobWho s core r.c.job) (.matrix core) (cardSrcVa r.c.card)

/-- One event of a block's fetch from memory: the record and its checks, then each row, then the end (R312, R317).
The slot stays as it was until the record's checks have passed (R325). DESIGN CHOICE, assumption 77. -/
def loadbFetch (s : State) (core : Nat) (r : Running) : Eng State :=
  let c := r.c.card
  match r.layout with
  | none => do
    let (s, l) ← loadbRecord s core r
    match loadbRefusal s core c l with
    | some (st, keep) => .ok (mxEnd (if keep then s else invalidateSlot s core c) core .loader r st)
    | none =>
      let s := invalidateSlot (s.modMatrix core (fun m => { m with loader := some { r with layout := some l } })) core c
      .ok (s.setLiveUnit core ((s.liveUnit core).modJob r.c.job (fun j => { j with keys := [cardKey c] })))
  | some l =>
    let rows := Nat.min (cardVk c) (recWin l 1)
    if r.row ≥ rows then .ok (fillSlot s core r rows)
    else
      match rowElems s (jobWho s core r.c.job) (.matrix core) l [recOrg l 0, recOrg l 1 + 256 * cardKbi c + r.row]
          (Nat.min (cardVcols c) (recWin l 0)) with
      | (_, _, some e) => .error e
      | (s, es, none) => .ok (loadRow s core r es)

/-- One event of a LOADB from a tour's slot (R318), whose buffer slot is INVALID while it waits for the fill.
DESIGN CHOICE, assumption 77. -/
def loadbTour (s : State) (core : Nat) (r : Running) : State :=
  let c := r.c.card
  let s := invalidateSlot s core c
  if r.row = 0 && !slotFilled s core c r.c.cap then s
  else if r.row ≥ cardVk c then fillSlot s core r (cardVk c)
  else
    match tourRow s core c r.c.cap r.row with
    | some es => loadRow s core r es
    | none => s

/-- LOADB and CONT. -/
def loadbRun (core : Nat) (s : State) (r : Running) : Result :=
  let c := r.c.card
  if cardTour c then .next (loadbTour s core r)
  else if ((s.liveUnit core).matrix.xlate).isSome then .next s
  else
    engineEvent s (.matrix core) (some r.c.job) (loadbFetch s core r)
      (fun t f => t.modMatrix core (fun m => { m with xlate := some f }))
      (fun t code d _ => mxEnd (invalidateSlot t core c) core .loader r (codeStatus code d))

def execLoadb (core : Nat) (s : State) : Result :=
  mxJob s core .loader (fun s r => if cardOp r.c.card = 1 then loadbRun core s r else .next s)

/-- CONT: a LOADB that continues a stopped one, or a new job that runs as one (R327). -/
def execCont (core : Nat) (s : State) : Result :=
  mxJob s core .loader (fun s r => if cardOp r.c.card = 4 then loadbRun core s r else .next s)

-- Stops (R325 to R328).

/-- The card as the continuation register holds it: OP 4, ORIG 1. -/
def contCard (c : V512) : V512 := BitVec.ofNat 512 (setSlice (setSlice c.toNat 3 0 4) 15 14 1)

/-- The loader's job leaves it for the continuation register; it starts anew when it goes on (R326). -/
def Matrix.stopLoader (m : Matrix) (swap : Bool) : Matrix :=
  match m.loader with
  | none => m
  | some r =>
    let c := contCard r.c.card
    { m with
      loader := none, xlate := none, stop := .stopped, swapped := swap, cont := c
      heldJob := some { r with c := { r.c with card := c }, row := 0, status := 0 } }

/-- MATRIX_STOP (R325). -/
def execMatrixStop (core : Nat) (s : State) : Result :=
  let m := (s.liveUnit core).matrix
  match m.xlate, m.loader with
  | some f, some r =>
    let s1 := s.modMatrix core (fun m => m.stopLoader false)
    .next (s1.sendPacket (.matrix core) (s1.ctxOf core) 0 { f with tag := cardTag r.c.card })
  | _, _ => .next s

/-- RESUME of a stopped or held engine (R326). -/
def Matrix.resume (m : Matrix) : Matrix :=
  match m.heldJob with
  | some r =>
    if m.stop = .running then m else { m with loader := some r, heldJob := none, stop := .running, swapped := false }
  | none => m

/-- KILL of a stopped or held engine (R326). -/
def Matrix.kill (m : Matrix) : Matrix :=
  match m.heldJob with
  | some r =>
    if m.stop = .running then m
    else { m with
      loader := some { r with status := codeStatus stKilled 0, ended := true }
      heldJob := none, stop := .running, swapped := false, cont := 0
      valid := m.valid.set (cardSlot r.c.card) false }
  | none => m

def Matrix.command (m : Matrix) : UnitCmd → Matrix
  | .resume => m.resume
  | .kill => m.kill

/-- A command acts at once for the active context; for another it is recorded (R326, R472). -/
def mxCommand (s : State) (core ctx : Nat) (k : UnitCmd) : State :=
  let u := s.unit core ctx
  if (s.core core).active = some ctx then s.setUnit core ctx { u with matrix := u.matrix.command k }
  else s.setUnit core ctx { u with matrix := { u.matrix with cmd := some k } }

def execMxcmdResume (core ctx : Nat) (s : State) : Result := .next (mxCommand s core ctx .resume)
def execMxcmdKill (core ctx : Nat) (s : State) : Result := .next (mxCommand s core ctx .kill)

-- Completion (R323).

/-- The 16 bytes of a completion record. -/
def completionBytes (c : V512) (status : Nat) : List Byte :=
  leBytes 8 (cardCvalue c).toNat ++ leBytes 8 (cardTag c * 2 ^ 32 + status)

/-- A unit whose job has ended. -/
def endedUnit (m : Matrix) : Option (MxUnit × Running) :=
  [MxUnit.loader, .array, .port].findSome? (fun x =>
    match m.unit x with
    | some r => if r.ended then some (x, r) else none
    | none => none)

/-- MATRIX_JOB_COMPLETE (R322, R323). -/
def execMatrixJobComplete (core : Nat) (s : State) : Result :=
  if !unitsLive s core then .next s
  else
    let u := s.liveUnit core
    match endedUnit u.matrix with
    | none => .next s
    | some (x, r) =>
      let cd := ((u.job r.c.job).map (·.cdest)).getD none
      let scope := if cardScope r.c.card > 5 then 4 else cardScope r.c.card
      engineEvent s (.matrix core) (some r.c.job) (do
        let t ← payloadDone s (.matrix core) core r.c.job scope
        let t ← completeAt t core (.matrix core) r.c.job cd (completionBytes r.c.card r.status)
        let t := t.modMatrix core (fun m => (m.setUnitRun x none).tileDone r.c)
        .ok (t.endJob core (.matrix core) r.c.job)) (fun t _ => t) (fun t _ _ _ => t)

-- Instructions (R329 to R334).

/-- The 64 bytes of a card operand: a v register or a consumer slot. -/
def cardOperand (s : State) (f : Fmt) : Act V512 := src512 s f.a

def tileOf (o : Operand) : Fin 2 :=
  match o with
  | .tile t => t
  | _ => 0

/-- mxq (R313). -/
def execMxq (f : Fmt) (s : State) : Result :=
  onCompute s <| scalarRun f s do
    let c ← cardOperand s f
    let s ← pushMatrix s c
    putNone f s

/-- A matrix card stored to the port window (R34). -/
def execMxpush (card : V512) (s : State) : Result := onPort 0 s (settle (pushMatrix s card))

def mxWm (s : State) (t : Fin 2) : Nat := s.myUnit.matrix.wm[t]

/-- mxwm (R330). -/
def execMxwm (f : Fmt) (s : State) : Result :=
  onCompute s <| scalarRun f s do
    unitsReady s
    put64 f s (BitVec.ofNat 64 (mxWm s (tileOf f.a)))

/-- mxwm.wait (R330). -/
def execMxwmWait (f : Fmt) (s : State) : Result :=
  onCompute s <| scalarRun f s do
    let b ← src64 s f.b f.imm
    unitsReady s
    waitFor (Nat.min b.toNat 128 ≤ mxWm s (tileOf f.a)) s
    putNone f s

/-- Sixteen columns of a tile row as a register (R331). -/
def tileSegment (m : Matrix) (t : Fin 2) (i : Nat) : V512 :=
  ofLanes 32 ((List.range 16).map (fun j => wrapInt 32 (m.tileAt t (i / 16) (16 * (i % 16) + j))))

/-- mxrd (R331). -/
def execMxrd (f : Fmt) (s : State) : Result :=
  onCompute s <| scalarRun f s do
    let b ← src64 s f.b f.imm
    unitsReady s
    dstReady s f.d
    let i := b.toNat % 2048
    waitFor (i / 16 < mxWm s (tileOf f.a)) s
    put512 f s (tileSegment s.myUnit.matrix (tileOf f.a) i)

/-- mxwr (R332). -/
def execMxwr (f : Fmt) (s : State) : Result :=
  onCompute s <| scalarRun f s do
    let a ← src64 s f.a f.imm
    let b ← src512 s f.b
    unitsReady s
    let t := tileOf f.d
    let u := s.myUnit
    waitFor (!u.matrix.cards.any (usesTile t)) s
    let i := a.toNat % 2048
    let cells := (indexed (lanesOf 32 b)).foldl
      (fun tb p => putCell tb (256 * (i / 16) + 16 * (i % 16) + p.1) (toSigned 32 p.2)) u.matrix.tiles[t]
    putNone f (s.setMyUnit { u with matrix := { u.matrix with tiles := u.matrix.tiles.set t cells } })

/-- mxcont (R327, R333). -/
def execMxcont (f : Fmt) (s : State) : Result :=
  onCompute s <| scalarRun f s do
    unitsReady s
    dstReady s f.d
    let u := s.myUnit
    if u.matrix.stop = .stopped then
      put512 f (s.setMyUnit { u with matrix := { u.matrix with stop := .held } }) u.matrix.cont
    else put512 f s 0xF

def StopState.num : StopState → Nat
  | .running => 0 | .stopped => 1 | .held => 2

/-- The engine status word (R334). -/
def mxStatus (m : Matrix) : W64 :=
  let tag := match m.heldJob with
    | some r => if m.stop = .running then 0 else cardTag r.c.card
    | none => 0
  BitVec.ofNat 64 (tag * 2 ^ 32 + m.wm[1] * 2 ^ 24 + m.wm[0] * 2 ^ 16 + m.valid[1].toNat * 2 ^ 11 +
    m.valid[0].toNat * 2 ^ 10 + m.stop.num * 2 ^ 8 + m.port.isSome.toNat * 2 ^ 7 + m.array.isSome.toNat * 2 ^ 6 +
    m.loader.isSome.toNat * 2 ^ 5 + m.queue.length)

/-- mxstat (R334). -/
def execMxstat (f : Fmt) (s : State) : Result :=
  onCompute s <| scalarRun f s do
    unitsReady s
    put64 f s (mxStatus s.myUnit.matrix)

/-- mxstat.sticky (R334). -/
def execMxstatSticky (f : Fmt) (s : State) : Result :=
  onCompute s <| scalarRun f s do
    unitsReady s
    let half := f.imm.toNat % 2
    put64 f s (BitVec.ofNat 64 (s.myUnit.matrix.sticky[tileOf f.a].toNat / 2 ^ (64 * half)))

end Sys2Proof.Machine
end

