-- ==== Sys2Proof/Machine/Copy.lean ====
section
/-! DEFINITION. The copy engine's channels: pushes, chains, watermarks, completion, stops and instructions (R343 to
R350). -/

namespace Sys2Proof.Machine

def chan (s : State) (core : Nat) (ch : Fin 4) : Channel := (s.liveUnit core).copy.chans[ch]

def Copy.setChan (c : Copy) (ch : Fin 4) (k : Channel) : Copy := { c with chans := c.chans.set ch k }
def State.modCopy (s : State) (core : Nat) (g : Copy → Copy) : State :=
  let u := s.liveUnit core
  s.setLiveUnit core { u with copy := g u.copy }
def State.setChan (s : State) (core : Nat) (ch : Fin 4) (k : Channel) : State := s.modCopy core (·.setChan ch k)
def State.setRun (s : State) (core : Nat) (ch : Fin 4) (r : Option CopyRun) : State :=
  s.setChan core ch { chan s core ch with run := r }

/-- The status log holds 16 entries; LOST saturates at 255 (R346). -/
def Copy.logEntry (c : Copy) (ch status tag : Nat) : Copy :=
  if c.log.length < 16 then { c with log := c.log ++ [{ ch := ch, status := status, tag := tag }] }
  else { c with lost := Nat.min 255 (c.lost + 1) }

-- Pushes (R155, R344, R350).

/-- The read footprint of a record, with the 96 bytes of each layout record it names (R116). -/
def xferReads (w : V512) : List Region :=
  regionOf (dwordOf w 4) ++ (if hasSrc (xferOp w) then recordRegion (xferSrec w) else []) ++
    (if hasDst (xferOp w) then recordRegion (xferDrec w) else [])
def xferWrites (w : V512) : List Region := regionOf (dwordOf w 5)

/-- cpq of a record on a channel. -/
def pushCopy (s : State) (ch : Fin 4) (w : V512) : Act State := do
  unitsReady s
  let cd ← pushCword s (xferCword w) 8
  let u := s.myUnit
  waitFor ((u.copy.chans[ch]).queue.length < 2 && hazardRoom u) s
  let s ← pushRelease s (xferReads w) (xferWrites w)
  let u := s.myUnit
  let k := u.copy.chans[ch]
  let st := if k.st = .idle then ChanState.running else k.st
  let k := { k with queue := k.queue ++ [{ job := u.nextJob, words := w }], st := st }
  .ok (s.setMyUnit ({ u with copy := u.copy.setChan ch k }.addJob (.copy ch.val) (xferReads w) (xferWrites w) s.cur cd))

/-- cpchn on a channel (R344, R350). -/
def startChain (s : State) (ch : Fin 4) (v : W64) : Act State := do
  need (v.toNat % 64 = 0) s (alignFault v)
  need (canonical v) s (accessFault causeNoncanonical v)
  unitsReady s
  waitFor ((s.myUnit.copy.chans[ch]).st = .idle) s
  let s ← chainRelease s
  let u := s.myUnit
  let k := u.copy.chans[ch]
  let k := { k with head := if v = 0 then k.head else v.toNat, st := .running, hart := s.cur }
  .ok (s.setMyUnit { u with copy := u.copy.setChan ch k })

-- Records (R343).

/-- A record starts on its channel. -/
def beginRecord (k : Channel) (r : CopyRec) : Channel :=
  { k with run := some { r := r }, wm := ((xferWrites r.words).head?.map (·.va)).getD 0 }

/-- The record a channel runs now, if its operation is one an event performs; the queue's head starts when the channel
has none, and a HEAD read that was on its way is not that of the next boundary (R343). -/
def runningRecord (s : State) (core : Nat) (ch : Fin 4) (mine : Nat → Bool) : Option (State × CopyRun) :=
  let k := chan s core ch
  if !unitsStart s core || k.st = .stopped || k.xlate.isSome then none
  else
    match k.run with
    | some r => if mine (xferOp r.r.words) then some (s, r) else none
    | none =>
      match k.queue with
      | [] => none
      | r :: rest =>
        if mine (xferOp r.words) then
          some ((s.forsakeJob (.copy core ch.val) (s.ctxOf core) none).setChan core ch
            (beginRecord { k with queue := rest } r), { r := r })
        else none

/-- The record ends with a status: its reads are done, and it is written back or completes. -/
def finishRecord (s : State) (core : Nat) (ch : Fin 4) (r : CopyRun) (status : Nat) : State :=
  let stage := if r.r.inmem.isSome then CopyStage.back else .complete
  let s := s.setRun core ch (some { r with stage := stage, status := status })
  s.setLiveUnit core ((s.liveUnit core).modJob r.r.job (fun j => { j with readsDone := true }))

/-- The notice of R103. -/
def exhaustNotice (s : State) (core : Nat) (ch : Fin 4) (r : CopyRun) (va : W64) : State :=
  s.sendPacket (.copy core ch.val) (s.ctxOf core) 0 { code := .keyExhaust, va := va, tag := xferTag r.r.words }

/-- What stopped a record: XLATE stops its channel, anything else ends it. -/
def onStop (core : Nat) (ch : Fin 4) (r : CopyRun) (e : Eng State) (s : State) : Result :=
  engineEvent s (.copy core ch.val) (some r.r.job) e
    (fun t f => t.setChan core ch { chan t core ch with xlate := some f })
    (fun t code d va =>
      let t := if code = stExhaust then exhaustNotice t core ch r va else t
      finishRecord t core ch r
        (if code = stReserved then reservedXfer 0 (d / 64, d % 64) else xferStatus code 0 0 d))

-- Checks (R337).

/-- Layout records are 32-byte aligned (R104). -/
def layoutAt (s : State) (w : Who) (ag : Agent) (va : W64) : Eng (State × Nat) :=
  if va.toNat % 32 != 0 then .error (.bad s stAlign 0 va) else readRecord s w ag va

/-- The source record's report, and the destination's. -/
def srcReport (op r : Nat) : Option Nat := (lowestReport (recChecks r ++ srcConds op r)).map (reservedXfer 1)
def dstReport (op src r : Nat) : Option Nat := (lowestReport (recChecks r ++ dstConds op src r)).map (reservedXfer 2)

-- Progress (R345).

/-- Positions, groups, fields or rows an operation visits; an empty source window moves nothing (R106). -/
def unitCount (r : CopyRun) : Nat :=
  if hasSrc (xferOp r.r.words) && winCount r.src = 0 then 0
  else
    match xferOp r.r.words with
    | 5 => dedupCount r
    | 6 => recWin r.src 1
    | _ => winCount r.dst

/-- No in-range row of a KVPACK's source comes after position p. -/
def lastRow (r : CopyRun) (p : Nat) : Bool :=
  !((List.range (unitCount r)).drop (p + 1)).any (fun q =>
    0 ≤ recOrg r.src 1 + q && recOrg r.src 1 + q < recExt r.src 1)

/-- The first address a record has still to write (R345). The table decides what DEDUP and KVPACK write, so that is the
footprint's base until nothing is left, or a KVPACK's last slot is known. DEDUCED, assumption 37. -/
def footEnd (w : V512) : Nat := ((xferWrites w).head?.map (fun r => r.va + r.size)).getD 0
def markAt (r : CopyRun) : Nat :=
  let base := ((xferWrites r.r.words).head?.map (·.va)).getD 0
  if r.pos ≥ unitCount r then footEnd r.r.words
  else if xferOp r.r.words = 5 then base
  else if xferOp r.r.words = 6 then
    match r.acc with
    | a :: rest =>
      let from_ := va56 (BitVec.ofNat 64 (a + rest.headD 0 * elemBits (recTy r.src) / 8))
      if lastRow r r.pos then Nat.max base (Nat.min from_ (footEnd r.r.words)) else base
    | [] => base
  else if unitCount r = 0 then footEnd r.r.words
  else
    match remainingLow r.dst r.pos with
    | none => footEnd r.r.words
    | some a => Nat.max base (Nat.min (va56 (vaOf a)) (footEnd r.r.words))

/-- A record moves on: its run, its channel's watermark and how far its job has filled. -/
def progress (s : State) (core : Nat) (ch : Fin 4) (r : CopyRun) : State :=
  let base := ((xferWrites r.r.words).head?.map (·.va)).getD 0
  let s := s.setChan core ch { chan s core ch with run := some r, wm := markAt r }
  s.setLiveUnit core ((s.liveUnit core).modJob r.r.job (fun j => { j with filled := markAt r - base }))

/-- How the reading of the records stands: `acc` is empty before the source record is read, and holds one entry before
the destination record is. A DEDUP's header is read for the report of DTAB, unless an earlier field refuses the record;
where that read fails, what refuses the record stands. DEDUCED, assumptions 35 and 37. DEDUCED, assumption 35.
DEDUCED, assumption 37. -/
def checkStep (s : State) (core : Nat) (ch : Fin 4) (r : CopyRun) : Eng State := do
  let w := jobWho s core r.r.job
  let ag : Agent := .copy core ch.val
  let words := r.r.words
  let op := xferOp words
  let ends (s : State) (st : Nat) : Eng State := .ok (finishRecord s core ch r st)
  let keep (s : State) (r : CopyRun) : Eng State := .ok (s.setRun core ch (some r))
  match r.acc with
  | [] =>
    let bad := xferChecks words r.r.inmem.isNone
    if op = 5 && !bad.any (fun p => p.1 ≤ 2) then
      match engReadNat s w ag 0 (xferSrec words) 128, lowestReport bad with
      | .error (.wait t), _ => .error (.wait t)
      | .error e, none => .error e
      | .error _, some p => ends s (reservedXfer 0 p)
      | .ok (s, v), _ =>
        let h : Header := { t := xferSrec words, r := v }
        match lowestReport (bad ++ chk (h.dw 5 = 0) 2 0) with
        | some p => ends s (reservedXfer 0 p)
        | none =>
          match h.malformed with
          | some p => ends s (reservedXfer 0 p)
          | none => .ok (progress s core ch { r with src := v, stage := .move })
    else
      match lowestReport bad with
      | some p => ends s (reservedXfer 0 p)
      | none =>
        if hasSrc op then do
          let (s, v) ← layoutAt s w ag (xferSrec words)
          match srcReport op v with
          | some st => ends s st
          | none => keep s { r with src := v, acc := [1] }
        else keep s { r with acc := [1] }
  | _ => do
    let (s, v) ← if hasDst op then layoutAt s w ag (xferDrec words) else (.ok (s, 0) : Eng (State × Nat))
    match (if hasDst op then dstReport op r.src v else none) with
    | some st => ends s st
    | none =>
      match addressStatus s (s.ctxOf core) op r.src v with
      | some st => ends s st
      | none =>
        let s := s.setLiveUnit core ((s.liveUnit core).modJob r.r.job (fun j =>
          { j with keys := (if hasSrc op then [recKey r.src] else []) ++ (if hasDst op then [recKey v] else []) }))
        .ok (progress s core ch { r with dst := v, stage := .move, acc := [] })

/-- One event of a record's operation: its next check, its next unit, or its end. -/
def copyEvent (core ch : Nat) (mine : Nat → Bool) (unit : State → Who → Agent → CopyRun → Unit_) (s : State) :
    Result :=
  let c : Fin 4 := Fin.ofNat 4 ch
  match runningRecord s core c mine with
  | none => .next s
  | some (t, r) =>
    match r.stage with
    | .check => if jobFree (t.liveUnit core).jobs r.r.job then onStop core c r (checkStep t core c r) t else .next t
    | .move =>
      if r.pos ≥ unitCount r then
        .next (finishRecord t core c r (if r.hurt then xferStatus stIntegrity 0 0 0 else 0))
      else
        onStop core c r (do
          let (t1, r1) ← unit t (jobWho t core r.r.job) (.copy core ch) r
          .ok (progress t1 core c r1)) t
    | _ => .next t

/-- COPY also refuses a record with a reserved operation (R337). -/
def execCopy (core ch : Nat) (s : State) : Result := copyEvent core ch (fun op => op = 0 || op ≥ 8) copyUnit s
def execFill (core ch : Nat) (s : State) : Result := copyEvent core ch (· = 1) fillUnit s
def execPlane (core ch : Nat) (s : State) : Result := copyEvent core ch (· = 2) planeUnit s
def execUnplane (core ch : Nat) (s : State) : Result := copyEvent core ch (· = 3) unplaneUnit s
def execFprint (core ch : Nat) (s : State) : Result := copyEvent core ch (· = 4) fprintUnit s
def execDedup (core ch : Nat) (s : State) : Result := copyEvent core ch (· = 5) dedupUnit s
def execKvpack (core ch : Nat) (s : State) : Result := copyEvent core ch (· = 6) kvpackUnit s
def execGather (core ch : Nat) (s : State) : Result := copyEvent core ch (· = 7) gatherUnit s

-- Chains (R343).

def goIdle (s : State) (core : Nat) (ch : Fin 4) : State := s.setChan core ch { chan s core ch with st := .idle }

/-- A chained record as read: it becomes a job, or the chain rests at it. -/
def takeChained (s : State) (core : Nat) (ch : Fin 4) (at_ v : Nat) : State :=
  let w : V512 := BitVec.ofNat 512 v
  if !xferOwned w then goIdle s core ch
  else
    let u := s.liveUnit core
    let k := u.copy.chans[ch]
    let k := beginRecord k { job := u.nextJob, words := w, inmem := some at_ }
    (s.dropCoreAheads core (s.ctxOf core)).setLiveUnit core
      ({ u with copy := u.copy.setChan ch k }.addJob (.copy ch.val) (xferReads w) (xferWrites w) k.hart none)

/-- CHAIN_RECORD_READ (R343). -/
def execChainRecordRead (core ch : Nat) (s : State) : Result :=
  let c : Fin 4 := Fin.ofNat 4 ch
  let k := chan s core c
  let logged (s : State) (st : Nat) : State := goIdle (s.modCopy core (·.logEntry ch st 0)) core c
  if !unitsStart s core || k.st != .running || k.xlate.isSome || k.run.isSome || !k.queue.isEmpty then .next s
  else if k.head = 0 then .next (goIdle s core c)
  else if k.head % 64 != 0 then .next (logged s (xferStatus stAlign 0 0 0))
  else if !hazardRoom (s.liveUnit core) then .next s
  else
    engineEvent s (.copy core ch) none (do
        let (t, v) ← engReadNat s (engineWho s core) (.copy core ch) 0 (BitVec.ofNat 64 k.head) 64
        .ok (takeChained t core c k.head v))
      (fun t f => t.setChan core c { chan t core c with xlate := some f })
      (fun t code d _ => logged t (xferStatus code 0 0 d))

-- Completion (R346, R347).

/-- The record leaves its channel. -/
def leaveRecord (s : State) (core : Nat) (ch : Fin 4) (r : CopyRun) : State :=
  let k := chan s core ch
  let head := if r.r.inmem.isSome then xferNext r.r.words else k.head
  let s := s.setChan core ch { k with run := none, head := head, wm := footEnd r.r.words }
  let s := if r.r.inmem.isNone && r.status / 2 ^ 12 != 0 then
      s.modCopy core (·.logEntry ch.val r.status (xferTag r.r.words)) else s
  s.endJob core (.copy core ch.val) r.r.job

/-- Doubleword 1 as it is written back. -/
def writeBack (r : CopyRun) : Nat := setSlice (setSlice (rf r.r.words.toNat 1 63 0) 0 0 0) 31 16 r.status

/-- The write-back of a chained record. -/
def backStep (s : State) (core : Nat) (ch : Fin 4) (r : CopyRun) (at_ : Nat) : Eng State :=
  let next (s : State) : State := s.setRun core ch (some { r with stage := .complete })
  match engWrite1 s (jobWho s core r.r.job) (.copy core ch.val) 0 (BitVec.ofNat 64 (at_ + 8)) (leBytes 8 (writeBack r)) with
  | .ok t => .ok (next t)
  | .error (.xlate t f) => .error (.xlate t { f with va := BitVec.ofNat 64 at_ })
  | .error (.bad t code d _) =>
    .ok (next (t.modCopy core (·.logEntry ch.val (xferStatus code 0 0 d) (xferTag r.r.words))))
  | .error e => .error e

/-- The completion word: a pushed record's address was translated at the push, a chained one's is translated now. A
write that is refused is dropped. -/
def wordStep (s : State) (core : Nat) (ch : Fin 4) (r : CopyRun) : Eng State :=
  let cw := xferCword r.r.words
  let bytes := leBytes 8 (xferCvalue r.r.words).toNat
  if r.r.inmem.isNone then do
    let cd := (((s.liveUnit core).job r.r.job).map (·.cdest)).getD none
    completeAt s core (.copy core ch.val) r.r.job cd bytes
  else if cw = 0 || cw.toNat % 8 != 0 || r.acc = [6] then .ok s
  else
    match engWrite1 s (jobWho s core r.r.job) (.copy core ch.val) 0 cw bytes with
    | .error (.bad t _ _ _) => .ok t
    | e => e

/-- The payload of a record failed after its last unit: that is its status, unless it has one (R324, R346). -/
def payloadBad (core : Nat) (ch : Fin 4) (r : CopyRun) (s : State) (code detail : Nat) (_ : W64) : State :=
  let status := if r.status / 2 ^ 12 = 0 then xferStatus code 0 0 detail else r.status
  (s.setRun core ch (some { r with status := status })).payloadOver core (s.ctxOf core) r.r.job

/-- COPY_RECORD_COMPLETE: the payload at the completion's scope, the write-back and the completion word (R158, R346). -/
def execCopyRecordComplete (core ch : Nat) (s : State) : Result :=
  let c : Fin 4 := Fin.ofNat 4 ch
  match runningRecord s core c (fun _ => true) with
  | none => .next s
  | some (_, r) =>
    let xlate (t : State) (f : TrapInfo) : State := t.setChan core c { chan t core c with xlate := some f }
    let scope := if xferScope r.r.words > 5 then 4 else xferScope r.r.words
    match r.stage, r.r.inmem with
    | .back, some a =>
      engineEvent s (.copy core ch) (some r.r.job) (do
        let t ← payloadDone s (.copy core ch) core r.r.job scope
        backStep t core c r a) xlate (payloadBad core c r)
    | .complete, _ =>
      engineEvent s (.copy core ch) (some r.r.job) (do
        let t ← payloadDone s (.copy core ch) core r.r.job scope
        let t ← wordStep t core c r
        .ok (leaveRecord t core c r)) xlate (payloadBad core c r)
    | _, _ => .next s

-- Stops and commands (R348).

/-- COPY_CHANNEL_STOP: the channel stops, and a packet names the record's tag and the address. -/
def execCopyChannelStop (core ch : Nat) (s : State) : Result :=
  let c : Fin 4 := Fin.ofNat 4 ch
  let k := chan s core c
  match k.xlate with
  | none => .next s
  | some f =>
    let tag := match k.run with
      | some r => xferTag r.r.words
      | none => 0
    let s := s.setChan core c { k with xlate := none, st := .stopped }
    .next (s.sendPacket (.copy core ch) (s.ctxOf core) 0 { f with tag := tag })

/-- KILL of a stopped channel: its record ends KILLED; a write-back is dropped and logged; a completion word is
dropped; a chain whose record could not be read rests, unless a pushed record waits (R343, R346, R348). DEDUCED, assumption 37. -/
def Copy.kill (c : Copy) (ch : Fin 4) : Copy :=
  let k := c.chans[ch]
  let killed := xferStatus stKilled 0 0 0
  match k.run with
  | none => c.setChan ch { k with st := if k.queue.isEmpty then .idle else .running }
  | some r =>
    let go (r : CopyRun) (c : Copy) : Copy := c.setChan ch { k with st := .running, run := some r }
    match r.stage with
    | .back => go { r with stage := .complete } (c.logEntry ch.val killed (xferTag r.r.words))
    | .complete => go { r with acc := [6] } (c.logEntry ch.val killed (xferTag r.r.words))
    | _ => go { r with stage := if r.r.inmem.isSome then .back else .complete, status := killed } c

def Copy.command (c : Copy) (ch : Fin 4) (cmd : UnitCmd) : Copy :=
  let k := c.chans[ch]
  if k.st != .stopped then c
  else
    match cmd with
    | .resume => c.setChan ch { k with st := .running }
    | .kill => c.kill ch

/-- A command acts at once for the active context; for another it is recorded (R349, R472). -/
def cpCommand (s : State) (core ch ctx : Nat) (cmd : UnitCmd) : State :=
  let c : Fin 4 := Fin.ofNat 4 ch
  let u := s.unit core ctx
  if (s.core core).active = some ctx then s.setUnit core ctx { u with copy := u.copy.command c cmd }
  else s.setUnit core ctx { u with copy := u.copy.setChan c { u.copy.chans[c] with cmd := some cmd } }

def execCpcmdResume (core ch ctx : Nat) (s : State) : Result := .next (cpCommand s core ch ctx .resume)
def execCpcmdKill (core ch ctx : Nat) (s : State) : Result := .next (cpCommand s core ch ctx .kill)

-- Instructions (R350).

def chanOf (f : Fmt) : Fin 4 := Fin.ofNat 4 f.imm.toNat

/-- cpq. -/
def execCpq (f : Fmt) (s : State) : Result :=
  scalarRun f s do
    let w ← src512 s f.a
    let s ← pushCopy s (chanOf f) w
    putNone f s

/-- cpchn. -/
def execCpchn (f : Fmt) (s : State) : Result :=
  scalarRun f s do
    let a ← src64 s f.a 0
    let s ← startChain s (chanOf f) a
    putNone f s

/-- A record or a HEAD stored to the port window (R34). -/
def execCppush (ch : Fin 4) (w : V512) (s : State) : Result := settle (pushCopy s ch w)
def execCphead (ch : Fin 4) (v : W64) (s : State) : Result := settle (startChain s ch v)

/-- WM in register form; zero when IDLE (R350). -/
def wmWord (k : Channel) : W64 := if k.st = .idle then 0 else (BitVec.ofNat 56 k.wm).signExtend 64

def execCpwm (f : Fmt) (s : State) : Result :=
  scalarRun f s do
    unitsReady s
    put64 f s (wmWord s.myUnit.copy.chans[chanOf f])

def ChanState.num : ChanState → Nat
  | .idle => 0 | .running => 1 | .stopped => 2

/-- The channel word. -/
def chanWord (k : Channel) : W64 :=
  let tag := match k.run with
    | some r => xferTag r.r.words
    | none => 0
  BitVec.ofNat 64 (tag * 2 ^ 32 + k.queue.length * 4 + k.st.num)

def execCpstat (f : Fmt) (s : State) : Result :=
  scalarRun f s do
    unitsReady s
    put64 f s (chanWord s.myUnit.copy.chans[chanOf f])

/-- The oldest log entry as a word, and the log without it. -/
def popLog (c : Copy) : Copy × W64 :=
  match c.log with
  | [] => if c.lost = 0 then (c, 0) else ({ c with lost := 0 }, BitVec.ofNat 64 (c.lost * 2 ^ 8 + 3))
  | e :: rest => ({ c with log := rest, lost := 0 },
      BitVec.ofNat 64 (e.tag * 2 ^ 32 + e.status * 2 ^ 16 + c.lost * 2 ^ 8 + e.ch * 2 ^ 6 + 3))

def execCpstatLog (f : Fmt) (s : State) : Result :=
  scalarRun f s do
    unitsReady s
    dstReady s f.d
    let u := s.myUnit
    let (c, v) := popLog u.copy
    put64 f (s.setMyUnit { u with copy := c }) v

end Sys2Proof.Machine
end

