-- ==== Sys2Proof/Machine/Exponent.lean ====
section
/-! DEFINITION. The exponent engine: exact values of 2^t, e^t, 1/t and 1/√t rounded once, cards and completion (R351 to
R355). -/

namespace Sys2Proof.Machine

-- Integer roots and bounds.

/-- The integer square root, bit by bit from bit k − 1 down. -/
def isqrt (x : Nat) : Nat → Nat
  | 0 => 0
  | k + 1 =>
    -- the bits of the root above bit k are those of the root of x / 4
    let r := 2 * isqrt (x / 4) k
    if (r + 1) * (r + 1) ≤ x then r + 1 else r

/-- A lower bound of ln 2 × 2^w: Σ 2^(w−k) / k, each term cut off. It lies less than w + 2 below. -/
def ln2Low (w : Nat) : Nat := (List.range w).foldl (fun a i => a + 2 ^ (w - (i + 1)) / (i + 1)) 0
def ln2High (w : Nat) : Nat := ln2Low w + w + 2

/-- Bounds of the sum of y^i / i! from i = n on, × 2^w, from bounds of the term before. -/
def expTail (w ylo yhi : Nat) (tlo thi n : Nat) : Nat → Nat × Nat
  | 0 => (0, 2 * thi + 2)
  | fuel + 1 =>
    let lo := tlo * ylo / (n * 2 ^ w)
    let hi := thi * yhi / (n * 2 ^ w) + 1
    let p := expTail w ylo yhi lo hi (n + 1) fuel
    (lo + p.1, hi + p.2)

/-- Bounds of e^y × 2^w for 0 ≤ y < 1, given y × 2^w in bounds. -/
def expBounds (w ylo yhi : Nat) : Nat × Nat :=
  let p := expTail w ylo yhi (2 ^ w) (2 ^ w) 1 w
  (2 ^ w + p.1, 2 ^ w + p.2)

/-- Guard bits of a working precision. -/
def guardBits : Nat := 32

/-- An irrational value c × e^y × 2^k, known to lie in bounds × 2^−w, as an exact value that rounds as it does: its
floor at w − guard bits, with half a unit for the rest. None while the bounds differ. -/
def fromBounds (c w : Nat) (k : Int) (b : Nat × Nat) : Option Val :=
  let lo := c * b.1 / 2 ^ guardBits
  let hi := c * b.2 / 2 ^ guardBits
  if lo = hi then some (.fin false (2 * lo + 1) (k - (w - guardBits : Nat) - 1)) else none

/-- Try rising precisions. -/
def refine (f : Nat → Option Val) : Nat → Nat → Val
  | _, 0 => .fin false 1 0
  | w, fuel + 1 =>
    match f w with
    | some v => v
    | none => refine f (2 * w) fuel

/-- m × 2^e × 2^w cut off. -/
def shifted (m : Nat) (e : Int) (w : Nat) : Nat := if 0 ≤ e + w then m * 2 ^ (e + w).toNat else m / 2 ^ (-(e + w)).toNat

/-- c × 2^t for t = ±m × 2^e that is no integer and lies within ±1,024. -/
def exp2Frac (c : Nat) (neg : Bool) (m : Nat) (e : Int) (w : Nat) : Option Val :=
  let whole := m / 2 ^ (-e).toNat
  let frac := m % 2 ^ (-e).toNat
  let fr := if neg then 2 ^ (-e).toNat - frac else frac
  let k : Int := if neg then -(whole : Int) - 1 else whole
  let f := shifted fr e w
  fromBounds c w k (expBounds w (f * ln2Low w / 2 ^ w) ((f + 1) * ln2High w / 2 ^ w + 1))

/-- c × e^t for t = ±m × 2^e that is not 0 and lies within ±1,024. -/
def expeAt (c : Nat) (neg : Bool) (m : Nat) (e : Int) (w : Nat) : Option Val :=
  let tlo := shifted m e w
  let thi := tlo + 1
  let lo := ln2Low w
  let hi := ln2High w
  if neg then
    let n := thi / lo + 1
    fromBounds c w (-(n : Int)) (expBounds w (n * lo - thi) (n * hi - tlo))
  else
    let n := tlo / hi
    fromBounds c w n (expBounds w (tlo - n * hi) (thi - n * lo))

/-- A finite value of magnitude 1,024 or more: its power of 2 or e is beyond every format. -/
def huge (m : Nat) (e : Int) : Bool := m != 0 && decide ((Nat.log2 m : Int) + e ≥ 10)

/-- c × 2^t (R353). DEDUCED, assumption 38. -/
def exp2Val (c : Nat) (t : Val) : Val :=
  match t with
  | .nan => .nan
  | .inf neg => if neg then .fin false 0 0 else .inf false
  | .fin neg m e =>
    if huge m e then .fin false 1 (if neg then -4096 else 4096)
    else if e ≥ 0 || m % 2 ^ (-e).toNat = 0 then
      let i := m * 2 ^ e.toNat / 2 ^ (-e).toNat
      .fin false c (if neg then -(i : Int) else i)
    else refine (exp2Frac c neg m e) 128 6

/-- e^t (R353). DEDUCED, assumption 38. -/
def expeVal (t : Val) : Val :=
  match t with
  | .nan => .nan
  | .inf neg => if neg then .fin false 0 0 else .inf false
  | .fin neg m e =>
    if m = 0 then .fin false 1 0
    else if huge m e then .fin false 1 (if neg then -4096 else 4096)
    else refine (expeAt 1 neg m e) 128 6

/-- 1 / t: the quotient cut off, with half a unit for the rest (R353). -/
def recipVal (t : Val) : Val :=
  match t with
  | .nan => .nan
  | .inf neg => .fin neg 0 0
  | .fin neg m e =>
    if m = 0 then .inf neg
    else
      let k := Nat.log2 m + 96
      .fin neg (2 * (2 ^ k / m) + (if 2 ^ k % m = 0 then 0 else 1)) (-e - k - 1)

/-- 1 / √t (R353). -/
def rsqrtVal (t : Val) : Val :=
  match t with
  | .nan => .nan
  | .inf neg => if neg then .nan else .fin false 0 0
  | .fin neg m e =>
    if m = 0 then .inf neg
    else if neg then .nan
    else
      -- an even exponent: t = n × 2^(2h)
      let n := if e % 2 = 0 then m else 2 * m
      let h := e / 2
      let k := Nat.log2 n + 96
      let q := isqrt (2 ^ (2 * k) / n) (2 * k)
      .fin false (2 * q + (if q * q * n = 2 ^ (2 * k) then 0 else 1)) (-h - k - 1)

-- The card (R351, R352).

def exOp (c : V512) : Nat := cf c 0 3 0
def exIn (c : V512) : Ty := Ty.ofCode (cf c 0 7 4)
def exOut (c : V512) : Ty := Ty.ofCode (cf c 0 11 8)
def exMode (c : V512) : Mode := modeOf (cf c 0 14 12)
def exSat (c : V512) : Bool := cf c 0 15 15 == 1
def exCount (c : V512) : Nat := cf c 1 12 0
def exRows (c : V512) : Nat := cf c 1 23 16 + 1
def exScale (c : V512) : Val := floatVal (floatForm .fp32) (cf c 1 63 32)
def exSrc (c : V512) : Nat := cf c 2 18 0
def exDst (c : V512) : Nat := cf c 2 50 32
def exAux (c : V512) : Nat := cf c 3 18 0

def exFloat (t : Ty) : Bool := t == .fp32 || t == .bf16 || t == .fp16

/-- The conditions of R352. -/
def exChecks (c : V512) : List (Nat × Nat) :=
  let r := c.toNat
  let soft := exOp c = 4
  let inOk := if soft then exIn c == .i32 || exIn c == .fp32 else exFloat (exIn c)
  let outOk := if soft then exOut c == .n8 || exOut c == .bf16 else exFloat (exOut c)
  chk (exOp c > 4) 0 0 ++ chk (cf c 0 14 12 > 4) 0 12 ++ chk (cf c 0 19 16 > 5) 0 16 ++
    reservedSet r 0 [(31, 20)] ++ reservedSet r 1 [(15, 13), (31, 24)] ++ reservedSet r 2 [(31, 19), (63, 51)] ++
    reservedSet r 3 [(63, 19)] ++ chk (exCount c > 4096) 1 0 ++
    (if exOp c > 4 then [] else chk (!inOk) 0 4 ++ chk (!outOk) 0 8)

def tySize (t : Ty) : Nat := t.width / 8

/-- The offset checks, ALIGN before WINDOW (R352). -/
def exRefusal (c : V512) : Option Nat :=
  let n := exRows c * exCount c
  let soft := exOp c = 4
  if exSrc c % tySize (exIn c) != 0 || exDst c % tySize (exOut c) != 0 || (soft && exAux c % 4 != 0) then
    some (codeStatus stAlign 0)
  else if exSrc c + n * tySize (exIn c) > spadSize || exDst c + n * tySize (exOut c) > spadSize ||
      (soft && exAux c + 8 * exRows c > spadSize) then some (codeStatus stAccess causeWindow)
  else none

-- Rows (R353, R354).

def spadNat (s : State) (core off n : Nat) : Nat := leNat (spadRead s core (s.ctxOf core) off n)
def spadPut (s : State) (core off n v : Nat) : State := spadWrite s core (s.ctxOf core) off (leBytes n v)

/-- Element k of a card's source, times SCALE. -/
def exInput (s : State) (core : Nat) (c : V512) (k : Nat) : Val :=
  let z := tySize (exIn c)
  mulVal (elemVal (exIn c) (spadNat s core (exSrc c + k * z) z)) (exScale c)

def exOutput (s : State) (core : Nat) (c : V512) (k v : Nat) : State :=
  let z := tySize (exOut c)
  spadPut s core (exDst c + k * z) z v

/-- The exact value of an elementwise operation. -/
def exValue (op : Nat) (t : Val) : Val :=
  match op with
  | 0 => exp2Val 1 t
  | 1 => expeVal t
  | 2 => recipVal t
  | _ => rsqrtVal t

/-- Elements from element k of a card to the end of its row, of its source's 64-byte word or of its destination's. -/
def exPart (c : V512) (k : Nat) : Nat :=
  let left (at_ z : Nat) : Nat := (64 - (at_ + k * z) % 64) / z
  Nat.min (exCount c - k % exCount c)
    (Nat.min (left (exSrc c) (tySize (exIn c))) (left (exDst c) (tySize (exOut c))))

/-- Results written from element k of a card on. -/
def exPut (s : State) (core : Nat) (c : V512) (k : Nat) (qs : List Nat) : State :=
  (indexed qs).foldl (fun s p => exOutput s core c (k + p.1) p.2) s

/-- The next elements of an elementwise card. -/
def exStep (s : State) (core : Nat) (r : Running) : State × Running :=
  let c := r.c.card
  let qs := (List.range (exPart c r.row)).map (fun i =>
    roundFloat (floatForm (exOut c)) (exMode c) (exSat c) (exValue (exOp c) (exInput s core c (r.row + i))))
  (exPut s core c r.row qs, { r with row := r.row + qs.length })

/-- The exponent of a SOFTROW element: x × SCALE − m. -/
def softArg (md : Mode) (x m : Val) : Val := addVal md x (negVal m)

/-- An N8 numerator. -/
def softInt (t : Val) : Nat :=
  match exp2Val 255 t with
  | .nan => 0
  | .inf _ => 255
  | .fin _ m e => (clampInt 0 255 (roundInt .rne false m e)).toNat

/-- A SOFTROW element's result, with its row's maximum. DEDUCED, assumption 38. -/
def softElem (c : V512) (m x : Val) : Nat :=
  let md := exMode c
  if exOut c = .n8 then softInt (softArg md x m)
  else roundFloat (floatForm .bf16) md (exSat c) (exp2Val 1 (softArg md x m))

/-- The sum word of a row once all its elements are written. DEDUCED, assumption 38. -/
def softSum (c : V512) (old : Nat) (qs : List Nat) : Nat :=
  if exOut c = .n8 then Nat.min (old + qs.foldl (· + ·) 0) (2 ^ 32 - 1)
  else
    let md := exMode c
    let inner := qs.foldl (fun a q => addVal md a (floatVal (floatForm .bf16) q)) (.fin false 0 0)
    roundFloat (floatForm .fp32) md (exSat c) (addVal md (floatVal (floatForm .fp32) old) inner)

/-- The next of a SOFTROW: a row's maximum, its next elements, or with its last ones its sum. -/
def softStep (s : State) (core : Nat) (r : Running) : State × Running :=
  let c := r.c.card
  let row := r.row / exCount c
  match r.acc with
  | [] => (s, { r with acc := [spadNat s core (exAux c + 4 * row) 4] })
  | m :: before =>
    let qs := (List.range (exPart c r.row)).map (fun i =>
      softElem c (floatVal (floatForm .fp32) m) (exInput s core c (r.row + i)))
    let t := exPut s core c r.row qs
    let next := r.row + qs.length
    if next % exCount c != 0 then (t, { r with row := next, acc := m :: (before ++ qs) })
    else
      let at_ := exAux c + 4 * exRows c + 4 * row
      (spadPut t core at_ 4 (softSum c (spadNat t core at_ 4) (before ++ qs)), { r with row := next, acc := [] })

-- Cards (R355).

def State.modExponent (s : State) (core : Nat) (g : Exponent → Exponent) : State :=
  let u := s.liveUnit core
  s.setLiveUnit core { u with exponent := g u.exponent }

/-- exq of a card, under the rules of R313. -/
def pushExponent (s : State) (c : V512) : Act State := do
  unitsReady s
  let cd ← pushCword s (cardCword c) 16
  let u := s.myUnit
  waitFor (u.exponent.queue.length < 2 && hazardRoom u) s
  let reads := regionOf (dwordOf c 4)
  let writes := regionOf (dwordOf c 5)
  let s ← pushRelease s reads writes
  let u := s.myUnit
  let e := { u.exponent with queue := u.exponent.queue ++ [{ job := u.nextJob, card := c }] }
  .ok (s.setMyUnit ({ u with exponent := e }.addJob .exponent reads writes s.cur cd))

/-- The card that runs, if its operation is one an event performs; the head of the queue starts when the hazard edges
allow it. -/
def runningCard (s : State) (core : Nat) (mine : Nat → Bool) : Option (State × Running) :=
  let u := s.liveUnit core
  if !unitsLive s core then none
  else
    match u.exponent.run with
    | some r => if mine (exOp r.c.card) && !r.ended then some (s, r) else none
    | none =>
      match u.exponent.queue with
      | [] => none
      | c :: rest =>
        if mine (exOp c.card) && unitsStart s core && jobFree u.jobs c.job then
          let r : Running := { c := c }
          some (s.modExponent core (fun _ => { queue := rest, run := some r }), r)
        else none

/-- The card ends with a status. -/
def exEnd (s : State) (core : Nat) (r : Running) (status : Nat) : State :=
  let s := s.modExponent core (fun e => { e with run := some { r with status := status, ended := true } })
  s.setLiveUnit core ((s.liveUnit core).modJob r.c.job (fun j => { j with readsDone := true }))

/-- The bytes that the next of a card touches can be accessed now. -/
def exFree (s : State) (core : Nat) (r : Running) : Bool :=
  let c := r.c.card
  let n := exPart c r.row
  let free (at_ n : Nat) : Bool := spadFree s core (s.ctxOf core) (.exponent core) at_ n
  free (exSrc c + r.row * tySize (exIn c)) (n * tySize (exIn c)) &&
    free (exDst c + r.row * tySize (exOut c)) (n * tySize (exOut c)) &&
    (exOp c != 4 || (free (exAux c + 4 * (r.row / exCount c)) 4 &&
      free (exAux c + 4 * exRows c + 4 * (r.row / exCount c)) 4))

/-- One event of a card: its refusal, or its next elements. -/
def exEvent (core : Nat) (mine : Nat → Bool) (part : State → Nat → Running → State × Running) (s : State) : Result :=
  match runningCard s core mine with
  | none => .next s
  | some (t, r) =>
    let c := r.c.card
    match lowestReport (exChecks c) with
    | some p => .next (exEnd t core r (reservedStatus false p))
    | none =>
      if exCount c = 0 then .next (exEnd t core r 0)
      else
        match exRefusal c with
        | some st => .next (exEnd t core r st)
        | none =>
          if !exFree t core r then .next t
          else
            let (t, r) := part t core r
            if r.row ≥ exRows c * exCount c then .next (exEnd t core r 0)
            else .next (t.modExponent core (fun e => { e with run := some r }))

/-- EXP2 also refuses a card with a reserved operation (R352). -/
def execExp2 (core : Nat) (s : State) : Result := exEvent core (fun op => op = 0 || op > 4) exStep s
def execExpe (core : Nat) (s : State) : Result := exEvent core (· = 1) exStep s
def execRecip (core : Nat) (s : State) : Result := exEvent core (· = 2) exStep s
def execRsqrt (core : Nat) (s : State) : Result := exEvent core (· = 3) exStep s
def execSoftrow (core : Nat) (s : State) : Result := exEvent core (· = 4) softStep s

/-- The completion record of a card (R323, R355). -/
def execExpCardComplete (core : Nat) (s : State) : Result :=
  let u := s.liveUnit core
  match u.exponent.run with
  | some r =>
    if !r.ended || !unitsLive s core then .next s
    else
      engineEvent s (.exponent core) (some r.c.job) (do
        let t ← completeAt s core (.exponent core) r.c.job (((u.job r.c.job).map (·.cdest)).getD none)
          (completionBytes r.c.card r.status)
        let t := t.modExponent core (fun e => { e with run := none })
        .ok (t.endJob core (.exponent core) r.c.job)) (fun t _ => t) (fun t _ _ _ => t)
  | none => .next s

-- Instructions.

/-- exq (R355). -/
def execExq (f : Fmt) (s : State) : Result :=
  onCompute s <| scalarRun f s do
    let c ← cardOperand s f
    let s ← pushExponent s c
    putNone f s

/-- A card stored to the port window (R34). -/
def execExpush (card : V512) (s : State) : Result := onPort 0x2000 s (settle (pushExponent s card))

end Sys2Proof.Machine
end

