-- ==== Sys2Proof/Machine/Harrow.lean ====
section
/-! DEFINITION. The Harrow: microwords, pushes for the starter hart, stops and instructions (R356 to R360). -/

namespace Sys2Proof.Machine

def State.modHarrow (s : State) (core : Nat) (g : Harrow → Harrow) : State :=
  let u := s.liveUnit core
  s.setLiveUnit core { u with harrow := g u.harrow }

-- Microwords (R357).

def hwOp (w : W64) : Nat := slice w.toNat 63 58
def hwHa (w : W64) : Fin 8 := Fin.ofNat 8 (slice w.toNat 57 55)
def hwHb (w : W64) : Fin 8 := Fin.ofNat 8 (slice w.toNat 54 52)
def hwX (w : W64) : Nat := slice w.toNat 51 48
/-- Bits hi:lo of Y. -/
def hwY (w : W64) (hi lo : Nat) : Nat := slice w.toNat hi lo
def hwImm (w : W64) : Nat := slice w.toNat 31 0
def hwSimm (w : W64) : W64 := (BitVec.ofNat 32 (hwImm w)).signExtend 64

/-- Bit ranges that an operation uses. -/
def hwUses (op : Nat) : List (Nat × Nat) :=
  match op with
  | 1 => [(57, 55), (54, 52), (51, 48), (47, 33), (31, 23)]
  | 2 => [(47, 44)]
  | 3 => [(57, 55), (48, 48), (31, 0)]
  | 4 => [(57, 55), (54, 52), (31, 0)]
  | 5 => [(57, 55), (31, 0)]
  | 6 => [(57, 55), (54, 52), (31, 0)]
  | 7 => [(57, 55), (54, 52), (49, 48), (9, 0)]
  | 8 => [(57, 55), (9, 0)]
  | 10 => [(57, 55), (54, 52), (50, 48), (31, 0)]
  | 11 => [(14, 0)]
  | _ => []

/-- A code from 13 on, or a nonzero bit that its operation does not use; engine 3 is not used (R357, R358). -/
def hwBad (w : W64) : Bool :=
  let op := hwOp w
  decide (op ≥ 13) ||
    (List.range 58).any (fun i => w.getLsbD i && !(hwUses op).any (fun p => p.2 ≤ i && i ≤ p.1)) ||
    ((op == 1 || op == 2) && hwY w 47 46 == 3)

-- Running.

def Harrow.trap (h : Harrow) (code : Nat) : Harrow := { h with st := .trapped, trapCode := code }
/-- Go to a microword; past 1,023 the Harrow traps. -/
def Harrow.goto (h : Harrow) (pc : Nat) : Harrow := if pc > 1023 then h.trap 0x8004 else { h with pc := pc }
def Harrow.bump (h : Harrow) : Harrow := h.goto (h.pc + 1)
def Harrow.setH (h : Harrow) (r : Fin 8) (v : W64) : Harrow := { h with h := h.h.set r v }

/-- A core's Harrow runs its next microword, if that has the operation an event performs. A word that is none traps, in
whichever event meets it. -/
def harrowRun (core op : Nat) (body : State → Harrow → W64 → Result) (s : State) : Result :=
  let h := (s.liveUnit core).harrow
  let w := Tab.get 0 h.code h.pc
  if !unitsStart s core || h.st != .running then .next s
  else if hwOp w != op && !(decide (hwOp w ≥ 13) && op == 11) then .next s
  else if hwBad w then .next (s.modHarrow core (·.trap 0x8001))
  else body s h w

/-- A microword that only changes the Harrow. -/
def harrowPure (core op : Nat) (g : Harrow → W64 → Harrow) (s : State) : Result :=
  harrowRun core op (fun s h w => .next (s.modHarrow core (fun _ => g h w))) s

def execHarrowNop (core : Nat) (s : State) : Result := harrowPure core 0 (fun h _ => h.bump) s
def execHarrowSeti (core : Nat) (s : State) : Result :=
  harrowPure core 5 (fun h w => (h.setH (hwHa w) (hwSimm w)).bump) s
def execHarrowAddi (core : Nat) (s : State) : Result :=
  harrowPure core 6 (fun h w => (h.setH (hwHa w) (h.h[hwHb w] + hwSimm w)).bump) s

/-- The conditions of CMPB. -/
def hwCond (x : Nat) (a b : W64) : Bool :=
  match x with
  | 0 => a == b
  | 1 => a != b
  | 2 => a.slt b
  | _ => !a.slt b

def execHarrowCmpb (core : Nat) (s : State) : Result :=
  harrowPure core 7 (fun h w =>
    if hwCond (hwX w) h.h[hwHa w] h.h[hwHb w] then h.goto (hwImm w % 1024) else h.bump) s

def execHarrowLoop (core : Nat) (s : State) : Result :=
  harrowPure core 8 (fun h w =>
    if h.stack.length ≥ 4 then h.trap 0x8002
    else if h.h[hwHa w] = 0 then h.goto (hwImm w % 1024 + 1)
    else Harrow.bump { h with stack := (h.pc + 1, h.h[hwHa w]) :: h.stack }) s

def execHarrowEndl (core : Nat) (s : State) : Result :=
  harrowPure core 9 (fun h _ =>
    match h.stack with
    | [] => h.trap 0x8003
    | (start, n) :: rest =>
      if n = 1 then Harrow.bump { h with stack := rest }
      else Harrow.goto { h with stack := (start, n - 1) :: rest } start) s

/-- TRAP; also the words whose code is from 13 on. -/
def execHarrowTrap (core : Nat) (s : State) : Result :=
  harrowPure core 11 (fun h w => { h.trap (hwImm w % 2 ^ 15) with pc := (h.pc + 1) % 1024 }) s

/-- END: pushes are made by the ISSUE itself, so none is outstanding. DEDUCED, assumption 39. -/
def execHarrowEnd (core : Nat) (s : State) : Result :=
  harrowPure core 12 (fun h _ => { h with st := .idle, pc := (h.pc + 1) % 1024 }) s

-- Waits.

/-- An engine, or a copy channel, holds no queued and no running job. -/
def engineIdle (u : Units) (engine ch : Nat) : Bool :=
  match engine with
  | 0 => u.matrix.cards.isEmpty
  | 1 => u.exponent.queue.isEmpty && u.exponent.run.isNone
  | _ =>
    let k := u.copy.chans[(Fin.ofNat 4 ch : Fin 4)]
    k.queue.isEmpty && k.run.isNone

def execHarrowWaitq (core : Nat) (s : State) : Result :=
  harrowRun core 2 (fun s _ w =>
    if engineIdle (s.liveUnit core) (hwY w 47 46) (hwY w 45 44) then .next (s.modHarrow core (·.bump)) else .next s) s

def execHarrowWaitwm (core : Nat) (s : State) : Result :=
  harrowRun core 3 (fun s h w =>
    let t : Fin 2 := Fin.ofNat 2 (hwX w)
    if Nat.min (h.h[hwHa w] + hwSimm w).toNat 128 ≤ (s.liveUnit core).matrix.wm[t] then .next (s.modHarrow core (·.bump))
    else .next s) s

-- Accesses (R357, R359).

/-- XLATE stops the Harrow, with a packet that names the microword and the address. -/
def harrowStop (s : State) (core : Nat) (f : TrapInfo) : State :=
  let s := s.modHarrow core (fun h => { h with st := .stopped })
  s.sendPacket (.harrow core) (s.ctxOf core) (BitVec.ofNat 64 (s.liveUnit core).harrow.pc) f

/-- An access of the Harrow. -/
def harrowAccess (core : Nat) (r : Eng State) (s : State) : Result :=
  engineEvent s (.harrow core) none r (fun t f => harrowStop t core f)
    (fun t code _ _ => t.modHarrow core (·.trap (0x8100 + code)))

/-- DEDUCED, assumption 39. -/
def harrowAligned (s : State) (va : W64) : Eng Unit :=
  if va.toNat % 8 = 0 then .ok () else .error (.bad s stAlign 0 va)

/-- WAITC. -/
def execHarrowWaitc (core : Nat) (s : State) : Result :=
  harrowRun core 4 (fun s h w =>
    let va := h.h[hwHa w] + hwSimm w
    harrowAccess core (do
      harrowAligned s va
      let (t, v) ← engReadNat s (engineWho s core) (.harrow core) 0 va 8
      if v = (h.h[hwHb w]).toNat then .ok (t.modHarrow core (·.bump)) else .ok t) s) s

/-- SIGNAL. The scope codes 6 and 7 are refused as R158 refuses them. DEDUCED, assumption 39. -/
def execHarrowSignal (core : Nat) (s : State) : Result :=
  harrowRun core 10 (fun s h w =>
    let va := h.h[hwHa w] + hwSimm w
    harrowAccess core (do
      if hwX w > 5 then .error (.bad s stReserved 0 va)
      harrowAligned s va
      let t ← engWrite1 s (engineWho s core) (.harrow core) 0 va (leBytes 8 (h.h[hwHb w]).toNat)
      .ok (t.modHarrow core (·.bump))) s) s

-- ISSUE (R358).

/-- Add to a doubleword of a card, mod 2^64. -/
def addDword (c : V512) (d : Nat) (v : W64) : V512 :=
  BitVec.ofNat 512 (setSlice c.toNat (64 * d + 63) (64 * d) (dwordOf c d + v).toNat)

/-- The card that an ISSUE makes of its template. -/
def issueCard (h : Harrow) (w : W64) : V512 :=
  let c := Tab.get 0 h.tmpl (hwX w)
  let c := if hwY w 43 43 = 1 then addDword c (hwY w 42 40) (h.h[hwHa w] <<< hwY w 39 34) else c
  if hwY w 33 33 = 1 then addDword c (hwY w 31 29) (h.h[hwHb w] <<< hwY w 28 23) else c

/-- The trap code of a push's fault; QUEUE_UNBOUND has no status code, so the spec names no value for it
(assumption 2). -/
def issueTrap (s : State) (f : TrapInfo) : State × Nat :=
  match f.code with
  | .queueUnbound => ({ s with draws := s.draws + 1 }, 0x8100 + (Config.freeValue s.draws).toNat % 256)
  | _ =>
    match engFault s f with
    | .bad _ c _ _ => (s, 0x8100 + c)
    | _ => (s, 0x8100)

/-- ISSUE: the push is made for the starter hart. DEDUCED, assumption 39. -/
def execHarrowIssue (core : Nat) (s : State) : Result :=
  harrowRun core 1 (fun s h w =>
    let c := issueCard h w
    let s1 : State := { s with cur := h.starter }
    let back (t : State) : State :=
      { t.setHart h.starter { t.hart h.starter with inRel := (s.hart h.starter).inRel } with cur := s.cur }
    let r := match hwY w 47 46 with
      | 0 => pushMatrix s1 c
      | 1 => pushExponent s1 c
      | _ => pushCopy s1 (Fin.ofNat 4 (hwY w 45 44)) c
    match r with
    | .ok t => .next ((back t).modHarrow core (·.bump))
    | .error (.wait t) => .next (back t)
    | .error (.fault t f) =>
      if f.code = .xlate then .next (harrowStop (back t) core f)
      else
        let (t, code) := issueTrap (back t) f
        .next (t.modHarrow core (·.trap code))) s

-- Commands (R359).

def Harrow.command (h : Harrow) (k : UnitCmd) : Harrow :=
  if h.st != .stopped then h
  else
    match k with
    | .resume => { h with st := .running }
    | .kill => h.trap 0x8006

/-- A command acts at once for the active context; for another it is recorded (R472). -/
def hrCommand (s : State) (core ctx : Nat) (k : UnitCmd) : State :=
  let u := s.unit core ctx
  if (s.core core).active = some ctx then s.setUnit core ctx { u with harrow := u.harrow.command k }
  else s.setUnit core ctx { u with harrow := { u.harrow with cmd := some k } }

def execHrcmdResume (core ctx : Nat) (s : State) : Result := .next (hrCommand s core ctx .resume)
def execHrcmdKill (core ctx : Nat) (s : State) : Result := .next (hrCommand s core ctx .kill)

-- Instructions (R360).

/-- The start of a run. -/
def startHarrow (s : State) (a b : W64) (entry : Nat) : Act State := do
  unitsReady s
  let u := s.myUnit
  waitFor (u.harrow.st = .idle || u.harrow.st = .trapped) s
  let h : Harrow := { u.harrow with
    h := ((Vector.replicate 8 0).set 0 a).set 1 b, stack := [], pc := entry % 1024, starter := s.cur, st := .running }
  .ok (s.setMyUnit { u with harrow := h })

/-- hstart. -/
def execHstart (f : Fmt) (s : State) : Result :=
  onCompute s <| scalarRun f s do
    let a ← src64 s f.a 0
    let b ← src64 s f.b 0
    let s ← startHarrow s a b f.imm.toNat
    putNone f s

/-- HSTART of the port window: the unused bits must be zero (R34). -/
def execHstartRegister (w : V512) (s : State) : Result :=
  onPort 0x3000 s <| settle do
    need (w.toNat / 2 ^ 138 = 0) s (accessFault causeWindow (portVa 0x3000))
    startHarrow s (dwordOf w 0) (dwordOf w 1) (dwordOf w 2).toNat

def HarrowState.num : HarrowState → Nat
  | .idle => 0 | .running => 1 | .trapped => 2 | .stopped => 3

/-- The Harrow's status word. -/
def harrowWord (h : Harrow) : W64 :=
  BitVec.ofNat 64 (h.stack.length * 2 ^ 48 + h.trapCode % 2 ^ 16 * 2 ^ 32 + h.pc * 2 ^ 16 + h.st.num)

def execHstat (f : Fmt) (s : State) : Result :=
  onCompute s <| scalarRun f s do
    unitsReady s
    put64 f s (harrowWord s.myUnit.harrow)

def execHstatH (f : Fmt) (s : State) : Result :=
  onCompute s <| scalarRun f s do
    unitsReady s
    put64 f s (s.myUnit.harrow.h[(Fin.ofNat 8 f.imm.toNat : Fin 8)])

/-- What an hload moves: entries from `first`, each of `size` bytes, below `limit`. -/
def loadHarrow (f : Fmt) (s : State) (b first count used limit size : Nat) (put : Harrow → Nat → Nat → Harrow) :
    Act State := do
  need (b / 2 ^ used = 0 && first + count ≤ limit) s (illegal 7)
  unitsReady s
  waitFor (s.myUnit.harrow.st != .running) s
  let va := xval s f.a
  aligned s va size
  let (t, bs) ← keepAnswers s (loadWords s va size count)
  let u := t.myUnit
  let h := (List.range count).foldl
    (fun h i => put h (first + i) (leNat ((bs.drop (size * i)).take size))) u.harrow
  putNone f (t.setMyUnit { u with harrow := h })

/-- hload.code: bits 9:0 and 26:16 of B, the others zero. -/
def execHloadCode (f : Fmt) (s : State) : Result :=
  onCompute s <| scalarRun f s do
    let v ← src64 s f.b 0
    let b := v.toNat
    need (slice b 15 10 = 0) s (illegal 7)
    loadHarrow f s b (slice b 9 0) (slice b 26 16 + 1) 27 1024 8
      (fun h i v => { h with code := Tab.put h.code i (BitVec.ofNat 64 v) })

/-- hload.tmpl: bits 3:0 and 20:16 of B, the others zero. -/
def execHloadTmpl (f : Fmt) (s : State) : Result :=
  onCompute s <| scalarRun f s do
    let v ← src64 s f.b 0
    let b := v.toNat
    need (slice b 15 4 = 0) s (illegal 7)
    loadHarrow f s b (slice b 3 0) (slice b 20 16 + 1) 21 16 64
      (fun h i v => { h with tmpl := Tab.put h.tmpl i (BitVec.ofNat 512 v) })

end Sys2Proof.Machine
end

