-- ==== Sys2Proof/Machine/Launch.lean ====
section
/-! DEFINITION. The launch unit: launch packets, their checks, reservations and grants, graph ends, lost slices, end
notices and the communication reserve (R194 to R196, R215 to R218, R389 to R401). -/

namespace Sys2Proof.Machine

-- Accesses of the device's own units, in a context but from no core.

/-- A walk of a unit that belongs to no core, from a table of a level (R39 to R43). -/
def devWalk (s : State) (ag : Agent) (ctx : Nat) (va : W64) (table level : Nat) : Nat → Eng (State × TlbEntry)
  | 0 => .error (.xlate s (xlateFault xMalformed va))
  | fuel + 1 =>
    let vpn := va.toNat % 2 ^ 55 / 2 ^ 16
    match physOf s (table % 2 ^ 46 + 8 * levelIndex vpn level) with
    | none => .error (.xlate s (xlateFault xAbsent va))
    | some a => do
      let (s, q) ← engOf (trip s { kind := .read, agent := ag, ctx := ctx, place := .mem a, size := 8 })
      engOf (peerCheck s q.status va)
      let p : W64 := BitVec.ofNat 64 q.data.toNat
      match pteStop s level p with
      | some c => .error (.xlate s (xlateFault c va))
      | none =>
        if pteLeaf p then
          let big := level == 2
          .ok (s, { ctx := ctx, big := big, vpn := if big then vpn / 2 ^ 13 else vpn, pte := p, entry := a })
        else devWalk s ag ctx va (pteFrame p * 2 ^ 16) (level + 1) fuel

/-- Translate for a unit that belongs to no core: by a leaf it has just used, else by a walk of its own. Local windows
belong to cores and are refused. DEDUCED, assumption 42. -/
def devResolve (s : State) (ag : Agent) (ctx : Nat) (a : Acc) (va : W64) (held : Option TlbEntry) : Eng (State × TlbEntry) := do
  if !canonical va then .error (.bad s stAccess causeNoncanonical va)
  if va.getLsbD 55 then .error (.bad s stAccess causeWindow va)
  let root := rootOf s ctx
  let (s, e) ←
    (match held.filter (fun e => e.hits ctx (va.toNat % 2 ^ 55 / 2 ^ 16)), rootStop s root with
     | some e, _ => .ok (s, e)
     | none, some c => .error (.xlate s (xlateFault c va))
     | none, none => devWalk s ag ctx va root.toNat 1 3)
  if permitted e.pte a then .ok (s, e) else .error (.bad s stAccess causePermission va)

/-- Read bytes at a place by request and response (R75, R86). -/
def placeRead (s : State) (ag : Agent) (ctx : Nat) (p : Option Place) (leaf : Option TlbEntry) (va : W64) (n : Nat) :
    Eng (State × List Byte) :=
  match p with
  | none => .error (.bad s stAccess causeAbsent va)
  | some p => do
    let enc := leaf.any (fun e => pteEnc e.pte)
    let r : Request := { kind := .read, agent := ag, ctx := ctx, place := p, size := n, leaf := leaf, enc := enc }
    let (s, q) ← engOf (trip s r)
    engOf (peerCheck s q.status va)
    .ok (s, leBytes n q.data.toNat)

/-- Read n bytes word by word, `fuel` words at most, with one translation for each page. -/
def devRead (s : State) (ag : Agent) (ctx : Nat) (va : W64) (n : Nat) (held : Option TlbEntry) :
    Nat → Eng (State × List Byte)
  | 0 => .ok (s, [])
  | fuel + 1 =>
    if n = 0 then .ok (s, [])
    else do
      let k := wordPart va n
      let (s, e) ← devResolve s ag ctx .load va held
      let (s, bs) ← placeRead s ag ctx (placeOf s (e.dpa va.toNat)) (some e) va k
      let (s, rest) ← devRead s ag ctx (va + BitVec.ofNat 64 k) (n - k) (some e) fuel
      .ok (s, bs ++ rest)

/-- Write bytes inside one 64-byte word. -/
def devWrite1 (s : State) (ag : Agent) (ctx : Nat) (va : W64) (bs : List Byte) : Eng State := do
  let (s, e) ← devResolve s ag ctx .store va none
  if pteEnc e.pte then .error (.bad s stAccess causeEncrypted va)
  match placeOf s (e.dpa va.toNat) with
  | none => .error (.bad s stAccess causeAbsent va)
  | some p => do
    let (s, q) ← engOf (trip s { kind := .write, agent := ag, ctx := ctx, place := p, size := bs.length, data := v512 bs
                                 leaf := some e })
    engOf (peerCheck s q.status va)
    .ok s

-- Launch packets (R389) and kernel headers (R215 to R218): lists of doublewords.

def dwAt (l : List W64) (i : Nat) : Nat := (l.getD i 0).toNat

/-- The doublewords of a byte string. -/
def dwords (bs : List Byte) : Nat → List W64
  | 0 => []
  | n + 1 => BitVec.ofNat 64 (leNat (bs.take 8)) :: dwords (bs.drop 8) n

def pkMask (p : List W64) : List Nat := (List.range 1024).filter (fun c => bitOf (dwAt p (16 + c / 64)) (c % 64))
def pkCtx (p : List W64) : Nat := dwAt p 2 % 64
def pkNtask (p : List W64) : Nat := dwAt p 3 % 2 ^ 16
def pkStride (p : List W64) : Nat := slice (dwAt p 3) 63 32
def pkTqres (p : List W64) : Nat := dwAt p 4 % 2 ^ 16
def pkScope (p : List W64) : Nat := dwAt p 7 % 8
def pkTemplate (p : List W64) : V512 :=
  BitVec.ofNat 512 (((List.range 8).map (fun i => dwAt p (8 + i) * 2 ^ (64 * i))).foldl (· + ·) 0)

/-- The lowest doubleword of a packet that fails the PACKET checks (R390). -/
def pkBad (p : List W64) : Option Nat :=
  let d := dwAt p
  (([(0, d 0 % 64 != 0), (2, d 2 ≥ 64), (3, slice (d 3) 31 16 != 0 || pkNtask p = 0),
     (4, d 4 ≥ 2 ^ 16 || pkTqres p = 0), (5, d 5 % 8 != 0), (7, d 7 ≥ 8 || pkScope p ≥ 6),
     (16, (pkMask p).isEmpty)] : List (Nat × Bool)).find? (·.2)).map (·.1)

/-- What the launch unit reads of a kernel (R390). -/
structure Kernel where
  head : List W64
  tables : List W64
  params : List Byte
  deriving DecidableEq, Repr

def Kernel.nqueue (k : Kernel) : Nat := slice (dwAt k.head 5) 23 16
def Kernel.nkey (k : Kernel) : Nat := slice (dwAt k.head 5) 31 24
def Kernel.npatch (k : Kernel) : Nat := slice (dwAt k.head 5) 47 32
def Kernel.textSize (k : Kernel) : Nat := dwAt k.head 2 % 2 ^ 32
def Kernel.scratch (k : Kernel) : Nat := dwAt k.head 3 % 2 ^ 32
def Kernel.spill (k : Kernel) : Nat := slice (dwAt k.head 3) 63 32
def Kernel.keyUses (k : Kernel) : List Nat := (List.range k.nkey).map (fun n => dwAt k.tables (2 * k.nqueue + n))

/-- The lowest doubleword, from the header's first byte, that fails the HEADER checks (R390). An NPATCH above the 4,095 of
R215 fails none: all its entries are read and applied. DESIGN CHOICE, assumption 76. -/
def Kernel.bad (k : Kernel) : Option Nat :=
  let d := dwAt k.head
  let fixed : List (Nat × Bool) :=
    [(2, slice (d 2) 63 32 != 0 || k.textSize = 0), (3, k.scratch > 393216 || k.scratch % 64 != 0),
     (5, slice (d 5) 63 48 != 0 || slice (d 5) 15 4 != 0 || k.nqueue > 16 || k.nkey > 16),
     (6, slice (d 6) 63 16 != 0), (7, d 7 != 0)]
  let uses := ((List.range k.nkey).zip k.keyUses).map (fun e =>
    (8 + 2 * k.nqueue + e.1, decide (e.2 ≥ 2 ^ 18) || slice e.2 17 16 = 0))
  ((fixed ++ uses).find? (·.2)).map (·.1)

/-- The patch entries (R216). -/
def Kernel.patches (k : Kernel) : List Patch :=
  (List.range k.npatch).map (fun n =>
    let e := dwAt k.tables (2 * k.nqueue + k.nkey + n)
    { ioff := slice e 31 0, poff := slice e 47 32, width := slice e 55 48, shift := slice e 63 56 })

def Patch.clashes (a b : Patch) : Bool := a.ioff == b.ioff && a.shift < b.shift + b.width && b.shift < a.shift + a.width

/-- BAD_PATCH (R195). -/
def Kernel.badPatch (k : Kernel) : Bool :=
  let ps := k.patches
  let one (p : Patch) : Bool :=
    p.ioff % 12 != 0 || p.ioff ≥ k.textSize || !(p.width == 8 || p.width == 16 || p.width == 32) ||
      p.shift + p.width > 32 || p.poff + p.width / 8 > k.params.length
  let rec clash : List Patch → Bool
    | [] => false
    | p :: qs => qs.any p.clashes || clash qs
  ps.any one || clash ps

/-- A queue declaration (R217). -/
structure QDecl where
  handle : Nat
  base : Nat
  size : Nat
  count : Nat
  bad : Bool
  deriving DecidableEq, Repr

def QDecl.top (q : QDecl) : Nat := q.base + q.count * q.size

/-- The queue declarations (R217): a reserved bit set makes one bad, which no rule gives a status of its own.
DESIGN CHOICE, assumption 76. -/
def Kernel.queues (k : Kernel) : List QDecl :=
  (List.range k.nqueue).map (fun n =>
    let a := dwAt k.tables (2 * n)
    let b := dwAt k.tables (2 * n + 1)
    let units := slice b 15 0
    let count := slice b 31 16
    let occ := slice b 47 32
    { handle := slice a 35 32, base := slice a 18 0, size := units * 64, count := count
      bad := slice a 63 36 != 0 || slice a 31 19 != 0 || slice b 63 48 != 0 || units = 0 || decide (units > 4096) ||
        count = 0 || occ = 0 || decide (occ > count) || slice a 18 0 % 64 != 0 })

/-- BAD_QUEUE (R217). -/
def Kernel.badQueue (k : Kernel) : Bool :=
  let qs := k.queues
  let rec clash : List QDecl → Bool
    | [] => false
    | q :: rs => rs.any (fun r => r.handle == q.handle || (q.base < r.top && r.base < q.top)) || clash rs
  qs.any (fun q => q.bad || q.top > k.scratch) || clash qs

-- The checks of R390.

/-- A launch that does not go on: it waits for a read, or is refused with a status and its detail. -/
inductive LaunchStop where
  | wait (s : State)
  | refuse (s : State) (code detail : Nat)
  deriving DecidableEq, Repr

abbrev Launching (α : Type) := Except LaunchStop α

def refuseIf (b : Bool) (s : State) (code : Nat) (detail : Nat := 0) : Launching Unit :=
  if b then .error (.refuse s code detail) else .ok ()

/-- A failed read gives ACCESS with the cause of R324; a miss counts as ABSENT, as R488 does. -/
def launchRead {α : Type} (r : Eng α) : Launching α :=
  match r with
  | .ok v => .ok v
  | .error (.wait s) => .error (.wait s)
  | .error (.xlate s _) => .error (.refuse s 3 causeAbsent)
  | .error (.bad s code detail _) => .error (.refuse s 3 (if code = stAccess then detail else 0))

/-- Read a kernel: its header, tables and parameter block. DEDUCED, assumption 53. -/
def readKernel (s : State) (ag : Agent) (p : List W64) : Launching (State × Kernel) := do
  let ctx := pkCtx p
  let at_ : W64 := BitVec.ofNat 64 (dwAt p 0)
  let (s, h) ← launchRead (devRead s ag ctx at_ 64 none (wordsFor 64))
  let k : Kernel := { head := dwords h 8, tables := [], params := [] }
  let nd := 2 * k.nqueue + k.nkey + k.npatch
  let (s, t) ← launchRead (devRead s ag ctx (at_ + 64) (8 * nd) none (wordsFor (8 * nd)))
  let n := dwAt k.head 6 % 2 ^ 16
  let (s, ps) ← launchRead (devRead s ag ctx (BitVec.ofNat 64 (dwAt p 1)) n none (wordsFor n))
  .ok (s, { k with tables := dwords t nd, params := ps })

/-- A core is held by an active launch (R391). -/
def heldCore (s : State) (c : Nat) : Bool := s.launches.any (fun l => l.2.mask.contains c)

/-- A masked core cannot take the context (R390, R391). -/
def coreRefuses (s : State) (ctx c : Nat) : Bool :=
  let k := s.core c
  !present s c || (!granted s c ctx && k.active.isSome && k.shadow.isSome) || heldCore s c

/-- The template as records are built from it: CODE 0 takes ENTRY; CTX is the launch's (R389, R391).
DEDUCED, assumption 42. -/
def templateOf (p : List W64) (k : Kernel) : V512 :=
  let t := pkTemplate p
  let t := if recCode t = 0 then recSetDword t 0 (BitVec.ofNat 64 (dwAt k.head 0)) else t
  recSetCtx t (pkCtx p)

def clustersOf (mask : List Nat) : List Nat := ((List.range 64).filter (fun cl => mask.any (fun c => clusterOf c == cl)))

/-- TASKQ (R394). -/
def taskqFull (s : State) (ctx tqres : Nat) (mask : List Nat) : Bool :=
  (clustersOf mask).any (fun cl =>
    let used := (s.launches.filter (fun l => (clustersOf l.2.mask).contains cl)).map (·.2.tqres)
    used.foldl (· + ·) tqres > 256 + (s.slot ctx).qback.toNat % 2 ^ 16)

/-- SPILL: the areas of four harts a core, in the spill reserve of each home (R390, R514). -/
def spillFull (s : State) (spill : Nat) (mask : List Nat) : Bool :=
  mask.any (fun c =>
    let home := homeOf s c
    let of_ (m : List Nat) (n : Nat) : Nat := (m.filter (fun d => homeOf s d == home)).length * (4 * 64 * n)
    (s.launches.map (fun l => of_ l.2.mask l.2.spill)).foldl (· + ·) (of_ mask spill) > 2 ^ 24)

/-- All checks in the order of R390. DEDUCED, assumption 42. -/
def launchChecks (s : State) (ag : Agent) (issuer : Nat) (sup : Bool) (p : List W64) : Launching (State × Kernel) := do
  match pkBad p with
  | some d => .error (.refuse s 1 d)
  | none => do
    let ctx := pkCtx p
    refuseIf ((ctx != issuer && !sup) || (s.slot ctx).st != .active) s 2
    let (s, k) ← readKernel s ag p
    match k.bad with
    | some d => .error (.refuse s 4 d)
    | none => do
      refuseIf k.badPatch s 5
      refuseIf k.badQueue s 6
      refuseIf (k.keyUses.any (fun e => !keyOk s ctx (e % 2 ^ 16))) s 7
      let mask := pkMask p
      refuseIf (mask.any (coreRefuses s ctx)) s 8
      refuseIf (s.launches.length ≥ 64) s 9
      refuseIf (recBadForm (templateOf p k) || recBadAffinity s mask (templateOf p k)) s 10
      refuseIf (taskqFull s ctx (pkTqres p) mask) s 11
      refuseIf (spillFull s k.spill mask) s 12
      .ok (s, k)

-- Acceptance (R391).

/-- The four harts of a core. -/
def hartsOf (core : Nat) : List Nat := [0, 1, 2, 3].map (fun i => core * 4 + i)

/-- A core's bank for a context is cleared: scratchpad, engines, rings, Harrow and registers (R60, R391).
DEDUCED, assumption 42. -/
def clearBank (s : State) (core ctx : Nat) : State :=
  let s := spadZero s core ctx
  { s with
    units := Tab.drop s.units (core * 128 + ctx)
    harts := s.harts.filter (fun e => !((hartsOf core).any (fun h => e.1 == h * 128 + ctx))) }

/-- Step 1 on one core. -/
def grantCore (s : State) (ctx core : Nat) : State :=
  let k := s.core core
  if granted s core ctx then s
  else if k.active.isNone then (clearBank s core ctx).setCore core { k with active := some ctx }
  else (clearBank s core ctx).setCore core { k with shadow := some ctx, outSince := s.time }

/-- The launch unit may request the swap that brings in a context its grant finds or puts in a shadow bank; when it
does so the spec leaves open (R391, R473), so a free value decides (assumption 2). -/
def askSwap (s : State) (ctx core : Nat) : State :=
  let k := s.core core
  if k.shadow == some ctx && k.swapTo.isNone then
    let s1 : State := { s with draws := s.draws + 1 }
    if (Config.freeValue s.draws).getLsbD 0 then s1.setCore core { k with swapTo := some ctx } else s1
  else s

/-- Step 3 on one hart: its handles, its spill area, its handler. -/
def launchHart (s : State) (ctx : Nat) (k : Kernel) (hid : Nat) : State :=
  let h := s.bank hid ctx
  let qs := k.queues.map (·.handle)
  s.setBank hid ctx { h with
    qbind := Vector.ofFn (fun n : Fin 16 => if qs.contains n.val then mkQbind true false 0 0 0 else 0)
    roles := [], spillMax := k.spill, ivec := (s.slot ctx).handler }

/-- Step 3 on one core: the header's rings, with both counters zero (R249). -/
def launchCore (s : State) (ctx : Nat) (k : Kernel) (core : Nat) : State :=
  let u := s.unit core ctx
  let ringOf (n : Nat) : Ring :=
    match k.queues.find? (fun q => q.handle == n) with
    | some q => { decl := true, base := q.base, slotBytes := q.size, count := q.count }
    | none => {}
  let s := s.setUnit core ctx { u with rings := Vector.ofFn (fun n : Fin 16 => ringOf n.val), links := [], pipes := [] }
  (hartsOf core).foldl (fun s h => launchHart s ctx k h) s

def freeGraph (s : State) : Nat := ((List.range 64).find? (fun g => (s.launch g).isNone)).getD 0

/-- The deadline of the launch's records (R395). -/
def launchDeadline (s : State) (ctx : Nat) (k : Kernel) (t : V512) : W64 :=
  let c := dwAt k.head 5 % 16
  if recDeadline t != 0 then recDeadline t
  else if c = 0 then 0
  else BitVec.ofNat 64 s.time + (s.slot ctx).reldl[Fin.ofNat 16 c]

/-- Enqueue the initial records i, i + 1, … (R391). -/
def enqueueInitial (s : State) (l : Launch) (t : V512) (stride : Nat) (cls : List Nat) (i : Nat) : Nat → State
  | 0 => s
  | n + 1 =>
    let r := recSetDword (recSetDword t 1 (recFrame t + BitVec.ofNat 64 (i * stride))) 7 (recArg1 t + BitVec.ofNat 64 i)
    let q := queueFor l r (lowest l.mask) (if recComm r then none else some (cls.getD (i % cls.length) 0))
    enqueueInitial (enqueueAt s q { record := r }) l t stride cls (i + 1) n

/-- Accept a launch: its graph id and the state (R391). -/
def acceptLaunch (s : State) (p : List W64) (k : Kernel) : State × Nat :=
  let ctx := pkCtx p
  let mask := pkMask p
  let s := mask.foldl (fun s c => grantCore s ctx c) s
  let s := mask.foldl (fun s c => launchCore s ctx k c) s
  let s := mask.foldl (fun s c => askSwap s ctx c) s
  let g := freeGraph s
  let l : Launch :=
    { ctx := ctx, mask := mask, text := BitVec.ofNat 64 (dwAt k.head 1), textSize := k.textSize
      entry := BitVec.ofNat 64 (dwAt k.head 0), patches := k.patches, params := k.params
      budget := BitVec.ofNat 64 (dwAt k.head 4), scope := pkScope p, dword := BitVec.ofNat 64 (dwAt p 5)
      dvalue := BitVec.ofNat 64 (dwAt p 6), tqres := pkTqres p, spill := k.spill, own := pkNtask p }
  let t := recSetOrigin (recSetGraph (templateOf p k) g) originLaunch
  let t := recSetDword t 3 (launchDeadline s ctx k t)
  (enqueueInitial (s.setLaunch g l) l t (pkStride p) (clustersOf mask) 0 (pkNtask p), g)

/-- Run a packet: the state and the status word of R390. -/
def runLaunch (s : State) (ag : Agent) (issuer : Nat) (sup : Bool) (p : List W64) : Eng (State × W64) :=
  match launchChecks s ag issuer sup p with
  | .ok (t, k) =>
    let (t, g) := acceptLaunch t p k
    .ok (t, BitVec.ofNat 64 (g * 2 ^ 16))
  | .error (.refuse t code detail) => .ok (t, BitVec.ofNat 64 (detail % 256 * 2 ^ 8 + code))
  | .error (.wait t) => .error (.wait (retry s t))

/-- LAUNCH_UNIT_PROCESS (R390, R500): the launch unit runs the packet of a slot's doorbell, writes RESULT, clears BUSY
and raises MSI-X vector 0. DESIGN CHOICE, assumption 51. -/
def execLaunchUnitProcess (slot : Nat) (s : State) : Result :=
  let c := s.slot slot
  if !c.rung then .next s
  else
    match runLaunch s (.launcher slot) slot false c.packet.toList with
    | .ok (t, w) =>
      let c := t.slot slot
      .next (t.setSlot slot { c with busy := false, rung := false, result := w, msix := c.msix + 1 })
    | .error (.wait t) => .next t
    | .error _ => .next s

-- Dispatch and loss (R396, R399).

/-- TASK_DISPATCH (R396, R398, R401). -/
def execTaskDispatch (hart : Nat) (s : State) : Result := .next (dispatch s hart)

/-- A slice's core has not run its context again within the slot's MIGRATE interval (R399). -/
def abandoned (s : State) (hart ctx : Nat) : Bool :=
  let k := s.core (coreOf hart)
  let m := (s.slot ctx).migrate.toNat
  (s.bank hart ctx).slice.isSome && k.shadow == some ctx && m != 0 && decide (k.outSince + m ≤ s.time)

/-- MIGRATE_ABANDON (R399): the slice is lost and the hart's saved state discarded. -/
def execMigrateAbandon (hart ctx : Nat) (s : State) : Result :=
  if abandoned s hart ctx then
    let t := loseSlice (discardLines s hart ctx) hart ctx
    let h := t.bank hart ctx
    .next (t.setBank hart ctx { h with frozen := false, killNext := false, cmd := none, inRel := false, dead := allDead })
  else .next s

-- Headland counters (R400).

/-- END_NOTICE (R400). -/
def execEndNotice (n : Nat) (s : State) : Result := .next (noticeArrives s n)

/-- END_NOTICE_ACK (R400). -/
def execEndNoticeAck (n : Nat) (s : State) : Result := .next (noticeAcked s n)

-- Graph ends (R392).

/-- Jobs, tours and programs begun by the harts of a core have completed: a tour is a job of the core whose hart issued it
(R392, R416). -/
def coreQuiet (s : State) (ctx core : Nat) : Bool :=
  let u := s.unit core ctx
  u.jobs.isEmpty && u.copy.chans.toList.all (fun c => c.st == .idle) &&
    (u.harrow.st == .idle || u.harrow.st == .trapped)

/-- A graph whose device counter is zero and whose engines are quiet. -/
def graphDone (s : State) (g : Nat) (l : Launch) : Bool :=
  headlandZero s g l && l.mask.all (coreQuiet s l.ctx)

/-- A pipeline ends with its controller's launch (R426): its stages are free to join another, its markers gone and its
hold ended; what its OUT handles still publish goes on to the next rings. DEDUCED, assumption 41. -/
def endPipe (s : State) (ctx core : Nat) (e : Nat × Pipe) : State :=
  let key := core * 2 ^ 16 + e.1
  let its (m : RingMsg) : Bool := m.ctx == ctx && (match m.body with
    | .marker k => k.pipe == key
    | _ => false)
  let s : State := { s with ringNet := s.ringNet.filter (fun m => !its m) }
  let x := e.2.splice
  let stages := e.2.stages.map (·.2) ++ (e.2.reserved.map (·.2)).toList ++ (x.bind (·.leaver)).toList
  let s := stages.foldl (fun s st =>
    let r := s.ring st.core ctx st.ring
    s.setRing st.core ctx st.ring { r with
      member := if r.member.any (fun m => m.1 == key) then none else r.member
      markers := r.markers.filter (fun m => m.pipe != key) }) s
  match x.bind (·.holding) with
  | some (c, k) =>
    match s.link c ctx k with
    | some l => s.setLink c ctx k { l with held := false }
    | none => s
  | none => s

/-- Markers that stand in a core's rings as its launch ends go to their stages again, which are gone (R433). -/
def strandMarkers (s : State) (ctx core : Nat) : State :=
  let out := (List.range 16).flatMap (fun n =>
    (s.ring core ctx n).markers.map (fun m =>
      ({ src := core, dst := core, ctx := ctx, ring := n, link := 0, staged := true, body := .marker m } : RingMsg)))
  { s with ringNet := s.ringNet ++ out }

/-- The rings, handles and spill areas of a core are freed (R392). -/
def freeCore (s : State) (ctx core : Nat) : State :=
  let s := strandMarkers ((s.unit core ctx).pipes.foldl (fun s e => endPipe s ctx core e) s) ctx core
  let u := s.unit core ctx
  let s := u.links.foldl (fun s e =>
    let r := s.ring e.2.core ctx e.2.ring
    if r.peer == some (core, e.1) then s.setRing e.2.core ctx e.2.ring { r with peer := none } else s) s
  let u := s.unit core ctx
  let s := s.setUnit core ctx { u with rings := Vector.replicate 16 {}, links := [], pipes := [] }
  (hartsOf core).foldl (fun s h =>
    s.setBank h ctx { s.bank h ctx with qbind := Vector.replicate 16 0, roles := [], spillMax := 0, spill := [] }) s

/-- Free what a launch holds (R392); what is sent to its rings from now on waits without limit (R426). -/
def freeLaunch (s : State) (g : Nat) (l : Launch) : State :=
  let s := l.mask.foldl (fun s c => freeCore s l.ctx c) s
  let gone (m : RingMsg) : Bool := m.ctx == l.ctx && l.mask.contains m.dst && (match m.body with
    | .slot _ _ => true
    | .publish _ => true
    | _ => false)
  { s with
    launches := Tab.drop s.launches g
    ringNet := (s.ringNet.filter (fun m => !(m.ctx == l.ctx && l.mask.contains m.dst && !m.staged))).map (fun m =>
      if gone m then { m with dead := true } else m)
    units := s.units.map (fun e => if e.1 % 128 = l.ctx then (e.1, { e.2 with
      links := e.2.links.map (fun k => if l.mask.contains k.2.core then (k.1, { k.2 with dead := true }) else k) }) else e) }

/-- GRAPH_END (R392): the graph-end word is written as a release at SCOPE, a write that cannot be made being dropped as
R158 gives, and everything the launch held is freed. DEDUCED, assumption 42. -/
def execGraphEnd (g : Nat) (s : State) : Result :=
  match s.launch g with
  | none => .next s
  | some l =>
    if !graphDone s g l then .next s
    else if l.dword = 0 then .next (freeLaunch s g l)
    else
      match devWrite1 s (.launcher l.ctx) l.ctx l.dword (leBytes 8 l.dvalue.toNat) with
      | .ok t => .next (freeLaunch t g l)
      | .error (.wait t) => .next (retry s t)
      | .error (.xlate t _) => .next (freeLaunch t g l)
      | .error (.bad t _ _ _) => .next (freeLaunch t g l)

-- The communication reserve (R401).

/-- RESERVE_ADJUST (R401): once in each period of 65,536 ticks, k moves by at most one and keeps its bounds.
DEDUCED, assumption 42. -/
def execReserveAdjust (die ctx : Nat) (s : State) : Result :=
  let key := die * 64 + ctx
  let period := s.time / 65536
  if ctx ≥ 64 || period ≤ Tab.get 0 s.reserveAt key then .next s
  else
    let n := (grantedOn s die ctx).length
    let waiting := ((s.queue (.comm die)).filter (fun e => recCtx e.record == ctx)).length
    let k := Tab.get 1 s.reserve key
    let k := if waiting > s.hi then k + 1 else if waiting < s.lo then k - 1 else k
    let k := Nat.max 1 (Nat.min k (Nat.min 16 (n - 1)))
    .next { s with reserve := Tab.put s.reserve key k, reserveAt := Tab.put s.reserveAt key period }

end Sys2Proof.Machine
end

