-- ==== Sys2Proof/Machine/Traps.lean ====
section
/-! DEFINITION. The trap queues of the clusters, and the steading's for the supervisor harts (R463, R465 to R468). -/

namespace Sys2Proof.Machine

/-- The packet's fields that admission reads: its member and whether it is FATAL (R464). -/
def entryMember (v : Nat) : Nat := slice v 15 12
def entryFatal (v : Nat) : Bool := bitOf v 80

def Packet.word (p : Packet) (i : Nat) : Nat := ((p.dw[i]?).getD 0).toNat
def Packet.bytes (p : Packet) : List Byte := (p.dw.map (fun w => leBytes 8 w.toNat)).flatten
def Packet.low (p : Packet) : Nat := leNat (p.bytes.take 16)

/-- The number under which the steading's queue stands beside those of the 64 clusters. -/
def steadingQueue : Nat := 64

/-- The queue that a packet goes to (R463). -/
def Packet.cluster (p : Packet) : Nat :=
  match p.src with
  | .hart id => if isSup id then steadingQueue else clusterOf (coreOf id)
  | src => clusterOf src.core

/-- Where a cluster's queue lies, if its base has been written (R466). -/
def trapQueueAt (s : State) (cluster : Nat) : Option Nat :=
  match s.trapBase.find? (fun e => e.1 == cluster) with
  | none => none
  | some e => physOf s (e.2.toNat % 2 ^ 46)

/-- Entry i of the queue at a base, in the view that TRAPBASE uses. -/
def trapEntryAt (s : State) (cluster i : Nat) : Option Nat :=
  physOf s (((Tab.get 0 s.trapBase cluster).toNat + 64 + 64 * (i % 256)) % 2 ^ 46)

/-- Packets from CONS up to PROD. -/
def TrapUnit.count (u : TrapUnit) : Nat := Nat.min 256 ((u.prod + 2 ^ 64 - u.cons) % 2 ^ 64)

/-- CONS as read: the packets before it are consumed. -/
def TrapUnit.consAt (u : TrapUnit) (cons : Nat) : TrapUnit :=
  let v : TrapUnit := { u with cons := cons }
  { v with live := u.live.drop (u.live.length - v.count) }

/-- General entries occupied: every unconsumed packet but the first FATAL one of each member (R467). -/
def generalUsed : List (Nat × Bool) → List Nat → Nat
  | [], _ => 0
  | (m, fatal) :: rest, held =>
    if fatal && !held.contains m then generalUsed rest (m :: held) else generalUsed rest held + 1

/-- A packet is admitted among the unconsumed ones, `older` general entries besides (R467). -/
def admits (q : List (Nat × Bool)) (older m : Nat) (fatal : Bool) : Bool :=
  (fatal && !q.any (fun e => e.1 == m && e.2)) || older + generalUsed q [] < 240

/-- Member and FATAL of packets. -/
def packetMarks (l : List Packet) : List (Nat × Bool) := l.map (fun e => (entryMember e.low, entryFatal e.low))

/-- A packet is admitted by what a unit knows of its queue: packets that stood in it before its base was written count
as general entries. DESIGN CHOICE, assumption 73. -/
def TrapUnit.fits (u : TrapUnit) (p : Packet) : Bool :=
  admits (packetMarks u.live) (u.count - u.live.length) (entryMember p.low) (entryFatal p.low)

/-- CONS as memory holds it. -/
def readCons (s : State) (a : Nat) : Nat := leNat (Mem.readN s.mem (a + 8) 8)

/-- The packet is its source's oldest (R465). -/
def oldestOfSource (s : State) (n : Nat) (p : Packet) : Bool := !(s.heldPackets.take n).any (fun q => q.src == p.src)

/-- The steading's queue takes the n-th held packet under the rules of a cluster's (R463, R467).
DESIGN CHOICE, assumption 55. -/
def steadingTake (s : State) (n : Nat) (p : Packet) : State :=
  if admits (packetMarks s.steadingQ) 0 (entryMember p.low) (entryFatal p.low) && oldestOfSource s n p then
    { s with
      steadingQ := s.steadingQ ++ [p], steadingProd := (s.steadingProd + 1) % 2 ^ 64
      heldPackets := s.heldPackets.eraseIdx n }
  else s

/-- The steading consumes the oldest packet of its queue. DESIGN CHOICE, assumption 55. -/
def steadingConsume (s : State) : State :=
  if s.steadingQ.isEmpty then s
  else { s with steadingQ := s.steadingQ.drop 1, steadingCons := (s.steadingCons + 1) % 2 ^ 64 }

/-- An access of a cluster's trap unit, by request and response (R71, R468). -/
def trapTrip (s : State) (cluster : Nat) (k : ReqKind) (a n : Nat) (d : V512) : Act (State × Response) :=
  trip s { kind := k, agent := .trap cluster, ctx := sysCtx, place := .mem a, size := n, data := d }

def State.setTrap (s : State) (cluster : Nat) (u : TrapUnit) : State := { s with trapUnits := Tab.put s.trapUnits cluster u }

/-- A unit reads CONS, and before its first packet the whole descriptor; where the read fails its check, again.
DESIGN CHOICE, assumption 73. -/
def trapReads (s : State) (cluster a : Nat) : Act State :=
  match s.trapUnits.find? (fun e => e.1 == cluster) with
  | none => do
    let (s, q) ← trapTrip s cluster .read a 64 0
    .ok (if q.status == .ok then s.setTrap cluster { prod := (dwordOf q.data 0).toNat, cons := (dwordOf q.data 1).toNat } else s)
  | some e => do
    let (s, q) ← trapTrip s cluster .read (a + 8) 8 0
    .ok (if q.status == .ok then s.setTrap cluster (e.2.consAt (q.data.toNat % 2 ^ 64)) else s)

/-- A unit writes the packet it has admitted into its entry, then PROD + 1, each performed before the next (R468); a
refused PROD is written again. DESIGN CHOICE, assumption 73. -/
def trapWrites (s : State) (cluster a : Nat) (u : TrapUnit) (p : Packet) : Act State :=
  match trapEntryAt s cluster u.prod with
  | none => .ok s
  | some e => do
    let next := (u.prod + 1) % 2 ^ 64
    let (s, _) ← trapTrip s cluster .write e 64 (v512 p.bytes)
    let (s, q) ← trapTrip s cluster .write a 8 (BitVec.ofNat 512 next)
    .ok (if q.status == .ok then
      { s.setTrap cluster { u with prod := next, live := u.live ++ [p], busy := none } with
        heldPackets := s.heldPackets.erase p }
    else s)

/-- TRAP_PACKET_ADMIT (R467, R468): the n-th held packet, its source's oldest, is admitted when what the unit knows of
its queue has room, and written; else CONS is read. -/
def execTrapPacketAdmit (n : Nat) (s : State) : Result :=
  match s.heldPackets[n]? with
  | none => .next s
  | some p =>
    if p.cluster = steadingQueue then .next (steadingTake s n p)
    else
      match trapQueueAt s p.cluster with
      | none => .next s
      | some a =>
        match s.trapUnits.find? (fun e => e.1 == p.cluster) with
        | none => agentEvent s (trapReads s p.cluster a)
        | some e =>
          match e.2.busy with
          | some b => if b == p then agentEvent s (trapWrites s p.cluster a e.2 p) else .next s
          | none =>
            if !oldestOfSource s n p then .next s
            else if e.2.fits p then .next (s.setTrap p.cluster { e.2 with busy := some p })
            else agentEvent s (trapReads s p.cluster a)

/-- TRAP_CONS_POLL (R467): while a packet of the cluster waits, CONS is read again. At the steading's own queue its
consumer moves on. -/
def execTrapConsPoll (cluster : Nat) (s : State) : Result :=
  if cluster = steadingQueue then .next (steadingConsume s)
  else
  match trapQueueAt s cluster with
  | none => .next s
  | some a =>
    if s.heldPackets.any (fun p => p.cluster == cluster) then agentEvent s (trapReads s cluster a) else .next s

end Sys2Proof.Machine
end

