-- ==== Sys2Proof/Machine/Tours.lean ====
section
/-! DEFINITION. Tours: itineraries, legs, reclaims, make-good visits, completion, the watchdog and the tour instructions
(R405 to R422). -/

namespace Sys2Proof.Machine

-- Tours as their origin keeps them (R409).

def State.tour? (s : State) (origin ctx id : Nat) : Option Tour :=
  ((s.unit origin ctx).tours.find? (fun e => e.1 == id)).map (·.2)
def State.modTour (s : State) (origin ctx id : Nat) (g : Tour → Tour) : State :=
  let u := s.unit origin ctx
  s.setUnit origin ctx { u with tours := u.tours.map (fun e => if e.1 = id then (e.1, g e.2) else e) }

/-- A delivery, release, reclaim or drop resets the watchdog (R418). -/
def Tour.moved (t : Tour) : Tour := { t with dog := 0 }
def Tour.owes (t : Tour) (i : Nat) : Bool := bitOf t.owed i
def Tour.owe (t : Tour) (i : Nat) : Tour := if t.owes i then t else { t with owed := t.owed + 2 ^ i }
def Tour.repay (t : Tour) (i : Nat) : Tour := if t.owes i then { t with owed := t.owed - 2 ^ i } else t
def Tour.stopAt (t : Tour) (i : Nat) : Nat × Nat × Nat := (t.stops[i]?).getD (0, 0, 0)
/-- The tour still runs: it is neither ended early nor stopped. -/
def Tour.runs (t : Tour) : Bool := t.status == 0 && t.st != .stopped

-- Slots (R408, R410).

/-- A job has begun to read the slot of an arrival (R318, R410). -/
def beingRead (m : Matrix) (ring arr : Nat) : Bool := (fetchers m).any (fun r => r.row != 0 && captures r.c ring arr)

/-- Void slots at the head are passed (R410). -/
def sweep (r : Ring) : Nat → Ring
  | 0 => r
  | n + 1 =>
    if r.filled > 0 && r.visits.any (fun v => v.void && v.arr == r.cp) then
      sweep { r with cp := (r.cp + 1) % 2 ^ 32, visits := r.visits.filter (fun v => v.arr != r.cp) } n
    else r

/-- The head slot leaves the ring. -/
def popHead (r : Ring) : Ring :=
  sweep { r with cp := (r.cp + 1) % 2 ^ 32, visits := r.visits.filter (fun v => v.arr != r.cp) } r.count

/-- The head slot leaves a ring, and the void slots behind it, which are freed as CP passes them (R410, R415). -/
def State.popHead (s : State) (core ctx n : Nat) : State :=
  let r := s.ring core ctx n
  let q := Machine.popHead r
  let passed := r.visits.filter (fun v => v.void && !v.ended && v.arr != r.cp && !q.visits.contains v)
  passed.foldl (fun s v => s.modTour v.origin ctx v.tourId (fun t => { t with open_ := t.open_ - 1 })) (s.setRing core ctx n q)

-- The course (R409, R414).

/-- Stops with a make-good visit on its way or in a captured slot. -/
def beingMade (s : State) (ctx : Nat) (t : Tour) (origin id i : Nat) : Bool :=
  t.legs.any (fun l => l.mg && l.stop == i) ||
    (let p := t.stopAt i
     (s.ring p.1 ctx p.2.1).visits.any (fun v => v.mg && v.stop == i && v.origin == origin && v.tourId == id && !v.ended))

/-- Finish: the owed visits are to be made good in ascending order of stops (R414). -/
def finishTour (s : State) (origin ctx id : Nat) : State :=
  match s.tour? origin ctx id with
  | none => s
  | some t =>
    let goods := if t.makegood then
        (List.range t.nstop).filter (fun i => t.owes i && !beingMade s ctx t origin id i) else []
    s.modTour origin ctx id (fun t =>
      { t with finished := true, goods := goods, st := if t.makegood then .makingGood else t.st })

/-- After stop i: the next leg, or Finish (R409). -/
def afterStop (s : State) (origin ctx id i : Nat) (end_ : Bool) (from_ : LegFrom) : State :=
  match s.tour? origin ctx id with
  | none => s
  | some t =>
    if end_ || (i + 1 = t.nstop && !t.loop) then finishTour s origin ctx id
    else
      let next := (i + 1) % t.nstop
      s.modTour origin ctx id (fun t =>
        { t with
          cur := next, laps := if next = 0 then t.laps + 1 else t.laps
          legs := t.legs ++ [{ stop := next, source := from_ }] })

/-- Reclaim a published visit (R410). -/
def reclaim (s : State) (core ctx ring : Nat) (v : Visit) : State :=
  let r := s.ring core ctx ring
  let captured := capturedBy (s.unit core ctx).matrix ring v.arr
  let mark (s : State) (g : Visit → Visit) : State :=
    s.setRing core ctx ring { r with visits := r.visits.map (fun x => if x.arr = v.arr then g x else x) }
  let s := s.modTour v.origin ctx v.tourId (fun t =>
    let t := (t.owe v.stop).moved
    if captured then
      { t with legs := t.legs ++ [{ stop := v.stop, source := .src, mg := true, into := some v.arr }] }
    else if v.arr = r.cp then { t with open_ := t.open_ - 1 }
    else t)
  let s := if captured then mark s (fun x => { x with mg := true, hold := 0, refill := true })
    else if v.arr = r.cp then s.popHead core ctx ring
    else mark s (fun x => { x with void := true })
  afterStop s v.origin ctx v.tourId v.stop false .src

/-- A slot in transit is dropped: its leg will be fetched from SRC (R411). -/
def dropTransit (s : State) (core ctx ring : Nat) (x : Transit) : State :=
  let r := s.ring core ctx ring
  let s := s.setRing core ctx ring { r with transit := r.transit.filter (fun y => y.arr != x.arr) }
  s.modTour x.origin ctx x.tourId (fun t => { t.moved with
    legs := t.legs.map (fun l => if l.source = .slot core ring x.arr then { l with source := .src } else l) })

/-- What a swap of a core does to its tour slots (R412). -/
def tourSwap (s : State) (core ctx : Nat) : State :=
  (List.range 16).foldl (fun s n =>
    let s := (s.ring core ctx n).transit.foldl (fun s x => dropTransit s core ctx n x) s
    ((s.ring core ctx n).visits.filter Visit.reclaimable).foldl (fun s v => reclaim s core ctx n v) s) s

-- Ends (R415, R417).

/-- The segments of a tour are its origin core's (R417). -/
def endLegSegments (s : State) (origin ctx id : Nat) : State := s.endSegments origin ctx (tourJob id)

/-- A tile of a tour on the ring network. -/
def RingMsg.isTile (m : RingMsg) (origin ctx id : Nat) : Bool :=
  m.ctx == ctx && (match m.body with
    | .tile o i _ _ _ _ => o == origin && i == id
    | _ => false)

/-- The slot reserved for a leg, if it has one, is free again. -/
def unreserve (s : State) (ctx : Nat) (t : Tour) (l : Leg) : State :=
  if l.reserved && l.into.isNone then
    let p := t.stopAt l.stop
    let r := s.ring p.1 ctx p.2.1
    s.setRing p.1 ctx p.2.1 { r with reserved := r.reserved - 1 }
  else s

/-- A tour ends early: it runs no further legs, what they had begun is dropped, and its slots are dead.
DEDUCED, assumption 40. -/
def endTour (s : State) (origin ctx id status : Nat) : State :=
  match s.tour? origin ctx id with
  | none => s
  | some t =>
    let s := (endLegSegments s origin ctx id).forsakeJob (.ring origin) ctx (some (tourJob id))
    let s := t.legs.foldl (fun s l => unreserve s ctx t l) { s with
      ringNet := s.ringNet.filter (fun m => !m.isTile origin ctx id) }
    let s := s.modTour origin ctx id (fun t => { t with status := status, legs := [], goods := [] })
    (t.stops.foldl (fun s p =>
      let r := s.ring p.1 ctx p.2.1
      s.setRing p.1 ctx p.2.1 { r with
        transit := r.transit.filter (fun x => !(x.origin == origin && x.tourId == id))
        visits := r.visits.map (fun v => if v.origin = origin ∧ v.tourId = id then { v with ended := true } else v) }) s)

/-- XLATE stops the tour (R417). -/
def stopTour (s : State) (origin ctx id : Nat) (f : TrapInfo) : State :=
  (s.modTour origin ctx id (fun t => { t with st := .stopped })).sendPacket (.ring origin) ctx 0 { f with tag := id }

/-- An event of a tour whose reads may stop or end it. -/
def tourEvent (s : State) (origin ctx id : Nat) (r : Eng State) : Result :=
  engineEvent s (.ring origin) (some (tourJob id)) r (fun t f => stopTour t origin ctx id f)
    (fun t code _ _ => endTour t origin ctx id code)

-- Deliveries (R409, R410, R412, R414).

/-- A stop can take a tile: its core runs the context, its ring has the tour role and a free slot. -/
def stopReady (s : State) (ctx : Nat) (p : Nat × Nat × Nat) : Bool :=
  let r := s.ring p.1 ctx p.2.1
  (s.core p.1).active == some ctx && swapIdle s p.1 && r.tour && decide (0 < r.free)

/-- An earlier job of the issuing core holds back the first read of a tour's SRC (R154, R416). -/
def tourHeld (s : State) (ctx origin id : Nat) (t : Tour) : Bool :=
  let js := (s.unit (coreOf t.hart) ctx).jobs
  js.any (fun j => j.engine == .tour (origin * 2 ^ 16 + id) && !jobFree js j.id)

/-- Read the next 64 bytes of SRC: engine segments of the origin core under KEY, which is checked at the first read
(R103, R417). -/
def readSrc (s : State) (origin id : Nat) (t : Tour) (at_ : Nat) : Eng (State × List Byte) := do
  if tourHeld s (s.ctxOf origin) origin id t then .error (.wait s)
  if at_ = 0 && !t.firstRead && !keyOk s (s.ctxOf origin) t.key then .error (.bad s stKey 0 t.src)
  if !(canonical t.src && canonical (plus t.src (t.bytes - 1)) &&
      t.src.getLsbD 55 == (plus t.src (t.bytes - 1)).getLsbD 55) then
    .error (.bad s stAccess causeNoncanonical t.src)
  let va := plus t.src at_
  match ← engRead1 s (jobWho s origin (tourJob id)) (.ring origin) t.key va 64 with
  | (s, some bs) => .ok (s, bs)
  | (s, none) => .error (.bad s stIntegrity 0 va)

/-- The first read of SRC is done: stores of the issuing core go on (R416). -/
def srcRead (s : State) (ctx : Nat) (t : Tour) (id origin : Nat) : State :=
  let core := coreOf t.hart
  let u := s.unit core ctx
  let s := s.setUnit core ctx { u with jobs := u.jobs.map (fun j =>
    if j.engine = .tour (origin * 2 ^ 16 + id) then { j with readsDone := true } else j) }
  s.modTour origin ctx id (fun t => { t with firstRead := true })

/-- A leg of a tour changes. -/
def State.setLeg (s : State) (origin ctx id : Nat) (l l' : Leg) : State :=
  s.modTour origin ctx id (fun t => { t with legs := t.legs.map (fun x => if x = l then l' else x) })

/-- A leg's tile leaves a core for its stop on the ring network (R75, R409). -/
def sendTile (s : State) (origin ctx id : Nat) (t : Tour) (l : Leg) (src d : Nat) : State :=
  let p := t.stopAt l.stop
  (s.setLeg origin ctx id l { l with sent := true, got := [] }).send
    { src := src, dst := p.1, ctx := ctx, ring := p.2.1, link := 0, body := .tile origin id l.stop l.mg l.into d }

/-- A leg with its slot reserved copies: the next word of SRC, and its tile leaves once it has all of it; or a slot in
transit, which is then free (R409). -/
def legStep (s : State) (origin ctx id : Nat) (t : Tour) (l : Leg) : Eng State :=
  match l.source with
  | .src => do
    let (s, bs) ← readSrc s origin id t l.got.length
    let got := l.got ++ bs
    if got.length < t.bytes then .ok (s.setLeg origin ctx id l { l with got := got })
    else .ok (sendTile (endLegSegments (srcRead s ctx t id origin) origin ctx id) origin ctx id t l origin (leNat got))
  | .slot core ring arr =>
    let r := s.ring core ctx ring
    let d := ((r.transit.find? (fun x => x.arr == arr)).map (·.data)).getD 0
    let s := s.setRing core ctx ring { r with transit := r.transit.filter (fun x => x.arr != arr) }
    .ok (sendTile s origin ctx id t l core d)

/-- A leg takes its place: a free slot is reserved for it, unless a captured slot is its own (R409, R410). -/
def reserveLeg (s : State) (origin ctx id : Nat) (t : Tour) (l : Leg) : State × Leg :=
  let p := t.stopAt l.stop
  let r := s.ring p.1 ctx p.2.1
  let s := if l.into.isNone then s.setRing p.1 ctx p.2.1 { r with reserved := r.reserved + 1 } else s
  let l' := { l with reserved := true }
  (s.setLeg origin ctx id l l', l')

/-- The transit slot that a leg copies from has waited its hold limit for room (R411). -/
def Transit.overdue (x : Transit) : Bool := x.hold != 0 && decide (x.hold ≤ x.waited)
def overdueSlot (s : State) (ctx : Nat) (l : Leg) : Option (Nat × Nat × Transit) :=
  match l.source with
  | .slot core ring arr =>
    ((s.ring core ctx ring).transit.find? (fun x => x.arr == arr && x.overdue)).map (fun x => (core, ring, x))
  | .src => none

/-- Fill a slot with a tile and publish it with its visit word (R408). -/
def publishTile (s : State) (origin ctx id : Nat) (t : Tour) (i : Nat) (mg : Bool) (d : Nat) : State :=
  let p := t.stopAt i
  let r := s.ring p.1 ctx p.2.1
  let s := spadWrite s p.1 ctx (r.slotOff r.pp) (leBytes t.bytes d)
  let v : Visit := { arr := r.pp, origin := origin, tourId := id, stop := i, mg := mg, since := s.clock
                     hold := if mg then 0 else p.2.2 }
  let s := s.setRing p.1 ctx p.2.1 { r with pp := (r.pp + 1) % 2 ^ 32, visits := r.visits ++ [v] }
  let s := if r.filled = 0 then ringRose s p.1 ctx p.2.1 else s
  s.modTour origin ctx id (fun t =>
    { t.moved with open_ := t.open_ + 1, st := if t.st = .fetching then .travelling else t.st })

/-- The tour of an event, if its origin runs its context and the tour runs. DEDUCED, assumption 40. -/
def runningTour (s : State) (origin id : Nat) : Option Tour :=
  if unitsLive s origin then
    match s.tour? origin (s.ctxOf origin) id with
    | some t => if t.runs then some t else none
    | none => none
  else none

/-- TOUR_LEG (R409): the leg waits for a free slot and reserves it, and then copies; a tile in transit that has waited its
hold limit is dropped (R411). -/
def execTourLeg (origin tour : Nat) (s : State) : Result :=
  let ctx := s.ctxOf origin
  match runningTour s origin tour with
  | none => .next s
  | some t =>
    match t.legs.find? (fun l => !l.mg && !l.sent) with
    | none => .next s
    | some l =>
      match overdueSlot s ctx l with
      | some (core, ring, x) => .next (dropTransit s core ctx ring x)
      | none =>
        if l.reserved then tourEvent s origin ctx tour (legStep s origin ctx tour t l)
        else if !stopReady s ctx (t.stopAt l.stop) then .next s
        else
          let (u, m) := reserveLeg s origin ctx tour t l
          tourEvent u origin ctx tour (legStep u origin ctx tour t m)

/-- A make-good copy lands in its captured slot (R410). -/
def refillSlot (s : State) (origin ctx id : Nat) (t : Tour) (stop arr d : Nat) : State :=
  let p := t.stopAt stop
  let r := s.ring p.1 ctx p.2.1
  let s := spadWrite s p.1 ctx (r.slotOff arr) (leBytes t.bytes d)
  let s := s.setRing p.1 ctx p.2.1 { r with
    visits := r.visits.map (fun v => if v.arr = arr then { v with refill := false } else v) }
  s.modTour origin ctx id Tour.moved

/-- A leg's tile lands: in the captured slot, or as a visit in the slot reserved for it (R409, R410, R414). -/
def landTile (s : State) (origin ctx id : Nat) (t : Tour) (l : Leg) (d : Nat) : State :=
  let s := unreserve (s.modTour origin ctx id (fun t => { t with legs := t.legs.erase l })) ctx t l
  match l.into with
  | some arr => refillSlot s origin ctx id t l.stop arr d
  | none => publishTile s origin ctx id t l.stop l.mg d

/-- The n-th ring message is a tile: it lands at its stop when the core there runs the context (R75, R409, R412). -/
def tileArrive (s : State) (n : Nat) : State :=
  match s.ringNet[n]? with
  | none => s
  | some m =>
    match m.body with
    | .tile origin id stop mg into d =>
      if !ringFirst s n m || !ringArrives s m || stageWaits s m then s
      else
        let s1 : State := { s with ringNet := dropNth s.ringNet n }
        match s1.tour? origin m.ctx id with
        | none => s1
        | some t =>
          match t.legs.find? (fun l => l.sent && l.stop == stop && l.mg == mg && l.into == into) with
          | none => s1
          | some l => landTile s1 origin m.ctx id t l d
    | _ => s

/-- A make-good leg can deliver: into a captured slot of a core that runs the context, or where a slot is free. -/
def goodReady (s : State) (ctx : Nat) (t : Tour) (l : Leg) : Bool :=
  let p := t.stopAt l.stop
  if l.into.isSome then (s.core p.1).active == some ctx && swapIdle s p.1 else stopReady s ctx p

/-- MAKE_GOOD: copies into captured slots, each as soon as it can go on, and the owed visits after the last stop, which
become legs one after another (R410, R414). -/
def execMakeGood (origin tour : Nat) (s : State) : Result :=
  let ctx := s.ctxOf origin
  match runningTour s origin tour with
  | none => .next s
  | some t =>
    match t.legs.find? (fun l => l.mg && !l.sent && (l.reserved || goodReady s ctx t l)), t.goods with
    | some l, _ =>
      if l.reserved then tourEvent s origin ctx tour (legStep s origin ctx tour t l)
      else
        let (u, m) := reserveLeg s origin ctx tour t l
        tourEvent u origin ctx tour (legStep u origin ctx tour t m)
    | none, [] => .next s
    | none, i :: rest =>
      if t.legs.any (fun l => l.mg && l.into.isNone) then .next s
      else
        .next (s.modTour origin ctx tour (fun t => { t with
          goods := rest, legs := t.legs ++ [{ stop := i, source := .src, mg := true }] }))

/-- Reclaim an expired visit, unless a job is reading it (R410). -/
def expire (s : State) (core ctx ring : Nat) (v : Visit) : State :=
  if v.expired s && !beingRead (s.unit core ctx).matrix ring v.arr then reclaim s core ctx ring v else s

/-- HOLD_EXPIRY: the visit with an arrival number has been held for its limit (R410). -/
def execHoldExpiry (core ring slotNo : Nat) (s : State) : Result :=
  let ctx := s.ctxOf core
  if (s.core core).active.isNone then .next s
  else
    match (s.ring core ctx ring).visits.find? (fun v => v.arr == slotNo) with
    | some v => .next (expire s core ctx ring v)
    | none => .next s

/-- The next stop of a tile in transit lacks room (R411). -/
def noRoom (s : State) (core ctx ring : Nat) (x : Transit) : Bool :=
  match s.tour? x.origin ctx x.tourId with
  | none => true
  | some t => t.legs.any (fun l => l.source == .slot core ring x.arr && !stopReady s ctx (t.stopAt l.stop))

/-- TRANSIT_DROP: a tile has waited its hold limit for room (R411). -/
def execTransitDrop (core ring slotNo : Nat) (s : State) : Result :=
  let ctx := s.ctxOf core
  if (s.core core).active.isNone then .next s
  else
    match (s.ring core ctx ring).transit.find? (fun x => x.arr == slotNo) with
    | some x =>
      if x.overdue then .next (dropTransit s core ctx ring x) else .next s
    | none => .next s

/-- The completion word (R415). -/
def tourWord (t : Tour) : Nat := 2 ^ 63 + t.status % 128 * 2 ^ 56 + t.owed % 2 ^ 12 * 2 ^ 44 + t.cvalue.toNat

/-- The tour leaves its origin's table, and its job the issuing core's hazard unit. -/
def dropTour (s : State) (origin ctx id : Nat) (t : Tour) : State :=
  let u := s.unit origin ctx
  let s := endLegSegments (s.setUnit origin ctx { u with tours := Tab.drop u.tours id }) origin ctx id
  let v := s.unit (coreOf t.hart) ctx
  s.setUnit (coreOf t.hart) ctx
    { v with jobs := v.jobs.filter (fun j => j.engine != .tour (origin * 2 ^ 16 + id)) }

def Tour.complete (t : Tour) : Bool :=
  t.status != 0 || (t.finished && t.open_ == 0 && t.legs.isEmpty && t.goods.isEmpty && (t.owed == 0 || !t.makegood))

/-- TOUR_COMPLETE (R415, R417). A completion word whose write is refused is not written. -/
def execTourComplete (origin tour : Nat) (s : State) : Result :=
  let ctx := s.ctxOf origin
  if !unitsLive s origin then .next s
  else
    match s.tour? origin ctx tour with
    | none => .next s
    | some t =>
      if !t.complete then .next s
      else
        let ends (s : State) : State :=
          let s := dropTour s origin ctx tour t
          if t.irq then raiseIn s t.hart ctx 3 else s
        if t.cword = 0 then .next (ends s)
        else
          engineEvent s (.ring origin) (some (tourJob tour)) (do
              let s ← engWrite1 s (jobWho s origin (tourJob tour)) (.ring origin) 0 t.cword (leBytes 8 (tourWord t))
              .ok (ends s)) (fun s _ => ends s) (fun s _ _ _ => ends s)

-- The watchdog (R418).

def Tour.limit (t : Tour) : Nat := if t.wd = 0 then 2 ^ 20 else 2 ^ (12 + t.wd)

/-- The packets outstanding in a cluster's trap queue or held for it: first and third doubleword (R464 to R468). -/
def outstanding (s : State) (cluster : Nat) : List (Nat × Nat) :=
  let held := (s.heldPackets.filter (fun p => p.cluster == cluster)).map (fun p => (p.word 0, p.word 2))
  match s.trapBase.find? (fun e => e.1 == cluster) with
  | none => held
  | some e =>
    match physOf s (e.2.toNat % 2 ^ 46) with
    | none => held
    | some a =>
      let u := Tab.get ({} : TrapUnit) s.trapUnits cluster
      held ++ (u.consAt (readCons s a)).live.map (fun p => (p.word 0, p.word 2))

/-- An outstanding packet of a hart or engine of a core, but not of its ring unit. -/
def corePacket (s : State) (core : Nat) : Bool :=
  (outstanding s (clusterOf core)).any (fun p => slice p.1 15 12 == memberOf core && slice p.1 23 20 != 4)

/-- An outstanding packet of a tour. -/
def tourPacket (s : State) (origin id : Nat) : Bool :=
  (outstanding s (clusterOf origin)).any (fun p =>
    slice p.1 15 12 == memberOf origin && slice p.1 23 20 == 4 && p.2 / 2 ^ 32 == id)

/-- The watchdog stands still: the tour is stopped or has not started, a packet of it or of a stop core's hart or engine is outstanding, a
stop core runs another context, or a domain barrier may hold its requests (R418, R497). DEDUCED, assumption 40. -/
def dogRests (s : State) (origin ctx id : Nat) (t : Tour) : Bool :=
  t.st == .stopped || t.offered || s.barrier.isSome || tourPacket s origin id || t.stops.any (fun p =>
    (s.core p.1).active != some ctx || corePacket s p.1)

/-- Cycles pass for the slots in transit of a core's rings, where their next stop lacks room (R411). -/
def waitTransit (s : State) (core ctx n : Nat) (rings : Vector Ring 16) : Vector Ring 16 :=
  rings.mapIdx (fun k r => { r with transit := r.transit.map (fun x =>
    if noRoom s core ctx k x then { x with waited := x.waited + n } else x) })

/-- Cycles pass for the watchdogs of every tour and the slots in transit. -/
def countDogs (s : State) (n : Nat) : State :=
  if s.units.all (fun e => e.2.tours.isEmpty) then s
  else { s with units := s.units.map (fun e => (e.1, { e.2 with
    rings := waitTransit s (e.1 / 128) (e.1 % 128) n e.2.rings
    tours := e.2.tours.map (fun q =>
      (q.1, if dogRests s (e.1 / 128) (e.1 % 128) q.1 q.2 then q.2 else { q.2 with dog := q.2.dog + n })) })) }

/-- TOUR_WATCHDOG: the tour ends with STATUS 10 and a packet names it. -/
def execTourWatchdog (origin tour : Nat) (s : State) : Result :=
  let ctx := s.ctxOf origin
  match runningTour s origin tour with
  | none => .next s
  | some t =>
    if t.dog < t.limit || t.complete then .next s
    else .next ((endTour s origin ctx tour 10).sendPacket (.ring origin) ctx 0 { code := .tourWatchdog, tag := tour })

-- Commands (R417).

/-- The state a stopped tour goes back to. -/
def Tour.resume (t : Tour) : Tour :=
  if t.st != .stopped then t
  else { t with st := if t.finished then .makingGood else if t.open_ = 0 && t.cur = 0 && t.laps = 0 && t.owed = 0 then
    .fetching else .travelling }

/-- RESUME or KILL of a stopped tour; for a tour that is not stopped it is ignored. -/
def tourCommand (s : State) (core ctx tour : Nat) (k : UnitCmd) : State :=
  match s.tour? core ctx tour with
  | none => s
  | some t =>
    if t.st != .stopped then s
    else
      let s := s.modTour core ctx tour Tour.resume
      match k with
      | .resume => s
      | .kill => endTour s core ctx tour stKilled

/-- A command acts at once for the active context; for another it is recorded (R472). -/
def tourCmd (s : State) (core ctx tour : Nat) (k : UnitCmd) : State :=
  if (s.core core).active = some ctx then tourCommand s core ctx tour k
  else s.modTour core ctx tour (fun t => { t with cmd := some k })

def execTourcmdResume (core tour ctx : Nat) (s : State) : Result := .next (tourCmd s core ctx tour .resume)
def execTourcmdKill (core tour ctx : Nat) (s : State) : Result := .next (tourCmd s core ctx tour .kill)

-- The tour instruction (R421).

/-- The fields of an itinerary held as the Nat of its 128 bytes. -/
def itStop (r i : Nat) : Nat × Nat × Nat := (rf r (4 + i) 9 0, rf r (4 + i) 13 10, rf r (4 + i) 35 16)
def itBytes (r : Nat) : Nat := rf r 2 19 0
def itCount (r : Nat) : Nat := rf r 0 19 16

/-- The RECORD conditions. -/
def itChecks (r : Nat) : List (Nat × Nat) :=
  let n := itCount r
  reservedSet r 0 [(37, 36)] ++ chk (rf r 0 23 20 != 0) 0 20 ++ chk (rf r 0 35 24 != 0) 0 24 ++
    chk (n = 0 || n > 12) 0 16 ++ chk (rf r 1 5 0 != 0) 1 0 ++ reservedSet r 2 [(31, 28), (23, 23)] ++
    chk (itBytes r < 64 || itBytes r > 262144 || itBytes r % 64 != 0) 2 0 ++ chk (rf r 3 2 0 != 0) 3 0 ++
    ((List.range 12).flatMap (fun i =>
      reservedSet r (4 + i) (if i < n then [(63, 36), (15, 14)] else [(63, 0)])))

/-- A core that may take part: present, and holding the context in either bank. -/
def tourCore (s : State) (ctx core : Nat) : Bool := present s core && granted s core ctx

/-- The first failing row of R421's table before the origin is asked: code and detail. -/
def itCheck (s : State) (ctx r : Nat) : Nat :=
  match lowestReport (itChecks r) with
  | some p => 1 + p.1 * 2 ^ 8 + p.2 * 2 ^ 16
  | none =>
    let stops := List.range (itCount r)
    if !tourCore s ctx (rf r 0 47 38) then 2 + 15 * 2 ^ 8
    else
      match stops.find? (fun i => !tourCore s ctx (itStop r i).1) with
      | some i => 2 + i * 2 ^ 8
      | none =>
        match stops.find? (fun i =>
          let p := itStop r i
          let g := s.ring p.1 ctx p.2.1
          !g.decl || decide (g.slotBytes < itBytes r)) with
        | some i => 3 + i * 2 ^ 8
        | none => 0

/-- The tour an accepted itinerary begins. -/
def newTour (r hart : Nat) : Tour :=
  { src := BitVec.ofNat 64 (rf r 1 63 0), bytes := itBytes r, key := rf r 0 63 48, nstop := itCount r
    stops := (List.range (itCount r)).map (itStop r)
    makegood := rf r 2 21 21 == 1, loop := rf r 2 20 20 == 1, irq := rf r 2 22 22 == 1
    cword := BitVec.ofNat 64 (rf r 3 63 0), cvalue := BitVec.ofNat 32 (rf r 2 63 32), wd := rf r 2 27 24, hart := hart
    legs := [{ stop := 0, source := .src }] }

/-- A tour enters its origin's table. -/
def keepTour (s : State) (origin id : Nat) (t : Tour) : State :=
  let u := s.unit origin s.myCtx
  s.setUnit origin s.myCtx { u with tours := Tab.put u.tours id t }

/-- An accepted tour is pushed and starts, once the hart's stores are performed; while they are not it keeps its place in
its origin's table (R416, R421). -/
def startTour (s : State) (origin id : Nat) (t : Tour) : Act (State × Nat) :=
  let reads : List Region := [{ va := va56 t.src, size := t.bytes }]
  let released : Act State := do
    let s ← pushRelease s reads []
    inRelease (waitFor (!writesPending s) s)
    .ok s
  match released with
  | .ok s => .ok (keepTour (s.setMyUnit (s.myUnit.addJob (.tour (origin * 2 ^ 16 + id)) reads [] s.cur none)) origin id t, 0)
  | .error (.wait s) => hold (if s.me.inRel then keepTour s origin id { t with legs := [], offered := true } else s)
  | .error (.fault s f) =>
    let u := s.unit origin s.myCtx
    fail (s.setUnit origin s.myCtx { u with tours := Tab.drop u.tours id }) f

/-- Offer a checked itinerary to its origin: refused, or accepted (R421). DEDUCED, assumption 40. -/
def offerTour (s : State) (r : Nat) : Act (State × Nat) := do
  let origin := rf r 0 47 38
  let id := rf r 0 15 0
  let ctx := s.myCtx
  waitFor ((s.core origin).active == some ctx && swapIdle s origin) s
  let u := s.unit origin ctx
  if u.tours.any (fun e => e.1 == id && e.2.offered && e.2.hart == s.cur) then startTour s origin id (newTour r s.cur)
  else if u.tours.length ≥ 8 then .ok (s, 4)
  else if u.tours.any (fun e => e.1 == id) then .ok (s, 5)
  else do
    waitFor (hazardRoom s.myUnit) s
    startTour s origin id (newTour r s.cur)

/-- tour (R421). -/
def execTour (f : Fmt) (s : State) : Result :=
  onCompute s <| scalarRun f s do
    unitsReady s
    let va := xval s f.a
    need (va.toNat % 64 = 0) s (alignFault va)
    keepAnswers s do
      let (s, bs) ← loadWords s va 64 2
      let r := leNat bs
      match itCheck s s.myCtx r with
      | 0 => do
        let (s, st) ← offerTour s r
        put64 f s (BitVec.ofNat 64 st)
      | st => put64 f s (BitVec.ofNat 64 st)

/-- %qbind of a bound handle. -/
def boundHandle (s : State) (h : Fin 16) : Act W64 := do
  let b := s.me.qbind[h]
  need (qbBound b) s (queueFault 0)
  .ok b

/-- tour.bind (R407, R421). -/
def execTourBind (f : Fmt) (s : State) : Result :=
  onCompute s <| scalarRun f s do
    unitsReady s
    let h := handleOf f.a
    let b ← boundHandle s h
    let r := s.ring s.myCore s.myCtx h.val
    if qbMode b = 2 then put64 f s 0
    else if qbMode b != 0 then put64 f s 1
    else if r.filled != 0 || r.peer.isSome then put64 f s 2
    else
      let s := s.modMe (fun m => { m with qbind := m.qbind.set h (mkQbind true (qbRint b) 2 (qbPhandle b) (qbPcore b)) })
      put64 f (s.setRing s.myCore s.myCtx h.val { r with tour := true }) 0

-- trel and tstat (R413, R422).

/-- A tour handle. -/
def tourHandle (s : State) (h : Fin 16) : Act Ring := do
  unitsReady s
  let b ← boundHandle s h
  need (qbMode b == 2) s (queueFault 1)
  .ok (s.ring s.myCore s.myCtx h.val)

/-- The visit at the head of a ring. -/
def headVisit (r : Ring) : Option Visit :=
  if r.filled = 0 then none else r.visits.find? (fun v => v.arr == r.cp)

/-- The head visit is released: forwarded, or a make-good visit repaid (R409, R413, R414). -/
def releaseVisit (s : State) (core ctx n : Nat) (v : Visit) (end_ : Bool) : State :=
  let r := s.ring core ctx n
  match s.tour? v.origin ctx v.tourId with
  | none => s.popHead core ctx n
  | some t =>
    let s1 := (s.modTour v.origin ctx v.tourId (fun t => { t.moved with open_ := t.open_ - 1 })).popHead core ctx n
    if v.mg then s1.modTour v.origin ctx v.tourId (·.repay v.stop)
    else if end_ || (v.stop + 1 = t.nstop && !t.loop) then afterStop s1 v.origin ctx v.tourId v.stop true .src
    else
      let d := leNat (spadRead s core ctx (r.slotOff v.arr) t.bytes)
      let x : Transit := { arr := v.arr, origin := v.origin, tourId := v.tourId, hold := v.hold, data := d }
      let p := s1.ring core ctx n
      afterStop (s1.setRing core ctx n { p with transit := p.transit ++ [x] }) v.origin ctx v.tourId v.stop false
        (.slot core n v.arr)

/-- trel and trel.end. -/
def trelRun (f : Fmt) (s : State) (end_ : Bool) : Act State := do
  let h := handleOf f.a
  let r ← tourHandle s h
  match headVisit r with
  | none => hold s
  | some v =>
    if v.expired s then hold (expire s s.myCore s.myCtx h.val v)
    else if f.b != .none && (xval s f.b).toNat % 2 ^ 32 != v.arr then put64 f s 1
    else if v.ended then
      put64 f (s.popHead s.myCore s.myCtx h.val) 2
    else do
      waitFor (!capturedBy s.myUnit.matrix h.val v.arr && !storesTo s s.myCore &&
        regionsReady s s.myCore (r.slotOff v.arr) r.slotBytes) s
      put64 f (releaseVisit s s.myCore s.myCtx h.val v end_) 0

def execTrel (f : Fmt) (s : State) : Result := onCompute s <| scalarRun f s (trelRun f s false)
def execTrelEnd (f : Fmt) (s : State) : Result := onCompute s <| scalarRun f s (trelRun f s true)

def TourState.num : TourState → Nat
  | .fetching => 1 | .travelling => 2 | .makingGood => 3 | .stopped => 4

/-- The word of a kept tour (R422). -/
def tourStat (t : Tour) (id : Nat) : W64 :=
  BitVec.ofNat 64 (t.st.num * 2 ^ 56 + t.laps % 2 ^ 16 * 2 ^ 40 + t.owed % 2 ^ 12 * 2 ^ 24 + t.cur * 2 ^ 20 +
    t.nstop * 2 ^ 16 + id)

/-- tstat. -/
def execTstat (f : Fmt) (s : State) : Result :=
  onCompute s <| scalarRun f s do
    let a := (xval s f.a).toNat
    let id := slice a 15 0
    put64 f s (match s.tour? (slice a 25 16) s.myCtx id with
      | some t => tourStat t id
      | none => 0)

/-- The visit word (R408). -/
def visitWord (v : Visit) : W64 :=
  BitVec.ofNat 64 (2 ^ 63 + v.mg.toNat * 2 ^ 62 + v.stop * 2 ^ 58 + v.origin * 2 ^ 48 + v.tourId * 2 ^ 32 + v.arr)

/-- tstat.head. -/
def execTstatHead (f : Fmt) (s : State) : Result :=
  onCompute s <| scalarRun f s do
    let h := handleOf f.a
    let r ← tourHandle s h
    let s := match headVisit r with
      | some v => expire s s.myCore s.myCtx h.val v
      | none => s
    put64 f s (match headVisit (s.ring s.myCore s.myCtx h.val) with
      | some v => visitWord v
      | none => 0)

/-- RING_PUBLISH and CREDIT_RETURN (R250): what travels toward a ring arrives, a tile of a tour among it (R409). -/
def execRingPublish (n : Nat) (s : State) : Result :=
  match s.ringNet[n]? with
  | none => .next s
  | some m =>
    match m.body with
    | .tile _ _ _ _ _ _ => .next (tileArrive s n)
    | _ => .next (ringArrive s n)
def execCreditReturn (n : Nat) (s : State) : Result := .next (creditArrive s n)

end Sys2Proof.Machine
end

