-- ==== Sys2Proof/Machine/Splices.lean ====
section
/-! DEFINITION. Splicing a running pipeline: pipelines, stages, markers, effect points and the splice instructions (R423
to R442). -/

namespace Sys2Proof.Machine

/-- NEXT of the tail. -/
def tailNext : Nat := 31

/-- Fields of a stage entry from its three doublewords (R424). -/
def stageOf (r d : Nat) : Stage :=
  { core := rf r (d + 2) 9 0, ring := rf r (d + 2) 13 10, code := BitVec.ofNat 64 (rf r d 63 0)
    region := BitVec.ofNat 64 (rf r (d + 1) 63 0), next := rf r (d + 2) 20 16 }

-- Pipelines as their controller keeps them.

def State.modPipe (s : State) (ctx key : Nat) (g : Pipe → Pipe) : State :=
  let u := s.unit (key / 2 ^ 16) ctx
  s.setUnit (key / 2 ^ 16) ctx { u with
    pipes := u.pipes.map (fun e => if e.1 = key % 2 ^ 16 then (e.1, g e.2) else e) }

def Pipe.stage? (p : Pipe) (i : Nat) : Option Stage := (p.stages.find? (fun e => e.1 == i)).map (·.2)
def Pipe.modStage (p : Pipe) (i : Nat) (g : Stage → Stage) : Pipe :=
  { p with stages := p.stages.map (fun e => if e.1 = i then (e.1, g e.2) else e) }
/-- The stage that feeds stage i. -/
def Pipe.upstream (p : Pipe) (i : Nat) : Option (Nat × Stage) := p.stages.find? (fun e => e.2.next == i)
/-- A stage, or the removed stage that has not left. -/
def Pipe.serving (p : Pipe) (i : Nat) : Option Stage :=
  match p.stage? i with
  | some x => some x
  | none => p.splice.bind (fun x => if x.target = i then x.leaver else none)

/-- The ring that a stage's OUT handle publishes to. -/
def Pipe.nextRing (p : Pipe) (st : Stage) : Option (Nat × Nat) :=
  (p.serving st.next).map (fun n => (n.core, n.ring))

-- Downstream links (R425).

/-- A producer's end to a ring as the ring's counters stand (R250). -/
def freshLink (s : State) (ctx core ring : Nat) (held : Bool) (seq : W32) : Link :=
  let r := s.ring core ctx ring
  { core := core, ring := ring, base := r.base, slotBytes := r.slotBytes, count := r.count, pp := r.pp, credit := r.free
    held := held, lastSeq := seq }

def seqOf (s : State) (core ctx key : Nat) : W32 := ((s.link core ctx key).map (·.lastSeq)).getD 0xFFFFFFFF

/-- Point an OUT or HEAD handle at a ring, whose peer producer it becomes. -/
def pointAt (s : State) (core ctx key : Nat) (dst : Option (Nat × Nat)) (held : Bool) : State :=
  let s1 := nameTarget s core ctx key dst
  match dst with
  | none => s1.dropLink core ctx key
  | some (c, n) =>
    let r := s1.ring c ctx n
    (s1.setRing c ctx n { r with peer := some (core, key) }).setLink core ctx key
      (freshLink s ctx c n held (seqOf s core ctx key))

/-- Link a bound stage to its next one. -/
def linkStage (s : State) (ctx : Nat) (p : Pipe) (i : Nat) : State :=
  match p.stage? i with
  | none => s
  | some st =>
    match (s.ring st.core ctx st.ring).outKey with
    | none => s
    | some key => pointAt s st.core ctx key (p.nextRing st) false

-- Stages that a splice needs (R433).

/-- A stage is gone: its core holds the context in neither bank, or its IN binding has ended. -/
def stageGone (s : State) (ctx key i : Nat) (st : Stage) : Bool :=
  !present s st.core || !granted s st.core ctx || (s.ring st.core ctx st.ring).member != some (key, i)

/-- A stage is only swapped out. -/
def stageAway (s : State) (ctx key i : Nat) (st : Stage) : Bool :=
  !stageGone s ctx key i st && !((s.core st.core).active == some ctx && swapIdle s st.core)

/-- What the effect point finds: it waits, aborts for a reason, or goes ahead. -/
inductive Verdict where
  | waits | aborts (reason : Nat) | goes
  deriving DecidableEq, Repr

/-- The check of R433 over the stages needed, each with the reason its absence gives. -/
def checkStages (s : State) (ctx key : Nat) (l : List (Nat × Option Stage × Nat)) : Verdict :=
  match l.find? (fun e => match e.2.1 with
      | some st => stageGone s ctx key e.1 st
      | none => true) with
  | some e => .aborts e.2.2
  | none =>
    if l.any (fun e => match e.2.1 with
        | some st => stageAway s ctx key e.1 st
        | none => false) then .waits else .goes

def splicePlan (s : State) (ctx key : Nat) (p : Pipe) (x : Splice) : Verdict :=
  match x.opk with
  | 0 => checkStages s ctx key [(x.aux, p.reserved.map (·.2), 1)]
  | 1 => checkStages s ctx key [(x.aux, p.stage? x.aux, 2), (x.target, p.stage? x.target, 3)]
  | _ => checkStages s ctx key [(x.target, p.stage? x.target, 3)]

-- Effects (R430, R431).

def State.modSplice (s : State) (ctx key : Nat) (g : Splice → Splice) : State :=
  s.modPipe ctx key (fun p => { p with splice := p.splice.map g })

/-- From the effect point on a link is held; with no link there is nothing to wait for. -/
def holdLink (s : State) (ctx key core : Nat) (out : Option Nat) : State :=
  match out.bind (fun k => (s.link core ctx k).map (fun l => (k, l))) with
  | some (k, l) =>
    (s.setLink core ctx k { l with held := true }).modSplice ctx key
      (fun x => { x with phase := 2, holding := some (core, k) })
  | none => s.modSplice ctx key (fun x => { x with phase := 2 })

/-- INSERT at stage s: its OUT goes to the new stage, whose OUT takes over the old link. -/
def effectInsert (s : State) (ctx key : Nat) (x : Splice) (st new_ : Stage) : State :=
  let s1 := s.modPipe ctx key (fun p =>
    let p1 := p.modStage x.target (fun t => { t with next := x.aux })
    { p1 with stages := Tab.put p1.stages x.aux { new_ with next := st.next }, reserved := none })
  let out := (s.ring st.core ctx st.ring).outKey
  let newOut := (s.ring new_.core ctx new_.ring).outKey
  match out with
  | none => holdLink s1 ctx key st.core none
  | some k =>
    let s2 := match s.link st.core ctx k, newOut with
      | some l, some nk =>
        let r := s1.ring l.core ctx l.ring
        let coming := creditsComing s1 ctx l.core l.ring st.core k
        let s2 := dropCredits (s1.setRing l.core ctx l.ring { r with peer := some (new_.core, nk) }) ctx l.core l.ring st.core k
        nameTarget (s2.setLink new_.core ctx nk { l with held := false, flying := 0, credit := l.credit + coming })
          new_.core ctx nk (some (l.core, l.ring))
      | _, _ => s1
    holdLink (pointAt s2 st.core ctx k (some (new_.core, new_.ring)) true) ctx key st.core (some k)

/-- REMOVE at the upstream stage or head: its OUT goes past the removed stage. The counters are set when the drain ends,
and the removed stage stays the ring's producer until it leaves. -/
def effectRemove (s : State) (ctx key : Nat) (p : Pipe) (x : Splice) (core : Nat) (out : Option Nat) : State :=
  match p.stage? x.target with
  | none => s
  | some t =>
    let s1 := s.modPipe ctx key (fun p =>
      let p1 := match p.upstream x.target with
        | some (u, _) => p.modStage u (fun y => { y with next := t.next })
        | none => { p with first := t.next }
      { p1 with stages := Tab.drop p1.stages x.target
                splice := p1.splice.map (fun y => { y with leaver := some t, legacy := t.region, atHead := false }) })
    match out, p.nextRing t with
    | some k, some dst =>
      match s.link core ctx k with
      | some l =>
        let f := freshLink s1 ctx dst.1 dst.2 true l.lastSeq
        holdLink ((nameTarget s1 core ctx k (some dst)).setLink core ctx k { f with flying := l.flying, renew := true })
          ctx key core (some k)
      | none => holdLink s1 ctx key core none
    | _, _ => holdLink s1 ctx key core none

-- Markers on their way (R428).

/-- A marker leaves a core's router toward a ring. -/
def sendMarker (s : State) (ctx src link : Nat) (dst : Nat × Nat) (m : Marker) : State :=
  s.send { src := src, dst := dst.1, ctx := ctx, ring := dst.2, link := link, staged := true
           body := .marker m }

/-- The heir of a removed stage is owed its region (R432). -/
def bequeath (s : State) (ctx : Nat) (p : Pipe) (x : Splice) : State :=
  if x.opk = 1 && x.legacy != 0 then
    match p.stage? x.aux with
    | some h =>
      let r := s.ring h.core ctx h.ring
      s.setRing h.core ctx h.ring { r with inherit := some x.legacy }
    | none => s
  else s

/-- The marker has passed the tail: the acknowledgement goes to the effect stage and to the controller (R431), and from
now on an heir is owed its region. DEDUCED, assumption 41. -/
def tailEnd (s : State) (ctx key : Nat) : State :=
  let s1 := s.modSplice ctx key (fun x => { x with tailPassed := true })
  match (s.pipe? ctx key).bind (fun p => p.splice.map (fun x => (p, x))) with
  | some (p, x) =>
    if x.phase = 3 then s1
    else
      let s2 := bequeath s1 ctx p x
      match x.holding with
      | some (c, k) =>
        match s2.link c ctx k with
        | some l => s2.setLink c ctx k { l with ackOf := some key }
        | none => s2
      | none => s2
  | none => s1

/-- Send a marker on to stage `next`, or past the tail. -/
def forward (s : State) (core ctx link next : Nat) (m : Marker) : State :=
  if next = tailNext then tailEnd s ctx m.pipe
  else
    match (s.pipe? ctx m.pipe).bind (fun p => p.serving next) with
    | some st => sendMarker s ctx core link (st.core, st.ring) { m with taken := false, told := false }
    | none => s

/-- Take the front marker off a ring and send it on. -/
def passOn (s : State) (core ctx n next : Nat) (m : Marker) : State :=
  let r := s.ring core ctx n
  forward (s.setRing core ctx n { r with markers := r.markers.drop 1 }) core ctx (r.outKey.getD 0) next m

/-- The marker turns into ABORT: nothing is changed, and an INSERT's reservation is freed (R433). -/
def abortSplice (s : State) (ctx key reason : Nat) : State :=
  match s.pipe? ctx key with
  | none => s
  | some p =>
    let free (s : State) : State :=
      match p.reserved, p.splice with
      | some (i, st), some x =>
        if x.opk = 0 && i = x.aux then
          let r := s.ring st.core ctx st.ring
          let s := if r.member = some (key, i) then s.setRing st.core ctx st.ring { r with member := none } else s
          s.modPipe ctx key (fun p => { p with reserved := none })
        else s
      | _, _ => s
    (free s).modSplice ctx key (fun x => { x with phase := 3, status := reason, atHead := false })

/-- A marker stands at the head of a ring of an active core: the ring, the marker, its stage index, its pipeline and its
splice. -/
structure Standing where
  n : Nat
  ring : Ring
  m : Marker
  i : Nat
  p : Pipe
  x : Splice

def standing (s : State) (core pipe : Nat) : Option Standing :=
  let ctx := s.ctxOf core
  if (s.core core).active.isNone || !swapIdle s core then none
  else
    (List.range 16).findSome? (fun n =>
      let r := s.ring core ctx n
      match frontMarker r, r.member, s.pipe? ctx pipe with
      | some m, some (k, i), some p =>
        if m.pipe = pipe && k = pipe then p.splice.map (fun x => { n := n, ring := r, m := m, i := i, p := p, x := x })
        else none
      | _, _, _ => none)

/-- The stage at which a splice takes effect, where that is no head handle (R430). -/
def Splice.effectStage (x : Splice) (p : Pipe) : Option Nat :=
  if x.opk = 1 then (p.upstream x.target).map (·.1) else some x.target

/-- The marker has its effect point here. -/
def Standing.atEffect (h : Standing) : Bool := h.m.live && !h.m.abort && h.x.effectStage h.p == some h.i

/-- NEXT of the standing's stage, before any change. -/
def Standing.next (h : Standing) : Nat := ((h.p.serving h.i).map (·.next)).getD tailNext

/-- No acknowledgement of an earlier splice is still on its way to the stage. DEDUCED, assumption 41. -/
def Standing.settled (s : State) (core ctx : Nat) (h : Standing) : Bool :=
  match h.ring.outKey.bind (fun k => s.link core ctx k) with
  | some l => l.ackOf.isNone
  | none => true

/-- An event of a marker at its effect point: it waits, turns into ABORT, or makes its change; then it passes. -/
def effectEvent (core pipe opk : Nat) (ready : Standing → Bool) (change : State → Nat → Standing → Stage → State)
    (s : State) : Result :=
  let ctx := s.ctxOf core
  match standing s core pipe with
  | none => .next s
  | some h =>
    if h.x.opk != opk || !h.atEffect || !ready h || !h.settled s core ctx then .next s
    else
      match splicePlan s ctx pipe h.p h.x, h.p.stage? h.i with
      | .waits, _ => .next s
      | .aborts why, _ => .next (passOn (abortSplice s ctx pipe why) core ctx h.n h.next { h.m with abort := true, live := false })
      | .goes, some st => .next (passOn (change s ctx h st) core ctx h.n h.next { h.m with live := false })
      | .goes, none => .next s

/-- SPLICE_INSERT. -/
def execSpliceInsert (core pipe : Nat) (s : State) : Result :=
  effectEvent core pipe 0 (fun _ => true) (fun s ctx h st =>
    match h.p.reserved with
    | some (_, n) => effectInsert s ctx pipe h.x st n
    | none => s) s

/-- The head handle is the effect point of a REMOVE of the first stage: only then is the marker published. -/
def headRemove (pipe : Nat) (s : State) : Result :=
  let core := pipe / 2 ^ 16
  let ctx := s.ctxOf core
  match (s.pipe? ctx pipe).bind (fun p => p.splice.map (fun x => (p, x))) with
  | none => .next s
  | some (p, x) =>
    if !x.atHead || !unitsLive s core then .next s
    else
      match p.stage? x.target with
      | none => .next s
      | some t =>
        let send (s : State) (m : Marker) : State := sendMarker s ctx core p.head (t.core, t.ring) m
        match splicePlan s ctx pipe p x with
        | .waits => .next s
        | .aborts why =>
          let s := abortSplice s ctx pipe why
          let s := match s.link core ctx p.head with
            | some l => s.setLink core ctx p.head { l with held := false }
            | none => s
          .next (send s { pos := 0, pipe := pipe, abort := true, live := false })
        | .goes => .next (send (effectRemove s ctx pipe p x core (some p.head)) { pos := 0, pipe := pipe, live := false })

/-- SPLICE_REMOVE: at the stage upstream of the removed one, or at the head handle. -/
def execSpliceRemove (core pipe : Nat) (s : State) : Result :=
  match (s.pipe? (s.ctxOf core) pipe).bind (·.splice) with
  | none => .next s
  | some x =>
    if x.atHead then (if core = pipe / 2 ^ 16 then headRemove pipe s else .next s)
    else effectEvent core pipe 1 (fun _ => true)
      (fun s ctx h st => effectRemove s ctx pipe h.p h.x core (s.ring st.core ctx st.ring).outKey) s

/-- SPLICE_REBIND: once its stage's hart takes it; the take answers with the code once the marker has passed (R432). -/
def execSpliceRebind (core pipe : Nat) (s : State) : Result :=
  effectEvent core pipe 2 (fun h => h.m.taken) (fun s ctx h st =>
    let r := s.ring st.core ctx st.ring
    let s := s.setRing st.core ctx st.ring { r with rebound := some h.x.code }
    holdLink (s.modPipe ctx pipe (fun p => p.modStage h.i (fun y => { y with code := h.x.code }))) ctx pipe core
      r.outKey) s

/-- No earlier marker is on its way to the same ring: what else was sent to a stage that is gone never arrives there. -/
def markerFirst (s : State) (n : Nat) (m : RingMsg) : Bool :=
  !(s.ringNet.take n).any (fun q => q.dst == m.dst && q.ctx == m.ctx && q.ring == m.ring && (match q.body with
    | .marker _ => true
    | _ => false))

/-- A marker on its way to a stage that is gone, with the stage's index: its place in the ring network. -/
def lostMarker (s : State) (core pipe : Nat) : Option (Nat × Marker × Nat × Stage) :=
  let ctx := s.ctxOf core
  (s.pipe? ctx pipe).bind (fun p =>
    (indexed s.ringNet).findSome? (fun e =>
      match e.2.body with
      | .marker m =>
        if e.2.dst = core && e.2.ctx = ctx && m.pipe = pipe && markerFirst s e.1 e.2 then
          (List.range 16).findSome? (fun i =>
            match p.serving i with
            | some st =>
              if st.core = core && st.ring = e.2.ring && stageGone s ctx pipe i st then some (e.1, m, i, st) else none
            | none => none)
        else none
      | _ => none))

/-- The removed stage has left. -/
def leaverGone (s : State) (ctx pipe i : Nat) (m : Marker) : State :=
  s.modSplice ctx pipe (fun x => if x.opk = 1 && x.target = i && !m.abort then { x with leaver := none } else x)

/-- A marker passes a stage that is gone without any act of it; at its effect point it turns into ABORT (R433).
DEDUCED, assumption 41. -/
def passLost (s : State) (core ctx : Nat) (e : Nat × Marker × Nat × Stage) : State :=
  let (n, m, i, st) := e
  let atEffect := m.live && !m.abort && (match (s.pipe? ctx m.pipe).bind (fun p => p.splice.map (fun x => (p, x))) with
    | some (p, x) => x.effectStage p == some i
    | none => false)
  let s1 : State := { s with ringNet := dropNth s.ringNet n }
  if atEffect then forward (abortSplice s1 ctx m.pipe 3) core ctx 0 st.next { m with abort := true, live := false }
  else leaverGone (forward s1 core ctx 0 st.next m) ctx m.pipe i m

/-- MARKER_PASS: a marker passes a stage that is not its effect point, or one that is gone. -/
def execMarkerPass (core pipe : Nat) (s : State) : Result :=
  let ctx := s.ctxOf core
  match lostMarker s core pipe with
  | some e => .next (passLost s core ctx e)
  | none =>
    match standing s core pipe with
    | none => .next s
    | some h =>
      if h.atEffect || awaitsStage s ctx h.ring h.m then .next s
      else .next (passOn s core ctx h.n h.next h.m)

-- The drain (R431, R432, R434).

/-- The drain acknowledgement ends a hold: where a stage was removed, the link is the ring's producer with its counters.
DEDUCED, assumption 41. -/
def endHold (s : State) (ctx core key : Nat) (l : Link) : State :=
  if l.renew then
    let r := s.ring l.core ctx l.ring
    let s := (dropCredits s ctx l.core l.ring core key).setRing l.core ctx l.ring { r with peer := some (core, key) }
    s.setLink core ctx key (freshLink s ctx l.core l.ring false l.lastSeq)
  else s.setLink core ctx key { l with held := false, ackOf := none }

/-- DRAIN_ACKNOWLEDGEMENT reaches the effect stage's ring unit. -/
def execDrainAcknowledgement (core pipe : Nat) (s : State) : Result :=
  let ctx := s.ctxOf core
  if (s.core core).active.isNone || !swapIdle s core then .next s
  else
    match (s.unit core ctx).links.find? (fun e => e.2.ackOf == some pipe) with
    | some (key, l) => .next (endHold s ctx core key l)
    | none => .next s

/-- The completion word (R434). -/
def spliceWord (x : Splice) : Nat := 2 ^ 63 + x.status % 128 * 2 ^ 56 + x.cvalue.toNat

/-- The acknowledgement reaches a ring unit once: where the controller's is the effect stage's too, the hold ends as well
(R431, R434). -/
def ackHere (s : State) (core ctx pipe : Nat) (x : Splice) : State :=
  match x.holding with
  | some (c, k) =>
    match s.link c ctx k with
    | some l => if c = core && l.ackOf == some pipe then endHold s ctx c k l else s
    | none => s
  | none => s

/-- SPLICE_COMPLETE: the controller writes the completion word; a word whose write is refused is not written. -/
def execSpliceComplete (core pipe : Nat) (s : State) : Result :=
  let ctx := s.ctxOf core
  match (s.pipe? ctx pipe).bind (·.splice) with
  | none => .next s
  | some x =>
    if core != pipe / 2 ^ 16 || !unitsLive s core || !x.tailPassed then .next s
    else
      let ends (s : State) : State :=
        let s := (ackHere s core ctx pipe x).modPipe ctx pipe (fun p => { p with splice := none, lstatus := x.status })
        if x.irq then raiseIn s x.hart ctx 4 else s
      if x.cword = 0 then .next (ends s)
      else
        engineEvent s (.ring core) none (do
            let s ← engWrite1 s (engineWho s core) (.ring core) 0 x.cword (leBytes 8 (spliceWord x))
            .ok (ends s)) (fun s _ => ends s) (fun s _ _ _ => ends s)

-- splprep (R439, R440).

/-- A status with its detail. -/
def splStatus (code detail : Nat) : W64 := BitVec.ofNat 64 (code + detail * 2 ^ 8)

/-- Reserved bits of a stage entry at doubleword d. -/
def entryChecks (r d : Nat) : List Nat :=
  (if rf r (d + 2) 63 21 != 0 || rf r (d + 2) 15 14 != 0 then [d + 2] else []) ++
    (if rf r (d + 3) 63 0 != 0 then [d + 3] else [])

/-- Walk the NEXT chain from entry i: the entries visited, and where it ends. -/
def walkChain (r n i : Nat) (seen : List Nat) : Nat → List Nat × Nat
  | 0 => (seen, i)
  | fuel + 1 =>
    if i < n && !seen.contains i then walkChain r n (stageOf r (4 + 4 * i)).next (i :: seen) fuel else (seen, i)

/-- A broken chain is reported at the entry whose NEXT breaks it. -/
def chainChecks (r n : Nat) : List Nat :=
  let (seen, e) := walkChain r n 0 [] 17
  if e = tailNext && seen.length = n then [] else [4 + 4 * (seen.headD 0) + 2]

/-- The failing doublewords of a descriptor. -/
def descChecks (r : Nat) : List Nat :=
  let n := rf r 0 20 16
  let okN := 1 ≤ n && n ≤ 16
  (if rf r 0 63 24 != 0 || !okN || rf r 0 23 21 > 5 then [0] else []) ++
    ((List.range 3).filterMap (fun k => if rf r (k + 1) 63 0 != 0 then some (k + 1) else none)) ++
    (if okN then (List.range n).flatMap (fun i => entryChecks r (4 + 4 * i)) ++ chainChecks r n else [])

def lowestNat (l : List Nat) : Option Nat :=
  l.foldl (fun b x => match b with
    | none => some x
    | some y => some (Nat.min x y)) none

/-- FOREIGN, then NODECL, over stages. DEDUCED, assumption 41. -/
def whereBad (s : State) (ctx : Nat) (l : List Stage) : Option W64 :=
  match (indexed l).find? (fun e => !tourCore s ctx e.2.core) with
  | some e => some (splStatus 2 e.1)
  | none =>
    match (indexed l).find? (fun e =>
      let r := s.ring e.2.core ctx e.2.ring
      !r.decl || decide (r.slotBytes < 64)) with
    | some e => some (splStatus 3 e.1)
    | none => none

/-- A ring has a bound peer producer (R252): one that is no OUT or HEAD handle, which an ended pipeline may have left. -/
def peerBound (s : State) (ctx : Nat) (r : Ring) : Bool :=
  match r.peer with
  | none => false
  | some (c, k) => qbMode (s.bank (c * 4 + k / 16) ctx).qbind[Fin.ofNat 16 k] != 3

/-- A ring that cannot join: in a pipeline or reserved, filled, or with a peer producer. -/
def ringTaken (s : State) (ctx : Nat) (r : Ring) : Bool := r.member.isSome || r.filled != 0 || peerBound s ctx r

/-- A ring joins a pipeline: what an ended one left is undone, the OUT handle that publishes to the ring, and the ring to
which its own OUT handle publishes (R425, R426). -/
def leftOver (s : State) (ctx core n : Nat) : State :=
  let s := match (s.ring core ctx n).peer with
    | some (c, k) =>
      let s := pointAt s c ctx k none false
      s.setRing core ctx n { s.ring core ctx n with peer := none }
    | none => s
  match (s.ring core ctx n).outKey with
  | none => s
  | some k =>
    match s.link core ctx k with
    | none => s
    | some l =>
      let g := s.ring l.core ctx l.ring
      let s := if g.peer == some (core, k) then s.setRing l.core ctx l.ring { g with peer := none } else s
      pointAt s core ctx k none false

/-- The pipeline that a checked descriptor opens. -/
def openPipe (s : State) (r : Nat) (h : Fin 16) : State :=
  let ctx := s.myCtx
  let core := s.myCore
  let id := rf r 0 15 0
  let key := core * 2 ^ 16 + id
  let n := rf r 0 20 16
  let head := linkKey (slotOf s.cur) h.val
  let stages : Tab Stage := (List.range n).map (fun i => (i, stageOf r (4 + 4 * i)))
  let p : Pipe := { scope := rf r 0 23 21, stages := stages, first := 0, head := head }
  let s := s.setMyUnit { s.myUnit with pipes := Tab.put s.myUnit.pipes id p }
  let s := stages.foldl (fun s e =>
    let s := leftOver s ctx e.2.core e.2.ring
    let g := s.ring e.2.core ctx e.2.ring
    s.setRing e.2.core ctx e.2.ring { g with member := some (key, e.1) }) s
  let s := s.modMe (fun m => { m with
    qbind := m.qbind.set h (mkQbind true false 3 0 0), roles := Tab.put m.roles h.val 3 })
  let s := match p.stage? 0 with
    | some st => pointAt (s.dropLink core ctx head) core ctx head (some (st.core, st.ring)) false
    | none => s
  (List.range n).foldl (fun s i => linkStage s ctx p i) s

/-- The status of an open after its descriptor is read. -/
def openStatus (s : State) (r : Nat) (h : Fin 16) : W64 :=
  let ctx := s.myCtx
  match lowestNat (descChecks r) with
  | some d => splStatus 1 d
  | none =>
    let stages := (List.range (rf r 0 20 16)).map (fun i => stageOf r (4 + 4 * i))
    match whereBad s ctx stages with
    | some st => st
    | none =>
      let places := stages.map (fun st => (st.core, st.ring))
      if s.myUnit.pipes.length ≥ 4 then 4
      else if s.myUnit.pipes.any (fun e => e.1 == rf r 0 15 0) then 5
      else if places.eraseDups.length < places.length || qbBound s.me.qbind[h] ||
          stages.any (fun st => ringTaken s ctx (s.ring st.core ctx st.ring)) then 6
      else 0

/-- splprep.open. -/
def execSplprepOpen (f : Fmt) (s : State) : Result :=
  onCompute s <| scalarRun f s do
    unitsReady s
    let va := xval s f.a
    aligned s va 32
    keepAnswers s do
      let (s, b) ← loadWords s va 32 1
      let n := rf (leNat b) 0 20 16
      let (s, bs) ← loadWords s (plus va 32) 32 (if n ≤ 16 then n else 0)
      let r := leNat (b ++ bs)
      let h := handleOf f.b
      let st := openStatus s r h
      put64 f (if st = 0 then openPipe s r h else s) st

/-- The failing doublewords of a reserved stage's entry: bytes 32 to 63 must be zero, and NEXT (R439). -/
def stageChecks (r : Nat) : List Nat :=
  (if rf r 2 20 16 != 0 then [2] else []) ++ entryChecks r 0 ++
    ((List.range 4).filterMap (fun k => if rf r (4 + k) 63 0 != 0 then some (4 + k) else none))

/-- Stage indices a pipeline cannot give. -/
def Pipe.usedIndex (p : Pipe) (i : Nat) : Bool := (p.serving i).isSome || (p.reserved.map (·.1)) == some i

/-- The controller core of a key that may name a pipeline. -/
def pipeOf (s : State) (ctx : Nat) (key : W64) : Option Pipe :=
  if key.toNat / 2 ^ 16 < 1024 then s.pipe? ctx key.toNat else none

/-- splprep.stage. -/
def execSplprepStage (f : Fmt) (s : State) : Result :=
  onCompute s <| scalarRun f s do
    let v ← src512 s f.a
    unitsReady s
    let ctx := s.myCtx
    let key := xval s f.b
    let r := v.toNat
    let st := stageOf r 0
    match lowestNat (stageChecks r) with
    | some d => put64 f s (splStatus 1 d)
    | none =>
      match whereBad s ctx [st] with
      | some x => put64 f s x
      | none => do
        let g := s.ring st.core ctx st.ring
        waitFor g.stage s
        match pipeOf s ctx key with
        | none => put64 f s (if ringTaken s ctx g then 6 else 7)
        | some p =>
          if p.reserved.isSome then put64 f s 4
          else if ringTaken s ctx g then put64 f s 6
          else
            match (List.range 16).find? (fun i => !p.usedIndex i) with
            | none => put64 f s 8
            | some i =>
              let s := (leftOver s ctx st.core st.ring).modPipe ctx key.toNat (fun p => { p with reserved := some (i, st) })
              put64 f (s.setRing st.core ctx st.ring { s.ring st.core ctx st.ring with member := some (key.toNat, i) }) (BitVec.ofNat 64 (i * 2 ^ 16))

/-- splprep.bind. DEDUCED, assumption 41. -/
def execSplprepBind (f : Fmt) (s : State) : Result :=
  onCompute s <| scalarRun f s do
    unitsReady s
    let qi := handleOf f.a
    let qo := handleOf f.b
    let core := s.myCore
    let ctx := s.myCtx
    let b := s.me.qbind[qi]
    let r := s.ring core ctx qi.val
    let localIn := qbBound b && qbMode b == 0 && r.decl && !r.tour
    if qbBound s.me.qbind[qo] || (localIn && (r.stage || r.filled != 0 || (peerBound s ctx r && r.member.isNone))) then put64 f s 6
    else if !localIn then put64 f s 10
    else
      let key := linkKey (slotOf s.cur) qo.val
      let s := s.setRing core ctx qi.val { r with stage := true, outKey := some key }
      let s := s.modMe (fun m => { m with
        qbind := (m.qbind.set qi (mkQbind true (qbRint b) 3 qi.val core)).set qo (mkQbind true false 3 0 0)
        roles := Tab.put (Tab.put m.roles qi.val 1) qo.val 2 })
      let s := match r.member with
        | some (k, i) =>
          match s.pipe? ctx k with
          | some p => linkStage s ctx p i
          | none => s
        | none => s
      put64 f s 0

/-- splprep.drop. -/
def execSplprepDrop (f : Fmt) (s : State) : Result :=
  onCompute s <| scalarRun f s do
    let ctx := s.myCtx
    let key := xval s f.a
    match (pipeOf s ctx key).bind (fun p => p.reserved.map (fun q => (p, q))) with
    | none => put64 f s 7
    | some (p, (i, st)) =>
      let injected := match p.splice with
        | some x => x.opk == 0 && x.phase == 1
        | none => false
      if (xval s f.b).toNat != i || injected then put64 f s 7
      else
        let r := s.ring st.core ctx st.ring
        put64 f ((s.modPipe ctx key.toNat (fun p => { p with reserved := none })).setRing st.core ctx st.ring
          { r with member := none }) 0

-- splinj (R429, R441).

def spOpk (r : Nat) : Nat := rf r 2 1 0
def spTarget (r : Nat) : Nat := rf r 2 7 4
def spAux (r : Nat) : Nat := rf r 2 11 8

/-- The failing doublewords of a splice record. -/
def spliceChecks (r : Nat) : List Nat :=
  let bad (c : Bool) (d : Nat) : List Nat := if c then [d] else []
  let op := spOpk r
  bad (rf r 0 63 0 != 48 * 2 ^ 16 + 1) 0 ++ bad (rf r 1 63 0 != 0) 1 ++
    bad (rf r 2 63 13 != 0 || rf r 2 3 2 != 0 || op == 3 || (op == 2 && spAux r != 0)) 2 ++
    bad (if op = 2 then rf r 3 63 0 == 0 || rf r 3 1 0 != 0 else rf r 3 63 0 != 0) 3 ++ bad (rf r 4 63 0 != 0) 4 ++
    bad (rf r 5 2 0 != 0) 5 ++ bad (rf r 6 63 32 != 0) 6 ++ bad (rf r 7 63 0 != 0) 7

/-- TARGET, R440 row 9. -/
def targetBad (p : Pipe) (r : Nat) : Bool :=
  match p.stage? (spTarget r) with
  | none => true
  | some t =>
    match spOpk r with
    | 0 => (p.reserved.map (·.1)) != some (spAux r)
    | 1 => t.next == tailNext || p.stages.length == 1 || spAux r == spTarget r || (p.stage? (spAux r)).isNone
    | _ => false

/-- The heir holds an unread inheritance. -/
def heirFull (s : State) (ctx : Nat) (p : Pipe) (r : Nat) : Bool :=
  spOpk r == 1 && (match p.stage? (spAux r) with
    | some h => (s.ring h.core ctx h.ring).inherit.isSome
    | none => false)

def injectStatus (s : State) (ctx : Nat) (p : Option Pipe) (r : Nat) : W64 :=
  match lowestNat (spliceChecks r), p with
  | some d, _ => splStatus 1 d
  | none, none => 7
  | none, some p =>
    if p.splice.isSome then 4
    else if heirFull s ctx p r then 6
    else if targetBad p r then 9
    else 0

/-- The splice is in flight: its marker is published behind the head's publications, or waits at the head handle where
that is the effect point. -/
def inject (s : State) (key : Nat) (p : Pipe) (r : Nat) : State :=
  let ctx := s.myCtx
  let core := s.myCore
  let atHead := spOpk r == 1 && (p.upstream (spTarget r)).isNone
  let x : Splice := {
    opk := spOpk r, target := spTarget r, aux := spAux r, code := BitVec.ofNat 64 (rf r 3 63 0)
    cword := BitVec.ofNat 64 (rf r 5 63 0), cvalue := BitVec.ofNat 32 (rf r 6 31 0), irq := rf r 2 12 12 == 1
    hart := s.cur, atHead := atHead }
  let s1 := s.modPipe ctx key (fun p => { p with splice := some x, sseq := seqOf s core ctx p.head })
  match s.link core ctx p.head with
  | none => s1
  | some l =>
    if atHead then s1.setLink core ctx p.head { l with held := true }
    else sendMarker s1 ctx core p.head (l.core, l.ring) { pos := 0, pipe := key }

/-- splinj. -/
def execSplinj (f : Fmt) (s : State) : Result :=
  onCompute s <| scalarRun f s do
    let v ← src512 s f.a
    unitsReady s
    let ctx := s.myCtx
    let head := linkKey (slotOf s.cur) (handleOf f.b).val
    let p := s.myUnit.pipes.find? (fun e => e.2.head == head)
    let st := injectStatus s ctx (p.map (·.2)) v.toNat
    match p with
    | some (id, q) =>
      if st = 0 then do
        let s ← release s q.scope
        put64 f (inject s (s.myCore * 2 ^ 16 + id) q v.toNat) 0
      else put64 f s st
    | none => put64 f s st

-- splstat (R432, R435, R442).

/-- The pipeline word. -/
def pipeWord (p : Pipe) : W64 :=
  let phase := (p.splice.map (·.phase)).getD 0
  BitVec.ofNat 64 (p.sseq.toNat * 2 ^ 32 + p.lstatus % 256 * 2 ^ 24 + p.stages.length * 2 ^ 16 + p.first * 2 ^ 12 +
    phase * 2 ^ 8 + 1)

def execSplstat (f : Fmt) (s : State) : Result :=
  onCompute s <| scalarRun f s do
    put64 f s (match pipeOf s s.myCtx (xval s f.a) with
      | some p => pipeWord p
      | none => 0)

/-- An IN handle's ring. -/
def inHandle (s : State) (h : Fin 16) : Act Ring := do
  unitsReady s
  let b ← boundHandle s h
  need (qbMode b == 3 && roleOf s.me h == 1) s (queueFault 1)
  .ok (s.ring s.myCore s.myCtx h.val)

/-- The stage leaves: its marker passes, its OUT handle has no downstream ring, the next ring's producer is now the one
upstream, and its ring may join again (R432). -/
def leavePipe (s : State) (n : Nat) (r : Ring) (p : Pipe) (x : Splice) (m : Marker) : State :=
  let core := s.myCore
  let ctx := s.myCtx
  let key := r.outKey.getD 0
  let next := ((p.serving x.target).map (·.next)).getD tailNext
  let s := leaverGone (passOn s core ctx n next m) ctx m.pipe x.target m
  let s1 := match s.link core ctx key with
    | some l =>
      let g := s.ring l.core ctx l.ring
      s.setRing l.core ctx l.ring { g with peer := x.holding }
    | none => s
  let s2 := (nameTarget s1 core ctx key none).dropLink core ctx key
  s2.setRing core ctx n { s2.ring core ctx n with peer := none, member := none }

/-- The front marker is marked as taken. -/
def markTaken (s : State) (n : Nat) : State :=
  let r := s.ring s.myCore s.myCtx n
  s.setRing s.myCore s.myCtx n { r with
    markers := (r.markers.take 1).map (fun m => { m with taken := true }) ++ r.markers.drop 1 }

/-- The marker of a REBIND can pass now (R431, R433). -/
def mayRebind (s : State) (r : Ring) (p : Pipe) (x : Splice) (m : Marker) : Bool :=
  (match r.outKey.bind (fun k => s.link s.myCore s.myCtx k) with
   | some l => l.ackOf.isNone
   | none => true) && splicePlan s s.myCtx m.pipe p x == .goes

/-- A take of an addressed marker: a REMOVE's stage leaves at once; a REBIND's marker passes, and then the take answers. -/
def takeMarker (f : Fmt) (s : State) (n : Nat) (r : Ring) (p : Pipe) (x : Splice) (m : Marker) : Act State :=
  if x.opk = 1 then do
    let s ← release s p.scope
    put64 f (acquire (leavePipe s n r p x m)) 1
  else if mayRebind s r p x m then inRelease (hold (markTaken s n))
  else hold s

/-- splstat.take. -/
def execSplstatTake (f : Fmt) (s : State) : Result :=
  onCompute s <| scalarRun f s do
    dstReady s f.d
    let h := handleOf f.a
    let r ← inHandle s h
    match r.rebound, frontMarker r with
    | some code, _ =>
      put64 f (acquire (s.setRing s.myCore s.myCtx h.val { r with rebound := none })) (code ||| 2)
    | none, front =>
      if r.inherit.isSome then put64 f (acquire s) 3
      else
      match front with
      | some m =>
        if awaitsStage s s.myCtx r m then
          match (s.pipe? s.myCtx m.pipe).bind (fun p => p.splice.map (fun x => (p, x))) with
          | some (p, x) => takeMarker f s h.val r p x m
          | none => hold s
        else hold s
      | none => if r.visible > 0 then put64 f s 0 else hold s

/-- splstat.inh. -/
def execSplstatInh (f : Fmt) (s : State) : Result :=
  onCompute s <| scalarRun f s do
    dstReady s f.d
    let h := handleOf f.a
    let r ← inHandle s h
    put64 f (s.setRing s.myCore s.myCtx h.val { r with inherit := none }) (r.inherit.getD 0)

end Sys2Proof.Machine
end

