-- ==== Sys2Proof/Machine/Swap.lean ====
section
/-! DEFINITION. Commands to harts and core swaps (R169, R170, R472 to R477). -/

namespace Sys2Proof.Machine

-- Commands to harts (R472).

/-- RESUME or KILL of a hart. A hart that is not frozen freezes, and is killed, at its next boundary; one that runs
nothing stands at a boundary. -/
def hartCommand (s : State) (hid ctx : Nat) (k : UnitCmd) : State :=
  let h := s.bank hid ctx
  match k with
  | .resume => if h.frozen then s.setBank hid ctx { h with frozen := false, waiting := false, spillSet := [] } else s
  | .kill => if h.frozen || !h.running then killHart s hid ctx else s.setBank hid ctx { h with killNext := true }

/-- A command acts at once for the active context; for another it is recorded, and replaces an earlier one. To a
supervisor hart it is the steading's answer (R463). DEDUCED, assumption 34. -/
def hcmd (s : State) (core slot ctx : Nat) (k : UnitCmd) : State :=
  let hid := core * 4 + slot % 4
  if supCore core then hartCommand s hid sysCtx k
  else if (s.core core).active == some ctx then hartCommand s hid ctx k
  else s.setBank hid ctx { s.bank hid ctx with cmd := some k }

/-- HCMD_RESUME. -/
def execHcmdResume (core slot ctx : Nat) (s : State) : Result := .next (hcmd s core slot ctx .resume)

/-- HCMD_KILL. -/
def execHcmdKill (core slot ctx : Nat) (s : State) : Result := .next (hcmd s core slot ctx .kill)

-- The exchange (R169, R473).

/-- The conditions of R169, R136, R170, R328 and R355: the shadow bank holds the incoming context, no hart waits
inside a release, for a table operation or for an access it has issued, and no matrix job but a LOADB, nor an exponent
card, runs. DEDUCED, assumption 34. -/
def swapReady (s : State) (core : Nat) : Bool :=
  let k := s.core core
  match k.swapTo with
  | none => false
  | some t =>
    k.shadow == some t &&
      (match k.active with
       | none => true
       | some old =>
         let u := s.unit core old
         (hartsOf core).all (fun h =>
           !(s.bank h old).inRel && !s.accessOpen h old && (s.bank h old).groupsDone.isEmpty && (s.runsOf (.hart h) old).isEmpty) &&
           u.matrix.array.isNone && u.matrix.port.isNone && (u.matrix.loader.map (fun r => !r.ended)).getD true &&
           u.exponent.run.isNone)

/-- The waits of a bank that leaves are abandoned (R177). -/
def abandonWaits (h : Hart) : Hart := { h with waiting := false, inWfi := false, sleep := none }

/-- What the units of the outgoing context do: a LOADB's segments end, to be translated again (R325, R328, R412, R473). DEDUCED, assumption 33. -/
def swapOut (s : State) (core old : Nat) : State :=
  let u := s.unit core old
  let s := match u.matrix.loader with
    | some r => (s.endSegments core old r.c.job).forsakeJob (.matrix core) old (some r.c.job)
    | none => s
  let s := s.setUnit core old { u with matrix := u.matrix.stopLoader true }
  let s := (tourSwap s core old).addMeter old 12 1
  (hartsOf core).foldl (fun s h => s.setBank h old (abandonWaits (s.bank h old))) s

/-- A hart's recorded command acts when its bank returns (R472). DEDUCED, assumption 33. -/
def swapInHart (s : State) (ctx hid : Nat) : State :=
  let h := s.bank hid ctx
  match h.cmd with
  | none => s
  | some k => hartCommand (s.setBank hid ctx { h with cmd := none }) hid ctx k

/-- A copy channel takes its recorded command. -/
def chanIn (c : Copy) (ch : Fin 4) : Copy :=
  match c.chans[ch].cmd with
  | none => c
  | some k => (c.setChan ch { c.chans[ch] with cmd := none }).command ch k

/-- The units of the incoming context: recorded commands act, and a LOADB that the swap stopped goes on (R328, R472). -/
def unitsIn (s : State) (core ctx : Nat) : State :=
  let u := s.unit core ctx
  let m := match u.matrix.cmd with
    | some k => { u.matrix with cmd := none }.command k
    | none => if u.matrix.swapped then u.matrix.resume else u.matrix
  let h := match u.harrow.cmd with
    | some k => { u.harrow with cmd := none }.command k
    | none => u.harrow
  let c := [(0 : Fin 4), 1, 2, 3].foldl chanIn u.copy
  let s := s.setUnit core ctx { u with matrix := m, harrow := h, copy := c }
  u.tours.foldl (fun s e =>
    match e.2.cmd with
    | none => s
    | some k => tourCommand (s.modTour core ctx e.1 (fun t => { t with cmd := none })) core ctx e.1 k) s

/-- The parts a core's thresher moves: 0 the units, 1 the Phase lines, 2 + r scratchpad region r (R474). -/
def allParts : List Nat := List.range 98

/-- SWAP_EXCHANGE (R169): the banks change places. The thresher then moves every part, or, on a swap back before it
had finished, only those that it had moved (R477); units that never left take up what a restore gives them (R328,
R472). DEDUCED, assumption 34. -/
def execSwapExchange (core : Nat) (s : State) : Result :=
  let k := s.core core
  match k.swapTo with
  | none => .next s
  | some t =>
    if !swapReady s core then .next s
    else
      let s := match k.active with
        | some old => swapOut s core old
        | none => s
      let todo := if k.todo.isEmpty then allParts else allParts.filter (fun p => !k.todo.contains p)
      let s := s.setCore core { s.core core with
        active := some t, shadow := k.active, swapTo := none, outSince := s.time, todo := todo, issued := 0 }
      let s := if todo.contains 0 then s else unitsIn s core t
      .next ((hartsOf core).foldl (fun s h => swapInHart s t h) s)

-- The thresher (R474).

/-- The Phase lines of a context leave the data cache for its save area. -/
def linesOut (s : State) (core ctx : Nat) : State :=
  let k := s.core core
  let mine (c : CacheLine) : Bool := c.ctx == ctx && c.owner.isSome
  let ls := (k.dcache.map (fun e => e.2.filter mine)).flatten
  let u := s.unit core ctx
  (s.setUnit core ctx { u with saved := u.saved ++ ls }).setCore core
    { k with dcache := k.dcache.map (fun e => (e.1, e.2.filter (fun c => !mine c))) }

/-- A line comes back to its set; a Clean line makes way for it (R66, R132). -/
def lineIn (s : State) (core : Nat) (c : CacheLine) : State :=
  let l := s.cset core c.line
  let l := if l.length < 4 then l
    else match l.findIdx? (fun d => d.owner == none) with
      | some i => l.eraseIdx i
      | none => l
  s.setCset core c.line (l ++ [c])

/-- The saved Phase lines of a context return to the data cache. -/
def linesIn (s : State) (core ctx : Nat) : State :=
  let u := s.unit core ctx
  u.saved.foldl (fun s c => lineIn s core c) (s.setUnit core ctx { u with saved := [] })

/-- An access that a hart of a bank has issued is not performed yet, or its answer is on its way (R170). -/
def bankBusy (s : State) (core ctx : Nat) : Bool :=
  (s.inFlight ++ s.outbox).any (fun r => r.ctx == ctx && (match r.agent with | .hart id => coreOf id == core | _ => false)) ||
    s.respNet.any (fun q => q.ctx == ctx && (match q.agent with | .hart id => coreOf id == core | _ => false))

/-- A granule's tag and payload in a save area, the granule before it being `prev` (R476). -/
def codeGranule (prev : Option (List Byte)) (g : List Byte) : List Byte :=
  if g.all (fun b => b == 0) then [0]
  else if prev == some g then [1]
  else if g == (List.replicate 16 (g.take 4)).flatten then 2 :: g.take 4
  else 3 :: g

/-- A region's granules as its save area holds them. -/
def codeRegion (prev : Option (List Byte)) : List (List Byte) → List Byte
  | [] => []
  | g :: gs => codeGranule prev g ++ codeRegion (some g) gs

/-- The next granule of a coded region, and what follows it. -/
def decodeGranule (prev : List Byte) : List Byte → List Byte × List Byte
  | [] => ([], [])
  | t :: bs =>
    match t.toNat with
    | 0 => (List.replicate 64 0, bs)
    | 1 => (prev, bs)
    | 2 => ((List.replicate 16 (bs.take 4)).flatten, bs.drop 4)
    | _ => (bs.take 64, bs.drop 64)

/-- The bytes of the next `n` granules of a coded region. -/
def decodeRegion : Nat → List Byte → List Byte → List Byte
  | 0, _, _ => []
  | n + 1, prev, bs =>
    let r := decodeGranule prev bs
    r.1 ++ decodeRegion n r.1 r.2

/-- The granules of some bytes. -/
def granulesOf (bs : List Byte) : Nat → List (List Byte)
  | 0 => []
  | n + 1 => bs.take 64 :: granulesOf (bs.drop 64) n

/-- A scratchpad region of the incoming context is loaded: a saved region from its code, zeros where none was saved
(R476). Bytes are keyed by context here, those of a context that is out being what its save area codes.
DEDUCED, assumption 33. -/
def regionIn (s : State) (core ctx r : Nat) : State :=
  let at0 := spadKey core ctx (4096 * r)
  if (s.unit core ctx).dirty.contains r then
    let old := spadRead s core ctx (4096 * r) 4096
    let bs := decodeRegion 64 [] (codeRegion none (granulesOf old 64))
    if bs == old then s else { s with spad := Mem.writeL s.spad at0 bs }
  else { s with spad := Mem.clear s.spad at0 4096 }

/-- THRESHER_TRANSFER (R170, R474): once every access of the outgoing bank is performed, the next part changes hands.
DEDUCED, assumption 33. -/
def execThresherTransfer (core : Nat) (s : State) : Result :=
  let k := s.core core
  match k.todo with
  | [] => .next s
  | p :: rest =>
    if (k.shadow.map (bankBusy s core)).getD false then .next s
    else
    let ctx := k.active.getD 0
    let s := match p with
      | 0 => unitsIn s core ctx
      | 1 =>
        let s := match k.shadow with
          | some old => linesOut s core old
          | none => s
        linesIn s core ctx
      | r + 2 => regionIn s core ctx r
    .next (s.setCore core { s.core core with todo := rest })

end Sys2Proof.Machine
end

