-- ==== Sys2Proof/Machine/Debug.lean ====
section
/-! DEFINITION. The debug windows of a cluster (R469 to R472) and the port window of a core (R33, R34). -/

namespace Sys2Proof.Machine

-- What a debug window shows (R469).

/-- An assigned place of a debug window. -/
inductive DebugSpot where
  | x (slot : Nat) (r : Fin 32) | v (slot : Nat) (r : Fin 32) (dword : Nat) | p (slot : Nat) (r : Fin 8)
  | pc (slot : Nat) | fstate (slot : Nat) | packet (slot dword : Nat) | csr (slot : Nat) (r : CReg)
  | hcmd (slot : Nat) | mxcmd | cpcmd (ch : Nat) | hrcmd | tourcmd
  deriving DecidableEq, Repr

/-- The place at an offset within a hart block. -/
def hartSpot (slot o : Nat) : Option DebugSpot :=
  if o < 0x100 then some (.x slot (Fin.ofNat 32 (o / 8)))
  else if o < 0x900 then some (.v slot (Fin.ofNat 32 ((o - 0x100) / 64)) ((o - 0x100) % 64 / 8))
  else if o < 0x940 then some (.p slot (Fin.ofNat 8 ((o - 0x900) / 8)))
  else if o = 0xA00 then some (.pc slot)
  else if o = 0xA08 then some (.fstate slot)
  else if 0xA40 ≤ o && o < 0xA80 then some (.packet slot ((o - 0xA40) / 8))
  else if 0xC00 ≤ o && o < 0xC00 + 8 * 0x30 then (CReg.ofNum ((o - 0xC00) / 8)).map (.csr slot)
  else none

/-- The place at an 8-byte aligned offset of a window. -/
def debugSpot (off : Nat) : Option DebugSpot :=
  if off < 0x4000 then hartSpot (off / 0x1000) (off % 0x1000)
  else if off < 0x4020 then some (.hcmd ((off - 0x4000) / 8))
  else if off = 0x4040 then some .mxcmd
  else if 0x4048 ≤ off && off < 0x4068 then some (.cpcmd ((off - 0x4048) / 8))
  else if off = 0x4068 then some .hrcmd
  else if off = 0x4070 then some .tourcmd
  else none

/-- FSTATE (R471). -/
def fstateWord (s : State) (hid : Nat) : W64 :=
  let h := s.hart hid
  let d (i : Nat) : Nat := (h.lastPacket.getD i 0).toNat
  let queued := !h.lastPacket.isEmpty && s.heldPackets.any (fun p => p.src == .hart hid && p.dw == h.lastPacket)
  BitVec.ofNat 64 (slice (d 0) 63 32 * 2 ^ 32 + slice (d 1) 15 8 * 2 ^ 16 + slice (d 1) 7 0 * 2 ^ 8 + queued.toNat * 2 +
    h.frozen.toNat)

/-- A register of a frozen hart, as it stands (R470). -/
def spotReg (s : State) (hid : Nat) : DebugSpot → W64
  | .x _ r => (s.hart hid).rx r
  | .v _ r i => dwordOf ((s.hart hid).rv r) i
  | .p _ r => (s.hart hid).rp r
  | .pc _ => (s.hart hid).pc
  | .csr _ r => readCsr s hid (s.ctxOf (coreOf hid)) r
  | _ => 0

def DebugSpot.slot : DebugSpot → Nat
  | .x n _ => n | .v n _ _ => n | .p n _ => n | .pc n => n | .fstate n => n | .packet n _ => n | .csr n _ => n
  | _ => 0

/-- An 8-byte read: FSTATE and the packet as they stand, registers of a frozen hart, else zero (R470, R472). -/
def spotRead (s : State) (core : Nat) (d : DebugSpot) : W64 :=
  let hid := core * 4 + d.slot
  match d with
  | .fstate _ => fstateWord s hid
  | .packet _ i => (s.hart hid).lastPacket.getD i 0
  | d => if (s.hart hid).frozen then spotReg s hid d else 0

/-- Replace one doubleword of a vector register. -/
def setDword (v : V512) (i : Nat) (d : W64) : V512 := BitVec.ofNat 512 (setSlice v.toNat (64 * i + 63) (64 * i) d.toNat)

/-- A write to a register of a frozen hart makes it live; x0, p0 and what is read-only ignore it (R470). -/
def spotSet (s : State) (hid : Nat) (d : DebugSpot) (v : W64) : State :=
  let h := s.hart hid
  match d with
  | .x _ r => s.setHart hid (h.wx r v)
  | .v _ r i => s.setHart hid (h.wv r (setDword (h.rv r) i v))
  | .p _ r => s.setHart hid (h.wp r v)
  | .pc _ => s.setHart hid (h.setPc v)
  | .csr _ r => writeCsr s hid (s.ctxOf (coreOf hid)) r v (v.getLsbD 0)
  | _ => s

/-- A command word: the fields outside those given are zero, and CMD is RESUME or KILL (R472). -/
def cmdOf (v : W64) (withTour : Bool) : Option (UnitCmd × Nat × Nat) :=
  let n := v.toNat
  let id := slice n 31 16
  if slice n 7 2 != 0 || slice n 15 14 != 0 || slice n 63 32 != 0 || (!withTour && id != 0) then none
  else
    match n % 4 with
    | 1 => some (.resume, slice n 13 8, id)
    | 2 => some (.kill, slice n 13 8, id)
    | _ => none

/-- An 8-byte write at a place of a member's window; none where the word is no command. -/
def spotWrite (s : State) (core : Nat) (d : DebugSpot) (v : W64) : Option State :=
  match d with
  | .hcmd slot => (cmdOf v false).map (fun c => hcmd s core slot c.2.1 c.1)
  | .mxcmd => (cmdOf v false).map (fun c => mxCommand s core c.2.1 c.1)
  | .cpcmd ch => (cmdOf v false).map (fun c => cpCommand s core ch c.2.1 c.1)
  | .hrcmd => (cmdOf v false).map (fun c => hrCommand s core c.2.1 c.1)
  | .tourcmd => (cmdOf v true).map (fun c => tourCmd s core c.2.1 c.2.2 c.1)
  | d =>
    let hid := core * 4 + d.slot
    some (if (s.hart hid).frozen then spotSet s hid d v else s)

/-- A store to a debug window leaves for its block, where it is performed later (R125, R470). -/
def debugPost (s : State) (core off n : Nat) (v : V512) (va : W64) : State := s.post (.debug core off) n 0 v va

/-- A load of a debug window waits for the hart's earlier stores to the same block (R124, R470). -/
def debugOrder (s : State) (core off n : Nat) : Act Unit := waitFor (!orderBusy s (.hart s.cur) (.debug core off) n) s

/-- A fused-off member's window never responds (R31, R82). DEDUCED, assumption 44. -/
def debugMember (s : State) (m : Nat) (va : W64) : Act Nat := do
  let core := memberCore (clusterOf s.myCore) m
  need (present s core) s (accessFault causeForeign va)
  .ok core

/-- An aligned 8-byte read of a debug window (R470). -/
def debugLoad (s : State) (m off : Nat) (va : W64) (n : Nat) : Act W64 := do
  let core ← debugMember s m va
  match debugSpot off with
  | some d => do
    need (n = 8 && off % 8 = 0) s (accessFault causeWindow va)
    debugOrder s core off 8
    .ok (spotRead s core d)
  | none => fail s (accessFault causeWindow va)

/-- An aligned 8-byte write: what makes it no write is found at once (R470, R472). -/
def debugStore (s : State) (m off : Nat) (va : W64) (n : Nat) (v : W64) : Act State := do
  let core ← debugMember s m va
  match debugSpot off with
  | some d => do
    need (n = 8 && off % 8 = 0 && (spotWrite s core d v).isSome) s (accessFault causeWindow va)
    .ok (debugPost s core off 8 (v.setWidth 512) va)
  | none => fail s (accessFault causeWindow va)

/-- The v register whose 64 bytes an aligned access covers. -/
def vectorSpot (off : Nat) : Option (Nat × Fin 32) :=
  match debugSpot off with
  | some (.v slot r 0) => some (slot, r)
  | _ => none

/-- A 64-byte read of a v register. -/
def debugLoadV (s : State) (m off : Nat) (va : W64) : Act V512 := do
  let core ← debugMember s m va
  match vectorSpot off with
  | some (slot, r) => do
    debugOrder s core off 64
    let h := s.hart (core * 4 + slot)
    .ok (if h.frozen then h.rv r else 0)
  | none => fail s (accessFault causeWindow va)

/-- A 64-byte write of a v register. -/
def debugStoreV (s : State) (m off : Nat) (va : W64) (v : V512) : Act State := do
  let core ← debugMember s m va
  match vectorSpot off with
  | some _ => .ok (debugPost s core off 64 v va)
  | none => fail s (accessFault causeWindow va)

/-- A store is performed at a place of a window: eight bytes, or the 64 of a v register. -/
def debugPerform (s : State) (core off n : Nat) (v : V512) : State :=
  if n = 64 then
    match vectorSpot off with
    | some (slot, r) =>
      let hid := core * 4 + slot
      let h := s.hart hid
      if h.frozen then s.setHart hid (h.wv r v) else s
    | none => s
  else ((debugSpot off).bind (fun d => spotWrite s core d (dwordOf v 0))).getD s

/-- DEBUG_WINDOW_WRITE: a supervisor hart's 8-byte store at an offset of a member's window (R470).
DEDUCED, assumption 16. -/
def execDebugWindowWrite (member : Fin 16) (off : Nat) (v : W64) (s : State) : Result :=
  let va : W64 := BitVec.ofNat 64 (2 ^ 64 - 2 ^ 55 + 4 * 2 ^ 32 + member.val * 2 ^ 16 + off)
  if isSup s.cur && s.me.modeS then settle (debugStore s member.val off va 8 v)
  else settle (fail s (accessFault causeAccPrivilege va))

-- The port window (R33, R34).

/-- A block of the window responds: on a supervisor core only the copy engine's. -/
def portBlock (s : State) (off : Nat) : Bool := !supCore s.myCore || off / 0x1000 = 1 || off / 0x1000 = 4

/-- RINGSTATn: the word of a local ring as a local binding sees it, MODE and BOUND zero. -/
def ringWord (s : State) (n : Nat) : W64 :=
  let r := s.ring s.myCore s.myCtx n
  if r.decl then BitVec.ofNat 64 ((qstatWord 0 (.local_ n r)).toNat % 2 ^ 48) else 0

/-- The word of a status register; none at any other offset. -/
def portStatus (s : State) (off : Nat) : Option W64 :=
  let u := s.myUnit
  let o := off % 0x1000
  match off / 0x1000 with
  | 0 =>
    if o = 0x40 then some (mxStatus u.matrix)
    else if o = 0x48 then some (BitVec.ofNat 64 (mxWm s 0))
    else if o = 0x50 then some (BitVec.ofNat 64 (mxWm s 1))
    else none
  | 3 => if o = 0x40 then some (harrowWord u.harrow) else none
  | 4 =>
    let k := u.copy.chans[Fin.ofNat 4 (o % 0x40 / 8)]
    if 0x40 ≤ o && o < 0x60 then some (wmWord k) else if 0x80 ≤ o && o < 0xA0 then some (chanWord k) else none
  | 5 => if o < 0x80 then some (ringWord s (o / 8)) else none
  | _ => none

/-- An aligned 8-byte ld of a status register. -/
def portLoad (s : State) (off : Nat) (va : W64) (n : Nat) : Act W64 := do
  need (n = 8 && off % 8 = 0 && portBlock s off) s (accessFault causeWindow va)
  match portStatus s off with
  | none => fail s (accessFault causeWindow va)
  | some _ => do
    unitsReady s
    .ok ((portStatus s off).getD 0)

/-- An aligned 8-byte st of a control register: CPHEADc acts as cpchn (R350). -/
def portStore (s : State) (off : Nat) (va : W64) (n : Nat) (v : W64) : Act State := do
  need (n = 8 && off % 8 = 0 && portBlock s off && off / 0x1000 = 4 && off % 0x1000 < 0x20) s (accessFault causeWindow va)
  startChain s (Fin.ofNat 4 (off % 0x1000 / 8)) v

/-- hstart through HSTART (R34, R360). -/
def hstartPort (s : State) (w : V512) (va : W64) : Act State := do
  need (w.toNat / 2 ^ 138 = 0) s (accessFault causeWindow va)
  startHarrow s (dwordOf w 0) (dwordOf w 1) (dwordOf w 2).toNat

/-- A push register that responds on the current core. -/
def pushSpot (s : State) (off : Nat) : Bool :=
  let o := off % 0x1000
  portBlock s off &&
    (match off / 0x1000 with
     | 0 | 2 | 3 => o == 0
     | 1 => o < 0x100 && o % 64 == 0
     | _ => false)

/-- A 64-byte aligned vst of a whole register to a push register. -/
def portPush (s : State) (off : Nat) (va : W64) (w : V512) : Act State :=
  match off / 0x1000 with
  | 0 => pushMatrix s w
  | 1 => pushCopy s (Fin.ofNat 4 (off % 0x1000 / 0x40)) w
  | 2 => pushExponent s w
  | 3 => hstartPort s w va
  | _ => fail s (accessFault causeWindow va)

end Sys2Proof.Machine
end

