-- ==== Sys2Proof/Machine/Sowing.lean ====
section
/-! DEFINITION. The sowing unit of each cluster (R402, R403). -/

namespace Sys2Proof.Machine

/-- A descriptor breaks R402. -/
def sowBad (r : V512) : Bool :=
  let d := r.toNat
  let p := slice d 223 208
  let k := slice d 207 192
  slice d 511 256 != 0 || slice d 255 224 != 0 || p = 0 || p > 68 || k = 0 || k > 256 || slice d 191 160 != 0 ||
    slice d 159 128 = 0 || decide (toSigned 64 (slice d 127 64) < toSigned 64 (slice d 63 0))

/-- The range a descriptor gives. -/
def sowRange (r : V512) (ctx id : Nat) : SowRange :=
  let d := r.toNat
  { ctx := ctx, id := id, next := toSigned 64 (slice d 63 0), last := toSigned 64 (slice d 127 64)
    k := slice d 207 192, min := slice d 159 128, p := slice d 223 208 }

def SowRange.is (e : SowRange) (ctx id : Nat) : Bool := e.ctx == ctx && e.id == id
/-- Iterations left. -/
def SowRange.left (e : SowRange) : Nat := (e.last - e.next).toNat

/-- The length of the next chunk (R403). -/
def SowRange.chunk (e : SowRange) : Nat :=
  let rem := e.left
  let kp := e.k * e.p
  Nat.min rem (Nat.max e.min ((rem + kp - 1) / kp))

def State.sow (s : State) (cl : Nat) : List SowRange := Tab.get [] s.sowing cl
def State.setSow (s : State) (cl : Nat) (l : List SowRange) : State := { s with sowing := Tab.put s.sowing cl l }
def State.range? (s : State) (cl ctx id : Nat) : Option SowRange := (s.sow cl).find? (·.is ctx id)

/-- A free value, drawn once. DESIGN CHOICE, assumption 2. -/
def State.draw (s : State) : State × W64 := ({ s with draws := s.draws + 1 }, Config.freeValue s.draws)

/-- Enter a range: it replaces its own entry, takes a free one, or takes an exhausted one, of several a free choice
(R403). None when all 16 are active. -/
def enterRange (s : State) (cl : Nat) (e : SowRange) : Option State :=
  let l := s.sow cl
  match l.findIdx? (·.is e.ctx e.id) with
  | some i => some (s.setSow cl (l.set i e))
  | none =>
    if l.length < 16 then some (s.setSow cl (l ++ [e]))
    else
      let idle := (List.range l.length).filter (fun i => ((l[i]?).map (fun q => q.left == 0)).getD false)
      if idle.isEmpty then none
      else
        let (s, v) := s.draw
        some (s.setSow cl (l.set (idle.getD (v.toNat % idle.length) 0) e))

def sowId (f : Fmt) : Nat := f.imm.toNat % 16

/-- rngset (R403): 1 BADDESC, 2 FULL. -/
def execRngset (f : Fmt) (s : State) : Result :=
  scalarRun f s do
    let r ← src512 s f.a
    if sowBad r then put64 f s 1
    else
      match enterRange s (clusterOf s.myCore) (sowRange r s.myCtx (sowId f)) with
      | some t => put64 f t 0
      | none => put64 f s 2

/-- The register after a pair's first. -/
def pairReg (o : Operand) : Fin 32 :=
  match o with
  | .x r => Fin.ofNat 32 (r.val + 1)
  | _ => 0

/-- rngget variant 0 (R403): a chunk into a pair of x registers. -/
def execRngget (f : Fmt) (s : State) : Result :=
  let cl := clusterOf s.myCore
  scalarRun f s (
    match s.range? cl s.myCtx (sowId f) with
    | none => put64 f (s.modMe (fun h => h.wx (pairReg f.d) 0)) 0
    | some e =>
      let n := e.chunk
      let t := s.setSow cl ((s.sow cl).map (fun q => if q.is e.ctx e.id then { q with next := q.next + n } else q))
      put64 f (t.modMe (fun h => h.wx (pairReg f.d) (BitVec.ofNat 64 n))) (BitVec.ofInt 64 e.next))

/-- rngget.left (R403). -/
def execRnggetLeft (f : Fmt) (s : State) : Result :=
  scalarRun f s (
    match s.range? (clusterOf s.myCore) s.myCtx (sowId f) with
    | none => put64 f s 0
    | some e => put64 f s (BitVec.ofNat 64 e.left))

end Sys2Proof.Machine
end

