-- ==== Sys2Proof/Machine/Mesh.lean ====
section
/-! DEFINITION. Request and response messages, the bank queues of ports and tier controllers, row buffers, and what
arrives from and leaves for peer devices (R47, R69 to R78, R84, R143 to R147, R494, R495). -/

namespace Sys2Proof.Machine

/-- PAGE_WALK (R47): the n-th request of the walk queue is taken up, or its walk goes on. DEDUCED, assumption 46. -/
def execPageWalk (n : Nat) (s : State) : Result := .next (walkTurn s n)

-- Requests on their way (R71, R75).

/-- The n-th request message may arrive before the messages ahead of it: none of them is on its route (R75). -/
def leavesNow (s : State) (n : Nat) (r : Request) : Bool := !(s.reqNet.take n).any (fun q => q.sameRoute s r)

/-- A request reaches its port: one of the port's own core enters its bank queue of 16 when there is room; one that came
over the mesh enters the inbound buffer of 256, and its bank queue as soon as there is room (R71, R75, R76). -/
def reachPort (s : State) (n : Nat) (k : ReqKind) : State :=
  match s.reqNet[n]? with
  | none => s
  | some r =>
    match r.place with
    | .mem p =>
      let bank := bankOf s p
      let port := portOf s (channelOf s p)
      let q := Tab.get [] s.bankQ bank
      let buf := Tab.get [] s.inbound port
      if r.kind == k && leavesNow s n r then
        if r.agent.coreId == some port then
          if q.length < 16 then
            { s with reqNet := s.reqNet.eraseIdx n, bankQ := Tab.put s.bankQ bank (q ++ [r]) }
          else s
        else if buf.length < 256 then
          pullBank { s with reqNet := s.reqNet.eraseIdx n, inbound := Tab.put s.inbound port (buf ++ [r]) } port bank
        else s
      else s
    | _ => s

/-- READ (R75). -/
def execRead (n : Nat) (s : State) : Result := .next (reachPort s n .read)
/-- ATOMIC (R75). -/
def execAtomic (n : Nat) (s : State) : Result := .next (reachPort s n .atomic)

/-- A response leaves for the requester (R75). -/
def respond (s : State) (r : Request) (d : V512) (st : RespStatus) : State :=
  { s with respNet := s.respNet ++ [{ kind := r.kind, agent := r.agent, ctx := r.ctx, place := r.place, size := r.size
                                      data := d, status := st, va := r.va, job := r.job, posted := r.posted, ahead := r.ahead
                                      fresh := r.fresh }] }

/-- The n-th request is a store to a debug window: it is performed there and answered (R470). -/
def reachWindow (s : State) (n : Nat) : State :=
  match s.reqNet[n]? with
  | none => s
  | some r =>
    match r.place with
    | .debug core off =>
      if leavesNow s n r then
        respond (debugPerform { s with reqNet := s.reqNet.eraseIdx n } core off r.size r.data) r 0 .ok
      else s
    | _ => reachPort s n .write

/-- WRITE (R75). -/
def execWrite (n : Nat) (s : State) : Result := .next (reachWindow s n)

/-- A port's requests of a hart: of this device's, or of a peer's (R146). -/
def Request.ofHart (r f : Request) : Bool := r.agent == f.agent && r.ctx == f.ctx && r.origin == f.origin

/-- FLUSH (R146): a port or tier controller answers it once every request of the hart that went before is performed, one
that a promotion has sent on to HBM among them. DEDUCED, assumption 20. -/
def execFlush (n : Nat) (s : State) : Result :=
  match s.reqNet[n]? with
  | none => .next s
  | some f =>
    let port := f.place.router s
    let here (r : Request) : Bool := r.ofHart f && r.kind != .flush && r.place.router s == port
    let sentOn (r : Request) : Bool := r.ofHart f && r.home == some port
    let waits := leavesNow s n f &&
      !(queued s.bankQ ++ queued s.inbound ++ s.heldAt ++ s.reqNet.take n).any here && !s.inFlight.any sentOn
    match f.kind, waits with
    | .flush, true =>
      let s := { s with reqNet := s.reqNet.eraseIdx n }
      match f.agent with
      | .peer src => .next { s with gathers := s.gathers.map (fun g =>
          if g.src == src && g.ctx == f.ctx && g.hart == f.origin then
            { g with ports := g.ports.map (fun l => l.filter (fun p => f.place != .port p)) }
          else g) }
      | _ => .next (respond s f 0 .ok)
    | _, _ => .next s

/-- Write a request's bytes to a scratchpad: all of them, or those under its mask. -/
def spadMasked (s : State) (core ctx off : Nat) (r : Request) : State :=
  if r.mask = 0 then spadWrite s core ctx off (bytesOf r.size r.data.toNat)
  else ((List.range 64).filter (fun i => r.mask.getLsbD i)).foldl
    (fun s i => spadWrite s core ctx (off + i) (lineGet r.data i 1)) s

/-- A request is performed at a bank of a scratchpad and answered (R56, R363). -/
def performSpad (s : State) (core ctx off : Nat) (r : Request) : State :=
  match r.kind with
  | .read => respond s r (v512 (spadRead s core ctx off r.size)) .ok
  | .atomic =>
    let old := leNat (spadRead s core ctx off r.size)
    let s := match rmwNew r.op r.ty old r.data.toNat with
      | some v => spadWrite s core ctx off (bytesOf r.size v)
      | none => s
    respond s r (BitVec.ofNat 512 old) .ok
  | _ => respond (spadMasked s core ctx off r) r 0 .ok

/-- SCRATCH (R56, R75): an access reaches the scratchpad it names. During a swap it waits for its region (R474). -/
def execScratch (n : Nat) (s : State) : Result :=
  match s.reqNet[n]? with
  | none => .next s
  | some r =>
    match r.place with
    | .spad core off =>
      let ctx := if r.ctx = sysCtx then s.ctxOf core else r.ctx
      if leavesNow s n r && (s.ctxOf core != ctx || regionReady s core off) then
        .next (performSpad { s with reqNet := s.reqNet.eraseIdx n } core ctx off r)
      else .next s
    | _ => .next s

-- Bank queues (R71 to R74, R84).

/-- The n-th entry of a bank queue may be performed: it passes over no request of its agent, none to its bytes, and
none that has been passed over 16 times (R72); and it waits for no window (R399). -/
def mayPerform (s : State) (q : List Request) (n : Nat) : Bool :=
  match q[n]? with
  | none => false
  | some r =>
    (q.take n).all (fun e => e.agent != r.agent && !e.place.meets e.size r.place r.size && e.passed < 16) &&
      (match r.place with
       | .mem p => !windowWaits s p r
       | _ => false)

/-- A read at its ordering bank: plaintext, ciphertext, or a line decrypted under a key (R86, R98). -/
def performRead (s : State) (p : Nat) (r : Request) : State :=
  if r.enc && r.key != 0 then
    if keyedBad s r.key p then respond (s.logBad p) r 0 .integrity
    else respond ((s.logSoft p r.size).moved r.ctx p false 1) r (v512 (lineGet (plainLine s r.key p) (p % 64) r.size)) .ok
  else if (if r.enc then p < 2 ^ 40 && lineBad s p r.size else badAt s p r.size) then respond (s.logBad p) r 0 .integrity
  else
    let (s, bs) := memRead s r.ctx p r.size
    respond s r (v512 bs) .ok

/-- A write at its ordering bank (R86, R98, R102, R103). -/
def performWrite (s : State) (p : Nat) (r : Request) : State :=
  if r.enc then
    if r.key = 0 then respond s r 0 .absent
    else
      let (t, st) := encWrite s r.key p (bytesOf r.size r.data.toNat)
      respond (if st == .ok then t.moved r.ctx p true 1 else t) r 0 st
  else if r.mask = 0 then
    if writeRefused s p r.size then respond (s.logBad p) r 0 .integrity
    else respond (memWrite s r.ctx p (bytesOf r.size r.data.toNat)) r 0 .ok
  else if badAt s p 64 && r.mask != BitVec.allOnes 64 then respond (s.logBad p) r 0 .integrity
  else respond (writeMasked s r.ctx p r.data r.mask) r 0 .ok

/-- An atomic or reduce-store at its ordering bank (R73, R150). -/
def performAtomic (s : State) (p : Nat) (r : Request) : State :=
  if badAt s p r.size then respond (s.logBad p) r 0 .integrity
  else if r.reduce then
    let (s, st) := reduceAt s r.ctx p r.tag r.op r.ty r.data.toNat
    respond s r 0 st
  else
    let (s, bs) := memRead s r.ctx p r.size
    let s := match rmwNew r.op r.ty (leNat bs) r.data.toNat with
      | some v => memWrite s r.ctx p (bytesOf r.size v)
      | none => s
    respond s r (v512 bs) .ok

/-- A request is performed at its ordering bank and answered; the tracker counts it (R73, R88). -/
def performAt (s : State) (p : Nat) (r : Request) : State :=
  let s := match r.leaf with
    | some e => s.countHot e p r.size
    | none => s
  match r.kind with
  | .read => performRead s p r
  | .write => performWrite s p r
  | .atomic => performAtomic s p r
  | _ => s

/-- TIDLE of the core whose port serves a channel, in the context that it runs (R79). DESIGN CHOICE, assumption 56. -/
def tidleOf (s : State) (channel : Nat) : Nat :=
  let core := portOf s channel
  (s.unit core (s.ctxOf core)).tidle.toNat

/-- Time in the unit of row timers: eight for a nanosecond, five for a memory-clock cycle of 1.6 GHz. -/
def rowNow (s : State) : Nat := 8 * s.time

def rowOf (s : State) (p : Nat) : Nat := channelOffset s p / 2 ^ 16

/-- A column command leaves its row open; the last one queued loads the idle timer, and no command's row closes earlier
than 2 mcy later (R77). DEDUCED, assumption 48. -/
def openRow (s : State) (p : Nat) (last : Bool) : State :=
  if p < 2 ^ 40 then
    let b := bankOf s p
    let old := (Tab.get {} s.rowBufs b).timer
    let t := if last then rowNow s + 5 * Nat.max 2 (tidleOf s (channelOf s p)) else Nat.max old (rowNow s + 10)
    { s with rowBufs := Tab.put s.rowBufs b { row := some (rowOf s p), timer := t } }
  else s

/-- COLUMN_COMMAND (R72, R73, R84). -/
def execColumnCommand (bank n : Nat) (s : State) : Result :=
  let q := Tab.get [] s.bankQ bank
  match q[n]? with
  | none => .next s
  | some r =>
    match r.place with
    | .mem p =>
      if mayPerform s q n then
        let rest := ((q.take n).map (fun e => { e with passed := e.passed + 1 })) ++ q.drop (n + 1)
        let t := openRow (performAt { s with bankQ := Tab.put s.bankQ bank rest } p r) p rest.isEmpty
        .next (pullBank t (portOf t (channelOf t p)) bank)
      else .next s
    | _ => .next s

def closeRow (s : State) (bank : Nat) : State :=
  let b := Tab.get {} s.rowBufs bank
  { s with rowBufs := Tab.put s.rowBufs bank { b with row := none } }

/-- A queued request hits the open row of its bank (R77). -/
def rowHitQueued (s : State) (bank : Nat) : Bool :=
  (Tab.get [] s.bankQ bank).any (fun r => match r.place with
    | .mem p => (Tab.get {} s.rowBufs bank).row == some (rowOf s p)
    | _ => false)

/-- TIDLE_EXPIRY (R77, R78). DEDUCED, assumption 48. -/
def execTidleExpiry (bank : Nat) (s : State) : Result :=
  let b := Tab.get {} s.rowBufs bank
  if b.row.isSome && decide (b.timer ≤ rowNow s) && !rowHitQueued s bank then .next (closeRow s bank) else .next s

/-- REFRESH (R78): the open row closes and no timer is loaded. DEDUCED, assumption 48. -/
def execRefresh (bank : Nat) (s : State) : Result := .next (closeRow s bank)

-- Responses (R75, R367, R495).

/-- A stream is refused until the next barrier (R495). -/
def refuseStream (s : State) (dev ctx : Nat) : State :=
  if s.refused.contains (dev * 128 + ctx) then s else { s with refused := s.refused ++ [dev * 128 + ctx] }

/-- The operation that a table unit has under way fails, if it has not (R446). -/
def State.failTable (s : State) (u : Nat) (f : TrapInfo) : State :=
  match s.tableOps.find? (fun r => r.unit == some u) with
  | none => s
  | some r =>
    { s with tableOps := s.tableOps.map (fun q => if q == r then { q with fault := q.fault.or (some f) } else q) }

/-- A refusal that comes back on an acknowledgement waits for the hart's next covering release or fence (R367), or is
the status of the job (R324) or of the table operation (R446) that wrote. -/
def noteRefusal (s : State) (q : Response) : State :=
  match peerFault q.status q.va with
  | none => s
  | some f =>
    match q.agent, q.agent.coreId, q.job with
    | .hart id, _, _ =>
      let h := s.bank id q.ctx
      s.setBank id q.ctx { h with refusals := h.refusals ++ [f] }
    | .table u, _, _ => s.failTable u f
    | _, some core, some job =>
      s.setUnit core q.ctx ((s.unit core q.ctx).modJob job (fun j => { j with refused := j.refused.or (some f) }))
    | _, _, _ => s

/-- A hart that an answer reaches may have become ready (R167). -/
def Agent.wake (ag : Agent) (s : State) (ctx : Nat) : State :=
  match ag with
  | .hart id =>
    let h := s.bank id ctx
    if h.waiting then s.setBank id ctx { h with waiting := false } else s
  | _ => s

/-- A response of this device reaches its requester: a peer's fabric path, or an agent here, which uses the answer or,
where no instruction waits for it, learns a refusal only; the data of a load whose instruction has gone on enter the bank
for which it was issued (R170). -/
def arrive (s : State) (q : Response) : State :=
  match q.agent with
  | .peer _ => if q.kind == .read || q.kind == .atomic then s.fabricMoved q.ctx true 1 else s
  | ag =>
    let s := ag.wake s q.ctx
    match ag, q.job, q.kind with
    | .hart id, some job, .read => s.setBank id q.ctx ((s.bank id q.ctx).loaded job q.data.toNat)
    | _, _, _ =>
      if !q.posted then { s with inbox := s.inbox ++ [q] }
      else if q.kind == .read then s
      else noteRefusal s q

/-- Free data of a line (assumption 2). -/
def drawLine (s : State) : State × V512 :=
  (List.range 8).foldl (fun (a : State × V512) i =>
    let (s, v) := a.1.draw
    (s, a.2 ||| (v.setWidth 512 <<< (64 * i)))) (s, 0)

/-- A peer answers a request of this device, with data and a status of its own; the port counts its granules (R510).
DESIGN CHOICE, assumption 22. -/
def peerAnswers (s : State) (r : Request) (l : List RespStatus) : State :=
  let (s, st) := chooseStatus s l
  let (s, d) := drawLine s
  let s := { s with outbox := s.outbox.erase r }
  let s := match st, r.place with
    | .fabric, .peer dev _ => refuseStream s dev r.ctx
    | _, _ => s
  let s := if r.kind == .read then s else s.fabricMoved r.ctx true 1
  let s := if r.kind == .write then s else s.fabricMoved r.ctx false 1
  arrive s { kind := r.kind, agent := r.agent, ctx := r.ctx, place := r.place, size := r.size, data := d, status := st
             va := r.va, job := r.job, posted := r.posted, ahead := r.ahead, fresh := r.fresh }

/-- The statuses a peer may answer with (R42, R75, R86, R103, R150, R495). What refuses a hart's posted store
precisely has been decided when it left. -/
def answersOf (r : Request) : List RespStatus :=
  if r.posted && r.kind == .write then [.ok, .fabric]
  else if r.tag.isSome then [.ok, .duplicate, .absent, .integrity, .fabric]
  else if r.kind == .write && r.key != 0 then [.ok, .absent, .integrity, .fabric, .exhaust]
  else [.ok, .absent, .integrity, .fabric]

/-- The n-th response may arrive before the responses ahead of it: none of them is on its route (R75). -/
def answerLeaves (s : State) (n : Nat) (q : Response) : Bool :=
  !(s.respNet.take n).any (fun e => e.agent.router == q.agent.router && e.place.router s == q.place.router s)

/-- The n-th response on its way, or past those the n-th request to a peer, is answered. -/
def answerNth (s : State) (n : Nat) (ks : List ReqKind) : State :=
  match s.respNet[n]? with
  | some q =>
    if ks.contains q.kind && answerLeaves s n q then arrive { s with respNet := s.respNet.eraseIdx n } q else s
  | none =>
    match s.outbox[n - s.respNet.length]? with
    | some r => if ks.contains r.kind then peerAnswers s r (answersOf r) else s
    | none => s

/-- READ DATA (R75). -/
def execReadData (n : Nat) (s : State) : Result := .next (answerNth s n [.read])
/-- WRITE ACK (R75), and the acknowledgement of a SCRATCH write. -/
def execWriteAck (n : Nat) (s : State) : Result := .next (answerNth s n [.write, .scratch])
/-- ATOMIC DATA (R75). -/
def execAtomicData (n : Nat) (s : State) : Result := .next (answerNth s n [.atomic])

/-- How FLUSH ACK names an agent: a hart by its id, an engine of a core past them, then a peer. -/
def Agent.flushId : Agent → Nat
  | .hart id => id
  | .matrix c => 8192 + c * 16
  | .copy c ch => 8192 + c * 16 + 1 + ch
  | .exponent c => 8192 + c * 16 + 5
  | .harrow c => 8192 + c * 16 + 6
  | .ring c => 8192 + c * 16 + 7
  | .drill c => 8192 + c * 16 + 8
  | .peer dev => 2 ^ 20 + dev
  | _ => 0

/-- FLUSH ACK (R146, R147). From this device (`dev` names it) the answer of a local FLUSH reaches the releasing hart,
named by hart × 128 + context. Between devices one of this device leaves for its peer, whose release `rel` names in
the same way, once every port has answered; or a peer's reaches the releasing hart, and a missing or replayed one
fails the release. -/
def execFlushAck (dev rel : Nat) (s : State) : Result :=
  if dev = s.devidx then
    let mine (i : Nat) : Bool := match s.respNet[i]? with
      | some q => q.kind == .flush && q.agent.flushId == rel / 128 && q.ctx == rel % 128 && answerLeaves s i q
      | none => false
    match (List.range s.respNet.length).find? mine with
    | none => .next s
    | some i => .next (match s.respNet[i]? with
      | some q => arrive { s with respNet := s.respNet.eraseIdx i } q
      | none => s)
  else if s.gathers.any (fun g => g.src == dev && g.hart == rel / 128 && g.ctx == rel % 128 && g.ports == some []) then
    .next { s with gathers := s.gathers.filter (fun g =>
      !(g.src == dev && g.hart == rel / 128 && g.ctx == rel % 128 && g.ports == some [])) }
  else
    match s.outbox.find? (fun r => r.kind == .flush && r.agent.flushId == rel / 128 && r.ctx == rel % 128 &&
        r.place == .peer dev 0) with
    | none => .next s
    | some r =>
      let (s, st) := chooseStatus s [.ok, .fabric]
      let s := { s with outbox := s.outbox.erase r }
      let s := if r.posted then s else { s with
        inbox := s.inbox ++ [{ kind := r.kind, agent := r.agent, ctx := r.ctx, place := r.place, size := 0, data := 0
                               status := st, job := r.job }] }
      .next (if st == .fabric then (refuseStream s dev r.ctx).log (.fabric dev) else s)

-- What arrives from the fabric (R146, R494, R495).

/-- Received numbers advance the lowest missing one (R494). -/
def FabricStream.advance (t : FabricStream) : Nat → FabricStream
  | 0 => t
  | n + 1 =>
    if t.got.contains t.low then FabricStream.advance { t with low := t.low + 1, got := t.got.erase t.low } n else t

/-- A number is taken that came on a path. -/
def FabricStream.take (t : FabricStream) (path seq : Nat) : FabricStream :=
  FabricStream.advance { t with got := t.got ++ [seq], paths := Tab.put t.paths path (seq + 1) } (t.got.length + 1)

/-- A packet that has not come yet cannot come on a path on which a later one has (R143). -/
def FabricStream.passedOn (t : FabricStream) (path seq : Nat) : Bool := seq < Tab.get 0 t.paths path

/-- The sequence check of R494. -/
def seqGood (t : FabricStream) (seq : Nat) : Bool := t.low ≤ seq && seq < t.low + 4096 && !t.got.contains seq

/-- One granule of a peer's request: it goes to its bank, or is answered ABSENT. -/
def admitPacket (s : State) (p : FabricPacket) (dpa size data : Nat) : State :=
  let r (a : Nat) : Request :=
    { kind := p.kind, agent := .peer p.src, ctx := p.ctx, place := .mem a, size := size, data := BitVec.ofNat 512 data
      op := if p.opc = 7 then .cas (BitVec.ofNat 64 p.expected) else amoOp p.opc, ty := p.ty
      tag := p.tag.map (BitVec.ofNat 64), reduce := p.reduce, rerun := p.rerun, enc := p.enc, key := p.key
      origin := p.hart }
  if dpa / 2 ^ 46 != s.devidx || absentLocal s (dpa % 2 ^ 46) size then respond s (r 0) 0 .absent
  else
    match physOf s (dpa % 2 ^ 46) with
    | none => respond s (r 0) 0 .absent
    | some a => { s with reqNet := s.reqNet ++ [r a] }

/-- A read or write of several granules: each granule is a request of its own (R74); `fuel` is a packet's 64. -/
def admitAll (s : State) (p : FabricPacket) (dpa size data : Nat) : Nat → State
  | 0 => s
  | fuel + 1 =>
    if size = 0 then s
    else
      let k := Nat.min size (64 - dpa % 64)
      let s := if p.kind == .write then s.fabricMoved p.ctx false 1 else s
      admitAll (admitPacket s p dpa k (data % 2 ^ (8 * k))) p (dpa + k) (size - k) (data / 2 ^ (8 * k)) fuel

/-- What a packet that fails its check comes to (R495): it is logged, an error goes back on the response class, and its
stream is refused in both directions. -/
def packetFails (s : State) (src ctx : Nat) (k : ReqKind) : State :=
  respond ((refuseStream s src ctx).log (.fabric src))
    { kind := k, agent := .peer src, ctx := ctx, place := .mem 0, size := 0 } 0 .fabric

/-- FABRIC_PACKET_RECEIVE (R494, R495): a packet that fails its tag or its number is discarded. A marker's packet is
checked here; MARKER gathers it. DESIGN CHOICE, assumption 21. -/
def execFabricPacketReceive (p : FabricPacket) (s : State) : Result :=
  let key := p.src * 128 + p.ctx
  let t := Tab.get {} s.streams key
  if !s.domain.contains p.src || s.refused.contains key then .next s
  else if !(p.tagOk && p.epoch == s.epoch && seqGood t p.seq) then .next (packetFails s p.src p.ctx p.kind)
  else if t.passedOn p.path p.seq then .next s
  else
    let s := { s with streams := Tab.put s.streams key (t.take p.path p.seq) }
    match p.kind with
    | .read => .next (admitAll s p p.dpa (Nat.min p.size 4096) p.data 65)
    | .write => .next (admitAll s p p.dpa (Nat.min p.size 4096) p.data 65)
    | .atomic => .next (admitPacket (s.fabricMoved p.ctx false 1) p p.dpa (p.ty.width / 8) p.data)
    | _ => .next s

/-- The ports and tier controllers that hold requests of a peer's hart (R146): at the others its FLUSH is answered at
once. -/
def portsOf (s : State) (src ctx hart : Nat) : List Nat :=
  ((s.inFlight.filter (fun r => r.agent == .peer src && r.ctx == ctx && r.origin == hart)).map
    (fun r => r.place.router s)).eraseDups

/-- MARKER (R146, R494): the markers of a peer hart's release gather; with the last of them FLUSH goes to the ports that
the hart wrote, or, where a number the markers declare sent is missing, the stream fails. -/
def execMarker (src ctx hart rel total sent : Nat) (s : State) : Result :=
  if !s.domain.contains src || s.refused.contains (src * 128 + ctx) then .next s
  else
    let is (g : Gather) : Bool := g.src == src && g.ctx == ctx && g.hart == hart && g.rel == rel
    let n := ((s.gathers.find? is).map (·.arrived)).getD 0 + 1
    let others := s.gathers.filter (fun g => !is g)
    let g : Gather := { src := src, ctx := ctx, hart := hart, rel := rel, arrived := n }
    if n < total then .next { s with gathers := others ++ [g] }
    else if (Tab.get {} s.streams (src * 128 + ctx)).low < sent then
      .next (packetFails { s with gathers := others } src ctx .flush)
    else
      let ports := portsOf s src ctx hart
      .next { s with
        gathers := others ++ [{ g with ports := some ports }]
        reqNet := s.reqNet ++ ports.map (fun p =>
          { kind := .flush, agent := .peer src, ctx := ctx, place := .port p, size := 0, origin := hart }) }

end Sys2Proof.Machine
end

