-- ==== Sys2Proof/Machine/Collective.lean ====
section
/-! DEFINITION. Collectives: parameter blocks, coll and cstat, the steps of the drill processors, the arithmetic of
reductions, and completion (R478 to R491). -/

namespace Sys2Proof.Machine

-- The parameter block (R478): sixteen doublewords.

def cb (b : List W64) (i hi lo : Nat) : Nat := slice (b.getD i 0).toNat hi lo
def cbOp (b : List W64) : Nat := cb b 0 3 0
def cbRop (b : List W64) : Nat := cb b 0 7 4
def cbType (b : List W64) : Ty := Ty.ofCode (cb b 0 11 8)
def cbRepro (b : List W64) : Bool := cb b 0 12 12 == 1
def cbPrio (b : List W64) : Nat := cb b 0 17 16
def cbAlg (b : List W64) : Nat := cb b 0 22 20
def cbIrq (b : List W64) : Bool := cb b 0 23 23 == 1
def cbComm (b : List W64) : Nat := cb b 1 15 0
def cbRanks (b : List W64) : Nat := cb b 1 25 16 + 1
def cbRank (b : List W64) : Nat := cb b 1 41 32
def cbRoot (b : List W64) : Nat := cb b 1 57 48
def cbGroup (b : List W64) : W64 := b.getD 2 0
def cbSend (b : List W64) : W64 := b.getD 3 0
def cbRecv (b : List W64) : W64 := b.getD 4 0
def cbCount (b : List W64) : Nat := cb b 5 47 0
def cbChunk (b : List W64) : Nat := cb b 6 31 0
def cbCword (b : List W64) : W64 := b.getD 7 0
def cbValue (b : List W64) : Nat := cb b 8 31 0
def cbKey (b : List W64) : Nat := cb b 9 15 0

/-- Bytes of an element. -/
def cbBytes (b : List W64) : Nat := (cbType b).width / 8

/-- A type a collective accepts (R479). -/
def collType (t : Ty) (repro : Bool) : Bool :=
  match t with
  | .i32 | .n32 | .fp32 | .bf16 | .fp16 => true
  | .i64 | .n64 => !repro
  | _ => false

/-- The lowest doubleword of a block that gives RECORD (R481). SEND and RECV are aligned to the element. -/
def blockBad (b : List W64) : Option Nat :=
  let op := cbOp b
  let z := Nat.max 1 (cbBytes b)
  let rooted := op = 3 || op = 4
  (([(0, cb b 0 63 24 != 0 || cb b 0 19 18 != 0 || cb b 0 15 13 != 0 || decide (cbAlg b > 4) || decide (op > 6) ||
        decide (cbRop b > 2) || (cbRop b != 0 && !(op = 0 || op = 1 || op = 4)) || !collType (cbType b) (cbRepro b)),
     (1, cb b 1 63 58 != 0 || cb b 1 47 42 != 0 || cb b 1 31 26 != 0 || decide (cbRank b ≥ cbRanks b) ||
        decide (cbRoot b ≥ cbRanks b) || (cbRoot b != 0 && !rooted)),
     (2, (cbGroup b).toNat % 8 != 0), (3, (cbSend b).toNat % z != 0), (4, (cbRecv b).toNat % z != 0),
     (5, cb b 5 63 48 != 0 || decide (op = 6) != decide (cbCount b = 0)),
     (6, cb b 6 63 32 != 0 || cbChunk b = 0 || cbChunk b % 4096 != 0 || decide (cbChunk b > 2 ^ 24)),
     (7, (cbCword b).toNat % 8 != 0), (8, cb b 8 63 32 != 0), (9, cb b 9 63 16 != 0), (10, b.getD 10 0 != 0),
     (11, b.getD 11 0 != 0), (12, b.getD 12 0 != 0), (13, b.getD 13 0 != 0), (14, b.getD 14 0 != 0),
     (15, b.getD 15 0 != 0)] : List (Nat × Bool)).find? (·.2)).map (·.1)

/-- The group table as it was read: device indexes, and whether an entry has a reserved bit. -/
def groupBad (s : State) (b g : List W64) : Bool :=
  let ds := g.map (fun e => e.toNat)
  ds.any (fun d => d ≥ 1024) || ds.eraseDups.length != ds.length || ds.getD (cbRank b) 1024 != s.devidx

/-- Check of R481: a status and its detail. DEDUCED, assumption 43. -/
def collCheck (s : State) (ctx : Nat) (b g : List W64) : Nat × Nat :=
  match blockBad b with
  | some d => (1, d)
  | none =>
    if groupBad s b g then (1, 2)
    else if g.any (fun e => !inDomain s e.toNat) then (2, 2)
    else if !keyOk s ctx (cbKey b) then (3, 9)
    else (0, 0)

-- Communicators (R482, R484, R490).

def commKey (ctx comm : Nat) : Nat := ctx * 65536 + comm
def Coll.key (c : Coll) : Nat := commKey c.ctx (cbComm c.block)
def State.comm (s : State) (key : Nat) : Comm := Tab.get {} s.comms key
def State.setComm (s : State) (key : Nat) (c : Comm) : State := { s with comms := Tab.put s.comms key c }

/-- The virtual channels no communicator holds, of 16. -/
def freeChannels (s : State) : List Nat := (List.range 16).filter (fun v => !s.comms.any (fun c => c.2.vc == some v))

/-- The first communicator in the queue without a channel takes a free one, which one being a free choice (R490). -/
def giveChannel (s : State) : State :=
  match s.colls.find? (fun c => (s.comm c.key).vc.isNone), freeChannels s with
  | some c, v :: vs =>
    let (t, x) := s.draw
    t.setComm c.key { s.comm c.key with vc := some ((v :: vs).getD (x.toNat % (vs.length + 1)) v) }
  | _, _ => s

/-- The algorithm a block resolves to (R479). -/
def collAlg (b : List W64) : Nat :=
  let n := cbRanks b
  let recv := cbCount b * cbBytes b * (if cbOp b = 2 || cbOp b = 5 then n else 1)
  match cbAlg b with
  | 0 => if n ≤ 8 || recv ≤ 2 ^ 16 then 4 else if recv ≤ 2 ^ 22 then 2 else 1
  | 3 => if n = 2 ^ Nat.log2 n then 3 else 1
  | a => a

/-- Admit a collective (R481). -/
def admitColl (s : State) (b g : List W64) : State :=
  let key := commKey s.myCtx (cbComm b)
  let k := s.comm key
  let c : Coll := { ctx := s.myCtx, core := s.myCore, hart := s.cur, block := b, group := g.map (fun e => e.toNat)
                    ordinal := k.nextOrdinal, alg := collAlg b, seg := (cbComm b + 1) * 2 ^ 40 + k.nextOrdinal }
  let s := s.setComm key { k with nextOrdinal := k.nextOrdinal + 1 }
  giveChannel { s with colls := s.colls ++ [c] }

def dwordList (bs : List Byte) : Nat → List W64
  | 0 => []
  | n + 1 => BitVec.ofNat 64 (leNat (bs.take 8)) :: dwordList (bs.drop 8) n

/-- coll (R481). A misaligned GROUP gives RECORD without a read. -/
def execColl (f : Fmt) (s : State) : Result :=
  scalarRun f s do
    let va := xval s f.a
    need (va.toNat % 64 = 0) s (alignFault va)
    keepAnswers s do
      let (s, bs) ← loadWords s va 64 2
      let b := dwordList bs 16
      let (s, gs) ← if (cbGroup b).toNat % 8 = 0 then loadWords s (cbGroup b) 8 (cbRanks b) else .ok (s, [])
      let g := dwordList gs (cbRanks b)
      match collCheck s s.myCtx b g with
      | (0, _) => do
        dstReady s f.d
        let s ← release s 5
        waitFor (s.colls.length < 64 && s.barrier.isNone) s
        put64 f (admitColl s b g) 0
      | (st, d) => put64 f s (BitVec.ofNat 64 (d * 2 ^ 8 + st))

/-- The word of cstat (R482). -/
def commWord (s : State) (key : Nat) : W64 :=
  let k := s.comm key
  let n := (s.colls.filter (fun c => c.key == key)).length
  BitVec.ofNat 64 (n * 2 ^ 40 + k.vc.getD 0 * 2 ^ 36 + k.vc.isSome.toNat * 2 ^ 35 + k.sat.toNat * 2 ^ 32 + k.lstatus)

def cstatKey (s : State) (a : W64) : Nat := commKey s.myCtx (a.toNat % 2 ^ 16)

/-- cstat (R482). -/
def execCstat (f : Fmt) (s : State) : Result :=
  scalarRun f s do
    let a ← src64 s f.a 0
    put64 f s (commWord s (cstatKey s a))

/-- cstat.clr (R482): SAT is cleared, the word as it stood is written. A producer destination waits first. -/
def execCstatClr (f : Fmt) (s : State) : Result :=
  scalarRun f s do
    let a ← src64 s f.a 0
    let key := cstatKey s a
    let w := commWord s key
    dstReady s f.d
    put64 f (s.setComm key { s.comm key with sat := false }) w

-- Arithmetic (R485 to R487).

/-- One hop of a fast sum: the element and whether it saturated (R486). -/
def hopSum (t : Ty) (a b : Nat) : Nat × Bool :=
  if t.isFloat then
    let φ := floatForm t
    match addVal .rne (elemVal t a) (elemVal t b) with
    | .fin neg m e => (roundFloat φ .rne true (.fin neg m e), magCode φ .rne neg m e > φ.maxCode)
    | v => (roundFloat φ .rne false v, false)
  else
    let x := valueOf t a + valueOf t b
    (narrow t true x, x < tyMin t || tyMax t < x)

/-- One hop of a reduction. -/
def hop (t : Ty) (rop a b : Nat) : Nat × Bool :=
  if rop = 0 then hopSum t a b
  else
    let mx := rop = 2
    (if t.isFloat then minmaxElem t mx a b
     else if (decide (valueOf t a ≤ valueOf t b)) != mx then a else b, false)

def hopAll (t : Ty) (rop : Nat) : List Nat → List Nat → List Nat × Bool
  | a :: as, b :: bs =>
    let r := hop t rop a b
    let rest := hopAll t rop as bs
    (r.1 :: rest.1, r.2 || rest.2)
  | as, _ => (as, false)

/-- The exponent of R268 of a finite nonzero float (R485). -/
def expOf (φ : FloatForm) (v : Val) : Option Int :=
  match v with
  | .fin _ m e => if m = 0 then none else some (e + φ.man)
  | _ => none

def maxOpt (a b : Option Int) : Option Int :=
  match a, b with
  | some x, some y => some (max x y)
  | some x, none => some x
  | none, y => y

/-- E of a block of 64 elements over one rank's elements (R485). -/
def blockMax (t : Ty) (own : List Nat) (blk : Nat) : Option Int :=
  ((own.drop (64 * blk)).take 64).foldl (fun e x => maxOpt e (expOf (floatForm t) (elemVal t x))) none

/-- The exact integer a rank sends for an element: specials as zero (R485). -/
def exactPart (t : Ty) (e : Int) (x : Nat) : Int :=
  match elemVal t x with
  | .fin neg m k => roundInt .rne neg m (k + 50 - e)
  | _ => 0

/-- What the first pass carries for an element: E of its block, 0 for none, and its flags NaN, +∞ and −∞ (R485). -/
def firstElem (t : Ty) (own : List Nat) (i : Nat) : Nat :=
  let e := match blockMax t own (i / 64) with
    | some e => (e + 2048).toNat
    | none => 0
  let v := elemVal t (own.getD i 0)
  e * 8 + v.isNan.toNat + 2 * (v == .inf false).toNat + 4 * (v == .inf true).toNat

def firstHop (a b : Nat) : Nat := max (a / 8) (b / 8) * 8 + (a % 8 ||| b % 8)

/-- One rounding of a reproducible float sum, from what the first pass gave and the exact sum; whether it saturated
(R485). -/
def reproElem (t : Ty) (first : Nat) (sum : Int) : Nat × Bool :=
  let φ := floatForm t
  let pos := bitOf first 1
  let neg := bitOf first 2
  if bitOf first 0 || (pos && neg) then (nanCode φ, false)
  else if pos || neg then (roundFloat φ .rne false (.inf neg), false)
  else if sum = 0 then (0, false)
  else
    let e : Int := (first / 8 : Nat) - 2048 - 50
    (roundFloat φ .rne true (.fin (decide (sum < 0)) sum.natAbs e), magCode φ .rne (decide (sum < 0)) sum.natAbs e > φ.maxCode)

def signed64 (x : Nat) : Int := (BitVec.ofNat 64 x).toInt
def wrap64 (x : Int) : Nat := (BitVec.ofInt 64 x).toNat

-- The steps of an algorithm (R479, R483): a unit is what a packet carries at each hop. DESIGN CHOICE, assumption 71.

def Coll.ranks (c : Coll) : Nat := cbRanks c.block
def Coll.rank (c : Coll) : Nat := cbRank c.block
def Coll.reduces (c : Coll) : Bool := cbOp c.block = 0 || cbOp c.block = 1 || cbOp c.block = 4
/-- A reproducible sum goes as exact integers of 64 bits, of floats after a first pass (R485). -/
def Coll.exact (c : Coll) : Bool := c.reduces && cbRepro c.block && cbRop c.block = 0
def Coll.twoPass (c : Coll) : Bool := c.exact && (cbType c.block).isFloat

/-- Elements of SEND, by operation (R478). -/
def Coll.sendCount (c : Coll) : Nat :=
  let n := cbCount c.block
  match cbOp c.block with
  | 1 | 5 => n * c.ranks
  | 3 => if c.rank = cbRoot c.block then n else 0
  | 6 => 0
  | _ => n

/-- Bytes of an element on the fabric, and the elements of a packet of 4 KiB. -/
def Coll.wire (c : Coll) : Nat := if c.exact then 8 else Nat.max 1 (cbBytes c.block)
def Coll.perUnit (c : Coll) : Nat := 4096 / c.wire
/-- Units of a block of COUNT elements. -/
def Coll.pieces (c : Coll) : Nat := Nat.max 1 ((cbCount c.block + c.perUnit - 1) / c.perUnit)
/-- Blocks: by the rank that gets or gives one, of ALLTOALL by the pair of ranks. -/
def Coll.blocks (c : Coll) : Nat :=
  match cbOp c.block with
  | 1 | 2 => c.ranks
  | 5 => c.ranks * c.ranks
  | _ => 1
def Coll.total (c : Coll) : Nat := c.blocks * c.pieces

/-- A unit: its block, the elements of it, the rank at which its tree has its root, and of ALLTOALL the rank to which
it goes. -/
structure CollUnit where
  block : Nat
  lo : Nat
  n : Nat
  root : Nat
  dst : Option Nat
  /-- The second of the two trees. -/
  mirror : Bool
  deriving DecidableEq, Repr

/-- The chunk of CHUNK bytes in which a unit lies (R478). -/
def Coll.chunkAt (c : Coll) (lo : Nat) : Nat := lo * cbBytes c.block / Nat.max 1 (cbChunk c.block)

/-- A unit of a collective, by number: chunk k of an ALLREDUCE has its root at rank k modulo N.
DESIGN CHOICE, assumption 71. -/
def Coll.unitAt (c : Coll) (i : Nat) : CollUnit :=
  let block := i / c.pieces
  let lo := i % c.pieces * c.perUnit
  let chunk := c.chunkAt lo
  { block := block, lo := lo, n := Nat.min c.perUnit (cbCount c.block - lo)
    root := match cbOp c.block with
      | 0 => chunk % c.ranks
      | 1 | 2 => block
      | 5 => block / c.ranks
      | 6 => 0
      | _ => cbRoot c.block
    dst := if cbOp c.block = 5 then some (block % c.ranks) else none
    mirror := c.alg = 2 && chunk % 2 = 1 }

/-- The chunk of a unit: a chunk is of one block. -/
def Coll.chunkOf (c : Coll) (i : Nat) : Nat × Nat := ((c.unitAt i).block, c.chunkAt (c.unitAt i).lo)

/-- A rank's place in the tree of a unit, whose root has place 0, and the rank at a place. -/
def Coll.place (c : Coll) (u : CollUnit) (r : Nat) : Nat :=
  if c.alg = 3 then r ^^^ u.root
  else
    let x := (r + c.ranks - u.root) % c.ranks
    if u.mirror then (c.ranks - x) % c.ranks else x
def Coll.rankAt (c : Coll) (u : CollUnit) (x : Nat) : Nat :=
  if c.alg = 3 then x ^^^ u.root else (u.root + (if u.mirror then c.ranks - x else x)) % c.ranks

/-- The places below a place of a tree over n: a ring's next one; two of a binary tree; of halving and doubling one at
each power of two above; of direct all at the root. DESIGN CHOICE, assumption 71. -/
def treeBelow (alg n x : Nat) : List Nat :=
  (match alg with
   | 1 => [x + 1]
   | 2 => [2 * x + 1, 2 * x + 2]
   | 3 => ((List.range (Nat.log2 n)).map (fun j => 2 ^ j)).filterMap (fun p => if x < p then some (x + p) else none)
   | _ => if x = 0 then (List.range n).drop 1 else []).filter (fun y => y < n)

def treeAbove (alg x : Nat) : Nat :=
  match alg with
  | 1 => x - 1
  | 2 => (x - 1) / 2
  | 3 => x - 2 ^ Nat.log2 x
  | _ => 0

/-- The ranks below this one in a unit's tree, and the one above. -/
def Coll.below (c : Coll) (u : CollUnit) : List Nat :=
  match u.dst with
  | some d => if u.root = c.rank && d != c.rank then [d] else []
  | none => (treeBelow c.alg c.ranks (c.place u c.rank)).map (c.rankAt u)
def Coll.above (c : Coll) (u : CollUnit) : List Nat :=
  if u.root = c.rank then [] else [match u.dst with
    | some _ => u.root
    | none => c.rankAt u (treeAbove c.alg (c.place u c.rank))]

/-- This rank has a step of a unit, and an element of it in RECV. -/
def Coll.takesPart (c : Coll) (u : CollUnit) : Bool := u.dst.isNone || u.root = c.rank || u.dst == some c.rank
def Coll.outputs (c : Coll) (u : CollUnit) : Bool :=
  match cbOp c.block with
  | 1 | 4 => u.root = c.rank
  | 5 => u.dst == some c.rank
  | 6 => false
  | _ => true

/-- A unit's stages: whether it is the first pass of a reproducible sum, and whether it goes down from the root, or
gathers to it. -/
def Coll.stages (c : Coll) : List (Bool × Bool) :=
  (if c.twoPass then [(true, false), (true, true)] else []) ++
    (match cbOp c.block with
     | 0 | 6 => [(false, false), (false, true)]
     | 1 | 4 => [(false, false)]
     | _ => [(false, true)])

/-- The ranks from which a stage receives, in order, and to which it then sends. In the order of recursive halving the
farthest rank comes first. DESIGN CHOICE, assumption 71. -/
def Coll.sources (c : Coll) (u : CollUnit) (down : Bool) : List Nat :=
  if down then c.above u else if c.alg = 3 then (c.below u).reverse else c.below u
def Coll.targets (c : Coll) (u : CollUnit) (down : Bool) : List Nat := if down then c.below u else c.above u

/-- Where a unit's elements lie in SEND, and in RECV. -/
def Coll.sendAt (c : Coll) (u : CollUnit) : Nat :=
  match cbOp c.block with
  | 1 => cbCount c.block * u.block + u.lo
  | 5 => cbCount c.block * u.dst.getD 0 + u.lo
  | _ => u.lo
def Coll.recvAt (c : Coll) (u : CollUnit) : Nat :=
  match cbOp c.block with
  | 2 => cbCount c.block * u.block + u.lo
  | 5 => cbCount c.block * u.root + u.lo
  | _ => u.lo

/-- This rank's own elements of a unit, as its first or its last pass carries them. -/
def Coll.ownPart (c : Coll) (own : List Nat) (u : CollUnit) (first : Bool) (aux : List Nat) : List Nat :=
  let t := cbType c.block
  (List.range u.n).map (fun j =>
    let i := c.sendAt u + j
    let x := own.getD i 0
    if first then firstElem t own i
    else if c.twoPass then wrap64 (exactPart t ((aux.getD j 0 / 8 : Nat) - 2048) x)
    else if c.exact then wrap64 (valueOf t x)
    else x)

/-- One hop: what is here and what came (R485, R486). -/
def Coll.combine (c : Coll) (first : Bool) (a b : List Nat) : List Nat × Bool :=
  if first then (List.zipWith firstHop a b, false)
  else if c.exact then (List.zipWith (fun x y => (x + y) % 2 ^ 64) a b, false)
  else hopAll (cbType c.block) (cbRop c.block) a b

/-- A unit's elements as RECV gets them, and whether one saturated (R485). -/
def Coll.finals (c : Coll) (w : CollWork) : List Nat × Bool :=
  let t := cbType c.block
  let es := (w.acc.zip (List.range w.acc.length)).map (fun p =>
    if c.twoPass then reproElem t (w.aux.getD p.2 0) (signed64 p.1)
    else if c.exact then
      (narrow t true (signed64 p.1), decide (signed64 p.1 < tyMin t) || decide (tyMax t < signed64 p.1))
    else (p.1, false))
  (es.map (·.1), es.any (·.2))

-- How far a unit has come.

/-- A stage begins. -/
def Coll.beginStage (c : Coll) (own : List Nat) (u : CollUnit) (w : CollWork) : CollWork :=
  match c.stages[w.stage]? with
  | some (first, false) => { w with acc := c.ownPart own u first w.aux }
  | some (_, true) =>
    if w.stage = 0 then { w with acc := if u.root = c.rank then c.ownPart own u false [] else [] } else w
  | none => w

/-- A stage of a unit has ended: all have been received from and sent to. -/
def Coll.stageOver (c : Coll) (u : CollUnit) (w : CollWork) : Bool :=
  match c.stages[w.stage]? with
  | some (_, down) => w.got = (c.sources u down).length && w.gone = (c.targets u down).length
  | none => false

/-- A unit goes on to the first stage that has not ended; there are at most four. -/
def Coll.goOn (c : Coll) (own : List Nat) (u : CollUnit) : Nat → CollWork → CollWork
  | 0, w => w
  | fuel + 1, w =>
    if c.stageOver u w then
      let aux := if c.stages[w.stage]? == some (true, true) then w.acc else w.aux
      c.goOn own u fuel (c.beginStage own u { stage := w.stage + 1, acc := w.acc, aux := aux })
    else w

def Coll.workAt (c : Coll) (own : List Nat) (i : Nat) : CollWork :=
  match c.work.find? (fun e => e.1 == i) with
  | some e => e.2
  | none => c.goOn own (c.unitAt i) 5 (c.beginStage own (c.unitAt i) {})

/-- A step of a unit is done. -/
def Coll.putWork (c : Coll) (own : List Nat) (i : Nat) (w : CollWork) : Coll :=
  { c with work := Tab.put c.work i (c.goOn own (c.unitAt i) 5 w) }

/-- Every step of a unit at this rank has ended. -/
def Coll.unitOver (c : Coll) (own : List Nat) (i : Nat) : Bool :=
  !c.takesPart (c.unitAt i) || decide (c.stages.length ≤ (c.workAt own i).stage)

/-- The rank to which a unit sends next. -/
def Coll.sendsTo (c : Coll) (own : List Nat) (i : Nat) : Option Nat :=
  let u := c.unitAt i
  let w := c.workAt own i
  match c.stages[w.stage]? with
  | some (_, down) =>
    if c.takesPart u && w.got = (c.sources u down).length then (c.targets u down)[w.gone]? else none
  | none => none

/-- The rank from which a unit receives next, in a stage. -/
def Coll.awaits (c : Coll) (own : List Nat) (i stage : Nat) : Option Nat :=
  let w := c.workAt own i
  match c.stages[stage]? with
  | some (_, down) =>
    if i < c.total && c.unit ≤ i && c.takesPart (c.unitAt i) && w.stage = stage then (c.sources (c.unitAt i) down)[w.got]?
    else none
  | none => none

/-- A unit has a step left with a rank. -/
def Coll.stepLeft (c : Coll) (own : List Nat) (i r : Nat) : Bool :=
  let u := c.unitAt i
  let w := c.workAt own i
  c.takesPart u && (List.range c.stages.length).any (fun k =>
    let down := (c.stages.getD k (false, false)).2
    let past (n : Nat) : Nat := if k = w.stage then n else 0
    decide (w.stage ≤ k) && ((c.sources u down).drop (past w.got) ++ (c.targets u down).drop (past w.gone)).contains r)

-- The collective queue.

/-- A collective runs: it is the first of its communicator, which holds a channel (R484, R490). -/
def collRuns (s : State) (n : Nat) : Option Coll :=
  match s.colls[n]? with
  | none => none
  | some c =>
    if (s.colls.take n).any (fun d => d.key == c.key) || (s.comm c.key).vc.isNone || c.done || c.status != 0 then none
    else some c

def State.setColl (s : State) (n : Nat) (c : Coll) : State := { s with colls := s.colls.set n c }

/-- A packet in a buffer is a collective's. -/
def CollBuf.isOf (b : CollBuf) (c : Coll) : Bool := b.key == c.key && b.ordinal == c.ordinal

/-- A drill processor has a packet buffer left for a communicator, of four (R490). -/
def bufferFree (s : State) (port key : Nat) : Bool :=
  (s.collBufs.filter (fun b => b.port == port && b.key == key && b.note == 0)).length < 4

/-- A packet leaves for a peer with the next number of its stream (R494). -/
def State.sendBuf (s : State) (ctx : Nat) (b : CollBuf) : State :=
  ({ s with collBufs := s.collBufs ++ [{ b with out := true, seq := Tab.get 0 s.sent (b.peer * 128 + ctx) }] } : State).sendSeq
    (.peer b.peer 0) ctx

/-- A rank ends a collective, and every other rank learns of it: MISMATCH as such, else PEERFAIL (R484, R488). -/
def endRank (s : State) (n : Nat) (c : Coll) (code : Nat) : State :=
  let s := s.setColl n { c with status := code }
  let s : State := { s with collBufs := s.collBufs.filter (fun b => !(b.isOf c && !b.out)) }
  let tell := c.group.filter (fun d => d != s.devidx && inDomain s d && !s.refused.contains (d * 128 + c.ctx))
  tell.foldl (fun s d => s.sendBuf c.ctx
    { port := 0, key := c.key, ordinal := c.ordinal, out := true, peer := d, note := if code = 12 then 12 else 11 }) s

/-- A failed segment, or a stream refused, ends the collective at this rank, its cause in the event log (R488, R495). -/
def collFail (n : Nat) (s : State) (code cause : Nat) : State :=
  match s.colls[n]? with
  | none => s
  | some c => (endRank s n c code).log (.collective c.ctx (cbComm c.block) code cause)

-- Packets that come (R483, R484, R494, R495).

/-- A step's carried fields differ from the collective's, or it is of an earlier collective, which ended well (R484). -/
def Coll.mismatch (s : State) (c : Coll) (m : CollMsg) : Bool :=
  m.op != cbOp c.block || m.dtype != cb c.block 0 11 8 || m.mode != cb c.block 0 12 12 || m.count != cbCount c.block ||
    (decide (m.ordinal < c.ordinal) && (s.comm c.key).lstatus == 0)

/-- The packet that a step brings: of its unit, as many elements as the unit has. -/
def Coll.bufFor (c : Coll) (m : CollMsg) : CollBuf :=
  { port := m.port, key := c.key, ordinal := c.ordinal, out := false, peer := m.peer, unit := m.unit, stage := m.stage
    data := (List.range (c.unitAt m.unit).n).map (fun i => m.data.getD i 0 % 2 ^ (8 * c.wire)), seq := m.seq }

/-- Flits of a packet (R492). -/
def Coll.flits (c : Coll) (n : Nat) : Nat := (n * c.wire + 63) / 64

/-- A packet of a step that is the next one awaited enters a buffer; one for which there is none has not left its sender
(R490, R491). -/
def admitStep (s u : State) (n : Nat) (c : Coll) (own : List Nat) (m : CollMsg) : State :=
  if c.awaits own m.unit m.stage == some (c.group.idxOf m.peer) && bufferFree s m.port c.key &&
      !s.collBufs.any (fun b => b.isOf c && !b.out && b.unit == m.unit && b.stage == m.stage && b.peer == m.peer) then
    (({ u with collBufs := u.collBufs ++ [c.bufFor m] } : State).setColl n c).fabricMoved c.ctx false (c.flits (c.unitAt m.unit).n)
  else s

/-- What a good packet does: it reports a failure, differs, comes too late, or brings a step. `s` is the state before its
number was taken. -/
def goodStep (s u : State) (n : Nat) (c : Coll) (m : CollMsg) : State :=
  if m.failed != 0 then u.setColl n { c with status := if m.failed = 12 then 12 else 11 }
  else if c.ordinal < m.ordinal then s
  else if c.mismatch s m then endRank u n c 12
  else if m.ordinal < c.ordinal then u
  else
    match c.own with
    | some own => admitStep s u n c own m
    | none => s

/-- A packet arrives from a peer of the group (R483): first its tag and its number are checked. DEDUCED,
assumption 43. -/
def takeStep (n : Nat) (m : CollMsg) (s : State) : Result :=
  match s.colls[n]? with
  | none => .next s
  | some c =>
    let key := m.peer * 128 + c.ctx
    let t := Tab.get {} s.streams key
    if m.peer = s.devidx || !c.group.contains m.peer || !s.domain.contains m.peer || s.refused.contains key || m.port ≥ 36 then
      .next s
    else if !(m.tagOk && m.epoch == s.epoch && seqGood t m.seq) then .next (packetFails s m.peer c.ctx .write)
    else if t.passedOn m.path m.seq then .next s
    else
      let u : State := { s with streams := Tab.put s.streams key (t.take m.path m.seq) }
      if c.done || c.status != 0 then .next u
      else
        match collRuns s n with
        | none => .next s
        | some c => .next (goodStep s u n c m)

/-- A peer answers a packet that this device sent: its buffer is free; an error refuses the stream, and the collective
sees it with its next step (R495). -/
def packetAnswered (k : Nat) (ok : Bool) (s : State) : Result :=
  match s.collBufs[k]? with
  | none => .next s
  | some b =>
    if !b.out then .next s
    else
      let t : State := { s with collBufs := s.collBufs.eraseIdx k }
      .next (if ok then t else refuseStream t b.peer (b.key / 65536))

-- A port's choice at a chunk boundary (R490).

def lanesOfPort (s : State) (port : Nat) : Nat := ((s.boot.lanes.find? (fun l => l.1 == port)).map (·.2)).getD 8

/-- The first unit that sends to a rank next. -/
def Coll.unitFor (c : Coll) (own : List Nat) (r : Nat) : Option Nat :=
  (List.range c.total).find? (fun i => decide (c.unit ≤ i) && c.sendsTo own i == some r)

/-- A collective with a packet of a chunk ready for a peer, and its unit: it runs, SEND is read, and there is a buffer. -/
def chunkReady (s : State) (port : Nat) (p : Nat × Nat) : Option (Coll × Nat) :=
  match collRuns s p.1 with
  | some c =>
    match c.own with
    | some own =>
      if p.2 != s.devidx && c.group.contains p.2 && inDomain s p.2 && bufferFree s port c.key then
        (c.unitFor own (c.group.idxOf p.2)).map (fun i => (c, i))
      else none
    | none => none
  | none => none

/-- The place of a communicator in a port's rotation: by COMMID, contexts of one COMMID in their order.
DESIGN CHOICE, assumption 71. -/
def Coll.turn (c : Coll) : Nat := cbComm c.block * 128 + c.ctx

/-- How far a place lies after the last one served, in rotating order. -/
def PortTurn.after (t : PortTurn) (turn : Nat) : Nat :=
  match t.last with
  | none => turn
  | some l => (turn + 2 ^ 23 - l - 1) % 2 ^ 23

/-- A communicator passed over 64 times is served before every other. -/
def PortTurn.rank (t : PortTurn) (c : Coll) : Nat :=
  if Tab.get 0 t.passed c.turn ≥ 64 then 4 else cbPrio c.block

/-- The port takes this one before that one. -/
def PortTurn.before (t : PortTurn) (c d : Coll) : Bool :=
  decide (t.rank d < t.rank c) || (t.rank c == t.rank d && decide (t.after c.turn < t.after d.turn))

/-- The chunk a port takes of those ready: no other comes before it. -/
def portPick (t : PortTurn) (ready : List ((Nat × Nat) × Coll × Nat)) : Option ((Nat × Nat) × Coll × Nat) :=
  ready.find? (fun c => !ready.any (fun d => t.before d.2.1 c.2.1))

/-- The port's turn after a choice: a communicator ready and not taken was passed over once more, the others' count
begins anew. DEDUCED, assumption 43. -/
def PortTurn.serve (t : PortTurn) (ready : List Coll) (c : Coll) : PortTurn :=
  { t with
    last := some c.turn
    passed := ((ready.map Coll.turn).eraseDups.filter (fun k => k != c.turn)).map (fun k => (k, Tab.get 0 t.passed k + 1)) }

/-- A packet of a unit leaves for a peer (R483, R492); a refused stream fails the collective here (R495). -/
def sendUnit (s : State) (port n peer : Nat) (c : Coll) (i : Nat) : State :=
  let own := c.own.getD []
  let w := c.workAt own i
  if (fabricRefusal s (.peer peer 0) c.ctx).isSome then collFail n s 8 0
  else
    let s := (s.setColl n (c.putWork own i { w with gone := w.gone + 1 })).sendBuf c.ctx
      { port := port, key := c.key, ordinal := c.ordinal, out := true, peer := peer, unit := i, stage := w.stage
        data := w.acc }
    s.fabricMoved c.ctx true (c.flits w.acc.length)

/-- The chunk under way at a port goes on: its next packet is ready. -/
def chunkGoesOn (s : State) (port : Nat) : Option (Nat × Nat × Coll × Nat) :=
  match (Tab.get {} s.portTurns port).now with
  | none => none
  | some k =>
    let n := s.colls.findIdx (fun c => c.key == k.key && c.ordinal == k.ordinal)
    match chunkReady s port (n, k.peer) with
    | some (c, i) => if c.chunkOf i = k.chunk then some (n, k.peer, c, i) else none
    | none => none

/-- A port whose link is up goes on with its chunk; at a chunk boundary it chooses among those ready (R490, R492). -/
def portTurn (port : Nat) (ready : List (Nat × Nat)) (s : State) : Result :=
  let t := Tab.get {} s.portTurns port
  let rs := ready.filterMap (fun p => (chunkReady s port p).map (fun c => (p, c)))
  if port ≥ 36 || lanesOfPort s port = 0 then .next s
  else
    match chunkGoesOn s port, portPick t rs with
    | some (n, peer, c, i), _ => .next (sendUnit s port n peer c i)
    | none, none => .next { s with portTurns := Tab.put s.portTurns port { t with now := none } }
    | none, some ((n, peer), c, i) =>
      let now : PortChunk := { key := c.key, ordinal := c.ordinal, peer := peer, chunk := c.chunkOf i }
      .next (sendUnit { s with
        portTurns := Tab.put s.portTurns port { t.serve (rs.map (·.2.1)) c with now := some now } } port n peer c i)

/-- COLL_STEP (R483, R490), of the collective at a place of the queue or of a port. -/
def execCollStep (n : Nat) (step : CollStep) (s : State) : Result :=
  match step with
  | .takes msg => takeStep n msg s
  | .boundary ready => portTurn n ready s
  | .answered k ok => packetAnswered k ok s

-- The operation at this rank.

/-- Elements of a byte string. -/
def elements (z : Nat) (bs : List Byte) : Nat → List Nat
  | 0 => []
  | n + 1 => leNat (bs.take z) :: elements z (bs.drop z) n

/-- The drill processors read and write as segments of the issuing core (R483). -/
def Coll.who (c : Coll) : Who := { core := c.core, ctx := c.ctx, hart := false, supS := false, job := some c.seg }
def Coll.agent (c : Coll) : Agent := .drill c.core

/-- Read the next word of SEND. -/
def collRead (s : State) (n : Nat) (c : Coll) : Eng State :=
  let len := c.sendCount * cbBytes c.block
  let c := { c with began := true }
  if c.raw.length ≥ len then .ok (s.setColl n { c with own := some (elements (cbBytes c.block) c.raw c.sendCount) })
  else do
    let va := cbSend c.block + BitVec.ofNat 64 c.raw.length
    let (s, r) ← engRead1 (s.setColl n c) c.who c.agent (cbKey c.block) va (wordPart va (len - c.raw.length))
    match r with
    | none => .error (.bad s stIntegrity 0 va)
    | some bs => .ok (s.setColl n { c with raw := c.raw ++ bs })

/-- A packet in a buffer is combined with what is here, and its buffer is free (R486). -/
def collCombine (s : State) (n : Nat) (c : Coll) (own : List Nat) (b : CollBuf) : State :=
  let w := c.workAt own b.unit
  let r := match c.stages[w.stage]? with
    | some (first, false) => c.combine first w.acc b.data
    | _ => (b.data, false)
  ({ s with collBufs := s.collBufs.erase b } : State).setColl n
    { c.putWork own b.unit { w with acc := r.1, got := w.got + 1 } with sat := c.sat || r.2 }

/-- The next word of a unit whose steps have ended is written to RECV; a unit that is written, or has nothing here, is
passed (R488). -/
def collWrite (s : State) (n : Nat) (c : Coll) (own : List Nat) : Eng State :=
  let u := c.unitAt c.unit
  let r := if c.takesPart u && c.outputs u then c.finals (c.workAt own c.unit) else ([], false)
  let bs := (r.1.map (fun x => bytesOf (cbBytes c.block) x)).flatten.drop c.sent
  let passed : Coll := { c with sat := c.sat || r.2, unit := c.unit + 1, sent := 0, work := Tab.drop c.work c.unit }
  if bs.isEmpty then .ok (s.setColl n passed)
  else do
    let va := cbRecv c.block + BitVec.ofNat 64 (c.recvAt u * cbBytes c.block + c.sent)
    let k := wordPart va bs.length
    let s ← engWrite1 s c.who c.agent (cbKey c.block) va (bs.take k)
    .ok (match s.colls[n]? with
      | some d => s.setColl n { d with sent := c.sent + k }
      | none => s)

/-- The next thing that the rank does: a packet is combined, RECV is written, or, all units being written and no packet
unacknowledged, its steps have ended (R488). -/
def collWork (s : State) (n : Nat) (c : Coll) (own : List Nat) : Eng State :=
  match s.collBufs.find? (fun b => b.isOf c && !b.out) with
  | some b => .ok (collCombine s n c own b)
  | none =>
    if c.unit < c.total then (if c.unitOver own c.unit then collWrite s n c own else .ok s)
    else .ok (if s.collBufs.any (fun b => b.isOf c) then s else s.setColl n { c with done := true })

/-- A stream that the collective still needs is refused (R495). -/
def Coll.cut (s : State) (c : Coll) : Bool :=
  c.group.any (fun d => s.refused.contains (d * 128 + c.ctx) &&
    (List.range c.total).any (fun i => decide (c.unit ≤ i) && c.stepLeft (c.own.getD []) i (c.group.idxOf d)))

/-- The rank's own work: SEND is read first, then its units go on. -/
def collRun (n op : Nat) (s : State) : Result :=
  match collRuns s n with
  | none => .next s
  | some c =>
    if cbOp c.block != op then .next s
    else if c.cut s then .next (collFail n s stFabric 0)
    else if !c.began && !keyOk s c.ctx (cbKey c.block) then .next (collFail n s stKey 0)
    else
      engineEvent s c.agent (some c.seg) (match c.own with
        | none => collRead s n c
        | some own => collWork s n c own) (fun t _ => collFail n t stAccess causeAbsent) (fun t code d _ => collFail n t code d)

/-- ALLREDUCE. -/
def execAllreduce (n : Nat) (s : State) : Result := collRun n 0 s
/-- REDUCESCATTER. -/
def execReducescatter (n : Nat) (s : State) : Result := collRun n 1 s
/-- ALLGATHER. -/
def execAllgather (n : Nat) (s : State) : Result := collRun n 2 s
/-- BROADCAST. -/
def execBroadcast (n : Nat) (s : State) : Result := collRun n 3 s
/-- REDUCE. -/
def execReduce (n : Nat) (s : State) : Result := collRun n 4 s
/-- ALLTOALL. -/
def execAlltoall (n : Nat) (s : State) : Result := collRun n 5 s
/-- BARRIER. -/
def execBarrier (n : Nat) (s : State) : Result := collRun n 6 s

-- Completion (R488).

/-- The completion word of R488. -/
def Coll.word (c : Coll) : Nat := 2 ^ 63 + c.status % 128 * 2 ^ 56 + c.sat.toNat * 2 ^ 55 + cbValue c.block

/-- At an idle point, with no collective admitted, an accepted schedule image is installed (R507). -/
def idleInstall (s : State) : State :=
  match s.nextSchedule with
  | some i => if s.colls.isEmpty then { s with schedule := i, nextSchedule := none } else s
  | none => s

/-- A collective leaves: its communicator's state, its channel when it was the last, and the interrupt (R482, R487,
R488, R490). -/
def endColl (s : State) (n : Nat) (c : Coll) : State :=
  let s := (s.forsakeJob c.agent c.ctx (some c.seg)).endSegments c.core c.ctx c.seg
  let s : State := { s with colls := s.colls.eraseIdx n, collBufs := s.collBufs.filter (fun b => !b.isOf c) }
  let k := s.comm c.key
  let last := !s.colls.any (fun d => d.key == c.key)
  let s := s.setComm c.key { k with
    lstatus := c.status, sat := k.sat || c.sat, vc := if last then none else k.vc }
  let s := if cbIrq c.block then raiseIn s c.hart c.ctx 6 else s
  idleInstall (giveChannel s)

/-- COLL_COMPLETE (R488): the completion word is written as a release at DOM, one that cannot be written being dropped.
DEDUCED, assumption 43. -/
def execCollComplete (n : Nat) (s : State) : Result :=
  match s.colls[n]? with
  | none => .next s
  | some c =>
    if !c.done && c.status = 0 then .next s
    else if cbCword c.block = 0 then .next (endColl s n c)
    else
      engineEvent s c.agent (some c.seg) (do
        let s ← engOf (flushFor s c.agent c.ctx (some c.seg) c.seg c.dest)
        let s ← engWrite1 (s.setColl n { c with dest := {} }) c.who c.agent 0 (cbCword c.block) (leBytes 8 c.word)
        .ok (endColl s n c)) (fun t _ => endColl t n c) (fun t _ _ _ => endColl t n c)

end Sys2Proof.Machine
end

