-- ==== Sys2Proof/Machine/Host.lean ====
section
/-! DEFINITION. The host's registers: launch mailboxes, context slots, the system slot, TDISP (R498 to R503). -/

namespace Sys2Proof.Machine

-- Launch mailboxes (R498 to R500).

/-- DOORBELL (R500). DESIGN CHOICE, assumption 51. -/
def execDoorbell (slot : Nat) (s : State) : Result :=
  let c := s.slot slot
  if slot ≥ 64 then .next s
  else if c.busy then .next (s.setSlot slot { c with overrun := true })
  else if c.tdi == .run || c.tdi == .unlocked then .next (s.setSlot slot { c with busy := true, rung := true })
  else .next s

/-- MSTATUS as the host reads it (R499). -/
def CtxSlot.mstatus (c : CtxSlot) : W64 :=
  BitVec.ofNat 64 (c.overrun.toNat * 2 ^ 33 + c.busy.toNat * 2 ^ 32 + c.result.toNat % 2 ^ 22)

/-- MSTATUS_CLEAR (R499): writing 1 to bit 33 clears OVERRUN. -/
def execMstatusClear (slot : Nat) (v : W64) (s : State) : Result :=
  if slot < 64 && v.getLsbD 33 then .next (s.setSlot slot { s.slot slot with overrun := false }) else .next s

/-- TDISP_REQUEST (R498): the function's TDI changes state; in CONFIG_LOCKED and RUN its selective IDE stream carries
every transaction. DESIGN CHOICE, assumption 24. -/
def execTdispRequest (slot : Nat) (wanted : Tdi) (s : State) : Result :=
  if slot < 64 then
    .next (s.setSlot slot { s.slot slot with tdi := wanted, ide := wanted == .locked || wanted == .run })
  else .next s

-- Registers without behaviour of their own (R499, R501, R503).

/-- A register that takes writes only while its slot is FREE (R501). -/
def whileFree (s : State) (slot : Nat) (g : CtxSlot → CtxSlot) : State :=
  if slot < 64 && (s.slot slot).st == .free then s.setSlot slot (g (s.slot slot)) else s

/-- A register that takes writes until SYSGO (R503). -/
def untilSysgo (s t : State) : State := if s.sysgo then s else t

/-- DEDUCED, assumption 25. -/
def writeReg (r : HostReg) (v : W64) (s : State) : State :=
  match r with
  | .packet slot i =>
    let c := s.slot slot
    if h : i < 32 then
      if slot < 64 && !c.busy then s.setSlot slot { c with packet := c.packet.set i v h } else s
    else s
  | .root slot =>
    if slot < 64 && (s.slot slot).st == .free then { s with roots := Tab.put s.roots slot v } else s
  | .handler slot => whileFree s slot (fun c => { c with handler := v })
  | .pool slot => whileFree s slot (fun c => { c with pool := v })
  | .qbase slot => whileFree s slot (fun c => { c with qbase := v })
  | .qback slot => whileFree s slot (fun c => { c with qback := v &&& 0xFFFF })
  | .migrate slot => if slot < 64 then s.setSlot slot { s.slot slot with migrate := v } else s
  | .reldl slot c =>
    if h : c < 16 then
      if slot < 64 then s.setSlot slot { s.slot slot with reldl := (s.slot slot).reldl.set c v h } else s
    else s
  | .sysroot => untilSysgo s { s with sysroot := v }
  | .sysentry => untilSysgo s { s with sysentry := v }
  | .sysivec => untilSysgo s { s with sysivec := v }
  | .recovery off =>
    if s.recovering && decide (off + 8 ≤ 2 ^ 26) then
      { s with recoveryWin := Mem.writeL s.recoveryWin off (leBytes 8 v.toNat) }
    else s
  | .unlisted => s

/-- REGISTER_WRITE (R499, R501, R503, R505). DESIGN CHOICE, assumption 51. -/
def execRegisterWrite (r : HostReg) (v : W64) (s : State) : Result := .next (writeReg r v s)

-- Reads (R499, R501, R503). They change nothing: each is the value a read gives, by offset.

/-- KEYS (R501). -/
def keysOwned (s : State) (ctx : Nat) : Nat := (s.keys.filter (fun k => k.2.owner == ctx && k.2.st != .empty)).length

/-- STATE of SLOTCTL. -/
def SlotState.code : SlotState → Nat
  | .free => 0
  | .active => 1
  | .tearing => 2

/-- SLOTCTL (R501). -/
def CtxSlot.slotctl (c : CtxSlot) : W64 := BitVec.ofNat 64 (c.err % 256 * 2 ^ 8 + c.st.code * 2 ^ 2)

/-- A read of the launch mailbox of a virtual function (R499). DOORBELL is write only: its read is zero.
DEDUCED, assumption 25. -/
def mailboxRead (s : State) (slot off : Nat) : W64 :=
  let c := s.slot slot
  if off < 0x100 && off % 8 == 0 then c.packet.toList.getD (off / 8) 0
  else if off = 0x108 then c.mstatus
  else 0

/-- A read of a slot's page (R501). -/
def slotRead (s : State) (slot off : Nat) : W64 :=
  let c := s.slot slot
  if 0x40 ≤ off && off < 0xC0 && off % 8 == 0 then c.reldl.toList.getD ((off - 0x40) / 8) 0
  else
    match off with
    | 0x00 => c.slotctl
    | 0x08 => Tab.get 0 s.roots slot
    | 0x10 => c.handler
    | 0x18 => c.pool
    | 0x20 => c.qbase
    | 0x28 => c.qback
    | 0x30 => c.migrate
    | 0x38 => BitVec.ofNat 64 c.missed
    | 0xC0 => BitVec.ofNat 64 (keysOwned s slot)
    | _ => 0

/-- A read of the system slot (R503). -/
def systemRead (s : State) (off : Nat) : W64 :=
  match off with
  | 0x00 => s.sysroot
  | 0x08 => s.sysentry
  | 0x10 => s.sysivec
  | 0x18 => BitVec.ofNat 64 s.sysgo.toNat
  | _ => 0

-- Slot commands (R502).

def errOk : Nat := 0
def errBadfield : Nat := 1
def errBusy : Nat := 2
def errState : Nat := 3

/-- A DPA in this device's HBM, through either view, with an alignment. -/
def inHbm (s : State) (v : W64) (align : Nat) : Bool :=
  v.toNat / 2 ^ 46 == s.devidx && v.toNat % 2 ^ 46 < 2 ^ 41 && v.toNat % align == 0

/-- The fields that SETUP checks. DEDUCED, assumption 25. -/
def slotGood (s : State) (slot : Nat) : Bool :=
  let c := s.slot slot
  let root := Tab.get 0 s.roots slot
  (root == 0 || inHbm s root (2 ^ 16)) && c.handler.toNat % 4 == 0 && (c.pool == 0 || inHbm s c.pool 64) &&
    (c.qback == 0 || inHbm s c.qbase 64)

/-- Zero a context's meters (R510). -/
def zeroMeters (s : State) (ctx : Nat) : State := { s with meters := s.meters.filter (fun m => m.1 / 32 != ctx) }

/-- A context's duplicate windows are emptied (R150, R151). -/
def emptyDups (s : State) (ctx : Nat) : State := { s with dups := s.dups.filter (fun d => d.1 % 128 != ctx) }

/-- SETUP (R502). -/
def execSetup (slot : Nat) (s : State) : Result :=
  let c := s.slot slot
  if slot ≥ 64 then .next s
  else if c.st != .free then .next (s.setSlot slot { c with err := errState })
  else if !slotGood s slot then .next (s.setSlot slot { c with err := errBadfield })
  else
    let s := emptyDups (zeroMeters s slot) slot
    .next (s.setSlot slot { c with err := errOk, st := .active, missed := 0 })

/-- A core no longer holds a context in either bank; the bank's scratchpad, engines, registers and save areas are
cleared (R60, R502). -/
def ungrant (s : State) (ctx core : Nat) : State :=
  let k := s.core core
  if granted s core ctx then
    (clearBank s core ctx).setCore core { k with
      active := if k.active == some ctx then none else k.active
      shadow := if k.shadow == some ctx then none else k.shadow
      swapTo := if k.swapTo == some ctx then none else k.swapTo }
  else s

/-- The meters of a context (R380). -/
def meterList (s : State) (ctx : Nat) : List Nat := (List.range 13).map (fun i => s.meter ctx i)

/-- The accesses and jobs of a context have ended, so that its translations and keys can go (R52, R381, R502).
DESIGN CHOICE, assumption 27. -/
def contextQuiet (s : State) (ctx : Nat) : Bool :=
  !(s.inFlight ++ s.outbox).any (fun r => r.ctx == ctx && (match r.agent with | .peer _ => false | _ => true)) &&
    !s.tableOps.any (fun r => r.ctx == ctx) && !s.promos.any (fun p => p.page.ctx == ctx) &&
    !heldSegment s (.ctx ctx) &&
    !(List.range 4096).any (fun n => (s.keySlot n).owner == ctx && (s.keySlot n).st != .empty && keyInUse s n)

/-- The steps of a teardown, in the order of R502. DESIGN CHOICE, assumption 27. -/
def tearDown (s : State) (ctx : Nat) : State :=
  let s := (s.cores.map (·.1)).foldl (fun s c => ungrant s ctx c) s
  let s := invalidate s (.ctx ctx)
  let s : State := { s with
    keys := s.keys.map (fun k => if k.2.owner == ctx then (k.1, {}) else k)
    tickets := s.tickets.filter (fun t => t.2.ctx != ctx)
    sowing := s.sowing.map (fun q => (q.1, q.2.filter (fun r => r.ctx != ctx)))
    promoQ := s.promoQ.filter (fun p => p.ctx != ctx)
    trackers := s.trackers.filter (fun e => e.2.ctx != ctx)
    returnsDue := s.returnsDue.filter (fun r => r.ctx != ctx)
    segments := s.segments.filter (fun g => g.ctx != ctx)
    ringNet := s.ringNet.filter (fun m => m.ctx != ctx)
    respNet := s.respNet.map (fun q => if q.ctx == ctx then { q with posted := true } else q)
    inbox := s.inbox.filter (fun q => q.ctx != ctx) }
  let s := emptyDups s ctx
  let s : State := { s with
    snapshots := Tab.put s.snapshots ctx (meterList s ctx)
    roots := Tab.drop s.roots ctx }
  s.setSlot ctx { s.slot ctx with st := .free, err := errOk, handler := 0, pool := 0, qbase := 0, qback := 0 }

/-- TEARDOWN (R502). A slot whose accesses and jobs have not ended is TEARING until they have.
DESIGN CHOICE, assumption 27. -/
def execTeardown (slot : Nat) (s : State) : Result :=
  let c := s.slot slot
  if slot ≥ 64 then .next s
  else if c.st != .active then .next (s.setSlot slot { c with err := errState })
  else if s.launches.any (fun l => l.2.ctx == slot) then .next (s.setSlot slot { c with err := errBusy })
  else if !contextQuiet s slot then .next (s.setSlot slot { c with st := .tearing })
  else .next (tearDown s slot)

/-- The steading ends a teardown under way, once the context's accesses and jobs have ended (R502).
DESIGN CHOICE, assumption 27. -/
def teardownEnd (slot : Nat) (s : State) : Result :=
  if (s.slot slot).st == .tearing && contextQuiet s slot then .next (tearDown s slot) else .next s

/-- SYSGO (R503): the 256 supervisor harts start at SYSENTRY in S mode with IE = 0. DEDUCED, assumption 26. -/
def execSysgo (v : W64) (s : State) : Result :=
  if v = 1 && !s.sysgo && s.bootStep == 7 then
    let s := (List.range 64).foldl (fun s c => s.setCore (1024 + c) (s.core (1024 + c))) s
    let s := (List.range 256).foldl (fun s i =>
      let hid := 4096 + i
      s.setBank hid sysCtx (Hart.setPc { s.bank hid sysCtx with
        running := true, status := mkStatus true false false false, ivec := s.sysivec } s.sysentry)) s
    .next { s with sysgo := true }
  else .next s

end Sys2Proof.Machine
end

