-- ==== Sys2Proof/Machine/Promotion.lean ====
section
/-! DEFINITION. The hot-page tracker and the promotion engine (R88 to R95). -/

namespace Sys2Proof.Machine

/-- TRACKER_EPOCH_END (R89): an epoch lasts 2^(16 + EPOCH) cycles; every count is halved but one that has reached
THRESH. -/
def execTrackerEpochEnd (io : Nat) (s : State) : Result :=
  let half (e : Nat × HotPage) : Nat × HotPage :=
    if e.1 / 16384 == io && !e.2.due then (e.1, { e.2 with count := e.2.count / 2 }) else e
  if s.clock < Tab.get 0 s.epochAt io + 2 ^ (16 + s.trkctl.epoch) then .next s
  else .next { s with trackers := s.trackers.map half, epochAt := Tab.put s.epochAt io s.clock }

def HotPage.is (p : HotPage) (ctx vpn : Nat) : Bool := p.ctx == ctx && p.vpn == vpn

/-- A page that is queued or moving (R93). -/
def promoting (s : State) (p : HotPage) : Bool :=
  s.promoQ.any (·.is p.ctx p.vpn) || s.promos.any (·.page.is p.ctx p.vpn)

/-- HOT_PAGE_SELECT (R89, R91, R93): entry n of an I/O die's table has reached THRESH.
DEDUCED, assumption 50. -/
def execHotPageSelect (io n : Nat) (s : State) : Result :=
  match s.trackers.find? (fun e => e.1 == io * 16384 + n) with
  | none => .next s
  | some (id, p) =>
    if s.trkctl.en && s.trkctl.thresh != 0 && (p.due || decide (p.count ≥ s.trkctl.thresh)) &&
        (s.slot p.ctx).pool != 0 && !promoting s p then
      let s1 := { s with trackers := Tab.drop s.trackers id }
      if s1.promoQ.length < 32 then .next { s1 with promoQ := s1.promoQ ++ [p] } else .next (s1.log (.promoBusy p.ctx))
    else .next s

-- The frame pool (R91, R92).

/-- A pool descriptor: where it lies and its doublewords. -/
structure Pool where
  at_ : Nat
  dw : List W64
  deriving DecidableEq, Repr

/-- An access of the promotion engine by DPA, for one of its promotions or, without a job, for its returns: by request
and response, as every agent's (R71). None where no byte of this device can be reached (R35, R514). DESIGN CHOICE,
assumption 49. -/
def promoTrip (s : State) (ctx : Nat) (job : Option Nat) (k : ReqKind) (dpa n data : Nat) : Act (State × Option Response) :=
  if dpa / 2 ^ 46 != s.devidx then .ok (s, none)
  else
    match reachable s (dpa % 2 ^ 46) n with
    | none => .ok (s, none)
    | some a => do
      let (s, q) ← trip s { kind := k, agent := .promotion, ctx := ctx, place := .mem a, size := n
                            data := BitVec.ofNat 512 data, job := job }
      .ok (s, if q.status == .ok then some q else none)

/-- What the promotion engine reads: none where it cannot be reached or fails its check (R86). -/
def promoRead (s : State) (ctx : Nat) (job : Option Nat) (dpa n : Nat) : Act (State × Option Nat) := do
  let (s, q) ← promoTrip s ctx job .read dpa n 0
  .ok (s, q.map (·.data.toNat))

/-- A doubleword of the promotion engine is written; one that cannot be written is lost. DESIGN CHOICE, assumption 49. -/
def promoWrite (s : State) (ctx : Nat) (job : Option Nat) (dpa v : Nat) : Act State := do
  let (s, _) ← promoTrip s ctx job .write dpa 8 (v % 2 ^ 64)
  .ok s

/-- A context's pool descriptor, by the DPA in its slot; a context that has no pool any more has none. -/
def poolOf (s : State) (ctx : Nat) (job : Option Nat) : Act (State × Option Pool) := do
  let at_ := (s.slot ctx).pool.toNat
  if at_ = 0 then .ok (s, none)
  else do
    let (s, v) ← promoRead s ctx job at_ 64
    .ok (s, v.map (fun v => { at_ := at_, dw := (List.range 8).map (fun i => BitVec.ofNat 64 (v / 2 ^ (64 * i))) }))

def Pool.word (p : Pool) (i : Nat) : Nat := ((p.dw[i]?).getD 0).toNat
/-- The reserved bits beside a ring's size are not read, and its base is used as it stands.
DESIGN CHOICE, assumption 58. -/
def Pool.freeSize (p : Pool) : Nat := 2 ^ (p.word 1 % 16 + 4)
def Pool.retSize (p : Pool) : Nat := 2 ^ (p.word 5 % 16 + 4)
def Pool.freeEmpty (p : Pool) : Bool := p.word 2 == p.word 3
def Pool.retFull (p : Pool) : Bool := (p.word 6 + 2 ^ 64 - p.word 7) % 2 ^ 64 == p.retSize

/-- The DPA of a pool index field, and its next value. -/
def Pool.field (p : Pool) (i : Nat) : Nat := p.at_ + 8 * i
def Pool.next (p : Pool) (i : Nat) : Nat := (p.word i + 1) % 2 ^ 64

/-- A free-ring entry that R92 rejects; one in a channel's metadata, as one in the spill reserve below it.
DESIGN CHOICE, assumption 59. -/
def entryBad (s : State) (e : Nat) : Bool :=
  let a := slice e 45 16 * 2 ^ 16
  slice e 63 56 != 0 || slice e 15 2 != 0 || e % 4 ≥ 2 || slice e 55 46 != s.devidx || placeOfLocal a != e % 4 ||
    (if e % 4 = 0 then channelFailed s (a / 2 ^ 30) else dieFailed s (slice a 39 37)) ||
    (frameOffsets s a false).2 > spillBase s

-- Promotions (R93 to R95).

/-- A promotion goes on: no page is moved twice at a time (R93). -/
def State.setPromo (s : State) (p : Promotion) (g : Promotion → Promotion) : State :=
  { s with promos := s.promos.map (fun q => if q.page.is p.page.ctx p.page.vpn then g q else q) }

/-- A promotion ends. -/
def State.endPromo (s : State) (p : Promotion) : State :=
  { s with promos := s.promos.filter (fun q => !q.page.is p.page.ctx p.page.vpn) }

/-- Held accesses whose page is not moved any more go on to their banks, in the order in which they arrived (R94). -/
def releaseHeld (s : State) : State :=
  let at_ (r : Request) : Option Nat := match r.place with
    | .mem a => some a
    | _ => none
  let front (r : Request) (s : State) : State := match at_ r with
    | some a =>
      let port := portOf s (channelOf s a)
      { s with inbound := Tab.put s.inbound port (r :: Tab.get [] s.inbound port) }
    | none => s
  let enter (s : State) (r : Request) : State := match at_ r with
    | some a => pullBank s (portOf s (channelOf s a)) (bankOf s a)
    | none => s
  s.heldAt.foldl enter (s.heldAt.foldr front { s with heldAt := [] })

/-- A selection is dropped: its page stays in place (R92). -/
def dropSelection (s : State) (p : Promotion) : State := (releaseHeld (s.endPromo p)).log (.poolEmpty p.page.ctx)

/-- PopFree (R93): one entry of the free ring, which becomes the promotion's frame or goes to the return ring; nothing
while an earlier frame of the context waits for that ring. A ring that cannot be read is as an empty one. DESIGN CHOICE,
assumption 49. -/
def popFree (s : State) (p : Promotion) : Act State := do
  let ctx := p.page.ctx
  let job := some p.page.vpn
  let (s, d) ← poolOf s ctx job
  match d with
  | none => .ok (dropSelection s p)
  | some d =>
    if d.freeEmpty || d.retFull then .ok (dropSelection s p)
    else if s.returnsDue.any (fun r => r.ctx == ctx) then .ok s
    else do
      let (s, e) ← promoRead s ctx job (d.word 0 + 8 * (d.word 3 % d.freeSize)) 8
      match e with
      | none => .ok (dropSelection s p)
      | some e => do
        let s ← promoWrite s ctx job (d.field 3) (d.next 3)
        if entryBad s e then .ok { s with returnsDue := s.returnsDue ++ [{ ctx := ctx, frame := e, kind := 2 }] }
        else .ok (s.setPromo p (fun q => { q with frame := slice e 55 16 * 2 ^ 16, place := e % 4, stage := .copy 0 }))

/-- PROMOTION_START: the page of the oldest selection is marked moving while fewer than 8 promotions run, and the one
that has begun and has no frame yet looks for it: it is dropped where there is none (R92, R93). -/
def execPromotionStart (s : State) : Result :=
  match s.promos.find? (fun p => p.stage == .pop) with
  | some p => agentEvent s (popFree s p)
  | none =>
    match s.promoQ with
    | [] => .next s
    | p :: rest => if s.promos.length < 8 then .next { s with promoQ := rest, promos := s.promos ++ [{ page := p }] } else .next s

/-- The tier frame of a promotion. -/
def Promotion.tierFrame (p : Promotion) : Nat := pteFrame p.page.pte * 2 ^ 16

def Promotion.va (p : Promotion) : W64 := BitVec.ofNat 64 (p.page.vpn * 2 ^ 16)

/-- The leaf with the new frame and PLACE and with HOT clear; no other field changes (R93). -/
def Promotion.newPte (p : Promotion) : Nat :=
  let e := setSlice p.page.pte.toNat 53 24 (p.frame / 2 ^ 16 % 2 ^ 30)
  setSlice (setSlice e 6 5 p.place) 9 9 0

/-- Where a byte of the moved page lies now. -/
def Promotion.moved (s : State) (p : Promotion) (a : Nat) : Nat :=
  (physOf s ((p.frame + (a - p.tierFrame)) % 2 ^ 46)).getD a

/-- A byte of the page's tier frame. -/
def Promotion.inFrame (p : Promotion) (pl : Place) : Bool :=
  match pl with
  | .mem a => p.tierFrame ≤ a && a < p.tierFrame + 2 ^ 16
  | _ => false

/-- A leaf is the page's translation before it moved. -/
def Promotion.was (p : Promotion) (e : TlbEntry) : Bool :=
  e.ctx == p.page.ctx && !e.big && e.vpn == p.page.vpn && e.pte == p.page.pte

/-- What the page's leaf becomes, and a place in its frame. -/
def Promotion.leaf (p : Promotion) (e : TlbEntry) : TlbEntry := if p.was e then { e with pte := BitVec.ofNat 64 p.newPte } else e
def Promotion.place_ (p : Promotion) (s : State) (pl : Place) : Place :=
  match pl with
  | .mem a => if p.inFrame pl then .mem (p.moved s a) else pl
  | pl => pl

/-- An access through the page's translation is translated again; the tier controller that it was meant for knows of it
until it is performed (R94, R146). -/
def Promotion.again (p : Promotion) (s : State) (r : Request) : Request :=
  if (r.leaf.map p.was).getD false then
    { r with place := p.place_ s r.place, leaf := r.leaf.map p.leaf, home := some (r.place.router s) }
  else r

/-- The places that an effect of a table operation holds through a leaf. -/
def TabAct.mapLeaf (g : Place × Option TlbEntry → Place × Option TlbEntry) : TabAct → TabAct
  | .write va a e d => .write va (g (a, e)).1 (g (a, e)).2 d
  | .add va a e => .add va (g (a, e)).1 (g (a, e)).2
  | .release pg va a e => .release pg va (g (a, e)).1 (g (a, e)).2
  | .push pg => .push pg
  | .note h c => .note h c

def RetRing.mapLeaf (g : Place × Option TlbEntry → Place × Option TlbEntry) (r : RetRing) : RetRing :=
  { r with prodAt := (g (r.prodAt, r.leaf)).1, consAt := (g (r.consAt, r.leaf)).1, leaf := (g (r.prodAt, r.leaf)).2
           slots := r.slots.map g }

/-- Accesses through the removed translation that are not performed are translated again and go to the new frame, in the
order in which they arrived, and their new destinations enter the destination sets; accesses through another mapping of
the frame stay (R90, R94, R145). What an engine, a completion or a table operation holds of the translation follows.
DEDUCED, assumption 50. -/
def Promotion.retranslate (s : State) (p : Promotion) : State :=
  let mine (r : Request) : Bool := (r.leaf.map p.was).getD false
  let held := ((queued s.bankQ ++ s.heldAt ++ queued s.inbound).filter mine).map (p.again s)
  let sent := s.reqNet.map (p.again s)
  let keep (b : Nat × List Request) : Nat × List Request := (b.1, b.2.filter (fun r => !mine r))
  let back (q : Response) : Response :=
    if q.ctx == p.page.ctx && q.va.toNat % 2 ^ 55 / 2 ^ 16 == p.page.vpn then { q with place := p.place_ s q.place } else q
  let moved_ (x : Place × Option TlbEntry) : Place × Option TlbEntry :=
    if (x.2.map p.was).getD false then (p.place_ s x.1, x.2.map p.leaf) else x
  let job (j : Job) : Job := { j with cdest := j.cdest.map (fun c =>
    match c.entry with
    | some e => if p.was e then { place := p.place_ s c.place, entry := some (p.leaf e) } else c
    | none => c) }
  let t : State := { s with
    bankQ := s.bankQ.map keep
    inbound := s.inbound.map keep
    heldAt := s.heldAt.filter (fun r => !mine r)
    reqNet := held ++ sent
    respNet := s.respNet.map back
    inbox := s.inbox.map back
    segments := s.segments.map (fun g => { g with entry := p.leaf g.entry })
    units := s.units.map (fun u => (u.1, { u.2 with jobs := u.2.jobs.map job }))
    tableOps := s.tableOps.map (fun r =>
      if r.leaves.any p.was then
        { r with acts := r.acts.map (TabAct.mapLeaf moved_), ring := r.ring.map (RetRing.mapLeaf moved_)
                 leaves := r.leaves.map p.leaf }
      else r) }
  ((held ++ sent).filter (fun r => r.home.isSome)).foldl State.noteDest t

/-- A line of the page is read at the tier, a line is written to the new frame, and the compare-and-swap of the leaf at
its ordering bank (R73, R93). -/
def Promotion.reads (p : Promotion) (i : Nat) : Request :=
  { kind := .read, agent := .promotion, ctx := p.page.ctx, place := .mem (p.tierFrame + 64 * i), size := 64
    job := some p.page.vpn }
def Promotion.writes (p : Promotion) (s : State) (i : Nat) (d : V512) : Request :=
  { kind := .write, agent := .promotion, ctx := p.page.ctx, place := .mem (p.moved s (p.tierFrame + 64 * i)), size := 64
    data := d, job := some p.page.vpn }
def Promotion.swaps (p : Promotion) : Request :=
  { kind := .atomic, agent := .promotion, ctx := p.page.ctx, place := .mem p.page.entry, size := 8
    op := .cas p.page.pte, data := BitVec.ofNat 512 p.newPte, job := some p.page.vpn }

/-- After the swap: the invalidation, the release of the held accesses, and the return of the tier frame (R93, R94). -/
def Promotion.finish (p : Promotion) (s : State) : State :=
  let t := releaseHeld (p.retranslate (invalidate (s.endPromo p) (.page p.va p.page.ctx)))
  { t with returnsDue := t.returnsDue ++
      [{ ctx := p.page.ctx, frame := s.devidx * 2 ^ 46 + p.tierFrame, kind := 0 }] }

/-- The next step of a promotion: a line is read, and written; after the last the leaf is swapped. A line that fails
twice, a leaf that has changed or cannot be read abandons it (R93, R95). -/
def Promotion.step (p : Promotion) (s : State) : Act State :=
  match p.stage with
  | .copy i => do
    let (s, q) ← trip s (p.reads i)
    .ok (s.setPromo p (fun r => { r with stage := if q.status == .ok then .put i q.data else .failed }))
  | .put i d => do
    let (s, _) ← trip s (p.writes s i d)
    .ok (s.setPromo p (fun r => { r with stage := if i < 1023 then .copy (i + 1) else .swap }))
  | .swap => do
    let (s, q) ← trip s p.swaps
    if q.status == .ok && q.data.toNat % 2 ^ 64 == p.page.pte.toNat then .ok (p.finish s)
    else .ok (s.setPromo p (fun r => { r with stage := .failed }))
  | _ => .ok s

/-- A frame enters its context's return ring with its kind, the entry before the index; a full ring is read again, and a
context that has no pool any more takes none (R92, R93). DESIGN CHOICE, assumption 60. -/
def pushReturn (s : State) (r : Returned) : Act State := do
  let (s, d) ← poolOf s r.ctx none
  match d with
  | none => .ok { s with returnsDue := s.returnsDue.erase r }
  | some d =>
    if d.retFull then .ok s
    else do
      let s ← promoWrite s r.ctx none (d.word 4 + 8 * (d.word 6 % d.retSize)) (r.frame / 2 ^ 16 * 2 ^ 16 % 2 ^ 56 + r.kind)
      let s ← promoWrite s r.ctx none (d.field 6) (d.next 6)
      .ok { s with returnsDue := s.returnsDue.erase r }

/-- PROMOTION_COMPLETE (R93, R94): the n-th promotion goes on, to its end. Past the running promotions, a frame that is
its context's oldest goes back. DEDUCED, assumption 50. -/
def execPromotionComplete (n : Nat) (s : State) : Result :=
  match s.promos[n]? with
  | some p => agentEvent s (p.step s)
  | none =>
    match s.returnsDue[n - s.promos.length]? with
    | none => .next s
    | some r =>
      if (s.returnsDue.take (n - s.promos.length)).any (fun q => q.ctx == r.ctx) then .next s
      else agentEvent s (pushReturn s r)

/-- PROMOTION_ABANDON (R93, R95): held accesses are performed at the tier, and the frame goes back unused. -/
def execPromotionAbandon (n : Nat) (s : State) : Result :=
  match s.promos[n]? with
  | none => .next s
  | some p =>
    if p.stage == .failed then
      let t := releaseHeld (s.endPromo p)
      .next { t with returnsDue := t.returnsDue ++ [{ ctx := p.page.ctx, frame := p.frame, kind := 1 }] }
    else .next s

end Sys2Proof.Machine
end

