-- ==== Sys2Proof/Machine/Agenda.lean ====
section
/-! DEFINITION. The round robin by which the machine gives its agents their turns when the schedule names none
(assumption 7). The order in which agents act is left open by the spec. -/

namespace Sys2Proof.Machine

/-- The cores that run: granted compute cores, and the supervisor cores once started. -/
def runningCores (s : State) : List Nat :=
  (s.cores.filter (fun c => c.2.active.isSome || c.2.swapTo.isSome || supCore c.1)).map (·.1)

/-- An agent: a core's thread set, or an event of the hardware by its place in `ownEvents`. -/
inductive Whose where
  | core (c : Nat) | event (n : Nat)
  deriving DecidableEq, Repr

abbrev Event := State → Result

/-- The release that a FLUSH belongs to, as FLUSH ACK names it. -/
def relOf (ag : Agent) (ctx : Nat) : Nat := ag.flushId * 128 + ctx

/-- The event that moves the n-th request on. -/
def requestEvent (n : Nat) (r : Request) : Event :=
  match r.place, r.kind with
  | .spad _ _, _ => execScratch n
  | .port _, _ => execFlush n
  | _, .read => execRead n
  | _, .atomic => execAtomic n
  | _, _ => execWrite n

/-- The event that answers the n-th response or request to a peer; FLUSH ACK names its device and release. -/
def answerEvent (n dev : Nat) (k : ReqKind) (ag : Agent) (ctx : Nat) : Event :=
  match k with
  | .read => execReadData n
  | .atomic => execAtomicData n
  | .flush => execFlushAck dev (relOf ag ctx)
  | _ => execWriteAck n

def peerOf (s : State) (p : Place) : Nat :=
  match p with
  | .peer d _ => d
  | _ => s.devidx

/-- Events of the memory system: the messages on their way, the first request of each bank queue that may be
performed, walks, rows. -/
def memoryEvents (s : State) : List Event :=
  (indexed s.reqNet).map (fun e => requestEvent e.1 e.2) ++
  (s.bankQ.filter (fun b => !b.2.isEmpty)).map (fun b =>
    execColumnCommand b.1 (((List.range b.2.length).find? (fun n => mayPerform s b.2 n)).getD 0)) ++
  (indexed s.respNet).map (fun e => answerEvent e.1 s.devidx e.2.kind e.2.agent e.2.ctx) ++
  (indexed s.outbox).map (fun e => answerEvent (s.respNet.length + e.1) (peerOf s e.2.place) e.2.kind e.2.agent e.2.ctx) ++
  (s.gathers.filter (fun g => g.ports == some [])).map (fun g => execFlushAck g.src (g.hart * 128 + g.ctx)) ++
  (List.range s.walkQ.length).map execPageWalk ++
  (s.rowBufs.filter (fun b => b.2.row.isSome)).map (fun b => execTidleExpiry b.1)

/-- Events of the tracker and the promotion engine. -/
def promotionEvents (s : State) : List Event :=
  (if s.trkctl.en then
    [0, 1].map execTrackerEpochEnd ++
    (s.trackers.filter (fun e => e.2.due || decide (e.2.count ≥ s.trkctl.thresh))).map (fun e =>
      execHotPageSelect (e.1 / 16384) (e.1 % 16384))
  else []) ++
  (if s.promoQ.isEmpty && !s.promos.any (fun p => p.stage == .pop) then [] else [execPromotionStart]) ++
  ((List.range s.promos.length).map (fun n => [execPromotionComplete n, execPromotionAbandon n])).flatten ++
  (List.range s.returnsDue.length).map (fun n => execPromotionComplete (s.promos.length + n))

/-- A core's units have work. -/
def unitsStir (u : Units) : Bool :=
  !u.jobs.isEmpty || !u.tours.isEmpty || !u.pipes.isEmpty || u.matrix.stop != .running || !u.matrix.queue.isEmpty ||
    u.copy.chans.toList.any (fun c => c.st != .idle || !c.queue.isEmpty) || u.harrow.st != .idle ||
    !u.exponent.queue.isEmpty || u.exponent.run.isSome

/-- Events of a core's engines. -/
def engineEvents (c : Nat) : List Event :=
  [execZero c, execLoadb c, execRuna c, execDrain c, execCont c, execMatrixStop c, execMatrixJobComplete c] ++
  ((List.range 4).map (fun ch => [execChainRecordRead c ch, execCopy c ch, execFill c ch, execPlane c ch,
    execUnplane c ch, execFprint c ch, execDedup c ch, execKvpack c ch, execGather c ch,
    execCopyRecordComplete c ch, execCopyChannelStop c ch])).flatten ++
  [execExp2 c, execExpe c, execRecip c, execRsqrt c, execSoftrow c, execExpCardComplete c] ++
  [execHarrowNop c, execHarrowIssue c, execHarrowWaitq c, execHarrowWaitwm c, execHarrowWaitc c, execHarrowSeti c,
    execHarrowAddi c, execHarrowCmpb c, execHarrowLoop c, execHarrowEndl c, execHarrowSignal c, execHarrowTrap c,
    execHarrowEnd c]

/-- Events of the tours that a core keeps and of the tiles that stand in its rings. -/
def tourEvents (u : Units) (c : Nat) : List Event :=
  (u.tours.map (fun t => [execTourLeg c t.1, execMakeGood c t.1, execTourComplete c t.1, execTourWatchdog c t.1])).flatten ++
  ((List.range 16).map (fun r =>
    ((u.rings.toList[r]?).map (fun q => q.visits.map (fun v => execHoldExpiry c r v.arr) ++
      q.transit.map (fun t => execTransitDrop c r t.arr))).getD [])).flatten

/-- The pipelines of a context, wherever their controllers are, and those whose drain acknowledgement a core waits
for. -/
def pipeKeys (s : State) (c ctx : Nat) : List Nat :=
  let kept : List Nat :=
    ((s.units.filter (fun e => e.1 % 128 == ctx)).map (fun e => e.2.pipes.map (fun p => e.1 / 128 * 2 ^ 16 + p.1))).flatten
  (kept ++ (s.unit c ctx).links.filterMap (fun l => l.2.ackOf)).eraseDups

/-- Events of a core for the pipelines of the context it runs. -/
def spliceEvents (s : State) (c : Nat) : List Event :=
  ((pipeKeys s c (s.ctxOf c)).map (fun p => [execMarkerPass c p, execSpliceInsert c p, execSpliceRemove c p,
    execSpliceRebind c p, execDrainAcknowledgement c p, execSpliceComplete c p])).flatten

/-- Events of the cores: their units, the exchange and the transfers of a swap, sleeping harts, idle harts. -/
def coreEvents (s : State) : List Event :=
  ((runningCores s).map (fun c =>
    let k := s.core c
    let u := s.unit c (s.ctxOf c)
    (if unitsStir u then engineEvents c else []) ++ tourEvents u c ++ spliceEvents s c ++
    (if k.swapTo.isSome then [execSwapExchange c] else []) ++
    (if k.todo.isEmpty then [] else [execThresherTransfer c]) ++
    ((List.range 4).map (fun i =>
      let h := s.hart (4 * c + i)
      (match h.sleep with
       | some (_, true) => [execWaitwWake (4 * c + i)]
       | some (_, false) => [execWaitwPoll (4 * c + i)]
       | none => []) ++
      (if h.running || supCore c then [] else [execTaskDispatch (4 * c + i)]))).flatten)).flatten

/-- Events of the launch unit, the steading's teardowns and the task scheduler. -/
def graphEvents (s : State) : List Event :=
  (s.slots.filter (fun c => c.2.rung)).map (fun c => execLaunchUnitProcess c.1) ++
  (s.slots.filter (fun c => c.2.st == .tearing)).map (fun c => teardownEnd c.1) ++
  (List.range s.notices.length).map execEndNotice ++ (List.range s.notices.length).map execEndNoticeAck ++
  s.launches.map (fun l => execGraphEnd l.1) ++
  ((s.launches.map (·.2.ctx)).eraseDups.map (fun c => (List.range 8).map (fun d => execReserveAdjust d c))).flatten ++
  (s.harts.filter (fun h => h.2.slice.isSome && !keyActive s h.1)).map (fun h => execMigrateAbandon (h.1 / 128) (h.1 % 128))

/-- The event of a collective's operation. -/
def collEvent (n op : Nat) : Event :=
  match op with
  | 0 => execAllreduce n
  | 1 => execReducescatter n
  | 2 => execAllgather n
  | 3 => execBroadcast n
  | 4 => execReduce n
  | 5 => execAlltoall n
  | _ => execBarrier n

/-- Every collective with every device of its group. -/
def collPairs (s : State) : List (Nat × Nat) :=
  ((List.range s.colls.length).map (fun n => (((s.colls[n]?).map (·.group)).getD []).map (fun d => (n, d)))).flatten

/-- Events of rings in transit, collectives, table units and trap queues. -/
def deviceEvents (s : State) : List Event :=
  (List.range s.ringNet.length).map execRingPublish ++ (List.range s.ringNet.length).map execCreditReturn ++
  ((List.range s.colls.length).map (fun n =>
    [collEvent n (((s.colls[n]?).map (fun c => cbOp c.block)).getD 0), execCollComplete n])).flatten ++
  (if s.colls.isEmpty then [] else (List.range 36).map (fun p => portTurn p (collPairs s))) ++
  (List.range s.collBufs.length).map (fun k => packetAnswered k true) ++
  (s.tableOps.filterMap (·.unit)).eraseDups.map (fun u => execTableOperation (u / 2 ^ 20) (u % 2 ^ 20)) ++
  (List.range s.heldPackets.length).map execTrapPacketAdmit ++
  ((s.heldPackets.map (·.cluster) ++ (s.steadingQ.map (fun _ => steadingQueue))).eraseDups).map execTrapConsPoll

/-- Events the hardware performs by itself, each as its meaning. DESIGN CHOICE, assumption 7. -/
def ownEvents (s : State) : List Event :=
  memoryEvents s ++ promotionEvents s ++ coreEvents s ++ graphEvents s ++ deviceEvents s

def ownEvent (n : Nat) (s : State) : Result :=
  match (ownEvents s)[n]? with
  | some f => f s
  | none => .next s

/-- The agent whose turn it is. DESIGN CHOICE, assumption 7. -/
def nextAgent (s : State) : State × Whose :=
  let s1 := { s with auto := s.auto + 1 }
  let cs := runningCores s
  let n := s.auto % (cs.length + (ownEvents s1).length)
  match cs[n]? with
  | some c => (s1, .core c)
  | none => (s1, .event (n - cs.length))

end Sys2Proof.Machine
end

