-- ==== Sys2Proof/Machine/Control.lean ====
section
/-! DEFINITION. Control transfer, rep, brk and nop (R228 to R232). -/

namespace Sys2Proof.Machine

/-- Mark last uses, change the hart and go to an address. -/
def jumpTo (f : Fmt) (s : State) (g : Hart → Hart) (target : W64) : State :=
  s.modMe (fun h => (g (h.lastUse f)).setPc target)

/-- The address of the transfer + 12 × SignExtend(IMM) (R193, R228). -/
def immTarget (f : Fmt) (s : State) : W64 := s.me.pc + 12 * f.imm.signExtend 64

/-- The address after the instruction. -/
def linkAddr (s : State) : W64 := s.me.pc + 12

/-- Write an x register operand. -/
def setLinkReg (o : Operand) (v : W64) (h : Hart) : Hart :=
  match o with
  | .x r => h.wx r v
  | _ => h

/-- Mark last uses, write a link to a register or a producer slot (R189), and go to an address. -/
def linkTo (f : Fmt) (s : State) (g : Hart → Hart) (target : W64) : Act State := do
  dstReady s f.d
  let t ← dst64 (s.modMe (fun h => g (h.lastUse f))) f.d (linkAddr s)
  .ok (t.modMe (fun h => h.setPc target))

/-- The dead mark of call and ret (R181). -/
def markDead (h : Hart) : Hart := { h with dead := h.dead ||| h.cmask }

/-- nop (R230). -/
def execNop (f : Fmt) (s : State) : Result := scalarRun f s (putNone f s)

/-- brk (R230): it completes, and the hart then freezes with its program counter on the next instruction.
DEDUCED, assumption 18. -/
def execBrk (f : Fmt) (s : State) : Result :=
  scalarRun f s (fail (done f s id) { illegal causeBreak with brk := f.imm.toNat % 2 ^ 16 })

/-- j (R229). -/
def execJ (f : Fmt) (s : State) : Result := scalarRun f s (.ok (jumpTo f s id (immTarget f s)))

/-- jal (R229). -/
def execJal (f : Fmt) (s : State) : Result :=
  scalarRun f s (linkTo f s id (immTarget f s))

/-- jr (R229): the target is read before the link is written. -/
def execJr (f : Fmt) (s : State) : Result :=
  scalarRun f s (linkTo f s id (xval s f.a))

/-- call (R229): the link is written after the dead mark, so it is live. -/
def execCall (f : Fmt) (s : State) : Result :=
  let t := if f.a.isNone then immTarget f s else xval s f.a
  scalarRun f s (linkTo f s markDead t)

/-- ret (R229). -/
def execRet (f : Fmt) (s : State) : Result := scalarRun f s (.ok (jumpTo f s markDead (xval s f.a)))

/-- loop (R229). -/
def execLoop (f : Fmt) (s : State) : Result :=
  let c := xval s f.d - 1
  scalarRun f s
    (.ok (jumpTo f s (setLinkReg f.d c) (if c != 0 then immTarget f s else linkAddr s)))

/-- rep (R231): it starts a body, or skips one that is repeated zero times. -/
def execRep (f : Fmt) (s : State) : Result :=
  let imm := f.imm.toNat
  scalarRun f s do
    let a ← src64 s f.a f.imm
    let m := if f.a.isNone then slice imm 15 4 + 1 else Nat.min a.toNat 4096
    if m = 0 then .ok (jumpTo f s id (s.me.pc + BitVec.ofNat 64 (12 * (2 + slice imm 3 0))))
    else
      .ok (jumpTo f s (fun h => { h with repst := mkRep 0 0 true (slice imm 18 16) (m - 1) (slice imm 3 0) })
        (linkAddr s))

end Sys2Proof.Machine
end

