-- ==== Sys2Proof/Machine/Convert.lean ====
section
/-! DEFINITION. Vector conversions and bit planes (R298 to R305). -/

namespace Sys2Proof.Machine

/-- The part k of R298. -/
def partOf (f : Fmt) : Nat := slice f.imm.toNat 10 8

/-- Convert lanes between widths (R298): lanes that no source lane gives keep their values. -/
def widen (f : Fmt) (s : State) (src : Ty) (g : Nat → Nat) : Act State := do
  let a ← srcLanes s src f.a f.imm
  let ls := src.lanes
  let ld := f.ty.lanes
  let k := partOf f
  let old := oldLanes s f.ty.laneWidth f.d
  let new (i : Nat) : Nat :=
    if ld ≤ ls then g (lane a (k * ld + i))
    else if k * ls ≤ i && i < k * ls + ls then g (lane a (i - k * ls)) else lane old i
  putLanes f s f.ty.laneWidth ((List.range ld).map new)

/-- The source type IMM[3:0]. -/
def immSource (f : Fmt) : Ty := Ty.ofCode (f.imm.toNat % 16)

/-- vcvt (R299). -/
def execVcvt (f : Fmt) (s : State) : Result :=
  settle (widen f s (immSource f) (convert (immSource f) f.ty (modeOf f.var.val) (satOf f.var.val)))

/-- vpod (R300). -/
def execVpod (f : Fmt) (s : State) : Result :=
  settle (widen f s (immSource f) (fun x => roundPod (modeOf f.var.val) (elemVal (immSource f) x)))

/-- vpodd (R300): every accepted destination holds the value exactly. -/
def execVpodd (f : Fmt) (s : State) : Result :=
  settle (widen f s .pod8 (fun x => deliver f.ty .rne false (elemVal .pod8 x)))

/-- Destination of vcvtp: its type, its element width, and whether it is I4 (R301). -/
def cvtpInt4 (f : Fmt) : Bool := f.imm.toNat / 16 % 2 == 1
def cvtpWidth (f : Fmt) : Nat := (cvtpBits f.imm.toNat).getD 8

/-- One element of vcvtp (R277, R301): from FP32 into 8 or 4 bits it is first rounded to BF16. -/
def cvtpElem (f : Fmt) (sb x : Nat) : Nat :=
  let dst := immSource f
  let md := modeOf f.var.val
  let v := elemVal f.ty x
  let v := if f.ty == .fp32 && cvtpWidth f != 16 then elemVal .bf16 (roundFloat (floatForm .bf16) .rne false v) else v
  let y := if sb = 0xFF then Val.nan else scaleVal v (127 - sb)
  if cvtpInt4 f then
    match y with
    | .nan => 0
    | .inf neg => if neg then 8 else 7
    | .fin n m e => wrapInt 4 (clampInt (-8) 7 (roundInt md n m e))
  else deliver dst md (satOf f.var.val) y

/-- vcvtp (R301): the guard counts source lanes, and every other element of D is unchanged. -/
def execVcvtp (f : Fmt) (s : State) : Result := settle do
  let a ← srcLanes s f.ty f.a f.imm
  let b ← src64 s f.b f.imm
  let sb := b.toNat % 256
  let w := cvtpWidth f
  let ls := f.ty.lanes
  let k := partOf f
  let old := oldLanes s w f.d
  let new (i : Nat) : Nat :=
    if k * ls ≤ i && i < k * ls + ls && laneOn s f (i - k * ls) then cvtpElem f sb (lane a (i - k * ls))
    else lane old i
  put512 f s (ofLanes w ((List.range (512 / w)).map new))

/-- One element moved from scale b_old to b_new (R276). -/
def requElem (f : Fmt) (old new x : Nat) : Nat :=
  let y := if old = 0xFF || new = 0xFF then Val.nan else scaleVal (elemVal f.ty x) ((old : Int) - new)
  deliver f.ty (modeOf f.var.val) (satOf f.var.val) y

/-- vrequ (R302): both nibbles of an E2M1 lane. -/
def execVrequ (f : Fmt) (s : State) : Result := settle do
  let a ← src512 s f.a
  let b ← src64 s f.b f.imm
  let el := (lanesOf f.ty.width a).map (requElem f (slice b.toNat 7 0) (slice b.toNat 15 8))
  putLanes f s f.ty.laneWidth (lanesOf f.ty.laneWidth (ofLanes f.ty.width el))

/-- One lane of vscacc (R269, R303). -/
def scaccElem (f : Fmt) (d sum sc : Nat) : Nat :=
  let ba := slice sc 7 0
  let bb := slice sc 15 8
  let p := if ba = 0xFF || bb = 0xFF then Val.nan else scaleVal (elemVal .i32 sum) ((ba : Int) + bb - 254)
  roundFloat (floatForm .fp32) (modeOf f.var.val) (satOf f.var.val)
    (addVal (modeOf f.var.val) (elemVal .fp32 d) p)

/-- vscacc (R303). -/
def execVscacc (f : Fmt) (s : State) : Result := settle do
  let a ← srcLanes s .i32 f.a f.imm
  let b ← srcLanes s .i32 f.b f.imm
  let d := oldLanes s 32 f.d
  putLanes f s 32 ((List.range 16).map (fun i => scaccElem f (lane d i) (lane a i) (lane b i)))

/-- The blocks of vbexp, a disabled lane counting as +0 (R304). -/
def bexpBlocks (f : Fmt) (s : State) (a : List Nat) : List (Nat × List Int) :=
  let n := 2 ^ f.imm.toNat
  let xs := (List.range 32).map (fun i => if laneOn s f i then lane a i else 0)
  (List.range (32 / n)).map (fun k => mantissaBlock f.ty 120 255 ((xs.drop (k * n)).take n))

/-- vbexp (R304). -/
def execVbexp (f : Fmt) (s : State) : Result := settle do
  let a ← srcLanes s f.ty f.a f.imm
  let bl := bexpBlocks f s a
  if f.var.val = 0 then putLanes f s 16 ((bl.map (fun b => b.2.map (wrapInt 16))).flatten)
  else put64 f s (BitVec.ofNat 64 (packLanes 8 (bl.map (·.1))))

/-- vplane (R305): bits of a disabled lane keep their values. -/
def execVplane (f : Fmt) (s : State) : Result := settle do
  let a ← srcLanes s f.ty f.a f.imm
  let l := f.ty.lanes
  let old := oldLanes s 1 f.d
  put512 f s (ofLanes 1 ((List.range 512).map (fun k =>
    if laneOn s f (k % l) then (bitOf (lane a (k % l)) (k / l)).toNat else lane old k)))

/-- vunpl (R305). -/
def execVunpl (f : Fmt) (s : State) : Result := settle do
  let a ← src512 s f.a
  let l := f.ty.lanes
  putLanes f s f.ty.laneWidth ((List.range l).map (fun i =>
    packLanes 1 ((List.range f.ty.width).map (fun p => (bitOf a.toNat (l * p + i)).toNat))))

end Sys2Proof.Machine
end

