-- ==== Sys2Proof/Machine/Float.lean ====
section
/-! DEFINITION. Scalar conversion and floating point (R242, R243). -/

namespace Sys2Proof.Machine

/-- The source type of cvt, IMM[3:0] (R242). A constant is taken at the source type. DEDUCED, assumption 15. -/
def cvtSource (f : Fmt) : Ty := Ty.ofCode (f.imm.toNat % 16)

/-- cvt (R242). -/
def execCvt (f : Fmt) (s : State) : Result :=
  scalarRun f s do
    let a ← srcAt s (cvtSource f) f.a
    put64 f s (extend f.ty (convert (cvtSource f) f.ty (modeOf f.var.val) (satOf f.var.val) a))

/-- A float instruction of two sources, its exact result rounded once. -/
def floatBinary (f : Fmt) (s : State) (op : Mode → Val → Val → Val) : Act State := do
  let a ← srcAt s f.ty f.a
  let b ← srcAt s f.ty f.b
  let md := modeOf f.var.val
  put64 f s (extend f.ty (roundFloat (floatForm f.ty) md (satOf f.var.val) (op md (elemVal f.ty a) (elemVal f.ty b))))

def execFadd (f : Fmt) (s : State) : Result := scalarRun f s (floatBinary f s addVal)
def execFmul (f : Fmt) (s : State) : Result := scalarRun f s (floatBinary f s (fun _ => mulVal))
/-- One rounding of a × b + d (R243). -/
def execFma (f : Fmt) (s : State) : Result :=
  scalarRun f s (floatBinary f s (fun md a b =>
    addVal md (mulVal a b) (elemVal f.ty (lowBits f.ty (xval s f.d)))))

end Sys2Proof.Machine
end

