-- ==== Sys2Proof/Machine/Integer.lean ====
section
/-! DEFINITION. Integer arithmetic and logic (R200, R233). -/

namespace Sys2Proof.Machine

/-- A two-operand integer instruction on the values of its operands, the exact result narrowed. -/
def intBinary (f : Fmt) (s : State) (sat : Bool) (op : Int → Int → Int) : Act State :=
  binary f s (fun a b => narrow f.ty sat (op (valueOf f.ty a) (valueOf f.ty b)))

/-- The quotient of R200 and R233. -/
def divide (t : Ty) (a b : Int) : Int := if b = 0 then (2 ^ t.width : Nat) - 1 else a.tdiv b

/-- The remainder of R200 and R233. -/
def remainder (a b : Int) : Int := if b = 0 then a else a - b * a.tdiv b

/-- Zero bits from the top of a w-bit value (R233). -/
def clz (w a : Nat) : Nat := if a = 0 then w else w - 1 - Nat.log2 a
/-- Zero bits from the bottom. -/
def ctz (w a : Nat) : Nat := ((List.range w).find? (fun i => bitOf a i)).getD w
def popc (w a : Nat) : Nat := ((List.range w).filter (fun i => bitOf a i)).length
/-- Bit i of the result is bit w − 1 − i of a. -/
def revBits (w a : Nat) : Nat := (List.range w).foldl (fun r i => 2 * r + (bitOf a i).toNat) 0

def bitsOp (w var a : Nat) : Nat :=
  match var with
  | 0 => clz w a
  | 1 => ctz w a
  | 2 => popc w a
  | _ => revBits w a

def execAdd (f : Fmt) (s : State) : Result :=
  scalarRun f s (intBinary f s (f.var.val == 8) (fun a b => a + b))
def execSub (f : Fmt) (s : State) : Result :=
  scalarRun f s (intBinary f s (f.var.val == 8) (fun a b => a - b))
def execMul (f : Fmt) (s : State) : Result :=
  scalarRun f s (intBinary f s false (fun a b => a * b))
/-- Bits 2w − 1 down to w of the exact product. -/
def execMulh (f : Fmt) (s : State) : Result :=
  scalarRun f s (intBinary f s false (fun a b => (a * b) / ((2 ^ f.ty.width : Nat) : Int)))
def execDiv (f : Fmt) (s : State) : Result :=
  scalarRun f s (intBinary f s false (divide f.ty))
def execRem (f : Fmt) (s : State) : Result :=
  scalarRun f s (intBinary f s false remainder)
def execAnd (f : Fmt) (s : State) : Result := scalarRun f s (binary f s (fun a b => a &&& b))
def execOr (f : Fmt) (s : State) : Result := scalarRun f s (binary f s (fun a b => a ||| b))
def execXor (f : Fmt) (s : State) : Result := scalarRun f s (binary f s (fun a b => a ^^^ b))
def execAndn (f : Fmt) (s : State) : Result :=
  scalarRun f s (binary f s (fun a b => a &&& (2 ^ f.ty.width - 1 - b)))
def execShl (f : Fmt) (s : State) : Result :=
  scalarRun f s (binary f s (fun a b => a * 2 ^ (b % f.ty.width) % 2 ^ f.ty.width))
def execShr (f : Fmt) (s : State) : Result :=
  scalarRun f s (binary f s (fun a b => a / 2 ^ (b % f.ty.width)))
/-- Arithmetic for either class (R233). -/
def execSra (f : Fmt) (s : State) : Result :=
  scalarRun f s (binary f s (fun a b =>
    wrapInt f.ty.width (toSigned f.ty.width a / ((2 ^ (b % f.ty.width) : Nat) : Int))))
def execMin (f : Fmt) (s : State) : Result :=
  scalarRun f s (intBinary f s false (fun a b => if a ≤ b then a else b))
def execMax (f : Fmt) (s : State) : Result :=
  scalarRun f s (intBinary f s false (fun a b => if a ≤ b then b else a))
def execBits (f : Fmt) (s : State) : Result :=
  scalarRun f s (unary f s (bitsOp f.ty.width f.var.val))

-- Compare, select, move and bit fields (R234 to R239).

/-- cmp (R234). -/
def execCmp (f : Fmt) (s : State) : Result :=
  scalarRun f s do
    let a ← src64 s f.a f.imm
    let b ← src64 s f.b f.imm
    let r := compareInt f.var.val (valueOf f.ty (lowBits f.ty a)) (valueOf f.ty (lowBits f.ty b))
    put64 f s (boolResult f.d r)

/-- sel (R235). -/
def execSel (f : Fmt) (s : State) : Result :=
  scalarRun f s do
    let a ← src64 s f.a f.imm
    let b ← src64 s f.b f.imm
    put64 f s (extend f.ty (lowBits f.ty (if selectBit s.me f.imm 0 then a else b)))

/-- mov (R236). -/
def execMov (f : Fmt) (s : State) : Result := scalarRun f s (unary f s id)

/-- movhi (R236). -/
def execMovhi (f : Fmt) (s : State) : Result :=
  scalarRun f s do
    let a ← (if f.a.isNone then .ok 0 else src64 s f.a f.imm)
    put64 f s (BitVec.ofNat 64 (a.toNat % 2 ^ 32 + f.imm.toNat * 2 ^ 32))

/-- The position and length of R237. -/
def fieldPos (f : Fmt) : Nat := f.imm.toNat % 64
def fieldLen (f : Fmt) : Nat := slice f.imm.toNat 13 8 + 1

/-- ext (R237). -/
def execExt (f : Fmt) (s : State) : Result :=
  scalarRun f s do
    let a ← src64 s f.a f.imm
    let v := slice a.toNat (fieldPos f + fieldLen f - 1) (fieldPos f)
    put64 f s (if f.ty.isSigned then BitVec.ofInt 64 (toSigned (fieldLen f) v) else BitVec.ofNat 64 v)

/-- ins (R237). -/
def execIns (f : Fmt) (s : State) : Result :=
  scalarRun f s do
    let a ← src64 s f.a f.imm
    let d := xval s f.d
    put64 f s (BitVec.ofNat 64 (setSlice d.toNat (fieldPos f + fieldLen f - 1) (fieldPos f) a.toNat))

/-- The predicate logic of R238. -/
def plogOp (var : Nat) (a b : W64) : W64 :=
  match var with
  | 0 => a &&& b
  | 1 => a ||| b
  | 2 => a ^^^ b
  | 3 => a &&& ~~~b
  | 4 => a ||| ~~~b
  | _ => ~~~a

/-- plog (R238). -/
def execPlog (f : Fmt) (s : State) : Result :=
  scalarRun f s do
    let a ← src64 s f.a f.imm
    let b ← src64 s f.b f.imm
    put64 f s (plogOp f.var.val a b)

/-- The address forms of R239. -/
def addrOp (var : Nat) (imm : W32) (a b : W64) : W64 :=
  match var with
  | 0 => a + (b <<< (imm.toNat % 8))
  | 1 => 0xFF80000200000000 + ((a &&& 0x3FF) <<< 20) + b
  | _ => 0xFF80000100000000 + b

/-- addr (R239). -/
def execAddr (f : Fmt) (s : State) : Result :=
  scalarRun f s do
    let a ← src64 s f.a f.imm
    let b ← src64 s f.b f.imm
    put64 f s (addrOp f.var.val f.imm a b)

end Sys2Proof.Machine
end

