-- ==== Sys2Proof/Machine/LoadStore.lean ====
section
/-! DEFINITION. Loads, stores and prefetches, scalar and vector (R244 to R246, R293 to R297). -/

namespace Sys2Proof.Machine

/-- The eager variant (R192). -/
def eagerVar (f : Fmt) : Bool := f.var.val == 1

-- Scalar loads and stores (R244, R245).

/-- A scalar load of n bytes at a checked target: a port or debug register gives its word (R34, R470). -/
def scalarLoad (s : State) (t : Target) (va : W64) (n : Nat) (eager : Bool) : Act (State × Nat) :=
  match t with
  | .port off => do
    let v ← portLoad s off va n
    .ok (s, v.toNat)
  | .debug m off => do
    let v ← debugLoad s m off va n
    .ok (s, v.toNat)
  | t => do
    let (s, bs) ← loadAt s t va n eager
    .ok (s, leNat bs)

def scalarStore (s : State) (t : Target) (va : W64) (n : Nat) (v : Nat) (eager : Bool) : Act State :=
  match t with
  | .port off => portStore s off va n (BitVec.ofNat 64 v)
  | .debug m off => debugStore s m off va n (BitVec.ofNat 64 v)
  | t => storeAt s t va (leBytes n v) eager

/-- ld (R244). DEDUCED, assumption 11. -/
def execLd (f : Fmt) (s : State) : Result :=
  scalarRun f s do
    let va := effAddr (xval s f.a) f.imm
    let n := f.ty.width / 8
    dstReady s f.d
    aligned s va n
    let t ← resolve s s.iAm .load va
    let (s, v) ← scalarLoad s t va n (eagerVar f)
    put64 f s (extend f.ty v)

/-- st (R244). -/
def execSt (f : Fmt) (s : State) : Result :=
  scalarRun f s do
    let va := effAddr (xval s f.a) f.imm
    let n := f.ty.width / 8
    let b ← src64 s f.b 0
    aligned s va n
    let t ← resolve s s.iAm .store va
    let s ← scalarStore s t va n (lowBits f.ty b) (eagerVar f)
    putNone f s

/-- ldp (R245). -/
def execLdp (f : Fmt) (s : State) : Result :=
  scalarRun f s do
    let va := effAddr (xval s f.a) f.imm
    aligned s va 16
    let t ← resolve s s.iAm .load va
    let (s, v) ← scalarLoad s t va 16 (eagerVar f)
    let s := s.modMe (fun h => h.lastUse f)
    let s ← dst64 s f.d (BitVec.ofNat 64 v)
    .ok (s.modMe (fun h => (h.wx (pairReg f.d) (BitVec.ofNat 64 (v / 2 ^ 64))).advance))

/-- stp (R245). -/
def execStp (f : Fmt) (s : State) : Result :=
  scalarRun f s do
    let va := effAddr (xval s f.a) f.imm
    let lo := (xval s f.b).toNat
    let hi := (s.me.rx (pairReg f.b)).toNat
    aligned s va 16
    let t ← resolve s s.iAm .store va
    let s ← scalarStore s t va 16 (lo + 2 ^ 64 * hi) (eagerVar f)
    putNone f s

-- Prefetches (R246).

/-- What a pref asks for: a line of a phase page of which the hart has none, through a leaf that the TLB holds, where a
way of its set can be freed; none where it is dropped. -/
def prefTarget (s : State) (va : W64) : Option (Nat × TlbEntry) :=
  match resolve s s.iAm .load va with
  | .ok (.mem dpa e) =>
    let line := dpa / 64
    let mine := (s.cset s.myCore line).any (fun c => c.is s.myCtx line none || c.is s.myCtx line (some s.mySlot)) ||
      s.me.spill.any (fun q => q.dpa == line * 64)
    match freeWay s s s.myCore line s.mySlot with
    | .ok _ => if eagerPath s false e || mine then none else some (line, e)
    | .error _ => none
  | _ => none

/-- pref: a Clean line is filled as a load miss would fill it; a miss of the TLB, a failed check or a fill that fails
drops it. -/
def execPref (f : Fmt) (s : State) : Result :=
  scalarRun f s (
    let va := effAddr (xval s f.a) f.imm
    match prefTarget s va with
    | none => putNone f s
    | some (line, e) =>
      match loadLine s line 0 e va with
      | .ok (t, _) => putNone f t
      | .error (.wait t) => hold t
      | .error (.fault _ _) => putNone f s)

/-- pref.row asks the port to open a row, which changes timing only. -/
def execPrefRow (f : Fmt) (s : State) : Result := scalarRun f s (putNone f s)

-- Vector accesses (R293 to R297).

/-- An enabled lane: its number, its address, and where it leads. -/
structure LaneAt where
  lane : Nat
  va : W64
  t : Target
  deriving DecidableEq, Repr

/-- A v register operand. -/
def isVreg (o : Operand) : Bool :=
  match o with
  | .v _ => true
  | _ => false

/-- Bytes of a lane. -/
def laneBytes (f : Fmt) : Nat := f.ty.laneWidth / 8

/-- The enabled lanes and their addresses, the offsets of all lanes given. -/
def laneVas (f : Fmt) (s : State) (offs : List Int) : List (Nat × W64) :=
  let base := effAddr (xval s f.a) f.imm
  ((indexed offs).filter (fun e => laneOn s f e.1)).map (fun e => (e.1, base + BitVec.ofInt 64 e.2))

/-- Offsets of consecutive lanes, of lanes at a stride, and of indexed lanes. -/
def unitOffs (f : Fmt) : List Int := (List.range f.ty.lanes).map (fun i => ((i * laneBytes f : Nat) : Int))
def strideOffs (f : Fmt) (step : W64) : List Int := (List.range f.ty.lanes).map (fun i => ((i : Nat) : Int) * step.toInt)
def indexOffs (f : Fmt) (idx : V512) : List Int := (lanesOf f.ty.width idx).map (fun x => toSigned f.ty.width x)

/-- A fault names its lane (R296). DEDUCED, assumption 44. -/
def namingLane {α : Type} (i : Nat) (r : Act α) : Act α :=
  match r with
  | .error (.fault s f) => .error (.fault s { f with auxb := i })
  | r => r

/-- A window register answers one aligned access of a whole v register, and a push register only a store (R34, R470). -/
def windowOpen (s : State) (a : Acc) (whole : Bool) (t : Target) : Bool :=
  match t with
  | .port off => whole && a == .store && pushSpot s (off / 64 * 64)
  | .debug _ _ => whole
  | _ => true

/-- The checks of R296 on one lane, before an instruction's first access: of an eager store what the peer says of its
frame among them (R42). -/
def checkLane (s : State) (a : Acc) (whole eager : Bool) (n : Nat) (va : W64) : Act (State × Target) := do
  aligned s va n
  let t ← resolve s s.iAm a va
  need (windowOpen s a whole t) s (accessFault causeWindow va)
  match t with
  | .mem dpa e =>
    if a == .store then do
      let s ← if eagerPath s eager e && s.me.groupsDone.isEmpty then
          match placeOf s dpa with
          | some p => refusedAs (storeAbsent s p va)
          | none => fail s (accessFault causeAbsent va)
        else .ok s
      need (!pteEnc e.pte) s (accessFault causeEncrypted va)
      .ok (s, t)
    else .ok (s, t)
  | _ => .ok (s, t)

/-- Every enabled lane is checked, in ascending order, before any is performed. DEDUCED, assumption 44. -/
def checkLanes (s : State) (a : Acc) (whole eager : Bool) (n : Nat) : List (Nat × W64) → Act (State × List LaneAt)
  | [] => .ok (s, [])
  | (i, va) :: rest => do
    let (s, t) ← namingLane i (checkLane s a whole eager n va)
    let (s, ts) ← checkLanes s a whole eager n rest
    .ok (s, { lane := i, va := va, t := t } :: ts)

/-- One aligned access of a whole v register: consecutive lanes, all enabled, from a 64-byte boundary. -/
def wholeReg (f : Fmt) (unit : Bool) (o : Operand) (vs : List (Nat × W64)) : Bool :=
  unit && isVreg o && vs.length == f.ty.lanes && (vs.headD (0, 1)).2.toNat % 64 == 0

/-- The accesses of an instruction: consecutive enabled lanes of one 64-byte word are one access (R293); with a stride
or indexes each lane is one (R294, R295). -/
def groupLanes (unit : Bool) : List LaneAt → List (List LaneAt)
  | [] => []
  | l :: rest =>
    match groupLanes unit rest with
    | (m :: ms) :: gs =>
      if unit && l.va.toNat / 64 == m.va.toNat / 64 then (l :: m :: ms) :: gs else [l] :: (m :: ms) :: gs
    | _ => [[l]]

/-- An access takes the interlocks of R156 on its own lanes; a wait's end drops Clean lines. -/
def groupLocks (s : State) (a : Acc) (n : Nat) : List LaneAt → Act State
  | [] => .ok (afterInterlock s)
  | l :: rest => do
    interlock s a l.va n
    groupLocks s a n rest

/-- A lane's offset in its 64-byte word. -/
def LaneAt.off (l : LaneAt) : Nat := l.va.toNat % 64

/-- The bytes of an access as a mask of its word. -/
def maskOf (n : Nat) (g : List LaneAt) : W64 := g.foldl (fun m l => m ||| (maskAll n <<< l.off)) 0

/-- The word of a scratchpad that an access of a vector load reads: the only access of its instruction as a scalar
load's, one of several by request and response (R125, R297). DESIGN CHOICE, assumption 19. -/
def spadWord (s : State) (core off : Nat) (alone : Bool) (va : W64) : Act (State × List Byte) :=
  if alone then spadLoad s core off 64 va
  else do
    waitFor (!slotFlying s core off) s
    let (s, q) ← trip s { kind := .read, agent := .hart s.cur, ctx := s.myCtx, place := .spad core off, size := 64, va := va }
    .ok (s, leBytes 64 q.data.toNat)

/-- The n bytes of a lane in its word. -/
def LaneAt.from_ (l : LaneAt) (n : Nat) (word : List Byte) : Nat × Nat := (l.lane, leNat ((word.drop l.off).take n))

/-- One access of a load: each lane's bytes. -/
def loadGroup (s : State) (n : Nat) (eager alone : Bool) (g : List LaneAt) : Act (State × List (Nat × Nat)) :=
  match g with
  | [] => .ok (s, [])
  | l :: _ =>
    namingLane l.lane do
      let s ← groupLocks s .load n g
      match l.t with
      | .spad core off => do
        let (s, bs) ← spadWord s core (off / 64 * 64) alone l.va
        .ok (s, g.map (·.from_ n bs))
      | .mem dpa e =>
        if eagerPath s eager e then do
          let (s, bs) ← eagerRead s (dpa / 64 * 64) 64 e l.va
          .ok (s, g.map (·.from_ n bs))
        else do
          let (s, d) ← loadLine s (dpa / 64) (maskOf n g) e l.va
          .ok (s, g.map (·.from_ n (leBytes 64 d.toNat)))
      | .debug m off => do
        let v ← debugLoadV s m off l.va
        .ok (s, g.map (·.from_ n (leBytes 64 v.toNat)))
      | .port _ => fail s (accessFault causeWindow l.va)

def loadGroups (s : State) (n : Nat) (eager alone : Bool) : List (List LaneAt) → Act (State × List (Nat × Nat))
  | [] => .ok (s, [])
  | g :: gs => do
    let (s, a) ← loadGroup s n eager alone g
    let (s, b) ← loadGroups s n eager alone gs
    .ok (s, a ++ b)

/-- A vector load (R296, R297): disabled lanes keep the register's, or are zero in a producer slot (R185). -/
def vectorLoad (f : Fmt) (s : State) (unit : Bool) (offs : List Int) : Act State := do
  dstReady s f.d
  let n := laneBytes f
  let vas := laneVas f s offs
  let (s, ls) ← checkLanes s .load (wholeReg f unit f.d vas) (eagerVar f) n vas
  let gs := groupLanes unit ls
  keepAnswers s do
    let (s, vs) ← loadGroups s n (eagerVar f) (gs.length == 1) gs
    let new := (List.range f.ty.lanes).map (fun i => ((vs.find? (fun v => v.1 == i)).map (·.2)).getD 0)
    putLanes f s f.ty.laneWidth new

/-- The word and mask an access of a store writes; of lanes that name the same bytes the last stands (R297). -/
def storeWord (n : Nat) (data : List Nat) (g : List LaneAt) : V512 :=
  g.foldl (fun d l => lineSet d l.off (bytesOf n (lane data l.lane))) 0

/-- An access takes the phase path. -/
def LaneAt.phase (s : State) (eager : Bool) (l : LaneAt) : Bool :=
  match l.t with
  | .mem _ e => !eagerPath s eager e
  | _ => false

/-- Phase lines are allocated before any byte is written (R296). -/
def allocGroups (s : State) : List (List LaneAt) → Act State
  | [] => .ok s
  | [] :: gs => allocGroups s gs
  | (l :: _) :: gs =>
    match l.t with
    | .mem dpa e => do
      let (s, c) ← namingLane l.lane (phaseLine s (dpa / 64) e l.va)
      allocGroups (s.setCset s.myCore (dpa / 64) (touch (s.cset s.myCore (dpa / 64)) c)) gs
    | _ => allocGroups s gs

/-- The bytes of a phase access enter the Phase line allocated for them, in the cache or, where a later line of the
instruction has spilled it, in the spill area (R120). -/
def phaseGroup (s : State) (n : Nat) (data : List Nat) (g : List LaneAt) : State :=
  match g with
  | [] => s
  | l :: _ =>
    match l.t with
    | .mem dpa e =>
      let line := dpa / 64
      let m := maskOf n g
      let d := storeWord n data g
      let put (c : CacheLine) : CacheLine := if c.is s.myCtx line (some s.mySlot) then c.stored d m l.va e else c
      let s := s.setCset s.myCore line ((s.cset s.myCore line).map put)
      s.modMe (fun h => { h with spill := h.spill.map (fun q => if q.dpa == line * 64 then q.stored d m l.va e else q) })
    | _ => s

/-- Where the word of an eager access to memory lies. -/
def LaneAt.wordPlace (s : State) (l : LaneAt) : Option Place :=
  match l.t with
  | .mem dpa _ => placeOf s (dpa / 64 * 64)
  | _ => none

/-- One access of a store, after its own interlocks (R156, R297): of a line whose Phase line is allocated, or at its
place. An INTEGRITY leaves the accesses performed before it performed (R296). -/
def storeGroup (s : State) (n : Nat) (data : List Nat) (eager : Bool) (g : List LaneAt) : Act State :=
  match g with
  | [] => .ok s
  | l :: _ =>
    let d := storeWord n data g
    let m := maskOf n g
    match l.t with
    | .port off => portPush s off l.va d
    | .debug k off => debugStoreV s k off l.va d
    | .spad core off => do
      let s ← groupLocks s .store n g
      waitFor (!slotFlying s core off) s
      .ok (s.post (.spad core (off / 64 * 64)) 64 m d l.va)
    | .mem _ e => do
      let s ← groupLocks s .store n g
      if l.phase s eager then .ok (phaseGroup s n data g)
      else
        match l.wordPlace s with
        | some p => do
          waitFor (!s.fabricWaits p) s
          let s ← namingLane l.lane (refusedAs (storeRefusal s p (if m = BitVec.allOnes 64 then 64 else 1) l.va))
          .ok (sendStore s { s.hartWrite p 64 m d l.va with leaf := some e })
        | none => .ok s

/-- The bank that an access of a store takes, or the line of one on the phase path: accesses to one are performed in
ascending lane order (R297). -/
def LaneAt.seat (s : State) (eager : Bool) (l : LaneAt) : Option (Nat × Nat) :=
  match l.t with
  | .mem dpa _ => if l.phase s eager then some (8, dpa / 64) else (l.wordPlace s).bind (bankAt s)
  | .spad core off => bankAt s (.spad core off)
  | .debug m off => some (9, m * 16 + off / 4096)
  | .port off => some (10, off)

/-- The accesses of a store from the k-th on, each on its own: those that an earlier issue of the instruction has performed
are not made again, and one that waits holds only those to its own bank (R297). -/
def storeGroups (s : State) (n : Nat) (data : List Nat) (eager : Bool) (held : List (Option (Nat × Nat))) :
    Nat → List (List LaneAt) → Act State
  | _, [] => if held.isEmpty then .ok s else hold s
  | k, g :: gs =>
    let seat := (g.head?).bind (fun l => l.seat s eager)
    if s.me.groupsDone.contains k then storeGroups s n data eager held (k + 1) gs
    else if held.contains seat then storeGroups s n data eager held (k + 1) gs
    else
      match storeGroup s n data eager g with
      | .ok s => storeGroups (s.modMe (fun h => { h with groupsDone := h.groupsDone ++ [k] })) n data eager held (k + 1) gs
      | .error (.wait s) => storeGroups s n data eager (held ++ [seat]) (k + 1) gs
      | .error (.fault s f) => fail s f

/-- A vector store (R296, R297): an instruction none of whose accesses is performed is checked, and its Phase lines are
allocated; then each access is performed on its own. DEDUCED, assumption 44. -/
def vectorStore (f : Fmt) (s : State) (unit : Bool) (offs : List Int) : Act State := do
  let data ← srcLanes s f.ty f.b f.imm
  let n := laneBytes f
  let eager := eagerVar f
  let vas := laneVas f s offs
  let (s, ls) ← checkLanes s .store (wholeReg f unit f.b vas) eager n vas
  let gs := groupLanes unit ls
  let s ← if s.me.groupsDone.isEmpty then
      keepAnswers s (allocGroups s (gs.filter (fun g => g.any (·.phase s eager))))
    else .ok s
  let s ← storeGroups s n data eager [] 0 gs
  putNone f s

/-- The index register of vldx and vstx. -/
def indexReg (s : State) (o : Operand) : V512 :=
  match o with
  | .v r => s.me.rv r
  | _ => 0

/-- vld (R293). -/
def execVld (f : Fmt) (s : State) : Result := settle (vectorLoad f s true (unitOffs f))
/-- vst (R293). -/
def execVst (f : Fmt) (s : State) : Result := settle (vectorStore f s true (unitOffs f))
/-- vldx (R295). -/
def execVldx (f : Fmt) (s : State) : Result := settle do
  let idx ← src512 s f.b
  vectorLoad f s false (indexOffs f idx)
/-- vstx (R295). -/
def execVstx (f : Fmt) (s : State) : Result := settle (vectorStore f s false (indexOffs f (indexReg s f.d)))
/-- vlds (R294). -/
def execVlds (f : Fmt) (s : State) : Result := settle do
  let st ← src64 s f.b f.imm
  vectorLoad f s false (strideOffs f st)
/-- vsts (R294). -/
def execVsts (f : Fmt) (s : State) : Result := settle (vectorStore f s false (strideOffs f (xval s f.d)))

end Sys2Proof.Machine
end

