-- ==== Sys2Proof/Machine/Steading.lean ====
section
/-! DEFINITION. The steading: boot, the presence map, management commands, keys, the trust domain, health (R381, R483,
R493 to R497, R504 to R513). -/

namespace Sys2Proof.Machine

-- Boot (R504, R505).

/-- A part with no present core whose own channel works fails step 3 (R80). -/
def memoryGood (s : State) : Bool := (List.range 1024).any (fun c => mayFoster s c)

/-- An encryptable fraction in thirty-seconds: the steading's choice among the four of R101. -/
def fractionOf (n : Nat) : Nat := if n < 7 then 0 else if n < 14 then 7 else if n < 28 then 14 else 28

/-- A boot step fails: the one before it was the last completed, and the mailboxes stay BUSY (R504). -/
def bootFails (s : State) (step : Nat) : State :=
  ({ s with bootStep := step - 1, recovering := false } : State).log (.bootFailed step)

/-- Steps 3 to 7 of the boot: the presence map, then the fractions, then the lanes of the ports, then the schedule image
are fixed; last every mailbox is ready and the steading says so. DESIGN CHOICE, assumption 29. -/
def bootOn (s : State) (b : BootInput) : State :=
  let off := (b.fusedOff ++ s.retired).eraseDups
  let s3 : State := { s with boot := { b with fusedOff := off, fracHbm := 0, fracTier := 0, lanes := [] } }
  let s4 : State := { s3 with boot := { b with
    fusedOff := off, fracHbm := fractionOf b.fracHbm, fracTier := fractionOf b.fracTier, lanes := [] } }
  let s5 : State := { s4 with boot := { s4.boot with lanes := b.lanes } }
  let s6 : State := { s5 with schedule := b.schedule }
  if !(b.trainOk && memoryGood s3) then bootFails s3 3
  else if b.fails = some 4 then bootFails s3 4
  else if b.fails = some 5 then bootFails s4 5
  else if b.fails = some 6 then bootFails s5 6
  else
    { s6 with
      bootStep := 7, recovering := false, reply := .ready
      slots := (List.range 64).map (fun k => (k, { s.slot k with busy := false })) }

/-- RESET (R504): the machine as it is after device reset, with the steading's image and the retired cores, which do not
live in the device's volatile state, and with the places of the model's own counters.
DESIGN CHOICE, assumption 29. -/
def execReset (b : BootInput) (s : State) : Result :=
  let t : State := { State.reset with
    turns := s.turns, auto := s.auto, ticks := s.ticks, draws := s.draws, retired := s.retired
    firmware := (s.nextFirmware.map Firmware.numbered).getD s.firmware }
  if b.imageOk then .next (bootOn t b)
  else .next ({ t with bootStep := 1, recovering := true }.log (.bootFailed 2))

/-- RECOVERY_DOORBELL (R505): an image that passes is written to NVMe, and the boot goes on from step 3.
DESIGN CHOICE, assumption 29. -/
def execRecoveryDoorbell (b : BootInput) (s : State) : Result :=
  if s.recovering && b.imageOk then .next (bootOn { s with firmware := .window s.recoveryWin } b) else .next s

-- The presence map (R506).

/-- A bit map of `n` bytes. -/
def bitBytes (n : Nat) (p : Nat → Bool) : List Byte :=
  (List.range n).map (fun i => BitVec.ofNat 8 ((List.range 8).foldl (fun a b => a + (p (8 * i + b)).toNat * 2 ^ b) 0))

/-- The presence map, from offset 0. -/
def presenceMap (s : State) : List Byte :=
  bitBytes 128 (present s) ++ bitBytes 128 (fun n => n < 1024 && !channelFailed s n) ++
    ((List.range 1024).map (fun c => leBytes 2 (homeOf s c))).flatten ++
    bitBytes 16 (fun n => (tierChannels s).contains n) ++ leBytes 8 (tierCapacity s) ++
    leBytes 4 (encHbm s / 2 ^ 20) ++ leBytes 4 (encTier s / 2 ^ 20) ++
    (List.range 36).map (fun p => BitVec.ofNat 8 (lanesOfPort s p)) ++ List.replicate 4 0 ++ leBytes 8 (2 ^ 24)

-- Management commands (R507 to R511).

def answer (s : State) (r : Reply) : State := { s with reply := r }

/-- READ_PRESENCE (R506). -/
def execReadPresence (s : State) : Result := .next (answer s (.presence (presenceMap s)))

/-- READ_METERS (R510, R511): all 13 meters at one instant. A final snapshot is read once, and then the meters are
zeroed, those of a slot that has been set up since having begun anew. -/
def execReadMeters (ctx : Nat) (s : State) : Result :=
  if ctx ≥ 64 then .next (answer s .invalid)
  else
    match s.snapshots.find? (fun e => e.1 == ctx) with
    | some e =>
      let s : State := { s with snapshots := Tab.drop s.snapshots ctx }
      let s := if (s.slot ctx).st == .free then zeroMeters s ctx else s
      .next (answer s (.meters ctx e.2 s.time))
    | none => .next (answer s (.meters ctx (meterList s ctx) s.time))

/-- WRITE_TRKCTL (R89). -/
def execWriteTrkctl (v : W64) (s : State) : Result :=
  let n := v.toNat
  .next (answer { s with trkctl := { thresh := slice n 31 16, epoch := slice n 7 4, en := bitOf n 0 } } .ok)

/-- The die whose HBM holds a local address. -/
def dieOfLocal (a : Nat) : Nat := if a < 2 ^ 40 then a / 2 ^ 37 else slice a 39 37

/-- A cluster has a frozen hart, of a context swapped out too. DEDUCED, assumption 26. -/
def clusterFrozen (s : State) (cluster : Nat) : Bool :=
  s.harts.any (fun k => k.2.frozen && clusterOf (coreOf (k.1 / 128)) == cluster)

/-- WRITE_TRAPBASE (R466, R507): a 64-byte-aligned DPA in the HBM of the cluster's die, while no hart of the cluster is
frozen. DEDUCED, assumption 26. -/
def execWriteTrapbase (cluster : Nat) (v : W64) (s : State) : Result :=
  if cluster ≥ 64 || !inHbm s v 64 || dieOfLocal (v.toNat % 2 ^ 46) != cluster / 8 then .next (answer s .invalid)
  else if clusterFrozen s cluster then .next (answer s .notReady)
  else
    let t := s.forsakeAll (.trap cluster) sysCtx
    .next (answer { t with trapBase := Tab.put s.trapBase cluster v, trapUnits := Tab.drop s.trapUnits cluster } .ok)

/-- WRITE_RESERVE (R401). -/
def execWriteReserve (hi lo : Nat) (s : State) : Result := .next (answer { s with hi := hi, lo := lo } .ok)

/-- READ_EVENTLOG (R507): the oldest entries. Reading them leaves the log as it is. DESIGN CHOICE, assumption 23. -/
def execReadEventlog (n : Nat) (s : State) : Result := .next (answer s (.eventLog (s.events.take n)))

/-- INSTALL_SCHEDULE (R483, R507): a signed image is installed at the next domain barrier, or at an idle point. -/
def execInstallSchedule (image : Nat) (signed : Bool) (s : State) : Result :=
  if signed then .next (answer (idleInstall { s with nextSchedule := some image }) .ok) else .next (answer s .invalid)

/-- SET_DEVIDX (R508). -/
def execSetDevidx (v : Option Nat) (s : State) : Result :=
  match v with
  | none => .next (answer s (.devidx s.devidx))
  | some d =>
    if d ≥ 576 then .next (answer s .invalid)
    else if s.slots.any (fun c => c.2.st == .active) || !s.domain.isEmpty then .next (answer s .notReady)
    else .next (answer { s with devidx := d } .ok)

/-- FIRMWARE_UPDATE (R507): the image takes effect at the next boot. What PLDM types 0 and 2 answer is a free value; any
other request is malformed. DESIGN CHOICE, assumption 23. -/
def execFirmwareUpdate (req : Pldm) (s : State) : Result :=
  match req with
  | .update image => .next (answer { s with nextFirmware := some image } .ok)
  | .typed t =>
    let (u, v) := s.draw
    if t = 0 || t = 2 then .next (answer u (.pldm t v)) else .next (answer s .invalid)
  | .malformed => .next (answer s .invalid)

/-- A ticket that is not in use, which one being a free choice (R509). -/
def newTicket (s : State) : State × Nat :=
  let (t, v) := s.draw
  let base := v.toNat % 65535
  (t, (((List.range 65).map (fun i => (base + i) % 65535 + 1)).find? (fun n => !s.tickets.any (fun k => k.1 == n))).getD 1)

/-- KEY_IMPORT (R509). -/
def execKeyImport (ctx : Nat) (key : BitVec 256) (s : State) : Result :=
  if ctx ≥ 64 || (s.slot ctx).st != .active || s.tickets.length ≥ 64 then .next (answer s .noImport)
  else
    let (s, n) := newTicket s
    .next (answer { s with tickets := Tab.put s.tickets n { ctx := ctx, key := key } } (.ticket n))

-- The trust domain (R493 to R497).

/-- DOMAIN_JOIN (R493, R508): sessions with the named devices are up, and they may enter at the next barrier. A join in
which two members report one index fails. -/
def execDomainJoin (members : List Nat) (ok : Bool) (s : State) : Result :=
  let all := s.devidx :: (s.domain ++ members)
  if ok && all.eraseDups.length == all.length && all.all (fun d => d < 576) then
    .next { s with joined := s.joined ++ members.filter (fun d => !s.joined.contains d) }
  else .next s

/-- Collectives with a rank that leaves the domain end with PEERFAIL (R497). DEDUCED, assumption 28. -/
def endLeaving (s : State) (members : List Nat) : State :=
  { s with colls := s.colls.map (fun c =>
      if !c.done && c.status == 0 && c.group.any (fun d => d != s.devidx && !members.contains d) then
        { c with status := 11 }
      else c) }

/-- An engine's access is the completion write of its job, whose release has not ended before it (R147, R158). -/
def completionOf (s : State) (ag : Agent) (ctx : Nat) (job : Option Nat) (p : Place) : Bool :=
  match ag.coreId, job with
  | some core, some id => ((((s.unit core ctx).job id).bind (·.cdest)).map (·.place)) == some p
  | _, _ => false

/-- Traffic with peers, collectives and releases are still in flight, of jobs too (R147, R497). -/
def fabricBusy (s : State) : Bool :=
  s.harts.any (fun k => k.2.inRel) || !s.outbox.isEmpty ||
    !s.colls.isEmpty || !s.gathers.isEmpty ||
    s.inFlight.any (fun r => r.kind == .flush || r.agent.isPeer || completionOf s r.agent r.ctx r.job r.place) ||
    (s.respNet ++ s.inbox).any (fun q => q.kind == .flush || q.agent.isPeer || completionOf s q.agent q.ctx q.job q.place)

/-- The devices of streams in which a number below one received, or below the final count that the sender gives, is
missing (R494, R497). DEDUCED, assumption 28. -/
def gapStreams (s : State) (finals : List (Nat × Nat)) : List Nat :=
  ((s.streams.filter (fun t => !t.2.got.isEmpty)).map (·.1) ++
    (finals.filter (fun c => decide ((Tab.get {} s.streams c.1).low < c.2))).map (·.1)).map (· / 128)

/-- DOMAIN_BARRIER (R382, R497): it begins, and new fabric requests wait; once traffic has drained, the membership
changes among the members and the devices that joined, the epoch grows, sequence numbers restart, refused streams are
cleared, an accepted schedule image is installed and the time base is aligned, never backward.
DEDUCED, assumption 28. -/
def execDomainBarrier (agreed : Agreed) (timeBase : Nat) (s : State) : Result :=
  let members := agreed.members
  if !members.all (fun d => s.domain.contains d || s.joined.contains d) || members.eraseDups.length != members.length ||
      members.contains s.devidx || s.barrier.getD members != members then .next s
  else
    let s : State := { endLeaving s members with barrier := some members }
    if fabricBusy s then .next s
    else
      let s := (gapStreams s agreed.finals).eraseDups.foldl (fun s d => s.log (.fabric d)) s
      .next { s with
        domain := members, joined := s.joined.filter (fun d => !members.contains d), epoch := (s.epoch + 1) % 2 ^ 32
        barrier := none, streams := [], sent := [], refused := [], gathers := []
        schedule := s.nextSchedule.getD s.schedule, nextSchedule := none
        time := Nat.max s.time timeBase }

-- Health (R512).

/-- HEALTH_MEASURE. -/
def execHealthMeasure (die margin : Nat) (s : State) : Result :=
  .next { s with margins := Tab.put s.margins die margin }

/-- Line 7 of each supervisor hart of a die is set. -/
def alertDie (s : State) (die : Nat) : State :=
  (List.range 32).foldl (fun s i => raiseIn s (4096 + 32 * die + i) sysCtx 7) s

/-- VOLTAGE_REPLAN: the supply moves within the die's ceiling, to a value of the steading's own; a die below its
margin's floor at the ceiling has its worst core, a free choice among those present, logged for retirement. -/
def execVoltageReplan (die : Nat) (s : State) : Result :=
  let top := Config.voltageCeiling die
  let (t, v) := s.draw
  let cs := ((List.range 128).map (fun l => die * 128 + l)).filter (fun c => present s c && !s.retired.contains c)
  if Tab.get 0 s.voltages die = top && Tab.get 0 s.margins die < Config.marginFloor die then
    match cs[v.toNat % cs.length]? with
    | some c => .next (alertDie ({ t with retired := t.retired ++ [c] }.log (.retire c)) die)
    | none => .next s
  else .next { t with voltages := Tab.put s.voltages die (v.toNat % (top + 1)) }

end Sys2Proof.Machine
end

