-- ==== Sys2Proof/Machine/Tasks.lean ====
section
/-! DEFINITION. The task instructions tspawn, tend, tyield, tdl and tlaunch (R372 to R377, R388). -/

namespace Sys2Proof.Machine

/-- CheckRecord of R373: 0, 1 RECORD, 2 FOREIGN, 3 GRAPH. -/
def checkRecord (s : State) (ctx : Nat) (r : V512) : Nat :=
  let l := s.launchFor (recGraph r) (recCtx r)
  if recBadForm r || ((l.map (fun l => recBadAffinity s l.mask r)).getD false) then 1
  else if recCtx r != ctx then 2
  else if l.isNone then 3
  else 0

/-- Count a record at a core and enqueue it there (R388, R400). -/
def enqueueCounted (s : State) (core : Nat) (r : V512) (l : Launch) : State :=
  let r := recSetOrigin r core
  enqueueAt (headlandAdd s (recGraph r) core) (queueFor l r core none) { record := r }

/-- tspawn (R373). -/
def execTspawn (f : Fmt) (s : State) : Result :=
  scalarRun f s do
    let r ← src512 s f.a
    let g := recGraph r
    match checkRecord s s.myCtx r, s.launchFor g s.myCtx with
    | 0, some l => do
      let s ← release s 4
      if queueFull s g l (queueFor l r s.myCore none) then put64 f s 4
      else put64 f (enqueueCounted s s.myCore r l) 0
    | st, _ => put64 f s (BitVec.ofNat 64 st)

/-- The slice the current hart runs; outside one, NOTASK (R372). -/
def mySlice (s : State) : Act Slice :=
  match s.me.slice with
  | some sl => .ok sl
  | none => fail s (illegal causeNotask)

/-- The continuation of a join block is enqueued, or dropped where it fails R386 (R388). -/
def enqueueContinuation (s : State) (r : V512) : State :=
  match checkRecord s s.myCtx r, s.launchFor (recGraph r) s.myCtx with
  | 0, some l => enqueueCounted s s.myCore r l
  | _, _ => dropRecord s r

/-- The count of a join block goes down by one, by request and response wherever it lies: its answer stays until the
tend ends. -/
def joinCount (s : State) (join : W64) : Act (State × Nat) :=
  if rmwIssued s then rmwAnswer s join .i64
  else do
    let t ← atomicTarget s join 8 false
    interlock s .atomic join 8
    match t with
    | .spad core off => do
      waitFor (!slotFlying s core off) s
      rmwTrip (afterInterlock s) (.spad core off) none join .add .i64 (2 ^ 64 - 1)
    | t => rmwAt s t join .add .i64 (2 ^ 64 - 1)

/-- The join step of a tend (R374, R388). -/
def joinStep (s : State) (join : W64) : Act State :=
  keepAnswers s do
    let (s1, old) ← joinCount s join
    let s1 := acquire s1
    if old = 1 then do
      let (s2, bs) ← loadBytes s1 (join + 64) 64 true
      .ok (enqueueContinuation s2 (v512 bs))
    else .ok s1

/-- tend (R374). DEDUCED, assumption 17. -/
def execTend (f : Fmt) (s : State) : Result :=
  scalarRun f s do
    let sl ← mySlice s
    let s ← if rmwIssued s then .ok s else release s 4
    let s ← if recJoin sl.record = 0 then .ok s else joinStep s (recJoin sl.record)
    let s := closeLoss (endRecord s s.myCore sl.record) sl.loss
    .ok (leaveSlice s s.cur s.myCtx)

/-- tyield (R375). -/
def execTyield (f : Fmt) (s : State) : Result :=
  scalarRun f s do
    let sl ← mySlice s
    let s ← release s 4
    let r := recSetDword (recSetDword sl.record 0 (s.me.pc + 12)) 3 s.me.deadline
    let r := if f.a.isNone then r else recSetDword r 1 (xval s f.a)
    let s := leaveSlice s s.cur s.myCtx
    match s.launch (recGraph r) with
    | none => .ok s
    | some l => .ok (enqueueAt s (queueFor l r s.myCore none) { record := r, loss := sl.loss })

/-- Later of R376, 0 meaning no deadline. -/
def later (x d0 : W64) : W64 := if x = 0 || (d0 != 0 && decide (d0.toNat ≤ x.toNat)) then x else d0

/-- tdl (R376). -/
def execTdl (f : Fmt) (s : State) : Result :=
  scalarRun f s do
    let sl ← mySlice s
    let old := s.me.deadline
    let t := s.modMe (fun h => { h with deadline := later (xval s f.a) sl.d0 })
    put64 f t old

/-- The four words of a launch packet, checked as the hart's access (R377). -/
def packetTargets (s : State) (va : W64) : Nat → Act (List Target)
  | 0 => .ok []
  | n + 1 => do
    let t ← resolve s s.iAm .load va
    match t with
    | .port _ => fail s (accessFault causeWindow va)
    | .debug _ _ => fail s (accessFault causeWindow va)
    | t => do
      let ts ← packetTargets s (va + 64) n
      .ok (t :: ts)

/-- The launch unit reads the packet where the hart's checks found it (R377, R390). -/
def readPacket (s : State) (va : W64) : List Target → Eng (State × List Byte)
  | [] => .ok (s, [])
  | t :: ts => do
    let (p, leaf) := match t with
      | .spad core off => (some (Place.spad core off), none)
      | .mem dpa e => (placeOf s dpa, some e)
      | _ => (none, none)
    let (s, bs) ← placeRead s (.hart s.cur) s.myCtx p leaf va 64
    let (s, rest) ← readPacket s (va + 64) ts
    .ok (s, bs ++ rest)

/-- The launch unit runs a hart's packet and answers. -/
def tlaunchRun (f : Fmt) (s : State) (va : W64) (ts : List Target) : Act State :=
  match launchRead (readPacket s va ts) with
  | .error (.wait t) => hold (retry s t)
  | .error (.refuse t code detail) => put64 f t (BitVec.ofNat 64 (detail % 256 * 2 ^ 8 + code))
  | .ok (t, bs) =>
    match runLaunch t (.hart s.cur) s.myCtx (isSup s.cur && s.me.modeS) (dwords bs 32) with
    | .ok (t, w) => put64 f t w
    | .error (.wait t) => hold (retry s t)
    | .error _ => hold s

/-- tlaunch (R377). -/
def execTlaunch (f : Fmt) (s : State) : Result :=
  scalarRun f s do
    let va := xval s f.a
    alignedIn false s va 64
    let ts ← packetTargets s va 4
    let s ← release s 4
    tlaunchRun f s va ts

end Sys2Proof.Machine
end

