-- ==== Sys2Proof/Machine/Vector.lean ====
section
/-! DEFINITION. Vector arithmetic, comparison, lane moves, reductions and scans (R281 to R292). The guard is a
lane mask; these instructions always issue (R185). -/

namespace Sys2Proof.Machine

def vmode (f : Fmt) : Mode := modeOf f.var.val
def vsat (f : Fmt) : Bool := satOf f.var.val

-- Elementwise (R281, R282).

def execVadd (f : Fmt) (s : State) : Result := settle (lanewise f s (addElem f.ty (vmode f) (vsat f)))
def execVsub (f : Fmt) (s : State) : Result := settle (lanewise f s (subElem f.ty (vmode f) (vsat f)))
def execVmul (f : Fmt) (s : State) : Result := settle (lanewise f s (mulElem f.ty (vmode f) (vsat f)))

/-- vfma and vfms: D is read and written. -/
def fmaLanes (f : Fmt) (s : State) (neg : Bool) : Act State := do
  let a ← srcLanes s f.ty f.a f.imm
  let b ← srcLanes s f.ty f.b f.imm
  let d := oldLanes s f.ty.laneWidth f.d
  let r := List.zipWith (fun p c => fmaElem f.ty (vmode f) (vsat f) neg p.1 p.2 c) (a.zip b) d
  putLanes f s f.ty.laneWidth r

def execVfma (f : Fmt) (s : State) : Result := settle (fmaLanes f s false)
def execVfms (f : Fmt) (s : State) : Result := settle (fmaLanes f s true)
def execVmin (f : Fmt) (s : State) : Result := settle (lanewise f s (minmaxElem f.ty false))
def execVmax (f : Fmt) (s : State) : Result := settle (lanewise f s (minmaxElem f.ty true))
def execVand (f : Fmt) (s : State) : Result := settle (lanewise f s (fun a b => a &&& b))
def execVor (f : Fmt) (s : State) : Result := settle (lanewise f s (fun a b => a ||| b))
def execVxor (f : Fmt) (s : State) : Result := settle (lanewise f s (fun a b => a ^^^ b))
def execVshl (f : Fmt) (s : State) : Result :=
  settle (lanewise f s (fun a b => a * 2 ^ (b % f.ty.width) % 2 ^ f.ty.width))
def execVshr (f : Fmt) (s : State) : Result :=
  settle (lanewise f s (fun a b => a / 2 ^ (b % f.ty.width)))
def execVsra (f : Fmt) (s : State) : Result :=
  settle (lanewise f s (fun a b =>
    wrapInt f.ty.width (toSigned f.ty.width a / ((2 ^ (b % f.ty.width) : Nat) : Int))))

/-- neg, abs and not of an element (R281). -/
def unaryElem (t : Ty) (var x : Nat) : Nat :=
  if var % 8 = 2 then 2 ^ t.width - 1 - x
  else if t.isFloat then
    (if (elemVal t x).isNan then nanCode (floatForm t)
     else if var % 8 = 0 then flipSign t x else x % signBit t)
  else
    let v := valueOf t x
    narrow t (satOf var) (if var % 8 = 0 then -v else if v < 0 then -v else v)

def execVun (f : Fmt) (s : State) : Result := settle (lanewise1 f s (unaryElem f.ty f.var.val))

-- Compare and select (R283, R284).

/-- vcmp: disabled lanes keep their bits, and bits at or beyond L are cleared. -/
def execVcmp (f : Fmt) (s : State) : Result := settle do
  let a ← srcLanes s f.ty f.a f.imm
  let b ← srcLanes s f.ty f.b f.imm
  let old := match f.d with
    | .p r => s.me.rp r
    | _ => 0
  let bit (i : Nat) : Nat :=
    if laneOn s f i then (compareElem f.ty f.var.val (lane a i) (lane b i)).toNat else (old.getLsbD i).toNat
  put64 f s (BitVec.ofNat 64 (packLanes 1 ((List.range f.ty.lanes).map bit)))

/-- vsel: a B written none gives zero. -/
def execVsel (f : Fmt) (s : State) : Result := settle do
  let a ← srcLanes s f.ty f.a f.imm
  let b ← (if f.b.isNone then .ok (List.replicate f.ty.lanes 0) else srcLanes s f.ty f.b f.imm)
  putLanes f s f.ty.laneWidth ((List.range f.ty.lanes).map (fun i =>
    if selectBit s.me f.imm i then lane a i else lane b i))

-- Moving lanes (R285 to R287).

def execVmov (f : Fmt) (s : State) : Result := settle (lanewise1 f s id)

/-- A lane index modulo L (R285). DEDUCED, assumption 14. -/
def laneIndex (f : Fmt) (s : State) : Act Nat := do
  let b ← src64 s f.b f.imm
  .ok (b.toNat % f.ty.lanes)

/-- Extend a lane to 64 bits (R226, R285). -/
def extendLane (t : Ty) (x : Nat) : W64 :=
  if t.isSigned then BitVec.ofInt 64 (toSigned t.laneWidth x) else BitVec.ofNat 64 x

/-- vext: the guard applies to the selected lane only. -/
def execVext (f : Fmt) (s : State) : Result := settle do
  let v ← src512 s f.a
  let i ← laneIndex f s
  if laneOn s f i then put64 f s (extendLane f.ty (lane (lanesOf f.ty.laneWidth v) i))
  else
    match f.d with
    | .q _ _ => put64 f s 0
    | _ => putNone f s

/-- vins: one lane of D takes the value, if it is enabled. -/
def execVins (f : Fmt) (s : State) : Result := settle do
  let a ← (match f.a with
    | .q h c => do
      let v ← queueRead s h c
      .ok (fillLane f.ty (dwordOf v 0).toNat)
    | o => do
      let l ← srcLanes s f.ty o f.imm
      .ok (lane l 0))
  let i ← laneIndex f s
  let d := oldLanes s f.ty.laneWidth f.d
  putLanes f s f.ty.laneWidth (d.set i a)

/-- vperm and vperm.z (R286). -/
def execVperm (f : Fmt) (s : State) : Result := settle do
  let a ← srcLanes s f.ty f.a f.imm
  let b ← srcLanes s f.ty f.b f.imm
  let l := f.ty.lanes
  putLanes f s f.ty.laneWidth (b.map (fun t => if f.var.val = 0 then lane a (t % l) else lane a t))

/-- vslide.up and vslide.down (R286): a B of none supplies zero lanes. -/
def execVslide (f : Fmt) (s : State) : Result := settle do
  let a ← srcLanes s f.ty f.a f.imm
  let b ← (if f.b.isNone then .ok (List.replicate f.ty.lanes 0) else srcLanes s f.ty f.b f.imm)
  let n := f.imm.toNat
  let l := f.ty.lanes
  putLanes f s f.ty.laneWidth ((List.range l).map (fun i =>
    if f.var.val = 0 then (if n ≤ i then lane a (i - n) else lane b (l - n + i))
    else if i + n < l then lane a (i + n) else lane b (i + n - l)))

/-- vzip (R286). -/
def execVzip (f : Fmt) (s : State) : Result := settle do
  let a ← srcLanes s f.ty f.a f.imm
  let b ← srcLanes s f.ty f.b f.imm
  let l := f.ty.lanes
  let h := if f.var.val = 0 then 0 else l / 2
  putLanes f s f.ty.laneWidth ((List.range l).map (fun i =>
    if i % 2 = 0 then lane a (h + i / 2) else lane b (h + i / 2)))

/-- vunzip (R286). -/
def execVunzip (f : Fmt) (s : State) : Result := settle do
  let a ← srcLanes s f.ty f.a f.imm
  let b ← srcLanes s f.ty f.b f.imm
  putLanes f s f.ty.laneWidth ((List.range f.ty.lanes).map (fun i => lane (a ++ b) (2 * i + f.var.val)))

/-- A predicate operand's 64 bits; all ones where it is absent is not used. -/
def predOf (s : State) (o : Operand) : W64 :=
  match o with
  | .p r => s.me.rp r
  | _ => 0

/-- vcompr (R287): the count runs over every set bit of the predicate. -/
def execVcompr (f : Fmt) (s : State) : Result := settle do
  let a ← srcLanes s f.ty f.a f.imm
  let p := predOf s f.b
  let t := ((List.range f.ty.lanes).filter (fun i => p.getLsbD i)).map (fun i => lane a i)
  putLanes f s f.ty.laneWidth ((List.range f.ty.lanes).map (fun j => lane t j))

/-- Set bits of a word below position i. -/
def popBelow (p : W64) (i : Nat) : Nat := ((List.range i).filter (fun k => p.getLsbD k)).length

/-- vexpnd (R287). -/
def execVexpnd (f : Fmt) (s : State) : Result := settle do
  let a ← srcLanes s f.ty f.a f.imm
  let p := predOf s f.b
  putLanes f s f.ty.laneWidth ((List.range f.ty.lanes).map (fun i =>
    if p.getLsbD i then lane a (popBelow p i) else 0))

/-- viota (R287): with A none lane i takes i. -/
def execViota (f : Fmt) (s : State) : Result := settle do
  let p := if f.a.isNone then BitVec.allOnes 64 else predOf s f.a
  putLanes f s f.ty.laneWidth ((List.range f.ty.lanes).map (fun i => popBelow p i))

/-- vpopc and vpopc.first (R287). -/
def execVpopc (f : Fmt) (s : State) : Result := settle do
  let p := predOf s f.a
  let on := (List.range f.ty.lanes).filter (fun i => p.getLsbD i && laneOn s f i)
  put64 f s (BitVec.ofNat 64 (if f.var.val = 0 then on.length else on.headD f.ty.lanes))

-- Reductions and scans (R288, R289).

/-- The operation of a node: IMM[2:0] 0 sum, 1 min, 2 max, 3 and, 4 or, 5 xor. -/
def nodeOp (f : Fmt) (a b : Nat) : Nat :=
  match f.imm.toNat % 8 with
  | 0 => addElem f.ty (vmode f) (vsat f) a b
  | 1 => minmaxElem f.ty false a b
  | 2 => minmaxElem f.ty true a b
  | 3 => a &&& b
  | 4 => a ||| b
  | _ => a ^^^ b

/-- The result when nothing is reduced (R288). -/
def nodeIdentity (f : Fmt) : Nat :=
  let t := f.ty
  let φ := floatForm t
  match f.imm.toNat % 8 with
  | 1 => if t.isFloat then φ.maxCode + 1 else wrapInt t.width (tyMax t)
  | 2 => if t.isFloat then signed φ true (φ.maxCode + 1) else wrapInt t.width (tyMin t)
  | 3 => 2 ^ t.width - 1
  | _ => 0

/-- The enabled lanes of A; the others are absent. -/
def presentLanes (f : Fmt) (s : State) : Act (List (Option Nat)) := do
  let a ← srcLanes s f.ty f.a f.imm
  .ok ((List.range f.ty.lanes).map (fun i => if laneOn s f i then some (lane a i) else none))

/-- vred (R288): a sum adds its start value to the root, or to +0. -/
def execVred (f : Fmt) (s : State) : Result := settle do
  let l ← presentLanes f s
  let root := treeRoot (nodeOp f) l
  if f.b.isNone then put64 f s (extend f.ty (canon f.ty (root.getD (nodeIdentity f))))
  else do
    let b ← src64 s f.b f.imm
    let x := lowBits f.ty b
    let r := match root with
      | some y => nodeOp f y x
      | none => if f.imm.toNat % 8 = 0 then nodeOp f 0 x else x
    put64 f s (extend f.ty (canon f.ty r))

/-- vscan (R289). -/
def execVscan (f : Fmt) (s : State) : Result := settle do
  let l ← presentLanes f s
  let lv := treeLevels (nodeOp f) l (Nat.log2 l.length)
  putLanes f s f.ty.laneWidth ((List.range f.ty.lanes).map (fun i =>
    canon f.ty ((treePrefix (nodeOp f) lv i).getD 0)))

-- Dot products, lookup and clipping (R290 to R292).

/-- Source lanes for one 32-bit lane of vdot. -/
def dotWays (t : Ty) : Nat := 32 / t.width

/-- One lane of vdot over the enabled source lanes (R290). -/
def dotLane (f : Fmt) (on : Nat → Bool) (a b : List Nat) (d j : Nat) : Nat :=
  let n := dotWays f.ty
  let ks := (List.range n).map (fun t => n * j + t)
  if !ks.any on then d
  else if f.ty.isFloat then
    let sum := ks.foldl (fun acc k =>
      addVal (vmode f) acc
        (if on k then mulVal (elemVal f.ty (lane a k)) (elemVal f.ty (lane b k)) else .fin false 0 0))
      (elemVal .fp32 d)
    roundFloat (floatForm .fp32) (vmode f) (vsat f) sum
  else
    let t32 : Ty := if f.ty.isSigned then .i32 else .n32
    let sum := ks.foldl (fun (acc : Int) k =>
      acc + (if on k then valueOf f.ty (lane a k) * valueOf f.ty (lane b k) else 0)) (valueOf t32 d)
    narrow t32 (vsat f) sum

/-- vdot (R290): the guard counts source lanes. -/
def execVdot (f : Fmt) (s : State) : Result := settle do
  let a ← srcLanes s f.ty f.a f.imm
  let b ← srcLanes s f.ty f.b f.imm
  let d := oldLanes s 32 f.d
  put512 f s (ofLanes 32 ((List.range 16).map (fun j => dotLane f (laneOn s f) a b (lane d j) j)))

/-- vlut (R291). -/
def execVlut (f : Fmt) (s : State) : Result := settle do
  let a ← src512 s f.a
  let b ← srcLanes s f.ty f.b f.imm
  putLanes f s f.ty.laneWidth ((List.range f.ty.lanes).map (fun i => lane b (slice a.toNat (4 * i + 3) (4 * i))))

/-- Clamp of an element (R292). -/
def clipElem (t : Ty) (a b : Nat) : Nat :=
  if t.isFloat then
    let x := elemVal t a
    let y := elemVal t (b % signBit t)
    if x.isNan || (elemVal t b).isNan then nanCode (floatForm t)
    else if compareVal y x < 0 then b % signBit t
    else if compareVal x (negVal y) < 0 then b % signBit t + signBit t
    else a
  else if t.isSigned then
    let c := min ((valueOf t b).natAbs : Int) (tyMax t)
    wrapInt t.width (clampInt (-c) c (valueOf t a))
  else Nat.min a b

/-- vclip (R292). -/
def execVclip (f : Fmt) (s : State) : Result := settle (lanewise f s (clipElem f.ty))

end Sys2Proof.Machine
end

