-- ==== Sys2Proof/Machine/Dispatch.lean ====
section
/-! DEFINITION. The one map from instructions and events to their meanings. -/

namespace Sys2Proof.Machine

def exec (i : Instr) (s : State) : Host.Outcome State Fault Refusal :=
  match i with
  | .nop f => Sys2Proof.Machine.execNop f s
  | .brk f => Sys2Proof.Machine.execBrk f s
  | .j f => Sys2Proof.Machine.execJ f s
  | .jal f => Sys2Proof.Machine.execJal f s
  | .jr f => Sys2Proof.Machine.execJr f s
  | .call f => Sys2Proof.Machine.execCall f s
  | .ret f => Sys2Proof.Machine.execRet f s
  | .loop f => Sys2Proof.Machine.execLoop f s
  | .rep f => Sys2Proof.Machine.execRep f s
  | .add f => Sys2Proof.Machine.execAdd f s
  | .sub f => Sys2Proof.Machine.execSub f s
  | .mul f => Sys2Proof.Machine.execMul f s
  | .mulh f => Sys2Proof.Machine.execMulh f s
  | .div f => Sys2Proof.Machine.execDiv f s
  | .rem f => Sys2Proof.Machine.execRem f s
  | .and f => Sys2Proof.Machine.execAnd f s
  | .or f => Sys2Proof.Machine.execOr f s
  | .xor f => Sys2Proof.Machine.execXor f s
  | .andn f => Sys2Proof.Machine.execAndn f s
  | .shl f => Sys2Proof.Machine.execShl f s
  | .shr f => Sys2Proof.Machine.execShr f s
  | .sra f => Sys2Proof.Machine.execSra f s
  | .min f => Sys2Proof.Machine.execMin f s
  | .max f => Sys2Proof.Machine.execMax f s
  | .bits f => Sys2Proof.Machine.execBits f s
  | .cmp f => Sys2Proof.Machine.execCmp f s
  | .sel f => Sys2Proof.Machine.execSel f s
  | .mov f => Sys2Proof.Machine.execMov f s
  | .movhi f => Sys2Proof.Machine.execMovhi f s
  | .ext f => Sys2Proof.Machine.execExt f s
  | .ins f => Sys2Proof.Machine.execIns f s
  | .plog f => Sys2Proof.Machine.execPlog f s
  | .addr f => Sys2Proof.Machine.execAddr f s
  | .csrr f => Sys2Proof.Machine.execCsrr f s
  | .csrw f => Sys2Proof.Machine.execCsrw f s
  | .csrs f => Sys2Proof.Machine.execCsrs f s
  | .csrc f => Sys2Proof.Machine.execCsrc f s
  | .cvt f => Sys2Proof.Machine.execCvt f s
  | .fadd f => Sys2Proof.Machine.execFadd f s
  | .fmul f => Sys2Proof.Machine.execFmul f s
  | .fma f => Sys2Proof.Machine.execFma f s
  | .ld f => Sys2Proof.Machine.execLd f s
  | .st f => Sys2Proof.Machine.execSt f s
  | .ldp f => Sys2Proof.Machine.execLdp f s
  | .stp f => Sys2Proof.Machine.execStp f s
  | .pref f => Sys2Proof.Machine.execPref f s
  | .prefRow f => Sys2Proof.Machine.execPrefRow f s
  | .amo f => Sys2Proof.Machine.execAmo f s
  | .cas f => Sys2Proof.Machine.execCas f s
  | .amored f => Sys2Proof.Machine.execAmored f s
  | .waitw f => Sys2Proof.Machine.execWaitw f s
  | .phase f => Sys2Proof.Machine.execPhase f s
  | .rel f => Sys2Proof.Machine.execRel f s
  | .acq f => Sys2Proof.Machine.execAcq f s
  | .fenceSc f => Sys2Proof.Machine.execFenceSc f s
  | .fenceIo f => Sys2Proof.Machine.execFenceIo f s
  | .cinvLine f => Sys2Proof.Machine.execCinvLine f s
  | .cinvAll f => Sys2Proof.Machine.execCinvAll f s
  | .qpush f => Sys2Proof.Machine.execQpush f s
  | .qpop f => Sys2Proof.Machine.execQpop f s
  | .qadv f => Sys2Proof.Machine.execQadv f s
  | .qprod f => Sys2Proof.Machine.execQprod f s
  | .qwaitFill f => Sys2Proof.Machine.execQwaitFill f s
  | .qwaitRoom f => Sys2Proof.Machine.execQwaitRoom f s
  | .qfree f => Sys2Proof.Machine.execQfree f s
  | .qbind f => Sys2Proof.Machine.execQbind f s
  | .qstat f => Sys2Proof.Machine.execQstat f s
  | .qstatHead f => Sys2Proof.Machine.execQstatHead f s
  | .qstatTail f => Sys2Proof.Machine.execQstatTail f s
  | .tour f => Sys2Proof.Machine.execTour f s
  | .tourBind f => Sys2Proof.Machine.execTourBind f s
  | .trel f => Sys2Proof.Machine.execTrel f s
  | .trelEnd f => Sys2Proof.Machine.execTrelEnd f s
  | .tstat f => Sys2Proof.Machine.execTstat f s
  | .tstatHead f => Sys2Proof.Machine.execTstatHead f s
  | .splprepOpen f => Sys2Proof.Machine.execSplprepOpen f s
  | .splprepStage f => Sys2Proof.Machine.execSplprepStage f s
  | .splprepBind f => Sys2Proof.Machine.execSplprepBind f s
  | .splprepDrop f => Sys2Proof.Machine.execSplprepDrop f s
  | .splinj f => Sys2Proof.Machine.execSplinj f s
  | .splstat f => Sys2Proof.Machine.execSplstat f s
  | .splstatTake f => Sys2Proof.Machine.execSplstatTake f s
  | .splstatInh f => Sys2Proof.Machine.execSplstatInh f s
  | .rngset f => Sys2Proof.Machine.execRngset f s
  | .rngget f => Sys2Proof.Machine.execRngget f s
  | .rnggetLeft f => Sys2Proof.Machine.execRnggetLeft f s
  | .vadd f => Sys2Proof.Machine.execVadd f s
  | .vsub f => Sys2Proof.Machine.execVsub f s
  | .vmul f => Sys2Proof.Machine.execVmul f s
  | .vfma f => Sys2Proof.Machine.execVfma f s
  | .vfms f => Sys2Proof.Machine.execVfms f s
  | .vmin f => Sys2Proof.Machine.execVmin f s
  | .vmax f => Sys2Proof.Machine.execVmax f s
  | .vand f => Sys2Proof.Machine.execVand f s
  | .vor f => Sys2Proof.Machine.execVor f s
  | .vxor f => Sys2Proof.Machine.execVxor f s
  | .vshl f => Sys2Proof.Machine.execVshl f s
  | .vshr f => Sys2Proof.Machine.execVshr f s
  | .vsra f => Sys2Proof.Machine.execVsra f s
  | .vcmp f => Sys2Proof.Machine.execVcmp f s
  | .vsel f => Sys2Proof.Machine.execVsel f s
  | .vun f => Sys2Proof.Machine.execVun f s
  | .vmov f => Sys2Proof.Machine.execVmov f s
  | .vext f => Sys2Proof.Machine.execVext f s
  | .vins f => Sys2Proof.Machine.execVins f s
  | .vperm f => Sys2Proof.Machine.execVperm f s
  | .vslide f => Sys2Proof.Machine.execVslide f s
  | .vred f => Sys2Proof.Machine.execVred f s
  | .vscan f => Sys2Proof.Machine.execVscan f s
  | .vpopc f => Sys2Proof.Machine.execVpopc f s
  | .vcompr f => Sys2Proof.Machine.execVcompr f s
  | .vexpnd f => Sys2Proof.Machine.execVexpnd f s
  | .vzip f => Sys2Proof.Machine.execVzip f s
  | .vunzip f => Sys2Proof.Machine.execVunzip f s
  | .viota f => Sys2Proof.Machine.execViota f s
  | .vld f => Sys2Proof.Machine.execVld f s
  | .vst f => Sys2Proof.Machine.execVst f s
  | .vldx f => Sys2Proof.Machine.execVldx f s
  | .vstx f => Sys2Proof.Machine.execVstx f s
  | .vlds f => Sys2Proof.Machine.execVlds f s
  | .vsts f => Sys2Proof.Machine.execVsts f s
  | .vcvt f => Sys2Proof.Machine.execVcvt f s
  | .vcvtp f => Sys2Proof.Machine.execVcvtp f s
  | .vrequ f => Sys2Proof.Machine.execVrequ f s
  | .vscacc f => Sys2Proof.Machine.execVscacc f s
  | .vbexp f => Sys2Proof.Machine.execVbexp f s
  | .vclip f => Sys2Proof.Machine.execVclip f s
  | .vpod f => Sys2Proof.Machine.execVpod f s
  | .vpodd f => Sys2Proof.Machine.execVpodd f s
  | .vdot f => Sys2Proof.Machine.execVdot f s
  | .vlut f => Sys2Proof.Machine.execVlut f s
  | .vplane f => Sys2Proof.Machine.execVplane f s
  | .vunpl f => Sys2Proof.Machine.execVunpl f s
  | .mxq f => Sys2Proof.Machine.execMxq f s
  | .mxwm f => Sys2Proof.Machine.execMxwm f s
  | .mxwmWait f => Sys2Proof.Machine.execMxwmWait f s
  | .mxrd f => Sys2Proof.Machine.execMxrd f s
  | .mxwr f => Sys2Proof.Machine.execMxwr f s
  | .mxcont f => Sys2Proof.Machine.execMxcont f s
  | .mxstat f => Sys2Proof.Machine.execMxstat f s
  | .mxstatSticky f => Sys2Proof.Machine.execMxstatSticky f s
  | .cpq f => Sys2Proof.Machine.execCpq f s
  | .cpchn f => Sys2Proof.Machine.execCpchn f s
  | .cpwm f => Sys2Proof.Machine.execCpwm f s
  | .cpstat f => Sys2Proof.Machine.execCpstat f s
  | .cpstatLog f => Sys2Proof.Machine.execCpstatLog f s
  | .exq f => Sys2Proof.Machine.execExq f s
  | .hstart f => Sys2Proof.Machine.execHstart f s
  | .hstat f => Sys2Proof.Machine.execHstat f s
  | .hstatH f => Sys2Proof.Machine.execHstatH f s
  | .hloadCode f => Sys2Proof.Machine.execHloadCode f s
  | .hloadTmpl f => Sys2Proof.Machine.execHloadTmpl f s
  | .kvmap f => Sys2Proof.Machine.execKvmap f s
  | .kvmapApp f => Sys2Proof.Machine.execKvmapApp f s
  | .kvmapWr f => Sys2Proof.Machine.execKvmapWr f s
  | .kvswapFork f => Sys2Proof.Machine.execKvswapFork f s
  | .kvswapAccept f => Sys2Proof.Machine.execKvswapAccept f s
  | .kvswapReject f => Sys2Proof.Machine.execKvswapReject f s
  | .kvtrunc f => Sys2Proof.Machine.execKvtrunc f s
  | .kvwin f => Sys2Proof.Machine.execKvwin f s
  | .stframe f => Sys2Proof.Machine.execStframe f s
  | .stadvGen f => Sys2Proof.Machine.execStadvGen f s
  | .stadvPlay f => Sys2Proof.Machine.execStadvPlay f s
  | .coll f => Sys2Proof.Machine.execColl f s
  | .cstat f => Sys2Proof.Machine.execCstat f s
  | .cstatClr f => Sys2Proof.Machine.execCstatClr f s
  | .tspawn f => Sys2Proof.Machine.execTspawn f s
  | .tend f => Sys2Proof.Machine.execTend f s
  | .tyield f => Sys2Proof.Machine.execTyield f s
  | .tdl f => Sys2Proof.Machine.execTdl f s
  | .tlaunch f => Sys2Proof.Machine.execTlaunch f s
  | .ecall f => Sys2Proof.Machine.execEcall f s
  | .eret f => Sys2Proof.Machine.execEret f s
  | .wfi f => Sys2Proof.Machine.execWfi f s
  | .mtrd f => Sys2Proof.Machine.execMtrd f s
  | .tlbinvPage f => Sys2Proof.Machine.execTlbinvPage f s
  | .tlbinvCtx f => Sys2Proof.Machine.execTlbinvCtx f s
  | .tlbinvAll f => Sys2Proof.Machine.execTlbinvAll f s
  | .keyld f => Sys2Proof.Machine.execKeyld f s
  | .keyldClear f => Sys2Proof.Machine.execKeyldClear f s
  | .rdtime f => Sys2Proof.Machine.execRdtime f s
  | .ctxsw f => Sys2Proof.Machine.execCtxsw f s
  | .ctxswStat f => Sys2Proof.Machine.execCtxswStat f s
  | .reset boot => Sys2Proof.Machine.execReset boot s
  | .recoveryDoorbell boot => Sys2Proof.Machine.execRecoveryDoorbell boot s
  | .doorbell slot => Sys2Proof.Machine.execDoorbell slot s
  | .mstatusClear slot v => Sys2Proof.Machine.execMstatusClear slot v s
  | .setup slot => Sys2Proof.Machine.execSetup slot s
  | .teardown slot => Sys2Proof.Machine.execTeardown slot s
  | .sysgo v => Sys2Proof.Machine.execSysgo v s
  | .registerWrite r v => Sys2Proof.Machine.execRegisterWrite r v s
  | .mxpush card => Sys2Proof.Machine.execMxpush card s
  | .cppush ch rec => Sys2Proof.Machine.execCppush ch rec s
  | .expush card => Sys2Proof.Machine.execExpush card s
  | .hstartRegister w => Sys2Proof.Machine.execHstartRegister w s
  | .cphead ch v => Sys2Proof.Machine.execCphead ch v s
  | .debugWindowWrite member off v => Sys2Proof.Machine.execDebugWindowWrite member off v s
  | .hcmdResume core slot ctx => Sys2Proof.Machine.execHcmdResume core slot ctx s
  | .hcmdKill core slot ctx => Sys2Proof.Machine.execHcmdKill core slot ctx s
  | .mxcmdResume core ctx => Sys2Proof.Machine.execMxcmdResume core ctx s
  | .mxcmdKill core ctx => Sys2Proof.Machine.execMxcmdKill core ctx s
  | .cpcmdResume core ch ctx => Sys2Proof.Machine.execCpcmdResume core ch ctx s
  | .cpcmdKill core ch ctx => Sys2Proof.Machine.execCpcmdKill core ch ctx s
  | .hrcmdResume core ctx => Sys2Proof.Machine.execHrcmdResume core ctx s
  | .hrcmdKill core ctx => Sys2Proof.Machine.execHrcmdKill core ctx s
  | .tourcmdResume core tour ctx => Sys2Proof.Machine.execTourcmdResume core tour ctx s
  | .tourcmdKill core tour ctx => Sys2Proof.Machine.execTourcmdKill core tour ctx s
  | .readMeters ctx => Sys2Proof.Machine.execReadMeters ctx s
  | .readPresence => Sys2Proof.Machine.execReadPresence s
  | .writeTrkctl v => Sys2Proof.Machine.execWriteTrkctl v s
  | .writeTrapbase cluster v => Sys2Proof.Machine.execWriteTrapbase cluster v s
  | .writeReserve hi lo => Sys2Proof.Machine.execWriteReserve hi lo s
  | .readEventlog n => Sys2Proof.Machine.execReadEventlog n s
  | .raiseMgmt hart => Sys2Proof.Machine.execRaiseMgmt hart s
  | .installSchedule image signed => Sys2Proof.Machine.execInstallSchedule image signed s
  | .setDevidx v => Sys2Proof.Machine.execSetDevidx v s
  | .firmwareUpdate req => Sys2Proof.Machine.execFirmwareUpdate req s
  | .keyImport ctx key => Sys2Proof.Machine.execKeyImport ctx key s
  | .domainJoin members ok => Sys2Proof.Machine.execDomainJoin members ok s
  | .domainBarrier agreed timeBase => Sys2Proof.Machine.execDomainBarrier agreed timeBase s
  | .interruptEntry hart => Sys2Proof.Machine.execInterruptEntry hart s
  | .timerMatch hart => Sys2Proof.Machine.execTimerMatch hart s
  | .issueQuantumSwitch core => Sys2Proof.Machine.execIssueQuantumSwitch core s
  | .deadPowerDown hart => Sys2Proof.Machine.execDeadPowerDown hart s
  | .budgetExpiry hart => Sys2Proof.Machine.execBudgetExpiry hart s
  | .waitwWake hart => Sys2Proof.Machine.execWaitwWake hart s
  | .waitwPoll hart => Sys2Proof.Machine.execWaitwPoll hart s
  | .swapExchange core => Sys2Proof.Machine.execSwapExchange core s
  | .thresherTransfer core => Sys2Proof.Machine.execThresherTransfer core s
  | .launchUnitProcess slot => Sys2Proof.Machine.execLaunchUnitProcess slot s
  | .taskDispatch hart => Sys2Proof.Machine.execTaskDispatch hart s
  | .migrateAbandon hart ctx => Sys2Proof.Machine.execMigrateAbandon hart ctx s
  | .endNotice n => Sys2Proof.Machine.execEndNotice n s
  | .endNoticeAck n => Sys2Proof.Machine.execEndNoticeAck n s
  | .graphEnd g => Sys2Proof.Machine.execGraphEnd g s
  | .reserveAdjust die ctx => Sys2Proof.Machine.execReserveAdjust die ctx s
  | .pageWalk n => Sys2Proof.Machine.execPageWalk n s
  | .read n => Sys2Proof.Machine.execRead n s
  | .write n => Sys2Proof.Machine.execWrite n s
  | .atomic n => Sys2Proof.Machine.execAtomic n s
  | .flush n => Sys2Proof.Machine.execFlush n s
  | .scratch n => Sys2Proof.Machine.execScratch n s
  | .readData n => Sys2Proof.Machine.execReadData n s
  | .writeAck n => Sys2Proof.Machine.execWriteAck n s
  | .atomicData n => Sys2Proof.Machine.execAtomicData n s
  | .columnCommand bank n => Sys2Proof.Machine.execColumnCommand bank n s
  | .tidleExpiry bank => Sys2Proof.Machine.execTidleExpiry bank s
  | .refresh bank => Sys2Proof.Machine.execRefresh bank s
  | .marker src ctx hart rel total sent => Sys2Proof.Machine.execMarker src ctx hart rel total sent s
  | .flushAck dev rel => Sys2Proof.Machine.execFlushAck dev rel s
  | .fabricPacketReceive pkt => Sys2Proof.Machine.execFabricPacketReceive pkt s
  | .trackerEpochEnd io => Sys2Proof.Machine.execTrackerEpochEnd io s
  | .hotPageSelect io n => Sys2Proof.Machine.execHotPageSelect io n s
  | .promotionStart => Sys2Proof.Machine.execPromotionStart s
  | .promotionComplete n => Sys2Proof.Machine.execPromotionComplete n s
  | .promotionAbandon n => Sys2Proof.Machine.execPromotionAbandon n s
  | .zero core => Sys2Proof.Machine.execZero core s
  | .loadb core => Sys2Proof.Machine.execLoadb core s
  | .runa core => Sys2Proof.Machine.execRuna core s
  | .drain core => Sys2Proof.Machine.execDrain core s
  | .cont core => Sys2Proof.Machine.execCont core s
  | .matrixStop core => Sys2Proof.Machine.execMatrixStop core s
  | .matrixJobComplete core => Sys2Proof.Machine.execMatrixJobComplete core s
  | .copy core ch => Sys2Proof.Machine.execCopy core ch s
  | .fill core ch => Sys2Proof.Machine.execFill core ch s
  | .plane core ch => Sys2Proof.Machine.execPlane core ch s
  | .unplane core ch => Sys2Proof.Machine.execUnplane core ch s
  | .fprint core ch => Sys2Proof.Machine.execFprint core ch s
  | .dedup core ch => Sys2Proof.Machine.execDedup core ch s
  | .kvpack core ch => Sys2Proof.Machine.execKvpack core ch s
  | .gather core ch => Sys2Proof.Machine.execGather core ch s
  | .chainRecordRead core ch => Sys2Proof.Machine.execChainRecordRead core ch s
  | .copyRecordComplete core ch => Sys2Proof.Machine.execCopyRecordComplete core ch s
  | .copyChannelStop core ch => Sys2Proof.Machine.execCopyChannelStop core ch s
  | .exp2 core => Sys2Proof.Machine.execExp2 core s
  | .expe core => Sys2Proof.Machine.execExpe core s
  | .recip core => Sys2Proof.Machine.execRecip core s
  | .rsqrt core => Sys2Proof.Machine.execRsqrt core s
  | .softrow core => Sys2Proof.Machine.execSoftrow core s
  | .expCardComplete core => Sys2Proof.Machine.execExpCardComplete core s
  | .harrowNop core => Sys2Proof.Machine.execHarrowNop core s
  | .harrowIssue core => Sys2Proof.Machine.execHarrowIssue core s
  | .harrowWaitq core => Sys2Proof.Machine.execHarrowWaitq core s
  | .harrowWaitwm core => Sys2Proof.Machine.execHarrowWaitwm core s
  | .harrowWaitc core => Sys2Proof.Machine.execHarrowWaitc core s
  | .harrowSeti core => Sys2Proof.Machine.execHarrowSeti core s
  | .harrowAddi core => Sys2Proof.Machine.execHarrowAddi core s
  | .harrowCmpb core => Sys2Proof.Machine.execHarrowCmpb core s
  | .harrowLoop core => Sys2Proof.Machine.execHarrowLoop core s
  | .harrowEndl core => Sys2Proof.Machine.execHarrowEndl core s
  | .harrowSignal core => Sys2Proof.Machine.execHarrowSignal core s
  | .harrowTrap core => Sys2Proof.Machine.execHarrowTrap core s
  | .harrowEnd core => Sys2Proof.Machine.execHarrowEnd core s
  | .tourLeg origin tour => Sys2Proof.Machine.execTourLeg origin tour s
  | .holdExpiry core ring slotNo => Sys2Proof.Machine.execHoldExpiry core ring slotNo s
  | .transitDrop core ring slotNo => Sys2Proof.Machine.execTransitDrop core ring slotNo s
  | .makeGood origin tour => Sys2Proof.Machine.execMakeGood origin tour s
  | .tourComplete origin tour => Sys2Proof.Machine.execTourComplete origin tour s
  | .tourWatchdog origin tour => Sys2Proof.Machine.execTourWatchdog origin tour s
  | .ringPublish n => Sys2Proof.Machine.execRingPublish n s
  | .creditReturn n => Sys2Proof.Machine.execCreditReturn n s
  | .markerPass core pipe => Sys2Proof.Machine.execMarkerPass core pipe s
  | .spliceInsert core pipe => Sys2Proof.Machine.execSpliceInsert core pipe s
  | .spliceRemove core pipe => Sys2Proof.Machine.execSpliceRemove core pipe s
  | .spliceRebind core pipe => Sys2Proof.Machine.execSpliceRebind core pipe s
  | .drainAcknowledgement core pipe => Sys2Proof.Machine.execDrainAcknowledgement core pipe s
  | .spliceComplete core pipe => Sys2Proof.Machine.execSpliceComplete core pipe s
  | .tableOperation device port => Sys2Proof.Machine.execTableOperation device port s
  | .allreduce n => Sys2Proof.Machine.execAllreduce n s
  | .reducescatter n => Sys2Proof.Machine.execReducescatter n s
  | .allgather n => Sys2Proof.Machine.execAllgather n s
  | .broadcast n => Sys2Proof.Machine.execBroadcast n s
  | .reduce n => Sys2Proof.Machine.execReduce n s
  | .alltoall n => Sys2Proof.Machine.execAlltoall n s
  | .barrier n => Sys2Proof.Machine.execBarrier n s
  | .collStep n step => Sys2Proof.Machine.execCollStep n step s
  | .collComplete n => Sys2Proof.Machine.execCollComplete n s
  | .trapPacketAdmit n => Sys2Proof.Machine.execTrapPacketAdmit n s
  | .trapConsPoll cluster => Sys2Proof.Machine.execTrapConsPoll cluster s
  | .healthMeasure die margin => Sys2Proof.Machine.execHealthMeasure die margin s
  | .voltageReplan die => Sys2Proof.Machine.execVoltageReplan die s
  | .tdispRequest slot wanted => Sys2Proof.Machine.execTdispRequest slot wanted s

end Sys2Proof.Machine
end

