-- ==== Sys2Proof/Machine/Streams.lean ====
section
/-! DEFINITION. The two streams of a hart: which owns a register and runs an instruction, the queues between them, and
their turns apart (R161, R167, R171 to R176). A hart whose access stream has passed nothing that its execute stream has not
is joined, and its turn issues in both at once. -/

namespace Sys2Proof.Machine

-- Ownership (R171).

/-- The execute stream owns an x register, or a p register. -/
def execX (r : Fin 32) : Bool := 16 ≤ r.val
def execP (r : Fin 8) : Bool := 4 ≤ r.val

/-- The execute stream owns the register of an operand. -/
def inExec : Operand → Bool
  | .x r => execX r
  | .v _ => true
  | .p r => execP r
  | _ => false

/-- A constant: no register that a stream owns. -/
def inAccess : Operand → Bool
  | .x r => r != 0 && !execX r
  | .p r => r != 0 && !execP r
  | _ => false

def isQueue : Operand → Bool
  | .q _ _ => true
  | _ => false

/-- The guard as an operand. -/
def guardOp (f : Fmt) : Operand := .p f.guard.p

/-- Who runs an instruction. -/
inductive WhichStream where
  | access | execute | both
  deriving DecidableEq, Repr

/-- Opcodes of the access classes, from loads to system instructions, and rep. -/
def accessClass (op : Nat) : Bool :=
  op = 0x08 || (0x28 ≤ op && op ≤ 0x2B) || (0x30 ≤ op && op ≤ 0x4F) || (0x6D ≤ op && op ≤ 0x72) || 0x80 ≤ op

/-- Vector and floating-point instructions. -/
def wideClass (op : Nat) (f : Fmt) : Bool := (0x50 ≤ op && op ≤ 0x7E) || (0x2C ≤ op && op ≤ 0x2F) || f.ty.isFloat

/-- The stream of an instruction (R171). -/
def streamOf (op : Nat) (f : Fmt) : WhichStream :=
  if 0x02 ≤ op && op ≤ 0x07 then .both
  else if accessClass op then .access
  else if wideClass op f then .execute
  else if inExec f.d then .execute else .access

-- A hart as one of its streams leaves it.

/-- The bits of %dead of the registers that the execute stream owns. -/
def execDead : W64 := 0xFFFFFFFFFFFF0000

/-- The registers of `e` that the execute stream owns, the rest of `h`. -/
def Hart.withExec (h e : Hart) : Hart :=
  { h with
    x := Vector.ofFn (fun i : Fin 32 => if execX i then e.x[i] else h.x[i])
    v := e.v
    p := Vector.ofFn (fun i : Fin 8 => if execP i then e.p[i] else h.p[i])
    dead := (h.dead &&& ~~~execDead) ||| (e.dead &&& execDead) }

/-- What the access stream has done, the execute stream where it stood. -/
def Hart.passedBy (h a : Hart) (i : Instr) (entries : List CopyEntry) (target : List W64) : Hart :=
  { a.withExec h with
    epc := h.epc, erep := h.erep, lag := h.lag ++ [i], copyAE := h.copyAE ++ entries, branchQ := h.branchQ ++ target }

/-- A joined hart's execute stream stands where its access stream does. -/
def Hart.parted (h : Hart) : Hart := if h.lag.isEmpty then { h with epc := h.apc, erep := h.repst } else h

/-- Neither queue is full, and there is room for an instruction's entries (R172). -/
def Hart.queueRoom (h : Hart) (entries : Nat) : Bool :=
  h.copyAE.length < 16 && h.copyAE.length + entries ≤ 16 && h.branchQ.length < 32

-- Loads on their way (R125, R173).

/-- The load on its way to an x register. -/
def Hart.awaited (h : Hart) (r : Fin 32) : Option Nat := (h.pend.find? (fun p => p.reg == r)).map (·.id)

/-- An operand, or the other register of its pair, is an access-owned register whose load is on its way. -/
def Hart.awaitedOp (h : Hart) (o : Operand) : Bool :=
  match o with
  | .x r => [r, pairReg o].any (fun q => !execX q && (h.awaited q).isSome)
  | _ => false

/-- An instruction reads or writes no access-owned register whose load is on its way. -/
def Hart.clearOf (h : Hart) (f : Fmt) : Bool := !(h.awaitedOp f.d || h.awaitedOp f.a || h.awaitedOp f.b)

/-- Instructions that a hart goes on with while loads are on their way: integer, floating-point and vector instructions,
control transfers, loads, stores, and atomics that neither acquire nor release (R125, R127 to R130). -/
def pendClass (op : Nat) (f : Fmt) : Bool :=
  (op ≤ 0x2F && op != 0x01 && op != 0x08 && !(0x28 ≤ op && op ≤ 0x2B)) || (0x30 ≤ op && op ≤ 0x34) ||
    (0x35 ≤ op && op ≤ 0x37 && f.imm.toNat / 8 % 4 == 0) || (0x50 ≤ op && op ≤ 0x7E)

/-- A hart runs an instruction while loads are on their way: one that needs none of them, unless it faults, since every
earlier instruction completes first (R175). -/
def runPending (s : State) (op : Nat) (f : Fmt) (r : Result) : Result :=
  if s.me.pend.isEmpty then r
  else if !(pendClass op f && s.me.clearOf f) then waitLoads s
  else
    match r with
    | .next u => if u.me.frozen then waitLoads s else r
    | r => r

-- The access stream ahead of the execute stream (R172 to R174).

/-- The predicate that sel and vsel name in IMM[2:0] (R235, R284). -/
def predOps (op : Nat) (f : Fmt) : List Operand :=
  if op = 0x21 || op = 0x5E then [.p (Fin.ofNat 8 f.imm.toNat)] else []

/-- The guard of every instruction but a vector's says whether it is performed (R185). -/
def wholeGuard (op : Nat) : Bool := !(0x50 ≤ op && op ≤ 0x7E)

/-- The operands of an execute instruction that reach it through the copy queue, in the order of their entries: those
that the access stream owns, and consumer operands (R173, R178). -/
def entryOps (op : Nat) (f : Fmt) : List Operand :=
  ([guardOp f, f.d, f.a, f.b] ++ predOps op f).filter (fun o => inAccess o || isQueue o)

/-- An instruction is guarded off, and reads its guard only (R185). -/
def guardedOff (h : Hart) (op : Nat) (f : Fmt) : Bool := wholeGuard op && (h.rp f.guard.p).getLsbD 0 == f.guard.neg

/-- The entries that an execute instruction takes: of one that an access-owned guard turns off, that guard's. -/
def takenOps (op : Nat) (f : Fmt) (off : Bool) : List Operand :=
  if off && inAccess (guardOp f) then [guardOp f] else entryOps op f

/-- The value of a register operand as an entry, or the load that will give it. -/
def Hart.entryOf (h : Hart) : Operand → CopyEntry
  | .x r =>
    match h.awaited r with
    | some id => .awaits id
    | none => .ready ((h.rx r).setWidth 512)
  | .p r => .ready ((h.rp r).setWidth 512)
  | .v r => .ready (h.rv r)
  | _ => .ready 0

/-- The entries of an execute instruction: a consumer operand waits for its slot (R178). -/
def entriesOf (s : State) : List Operand → Act (List CopyEntry)
  | [] => .ok []
  | o :: os => do
    let e ← match o with
      | .q n c => do
        let v ← queueRead s n c
        .ok (CopyEntry.ready v)
      | o => .ok (s.me.entryOf o)
    let es ← entriesOf s os
    .ok (e :: es)

/-- Destinations that an access instruction writes for the execute stream, a pair's second among them (R245). -/
def destOps (op : Nat) (f : Fmt) : List Operand :=
  if inExec f.d then (if op = 0x32 then [f.d, .x (pairReg f.d)] else [f.d]) else []

/-- A transfer whose outcome the execute stream cannot follow on its own (R174). -/
def queuedBranch (op : Nat) (f : Fmt) : Bool :=
  (0x02 ≤ op && op ≤ 0x07) && !(f.guard.p == 0 && (op == 0x02 || op == 0x03 || (op == 0x05 && f.a.isNone)))

/-- An execute instruction whose guard the access stream does not know, and that reads a slot or ends a register's life
where the guard turns it on (R178, R181, R185). -/
def guardNeeded (op : Nat) (f : Fmt) : Bool :=
  wholeGuard op && inExec (guardOp f) &&
    (isQueue f.a || isQueue f.b || (f.hint.lastA && inAccess f.a) || (f.hint.lastB && inAccess f.b))

/-- The access stream may pass an instruction while the execute stream lags: an execute instruction into registers of
its own; an integer instruction, a load, store, atomic, prefetch or ordering instruction, or a control transfer, that
reads nothing of the execute stream. At others it waits until the streams are joined. DESIGN CHOICE, assumption 70. -/
def mayPass (op : Nat) (f : Fmt) : Bool :=
  let alone := !(inExec (guardOp f) || inExec f.a || inExec f.b || (predOps op f).any inExec)
  let plain := f.guard.p == 0 && !f.guard.neg
  match streamOf op f with
  | .execute => inExec f.d && !guardNeeded op f
  | .both => alone && !inExec f.d && (plain || !(op == 0x05 || op == 0x06))
  | .access =>
    alone && (op ≤ 0x27 || (0x30 ≤ op && op ≤ 0x3D) || op = 0x6D || op = 0x6F || op = 0x71) && op != 0x01 && op != 0x08 &&
      (!inExec f.d || (plain && op != 0x36 && op != 0x37 && !isQueue f.d))

/-- An access instruction or transfer that the access stream has issued: it passes it, waits in it, or, where it stops
the hart, waits for the execute stream first (R175, R176). -/
def passIssued (s : State) (h : Hart) (i : Instr) (op : Nat) (f : Fmt) (r : Result) : Option Result :=
  match r with
  | .next u =>
    let a := u.me
    if a.frozen then none
    else if a.waiting then some (.next (u.setMe { a with epc := h.epc }))
    else
      let entries := (destOps op f).map a.entryOf
      some (.next (u.setMe (h.passedBy a i entries (if queuedBranch op f then [a.apc] else []))))
  | _ => some (.next s)

/-- An execute instruction that the access stream passes: the values that it takes enter the copy queue, its slots being
waited for, and its last uses act unless its guard turns it off (R173, R178, R181, R185). -/
def passExecute (s : State) (h : Hart) (i : Instr) (op : Nat) (f : Fmt) : Option Result :=
  let off := guardedOff h op f && !inExec (guardOp f)
  let used := if off then h else h.lastUse f
  match entriesOf s (takenOps op f off) with
  | .ok es => some (.next (s.setMe (h.passedBy used.advance.awaken i es [])))
  | .error (.wait t) => some (.next (t.modMe (fun h => { h with waiting := true })))
  | .error (.fault _ _) => none

/-- The access stream's turn on an instruction that it may pass; none where it must wait for the execute stream. -/
def passTurn (s : State) (i : Instr) (op : Nat) (f : Fmt) : Option Result :=
  let h := s.me.parted
  let exe := streamOf op f == .execute
  let entries := if exe then (entryOps op f).length else (destOps op f).length
  if !(mayPass op f && h.queueRoom entries) then none
  else if exe then passExecute s h i op f
  else passIssued s h i op f (runPending s op f (exec i (s.setMe h)))

/-- Where a load may be on its way while its hart goes on: its read cannot fail (R175). DESIGN CHOICE, assumption 19. -/
def pendPlace (s : State) (f : Fmt) (n : Nat) : Target → Option (Place × Option TlbEntry)
  | .mem dpa e =>
    match placeOf s dpa with
    | some (.mem p) =>
      if eagerPath s (f.var.val == 1) e && !pteEnc e.pte && p < 2 ^ 40 && !badAt s p n then some (.mem p, some e) else none
    | _ => none
  | .spad core off => if core != s.myCore && !slotFlying s core off then some (.spad core off, none) else none
  | _ => none

/-- A load's instruction is issued and its hart goes on before the data are there (R125, R173): they come to its register,
or to the entry that holds the execute stream. None where the load is to be waited for. -/
def pendLoad (s : State) (i : Instr) (op : Nat) (f : Fmt) : Option State :=
  let h := s.me.parted
  let n := f.ty.width / 8
  match f.d with
  | .x r =>
    if op = 0x30 && r != 0 && mayPass op f && guardOn f s && h.queueRoom (destOps op f).length && h.clearOf f &&
        h.waited.isEmpty && !s.accessOpen s.cur s.myCtx then
      let va := effAddr (xval s f.a) f.imm
      match (do
          aligned s va n
          resolve s s.iAm .load va : Act Target) with
      | .ok t =>
        match pendPlace s f n t with
        | none => none
        | some (p, leaf) =>
          if loadBlocked s.myUnit.jobs (va56 va) n then none
          else
            let id := h.nextPend
            let u := s.sendReq { kind := .read, agent := .hart s.cur, ctx := s.myCtx, place := p, size := n, va := va
                                 leaf := leaf, job := some id }
            let a := ((h.lastUse f).wx r 0).advance.awaken
            some (u.setMe (h.passedBy { a with pend := h.pend ++ [{ id := id, reg := r, ty := f.ty }], nextPend := id + 1 } i
              ((destOps op f).map (fun _ => .awaits id)) []))
      | .error _ => none
    else none
  | _ => none

-- The execute stream (R171 to R174).

/-- A hart with the values of entries in access-owned registers and for consumer operands, as an instruction of the execute
stream reads them. -/
def Hart.withEntries (h : Hart) : List (Operand × V512) → Hart
  | [] => h
  | (o, v) :: rest =>
    let g := match o with
      | .x r => h.wx r (v.setWidth 64)
      | .v r => h.wv r v
      | .p r => h.wp r (v.setWidth 64)
      | .q n c => { h with feed := h.feed ++ [((n, c.val), v)] }
      | _ => h
    g.withEntries rest

/-- The first n values of the copy queue, if they are there (R173). -/
def Hart.handed (h : Hart) (n : Nat) : Option (List V512) :=
  (h.copyAE.take n).foldr (fun e r => match e, r with
    | .ready v, some vs => some (v :: vs)
    | _, _ => none) (some [])

/-- The hart as the execute stream sees it: at its own program counter and rep state. -/
def Hart.execView (h : Hart) : Hart := { h with apc := h.epc, repst := h.erep }

/-- The execute stream has gone from its view `e` past the oldest instruction, taking entries and a branch outcome. -/
def Hart.followed (h e : Hart) (taken : Nat) (branch : Bool) : Hart :=
  { h.withExec e with
    epc := e.apc, erep := e.repst, lag := h.lag.drop 1, copyAE := h.copyAE.drop taken
    branchQ := if branch then h.branchQ.drop 1 else h.branchQ }

/-- The dead mark of a call or ret, of the execute stream's registers (R181). -/
def callMark (op : Nat) (e : Hart) : Hart := if op = 0x05 || op = 0x06 then markDead e else e

/-- An execute instruction is turned off by a guard that the access stream owns: the first entry. -/
def offByEntry (h : Hart) (op : Nat) (f : Fmt) : Bool :=
  wholeGuard op && inAccess (guardOp f) && (match h.copyAE with
    | .ready v :: _ => v.getLsbD 0 == f.guard.neg
    | _ => false)

/-- The execute stream issues or passes the oldest instruction that the access stream has passed; it waits for a value that
is not there (R173). -/
def followOne (s : State) (h : Hart) (i : Instr) (op : Nat) (f : Fmt) : State :=
  let view := h.execView
  let run (e : Hart) : Hart :=
    match exec i (s.setMe e) with
    | .next u => u.me
    | _ => e.advance
  match streamOf op f with
  | .execute =>
    let ops := takenOps op f (offByEntry h op f)
    match h.handed ops.length with
    | some vs => s.setMe (h.followed (run (view.withEntries (ops.zip vs))) ops.length false)
    | none => s
  | .access =>
    let ops := destOps op f
    match h.handed ops.length with
    | some vs => s.setMe (h.followed (view.withEntries (ops.zip vs)).advance ops.length false)
    | none => s
  | .both =>
    let e := callMark op view
    if queuedBranch op f then s.setMe (h.followed (e.setPc (h.branchQ.headD 0)) 0 true)
    else s.setMe (h.followed (e.setPc (run view).apc) 0 false)

/-- The execute stream's turn while it lags. -/
def followTurn (s : State) : State :=
  let h := s.me
  match h.lag with
  | [] => s
  | i :: _ =>
    match i.parts with
    | some (op, _, f) => followOne s h i op f
    | none => s.setMe { h with lag := h.lag.drop 1 }

/-- A register operand's value. -/
def Hart.valueOf (h : Hart) (o : Operand) : V512 :=
  match o with
  | .x r => (h.rx r).setWidth 512
  | .p r => (h.rp r).setWidth 512
  | .v r => h.rv r
  | _ => 0

/-- The value that an execute instruction gives its producer operand: as it would write it, in the slot (R178). -/
def producedBy (s : State) (i : Instr) (f : Fmt) : List V512 :=
  match f.d with
  | .q n c =>
    match queueReady s n c, exec i s with
    | .ok e, .next u =>
      let p := e.slotAt s false c.val
      match e with
      | .local_ _ _ => [v512 (spadRead u p.1 s.myCtx p.2 64)]
      | .link _ _ => (u.ringNet.getLast?.toList).filterMap (fun m => match m.body with
        | .slot _ v => some v
        | _ => none)
    | _, _ => []
  | _ => []

/-- Execute-owned values that an access instruction reads, and the value of a producer operand, go to the copy queue toward
the access stream (R173, R178). -/
def handOver (s : State) (i : Instr) (op : Nat) (f : Fmt) : State :=
  let reads := op = 0x07 || op = 0x36 || op = 0x37 || op = 0x70 || op = 0x72
  let ops := ([guardOp f] ++ (if reads then [f.d] else []) ++ [f.a, f.b] ++ predOps op f).filter inExec
  let vs := if streamOf op f == .execute then producedBy s i f else ops.map s.me.valueOf
  if s.me.copyEA.isEmpty then s.modMe (fun h => { h with copyEA := vs }) else s

-- Turns.

/-- A joined hart's turn: its boundary, or the instruction at its program counter, which takes the entries of the E to A
queue that wait for it. -/
def joinedTurn (s : State) : Result :=
  match hartIssue s with
  | .whole r => r
  | .run i t =>
    let t := if t.me.copyEA.isEmpty then t else t.modMe (fun h => { h with copyEA := [] })
    match i.parts with
    | some (op, _, f) => runPending t op f (exec i t)
    | none => exec i t

/-- A hart's turn: where its streams are apart the execute stream issues, and the access stream waits. -/
def hartTurn (s : State) : Result := if s.me.lag.isEmpty then joinedTurn s else .next (followTurn s)

/-- The access stream's turn (R172). -/
def accessTurn (s : State) : Result :=
  match hartIssue s with
  | .whole _ => hartTurn s
  | .run i t =>
    match i.parts with
    | none => .next s
    | some (op, _, f) =>
      match passTurn t i op f with
      | some r => r
      | none => hartTurn s

/-- The access stream's turn on a load that it goes on from before the data are there (R125). -/
def pendTurn (s : State) : Result :=
  match hartIssue s with
  | .whole _ => hartTurn s
  | .run i t =>
    match i.parts with
    | none => .next s
    | some (op, _, f) =>
      match pendLoad t i op f with
      | some u => .next u
      | none => accessTurn s

/-- The execute stream's turn: it issues what it lags behind by, or hands over what the access stream waits for. -/
def executeTurn (s : State) : Result :=
  if !s.me.lag.isEmpty then .next (followTurn s)
  else
    match hartIssue s with
    | .whole _ => .next s
    | .run i _ =>
      match i.parts with
      | some (op, _, f) => .next (handOver s i op f)
      | none => .next s

end Sys2Proof.Machine
end

