-- ==== Sys2Proof/Machine/Time.lean ====
section
/-! DEFINITION. The passing of time: the time base, budgets, timers, watchdogs and the meters of cycles and energy (R165,
R382, R397, R418, R510; assumption 3). -/

namespace Sys2Proof.Machine

/-- Which units of a core hold a job of the context: matrix engine, copy engine, exponent engine, Harrow (R510). -/
def Units.busy (u : Units) : List Bool :=
  let m := u.matrix
  [ !m.queue.isEmpty || m.loader.isSome || m.array.isSome || m.port.isSome || m.heldJob.isSome,
    u.copy.chans.toList.any (fun c => c.run.isSome || !c.queue.isEmpty),
    u.exponent.run.isSome || !u.exponent.queue.isEmpty,
    u.harrow.st == .running || u.harrow.st == .stopped ]

/-- Busy cycles of the units that run (R380, R510). -/
def countBusy (s : State) (n : Nat) : State :=
  s.units.foldl (fun t e =>
    if (s.core (e.1 / 128)).active == some (e.1 % 128) then
      (e.2.busy.zip [1, 2, 3, 4]).foldl (fun t b => if b.1 then t.addMeter (e.1 % 128) b.2 n else t) t
    else t) s

/-- Time passes. DESIGN CHOICE, assumption 3. -/
def advanceTime (s : State) : State :=
  let now := s.time + Config.elapsed s.ticks
  let n := Config.cycles s.ticks
  let working := s.harts.filter (fun k => k.2.slice.isSome && keyActive s k.1)
  let s1 := working.foldl (fun s k => s.addMeter (k.1 % 128) 0 n) s
  let s2 := s.cores.foldl (fun t c => match c.2.active with
    | some x => t.addMeter x 11 (Config.staticPower c.1 * n)
    | none => t) s1
  let s3 := countDogs (countBusy s2 n) n
  { s3 with
    ticks := s.ticks + 1
    time := now
    clock := s.clock + n
    harts := s3.harts.map (fun k => (k.1, timerCheck now (budgetCount n (keyActive s k.1) k.2))) }

end Sys2Proof.Machine
end

