-- ==== Sys2Proof/Machine/Turn.lean ====
section
/-! DEFINITION. A turn of the machine, and the placing of one instruction for its next turn. -/

namespace Sys2Proof.Machine

/-- An event's turn. Program instructions are no events. -/
def eventTurn (i : Instr) (s : State) : Host.Outcome State Fault Refusal :=
  match i.parts with
  | some _ => .next s
  | none => exec i s

/-- The turn that the machine gives itself: the next of the round robin over its agents (assumption 7).
DESIGN CHOICE, assumption 7. -/
def ownTurn (s : State) : Host.Outcome State Fault Refusal :=
  match nextAgent s with
  | (t, .core c) =>
    match pickHart t c with
    | some id => hartTurn { t with cur := id }
    | none => .next t
  | (t, .event n) => ownEvent n t

/-- A byte of a scratchpad lies in a slot of a ring of its core (R248). -/
def inSlots (s : State) (core ctx off : Nat) : Bool :=
  (s.unit core ctx).rings.toList.any (fun r => r.decl && r.base ≤ off && off < r.base + r.count * r.slotBytes)

/-- A load ahead of its instruction awaits the translation of another page (R49). -/
def aheadHeld (s : State) (va : W64) : Bool :=
  match s.me.aheadVpn with
  | none => false
  | some v => v != va.toNat % 2 ^ 55 / 2 ^ 16 &&
      s.walkQ.any (fun q => q.cluster == clusterOf s.myCore && q.ctx == s.myCtx && q.vpn == v && q.cores.contains s.myCore)

/-- A load ahead of its instruction waits for its own translation: what a walk for it found wrong is used by nothing. -/
def aheadWalk (s : State) (va : W64) (t : State) : State :=
  let v := va.toNat % 2 ^ 55 / 2 ^ 16
  { t.modMe (fun h => { h with aheadVpn := some v, xlating := s.me.xlating }) with
    walkMisses := t.walkMisses.filter (fun m => !(m.core == s.myCore && m.ctx == s.myCtx && m.vpn == v)) }

/-- A load of the current hart leaves before the instruction that asks for it (R125), once it is translated and while no
earlier access of the hart awaits its translation (R49): on the phase path as the fill of a line, to no bytes that a job
writes or a ring's slots hold. The load takes its answer where nothing between them orders them. DESIGN CHOICE,
assumption 19. -/
def loadAhead (s : State) (va : W64) (n : Nat) : State :=
  let r (p : Place) : Request :=
    { kind := .read, agent := .hart s.cur, ctx := s.myCtx, place := p, size := n, va := va, ahead := true }
  let go (r : Request) : State :=
    if s.asked r || (fabricRefusal s r.place r.ctx).isSome || s.fabricWaits r.place then s
    else s.sendReq r
  if !s.me.awake || s.me.xlating || aheadHeld s va || n = 0 || va.toNat % 64 + n > 64 ||
      loadBlocked s.myUnit.jobs (va56 va) n then s
  else
    match resolve s s.iAm .load va with
    | .ok (.mem dpa e) =>
      let d := if eagerPath s false e then dpa else dpa / 64 * 64
      match placeOf s d with
      | some p => go { r p with size := if eagerPath s false e then n else 64, leaf := some e, enc := pteEnc e.pte }
      | none => s
    | .ok (.spad core off) => if inSlots s core s.myCtx off || slotFlying s core off then s else go (r (.spad core off))
    | .error (.wait t) => if va.getLsbD 55 then s else aheadWalk s va t
    | .error (.fault t f) => if f.code == .xlate then aheadWalk s va t else s
    | _ => s

/-- What befalls memory (R86, R100). A line that a load on its way reads fails after it: the load's instruction has gone on
(R175). DESIGN CHOICE, assumption 19. -/
def upset (s : State) : Upset → State
  | .soft l => { s with softLines := l :: s.softLines.erase l }
  | .bad l =>
    if s.inFlight.any (fun r => r.agent.pends r.job && r.place.meets r.size (.mem (l * 64)) 64) then s
    else { s with badLines := l :: s.badLines.erase l }
  | .node k => { s with badNodes := k :: s.badNodes.erase k }

/-- A turn of a hart: of the one from which its core issues (R167); another's changes nothing. -/
def turnOf (s : State) (id : Nat) (turn : State → Result) : Result :=
  if pickHart s (coreOf id) == some id then turn { s with cur := id } else .next s

/-- A turn: time passes, and the next turn of the schedule, or the machine's own, is taken.
DESIGN CHOICE, assumption 7. -/
def takeTurn (s : State) : Host.Outcome State Fault Refusal :=
  let s := advanceTime s
  match s.turns with
  | .hart id :: ts => turnOf { s with turns := ts } id hartTurn
  | .event i :: ts => eventTurn i { s with turns := ts }
  | .access id :: ts => turnOf { s with turns := ts } id accessTurn
  | .execute id :: ts => turnOf { s with turns := ts } id executeTurn
  | .pend id :: ts => turnOf { s with turns := ts } id pendTurn
  | .ahead id va n :: ts => .next (loadAhead { s with turns := ts, cur := id } va n)
  | .upset u :: ts => .next (upset { s with turns := ts } u)
  | .renew phys key :: ts => .next (renewBlock { s with turns := ts } key phys)
  | [] => ownTurn s

/-- Where `placeWord` places its instruction. -/
def placedVa : Nat := 0x10000

/-- The state with one instruction placed for hart 0 of core 0 in a slice of context 0, its code page translated and its
line in the instruction cache, and the hart's turn next. DESIGN CHOICE, assumption 8. -/
def placeWord (s : State) (nbits w : Nat) : State :=
  let e : TlbEntry := { ctx := 0, big := false, vpn := 1, pte := 0x1000009, entry := 0 }
  let k := s.core 0
  let line := placedVa / 64
  let k1 : Core := { k with
    active := some 0, swapTo := none, todo := [], tlb := e :: k.tlb, runSlot := 0, issued := 0
    icache := Tab.put k.icache (isetOf line)
      ({ ctx := 0, line := line, data := v512 (leBytes 12 (w % 2 ^ nbits)) } ::
        (Tab.get [] k.icache (isetOf line)).filter (fun l => !(l.ctx == 0 && l.line == line))) }
  let sl : Slice := { record := 0, launch := 64, d0 := 0, counting := false }
  let h := Hart.setPc { s.bank 0 0 with
    running := true, frozen := false, waiting := false, sleep := none, killNext := false, owed := [], inRel := false
    groupsDone := [], branchQ := [], copyAE := [], copyEA := [], lag := [], pend := [], feed := [], slice := some sl
    repst := 0 } (BitVec.ofNat 64 placedVa)
  let s1 : State := { s with
    cur := 0, turns := [.hart 0]
    mem := Mem.writeL s.mem placedVa (leBytes 12 (w % 2 ^ nbits)) }
  (s1.setCore 0 k1).setBank 0 0 h

end Sys2Proof.Machine
end

