-- ==== Sys2Proof/Machine/Step.lean ====
section
/-! DEFINITION. One step of the machine. -/

namespace Sys2Proof.Machine

/-- One step is one turn. -/
def step (s : State) : Host.Outcome State Fault Refusal := takeTurn s

/-- The state with one instruction placed where the next step fetches it. DESIGN CHOICE, assumption 8. -/
def State.withFetchWord (s : State) (nbits w : Nat) : State := placeWord s nbits w

end Sys2Proof.Machine
end

