-- ==== Sys2Proof/Safety.lean ====
section
/-! DEFINITION. What counts as a safe run, and the words the statements use: how an instruction ends. -/

namespace Sys2Proof.Safety

open Sys2Proof.Machine

/-- The step at a state neither faults nor refuses. -/
def Goes (s : Machine.State) : Prop := ∃ t, Machine.step s = .next t

/-- A run of n steps neither faults nor refuses. -/
def Runs (s : Machine.State) (n : Nat) : Prop := ∃ t, Sys2Proof.core.run n s = .next t

/-- The machine once the current hart's instruction has ended: it waits for nothing. -/
def ended (t : State) : State := t.dropAnswers.modMe Hart.awaken

/-- The last uses of an instruction marked (R181). -/
def used (f : Fmt) (s : State) : State := s.modMe (fun h => h.lastUse f)

/-- Past an instruction (R231). -/
def passed (s : State) : State := s.modMe Hart.advance

/-- An instruction answers a next state: this one, ended. -/
def Ends (i : Instr) (s u : State) : Prop := exec i s = .next (ended u)

/-- `t` is `s` with a 64-bit result delivered to D: an x or p register, the first 8 bytes of a producer slot with 56
zero bytes, or nowhere; last uses are marked first, and the next instruction follows (R181, R189, R226). -/
def Wrote64 (f : Fmt) (s : State) (v : W64) (t : State) : Prop :=
  match f.d with
  | .x r => t = ended (passed ((used f s).modMe (fun h => h.wx r v)))
  | .p r => t = ended (passed ((used f s).modMe (fun h => h.wp r v)))
  | .q h c => ∃ e, queueReady s h c = .ok e ∧
      t = ended (passed (slotWrite (used f s) e c.val (v.zeroExtend 512)))
  | _ => t = ended (passed (used f s))

/-- The same of a 64-byte result: a v register or a whole producer slot. -/
def Wrote512 (f : Fmt) (s : State) (v : V512) (t : State) : Prop :=
  match f.d with
  | .v r => t = ended (passed ((used f s).modMe (fun h => h.wv r v)))
  | .q h c => ∃ e, queueReady s h c = .ok e ∧ t = ended (passed (slotWrite (used f s) e c.val v))
  | _ => t = ended (passed (used f s))

/-- An instruction answers a next state: `s1` with the result delivered. -/
def Gives64 (i : Instr) (f : Fmt) (s s1 : State) (v : W64) : Prop := ∃ t, exec i s = .next t ∧ Wrote64 f s1 v t

/-- An instruction answers a next state: `s1` with the 64-byte result delivered. -/
def Gives512 (i : Instr) (f : Fmt) (s s1 : State) (v : V512) : Prop := ∃ t, exec i s = .next t ∧ Wrote512 f s1 v t

/-- The conditions a two-source scalar instruction runs under: its guard, its sources read, room at its destination. -/
def Sourced (f : Fmt) (s : State) (a b : W64) : Prop :=
  guardOn f s = true ∧ src64 s f.a f.imm = .ok a ∧ src64 s f.b f.imm = .ok b ∧ dstReady s f.d = .ok ()

/-- The same with the A source alone. -/
def SourcedA (f : Fmt) (s : State) (a : W64) : Prop :=
  guardOn f s = true ∧ src64 s f.a f.imm = .ok a ∧ dstReady s f.d = .ok ()

/-- The guard holds and there is room at the destination. -/
def Open (f : Fmt) (s : State) : Prop := guardOn f s = true ∧ dstReady s f.d = .ok ()

/-- A transfer of control answers a next state: the last uses marked, `g`, the link at D (an x register, or the first 8
bytes of a producer slot), and the target (R189, R229). -/
def Links (i : Instr) (f : Fmt) (s : State) (g : Hart → Hart) (target : W64) : Prop :=
  let u := s.modMe (fun h => g (h.lastUse f))
  let link := s.me.pc + 12
  let goes (t : State) : Prop := Ends i s (t.modMe (fun h => h.setPc target))
  match f.d with
  | .x r => goes (u.modMe (fun h => h.wx r link))
  | .p r => goes (u.modMe (fun h => h.wp r link))
  | .q h c => ∀ e, queueReady s h c = .ok e → goes (slotWrite u e c.val (link.zeroExtend 512))
  | _ => goes u

/-- The current hart's core has no access on its way, no answer for the hart is left, and no interlock has been waited
for. -/
def Quiet (s : State) : Prop :=
  (∀ r ∈ s.inFlight ++ s.outbox, r.agent.coreId ≠ some s.myCore) ∧
  (∀ q ∈ s.respNet ++ s.inbox, q.agent ≠ .hart s.cur) ∧
  (∀ m ∈ s.ringNet, m.src ≠ s.myCore) ∧ s.me.waited = []

/-- A vector instruction answers a next state: `s1` with a 64-byte result whose lane k, of w bits, is `g k` where the
guard enables it and the destination's former lane, or zero in a producer slot, where not (R185). -/
def LaneResultAt (i : Instr) (f : Fmt) (s s1 : State) (w : Nat) (g : Nat → Nat) : Prop :=
  ∃ r, Gives512 i f s s1 r ∧ ∀ k, k < 512 / w →
    lane (lanesOf w r) k = if laneOn s1 f k then g k % 2 ^ w else lane (oldLanes s1 w f.d) k

/-- The same of an instruction that changes nothing else. -/
def LaneResult (i : Instr) (f : Fmt) (s : State) (w : Nat) (g : Nat → Nat) : Prop := LaneResultAt i f s s w g

/-- The same where the instruction itself says which lanes it writes. -/
def LanesAre (i : Instr) (f : Fmt) (s : State) (w : Nat) (g : Nat → Nat) : Prop :=
  ∃ r, Gives512 i f s s r ∧ ∀ k, k < 512 / w → lane (lanesOf w r) k = g k % 2 ^ w

/-- A predicate result, bit by bit. -/
def BitsAre (i : Instr) (f : Fmt) (s : State) (g : Nat → Bool) : Prop :=
  ∃ r, Gives64 i f s s r ∧ ∀ k, k < 64 → r.getLsbD k = g k

/-- A vector instruction's lanes are read and there is room for its result. -/
def Laned (f : Fmt) (s : State) (a b : List Nat) : Prop :=
  srcLanes s f.ty f.a f.imm = .ok a ∧ srcLanes s f.ty f.b f.imm = .ok b ∧ dstReady s f.d = .ok ()

/-- The same with the A source alone. -/
def LanedA (f : Fmt) (s : State) (a : List Nat) : Prop :=
  srcLanes s f.ty f.a f.imm = .ok a ∧ dstReady s f.d = .ok ()

/-- The address lies outside the producer slot, if there is one, that an instruction's destination names on its own
core. -/
def OffSlot (f : Fmt) (s : State) (a : Nat) : Prop :=
  ∀ h c n r, f.d = .q h c → queueReady s h c = .ok (.local_ n r) →
    a < spadKey s.myCore s.myCtx (r.slotOff (r.pp + c.val)) ∨ spadKey s.myCore s.myCtx (r.slotOff (r.pp + c.val)) + 64 ≤ a

/-- The register is not the one a last-use hint of the instruction marks (R181). -/
def NotLast (f : Fmt) (o : Operand) : Prop := ¬ (f.hint.lastA = true ∧ f.a = o) ∧ ¬ (f.hint.lastB = true ∧ f.b = o)

/-- What an instruction that computes from its operands to its destination leaves as it was: device memory, the
scratchpads outside a producer slot, other harts, the cores' caches and translations, the launches, every register but
its destination and those of last-use hints, and the control and exception registers. -/
def OnlyWrites (f : Fmt) (s t : State) : Prop :=
  t.mem = s.mem ∧ t.cores = s.cores ∧ t.launches = s.launches ∧ t.meters = s.meters ∧ t.time = s.time ∧
  (Mem.wf s.spad = true → ∀ a, OffSlot f s a → Mem.read t.spad a = Mem.read s.spad a) ∧
  ((∀ h c, f.d ≠ .q h c) → t.spad = s.spad ∧ t.ringNet = s.ringNet ∧ t.units = s.units) ∧
  (∀ hid ctx, hid * 128 + ctx ≠ s.cur * 128 + s.myCtx → t.bank hid ctx = s.bank hid ctx) ∧
  (∀ r, f.d ≠ .x r → NotLast f (.x r) → t.me.rx r = s.me.rx r) ∧
  (∀ r, f.d ≠ .v r → NotLast f (.v r) → t.me.rv r = s.me.rv r) ∧
  (∀ r, f.d ≠ .p r → t.me.rp r = s.me.rp r) ∧
  t.me.status = s.me.status ∧ t.me.ipend = s.me.ipend ∧ t.me.ienab = s.me.ienab ∧ t.me.ivec = s.me.ivec ∧
  t.me.ipc = s.me.ipc ∧ t.me.icause = s.me.icause ∧ t.me.irep = s.me.irep ∧ t.me.tcmp = s.me.tcmp ∧
  t.me.cmask = s.me.cmask ∧ t.me.budget = s.me.budget ∧ t.me.deadline = s.me.deadline ∧ t.me.qbind = s.me.qbind

/-- The fields of an instruction without guard or hints. -/
def plain (ty : Ty) (var : Fin 16) (d a b : Operand) (imm : W32 := 0) : Fmt :=
  { guard := { neg := false, p := 0 }
    hint := { yield := false, stagD := false, stagA := false, stagB := false, lastA := false, lastB := false, stall := 0 }
    ty := ty, var := var, d := d, a := a, b := b, imm := imm }

end Sys2Proof.Safety
end

