-- ==== Sys2Proof/Certificates/Slice0/Obligations.lean ====
section
/-! DEFINITION. The statements about the model that are to be proved. -/

open Sys2Proof Sys2Proof.Machine Sys2Proof.Safety

/-- R233, R226: the results of the integer instructions, every type width and both classes; the value is that of the
low w bits of the sources. R200, R233: division, with the results the spec gives for a zero divisor. -/
def Obligations.IntegerResults : Prop :=
  (∀ (f : Fmt) (s : State) (a b : W64), Sourced f s a b →
    let w := f.ty.width
    let x := lowBits f.ty a
    let y := lowBits f.ty b
    let sx := valueOf f.ty x
    let sy := valueOf f.ty y
    (f.var.val ≠ 8 → Gives64 (.add f) f s s (extend f.ty ((x + y) % 2 ^ w))) ∧
    (f.var.val = 8 → Gives64 (.add f) f s s (extend f.ty (wrapInt w (clampInt (tyMin f.ty) (tyMax f.ty) (sx + sy))))) ∧
    (f.var.val ≠ 8 → Gives64 (.sub f) f s s (extend f.ty ((x + (2 ^ w - y)) % 2 ^ w))) ∧
    (f.var.val = 8 → Gives64 (.sub f) f s s (extend f.ty (wrapInt w (clampInt (tyMin f.ty) (tyMax f.ty) (sx - sy))))) ∧
    Gives64 (.mul f) f s s (extend f.ty (x * y % 2 ^ w)) ∧
    Gives64 (.mulh f) f s s (extend f.ty (wrapInt w (sx * sy / ((2 ^ w : Nat) : Int)))) ∧
    Gives64 (.and f) f s s (extend f.ty (x &&& y)) ∧
    Gives64 (.or f) f s s (extend f.ty (x ||| y)) ∧
    Gives64 (.xor f) f s s (extend f.ty (x ^^^ y)) ∧
    Gives64 (.andn f) f s s (extend f.ty (x &&& (2 ^ w - 1 - y))) ∧
    Gives64 (.shl f) f s s (extend f.ty (x * 2 ^ (y % w) % 2 ^ w)) ∧
    Gives64 (.shr f) f s s (extend f.ty (x / 2 ^ (y % w))) ∧
    Gives64 (.sra f) f s s (extend f.ty (wrapInt w (toSigned w x / ((2 ^ (y % w) : Nat) : Int)))) ∧
    Gives64 (.min f) f s s (extend f.ty (if sx ≤ sy then x else y)) ∧
    Gives64 (.max f) f s s (extend f.ty (if sx ≤ sy then y else x))) ∧
  (∀ (f : Fmt) (s : State) (a b : W64), Sourced f s a b →
    let w := f.ty.width
    let x := lowBits f.ty a
    let y := lowBits f.ty b
    let sx := valueOf f.ty x
    let sy := valueOf f.ty y
    (y = 0 → Gives64 (.div f) f s s (extend f.ty (2 ^ w - 1))) ∧
    (y = 0 → Gives64 (.rem f) f s s (extend f.ty x)) ∧
    (y ≠ 0 → Gives64 (.div f) f s s (extend f.ty (wrapInt w (sx.tdiv sy)))) ∧
    (y ≠ 0 → Gives64 (.rem f) f s s (extend f.ty (wrapInt w (sx.tmod sy)))))

/-- R233 to R239: bit counts, comparison, selection, moves, bit fields, predicate logic and addresses. -/
def Obligations.ScalarLogicResults : Prop :=
  ∀ (f : Fmt) (s : State),
    (∀ a b, Sourced f s a b →
      (∀ r, f.d = .p r → Gives64 (.cmp f) f s s
        (if compareInt f.var.val (valueOf f.ty (lowBits f.ty a)) (valueOf f.ty (lowBits f.ty b)) then BitVec.allOnes 64 else 0)) ∧
      (∀ r, f.d = .x r → Gives64 (.cmp f) f s s
        (if compareInt f.var.val (valueOf f.ty (lowBits f.ty a)) (valueOf f.ty (lowBits f.ty b)) then 1 else 0)) ∧
      Gives64 (.sel f) f s s (extend f.ty (lowBits f.ty
        (if ((s.me.rp (Fin.ofNat 8 f.imm.toNat)).getLsbD 0 != f.imm.getLsbD 3) = true then a else b))) ∧
      Gives64 (.plog f) f s s (match f.var.val with
        | 0 => a &&& b | 1 => a ||| b | 2 => a ^^^ b | 3 => a &&& ~~~b | 4 => a ||| ~~~b | _ => ~~~a) ∧
      (f.var.val = 0 → Gives64 (.addr f) f s s (a + (b <<< (f.imm.toNat % 8)))) ∧
      (f.var.val = 1 → Gives64 (.addr f) f s s (0xFF80000200000000 + ((a &&& 0x3FF) <<< 20) + b)) ∧
      (f.var.val = 2 → Gives64 (.addr f) f s s (0xFF80000100000000 + b))) ∧
    (∀ a, SourcedA f s a →
      Gives64 (.mov f) f s s (extend f.ty (lowBits f.ty a)) ∧
      (f.var.val = 0 → Gives64 (.bits f) f s s (extend f.ty (clz f.ty.width (lowBits f.ty a)))) ∧
      (f.var.val = 1 → Gives64 (.bits f) f s s (extend f.ty (ctz f.ty.width (lowBits f.ty a)))) ∧
      (f.var.val = 2 → Gives64 (.bits f) f s s (extend f.ty (popc f.ty.width (lowBits f.ty a)))) ∧
      (f.var.val = 3 → Gives64 (.bits f) f s s (extend f.ty (revBits f.ty.width (lowBits f.ty a)))) ∧
      (f.a ≠ .none → Gives64 (.movhi f) f s s (BitVec.ofNat 64 (a.toNat % 2 ^ 32 + f.imm.toNat * 2 ^ 32))) ∧
      (f.a = .none → Gives64 (.movhi f) f s s (BitVec.ofNat 64 (f.imm.toNat * 2 ^ 32))) ∧
      (f.ty = .i64 → Gives64 (.ext f) f s s
        (BitVec.ofInt 64 (toSigned (fieldLen f) (slice a.toNat (fieldPos f + fieldLen f - 1) (fieldPos f))))) ∧
      (f.ty = .n64 → Gives64 (.ext f) f s s
        (BitVec.ofNat 64 (slice a.toNat (fieldPos f + fieldLen f - 1) (fieldPos f)))) ∧
      (∀ r, f.d = .x r → Gives64 (.ins f) f s s
        (BitVec.ofNat 64 (setSlice (s.me.rx r).toNat (fieldPos f + fieldLen f - 1) (fieldPos f) a.toNat))))

/-- R229, R230, R231: the control transfers; `here` is the program counter. R231, R180: what a rep starts, how many
passes it counts, and that it skips a body repeated zero times. R230, R463, R464: brk completes and freezes its hart
on the next instruction, and one packet names the brk. -/
def Obligations.ControlTransferResults : Prop :=
  (∀ (f : Fmt) (s : State), guardOn f s = true →
    let here := s.me.pc
    let far := here + 12 * f.imm.signExtend 64
    Ends (.nop f) s (passed (used f s)) ∧
    Ends (.j f) s (s.modMe (fun h => (h.lastUse f).setPc far)) ∧
    Ends (.ret f) s (s.modMe (fun h => (markDead (h.lastUse f)).setPc (xval s f.a))) ∧
    (dstReady s f.d = .ok () →
      Links (.jal f) f s id far ∧
      Links (.jr f) f s id (xval s f.a) ∧
      (f.a ≠ .none → Links (.call f) f s markDead (xval s f.a)) ∧
      (f.a = .none → Links (.call f) f s markDead far)) ∧
    (∀ d, f.d = .x d →
      (s.me.rx d ≠ 1 → Ends (.loop f) s (s.modMe (fun h => ((h.lastUse f).wx d (s.me.rx d - 1)).setPc far))) ∧
      (s.me.rx d = 1 → Ends (.loop f) s (s.modMe (fun h => ((h.lastUse f).wx d 0).setPc (here + 12)))))) ∧
  (∀ (f : Fmt) (s : State), guardOn f s = true →
    let nn := slice f.imm.toNat 3 0
    let starts (m : Nat) := s.modMe (fun h => { h.lastUse f with
      repst := mkRep 0 0 true (slice f.imm.toNat 18 16) (m - 1) nn }.setPc (s.me.pc + 12))
    (f.a = .none → Ends (.rep f) s (starts (slice f.imm.toNat 15 4 + 1))) ∧
    (∀ n, f.a ≠ .none → src64 s f.a f.imm = .ok n →
      (n ≠ 0 → Ends (.rep f) s (starts (Nat.min n.toNat 4096))) ∧
      (n = 0 → Ends (.rep f) s
        (s.modMe (fun h => (h.lastUse f).setPc (s.me.pc + BitVec.ofNat 64 (12 * (2 + nn)))))))) ∧
  (∀ (f : Fmt) (s : State), guardOn f s = true → repActive s.me.repst = false →
    ∃ t, exec (.brk f) s = .next t ∧ t.me.frozen = true ∧ t.me.pc = s.me.pc + 12 ∧
      t.me.lastPacket = packetWords (.hart s.cur) s.myCtx (s.nextSeq (.hart s.cur)) s.me.pc
        { illegal causeBreak with brk := f.imm.toNat % 2 ^ 16 })

/-- R242, R243, R226: a scalar float or conversion rounds its exact result once. -/
def Obligations.ScalarFloatResults : Prop :=
  ∀ (f : Fmt) (s : State), Open f s →
    let md := modeOf f.var.val
    let sat := satOf f.var.val
    let φ := floatForm f.ty
    (∀ a, srcAt s (cvtSource f) f.a = .ok a →
      Gives64 (.cvt f) f s s (extend f.ty (convert (cvtSource f) f.ty md sat a))) ∧
    (∀ a b, srcAt s f.ty f.a = .ok a → srcAt s f.ty f.b = .ok b →
      Gives64 (.fadd f) f s s (extend f.ty (roundFloat φ md sat (addVal md (elemVal f.ty a) (elemVal f.ty b)))) ∧
      Gives64 (.fmul f) f s s (extend f.ty (roundFloat φ md sat (mulVal (elemVal f.ty a) (elemVal f.ty b)))) ∧
      (∀ d, f.d = .x d → Gives64 (.fma f) f s s (extend f.ty (roundFloat φ md sat
        (addVal md (mulVal (elemVal f.ty a) (elemVal f.ty b)) (elemVal f.ty (lowBits f.ty (s.me.rx d))))))))

/-- R281, R282, R292: each enabled lane is computed from the same lanes of A, B and D. -/
def Obligations.VectorArithmeticResults : Prop :=
  ∀ (f : Fmt) (s : State) (a b : List Nat), Laned f s a b →
    let w := f.ty.laneWidth
    let ew := f.ty.width
    let md := modeOf f.var.val
    let sat := satOf f.var.val
    let d := oldLanes s w f.d
    LaneResult (.vadd f) f s w (fun k => addElem f.ty md sat (lane a k) (lane b k)) ∧
    LaneResult (.vsub f) f s w (fun k => subElem f.ty md sat (lane a k) (lane b k)) ∧
    LaneResult (.vmul f) f s w (fun k => mulElem f.ty md sat (lane a k) (lane b k)) ∧
    LaneResult (.vfma f) f s w (fun k => fmaElem f.ty md sat false (lane a k) (lane b k) (lane d k)) ∧
    LaneResult (.vfms f) f s w (fun k => fmaElem f.ty md sat true (lane a k) (lane b k) (lane d k)) ∧
    LaneResult (.vmin f) f s w (fun k => minmaxElem f.ty false (lane a k) (lane b k)) ∧
    LaneResult (.vmax f) f s w (fun k => minmaxElem f.ty true (lane a k) (lane b k)) ∧
    LaneResult (.vand f) f s w (fun k => lane a k &&& lane b k) ∧
    LaneResult (.vor f) f s w (fun k => lane a k ||| lane b k) ∧
    LaneResult (.vxor f) f s w (fun k => lane a k ^^^ lane b k) ∧
    LaneResult (.vshl f) f s w (fun k => lane a k * 2 ^ (lane b k % ew) % 2 ^ ew) ∧
    LaneResult (.vshr f) f s w (fun k => lane a k / 2 ^ (lane b k % ew)) ∧
    LaneResult (.vsra f) f s w
      (fun k => wrapInt ew (toSigned ew (lane a k) / ((2 ^ (lane b k % ew) : Nat) : Int))) ∧
    LaneResult (.vclip f) f s w (fun k => clipElem f.ty (lane a k) (lane b k))

/-- R281, R283 to R287, R291: moves, selection, comparison, permutations and lane counts. R285, R287: one lane taken
out, running counts and counts of a predicate. -/
def Obligations.VectorMoveResults : Prop :=
  (∀ (f : Fmt) (s : State) (a : List Nat), LanedA f s a →
    let w := f.ty.laneWidth
    let l := f.ty.lanes
    LaneResult (.vmov f) f s w (fun k => lane a k) ∧
    LaneResult (.vun f) f s w (fun k => unaryElem f.ty f.var.val (lane a k)) ∧
    (∀ r, f.b = .p r →
      LaneResult (.vcompr f) f s w
        (fun k => lane (((List.range l).filter (fun i => (s.me.rp r).getLsbD i)).map (fun i => lane a i)) k) ∧
      LaneResult (.vexpnd f) f s w
        (fun k => if (s.me.rp r).getLsbD k then lane a (popBelow (s.me.rp r) k) else 0)) ∧
    (∀ b, srcLanes s f.ty f.b f.imm = .ok b →
      (∀ r, f.d = .p r → BitsAre (.vcmp f) f s (fun k => decide (k < l) &&
        (if laneOn s f k then compareElem f.ty f.var.val (lane a k) (lane b k) else (s.me.rp r).getLsbD k))) ∧
      (f.b ≠ .none → LaneResult (.vsel f) f s w (fun k => if selectBit s.me f.imm k then lane a k else lane b k)) ∧
      (f.b = .none → LaneResult (.vsel f) f s w (fun k => if selectBit s.me f.imm k then lane a k else 0)) ∧
      (f.var.val = 0 → LaneResult (.vperm f) f s w (fun k => lane a (lane b k % l))) ∧
      (f.var.val ≠ 0 → LaneResult (.vperm f) f s w (fun k => lane a (lane b k))) ∧
      (f.var.val = 0 → f.b ≠ .none → LaneResult (.vslide f) f s w
        (fun k => if f.imm.toNat ≤ k then lane a (k - f.imm.toNat) else lane b (l - f.imm.toNat + k))) ∧
      (f.var.val ≠ 0 → f.b ≠ .none → LaneResult (.vslide f) f s w
        (fun k => if k + f.imm.toNat < l then lane a (k + f.imm.toNat) else lane b (k + f.imm.toNat - l))) ∧
      (f.var.val = 0 → f.b = .none → LaneResult (.vslide f) f s w
        (fun k => if f.imm.toNat ≤ k then lane a (k - f.imm.toNat) else 0)) ∧
      (f.var.val ≠ 0 → f.b = .none → LaneResult (.vslide f) f s w
        (fun k => if k + f.imm.toNat < l then lane a (k + f.imm.toNat) else 0)) ∧
      LaneResult (.vzip f) f s w (fun k =>
        lane (if k % 2 = 0 then a else b) ((if f.var.val = 0 then 0 else l / 2) + k / 2)) ∧
      LaneResult (.vunzip f) f s w (fun k => lane (a ++ b) (2 * k + f.var.val))) ∧
    (∀ x i, f.b = .x x → i = (s.me.rx x).toNat % l → (∀ h c, f.a ≠ .q h c) →
      ∃ r, Gives512 (.vins f) f s s r ∧ ∀ k, k < l → lane (lanesOf w r) k =
        if laneOn s f k = true ∧ k = i then lane a 0 % 2 ^ w else lane (oldLanes s w f.d) k)) ∧
  (∀ (f : Fmt) (s : State), dstReady s f.d = .ok () →
    let w := f.ty.laneWidth
    let l := f.ty.lanes
    (∀ v b, src512 s f.a = .ok v → src64 s f.b f.imm = .ok b → laneOn s f (b.toNat % l) = true →
      Gives64 (.vext f) f s s (extendLane f.ty (lane (lanesOf w v) (b.toNat % l)))) ∧
    (∀ r v b, f.d = .x r → src512 s f.a = .ok v → src64 s f.b f.imm = .ok b → laneOn s f (b.toNat % l) = false →
      Ends (.vext f) s (passed (used f s))) ∧
    (∀ r, f.a = .p r → LaneResult (.viota f) f s w (fun k => popBelow (s.me.rp r) k)) ∧
    (f.a = .none → LaneResult (.viota f) f s w (fun k => k)) ∧
    (∀ r, f.a = .p r → f.var.val = 0 → Gives64 (.vpopc f) f s s (BitVec.ofNat 64
      ((List.range l).filter (fun i => (s.me.rp r).getLsbD i && laneOn s f i)).length)) ∧
    (∀ r, f.a = .p r → f.var.val ≠ 0 → Gives64 (.vpopc f) f s s (BitVec.ofNat 64
      (((List.range l).filter (fun i => (s.me.rp r).getLsbD i && laneOn s f i)).headD l))))

/-- R288 to R290: reductions and scans over the enabled lanes in the fixed order of R273 and R274, and dot products.
-/
def Obligations.VectorReductionResults : Prop :=
  ∀ (f : Fmt) (s : State) (a : List Nat), LanedA f s a →
    let present := (List.range f.ty.lanes).map (fun i => if laneOn s f i then some (lane a i) else none)
    let root := treeRoot (nodeOp f) present
    let levels := treeLevels (nodeOp f) present (Nat.log2 present.length)
    (f.b = .none → Gives64 (.vred f) f s s (extend f.ty (canon f.ty (root.getD (nodeIdentity f))))) ∧
    (∀ b y, f.b ≠ .none → src64 s f.b f.imm = .ok b → root = some y →
      Gives64 (.vred f) f s s (extend f.ty (canon f.ty (nodeOp f y (lowBits f.ty b))))) ∧
    (∀ b, f.b ≠ .none → src64 s f.b f.imm = .ok b → root = none → f.imm.toNat % 8 = 0 →
      Gives64 (.vred f) f s s (extend f.ty (canon f.ty (nodeOp f 0 (lowBits f.ty b))))) ∧
    (∀ b, f.b ≠ .none → src64 s f.b f.imm = .ok b → root = none → f.imm.toNat % 8 ≠ 0 →
      Gives64 (.vred f) f s s (extend f.ty (canon f.ty (lowBits f.ty b)))) ∧
    LaneResult (.vscan f) f s f.ty.laneWidth (fun k => canon f.ty ((treePrefix (nodeOp f) levels k).getD 0)) ∧
    (∀ b, srcLanes s f.ty f.b f.imm = .ok b →
      LanesAre (.vdot f) f s 32 (fun k => dotLane f (laneOn s f) a b (lane (oldLanes s 32 f.d) k) k))

/-- R298 to R305, R291: conversions between lane types, block scales, lookup and bit planes. -/
def Obligations.VectorConversionResults : Prop :=
  ∀ (f : Fmt) (s : State), dstReady s f.d = .ok () →
    let w := f.ty.laneWidth
    let ld := f.ty.lanes
    let src := immSource f
    let md := modeOf f.var.val
    let sat := satOf f.var.val
    let part := slice f.imm.toNat 10 8
    let old := oldLanes s w f.d
    let taken (t : Ty) (a : List Nat) (g : Nat → Nat) (k : Nat) : Nat :=
      if ld ≤ t.lanes then g (lane a (part * ld + k))
      else if part * t.lanes ≤ k ∧ k < part * t.lanes + t.lanes then g (lane a (k - part * t.lanes)) else lane old k
    (∀ a, srcLanes s src f.a f.imm = .ok a →
      LaneResult (.vcvt f) f s w (taken src a (convert src f.ty md sat)) ∧
      LaneResult (.vpod f) f s w (taken src a (fun x => roundPod md (elemVal src x)))) ∧
    (∀ a, srcLanes s .pod8 f.a f.imm = .ok a →
      LaneResult (.vpodd f) f s w (taken .pod8 a (fun x => deliver f.ty .rne false (elemVal .pod8 x)))) ∧
    (∀ a b, srcLanes s f.ty f.a f.imm = .ok a → src64 s f.b f.imm = .ok b →
      LanesAre (.vcvtp f) f s (cvtpWidth f) (fun k =>
        if part * ld ≤ k ∧ k < part * ld + ld ∧ laneOn s f (k - part * ld) = true
        then cvtpElem f (b.toNat % 256) (lane a (k - part * ld)) else lane (oldLanes s (cvtpWidth f) f.d) k)) ∧
    (∀ a b, src512 s f.a = .ok a → src64 s f.b f.imm = .ok b →
      LaneResult (.vrequ f) f s w (fun k => lane (lanesOf w (ofLanes f.ty.width
        ((lanesOf f.ty.width a).map (requElem f (slice b.toNat 7 0) (slice b.toNat 15 8))))) k)) ∧
    (∀ a b, srcLanes s .i32 f.a f.imm = .ok a → srcLanes s .i32 f.b f.imm = .ok b →
      LaneResult (.vscacc f) f s 32 (fun k => scaccElem f (lane (oldLanes s 32 f.d) k) (lane a k) (lane b k))) ∧
    (∀ a, srcLanes s f.ty f.a f.imm = .ok a →
      (f.var.val = 0 → LaneResult (.vbexp f) f s 16
        (fun k => lane ((bexpBlocks f s a).map (fun b => b.2.map (wrapInt 16))).flatten k)) ∧
      (f.var.val ≠ 0 → Gives64 (.vbexp f) f s s (BitVec.ofNat 64 (packLanes 8 ((bexpBlocks f s a).map (·.1))))) ∧
      LanesAre (.vplane f) f s 1 (fun k => if laneOn s f (k % ld) then (bitOf (lane a (k % ld)) (k / ld)).toNat
        else lane (oldLanes s 1 f.d) k)) ∧
    (∀ a, src512 s f.a = .ok a →
      LaneResult (.vunpl f) f s w
        (fun k => packLanes 1 ((List.range f.ty.width).map (fun p => (bitOf a.toNat (ld * p + k)).toNat))) ∧
      (∀ b, srcLanes s f.ty f.b f.imm = .ok b →
        LaneResult (.vlut f) f s w (fun k => lane b (slice a.toNat (4 * k + 3) (4 * k)))))

/-- R244, R245, R246: loads deliver the bytes of their address, little-endian, extended by the type: of the scratchpad
of the hart's own core at once, of memory on the eager path from the answer to their request, and nothing else
changes. A prefetch delivers nothing. -/
def Obligations.LoadResults : Prop :=
  ∀ (f : Fmt) (s : State), Open f s →
    let va := effAddr (xval s f.a) f.imm
    let n := f.ty.width / 8
    (∀ off, aligned s va n = .ok () → resolve s s.iAm .load va = .ok (.spad s.myCore off) → Quiet s →
      loadBlocked s.myUnit.jobs (va56 va) n = false →
      Gives64 (.ld f) f s s (extend f.ty (leNat (spadRead s s.myCore s.myCtx off n)))) ∧
    (∀ dpa e p q, aligned s va n = .ok () → resolve s s.iAm .load va = .ok (.mem dpa e) →
      eagerPath s (eagerVar f) e = true → placeOf s dpa = some p → fabricRefusal s p s.myCtx = none →
      s.me.waited = [] → loadBlocked s.myUnit.jobs (va56 va) n = false →
      s.inbox.find? (s.hartRead p n e va).answeredBy = some q → q.status = .ok →
      let u := ({ s with inbox := s.inbox.erase q } : State).dropAhead (.hart s.cur) s.myCtx p
      dstReady u f.d = .ok () → Gives64 (.ld f) f s u (extend f.ty (leNat (leBytes n q.data.toNat)))) ∧
    (∀ t u v, aligned s va n = .ok () → resolve s s.iAm .load va = .ok t →
      scalarLoad s t va n (eagerVar f) = .ok (u, v) → dstReady u f.d = .ok () →
      Gives64 (.ld f) f s u (extend f.ty v)) ∧
    (∀ d t u v, f.d = .x d → aligned s va 16 = .ok () → resolve s s.iAm .load va = .ok t →
      scalarLoad s t va 16 (eagerVar f) = .ok (u, v) →
      Ends (.ldp f) s (((used f u).modMe (fun h => h.wx d (BitVec.ofNat 64 v))).modMe
        (fun h => (h.wx (pairReg f.d) (BitVec.ofNat 64 (v / 2 ^ 64))).advance))) ∧
    (prefTarget s va = none → Ends (.pref f) s (passed (used f s))) ∧
    (∀ line e, prefTarget s va = some (line, e) →
      (∀ u d, loadLine s line 0 e va = .ok (u, d) → Ends (.pref f) s (passed (used f u))) ∧
      (∀ u x, loadLine s line 0 e va = .error (.fault u x) → Ends (.pref f) s (passed (used f s)))) ∧
    Ends (.prefRow f) s (passed (used f s))

/-- R293 to R296: a vector load checks every enabled lane, performs the accesses, and gives each enabled lane its own
bytes. -/
def Obligations.VectorLoadResults : Prop :=
  ∀ (f : Fmt) (s : State), dstReady s f.d = .ok () →
    let n := laneBytes f
    let loads (i : Instr) (unit : Bool) (offs : List Int) : Prop :=
      let vas := laneVas f s offs
      ∀ s1 ls u vs, checkLanes s .load (wholeReg f unit f.d vas) (eagerVar f) n vas = .ok (s1, ls) →
        loadGroups s1 n (eagerVar f) ((groupLanes unit ls).length == 1) (groupLanes unit ls) = .ok (u, vs) →
        dstReady u f.d = .ok () →
        LaneResultAt i f s u f.ty.laneWidth (fun k => ((vs.find? (fun v => v.1 == k)).map (·.2)).getD 0)
    loads (.vld f) true (unitOffs f) ∧
    (∀ step, src64 s f.b f.imm = .ok step → loads (.vlds f) false (strideOffs f step)) ∧
    (∀ idx, src512 s f.b = .ok idx → loads (.vldx f) false (indexOffs f idx))

/-- R244, R245, R293 to R297: a store performs its accesses at the checked addresses and goes on; a vector store
allocates its Phase lines before any byte is written, and performs its accesses one by one, those that an earlier issue
of it has performed left out. -/
def Obligations.StoreResults : Prop :=
  ∀ (f : Fmt) (s : State),
    let va := effAddr (xval s f.a) f.imm
    let n := f.ty.width / 8
    (∀ b t u, guardOn f s = true → src64 s f.b 0 = .ok b → aligned s va n = .ok () →
      resolve s s.iAm .store va = .ok t → scalarStore s t va n (lowBits f.ty b) (eagerVar f) = .ok u →
      Ends (.st f) s (passed (used f u))) ∧
    (∀ t u, guardOn f s = true → aligned s va 16 = .ok () → resolve s s.iAm .store va = .ok t →
      scalarStore s t va 16 ((xval s f.b).toNat + 2 ^ 64 * (s.me.rx (pairReg f.b)).toNat) (eagerVar f) = .ok u →
      Ends (.stp f) s (passed (used f u))) ∧
    (let m := laneBytes f
     let stores (i : Instr) (unit : Bool) (offs : List Int) : Prop :=
       let vas := laneVas f s offs
       ∀ data u ls, srcLanes s f.ty f.b f.imm = .ok data →
         checkLanes s .store (wholeReg f unit f.b vas) (eagerVar f) m vas = .ok (u, ls) →
         let gs := groupLanes unit ls
         (∀ v w, u.me.groupsDone = [] → allocGroups u (gs.filter (fun g => g.any (·.phase u (eagerVar f)))) = .ok v →
           storeGroups v m data (eagerVar f) [] 0 gs = .ok w → Ends i s (passed (used f w))) ∧
         (∀ w, u.me.groupsDone ≠ [] → storeGroups u m data (eagerVar f) [] 0 gs = .ok w → Ends i s (passed (used f w)))
     stores (.vst f) true (unitOffs f) ∧
     stores (.vsts f) false (strideOffs f (xval s f.d)) ∧
     stores (.vstx f) false (indexOffs f (indexReg s f.d)))

/-- R361 to R369: an atomic answers the old value that its read-modify-write gives, performed in the scratchpad of its
own core at once or answered from elsewhere; a reduce-store leaves a request; a waitw goes on once its comparison
holds. -/
def Obligations.AtomicResults : Prop :=
  ∀ (f : Fmt) (s : State), guardOn f s = true →
    let va := xval s f.a
    let n := f.ty.width / 8
    let acquired (u : State) : State := if immAcq f then acquire u else u
    let answers (i : Instr) (op : RmwOp) (b : W64) : Prop :=
      (∀ t s1 u old, rmwIssued s = false → atomicTarget s va n false = .ok t →
        (if immRel f then release s (immScope f) else .ok s) = .ok s1 →
        rmwAt s1 t va op f.ty (lowBits f.ty b) = .ok (u, old) → dstReady (acquired u) f.d = .ok () →
        Gives64 i f s (acquired u) (extend f.ty old)) ∧
      (∀ u old, rmwIssued s = true → rmwAnswer s va f.ty = .ok (u, old) → dstReady (acquired u) f.d = .ok () →
        Gives64 i f s (acquired u) (extend f.ty old))
    (∀ b, src64 s f.b f.imm = .ok b →
      (dstReady s f.d = .ok () → answers (.amo f) (amoOp f.var.val) b) ∧
      (∀ d, f.d = .x d → answers (.cas f) (.cas (BitVec.ofNat 64 (lowBits f.ty (s.me.rx d)))) b)) ∧
    (∀ b dpa e s1 p tag, srcAt s f.ty f.b = .ok b →
      ((f.d = .none ∧ tag = none) ∨ ∃ r, f.d = .x r ∧ tag = some (s.me.rx r)) →
      atomicTarget s va n tag.isSome = .ok (.mem dpa e) →
      (if immRel f then release s (immScope f) else .ok s) = .ok s1 → interlock s1 .atomic va n = .ok () →
      let s2 := afterInterlock s1
      placeOf s2 dpa = some p →
      (fabricRefusal s2 p s2.myCtx = none → s2.fabricWaits p = false →
        Ends (.amored f) s (passed (used f (s2.sendReq
          { kind := .atomic, agent := .hart s2.cur, ctx := s2.myCtx, place := p, size := n, data := BitVec.ofNat 512 b
            op := amoOp f.var.val, ty := f.ty, tag := tag, reduce := true, rerun := s2.reruns, va := va, leaf := some e
            posted := true })))) ∧
      (fabricRefusal s2 p s2.myCtx = some .fabric → Ends (.amored f) s (passed (used f (deferFabric s2 va))))) ∧
    (∀ b core off s1, srcAt s f.ty f.b = .ok b → f.d = .none → atomicTarget s va n false = .ok (.spad core off) →
      (if immRel f then release s (immScope f) else .ok s) = .ok s1 → interlock s1 .atomic va n = .ok () →
      slotFlying s1 core off = false →
      let s2 := afterInterlock s1
      Ends (.amored f) s (passed (used f (s2.sendReq
        { kind := .atomic, agent := .hart s2.cur, ctx := s2.myCtx, place := .spad core off, size := n
          data := BitVec.ofNat 512 b, op := amoOp f.var.val, ty := f.ty, reduce := true, va := va, posted := true })))) ∧
    (∀ b t u bs, src64 s f.b f.imm = .ok b → alignedIn false s va n = .ok () → canonical va = true →
      (va.getLsbD 55 = true → va.toNat % 2 ^ 55 / 2 ^ 32 < 3) → resolve s s.iAm .load va = .ok t →
      loadAt s t va n true = .ok (u, bs) →
      (decide (leNat bs = lowBits f.ty b) ≠ decide (f.var.val = 1) →
        Ends (.waitw f) s (passed (used f (acquired u)))) ∧
      (decide (leNat bs = lowBits f.ty b) = decide (f.var.val = 1) →
        exec (.waitw f) s = .next ((sleepOn u (granuleOf u t)).modMe (fun h => { h with waiting := true }))))

/-- R56, R244, R125: a store to a scratchpad leaves with its bytes for the bank, and once it is performed there the
bytes at its address are the value's and every other byte of every memory reads as before. R73, R75: the same of a write
that a column command performs in device memory, all of its bytes or those under its mask. R363, R364, R365: an atomic
in the own scratchpad leaves the operation's value in place of the old one, which it answers; a compare-and-swap
writes nothing when the comparison fails. -/
def Obligations.ScratchpadAccessesAct : Prop :=
  (∀ (f : Fmt) (s : State) (b : W64) (core off : Nat),
    let va := effAddr (xval s f.a) f.imm
    let n := f.ty.width / 8
    guardOn f s = true → src64 s f.b 0 = .ok b → aligned s va n = .ok () →
    resolve s s.iAm .store va = .ok (.spad core off) → s.me.waited = [] →
    storeBlocked s.myUnit.jobs (va56 va) n = false → slotFlying s core off = false →
    Ends (.st f) s (passed (used f (s.post (.spad core off) n 0 (v512 (leBytes n (lowBits f.ty b))) va)))) ∧
  (∀ (s : State) (n core off : Nat) (r : Request), Mem.wf s.spad = true → s.reqNet[n]? = some r →
    r.place = .spad core off → leavesNow s n r = true → r.kind = .write → r.mask = 0 → r.ctx ≠ sysCtx →
    regionReady s core off = true →
    let key := spadKey core r.ctx off
    ∃ t, exec (.scratch n) s = .next t ∧ t.mem = s.mem ∧ t.reqNet = s.reqNet.eraseIdx n ∧
      (∀ i, i < r.size → Mem.read t.spad (key + i) = BitVec.ofNat 8 (r.data.toNat / 256 ^ i)) ∧
      (∀ k, (k < key ∨ key + r.size ≤ k) → Mem.read t.spad k = Mem.read s.spad k)) ∧
  (∀ (s : State) (bank n p : Nat) (r : Request), Mem.wf s.mem = true → (Tab.get [] s.bankQ bank)[n]? = some r →
    r.place = .mem p → mayPerform s (Tab.get [] s.bankQ bank) n = true → r.kind = .write → r.enc = false →
    ∃ t, exec (.columnCommand bank n) s = .next t ∧ t.spad = s.spad ∧
      (r.mask = 0 → writeRefused s p r.size = false →
        (∀ i, i < r.size → Mem.read t.mem (p + i) = BitVec.ofNat 8 (r.data.toNat / 256 ^ i)) ∧
        (∀ k, (k < p ∨ p + r.size ≤ k) → Mem.read t.mem k = Mem.read s.mem k)) ∧
      (r.mask ≠ 0 → badAt s p 64 = false →
        (∀ i, i < 64 → Mem.read t.mem (p + i) =
          if r.mask.getLsbD i then BitVec.ofNat 8 (r.data.toNat / 256 ^ i) else Mem.read s.mem (p + i)) ∧
        (∀ k, (k < p ∨ p + 64 ≤ k) → Mem.read t.mem k = Mem.read s.mem k))) ∧
  (∀ (s : State) (va : W64) (op : RmwOp) (ty : Ty) (b off : Nat), Quiet s →
    storeBlocked s.myUnit.jobs (va56 va) (ty.width / 8) = false →
    let old := leNat (spadRead s s.myCore s.myCtx off (ty.width / 8))
    (∀ v, rmwNew op ty old b = some v →
      rmwAt s (.spad s.myCore off) va op ty b =
        .ok (spadWrite s s.myCore s.myCtx off (leBytes (ty.width / 8) v), old)) ∧
    (∀ e, op = .cas e → old ≠ e.toNat → rmwAt s (.spad s.myCore off) va op ty b = .ok (s, old)))

/-- R127 to R130, R247, R371: the ordering instructions and cinv perform their release and acquire parts and go on.
R128: an acquire drops every Clean line of the hart's context from the core's data cache, and no Phase line. -/
def Obligations.OrderingResults : Prop :=
  (∀ (f : Fmt) (s : State), guardOn f s = true →
    let va := effAddr (xval s f.a) f.imm
    (∀ u, release (if s.me.inRel then s else acquire s) (immScope f) = .ok u → Ends (.phase f) s (passed (used f u))) ∧
    (∀ u, release s (immScope f) = .ok u → Ends (.rel f) s (passed (used f u))) ∧
    Ends (.acq f) s (passed (used f (acquire s))) ∧
    (∀ u, fenceAt s (immScope f) = .ok u → Ends (.fenceSc f) s (passed (used f u))) ∧
    (∀ u, localWrites s = false → fenceAt s (immScope f) = .ok u → Ends (.fenceIo f) s (passed (used f u))) ∧
    (canonical va = true → va.getLsbD 55 = false → Ends (.cinvLine f) s (passed (used f
      (keepILines s (fun l => !(l.ctx == s.myCtx && l.line == va.toNat % 2 ^ 56 / 64)))))) ∧
    ((canonical va = false ∨ va.getLsbD 55 = true) → Ends (.cinvLine f) s (passed (used f s))) ∧
    Ends (.cinvAll f) s (passed (used f (keepILines s (fun l => l.ctx != s.myCtx))))) ∧
  (∀ (s : State) (k : Nat) (c : CacheLine),
    c ∈ Tab.get [] ((acquire s).core s.myCore).dcache k →
      ¬(c.ctx = s.myCtx ∧ c.owner = none) ∧
      ∃ d ∈ Tab.get [] (s.core s.myCore).dcache k, d.ctx = c.ctx ∧ d.line = c.line ∧ d.owner = c.owner ∧
        d.data = c.data ∧ d.mask = c.mask)

/-- R251: pushes, pops, advances and waits on queue handles. R251, R178: on a local handle of an empty ring, the slot
pushed is the slot at the consumer pointer. -/
def Obligations.QueueMoveResults : Prop :=
  (∀ (f : Fmt) (s : State), guardOn f s = true →
    (∀ v h, pushBytes s f = .ok v → producerEnd s (handleOf f.d) = .ok h → hasRoom s h 1 = true →
      slotFree s (h.slotAt s false 0) = true → mayPublish s h = true →
      Ends (.qpush f) s (passed (used f (publishSlots (slotWrite s h 0 v) h 1)))) ∧
    (∀ h v, popEnd s (handleOf f.a) = .ok h → queueRead s (handleOf f.a) 0 = .ok v → dstReady s f.d = .ok () →
      mayFree s h 1 = true → dstReady (freeAt s h 1) f.d = .ok () →
      (∀ r, f.d = .v r → Gives512 (.qpop f) f s (freeAt s h 1) v) ∧
      ((∀ r, f.d ≠ .v r) → Gives64 (.qpop f) f s (freeAt s h 1) (dwordOf v 0))) ∧
    (∀ n h, countOf s f f.b = .ok n →
      (popEnd s (handleOf f.a) = .ok h → n ≤ h.count → n ≤ h.ready → mayFree s h n = true →
        Ends (.qadv f) s (passed (used f (freeAt s h n)))) ∧
      (producerEnd s (handleOf f.a) = .ok h → n ≤ h.count → n = 0 →
        Ends (.qprod f) s (passed (used f s))) ∧
      (producerEnd s (handleOf f.a) = .ok h → n ≤ h.count → n ≠ 0 → hasRoom s h n = true → mayPublish s h = true →
        Ends (.qprod f) s (passed (used f (publishSlots s h n)))) ∧
      (consumerEnd s (handleOf f.a) = .ok h → n ≤ h.count → n ≤ h.ready →
        holdsDue s s.myCore s.myCtx (handleOf f.a).val = false →
        Ends (.qwaitFill f) s (passed (used f s))) ∧
      (roomEnd s (handleOf f.a) = .ok h → n ≤ h.count → n ≤ h.free →
        Ends (.qwaitRoom f) s (passed (used f s))))) ∧
  (∀ (s : State) (n : Fin 16) (r : Ring) (v : V512),
    Mem.wf s.spad = true → producerEnd s n = .ok (.local_ n.val r) → r.pp = r.cp → r.cp < 2 ^ 32 → 0 < r.count →
    r.markers = [] → r.visits = [] → s.me.feed = [] → slotFree s (s.myCore, r.slotOff r.pp) = true →
    queueRead (publishSlots (slotWrite s (.local_ n.val r) 0 v) (.local_ n.val r) 1) n 0 = .ok v)

/-- R252 to R254: handles are bound and freed, and their status is read. -/
def Obligations.QueueBindingResults : Prop :=
  ∀ (f : Fmt) (s : State), guardOn f s = true → unitsReady s = .ok () →
    let n := handleOf f.a
    let b := s.me.qbind[n]
    let key := linkKey (slotOf s.cur) n.val
    (∀ r, f.b = .x r → dstReady s f.d = .ok () →
      (bindStatus s n (s.me.rx r) = 0 → dstReady (bindHandle s n (s.me.rx r)) f.d = .ok () →
        Gives64 (.qbind f) f s (bindHandle s n (s.me.rx r)) 0) ∧
      (bindStatus s n (s.me.rx r) ≠ 0 →
        Gives64 (.qbind f) f s s (BitVec.ofNat 64 (bindStatus s n (s.me.rx r))))) ∧
    (qbBound b = false → Ends (.qfree f) s (passed (used f s))) ∧
    (qbBound b = true → qbMode b = 0 → Ends (.qfree f) s (passed (used f (setQbind s n 0)))) ∧
    (qbBound b = true → qbMode b = 1 → s.link s.myCore s.myCtx key = none →
      Ends (.qfree f) s (passed (used f (setQbind s n 0)))) ∧
    (∀ l, qbBound b = true → qbMode b = 1 → s.link s.myCore s.myCtx key = some l → l.flying = 0 →
      let u := dropCredits (releasePeer s s.myCtx l) s.myCtx l.core l.ring s.myCore key
      Ends (.qfree f) s (passed (used f (setQbind (u.dropLink s.myCore s.myCtx key) n 0)))) ∧
    (dstReady s f.d = .ok () →
      (qbBound b = false → Gives64 (.qstat f) f s s 0) ∧
      (∀ h, qbBound b = true → statEnd s n = .ok h →
        Gives64 (.qstat f) f s s (qstatWord b h) ∧
        Gives64 (.qstatHead f) f s s (headAddr h) ∧
        Gives64 (.qstatTail f) f s s (tailAddr h)))

/-- R407, R408, R410, R413, R421, R422: the tour instructions on a compute hart: the status each answers, and what it
starts, binds or releases; at a visit past its hold limit trel waits and the slot is reclaimed. -/
def Obligations.TourInstructionResults : Prop :=
  ∀ (f : Fmt) (s : State), guardOn f s = true → isSup s.cur = false →
    (∀ u bs, unitsReady s = .ok () → (xval s f.a).toNat % 64 = 0 → loadWords s (xval s f.a) 64 2 = .ok (u, bs) →
      (itCheck u u.myCtx (leNat bs) ≠ 0 → dstReady u f.d = .ok () →
        Gives64 (.tour f) f s u (BitVec.ofNat 64 (itCheck u u.myCtx (leNat bs)))) ∧
      (∀ w st, itCheck u u.myCtx (leNat bs) = 0 → offerTour u (leNat bs) = .ok (w, st) → dstReady w f.d = .ok () →
        Gives64 (.tour f) f s w (BitVec.ofNat 64 st))) ∧
    (unitsReady s = .ok () → qbBound s.me.qbind[handleOf f.a] = true → dstReady s f.d = .ok () →
      let h := handleOf f.a
      let b := s.me.qbind[h]
      let r := s.ring s.myCore s.myCtx h.val
      (qbMode b = 2 → Gives64 (.tourBind f) f s s 0) ∧
      (qbMode b ≠ 2 → qbMode b ≠ 0 → Gives64 (.tourBind f) f s s 1) ∧
      (qbMode b = 0 → (r.filled ≠ 0 ∨ r.peer.isSome = true) → Gives64 (.tourBind f) f s s 2) ∧
      (∀ d, f.d = .x d → qbMode b = 0 → r.filled = 0 → r.peer = none → Gives64 (.tourBind f) f s
        ((s.modMe (fun m => { m with
          qbind := m.qbind.set h (mkQbind true (qbRint b) 2 (qbPhandle b) (qbPcore b)) })).setRing
          s.myCore s.myCtx h.val { r with tour := true }) 0)) ∧
    (∀ r, tourHandle s (handleOf f.a) = .ok r → dstReady s f.d = .ok () →
      let h := handleOf f.a
      (∀ v, headVisit r = some v → v.expired s = false →
        (f.b ≠ .none → (xval s f.b).toNat % 2 ^ 32 ≠ v.arr →
          Gives64 (.trel f) f s s 1 ∧ Gives64 (.trelEnd f) f s s 1) ∧
        ((f.b = .none ∨ (xval s f.b).toNat % 2 ^ 32 = v.arr) → ∀ d, f.d = .x d →
          (v.ended = true →
            Gives64 (.trel f) f s (s.popHead s.myCore s.myCtx h.val) 2 ∧
            Gives64 (.trelEnd f) f s (s.popHead s.myCore s.myCtx h.val) 2) ∧
          (v.ended = false → capturedBy s.myUnit.matrix h.val v.arr = false → storesTo s s.myCore = false →
            regionsReady s s.myCore (r.slotOff v.arr) r.slotBytes = true →
            Gives64 (.trel f) f s (releaseVisit s s.myCore s.myCtx h.val v false) 0 ∧
            Gives64 (.trelEnd f) f s (releaseVisit s s.myCore s.myCtx h.val v true) 0)) ∧
        Gives64 (.tstatHead f) f s s (visitWord v)) ∧
      (∀ v, headVisit r = some v → v.expired s = true →
        let w := expire s s.myCore s.myCtx h.val v
        exec (.trel f) s = settle (.error (.wait w)) ∧ exec (.trelEnd f) s = settle (.error (.wait w)) ∧
        (dstReady w f.d = .ok () → Gives64 (.tstatHead f) f s w
          (match headVisit (w.ring w.myCore w.myCtx h.val) with
            | some v => visitWord v
            | none => 0))) ∧
      (headVisit r = none → Gives64 (.tstatHead f) f s s 0)) ∧
    (dstReady s f.d = .ok () →
      let a := (xval s f.a).toNat
      (∀ t, s.tour? (slice a 25 16) s.myCtx (slice a 15 0) = some t →
        Gives64 (.tstat f) f s s (tourStat t (slice a 15 0))) ∧
      (s.tour? (slice a 25 16) s.myCtx (slice a 15 0) = none → Gives64 (.tstat f) f s s 0))

/-- R423 to R442: the pipeline instructions on a compute hart with its units ready: what each answers, and what it
opens, reserves, binds, drops, injects or takes. -/
def Obligations.PipelineInstructionResults : Prop :=
  ∀ (f : Fmt) (s : State), guardOn f s = true → isSup s.cur = false → unitsReady s = .ok () →
    (∀ u b w bs d, f.d = .x d → aligned s (xval s f.a) 32 = .ok () → loadWords s (xval s f.a) 32 1 = .ok (u, b) →
      loadWords u (plus (xval s f.a) 32) 32 (if rf (leNat b) 0 20 16 ≤ 16 then rf (leNat b) 0 20 16 else 0) = .ok (w, bs) →
      let st := openStatus w (leNat (b ++ bs)) (handleOf f.b)
      (st = 0 → Gives64 (.splprepOpen f) f s (openPipe w (leNat (b ++ bs)) (handleOf f.b)) 0) ∧
      (st ≠ 0 → Gives64 (.splprepOpen f) f s w st)) ∧
    (∀ v p i d, f.d = .x d → src512 s f.a = .ok v → stageChecks v.toNat = [] →
      whereBad s s.myCtx [stageOf v.toNat 0] = none →
      let st := stageOf v.toNat 0
      let g := s.ring st.core s.myCtx st.ring
      let key := xval s f.b
      g.stage = true → pipeOf s s.myCtx key = some p → p.reserved = none → ringTaken s s.myCtx g = false →
      (List.range 16).find? (fun i => !p.usedIndex i) = some i →
      Gives64 (.splprepStage f) f s
        (let t := (leftOver s s.myCtx st.core st.ring).modPipe s.myCtx key.toNat (fun p => { p with reserved := some (i, st) })
         t.setRing st.core s.myCtx st.ring { t.ring st.core s.myCtx st.ring with member := some (key.toNat, i) })
        (BitVec.ofNat 64 (i * 2 ^ 16))) ∧
    (∀ d, f.d = .x d →
      let qi := handleOf f.a
      let qo := handleOf f.b
      let r := s.ring s.myCore s.myCtx qi.val
      let b := s.me.qbind[qi]
      qbBound b = true → qbMode b = 0 → r.decl = true → r.tour = false → r.stage = false → r.filled = 0 →
      peerBound s s.myCtx r = false → r.member = none → qbBound s.me.qbind[qo] = false →
      Gives64 (.splprepBind f) f s
        ((s.setRing s.myCore s.myCtx qi.val { r with stage := true, outKey := some (linkKey (slotOf s.cur) qo.val) }).modMe
          (fun m => { m with
            qbind := (m.qbind.set qi (mkQbind true (qbRint b) 3 qi.val s.myCore)).set qo (mkQbind true false 3 0 0)
            roles := Tab.put (Tab.put m.roles qi.val 1) qo.val 2 })) 0) ∧
    (∀ p i st d, f.d = .x d → pipeOf s s.myCtx (xval s f.a) = some p → p.reserved = some (i, st) → p.splice = none →
      (xval s f.b).toNat = i → Gives64 (.splprepDrop f) f s
        ((s.modPipe s.myCtx (xval s f.a).toNat (fun p => { p with reserved := none })).setRing st.core s.myCtx st.ring
          { s.ring st.core s.myCtx st.ring with member := none }) 0) ∧
    (∀ v id q u d, f.d = .x d → src512 s f.a = .ok v →
      s.myUnit.pipes.find? (fun e => e.2.head == linkKey (slotOf s.cur) (handleOf f.b).val) = some (id, q) →
      injectStatus s s.myCtx (some q) v.toNat = 0 → release s q.scope = .ok u →
      Gives64 (.splinj f) f s (inject u (u.myCore * 2 ^ 16 + id) q v.toNat) 0) ∧
    (dstReady s f.d = .ok () →
      (∀ p, pipeOf s s.myCtx (xval s f.a) = some p → Gives64 (.splstat f) f s s (pipeWord p)) ∧
      (pipeOf s s.myCtx (xval s f.a) = none → Gives64 (.splstat f) f s s 0)) ∧
    (∀ r d, f.d = .x d → inHandle s (handleOf f.a) = .ok r →
      (∀ code, r.rebound = some code → Gives64 (.splstatTake f) f s
        (acquire (s.setRing s.myCore s.myCtx (handleOf f.a).val { r with rebound := none })) (code ||| 2)) ∧
      (r.rebound = none → r.inherit.isSome = true → Gives64 (.splstatTake f) f s (acquire s) 3) ∧
      (r.rebound = none → r.inherit = none → frontMarker r = none → 0 < r.visible →
        Gives64 (.splstatTake f) f s s 0) ∧
      (∀ m p x, r.rebound = none → r.inherit = none → frontMarker r = some m → awaitsStage s s.myCtx r m = true →
        s.pipe? s.myCtx m.pipe = some p → p.splice = some x → x.opk ≠ 1 → mayRebind s r p x m = true →
        exec (.splstatTake f) s = settle (inRelease (hold (markTaken s (handleOf f.a).val)))) ∧
      (∀ m p x u, r.rebound = none → r.inherit = none → frontMarker r = some m → awaitsStage s s.myCtx r m = true →
        s.pipe? s.myCtx m.pipe = some p → p.splice = some x → x.opk = 1 → release s p.scope = .ok u →
        Gives64 (.splstatTake f) f s (acquire (leavePipe u (handleOf f.a).val r p x m)) 1) ∧
      Gives64 (.splstatInh f) f s (s.setRing s.myCore s.myCtx (handleOf f.a).val { r with inherit := none })
        (r.inherit.getD 0))

/-- R409 to R418: the events of tours: a leg whose slot in transit has waited too long, one that reserves its slot, and one
that copies; a tile that lands at its stop; an owed visit made good, a visit reclaimed after its hold limit, a tile in
transit dropped where its next stop lacks room, a tour completed, and a watchdog that ran out. -/
def Obligations.TourEventsAct : Prop :=
  ∀ (s : State) (origin id : Nat) (t : Tour),
    let ctx := s.ctxOf origin
    let goesOn (i : Instr) (l : Leg) (ready : Bool) : Prop :=
      (∀ u, l.reserved = true → legStep s origin ctx id t l = .ok u → exec i s = .next u.sendPosts) ∧
      (∀ w m u, l.reserved = false → ready = true → reserveLeg s origin ctx id t l = (w, m) →
        legStep w origin ctx id t m = .ok u → exec i s = .next u.sendPosts)
    (∀ l, runningTour s origin id = some t → t.legs.find? (fun l => !l.mg && !l.sent) = some l →
      (∀ core ring x, overdueSlot s ctx l = some (core, ring, x) →
        exec (.tourLeg origin id) s = .next (dropTransit s core ctx ring x)) ∧
      (overdueSlot s ctx l = none → goesOn (.tourLeg origin id) l (stopReady s ctx (t.stopAt l.stop)))) ∧
    (∀ n m stop mg into d l, s.ringNet[n]? = some m → m.body = .tile origin id stop mg into d →
      ringFirst s n m = true → ringArrives s m = true → stageWaits s m = false → s.tour? origin m.ctx id = some t →
      t.legs.find? (fun l => l.sent && l.stop == stop && l.mg == mg && l.into == into) = some l →
      exec (.ringPublish n) s =
        .next (landTile { s with ringNet := s.ringNet.eraseIdx n } origin m.ctx id t l d)) ∧
    (∀ l, runningTour s origin id = some t →
      t.legs.find? (fun l => l.mg && !l.sent && (l.reserved || goodReady s ctx t l)) = some l →
      goesOn (.makeGood origin id) l true) ∧
    (∀ i rest, runningTour s origin id = some t → t.legs.any (fun l => l.mg && l.into.isNone) = false →
      t.legs.find? (fun l => l.mg && !l.sent && (l.reserved || goodReady s ctx t l)) = none → t.goods = i :: rest →
      exec (.makeGood origin id) s = .next (s.modTour origin ctx id (fun t => { t with
        goods := rest, legs := t.legs ++ [{ stop := i, source := .src, mg := true }] }))) ∧
    (unitsLive s origin = true → s.tour? origin ctx id = some t → t.complete = true →
      let ends (u : State) : State :=
        if t.irq then raiseIn (dropTour u origin ctx id t) t.hart ctx 3 else dropTour u origin ctx id t
      (t.cword = 0 → exec (.tourComplete origin id) s = .next (ends s)) ∧
      (∀ u, t.cword ≠ 0 →
        engWrite1 s (jobWho s origin (tourJob id)) (.ring origin) 0 t.cword (leBytes 8 (tourWord t)) = .ok u →
        exec (.tourComplete origin id) s = .next (ends u).sendPosts)) ∧
    (runningTour s origin id = some t → t.limit ≤ t.dog → t.complete = false →
      exec (.tourWatchdog origin id) s = .next ((endTour s origin ctx id 10).sendPacket (.ring origin) ctx 0
        { code := .tourWatchdog, tag := id })) ∧
    (∀ ring slot v, (s.core origin).active.isSome = true →
      (s.ring origin ctx ring).visits.find? (fun v => v.arr == slot) = some v →
      (v.expired s = true → beingRead (s.unit origin ctx).matrix ring v.arr = false →
        exec (.holdExpiry origin ring slot) s = .next (reclaim s origin ctx ring v)) ∧
      (v.expired s = false → exec (.holdExpiry origin ring slot) s = .next s)) ∧
    (∀ ring slot x, (s.core origin).active.isSome = true →
      (s.ring origin ctx ring).transit.find? (fun x => x.arr == slot) = some x → x.hold ≠ 0 → x.hold ≤ x.waited →
      exec (.transitDrop origin ring slot) s = .next (dropTransit s origin ctx ring x))

/-- R250, R425, R428: a message of the ring network reaches its ring or its producer and takes effect there. R428 to
R434: the events of a splice: a marker that passes a stage, the three changes at their effect points, a REMOVE at the
head handle, the drain acknowledgement, and the completion. -/
def Obligations.RingAndSpliceEventsAct : Prop :=
  (∀ (s : State) (n : Nat) (m : RingMsg), s.ringNet[n]? = some m → ringFirst s n m = true →
    let s1 : State := { s with ringNet := s.ringNet.eraseIdx n }
    (∀ idx v, m.body = .slot idx v → ringArrives s m = true → stageWaits s m = false →
      exec (.ringPublish n) s = .next (spadWrite s1 m.dst m.ctx ((s.ring m.dst m.ctx m.ring).slotOff idx)
        (bytesOf 64 v.toNat))) ∧
    (∀ k, m.body = .publish k → ringArrives s m = true → stageWaits s m = false →
      ∃ t, exec (.ringPublish n) s = .next t ∧ t.ringNet = s1.ringNet ∧
        (t.ring m.dst m.ctx m.ring).pp = ((s.ring m.dst m.ctx m.ring).pp + k) % 2 ^ 32 ∧ t.mem = s.mem ∧ t.spad = s.spad) ∧
    (∀ k l, m.body = .credit k → s1.link m.dst m.ctx m.link = some l → l.core = m.src → l.ring = m.ring →
      ∃ t, exec (.creditReturn n) s = .next t ∧ t.ringNet = s1.ringNet ∧ t.mem = s.mem ∧ t.spad = s.spad ∧
        t.link m.dst m.ctx m.link = some { l with credit := l.credit + k })) ∧
  (∀ (s : State) (core pipe : Nat),
    let ctx := s.ctxOf core
    (∀ e, lostMarker s core pipe = some e → exec (.markerPass core pipe) s = .next (passLost s core ctx e)) ∧
    (∀ h, lostMarker s core pipe = none → standing s core pipe = some h → h.atEffect = false →
      awaitsStage s ctx h.ring h.m = false →
      exec (.markerPass core pipe) s = .next (passOn s core ctx h.n h.next h.m)) ∧
    (∀ h st i n, standing s core pipe = some h → h.atEffect = true → h.settled s core ctx = true →
      splicePlan s ctx pipe h.p h.x = .goes → h.p.stage? h.i = some st →
      (h.x.opk = 0 → h.p.reserved = some (i, n) → exec (.spliceInsert core pipe) s =
        .next (passOn (effectInsert s ctx pipe h.x st n) core ctx h.n h.next { h.m with live := false })) ∧
      (h.x.opk = 1 → (s.pipe? ctx pipe).bind (·.splice) = some h.x → h.x.atHead = false →
        exec (.spliceRemove core pipe) s = .next (passOn
          (effectRemove s ctx pipe h.p h.x core (s.ring st.core ctx st.ring).outKey) core ctx h.n h.next
          { h.m with live := false })) ∧
      (h.x.opk = 2 → h.m.taken = true →
        let r := s.ring st.core ctx st.ring
        let u := s.setRing st.core ctx st.ring { r with rebound := some h.x.code }
        exec (.spliceRebind core pipe) s = .next (passOn
          (holdLink (u.modPipe ctx pipe (fun p => p.modStage h.i (fun y => { y with code := h.x.code }))) ctx pipe core
            r.outKey) core ctx h.n h.next { h.m with live := false }))) ∧
    (∀ p x t, s.pipe? ctx pipe = some p → p.splice = some x → core = pipe / 2 ^ 16 → unitsLive s core = true →
      x.atHead = true → p.stage? x.target = some t → splicePlan s ctx pipe p x = .goes →
      exec (.spliceRemove core pipe) s = .next (sendMarker (effectRemove s ctx pipe p x core (some p.head)) ctx core p.head
        (t.core, t.ring) { pos := 0, pipe := pipe, live := false })) ∧
    (∀ key l, (s.core core).active.isSome = true → swapIdle s core = true →
      (s.unit core ctx).links.find? (fun e => e.2.ackOf == some pipe) = some (key, l) →
      exec (.drainAcknowledgement core pipe) s = .next (endHold s ctx core key l)) ∧
    (∀ p x, s.pipe? ctx pipe = some p → p.splice = some x → core = pipe / 2 ^ 16 → unitsLive s core = true →
      x.tailPassed = true →
      let ends (u : State) : State :=
        let t := (ackHere u core ctx pipe x).modPipe ctx pipe (fun p => { p with splice := none, lstatus := x.status })
        if x.irq then raiseIn t x.hart ctx 4 else t
      (x.cword = 0 → exec (.spliceComplete core pipe) s = .next (ends s)) ∧
      (∀ u, x.cword ≠ 0 →
        engWrite1 s (engineWho s core) (.ring core) 0 x.cword (leBytes 8 (spliceWord x)) = .ok u →
        exec (.spliceComplete core pipe) s = .next (ends u).sendPosts)))

/-- R313, R330 to R334: the matrix instructions of a compute hart, and a card stored to the port window. -/
def Obligations.MatrixInstructionResults : Prop :=
  ∀ (f : Fmt) (s : State), isSup s.cur = false →
    (∀ c t, pushMatrix s c = .ok t → Ends (.mxpush c) s t) ∧
    (guardOn f s = true →
      (∀ c t, src512 s f.a = .ok c → pushMatrix s c = .ok t → Ends (.mxq f) s (passed (used f t))) ∧
      (unitsReady s = .ok () →
        let m := s.myUnit.matrix
        (∀ b, src64 s f.b f.imm = .ok b → min b.toNat 128 ≤ m.wm[tileOf f.a] →
          Ends (.mxwmWait f) s (passed (used f s))) ∧
        (∀ b, src64 s f.b f.imm = .ok b → m.wm[tileOf f.a] < min b.toNat 128 →
          exec (.mxwmWait f) s = settle (.error (.wait s))) ∧
        (∀ a b, src64 s f.a f.imm = .ok a → src512 s f.b = .ok b → m.cards.any (usesTile (tileOf f.d)) = false →
          Ends (.mxwr f) s (passed (used f (s.setMyUnit { s.myUnit with matrix := { m with
            tiles := m.tiles.set (tileOf f.d) ((indexed (lanesOf 32 b)).foldl (fun tb p => putCell tb
              (256 * (a.toNat % 2048 / 16) + 16 * (a.toNat % 2048 % 16) + p.1) (toSigned 32 p.2))
              m.tiles[tileOf f.d]) } })))) ∧
        (dstReady s f.d = .ok () →
          Gives64 (.mxwm f) f s s (BitVec.ofNat 64 m.wm[tileOf f.a]) ∧
          (∀ b, src64 s f.b f.imm = .ok b → b.toNat % 2048 / 16 < m.wm[tileOf f.a] →
            LanesAre (.mxrd f) f s 32 (fun j =>
              wrapInt 32 (m.tileAt (tileOf f.a) (b.toNat % 2048 / 16) (16 * (b.toNat % 2048 % 16) + j)))) ∧
          (m.stop ≠ .stopped → Gives512 (.mxcont f) f s s 0xF) ∧
          (∀ d, f.d = .v d → m.stop = .stopped → Gives512 (.mxcont f) f s
            (s.setMyUnit { s.myUnit with matrix := { m with stop := .held } }) m.cont) ∧
          Gives64 (.mxstat f) f s s (mxStatus m) ∧
          Gives64 (.mxstatSticky f) f s s
            (BitVec.ofNat 64 (m.sticky[tileOf f.a].toNat / 2 ^ (64 * (f.imm.toNat % 2)))))))

/-- R308, R312 to R327: the matrix engine's jobs. A started job whose card passes its check runs: ZERO clears its
tile, DRAIN stores it row by row, RUNA adds a row, LOADB and CONT read their record, fill a slot row by row and end; a
stop, a command and a completion. -/
def Obligations.MatrixEventsAct : Prop :=
  ∀ (s : State) (core : Nat),
    (∀ t r, mxStart s core .port = some (t, r) → lowestReport (cardChecks r.c.card) = none →
      let c := r.c.card
      let off := cardOff c + r.row * cardRowPitch c
      (cardOp c = 0 → exec (.zero core) s = .next (mxEnd (t.modMatrix core (fun m => { m with
        tiles := m.tiles.set (cardTile c) [], sticky := m.sticky.set (cardTile c) 0 })) core .port r 0)) ∧
      (cardOp c = 3 → cardOff c % 4 = 0 →
        rowsEnd (cardOff c) (cardVrows c) (cardRowPitch c) (4 * cardVcols c) ≤ spadSize →
        ((cardVrows c ≤ r.row ∨ cardVcols c = 0) → exec (.drain core) s = .next (mxEnd t core .port r 0)) ∧
        (r.row < cardVrows c → cardVcols c ≠ 0 → spadFree t core (t.ctxOf core) (.matrix core) off (4 * cardVcols c) = true →
          exec (.drain core) s =
            .next ((spadWrite t core (t.ctxOf core) off (drainRow (t.liveUnit core).matrix c r.row)).modMatrix core
              (fun m => m.setUnitRun .port (some { r with row := r.row + 1 })))))) ∧
    (∀ t r, mxStart s core .array = some (t, r) → lowestReport (cardChecks r.c.card) = none →
      runaRefusal r.c.card = none → exec (.runa core) s = .next (runaRow t core r)) ∧
    (∀ t r i, mxStart s core .loader = some (t, r) → lowestReport (cardChecks r.c.card) = none →
      ((i = .loadb core ∧ cardOp r.c.card = 1) ∨ (i = .cont core ∧ cardOp r.c.card = 4)) →
      let c := r.c.card
      (cardTour c = true →
        let w := invalidateSlot t core c
        (r.row = 0 → slotFilled w core c r.c.cap = false → exec i s = .next w) ∧
        ((r.row ≠ 0 ∨ slotFilled w core c r.c.cap = true) →
          (cardVk c ≤ r.row → exec i s = .next (fillSlot w core r (cardVk c))) ∧
          (∀ es, r.row < cardVk c → tourRow w core c r.c.cap r.row = some es →
            exec i s = .next (loadRow w core r es)))) ∧
      (cardTour c = false → (t.liveUnit core).matrix.xlate = none →
        (∀ u l, r.layout = none → loadbRecord t core r = .ok (u, l) → loadbRefusal u core c l = none →
          let w := invalidateSlot (u.modMatrix core (fun m => { m with loader := some { r with layout := some l } })) core c
          exec i s = .next (w.setLiveUnit core
            ((w.liveUnit core).modJob r.c.job (fun j => { j with keys := [cardKey c] }))).sendPosts) ∧
        (∀ l, r.layout = some l →
          let rows := min (cardVk c) (recWin l 1)
          (rows ≤ r.row → exec i s = .next (fillSlot t core r rows).sendPosts) ∧
          (∀ u es, r.row < rows →
            rowElems t (jobWho t core r.c.job) (.matrix core) l [recOrg l 0, recOrg l 1 + 256 * cardKbi c + r.row]
              (min (cardVcols c) (recWin l 0)) = (u, es, none) →
            exec i s = .next (loadRow u core r es).sendPosts)))) ∧
    (∀ f r, (s.liveUnit core).matrix.xlate = some f → (s.liveUnit core).matrix.loader = some r →
      exec (.matrixStop core) s = .next ((s.modMatrix core (fun m => m.stopLoader false)).sendPacket (.matrix core)
        ((s.modMatrix core (fun m => m.stopLoader false)).ctxOf core) 0 { f with tag := cardTag r.c.card })) ∧
    (∀ ctx h,
      let u := s.unit core ctx
      ((s.core core).active = some ctx → u.matrix.heldJob = some h → u.matrix.stop ≠ .running →
        exec (.mxcmdResume core ctx) s = .next (s.setUnit core ctx { u with matrix := { u.matrix with
          loader := some h, heldJob := none, stop := .running, swapped := false } }) ∧
        exec (.mxcmdKill core ctx) s = .next (s.setUnit core ctx { u with matrix := { u.matrix with
          loader := some { h with status := codeStatus stKilled 0, ended := true }, heldJob := none, stop := .running
          swapped := false, cont := 0, valid := u.matrix.valid.set (cardSlot h.c.card) false } })) ∧
      ((s.core core).active ≠ some ctx →
        exec (.mxcmdResume core ctx) s = .next (s.setUnit core ctx
          { u with matrix := { u.matrix with cmd := some .resume } }) ∧
        exec (.mxcmdKill core ctx) s = .next (s.setUnit core ctx
          { u with matrix := { u.matrix with cmd := some .kill } }))) ∧
    (∀ x r t u, unitsLive s core = true → endedUnit (s.liveUnit core).matrix = some (x, r) →
      payloadDone s (.matrix core) core r.c.job (if 5 < cardScope r.c.card then 4 else cardScope r.c.card) = .ok t →
      completeAt t core (.matrix core) r.c.job ((((s.liveUnit core).job r.c.job).map (·.cdest)).getD none)
        (completionBytes r.c.card r.status) = .ok u →
      exec (.matrixJobComplete core) s = .next
        (((u.modMatrix core (fun m => (m.setUnitRun x none).tileDone r.c)).endJob core (.matrix core) r.c.job).sendPosts))

/-- R343 to R350: the copy instructions, and records and heads stored to the port window. -/
def Obligations.CopyInstructionResults : Prop :=
  ∀ (f : Fmt) (s : State),
    (∀ ch w t, pushCopy s ch w = .ok t → Ends (.cppush ch w) s t) ∧
    (∀ ch v t, startChain s ch v = .ok t → Ends (.cphead ch v) s t) ∧
    (guardOn f s = true →
      (∀ w t, src512 s f.a = .ok w → pushCopy s (chanOf f) w = .ok t → Ends (.cpq f) s (passed (used f t))) ∧
      (∀ a t, src64 s f.a 0 = .ok a → startChain s (chanOf f) a = .ok t → Ends (.cpchn f) s (passed (used f t))) ∧
      (unitsReady s = .ok () → dstReady s f.d = .ok () →
        let k := s.myUnit.copy.chans[chanOf f]
        (k.st = .idle → Gives64 (.cpwm f) f s s 0) ∧
        (k.st ≠ .idle → Gives64 (.cpwm f) f s s ((BitVec.ofNat 56 k.wm).signExtend 64)) ∧
        Gives64 (.cpstat f) f s s (chanWord k) ∧
        (∀ d, f.d = .x d → Gives64 (.cpstatLog f) f s
          (s.setMyUnit { s.myUnit with copy := (popLog s.myUnit.copy).1 }) (popLog s.myUnit.copy).2)))

/-- R336 to R348: a channel's record is checked, does its next unit, and ends, each operation in its own event; a
chain's next record is read; a record is written back and completes once its payload is performed; a channel stops. -/
def Obligations.CopyEventsAct : Prop :=
  ∀ (s : State) (core ch : Nat),
    let c : Fin 4 := Fin.ofNat 4 ch
    let moves (i : Instr) (mine : Nat → Bool) (unit : State → Who → Agent → CopyRun → Unit_) : Prop :=
      ∀ t r, runningRecord s core c mine = some (t, r) →
        (∀ u, r.stage = .check → jobFree (t.liveUnit core).jobs r.r.job = true → checkStep t core c r = .ok u →
          exec i s = .next u.sendPosts) ∧
        (∀ u r1, r.stage = .move → r.pos < unitCount r → unit t (jobWho t core r.r.job) (.copy core ch) r = .ok (u, r1) →
          exec i s = .next (progress u core c r1).sendPosts) ∧
        (r.stage = .move → unitCount r ≤ r.pos →
          exec i s = .next (finishRecord t core c r (if r.hurt then xferStatus stIntegrity 0 0 0 else 0)))
    moves (.copy core ch) (fun op => op = 0 || op ≥ 8) copyUnit ∧
    moves (.fill core ch) (· = 1) fillUnit ∧
    moves (.plane core ch) (· = 2) planeUnit ∧
    moves (.unplane core ch) (· = 3) unplaneUnit ∧
    moves (.fprint core ch) (· = 4) fprintUnit ∧
    moves (.dedup core ch) (· = 5) dedupUnit ∧
    moves (.kvpack core ch) (· = 6) kvpackUnit ∧
    moves (.gather core ch) (· = 7) gatherUnit ∧
    (∀ t v, unitsStart s core = true → (chan s core c).st = .running → (chan s core c).xlate = none →
      (chan s core c).run = none → (chan s core c).queue = [] → (chan s core c).head ≠ 0 → (chan s core c).head % 64 = 0 →
      hazardRoom (s.liveUnit core) = true →
      engReadNat s (engineWho s core) (.copy core ch) 0 (BitVec.ofNat 64 (chan s core c).head) 64 = .ok (t, v) →
      exec (.chainRecordRead core ch) s = .next (takeChained t core c (chan s core c).head v).sendPosts) ∧
    (∀ t r, runningRecord s core c (fun _ => true) = some (t, r) →
      ∀ u, payloadDone s (.copy core ch) core r.r.job (if 5 < xferScope r.r.words then 4 else xferScope r.r.words) = .ok u →
        (∀ a w, r.stage = .back → r.r.inmem = some a → backStep u core c r a = .ok w →
          exec (.copyRecordComplete core ch) s = .next w.sendPosts) ∧
        (∀ w, r.stage = .complete → wordStep u core c r = .ok w →
          exec (.copyRecordComplete core ch) s = .next (leaveRecord w core c r).sendPosts)) ∧
    (∀ f r, (chan s core c).xlate = some f → (chan s core c).run = some r →
      exec (.copyChannelStop core ch) s = .next ((s.setChan core c { chan s core c with xlate := none, st := .stopped }).sendPacket
        (.copy core ch) ((s.setChan core c { chan s core c with xlate := none, st := .stopped }).ctxOf core) 0
        { f with tag := xferTag r.r.words }))

/-- R352 to R355: the exponent engine: its instruction, a card stored to the port window, a card's elements by
operation in rising order, and its completion. -/
def Obligations.ExponentResults : Prop :=
  ∀ (f : Fmt) (s : State) (core : Nat),
    (∀ c t, isSup s.cur = false → pushExponent s c = .ok t → Ends (.expush c) s t) ∧
    (∀ c t, guardOn f s = true → isSup s.cur = false → src512 s f.a = .ok c → pushExponent s c = .ok t →
      Ends (.exq f) s (passed (used f t))) ∧
    (let parts (i : Instr) (mine : Nat → Bool) (part : State → Nat → Running → State × Running) : Prop :=
       ∀ t r u q, runningCard s core mine = some (t, r) → lowestReport (exChecks r.c.card) = none →
         exCount r.c.card ≠ 0 → exRefusal r.c.card = none → exFree t core r = true → part t core r = (u, q) →
         (exRows r.c.card * exCount r.c.card ≤ q.row → exec i s = .next (exEnd u core q 0)) ∧
         (q.row < exRows r.c.card * exCount r.c.card →
           exec i s = .next (u.modExponent core (fun e => { e with run := some q })))
     parts (.exp2 core) (fun op => op = 0 || op > 4) exStep ∧
     parts (.expe core) (· = 1) exStep ∧
     parts (.recip core) (· = 2) exStep ∧
     parts (.rsqrt core) (· = 3) exStep ∧
     parts (.softrow core) (· = 4) softStep) ∧
    (∀ r t, (s.liveUnit core).exponent.run = some r → r.ended = true → unitsLive s core = true →
      completeAt s core (.exponent core) r.c.job ((((s.liveUnit core).job r.c.job).map (·.cdest)).getD none)
        (completionBytes r.c.card r.status) = .ok t →
      exec (.expCardComplete core) s = .next
        (((t.modExponent core (fun e => { e with run := none })).endJob core (.exponent core) r.c.job).sendPosts))

/-- R356, R360: the Harrow's instructions, and a start stored to the port window. -/
def Obligations.HarrowInstructionResults : Prop :=
  ∀ (f : Fmt) (s : State), isSup s.cur = false →
    (∀ w t, w.toNat / 2 ^ 138 = 0 → startHarrow s (dwordOf w 0) (dwordOf w 1) (dwordOf w 2).toNat = .ok t →
      Ends (.hstartRegister w) s t) ∧
    (guardOn f s = true →
      (∀ a b t, src64 s f.a 0 = .ok a → src64 s f.b 0 = .ok b → startHarrow s a b f.imm.toNat = .ok t →
        Ends (.hstart f) s (passed (used f t))) ∧
      (unitsReady s = .ok () →
        (dstReady s f.d = .ok () →
          Gives64 (.hstat f) f s s (harrowWord s.myUnit.harrow) ∧
          Gives64 (.hstatH f) f s s (s.myUnit.harrow.h[(Fin.ofNat 8 f.imm.toNat : Fin 8)])) ∧
        (∀ v t bs, s.myUnit.harrow.st ≠ .running → src64 s f.b 0 = .ok v →
          let b := v.toNat
          let va := xval s f.a
          (slice b 15 10 = 0 → b / 2 ^ 27 = 0 → slice b 9 0 + (slice b 26 16 + 1) ≤ 1024 → aligned s va 8 = .ok () →
            loadWords s va 8 (slice b 26 16 + 1) = .ok (t, bs) →
            Ends (.hloadCode f) s (passed (used f (t.setMyUnit { t.myUnit with
              harrow := (List.range (slice b 26 16 + 1)).foldl (fun h i => { h with
                code := Tab.put h.code (slice b 9 0 + i) (BitVec.ofNat 64 (leNat ((bs.drop (8 * i)).take 8))) })
                t.myUnit.harrow })))) ∧
          (slice b 15 4 = 0 → b / 2 ^ 21 = 0 → slice b 3 0 + (slice b 20 16 + 1) ≤ 16 → aligned s va 64 = .ok () →
            loadWords s va 64 (slice b 20 16 + 1) = .ok (t, bs) →
            Ends (.hloadTmpl f) s (passed (used f (t.setMyUnit { t.myUnit with
              harrow := (List.range (slice b 20 16 + 1)).foldl (fun h i => { h with
                tmpl := Tab.put h.tmpl (slice b 3 0 + i) (BitVec.ofNat 512 (leNat ((bs.drop (64 * i)).take 64))) })
                t.myUnit.harrow })))))))

/-- R357 to R359: a running Harrow's microword at its pc, each operation in its own event: registers, branches, loops,
waits, signals, pushes of cards, and its ends. -/
def Obligations.HarrowEventsAct : Prop :=
  ∀ (s : State) (core : Nat),
    let h := (s.liveUnit core).harrow
    let w := Tab.get 0 h.code h.pc
    unitsStart s core = true → h.st = .running → hwBad w = false →
    let set (g : Harrow) : Host.Outcome State Fault Refusal := .next (s.modHarrow core (fun _ => g))
    let va := h.h[hwHa w] + hwSimm w
    (hwOp w = 0 → exec (.harrowNop core) s = set h.bump) ∧
    (hwOp w = 5 → exec (.harrowSeti core) s = set (h.setH (hwHa w) (hwSimm w)).bump) ∧
    (hwOp w = 6 → exec (.harrowAddi core) s = set (h.setH (hwHa w) (h.h[hwHb w] + hwSimm w)).bump) ∧
    (hwOp w = 7 → hwCond (hwX w) h.h[hwHa w] h.h[hwHb w] = true →
      exec (.harrowCmpb core) s = set (h.goto (hwImm w % 1024))) ∧
    (hwOp w = 7 → hwCond (hwX w) h.h[hwHa w] h.h[hwHb w] = false → exec (.harrowCmpb core) s = set h.bump) ∧
    (hwOp w = 8 → 4 ≤ h.stack.length → exec (.harrowLoop core) s = set (h.trap 0x8002)) ∧
    (hwOp w = 8 → h.stack.length < 4 → h.h[hwHa w] = 0 →
      exec (.harrowLoop core) s = set (h.goto (hwImm w % 1024 + 1))) ∧
    (hwOp w = 8 → h.stack.length < 4 → h.h[hwHa w] ≠ 0 → exec (.harrowLoop core) s =
      set (Harrow.bump { h with stack := (h.pc + 1, h.h[hwHa w]) :: h.stack })) ∧
    (hwOp w = 9 → h.stack = [] → exec (.harrowEndl core) s = set (h.trap 0x8003)) ∧
    (∀ start n rest, hwOp w = 9 → h.stack = (start, n) :: rest →
      (n = 1 → exec (.harrowEndl core) s = set (Harrow.bump { h with stack := rest })) ∧
      (n ≠ 1 → exec (.harrowEndl core) s = set (Harrow.goto { h with stack := (start, n - 1) :: rest } start))) ∧
    (hwOp w = 11 → exec (.harrowTrap core) s = set { h.trap (hwImm w % 2 ^ 15) with pc := (h.pc + 1) % 1024 }) ∧
    (hwOp w = 12 → exec (.harrowEnd core) s = set { h with st := .idle, pc := (h.pc + 1) % 1024 }) ∧
    (hwOp w = 2 → engineIdle (s.liveUnit core) (hwY w 47 46) (hwY w 45 44) = true →
      exec (.harrowWaitq core) s = .next (s.modHarrow core (·.bump))) ∧
    (hwOp w = 3 → Nat.min va.toNat 128 ≤ (s.liveUnit core).matrix.wm[(Fin.ofNat 2 (hwX w) : Fin 2)] →
      exec (.harrowWaitwm core) s = .next (s.modHarrow core (·.bump))) ∧
    (∀ t v, hwOp w = 4 → va.toNat % 8 = 0 →
      engReadNat s (engineWho s core) (.harrow core) 0 va 8 = .ok (t, v) →
      exec (.harrowWaitc core) s = .next (if v = (h.h[hwHb w]).toNat then t.modHarrow core (·.bump) else t).sendPosts) ∧
    (∀ t, hwOp w = 10 → hwX w ≤ 5 → va.toNat % 8 = 0 →
      engWrite1 s (engineWho s core) (.harrow core) 0 va (leBytes 8 (h.h[hwHb w]).toNat) = .ok t →
      exec (.harrowSignal core) s = .next (t.modHarrow core (·.bump)).sendPosts) ∧
    (∀ t, hwOp w = 1 →
      let s1 : State := { s with cur := h.starter }
      let back : State :=
        { t.setHart h.starter { t.hart h.starter with inRel := (s.hart h.starter).inRel } with cur := s.cur }
      ((hwY w 47 46 = 0 ∧ pushMatrix s1 (issueCard h w) = .ok t) ∨
        (hwY w 47 46 = 1 ∧ pushExponent s1 (issueCard h w) = .ok t) ∨
        (hwY w 47 46 = 2 ∧ pushCopy s1 (Fin.ofNat 4 (hwY w 45 44)) (issueCard h w) = .ok t)) →
      exec (.harrowIssue core) s = .next (back.modHarrow core (·.bump)))

/-- R446 to R452, R457, R458: the table and stream instructions: what the operation over the table returns is written,
the second value of stframe to the next register. R446: an instruction's operation goes to the unit of its table once
the unit is free, after the instruction's release; it is waited for; its results come with an acquire, or its fault.
The unit decides the operation on what it reads, performs its effects, and is free when they are performed. -/
def Obligations.TableInstructionResults : Prop :=
  (∀ (f : Fmt) (s t : State) (b : W64) (vals : List W64), guardOn f s = true → src64 s f.b f.imm = .ok b →
    dstReady s f.d = .ok () → dstReady t f.d = .ok () →
    let va := xval s f.a
    let acts (op : TabOp) (i : Instr) : Prop := tableAct s va op = .ok (t, vals) → Gives64 i f s t (vals.headD 0)
    acts (.map b.toNat 0) (.kvmap f) ∧ acts (.map b.toNat 1) (.kvmapApp f) ∧ acts (.map b.toNat 2) (.kvmapWr f) ∧
    acts (.swap b.toNat 0) (.kvswapFork f) ∧ acts (.swap b.toNat 1) (.kvswapAccept f) ∧
    acts (.swap b.toNat 2) (.kvswapReject f) ∧ acts (.trunc b.toNat) (.kvtrunc f) ∧ acts (.win b.toNat) (.kvwin f) ∧
    acts (.gen b) (.stadvGen f) ∧ acts (.play b) (.stadvPlay f) ∧
    (∀ d, f.d = .x d → tableAct s va (.frame b.toNat) = .ok (t, vals) →
      Ends (.stframe f) s (passed (((used f t).modMe (fun h => h.wx d ((vals[0]?).getD 0))).modMe
        (fun h => h.wx (Fin.ofNat 32 (d.val + 1)) ((vals[1]?).getD 0)))))) ∧
  (∀ (s t : State) (va : W64) (op : TabOp) (p : Place),
    s.runsOf (.hart s.cur) s.myCtx = [] → (∃ q, tableAt s s.iAm va = .ok q) → release s 4 = .ok t →
    t.runsOf (.hart s.cur) s.myCtx = [] → t.myCtx = s.myCtx → tableAt t t.iAm va = .ok p →
    let run : TableRun := { unit := some (unitOfPlace t p), agent := some (.hart s.cur), core := s.myCore, ctx := s.myCtx
                            va := va, op := op }
    ((t.unitRun (unitOfPlace t p)).isSome = true →
      tableAct s va op = .error (.wait (t.modMe (fun h => { h with inRel := false })))) ∧
    (t.unitRun (unitOfPlace t p) = none →
      tableAct s va op = .error (.wait { t with tableOps := t.tableOps ++ [run] }))) ∧
  (∀ (s : State) (va : W64) (op : TabOp) (r : TableRun) (rs : List TableRun), s.runsOf (.hart s.cur) s.myCtx = r :: rs →
    let taken := s.forsakeRuns (.hart s.cur) s.myCtx
    ((∃ q ∈ r :: rs, q.unit ≠ none) → tableAct s va op = .error (.wait s)) ∧
    ((∀ q ∈ r :: rs, q.unit = none ∧ q.fault = none) → tableAct s va op = .ok (acquire taken, r.vals)) ∧
    (∀ g, (∀ q ∈ r :: rs, q.unit = none) → ((r :: rs).filterMap (·.fault)).head? = some g →
      tableAct s va op = .error (.fault taken g))) ∧
  (∀ (s : State) (device port : Nat),
    let u := unitNumber device port
    (s.unitRun u = none → exec (.tableOperation device port) s = .next s) ∧
    (∀ r, s.unitRun u = some r → u < 2 ^ 20 →
      (r.decided = false → exec (.tableOperation device port) s = .next (decideRun s u r)) ∧
      (r.decided = true → ∀ t q, runActs s u r (2 * r.acts.length + 1) = (t, q) →
        ((q.acts ≠ [] ∨ unitWrites t u = true) → exec (.tableOperation device port) s = .next (t.setUnitRun u q)) ∧
        (q.acts = [] → unitWrites t u = false → exec (.tableOperation device port) s = .next (endRun t u q)))) ∧
    (∀ r vals t, s.unitRun u = some r → u < 2 ^ 20 → r.decided = false →
      r.op.decide r.va r.ctx { s := s, run := r, w := r.who, ag := .table u } = .ok (vals, t) → t.late = none → t.sub = none →
      exec (.tableOperation device port) s = .next (t.s.setUnitRun u { t.run with decided := true, vals := vals })))

/-- R448, R450 to R452: table operations over a header: positions outside the table map to 0, a mapped position to its
slot's address; a mapping for writing to the slot's address where its page is not shared, to 1 where no page is free, to
2 where the ring's entry is no free page, else to its copy's; a window raises the edge and frees the entries behind it; a
swap without a shadow answers 1 and one of an invalid shadow 2, and neither writes, else 0; a truncation counts the pages
of the live entries that it frees. -/
def Obligations.TableOperationValues : Prop :=
  ∀ (h : Header) (st : TabSt) (p var : Nat),
    ((h.nblk * 64 ≤ p ∨ p < h.edge) → kvMap h p var st = .ok (0, st)) ∧
    (∀ e st1, p < h.nblk * 64 → h.edge ≤ p → rdEntry (h.entry (p / 64)) st = .ok (e, st1) →
      let k := rankOf e.surv (p % 64)
      let pg := (e.pages[k / 16]?).getD 0
      (e.valid = false → kvMap h p var st = .ok (0, st1)) ∧
      (e.valid = true → pg ≠ 0 → pg ≤ h.npage →
        (bitOf e.surv (p % 64) = true → kvMap h p 0 st = .ok (plus (h.page pg) (256 * (k % 16)), st1)) ∧
        (bitOf e.surv (p % 64) = false → kvMap h p 0 st = .ok (0, st1)) ∧
        kvMap h p 1 st = .ok (plus (h.page pg) (256 * (k % 16)), st1))) ∧
    ((h.dw 4 = 0 ∨ h.nblk ≤ p) → kvSwap h p var st = .ok (1, st)) ∧
    (∀ x st1, h.dw 4 ≠ 0 → p < h.nblk → rdTab (h.shadow p) 32 st = .ok (x, st1) → (entryOf x).valid = false →
      kvSwap h p 1 st = .ok (2, st1) ∧ kvSwap h p 2 st = .ok (2, st1)) ∧
    (∀ e st1 c st2, p < h.nblk * 64 → h.edge ≤ p → rdEntry (h.entry (p / 64)) st = .ok (e, st1) → e.valid = true →
      let k := rankOf e.surv (p % 64)
      let pg := (e.pages[k / 16]?).getD 0
      let slot (q : Nat) : W64 := plus (h.page q) (256 * (k % 16))
      let fcons := (h.dw 9).toNat
      pg ≠ 0 → pg ≤ h.npage → rdTab (h.ref pg) 4 st1 = .ok (c, st2) →
      (c ≤ 1 → kvMap h p 2 st = .ok (slot pg, st2)) ∧
      (1 < c → h.dw 8 = h.dw 9 → kvMap h p 2 st = .ok (1, st2)) ∧
      (∀ f st3 st4, 1 < c → h.dw 8 ≠ h.dw 9 → rdTab (plus (h.dw 7) (4 * (fcons % 2 ^ h.flog))) 4 st2 = .ok (f, st3) →
        wrNat (plus h.t 72) 8 (fcons + 1) st3 = .ok ((), st4) →
        ((f = 0 ∨ h.npage < f) → kvMap h p 2 st = .ok (2, st4)) ∧
        (∀ n st5, f ≠ 0 → f ≤ h.npage → rdTab (h.ref f) 4 st4 = .ok (n, st5) →
          (n ≠ 0 → kvMap h p 2 st = .ok (2, st5)) ∧
          (∀ st6 st7 st8 st9, n = 0 → copyPage (h.page pg) (h.page f) (List.range 64) st5 = .ok ((), st6) →
            wrNat (h.ref f) 4 1 st6 = .ok ((), st7) →
            wrNat (plus (h.entry (p / 64)) (4 * (k / 16))) 4 f st7 = .ok ((), st8) →
            releasePage h pg st8 = .ok ((), st9) → kvMap h p 2 st = .ok (slot f, st9))))) ∧
    (let edge := max h.edge p
     let frees (j : Nat) : TabM Nat := TabM.bind (freeEntry h (h.entry j)) (fun _ =>
       if h.dw 4 = 0 then TabM.pure 0 else freeEntry h (h.shadow j))
     ∀ st1 n st2,
      ((h.edge < p ∧ wrNat (plus h.t 16) 8 p st = .ok ((), st1)) ∨ (p ≤ h.edge ∧ st1 = st)) →
      forTab frees (List.range (min h.nblk (edge / 64))) st1 = .ok (n, st2) →
      kvWin h p st = .ok (BitVec.ofNat 64 edge, st2)) ∧
    (∀ va e st1, rdEntry va st = .ok (e, st1) →
      (e.valid = false → freeEntry h va st = .ok (0, st1)) ∧
      (∀ n st2 st3, e.valid = true → releaseEntry h e st1 = .ok (n, st2) → wrNat va 32 0 st2 = .ok ((), st3) →
        freeEntry h va st = .ok (n, st3) ∧ n = (e.pages.filter (fun q => q != 0)).length)) ∧
    (h.dw 4 ≠ 0 → p < h.nblk →
      let ea := h.entry p
      let sa := h.shadow p
      (∀ n st1 r st2 st3, discard h sa st = .ok (n, st1) → rdTab ea 32 st1 = .ok (r, st2) →
        wrNat sa 32 r st2 = .ok ((), st3) →
        ((entryOf r).valid = false → kvSwap h p 0 st = .ok (0, st3)) ∧
        (∀ m st4, (entryOf r).valid = true → addRefs h (entryOf r) st3 = .ok (m, st4) →
          kvSwap h p 0 st = .ok (0, st4))) ∧
      (∀ x st1, rdTab sa 32 st = .ok (x, st1) → (entryOf x).valid = true →
        (∀ y st2 st3 st4 n st5, rdTab ea 32 st1 = .ok (y, st2) → wrNat ea 32 x st2 = .ok ((), st3) →
          wrNat sa 32 y st3 = .ok ((), st4) → discard h sa st4 = .ok (n, st5) → kvSwap h p 1 st = .ok (0, st5)) ∧
        (∀ n st2, discard h sa st1 = .ok (n, st2) → kvSwap h p 2 st = .ok (0, st2)))) ∧
    (let cut (j : Nat) : TabM Nat :=
       if p ≤ 64 * j then freeEntry h (h.entry j)
       else TabM.bind (rdEntry (h.entry j)) (fun e =>
         TabM.bind (wrNat (plus (h.entry j) 16) 8 (e.surv % 2 ^ (p % 64))) (fun _ => TabM.pure 0))
     let step (j : Nat) : TabM Nat := TabM.bind (cut j) (fun n =>
       if h.dw 4 = 0 then TabM.pure n else TabM.bind (freeEntry h (h.shadow j)) (fun _ => TabM.pure n))
     ∀ n st1, forTab step ((List.range h.nblk).drop (p / 64)) st = .ok (n, st1) →
      kvTrunc h p st = .ok (BitVec.ofNat 64 n, st1))

/-- R372 to R377: the task instructions: a record spawned or refused with its status, a slice ended, yielded or given
a new deadline, and a packet launched. R402, R403: ranges are entered, and their chunks and what is left of them are
taken. -/
def Obligations.TaskInstructionResults : Prop :=
  (∀ (f : Fmt) (s t : State), guardOn f s = true →
     (∀ r, src512 s f.a = .ok r →
       (checkRecord s s.myCtx r ≠ 0 → dstReady s f.d = .ok () →
         Gives64 (.tspawn f) f s s (BitVec.ofNat 64 (checkRecord s s.myCtx r))) ∧
       (∀ l, checkRecord s s.myCtx r = 0 → s.launchFor (recGraph r) s.myCtx = some l → release s 4 = .ok t →
         (queueFull t (recGraph r) l (queueFor l r t.myCore none) = true → dstReady t f.d = .ok () →
           Gives64 (.tspawn f) f s t 4) ∧
         (queueFull t (recGraph r) l (queueFor l r t.myCore none) = false →
           dstReady (enqueueCounted t t.myCore r l) f.d = .ok () →
           Gives64 (.tspawn f) f s (enqueueCounted t t.myCore r l) 0))) ∧
     (∀ sl, s.me.slice = some sl →
       let later (x : W64) : W64 := if x = 0 ∨ (sl.d0 ≠ 0 ∧ sl.d0.toNat ≤ x.toNat) then x else sl.d0
       let w := s.modMe (fun h => { h with deadline := later (xval s f.a) })
       (dstReady w f.d = .ok () → Gives64 (.tdl f) f s w s.me.deadline) ∧
       ((if rmwIssued s = true then t = s else release s 4 = .ok t) →
         (∀ u, (recJoin sl.record = 0 ∧ u = t ∨ recJoin sl.record ≠ 0 ∧ joinStep t (recJoin sl.record) = .ok u) →
           let v := closeLoss (endRecord u u.myCore sl.record) sl.loss
           Ends (.tend f) s (leaveSlice v v.cur v.myCtx))) ∧
       (release s 4 = .ok t →
         (let r1 := recSetDword (recSetDword sl.record 0 (t.me.pc + 12)) 3 t.me.deadline
          let r2 := if f.a = .none then r1 else recSetDword r1 1 (xval t f.a)
          let v := leaveSlice t t.cur t.myCtx
          (∀ l, v.launch (recGraph r2) = some l →
            Ends (.tyield f) s (enqueueAt v (queueFor l r2 v.myCore none) { record := r2, loss := sl.loss })) ∧
          (v.launch (recGraph r2) = none → Ends (.tyield f) s v)))) ∧
     (∀ ts, (xval s f.a).toNat % 64 = 0 → packetTargets s (xval s f.a) 4 = .ok ts → release s 4 = .ok t →
       (∀ u code d, launchRead (readPacket t (xval s f.a) ts) = .error (.refuse u code d) → dstReady u f.d = .ok () →
         Gives64 (.tlaunch f) f s u (BitVec.ofNat 64 (d % 256 * 2 ^ 8 + code))) ∧
       (∀ u bs w v, launchRead (readPacket t (xval s f.a) ts) = .ok (u, bs) →
         runLaunch u (.hart t.cur) t.myCtx (isSup t.cur && t.me.modeS) (dwords bs 32) = .ok (w, v) →
         dstReady w f.d = .ok () → Gives64 (.tlaunch f) f s w v))) ∧
  (∀ (f : Fmt) (s : State), guardOn f s = true →
     let cl := clusterOf s.myCore
     (∀ r, src512 s f.a = .ok r → dstReady s f.d = .ok () →
       (sowBad r = true → Gives64 (.rngset f) f s s 1) ∧
       (∀ t, sowBad r = false → enterRange s cl (sowRange r s.myCtx (sowId f)) = some t → dstReady t f.d = .ok () →
         Gives64 (.rngset f) f s t 0) ∧
       (sowBad r = false → enterRange s cl (sowRange r s.myCtx (sowId f)) = none → Gives64 (.rngset f) f s s 2)) ∧
     (∀ d, f.d = .x d →
       (s.range? cl s.myCtx (sowId f) = none →
         Gives64 (.rngget f) f s (s.modMe (fun h => h.wx (pairReg f.d) 0)) 0) ∧
       (∀ e, s.range? cl s.myCtx (sowId f) = some e → Gives64 (.rngget f) f s
         ((s.setSow cl ((s.sow cl).map (fun q => if q.is e.ctx e.id then { q with next := q.next + e.chunk } else q))).modMe
           (fun h => h.wx (pairReg f.d) (BitVec.ofNat 64 e.chunk))) (BitVec.ofInt 64 e.next))) ∧
     (dstReady s f.d = .ok () →
       (s.range? cl s.myCtx (sowId f) = none → Gives64 (.rnggetLeft f) f s s 0) ∧
       (∀ e, s.range? cl s.myCtx (sowId f) = some e → Gives64 (.rnggetLeft f) f s s (BitVec.ofNat 64 e.left))))

/-- R241, R382: control registers are read and written whole in S mode, and in U mode where R240 allows it; the time
base is read. R378, R379, R380: ecall from U mode enters the supervisor, eret from S mode leaves the handler, wfi goes
on while a line is pending and enabled and waits otherwise, and a meter is read. -/
def Obligations.SystemInstructionResults : Prop :=
  (∀ (f : Fmt) (s : State), guardOn f s = true →
    (∀ r, f.a = .csr r → dstReady s f.d = .ok () → Gives64 (.csrr f) f s s (readCsr s s.cur s.myCtx r)) ∧
    (dstReady s f.d = .ok () → Gives64 (.rdtime f) f s s (BitVec.ofNat 64 s.time)) ∧
    (∀ r a, f.d = .csr r → src64 s f.a f.imm = .ok a → (s.me.modeS || r.userWritable) = true →
      let u := passed (used f s)
      let old := readCsr (used f s) s.cur s.myCtx r
      Ends (.csrw f) s (writeCsr u s.cur s.myCtx r a s.me.modeS) ∧
      Ends (.csrs f) s (writeCsr u s.cur s.myCtx r (old ||| a) s.me.modeS) ∧
      Ends (.csrc f) s (writeCsr u s.cur s.myCtx r (old &&& ~~~a) s.me.modeS))) ∧
  (∀ (f : Fmt) (s : State), guardOn f s = true →
    (s.me.modeS = false → Ends (.ecall f) s (s.modMe (fun h => (h.lastUse f).enterCall))) ∧
    (s.me.modeS = true → Ends (.eret f) s (s.modMe (fun h => (h.lastUse f).leaveHandler))) ∧
    (s.me.ipend &&& s.me.ienab ≠ 0 → Ends (.wfi f) s (passed (used f s))) ∧
    (s.me.ipend &&& s.me.ienab = 0 → exec (.wfi f) s = .next (s.modMe (fun h => { h with inWfi := true, waiting := true }))) ∧
    (dstReady s f.d = .ok () → f.b = .none → s.myCtx ≠ sysCtx →
      Gives64 (.mtrd f) f s s (BitVec.ofNat 64 (s.meter s.myCtx (f.imm.toNat % 32)))) ∧
    (dstReady s f.d = .ok () → f.b ≠ .none → (xval s f.b).toNat < 64 →
      ((xval s f.b).toNat = s.myCtx ∨ (isSup s.cur = true ∧ s.me.modeS = true)) →
      Gives64 (.mtrd f) f s s (BitVec.ofNat 64 (s.meter (xval s f.b).toNat (f.imm.toNat % 32)))))

/-- R381, R383: the supervisor core's instructions in S mode: a key loaded from its ticket or refused (with which status,
where several hold, is the model's choice, log entry 76: R381 gives no order), a slot cleared
once no job uses it, a swap asked of a member core or refused with the first status that holds, and a core's swap
word. R51, R52: the translation invalidations in S mode: after the release and fence of the maximal scope, the named
translations are gone once no access and no segment through them is left; variant 2 needs a supervisor core, and the
others the hart's own context there or anywhere on a supervisor core. -/
def Obligations.SupervisorInstructionResults : Prop :=
  (∀ (f : Fmt) (s : State), guardOn f s = true → isSup s.cur = true → s.me.modeS = true → dstReady s f.d = .ok () →
    let a := (xval s f.a).toNat
    let b := (xval s f.b).toNat
    (let n := a % 4096
     let bad : Prop := a / 2 ^ 22 ≠ 0 ∨ slice a 15 12 ≠ 0 ∨ b / 2 ^ 16 ≠ 0
     let mine := s.tickets.find? (fun t => t.1 == b && t.2.ctx == slice a 21 16)
     (bad → Gives64 (.keyld f) f s s 3) ∧
     (¬ bad → (s.keySlot n).st ≠ .empty → Gives64 (.keyld f) f s s 2) ∧
     (¬ bad → (s.keySlot n).st = .empty → mine = none → Gives64 (.keyld f) f s s 1) ∧
     (∀ t d, f.d = .x d → ¬ bad → (s.keySlot n).st = .empty → mine = some t → Gives64 (.keyld f) f s
       { (s.setKeySlot n { key := t.2.key, owner := slice a 21 16, st := .loaded }) with tickets := Tab.drop s.tickets t.1 } 0) ∧
     ((a / 2 ^ 22 ≠ 0 ∨ slice a 15 12 ≠ 0) → Gives64 (.keyldClear f) f s s 3) ∧
     (∀ d, f.d = .x d → a / 2 ^ 22 = 0 → slice a 15 12 = 0 → keyInUse s n = false →
       Gives64 (.keyldClear f) f s (s.setKeySlot n {}) 0)) ∧
    (let core := memberCore (clusterOf s.myCore) (a % 16)
     let k := s.core core
     let c := b % 64
     let bad : Prop := a / 2 ^ 4 ≠ 0 ∨ b / 2 ^ 6 ≠ 0
     (bad → Gives64 (.ctxsw f) f s s 5) ∧
     (¬ bad → present s core = false → Gives64 (.ctxsw f) f s s 2) ∧
     (¬ bad → present s core = true → k.swapTo ≠ none → Gives64 (.ctxsw f) f s s 1) ∧
     (¬ bad → present s core = true → k.swapTo = none → k.active = some c → Gives64 (.ctxsw f) f s s 4) ∧
     (¬ bad → present s core = true → k.swapTo = none → k.active ≠ some c → granted s core c = false →
       Gives64 (.ctxsw f) f s s 3) ∧
     (∀ d, f.d = .x d → ¬ bad → present s core = true → k.swapTo = none → k.active ≠ some c → granted s core c = true →
       Gives64 (.ctxsw f) f s (s.setCore core { k with swapTo := some c }) 0) ∧
     (a / 2 ^ 4 ≠ 0 → Gives64 (.ctxswStat f) f s s 0x8000) ∧
     (a / 2 ^ 4 = 0 → k.swapTo = none →
       Gives64 (.ctxswStat f) f s s (BitVec.ofNat 64 (k.active.getD 0 + k.active.getD 0 * 2 ^ 8))) ∧
     (∀ c, a / 2 ^ 4 = 0 → k.swapTo = some c →
       Gives64 (.ctxswStat f) f s s (BitVec.ofNat 64 (k.active.getD 0 + 2 ^ 6 + c * 2 ^ 8))))) ∧
  (∀ (f : Fmt) (s u w : State) (v : Inval), guardOn f s = true → s.me.modeS = true →
    release s 4 = .ok u → fenceAt u 4 = .ok w →
    let t := invalidate w v
    let c := (xval s f.b).toNat
    let ends (i : Instr) : Prop :=
      (heldAccess t v = false → heldSegment t v = false → Ends i s (passed (used f t))) ∧
      (heldAccess t v = true ∨ heldSegment t v = true → exec i s = settle (.error (.wait t)))
    ((c = s.myCtx ∨ isSup s.cur = true) → (c < 64 ∨ (c = 64 ∧ isSup s.cur = true)) →
      (v = .page (xval s f.a) c → ends (.tlbinvPage f)) ∧ (v = .ctx c → ends (.tlbinvCtx f))) ∧
    (isSup s.cur = true → v = .all → ends (.tlbinvAll f)))

/-- R498 to R501, R503, R505: the host's registers: a doorbell accepted, recorded as an overrun or ignored; OVERRUN
cleared; a packet word held back while BUSY; slot registers while FREE; system registers until SYSGO; the recovery
window; a TDI's state; and what a read of each then gives, SLOTCTL after a SETUP, MSTATUS after a doorbell and the system
slot's registers among them. -/
def Obligations.HostRegisterResults : Prop :=
  ∀ (s : State) (slot : Nat) (v : W64), slot < 64 →
    let c := s.slot slot
    let set (d : CtxSlot) : Host.Outcome State Fault Refusal := .next (s.setSlot slot d)
    (c.busy = true → exec (.doorbell slot) s = set { c with overrun := true }) ∧
    (c.busy = false → (c.tdi = .run ∨ c.tdi = .unlocked) →
      exec (.doorbell slot) s = set { c with busy := true, rung := true }) ∧
    (c.busy = false → (c.tdi = .locked ∨ c.tdi = .error) → exec (.doorbell slot) s = .next s) ∧
    (v.getLsbD 33 = true → exec (.mstatusClear slot v) s = set { c with overrun := false }) ∧
    (v.getLsbD 33 = false → exec (.mstatusClear slot v) s = .next s) ∧
    (∀ w, exec (.tdispRequest slot w) s = set { c with tdi := w, ide := w == .locked || w == .run }) ∧
    (∀ i (h : i < 32), exec (.registerWrite (.packet slot i) v) s =
      if c.busy = true then .next s else set { c with packet := c.packet.set i v h }) ∧
    (exec (.registerWrite (.root slot) v) s =
      if c.st = .free then .next { s with roots := Tab.put s.roots slot v } else .next s) ∧
    (exec (.registerWrite (.handler slot) v) s = if c.st = .free then set { c with handler := v } else .next s) ∧
    (exec (.registerWrite (.pool slot) v) s = if c.st = .free then set { c with pool := v } else .next s) ∧
    (exec (.registerWrite (.qbase slot) v) s = if c.st = .free then set { c with qbase := v } else .next s) ∧
    (exec (.registerWrite (.qback slot) v) s = if c.st = .free then set { c with qback := v &&& 0xFFFF } else .next s) ∧
    (exec (.registerWrite (.migrate slot) v) s = set { c with migrate := v }) ∧
    (∀ k (h : k < 16), exec (.registerWrite (.reldl slot k) v) s = set { c with reldl := c.reldl.set k v h }) ∧
    (exec (.registerWrite .sysroot v) s = if s.sysgo = true then .next s else .next { s with sysroot := v }) ∧
    (exec (.registerWrite .sysentry v) s = if s.sysgo = true then .next s else .next { s with sysentry := v }) ∧
    (exec (.registerWrite .sysivec v) s = if s.sysgo = true then .next s else .next { s with sysivec := v }) ∧
    (∀ off, s.recovering = true → off + 8 ≤ 2 ^ 26 → exec (.registerWrite (.recovery off) v) s =
      .next { s with recoveryWin := Mem.writeL s.recoveryWin off (leBytes 8 v.toNat) }) ∧
    (∀ off, s.recovering = false → exec (.registerWrite (.recovery off) v) s = .next s) ∧
    exec (.registerWrite .unlisted v) s = .next s ∧
    (∀ (t : State), exec (.mstatusClear slot v) s = .next t → v.getLsbD 33 = true → mailboxRead t slot 0x108 =
      BitVec.ofNat 64 (c.busy.toNat * 2 ^ 32 + c.result.toNat % 2 ^ 22)) ∧
    (∀ i (t : State), i < 32 → c.busy = false → exec (.registerWrite (.packet slot i) v) s = .next t →
      mailboxRead t slot (8 * i) = v) ∧
    (∀ k (t : State), k < 16 → exec (.registerWrite (.reldl slot k) v) s = .next t → slotRead t slot (0x40 + 8 * k) = v) ∧
    (∀ t : State, exec (.registerWrite (.migrate slot) v) s = .next t → slotRead t slot 0x30 = v) ∧
    (c.st = .free → ∀ t : State,
      (exec (.registerWrite (.root slot) v) s = .next t → slotRead t slot 0x08 = v) ∧
      (exec (.registerWrite (.handler slot) v) s = .next t → slotRead t slot 0x10 = v) ∧
      (exec (.registerWrite (.pool slot) v) s = .next t → slotRead t slot 0x18 = v) ∧
      (exec (.registerWrite (.qbase slot) v) s = .next t → slotRead t slot 0x20 = v) ∧
      (exec (.registerWrite (.qback slot) v) s = .next t → slotRead t slot 0x28 = v &&& 0xFFFF)) ∧
    (c.st ≠ .tearing → ∀ t : State, exec (.setup slot) s = .next t →
      (slotRead t slot 0 = BitVec.ofNat 64 (if c.st = .free then (if slotGood s slot = true then 0x4 else 0x100) else 0x304))) ∧
    ((c.busy = true ∨ c.tdi = .run ∨ c.tdi = .unlocked) → ∀ t : State, exec (.doorbell slot) s = .next t →
      mailboxRead t slot 0x108 = BitVec.ofNat 64
        ((c.busy || c.overrun).toNat * 2 ^ 33 + 2 ^ 32 + c.result.toNat % 2 ^ 22)) ∧
    (s.sysgo = false → ∀ t : State,
      (exec (.registerWrite .sysroot v) s = .next t → systemRead t 0x00 = v) ∧
      (exec (.registerWrite .sysentry v) s = .next t → systemRead t 0x08 = v) ∧
      (exec (.registerWrite .sysivec v) s = .next t → systemRead t 0x10 = v)) ∧
    (∀ t : State, exec (.sysgo v) s = .next t → systemRead t 0x18 =
      if s.sysgo = true ∨ (v = 1 ∧ s.bootStep = 7) then 1 else 0)

/-- R502: SETUP and TEARDOWN: a command that is not valid in the state sets ERR to STATE, a failed check sets
BADFIELD, an active launch sets BUSY, and a context whose accesses have not ended is TEARING; otherwise the slot becomes
ACTIVE, or FREE again: no core holds the context, and its translations, key slots, tickets, sowing ranges, duplicate
windows and slot registers are gone, its meters kept in a snapshot. R503 to R505: the steading's boot from a reset or from the recovery
window, whose image NVMe then holds, and the start of the supervisor harts. -/
def Obligations.SlotAndBootResults : Prop :=
  (∀ (s : State) (slot : Nat), slot < 64 →
    let c := s.slot slot
    let set (d : CtxSlot) : Host.Outcome State Fault Refusal := .next (s.setSlot slot d)
    (c.st ≠ .free → exec (.setup slot) s = set { c with err := 3 }) ∧
    (c.st = .free → slotGood s slot = false → exec (.setup slot) s = set { c with err := 1 }) ∧
    (c.st = .free → slotGood s slot = true → ∃ t, exec (.setup slot) s = .next t ∧
      t.slot slot = { c with err := 0, st := .active, missed := 0 } ∧ (∀ i, i < 32 → t.meter slot i = 0) ∧
      t.dups.all (fun d => d.1 % 128 != slot) = true ∧ t.mem = s.mem ∧ t.harts = s.harts) ∧
    (c.st ≠ .active → exec (.teardown slot) s = set { c with err := 3 }) ∧
    (c.st = .active → s.launches.any (fun l => l.2.ctx == slot) = true →
      exec (.teardown slot) s = set { c with err := 2 }) ∧
    (c.st = .active → s.launches.any (fun l => l.2.ctx == slot) = false → contextQuiet s slot = false →
      exec (.teardown slot) s = set { c with st := .tearing }) ∧
    (c.st = .active → s.launches.any (fun l => l.2.ctx == slot) = false → contextQuiet s slot = true →
      ∃ t, exec (.teardown slot) s = .next t ∧ (t.slot slot).st = .free ∧ (t.slot slot).err = 0 ∧
        (t.slot slot).handler = 0 ∧ (t.slot slot).pool = 0 ∧ (t.slot slot).qbase = 0 ∧ (t.slot slot).qback = 0 ∧
        t.tickets.all (fun k => k.2.ctx != slot) = true ∧ t.mem = s.mem ∧
        Tab.get 0 t.roots slot = 0 ∧ (∀ core, granted t core slot = false) ∧
        t.keys.all (fun k => k.2.owner != slot || k.2.st == .empty) = true ∧
        (∀ core, (t.core core).tlb.all (fun e => e.ctx != slot) = true) ∧
        t.clusterTlb.all (fun c => c.2.all (fun e => e.ctx != slot)) = true ∧
        t.ptrCache.all (fun c => c.2.all (fun e => e.ctx != slot)) = true ∧
        t.sowing.all (fun q => q.2.all (fun r => r.ctx != slot)) = true ∧
        t.dups.all (fun d => d.1 % 128 != slot) = true ∧
        t.snapshots.find? (fun e => e.1 == slot) = some (slot, meterList s slot))) ∧
  (∀ (s : State) (b : BootInput),
    (∃ t, exec (.reset b) s = .next t ∧
      (b.imageOk = false → t.bootStep = 1 ∧ t.recovering = true ∧ ∀ k, (t.slot k).busy = (State.reset.slot k).busy) ∧
      (t.bootStep = 7 → ∀ k, k < 64 → (t.slot k).busy = false) ∧
      t.mem = [] ∧ t.spad = [] ∧ t.sysgo = false) ∧
    (s.recovering = false → exec (.recoveryDoorbell b) s = .next s) ∧
    (s.recovering = true → b.imageOk = false → exec (.recoveryDoorbell b) s = .next s) ∧
    (s.recovering = true → b.imageOk = true →
      exec (.recoveryDoorbell b) s = .next (bootOn { s with firmware := .window s.recoveryWin } b)) ∧
    (∀ v : W64, (v ≠ 1 ∨ s.sysgo = true ∨ s.bootStep ≠ 7) → exec (.sysgo v) s = .next s) ∧
    (s.sysgo = false → s.bootStep = 7 → ∃ t, exec (.sysgo 1) s = .next t ∧ t.sysgo = true ∧
      ∀ i, i < 256 → t.bank (4096 + i) sysCtx = Hart.setPc { s.bank (4096 + i) sysCtx with
        running := true, status := 1, ivec := s.sysivec } s.sysentry))

/-- R507 to R511, R89, R401, R466, R483: the management commands: what each changes and answers. -/
def Obligations.ManagementCommandResults : Prop :=
  ∀ (s : State),
    (∀ ctx, 64 ≤ ctx → exec (.readMeters ctx) s = .next (answer s .invalid)) ∧
    (∀ ctx, ctx < 64 → s.snapshots.find? (fun e => e.1 == ctx) = none → exec (.readMeters ctx) s =
      .next (answer s (.meters ctx ((List.range 13).map (s.meter ctx)) s.time))) ∧
    (∀ ctx e, ctx < 64 → s.snapshots.find? (fun e => e.1 == ctx) = some e → ∃ t, exec (.readMeters ctx) s = .next t ∧
      t.reply = .meters ctx e.2 s.time ∧ t.snapshots = Tab.drop s.snapshots ctx ∧
      ((s.slot ctx).st = .free → ∀ i, i < 32 → t.meter ctx i = 0) ∧ ((s.slot ctx).st ≠ .free → t.meters = s.meters)) ∧
    exec .readPresence s = .next (answer s (.presence (presenceMap s))) ∧
    (∀ v : W64, exec (.writeTrkctl v) s = .next (answer { s with trkctl :=
      { thresh := slice v.toNat 31 16, epoch := slice v.toNat 7 4, en := v.getLsbD 0 } } .ok)) ∧
    (∀ c (v : W64), (64 ≤ c ∨ inHbm s v 64 = false ∨ dieOfLocal (v.toNat % 2 ^ 46) ≠ c / 8) →
      exec (.writeTrapbase c v) s = .next (answer s .invalid)) ∧
    (∀ c (v : W64), c < 64 → inHbm s v 64 = true → dieOfLocal (v.toNat % 2 ^ 46) = c / 8 →
      (clusterFrozen s c = true → exec (.writeTrapbase c v) s = .next (answer s .notReady)) ∧
      (clusterFrozen s c = false → exec (.writeTrapbase c v) s = .next (answer
        { s.forsakeAll (.trap c) sysCtx with trapBase := Tab.put s.trapBase c v, trapUnits := Tab.drop s.trapUnits c } .ok))) ∧
    (∀ hi lo, exec (.writeReserve hi lo) s = .next (answer { s with hi := hi, lo := lo } .ok)) ∧
    (∀ n, exec (.readEventlog n) s = .next (answer s (.eventLog (s.events.take n)))) ∧
    (∀ h, h < 4352 → exec (.raiseMgmt h) s = .next (answer (s.setHart h ((s.hart h).raise 7)) .ok)) ∧
    (∀ h, 4352 ≤ h → exec (.raiseMgmt h) s = .next (answer s .invalid)) ∧
    (∀ img, exec (.installSchedule img true) s = .next (answer (idleInstall { s with nextSchedule := some img }) .ok) ∧
      exec (.installSchedule img false) s = .next (answer s .invalid) ∧
      exec (.firmwareUpdate (.update img)) s = .next (answer { s with nextFirmware := some img } .ok)) ∧
    exec (.firmwareUpdate .malformed) s = .next (answer s .invalid) ∧
    (∀ ty, ty ≠ 0 → ty ≠ 2 → exec (.firmwareUpdate (.typed ty)) s = .next (answer s .invalid)) ∧
    (∀ ty, (ty = 0 ∨ ty = 2) → ∃ t v, exec (.firmwareUpdate (.typed ty)) s = .next t ∧ t.reply = .pldm ty v ∧
      t.nextFirmware = s.nextFirmware ∧ t.mem = s.mem) ∧
    exec (.setDevidx none) s = .next (answer s (.devidx s.devidx)) ∧
    (∀ d, 576 ≤ d → exec (.setDevidx (some d)) s = .next (answer s .invalid)) ∧
    (∀ d, d < 576 → (s.slots.any (fun c => c.2.st == .active) = true ∨ s.domain ≠ []) →
      exec (.setDevidx (some d)) s = .next (answer s .notReady)) ∧
    (∀ d, d < 576 → s.slots.any (fun c => c.2.st == .active) = false → s.domain = [] →
      exec (.setDevidx (some d)) s = .next (answer { s with devidx := d } .ok)) ∧
    (∀ ctx k, (64 ≤ ctx ∨ (s.slot ctx).st ≠ .active ∨ 64 ≤ s.tickets.length) →
      exec (.keyImport ctx k) s = .next (answer s .noImport)) ∧
    (∀ ctx k, ctx < 64 → (s.slot ctx).st = .active → s.tickets.length < 64 →
      ∃ t n, exec (.keyImport ctx k) s = .next t ∧ t.reply = .ticket n ∧ 1 ≤ n ∧ n ≤ 65535 ∧
        s.tickets.all (fun e => e.1 != n) = true ∧ Tab.get { ctx := 0, key := 0 } t.tickets n = { ctx := ctx, key := k })

/-- R493, R494, R497, R508, R512: a device joins the domain; the domain changes at its barrier, which holds new fabric
requests until the fabric is quiet and logs each stream with a gap; a margin is measured, and a die is planned anew. -/
def Obligations.DomainAndHealthResults : Prop :=
  ∀ (s : State),
    (∀ ms, let all := s.devidx :: (s.domain ++ ms)
      (all.eraseDups.length = all.length → all.all (fun d => d < 576) = true → exec (.domainJoin ms true) s =
        .next { s with joined := s.joined ++ ms.filter (fun d => !s.joined.contains d) }) ∧
      (all.eraseDups.length ≠ all.length → exec (.domainJoin ms true) s = .next s) ∧
      exec (.domainJoin ms false) s = .next s) ∧
    (∀ ms b finals, (s.barrier = none ∨ s.barrier = some ms) → ms.all (fun d => s.domain.contains d || s.joined.contains d) = true →
      ms.eraseDups.length = ms.length → ms.contains s.devidx = false →
      let e : State := { endLeaving s ms with barrier := some ms }
      (fabricBusy e = true → exec (.domainBarrier { members := ms, finals := finals } b) s = .next e) ∧
      (fabricBusy e = false → ∃ t, exec (.domainBarrier { members := ms, finals := finals } b) s = .next t ∧ t.domain = ms ∧ t.barrier = none ∧
        (∀ d, (gapStreams e finals).contains d = true → t.events.contains (.fabric d) = true) ∧
        t.epoch = (s.epoch + 1) % 2 ^ 32 ∧ t.streams = [] ∧ t.sent = [] ∧ t.refused = [] ∧ t.gathers = [] ∧
        t.schedule = s.nextSchedule.getD s.schedule ∧ t.nextSchedule = none ∧ t.time = Nat.max s.time b ∧ s.time ≤ t.time ∧
        t.mem = s.mem ∧ t.harts = s.harts)) ∧
    (∀ die m, exec (.healthMeasure die m) s = .next { s with margins := Tab.put s.margins die m }) ∧
    (∀ die, ¬ (Tab.get 0 s.voltages die = Config.voltageCeiling die ∧ Tab.get 0 s.margins die < Config.marginFloor die) →
      ∃ t, exec (.voltageReplan die) s = .next t ∧ Tab.get 0 t.voltages die ≤ Config.voltageCeiling die ∧
        t.harts = s.harts ∧ t.mem = s.mem ∧ t.retired = s.retired) ∧
    (∀ die, Tab.get 0 s.voltages die = Config.voltageCeiling die → Tab.get 0 s.margins die < Config.marginFloor die →
      (∃ c, c / 128 = die ∧ present s c = true ∧ s.retired.contains c = false) →
      ∃ t c, exec (.voltageReplan die) s = .next t ∧ c / 128 = die ∧ present s c = true ∧ t.retired = s.retired ++ [c] ∧
        t.boot = s.boot ∧ t.mem = s.mem)

/-- R326, R348, R359, R417, R470, R472: command words: at once where the context is the core's active one, recorded
where not; and a store to a debug window, which leaves for the window's block, or faults at once where it is no write
there; at the block it commands a unit or sets a frozen hart's register. R463: a command to a supervisor hart is its
answer. -/
def Obligations.UnitCommandResults : Prop :=
  ∀ (s : State) (core slot ch tour ctx : Nat) (k : UnitCmd),
    let u := s.unit core ctx
    let c : Fin 4 := Fin.ofNat 4 ch
    let hid := core * 4 + slot % 4
    let cmds (i : UnitCmd → Instr) (t : State) : Prop := exec (i k) s = .next t
    let hc (k : UnitCmd) : Instr := match k with | .resume => .hcmdResume core slot ctx | .kill => .hcmdKill core slot ctx
    let mc (k : UnitCmd) : Instr := match k with | .resume => .mxcmdResume core ctx | .kill => .mxcmdKill core ctx
    let cc (k : UnitCmd) : Instr := match k with | .resume => .cpcmdResume core ch ctx | .kill => .cpcmdKill core ch ctx
    let rc (k : UnitCmd) : Instr := match k with | .resume => .hrcmdResume core ctx | .kill => .hrcmdKill core ctx
    let tc (k : UnitCmd) : Instr :=
      match k with | .resume => .tourcmdResume core tour ctx | .kill => .tourcmdKill core tour ctx
    (supCore core = true → cmds hc (hartCommand s hid sysCtx k)) ∧
    ((s.core core).active = some ctx →
      (supCore core = false → cmds hc (hartCommand s hid ctx k)) ∧
      cmds mc (s.setUnit core ctx { u with matrix := u.matrix.command k }) ∧
      cmds cc (s.setUnit core ctx { u with copy := u.copy.command c k }) ∧
      cmds rc (s.setUnit core ctx { u with harrow := u.harrow.command k }) ∧ cmds tc (tourCommand s core ctx tour k)) ∧
    ((s.core core).active ≠ some ctx →
      (supCore core = false → cmds hc (s.setBank hid ctx { s.bank hid ctx with cmd := some k })) ∧
      cmds mc (s.setUnit core ctx { u with matrix := { u.matrix with cmd := some k } }) ∧
      cmds cc (s.setUnit core ctx { u with copy := u.copy.setChan c { u.copy.chans[c] with cmd := some k } }) ∧
      cmds rc (s.setUnit core ctx { u with harrow := { u.harrow with cmd := some k } }) ∧
      cmds tc (s.modTour core ctx tour (fun t => { t with cmd := some k }))) ∧
    ((s.bank hid ctx).frozen = true → hartCommand s hid ctx .resume =
      s.setBank hid ctx { s.bank hid ctx with frozen := false, waiting := false, spillSet := [] }) ∧
    ((s.bank hid ctx).frozen = false → hartCommand s hid ctx .resume = s) ∧
    (∀ (m : Fin 16) (off : Nat) (v : W64),
      let va : W64 := BitVec.ofNat 64 (2 ^ 64 - 2 ^ 55 + 4 * 2 ^ 32 + m.val * 2 ^ 16 + off)
      let mc := memberCore (clusterOf s.myCore) m.val
      let faults (cause : Nat) : Prop := exec (.debugWindowWrite m off v) s = settle (fail s (accessFault cause va))
      ((isSup s.cur && s.me.modeS) = false → faults causeAccPrivilege) ∧
      (isSup s.cur = true → s.me.modeS = true →
        (present s mc = false → faults causeForeign) ∧
        (present s mc = true →
          (∀ d t, off % 8 = 0 → debugSpot off = some d → spotWrite s mc d v = some t →
            Ends (.debugWindowWrite m off v) s (s.post (.debug mc off) 8 0 (v.setWidth 512) va)) ∧
          (∀ d, off % 8 = 0 → debugSpot off = some d → spotWrite s mc d v = none → faults causeWindow) ∧
          (off % 8 ≠ 0 → faults causeWindow) ∧ (debugSpot off = none → faults causeWindow)))) ∧
    (∀ n r o, s.reqNet[n]? = some r → r.place = .debug core o → leavesNow s n r = true →
      exec (.write n) s =
        .next (respond (debugPerform { s with reqNet := s.reqNet.eraseIdx n } core o r.size r.data) r 0 .ok))

/-- R165 to R167, R182, R369, R397: what the hardware of the harts does by itself: an interrupt is entered, the timer
line is set once, a long run gives way, dead registers power down with no readable value changed, a counting slice
without budget faults, and a sleeping waitw reads again. -/
def Obligations.HartHardwareResults : Prop :=
  ∀ (s : State) (hart core : Nat),
    let h := s.hart hart
    let set (g : Hart) : Host.Outcome State Fault Refusal := .next (s.setHart hart g)
    (h.running = true → h.frozen = false → h.inWfi = false → h.joined = true → h.ipend &&& h.ienab ≠ 0 →
      (h.modeS = false ∨ h.ie = true) → midAccess s hart (s.ctxOf (coreOf hart)) = false →
      ∃ g, exec (.interruptEntry hart) s = set g ∧ g.ipc = h.pc ∧ g.irep = h.repst ∧ g.repst = 0 ∧ g.pmode = h.modeS ∧
        g.pie = h.ie ∧ g.modeS = true ∧ g.ie = false ∧ g.pc = h.ivec ∧ g.ipend = h.ipend ∧ g.ienab = h.ienab ∧
        g.icause = BitVec.ofNat 3 (lowestLine (h.ipend &&& h.ienab)) ∧ g.x = h.x ∧ g.v = h.v ∧ g.p = h.p) ∧
    ((h.ipend &&& h.ienab = 0 ∨ (h.modeS = true ∧ h.ie = false) ∨ h.frozen = true) →
      exec (.interruptEntry hart) s = .next s) ∧
    (h.tcmp ≠ 0 → h.tcmp.toNat ≤ s.time → h.timerSeen = false →
      exec (.timerMatch hart) s = set { h with ipend := h.ipend ||| 2, timerSeen := true }) ∧
    ((h.tcmp = 0 ∨ s.time < h.tcmp.toNat) → exec (.timerMatch hart) s = set { h with timerSeen := false }) ∧
    (h.tcmp ≠ 0 → h.tcmp.toNat ≤ s.time → h.timerSeen = true → exec (.timerMatch hart) s = set h) ∧
    (∀ sl, 2048 ≤ (s.core core).issued →
      ([1, 2, 3].map (fun i => ((s.core core).runSlot + i) % 4)).find? (fun n => (s.hart (core * 4 + n)).stirs) = some sl →
      exec (.issueQuantumSwitch core) s = .next (s.setCore core { s.core core with runSlot := sl, issued := 0 })) ∧
    ((s.core core).issued < 2048 → exec (.issueQuantumSwitch core) s = .next s) ∧
    (h.waiting = true → ∃ g, exec (.deadPowerDown hart) s = set g ∧ (∀ r, g.rx r = h.rx r) ∧ (∀ r, g.rv r = h.rv r) ∧
      g.p = h.p ∧ g.dead = h.dead ∧ g.pc = h.pc) ∧
    (h.running = true → h.frozen = false → h.joined = true → h.counting = true → h.budget = 0 →
      midAccess s hart (s.ctxOf (coreOf hart)) = false →
      exec (.budgetExpiry hart) s = .next (s.takeFaultOn hart { code := .budget })) ∧
    ((h.counting = false ∨ h.budget ≠ 0) → exec (.budgetExpiry hart) s = .next s) ∧
    (∀ g, h.sleep = some (g, true) → exec (.waitwWake hart) s = set { h with sleep := none, waiting := false }) ∧
    (∀ g, h.sleep = some (g, false) → exec (.waitwPoll hart) s = set { h with sleep := none, waiting := false })

/-- R169, R170, R473, R474, R476: the banks of a core change places once the swap may happen, and the thresher moves the
parts one by one once the outgoing bank's accesses are performed: a scratchpad region that was saved comes back from its
code as it was, one that was not is zeros. -/
def Obligations.SwapEventResults : Prop :=
  ∀ (s : State) (core : Nat),
    let k := s.core core
    (k.swapTo = none → exec (.swapExchange core) s = .next s) ∧
    (swapReady s core = false → exec (.swapExchange core) s = .next s) ∧
    (∀ t, k.swapTo = some t → swapReady s core = true → ∃ u, exec (.swapExchange core) s = .next u ∧
      (u.core core).active = some t ∧ (u.core core).shadow = k.active ∧ (u.core core).swapTo = none ∧
      (u.core core).outSince = s.time ∧ (u.core core).issued = 0 ∧ u.mem = s.mem ∧
      (u.core core).todo = if k.todo = [] then List.range 98 else (List.range 98).filter (fun p => !k.todo.contains p)) ∧
    (k.todo = [] → exec (.thresherTransfer core) s = .next s) ∧
    (∀ old, k.shadow = some old → bankBusy s core old = true → exec (.thresherTransfer core) s = .next s) ∧
    (∀ p rest, k.todo = p :: rest → (∀ old, k.shadow = some old → bankBusy s core old = false) →
      let ctx := k.active.getD 0
      let moved := if p = 0 then unitsIn s core ctx
        else if p = 1 then linesIn ((k.shadow.map (linesOut s core)).getD s) core ctx
        else if (s.unit core ctx).dirty.contains (p - 2) then s
        else { s with spad := Mem.clear s.spad (spadKey core ctx (4096 * (p - 2))) 4096 }
      exec (.thresherTransfer core) s = .next (moved.setCore core { moved.core core with todo := rest }))

/-- R387, R390 to R392, R396, R399 to R401, R500: the launch unit answers a mailbox; an idle hart starts the slice it
is given, in U mode with its arguments; a lost slice is abandoned; end notices are counted and acknowledged; a graph
ends; the reserve moves by at most one. -/
def Obligations.SchedulingEventResults : Prop :=
  ∀ (s : State) (slot hart ctx n g die : Nat),
    ((s.slot slot).rung = false → exec (.launchUnitProcess slot) s = .next s) ∧
    (∀ t w, (s.slot slot).rung = true →
      runLaunch s (.launcher slot) slot false (s.slot slot).packet.toList = .ok (t, w) →
      exec (.launchUnitProcess slot) s = .next (t.setSlot slot
        { t.slot slot with busy := false, rung := false, result := w, msix := (t.slot slot).msix + 1 })) ∧
    (mayAsk s hart = false → exec (.taskDispatch hart) s = .next s) ∧
    (∀ u e l, mayAsk s hart = true → ask s (coreOf hart) (s.ctxOf (coreOf hart)) = (u, some e) →
      u.launchFor (recGraph e.record) (s.ctxOf (coreOf hart)) = some l →
      ∃ t, exec (.taskDispatch hart) s = .next t ∧
        let h := t.bank hart (s.ctxOf (coreOf hart))
        h.running = true ∧ h.waiting = false ∧ h.pc = recCode e.record ∧ h.modeS = false ∧ h.repst = 0 ∧ h.cmask = 0 ∧
        h.deadline = recDeadline e.record ∧
        h.budget = (if recBudget e.record = 0 then l.budget else recBudget e.record) ∧
        h.rx 1 = recFrame e.record ∧ h.rx 2 = recArg0 e.record ∧ h.rx 3 = recArg1 e.record ∧
        (∀ r : Fin 32, 3 < r.val → h.rx r = 0) ∧ (∀ r, h.rv r = 0) ∧ (∀ r, h.rp r = if r = 0 then BitVec.allOnes 64 else 0) ∧
        h.slice.map (·.record) = some e.record ∧ t.mem = u.mem) ∧
    (abandoned s hart ctx = false → exec (.migrateAbandon hart ctx) s = .next s) ∧
    (abandoned s hart ctx = true → exec (.migrateAbandon hart ctx) s = .next
      (let t := loseSlice (discardLines s hart ctx) hart ctx
       t.setBank hart ctx { t.bank hart ctx with
         frozen := false, killNext := false, cmd := none, inRel := false, dead := allDead })) ∧
    (∀ m, s.notices[n]? = some m →
      let u : State := { s with notices := s.notices.set n { m with acked := true } }
      (m.acked = false → m.origin ≠ originLaunch → exec (.endNotice n) s = .next (u.setHead m.graph m.origin
        { s.head m.graph m.origin with records := (s.head m.graph m.origin).records - 1 })) ∧
      (∀ l, m.acked = false → m.origin = originLaunch → s.launch m.graph = some l →
        exec (.endNotice n) s = .next (u.setLaunch m.graph { l with own := l.own - 1 })) ∧
      (m.acked = true → exec (.endNotice n) s = .next s) ∧
      (m.acked = false → exec (.endNoticeAck n) s = .next s) ∧
      (m.acked = true → ∃ t, exec (.endNoticeAck n) s = .next t ∧ t.notices = s.notices.eraseIdx n ∧
        (t.head m.graph m.ender).notices = (s.head m.graph m.ender).notices - 1)) ∧
    (∀ l, s.launch g = some l →
      (graphDone s g l = false → exec (.graphEnd g) s = .next s) ∧
      (graphDone s g l = true → l.dword = 0 → exec (.graphEnd g) s = .next (freeLaunch s g l)) ∧
      (∀ t, graphDone s g l = true → l.dword ≠ 0 →
        devWrite1 s (.launcher l.ctx) l.ctx l.dword (leBytes 8 l.dvalue.toNat) = .ok t →
        exec (.graphEnd g) s = .next (freeLaunch t g l))) ∧
    (let key := die * 64 + ctx
     let waiting := ((s.queue (.comm die)).filter (fun e => recCtx e.record == ctx)).length
     let k := Tab.get 1 s.reserve key
     let bound := Nat.min 16 ((grantedOn s die ctx).length - 1)
     ∀ w, w = (if waiting > s.hi then k + 1 else if waiting < s.lo then k - 1 else k) → ctx < 64 →
       Tab.get 0 s.reserveAt key < s.time / 65536 → exec (.reserveAdjust die ctx) s = .next
         { s with reserve := Tab.put s.reserve key (Nat.max 1 (Nat.min w bound)),
                  reserveAt := Tab.put s.reserveAt key (s.time / 65536) })

/-- R47, R71 to R78, R146: a request of the port's own core enters its bank queue, another the inbound buffer of its
port; queued requests are performed, scratchpad accesses reach their bank, a port answers FLUSH once no request of the
hart that it knows of is left, answers reach those who asked, walks go on, and rows close. -/
def Obligations.MeshEventResults : Prop :=
  ∀ (s : State) (n bank : Nat),
    (∀ r p, s.reqNet[n]? = some r → r.place = .mem p → leavesNow s n r = true →
      let port := portOf s (channelOf s p)
      let q := Tab.get [] s.bankQ (bankOf s p)
      let buf := Tab.get [] s.inbound port
      let goes (t : State) : Prop :=
        (r.kind = .read → exec (.read n) s = .next t) ∧ (r.kind = .write → exec (.write n) s = .next t) ∧
        (r.kind = .atomic → exec (.atomic n) s = .next t)
      (r.agent.coreId = some port → q.length < 16 →
        goes { s with reqNet := s.reqNet.eraseIdx n, bankQ := Tab.put s.bankQ (bankOf s p) (q ++ [r]) }) ∧
      (r.agent.coreId ≠ some port → buf.length < 256 →
        goes (pullBank { s with reqNet := s.reqNet.eraseIdx n, inbound := Tab.put s.inbound port (buf ++ [r]) } port
          (bankOf s p))) ∧
      (r.agent.coreId = some port → 16 ≤ q.length → goes s) ∧
      (r.agent.coreId ≠ some port → 256 ≤ buf.length → goes s)) ∧
    (∀ f, s.reqNet[n]? = some f → f.kind = .flush → leavesNow s n f = true →
      (∀ r ∈ queued s.bankQ ++ queued s.inbound ++ s.heldAt ++ s.reqNet.take n, r.kind ≠ .flush →
        ¬ (r.ofHart f = true ∧ r.place.router s = f.place.router s)) →
      (∀ r ∈ s.inFlight, ¬ (r.ofHart f = true ∧ r.home = some (f.place.router s))) →
      let t : State := { s with reqNet := s.reqNet.eraseIdx n }
      (∀ src, f.agent = .peer src → exec (.flush n) s = .next { t with gathers := s.gathers.map (fun g =>
        if g.src == src && g.ctx == f.ctx && g.hart == f.origin then
          { g with ports := g.ports.map (fun l => l.filter (fun p => f.place != .port p)) }
        else g) }) ∧
      ((∀ src, f.agent ≠ .peer src) → exec (.flush n) s = .next (respond t f 0 .ok))) ∧
    (∀ r core off, s.reqNet[n]? = some r → r.place = .spad core off → leavesNow s n r = true →
      let ctx := if r.ctx = sysCtx then s.ctxOf core else r.ctx
      (s.ctxOf core ≠ ctx ∨ regionReady s core off = true) →
      exec (.scratch n) s = .next (performSpad { s with reqNet := s.reqNet.eraseIdx n } core ctx off r)) ∧
    (∀ r p, (Tab.get [] s.bankQ bank)[n]? = some r → r.place = .mem p →
      let q := Tab.get [] s.bankQ bank
      let rest := (q.take n).map (fun e => { e with passed := e.passed + 1 }) ++ q.drop (n + 1)
      let t := openRow (performAt { s with bankQ := Tab.put s.bankQ bank rest } p r) p rest.isEmpty
      (mayPerform s q n = true → exec (.columnCommand bank n) s =
        .next (pullBank t (portOf t (channelOf t p)) bank)) ∧
      (mayPerform s q n = false → exec (.columnCommand bank n) s = .next s)) ∧
    (let b := Tab.get {} s.rowBufs bank
     let closed : State := { s with rowBufs := Tab.put s.rowBufs bank { b with row := none } }
     exec (.refresh bank) s = .next closed ∧
     (b.row.isSome = true → b.timer ≤ rowNow s → rowHitQueued s bank = false → exec (.tidleExpiry bank) s = .next closed) ∧
     ((b.row = none ∨ rowNow s < b.timer ∨ rowHitQueued s bank = true) → exec (.tidleExpiry bank) s = .next s)) ∧
    (∀ q, s.respNet[n]? = some q → answerLeaves s n q = true →
      let t := arrive { s with respNet := s.respNet.eraseIdx n } q
      (q.kind = .read → exec (.readData n) s = .next t) ∧ (q.kind = .atomic → exec (.atomicData n) s = .next t) ∧
      ((q.kind = .write ∨ q.kind = .scratch) → exec (.writeAck n) s = .next t)) ∧
    (∀ r, s.respNet[n]? = none → s.outbox[n - s.respNet.length]? = some r →
      let t := peerAnswers s r (answersOf r)
      (r.kind = .read → exec (.readData n) s = .next t) ∧ (r.kind = .atomic → exec (.atomicData n) s = .next t) ∧
      (r.kind = .write → exec (.writeAck n) s = .next t)) ∧
    (∀ r, s.walkQ[n]? = some r →
      let va : W64 := BitVec.ofNat 64 (r.vpn * 2 ^ 16)
      let at_ := physOf s (r.table % 2 ^ 46 + 8 * levelIndex r.vpn r.level)
      let reads (a : Nat) : Request := { kind := .read, agent := r.agent, ctx := r.ctx, place := .mem a, size := 8 }
      (r.walker = none → walkerFor s n r = none → exec (.pageWalk n) s = .next s) ∧
      (∀ w c, r.walker = none → walkerFor s n r = some w → rootStop s (rootOf s r.ctx) = some c →
        exec (.pageWalk n) s = .next (walkFails s r (xlateFault c va))) ∧
      (r.walker.isSome = true →
        (at_ = none → exec (.pageWalk n) s = .next (walkFails s r (xlateFault xAbsent va))) ∧
        (∀ a t, at_ = some a → trip s (reads a) = .error (.wait t) → exec (.pageWalk n) s = .next t) ∧
        (∀ a t q, at_ = some a → trip s (reads a) = .ok (t, q) →
          let p : W64 := BitVec.ofNat 64 q.data.toNat
          (q.status ≠ .ok → exec (.pageWalk n) s = .next (walkFails t r { code := .integrity, va := va })) ∧
          (∀ c, q.status = .ok → pteStop t r.level p = some c →
            exec (.pageWalk n) s = .next (walkFails t r (xlateFault c va))) ∧
          (q.status = .ok → pteStop t r.level p = none → pteLeaf p = true → exec (.pageWalk n) s = .next (walkLeaf t r
            { ctx := r.ctx, big := r.level == 2, vpn := if r.level = 2 then r.vpn / 2 ^ 13 else r.vpn, pte := p, entry := a })) ∧
          (q.status = .ok → pteStop t r.level p = none → pteLeaf p = false → ∃ u, exec (.pageWalk n) s = .next u ∧
            u.mem = t.mem ∧ u.walkQ = t.walkQ.map (fun q =>
              if q == r then { q with table := pteFrame p * 2 ^ 16, level := r.level + 1 } else q)))))

/-- R146, R494, R495: a peer's packet with a good tag and number is taken and its granules become requests; one
without refuses its stream; markers gather, the last one sends FLUSH to the ports that hold the peer hart's requests;
a flush acknowledgement leaves for its peer once every port has answered, or reaches its releasing agent. -/
def Obligations.FabricEventResults : Prop :=
  ∀ (s : State),
    (∀ p : FabricPacket,
      let key := p.src * 128 + p.ctx
      let st := Tab.get {} s.streams key
      let good := p.tagOk && p.epoch == s.epoch && seqGood st p.seq
      let t : State := { s with streams := Tab.put s.streams key (st.take p.path p.seq) }
      ((s.domain.contains p.src = false ∨ s.refused.contains key = true) → exec (.fabricPacketReceive p) s = .next s) ∧
      (s.domain.contains p.src = true → s.refused.contains key = false →
        (good = false → exec (.fabricPacketReceive p) s = .next (packetFails s p.src p.ctx p.kind)) ∧
        (good = true → st.passedOn p.path p.seq = true → exec (.fabricPacketReceive p) s = .next s) ∧
        (good = true → st.passedOn p.path p.seq = false → (p.kind = .read ∨ p.kind = .write) →
          exec (.fabricPacketReceive p) s = .next (admitAll t p p.dpa (Nat.min p.size 4096) p.data 65)) ∧
        (good = true → st.passedOn p.path p.seq = false → p.kind = .atomic → exec (.fabricPacketReceive p) s =
          .next (admitPacket (t.fabricMoved p.ctx false 1) p p.dpa (p.ty.width / 8) p.data)) ∧
        (good = true → st.passedOn p.path p.seq = false → p.kind = .flush → exec (.fabricPacketReceive p) s = .next t))) ∧
    (∀ src ctx hart rel total sent,
      let mine (g : Gather) : Bool := g.src == src && g.ctx == ctx && g.hart == hart && g.rel == rel
      let arrived := ((s.gathers.find? mine).map (·.arrived)).getD 0 + 1
      let others := s.gathers.filter (fun g => !mine g)
      let t : State := { s with gathers := others }
      let g : Gather := { src := src, ctx := ctx, hart := hart, rel := rel, arrived := arrived }
      let ports := portsOf s src ctx hart
      ((s.domain.contains src = false ∨ s.refused.contains (src * 128 + ctx) = true) →
        exec (.marker src ctx hart rel total sent) s = .next s) ∧
      (s.domain.contains src = true → s.refused.contains (src * 128 + ctx) = false →
        (arrived < total →
          exec (.marker src ctx hart rel total sent) s = .next { s with gathers := others ++ [g] }) ∧
        (total ≤ arrived → (Tab.get {} s.streams (src * 128 + ctx)).low < sent →
          exec (.marker src ctx hart rel total sent) s = .next (packetFails t src ctx .flush)) ∧
        (total ≤ arrived → sent ≤ (Tab.get {} s.streams (src * 128 + ctx)).low →
          exec (.marker src ctx hart rel total sent) s = .next { s with
            gathers := others ++ [{ g with ports := some ports }]
            reqNet := s.reqNet ++ ports.map (fun p =>
              { kind := .flush, agent := .peer src, ctx := ctx, place := .port p, size := 0, origin := hart }) }))) ∧
    (∀ rel i q, s.respNet[i]? = some q →
      let its (j : Nat) (q : Response) : Prop :=
        q.kind = .flush ∧ q.agent.flushId = rel / 128 ∧ q.ctx = rel % 128 ∧ answerLeaves s j q = true
      its i q → (∀ j e, j < i → s.respNet[j]? = some e → ¬ its j e) →
      exec (.flushAck s.devidx rel) s = .next (arrive { s with respNet := s.respNet.eraseIdx i } q)) ∧
    (∀ dev rel, dev ≠ s.devidx →
      let its (g : Gather) : Bool := g.src == dev && g.hart == rel / 128 && g.ctx == rel % 128 && g.ports == some []
      (s.gathers.any its = true →
        exec (.flushAck dev rel) s = .next { s with gathers := s.gathers.filter (fun g => !its g) }) ∧
      (∀ r, s.gathers.any its = false → s.outbox.find? (fun r => r.kind == .flush && r.agent.flushId == rel / 128 &&
          r.ctx == rel % 128 && r.place == .peer dev 0) = some r → r.posted = false →
        ∃ t st, exec (.flushAck dev rel) s = .next t ∧ (st = .ok ∨ st = .fabric) ∧ t.outbox = s.outbox.erase r ∧
          t.inbox = s.inbox ++ [{ kind := .flush, agent := r.agent, ctx := r.ctx, place := r.place, size := 0, data := 0
                                  status := st, job := r.job }]))

/-- R89 to R95: the tracker halves the counts that have not reached the threshold at an epoch's end, and selects a
page that has; a promotion takes a frame of the free ring, whose entry, if it is bad, goes to the return ring; it copies
the page line by line, by requests as every agent's, swaps the leaf, and then invalidates and translates again what was
under way, or is abandoned; a frame goes back to the return ring, its entry before the index. -/
def Obligations.PromotionEventResults : Prop :=
  ∀ (s : State) (io n : Nat),
    (s.clock < Tab.get 0 s.epochAt io + 2 ^ (16 + s.trkctl.epoch) → exec (.trackerEpochEnd io) s = .next s) ∧
    (Tab.get 0 s.epochAt io + 2 ^ (16 + s.trkctl.epoch) ≤ s.clock → exec (.trackerEpochEnd io) s = .next { s with
      trackers := s.trackers.map (fun e =>
        if e.1 / 16384 == io && !e.2.due then (e.1, { e.2 with count := e.2.count / 2 }) else e)
      epochAt := Tab.put s.epochAt io s.clock }) ∧
    (s.trackers.find? (fun e => e.1 == io * 16384 + n) = none → exec (.hotPageSelect io n) s = .next s) ∧
    (∀ id p, s.trackers.find? (fun e => e.1 == io * 16384 + n) = some (id, p) →
      let t : State := { s with trackers := Tab.drop s.trackers id }
      let selects := s.trkctl.en && s.trkctl.thresh != 0 && (p.due || decide (s.trkctl.thresh ≤ p.count)) &&
        (s.slot p.ctx).pool != 0 && !promoting s p
      (selects = false → exec (.hotPageSelect io n) s = .next s) ∧
      (selects = true → s.promoQ.length < 32 → exec (.hotPageSelect io n) s = .next { t with promoQ := s.promoQ ++ [p] }) ∧
      (selects = true → 32 ≤ s.promoQ.length → exec (.hotPageSelect io n) s = .next (t.log (.promoBusy p.ctx)))) ∧
    ((∀ p ∈ s.promos, p.stage ≠ .pop) →
      (s.promoQ = [] → exec .promotionStart s = .next s) ∧
      (∀ p rest, s.promoQ = p :: rest →
        (8 ≤ s.promos.length → exec .promotionStart s = .next s) ∧
        (s.promos.length < 8 →
          exec .promotionStart s = .next { s with promoQ := rest, promos := s.promos ++ [{ page := p }] }))) ∧
    (∀ p, s.promos.find? (fun p => p.stage == .pop) = some p →
      let ctx := p.page.ctx
      let job := some p.page.vpn
      (∀ t, poolOf s ctx job = .ok (t, none) → exec .promotionStart s = .next (dropSelection t p)) ∧
      (∀ t d, poolOf s ctx job = .ok (t, some d) →
        (d.freeEmpty = true ∨ d.retFull = true → exec .promotionStart s = .next (dropSelection t p)) ∧
        (d.freeEmpty = false → d.retFull = false →
          (t.returnsDue.any (fun r => r.ctx == ctx) = true → exec .promotionStart s = .next t) ∧
          (∀ u e w, t.returnsDue.any (fun r => r.ctx == ctx) = false →
            promoRead t ctx job (d.word 0 + 8 * (d.word 3 % d.freeSize)) 8 = .ok (u, some e) →
            promoWrite u ctx job (d.field 3) (d.next 3) = .ok w →
            (entryBad w e = true → exec .promotionStart s =
              .next { w with returnsDue := w.returnsDue ++ [{ ctx := ctx, frame := e, kind := 2 }] }) ∧
            (entryBad w e = false → exec .promotionStart s = .next (w.setPromo p (fun q =>
              { q with frame := slice e 55 16 * 2 ^ 16, place := e % 4, stage := .copy 0 }))))))) ∧
    (∀ p, s.promos[n]? = some p →
      let ends (t : State) (kind frame : Nat) : State :=
        { t with returnsDue := t.returnsDue ++ [{ ctx := p.page.ctx, frame := frame, kind := kind }] }
      (∀ i t q, p.stage = .copy i → trip s (p.reads i) = .ok (t, q) → exec (.promotionComplete n) s =
        .next (t.setPromo p (fun r => { r with stage := if q.status = .ok then .put i q.data else .failed }))) ∧
      (∀ i d t q, p.stage = .put i d → trip s (p.writes s i d) = .ok (t, q) → exec (.promotionComplete n) s =
        .next (t.setPromo p (fun r => { r with stage := if i < 1023 then .copy (i + 1) else .swap }))) ∧
      (∀ t q, p.stage = .swap → trip s p.swaps = .ok (t, q) →
        (q.status = .ok → q.data.toNat % 2 ^ 64 = p.page.pte.toNat → exec (.promotionComplete n) s =
          .next (ends (releaseHeld (p.retranslate (invalidate (t.endPromo p) (.page p.va p.page.ctx)))) 0
            (t.devidx * 2 ^ 46 + p.tierFrame))) ∧
        (q.status ≠ .ok ∨ q.data.toNat % 2 ^ 64 ≠ p.page.pte.toNat → exec (.promotionComplete n) s =
          .next (t.setPromo p (fun r => { r with stage := .failed })))) ∧
      (p.stage = .failed → exec (.promotionAbandon n) s = .next (ends (releaseHeld (s.endPromo p)) 1 p.frame)) ∧
      (p.stage ≠ .failed → exec (.promotionAbandon n) s = .next s)) ∧
    (∀ r, s.promos.length ≤ n → s.returnsDue[n - s.promos.length]? = some r →
      (s.returnsDue.take (n - s.promos.length)).any (fun q => q.ctx == r.ctx) = false →
      (∀ t d, poolOf s r.ctx none = .ok (t, some d) →
        (d.retFull = true → exec (.promotionComplete n) s = .next t) ∧
        (∀ u w, d.retFull = false →
          promoWrite t r.ctx none (d.word 4 + 8 * (d.word 6 % d.retSize))
            (r.frame / 2 ^ 16 * 2 ^ 16 % 2 ^ 56 + r.kind) = .ok u →
          promoWrite u r.ctx none (d.field 6) (d.next 6) = .ok w →
          exec (.promotionComplete n) s = .next { w with returnsDue := w.returnsDue.erase r })))

/-- R481, R482: a collective's block is checked, answered and admitted; a communicator's word is read, and its sticky
bit cleared. R478 to R495: a collective that runs reads SEND, combines the packets that have come, writes the units whose
steps have ended to RECV, and has ended once every unit is written and no packet of it is left in a buffer; a packet is
checked as any of the fabric, and is a step, a failure, a mismatch, or too early; a failed rank tells every other; a
completed collective writes its word, once its payload is performed, and leaves. R490: at a chunk boundary a port sends a
packet of the communicator that comes first, one of a higher priority or passed over 64 times before one that is
neither. -/
def Obligations.CollectiveResults : Prop :=
  (∀ (f : Fmt) (s : State), guardOn f s = true →
    (∀ u bs v gs, (xval s f.a).toNat % 64 = 0 → loadWords s (xval s f.a) 64 2 = .ok (u, bs) →
      let b := dwordList bs 16
      let g := dwordList gs (cbRanks b)
      (if (cbGroup b).toNat % 8 = 0 then loadWords u (cbGroup b) 8 (cbRanks b) else .ok (u, [])) = .ok (v, gs) →
      (∀ st d, collCheck v v.myCtx b g = (st, d) → st ≠ 0 → dstReady v f.d = .ok () →
        Gives64 (.coll f) f s v (BitVec.ofNat 64 (d * 2 ^ 8 + st))) ∧
      (∀ w, (collCheck v v.myCtx b g).1 = 0 → dstReady v f.d = .ok () → release v 5 = .ok w → w.colls.length < 64 →
        w.barrier = none → dstReady (admitColl w b g) f.d = .ok () → Gives64 (.coll f) f s (admitColl w b g) 0)) ∧
    (∀ a, src64 s f.a 0 = .ok a → dstReady s f.d = .ok () →
      let key := commKey s.myCtx (a.toNat % 2 ^ 16)
      let t := s.setComm key { s.comm key with sat := false }
      Gives64 (.cstat f) f s s (commWord s key) ∧
      (dstReady t f.d = .ok () → Gives64 (.cstatClr f) f s t (commWord s key)))) ∧
  (∀ (s : State) (n : Nat) (c : Coll),
    let op (k : Nat) : Instr := match k with
      | 0 => .allreduce n | 1 => .reducescatter n | 2 => .allgather n | 3 => .broadcast n | 4 => .reduce n
      | 5 => .alltoall n | _ => .barrier n
    (∀ k, k ≤ 6 → collRuns s n = some c → cbOp c.block = k →
      let goes (t : State) : Prop := exec (op k) s = .next t
      (c.cut s = true → goes (collFail n s 8 0)) ∧
      (c.cut s = false → c.began = false → keyOk s c.ctx (cbKey c.block) = false → goes (collFail n s stKey 0)) ∧
      (c.cut s = false → (c.began = true ∨ keyOk s c.ctx (cbKey c.block) = true) →
        (∀ t, c.own = none → collRead s n c = .ok t → goes t.sendPosts) ∧
        (∀ own, c.own = some own →
          (∀ b, s.collBufs.find? (fun b => b.isOf c && !b.out) = some b → goes (collCombine s n c own b).sendPosts) ∧
          (s.collBufs.find? (fun b => b.isOf c && !b.out) = none →
            (∀ t, c.unit < c.total → c.unitOver own c.unit = true → collWrite s n c own = .ok t → goes t.sendPosts) ∧
            (c.unit < c.total → c.unitOver own c.unit = false → goes s.sendPosts) ∧
            (c.total ≤ c.unit → s.collBufs.any (fun b => b.isOf c) = true → goes s.sendPosts) ∧
            (c.total ≤ c.unit → s.collBufs.any (fun b => b.isOf c) = false →
              goes (s.setColl n { c with done := true }).sendPosts))))) ∧
    (∀ m : CollMsg, s.colls[n]? = some c → m.peer ≠ s.devidx → c.group.contains m.peer = true →
      s.domain.contains m.peer = true → s.refused.contains (m.peer * 128 + c.ctx) = false → m.port < 36 →
      let key := m.peer * 128 + c.ctx
      let st := Tab.get {} s.streams key
      let good := m.tagOk && m.epoch == s.epoch && seqGood st m.seq
      let u : State := { s with streams := Tab.put s.streams key (st.take m.path m.seq) }
      let goes (t : State) : Prop := exec (.collStep n (.takes m)) s = .next t
      (good = false → goes (packetFails s m.peer c.ctx .write)) ∧
      (good = true → st.passedOn m.path m.seq = true → goes s) ∧
      (good = true → st.passedOn m.path m.seq = false → collRuns s n = some c →
        (m.failed = 12 → goes (u.setColl n { c with status := 12 })) ∧
        (m.failed ≠ 0 → m.failed ≠ 12 → goes (u.setColl n { c with status := 11 })) ∧
        (m.failed = 0 → c.ordinal < m.ordinal → goes s) ∧
        (m.failed = 0 → m.ordinal ≤ c.ordinal → c.mismatch s m = true → goes (endRank u n c 12)) ∧
        (m.failed = 0 → m.ordinal < c.ordinal → c.mismatch s m = false → goes u) ∧
        (∀ own, m.failed = 0 → m.ordinal = c.ordinal → c.mismatch s m = false → c.own = some own →
          let waits := c.awaits own m.unit m.stage == some (c.group.idxOf m.peer) && bufferFree s m.port c.key &&
            !s.collBufs.any (fun b => b.isOf c && !b.out && b.unit == m.unit && b.stage == m.stage && b.peer == m.peer)
          (waits = true → goes ((({ u with collBufs := s.collBufs ++ [c.bufFor m] } : State).setColl n c).fabricMoved c.ctx
            false (c.flits (c.unitAt m.unit).n))) ∧
          (waits = false → goes s)))) ∧
    (∀ k b, s.collBufs[k]? = some b → b.out = true →
      let t : State := { s with collBufs := s.collBufs.eraseIdx k }
      exec (.collStep n (.answered k true)) s = .next t ∧
      exec (.collStep n (.answered k false)) s = .next (refuseStream t b.peer (b.key / 65536))) ∧
    (∀ code, let t := endRank s n c code
      t.colls = s.colls.set n { c with status := code } ∧ t.mem = s.mem ∧
      ∀ d, d ∈ c.group → d ≠ s.devidx → inDomain s d = true → s.refused.contains (d * 128 + c.ctx) = false →
        ∃ b, b ∈ t.collBufs ∧ b.peer = d ∧ b.out = true ∧ b.isOf c = true ∧ b.note = if code = 12 then 12 else 11) ∧
    (∀ port ready p i, port < 36 → lanesOfPort s port ≠ 0 → chunkGoesOn s port = none → p ∈ ready →
      chunkReady s port p = some (c, i) →
      let turn := Tab.get {} s.portTurns port
      let own := c.own.getD []
      let w := c.workAt own i
      (∀ q d j, q ∈ ready → chunkReady s port q = some (d, j) → (q, d) = (p, c) ∨ turn.before c d = true) →
      fabricRefusal s (.peer p.2 0) c.ctx = none →
      ∃ t, exec (.collStep port (.boundary ready)) s = .next t ∧
        (Tab.get {} t.portTurns port).last = some c.turn ∧
        (Tab.get {} t.portTurns port).now =
          some { key := c.key, ordinal := c.ordinal, peer := p.2, chunk := c.chunkOf i } ∧
        t.colls = s.colls.set p.1 (c.putWork own i { w with gone := w.gone + 1 }) ∧
        t.collBufs = s.collBufs ++ [{ port := port, key := c.key, ordinal := c.ordinal, out := true, peer := p.2
                                      unit := i, stage := w.stage, data := w.acc
                                      seq := Tab.get 0 s.sent (p.2 * 128 + c.ctx) }] ∧
        (∀ q d j, q ∈ ready → chunkReady s port q = some (d, j) → d.turn ≠ c.turn →
          Tab.get 0 (Tab.get {} t.portTurns port).passed d.turn = Tab.get 0 turn.passed d.turn + 1) ∧ t.mem = s.mem) ∧
    (∀ port ready m peer d i, port < 36 → lanesOfPort s port ≠ 0 → chunkGoesOn s port = some (m, peer, d, i) →
      exec (.collStep port (.boundary ready)) s = .next (sendUnit s port m peer d i)) ∧
    (∀ (turn : PortTurn) (c d : Coll),
      (cbPrio d.block < cbPrio c.block → Tab.get 0 turn.passed d.turn < 64 → turn.before c d = true) ∧
      (64 ≤ Tab.get 0 turn.passed c.turn → Tab.get 0 turn.passed d.turn < 64 → turn.before c d = true)) ∧
    (s.colls[n]? = some c →
      (c.done = false → c.status = 0 → exec (.collComplete n) s = .next s) ∧
      ((c.done = true ∨ c.status ≠ 0) → cbCword c.block = 0 → exec (.collComplete n) s = .next (endColl s n c)) ∧
      (∀ t u, (c.done = true ∨ c.status ≠ 0) → cbCword c.block ≠ 0 →
        engOf (flushFor s c.agent c.ctx (some c.seg) c.seg c.dest) = .ok t →
        engWrite1 (t.setColl n { c with dest := {} }) c.who c.agent 0 (cbCword c.block) (leBytes 8 c.word) = .ok u →
        exec (.collComplete n) s = .next (endColl u n c).sendPosts)))

/-- R465 to R468: a held packet that is its source's oldest is admitted when what its unit knows of its queue has room, and
CONS is read when it has none; an admitted packet is written into its queue's next entry, and then PROD advances; the
first FATAL packet of a member is always admitted, and another only while fewer than 240 entries are taken; a poll reads
CONS. R463, R467: the steading's queue takes a supervisor hart's packet under the same rules. -/
def Obligations.TrapQueueResults : Prop :=
  ∀ (s : State) (n cluster : Nat),
    (∀ p, s.heldPackets[n]? = some p →
      let goes (t : State) : Prop := exec (.trapPacketAdmit n) s = .next t
      (∀ a, p.cluster ≠ 64 → trapQueueAt s p.cluster = some a →
        (∀ t q, s.trapUnits.find? (fun e => e.1 == p.cluster) = none →
          trapTrip s p.cluster .read a 64 0 = .ok (t, q) → q.status = .ok →
          goes (t.setTrap p.cluster { prod := (dwordOf q.data 0).toNat, cons := (dwordOf q.data 1).toNat })) ∧
        (∀ e, s.trapUnits.find? (fun e => e.1 == p.cluster) = some e →
          (e.2.busy = none → oldestOfSource s n p = true → e.2.fits p = true →
            goes (s.setTrap p.cluster { e.2 with busy := some p })) ∧
          (e.2.busy = none → oldestOfSource s n p = false → goes s) ∧
          (∀ t q, e.2.busy = none → oldestOfSource s n p = true → e.2.fits p = false →
            trapTrip s p.cluster .read (a + 8) 8 0 = .ok (t, q) → q.status = .ok →
            goes (t.setTrap p.cluster (e.2.consAt (q.data.toNat % 2 ^ 64)))) ∧
          (∀ b, e.2.busy = some b → b ≠ p → goes s) ∧
          (∀ at_ t u q r, e.2.busy = some p → trapEntryAt s p.cluster e.2.prod = some at_ →
            let next := (e.2.prod + 1) % 2 ^ 64
            trapTrip s p.cluster .write at_ 64 (v512 p.bytes) = .ok (t, q) →
            trapTrip t p.cluster .write a 8 (BitVec.ofNat 512 next) = .ok (u, r) → r.status = .ok →
            goes { u.setTrap p.cluster { e.2 with prod := next, live := e.2.live ++ [p], busy := none } with
              heldPackets := u.heldPackets.erase p }))) ∧
      (p.cluster = 64 →
        let ok := admits (packetMarks s.steadingQ) 0 (entryMember p.low) (entryFatal p.low)
        (ok = true → oldestOfSource s n p = true → goes { s with
          steadingQ := s.steadingQ ++ [p], steadingProd := (s.steadingProd + 1) % 2 ^ 64
          heldPackets := s.heldPackets.eraseIdx n }) ∧
        ((ok = false ∨ oldestOfSource s n p = false) → goes s))) ∧
    (∀ (q : List (Nat × Bool)) (older m : Nat),
      (q.any (fun e => e.1 == m && e.2) = false → admits q older m true = true) ∧
      (q.all (fun e => !e.2) = true → admits q older m false = decide (older + q.length < 240))) ∧
    (cluster ≠ 64 →
      (∀ a e t q, trapQueueAt s cluster = some a → s.heldPackets.any (fun p => p.cluster == cluster) = true →
        s.trapUnits.find? (fun e => e.1 == cluster) = some e → trapTrip s cluster .read (a + 8) 8 0 = .ok (t, q) →
        q.status = .ok →
        exec (.trapConsPoll cluster) s = .next (t.setTrap cluster (e.2.consAt (q.data.toNat % 2 ^ 64)))) ∧
      (s.heldPackets.any (fun p => p.cluster == cluster) = false → exec (.trapConsPoll cluster) s = .next s)) ∧
    (∀ p rest, s.steadingQ = p :: rest → exec (.trapConsPoll 64) s =
      .next { s with steadingQ := rest, steadingCons := (s.steadingCons + 1) % 2 ^ 64 })

/-- R183 to R201: decoding the words of a program instruction gives it back, outside a rep body and inside one, for
every value of every field that the encoding admits. -/
def Obligations.EncodingRoundTrip : Prop :=
  ∀ (i : Instr) (op : Nat) (φ : Form) (f : Fmt), i.parts = some (op, φ, f) →
    (i.wf = true → decode false (wordBytes (encode i)) = .ok i) ∧
    (i.wfInBody = true → decode true (wordBytes (encode i)) = .ok i)

/-- R183 to R201: words that the spec's tables write out, one or more of each family, decode to their instructions; an
unassigned opcode, the guard ?!p0 and a type that is not accepted are refused by name. -/
def Obligations.DecodedWords : Prop :=
  let at3 (g : Fin 8) (f : Fmt) : Fmt := { f with guard := { neg := false, p := g } }
  decodeWord false 0x100007800500600700000000 = .ok (.add (plain .n8 8 (.x 5) (.x 6) (.x 7))) ∧
  decodeWord false 0x200001240500600700000000 = .ok (.cmp (plain .i32 2 (.p 5) (.x 6) (.x 7))) ∧
  decodeWord false 0x0230000E00E00E0000000005 = .ok (.j (at3 3 (plain .i64 0 .none .none .none 5))) ∧
  decodeWord false 0x3000060005006E0000000006 = .ok (.ld (plain .n16 0 (.x 5) (.x 6) .none 6)) ∧
  decodeWord false 0x3100011E0000500600000008 = .ok (.st (plain .i32 1 .none (.x 5) (.x 6) 8)) ∧
  decodeWord false 0x350001400500600700000002 = .ok (.amo (plain .i32 4 (.x 5) (.x 6) (.x 7) 2)) ∧
  decodeWord false 0x4400001E00620C0400000000 = .ok (.qwaitRoom (plain .i64 1 .none (.q 1 0) (.const 4))) ∧
  decodeWord false 0x4800001007620E0000000000 = .ok (.tourBind (plain .i64 1 (.x 7) (.q 1 0) .none)) ∧
  decodeWord false 0x4F00001006E00E0000000003 = .ok (.rnggetLeft (plain .i64 1 (.x 6) .none .none 3)) ∧
  decodeWord false 0x535009020320420500000000 = .ok (.vfma (at3 5 (plain .bf16 0 (.v 3) (.v 4) (.v 5)))) ∧
  decodeWord false 0x6E000A1E0000520300000040 = .ok (.vst (plain .fp16 1 .none (.x 5) (.v 3) 0x40)) ∧
  decodeWord false 0x8200010214800C5000000000 = .ok (.mxrd (plain .i32 0 (.v 20) (.tile 0) (.const 0x50))) ∧
  decodeWord false 0x9000000E00201E0000000003 = .ok (.cpq (plain .i64 0 .none (.v 1) .none 3)) ∧
  decodeWord false 0x990000200700500A00000000 = .ok (.kvmapWr (plain .i64 2 (.x 7) (.x 5) (.x 10))) ∧
  decodeWord false 0xA000000005006E0000000000 = .ok (.coll (plain .i64 0 (.x 5) (.x 6) .none)) ∧
  decodeWord false 0xB800000005E000060000000B = .ok (.mtrd (plain .i64 0 (.x 5) .none (.x 6) 11)) ∧
  decodeWord false 0x090000000000000000000000 = .error .opcode ∧
  decodeWord false 0x108000000500600700000000 = .error .guard ∧
  decodeWord false 0x100008000500600700000000 = .error .ty

/-- R167, R176, R183, R199: a hart's turn, whether the schedule names it or the machine gives it, performs the
instruction that the bytes at its program counter decode to, once time has passed, its core issues from it, its streams are
joined, no load of it is on its way and it stands at no boundary; the values that its execute stream has handed over are
taken; a turn of a hart from which its core does not issue changes nothing; a turn of an event performs the event. -/
def Obligations.StepRunsTheDecodedInstruction : Prop :=
  ∀ (s : State),
    (let runs (a : State) : Prop :=
       ∀ u bytes i, a.me.running = true → a.me.frozen = false → a.me.lag = [] → a.me.pend = [] → boundary a = none →
         a.me.sleep = none → fetchBytes a = .ok (u, bytes) → decodeFor u.me.repst (overlay u bytes) = .ok i →
         let t := noteIssue u u.cur (yieldHint i)
         step s = exec i (if t.me.copyEA = [] then t else t.modMe (fun h => { h with copyEA := [] }))
     (∀ id ts, s.turns = .hart id :: ts →
       let a : State := { advanceTime s with turns := ts }
       (pickHart a (coreOf id) = some id → runs { a with cur := id }) ∧
       (pickHart a (coreOf id) ≠ some id → step s = .next a)) ∧
     (∀ a c id, s.turns = [] → nextAgent (advanceTime s) = (a, .core c) → pickHart a c = some id →
       runs { a with cur := id })) ∧
    (∀ e ts, s.turns = .event e :: ts → e.parts = none → step s = exec e { advanceTime s with turns := ts })

/-- R79, R89, R162, R163, R165, R180, R181, R240, R401, R499, R501, R503, R508: the machine right after reset: the values
the spec gives, with both memories empty and canonical. (Registers without a reset value of the spec are not stated.)
-/
def Obligations.ResetState : Prop :=
  let s := State.reset
  s.mem = [] ∧ s.spad = [] ∧ Mem.wf s.mem = true ∧ Mem.wf s.spad = true ∧ s.sysgo = false ∧ s.devidx = 0 ∧
  s.hi = 8 ∧ s.lo = 1 ∧ s.trkctl.thresh = 4096 ∧ s.trkctl.epoch = 4 ∧ s.trkctl.en = false ∧
  s.wardensFit = true ∧ (∀ core ctx, (s.unit core ctx).tidle = 128) ∧
  (∀ k, (s.slot k).st = .free ∧ (s.slot k).busy = true ∧ (s.slot k).overrun = false ∧ (s.slot k).result = 0 ∧ (s.slot k).err = 0) ∧
  (∀ hid ctx, let h := s.bank hid ctx
    h.modeS = isSup hid ∧ h.ie = false ∧ h.pie = false ∧ h.pmode = false ∧ h.ipend = 0 ∧ h.ienab = 0 ∧ h.cmask = 0 ∧
    h.dead = 0 ∧ h.repst = 0 ∧ h.ivec = 0 ∧ h.ipc = 0 ∧ h.icause = 0 ∧ h.irep = 0 ∧ h.tcmp = 0 ∧ h.budget = 0 ∧
    h.deadline = 0 ∧ (∀ n : Fin 16, h.qbind[n] = 0) ∧ h.running = false ∧ h.frozen = false ∧
    h.rx 0 = 0 ∧ h.rp 0 = BitVec.allOnes 64)

/-- An invariant of the model's own data: from every state whose memories are in their canonical form, a step gives
one. Whatever acts, no store leaves two entries for a byte, an unsorted list or an entry that reads as an unlisted
address. -/
def Obligations.MemoryStaysCanonical : Prop :=
  ∀ (s t : State), Mem.wf s.mem = true → Mem.wf s.spad = true → step s = .next t →
    Mem.wf t.mem = true ∧ Mem.wf t.spad = true

/-- R185, R197: an instruction outside the vector opcodes whose guard is false performs nothing and counts as one
pass, in either mode and on every core, once its decode checks pass: in S mode, where it is reserved to it (a write of a
control register that U mode may not write among them); on a supervisor core, where it is reserved to those; and on a
compute core, where it names a unit that only those have. -/
def Obligations.GuardedOffSkips : Prop :=
  ∀ (i : Instr) (op : Nat) (φ : Form) (f : Fmt) (s : State), i.parts = some (op, φ, f) → ¬ (0x50 ≤ op ∧ op ≤ 0x7E) →
    guardOn f s = false →
    (op ∈ [0xB6, 0xB9, 0xBA, 0xBC] → s.me.modeS = true) →
    (∀ r, op ∈ [0x29, 0x2A, 0x2B] → f.d = .csr r → r.userWritable = false → s.me.modeS = true) →
    (op ∈ [0xBA, 0xBC] → isSup s.cur = true) →
    ((0x48 ≤ op ∧ op ≤ 0x4D) ∨ (0x80 ≤ op ∧ op ≤ 0x85) ∨ (0x94 ≤ op ∧ op ≤ 0x97) → isSup s.cur = false) →
    exec i s = .next (s.modMe (fun h => h.advance.awaken))

/-- R181, R226, R233 to R243, R380, R382: the frame of the scalar instructions that compute: whatever they end
in, they change nothing but their destination, the registers of last-use hints, and the hart's progress. -/
def Obligations.ScalarFrame : Prop :=
  ∀ (mk : Fmt → Instr) (f : Fmt) (s t : State),
    mk ∈ [Instr.nop, .add, .sub, .mul, .mulh, .div, .rem, .and, .or, .xor, .andn, .shl, .shr, .sra, .min, .max, .bits, .cmp,
      .sel, .mov, .movhi, .ext, .ins, .plog, .addr, .csrr, .cvt, .fadd, .fmul, .fma, .rdtime, .mtrd] →
    exec (mk f) s = .next t → OnlyWrites f s t

/-- R181, R185, R259 to R308: the frame of the vector instructions that access no memory. -/
def Obligations.VectorFrame : Prop :=
  ∀ (mk : Fmt → Instr) (f : Fmt) (s t : State),
    mk ∈ [Instr.vadd, .vsub, .vmul, .vfma, .vfms, .vmin, .vmax, .vand, .vor, .vxor, .vshl, .vshr, .vsra, .vcmp, .vsel, .vun,
      .vmov, .vext, .vins, .vperm, .vslide, .vred, .vscan, .vpopc, .vcompr, .vexpnd, .vzip, .vunzip, .viota, .vcvt, .vcvtp,
      .vrequ, .vscacc, .vbexp, .vclip, .vpod, .vpodd, .vdot, .vlut, .vplane, .vunpl] →
    exec (mk f) s = .next t → OnlyWrites f s t

/-- R73, R75, R244, R293, R361 to R366: the bytes that stores and atomics touch. A store leaves memory to its request,
device memory and scratchpads alike; a request performed at its bank touches only its own bytes, and so does an atomic
on the hart's own scratchpad. Addresses are what `resolve`, `atomicTarget` and `placeOf` give. -/
def Obligations.StoresTouchOnlyTheirBytes : Prop :=
  ∀ (f : Fmt) (s t : State), Mem.wf s.mem = true → Mem.wf s.spad = true →
    let outside (p n a : Nat) : Prop := a < p ∨ p + n ≤ a
    (∀ mk ∈ [Instr.st, .stp, .vst, .vstx, .vsts, .amored], exec (mk f) s = .next t → t.mem = s.mem ∧ t.spad = s.spad) ∧
    (∀ (bank n p : Nat) (r : Request), (Tab.get [] s.bankQ bank)[n]? = some r → r.place = .mem p → r.enc = false →
      exec (.columnCommand bank n) s = .next t →
      let size := if r.kind = .read then 0 else if r.kind = .write then (if r.mask = 0 then r.size else 64)
        else if r.reduce = true then r.ty.width / 8 else r.size
      t.spad = s.spad ∧ ∀ a, outside p size a → Mem.read t.mem a = Mem.read s.mem a) ∧
    (∀ (n core off : Nat) (r : Request), s.reqNet[n]? = some r → r.place = .spad core off →
      exec (.scratch n) s = .next t →
      let ctx := if r.ctx = sysCtx then s.ctxOf core else r.ctx
      let size := if r.kind = .read then 0 else if r.kind ≠ .atomic ∧ r.mask ≠ 0 then 64 else r.size
      t.mem = s.mem ∧ ∀ a, outside (spadKey core ctx off) size a → Mem.read t.spad a = Mem.read s.spad a) ∧
    (∀ mk ∈ [Instr.amo, .cas], exec (mk f) s = .next t →
      t.mem = s.mem ∧
      (∀ core off, atomicTarget s (xval s f.a) (f.ty.width / 8) false = .ok (.spad core off) →
        ∀ a, OffSlot f s a → outside (spadKey core (s.ctxOf core) off) (f.ty.width / 8) a →
          Mem.read t.spad a = Mem.read s.spad a))

/-- R162, R197, R240, R378, R381, R383, R51: an instruction that its description reserves to S mode, and a write of a
control register that U mode may not write, raise ILLEGAL with cause PRIVILEGE in U mode, whatever the guard; keyld
and ctxsw are reserved to the supervisor cores as well; an ecall in S mode raises ECALL. -/
def Obligations.PrivilegeChecks : Prop :=
  ∀ (f : Fmt) (s : State),
    let refused (i : Instr) : Prop := exec i s = .next (s.takeFault (illegal causePrivilege))
    (s.me.modeS = false →
      refused (.eret f) ∧ refused (.tlbinvPage f) ∧ refused (.tlbinvCtx f) ∧ refused (.tlbinvAll f) ∧
      (∀ r, f.d = .csr r → r.userWritable = false → refused (.csrw f) ∧ refused (.csrs f) ∧ refused (.csrc f))) ∧
    ((s.me.modeS = false ∨ isSup s.cur = false) →
      refused (.keyld f) ∧ refused (.keyldClear f) ∧ refused (.ctxsw f) ∧ refused (.ctxswStat f)) ∧
    (s.me.modeS = true → guardOn f s = true →
      exec (.ecall f) s = .next (s.dropAnswers.takeFault (illegal causeEcall)))

/-- R463 to R465: a hart that takes a fault joins its streams, freezes with its program counter on the faulting
instruction, and sends one packet, with the next sequence number of the hart, which it holds until its queue, the
cluster's or the steading's, admits it; it changes nothing else; a frozen hart's turn does nothing. -/
def Obligations.FaultsFreezeTheHart : Prop :=
  ∀ (s : State) (f : TrapInfo),
    let t := s.takeFault f
    let seq := s.nextSeq (.hart s.cur)
    let pc := if f.code = .illegal ∧ f.cause = causeBreak then s.me.pc - 12 else s.me.pc
    let packet : Packet := { src := .hart s.cur, dw := packetWords (.hart s.cur) s.myCtx seq pc f }
    t.me.frozen = true ∧ t.me.pc = s.me.pc ∧ t.me.epc = s.me.pc ∧ t.me.lag = [] ∧ t.me.waiting = false ∧
    t.me.repst = s.me.repst ∧ t.me.status = s.me.status ∧
    t.me.ipend = s.me.ipend ∧ t.me.x = s.me.x ∧ t.me.v = s.me.v ∧ t.me.p = s.me.p ∧ t.me.lastPacket = packet.dw ∧
    t.nextSeq (.hart s.cur) = (seq + 1) % 2 ^ 32 ∧ t.mem = s.mem ∧ t.spad = s.spad ∧ t.units = s.units ∧
    t.heldPackets = s.heldPackets ++ [packet] ∧ t.steadingQ = s.steadingQ ∧
    packet.cluster = (if isSup s.cur then 64 else clusterOf (coreOf s.cur)) ∧
    (∀ hid ctx, hid * 128 + ctx ≠ s.cur * 128 + s.myCtx → t.bank hid ctx = s.bank hid ctx) ∧
    hartTurn t = .next t ∧ executeTurn t = .next t

/-- R161, R181, R182: x0 reads zero and p0 all ones, and both discard writes; a dead register reads zero in every
lane, and a write makes it live; marking a register dead changes no other. -/
def Obligations.ConstantAndDeadRegisters : Prop :=
  ∀ (h : Hart) (v : W64) (w : V512),
    h.rx 0 = 0 ∧ h.rp 0 = BitVec.allOnes 64 ∧ h.wx 0 v = h ∧ h.wp 0 v = h ∧
    (∀ r : Fin 32, h.dead.getLsbD r.val = true → h.rx r = 0) ∧
    (∀ r : Fin 32, h.dead.getLsbD (32 + r.val) = true → h.rv r = 0) ∧
    (∀ r : Fin 32, r ≠ 0 → (h.wx r v).rx r = v ∧ (h.wx r v).dead.getLsbD r.val = false ∧
      ∀ q : Fin 32, q ≠ r → (h.wx r v).rx q = h.rx q) ∧
    (∀ r : Fin 32, (h.wv r w).rv r = w ∧ (h.wv r w).dead.getLsbD (32 + r.val) = false ∧
      ∀ q : Fin 32, q ≠ r → (h.wv r w).rv q = h.rv q) ∧
    (∀ r : Fin 8, r ≠ 0 → (h.wp r v).rp r = v ∧ ∀ q : Fin 8, q ≠ r → (h.wp r v).rp q = h.rp q) ∧
    (∀ r : Fin 32, r ≠ 0 → (h.kill r.val).rx r = 0 ∧ (∀ q : Fin 32, q ≠ r → (h.kill r.val).rx q = h.rx q) ∧
      ∀ q, (h.kill r.val).rv q = h.rv q)

/-- R27: an access, scalar or atomic, whose address has bits 63:56 unlike bit 55 raises ACCESS with cause NONCANONICAL
and touches no memory, and so does an instruction fetch at such a program counter. -/
def Obligations.NoncanonicalAddressesFault : Prop :=
  ∀ (f : Fmt) (s : State) (va : W64), va.extractLsb 63 56 ≠ (if va.getLsbD 55 = true then 0xFF else 0) →
    let faults (r : Host.Outcome State Fault Refusal) (va : W64) : Prop :=
      r = .next (s.dropAnswers.takeFault { code := .access, cause := causeNoncanonical, va := va }) ∧
        (s.dropAnswers.takeFault { code := .access, cause := causeNoncanonical, va := va }).mem = s.mem ∧
        (s.dropAnswers.takeFault { code := .access, cause := causeNoncanonical, va := va }).spad = s.spad
    (guardOn f s = true → dstReady s f.d = .ok () →
      (effAddr (xval s f.a) f.imm = va → va.toNat % (f.ty.width / 8) = 0 → faults (exec (.ld f) s) va ∧
        ∀ b, src64 s f.b 0 = .ok b → faults (exec (.st f) s) va) ∧
      (effAddr (xval s f.a) f.imm = va → va.toNat % 16 = 0 → faults (exec (.ldp f) s) va ∧ faults (exec (.stp f) s) va) ∧
      (∀ b, xval s f.a = va → va.toNat % (f.ty.width / 8) = 0 → src64 s f.b f.imm = .ok b → rmwIssued s = false →
        faults (exec (.amo f) s) va ∧ faults (exec (.cas f) s) va ∧ faults (exec (.waitw f) s) va) ∧
      (∀ b, xval s f.a = va → va.toNat % (f.ty.width / 8) = 0 → srcAt s f.ty f.b = .ok b → faults (exec (.amored f) s) va)) ∧
    (s.me.running = true → s.me.frozen = false → s.me.lag = [] → s.me.pend = [] → boundary s = none → s.me.sleep = none → s.me.pc = va →
      va.toNat % 4 = 0 →
      faults (hartTurn s) va) ∧
    (∀ w a, resolve s w a va = .error (.fault s { code := .access, cause := causeNoncanonical, va := va }))

/-- R12, R13: the cluster and the member index of each compute core, from the die, the row and the column of its core
id. -/
def Obligations.CoreNumbersGiveClusters : Prop :=
  ∀ (d ly lx : Nat), d < 8 → ly < 8 → lx < 16 →
    let c := d * 128 + (ly * 16 + lx)
    clusterOf c = d * 8 + ly / 4 * 4 + lx / 4 ∧ memberOf c = ly % 4 * 4 + lx % 4 ∧ clusterOf c < 64 ∧ memberOf c < 16 ∧
      memberCore (clusterOf c) (memberOf c) = c ∧ dieOf c = d

/-- R171 to R176, R178: the streams of a hart apart. Where the access stream may pass an instruction and the queues have
room, its turn issues an access instruction and keeps it for the execute stream with the entries it writes for it, or
passes an execute instruction, whose access-owned values and slots enter the copy queue, 16 at most; the execute stream's
turn then issues that instruction at its own program counter with those values, and changes only its own registers; it
waits for a value that a load has not given yet. A stop waits until the streams are joined. That a stream may pass these
instructions and no others is the model's choice (log entry 70). -/
def Obligations.StreamsRunApart : Prop :=
  ∀ (s : State) (i : Instr) (op : Nat) (φ : Form) (f : Fmt), i.parts = some (op, φ, f) →
    let h := s.me.parted
    let off := guardedOff h op f && !inExec (guardOp f)
    (∀ n, h.queueRoom n = true ↔ h.copyAE.length < 16 ∧ h.copyAE.length + n ≤ 16 ∧ h.branchQ.length < 32) ∧
    (streamOf op f = .execute → mayPass op f = true → h.queueRoom (entryOps op f).length = true →
      (∀ es, entriesOf s (takenOps op f off) = .ok es → passTurn s i op f = some (.next (s.setMe
        (h.passedBy (if off = true then h else h.lastUse f).advance.awaken i es [])))) ∧
      (∀ t, entriesOf s (takenOps op f off) = .error (.wait t) →
        passTurn s i op f = some (.next (t.modMe (fun h => { h with waiting := true }))))) ∧
    (∀ os : List Operand, (∀ o ∈ os, isQueue o = false) → entriesOf s os = .ok (os.map s.me.entryOf)) ∧
    (∀ t, streamOf op f ≠ .execute → mayPass op f = true → h.queueRoom (destOps op f).length = true → s.me.pend = [] →
      exec i (s.setMe h) = .next t → t.me.waiting = false →
      (t.me.frozen = true → passTurn s i op f = none) ∧
      (t.me.frozen = false → passTurn s i op f = some (.next (t.setMe (h.passedBy t.me i
        ((destOps op f).map t.me.entryOf) (if queuedBranch op f = true then [t.me.apc] else [])))))) ∧
    (mayPass op f = false → passTurn s i op f = none) ∧
    (h.queueRoom (if streamOf op f = .execute then entryOps op f else destOps op f).length = false →
      passTurn s i op f = none) ∧
    (∀ rest, s.me.lag = i :: rest → streamOf op f = .execute →
      let ops := takenOps op f (offByEntry s.me op f)
      (s.me.handed ops.length = none → followTurn s = s) ∧
      ∀ vs, s.me.handed ops.length = some vs →
        let view := s.me.execView.withEntries (ops.zip vs)
        ∀ t, exec i (s.setMe view) = .next t →
          followTurn s = s.setMe (s.me.followed t.me ops.length false) ∧ (followTurn s).me.lag = rest ∧
            (followTurn s).mem = s.mem ∧ (followTurn s).spad = s.spad ∧
            ∀ r : Fin 32, r.val < 16 → (followTurn s).me.rx r = s.me.rx r) ∧
    (∀ (k : Hart) (p : Pending) (data : Nat), k.pend = [p] → let l := k.loaded p.id data
      l.pend = [] ∧ l.apc = k.apc ∧ l.lag = k.lag ∧
        (p.reg ≠ 0 → p.reg.val < 16 → k.dead.getLsbD p.reg.val = false →
          l.rx p.reg = extend p.ty (data % 2 ^ p.ty.width)) ∧
        l.copyAE = k.copyAE.map (fun e =>
          if e = .awaits p.id then .ready ((extend p.ty (data % 2 ^ p.ty.width)).setWidth 512) else e)) ∧
    (∀ g entries target, let k := h.passedBy g i entries target
      k.lag = h.lag ++ [i] ∧ k.epc = h.epc ∧ k.apc = g.apc ∧ k.v = h.v ∧
        (∀ r : Fin 32, 16 ≤ r.val → k.rx r = h.rx r) ∧ ∀ r : Fin 32, r.val < 16 → k.rx r = g.rx r)
end

