-- ==== Sys2Proof/Laws/State.lean ====
section
/-! SUPPORT. What each update of the state leaves alone, field by field, true by definition. -/

namespace Sys2Proof.Machine


-- State.setCore
@[simp] theorem State.setCore_cur (s : State) (c : Nat) (k : Core) : (s.setCore c k).cur = s.cur := rfl
@[simp] theorem State.setCore_turns (s : State) (c : Nat) (k : Core) : (s.setCore c k).turns = s.turns := rfl
@[simp] theorem State.setCore_auto (s : State) (c : Nat) (k : Core) : (s.setCore c k).auto = s.auto := rfl
@[simp] theorem State.setCore_ticks (s : State) (c : Nat) (k : Core) : (s.setCore c k).ticks = s.ticks := rfl
@[simp] theorem State.setCore_draws (s : State) (c : Nat) (k : Core) : (s.setCore c k).draws = s.draws := rfl
@[simp] theorem State.setCore_time (s : State) (c : Nat) (k : Core) : (s.setCore c k).time = s.time := rfl
@[simp] theorem State.setCore_clock (s : State) (c : Nat) (k : Core) : (s.setCore c k).clock = s.clock := rfl
@[simp] theorem State.setCore_harts (s : State) (c : Nat) (k : Core) : (s.setCore c k).harts = s.harts := rfl
@[simp] theorem State.setCore_units (s : State) (c : Nat) (k : Core) : (s.setCore c k).units = s.units := rfl
@[simp] theorem State.setCore_ringNet (s : State) (c : Nat) (k : Core) : (s.setCore c k).ringNet = s.ringNet := rfl
@[simp] theorem State.setCore_spad (s : State) (c : Nat) (k : Core) : (s.setCore c k).spad = s.spad := rfl
@[simp] theorem State.setCore_mem (s : State) (c : Nat) (k : Core) : (s.setCore c k).mem = s.mem := rfl
@[simp] theorem State.setCore_badLines (s : State) (c : Nat) (k : Core) : (s.setCore c k).badLines = s.badLines := rfl
@[simp] theorem State.setCore_softLines (s : State) (c : Nat) (k : Core) : (s.setCore c k).softLines = s.softLines := rfl
@[simp] theorem State.setCore_macs (s : State) (c : Nat) (k : Core) : (s.setCore c k).macs = s.macs := rfl
@[simp] theorem State.setCore_blockCtrs (s : State) (c : Nat) (k : Core) : (s.setCore c k).blockCtrs = s.blockCtrs := rfl
@[simp] theorem State.setCore_treeCtrs (s : State) (c : Nat) (k : Core) : (s.setCore c k).treeCtrs = s.treeCtrs := rfl
@[simp] theorem State.setCore_badNodes (s : State) (c : Nat) (k : Core) : (s.setCore c k).badNodes = s.badNodes := rfl
@[simp] theorem State.setCore_trkctl (s : State) (c : Nat) (k : Core) : (s.setCore c k).trkctl = s.trkctl := rfl
@[simp] theorem State.setCore_trackers (s : State) (c : Nat) (k : Core) : (s.setCore c k).trackers = s.trackers := rfl
@[simp] theorem State.setCore_epochAt (s : State) (c : Nat) (k : Core) : (s.setCore c k).epochAt = s.epochAt := rfl
@[simp] theorem State.setCore_promoQ (s : State) (c : Nat) (k : Core) : (s.setCore c k).promoQ = s.promoQ := rfl
@[simp] theorem State.setCore_promos (s : State) (c : Nat) (k : Core) : (s.setCore c k).promos = s.promos := rfl
@[simp] theorem State.setCore_heldAt (s : State) (c : Nat) (k : Core) : (s.setCore c k).heldAt = s.heldAt := rfl
@[simp] theorem State.setCore_returnsDue (s : State) (c : Nat) (k : Core) : (s.setCore c k).returnsDue = s.returnsDue := rfl
@[simp] theorem State.setCore_events (s : State) (c : Nat) (k : Core) : (s.setCore c k).events = s.events := rfl
@[simp] theorem State.setCore_meters (s : State) (c : Nat) (k : Core) : (s.setCore c k).meters = s.meters := rfl
@[simp] theorem State.setCore_outbox (s : State) (c : Nat) (k : Core) : (s.setCore c k).outbox = s.outbox := rfl
@[simp] theorem State.setCore_inbox (s : State) (c : Nat) (k : Core) : (s.setCore c k).inbox = s.inbox := rfl
@[simp] theorem State.setCore_posts (s : State) (c : Nat) (k : Core) : (s.setCore c k).posts = s.posts := rfl
@[simp] theorem State.setCore_slots (s : State) (c : Nat) (k : Core) : (s.setCore c k).slots = s.slots := rfl
@[simp] theorem State.setCore_sysentry (s : State) (c : Nat) (k : Core) : (s.setCore c k).sysentry = s.sysentry := rfl
@[simp] theorem State.setCore_sysivec (s : State) (c : Nat) (k : Core) : (s.setCore c k).sysivec = s.sysivec := rfl
@[simp] theorem State.setCore_sysgo (s : State) (c : Nat) (k : Core) : (s.setCore c k).sysgo = s.sysgo := rfl
@[simp] theorem State.setCore_launches (s : State) (c : Nat) (k : Core) : (s.setCore c k).launches = s.launches := rfl
@[simp] theorem State.setCore_headland (s : State) (c : Nat) (k : Core) : (s.setCore c k).headland = s.headland := rfl
@[simp] theorem State.setCore_headAbove (s : State) (c : Nat) (k : Core) : (s.setCore c k).headAbove = s.headAbove := rfl
@[simp] theorem State.setCore_notices (s : State) (c : Nat) (k : Core) : (s.setCore c k).notices = s.notices := rfl
@[simp] theorem State.setCore_normalQ (s : State) (c : Nat) (k : Core) : (s.setCore c k).normalQ = s.normalQ := rfl
@[simp] theorem State.setCore_commQ (s : State) (c : Nat) (k : Core) : (s.setCore c k).commQ = s.commQ := rfl
@[simp] theorem State.setCore_sowing (s : State) (c : Nat) (k : Core) : (s.setCore c k).sowing = s.sowing := rfl
@[simp] theorem State.setCore_hi (s : State) (c : Nat) (k : Core) : (s.setCore c k).hi = s.hi := rfl
@[simp] theorem State.setCore_lo (s : State) (c : Nat) (k : Core) : (s.setCore c k).lo = s.lo := rfl
@[simp] theorem State.setCore_reserve (s : State) (c : Nat) (k : Core) : (s.setCore c k).reserve = s.reserve := rfl
@[simp] theorem State.setCore_reserveAt (s : State) (c : Nat) (k : Core) : (s.setCore c k).reserveAt = s.reserveAt := rfl
@[simp] theorem State.setCore_lost (s : State) (c : Nat) (k : Core) : (s.setCore c k).lost = s.lost := rfl
@[simp] theorem State.setCore_nextLoss (s : State) (c : Nat) (k : Core) : (s.setCore c k).nextLoss = s.nextLoss := rfl
@[simp] theorem State.setCore_nextDup (s : State) (c : Nat) (k : Core) : (s.setCore c k).nextDup = s.nextDup := rfl
@[simp] theorem State.setCore_boot (s : State) (c : Nat) (k : Core) : (s.setCore c k).boot = s.boot := rfl
@[simp] theorem State.setCore_devidx (s : State) (c : Nat) (k : Core) : (s.setCore c k).devidx = s.devidx := rfl
@[simp] theorem State.setCore_sysroot (s : State) (c : Nat) (k : Core) : (s.setCore c k).sysroot = s.sysroot := rfl
@[simp] theorem State.setCore_roots (s : State) (c : Nat) (k : Core) : (s.setCore c k).roots = s.roots := rfl
@[simp] theorem State.setCore_clusterTlb (s : State) (c : Nat) (k : Core) : (s.setCore c k).clusterTlb = s.clusterTlb := rfl
@[simp] theorem State.setCore_ptrCache (s : State) (c : Nat) (k : Core) : (s.setCore c k).ptrCache = s.ptrCache := rfl
@[simp] theorem State.setCore_walkQ (s : State) (c : Nat) (k : Core) : (s.setCore c k).walkQ = s.walkQ := rfl
@[simp] theorem State.setCore_walkMisses (s : State) (c : Nat) (k : Core) : (s.setCore c k).walkMisses = s.walkMisses := rfl
@[simp] theorem State.setCore_reqNet (s : State) (c : Nat) (k : Core) : (s.setCore c k).reqNet = s.reqNet := rfl
@[simp] theorem State.setCore_respNet (s : State) (c : Nat) (k : Core) : (s.setCore c k).respNet = s.respNet := rfl
@[simp] theorem State.setCore_inbound (s : State) (c : Nat) (k : Core) : (s.setCore c k).inbound = s.inbound := rfl
@[simp] theorem State.setCore_bankQ (s : State) (c : Nat) (k : Core) : (s.setCore c k).bankQ = s.bankQ := rfl
@[simp] theorem State.setCore_rowBufs (s : State) (c : Nat) (k : Core) : (s.setCore c k).rowBufs = s.rowBufs := rfl
@[simp] theorem State.setCore_dups (s : State) (c : Nat) (k : Core) : (s.setCore c k).dups = s.dups := rfl
@[simp] theorem State.setCore_tableOps (s : State) (c : Nat) (k : Core) : (s.setCore c k).tableOps = s.tableOps := rfl
@[simp] theorem State.setCore_segments (s : State) (c : Nat) (k : Core) : (s.setCore c k).segments = s.segments := rfl
@[simp] theorem State.setCore_keys (s : State) (c : Nat) (k : Core) : (s.setCore c k).keys = s.keys := rfl
@[simp] theorem State.setCore_tickets (s : State) (c : Nat) (k : Core) : (s.setCore c k).tickets = s.tickets := rfl
@[simp] theorem State.setCore_seqs (s : State) (c : Nat) (k : Core) : (s.setCore c k).seqs = s.seqs := rfl
@[simp] theorem State.setCore_heldPackets (s : State) (c : Nat) (k : Core) : (s.setCore c k).heldPackets = s.heldPackets := rfl
@[simp] theorem State.setCore_steadingQ (s : State) (c : Nat) (k : Core) : (s.setCore c k).steadingQ = s.steadingQ := rfl
@[simp] theorem State.setCore_steadingProd (s : State) (c : Nat) (k : Core) : (s.setCore c k).steadingProd = s.steadingProd := rfl
@[simp] theorem State.setCore_steadingCons (s : State) (c : Nat) (k : Core) : (s.setCore c k).steadingCons = s.steadingCons := rfl
@[simp] theorem State.setCore_trapBase (s : State) (c : Nat) (k : Core) : (s.setCore c k).trapBase = s.trapBase := rfl
@[simp] theorem State.setCore_domain (s : State) (c : Nat) (k : Core) : (s.setCore c k).domain = s.domain := rfl
@[simp] theorem State.setCore_epoch (s : State) (c : Nat) (k : Core) : (s.setCore c k).epoch = s.epoch := rfl
@[simp] theorem State.setCore_barrier (s : State) (c : Nat) (k : Core) : (s.setCore c k).barrier = s.barrier := rfl
@[simp] theorem State.setCore_streams (s : State) (c : Nat) (k : Core) : (s.setCore c k).streams = s.streams := rfl
@[simp] theorem State.setCore_sent (s : State) (c : Nat) (k : Core) : (s.setCore c k).sent = s.sent := rfl
@[simp] theorem State.setCore_refused (s : State) (c : Nat) (k : Core) : (s.setCore c k).refused = s.refused := rfl
@[simp] theorem State.setCore_gathers (s : State) (c : Nat) (k : Core) : (s.setCore c k).gathers = s.gathers := rfl
@[simp] theorem State.setCore_colls (s : State) (c : Nat) (k : Core) : (s.setCore c k).colls = s.colls := rfl
@[simp] theorem State.setCore_collBufs (s : State) (c : Nat) (k : Core) : (s.setCore c k).collBufs = s.collBufs := rfl
@[simp] theorem State.setCore_portTurns (s : State) (c : Nat) (k : Core) : (s.setCore c k).portTurns = s.portTurns := rfl
@[simp] theorem State.setCore_comms (s : State) (c : Nat) (k : Core) : (s.setCore c k).comms = s.comms := rfl
@[simp] theorem State.setCore_schedule (s : State) (c : Nat) (k : Core) : (s.setCore c k).schedule = s.schedule := rfl
@[simp] theorem State.setCore_nextSchedule (s : State) (c : Nat) (k : Core) : (s.setCore c k).nextSchedule = s.nextSchedule := rfl
@[simp] theorem State.setCore_joined (s : State) (c : Nat) (k : Core) : (s.setCore c k).joined = s.joined := rfl
@[simp] theorem State.setCore_bootStep (s : State) (c : Nat) (k : Core) : (s.setCore c k).bootStep = s.bootStep := rfl
@[simp] theorem State.setCore_recovering (s : State) (c : Nat) (k : Core) : (s.setCore c k).recovering = s.recovering := rfl
@[simp] theorem State.setCore_recoveryWin (s : State) (c : Nat) (k : Core) : (s.setCore c k).recoveryWin = s.recoveryWin := rfl
@[simp] theorem State.setCore_firmware (s : State) (c : Nat) (k : Core) : (s.setCore c k).firmware = s.firmware := rfl
@[simp] theorem State.setCore_nextFirmware (s : State) (c : Nat) (k : Core) : (s.setCore c k).nextFirmware = s.nextFirmware := rfl
@[simp] theorem State.setCore_retired (s : State) (c : Nat) (k : Core) : (s.setCore c k).retired = s.retired := rfl
@[simp] theorem State.setCore_margins (s : State) (c : Nat) (k : Core) : (s.setCore c k).margins = s.margins := rfl
@[simp] theorem State.setCore_voltages (s : State) (c : Nat) (k : Core) : (s.setCore c k).voltages = s.voltages := rfl
@[simp] theorem State.setCore_trapUnits (s : State) (c : Nat) (k : Core) : (s.setCore c k).trapUnits = s.trapUnits := rfl
@[simp] theorem State.setCore_snapshots (s : State) (c : Nat) (k : Core) : (s.setCore c k).snapshots = s.snapshots := rfl
@[simp] theorem State.setCore_reply (s : State) (c : Nat) (k : Core) : (s.setCore c k).reply = s.reply := rfl
@[simp] theorem State.setCore_drills (s : State) (c : Nat) (k : Core) : (s.setCore c k).drills = s.drills := rfl
@[simp] theorem State.setCore_drillMem (s : State) (c : Nat) (k : Core) : (s.setCore c k).drillMem = s.drillMem := rfl
@[simp] theorem State.setCore_wardens (s : State) (c : Nat) (k : Core) : (s.setCore c k).wardens = s.wardens := rfl
@[simp] theorem State.setCore_wardenMem (s : State) (c : Nat) (k : Core) : (s.setCore c k).wardenMem = s.wardenMem := rfl

-- State.setBank
@[simp] theorem State.setBank_cur (s : State) (i c : Nat) (h : Hart) : (s.setBank i c h).cur = s.cur := rfl
@[simp] theorem State.setBank_turns (s : State) (i c : Nat) (h : Hart) : (s.setBank i c h).turns = s.turns := rfl
@[simp] theorem State.setBank_auto (s : State) (i c : Nat) (h : Hart) : (s.setBank i c h).auto = s.auto := rfl
@[simp] theorem State.setBank_ticks (s : State) (i c : Nat) (h : Hart) : (s.setBank i c h).ticks = s.ticks := rfl
@[simp] theorem State.setBank_draws (s : State) (i c : Nat) (h : Hart) : (s.setBank i c h).draws = s.draws := rfl
@[simp] theorem State.setBank_time (s : State) (i c : Nat) (h : Hart) : (s.setBank i c h).time = s.time := rfl
@[simp] theorem State.setBank_clock (s : State) (i c : Nat) (h : Hart) : (s.setBank i c h).clock = s.clock := rfl
@[simp] theorem State.setBank_cores (s : State) (i c : Nat) (h : Hart) : (s.setBank i c h).cores = s.cores := rfl
@[simp] theorem State.setBank_units (s : State) (i c : Nat) (h : Hart) : (s.setBank i c h).units = s.units := rfl
@[simp] theorem State.setBank_ringNet (s : State) (i c : Nat) (h : Hart) : (s.setBank i c h).ringNet = s.ringNet := rfl
@[simp] theorem State.setBank_spad (s : State) (i c : Nat) (h : Hart) : (s.setBank i c h).spad = s.spad := rfl
@[simp] theorem State.setBank_mem (s : State) (i c : Nat) (h : Hart) : (s.setBank i c h).mem = s.mem := rfl
@[simp] theorem State.setBank_badLines (s : State) (i c : Nat) (h : Hart) : (s.setBank i c h).badLines = s.badLines := rfl
@[simp] theorem State.setBank_softLines (s : State) (i c : Nat) (h : Hart) : (s.setBank i c h).softLines = s.softLines := rfl
@[simp] theorem State.setBank_macs (s : State) (i c : Nat) (h : Hart) : (s.setBank i c h).macs = s.macs := rfl
@[simp] theorem State.setBank_blockCtrs (s : State) (i c : Nat) (h : Hart) : (s.setBank i c h).blockCtrs = s.blockCtrs := rfl
@[simp] theorem State.setBank_treeCtrs (s : State) (i c : Nat) (h : Hart) : (s.setBank i c h).treeCtrs = s.treeCtrs := rfl
@[simp] theorem State.setBank_badNodes (s : State) (i c : Nat) (h : Hart) : (s.setBank i c h).badNodes = s.badNodes := rfl
@[simp] theorem State.setBank_trkctl (s : State) (i c : Nat) (h : Hart) : (s.setBank i c h).trkctl = s.trkctl := rfl
@[simp] theorem State.setBank_trackers (s : State) (i c : Nat) (h : Hart) : (s.setBank i c h).trackers = s.trackers := rfl
@[simp] theorem State.setBank_epochAt (s : State) (i c : Nat) (h : Hart) : (s.setBank i c h).epochAt = s.epochAt := rfl
@[simp] theorem State.setBank_promoQ (s : State) (i c : Nat) (h : Hart) : (s.setBank i c h).promoQ = s.promoQ := rfl
@[simp] theorem State.setBank_promos (s : State) (i c : Nat) (h : Hart) : (s.setBank i c h).promos = s.promos := rfl
@[simp] theorem State.setBank_heldAt (s : State) (i c : Nat) (h : Hart) : (s.setBank i c h).heldAt = s.heldAt := rfl
@[simp] theorem State.setBank_returnsDue (s : State) (i c : Nat) (h : Hart) : (s.setBank i c h).returnsDue = s.returnsDue := rfl
@[simp] theorem State.setBank_events (s : State) (i c : Nat) (h : Hart) : (s.setBank i c h).events = s.events := rfl
@[simp] theorem State.setBank_meters (s : State) (i c : Nat) (h : Hart) : (s.setBank i c h).meters = s.meters := rfl
@[simp] theorem State.setBank_outbox (s : State) (i c : Nat) (h : Hart) : (s.setBank i c h).outbox = s.outbox := rfl
@[simp] theorem State.setBank_inbox (s : State) (i c : Nat) (h : Hart) : (s.setBank i c h).inbox = s.inbox := rfl
@[simp] theorem State.setBank_posts (s : State) (i c : Nat) (h : Hart) : (s.setBank i c h).posts = s.posts := rfl
@[simp] theorem State.setBank_slots (s : State) (i c : Nat) (h : Hart) : (s.setBank i c h).slots = s.slots := rfl
@[simp] theorem State.setBank_sysentry (s : State) (i c : Nat) (h : Hart) : (s.setBank i c h).sysentry = s.sysentry := rfl
@[simp] theorem State.setBank_sysivec (s : State) (i c : Nat) (h : Hart) : (s.setBank i c h).sysivec = s.sysivec := rfl
@[simp] theorem State.setBank_sysgo (s : State) (i c : Nat) (h : Hart) : (s.setBank i c h).sysgo = s.sysgo := rfl
@[simp] theorem State.setBank_launches (s : State) (i c : Nat) (h : Hart) : (s.setBank i c h).launches = s.launches := rfl
@[simp] theorem State.setBank_headland (s : State) (i c : Nat) (h : Hart) : (s.setBank i c h).headland = s.headland := rfl
@[simp] theorem State.setBank_headAbove (s : State) (i c : Nat) (h : Hart) : (s.setBank i c h).headAbove = s.headAbove := rfl
@[simp] theorem State.setBank_notices (s : State) (i c : Nat) (h : Hart) : (s.setBank i c h).notices = s.notices := rfl
@[simp] theorem State.setBank_normalQ (s : State) (i c : Nat) (h : Hart) : (s.setBank i c h).normalQ = s.normalQ := rfl
@[simp] theorem State.setBank_commQ (s : State) (i c : Nat) (h : Hart) : (s.setBank i c h).commQ = s.commQ := rfl
@[simp] theorem State.setBank_sowing (s : State) (i c : Nat) (h : Hart) : (s.setBank i c h).sowing = s.sowing := rfl
@[simp] theorem State.setBank_hi (s : State) (i c : Nat) (h : Hart) : (s.setBank i c h).hi = s.hi := rfl
@[simp] theorem State.setBank_lo (s : State) (i c : Nat) (h : Hart) : (s.setBank i c h).lo = s.lo := rfl
@[simp] theorem State.setBank_reserve (s : State) (i c : Nat) (h : Hart) : (s.setBank i c h).reserve = s.reserve := rfl
@[simp] theorem State.setBank_reserveAt (s : State) (i c : Nat) (h : Hart) : (s.setBank i c h).reserveAt = s.reserveAt := rfl
@[simp] theorem State.setBank_lost (s : State) (i c : Nat) (h : Hart) : (s.setBank i c h).lost = s.lost := rfl
@[simp] theorem State.setBank_nextLoss (s : State) (i c : Nat) (h : Hart) : (s.setBank i c h).nextLoss = s.nextLoss := rfl
@[simp] theorem State.setBank_nextDup (s : State) (i c : Nat) (h : Hart) : (s.setBank i c h).nextDup = s.nextDup := rfl
@[simp] theorem State.setBank_boot (s : State) (i c : Nat) (h : Hart) : (s.setBank i c h).boot = s.boot := rfl
@[simp] theorem State.setBank_devidx (s : State) (i c : Nat) (h : Hart) : (s.setBank i c h).devidx = s.devidx := rfl
@[simp] theorem State.setBank_sysroot (s : State) (i c : Nat) (h : Hart) : (s.setBank i c h).sysroot = s.sysroot := rfl
@[simp] theorem State.setBank_roots (s : State) (i c : Nat) (h : Hart) : (s.setBank i c h).roots = s.roots := rfl
@[simp] theorem State.setBank_clusterTlb (s : State) (i c : Nat) (h : Hart) : (s.setBank i c h).clusterTlb = s.clusterTlb := rfl
@[simp] theorem State.setBank_ptrCache (s : State) (i c : Nat) (h : Hart) : (s.setBank i c h).ptrCache = s.ptrCache := rfl
@[simp] theorem State.setBank_walkQ (s : State) (i c : Nat) (h : Hart) : (s.setBank i c h).walkQ = s.walkQ := rfl
@[simp] theorem State.setBank_walkMisses (s : State) (i c : Nat) (h : Hart) : (s.setBank i c h).walkMisses = s.walkMisses := rfl
@[simp] theorem State.setBank_reqNet (s : State) (i c : Nat) (h : Hart) : (s.setBank i c h).reqNet = s.reqNet := rfl
@[simp] theorem State.setBank_respNet (s : State) (i c : Nat) (h : Hart) : (s.setBank i c h).respNet = s.respNet := rfl
@[simp] theorem State.setBank_inbound (s : State) (i c : Nat) (h : Hart) : (s.setBank i c h).inbound = s.inbound := rfl
@[simp] theorem State.setBank_bankQ (s : State) (i c : Nat) (h : Hart) : (s.setBank i c h).bankQ = s.bankQ := rfl
@[simp] theorem State.setBank_rowBufs (s : State) (i c : Nat) (h : Hart) : (s.setBank i c h).rowBufs = s.rowBufs := rfl
@[simp] theorem State.setBank_dups (s : State) (i c : Nat) (h : Hart) : (s.setBank i c h).dups = s.dups := rfl
@[simp] theorem State.setBank_tableOps (s : State) (i c : Nat) (h : Hart) : (s.setBank i c h).tableOps = s.tableOps := rfl
@[simp] theorem State.setBank_segments (s : State) (i c : Nat) (h : Hart) : (s.setBank i c h).segments = s.segments := rfl
@[simp] theorem State.setBank_keys (s : State) (i c : Nat) (h : Hart) : (s.setBank i c h).keys = s.keys := rfl
@[simp] theorem State.setBank_tickets (s : State) (i c : Nat) (h : Hart) : (s.setBank i c h).tickets = s.tickets := rfl
@[simp] theorem State.setBank_seqs (s : State) (i c : Nat) (h : Hart) : (s.setBank i c h).seqs = s.seqs := rfl
@[simp] theorem State.setBank_heldPackets (s : State) (i c : Nat) (h : Hart) : (s.setBank i c h).heldPackets = s.heldPackets := rfl
@[simp] theorem State.setBank_steadingQ (s : State) (i c : Nat) (h : Hart) : (s.setBank i c h).steadingQ = s.steadingQ := rfl
@[simp] theorem State.setBank_steadingProd (s : State) (i c : Nat) (h : Hart) : (s.setBank i c h).steadingProd = s.steadingProd := rfl
@[simp] theorem State.setBank_steadingCons (s : State) (i c : Nat) (h : Hart) : (s.setBank i c h).steadingCons = s.steadingCons := rfl
@[simp] theorem State.setBank_trapBase (s : State) (i c : Nat) (h : Hart) : (s.setBank i c h).trapBase = s.trapBase := rfl
@[simp] theorem State.setBank_domain (s : State) (i c : Nat) (h : Hart) : (s.setBank i c h).domain = s.domain := rfl
@[simp] theorem State.setBank_epoch (s : State) (i c : Nat) (h : Hart) : (s.setBank i c h).epoch = s.epoch := rfl
@[simp] theorem State.setBank_barrier (s : State) (i c : Nat) (h : Hart) : (s.setBank i c h).barrier = s.barrier := rfl
@[simp] theorem State.setBank_streams (s : State) (i c : Nat) (h : Hart) : (s.setBank i c h).streams = s.streams := rfl
@[simp] theorem State.setBank_sent (s : State) (i c : Nat) (h : Hart) : (s.setBank i c h).sent = s.sent := rfl
@[simp] theorem State.setBank_refused (s : State) (i c : Nat) (h : Hart) : (s.setBank i c h).refused = s.refused := rfl
@[simp] theorem State.setBank_gathers (s : State) (i c : Nat) (h : Hart) : (s.setBank i c h).gathers = s.gathers := rfl
@[simp] theorem State.setBank_colls (s : State) (i c : Nat) (h : Hart) : (s.setBank i c h).colls = s.colls := rfl
@[simp] theorem State.setBank_collBufs (s : State) (i c : Nat) (h : Hart) : (s.setBank i c h).collBufs = s.collBufs := rfl
@[simp] theorem State.setBank_portTurns (s : State) (i c : Nat) (h : Hart) : (s.setBank i c h).portTurns = s.portTurns := rfl
@[simp] theorem State.setBank_comms (s : State) (i c : Nat) (h : Hart) : (s.setBank i c h).comms = s.comms := rfl
@[simp] theorem State.setBank_schedule (s : State) (i c : Nat) (h : Hart) : (s.setBank i c h).schedule = s.schedule := rfl
@[simp] theorem State.setBank_nextSchedule (s : State) (i c : Nat) (h : Hart) : (s.setBank i c h).nextSchedule = s.nextSchedule := rfl
@[simp] theorem State.setBank_joined (s : State) (i c : Nat) (h : Hart) : (s.setBank i c h).joined = s.joined := rfl
@[simp] theorem State.setBank_bootStep (s : State) (i c : Nat) (h : Hart) : (s.setBank i c h).bootStep = s.bootStep := rfl
@[simp] theorem State.setBank_recovering (s : State) (i c : Nat) (h : Hart) : (s.setBank i c h).recovering = s.recovering := rfl
@[simp] theorem State.setBank_recoveryWin (s : State) (i c : Nat) (h : Hart) : (s.setBank i c h).recoveryWin = s.recoveryWin := rfl
@[simp] theorem State.setBank_firmware (s : State) (i c : Nat) (h : Hart) : (s.setBank i c h).firmware = s.firmware := rfl
@[simp] theorem State.setBank_nextFirmware (s : State) (i c : Nat) (h : Hart) : (s.setBank i c h).nextFirmware = s.nextFirmware := rfl
@[simp] theorem State.setBank_retired (s : State) (i c : Nat) (h : Hart) : (s.setBank i c h).retired = s.retired := rfl
@[simp] theorem State.setBank_margins (s : State) (i c : Nat) (h : Hart) : (s.setBank i c h).margins = s.margins := rfl
@[simp] theorem State.setBank_voltages (s : State) (i c : Nat) (h : Hart) : (s.setBank i c h).voltages = s.voltages := rfl
@[simp] theorem State.setBank_trapUnits (s : State) (i c : Nat) (h : Hart) : (s.setBank i c h).trapUnits = s.trapUnits := rfl
@[simp] theorem State.setBank_snapshots (s : State) (i c : Nat) (h : Hart) : (s.setBank i c h).snapshots = s.snapshots := rfl
@[simp] theorem State.setBank_reply (s : State) (i c : Nat) (h : Hart) : (s.setBank i c h).reply = s.reply := rfl
@[simp] theorem State.setBank_drills (s : State) (i c : Nat) (h : Hart) : (s.setBank i c h).drills = s.drills := rfl
@[simp] theorem State.setBank_drillMem (s : State) (i c : Nat) (h : Hart) : (s.setBank i c h).drillMem = s.drillMem := rfl
@[simp] theorem State.setBank_wardens (s : State) (i c : Nat) (h : Hart) : (s.setBank i c h).wardens = s.wardens := rfl
@[simp] theorem State.setBank_wardenMem (s : State) (i c : Nat) (h : Hart) : (s.setBank i c h).wardenMem = s.wardenMem := rfl

-- State.setHart
@[simp] theorem State.setHart_cur (s : State) (i : Nat) (h : Hart) : (s.setHart i h).cur = s.cur := rfl
@[simp] theorem State.setHart_turns (s : State) (i : Nat) (h : Hart) : (s.setHart i h).turns = s.turns := rfl
@[simp] theorem State.setHart_auto (s : State) (i : Nat) (h : Hart) : (s.setHart i h).auto = s.auto := rfl
@[simp] theorem State.setHart_ticks (s : State) (i : Nat) (h : Hart) : (s.setHart i h).ticks = s.ticks := rfl
@[simp] theorem State.setHart_draws (s : State) (i : Nat) (h : Hart) : (s.setHart i h).draws = s.draws := rfl
@[simp] theorem State.setHart_time (s : State) (i : Nat) (h : Hart) : (s.setHart i h).time = s.time := rfl
@[simp] theorem State.setHart_clock (s : State) (i : Nat) (h : Hart) : (s.setHart i h).clock = s.clock := rfl
@[simp] theorem State.setHart_cores (s : State) (i : Nat) (h : Hart) : (s.setHart i h).cores = s.cores := rfl
@[simp] theorem State.setHart_units (s : State) (i : Nat) (h : Hart) : (s.setHart i h).units = s.units := rfl
@[simp] theorem State.setHart_ringNet (s : State) (i : Nat) (h : Hart) : (s.setHart i h).ringNet = s.ringNet := rfl
@[simp] theorem State.setHart_spad (s : State) (i : Nat) (h : Hart) : (s.setHart i h).spad = s.spad := rfl
@[simp] theorem State.setHart_mem (s : State) (i : Nat) (h : Hart) : (s.setHart i h).mem = s.mem := rfl
@[simp] theorem State.setHart_badLines (s : State) (i : Nat) (h : Hart) : (s.setHart i h).badLines = s.badLines := rfl
@[simp] theorem State.setHart_softLines (s : State) (i : Nat) (h : Hart) : (s.setHart i h).softLines = s.softLines := rfl
@[simp] theorem State.setHart_macs (s : State) (i : Nat) (h : Hart) : (s.setHart i h).macs = s.macs := rfl
@[simp] theorem State.setHart_blockCtrs (s : State) (i : Nat) (h : Hart) : (s.setHart i h).blockCtrs = s.blockCtrs := rfl
@[simp] theorem State.setHart_treeCtrs (s : State) (i : Nat) (h : Hart) : (s.setHart i h).treeCtrs = s.treeCtrs := rfl
@[simp] theorem State.setHart_badNodes (s : State) (i : Nat) (h : Hart) : (s.setHart i h).badNodes = s.badNodes := rfl
@[simp] theorem State.setHart_trkctl (s : State) (i : Nat) (h : Hart) : (s.setHart i h).trkctl = s.trkctl := rfl
@[simp] theorem State.setHart_trackers (s : State) (i : Nat) (h : Hart) : (s.setHart i h).trackers = s.trackers := rfl
@[simp] theorem State.setHart_epochAt (s : State) (i : Nat) (h : Hart) : (s.setHart i h).epochAt = s.epochAt := rfl
@[simp] theorem State.setHart_promoQ (s : State) (i : Nat) (h : Hart) : (s.setHart i h).promoQ = s.promoQ := rfl
@[simp] theorem State.setHart_promos (s : State) (i : Nat) (h : Hart) : (s.setHart i h).promos = s.promos := rfl
@[simp] theorem State.setHart_heldAt (s : State) (i : Nat) (h : Hart) : (s.setHart i h).heldAt = s.heldAt := rfl
@[simp] theorem State.setHart_returnsDue (s : State) (i : Nat) (h : Hart) : (s.setHart i h).returnsDue = s.returnsDue := rfl
@[simp] theorem State.setHart_events (s : State) (i : Nat) (h : Hart) : (s.setHart i h).events = s.events := rfl
@[simp] theorem State.setHart_meters (s : State) (i : Nat) (h : Hart) : (s.setHart i h).meters = s.meters := rfl
@[simp] theorem State.setHart_outbox (s : State) (i : Nat) (h : Hart) : (s.setHart i h).outbox = s.outbox := rfl
@[simp] theorem State.setHart_inbox (s : State) (i : Nat) (h : Hart) : (s.setHart i h).inbox = s.inbox := rfl
@[simp] theorem State.setHart_posts (s : State) (i : Nat) (h : Hart) : (s.setHart i h).posts = s.posts := rfl
@[simp] theorem State.setHart_slots (s : State) (i : Nat) (h : Hart) : (s.setHart i h).slots = s.slots := rfl
@[simp] theorem State.setHart_sysentry (s : State) (i : Nat) (h : Hart) : (s.setHart i h).sysentry = s.sysentry := rfl
@[simp] theorem State.setHart_sysivec (s : State) (i : Nat) (h : Hart) : (s.setHart i h).sysivec = s.sysivec := rfl
@[simp] theorem State.setHart_sysgo (s : State) (i : Nat) (h : Hart) : (s.setHart i h).sysgo = s.sysgo := rfl
@[simp] theorem State.setHart_launches (s : State) (i : Nat) (h : Hart) : (s.setHart i h).launches = s.launches := rfl
@[simp] theorem State.setHart_headland (s : State) (i : Nat) (h : Hart) : (s.setHart i h).headland = s.headland := rfl
@[simp] theorem State.setHart_headAbove (s : State) (i : Nat) (h : Hart) : (s.setHart i h).headAbove = s.headAbove := rfl
@[simp] theorem State.setHart_notices (s : State) (i : Nat) (h : Hart) : (s.setHart i h).notices = s.notices := rfl
@[simp] theorem State.setHart_normalQ (s : State) (i : Nat) (h : Hart) : (s.setHart i h).normalQ = s.normalQ := rfl
@[simp] theorem State.setHart_commQ (s : State) (i : Nat) (h : Hart) : (s.setHart i h).commQ = s.commQ := rfl
@[simp] theorem State.setHart_sowing (s : State) (i : Nat) (h : Hart) : (s.setHart i h).sowing = s.sowing := rfl
@[simp] theorem State.setHart_hi (s : State) (i : Nat) (h : Hart) : (s.setHart i h).hi = s.hi := rfl
@[simp] theorem State.setHart_lo (s : State) (i : Nat) (h : Hart) : (s.setHart i h).lo = s.lo := rfl
@[simp] theorem State.setHart_reserve (s : State) (i : Nat) (h : Hart) : (s.setHart i h).reserve = s.reserve := rfl
@[simp] theorem State.setHart_reserveAt (s : State) (i : Nat) (h : Hart) : (s.setHart i h).reserveAt = s.reserveAt := rfl
@[simp] theorem State.setHart_lost (s : State) (i : Nat) (h : Hart) : (s.setHart i h).lost = s.lost := rfl
@[simp] theorem State.setHart_nextLoss (s : State) (i : Nat) (h : Hart) : (s.setHart i h).nextLoss = s.nextLoss := rfl
@[simp] theorem State.setHart_nextDup (s : State) (i : Nat) (h : Hart) : (s.setHart i h).nextDup = s.nextDup := rfl
@[simp] theorem State.setHart_boot (s : State) (i : Nat) (h : Hart) : (s.setHart i h).boot = s.boot := rfl
@[simp] theorem State.setHart_devidx (s : State) (i : Nat) (h : Hart) : (s.setHart i h).devidx = s.devidx := rfl
@[simp] theorem State.setHart_sysroot (s : State) (i : Nat) (h : Hart) : (s.setHart i h).sysroot = s.sysroot := rfl
@[simp] theorem State.setHart_roots (s : State) (i : Nat) (h : Hart) : (s.setHart i h).roots = s.roots := rfl
@[simp] theorem State.setHart_clusterTlb (s : State) (i : Nat) (h : Hart) : (s.setHart i h).clusterTlb = s.clusterTlb := rfl
@[simp] theorem State.setHart_ptrCache (s : State) (i : Nat) (h : Hart) : (s.setHart i h).ptrCache = s.ptrCache := rfl
@[simp] theorem State.setHart_walkQ (s : State) (i : Nat) (h : Hart) : (s.setHart i h).walkQ = s.walkQ := rfl
@[simp] theorem State.setHart_walkMisses (s : State) (i : Nat) (h : Hart) : (s.setHart i h).walkMisses = s.walkMisses := rfl
@[simp] theorem State.setHart_reqNet (s : State) (i : Nat) (h : Hart) : (s.setHart i h).reqNet = s.reqNet := rfl
@[simp] theorem State.setHart_respNet (s : State) (i : Nat) (h : Hart) : (s.setHart i h).respNet = s.respNet := rfl
@[simp] theorem State.setHart_inbound (s : State) (i : Nat) (h : Hart) : (s.setHart i h).inbound = s.inbound := rfl
@[simp] theorem State.setHart_bankQ (s : State) (i : Nat) (h : Hart) : (s.setHart i h).bankQ = s.bankQ := rfl
@[simp] theorem State.setHart_rowBufs (s : State) (i : Nat) (h : Hart) : (s.setHart i h).rowBufs = s.rowBufs := rfl
@[simp] theorem State.setHart_dups (s : State) (i : Nat) (h : Hart) : (s.setHart i h).dups = s.dups := rfl
@[simp] theorem State.setHart_tableOps (s : State) (i : Nat) (h : Hart) : (s.setHart i h).tableOps = s.tableOps := rfl
@[simp] theorem State.setHart_segments (s : State) (i : Nat) (h : Hart) : (s.setHart i h).segments = s.segments := rfl
@[simp] theorem State.setHart_keys (s : State) (i : Nat) (h : Hart) : (s.setHart i h).keys = s.keys := rfl
@[simp] theorem State.setHart_tickets (s : State) (i : Nat) (h : Hart) : (s.setHart i h).tickets = s.tickets := rfl
@[simp] theorem State.setHart_seqs (s : State) (i : Nat) (h : Hart) : (s.setHart i h).seqs = s.seqs := rfl
@[simp] theorem State.setHart_heldPackets (s : State) (i : Nat) (h : Hart) : (s.setHart i h).heldPackets = s.heldPackets := rfl
@[simp] theorem State.setHart_steadingQ (s : State) (i : Nat) (h : Hart) : (s.setHart i h).steadingQ = s.steadingQ := rfl
@[simp] theorem State.setHart_steadingProd (s : State) (i : Nat) (h : Hart) : (s.setHart i h).steadingProd = s.steadingProd := rfl
@[simp] theorem State.setHart_steadingCons (s : State) (i : Nat) (h : Hart) : (s.setHart i h).steadingCons = s.steadingCons := rfl
@[simp] theorem State.setHart_trapBase (s : State) (i : Nat) (h : Hart) : (s.setHart i h).trapBase = s.trapBase := rfl
@[simp] theorem State.setHart_domain (s : State) (i : Nat) (h : Hart) : (s.setHart i h).domain = s.domain := rfl
@[simp] theorem State.setHart_epoch (s : State) (i : Nat) (h : Hart) : (s.setHart i h).epoch = s.epoch := rfl
@[simp] theorem State.setHart_barrier (s : State) (i : Nat) (h : Hart) : (s.setHart i h).barrier = s.barrier := rfl
@[simp] theorem State.setHart_streams (s : State) (i : Nat) (h : Hart) : (s.setHart i h).streams = s.streams := rfl
@[simp] theorem State.setHart_sent (s : State) (i : Nat) (h : Hart) : (s.setHart i h).sent = s.sent := rfl
@[simp] theorem State.setHart_refused (s : State) (i : Nat) (h : Hart) : (s.setHart i h).refused = s.refused := rfl
@[simp] theorem State.setHart_gathers (s : State) (i : Nat) (h : Hart) : (s.setHart i h).gathers = s.gathers := rfl
@[simp] theorem State.setHart_colls (s : State) (i : Nat) (h : Hart) : (s.setHart i h).colls = s.colls := rfl
@[simp] theorem State.setHart_collBufs (s : State) (i : Nat) (h : Hart) : (s.setHart i h).collBufs = s.collBufs := rfl
@[simp] theorem State.setHart_portTurns (s : State) (i : Nat) (h : Hart) : (s.setHart i h).portTurns = s.portTurns := rfl
@[simp] theorem State.setHart_comms (s : State) (i : Nat) (h : Hart) : (s.setHart i h).comms = s.comms := rfl
@[simp] theorem State.setHart_schedule (s : State) (i : Nat) (h : Hart) : (s.setHart i h).schedule = s.schedule := rfl
@[simp] theorem State.setHart_nextSchedule (s : State) (i : Nat) (h : Hart) : (s.setHart i h).nextSchedule = s.nextSchedule := rfl
@[simp] theorem State.setHart_joined (s : State) (i : Nat) (h : Hart) : (s.setHart i h).joined = s.joined := rfl
@[simp] theorem State.setHart_bootStep (s : State) (i : Nat) (h : Hart) : (s.setHart i h).bootStep = s.bootStep := rfl
@[simp] theorem State.setHart_recovering (s : State) (i : Nat) (h : Hart) : (s.setHart i h).recovering = s.recovering := rfl
@[simp] theorem State.setHart_recoveryWin (s : State) (i : Nat) (h : Hart) : (s.setHart i h).recoveryWin = s.recoveryWin := rfl
@[simp] theorem State.setHart_firmware (s : State) (i : Nat) (h : Hart) : (s.setHart i h).firmware = s.firmware := rfl
@[simp] theorem State.setHart_nextFirmware (s : State) (i : Nat) (h : Hart) : (s.setHart i h).nextFirmware = s.nextFirmware := rfl
@[simp] theorem State.setHart_retired (s : State) (i : Nat) (h : Hart) : (s.setHart i h).retired = s.retired := rfl
@[simp] theorem State.setHart_margins (s : State) (i : Nat) (h : Hart) : (s.setHart i h).margins = s.margins := rfl
@[simp] theorem State.setHart_voltages (s : State) (i : Nat) (h : Hart) : (s.setHart i h).voltages = s.voltages := rfl
@[simp] theorem State.setHart_trapUnits (s : State) (i : Nat) (h : Hart) : (s.setHart i h).trapUnits = s.trapUnits := rfl
@[simp] theorem State.setHart_snapshots (s : State) (i : Nat) (h : Hart) : (s.setHart i h).snapshots = s.snapshots := rfl
@[simp] theorem State.setHart_reply (s : State) (i : Nat) (h : Hart) : (s.setHart i h).reply = s.reply := rfl
@[simp] theorem State.setHart_drills (s : State) (i : Nat) (h : Hart) : (s.setHart i h).drills = s.drills := rfl
@[simp] theorem State.setHart_drillMem (s : State) (i : Nat) (h : Hart) : (s.setHart i h).drillMem = s.drillMem := rfl
@[simp] theorem State.setHart_wardens (s : State) (i : Nat) (h : Hart) : (s.setHart i h).wardens = s.wardens := rfl
@[simp] theorem State.setHart_wardenMem (s : State) (i : Nat) (h : Hart) : (s.setHart i h).wardenMem = s.wardenMem := rfl

-- State.setMe
@[simp] theorem State.setMe_cur (s : State) (h : Hart) : (s.setMe h).cur = s.cur := rfl
@[simp] theorem State.setMe_turns (s : State) (h : Hart) : (s.setMe h).turns = s.turns := rfl
@[simp] theorem State.setMe_auto (s : State) (h : Hart) : (s.setMe h).auto = s.auto := rfl
@[simp] theorem State.setMe_ticks (s : State) (h : Hart) : (s.setMe h).ticks = s.ticks := rfl
@[simp] theorem State.setMe_draws (s : State) (h : Hart) : (s.setMe h).draws = s.draws := rfl
@[simp] theorem State.setMe_time (s : State) (h : Hart) : (s.setMe h).time = s.time := rfl
@[simp] theorem State.setMe_clock (s : State) (h : Hart) : (s.setMe h).clock = s.clock := rfl
@[simp] theorem State.setMe_cores (s : State) (h : Hart) : (s.setMe h).cores = s.cores := rfl
@[simp] theorem State.setMe_units (s : State) (h : Hart) : (s.setMe h).units = s.units := rfl
@[simp] theorem State.setMe_ringNet (s : State) (h : Hart) : (s.setMe h).ringNet = s.ringNet := rfl
@[simp] theorem State.setMe_spad (s : State) (h : Hart) : (s.setMe h).spad = s.spad := rfl
@[simp] theorem State.setMe_mem (s : State) (h : Hart) : (s.setMe h).mem = s.mem := rfl
@[simp] theorem State.setMe_badLines (s : State) (h : Hart) : (s.setMe h).badLines = s.badLines := rfl
@[simp] theorem State.setMe_softLines (s : State) (h : Hart) : (s.setMe h).softLines = s.softLines := rfl
@[simp] theorem State.setMe_macs (s : State) (h : Hart) : (s.setMe h).macs = s.macs := rfl
@[simp] theorem State.setMe_blockCtrs (s : State) (h : Hart) : (s.setMe h).blockCtrs = s.blockCtrs := rfl
@[simp] theorem State.setMe_treeCtrs (s : State) (h : Hart) : (s.setMe h).treeCtrs = s.treeCtrs := rfl
@[simp] theorem State.setMe_badNodes (s : State) (h : Hart) : (s.setMe h).badNodes = s.badNodes := rfl
@[simp] theorem State.setMe_trkctl (s : State) (h : Hart) : (s.setMe h).trkctl = s.trkctl := rfl
@[simp] theorem State.setMe_trackers (s : State) (h : Hart) : (s.setMe h).trackers = s.trackers := rfl
@[simp] theorem State.setMe_epochAt (s : State) (h : Hart) : (s.setMe h).epochAt = s.epochAt := rfl
@[simp] theorem State.setMe_promoQ (s : State) (h : Hart) : (s.setMe h).promoQ = s.promoQ := rfl
@[simp] theorem State.setMe_promos (s : State) (h : Hart) : (s.setMe h).promos = s.promos := rfl
@[simp] theorem State.setMe_heldAt (s : State) (h : Hart) : (s.setMe h).heldAt = s.heldAt := rfl
@[simp] theorem State.setMe_returnsDue (s : State) (h : Hart) : (s.setMe h).returnsDue = s.returnsDue := rfl
@[simp] theorem State.setMe_events (s : State) (h : Hart) : (s.setMe h).events = s.events := rfl
@[simp] theorem State.setMe_meters (s : State) (h : Hart) : (s.setMe h).meters = s.meters := rfl
@[simp] theorem State.setMe_outbox (s : State) (h : Hart) : (s.setMe h).outbox = s.outbox := rfl
@[simp] theorem State.setMe_inbox (s : State) (h : Hart) : (s.setMe h).inbox = s.inbox := rfl
@[simp] theorem State.setMe_posts (s : State) (h : Hart) : (s.setMe h).posts = s.posts := rfl
@[simp] theorem State.setMe_slots (s : State) (h : Hart) : (s.setMe h).slots = s.slots := rfl
@[simp] theorem State.setMe_sysentry (s : State) (h : Hart) : (s.setMe h).sysentry = s.sysentry := rfl
@[simp] theorem State.setMe_sysivec (s : State) (h : Hart) : (s.setMe h).sysivec = s.sysivec := rfl
@[simp] theorem State.setMe_sysgo (s : State) (h : Hart) : (s.setMe h).sysgo = s.sysgo := rfl
@[simp] theorem State.setMe_launches (s : State) (h : Hart) : (s.setMe h).launches = s.launches := rfl
@[simp] theorem State.setMe_headland (s : State) (h : Hart) : (s.setMe h).headland = s.headland := rfl
@[simp] theorem State.setMe_headAbove (s : State) (h : Hart) : (s.setMe h).headAbove = s.headAbove := rfl
@[simp] theorem State.setMe_notices (s : State) (h : Hart) : (s.setMe h).notices = s.notices := rfl
@[simp] theorem State.setMe_normalQ (s : State) (h : Hart) : (s.setMe h).normalQ = s.normalQ := rfl
@[simp] theorem State.setMe_commQ (s : State) (h : Hart) : (s.setMe h).commQ = s.commQ := rfl
@[simp] theorem State.setMe_sowing (s : State) (h : Hart) : (s.setMe h).sowing = s.sowing := rfl
@[simp] theorem State.setMe_hi (s : State) (h : Hart) : (s.setMe h).hi = s.hi := rfl
@[simp] theorem State.setMe_lo (s : State) (h : Hart) : (s.setMe h).lo = s.lo := rfl
@[simp] theorem State.setMe_reserve (s : State) (h : Hart) : (s.setMe h).reserve = s.reserve := rfl
@[simp] theorem State.setMe_reserveAt (s : State) (h : Hart) : (s.setMe h).reserveAt = s.reserveAt := rfl
@[simp] theorem State.setMe_lost (s : State) (h : Hart) : (s.setMe h).lost = s.lost := rfl
@[simp] theorem State.setMe_nextLoss (s : State) (h : Hart) : (s.setMe h).nextLoss = s.nextLoss := rfl
@[simp] theorem State.setMe_nextDup (s : State) (h : Hart) : (s.setMe h).nextDup = s.nextDup := rfl
@[simp] theorem State.setMe_boot (s : State) (h : Hart) : (s.setMe h).boot = s.boot := rfl
@[simp] theorem State.setMe_devidx (s : State) (h : Hart) : (s.setMe h).devidx = s.devidx := rfl
@[simp] theorem State.setMe_sysroot (s : State) (h : Hart) : (s.setMe h).sysroot = s.sysroot := rfl
@[simp] theorem State.setMe_roots (s : State) (h : Hart) : (s.setMe h).roots = s.roots := rfl
@[simp] theorem State.setMe_clusterTlb (s : State) (h : Hart) : (s.setMe h).clusterTlb = s.clusterTlb := rfl
@[simp] theorem State.setMe_ptrCache (s : State) (h : Hart) : (s.setMe h).ptrCache = s.ptrCache := rfl
@[simp] theorem State.setMe_walkQ (s : State) (h : Hart) : (s.setMe h).walkQ = s.walkQ := rfl
@[simp] theorem State.setMe_walkMisses (s : State) (h : Hart) : (s.setMe h).walkMisses = s.walkMisses := rfl
@[simp] theorem State.setMe_reqNet (s : State) (h : Hart) : (s.setMe h).reqNet = s.reqNet := rfl
@[simp] theorem State.setMe_respNet (s : State) (h : Hart) : (s.setMe h).respNet = s.respNet := rfl
@[simp] theorem State.setMe_inbound (s : State) (h : Hart) : (s.setMe h).inbound = s.inbound := rfl
@[simp] theorem State.setMe_bankQ (s : State) (h : Hart) : (s.setMe h).bankQ = s.bankQ := rfl
@[simp] theorem State.setMe_rowBufs (s : State) (h : Hart) : (s.setMe h).rowBufs = s.rowBufs := rfl
@[simp] theorem State.setMe_dups (s : State) (h : Hart) : (s.setMe h).dups = s.dups := rfl
@[simp] theorem State.setMe_tableOps (s : State) (h : Hart) : (s.setMe h).tableOps = s.tableOps := rfl
@[simp] theorem State.setMe_segments (s : State) (h : Hart) : (s.setMe h).segments = s.segments := rfl
@[simp] theorem State.setMe_keys (s : State) (h : Hart) : (s.setMe h).keys = s.keys := rfl
@[simp] theorem State.setMe_tickets (s : State) (h : Hart) : (s.setMe h).tickets = s.tickets := rfl
@[simp] theorem State.setMe_seqs (s : State) (h : Hart) : (s.setMe h).seqs = s.seqs := rfl
@[simp] theorem State.setMe_heldPackets (s : State) (h : Hart) : (s.setMe h).heldPackets = s.heldPackets := rfl
@[simp] theorem State.setMe_steadingQ (s : State) (h : Hart) : (s.setMe h).steadingQ = s.steadingQ := rfl
@[simp] theorem State.setMe_steadingProd (s : State) (h : Hart) : (s.setMe h).steadingProd = s.steadingProd := rfl
@[simp] theorem State.setMe_steadingCons (s : State) (h : Hart) : (s.setMe h).steadingCons = s.steadingCons := rfl
@[simp] theorem State.setMe_trapBase (s : State) (h : Hart) : (s.setMe h).trapBase = s.trapBase := rfl
@[simp] theorem State.setMe_domain (s : State) (h : Hart) : (s.setMe h).domain = s.domain := rfl
@[simp] theorem State.setMe_epoch (s : State) (h : Hart) : (s.setMe h).epoch = s.epoch := rfl
@[simp] theorem State.setMe_barrier (s : State) (h : Hart) : (s.setMe h).barrier = s.barrier := rfl
@[simp] theorem State.setMe_streams (s : State) (h : Hart) : (s.setMe h).streams = s.streams := rfl
@[simp] theorem State.setMe_sent (s : State) (h : Hart) : (s.setMe h).sent = s.sent := rfl
@[simp] theorem State.setMe_refused (s : State) (h : Hart) : (s.setMe h).refused = s.refused := rfl
@[simp] theorem State.setMe_gathers (s : State) (h : Hart) : (s.setMe h).gathers = s.gathers := rfl
@[simp] theorem State.setMe_colls (s : State) (h : Hart) : (s.setMe h).colls = s.colls := rfl
@[simp] theorem State.setMe_collBufs (s : State) (h : Hart) : (s.setMe h).collBufs = s.collBufs := rfl
@[simp] theorem State.setMe_portTurns (s : State) (h : Hart) : (s.setMe h).portTurns = s.portTurns := rfl
@[simp] theorem State.setMe_comms (s : State) (h : Hart) : (s.setMe h).comms = s.comms := rfl
@[simp] theorem State.setMe_schedule (s : State) (h : Hart) : (s.setMe h).schedule = s.schedule := rfl
@[simp] theorem State.setMe_nextSchedule (s : State) (h : Hart) : (s.setMe h).nextSchedule = s.nextSchedule := rfl
@[simp] theorem State.setMe_joined (s : State) (h : Hart) : (s.setMe h).joined = s.joined := rfl
@[simp] theorem State.setMe_bootStep (s : State) (h : Hart) : (s.setMe h).bootStep = s.bootStep := rfl
@[simp] theorem State.setMe_recovering (s : State) (h : Hart) : (s.setMe h).recovering = s.recovering := rfl
@[simp] theorem State.setMe_recoveryWin (s : State) (h : Hart) : (s.setMe h).recoveryWin = s.recoveryWin := rfl
@[simp] theorem State.setMe_firmware (s : State) (h : Hart) : (s.setMe h).firmware = s.firmware := rfl
@[simp] theorem State.setMe_nextFirmware (s : State) (h : Hart) : (s.setMe h).nextFirmware = s.nextFirmware := rfl
@[simp] theorem State.setMe_retired (s : State) (h : Hart) : (s.setMe h).retired = s.retired := rfl
@[simp] theorem State.setMe_margins (s : State) (h : Hart) : (s.setMe h).margins = s.margins := rfl
@[simp] theorem State.setMe_voltages (s : State) (h : Hart) : (s.setMe h).voltages = s.voltages := rfl
@[simp] theorem State.setMe_trapUnits (s : State) (h : Hart) : (s.setMe h).trapUnits = s.trapUnits := rfl
@[simp] theorem State.setMe_snapshots (s : State) (h : Hart) : (s.setMe h).snapshots = s.snapshots := rfl
@[simp] theorem State.setMe_reply (s : State) (h : Hart) : (s.setMe h).reply = s.reply := rfl
@[simp] theorem State.setMe_drills (s : State) (h : Hart) : (s.setMe h).drills = s.drills := rfl
@[simp] theorem State.setMe_drillMem (s : State) (h : Hart) : (s.setMe h).drillMem = s.drillMem := rfl
@[simp] theorem State.setMe_wardens (s : State) (h : Hart) : (s.setMe h).wardens = s.wardens := rfl
@[simp] theorem State.setMe_wardenMem (s : State) (h : Hart) : (s.setMe h).wardenMem = s.wardenMem := rfl

-- State.modMe
@[simp] theorem State.modMe_cur (s : State) (g : Hart → Hart) : (s.modMe g).cur = s.cur := rfl
@[simp] theorem State.modMe_turns (s : State) (g : Hart → Hart) : (s.modMe g).turns = s.turns := rfl
@[simp] theorem State.modMe_auto (s : State) (g : Hart → Hart) : (s.modMe g).auto = s.auto := rfl
@[simp] theorem State.modMe_ticks (s : State) (g : Hart → Hart) : (s.modMe g).ticks = s.ticks := rfl
@[simp] theorem State.modMe_draws (s : State) (g : Hart → Hart) : (s.modMe g).draws = s.draws := rfl
@[simp] theorem State.modMe_time (s : State) (g : Hart → Hart) : (s.modMe g).time = s.time := rfl
@[simp] theorem State.modMe_clock (s : State) (g : Hart → Hart) : (s.modMe g).clock = s.clock := rfl
@[simp] theorem State.modMe_cores (s : State) (g : Hart → Hart) : (s.modMe g).cores = s.cores := rfl
@[simp] theorem State.modMe_units (s : State) (g : Hart → Hart) : (s.modMe g).units = s.units := rfl
@[simp] theorem State.modMe_ringNet (s : State) (g : Hart → Hart) : (s.modMe g).ringNet = s.ringNet := rfl
@[simp] theorem State.modMe_spad (s : State) (g : Hart → Hart) : (s.modMe g).spad = s.spad := rfl
@[simp] theorem State.modMe_mem (s : State) (g : Hart → Hart) : (s.modMe g).mem = s.mem := rfl
@[simp] theorem State.modMe_badLines (s : State) (g : Hart → Hart) : (s.modMe g).badLines = s.badLines := rfl
@[simp] theorem State.modMe_softLines (s : State) (g : Hart → Hart) : (s.modMe g).softLines = s.softLines := rfl
@[simp] theorem State.modMe_macs (s : State) (g : Hart → Hart) : (s.modMe g).macs = s.macs := rfl
@[simp] theorem State.modMe_blockCtrs (s : State) (g : Hart → Hart) : (s.modMe g).blockCtrs = s.blockCtrs := rfl
@[simp] theorem State.modMe_treeCtrs (s : State) (g : Hart → Hart) : (s.modMe g).treeCtrs = s.treeCtrs := rfl
@[simp] theorem State.modMe_badNodes (s : State) (g : Hart → Hart) : (s.modMe g).badNodes = s.badNodes := rfl
@[simp] theorem State.modMe_trkctl (s : State) (g : Hart → Hart) : (s.modMe g).trkctl = s.trkctl := rfl
@[simp] theorem State.modMe_trackers (s : State) (g : Hart → Hart) : (s.modMe g).trackers = s.trackers := rfl
@[simp] theorem State.modMe_epochAt (s : State) (g : Hart → Hart) : (s.modMe g).epochAt = s.epochAt := rfl
@[simp] theorem State.modMe_promoQ (s : State) (g : Hart → Hart) : (s.modMe g).promoQ = s.promoQ := rfl
@[simp] theorem State.modMe_promos (s : State) (g : Hart → Hart) : (s.modMe g).promos = s.promos := rfl
@[simp] theorem State.modMe_heldAt (s : State) (g : Hart → Hart) : (s.modMe g).heldAt = s.heldAt := rfl
@[simp] theorem State.modMe_returnsDue (s : State) (g : Hart → Hart) : (s.modMe g).returnsDue = s.returnsDue := rfl
@[simp] theorem State.modMe_events (s : State) (g : Hart → Hart) : (s.modMe g).events = s.events := rfl
@[simp] theorem State.modMe_meters (s : State) (g : Hart → Hart) : (s.modMe g).meters = s.meters := rfl
@[simp] theorem State.modMe_outbox (s : State) (g : Hart → Hart) : (s.modMe g).outbox = s.outbox := rfl
@[simp] theorem State.modMe_inbox (s : State) (g : Hart → Hart) : (s.modMe g).inbox = s.inbox := rfl
@[simp] theorem State.modMe_posts (s : State) (g : Hart → Hart) : (s.modMe g).posts = s.posts := rfl
@[simp] theorem State.modMe_slots (s : State) (g : Hart → Hart) : (s.modMe g).slots = s.slots := rfl
@[simp] theorem State.modMe_sysentry (s : State) (g : Hart → Hart) : (s.modMe g).sysentry = s.sysentry := rfl
@[simp] theorem State.modMe_sysivec (s : State) (g : Hart → Hart) : (s.modMe g).sysivec = s.sysivec := rfl
@[simp] theorem State.modMe_sysgo (s : State) (g : Hart → Hart) : (s.modMe g).sysgo = s.sysgo := rfl
@[simp] theorem State.modMe_launches (s : State) (g : Hart → Hart) : (s.modMe g).launches = s.launches := rfl
@[simp] theorem State.modMe_headland (s : State) (g : Hart → Hart) : (s.modMe g).headland = s.headland := rfl
@[simp] theorem State.modMe_headAbove (s : State) (g : Hart → Hart) : (s.modMe g).headAbove = s.headAbove := rfl
@[simp] theorem State.modMe_notices (s : State) (g : Hart → Hart) : (s.modMe g).notices = s.notices := rfl
@[simp] theorem State.modMe_normalQ (s : State) (g : Hart → Hart) : (s.modMe g).normalQ = s.normalQ := rfl
@[simp] theorem State.modMe_commQ (s : State) (g : Hart → Hart) : (s.modMe g).commQ = s.commQ := rfl
@[simp] theorem State.modMe_sowing (s : State) (g : Hart → Hart) : (s.modMe g).sowing = s.sowing := rfl
@[simp] theorem State.modMe_hi (s : State) (g : Hart → Hart) : (s.modMe g).hi = s.hi := rfl
@[simp] theorem State.modMe_lo (s : State) (g : Hart → Hart) : (s.modMe g).lo = s.lo := rfl
@[simp] theorem State.modMe_reserve (s : State) (g : Hart → Hart) : (s.modMe g).reserve = s.reserve := rfl
@[simp] theorem State.modMe_reserveAt (s : State) (g : Hart → Hart) : (s.modMe g).reserveAt = s.reserveAt := rfl
@[simp] theorem State.modMe_lost (s : State) (g : Hart → Hart) : (s.modMe g).lost = s.lost := rfl
@[simp] theorem State.modMe_nextLoss (s : State) (g : Hart → Hart) : (s.modMe g).nextLoss = s.nextLoss := rfl
@[simp] theorem State.modMe_nextDup (s : State) (g : Hart → Hart) : (s.modMe g).nextDup = s.nextDup := rfl
@[simp] theorem State.modMe_boot (s : State) (g : Hart → Hart) : (s.modMe g).boot = s.boot := rfl
@[simp] theorem State.modMe_devidx (s : State) (g : Hart → Hart) : (s.modMe g).devidx = s.devidx := rfl
@[simp] theorem State.modMe_sysroot (s : State) (g : Hart → Hart) : (s.modMe g).sysroot = s.sysroot := rfl
@[simp] theorem State.modMe_roots (s : State) (g : Hart → Hart) : (s.modMe g).roots = s.roots := rfl
@[simp] theorem State.modMe_clusterTlb (s : State) (g : Hart → Hart) : (s.modMe g).clusterTlb = s.clusterTlb := rfl
@[simp] theorem State.modMe_ptrCache (s : State) (g : Hart → Hart) : (s.modMe g).ptrCache = s.ptrCache := rfl
@[simp] theorem State.modMe_walkQ (s : State) (g : Hart → Hart) : (s.modMe g).walkQ = s.walkQ := rfl
@[simp] theorem State.modMe_walkMisses (s : State) (g : Hart → Hart) : (s.modMe g).walkMisses = s.walkMisses := rfl
@[simp] theorem State.modMe_reqNet (s : State) (g : Hart → Hart) : (s.modMe g).reqNet = s.reqNet := rfl
@[simp] theorem State.modMe_respNet (s : State) (g : Hart → Hart) : (s.modMe g).respNet = s.respNet := rfl
@[simp] theorem State.modMe_inbound (s : State) (g : Hart → Hart) : (s.modMe g).inbound = s.inbound := rfl
@[simp] theorem State.modMe_bankQ (s : State) (g : Hart → Hart) : (s.modMe g).bankQ = s.bankQ := rfl
@[simp] theorem State.modMe_rowBufs (s : State) (g : Hart → Hart) : (s.modMe g).rowBufs = s.rowBufs := rfl
@[simp] theorem State.modMe_dups (s : State) (g : Hart → Hart) : (s.modMe g).dups = s.dups := rfl
@[simp] theorem State.modMe_tableOps (s : State) (g : Hart → Hart) : (s.modMe g).tableOps = s.tableOps := rfl
@[simp] theorem State.modMe_segments (s : State) (g : Hart → Hart) : (s.modMe g).segments = s.segments := rfl
@[simp] theorem State.modMe_keys (s : State) (g : Hart → Hart) : (s.modMe g).keys = s.keys := rfl
@[simp] theorem State.modMe_tickets (s : State) (g : Hart → Hart) : (s.modMe g).tickets = s.tickets := rfl
@[simp] theorem State.modMe_seqs (s : State) (g : Hart → Hart) : (s.modMe g).seqs = s.seqs := rfl
@[simp] theorem State.modMe_heldPackets (s : State) (g : Hart → Hart) : (s.modMe g).heldPackets = s.heldPackets := rfl
@[simp] theorem State.modMe_steadingQ (s : State) (g : Hart → Hart) : (s.modMe g).steadingQ = s.steadingQ := rfl
@[simp] theorem State.modMe_steadingProd (s : State) (g : Hart → Hart) : (s.modMe g).steadingProd = s.steadingProd := rfl
@[simp] theorem State.modMe_steadingCons (s : State) (g : Hart → Hart) : (s.modMe g).steadingCons = s.steadingCons := rfl
@[simp] theorem State.modMe_trapBase (s : State) (g : Hart → Hart) : (s.modMe g).trapBase = s.trapBase := rfl
@[simp] theorem State.modMe_domain (s : State) (g : Hart → Hart) : (s.modMe g).domain = s.domain := rfl
@[simp] theorem State.modMe_epoch (s : State) (g : Hart → Hart) : (s.modMe g).epoch = s.epoch := rfl
@[simp] theorem State.modMe_barrier (s : State) (g : Hart → Hart) : (s.modMe g).barrier = s.barrier := rfl
@[simp] theorem State.modMe_streams (s : State) (g : Hart → Hart) : (s.modMe g).streams = s.streams := rfl
@[simp] theorem State.modMe_sent (s : State) (g : Hart → Hart) : (s.modMe g).sent = s.sent := rfl
@[simp] theorem State.modMe_refused (s : State) (g : Hart → Hart) : (s.modMe g).refused = s.refused := rfl
@[simp] theorem State.modMe_gathers (s : State) (g : Hart → Hart) : (s.modMe g).gathers = s.gathers := rfl
@[simp] theorem State.modMe_colls (s : State) (g : Hart → Hart) : (s.modMe g).colls = s.colls := rfl
@[simp] theorem State.modMe_collBufs (s : State) (g : Hart → Hart) : (s.modMe g).collBufs = s.collBufs := rfl
@[simp] theorem State.modMe_portTurns (s : State) (g : Hart → Hart) : (s.modMe g).portTurns = s.portTurns := rfl
@[simp] theorem State.modMe_comms (s : State) (g : Hart → Hart) : (s.modMe g).comms = s.comms := rfl
@[simp] theorem State.modMe_schedule (s : State) (g : Hart → Hart) : (s.modMe g).schedule = s.schedule := rfl
@[simp] theorem State.modMe_nextSchedule (s : State) (g : Hart → Hart) : (s.modMe g).nextSchedule = s.nextSchedule := rfl
@[simp] theorem State.modMe_joined (s : State) (g : Hart → Hart) : (s.modMe g).joined = s.joined := rfl
@[simp] theorem State.modMe_bootStep (s : State) (g : Hart → Hart) : (s.modMe g).bootStep = s.bootStep := rfl
@[simp] theorem State.modMe_recovering (s : State) (g : Hart → Hart) : (s.modMe g).recovering = s.recovering := rfl
@[simp] theorem State.modMe_recoveryWin (s : State) (g : Hart → Hart) : (s.modMe g).recoveryWin = s.recoveryWin := rfl
@[simp] theorem State.modMe_firmware (s : State) (g : Hart → Hart) : (s.modMe g).firmware = s.firmware := rfl
@[simp] theorem State.modMe_nextFirmware (s : State) (g : Hart → Hart) : (s.modMe g).nextFirmware = s.nextFirmware := rfl
@[simp] theorem State.modMe_retired (s : State) (g : Hart → Hart) : (s.modMe g).retired = s.retired := rfl
@[simp] theorem State.modMe_margins (s : State) (g : Hart → Hart) : (s.modMe g).margins = s.margins := rfl
@[simp] theorem State.modMe_voltages (s : State) (g : Hart → Hart) : (s.modMe g).voltages = s.voltages := rfl
@[simp] theorem State.modMe_trapUnits (s : State) (g : Hart → Hart) : (s.modMe g).trapUnits = s.trapUnits := rfl
@[simp] theorem State.modMe_snapshots (s : State) (g : Hart → Hart) : (s.modMe g).snapshots = s.snapshots := rfl
@[simp] theorem State.modMe_reply (s : State) (g : Hart → Hart) : (s.modMe g).reply = s.reply := rfl
@[simp] theorem State.modMe_drills (s : State) (g : Hart → Hart) : (s.modMe g).drills = s.drills := rfl
@[simp] theorem State.modMe_drillMem (s : State) (g : Hart → Hart) : (s.modMe g).drillMem = s.drillMem := rfl
@[simp] theorem State.modMe_wardens (s : State) (g : Hart → Hart) : (s.modMe g).wardens = s.wardens := rfl
@[simp] theorem State.modMe_wardenMem (s : State) (g : Hart → Hart) : (s.modMe g).wardenMem = s.wardenMem := rfl

-- State.setUnit
@[simp] theorem State.setUnit_cur (s : State) (c x : Nat) (u : Units) : (s.setUnit c x u).cur = s.cur := rfl
@[simp] theorem State.setUnit_turns (s : State) (c x : Nat) (u : Units) : (s.setUnit c x u).turns = s.turns := rfl
@[simp] theorem State.setUnit_auto (s : State) (c x : Nat) (u : Units) : (s.setUnit c x u).auto = s.auto := rfl
@[simp] theorem State.setUnit_ticks (s : State) (c x : Nat) (u : Units) : (s.setUnit c x u).ticks = s.ticks := rfl
@[simp] theorem State.setUnit_draws (s : State) (c x : Nat) (u : Units) : (s.setUnit c x u).draws = s.draws := rfl
@[simp] theorem State.setUnit_time (s : State) (c x : Nat) (u : Units) : (s.setUnit c x u).time = s.time := rfl
@[simp] theorem State.setUnit_clock (s : State) (c x : Nat) (u : Units) : (s.setUnit c x u).clock = s.clock := rfl
@[simp] theorem State.setUnit_harts (s : State) (c x : Nat) (u : Units) : (s.setUnit c x u).harts = s.harts := rfl
@[simp] theorem State.setUnit_cores (s : State) (c x : Nat) (u : Units) : (s.setUnit c x u).cores = s.cores := rfl
@[simp] theorem State.setUnit_ringNet (s : State) (c x : Nat) (u : Units) : (s.setUnit c x u).ringNet = s.ringNet := rfl
@[simp] theorem State.setUnit_spad (s : State) (c x : Nat) (u : Units) : (s.setUnit c x u).spad = s.spad := rfl
@[simp] theorem State.setUnit_mem (s : State) (c x : Nat) (u : Units) : (s.setUnit c x u).mem = s.mem := rfl
@[simp] theorem State.setUnit_badLines (s : State) (c x : Nat) (u : Units) : (s.setUnit c x u).badLines = s.badLines := rfl
@[simp] theorem State.setUnit_softLines (s : State) (c x : Nat) (u : Units) : (s.setUnit c x u).softLines = s.softLines := rfl
@[simp] theorem State.setUnit_macs (s : State) (c x : Nat) (u : Units) : (s.setUnit c x u).macs = s.macs := rfl
@[simp] theorem State.setUnit_blockCtrs (s : State) (c x : Nat) (u : Units) : (s.setUnit c x u).blockCtrs = s.blockCtrs := rfl
@[simp] theorem State.setUnit_treeCtrs (s : State) (c x : Nat) (u : Units) : (s.setUnit c x u).treeCtrs = s.treeCtrs := rfl
@[simp] theorem State.setUnit_badNodes (s : State) (c x : Nat) (u : Units) : (s.setUnit c x u).badNodes = s.badNodes := rfl
@[simp] theorem State.setUnit_trkctl (s : State) (c x : Nat) (u : Units) : (s.setUnit c x u).trkctl = s.trkctl := rfl
@[simp] theorem State.setUnit_trackers (s : State) (c x : Nat) (u : Units) : (s.setUnit c x u).trackers = s.trackers := rfl
@[simp] theorem State.setUnit_epochAt (s : State) (c x : Nat) (u : Units) : (s.setUnit c x u).epochAt = s.epochAt := rfl
@[simp] theorem State.setUnit_promoQ (s : State) (c x : Nat) (u : Units) : (s.setUnit c x u).promoQ = s.promoQ := rfl
@[simp] theorem State.setUnit_promos (s : State) (c x : Nat) (u : Units) : (s.setUnit c x u).promos = s.promos := rfl
@[simp] theorem State.setUnit_heldAt (s : State) (c x : Nat) (u : Units) : (s.setUnit c x u).heldAt = s.heldAt := rfl
@[simp] theorem State.setUnit_returnsDue (s : State) (c x : Nat) (u : Units) : (s.setUnit c x u).returnsDue = s.returnsDue := rfl
@[simp] theorem State.setUnit_events (s : State) (c x : Nat) (u : Units) : (s.setUnit c x u).events = s.events := rfl
@[simp] theorem State.setUnit_meters (s : State) (c x : Nat) (u : Units) : (s.setUnit c x u).meters = s.meters := rfl
@[simp] theorem State.setUnit_outbox (s : State) (c x : Nat) (u : Units) : (s.setUnit c x u).outbox = s.outbox := rfl
@[simp] theorem State.setUnit_inbox (s : State) (c x : Nat) (u : Units) : (s.setUnit c x u).inbox = s.inbox := rfl
@[simp] theorem State.setUnit_posts (s : State) (c x : Nat) (u : Units) : (s.setUnit c x u).posts = s.posts := rfl
@[simp] theorem State.setUnit_slots (s : State) (c x : Nat) (u : Units) : (s.setUnit c x u).slots = s.slots := rfl
@[simp] theorem State.setUnit_sysentry (s : State) (c x : Nat) (u : Units) : (s.setUnit c x u).sysentry = s.sysentry := rfl
@[simp] theorem State.setUnit_sysivec (s : State) (c x : Nat) (u : Units) : (s.setUnit c x u).sysivec = s.sysivec := rfl
@[simp] theorem State.setUnit_sysgo (s : State) (c x : Nat) (u : Units) : (s.setUnit c x u).sysgo = s.sysgo := rfl
@[simp] theorem State.setUnit_launches (s : State) (c x : Nat) (u : Units) : (s.setUnit c x u).launches = s.launches := rfl
@[simp] theorem State.setUnit_headland (s : State) (c x : Nat) (u : Units) : (s.setUnit c x u).headland = s.headland := rfl
@[simp] theorem State.setUnit_headAbove (s : State) (c x : Nat) (u : Units) : (s.setUnit c x u).headAbove = s.headAbove := rfl
@[simp] theorem State.setUnit_notices (s : State) (c x : Nat) (u : Units) : (s.setUnit c x u).notices = s.notices := rfl
@[simp] theorem State.setUnit_normalQ (s : State) (c x : Nat) (u : Units) : (s.setUnit c x u).normalQ = s.normalQ := rfl
@[simp] theorem State.setUnit_commQ (s : State) (c x : Nat) (u : Units) : (s.setUnit c x u).commQ = s.commQ := rfl
@[simp] theorem State.setUnit_sowing (s : State) (c x : Nat) (u : Units) : (s.setUnit c x u).sowing = s.sowing := rfl
@[simp] theorem State.setUnit_hi (s : State) (c x : Nat) (u : Units) : (s.setUnit c x u).hi = s.hi := rfl
@[simp] theorem State.setUnit_lo (s : State) (c x : Nat) (u : Units) : (s.setUnit c x u).lo = s.lo := rfl
@[simp] theorem State.setUnit_reserve (s : State) (c x : Nat) (u : Units) : (s.setUnit c x u).reserve = s.reserve := rfl
@[simp] theorem State.setUnit_reserveAt (s : State) (c x : Nat) (u : Units) : (s.setUnit c x u).reserveAt = s.reserveAt := rfl
@[simp] theorem State.setUnit_lost (s : State) (c x : Nat) (u : Units) : (s.setUnit c x u).lost = s.lost := rfl
@[simp] theorem State.setUnit_nextLoss (s : State) (c x : Nat) (u : Units) : (s.setUnit c x u).nextLoss = s.nextLoss := rfl
@[simp] theorem State.setUnit_nextDup (s : State) (c x : Nat) (u : Units) : (s.setUnit c x u).nextDup = s.nextDup := rfl
@[simp] theorem State.setUnit_boot (s : State) (c x : Nat) (u : Units) : (s.setUnit c x u).boot = s.boot := rfl
@[simp] theorem State.setUnit_devidx (s : State) (c x : Nat) (u : Units) : (s.setUnit c x u).devidx = s.devidx := rfl
@[simp] theorem State.setUnit_sysroot (s : State) (c x : Nat) (u : Units) : (s.setUnit c x u).sysroot = s.sysroot := rfl
@[simp] theorem State.setUnit_roots (s : State) (c x : Nat) (u : Units) : (s.setUnit c x u).roots = s.roots := rfl
@[simp] theorem State.setUnit_clusterTlb (s : State) (c x : Nat) (u : Units) : (s.setUnit c x u).clusterTlb = s.clusterTlb := rfl
@[simp] theorem State.setUnit_ptrCache (s : State) (c x : Nat) (u : Units) : (s.setUnit c x u).ptrCache = s.ptrCache := rfl
@[simp] theorem State.setUnit_walkQ (s : State) (c x : Nat) (u : Units) : (s.setUnit c x u).walkQ = s.walkQ := rfl
@[simp] theorem State.setUnit_walkMisses (s : State) (c x : Nat) (u : Units) : (s.setUnit c x u).walkMisses = s.walkMisses := rfl
@[simp] theorem State.setUnit_reqNet (s : State) (c x : Nat) (u : Units) : (s.setUnit c x u).reqNet = s.reqNet := rfl
@[simp] theorem State.setUnit_respNet (s : State) (c x : Nat) (u : Units) : (s.setUnit c x u).respNet = s.respNet := rfl
@[simp] theorem State.setUnit_inbound (s : State) (c x : Nat) (u : Units) : (s.setUnit c x u).inbound = s.inbound := rfl
@[simp] theorem State.setUnit_bankQ (s : State) (c x : Nat) (u : Units) : (s.setUnit c x u).bankQ = s.bankQ := rfl
@[simp] theorem State.setUnit_rowBufs (s : State) (c x : Nat) (u : Units) : (s.setUnit c x u).rowBufs = s.rowBufs := rfl
@[simp] theorem State.setUnit_dups (s : State) (c x : Nat) (u : Units) : (s.setUnit c x u).dups = s.dups := rfl
@[simp] theorem State.setUnit_tableOps (s : State) (c x : Nat) (u : Units) : (s.setUnit c x u).tableOps = s.tableOps := rfl
@[simp] theorem State.setUnit_segments (s : State) (c x : Nat) (u : Units) : (s.setUnit c x u).segments = s.segments := rfl
@[simp] theorem State.setUnit_keys (s : State) (c x : Nat) (u : Units) : (s.setUnit c x u).keys = s.keys := rfl
@[simp] theorem State.setUnit_tickets (s : State) (c x : Nat) (u : Units) : (s.setUnit c x u).tickets = s.tickets := rfl
@[simp] theorem State.setUnit_seqs (s : State) (c x : Nat) (u : Units) : (s.setUnit c x u).seqs = s.seqs := rfl
@[simp] theorem State.setUnit_heldPackets (s : State) (c x : Nat) (u : Units) : (s.setUnit c x u).heldPackets = s.heldPackets := rfl
@[simp] theorem State.setUnit_steadingQ (s : State) (c x : Nat) (u : Units) : (s.setUnit c x u).steadingQ = s.steadingQ := rfl
@[simp] theorem State.setUnit_steadingProd (s : State) (c x : Nat) (u : Units) : (s.setUnit c x u).steadingProd = s.steadingProd := rfl
@[simp] theorem State.setUnit_steadingCons (s : State) (c x : Nat) (u : Units) : (s.setUnit c x u).steadingCons = s.steadingCons := rfl
@[simp] theorem State.setUnit_trapBase (s : State) (c x : Nat) (u : Units) : (s.setUnit c x u).trapBase = s.trapBase := rfl
@[simp] theorem State.setUnit_domain (s : State) (c x : Nat) (u : Units) : (s.setUnit c x u).domain = s.domain := rfl
@[simp] theorem State.setUnit_epoch (s : State) (c x : Nat) (u : Units) : (s.setUnit c x u).epoch = s.epoch := rfl
@[simp] theorem State.setUnit_barrier (s : State) (c x : Nat) (u : Units) : (s.setUnit c x u).barrier = s.barrier := rfl
@[simp] theorem State.setUnit_streams (s : State) (c x : Nat) (u : Units) : (s.setUnit c x u).streams = s.streams := rfl
@[simp] theorem State.setUnit_sent (s : State) (c x : Nat) (u : Units) : (s.setUnit c x u).sent = s.sent := rfl
@[simp] theorem State.setUnit_refused (s : State) (c x : Nat) (u : Units) : (s.setUnit c x u).refused = s.refused := rfl
@[simp] theorem State.setUnit_gathers (s : State) (c x : Nat) (u : Units) : (s.setUnit c x u).gathers = s.gathers := rfl
@[simp] theorem State.setUnit_colls (s : State) (c x : Nat) (u : Units) : (s.setUnit c x u).colls = s.colls := rfl
@[simp] theorem State.setUnit_collBufs (s : State) (c x : Nat) (u : Units) : (s.setUnit c x u).collBufs = s.collBufs := rfl
@[simp] theorem State.setUnit_portTurns (s : State) (c x : Nat) (u : Units) : (s.setUnit c x u).portTurns = s.portTurns := rfl
@[simp] theorem State.setUnit_comms (s : State) (c x : Nat) (u : Units) : (s.setUnit c x u).comms = s.comms := rfl
@[simp] theorem State.setUnit_schedule (s : State) (c x : Nat) (u : Units) : (s.setUnit c x u).schedule = s.schedule := rfl
@[simp] theorem State.setUnit_nextSchedule (s : State) (c x : Nat) (u : Units) : (s.setUnit c x u).nextSchedule = s.nextSchedule := rfl
@[simp] theorem State.setUnit_joined (s : State) (c x : Nat) (u : Units) : (s.setUnit c x u).joined = s.joined := rfl
@[simp] theorem State.setUnit_bootStep (s : State) (c x : Nat) (u : Units) : (s.setUnit c x u).bootStep = s.bootStep := rfl
@[simp] theorem State.setUnit_recovering (s : State) (c x : Nat) (u : Units) : (s.setUnit c x u).recovering = s.recovering := rfl
@[simp] theorem State.setUnit_recoveryWin (s : State) (c x : Nat) (u : Units) : (s.setUnit c x u).recoveryWin = s.recoveryWin := rfl
@[simp] theorem State.setUnit_firmware (s : State) (c x : Nat) (u : Units) : (s.setUnit c x u).firmware = s.firmware := rfl
@[simp] theorem State.setUnit_nextFirmware (s : State) (c x : Nat) (u : Units) : (s.setUnit c x u).nextFirmware = s.nextFirmware := rfl
@[simp] theorem State.setUnit_retired (s : State) (c x : Nat) (u : Units) : (s.setUnit c x u).retired = s.retired := rfl
@[simp] theorem State.setUnit_margins (s : State) (c x : Nat) (u : Units) : (s.setUnit c x u).margins = s.margins := rfl
@[simp] theorem State.setUnit_voltages (s : State) (c x : Nat) (u : Units) : (s.setUnit c x u).voltages = s.voltages := rfl
@[simp] theorem State.setUnit_trapUnits (s : State) (c x : Nat) (u : Units) : (s.setUnit c x u).trapUnits = s.trapUnits := rfl
@[simp] theorem State.setUnit_snapshots (s : State) (c x : Nat) (u : Units) : (s.setUnit c x u).snapshots = s.snapshots := rfl
@[simp] theorem State.setUnit_reply (s : State) (c x : Nat) (u : Units) : (s.setUnit c x u).reply = s.reply := rfl
@[simp] theorem State.setUnit_drills (s : State) (c x : Nat) (u : Units) : (s.setUnit c x u).drills = s.drills := rfl
@[simp] theorem State.setUnit_drillMem (s : State) (c x : Nat) (u : Units) : (s.setUnit c x u).drillMem = s.drillMem := rfl
@[simp] theorem State.setUnit_wardens (s : State) (c x : Nat) (u : Units) : (s.setUnit c x u).wardens = s.wardens := rfl
@[simp] theorem State.setUnit_wardenMem (s : State) (c x : Nat) (u : Units) : (s.setUnit c x u).wardenMem = s.wardenMem := rfl

-- State.setMyUnit
@[simp] theorem State.setMyUnit_cur (s : State) (u : Units) : (s.setMyUnit u).cur = s.cur := rfl
@[simp] theorem State.setMyUnit_turns (s : State) (u : Units) : (s.setMyUnit u).turns = s.turns := rfl
@[simp] theorem State.setMyUnit_auto (s : State) (u : Units) : (s.setMyUnit u).auto = s.auto := rfl
@[simp] theorem State.setMyUnit_ticks (s : State) (u : Units) : (s.setMyUnit u).ticks = s.ticks := rfl
@[simp] theorem State.setMyUnit_draws (s : State) (u : Units) : (s.setMyUnit u).draws = s.draws := rfl
@[simp] theorem State.setMyUnit_time (s : State) (u : Units) : (s.setMyUnit u).time = s.time := rfl
@[simp] theorem State.setMyUnit_clock (s : State) (u : Units) : (s.setMyUnit u).clock = s.clock := rfl
@[simp] theorem State.setMyUnit_harts (s : State) (u : Units) : (s.setMyUnit u).harts = s.harts := rfl
@[simp] theorem State.setMyUnit_cores (s : State) (u : Units) : (s.setMyUnit u).cores = s.cores := rfl
@[simp] theorem State.setMyUnit_ringNet (s : State) (u : Units) : (s.setMyUnit u).ringNet = s.ringNet := rfl
@[simp] theorem State.setMyUnit_spad (s : State) (u : Units) : (s.setMyUnit u).spad = s.spad := rfl
@[simp] theorem State.setMyUnit_mem (s : State) (u : Units) : (s.setMyUnit u).mem = s.mem := rfl
@[simp] theorem State.setMyUnit_badLines (s : State) (u : Units) : (s.setMyUnit u).badLines = s.badLines := rfl
@[simp] theorem State.setMyUnit_softLines (s : State) (u : Units) : (s.setMyUnit u).softLines = s.softLines := rfl
@[simp] theorem State.setMyUnit_macs (s : State) (u : Units) : (s.setMyUnit u).macs = s.macs := rfl
@[simp] theorem State.setMyUnit_blockCtrs (s : State) (u : Units) : (s.setMyUnit u).blockCtrs = s.blockCtrs := rfl
@[simp] theorem State.setMyUnit_treeCtrs (s : State) (u : Units) : (s.setMyUnit u).treeCtrs = s.treeCtrs := rfl
@[simp] theorem State.setMyUnit_badNodes (s : State) (u : Units) : (s.setMyUnit u).badNodes = s.badNodes := rfl
@[simp] theorem State.setMyUnit_trkctl (s : State) (u : Units) : (s.setMyUnit u).trkctl = s.trkctl := rfl
@[simp] theorem State.setMyUnit_trackers (s : State) (u : Units) : (s.setMyUnit u).trackers = s.trackers := rfl
@[simp] theorem State.setMyUnit_epochAt (s : State) (u : Units) : (s.setMyUnit u).epochAt = s.epochAt := rfl
@[simp] theorem State.setMyUnit_promoQ (s : State) (u : Units) : (s.setMyUnit u).promoQ = s.promoQ := rfl
@[simp] theorem State.setMyUnit_promos (s : State) (u : Units) : (s.setMyUnit u).promos = s.promos := rfl
@[simp] theorem State.setMyUnit_heldAt (s : State) (u : Units) : (s.setMyUnit u).heldAt = s.heldAt := rfl
@[simp] theorem State.setMyUnit_returnsDue (s : State) (u : Units) : (s.setMyUnit u).returnsDue = s.returnsDue := rfl
@[simp] theorem State.setMyUnit_events (s : State) (u : Units) : (s.setMyUnit u).events = s.events := rfl
@[simp] theorem State.setMyUnit_meters (s : State) (u : Units) : (s.setMyUnit u).meters = s.meters := rfl
@[simp] theorem State.setMyUnit_outbox (s : State) (u : Units) : (s.setMyUnit u).outbox = s.outbox := rfl
@[simp] theorem State.setMyUnit_inbox (s : State) (u : Units) : (s.setMyUnit u).inbox = s.inbox := rfl
@[simp] theorem State.setMyUnit_posts (s : State) (u : Units) : (s.setMyUnit u).posts = s.posts := rfl
@[simp] theorem State.setMyUnit_slots (s : State) (u : Units) : (s.setMyUnit u).slots = s.slots := rfl
@[simp] theorem State.setMyUnit_sysentry (s : State) (u : Units) : (s.setMyUnit u).sysentry = s.sysentry := rfl
@[simp] theorem State.setMyUnit_sysivec (s : State) (u : Units) : (s.setMyUnit u).sysivec = s.sysivec := rfl
@[simp] theorem State.setMyUnit_sysgo (s : State) (u : Units) : (s.setMyUnit u).sysgo = s.sysgo := rfl
@[simp] theorem State.setMyUnit_launches (s : State) (u : Units) : (s.setMyUnit u).launches = s.launches := rfl
@[simp] theorem State.setMyUnit_headland (s : State) (u : Units) : (s.setMyUnit u).headland = s.headland := rfl
@[simp] theorem State.setMyUnit_headAbove (s : State) (u : Units) : (s.setMyUnit u).headAbove = s.headAbove := rfl
@[simp] theorem State.setMyUnit_notices (s : State) (u : Units) : (s.setMyUnit u).notices = s.notices := rfl
@[simp] theorem State.setMyUnit_normalQ (s : State) (u : Units) : (s.setMyUnit u).normalQ = s.normalQ := rfl
@[simp] theorem State.setMyUnit_commQ (s : State) (u : Units) : (s.setMyUnit u).commQ = s.commQ := rfl
@[simp] theorem State.setMyUnit_sowing (s : State) (u : Units) : (s.setMyUnit u).sowing = s.sowing := rfl
@[simp] theorem State.setMyUnit_hi (s : State) (u : Units) : (s.setMyUnit u).hi = s.hi := rfl
@[simp] theorem State.setMyUnit_lo (s : State) (u : Units) : (s.setMyUnit u).lo = s.lo := rfl
@[simp] theorem State.setMyUnit_reserve (s : State) (u : Units) : (s.setMyUnit u).reserve = s.reserve := rfl
@[simp] theorem State.setMyUnit_reserveAt (s : State) (u : Units) : (s.setMyUnit u).reserveAt = s.reserveAt := rfl
@[simp] theorem State.setMyUnit_lost (s : State) (u : Units) : (s.setMyUnit u).lost = s.lost := rfl
@[simp] theorem State.setMyUnit_nextLoss (s : State) (u : Units) : (s.setMyUnit u).nextLoss = s.nextLoss := rfl
@[simp] theorem State.setMyUnit_nextDup (s : State) (u : Units) : (s.setMyUnit u).nextDup = s.nextDup := rfl
@[simp] theorem State.setMyUnit_boot (s : State) (u : Units) : (s.setMyUnit u).boot = s.boot := rfl
@[simp] theorem State.setMyUnit_devidx (s : State) (u : Units) : (s.setMyUnit u).devidx = s.devidx := rfl
@[simp] theorem State.setMyUnit_sysroot (s : State) (u : Units) : (s.setMyUnit u).sysroot = s.sysroot := rfl
@[simp] theorem State.setMyUnit_roots (s : State) (u : Units) : (s.setMyUnit u).roots = s.roots := rfl
@[simp] theorem State.setMyUnit_clusterTlb (s : State) (u : Units) : (s.setMyUnit u).clusterTlb = s.clusterTlb := rfl
@[simp] theorem State.setMyUnit_ptrCache (s : State) (u : Units) : (s.setMyUnit u).ptrCache = s.ptrCache := rfl
@[simp] theorem State.setMyUnit_walkQ (s : State) (u : Units) : (s.setMyUnit u).walkQ = s.walkQ := rfl
@[simp] theorem State.setMyUnit_walkMisses (s : State) (u : Units) : (s.setMyUnit u).walkMisses = s.walkMisses := rfl
@[simp] theorem State.setMyUnit_reqNet (s : State) (u : Units) : (s.setMyUnit u).reqNet = s.reqNet := rfl
@[simp] theorem State.setMyUnit_respNet (s : State) (u : Units) : (s.setMyUnit u).respNet = s.respNet := rfl
@[simp] theorem State.setMyUnit_inbound (s : State) (u : Units) : (s.setMyUnit u).inbound = s.inbound := rfl
@[simp] theorem State.setMyUnit_bankQ (s : State) (u : Units) : (s.setMyUnit u).bankQ = s.bankQ := rfl
@[simp] theorem State.setMyUnit_rowBufs (s : State) (u : Units) : (s.setMyUnit u).rowBufs = s.rowBufs := rfl
@[simp] theorem State.setMyUnit_dups (s : State) (u : Units) : (s.setMyUnit u).dups = s.dups := rfl
@[simp] theorem State.setMyUnit_tableOps (s : State) (u : Units) : (s.setMyUnit u).tableOps = s.tableOps := rfl
@[simp] theorem State.setMyUnit_segments (s : State) (u : Units) : (s.setMyUnit u).segments = s.segments := rfl
@[simp] theorem State.setMyUnit_keys (s : State) (u : Units) : (s.setMyUnit u).keys = s.keys := rfl
@[simp] theorem State.setMyUnit_tickets (s : State) (u : Units) : (s.setMyUnit u).tickets = s.tickets := rfl
@[simp] theorem State.setMyUnit_seqs (s : State) (u : Units) : (s.setMyUnit u).seqs = s.seqs := rfl
@[simp] theorem State.setMyUnit_heldPackets (s : State) (u : Units) : (s.setMyUnit u).heldPackets = s.heldPackets := rfl
@[simp] theorem State.setMyUnit_steadingQ (s : State) (u : Units) : (s.setMyUnit u).steadingQ = s.steadingQ := rfl
@[simp] theorem State.setMyUnit_steadingProd (s : State) (u : Units) : (s.setMyUnit u).steadingProd = s.steadingProd := rfl
@[simp] theorem State.setMyUnit_steadingCons (s : State) (u : Units) : (s.setMyUnit u).steadingCons = s.steadingCons := rfl
@[simp] theorem State.setMyUnit_trapBase (s : State) (u : Units) : (s.setMyUnit u).trapBase = s.trapBase := rfl
@[simp] theorem State.setMyUnit_domain (s : State) (u : Units) : (s.setMyUnit u).domain = s.domain := rfl
@[simp] theorem State.setMyUnit_epoch (s : State) (u : Units) : (s.setMyUnit u).epoch = s.epoch := rfl
@[simp] theorem State.setMyUnit_barrier (s : State) (u : Units) : (s.setMyUnit u).barrier = s.barrier := rfl
@[simp] theorem State.setMyUnit_streams (s : State) (u : Units) : (s.setMyUnit u).streams = s.streams := rfl
@[simp] theorem State.setMyUnit_sent (s : State) (u : Units) : (s.setMyUnit u).sent = s.sent := rfl
@[simp] theorem State.setMyUnit_refused (s : State) (u : Units) : (s.setMyUnit u).refused = s.refused := rfl
@[simp] theorem State.setMyUnit_gathers (s : State) (u : Units) : (s.setMyUnit u).gathers = s.gathers := rfl
@[simp] theorem State.setMyUnit_colls (s : State) (u : Units) : (s.setMyUnit u).colls = s.colls := rfl
@[simp] theorem State.setMyUnit_collBufs (s : State) (u : Units) : (s.setMyUnit u).collBufs = s.collBufs := rfl
@[simp] theorem State.setMyUnit_portTurns (s : State) (u : Units) : (s.setMyUnit u).portTurns = s.portTurns := rfl
@[simp] theorem State.setMyUnit_comms (s : State) (u : Units) : (s.setMyUnit u).comms = s.comms := rfl
@[simp] theorem State.setMyUnit_schedule (s : State) (u : Units) : (s.setMyUnit u).schedule = s.schedule := rfl
@[simp] theorem State.setMyUnit_nextSchedule (s : State) (u : Units) : (s.setMyUnit u).nextSchedule = s.nextSchedule := rfl
@[simp] theorem State.setMyUnit_joined (s : State) (u : Units) : (s.setMyUnit u).joined = s.joined := rfl
@[simp] theorem State.setMyUnit_bootStep (s : State) (u : Units) : (s.setMyUnit u).bootStep = s.bootStep := rfl
@[simp] theorem State.setMyUnit_recovering (s : State) (u : Units) : (s.setMyUnit u).recovering = s.recovering := rfl
@[simp] theorem State.setMyUnit_recoveryWin (s : State) (u : Units) : (s.setMyUnit u).recoveryWin = s.recoveryWin := rfl
@[simp] theorem State.setMyUnit_firmware (s : State) (u : Units) : (s.setMyUnit u).firmware = s.firmware := rfl
@[simp] theorem State.setMyUnit_nextFirmware (s : State) (u : Units) : (s.setMyUnit u).nextFirmware = s.nextFirmware := rfl
@[simp] theorem State.setMyUnit_retired (s : State) (u : Units) : (s.setMyUnit u).retired = s.retired := rfl
@[simp] theorem State.setMyUnit_margins (s : State) (u : Units) : (s.setMyUnit u).margins = s.margins := rfl
@[simp] theorem State.setMyUnit_voltages (s : State) (u : Units) : (s.setMyUnit u).voltages = s.voltages := rfl
@[simp] theorem State.setMyUnit_trapUnits (s : State) (u : Units) : (s.setMyUnit u).trapUnits = s.trapUnits := rfl
@[simp] theorem State.setMyUnit_snapshots (s : State) (u : Units) : (s.setMyUnit u).snapshots = s.snapshots := rfl
@[simp] theorem State.setMyUnit_reply (s : State) (u : Units) : (s.setMyUnit u).reply = s.reply := rfl
@[simp] theorem State.setMyUnit_drills (s : State) (u : Units) : (s.setMyUnit u).drills = s.drills := rfl
@[simp] theorem State.setMyUnit_drillMem (s : State) (u : Units) : (s.setMyUnit u).drillMem = s.drillMem := rfl
@[simp] theorem State.setMyUnit_wardens (s : State) (u : Units) : (s.setMyUnit u).wardens = s.wardens := rfl
@[simp] theorem State.setMyUnit_wardenMem (s : State) (u : Units) : (s.setMyUnit u).wardenMem = s.wardenMem := rfl

-- State.bumpSeq
@[simp] theorem State.bumpSeq_cur (s : State) (r : Source) : (s.bumpSeq r).cur = s.cur := rfl
@[simp] theorem State.bumpSeq_turns (s : State) (r : Source) : (s.bumpSeq r).turns = s.turns := rfl
@[simp] theorem State.bumpSeq_auto (s : State) (r : Source) : (s.bumpSeq r).auto = s.auto := rfl
@[simp] theorem State.bumpSeq_ticks (s : State) (r : Source) : (s.bumpSeq r).ticks = s.ticks := rfl
@[simp] theorem State.bumpSeq_draws (s : State) (r : Source) : (s.bumpSeq r).draws = s.draws := rfl
@[simp] theorem State.bumpSeq_time (s : State) (r : Source) : (s.bumpSeq r).time = s.time := rfl
@[simp] theorem State.bumpSeq_clock (s : State) (r : Source) : (s.bumpSeq r).clock = s.clock := rfl
@[simp] theorem State.bumpSeq_harts (s : State) (r : Source) : (s.bumpSeq r).harts = s.harts := rfl
@[simp] theorem State.bumpSeq_cores (s : State) (r : Source) : (s.bumpSeq r).cores = s.cores := rfl
@[simp] theorem State.bumpSeq_units (s : State) (r : Source) : (s.bumpSeq r).units = s.units := rfl
@[simp] theorem State.bumpSeq_ringNet (s : State) (r : Source) : (s.bumpSeq r).ringNet = s.ringNet := rfl
@[simp] theorem State.bumpSeq_spad (s : State) (r : Source) : (s.bumpSeq r).spad = s.spad := rfl
@[simp] theorem State.bumpSeq_mem (s : State) (r : Source) : (s.bumpSeq r).mem = s.mem := rfl
@[simp] theorem State.bumpSeq_badLines (s : State) (r : Source) : (s.bumpSeq r).badLines = s.badLines := rfl
@[simp] theorem State.bumpSeq_softLines (s : State) (r : Source) : (s.bumpSeq r).softLines = s.softLines := rfl
@[simp] theorem State.bumpSeq_macs (s : State) (r : Source) : (s.bumpSeq r).macs = s.macs := rfl
@[simp] theorem State.bumpSeq_blockCtrs (s : State) (r : Source) : (s.bumpSeq r).blockCtrs = s.blockCtrs := rfl
@[simp] theorem State.bumpSeq_treeCtrs (s : State) (r : Source) : (s.bumpSeq r).treeCtrs = s.treeCtrs := rfl
@[simp] theorem State.bumpSeq_badNodes (s : State) (r : Source) : (s.bumpSeq r).badNodes = s.badNodes := rfl
@[simp] theorem State.bumpSeq_trkctl (s : State) (r : Source) : (s.bumpSeq r).trkctl = s.trkctl := rfl
@[simp] theorem State.bumpSeq_trackers (s : State) (r : Source) : (s.bumpSeq r).trackers = s.trackers := rfl
@[simp] theorem State.bumpSeq_epochAt (s : State) (r : Source) : (s.bumpSeq r).epochAt = s.epochAt := rfl
@[simp] theorem State.bumpSeq_promoQ (s : State) (r : Source) : (s.bumpSeq r).promoQ = s.promoQ := rfl
@[simp] theorem State.bumpSeq_promos (s : State) (r : Source) : (s.bumpSeq r).promos = s.promos := rfl
@[simp] theorem State.bumpSeq_heldAt (s : State) (r : Source) : (s.bumpSeq r).heldAt = s.heldAt := rfl
@[simp] theorem State.bumpSeq_returnsDue (s : State) (r : Source) : (s.bumpSeq r).returnsDue = s.returnsDue := rfl
@[simp] theorem State.bumpSeq_events (s : State) (r : Source) : (s.bumpSeq r).events = s.events := rfl
@[simp] theorem State.bumpSeq_meters (s : State) (r : Source) : (s.bumpSeq r).meters = s.meters := rfl
@[simp] theorem State.bumpSeq_outbox (s : State) (r : Source) : (s.bumpSeq r).outbox = s.outbox := rfl
@[simp] theorem State.bumpSeq_inbox (s : State) (r : Source) : (s.bumpSeq r).inbox = s.inbox := rfl
@[simp] theorem State.bumpSeq_posts (s : State) (r : Source) : (s.bumpSeq r).posts = s.posts := rfl
@[simp] theorem State.bumpSeq_slots (s : State) (r : Source) : (s.bumpSeq r).slots = s.slots := rfl
@[simp] theorem State.bumpSeq_sysentry (s : State) (r : Source) : (s.bumpSeq r).sysentry = s.sysentry := rfl
@[simp] theorem State.bumpSeq_sysivec (s : State) (r : Source) : (s.bumpSeq r).sysivec = s.sysivec := rfl
@[simp] theorem State.bumpSeq_sysgo (s : State) (r : Source) : (s.bumpSeq r).sysgo = s.sysgo := rfl
@[simp] theorem State.bumpSeq_launches (s : State) (r : Source) : (s.bumpSeq r).launches = s.launches := rfl
@[simp] theorem State.bumpSeq_headland (s : State) (r : Source) : (s.bumpSeq r).headland = s.headland := rfl
@[simp] theorem State.bumpSeq_headAbove (s : State) (r : Source) : (s.bumpSeq r).headAbove = s.headAbove := rfl
@[simp] theorem State.bumpSeq_notices (s : State) (r : Source) : (s.bumpSeq r).notices = s.notices := rfl
@[simp] theorem State.bumpSeq_normalQ (s : State) (r : Source) : (s.bumpSeq r).normalQ = s.normalQ := rfl
@[simp] theorem State.bumpSeq_commQ (s : State) (r : Source) : (s.bumpSeq r).commQ = s.commQ := rfl
@[simp] theorem State.bumpSeq_sowing (s : State) (r : Source) : (s.bumpSeq r).sowing = s.sowing := rfl
@[simp] theorem State.bumpSeq_hi (s : State) (r : Source) : (s.bumpSeq r).hi = s.hi := rfl
@[simp] theorem State.bumpSeq_lo (s : State) (r : Source) : (s.bumpSeq r).lo = s.lo := rfl
@[simp] theorem State.bumpSeq_reserve (s : State) (r : Source) : (s.bumpSeq r).reserve = s.reserve := rfl
@[simp] theorem State.bumpSeq_reserveAt (s : State) (r : Source) : (s.bumpSeq r).reserveAt = s.reserveAt := rfl
@[simp] theorem State.bumpSeq_lost (s : State) (r : Source) : (s.bumpSeq r).lost = s.lost := rfl
@[simp] theorem State.bumpSeq_nextLoss (s : State) (r : Source) : (s.bumpSeq r).nextLoss = s.nextLoss := rfl
@[simp] theorem State.bumpSeq_nextDup (s : State) (r : Source) : (s.bumpSeq r).nextDup = s.nextDup := rfl
@[simp] theorem State.bumpSeq_boot (s : State) (r : Source) : (s.bumpSeq r).boot = s.boot := rfl
@[simp] theorem State.bumpSeq_devidx (s : State) (r : Source) : (s.bumpSeq r).devidx = s.devidx := rfl
@[simp] theorem State.bumpSeq_sysroot (s : State) (r : Source) : (s.bumpSeq r).sysroot = s.sysroot := rfl
@[simp] theorem State.bumpSeq_roots (s : State) (r : Source) : (s.bumpSeq r).roots = s.roots := rfl
@[simp] theorem State.bumpSeq_clusterTlb (s : State) (r : Source) : (s.bumpSeq r).clusterTlb = s.clusterTlb := rfl
@[simp] theorem State.bumpSeq_ptrCache (s : State) (r : Source) : (s.bumpSeq r).ptrCache = s.ptrCache := rfl
@[simp] theorem State.bumpSeq_walkQ (s : State) (r : Source) : (s.bumpSeq r).walkQ = s.walkQ := rfl
@[simp] theorem State.bumpSeq_walkMisses (s : State) (r : Source) : (s.bumpSeq r).walkMisses = s.walkMisses := rfl
@[simp] theorem State.bumpSeq_reqNet (s : State) (r : Source) : (s.bumpSeq r).reqNet = s.reqNet := rfl
@[simp] theorem State.bumpSeq_respNet (s : State) (r : Source) : (s.bumpSeq r).respNet = s.respNet := rfl
@[simp] theorem State.bumpSeq_inbound (s : State) (r : Source) : (s.bumpSeq r).inbound = s.inbound := rfl
@[simp] theorem State.bumpSeq_bankQ (s : State) (r : Source) : (s.bumpSeq r).bankQ = s.bankQ := rfl
@[simp] theorem State.bumpSeq_rowBufs (s : State) (r : Source) : (s.bumpSeq r).rowBufs = s.rowBufs := rfl
@[simp] theorem State.bumpSeq_dups (s : State) (r : Source) : (s.bumpSeq r).dups = s.dups := rfl
@[simp] theorem State.bumpSeq_tableOps (s : State) (r : Source) : (s.bumpSeq r).tableOps = s.tableOps := rfl
@[simp] theorem State.bumpSeq_segments (s : State) (r : Source) : (s.bumpSeq r).segments = s.segments := rfl
@[simp] theorem State.bumpSeq_keys (s : State) (r : Source) : (s.bumpSeq r).keys = s.keys := rfl
@[simp] theorem State.bumpSeq_tickets (s : State) (r : Source) : (s.bumpSeq r).tickets = s.tickets := rfl
@[simp] theorem State.bumpSeq_heldPackets (s : State) (r : Source) : (s.bumpSeq r).heldPackets = s.heldPackets := rfl
@[simp] theorem State.bumpSeq_steadingQ (s : State) (r : Source) : (s.bumpSeq r).steadingQ = s.steadingQ := rfl
@[simp] theorem State.bumpSeq_steadingProd (s : State) (r : Source) : (s.bumpSeq r).steadingProd = s.steadingProd := rfl
@[simp] theorem State.bumpSeq_steadingCons (s : State) (r : Source) : (s.bumpSeq r).steadingCons = s.steadingCons := rfl
@[simp] theorem State.bumpSeq_trapBase (s : State) (r : Source) : (s.bumpSeq r).trapBase = s.trapBase := rfl
@[simp] theorem State.bumpSeq_domain (s : State) (r : Source) : (s.bumpSeq r).domain = s.domain := rfl
@[simp] theorem State.bumpSeq_epoch (s : State) (r : Source) : (s.bumpSeq r).epoch = s.epoch := rfl
@[simp] theorem State.bumpSeq_barrier (s : State) (r : Source) : (s.bumpSeq r).barrier = s.barrier := rfl
@[simp] theorem State.bumpSeq_streams (s : State) (r : Source) : (s.bumpSeq r).streams = s.streams := rfl
@[simp] theorem State.bumpSeq_sent (s : State) (r : Source) : (s.bumpSeq r).sent = s.sent := rfl
@[simp] theorem State.bumpSeq_refused (s : State) (r : Source) : (s.bumpSeq r).refused = s.refused := rfl
@[simp] theorem State.bumpSeq_gathers (s : State) (r : Source) : (s.bumpSeq r).gathers = s.gathers := rfl
@[simp] theorem State.bumpSeq_colls (s : State) (r : Source) : (s.bumpSeq r).colls = s.colls := rfl
@[simp] theorem State.bumpSeq_collBufs (s : State) (r : Source) : (s.bumpSeq r).collBufs = s.collBufs := rfl
@[simp] theorem State.bumpSeq_portTurns (s : State) (r : Source) : (s.bumpSeq r).portTurns = s.portTurns := rfl
@[simp] theorem State.bumpSeq_comms (s : State) (r : Source) : (s.bumpSeq r).comms = s.comms := rfl
@[simp] theorem State.bumpSeq_schedule (s : State) (r : Source) : (s.bumpSeq r).schedule = s.schedule := rfl
@[simp] theorem State.bumpSeq_nextSchedule (s : State) (r : Source) : (s.bumpSeq r).nextSchedule = s.nextSchedule := rfl
@[simp] theorem State.bumpSeq_joined (s : State) (r : Source) : (s.bumpSeq r).joined = s.joined := rfl
@[simp] theorem State.bumpSeq_bootStep (s : State) (r : Source) : (s.bumpSeq r).bootStep = s.bootStep := rfl
@[simp] theorem State.bumpSeq_recovering (s : State) (r : Source) : (s.bumpSeq r).recovering = s.recovering := rfl
@[simp] theorem State.bumpSeq_recoveryWin (s : State) (r : Source) : (s.bumpSeq r).recoveryWin = s.recoveryWin := rfl
@[simp] theorem State.bumpSeq_firmware (s : State) (r : Source) : (s.bumpSeq r).firmware = s.firmware := rfl
@[simp] theorem State.bumpSeq_nextFirmware (s : State) (r : Source) : (s.bumpSeq r).nextFirmware = s.nextFirmware := rfl
@[simp] theorem State.bumpSeq_retired (s : State) (r : Source) : (s.bumpSeq r).retired = s.retired := rfl
@[simp] theorem State.bumpSeq_margins (s : State) (r : Source) : (s.bumpSeq r).margins = s.margins := rfl
@[simp] theorem State.bumpSeq_voltages (s : State) (r : Source) : (s.bumpSeq r).voltages = s.voltages := rfl
@[simp] theorem State.bumpSeq_trapUnits (s : State) (r : Source) : (s.bumpSeq r).trapUnits = s.trapUnits := rfl
@[simp] theorem State.bumpSeq_snapshots (s : State) (r : Source) : (s.bumpSeq r).snapshots = s.snapshots := rfl
@[simp] theorem State.bumpSeq_reply (s : State) (r : Source) : (s.bumpSeq r).reply = s.reply := rfl
@[simp] theorem State.bumpSeq_drills (s : State) (r : Source) : (s.bumpSeq r).drills = s.drills := rfl
@[simp] theorem State.bumpSeq_drillMem (s : State) (r : Source) : (s.bumpSeq r).drillMem = s.drillMem := rfl
@[simp] theorem State.bumpSeq_wardens (s : State) (r : Source) : (s.bumpSeq r).wardens = s.wardens := rfl
@[simp] theorem State.bumpSeq_wardenMem (s : State) (r : Source) : (s.bumpSeq r).wardenMem = s.wardenMem := rfl

-- State.forsake: only accesses on their way and their answers
@[simp] theorem State.forsake_cur (s : State) (t : Agent → Nat → Place → Nat → ReqKind → Bool → Bool) : (s.forsake t).cur = s.cur := rfl
@[simp] theorem State.forsake_turns (s : State) (t : Agent → Nat → Place → Nat → ReqKind → Bool → Bool) : (s.forsake t).turns = s.turns := rfl
@[simp] theorem State.forsake_auto (s : State) (t : Agent → Nat → Place → Nat → ReqKind → Bool → Bool) : (s.forsake t).auto = s.auto := rfl
@[simp] theorem State.forsake_ticks (s : State) (t : Agent → Nat → Place → Nat → ReqKind → Bool → Bool) : (s.forsake t).ticks = s.ticks := rfl
@[simp] theorem State.forsake_draws (s : State) (t : Agent → Nat → Place → Nat → ReqKind → Bool → Bool) : (s.forsake t).draws = s.draws := rfl
@[simp] theorem State.forsake_time (s : State) (t : Agent → Nat → Place → Nat → ReqKind → Bool → Bool) : (s.forsake t).time = s.time := rfl
@[simp] theorem State.forsake_clock (s : State) (t : Agent → Nat → Place → Nat → ReqKind → Bool → Bool) : (s.forsake t).clock = s.clock := rfl
@[simp] theorem State.forsake_harts (s : State) (t : Agent → Nat → Place → Nat → ReqKind → Bool → Bool) : (s.forsake t).harts = s.harts := rfl
@[simp] theorem State.forsake_cores (s : State) (t : Agent → Nat → Place → Nat → ReqKind → Bool → Bool) : (s.forsake t).cores = s.cores := rfl
@[simp] theorem State.forsake_units (s : State) (t : Agent → Nat → Place → Nat → ReqKind → Bool → Bool) : (s.forsake t).units = s.units := rfl
@[simp] theorem State.forsake_ringNet (s : State) (t : Agent → Nat → Place → Nat → ReqKind → Bool → Bool) : (s.forsake t).ringNet = s.ringNet := rfl
@[simp] theorem State.forsake_spad (s : State) (t : Agent → Nat → Place → Nat → ReqKind → Bool → Bool) : (s.forsake t).spad = s.spad := rfl
@[simp] theorem State.forsake_mem (s : State) (t : Agent → Nat → Place → Nat → ReqKind → Bool → Bool) : (s.forsake t).mem = s.mem := rfl
@[simp] theorem State.forsake_badLines (s : State) (t : Agent → Nat → Place → Nat → ReqKind → Bool → Bool) : (s.forsake t).badLines = s.badLines := rfl
@[simp] theorem State.forsake_softLines (s : State) (t : Agent → Nat → Place → Nat → ReqKind → Bool → Bool) : (s.forsake t).softLines = s.softLines := rfl
@[simp] theorem State.forsake_macs (s : State) (t : Agent → Nat → Place → Nat → ReqKind → Bool → Bool) : (s.forsake t).macs = s.macs := rfl
@[simp] theorem State.forsake_blockCtrs (s : State) (t : Agent → Nat → Place → Nat → ReqKind → Bool → Bool) : (s.forsake t).blockCtrs = s.blockCtrs := rfl
@[simp] theorem State.forsake_treeCtrs (s : State) (t : Agent → Nat → Place → Nat → ReqKind → Bool → Bool) : (s.forsake t).treeCtrs = s.treeCtrs := rfl
@[simp] theorem State.forsake_badNodes (s : State) (t : Agent → Nat → Place → Nat → ReqKind → Bool → Bool) : (s.forsake t).badNodes = s.badNodes := rfl
@[simp] theorem State.forsake_trkctl (s : State) (t : Agent → Nat → Place → Nat → ReqKind → Bool → Bool) : (s.forsake t).trkctl = s.trkctl := rfl
@[simp] theorem State.forsake_trackers (s : State) (t : Agent → Nat → Place → Nat → ReqKind → Bool → Bool) : (s.forsake t).trackers = s.trackers := rfl
@[simp] theorem State.forsake_epochAt (s : State) (t : Agent → Nat → Place → Nat → ReqKind → Bool → Bool) : (s.forsake t).epochAt = s.epochAt := rfl
@[simp] theorem State.forsake_promoQ (s : State) (t : Agent → Nat → Place → Nat → ReqKind → Bool → Bool) : (s.forsake t).promoQ = s.promoQ := rfl
@[simp] theorem State.forsake_promos (s : State) (t : Agent → Nat → Place → Nat → ReqKind → Bool → Bool) : (s.forsake t).promos = s.promos := rfl
@[simp] theorem State.forsake_returnsDue (s : State) (t : Agent → Nat → Place → Nat → ReqKind → Bool → Bool) : (s.forsake t).returnsDue = s.returnsDue := rfl
@[simp] theorem State.forsake_events (s : State) (t : Agent → Nat → Place → Nat → ReqKind → Bool → Bool) : (s.forsake t).events = s.events := rfl
@[simp] theorem State.forsake_meters (s : State) (t : Agent → Nat → Place → Nat → ReqKind → Bool → Bool) : (s.forsake t).meters = s.meters := rfl
@[simp] theorem State.forsake_posts (s : State) (t : Agent → Nat → Place → Nat → ReqKind → Bool → Bool) : (s.forsake t).posts = s.posts := rfl
@[simp] theorem State.forsake_slots (s : State) (t : Agent → Nat → Place → Nat → ReqKind → Bool → Bool) : (s.forsake t).slots = s.slots := rfl
@[simp] theorem State.forsake_sysentry (s : State) (t : Agent → Nat → Place → Nat → ReqKind → Bool → Bool) : (s.forsake t).sysentry = s.sysentry := rfl
@[simp] theorem State.forsake_sysivec (s : State) (t : Agent → Nat → Place → Nat → ReqKind → Bool → Bool) : (s.forsake t).sysivec = s.sysivec := rfl
@[simp] theorem State.forsake_sysgo (s : State) (t : Agent → Nat → Place → Nat → ReqKind → Bool → Bool) : (s.forsake t).sysgo = s.sysgo := rfl
@[simp] theorem State.forsake_launches (s : State) (t : Agent → Nat → Place → Nat → ReqKind → Bool → Bool) : (s.forsake t).launches = s.launches := rfl
@[simp] theorem State.forsake_headland (s : State) (t : Agent → Nat → Place → Nat → ReqKind → Bool → Bool) : (s.forsake t).headland = s.headland := rfl
@[simp] theorem State.forsake_headAbove (s : State) (t : Agent → Nat → Place → Nat → ReqKind → Bool → Bool) : (s.forsake t).headAbove = s.headAbove := rfl
@[simp] theorem State.forsake_notices (s : State) (t : Agent → Nat → Place → Nat → ReqKind → Bool → Bool) : (s.forsake t).notices = s.notices := rfl
@[simp] theorem State.forsake_normalQ (s : State) (t : Agent → Nat → Place → Nat → ReqKind → Bool → Bool) : (s.forsake t).normalQ = s.normalQ := rfl
@[simp] theorem State.forsake_commQ (s : State) (t : Agent → Nat → Place → Nat → ReqKind → Bool → Bool) : (s.forsake t).commQ = s.commQ := rfl
@[simp] theorem State.forsake_sowing (s : State) (t : Agent → Nat → Place → Nat → ReqKind → Bool → Bool) : (s.forsake t).sowing = s.sowing := rfl
@[simp] theorem State.forsake_hi (s : State) (t : Agent → Nat → Place → Nat → ReqKind → Bool → Bool) : (s.forsake t).hi = s.hi := rfl
@[simp] theorem State.forsake_lo (s : State) (t : Agent → Nat → Place → Nat → ReqKind → Bool → Bool) : (s.forsake t).lo = s.lo := rfl
@[simp] theorem State.forsake_reserve (s : State) (t : Agent → Nat → Place → Nat → ReqKind → Bool → Bool) : (s.forsake t).reserve = s.reserve := rfl
@[simp] theorem State.forsake_reserveAt (s : State) (t : Agent → Nat → Place → Nat → ReqKind → Bool → Bool) : (s.forsake t).reserveAt = s.reserveAt := rfl
@[simp] theorem State.forsake_lost (s : State) (t : Agent → Nat → Place → Nat → ReqKind → Bool → Bool) : (s.forsake t).lost = s.lost := rfl
@[simp] theorem State.forsake_nextLoss (s : State) (t : Agent → Nat → Place → Nat → ReqKind → Bool → Bool) : (s.forsake t).nextLoss = s.nextLoss := rfl
@[simp] theorem State.forsake_nextDup (s : State) (t : Agent → Nat → Place → Nat → ReqKind → Bool → Bool) : (s.forsake t).nextDup = s.nextDup := rfl
@[simp] theorem State.forsake_boot (s : State) (t : Agent → Nat → Place → Nat → ReqKind → Bool → Bool) : (s.forsake t).boot = s.boot := rfl
@[simp] theorem State.forsake_devidx (s : State) (t : Agent → Nat → Place → Nat → ReqKind → Bool → Bool) : (s.forsake t).devidx = s.devidx := rfl
@[simp] theorem State.forsake_sysroot (s : State) (t : Agent → Nat → Place → Nat → ReqKind → Bool → Bool) : (s.forsake t).sysroot = s.sysroot := rfl
@[simp] theorem State.forsake_roots (s : State) (t : Agent → Nat → Place → Nat → ReqKind → Bool → Bool) : (s.forsake t).roots = s.roots := rfl
@[simp] theorem State.forsake_clusterTlb (s : State) (t : Agent → Nat → Place → Nat → ReqKind → Bool → Bool) : (s.forsake t).clusterTlb = s.clusterTlb := rfl
@[simp] theorem State.forsake_ptrCache (s : State) (t : Agent → Nat → Place → Nat → ReqKind → Bool → Bool) : (s.forsake t).ptrCache = s.ptrCache := rfl
@[simp] theorem State.forsake_walkQ (s : State) (t : Agent → Nat → Place → Nat → ReqKind → Bool → Bool) : (s.forsake t).walkQ = s.walkQ := rfl
@[simp] theorem State.forsake_walkMisses (s : State) (t : Agent → Nat → Place → Nat → ReqKind → Bool → Bool) : (s.forsake t).walkMisses = s.walkMisses := rfl
@[simp] theorem State.forsake_rowBufs (s : State) (t : Agent → Nat → Place → Nat → ReqKind → Bool → Bool) : (s.forsake t).rowBufs = s.rowBufs := rfl
@[simp] theorem State.forsake_dups (s : State) (t : Agent → Nat → Place → Nat → ReqKind → Bool → Bool) : (s.forsake t).dups = s.dups := rfl
@[simp] theorem State.forsake_tableOps (s : State) (t : Agent → Nat → Place → Nat → ReqKind → Bool → Bool) : (s.forsake t).tableOps = s.tableOps := rfl
@[simp] theorem State.forsake_segments (s : State) (t : Agent → Nat → Place → Nat → ReqKind → Bool → Bool) : (s.forsake t).segments = s.segments := rfl
@[simp] theorem State.forsake_keys (s : State) (t : Agent → Nat → Place → Nat → ReqKind → Bool → Bool) : (s.forsake t).keys = s.keys := rfl
@[simp] theorem State.forsake_tickets (s : State) (t : Agent → Nat → Place → Nat → ReqKind → Bool → Bool) : (s.forsake t).tickets = s.tickets := rfl
@[simp] theorem State.forsake_seqs (s : State) (t : Agent → Nat → Place → Nat → ReqKind → Bool → Bool) : (s.forsake t).seqs = s.seqs := rfl
@[simp] theorem State.forsake_heldPackets (s : State) (t : Agent → Nat → Place → Nat → ReqKind → Bool → Bool) : (s.forsake t).heldPackets = s.heldPackets := rfl
@[simp] theorem State.forsake_steadingQ (s : State) (t : Agent → Nat → Place → Nat → ReqKind → Bool → Bool) : (s.forsake t).steadingQ = s.steadingQ := rfl
@[simp] theorem State.forsake_steadingProd (s : State) (t : Agent → Nat → Place → Nat → ReqKind → Bool → Bool) : (s.forsake t).steadingProd = s.steadingProd := rfl
@[simp] theorem State.forsake_steadingCons (s : State) (t : Agent → Nat → Place → Nat → ReqKind → Bool → Bool) : (s.forsake t).steadingCons = s.steadingCons := rfl
@[simp] theorem State.forsake_trapBase (s : State) (t : Agent → Nat → Place → Nat → ReqKind → Bool → Bool) : (s.forsake t).trapBase = s.trapBase := rfl
@[simp] theorem State.forsake_domain (s : State) (t : Agent → Nat → Place → Nat → ReqKind → Bool → Bool) : (s.forsake t).domain = s.domain := rfl
@[simp] theorem State.forsake_epoch (s : State) (t : Agent → Nat → Place → Nat → ReqKind → Bool → Bool) : (s.forsake t).epoch = s.epoch := rfl
@[simp] theorem State.forsake_barrier (s : State) (t : Agent → Nat → Place → Nat → ReqKind → Bool → Bool) : (s.forsake t).barrier = s.barrier := rfl
@[simp] theorem State.forsake_streams (s : State) (t : Agent → Nat → Place → Nat → ReqKind → Bool → Bool) : (s.forsake t).streams = s.streams := rfl
@[simp] theorem State.forsake_sent (s : State) (t : Agent → Nat → Place → Nat → ReqKind → Bool → Bool) : (s.forsake t).sent = s.sent := rfl
@[simp] theorem State.forsake_refused (s : State) (t : Agent → Nat → Place → Nat → ReqKind → Bool → Bool) : (s.forsake t).refused = s.refused := rfl
@[simp] theorem State.forsake_gathers (s : State) (t : Agent → Nat → Place → Nat → ReqKind → Bool → Bool) : (s.forsake t).gathers = s.gathers := rfl
@[simp] theorem State.forsake_colls (s : State) (t : Agent → Nat → Place → Nat → ReqKind → Bool → Bool) : (s.forsake t).colls = s.colls := rfl
@[simp] theorem State.forsake_collBufs (s : State) (t : Agent → Nat → Place → Nat → ReqKind → Bool → Bool) : (s.forsake t).collBufs = s.collBufs := rfl
@[simp] theorem State.forsake_portTurns (s : State) (t : Agent → Nat → Place → Nat → ReqKind → Bool → Bool) : (s.forsake t).portTurns = s.portTurns := rfl
@[simp] theorem State.forsake_comms (s : State) (t : Agent → Nat → Place → Nat → ReqKind → Bool → Bool) : (s.forsake t).comms = s.comms := rfl
@[simp] theorem State.forsake_schedule (s : State) (t : Agent → Nat → Place → Nat → ReqKind → Bool → Bool) : (s.forsake t).schedule = s.schedule := rfl
@[simp] theorem State.forsake_nextSchedule (s : State) (t : Agent → Nat → Place → Nat → ReqKind → Bool → Bool) : (s.forsake t).nextSchedule = s.nextSchedule := rfl
@[simp] theorem State.forsake_joined (s : State) (t : Agent → Nat → Place → Nat → ReqKind → Bool → Bool) : (s.forsake t).joined = s.joined := rfl
@[simp] theorem State.forsake_bootStep (s : State) (t : Agent → Nat → Place → Nat → ReqKind → Bool → Bool) : (s.forsake t).bootStep = s.bootStep := rfl
@[simp] theorem State.forsake_recovering (s : State) (t : Agent → Nat → Place → Nat → ReqKind → Bool → Bool) : (s.forsake t).recovering = s.recovering := rfl
@[simp] theorem State.forsake_recoveryWin (s : State) (t : Agent → Nat → Place → Nat → ReqKind → Bool → Bool) : (s.forsake t).recoveryWin = s.recoveryWin := rfl
@[simp] theorem State.forsake_firmware (s : State) (t : Agent → Nat → Place → Nat → ReqKind → Bool → Bool) : (s.forsake t).firmware = s.firmware := rfl
@[simp] theorem State.forsake_nextFirmware (s : State) (t : Agent → Nat → Place → Nat → ReqKind → Bool → Bool) : (s.forsake t).nextFirmware = s.nextFirmware := rfl
@[simp] theorem State.forsake_retired (s : State) (t : Agent → Nat → Place → Nat → ReqKind → Bool → Bool) : (s.forsake t).retired = s.retired := rfl
@[simp] theorem State.forsake_margins (s : State) (t : Agent → Nat → Place → Nat → ReqKind → Bool → Bool) : (s.forsake t).margins = s.margins := rfl
@[simp] theorem State.forsake_voltages (s : State) (t : Agent → Nat → Place → Nat → ReqKind → Bool → Bool) : (s.forsake t).voltages = s.voltages := rfl
@[simp] theorem State.forsake_trapUnits (s : State) (t : Agent → Nat → Place → Nat → ReqKind → Bool → Bool) : (s.forsake t).trapUnits = s.trapUnits := rfl
@[simp] theorem State.forsake_snapshots (s : State) (t : Agent → Nat → Place → Nat → ReqKind → Bool → Bool) : (s.forsake t).snapshots = s.snapshots := rfl
@[simp] theorem State.forsake_reply (s : State) (t : Agent → Nat → Place → Nat → ReqKind → Bool → Bool) : (s.forsake t).reply = s.reply := rfl
@[simp] theorem State.forsake_drills (s : State) (t : Agent → Nat → Place → Nat → ReqKind → Bool → Bool) : (s.forsake t).drills = s.drills := rfl
@[simp] theorem State.forsake_drillMem (s : State) (t : Agent → Nat → Place → Nat → ReqKind → Bool → Bool) : (s.forsake t).drillMem = s.drillMem := rfl
@[simp] theorem State.forsake_wardens (s : State) (t : Agent → Nat → Place → Nat → ReqKind → Bool → Bool) : (s.forsake t).wardens = s.wardens := rfl
@[simp] theorem State.forsake_wardenMem (s : State) (t : Agent → Nat → Place → Nat → ReqKind → Bool → Bool) : (s.forsake t).wardenMem = s.wardenMem := rfl

-- State.dropAhead: only accesses on their way and their answers
@[simp] theorem State.dropAhead_cur (s : State) (a : Agent) (c : Nat) (p : Place) : (s.dropAhead a c p).cur = s.cur := by simp only [State.dropAhead]; split <;> rfl
@[simp] theorem State.dropAhead_turns (s : State) (a : Agent) (c : Nat) (p : Place) : (s.dropAhead a c p).turns = s.turns := by simp only [State.dropAhead]; split <;> rfl
@[simp] theorem State.dropAhead_auto (s : State) (a : Agent) (c : Nat) (p : Place) : (s.dropAhead a c p).auto = s.auto := by simp only [State.dropAhead]; split <;> rfl
@[simp] theorem State.dropAhead_ticks (s : State) (a : Agent) (c : Nat) (p : Place) : (s.dropAhead a c p).ticks = s.ticks := by simp only [State.dropAhead]; split <;> rfl
@[simp] theorem State.dropAhead_draws (s : State) (a : Agent) (c : Nat) (p : Place) : (s.dropAhead a c p).draws = s.draws := by simp only [State.dropAhead]; split <;> rfl
@[simp] theorem State.dropAhead_time (s : State) (a : Agent) (c : Nat) (p : Place) : (s.dropAhead a c p).time = s.time := by simp only [State.dropAhead]; split <;> rfl
@[simp] theorem State.dropAhead_clock (s : State) (a : Agent) (c : Nat) (p : Place) : (s.dropAhead a c p).clock = s.clock := by simp only [State.dropAhead]; split <;> rfl
@[simp] theorem State.dropAhead_harts (s : State) (a : Agent) (c : Nat) (p : Place) : (s.dropAhead a c p).harts = s.harts := by simp only [State.dropAhead]; split <;> rfl
@[simp] theorem State.dropAhead_cores (s : State) (a : Agent) (c : Nat) (p : Place) : (s.dropAhead a c p).cores = s.cores := by simp only [State.dropAhead]; split <;> rfl
@[simp] theorem State.dropAhead_units (s : State) (a : Agent) (c : Nat) (p : Place) : (s.dropAhead a c p).units = s.units := by simp only [State.dropAhead]; split <;> rfl
@[simp] theorem State.dropAhead_ringNet (s : State) (a : Agent) (c : Nat) (p : Place) : (s.dropAhead a c p).ringNet = s.ringNet := by simp only [State.dropAhead]; split <;> rfl
@[simp] theorem State.dropAhead_spad (s : State) (a : Agent) (c : Nat) (p : Place) : (s.dropAhead a c p).spad = s.spad := by simp only [State.dropAhead]; split <;> rfl
@[simp] theorem State.dropAhead_mem (s : State) (a : Agent) (c : Nat) (p : Place) : (s.dropAhead a c p).mem = s.mem := by simp only [State.dropAhead]; split <;> rfl
@[simp] theorem State.dropAhead_badLines (s : State) (a : Agent) (c : Nat) (p : Place) : (s.dropAhead a c p).badLines = s.badLines := by simp only [State.dropAhead]; split <;> rfl
@[simp] theorem State.dropAhead_softLines (s : State) (a : Agent) (c : Nat) (p : Place) : (s.dropAhead a c p).softLines = s.softLines := by simp only [State.dropAhead]; split <;> rfl
@[simp] theorem State.dropAhead_macs (s : State) (a : Agent) (c : Nat) (p : Place) : (s.dropAhead a c p).macs = s.macs := by simp only [State.dropAhead]; split <;> rfl
@[simp] theorem State.dropAhead_blockCtrs (s : State) (a : Agent) (c : Nat) (p : Place) : (s.dropAhead a c p).blockCtrs = s.blockCtrs := by simp only [State.dropAhead]; split <;> rfl
@[simp] theorem State.dropAhead_treeCtrs (s : State) (a : Agent) (c : Nat) (p : Place) : (s.dropAhead a c p).treeCtrs = s.treeCtrs := by simp only [State.dropAhead]; split <;> rfl
@[simp] theorem State.dropAhead_badNodes (s : State) (a : Agent) (c : Nat) (p : Place) : (s.dropAhead a c p).badNodes = s.badNodes := by simp only [State.dropAhead]; split <;> rfl
@[simp] theorem State.dropAhead_trkctl (s : State) (a : Agent) (c : Nat) (p : Place) : (s.dropAhead a c p).trkctl = s.trkctl := by simp only [State.dropAhead]; split <;> rfl
@[simp] theorem State.dropAhead_trackers (s : State) (a : Agent) (c : Nat) (p : Place) : (s.dropAhead a c p).trackers = s.trackers := by simp only [State.dropAhead]; split <;> rfl
@[simp] theorem State.dropAhead_epochAt (s : State) (a : Agent) (c : Nat) (p : Place) : (s.dropAhead a c p).epochAt = s.epochAt := by simp only [State.dropAhead]; split <;> rfl
@[simp] theorem State.dropAhead_promoQ (s : State) (a : Agent) (c : Nat) (p : Place) : (s.dropAhead a c p).promoQ = s.promoQ := by simp only [State.dropAhead]; split <;> rfl
@[simp] theorem State.dropAhead_promos (s : State) (a : Agent) (c : Nat) (p : Place) : (s.dropAhead a c p).promos = s.promos := by simp only [State.dropAhead]; split <;> rfl
@[simp] theorem State.dropAhead_returnsDue (s : State) (a : Agent) (c : Nat) (p : Place) : (s.dropAhead a c p).returnsDue = s.returnsDue := by simp only [State.dropAhead]; split <;> rfl
@[simp] theorem State.dropAhead_events (s : State) (a : Agent) (c : Nat) (p : Place) : (s.dropAhead a c p).events = s.events := by simp only [State.dropAhead]; split <;> rfl
@[simp] theorem State.dropAhead_meters (s : State) (a : Agent) (c : Nat) (p : Place) : (s.dropAhead a c p).meters = s.meters := by simp only [State.dropAhead]; split <;> rfl
@[simp] theorem State.dropAhead_posts (s : State) (a : Agent) (c : Nat) (p : Place) : (s.dropAhead a c p).posts = s.posts := by simp only [State.dropAhead]; split <;> rfl
@[simp] theorem State.dropAhead_slots (s : State) (a : Agent) (c : Nat) (p : Place) : (s.dropAhead a c p).slots = s.slots := by simp only [State.dropAhead]; split <;> rfl
@[simp] theorem State.dropAhead_sysentry (s : State) (a : Agent) (c : Nat) (p : Place) : (s.dropAhead a c p).sysentry = s.sysentry := by simp only [State.dropAhead]; split <;> rfl
@[simp] theorem State.dropAhead_sysivec (s : State) (a : Agent) (c : Nat) (p : Place) : (s.dropAhead a c p).sysivec = s.sysivec := by simp only [State.dropAhead]; split <;> rfl
@[simp] theorem State.dropAhead_sysgo (s : State) (a : Agent) (c : Nat) (p : Place) : (s.dropAhead a c p).sysgo = s.sysgo := by simp only [State.dropAhead]; split <;> rfl
@[simp] theorem State.dropAhead_launches (s : State) (a : Agent) (c : Nat) (p : Place) : (s.dropAhead a c p).launches = s.launches := by simp only [State.dropAhead]; split <;> rfl
@[simp] theorem State.dropAhead_headland (s : State) (a : Agent) (c : Nat) (p : Place) : (s.dropAhead a c p).headland = s.headland := by simp only [State.dropAhead]; split <;> rfl
@[simp] theorem State.dropAhead_headAbove (s : State) (a : Agent) (c : Nat) (p : Place) : (s.dropAhead a c p).headAbove = s.headAbove := by simp only [State.dropAhead]; split <;> rfl
@[simp] theorem State.dropAhead_notices (s : State) (a : Agent) (c : Nat) (p : Place) : (s.dropAhead a c p).notices = s.notices := by simp only [State.dropAhead]; split <;> rfl
@[simp] theorem State.dropAhead_normalQ (s : State) (a : Agent) (c : Nat) (p : Place) : (s.dropAhead a c p).normalQ = s.normalQ := by simp only [State.dropAhead]; split <;> rfl
@[simp] theorem State.dropAhead_commQ (s : State) (a : Agent) (c : Nat) (p : Place) : (s.dropAhead a c p).commQ = s.commQ := by simp only [State.dropAhead]; split <;> rfl
@[simp] theorem State.dropAhead_sowing (s : State) (a : Agent) (c : Nat) (p : Place) : (s.dropAhead a c p).sowing = s.sowing := by simp only [State.dropAhead]; split <;> rfl
@[simp] theorem State.dropAhead_hi (s : State) (a : Agent) (c : Nat) (p : Place) : (s.dropAhead a c p).hi = s.hi := by simp only [State.dropAhead]; split <;> rfl
@[simp] theorem State.dropAhead_lo (s : State) (a : Agent) (c : Nat) (p : Place) : (s.dropAhead a c p).lo = s.lo := by simp only [State.dropAhead]; split <;> rfl
@[simp] theorem State.dropAhead_reserve (s : State) (a : Agent) (c : Nat) (p : Place) : (s.dropAhead a c p).reserve = s.reserve := by simp only [State.dropAhead]; split <;> rfl
@[simp] theorem State.dropAhead_reserveAt (s : State) (a : Agent) (c : Nat) (p : Place) : (s.dropAhead a c p).reserveAt = s.reserveAt := by simp only [State.dropAhead]; split <;> rfl
@[simp] theorem State.dropAhead_lost (s : State) (a : Agent) (c : Nat) (p : Place) : (s.dropAhead a c p).lost = s.lost := by simp only [State.dropAhead]; split <;> rfl
@[simp] theorem State.dropAhead_nextLoss (s : State) (a : Agent) (c : Nat) (p : Place) : (s.dropAhead a c p).nextLoss = s.nextLoss := by simp only [State.dropAhead]; split <;> rfl
@[simp] theorem State.dropAhead_nextDup (s : State) (a : Agent) (c : Nat) (p : Place) : (s.dropAhead a c p).nextDup = s.nextDup := by simp only [State.dropAhead]; split <;> rfl
@[simp] theorem State.dropAhead_boot (s : State) (a : Agent) (c : Nat) (p : Place) : (s.dropAhead a c p).boot = s.boot := by simp only [State.dropAhead]; split <;> rfl
@[simp] theorem State.dropAhead_devidx (s : State) (a : Agent) (c : Nat) (p : Place) : (s.dropAhead a c p).devidx = s.devidx := by simp only [State.dropAhead]; split <;> rfl
@[simp] theorem State.dropAhead_sysroot (s : State) (a : Agent) (c : Nat) (p : Place) : (s.dropAhead a c p).sysroot = s.sysroot := by simp only [State.dropAhead]; split <;> rfl
@[simp] theorem State.dropAhead_roots (s : State) (a : Agent) (c : Nat) (p : Place) : (s.dropAhead a c p).roots = s.roots := by simp only [State.dropAhead]; split <;> rfl
@[simp] theorem State.dropAhead_clusterTlb (s : State) (a : Agent) (c : Nat) (p : Place) : (s.dropAhead a c p).clusterTlb = s.clusterTlb := by simp only [State.dropAhead]; split <;> rfl
@[simp] theorem State.dropAhead_ptrCache (s : State) (a : Agent) (c : Nat) (p : Place) : (s.dropAhead a c p).ptrCache = s.ptrCache := by simp only [State.dropAhead]; split <;> rfl
@[simp] theorem State.dropAhead_walkQ (s : State) (a : Agent) (c : Nat) (p : Place) : (s.dropAhead a c p).walkQ = s.walkQ := by simp only [State.dropAhead]; split <;> rfl
@[simp] theorem State.dropAhead_walkMisses (s : State) (a : Agent) (c : Nat) (p : Place) : (s.dropAhead a c p).walkMisses = s.walkMisses := by simp only [State.dropAhead]; split <;> rfl
@[simp] theorem State.dropAhead_rowBufs (s : State) (a : Agent) (c : Nat) (p : Place) : (s.dropAhead a c p).rowBufs = s.rowBufs := by simp only [State.dropAhead]; split <;> rfl
@[simp] theorem State.dropAhead_dups (s : State) (a : Agent) (c : Nat) (p : Place) : (s.dropAhead a c p).dups = s.dups := by simp only [State.dropAhead]; split <;> rfl
@[simp] theorem State.dropAhead_tableOps (s : State) (a : Agent) (c : Nat) (p : Place) : (s.dropAhead a c p).tableOps = s.tableOps := by simp only [State.dropAhead]; split <;> rfl
@[simp] theorem State.dropAhead_segments (s : State) (a : Agent) (c : Nat) (p : Place) : (s.dropAhead a c p).segments = s.segments := by simp only [State.dropAhead]; split <;> rfl
@[simp] theorem State.dropAhead_keys (s : State) (a : Agent) (c : Nat) (p : Place) : (s.dropAhead a c p).keys = s.keys := by simp only [State.dropAhead]; split <;> rfl
@[simp] theorem State.dropAhead_tickets (s : State) (a : Agent) (c : Nat) (p : Place) : (s.dropAhead a c p).tickets = s.tickets := by simp only [State.dropAhead]; split <;> rfl
@[simp] theorem State.dropAhead_seqs (s : State) (a : Agent) (c : Nat) (p : Place) : (s.dropAhead a c p).seqs = s.seqs := by simp only [State.dropAhead]; split <;> rfl
@[simp] theorem State.dropAhead_heldPackets (s : State) (a : Agent) (c : Nat) (p : Place) : (s.dropAhead a c p).heldPackets = s.heldPackets := by simp only [State.dropAhead]; split <;> rfl
@[simp] theorem State.dropAhead_steadingQ (s : State) (a : Agent) (c : Nat) (p : Place) : (s.dropAhead a c p).steadingQ = s.steadingQ := by simp only [State.dropAhead]; split <;> rfl
@[simp] theorem State.dropAhead_steadingProd (s : State) (a : Agent) (c : Nat) (p : Place) : (s.dropAhead a c p).steadingProd = s.steadingProd := by simp only [State.dropAhead]; split <;> rfl
@[simp] theorem State.dropAhead_steadingCons (s : State) (a : Agent) (c : Nat) (p : Place) : (s.dropAhead a c p).steadingCons = s.steadingCons := by simp only [State.dropAhead]; split <;> rfl
@[simp] theorem State.dropAhead_trapBase (s : State) (a : Agent) (c : Nat) (p : Place) : (s.dropAhead a c p).trapBase = s.trapBase := by simp only [State.dropAhead]; split <;> rfl
@[simp] theorem State.dropAhead_domain (s : State) (a : Agent) (c : Nat) (p : Place) : (s.dropAhead a c p).domain = s.domain := by simp only [State.dropAhead]; split <;> rfl
@[simp] theorem State.dropAhead_epoch (s : State) (a : Agent) (c : Nat) (p : Place) : (s.dropAhead a c p).epoch = s.epoch := by simp only [State.dropAhead]; split <;> rfl
@[simp] theorem State.dropAhead_barrier (s : State) (a : Agent) (c : Nat) (p : Place) : (s.dropAhead a c p).barrier = s.barrier := by simp only [State.dropAhead]; split <;> rfl
@[simp] theorem State.dropAhead_streams (s : State) (a : Agent) (c : Nat) (p : Place) : (s.dropAhead a c p).streams = s.streams := by simp only [State.dropAhead]; split <;> rfl
@[simp] theorem State.dropAhead_sent (s : State) (a : Agent) (c : Nat) (p : Place) : (s.dropAhead a c p).sent = s.sent := by simp only [State.dropAhead]; split <;> rfl
@[simp] theorem State.dropAhead_refused (s : State) (a : Agent) (c : Nat) (p : Place) : (s.dropAhead a c p).refused = s.refused := by simp only [State.dropAhead]; split <;> rfl
@[simp] theorem State.dropAhead_gathers (s : State) (a : Agent) (c : Nat) (p : Place) : (s.dropAhead a c p).gathers = s.gathers := by simp only [State.dropAhead]; split <;> rfl
@[simp] theorem State.dropAhead_colls (s : State) (a : Agent) (c : Nat) (p : Place) : (s.dropAhead a c p).colls = s.colls := by simp only [State.dropAhead]; split <;> rfl
@[simp] theorem State.dropAhead_collBufs (s : State) (a : Agent) (c : Nat) (p : Place) : (s.dropAhead a c p).collBufs = s.collBufs := by simp only [State.dropAhead]; split <;> rfl
@[simp] theorem State.dropAhead_portTurns (s : State) (a : Agent) (c : Nat) (p : Place) : (s.dropAhead a c p).portTurns = s.portTurns := by simp only [State.dropAhead]; split <;> rfl
@[simp] theorem State.dropAhead_comms (s : State) (a : Agent) (c : Nat) (p : Place) : (s.dropAhead a c p).comms = s.comms := by simp only [State.dropAhead]; split <;> rfl
@[simp] theorem State.dropAhead_schedule (s : State) (a : Agent) (c : Nat) (p : Place) : (s.dropAhead a c p).schedule = s.schedule := by simp only [State.dropAhead]; split <;> rfl
@[simp] theorem State.dropAhead_nextSchedule (s : State) (a : Agent) (c : Nat) (p : Place) : (s.dropAhead a c p).nextSchedule = s.nextSchedule := by simp only [State.dropAhead]; split <;> rfl
@[simp] theorem State.dropAhead_joined (s : State) (a : Agent) (c : Nat) (p : Place) : (s.dropAhead a c p).joined = s.joined := by simp only [State.dropAhead]; split <;> rfl
@[simp] theorem State.dropAhead_bootStep (s : State) (a : Agent) (c : Nat) (p : Place) : (s.dropAhead a c p).bootStep = s.bootStep := by simp only [State.dropAhead]; split <;> rfl
@[simp] theorem State.dropAhead_recovering (s : State) (a : Agent) (c : Nat) (p : Place) : (s.dropAhead a c p).recovering = s.recovering := by simp only [State.dropAhead]; split <;> rfl
@[simp] theorem State.dropAhead_recoveryWin (s : State) (a : Agent) (c : Nat) (p : Place) : (s.dropAhead a c p).recoveryWin = s.recoveryWin := by simp only [State.dropAhead]; split <;> rfl
@[simp] theorem State.dropAhead_firmware (s : State) (a : Agent) (c : Nat) (p : Place) : (s.dropAhead a c p).firmware = s.firmware := by simp only [State.dropAhead]; split <;> rfl
@[simp] theorem State.dropAhead_nextFirmware (s : State) (a : Agent) (c : Nat) (p : Place) : (s.dropAhead a c p).nextFirmware = s.nextFirmware := by simp only [State.dropAhead]; split <;> rfl
@[simp] theorem State.dropAhead_retired (s : State) (a : Agent) (c : Nat) (p : Place) : (s.dropAhead a c p).retired = s.retired := by simp only [State.dropAhead]; split <;> rfl
@[simp] theorem State.dropAhead_margins (s : State) (a : Agent) (c : Nat) (p : Place) : (s.dropAhead a c p).margins = s.margins := by simp only [State.dropAhead]; split <;> rfl
@[simp] theorem State.dropAhead_voltages (s : State) (a : Agent) (c : Nat) (p : Place) : (s.dropAhead a c p).voltages = s.voltages := by simp only [State.dropAhead]; split <;> rfl
@[simp] theorem State.dropAhead_trapUnits (s : State) (a : Agent) (c : Nat) (p : Place) : (s.dropAhead a c p).trapUnits = s.trapUnits := by simp only [State.dropAhead]; split <;> rfl
@[simp] theorem State.dropAhead_snapshots (s : State) (a : Agent) (c : Nat) (p : Place) : (s.dropAhead a c p).snapshots = s.snapshots := by simp only [State.dropAhead]; split <;> rfl
@[simp] theorem State.dropAhead_reply (s : State) (a : Agent) (c : Nat) (p : Place) : (s.dropAhead a c p).reply = s.reply := by simp only [State.dropAhead]; split <;> rfl
@[simp] theorem State.dropAhead_drills (s : State) (a : Agent) (c : Nat) (p : Place) : (s.dropAhead a c p).drills = s.drills := by simp only [State.dropAhead]; split <;> rfl
@[simp] theorem State.dropAhead_drillMem (s : State) (a : Agent) (c : Nat) (p : Place) : (s.dropAhead a c p).drillMem = s.drillMem := by simp only [State.dropAhead]; split <;> rfl
@[simp] theorem State.dropAhead_wardens (s : State) (a : Agent) (c : Nat) (p : Place) : (s.dropAhead a c p).wardens = s.wardens := by simp only [State.dropAhead]; split <;> rfl
@[simp] theorem State.dropAhead_wardenMem (s : State) (a : Agent) (c : Nat) (p : Place) : (s.dropAhead a c p).wardenMem = s.wardenMem := by simp only [State.dropAhead]; split <;> rfl

-- State.dropAnswers: only accesses on their way and their answers
@[simp] theorem State.dropAnswers_cur (s : State) : (s.dropAnswers).cur = s.cur := by simp only [State.dropAnswers]; split <;> rfl
@[simp] theorem State.dropAnswers_turns (s : State) : (s.dropAnswers).turns = s.turns := by simp only [State.dropAnswers]; split <;> rfl
@[simp] theorem State.dropAnswers_auto (s : State) : (s.dropAnswers).auto = s.auto := by simp only [State.dropAnswers]; split <;> rfl
@[simp] theorem State.dropAnswers_ticks (s : State) : (s.dropAnswers).ticks = s.ticks := by simp only [State.dropAnswers]; split <;> rfl
@[simp] theorem State.dropAnswers_draws (s : State) : (s.dropAnswers).draws = s.draws := by simp only [State.dropAnswers]; split <;> rfl
@[simp] theorem State.dropAnswers_time (s : State) : (s.dropAnswers).time = s.time := by simp only [State.dropAnswers]; split <;> rfl
@[simp] theorem State.dropAnswers_clock (s : State) : (s.dropAnswers).clock = s.clock := by simp only [State.dropAnswers]; split <;> rfl
@[simp] theorem State.dropAnswers_harts (s : State) : (s.dropAnswers).harts = s.harts := by simp only [State.dropAnswers]; split <;> rfl
@[simp] theorem State.dropAnswers_cores (s : State) : (s.dropAnswers).cores = s.cores := by simp only [State.dropAnswers]; split <;> rfl
@[simp] theorem State.dropAnswers_units (s : State) : (s.dropAnswers).units = s.units := by simp only [State.dropAnswers]; split <;> rfl
@[simp] theorem State.dropAnswers_ringNet (s : State) : (s.dropAnswers).ringNet = s.ringNet := by simp only [State.dropAnswers]; split <;> rfl
@[simp] theorem State.dropAnswers_spad (s : State) : (s.dropAnswers).spad = s.spad := by simp only [State.dropAnswers]; split <;> rfl
@[simp] theorem State.dropAnswers_mem (s : State) : (s.dropAnswers).mem = s.mem := by simp only [State.dropAnswers]; split <;> rfl
@[simp] theorem State.dropAnswers_badLines (s : State) : (s.dropAnswers).badLines = s.badLines := by simp only [State.dropAnswers]; split <;> rfl
@[simp] theorem State.dropAnswers_softLines (s : State) : (s.dropAnswers).softLines = s.softLines := by simp only [State.dropAnswers]; split <;> rfl
@[simp] theorem State.dropAnswers_macs (s : State) : (s.dropAnswers).macs = s.macs := by simp only [State.dropAnswers]; split <;> rfl
@[simp] theorem State.dropAnswers_blockCtrs (s : State) : (s.dropAnswers).blockCtrs = s.blockCtrs := by simp only [State.dropAnswers]; split <;> rfl
@[simp] theorem State.dropAnswers_treeCtrs (s : State) : (s.dropAnswers).treeCtrs = s.treeCtrs := by simp only [State.dropAnswers]; split <;> rfl
@[simp] theorem State.dropAnswers_badNodes (s : State) : (s.dropAnswers).badNodes = s.badNodes := by simp only [State.dropAnswers]; split <;> rfl
@[simp] theorem State.dropAnswers_trkctl (s : State) : (s.dropAnswers).trkctl = s.trkctl := by simp only [State.dropAnswers]; split <;> rfl
@[simp] theorem State.dropAnswers_trackers (s : State) : (s.dropAnswers).trackers = s.trackers := by simp only [State.dropAnswers]; split <;> rfl
@[simp] theorem State.dropAnswers_epochAt (s : State) : (s.dropAnswers).epochAt = s.epochAt := by simp only [State.dropAnswers]; split <;> rfl
@[simp] theorem State.dropAnswers_promoQ (s : State) : (s.dropAnswers).promoQ = s.promoQ := by simp only [State.dropAnswers]; split <;> rfl
@[simp] theorem State.dropAnswers_promos (s : State) : (s.dropAnswers).promos = s.promos := by simp only [State.dropAnswers]; split <;> rfl
@[simp] theorem State.dropAnswers_returnsDue (s : State) : (s.dropAnswers).returnsDue = s.returnsDue := by simp only [State.dropAnswers]; split <;> rfl
@[simp] theorem State.dropAnswers_events (s : State) : (s.dropAnswers).events = s.events := by simp only [State.dropAnswers]; split <;> rfl
@[simp] theorem State.dropAnswers_meters (s : State) : (s.dropAnswers).meters = s.meters := by simp only [State.dropAnswers]; split <;> rfl
@[simp] theorem State.dropAnswers_posts (s : State) : (s.dropAnswers).posts = s.posts := by simp only [State.dropAnswers]; split <;> rfl
@[simp] theorem State.dropAnswers_slots (s : State) : (s.dropAnswers).slots = s.slots := by simp only [State.dropAnswers]; split <;> rfl
@[simp] theorem State.dropAnswers_sysentry (s : State) : (s.dropAnswers).sysentry = s.sysentry := by simp only [State.dropAnswers]; split <;> rfl
@[simp] theorem State.dropAnswers_sysivec (s : State) : (s.dropAnswers).sysivec = s.sysivec := by simp only [State.dropAnswers]; split <;> rfl
@[simp] theorem State.dropAnswers_sysgo (s : State) : (s.dropAnswers).sysgo = s.sysgo := by simp only [State.dropAnswers]; split <;> rfl
@[simp] theorem State.dropAnswers_launches (s : State) : (s.dropAnswers).launches = s.launches := by simp only [State.dropAnswers]; split <;> rfl
@[simp] theorem State.dropAnswers_headland (s : State) : (s.dropAnswers).headland = s.headland := by simp only [State.dropAnswers]; split <;> rfl
@[simp] theorem State.dropAnswers_headAbove (s : State) : (s.dropAnswers).headAbove = s.headAbove := by simp only [State.dropAnswers]; split <;> rfl
@[simp] theorem State.dropAnswers_notices (s : State) : (s.dropAnswers).notices = s.notices := by simp only [State.dropAnswers]; split <;> rfl
@[simp] theorem State.dropAnswers_normalQ (s : State) : (s.dropAnswers).normalQ = s.normalQ := by simp only [State.dropAnswers]; split <;> rfl
@[simp] theorem State.dropAnswers_commQ (s : State) : (s.dropAnswers).commQ = s.commQ := by simp only [State.dropAnswers]; split <;> rfl
@[simp] theorem State.dropAnswers_sowing (s : State) : (s.dropAnswers).sowing = s.sowing := by simp only [State.dropAnswers]; split <;> rfl
@[simp] theorem State.dropAnswers_hi (s : State) : (s.dropAnswers).hi = s.hi := by simp only [State.dropAnswers]; split <;> rfl
@[simp] theorem State.dropAnswers_lo (s : State) : (s.dropAnswers).lo = s.lo := by simp only [State.dropAnswers]; split <;> rfl
@[simp] theorem State.dropAnswers_reserve (s : State) : (s.dropAnswers).reserve = s.reserve := by simp only [State.dropAnswers]; split <;> rfl
@[simp] theorem State.dropAnswers_reserveAt (s : State) : (s.dropAnswers).reserveAt = s.reserveAt := by simp only [State.dropAnswers]; split <;> rfl
@[simp] theorem State.dropAnswers_lost (s : State) : (s.dropAnswers).lost = s.lost := by simp only [State.dropAnswers]; split <;> rfl
@[simp] theorem State.dropAnswers_nextLoss (s : State) : (s.dropAnswers).nextLoss = s.nextLoss := by simp only [State.dropAnswers]; split <;> rfl
@[simp] theorem State.dropAnswers_nextDup (s : State) : (s.dropAnswers).nextDup = s.nextDup := by simp only [State.dropAnswers]; split <;> rfl
@[simp] theorem State.dropAnswers_boot (s : State) : (s.dropAnswers).boot = s.boot := by simp only [State.dropAnswers]; split <;> rfl
@[simp] theorem State.dropAnswers_devidx (s : State) : (s.dropAnswers).devidx = s.devidx := by simp only [State.dropAnswers]; split <;> rfl
@[simp] theorem State.dropAnswers_sysroot (s : State) : (s.dropAnswers).sysroot = s.sysroot := by simp only [State.dropAnswers]; split <;> rfl
@[simp] theorem State.dropAnswers_roots (s : State) : (s.dropAnswers).roots = s.roots := by simp only [State.dropAnswers]; split <;> rfl
@[simp] theorem State.dropAnswers_clusterTlb (s : State) : (s.dropAnswers).clusterTlb = s.clusterTlb := by simp only [State.dropAnswers]; split <;> rfl
@[simp] theorem State.dropAnswers_ptrCache (s : State) : (s.dropAnswers).ptrCache = s.ptrCache := by simp only [State.dropAnswers]; split <;> rfl
@[simp] theorem State.dropAnswers_walkQ (s : State) : (s.dropAnswers).walkQ = s.walkQ := by simp only [State.dropAnswers]; split <;> rfl
@[simp] theorem State.dropAnswers_walkMisses (s : State) : (s.dropAnswers).walkMisses = s.walkMisses := by simp only [State.dropAnswers]; split <;> rfl
@[simp] theorem State.dropAnswers_rowBufs (s : State) : (s.dropAnswers).rowBufs = s.rowBufs := by simp only [State.dropAnswers]; split <;> rfl
@[simp] theorem State.dropAnswers_dups (s : State) : (s.dropAnswers).dups = s.dups := by simp only [State.dropAnswers]; split <;> rfl
@[simp] theorem State.dropAnswers_tableOps (s : State) : (s.dropAnswers).tableOps = s.tableOps := by simp only [State.dropAnswers]; split <;> rfl
@[simp] theorem State.dropAnswers_segments (s : State) : (s.dropAnswers).segments = s.segments := by simp only [State.dropAnswers]; split <;> rfl
@[simp] theorem State.dropAnswers_keys (s : State) : (s.dropAnswers).keys = s.keys := by simp only [State.dropAnswers]; split <;> rfl
@[simp] theorem State.dropAnswers_tickets (s : State) : (s.dropAnswers).tickets = s.tickets := by simp only [State.dropAnswers]; split <;> rfl
@[simp] theorem State.dropAnswers_seqs (s : State) : (s.dropAnswers).seqs = s.seqs := by simp only [State.dropAnswers]; split <;> rfl
@[simp] theorem State.dropAnswers_heldPackets (s : State) : (s.dropAnswers).heldPackets = s.heldPackets := by simp only [State.dropAnswers]; split <;> rfl
@[simp] theorem State.dropAnswers_steadingQ (s : State) : (s.dropAnswers).steadingQ = s.steadingQ := by simp only [State.dropAnswers]; split <;> rfl
@[simp] theorem State.dropAnswers_steadingProd (s : State) : (s.dropAnswers).steadingProd = s.steadingProd := by simp only [State.dropAnswers]; split <;> rfl
@[simp] theorem State.dropAnswers_steadingCons (s : State) : (s.dropAnswers).steadingCons = s.steadingCons := by simp only [State.dropAnswers]; split <;> rfl
@[simp] theorem State.dropAnswers_trapBase (s : State) : (s.dropAnswers).trapBase = s.trapBase := by simp only [State.dropAnswers]; split <;> rfl
@[simp] theorem State.dropAnswers_domain (s : State) : (s.dropAnswers).domain = s.domain := by simp only [State.dropAnswers]; split <;> rfl
@[simp] theorem State.dropAnswers_epoch (s : State) : (s.dropAnswers).epoch = s.epoch := by simp only [State.dropAnswers]; split <;> rfl
@[simp] theorem State.dropAnswers_barrier (s : State) : (s.dropAnswers).barrier = s.barrier := by simp only [State.dropAnswers]; split <;> rfl
@[simp] theorem State.dropAnswers_streams (s : State) : (s.dropAnswers).streams = s.streams := by simp only [State.dropAnswers]; split <;> rfl
@[simp] theorem State.dropAnswers_sent (s : State) : (s.dropAnswers).sent = s.sent := by simp only [State.dropAnswers]; split <;> rfl
@[simp] theorem State.dropAnswers_refused (s : State) : (s.dropAnswers).refused = s.refused := by simp only [State.dropAnswers]; split <;> rfl
@[simp] theorem State.dropAnswers_gathers (s : State) : (s.dropAnswers).gathers = s.gathers := by simp only [State.dropAnswers]; split <;> rfl
@[simp] theorem State.dropAnswers_colls (s : State) : (s.dropAnswers).colls = s.colls := by simp only [State.dropAnswers]; split <;> rfl
@[simp] theorem State.dropAnswers_collBufs (s : State) : (s.dropAnswers).collBufs = s.collBufs := by simp only [State.dropAnswers]; split <;> rfl
@[simp] theorem State.dropAnswers_portTurns (s : State) : (s.dropAnswers).portTurns = s.portTurns := by simp only [State.dropAnswers]; split <;> rfl
@[simp] theorem State.dropAnswers_comms (s : State) : (s.dropAnswers).comms = s.comms := by simp only [State.dropAnswers]; split <;> rfl
@[simp] theorem State.dropAnswers_schedule (s : State) : (s.dropAnswers).schedule = s.schedule := by simp only [State.dropAnswers]; split <;> rfl
@[simp] theorem State.dropAnswers_nextSchedule (s : State) : (s.dropAnswers).nextSchedule = s.nextSchedule := by simp only [State.dropAnswers]; split <;> rfl
@[simp] theorem State.dropAnswers_joined (s : State) : (s.dropAnswers).joined = s.joined := by simp only [State.dropAnswers]; split <;> rfl
@[simp] theorem State.dropAnswers_bootStep (s : State) : (s.dropAnswers).bootStep = s.bootStep := by simp only [State.dropAnswers]; split <;> rfl
@[simp] theorem State.dropAnswers_recovering (s : State) : (s.dropAnswers).recovering = s.recovering := by simp only [State.dropAnswers]; split <;> rfl
@[simp] theorem State.dropAnswers_recoveryWin (s : State) : (s.dropAnswers).recoveryWin = s.recoveryWin := by simp only [State.dropAnswers]; split <;> rfl
@[simp] theorem State.dropAnswers_firmware (s : State) : (s.dropAnswers).firmware = s.firmware := by simp only [State.dropAnswers]; split <;> rfl
@[simp] theorem State.dropAnswers_nextFirmware (s : State) : (s.dropAnswers).nextFirmware = s.nextFirmware := by simp only [State.dropAnswers]; split <;> rfl
@[simp] theorem State.dropAnswers_retired (s : State) : (s.dropAnswers).retired = s.retired := by simp only [State.dropAnswers]; split <;> rfl
@[simp] theorem State.dropAnswers_margins (s : State) : (s.dropAnswers).margins = s.margins := by simp only [State.dropAnswers]; split <;> rfl
@[simp] theorem State.dropAnswers_voltages (s : State) : (s.dropAnswers).voltages = s.voltages := by simp only [State.dropAnswers]; split <;> rfl
@[simp] theorem State.dropAnswers_trapUnits (s : State) : (s.dropAnswers).trapUnits = s.trapUnits := by simp only [State.dropAnswers]; split <;> rfl
@[simp] theorem State.dropAnswers_snapshots (s : State) : (s.dropAnswers).snapshots = s.snapshots := by simp only [State.dropAnswers]; split <;> rfl
@[simp] theorem State.dropAnswers_reply (s : State) : (s.dropAnswers).reply = s.reply := by simp only [State.dropAnswers]; split <;> rfl
@[simp] theorem State.dropAnswers_drills (s : State) : (s.dropAnswers).drills = s.drills := by simp only [State.dropAnswers]; split <;> rfl
@[simp] theorem State.dropAnswers_drillMem (s : State) : (s.dropAnswers).drillMem = s.drillMem := by simp only [State.dropAnswers]; split <;> rfl
@[simp] theorem State.dropAnswers_wardens (s : State) : (s.dropAnswers).wardens = s.wardens := by simp only [State.dropAnswers]; split <;> rfl
@[simp] theorem State.dropAnswers_wardenMem (s : State) : (s.dropAnswers).wardenMem = s.wardenMem := by simp only [State.dropAnswers]; split <;> rfl

-- Hart updates

-- Hart.setPc
@[simp] theorem Hart.setPc_x (h : Hart) (a : W64) : (h.setPc a).x = h.x := rfl
@[simp] theorem Hart.setPc_v (h : Hart) (a : W64) : (h.setPc a).v = h.v := rfl
@[simp] theorem Hart.setPc_p (h : Hart) (a : W64) : (h.setPc a).p = h.p := rfl
@[simp] theorem Hart.setPc_branchQ (h : Hart) (a : W64) : (h.setPc a).branchQ = h.branchQ := rfl
@[simp] theorem Hart.setPc_copyAE (h : Hart) (a : W64) : (h.setPc a).copyAE = h.copyAE := rfl
@[simp] theorem Hart.setPc_copyEA (h : Hart) (a : W64) : (h.setPc a).copyEA = h.copyEA := rfl
@[simp] theorem Hart.setPc_lag (h : Hart) (a : W64) : (h.setPc a).lag = h.lag := rfl
@[simp] theorem Hart.setPc_erep (h : Hart) (a : W64) : (h.setPc a).erep = h.erep := rfl
@[simp] theorem Hart.setPc_feed (h : Hart) (a : W64) : (h.setPc a).feed = h.feed := rfl
@[simp] theorem Hart.setPc_pend (h : Hart) (a : W64) : (h.setPc a).pend = h.pend := rfl
@[simp] theorem Hart.setPc_nextPend (h : Hart) (a : W64) : (h.setPc a).nextPend = h.nextPend := rfl
@[simp] theorem Hart.setPc_xlating (h : Hart) (a : W64) : (h.setPc a).xlating = h.xlating := rfl
@[simp] theorem Hart.setPc_aheadVpn (h : Hart) (a : W64) : (h.setPc a).aheadVpn = h.aheadVpn := rfl
@[simp] theorem Hart.setPc_status (h : Hart) (a : W64) : (h.setPc a).status = h.status := rfl
@[simp] theorem Hart.setPc_ipend (h : Hart) (a : W64) : (h.setPc a).ipend = h.ipend := rfl
@[simp] theorem Hart.setPc_ienab (h : Hart) (a : W64) : (h.setPc a).ienab = h.ienab := rfl
@[simp] theorem Hart.setPc_ivec (h : Hart) (a : W64) : (h.setPc a).ivec = h.ivec := rfl
@[simp] theorem Hart.setPc_ipc (h : Hart) (a : W64) : (h.setPc a).ipc = h.ipc := rfl
@[simp] theorem Hart.setPc_icause (h : Hart) (a : W64) : (h.setPc a).icause = h.icause := rfl
@[simp] theorem Hart.setPc_irep (h : Hart) (a : W64) : (h.setPc a).irep = h.irep := rfl
@[simp] theorem Hart.setPc_tcmp (h : Hart) (a : W64) : (h.setPc a).tcmp = h.tcmp := rfl
@[simp] theorem Hart.setPc_cmask (h : Hart) (a : W64) : (h.setPc a).cmask = h.cmask := rfl
@[simp] theorem Hart.setPc_dead (h : Hart) (a : W64) : (h.setPc a).dead = h.dead := rfl
@[simp] theorem Hart.setPc_repst (h : Hart) (a : W64) : (h.setPc a).repst = h.repst := rfl
@[simp] theorem Hart.setPc_budget (h : Hart) (a : W64) : (h.setPc a).budget = h.budget := rfl
@[simp] theorem Hart.setPc_deadline (h : Hart) (a : W64) : (h.setPc a).deadline = h.deadline := rfl
@[simp] theorem Hart.setPc_qbind (h : Hart) (a : W64) : (h.setPc a).qbind = h.qbind := rfl
@[simp] theorem Hart.setPc_roles (h : Hart) (a : W64) : (h.setPc a).roles = h.roles := rfl
@[simp] theorem Hart.setPc_spill (h : Hart) (a : W64) : (h.setPc a).spill = h.spill := rfl
@[simp] theorem Hart.setPc_spillMax (h : Hart) (a : W64) : (h.setPc a).spillMax = h.spillMax := rfl
@[simp] theorem Hart.setPc_dest (h : Hart) (a : W64) : (h.setPc a).dest = h.dest := rfl
@[simp] theorem Hart.setPc_rel (h : Hart) (a : W64) : (h.setPc a).rel = h.rel := rfl
@[simp] theorem Hart.setPc_refusals (h : Hart) (a : W64) : (h.setPc a).refusals = h.refusals := rfl
@[simp] theorem Hart.setPc_owed (h : Hart) (a : W64) : (h.setPc a).owed = h.owed := rfl
@[simp] theorem Hart.setPc_timerSeen (h : Hart) (a : W64) : (h.setPc a).timerSeen = h.timerSeen := rfl
@[simp] theorem Hart.setPc_running (h : Hart) (a : W64) : (h.setPc a).running = h.running := rfl
@[simp] theorem Hart.setPc_waiting (h : Hart) (a : W64) : (h.setPc a).waiting = h.waiting := rfl
@[simp] theorem Hart.setPc_inWfi (h : Hart) (a : W64) : (h.setPc a).inWfi = h.inWfi := rfl
@[simp] theorem Hart.setPc_sleep (h : Hart) (a : W64) : (h.setPc a).sleep = h.sleep := rfl
@[simp] theorem Hart.setPc_poweredDown (h : Hart) (a : W64) : (h.setPc a).poweredDown = h.poweredDown := rfl
@[simp] theorem Hart.setPc_inRel (h : Hart) (a : W64) : (h.setPc a).inRel = h.inRel := rfl
@[simp] theorem Hart.setPc_waited (h : Hart) (a : W64) : (h.setPc a).waited = h.waited := rfl
@[simp] theorem Hart.setPc_groupsDone (h : Hart) (a : W64) : (h.setPc a).groupsDone = h.groupsDone := rfl
@[simp] theorem Hart.setPc_spillSet (h : Hart) (a : W64) : (h.setPc a).spillSet = h.spillSet := rfl
@[simp] theorem Hart.setPc_frozen (h : Hart) (a : W64) : (h.setPc a).frozen = h.frozen := rfl
@[simp] theorem Hart.setPc_killNext (h : Hart) (a : W64) : (h.setPc a).killNext = h.killNext := rfl
@[simp] theorem Hart.setPc_cmd (h : Hart) (a : W64) : (h.setPc a).cmd = h.cmd := rfl
@[simp] theorem Hart.setPc_lastPacket (h : Hart) (a : W64) : (h.setPc a).lastPacket = h.lastPacket := rfl
@[simp] theorem Hart.setPc_slice (h : Hart) (a : W64) : (h.setPc a).slice = h.slice := rfl

-- Hart.join
@[simp] theorem Hart.join_x (h : Hart) : (h.join).x = h.x := rfl
@[simp] theorem Hart.join_v (h : Hart) : (h.join).v = h.v := rfl
@[simp] theorem Hart.join_p (h : Hart) : (h.join).p = h.p := rfl
@[simp] theorem Hart.join_apc (h : Hart) : (h.join).apc = h.apc := rfl
@[simp] theorem Hart.join_erep (h : Hart) : (h.join).erep = h.erep := rfl
@[simp] theorem Hart.join_feed (h : Hart) : (h.join).feed = h.feed := rfl
@[simp] theorem Hart.join_nextPend (h : Hart) : (h.join).nextPend = h.nextPend := rfl
@[simp] theorem Hart.join_xlating (h : Hart) : (h.join).xlating = h.xlating := rfl
@[simp] theorem Hart.join_aheadVpn (h : Hart) : (h.join).aheadVpn = h.aheadVpn := rfl
@[simp] theorem Hart.join_status (h : Hart) : (h.join).status = h.status := rfl
@[simp] theorem Hart.join_ipend (h : Hart) : (h.join).ipend = h.ipend := rfl
@[simp] theorem Hart.join_ienab (h : Hart) : (h.join).ienab = h.ienab := rfl
@[simp] theorem Hart.join_ivec (h : Hart) : (h.join).ivec = h.ivec := rfl
@[simp] theorem Hart.join_ipc (h : Hart) : (h.join).ipc = h.ipc := rfl
@[simp] theorem Hart.join_icause (h : Hart) : (h.join).icause = h.icause := rfl
@[simp] theorem Hart.join_irep (h : Hart) : (h.join).irep = h.irep := rfl
@[simp] theorem Hart.join_tcmp (h : Hart) : (h.join).tcmp = h.tcmp := rfl
@[simp] theorem Hart.join_cmask (h : Hart) : (h.join).cmask = h.cmask := rfl
@[simp] theorem Hart.join_dead (h : Hart) : (h.join).dead = h.dead := rfl
@[simp] theorem Hart.join_repst (h : Hart) : (h.join).repst = h.repst := rfl
@[simp] theorem Hart.join_budget (h : Hart) : (h.join).budget = h.budget := rfl
@[simp] theorem Hart.join_deadline (h : Hart) : (h.join).deadline = h.deadline := rfl
@[simp] theorem Hart.join_qbind (h : Hart) : (h.join).qbind = h.qbind := rfl
@[simp] theorem Hart.join_roles (h : Hart) : (h.join).roles = h.roles := rfl
@[simp] theorem Hart.join_spill (h : Hart) : (h.join).spill = h.spill := rfl
@[simp] theorem Hart.join_spillMax (h : Hart) : (h.join).spillMax = h.spillMax := rfl
@[simp] theorem Hart.join_dest (h : Hart) : (h.join).dest = h.dest := rfl
@[simp] theorem Hart.join_rel (h : Hart) : (h.join).rel = h.rel := rfl
@[simp] theorem Hart.join_refusals (h : Hart) : (h.join).refusals = h.refusals := rfl
@[simp] theorem Hart.join_owed (h : Hart) : (h.join).owed = h.owed := rfl
@[simp] theorem Hart.join_timerSeen (h : Hart) : (h.join).timerSeen = h.timerSeen := rfl
@[simp] theorem Hart.join_running (h : Hart) : (h.join).running = h.running := rfl
@[simp] theorem Hart.join_waiting (h : Hart) : (h.join).waiting = h.waiting := rfl
@[simp] theorem Hart.join_inWfi (h : Hart) : (h.join).inWfi = h.inWfi := rfl
@[simp] theorem Hart.join_sleep (h : Hart) : (h.join).sleep = h.sleep := rfl
@[simp] theorem Hart.join_poweredDown (h : Hart) : (h.join).poweredDown = h.poweredDown := rfl
@[simp] theorem Hart.join_inRel (h : Hart) : (h.join).inRel = h.inRel := rfl
@[simp] theorem Hart.join_waited (h : Hart) : (h.join).waited = h.waited := rfl
@[simp] theorem Hart.join_groupsDone (h : Hart) : (h.join).groupsDone = h.groupsDone := rfl
@[simp] theorem Hart.join_spillSet (h : Hart) : (h.join).spillSet = h.spillSet := rfl
@[simp] theorem Hart.join_frozen (h : Hart) : (h.join).frozen = h.frozen := rfl
@[simp] theorem Hart.join_killNext (h : Hart) : (h.join).killNext = h.killNext := rfl
@[simp] theorem Hart.join_cmd (h : Hart) : (h.join).cmd = h.cmd := rfl
@[simp] theorem Hart.join_lastPacket (h : Hart) : (h.join).lastPacket = h.lastPacket := rfl
@[simp] theorem Hart.join_slice (h : Hart) : (h.join).slice = h.slice := rfl

-- Hart.awaken
@[simp] theorem Hart.awaken_x (h : Hart) : (h.awaken).x = h.x := rfl
@[simp] theorem Hart.awaken_v (h : Hart) : (h.awaken).v = h.v := rfl
@[simp] theorem Hart.awaken_p (h : Hart) : (h.awaken).p = h.p := rfl
@[simp] theorem Hart.awaken_apc (h : Hart) : (h.awaken).apc = h.apc := rfl
@[simp] theorem Hart.awaken_epc (h : Hart) : (h.awaken).epc = h.epc := rfl
@[simp] theorem Hart.awaken_branchQ (h : Hart) : (h.awaken).branchQ = h.branchQ := rfl
@[simp] theorem Hart.awaken_copyAE (h : Hart) : (h.awaken).copyAE = h.copyAE := rfl
@[simp] theorem Hart.awaken_copyEA (h : Hart) : (h.awaken).copyEA = h.copyEA := rfl
@[simp] theorem Hart.awaken_lag (h : Hart) : (h.awaken).lag = h.lag := rfl
@[simp] theorem Hart.awaken_erep (h : Hart) : (h.awaken).erep = h.erep := rfl
@[simp] theorem Hart.awaken_feed (h : Hart) : (h.awaken).feed = h.feed := rfl
@[simp] theorem Hart.awaken_pend (h : Hart) : (h.awaken).pend = h.pend := rfl
@[simp] theorem Hart.awaken_nextPend (h : Hart) : (h.awaken).nextPend = h.nextPend := rfl
@[simp] theorem Hart.awaken_aheadVpn (h : Hart) : (h.awaken).aheadVpn = h.aheadVpn := rfl
@[simp] theorem Hart.awaken_status (h : Hart) : (h.awaken).status = h.status := rfl
@[simp] theorem Hart.awaken_ipend (h : Hart) : (h.awaken).ipend = h.ipend := rfl
@[simp] theorem Hart.awaken_ienab (h : Hart) : (h.awaken).ienab = h.ienab := rfl
@[simp] theorem Hart.awaken_ivec (h : Hart) : (h.awaken).ivec = h.ivec := rfl
@[simp] theorem Hart.awaken_ipc (h : Hart) : (h.awaken).ipc = h.ipc := rfl
@[simp] theorem Hart.awaken_icause (h : Hart) : (h.awaken).icause = h.icause := rfl
@[simp] theorem Hart.awaken_irep (h : Hart) : (h.awaken).irep = h.irep := rfl
@[simp] theorem Hart.awaken_tcmp (h : Hart) : (h.awaken).tcmp = h.tcmp := rfl
@[simp] theorem Hart.awaken_cmask (h : Hart) : (h.awaken).cmask = h.cmask := rfl
@[simp] theorem Hart.awaken_dead (h : Hart) : (h.awaken).dead = h.dead := rfl
@[simp] theorem Hart.awaken_repst (h : Hart) : (h.awaken).repst = h.repst := rfl
@[simp] theorem Hart.awaken_budget (h : Hart) : (h.awaken).budget = h.budget := rfl
@[simp] theorem Hart.awaken_deadline (h : Hart) : (h.awaken).deadline = h.deadline := rfl
@[simp] theorem Hart.awaken_qbind (h : Hart) : (h.awaken).qbind = h.qbind := rfl
@[simp] theorem Hart.awaken_roles (h : Hart) : (h.awaken).roles = h.roles := rfl
@[simp] theorem Hart.awaken_spill (h : Hart) : (h.awaken).spill = h.spill := rfl
@[simp] theorem Hart.awaken_spillMax (h : Hart) : (h.awaken).spillMax = h.spillMax := rfl
@[simp] theorem Hart.awaken_dest (h : Hart) : (h.awaken).dest = h.dest := rfl
@[simp] theorem Hart.awaken_rel (h : Hart) : (h.awaken).rel = h.rel := rfl
@[simp] theorem Hart.awaken_refusals (h : Hart) : (h.awaken).refusals = h.refusals := rfl
@[simp] theorem Hart.awaken_owed (h : Hart) : (h.awaken).owed = h.owed := rfl
@[simp] theorem Hart.awaken_timerSeen (h : Hart) : (h.awaken).timerSeen = h.timerSeen := rfl
@[simp] theorem Hart.awaken_running (h : Hart) : (h.awaken).running = h.running := rfl
@[simp] theorem Hart.awaken_waited (h : Hart) : (h.awaken).waited = h.waited := rfl
@[simp] theorem Hart.awaken_spillSet (h : Hart) : (h.awaken).spillSet = h.spillSet := rfl
@[simp] theorem Hart.awaken_frozen (h : Hart) : (h.awaken).frozen = h.frozen := rfl
@[simp] theorem Hart.awaken_killNext (h : Hart) : (h.awaken).killNext = h.killNext := rfl
@[simp] theorem Hart.awaken_cmd (h : Hart) : (h.awaken).cmd = h.cmd := rfl
@[simp] theorem Hart.awaken_lastPacket (h : Hart) : (h.awaken).lastPacket = h.lastPacket := rfl
@[simp] theorem Hart.awaken_slice (h : Hart) : (h.awaken).slice = h.slice := rfl

-- Hart.revive
@[simp] theorem Hart.revive_x (h : Hart) (n : Nat) : (h.revive n).x = h.x := rfl
@[simp] theorem Hart.revive_v (h : Hart) (n : Nat) : (h.revive n).v = h.v := rfl
@[simp] theorem Hart.revive_p (h : Hart) (n : Nat) : (h.revive n).p = h.p := rfl
@[simp] theorem Hart.revive_apc (h : Hart) (n : Nat) : (h.revive n).apc = h.apc := rfl
@[simp] theorem Hart.revive_epc (h : Hart) (n : Nat) : (h.revive n).epc = h.epc := rfl
@[simp] theorem Hart.revive_branchQ (h : Hart) (n : Nat) : (h.revive n).branchQ = h.branchQ := rfl
@[simp] theorem Hart.revive_copyAE (h : Hart) (n : Nat) : (h.revive n).copyAE = h.copyAE := rfl
@[simp] theorem Hart.revive_copyEA (h : Hart) (n : Nat) : (h.revive n).copyEA = h.copyEA := rfl
@[simp] theorem Hart.revive_lag (h : Hart) (n : Nat) : (h.revive n).lag = h.lag := rfl
@[simp] theorem Hart.revive_erep (h : Hart) (n : Nat) : (h.revive n).erep = h.erep := rfl
@[simp] theorem Hart.revive_feed (h : Hart) (n : Nat) : (h.revive n).feed = h.feed := rfl
@[simp] theorem Hart.revive_pend (h : Hart) (n : Nat) : (h.revive n).pend = h.pend := rfl
@[simp] theorem Hart.revive_nextPend (h : Hart) (n : Nat) : (h.revive n).nextPend = h.nextPend := rfl
@[simp] theorem Hart.revive_xlating (h : Hart) (n : Nat) : (h.revive n).xlating = h.xlating := rfl
@[simp] theorem Hart.revive_aheadVpn (h : Hart) (n : Nat) : (h.revive n).aheadVpn = h.aheadVpn := rfl
@[simp] theorem Hart.revive_status (h : Hart) (n : Nat) : (h.revive n).status = h.status := rfl
@[simp] theorem Hart.revive_ipend (h : Hart) (n : Nat) : (h.revive n).ipend = h.ipend := rfl
@[simp] theorem Hart.revive_ienab (h : Hart) (n : Nat) : (h.revive n).ienab = h.ienab := rfl
@[simp] theorem Hart.revive_ivec (h : Hart) (n : Nat) : (h.revive n).ivec = h.ivec := rfl
@[simp] theorem Hart.revive_ipc (h : Hart) (n : Nat) : (h.revive n).ipc = h.ipc := rfl
@[simp] theorem Hart.revive_icause (h : Hart) (n : Nat) : (h.revive n).icause = h.icause := rfl
@[simp] theorem Hart.revive_irep (h : Hart) (n : Nat) : (h.revive n).irep = h.irep := rfl
@[simp] theorem Hart.revive_tcmp (h : Hart) (n : Nat) : (h.revive n).tcmp = h.tcmp := rfl
@[simp] theorem Hart.revive_cmask (h : Hart) (n : Nat) : (h.revive n).cmask = h.cmask := rfl
@[simp] theorem Hart.revive_repst (h : Hart) (n : Nat) : (h.revive n).repst = h.repst := rfl
@[simp] theorem Hart.revive_budget (h : Hart) (n : Nat) : (h.revive n).budget = h.budget := rfl
@[simp] theorem Hart.revive_deadline (h : Hart) (n : Nat) : (h.revive n).deadline = h.deadline := rfl
@[simp] theorem Hart.revive_qbind (h : Hart) (n : Nat) : (h.revive n).qbind = h.qbind := rfl
@[simp] theorem Hart.revive_roles (h : Hart) (n : Nat) : (h.revive n).roles = h.roles := rfl
@[simp] theorem Hart.revive_spill (h : Hart) (n : Nat) : (h.revive n).spill = h.spill := rfl
@[simp] theorem Hart.revive_spillMax (h : Hart) (n : Nat) : (h.revive n).spillMax = h.spillMax := rfl
@[simp] theorem Hart.revive_dest (h : Hart) (n : Nat) : (h.revive n).dest = h.dest := rfl
@[simp] theorem Hart.revive_rel (h : Hart) (n : Nat) : (h.revive n).rel = h.rel := rfl
@[simp] theorem Hart.revive_refusals (h : Hart) (n : Nat) : (h.revive n).refusals = h.refusals := rfl
@[simp] theorem Hart.revive_owed (h : Hart) (n : Nat) : (h.revive n).owed = h.owed := rfl
@[simp] theorem Hart.revive_timerSeen (h : Hart) (n : Nat) : (h.revive n).timerSeen = h.timerSeen := rfl
@[simp] theorem Hart.revive_running (h : Hart) (n : Nat) : (h.revive n).running = h.running := rfl
@[simp] theorem Hart.revive_waiting (h : Hart) (n : Nat) : (h.revive n).waiting = h.waiting := rfl
@[simp] theorem Hart.revive_inWfi (h : Hart) (n : Nat) : (h.revive n).inWfi = h.inWfi := rfl
@[simp] theorem Hart.revive_sleep (h : Hart) (n : Nat) : (h.revive n).sleep = h.sleep := rfl
@[simp] theorem Hart.revive_poweredDown (h : Hart) (n : Nat) : (h.revive n).poweredDown = h.poweredDown := rfl
@[simp] theorem Hart.revive_inRel (h : Hart) (n : Nat) : (h.revive n).inRel = h.inRel := rfl
@[simp] theorem Hart.revive_waited (h : Hart) (n : Nat) : (h.revive n).waited = h.waited := rfl
@[simp] theorem Hart.revive_groupsDone (h : Hart) (n : Nat) : (h.revive n).groupsDone = h.groupsDone := rfl
@[simp] theorem Hart.revive_spillSet (h : Hart) (n : Nat) : (h.revive n).spillSet = h.spillSet := rfl
@[simp] theorem Hart.revive_frozen (h : Hart) (n : Nat) : (h.revive n).frozen = h.frozen := rfl
@[simp] theorem Hart.revive_killNext (h : Hart) (n : Nat) : (h.revive n).killNext = h.killNext := rfl
@[simp] theorem Hart.revive_cmd (h : Hart) (n : Nat) : (h.revive n).cmd = h.cmd := rfl
@[simp] theorem Hart.revive_lastPacket (h : Hart) (n : Nat) : (h.revive n).lastPacket = h.lastPacket := rfl
@[simp] theorem Hart.revive_slice (h : Hart) (n : Nat) : (h.revive n).slice = h.slice := rfl

-- Hart.kill
@[simp] theorem Hart.kill_x (h : Hart) (n : Nat) : (h.kill n).x = h.x := rfl
@[simp] theorem Hart.kill_v (h : Hart) (n : Nat) : (h.kill n).v = h.v := rfl
@[simp] theorem Hart.kill_p (h : Hart) (n : Nat) : (h.kill n).p = h.p := rfl
@[simp] theorem Hart.kill_apc (h : Hart) (n : Nat) : (h.kill n).apc = h.apc := rfl
@[simp] theorem Hart.kill_epc (h : Hart) (n : Nat) : (h.kill n).epc = h.epc := rfl
@[simp] theorem Hart.kill_branchQ (h : Hart) (n : Nat) : (h.kill n).branchQ = h.branchQ := rfl
@[simp] theorem Hart.kill_copyAE (h : Hart) (n : Nat) : (h.kill n).copyAE = h.copyAE := rfl
@[simp] theorem Hart.kill_copyEA (h : Hart) (n : Nat) : (h.kill n).copyEA = h.copyEA := rfl
@[simp] theorem Hart.kill_lag (h : Hart) (n : Nat) : (h.kill n).lag = h.lag := rfl
@[simp] theorem Hart.kill_erep (h : Hart) (n : Nat) : (h.kill n).erep = h.erep := rfl
@[simp] theorem Hart.kill_feed (h : Hart) (n : Nat) : (h.kill n).feed = h.feed := rfl
@[simp] theorem Hart.kill_pend (h : Hart) (n : Nat) : (h.kill n).pend = h.pend := rfl
@[simp] theorem Hart.kill_nextPend (h : Hart) (n : Nat) : (h.kill n).nextPend = h.nextPend := rfl
@[simp] theorem Hart.kill_xlating (h : Hart) (n : Nat) : (h.kill n).xlating = h.xlating := rfl
@[simp] theorem Hart.kill_aheadVpn (h : Hart) (n : Nat) : (h.kill n).aheadVpn = h.aheadVpn := rfl
@[simp] theorem Hart.kill_status (h : Hart) (n : Nat) : (h.kill n).status = h.status := rfl
@[simp] theorem Hart.kill_ipend (h : Hart) (n : Nat) : (h.kill n).ipend = h.ipend := rfl
@[simp] theorem Hart.kill_ienab (h : Hart) (n : Nat) : (h.kill n).ienab = h.ienab := rfl
@[simp] theorem Hart.kill_ivec (h : Hart) (n : Nat) : (h.kill n).ivec = h.ivec := rfl
@[simp] theorem Hart.kill_ipc (h : Hart) (n : Nat) : (h.kill n).ipc = h.ipc := rfl
@[simp] theorem Hart.kill_icause (h : Hart) (n : Nat) : (h.kill n).icause = h.icause := rfl
@[simp] theorem Hart.kill_irep (h : Hart) (n : Nat) : (h.kill n).irep = h.irep := rfl
@[simp] theorem Hart.kill_tcmp (h : Hart) (n : Nat) : (h.kill n).tcmp = h.tcmp := rfl
@[simp] theorem Hart.kill_cmask (h : Hart) (n : Nat) : (h.kill n).cmask = h.cmask := rfl
@[simp] theorem Hart.kill_repst (h : Hart) (n : Nat) : (h.kill n).repst = h.repst := rfl
@[simp] theorem Hart.kill_budget (h : Hart) (n : Nat) : (h.kill n).budget = h.budget := rfl
@[simp] theorem Hart.kill_deadline (h : Hart) (n : Nat) : (h.kill n).deadline = h.deadline := rfl
@[simp] theorem Hart.kill_qbind (h : Hart) (n : Nat) : (h.kill n).qbind = h.qbind := rfl
@[simp] theorem Hart.kill_roles (h : Hart) (n : Nat) : (h.kill n).roles = h.roles := rfl
@[simp] theorem Hart.kill_spill (h : Hart) (n : Nat) : (h.kill n).spill = h.spill := rfl
@[simp] theorem Hart.kill_spillMax (h : Hart) (n : Nat) : (h.kill n).spillMax = h.spillMax := rfl
@[simp] theorem Hart.kill_dest (h : Hart) (n : Nat) : (h.kill n).dest = h.dest := rfl
@[simp] theorem Hart.kill_rel (h : Hart) (n : Nat) : (h.kill n).rel = h.rel := rfl
@[simp] theorem Hart.kill_refusals (h : Hart) (n : Nat) : (h.kill n).refusals = h.refusals := rfl
@[simp] theorem Hart.kill_owed (h : Hart) (n : Nat) : (h.kill n).owed = h.owed := rfl
@[simp] theorem Hart.kill_timerSeen (h : Hart) (n : Nat) : (h.kill n).timerSeen = h.timerSeen := rfl
@[simp] theorem Hart.kill_running (h : Hart) (n : Nat) : (h.kill n).running = h.running := rfl
@[simp] theorem Hart.kill_waiting (h : Hart) (n : Nat) : (h.kill n).waiting = h.waiting := rfl
@[simp] theorem Hart.kill_inWfi (h : Hart) (n : Nat) : (h.kill n).inWfi = h.inWfi := rfl
@[simp] theorem Hart.kill_sleep (h : Hart) (n : Nat) : (h.kill n).sleep = h.sleep := rfl
@[simp] theorem Hart.kill_poweredDown (h : Hart) (n : Nat) : (h.kill n).poweredDown = h.poweredDown := rfl
@[simp] theorem Hart.kill_inRel (h : Hart) (n : Nat) : (h.kill n).inRel = h.inRel := rfl
@[simp] theorem Hart.kill_waited (h : Hart) (n : Nat) : (h.kill n).waited = h.waited := rfl
@[simp] theorem Hart.kill_groupsDone (h : Hart) (n : Nat) : (h.kill n).groupsDone = h.groupsDone := rfl
@[simp] theorem Hart.kill_spillSet (h : Hart) (n : Nat) : (h.kill n).spillSet = h.spillSet := rfl
@[simp] theorem Hart.kill_frozen (h : Hart) (n : Nat) : (h.kill n).frozen = h.frozen := rfl
@[simp] theorem Hart.kill_killNext (h : Hart) (n : Nat) : (h.kill n).killNext = h.killNext := rfl
@[simp] theorem Hart.kill_cmd (h : Hart) (n : Nat) : (h.kill n).cmd = h.cmd := rfl
@[simp] theorem Hart.kill_lastPacket (h : Hart) (n : Nat) : (h.kill n).lastPacket = h.lastPacket := rfl
@[simp] theorem Hart.kill_slice (h : Hart) (n : Nat) : (h.kill n).slice = h.slice := rfl

-- Hart.wv
@[simp] theorem Hart.wv_x (h : Hart) (r : Fin 32) (v : V512) : (h.wv r v).x = h.x := rfl
@[simp] theorem Hart.wv_p (h : Hart) (r : Fin 32) (v : V512) : (h.wv r v).p = h.p := rfl
@[simp] theorem Hart.wv_apc (h : Hart) (r : Fin 32) (v : V512) : (h.wv r v).apc = h.apc := rfl
@[simp] theorem Hart.wv_epc (h : Hart) (r : Fin 32) (v : V512) : (h.wv r v).epc = h.epc := rfl
@[simp] theorem Hart.wv_branchQ (h : Hart) (r : Fin 32) (v : V512) : (h.wv r v).branchQ = h.branchQ := rfl
@[simp] theorem Hart.wv_copyAE (h : Hart) (r : Fin 32) (v : V512) : (h.wv r v).copyAE = h.copyAE := rfl
@[simp] theorem Hart.wv_copyEA (h : Hart) (r : Fin 32) (v : V512) : (h.wv r v).copyEA = h.copyEA := rfl
@[simp] theorem Hart.wv_lag (h : Hart) (r : Fin 32) (v : V512) : (h.wv r v).lag = h.lag := rfl
@[simp] theorem Hart.wv_erep (h : Hart) (r : Fin 32) (v : V512) : (h.wv r v).erep = h.erep := rfl
@[simp] theorem Hart.wv_feed (h : Hart) (r : Fin 32) (v : V512) : (h.wv r v).feed = h.feed := rfl
@[simp] theorem Hart.wv_pend (h : Hart) (r : Fin 32) (v : V512) : (h.wv r v).pend = h.pend := rfl
@[simp] theorem Hart.wv_nextPend (h : Hart) (r : Fin 32) (v : V512) : (h.wv r v).nextPend = h.nextPend := rfl
@[simp] theorem Hart.wv_xlating (h : Hart) (r : Fin 32) (v : V512) : (h.wv r v).xlating = h.xlating := rfl
@[simp] theorem Hart.wv_aheadVpn (h : Hart) (r : Fin 32) (v : V512) : (h.wv r v).aheadVpn = h.aheadVpn := rfl
@[simp] theorem Hart.wv_status (h : Hart) (r : Fin 32) (v : V512) : (h.wv r v).status = h.status := rfl
@[simp] theorem Hart.wv_ipend (h : Hart) (r : Fin 32) (v : V512) : (h.wv r v).ipend = h.ipend := rfl
@[simp] theorem Hart.wv_ienab (h : Hart) (r : Fin 32) (v : V512) : (h.wv r v).ienab = h.ienab := rfl
@[simp] theorem Hart.wv_ivec (h : Hart) (r : Fin 32) (v : V512) : (h.wv r v).ivec = h.ivec := rfl
@[simp] theorem Hart.wv_ipc (h : Hart) (r : Fin 32) (v : V512) : (h.wv r v).ipc = h.ipc := rfl
@[simp] theorem Hart.wv_icause (h : Hart) (r : Fin 32) (v : V512) : (h.wv r v).icause = h.icause := rfl
@[simp] theorem Hart.wv_irep (h : Hart) (r : Fin 32) (v : V512) : (h.wv r v).irep = h.irep := rfl
@[simp] theorem Hart.wv_tcmp (h : Hart) (r : Fin 32) (v : V512) : (h.wv r v).tcmp = h.tcmp := rfl
@[simp] theorem Hart.wv_cmask (h : Hart) (r : Fin 32) (v : V512) : (h.wv r v).cmask = h.cmask := rfl
@[simp] theorem Hart.wv_repst (h : Hart) (r : Fin 32) (v : V512) : (h.wv r v).repst = h.repst := rfl
@[simp] theorem Hart.wv_budget (h : Hart) (r : Fin 32) (v : V512) : (h.wv r v).budget = h.budget := rfl
@[simp] theorem Hart.wv_deadline (h : Hart) (r : Fin 32) (v : V512) : (h.wv r v).deadline = h.deadline := rfl
@[simp] theorem Hart.wv_qbind (h : Hart) (r : Fin 32) (v : V512) : (h.wv r v).qbind = h.qbind := rfl
@[simp] theorem Hart.wv_roles (h : Hart) (r : Fin 32) (v : V512) : (h.wv r v).roles = h.roles := rfl
@[simp] theorem Hart.wv_spill (h : Hart) (r : Fin 32) (v : V512) : (h.wv r v).spill = h.spill := rfl
@[simp] theorem Hart.wv_spillMax (h : Hart) (r : Fin 32) (v : V512) : (h.wv r v).spillMax = h.spillMax := rfl
@[simp] theorem Hart.wv_dest (h : Hart) (r : Fin 32) (v : V512) : (h.wv r v).dest = h.dest := rfl
@[simp] theorem Hart.wv_rel (h : Hart) (r : Fin 32) (v : V512) : (h.wv r v).rel = h.rel := rfl
@[simp] theorem Hart.wv_refusals (h : Hart) (r : Fin 32) (v : V512) : (h.wv r v).refusals = h.refusals := rfl
@[simp] theorem Hart.wv_owed (h : Hart) (r : Fin 32) (v : V512) : (h.wv r v).owed = h.owed := rfl
@[simp] theorem Hart.wv_timerSeen (h : Hart) (r : Fin 32) (v : V512) : (h.wv r v).timerSeen = h.timerSeen := rfl
@[simp] theorem Hart.wv_running (h : Hart) (r : Fin 32) (v : V512) : (h.wv r v).running = h.running := rfl
@[simp] theorem Hart.wv_waiting (h : Hart) (r : Fin 32) (v : V512) : (h.wv r v).waiting = h.waiting := rfl
@[simp] theorem Hart.wv_inWfi (h : Hart) (r : Fin 32) (v : V512) : (h.wv r v).inWfi = h.inWfi := rfl
@[simp] theorem Hart.wv_sleep (h : Hart) (r : Fin 32) (v : V512) : (h.wv r v).sleep = h.sleep := rfl
@[simp] theorem Hart.wv_poweredDown (h : Hart) (r : Fin 32) (v : V512) : (h.wv r v).poweredDown = h.poweredDown := rfl
@[simp] theorem Hart.wv_inRel (h : Hart) (r : Fin 32) (v : V512) : (h.wv r v).inRel = h.inRel := rfl
@[simp] theorem Hart.wv_waited (h : Hart) (r : Fin 32) (v : V512) : (h.wv r v).waited = h.waited := rfl
@[simp] theorem Hart.wv_groupsDone (h : Hart) (r : Fin 32) (v : V512) : (h.wv r v).groupsDone = h.groupsDone := rfl
@[simp] theorem Hart.wv_spillSet (h : Hart) (r : Fin 32) (v : V512) : (h.wv r v).spillSet = h.spillSet := rfl
@[simp] theorem Hart.wv_frozen (h : Hart) (r : Fin 32) (v : V512) : (h.wv r v).frozen = h.frozen := rfl
@[simp] theorem Hart.wv_killNext (h : Hart) (r : Fin 32) (v : V512) : (h.wv r v).killNext = h.killNext := rfl
@[simp] theorem Hart.wv_cmd (h : Hart) (r : Fin 32) (v : V512) : (h.wv r v).cmd = h.cmd := rfl
@[simp] theorem Hart.wv_lastPacket (h : Hart) (r : Fin 32) (v : V512) : (h.wv r v).lastPacket = h.lastPacket := rfl
@[simp] theorem Hart.wv_slice (h : Hart) (r : Fin 32) (v : V512) : (h.wv r v).slice = h.slice := rfl

-- Hart.enterInterrupt
@[simp] theorem Hart.enterInterrupt_x (h : Hart) (n : Nat) : (h.enterInterrupt n).x = h.x := rfl
@[simp] theorem Hart.enterInterrupt_v (h : Hart) (n : Nat) : (h.enterInterrupt n).v = h.v := rfl
@[simp] theorem Hart.enterInterrupt_p (h : Hart) (n : Nat) : (h.enterInterrupt n).p = h.p := rfl
@[simp] theorem Hart.enterInterrupt_erep (h : Hart) (n : Nat) : (h.enterInterrupt n).erep = h.erep := rfl
@[simp] theorem Hart.enterInterrupt_feed (h : Hart) (n : Nat) : (h.enterInterrupt n).feed = h.feed := rfl
@[simp] theorem Hart.enterInterrupt_nextPend (h : Hart) (n : Nat) : (h.enterInterrupt n).nextPend = h.nextPend := rfl
@[simp] theorem Hart.enterInterrupt_aheadVpn (h : Hart) (n : Nat) : (h.enterInterrupt n).aheadVpn = h.aheadVpn := rfl
@[simp] theorem Hart.enterInterrupt_ipend (h : Hart) (n : Nat) : (h.enterInterrupt n).ipend = h.ipend := rfl
@[simp] theorem Hart.enterInterrupt_ienab (h : Hart) (n : Nat) : (h.enterInterrupt n).ienab = h.ienab := rfl
@[simp] theorem Hart.enterInterrupt_ivec (h : Hart) (n : Nat) : (h.enterInterrupt n).ivec = h.ivec := rfl
@[simp] theorem Hart.enterInterrupt_tcmp (h : Hart) (n : Nat) : (h.enterInterrupt n).tcmp = h.tcmp := rfl
@[simp] theorem Hart.enterInterrupt_cmask (h : Hart) (n : Nat) : (h.enterInterrupt n).cmask = h.cmask := rfl
@[simp] theorem Hart.enterInterrupt_dead (h : Hart) (n : Nat) : (h.enterInterrupt n).dead = h.dead := rfl
@[simp] theorem Hart.enterInterrupt_budget (h : Hart) (n : Nat) : (h.enterInterrupt n).budget = h.budget := rfl
@[simp] theorem Hart.enterInterrupt_deadline (h : Hart) (n : Nat) : (h.enterInterrupt n).deadline = h.deadline := rfl
@[simp] theorem Hart.enterInterrupt_qbind (h : Hart) (n : Nat) : (h.enterInterrupt n).qbind = h.qbind := rfl
@[simp] theorem Hart.enterInterrupt_roles (h : Hart) (n : Nat) : (h.enterInterrupt n).roles = h.roles := rfl
@[simp] theorem Hart.enterInterrupt_spill (h : Hart) (n : Nat) : (h.enterInterrupt n).spill = h.spill := rfl
@[simp] theorem Hart.enterInterrupt_spillMax (h : Hart) (n : Nat) : (h.enterInterrupt n).spillMax = h.spillMax := rfl
@[simp] theorem Hart.enterInterrupt_dest (h : Hart) (n : Nat) : (h.enterInterrupt n).dest = h.dest := rfl
@[simp] theorem Hart.enterInterrupt_rel (h : Hart) (n : Nat) : (h.enterInterrupt n).rel = h.rel := rfl
@[simp] theorem Hart.enterInterrupt_refusals (h : Hart) (n : Nat) : (h.enterInterrupt n).refusals = h.refusals := rfl
@[simp] theorem Hart.enterInterrupt_owed (h : Hart) (n : Nat) : (h.enterInterrupt n).owed = h.owed := rfl
@[simp] theorem Hart.enterInterrupt_timerSeen (h : Hart) (n : Nat) : (h.enterInterrupt n).timerSeen = h.timerSeen := rfl
@[simp] theorem Hart.enterInterrupt_running (h : Hart) (n : Nat) : (h.enterInterrupt n).running = h.running := rfl
@[simp] theorem Hart.enterInterrupt_inWfi (h : Hart) (n : Nat) : (h.enterInterrupt n).inWfi = h.inWfi := rfl
@[simp] theorem Hart.enterInterrupt_poweredDown (h : Hart) (n : Nat) : (h.enterInterrupt n).poweredDown = h.poweredDown := rfl
@[simp] theorem Hart.enterInterrupt_waited (h : Hart) (n : Nat) : (h.enterInterrupt n).waited = h.waited := rfl
@[simp] theorem Hart.enterInterrupt_groupsDone (h : Hart) (n : Nat) : (h.enterInterrupt n).groupsDone = h.groupsDone := rfl
@[simp] theorem Hart.enterInterrupt_spillSet (h : Hart) (n : Nat) : (h.enterInterrupt n).spillSet = h.spillSet := rfl
@[simp] theorem Hart.enterInterrupt_frozen (h : Hart) (n : Nat) : (h.enterInterrupt n).frozen = h.frozen := rfl
@[simp] theorem Hart.enterInterrupt_killNext (h : Hart) (n : Nat) : (h.enterInterrupt n).killNext = h.killNext := rfl
@[simp] theorem Hart.enterInterrupt_cmd (h : Hart) (n : Nat) : (h.enterInterrupt n).cmd = h.cmd := rfl
@[simp] theorem Hart.enterInterrupt_lastPacket (h : Hart) (n : Nat) : (h.enterInterrupt n).lastPacket = h.lastPacket := rfl
@[simp] theorem Hart.enterInterrupt_slice (h : Hart) (n : Nat) : (h.enterInterrupt n).slice = h.slice := rfl

-- Hart.enterCall
@[simp] theorem Hart.enterCall_x (h : Hart) : (h.enterCall).x = h.x := rfl
@[simp] theorem Hart.enterCall_v (h : Hart) : (h.enterCall).v = h.v := rfl
@[simp] theorem Hart.enterCall_p (h : Hart) : (h.enterCall).p = h.p := rfl
@[simp] theorem Hart.enterCall_erep (h : Hart) : (h.enterCall).erep = h.erep := rfl
@[simp] theorem Hart.enterCall_feed (h : Hart) : (h.enterCall).feed = h.feed := rfl
@[simp] theorem Hart.enterCall_nextPend (h : Hart) : (h.enterCall).nextPend = h.nextPend := rfl
@[simp] theorem Hart.enterCall_xlating (h : Hart) : (h.enterCall).xlating = h.xlating := rfl
@[simp] theorem Hart.enterCall_aheadVpn (h : Hart) : (h.enterCall).aheadVpn = h.aheadVpn := rfl
@[simp] theorem Hart.enterCall_ipend (h : Hart) : (h.enterCall).ipend = h.ipend := rfl
@[simp] theorem Hart.enterCall_ienab (h : Hart) : (h.enterCall).ienab = h.ienab := rfl
@[simp] theorem Hart.enterCall_ivec (h : Hart) : (h.enterCall).ivec = h.ivec := rfl
@[simp] theorem Hart.enterCall_icause (h : Hart) : (h.enterCall).icause = h.icause := rfl
@[simp] theorem Hart.enterCall_tcmp (h : Hart) : (h.enterCall).tcmp = h.tcmp := rfl
@[simp] theorem Hart.enterCall_cmask (h : Hart) : (h.enterCall).cmask = h.cmask := rfl
@[simp] theorem Hart.enterCall_dead (h : Hart) : (h.enterCall).dead = h.dead := rfl
@[simp] theorem Hart.enterCall_budget (h : Hart) : (h.enterCall).budget = h.budget := rfl
@[simp] theorem Hart.enterCall_deadline (h : Hart) : (h.enterCall).deadline = h.deadline := rfl
@[simp] theorem Hart.enterCall_qbind (h : Hart) : (h.enterCall).qbind = h.qbind := rfl
@[simp] theorem Hart.enterCall_roles (h : Hart) : (h.enterCall).roles = h.roles := rfl
@[simp] theorem Hart.enterCall_spill (h : Hart) : (h.enterCall).spill = h.spill := rfl
@[simp] theorem Hart.enterCall_spillMax (h : Hart) : (h.enterCall).spillMax = h.spillMax := rfl
@[simp] theorem Hart.enterCall_dest (h : Hart) : (h.enterCall).dest = h.dest := rfl
@[simp] theorem Hart.enterCall_rel (h : Hart) : (h.enterCall).rel = h.rel := rfl
@[simp] theorem Hart.enterCall_refusals (h : Hart) : (h.enterCall).refusals = h.refusals := rfl
@[simp] theorem Hart.enterCall_owed (h : Hart) : (h.enterCall).owed = h.owed := rfl
@[simp] theorem Hart.enterCall_timerSeen (h : Hart) : (h.enterCall).timerSeen = h.timerSeen := rfl
@[simp] theorem Hart.enterCall_running (h : Hart) : (h.enterCall).running = h.running := rfl
@[simp] theorem Hart.enterCall_waiting (h : Hart) : (h.enterCall).waiting = h.waiting := rfl
@[simp] theorem Hart.enterCall_inWfi (h : Hart) : (h.enterCall).inWfi = h.inWfi := rfl
@[simp] theorem Hart.enterCall_sleep (h : Hart) : (h.enterCall).sleep = h.sleep := rfl
@[simp] theorem Hart.enterCall_poweredDown (h : Hart) : (h.enterCall).poweredDown = h.poweredDown := rfl
@[simp] theorem Hart.enterCall_inRel (h : Hart) : (h.enterCall).inRel = h.inRel := rfl
@[simp] theorem Hart.enterCall_waited (h : Hart) : (h.enterCall).waited = h.waited := rfl
@[simp] theorem Hart.enterCall_groupsDone (h : Hart) : (h.enterCall).groupsDone = h.groupsDone := rfl
@[simp] theorem Hart.enterCall_spillSet (h : Hart) : (h.enterCall).spillSet = h.spillSet := rfl
@[simp] theorem Hart.enterCall_frozen (h : Hart) : (h.enterCall).frozen = h.frozen := rfl
@[simp] theorem Hart.enterCall_killNext (h : Hart) : (h.enterCall).killNext = h.killNext := rfl
@[simp] theorem Hart.enterCall_cmd (h : Hart) : (h.enterCall).cmd = h.cmd := rfl
@[simp] theorem Hart.enterCall_lastPacket (h : Hart) : (h.enterCall).lastPacket = h.lastPacket := rfl
@[simp] theorem Hart.enterCall_slice (h : Hart) : (h.enterCall).slice = h.slice := rfl

-- Hart.leaveHandler
@[simp] theorem Hart.leaveHandler_x (h : Hart) : (h.leaveHandler).x = h.x := rfl
@[simp] theorem Hart.leaveHandler_v (h : Hart) : (h.leaveHandler).v = h.v := rfl
@[simp] theorem Hart.leaveHandler_p (h : Hart) : (h.leaveHandler).p = h.p := rfl
@[simp] theorem Hart.leaveHandler_erep (h : Hart) : (h.leaveHandler).erep = h.erep := rfl
@[simp] theorem Hart.leaveHandler_feed (h : Hart) : (h.leaveHandler).feed = h.feed := rfl
@[simp] theorem Hart.leaveHandler_nextPend (h : Hart) : (h.leaveHandler).nextPend = h.nextPend := rfl
@[simp] theorem Hart.leaveHandler_xlating (h : Hart) : (h.leaveHandler).xlating = h.xlating := rfl
@[simp] theorem Hart.leaveHandler_aheadVpn (h : Hart) : (h.leaveHandler).aheadVpn = h.aheadVpn := rfl
@[simp] theorem Hart.leaveHandler_ipend (h : Hart) : (h.leaveHandler).ipend = h.ipend := rfl
@[simp] theorem Hart.leaveHandler_ienab (h : Hart) : (h.leaveHandler).ienab = h.ienab := rfl
@[simp] theorem Hart.leaveHandler_ivec (h : Hart) : (h.leaveHandler).ivec = h.ivec := rfl
@[simp] theorem Hart.leaveHandler_ipc (h : Hart) : (h.leaveHandler).ipc = h.ipc := rfl
@[simp] theorem Hart.leaveHandler_icause (h : Hart) : (h.leaveHandler).icause = h.icause := rfl
@[simp] theorem Hart.leaveHandler_irep (h : Hart) : (h.leaveHandler).irep = h.irep := rfl
@[simp] theorem Hart.leaveHandler_tcmp (h : Hart) : (h.leaveHandler).tcmp = h.tcmp := rfl
@[simp] theorem Hart.leaveHandler_cmask (h : Hart) : (h.leaveHandler).cmask = h.cmask := rfl
@[simp] theorem Hart.leaveHandler_dead (h : Hart) : (h.leaveHandler).dead = h.dead := rfl
@[simp] theorem Hart.leaveHandler_budget (h : Hart) : (h.leaveHandler).budget = h.budget := rfl
@[simp] theorem Hart.leaveHandler_deadline (h : Hart) : (h.leaveHandler).deadline = h.deadline := rfl
@[simp] theorem Hart.leaveHandler_qbind (h : Hart) : (h.leaveHandler).qbind = h.qbind := rfl
@[simp] theorem Hart.leaveHandler_roles (h : Hart) : (h.leaveHandler).roles = h.roles := rfl
@[simp] theorem Hart.leaveHandler_spill (h : Hart) : (h.leaveHandler).spill = h.spill := rfl
@[simp] theorem Hart.leaveHandler_spillMax (h : Hart) : (h.leaveHandler).spillMax = h.spillMax := rfl
@[simp] theorem Hart.leaveHandler_dest (h : Hart) : (h.leaveHandler).dest = h.dest := rfl
@[simp] theorem Hart.leaveHandler_rel (h : Hart) : (h.leaveHandler).rel = h.rel := rfl
@[simp] theorem Hart.leaveHandler_refusals (h : Hart) : (h.leaveHandler).refusals = h.refusals := rfl
@[simp] theorem Hart.leaveHandler_owed (h : Hart) : (h.leaveHandler).owed = h.owed := rfl
@[simp] theorem Hart.leaveHandler_timerSeen (h : Hart) : (h.leaveHandler).timerSeen = h.timerSeen := rfl
@[simp] theorem Hart.leaveHandler_running (h : Hart) : (h.leaveHandler).running = h.running := rfl
@[simp] theorem Hart.leaveHandler_waiting (h : Hart) : (h.leaveHandler).waiting = h.waiting := rfl
@[simp] theorem Hart.leaveHandler_inWfi (h : Hart) : (h.leaveHandler).inWfi = h.inWfi := rfl
@[simp] theorem Hart.leaveHandler_sleep (h : Hart) : (h.leaveHandler).sleep = h.sleep := rfl
@[simp] theorem Hart.leaveHandler_poweredDown (h : Hart) : (h.leaveHandler).poweredDown = h.poweredDown := rfl
@[simp] theorem Hart.leaveHandler_inRel (h : Hart) : (h.leaveHandler).inRel = h.inRel := rfl
@[simp] theorem Hart.leaveHandler_waited (h : Hart) : (h.leaveHandler).waited = h.waited := rfl
@[simp] theorem Hart.leaveHandler_groupsDone (h : Hart) : (h.leaveHandler).groupsDone = h.groupsDone := rfl
@[simp] theorem Hart.leaveHandler_spillSet (h : Hart) : (h.leaveHandler).spillSet = h.spillSet := rfl
@[simp] theorem Hart.leaveHandler_frozen (h : Hart) : (h.leaveHandler).frozen = h.frozen := rfl
@[simp] theorem Hart.leaveHandler_killNext (h : Hart) : (h.leaveHandler).killNext = h.killNext := rfl
@[simp] theorem Hart.leaveHandler_cmd (h : Hart) : (h.leaveHandler).cmd = h.cmd := rfl
@[simp] theorem Hart.leaveHandler_lastPacket (h : Hart) : (h.leaveHandler).lastPacket = h.lastPacket := rfl
@[simp] theorem Hart.leaveHandler_slice (h : Hart) : (h.leaveHandler).slice = h.slice := rfl

-- Hart.wx
@[simp] theorem Hart.wx_v (h : Hart) (r : Fin 32) (v : W64) : (h.wx r v).v = h.v := by unfold Hart.wx; split <;> rfl
@[simp] theorem Hart.wx_p (h : Hart) (r : Fin 32) (v : W64) : (h.wx r v).p = h.p := by unfold Hart.wx; split <;> rfl
@[simp] theorem Hart.wx_apc (h : Hart) (r : Fin 32) (v : W64) : (h.wx r v).apc = h.apc := by unfold Hart.wx; split <;> rfl
@[simp] theorem Hart.wx_epc (h : Hart) (r : Fin 32) (v : W64) : (h.wx r v).epc = h.epc := by unfold Hart.wx; split <;> rfl
@[simp] theorem Hart.wx_branchQ (h : Hart) (r : Fin 32) (v : W64) : (h.wx r v).branchQ = h.branchQ := by unfold Hart.wx; split <;> rfl
@[simp] theorem Hart.wx_copyAE (h : Hart) (r : Fin 32) (v : W64) : (h.wx r v).copyAE = h.copyAE := by unfold Hart.wx; split <;> rfl
@[simp] theorem Hart.wx_copyEA (h : Hart) (r : Fin 32) (v : W64) : (h.wx r v).copyEA = h.copyEA := by unfold Hart.wx; split <;> rfl
@[simp] theorem Hart.wx_lag (h : Hart) (r : Fin 32) (v : W64) : (h.wx r v).lag = h.lag := by unfold Hart.wx; split <;> rfl
@[simp] theorem Hart.wx_erep (h : Hart) (r : Fin 32) (v : W64) : (h.wx r v).erep = h.erep := by unfold Hart.wx; split <;> rfl
@[simp] theorem Hart.wx_feed (h : Hart) (r : Fin 32) (v : W64) : (h.wx r v).feed = h.feed := by unfold Hart.wx; split <;> rfl
@[simp] theorem Hart.wx_pend (h : Hart) (r : Fin 32) (v : W64) : (h.wx r v).pend = h.pend := by unfold Hart.wx; split <;> rfl
@[simp] theorem Hart.wx_nextPend (h : Hart) (r : Fin 32) (v : W64) : (h.wx r v).nextPend = h.nextPend := by unfold Hart.wx; split <;> rfl
@[simp] theorem Hart.wx_xlating (h : Hart) (r : Fin 32) (v : W64) : (h.wx r v).xlating = h.xlating := by unfold Hart.wx; split <;> rfl
@[simp] theorem Hart.wx_aheadVpn (h : Hart) (r : Fin 32) (v : W64) : (h.wx r v).aheadVpn = h.aheadVpn := by unfold Hart.wx; split <;> rfl
@[simp] theorem Hart.wx_status (h : Hart) (r : Fin 32) (v : W64) : (h.wx r v).status = h.status := by unfold Hart.wx; split <;> rfl
@[simp] theorem Hart.wx_ipend (h : Hart) (r : Fin 32) (v : W64) : (h.wx r v).ipend = h.ipend := by unfold Hart.wx; split <;> rfl
@[simp] theorem Hart.wx_ienab (h : Hart) (r : Fin 32) (v : W64) : (h.wx r v).ienab = h.ienab := by unfold Hart.wx; split <;> rfl
@[simp] theorem Hart.wx_ivec (h : Hart) (r : Fin 32) (v : W64) : (h.wx r v).ivec = h.ivec := by unfold Hart.wx; split <;> rfl
@[simp] theorem Hart.wx_ipc (h : Hart) (r : Fin 32) (v : W64) : (h.wx r v).ipc = h.ipc := by unfold Hart.wx; split <;> rfl
@[simp] theorem Hart.wx_icause (h : Hart) (r : Fin 32) (v : W64) : (h.wx r v).icause = h.icause := by unfold Hart.wx; split <;> rfl
@[simp] theorem Hart.wx_irep (h : Hart) (r : Fin 32) (v : W64) : (h.wx r v).irep = h.irep := by unfold Hart.wx; split <;> rfl
@[simp] theorem Hart.wx_tcmp (h : Hart) (r : Fin 32) (v : W64) : (h.wx r v).tcmp = h.tcmp := by unfold Hart.wx; split <;> rfl
@[simp] theorem Hart.wx_cmask (h : Hart) (r : Fin 32) (v : W64) : (h.wx r v).cmask = h.cmask := by unfold Hart.wx; split <;> rfl
@[simp] theorem Hart.wx_repst (h : Hart) (r : Fin 32) (v : W64) : (h.wx r v).repst = h.repst := by unfold Hart.wx; split <;> rfl
@[simp] theorem Hart.wx_budget (h : Hart) (r : Fin 32) (v : W64) : (h.wx r v).budget = h.budget := by unfold Hart.wx; split <;> rfl
@[simp] theorem Hart.wx_deadline (h : Hart) (r : Fin 32) (v : W64) : (h.wx r v).deadline = h.deadline := by unfold Hart.wx; split <;> rfl
@[simp] theorem Hart.wx_qbind (h : Hart) (r : Fin 32) (v : W64) : (h.wx r v).qbind = h.qbind := by unfold Hart.wx; split <;> rfl
@[simp] theorem Hart.wx_roles (h : Hart) (r : Fin 32) (v : W64) : (h.wx r v).roles = h.roles := by unfold Hart.wx; split <;> rfl
@[simp] theorem Hart.wx_spill (h : Hart) (r : Fin 32) (v : W64) : (h.wx r v).spill = h.spill := by unfold Hart.wx; split <;> rfl
@[simp] theorem Hart.wx_spillMax (h : Hart) (r : Fin 32) (v : W64) : (h.wx r v).spillMax = h.spillMax := by unfold Hart.wx; split <;> rfl
@[simp] theorem Hart.wx_dest (h : Hart) (r : Fin 32) (v : W64) : (h.wx r v).dest = h.dest := by unfold Hart.wx; split <;> rfl
@[simp] theorem Hart.wx_rel (h : Hart) (r : Fin 32) (v : W64) : (h.wx r v).rel = h.rel := by unfold Hart.wx; split <;> rfl
@[simp] theorem Hart.wx_refusals (h : Hart) (r : Fin 32) (v : W64) : (h.wx r v).refusals = h.refusals := by unfold Hart.wx; split <;> rfl
@[simp] theorem Hart.wx_owed (h : Hart) (r : Fin 32) (v : W64) : (h.wx r v).owed = h.owed := by unfold Hart.wx; split <;> rfl
@[simp] theorem Hart.wx_timerSeen (h : Hart) (r : Fin 32) (v : W64) : (h.wx r v).timerSeen = h.timerSeen := by unfold Hart.wx; split <;> rfl
@[simp] theorem Hart.wx_running (h : Hart) (r : Fin 32) (v : W64) : (h.wx r v).running = h.running := by unfold Hart.wx; split <;> rfl
@[simp] theorem Hart.wx_waiting (h : Hart) (r : Fin 32) (v : W64) : (h.wx r v).waiting = h.waiting := by unfold Hart.wx; split <;> rfl
@[simp] theorem Hart.wx_inWfi (h : Hart) (r : Fin 32) (v : W64) : (h.wx r v).inWfi = h.inWfi := by unfold Hart.wx; split <;> rfl
@[simp] theorem Hart.wx_sleep (h : Hart) (r : Fin 32) (v : W64) : (h.wx r v).sleep = h.sleep := by unfold Hart.wx; split <;> rfl
@[simp] theorem Hart.wx_poweredDown (h : Hart) (r : Fin 32) (v : W64) : (h.wx r v).poweredDown = h.poweredDown := by unfold Hart.wx; split <;> rfl
@[simp] theorem Hart.wx_inRel (h : Hart) (r : Fin 32) (v : W64) : (h.wx r v).inRel = h.inRel := by unfold Hart.wx; split <;> rfl
@[simp] theorem Hart.wx_waited (h : Hart) (r : Fin 32) (v : W64) : (h.wx r v).waited = h.waited := by unfold Hart.wx; split <;> rfl
@[simp] theorem Hart.wx_groupsDone (h : Hart) (r : Fin 32) (v : W64) : (h.wx r v).groupsDone = h.groupsDone := by unfold Hart.wx; split <;> rfl
@[simp] theorem Hart.wx_spillSet (h : Hart) (r : Fin 32) (v : W64) : (h.wx r v).spillSet = h.spillSet := by unfold Hart.wx; split <;> rfl
@[simp] theorem Hart.wx_frozen (h : Hart) (r : Fin 32) (v : W64) : (h.wx r v).frozen = h.frozen := by unfold Hart.wx; split <;> rfl
@[simp] theorem Hart.wx_killNext (h : Hart) (r : Fin 32) (v : W64) : (h.wx r v).killNext = h.killNext := by unfold Hart.wx; split <;> rfl
@[simp] theorem Hart.wx_cmd (h : Hart) (r : Fin 32) (v : W64) : (h.wx r v).cmd = h.cmd := by unfold Hart.wx; split <;> rfl
@[simp] theorem Hart.wx_lastPacket (h : Hart) (r : Fin 32) (v : W64) : (h.wx r v).lastPacket = h.lastPacket := by unfold Hart.wx; split <;> rfl
@[simp] theorem Hart.wx_slice (h : Hart) (r : Fin 32) (v : W64) : (h.wx r v).slice = h.slice := by unfold Hart.wx; split <;> rfl

-- Hart.wp
@[simp] theorem Hart.wp_x (h : Hart) (r : Fin 8) (v : W64) : (h.wp r v).x = h.x := by unfold Hart.wp; split <;> rfl
@[simp] theorem Hart.wp_v (h : Hart) (r : Fin 8) (v : W64) : (h.wp r v).v = h.v := by unfold Hart.wp; split <;> rfl
@[simp] theorem Hart.wp_apc (h : Hart) (r : Fin 8) (v : W64) : (h.wp r v).apc = h.apc := by unfold Hart.wp; split <;> rfl
@[simp] theorem Hart.wp_epc (h : Hart) (r : Fin 8) (v : W64) : (h.wp r v).epc = h.epc := by unfold Hart.wp; split <;> rfl
@[simp] theorem Hart.wp_branchQ (h : Hart) (r : Fin 8) (v : W64) : (h.wp r v).branchQ = h.branchQ := by unfold Hart.wp; split <;> rfl
@[simp] theorem Hart.wp_copyAE (h : Hart) (r : Fin 8) (v : W64) : (h.wp r v).copyAE = h.copyAE := by unfold Hart.wp; split <;> rfl
@[simp] theorem Hart.wp_copyEA (h : Hart) (r : Fin 8) (v : W64) : (h.wp r v).copyEA = h.copyEA := by unfold Hart.wp; split <;> rfl
@[simp] theorem Hart.wp_lag (h : Hart) (r : Fin 8) (v : W64) : (h.wp r v).lag = h.lag := by unfold Hart.wp; split <;> rfl
@[simp] theorem Hart.wp_erep (h : Hart) (r : Fin 8) (v : W64) : (h.wp r v).erep = h.erep := by unfold Hart.wp; split <;> rfl
@[simp] theorem Hart.wp_feed (h : Hart) (r : Fin 8) (v : W64) : (h.wp r v).feed = h.feed := by unfold Hart.wp; split <;> rfl
@[simp] theorem Hart.wp_pend (h : Hart) (r : Fin 8) (v : W64) : (h.wp r v).pend = h.pend := by unfold Hart.wp; split <;> rfl
@[simp] theorem Hart.wp_nextPend (h : Hart) (r : Fin 8) (v : W64) : (h.wp r v).nextPend = h.nextPend := by unfold Hart.wp; split <;> rfl
@[simp] theorem Hart.wp_xlating (h : Hart) (r : Fin 8) (v : W64) : (h.wp r v).xlating = h.xlating := by unfold Hart.wp; split <;> rfl
@[simp] theorem Hart.wp_aheadVpn (h : Hart) (r : Fin 8) (v : W64) : (h.wp r v).aheadVpn = h.aheadVpn := by unfold Hart.wp; split <;> rfl
@[simp] theorem Hart.wp_status (h : Hart) (r : Fin 8) (v : W64) : (h.wp r v).status = h.status := by unfold Hart.wp; split <;> rfl
@[simp] theorem Hart.wp_ipend (h : Hart) (r : Fin 8) (v : W64) : (h.wp r v).ipend = h.ipend := by unfold Hart.wp; split <;> rfl
@[simp] theorem Hart.wp_ienab (h : Hart) (r : Fin 8) (v : W64) : (h.wp r v).ienab = h.ienab := by unfold Hart.wp; split <;> rfl
@[simp] theorem Hart.wp_ivec (h : Hart) (r : Fin 8) (v : W64) : (h.wp r v).ivec = h.ivec := by unfold Hart.wp; split <;> rfl
@[simp] theorem Hart.wp_ipc (h : Hart) (r : Fin 8) (v : W64) : (h.wp r v).ipc = h.ipc := by unfold Hart.wp; split <;> rfl
@[simp] theorem Hart.wp_icause (h : Hart) (r : Fin 8) (v : W64) : (h.wp r v).icause = h.icause := by unfold Hart.wp; split <;> rfl
@[simp] theorem Hart.wp_irep (h : Hart) (r : Fin 8) (v : W64) : (h.wp r v).irep = h.irep := by unfold Hart.wp; split <;> rfl
@[simp] theorem Hart.wp_tcmp (h : Hart) (r : Fin 8) (v : W64) : (h.wp r v).tcmp = h.tcmp := by unfold Hart.wp; split <;> rfl
@[simp] theorem Hart.wp_cmask (h : Hart) (r : Fin 8) (v : W64) : (h.wp r v).cmask = h.cmask := by unfold Hart.wp; split <;> rfl
@[simp] theorem Hart.wp_dead (h : Hart) (r : Fin 8) (v : W64) : (h.wp r v).dead = h.dead := by unfold Hart.wp; split <;> rfl
@[simp] theorem Hart.wp_repst (h : Hart) (r : Fin 8) (v : W64) : (h.wp r v).repst = h.repst := by unfold Hart.wp; split <;> rfl
@[simp] theorem Hart.wp_budget (h : Hart) (r : Fin 8) (v : W64) : (h.wp r v).budget = h.budget := by unfold Hart.wp; split <;> rfl
@[simp] theorem Hart.wp_deadline (h : Hart) (r : Fin 8) (v : W64) : (h.wp r v).deadline = h.deadline := by unfold Hart.wp; split <;> rfl
@[simp] theorem Hart.wp_qbind (h : Hart) (r : Fin 8) (v : W64) : (h.wp r v).qbind = h.qbind := by unfold Hart.wp; split <;> rfl
@[simp] theorem Hart.wp_roles (h : Hart) (r : Fin 8) (v : W64) : (h.wp r v).roles = h.roles := by unfold Hart.wp; split <;> rfl
@[simp] theorem Hart.wp_spill (h : Hart) (r : Fin 8) (v : W64) : (h.wp r v).spill = h.spill := by unfold Hart.wp; split <;> rfl
@[simp] theorem Hart.wp_spillMax (h : Hart) (r : Fin 8) (v : W64) : (h.wp r v).spillMax = h.spillMax := by unfold Hart.wp; split <;> rfl
@[simp] theorem Hart.wp_dest (h : Hart) (r : Fin 8) (v : W64) : (h.wp r v).dest = h.dest := by unfold Hart.wp; split <;> rfl
@[simp] theorem Hart.wp_rel (h : Hart) (r : Fin 8) (v : W64) : (h.wp r v).rel = h.rel := by unfold Hart.wp; split <;> rfl
@[simp] theorem Hart.wp_refusals (h : Hart) (r : Fin 8) (v : W64) : (h.wp r v).refusals = h.refusals := by unfold Hart.wp; split <;> rfl
@[simp] theorem Hart.wp_owed (h : Hart) (r : Fin 8) (v : W64) : (h.wp r v).owed = h.owed := by unfold Hart.wp; split <;> rfl
@[simp] theorem Hart.wp_timerSeen (h : Hart) (r : Fin 8) (v : W64) : (h.wp r v).timerSeen = h.timerSeen := by unfold Hart.wp; split <;> rfl
@[simp] theorem Hart.wp_running (h : Hart) (r : Fin 8) (v : W64) : (h.wp r v).running = h.running := by unfold Hart.wp; split <;> rfl
@[simp] theorem Hart.wp_waiting (h : Hart) (r : Fin 8) (v : W64) : (h.wp r v).waiting = h.waiting := by unfold Hart.wp; split <;> rfl
@[simp] theorem Hart.wp_inWfi (h : Hart) (r : Fin 8) (v : W64) : (h.wp r v).inWfi = h.inWfi := by unfold Hart.wp; split <;> rfl
@[simp] theorem Hart.wp_sleep (h : Hart) (r : Fin 8) (v : W64) : (h.wp r v).sleep = h.sleep := by unfold Hart.wp; split <;> rfl
@[simp] theorem Hart.wp_poweredDown (h : Hart) (r : Fin 8) (v : W64) : (h.wp r v).poweredDown = h.poweredDown := by unfold Hart.wp; split <;> rfl
@[simp] theorem Hart.wp_inRel (h : Hart) (r : Fin 8) (v : W64) : (h.wp r v).inRel = h.inRel := by unfold Hart.wp; split <;> rfl
@[simp] theorem Hart.wp_waited (h : Hart) (r : Fin 8) (v : W64) : (h.wp r v).waited = h.waited := by unfold Hart.wp; split <;> rfl
@[simp] theorem Hart.wp_groupsDone (h : Hart) (r : Fin 8) (v : W64) : (h.wp r v).groupsDone = h.groupsDone := by unfold Hart.wp; split <;> rfl
@[simp] theorem Hart.wp_spillSet (h : Hart) (r : Fin 8) (v : W64) : (h.wp r v).spillSet = h.spillSet := by unfold Hart.wp; split <;> rfl
@[simp] theorem Hart.wp_frozen (h : Hart) (r : Fin 8) (v : W64) : (h.wp r v).frozen = h.frozen := by unfold Hart.wp; split <;> rfl
@[simp] theorem Hart.wp_killNext (h : Hart) (r : Fin 8) (v : W64) : (h.wp r v).killNext = h.killNext := by unfold Hart.wp; split <;> rfl
@[simp] theorem Hart.wp_cmd (h : Hart) (r : Fin 8) (v : W64) : (h.wp r v).cmd = h.cmd := by unfold Hart.wp; split <;> rfl
@[simp] theorem Hart.wp_lastPacket (h : Hart) (r : Fin 8) (v : W64) : (h.wp r v).lastPacket = h.lastPacket := by unfold Hart.wp; split <;> rfl
@[simp] theorem Hart.wp_slice (h : Hart) (r : Fin 8) (v : W64) : (h.wp r v).slice = h.slice := by unfold Hart.wp; split <;> rfl

-- Hart.advance
@[simp] theorem Hart.advance_x (h : Hart) : (h.advance).x = h.x := by simp only [Hart.advance]; split <;> (try split) <;> (try split) <;> rfl
@[simp] theorem Hart.advance_v (h : Hart) : (h.advance).v = h.v := by simp only [Hart.advance]; split <;> (try split) <;> (try split) <;> rfl
@[simp] theorem Hart.advance_p (h : Hart) : (h.advance).p = h.p := by simp only [Hart.advance]; split <;> (try split) <;> (try split) <;> rfl
@[simp] theorem Hart.advance_branchQ (h : Hart) : (h.advance).branchQ = h.branchQ := by simp only [Hart.advance]; split <;> (try split) <;> (try split) <;> rfl
@[simp] theorem Hart.advance_copyAE (h : Hart) : (h.advance).copyAE = h.copyAE := by simp only [Hart.advance]; split <;> (try split) <;> (try split) <;> rfl
@[simp] theorem Hart.advance_copyEA (h : Hart) : (h.advance).copyEA = h.copyEA := by simp only [Hart.advance]; split <;> (try split) <;> (try split) <;> rfl
@[simp] theorem Hart.advance_lag (h : Hart) : (h.advance).lag = h.lag := by simp only [Hart.advance]; split <;> (try split) <;> (try split) <;> rfl
@[simp] theorem Hart.advance_erep (h : Hart) : (h.advance).erep = h.erep := by simp only [Hart.advance]; split <;> (try split) <;> (try split) <;> rfl
@[simp] theorem Hart.advance_feed (h : Hart) : (h.advance).feed = h.feed := by simp only [Hart.advance]; split <;> (try split) <;> (try split) <;> rfl
@[simp] theorem Hart.advance_pend (h : Hart) : (h.advance).pend = h.pend := by simp only [Hart.advance]; split <;> (try split) <;> (try split) <;> rfl
@[simp] theorem Hart.advance_nextPend (h : Hart) : (h.advance).nextPend = h.nextPend := by simp only [Hart.advance]; split <;> (try split) <;> (try split) <;> rfl
@[simp] theorem Hart.advance_xlating (h : Hart) : (h.advance).xlating = h.xlating := by simp only [Hart.advance]; split <;> (try split) <;> (try split) <;> rfl
@[simp] theorem Hart.advance_aheadVpn (h : Hart) : (h.advance).aheadVpn = h.aheadVpn := by simp only [Hart.advance]; split <;> (try split) <;> (try split) <;> rfl
@[simp] theorem Hart.advance_status (h : Hart) : (h.advance).status = h.status := by simp only [Hart.advance]; split <;> (try split) <;> (try split) <;> rfl
@[simp] theorem Hart.advance_ipend (h : Hart) : (h.advance).ipend = h.ipend := by simp only [Hart.advance]; split <;> (try split) <;> (try split) <;> rfl
@[simp] theorem Hart.advance_ienab (h : Hart) : (h.advance).ienab = h.ienab := by simp only [Hart.advance]; split <;> (try split) <;> (try split) <;> rfl
@[simp] theorem Hart.advance_ivec (h : Hart) : (h.advance).ivec = h.ivec := by simp only [Hart.advance]; split <;> (try split) <;> (try split) <;> rfl
@[simp] theorem Hart.advance_ipc (h : Hart) : (h.advance).ipc = h.ipc := by simp only [Hart.advance]; split <;> (try split) <;> (try split) <;> rfl
@[simp] theorem Hart.advance_icause (h : Hart) : (h.advance).icause = h.icause := by simp only [Hart.advance]; split <;> (try split) <;> (try split) <;> rfl
@[simp] theorem Hart.advance_irep (h : Hart) : (h.advance).irep = h.irep := by simp only [Hart.advance]; split <;> (try split) <;> (try split) <;> rfl
@[simp] theorem Hart.advance_tcmp (h : Hart) : (h.advance).tcmp = h.tcmp := by simp only [Hart.advance]; split <;> (try split) <;> (try split) <;> rfl
@[simp] theorem Hart.advance_cmask (h : Hart) : (h.advance).cmask = h.cmask := by simp only [Hart.advance]; split <;> (try split) <;> (try split) <;> rfl
@[simp] theorem Hart.advance_dead (h : Hart) : (h.advance).dead = h.dead := by simp only [Hart.advance]; split <;> (try split) <;> (try split) <;> rfl
@[simp] theorem Hart.advance_budget (h : Hart) : (h.advance).budget = h.budget := by simp only [Hart.advance]; split <;> (try split) <;> (try split) <;> rfl
@[simp] theorem Hart.advance_deadline (h : Hart) : (h.advance).deadline = h.deadline := by simp only [Hart.advance]; split <;> (try split) <;> (try split) <;> rfl
@[simp] theorem Hart.advance_qbind (h : Hart) : (h.advance).qbind = h.qbind := by simp only [Hart.advance]; split <;> (try split) <;> (try split) <;> rfl
@[simp] theorem Hart.advance_roles (h : Hart) : (h.advance).roles = h.roles := by simp only [Hart.advance]; split <;> (try split) <;> (try split) <;> rfl
@[simp] theorem Hart.advance_spill (h : Hart) : (h.advance).spill = h.spill := by simp only [Hart.advance]; split <;> (try split) <;> (try split) <;> rfl
@[simp] theorem Hart.advance_spillMax (h : Hart) : (h.advance).spillMax = h.spillMax := by simp only [Hart.advance]; split <;> (try split) <;> (try split) <;> rfl
@[simp] theorem Hart.advance_dest (h : Hart) : (h.advance).dest = h.dest := by simp only [Hart.advance]; split <;> (try split) <;> (try split) <;> rfl
@[simp] theorem Hart.advance_rel (h : Hart) : (h.advance).rel = h.rel := by simp only [Hart.advance]; split <;> (try split) <;> (try split) <;> rfl
@[simp] theorem Hart.advance_refusals (h : Hart) : (h.advance).refusals = h.refusals := by simp only [Hart.advance]; split <;> (try split) <;> (try split) <;> rfl
@[simp] theorem Hart.advance_owed (h : Hart) : (h.advance).owed = h.owed := by simp only [Hart.advance]; split <;> (try split) <;> (try split) <;> rfl
@[simp] theorem Hart.advance_timerSeen (h : Hart) : (h.advance).timerSeen = h.timerSeen := by simp only [Hart.advance]; split <;> (try split) <;> (try split) <;> rfl
@[simp] theorem Hart.advance_running (h : Hart) : (h.advance).running = h.running := by simp only [Hart.advance]; split <;> (try split) <;> (try split) <;> rfl
@[simp] theorem Hart.advance_waiting (h : Hart) : (h.advance).waiting = h.waiting := by simp only [Hart.advance]; split <;> (try split) <;> (try split) <;> rfl
@[simp] theorem Hart.advance_inWfi (h : Hart) : (h.advance).inWfi = h.inWfi := by simp only [Hart.advance]; split <;> (try split) <;> (try split) <;> rfl
@[simp] theorem Hart.advance_sleep (h : Hart) : (h.advance).sleep = h.sleep := by simp only [Hart.advance]; split <;> (try split) <;> (try split) <;> rfl
@[simp] theorem Hart.advance_poweredDown (h : Hart) : (h.advance).poweredDown = h.poweredDown := by simp only [Hart.advance]; split <;> (try split) <;> (try split) <;> rfl
@[simp] theorem Hart.advance_inRel (h : Hart) : (h.advance).inRel = h.inRel := by simp only [Hart.advance]; split <;> (try split) <;> (try split) <;> rfl
@[simp] theorem Hart.advance_waited (h : Hart) : (h.advance).waited = h.waited := by simp only [Hart.advance]; split <;> (try split) <;> (try split) <;> rfl
@[simp] theorem Hart.advance_groupsDone (h : Hart) : (h.advance).groupsDone = h.groupsDone := by simp only [Hart.advance]; split <;> (try split) <;> (try split) <;> rfl
@[simp] theorem Hart.advance_spillSet (h : Hart) : (h.advance).spillSet = h.spillSet := by simp only [Hart.advance]; split <;> (try split) <;> (try split) <;> rfl
@[simp] theorem Hart.advance_frozen (h : Hart) : (h.advance).frozen = h.frozen := by simp only [Hart.advance]; split <;> (try split) <;> (try split) <;> rfl
@[simp] theorem Hart.advance_killNext (h : Hart) : (h.advance).killNext = h.killNext := by simp only [Hart.advance]; split <;> (try split) <;> (try split) <;> rfl
@[simp] theorem Hart.advance_cmd (h : Hart) : (h.advance).cmd = h.cmd := by simp only [Hart.advance]; split <;> (try split) <;> (try split) <;> rfl
@[simp] theorem Hart.advance_lastPacket (h : Hart) : (h.advance).lastPacket = h.lastPacket := by simp only [Hart.advance]; split <;> (try split) <;> (try split) <;> rfl
@[simp] theorem Hart.advance_slice (h : Hart) : (h.advance).slice = h.slice := by simp only [Hart.advance]; split <;> (try split) <;> (try split) <;> rfl

-- Hart.lastUse
@[simp] theorem Hart.lastUse_x (h : Hart) (f : Fmt) : (h.lastUse f).x = h.x := by simp only [Hart.lastUse]; (repeat' split) <;> rfl
@[simp] theorem Hart.lastUse_v (h : Hart) (f : Fmt) : (h.lastUse f).v = h.v := by simp only [Hart.lastUse]; (repeat' split) <;> rfl
@[simp] theorem Hart.lastUse_p (h : Hart) (f : Fmt) : (h.lastUse f).p = h.p := by simp only [Hart.lastUse]; (repeat' split) <;> rfl
@[simp] theorem Hart.lastUse_apc (h : Hart) (f : Fmt) : (h.lastUse f).apc = h.apc := by simp only [Hart.lastUse]; (repeat' split) <;> rfl
@[simp] theorem Hart.lastUse_epc (h : Hart) (f : Fmt) : (h.lastUse f).epc = h.epc := by simp only [Hart.lastUse]; (repeat' split) <;> rfl
@[simp] theorem Hart.lastUse_branchQ (h : Hart) (f : Fmt) : (h.lastUse f).branchQ = h.branchQ := by simp only [Hart.lastUse]; (repeat' split) <;> rfl
@[simp] theorem Hart.lastUse_copyAE (h : Hart) (f : Fmt) : (h.lastUse f).copyAE = h.copyAE := by simp only [Hart.lastUse]; (repeat' split) <;> rfl
@[simp] theorem Hart.lastUse_copyEA (h : Hart) (f : Fmt) : (h.lastUse f).copyEA = h.copyEA := by simp only [Hart.lastUse]; (repeat' split) <;> rfl
@[simp] theorem Hart.lastUse_lag (h : Hart) (f : Fmt) : (h.lastUse f).lag = h.lag := by simp only [Hart.lastUse]; (repeat' split) <;> rfl
@[simp] theorem Hart.lastUse_erep (h : Hart) (f : Fmt) : (h.lastUse f).erep = h.erep := by simp only [Hart.lastUse]; (repeat' split) <;> rfl
@[simp] theorem Hart.lastUse_feed (h : Hart) (f : Fmt) : (h.lastUse f).feed = h.feed := by simp only [Hart.lastUse]; (repeat' split) <;> rfl
@[simp] theorem Hart.lastUse_pend (h : Hart) (f : Fmt) : (h.lastUse f).pend = h.pend := by simp only [Hart.lastUse]; (repeat' split) <;> rfl
@[simp] theorem Hart.lastUse_nextPend (h : Hart) (f : Fmt) : (h.lastUse f).nextPend = h.nextPend := by simp only [Hart.lastUse]; (repeat' split) <;> rfl
@[simp] theorem Hart.lastUse_xlating (h : Hart) (f : Fmt) : (h.lastUse f).xlating = h.xlating := by simp only [Hart.lastUse]; (repeat' split) <;> rfl
@[simp] theorem Hart.lastUse_aheadVpn (h : Hart) (f : Fmt) : (h.lastUse f).aheadVpn = h.aheadVpn := by simp only [Hart.lastUse]; (repeat' split) <;> rfl
@[simp] theorem Hart.lastUse_status (h : Hart) (f : Fmt) : (h.lastUse f).status = h.status := by simp only [Hart.lastUse]; (repeat' split) <;> rfl
@[simp] theorem Hart.lastUse_ipend (h : Hart) (f : Fmt) : (h.lastUse f).ipend = h.ipend := by simp only [Hart.lastUse]; (repeat' split) <;> rfl
@[simp] theorem Hart.lastUse_ienab (h : Hart) (f : Fmt) : (h.lastUse f).ienab = h.ienab := by simp only [Hart.lastUse]; (repeat' split) <;> rfl
@[simp] theorem Hart.lastUse_ivec (h : Hart) (f : Fmt) : (h.lastUse f).ivec = h.ivec := by simp only [Hart.lastUse]; (repeat' split) <;> rfl
@[simp] theorem Hart.lastUse_ipc (h : Hart) (f : Fmt) : (h.lastUse f).ipc = h.ipc := by simp only [Hart.lastUse]; (repeat' split) <;> rfl
@[simp] theorem Hart.lastUse_icause (h : Hart) (f : Fmt) : (h.lastUse f).icause = h.icause := by simp only [Hart.lastUse]; (repeat' split) <;> rfl
@[simp] theorem Hart.lastUse_irep (h : Hart) (f : Fmt) : (h.lastUse f).irep = h.irep := by simp only [Hart.lastUse]; (repeat' split) <;> rfl
@[simp] theorem Hart.lastUse_tcmp (h : Hart) (f : Fmt) : (h.lastUse f).tcmp = h.tcmp := by simp only [Hart.lastUse]; (repeat' split) <;> rfl
@[simp] theorem Hart.lastUse_cmask (h : Hart) (f : Fmt) : (h.lastUse f).cmask = h.cmask := by simp only [Hart.lastUse]; (repeat' split) <;> rfl
@[simp] theorem Hart.lastUse_repst (h : Hart) (f : Fmt) : (h.lastUse f).repst = h.repst := by simp only [Hart.lastUse]; (repeat' split) <;> rfl
@[simp] theorem Hart.lastUse_budget (h : Hart) (f : Fmt) : (h.lastUse f).budget = h.budget := by simp only [Hart.lastUse]; (repeat' split) <;> rfl
@[simp] theorem Hart.lastUse_deadline (h : Hart) (f : Fmt) : (h.lastUse f).deadline = h.deadline := by simp only [Hart.lastUse]; (repeat' split) <;> rfl
@[simp] theorem Hart.lastUse_qbind (h : Hart) (f : Fmt) : (h.lastUse f).qbind = h.qbind := by simp only [Hart.lastUse]; (repeat' split) <;> rfl
@[simp] theorem Hart.lastUse_roles (h : Hart) (f : Fmt) : (h.lastUse f).roles = h.roles := by simp only [Hart.lastUse]; (repeat' split) <;> rfl
@[simp] theorem Hart.lastUse_spill (h : Hart) (f : Fmt) : (h.lastUse f).spill = h.spill := by simp only [Hart.lastUse]; (repeat' split) <;> rfl
@[simp] theorem Hart.lastUse_spillMax (h : Hart) (f : Fmt) : (h.lastUse f).spillMax = h.spillMax := by simp only [Hart.lastUse]; (repeat' split) <;> rfl
@[simp] theorem Hart.lastUse_dest (h : Hart) (f : Fmt) : (h.lastUse f).dest = h.dest := by simp only [Hart.lastUse]; (repeat' split) <;> rfl
@[simp] theorem Hart.lastUse_rel (h : Hart) (f : Fmt) : (h.lastUse f).rel = h.rel := by simp only [Hart.lastUse]; (repeat' split) <;> rfl
@[simp] theorem Hart.lastUse_refusals (h : Hart) (f : Fmt) : (h.lastUse f).refusals = h.refusals := by simp only [Hart.lastUse]; (repeat' split) <;> rfl
@[simp] theorem Hart.lastUse_owed (h : Hart) (f : Fmt) : (h.lastUse f).owed = h.owed := by simp only [Hart.lastUse]; (repeat' split) <;> rfl
@[simp] theorem Hart.lastUse_timerSeen (h : Hart) (f : Fmt) : (h.lastUse f).timerSeen = h.timerSeen := by simp only [Hart.lastUse]; (repeat' split) <;> rfl
@[simp] theorem Hart.lastUse_running (h : Hart) (f : Fmt) : (h.lastUse f).running = h.running := by simp only [Hart.lastUse]; (repeat' split) <;> rfl
@[simp] theorem Hart.lastUse_waiting (h : Hart) (f : Fmt) : (h.lastUse f).waiting = h.waiting := by simp only [Hart.lastUse]; (repeat' split) <;> rfl
@[simp] theorem Hart.lastUse_inWfi (h : Hart) (f : Fmt) : (h.lastUse f).inWfi = h.inWfi := by simp only [Hart.lastUse]; (repeat' split) <;> rfl
@[simp] theorem Hart.lastUse_sleep (h : Hart) (f : Fmt) : (h.lastUse f).sleep = h.sleep := by simp only [Hart.lastUse]; (repeat' split) <;> rfl
@[simp] theorem Hart.lastUse_poweredDown (h : Hart) (f : Fmt) : (h.lastUse f).poweredDown = h.poweredDown := by simp only [Hart.lastUse]; (repeat' split) <;> rfl
@[simp] theorem Hart.lastUse_inRel (h : Hart) (f : Fmt) : (h.lastUse f).inRel = h.inRel := by simp only [Hart.lastUse]; (repeat' split) <;> rfl
@[simp] theorem Hart.lastUse_waited (h : Hart) (f : Fmt) : (h.lastUse f).waited = h.waited := by simp only [Hart.lastUse]; (repeat' split) <;> rfl
@[simp] theorem Hart.lastUse_groupsDone (h : Hart) (f : Fmt) : (h.lastUse f).groupsDone = h.groupsDone := by simp only [Hart.lastUse]; (repeat' split) <;> rfl
@[simp] theorem Hart.lastUse_spillSet (h : Hart) (f : Fmt) : (h.lastUse f).spillSet = h.spillSet := by simp only [Hart.lastUse]; (repeat' split) <;> rfl
@[simp] theorem Hart.lastUse_frozen (h : Hart) (f : Fmt) : (h.lastUse f).frozen = h.frozen := by simp only [Hart.lastUse]; (repeat' split) <;> rfl
@[simp] theorem Hart.lastUse_killNext (h : Hart) (f : Fmt) : (h.lastUse f).killNext = h.killNext := by simp only [Hart.lastUse]; (repeat' split) <;> rfl
@[simp] theorem Hart.lastUse_cmd (h : Hart) (f : Fmt) : (h.lastUse f).cmd = h.cmd := by simp only [Hart.lastUse]; (repeat' split) <;> rfl
@[simp] theorem Hart.lastUse_lastPacket (h : Hart) (f : Fmt) : (h.lastUse f).lastPacket = h.lastPacket := by simp only [Hart.lastUse]; (repeat' split) <;> rfl
@[simp] theorem Hart.lastUse_slice (h : Hart) (f : Fmt) : (h.lastUse f).slice = h.slice := by simp only [Hart.lastUse]; (repeat' split) <;> rfl

-- What is read back

@[simp] theorem Hart.setPc_pc (h : Hart) (a : W64) : (h.setPc a).pc = a := rfl
@[simp] theorem Hart.setPc_apc (h : Hart) (a : W64) : (h.setPc a).apc = a := rfl
@[simp] theorem Hart.setPc_epc (h : Hart) (a : W64) : (h.setPc a).epc = a := rfl
@[simp] theorem Hart.awaken_pc (h : Hart) : h.awaken.pc = h.pc := rfl
@[simp] theorem Hart.join_pc (h : Hart) : h.join.pc = h.pc := rfl

end Sys2Proof.Machine
end

