-- ==== Sys2Proof/Laws/Memory.lean ====
section
/-! SUPPORT. Tables and memory: reading what was written, and the canonical form kept by every memory operation. -/

namespace Sys2Proof

-- Tables.

theorem Tab.get_put_same {α : Type} (d : α) (t : Tab α) (k : Nat) (v : α) : Tab.get d (Tab.put t k v) k = v := by
  induction t with
  | nil => simp [Tab.put, Tab.get]
  | cons e t ih =>
    obtain ⟨a, w⟩ := e
    simp only [Tab.put]
    split
    · simp [Tab.get]
    · split
      · simp [Tab.get]
      · simp [Tab.get, *]

theorem Tab.get_put_other {α : Type} (d : α) (t : Tab α) (k j : Nat) (v : α) (h : j ≠ k) :
    Tab.get d (Tab.put t k v) j = Tab.get d t j := by
  induction t with
  | nil => simp [Tab.put, Tab.get, Ne.symm h]
  | cons e t ih =>
    obtain ⟨a, w⟩ := e
    simp only [Tab.put]
    split
    · subst_vars; simp [Tab.get, Ne.symm h]
    · split
      · simp [Tab.get, Ne.symm h]
      · simp [Tab.get, ih]

theorem Tab.get_put {α : Type} (d : α) (t : Tab α) (k j : Nat) (v : α) :
    Tab.get d (Tab.put t k v) j = if j = k then v else Tab.get d t j := by
  split
  · subst_vars; exact Tab.get_put_same d t _ v
  · exact Tab.get_put_other d t k j v ‹_›

-- Sorted lists.

/-- The first key of a list lies above `k`, or the list is empty. -/
def Tab.above {α : Type} (k : Nat) : Tab α → Prop
  | [] => True
  | (a, _) :: _ => k < a

theorem Tab.sorted_cons {α : Type} (a : Nat) (w : α) (t : Tab α) :
    Tab.sorted ((a, w) :: t) = true ↔ Tab.above a t ∧ Tab.sorted t = true := by
  cases t with
  | nil => simp [Tab.sorted, Tab.above]
  | cons e t => obtain ⟨b, x⟩ := e; simp [Tab.sorted, Tab.above]

theorem Tab.above_trans {α : Type} {j k : Nat} {t : Tab α} (h : j < k) (ht : Tab.above k t) : Tab.above j t := by
  cases t with
  | nil => trivial
  | cons e t => obtain ⟨b, x⟩ := e; simp [Tab.above] at *; omega

theorem Tab.get_above {α : Type} (d : α) {t : Tab α} : ∀ {k j : Nat}, Tab.above k t → Tab.sorted t = true → j ≤ k →
    Tab.get d t j = d := by
  induction t with
  | nil => intros; rfl
  | cons e t ih =>
    obtain ⟨b, x⟩ := e
    intro k j ha hs hj
    have h := (Tab.sorted_cons b x t).1 hs
    simp only [Tab.above] at ha
    simp only [Tab.get]
    rw [if_neg (by omega)]
    exact ih h.1 h.2 (by omega)

-- One byte written.

theorem Mem.write_above {m : Mem} {k a : Nat} {v : Byte} (hm : Tab.above a m) (hs : Tab.sorted m = true) (h : a < k) :
    Tab.above a (Mem.write m k v) := by
  cases m with
  | nil => simp only [Mem.write]; split <;> simp [Tab.above, h]
  | cons e t =>
    obtain ⟨b, w⟩ := e
    have hb := (Tab.sorted_cons b w t).1 hs
    simp only [Tab.above] at hm
    simp only [Mem.write]
    split
    · split
      · exact Tab.above_trans hm hb.1
      · simp [Tab.above, h]
    · split
      · split
        · simp [Tab.above, hm]
        · simp [Tab.above, h]
      · simp [Tab.above, hm]

theorem Mem.write_sorted {m : Mem} (k : Nat) (v : Byte) (hs : Tab.sorted m = true) :
    Tab.sorted (Mem.write m k v) = true := by
  induction m with
  | nil => simp only [Mem.write]; split <;> rfl
  | cons e t ih =>
    obtain ⟨b, w⟩ := e
    have hb := (Tab.sorted_cons b w t).1 hs
    simp only [Mem.write]
    split
    · split
      · exact hb.2
      · subst_vars; exact (Tab.sorted_cons _ v t).2 hb
    · split
      · split
        · exact hs
        · exact (Tab.sorted_cons _ v _).2 ⟨by simpa [Tab.above], hs⟩
      · exact (Tab.sorted_cons _ w _).2 ⟨Mem.write_above hb.1 hb.2 (by omega), ih hb.2⟩

theorem Mem.write_noBlank {m : Mem} (k : Nat) (v : Byte) (h : m.all (fun e => e.2 != Mem.blank) = true) :
    (Mem.write m k v).all (fun e => e.2 != Mem.blank) = true := by
  induction m with
  | nil => simp only [Mem.write]; split <;> simp_all
  | cons e t ih =>
    obtain ⟨b, w⟩ := e
    have h' := h
    simp only [List.all_cons, Bool.and_eq_true] at h'
    simp only [Mem.write]
    split
    · split
      · exact h'.2
      · rw [List.all_cons, h'.2]; simpa
    · split
      · split
        · exact h
        · rw [List.all_cons, h]; simpa
      · rw [List.all_cons, ih h'.2, h'.1]; rfl

/-- A written byte keeps the canonical form. -/
theorem Mem.write_wf {m : Mem} (k : Nat) (v : Byte) (h : Mem.wf m = true) : Mem.wf (Mem.write m k v) = true := by
  simp only [Mem.wf, Bool.and_eq_true] at *
  exact ⟨Mem.write_sorted k v h.1, Mem.write_noBlank k v h.2⟩

/-- A written byte reads back, and every other byte reads as before. -/
theorem Mem.read_write {m : Mem} (k j : Nat) (v : Byte) (h : Tab.sorted m = true) :
    Mem.read (Mem.write m k v) j = if j = k then v else Mem.read m j := by
  unfold Mem.read
  induction m with
  | nil =>
    simp only [Mem.write]
    split
    · subst_vars; simp [Tab.get]
    · by_cases hj : j = k
      · subst_vars; simp [Tab.get]
      · simp [Tab.get, hj, Ne.symm hj]
  | cons e t ih =>
    obtain ⟨b, w⟩ := e
    have hb := (Tab.sorted_cons b w t).1 h
    simp only [Mem.write]
    split
    · subst_vars
      split
      · subst_vars
        by_cases hj : j = b
        · subst_vars; simpa using Tab.get_above _ hb.1 hb.2 (Nat.le_refl _)
        · simp [Tab.get, hj, Ne.symm hj]
      · by_cases hj : j = b
        · subst_vars; simp [Tab.get]
        · simp [Tab.get, hj, Ne.symm hj]
    · split
      · split
        · subst_vars
          by_cases hj : j = k
          · subst_vars
            rw [if_pos rfl, Tab.get, if_neg (by omega)]
            exact Tab.get_above _ hb.1 hb.2 (by omega)
          · simp [hj]
        · by_cases hj : j = k
          · subst_vars; simp [Tab.get]
          · rw [if_neg hj, Tab.get, if_neg (Ne.symm hj)]
      · simp only [Tab.get, ih hb.2]
        by_cases hj : b = j
        · subst_vars; simp; intro; contradiction
        · simp [hj]

/-- Stored bytes keep the canonical form. -/
theorem Mem.writeL_wf {m : Mem} (a : Nat) (bs : List Byte) (h : Mem.wf m = true) : Mem.wf (Mem.writeL m a bs) = true := by
  induction bs generalizing m a with
  | nil => exact h
  | cons b bs ih => exact ih _ (Mem.write_wf a b h)

/-- A byte outside a stored run reads as before. -/
theorem Mem.read_writeL_outside {m : Mem} (a : Nat) (bs : List Byte) (h : Mem.wf m = true) (j : Nat)
    (hj : j < a ∨ a + bs.length ≤ j) : Mem.read (Mem.writeL m a bs) j = Mem.read m j := by
  induction bs generalizing m a with
  | nil => rfl
  | cons b bs ih =>
    simp only [List.length_cons] at hj
    rw [Mem.writeL, ih _ (Mem.write_wf a b h) (by omega), Mem.read_write _ _ _ (by simp_all [Mem.wf]), if_neg (by omega)]

/-- A stored byte reads back. -/
theorem Mem.read_writeL_inside {m : Mem} (a : Nat) (bs : List Byte) (h : Mem.wf m = true) (i : Nat) (hi : i < bs.length) :
    Mem.read (Mem.writeL m a bs) (a + i) = bs[i] := by
  induction bs generalizing m a i with
  | nil => simp at hi
  | cons b bs ih =>
    cases i with
    | zero =>
      rw [Mem.writeL, Mem.read_writeL_outside _ _ (Mem.write_wf a b h) _ (by omega),
        Mem.read_write _ _ _ (by simp_all [Mem.wf])]
      simp
    | succ i =>
      have := ih (a + 1) (Mem.write_wf a b h) i (by simpa using hi)
      rw [Mem.writeL]
      simpa [Nat.add_assoc, Nat.add_comm 1 i] using this

/-- Bytes written at chosen addresses keep the canonical form. -/
theorem Mem.foldl_write_wf {α : Type} (f : α → Nat) (g : α → Byte) (l : List α) {m : Mem} (h : Mem.wf m = true) :
    Mem.wf (l.foldl (fun mm p => Mem.write mm (f p) (g p)) m) = true := by
  induction l generalizing m with
  | nil => exact h
  | cons p l ih => exact ih (Mem.write_wf _ _ h)

namespace Machine

theorem Mem.clear_above {m : Mem} {k lo n : Nat} (h : Tab.above k m) (hs : Tab.sorted m = true) :
    Tab.above k (Mem.clear m lo n) := by
  induction m with
  | nil => exact h
  | cons e t ih =>
    obtain ⟨b, w⟩ := e
    have hb := (Tab.sorted_cons b w t).1 hs
    simp only [Tab.above] at h
    unfold Mem.clear
    rw [List.filter_cons]
    split
    · simpa [Tab.above]
    · exact ih (Tab.above_trans h hb.1) hb.2

/-- A cleared range keeps the canonical form. -/
theorem Mem.clear_wf {m : Mem} (lo n : Nat) (h : Mem.wf m = true) : Mem.wf (Mem.clear m lo n) = true := by
  simp only [Mem.wf, Bool.and_eq_true] at *
  refine ⟨?_, ?_⟩
  · obtain ⟨hs, -⟩ := h
    induction m with
    | nil => rfl
    | cons e t ih =>
      obtain ⟨b, w⟩ := e
      have hb := (Tab.sorted_cons b w t).1 hs
      unfold Mem.clear
      rw [List.filter_cons]
      split
      · exact (Tab.sorted_cons _ _ _).2 ⟨Mem.clear_above hb.1 hb.2, ih hb.2⟩
      · exact ih hb.2
  · have h2 := h.2
    rw [List.all_eq_true] at *
    intro e he
    exact h2 e (List.mem_of_mem_filter he)

/-- Both memories of a state are in their canonical form. -/
def State.memWf (s : State) : Bool := Mem.wf s.mem && Mem.wf s.spad

theorem State.reset_memWf : State.reset.memWf = true := by decide

theorem memWrite_wf {s : State} (c p : Nat) (bs : List Byte) (h : s.memWf = true) : (memWrite s c p bs).memWf = true := by
  simp only [State.memWf, Bool.and_eq_true] at *
  exact ⟨Mem.writeL_wf p bs h.1, h.2⟩

theorem spadWrite_wf {s : State} (k c o : Nat) (bs : List Byte) (h : s.memWf = true) :
    (spadWrite s k c o bs).memWf = true := by
  simp only [State.memWf, Bool.and_eq_true] at *
  exact ⟨h.1, Mem.writeL_wf _ bs h.2⟩

theorem spadZero_wf {s : State} (k c : Nat) (h : s.memWf = true) : (spadZero s k c).memWf = true := by
  simp only [State.memWf, Bool.and_eq_true] at *
  exact ⟨h.1, Mem.clear_wf _ _ h.2⟩

/-- A write to device memory: the bytes stored, and every byte outside them as before. -/
theorem memWrite_read {s : State} (c p : Nat) (bs : List Byte) (h : Mem.wf s.mem = true) (j : Nat)
    (hj : j < p ∨ p + bs.length ≤ j) : Mem.read (memWrite s c p bs).mem j = Mem.read s.mem j :=
  Mem.read_writeL_outside p bs h j hj

end Machine

end Sys2Proof
end

