-- ==== Sys2Proof/Laws/Operands.lean ====
section
/-! SUPPORT. What the shared operations over registers and operands can do, each said once. -/

namespace Sys2Proof

/-- A second value at a key replaces the first. -/
theorem Tab.put_put {α : Type} (t : Tab α) (k : Nat) (v w : α) : Tab.put (Tab.put t k v) k w = Tab.put t k w := by
  induction t with
  | nil => simp [Tab.put]
  | cons e t ih =>
    obtain ⟨a, x⟩ := e
    simp only [Tab.put]
    split
    · simp [Tab.put]
    · split
      · simp [Tab.put]
      · simp [Tab.put, *]

namespace Machine

open Sys2Proof.Safety

-- The current hart.

theorem State.bank_setBank_same (s : State) (i c : Nat) (h : Hart) : (s.setBank i c h).bank i c = h :=
  Tab.get_put_same _ _ _ _

theorem State.bank_setBank_other (s : State) (i c j d : Nat) (h : Hart) (hk : j * 128 + d ≠ i * 128 + c) :
    (s.setBank i c h).bank j d = s.bank j d :=
  Tab.get_put_other _ _ _ _ _ hk

@[simp] theorem State.ctxOf_modMe (s : State) (g : Hart → Hart) (c : Nat) : (s.modMe g).ctxOf c = s.ctxOf c := rfl
@[simp] theorem State.myCtx_modMe (s : State) (g : Hart → Hart) : (s.modMe g).myCtx = s.myCtx := rfl
@[simp] theorem State.myCore_modMe (s : State) (g : Hart → Hart) : (s.modMe g).myCore = s.myCore := rfl
@[simp] theorem State.core_modMe (s : State) (g : Hart → Hart) (c : Nat) : (s.modMe g).core c = s.core c := rfl
@[simp] theorem State.unit_modMe (s : State) (g : Hart → Hart) (c x : Nat) : (s.modMe g).unit c x = s.unit c x := rfl
@[simp] theorem State.ring_modMe (s : State) (g : Hart → Hart) (c x n : Nat) : (s.modMe g).ring c x n = s.ring c x n := rfl
@[simp] theorem State.link_modMe (s : State) (g : Hart → Hart) (c x n : Nat) : (s.modMe g).link c x n = s.link c x n := rfl

@[simp] theorem State.me_setMe (s : State) (h : Hart) : (s.setMe h).me = h :=
  State.bank_setBank_same s _ _ h

@[simp] theorem State.me_modMe (s : State) (g : Hart → Hart) : (s.modMe g).me = g s.me := State.me_setMe s _

theorem State.modMe_modMe (s : State) (g k : Hart → Hart) : (s.modMe g).modMe k = s.modMe (fun h => k (g h)) := by
  have h1 : (s.modMe g).me = g s.me := State.me_modMe s g
  unfold State.modMe at *
  rw [h1]
  simp only [State.setMe, State.setHart, State.setBank]
  congr 1
  exact Tab.put_put _ _ _ _

-- How an instruction ends.

theorem settle_ok (t : State) : settle (.ok t) = .next (ended t) := rfl

theorem settle_wait (t : State) : settle (.error (.wait t)) = .next (t.modMe (fun h => { h with waiting := true })) := rfl

theorem settle_fault (t : State) (f : TrapInfo) : settle (.error (.fault t f)) = .next (t.dropAnswers.takeFault f) := rfl

/-- An instruction never stops the machine. -/
theorem settle_next (r : Act State) : ∃ t, settle r = .next t := by
  cases r with
  | ok s => exact ⟨_, rfl⟩
  | error e => cases e <;> exact ⟨_, rfl⟩

theorem scalarRun_on {f : Fmt} {s : State} (h : guardOn f s = true) (b : Act State) : scalarRun f s b = settle b := by
  simp [scalarRun, h]

theorem scalarRun_off {f : Fmt} {s : State} (h : guardOn f s = false) (b : Act State) : scalarRun f s b = skip s := by
  simp [scalarRun, h]

/-- An instruction without a result marks its last uses and goes on. -/
theorem putNone_ok (f : Fmt) (s : State) : putNone f s = .ok (passed (used f s)) := by
  simp only [putNone, done, passed, used, State.modMe_modMe, id]

-- Producer slots.

/-- A sequence that completes: its first part completed, and the rest on that part's value. -/
theorem bind_ok {ε α β : Type} {x : Except ε α} {k : α → Except ε β} {r : β} :
    (x >>= k) = .ok r ↔ ∃ a, x = .ok a ∧ k a = .ok r := by
  cases x <;> simp [bind, Except.bind]

theorem waitFor_ok {b : Bool} {s : State} {u : Unit} : waitFor b s = .ok u ↔ b = true := by
  cases b <;> simp [waitFor, hold]

theorem need_ok {b : Bool} {s : State} {f : TrapInfo} {u : Unit} : need b s f = .ok u ↔ b = true := by
  cases b <;> simp [need, fail]

theorem linkEnd_modMe {s : State} (g : Hart → Hart) {n : Fin 16} {e : Handle} (h : linkEnd s n = .ok e) :
    linkEnd (s.modMe g) n = .ok e := by
  have hl : (s.modMe g).link (s.modMe g).myCore (s.modMe g).myCtx (linkKey (slotOf (s.modMe g).cur) n.val)
      = s.link s.myCore s.myCtx (linkKey (slotOf s.cur) n.val) := rfl
  unfold linkEnd at *
  dsimp only at *
  rw [hl]
  cases hk : s.link s.myCore s.myCtx (linkKey (slotOf s.cur) n.val) with
  | none => rw [hk] at h; cases h
  | some l =>
    rw [hk] at h
    dsimp only at *
    by_cases hh : l.held = true
    · rw [if_pos hh] at h; cases h
    · rw [if_neg hh] at h ⊢; exact h

/-- A producer end looks at a hart's handle bindings and roles alone. -/
theorem producerEnd_modMe {s : State} {g : Hart → Hart} (n : Fin 16) (hq : (g s.me).qbind = s.me.qbind)
    (hr : (g s.me).roles = s.me.roles) {e : Handle} (h : producerEnd s n = .ok e) :
    producerEnd (s.modMe g) n = .ok e := by
  unfold producerEnd at *
  have hrole : roleOf (g s.me) n = roleOf s.me n := by simp [roleOf, hr]
  obtain ⟨u, hu, h⟩ := bind_ok.1 h
  obtain ⟨u', hb, h⟩ := bind_ok.1 h
  refine bind_ok.2 ⟨(), waitFor_ok.2 (waitFor_ok.1 hu), bind_ok.2 ⟨(), need_ok.2 ?_, ?_⟩⟩
  · rw [State.me_modMe, hq]; exact need_ok.1 hb
  · rw [State.me_modMe, hq, hrole]
    generalize qbMode s.me.qbind[n] = m at h ⊢
    match m with
    | 0 =>
      by_cases hT : ((s.ring s.myCore s.myCtx n.val).tour || (s.ring s.myCore s.myCtx n.val).stage) = true
      · exact absurd ((if_pos hT).symm.trans h) (by simp [fail])
      · exact (if_neg hT).trans ((if_neg hT).symm.trans h)
    | 1 => exact linkEnd_modMe g h
    | 2 => cases h
    | m + 3 =>
      by_cases hT : (roleOf s.me n == 1) = true
      · exact absurd ((if_pos hT).symm.trans h) (by simp [fail])
      · exact (if_neg hT).trans (linkEnd_modMe g ((if_neg hT).symm.trans h))

/-- Room stays where it was found, whatever else of the hart changes. -/
theorem queueReady_modMe {s : State} {g : Hart → Hart} (n : Fin 16) (c : Fin 32) (hq : (g s.me).qbind = s.me.qbind)
    (hr : (g s.me).roles = s.me.roles) {e : Handle} (h : queueReady s n c = .ok e) :
    queueReady (s.modMe g) n c = .ok e := by
  unfold queueReady at *
  obtain ⟨e', hp, h⟩ := bind_ok.1 h
  obtain ⟨u, hs, h⟩ := bind_ok.1 h
  obtain ⟨u', hw, h⟩ := bind_ok.1 h
  refine bind_ok.2 ⟨e', producerEnd_modMe n hq hr hp, bind_ok.2 ⟨(), need_ok.2 ?_, bind_ok.2 ⟨(), waitFor_ok.2 ?_, ?_⟩⟩⟩
  · rw [← need_ok.1 hs]
  · rw [← waitFor_ok.1 hw]; cases e' <;> rfl
  · cases h; rfl

theorem dstReady_q {s : State} {n : Fin 16} {c : Fin 32} (h : dstReady s (.q n c) = .ok ()) :
    ∃ e, queueReady s n c = .ok e := by
  simp only [dstReady, bind, Except.bind] at h
  cases hq : queueReady s n c with
  | ok e => exact ⟨e, rfl⟩
  | error x => rw [hq] at h; cases h

-- Results.

/-- Where there is room, a 64-bit result is delivered. -/
theorem put64_ok {f : Fmt} {s : State} (v : W64) (h : dstReady s f.d = .ok ()) :
    ∃ t, put64 f s v = .ok t ∧ Wrote64 f s v (ended t) := by
  unfold put64
  rw [h]
  simp only [bind, Except.bind]
  unfold Wrote64
  cases hd : f.d with
  | q n c =>
    rw [hd] at h
    obtain ⟨e, he⟩ := dstReady_q h
    have hq := queueReady_modMe (g := fun h => h.lastUse f) n c (Hart.lastUse_qbind _ _) (Hart.lastUse_roles _ _) he
    refine ⟨passed (slotWrite (used f s) e c.val (v.zeroExtend 512)), ?_, e, he, rfl⟩
    simp only [dst64, hq, bind, Except.bind]
    rfl
  | _ => exact ⟨_, rfl, rfl⟩

/-- Where there is room, a 64-byte result is delivered. -/
theorem put512_ok {f : Fmt} {s : State} (v : V512) (h : dstReady s f.d = .ok ()) :
    ∃ t, put512 f s v = .ok t ∧ Wrote512 f s v (ended t) := by
  unfold put512
  rw [h]
  simp only [bind, Except.bind]
  unfold Wrote512
  cases hd : f.d with
  | q n c =>
    rw [hd] at h
    obtain ⟨e, he⟩ := dstReady_q h
    have hq := queueReady_modMe (g := fun h => h.lastUse f) n c (Hart.lastUse_qbind _ _) (Hart.lastUse_roles _ _) he
    refine ⟨passed (slotWrite (used f s) e c.val v), ?_, e, he, rfl⟩
    simp only [dst512, hq, bind, Except.bind]
    rfl
  | _ => exact ⟨_, rfl, rfl⟩

theorem gives64_of_put {i : Instr} {f : Fmt} {s s1 : State} {v : W64} (hx : exec i s = settle (put64 f s1 v))
    (h : dstReady s1 f.d = .ok ()) : Gives64 i f s s1 v := by
  obtain ⟨t, ht, hw⟩ := put64_ok v h
  exact ⟨ended t, by rw [hx, ht, settle_ok], hw⟩

theorem gives512_of_put {i : Instr} {f : Fmt} {s s1 : State} {v : V512} (hx : exec i s = settle (put512 f s1 v))
    (h : dstReady s1 f.d = .ok ()) : Gives512 i f s s1 v := by
  obtain ⟨t, ht, hw⟩ := put512_ok v h
  exact ⟨ended t, by rw [hx, ht, settle_ok], hw⟩

end Machine

end Sys2Proof
end

