-- ==== Sys2Proof/Laws/Access.lean ====
section
/-! SUPPORT. Accesses that travel: what a trip, a release's wait and a posted write can do, each said once. -/

namespace Sys2Proof.Machine

open Sys2Proof.Safety

-- Accesses by request and response.

/-- A trip whose answer has come uses it, once. -/
theorem trip_answered {s : State} {r : Request} {q : Response} (hf : fabricRefusal s r.place r.ctx = none)
    (h : s.inbox.find? r.answeredBy = some q) :
    trip s r = .ok (({ s with inbox := s.inbox.erase q } : State).dropAhead r.agent r.ctx r.place, q) := by
  simp only [trip, hf, h]

/-- A trip that nothing has asked for yet sends its request and waits. -/
theorem trip_sends {s : State} {r : Request} (hf : fabricRefusal s r.place r.ctx = none)
    (h : s.inbox.find? r.answeredBy = none) (ha : s.asked r = false) (hw : s.fabricWaits r.place = false) :
    trip s r = hold (s.sendReq r) := by
  simp [trip, hf, h, ha, hw]

/-- A trip to a peer during a domain barrier sends nothing and waits, but that of a drill processor (R497). -/
theorem trip_holds {s : State} {r : Request} (hf : fabricRefusal s r.place r.ctx = none)
    (h : s.inbox.find? r.answeredBy = none) (ha : s.asked r = false) (hd : r.agent.isDrill = false)
    (hw : s.fabricWaits r.place = true) :
    trip s r = hold s := by
  simp [trip, hf, h, ha, hw, hd]

/-- A trip that has been asked for waits for its answer. -/
theorem trip_waits {s : State} {r : Request} (hf : fabricRefusal s r.place r.ctx = none)
    (h : s.inbox.find? r.answeredBy = none) (ha : s.asked r = true) : trip s r = hold (s.claim r) := by
  simp [trip, hf, h, ha]

/-- A trip that completes was refused by the fabric, with nothing changed, or used the answer that had come. -/
theorem trip_ok {s t : State} {r : Request} {q : Response} (h : trip s r = .ok (t, q)) :
    (∃ st, fabricRefusal s r.place r.ctx = some st ∧ t = s ∧ q.status = st) ∨
    (fabricRefusal s r.place r.ctx = none ∧ s.inbox.find? r.answeredBy = some q ∧
      t = ({ s with inbox := s.inbox.erase q } : State).dropAhead r.agent r.ctx r.place) := by
  unfold trip at h
  split at h
  · rename_i st hst
    cases h
    exact .inl ⟨st, hst, rfl, rfl⟩
  · rename_i hn
    split at h
    · rename_i q' hq
      cases h
      exact .inr ⟨hn, hq, rfl⟩
    · cases h

/-- A trip never faults. -/
theorem trip_no_fault {s t : State} {r : Request} {f : TrapInfo} : trip s r ≠ .error (.fault t f) := by
  intro h
  unfold trip at h
  split at h
  · cases h
  · split at h <;> cases h

/-- An answer that reports nothing passes. -/
theorem peerCheck_ok {s : State} {st : RespStatus} {va : W64} :
    peerCheck s st va = .ok () ↔ st = .ok ∨ st = .duplicate := by
  cases st <;> simp [peerCheck, peerFault, fail]

/-- Keeping answers changes no outcome but a wait. -/
theorem keepAnswers_ok {α : Type} {s : State} {r : Act α} {a : α} : keepAnswers s r = .ok a ↔ r = .ok a := by
  cases r with
  | ok b => simp [keepAnswers]
  | error e => cases e <;> simp [keepAnswers]

-- Interlocks.

/-- No wait has been made, and none is needed: an access goes on as it is. -/
theorem afterInterlock_none {s : State} (h : s.me.waited = []) : afterInterlock s = s := by
  simp [afterInterlock, h]

theorem interlock_ok {s : State} {a : Acc} {va : W64} {n : Nat} :
    interlock s a va n = .ok () ↔
      (if a = .load then loadBlocked s.myUnit.jobs (va56 va) n else storeBlocked s.myUnit.jobs (va56 va) n) = false := by
  simp only [interlock, hold]
  split <;> simp_all

-- Releases.

/-- A release's wait is over once the hart's writes are performed at its scope and no refusal is owed. -/
theorem coverWait_ok {s : State} {scope : Nat} :
    coverWait s scope = .ok () ↔
      (scope < 2 ∧ coreWrites s = false) ∨ (2 ≤ scope ∧ writesPending s = false ∧ s.me.refusals = []) := by
  unfold coverWait
  by_cases h : scope ≥ 2
  · simp only [if_pos h, bind_ok, waitFor_ok, takeRefusal]
    cases hr : s.me.refusals <;> simp [fail, h, Nat.not_lt.2 h]
  · rw [if_neg h, waitFor_ok]
    simp [h]; omega

-- Posted writes.

/-- A write to a scratchpad leaves as one message, and nothing else changes but reads made ahead of it. -/
theorem post_spad (s : State) (core off n : Nat) (m : W64) (d : V512) (va : W64) :
    s.post (.spad core off) n m d va =
      { s.dropAhead (.hart s.cur) s.myCtx (.spad core off) with
        reqNet := (s.dropAhead (.hart s.cur) s.myCtx (.spad core off)).reqNet ++
          [s.hartWrite (.spad core off) n m d va] } := rfl

end Sys2Proof.Machine
end

