-- ==== Sys2Proof/Laws/Lanes.lean ====
section
/-! SUPPORT. Lanes of vector registers: taking them apart and putting them together, and what the masked write of a
vector result can do. -/

namespace Sys2Proof.Machine

open Sys2Proof.Safety

theorem lane_lanesOf (w : Nat) (v : V512) (k : Nat) (hk : k < 512 / w) :
    lane (lanesOf w v) k = v.toNat / 2 ^ (w * k) % 2 ^ w := by
  simp [lane, lanesOf, hk]

theorem lane_map_range (n : Nat) (g : Nat → Nat) (k : Nat) (hk : k < n) : lane ((List.range n).map g) k = g k := by
  simp [lane, hk]

theorem lane_zipWith (op : Nat → Nat → Nat) (a b : List Nat) (k : Nat) (ha : k < a.length) (hb : k < b.length) :
    lane (List.zipWith op a b) k = op (lane a k) (lane b k) := by
  simp [lane, ha, hb]

theorem lane_map (op : Nat → Nat) (a : List Nat) (k : Nat) (ha : k < a.length) : lane (a.map op) k = op (lane a k) := by
  simp [lane, ha]

theorem packLanes_div (w : Nat) (l : List Nat) (k : Nat) : packLanes w l / 2 ^ (w * k) % 2 ^ w = lane l k % 2 ^ w := by
  induction l generalizing k with
  | nil => simp [packLanes, lane]
  | cons x xs ih =>
    cases k with
    | zero => simp [packLanes, lane]
    | succ k =>
      have h : packLanes w (x :: xs) / 2 ^ w = packLanes w xs := by
        have hx : x % 2 ^ w < 2 ^ w := Nat.mod_lt _ (by positivity)
        rw [packLanes, Nat.add_mul_div_left _ _ (by positivity), Nat.div_eq_of_lt hx, Nat.zero_add]
      rw [show w * (k + 1) = w + w * k by ring, Nat.pow_add, ← Nat.div_div_eq_div_mul, h, ih k]
      simp [lane]

theorem packLanes_lt (w : Nat) (l : List Nat) : packLanes w l < 2 ^ (w * l.length) := by
  induction l with
  | nil => simp [packLanes]
  | cons x xs ih =>
    have hx : x % 2 ^ w < 2 ^ w := Nat.mod_lt _ (by positivity)
    rw [List.length_cons, show w * (xs.length + 1) = w + w * xs.length by ring, Nat.pow_add, packLanes]
    calc x % 2 ^ w + 2 ^ w * packLanes w xs < 2 ^ w + 2 ^ w * packLanes w xs := by omega
      _ = 2 ^ w * (packLanes w xs + 1) := by ring
      _ ≤ 2 ^ w * 2 ^ (w * xs.length) := Nat.mul_le_mul_left _ ih

/-- A register made of lanes has those lanes. -/
theorem lane_ofLanes (w : Nat) (l : List Nat) (hl : l.length = 512 / w) (k : Nat) (hk : k < 512 / w) :
    lane (lanesOf w (ofLanes w l)) k = lane l k % 2 ^ w := by
  have hle : w * l.length ≤ 512 := by rw [hl]; exact Nat.mul_div_le 512 w
  have hlt : packLanes w l < 2 ^ 512 := lt_of_lt_of_le (packLanes_lt w l) (Nat.pow_le_pow_right (by decide) hle)
  rw [lane_lanesOf w _ k hk, ofLanes, BitVec.toNat_ofNat, Nat.mod_eq_of_lt hlt, packLanes_div]

theorem lanesOf_length (w : Nat) (v : V512) : (lanesOf w v).length = 512 / w := by simp [lanesOf]

theorem lanes_eq (t : Ty) : t.lanes = 512 / t.laneWidth := rfl

/-- A vector source gives one value for each lane. -/
theorem srcLanes_length {s : State} {t : Ty} {o : Operand} {imm : W32} {l : List Nat}
    (h : srcLanes s t o imm = .ok l) : l.length = t.lanes := by
  unfold srcLanes at h
  split at h
  · cases h; exact lanesOf_length _ _
  · obtain ⟨v, -, h⟩ := bind_ok.1 h; cases h; exact lanesOf_length _ _
  all_goals cases h; simp

/-- The former lanes of a destination lie in range. -/
theorem lane_oldLanes_mod (s : State) (w : Nat) (o : Operand) (k : Nat) (hk : k < 512 / w) :
    lane (oldLanes s w o) k % 2 ^ w = lane (oldLanes s w o) k := by
  unfold oldLanes
  split
  · rw [lane_lanesOf w _ k hk, Nat.mod_mod]
  · simp [lane, hk]

/-- A masked write: enabled lanes take the new values, the others keep theirs. -/
theorem putLanes_lanes {i : Instr} {f : Fmt} {s s1 : State} {w : Nat} {new : List Nat}
    (hx : exec i s = settle (putLanes f s1 w new)) (hd : dstReady s1 f.d = .ok ()) :
    LaneResultAt i f s s1 w (fun k => lane new k) := by
  refine ⟨_, gives512_of_put hx hd, fun k hk => ?_⟩
  rw [lane_ofLanes w _ (by simp) k hk, lane_map_range _ _ _ hk]
  split
  · rfl
  · exact lane_oldLanes_mod s1 w f.d k hk

end Sys2Proof.Machine
end

