-- ==== Sys2Proof/Laws/Swap.lean ====
section
/-! SUPPORT. The code of a save area gives back the region it holds (R476). -/

namespace Sys2Proof.Machine

/-- A list of one value is so many copies of it. -/
theorem all_zero_eq {g : List Byte} (h : g.all (fun b => b == 0) = true) : g = List.replicate g.length 0 := by
  rw [List.eq_replicate_iff]
  exact ⟨rfl, fun b hb => by simpa using List.all_eq_true.mp h b hb⟩

/-- A granule decodes from its code, whatever follows. -/
theorem decode_codeGranule {prev : Option (List Byte)} {p g : List Byte} (rest : List Byte) (hg : g.length = 64)
    (hp : ∀ q, prev = some q → p = q) : decodeGranule p (codeGranule prev g ++ rest) = (g, rest) := by
  unfold codeGranule
  split
  · rename_i h
    simpa [decodeGranule, hg] using (all_zero_eq h).symm
  · split
    · rename_i h
      simp [decodeGranule, hp g (by simpa using h)]
    · split
      · rename_i h
        have e : g = (List.replicate 16 (g.take 4)).flatten := by simpa using h
        have l : (g.take 4).length = 4 := by simp [hg]
        have k : (g.take 4 ++ rest).take 4 = g.take 4 := by rw [List.take_append_of_le_length (by omega)]; simp
        have d : (g.take 4 ++ rest).drop 4 = rest := List.drop_left' l
        simp only [decodeGranule, List.cons_append]
        show ((List.replicate 16 ((g.take 4 ++ rest).take 4)).flatten, (g.take 4 ++ rest).drop 4) = (g, rest)
        rw [k, d, ← e]
      · have k : (g ++ rest).take 64 = g := by rw [← hg, List.take_left]
        have d : (g ++ rest).drop 64 = rest := by rw [← hg, List.drop_left]
        show ((g ++ rest).take 64, (g ++ rest).drop 64) = (g, rest)
        rw [k, d]

/-- A coded region decodes to its granules. -/
theorem decode_codeRegion : ∀ (gs : List (List Byte)) (prev : Option (List Byte)) (p : List Byte),
    (∀ g, g ∈ gs → g.length = 64) → (∀ q, prev = some q → p = q) →
    decodeRegion gs.length p (codeRegion prev gs) = gs.flatten
  | [], _, _, _, _ => rfl
  | g :: gs, prev, p, hl, hp => by
    have h := decode_codeGranule (codeRegion (some g) gs) (hl g (by simp)) hp
    simp only [codeRegion, List.length_cons, decodeRegion, h, List.flatten_cons]
    rw [decode_codeRegion gs (some g) g (fun x hx => hl x (by simp [hx])) (fun q hq => by simpa using hq)]

theorem granulesOf_length (bs : List Byte) : ∀ n, (granulesOf bs n).length = n
  | 0 => rfl
  | n + 1 => by simp [granulesOf, granulesOf_length (bs.drop 64) n]

theorem granulesOf_flatten : ∀ (n : Nat) (bs : List Byte), bs.length = 64 * n → (granulesOf bs n).flatten = bs
  | 0, bs, h => by simpa [granulesOf] using (List.eq_nil_of_length_eq_zero (l := bs) (by simpa using h)).symm
  | n + 1, bs, h => by
    simp only [granulesOf, List.flatten_cons]
    rw [granulesOf_flatten n (bs.drop 64) (by simp; omega), List.take_append_drop]

theorem granulesOf_granule : ∀ (n : Nat) (bs : List Byte), bs.length = 64 * n → ∀ g, g ∈ granulesOf bs n → g.length = 64
  | 0, _, _, g, hg => by simp [granulesOf] at hg
  | n + 1, bs, h, g, hg => by
    rcases (by simpa [granulesOf] using hg : g = bs.take 64 ∨ g ∈ granulesOf (bs.drop 64) n) with rfl | hg
    · simp; omega
    · exact granulesOf_granule n (bs.drop 64) (by simp; omega) g hg

theorem Mem.readN_length (m : Mem) : ∀ (n a : Nat), (Mem.readN m a n).length = n
  | 0, _ => rfl
  | n + 1, a => by simp [Mem.readN, Mem.readN_length m n (a + 1)]

/-- A saved region comes back as it was. -/
theorem regionIn_saved {s : State} {core ctx r : Nat} (h : (s.unit core ctx).dirty.contains r = true) :
    regionIn s core ctx r = s := by
  have l : (spadRead s core ctx (4096 * r) 4096).length = 64 * 64 := Mem.readN_length _ _ _
  have e := decode_codeRegion (granulesOf (spadRead s core ctx (4096 * r) 4096) 64) none []
    (granulesOf_granule 64 _ l) (fun q hq => by cases hq)
  rw [granulesOf_length, granulesOf_flatten 64 _ l] at e
  simp only [regionIn, h, if_true, e, beq_self_eq_true]

/-- A region that was not saved is loaded as zeros. -/
theorem regionIn_unsaved {s : State} {core ctx r : Nat} (h : (s.unit core ctx).dirty.contains r = false) :
    regionIn s core ctx r = { s with spad := Mem.clear s.spad (spadKey core ctx (4096 * r)) 4096 } := by
  simp only [regionIn, h, Bool.false_eq_true, if_false]

end Sys2Proof.Machine
end

