-- ==== Sys2Proof/Tests/Slice0.lean ====
section
/-! SUPPORT. Tests on small states: words decode to what they stand for, ill-formed terms are refused, and for each
statement with hypotheses a concrete state that meets them, clause by clause, with values worked out from the spec. -/

open Sys2Proof Sys2Proof.Machine Sys2Proof.Safety

namespace Sys2Proof.Tests

-- One theorem after another: each takes a large stack.
set_option Elab.async false

/-- The instruction with the guard of this number (bit 3 negates). -/
def guarded (g : Nat) (f : Fmt) : Fmt := { f with guard := { neg := g / 8 % 2 == 1, p := Fin.ofNat 8 g } }
/-- A computation succeeds, and its value passes a check. -/
def good {ε α : Type} (e : Except ε α) (k : α → Bool := fun _ => true) : Bool :=
  match e with | .ok a => k a | .error _ => false
/-- An outcome is a next state that passes a check. -/
def after (o : Host.Outcome State Fault Refusal) (k : State → Bool := fun _ => true) : Bool :=
  match o with | .next t => k t | _ => false
/-- An instruction's next state passes a check. -/
def runs (i : Instr) (s : State) (k : State → Bool := fun _ => true) : Bool := after (exec i s) k

/-- A page table entry: its frame, and the bits V, R, W, X, EAGER from bit 0 up. -/
def leafOf (frame bits : Nat) : W64 := BitVec.ofNat 64 (frame * 2 ^ 24 + bits)
/-- Hart 0 of core 0 runs context 0 in U mode: page 2 is eager, page 3 is not, page 5 may be executed. -/
def lab : State :=
  ((State.reset.setCore 0 { active := some 0, tlb :=
      [{ ctx := 0, big := false, vpn := 2, pte := leafOf 3 0x17, entry := 64 },
       { ctx := 0, big := false, vpn := 3, pte := leafOf 4 0x07, entry := 72 },
       { ctx := 0, big := false, vpn := 5, pte := leafOf 5 0x0B, entry := 80 }] }).setBank 0 0
    { running := true, apc := 0x50000, epc := 0x50000, budget := 1000
      slice := some { record := 0, launch := 0, d0 := 0, counting := true } })
/-- An x register set. -/
def withX (s : State) (r : Fin 32) (v : W64) : State := s.modMe (fun h => h.wx r v)
def withV (s : State) (r : Fin 32) (v : V512) : State := s.modMe (fun h => h.wv r v)
def withP (s : State) (r : Fin 8) (v : W64) : State := s.modMe (fun h => h.wp r v)
/-- x1 and x2 hold these values. -/
def xs (a b : W64) : State := withX (withX lab 1 a) 2 b
/-- An instruction of x3, x1 and x2. -/
def f3 (ty : Ty) (var : Fin 16 := 0) (imm : W32 := 0) : Fmt := plain ty var (.x 3) (.x 1) (.x 2) imm
/-- An instruction of x3 and x1. -/
def f2 (ty : Ty) (var : Fin 16 := 0) (imm : W32 := 0) : Fmt := plain ty var (.x 3) (.x 1) .none imm
/-- x3 holds a value after an instruction. -/
def x3 (i : Instr) (s : State) (v : W64) : Bool := runs i s (fun t => t.me.rx 3 == v)

theorem test_decode_control :
    decodeWord false 0x0000000E00E00E0000000000 = .ok (.nop (plain .i64 0 .none .none .none)) ∧
    decodeWord false 0x0100000E00E00E000000002A = .ok (.brk (plain .i64 0 .none .none .none 0x2A)) ∧
    decodeWord false 0x0200000E00E00E00FFFFFFFD = .ok (.j (plain .i64 0 .none .none .none 0xFFFFFFFD)) ∧
    decodeWord false 0x0300000001E00E000000000A = .ok (.jal (plain .i64 0 (.x 1) .none .none 0xA)) ∧
    decodeWord false 0x0400000E00002E0000000000 = .ok (.jr (plain .i64 0 .none (.x 2) .none)) ∧
    decodeWord false 0x0500000001E00E0000000014 = .ok (.call (plain .i64 0 (.x 1) .none .none 0x14)) ∧
    decodeWord false 0x0600000E00001E0000000000 = .ok (.ret (plain .i64 0 .none (.x 1) .none)) ∧
    decodeWord false 0x0700000004E00E00FFFFFFFE = .ok (.loop (plain .i64 0 (.x 4) .none .none 0xFFFFFFFE)) ∧
    decodeWord false 0x0800000E00E00E0000010071 = .ok (.rep (plain .i64 0 .none .none .none 0x10071)) := by
  decide +kernel

theorem test_decode_integer :
    decodeWord false 0x100000001100301200000000 = .ok (.add (plain .i64 0 (.x 17) (.x 3) (.x 18))) ∧
    decodeWord false 0x110000000800600700000000 = .ok (.sub (plain .i64 0 (.x 8) (.x 6) (.x 7))) ∧
    decodeWord false 0x120000000700500600000000 = .ok (.mul (plain .i64 0 (.x 7) (.x 5) (.x 6))) ∧
    decodeWord false 0x130004000500600700000000 = .ok (.mulh (plain .n64 0 (.x 5) (.x 6) (.x 7))) ∧
    decodeWord false 0x140000000500600000000000 = .ok (.div (plain .i64 0 (.x 5) (.x 6) (.x 0))) ∧
    decodeWord false 0x1500070005006C0300000000 = .ok (.rem (plain .n8 0 (.x 5) (.x 6) (.const 0x3))) ∧
    decodeWord false 0x160001000500600700000000 = .ok (.and (plain .i32 0 (.x 5) (.x 6) (.x 7))) ∧
    decodeWord false 0x170000000C00900A00000000 = .ok (.or (plain .i64 0 (.x 12) (.x 9) (.x 10))) ∧
    decodeWord false 0x1800020005006E0000000055 = .ok (.xor (plain .i16 0 (.x 5) (.x 6) .none 0x55)) ∧
    decodeWord false 0x190006000500600700000000 = .ok (.andn (plain .n16 0 (.x 5) (.x 6) (.x 7))) ∧
    decodeWord false 0x1A0000000A005C0100000000 = .ok (.shl (plain .i64 0 (.x 10) (.x 5) (.const 0x1))) ∧
    decodeWord false 0x1B00000009009C2000000000 = .ok (.shr (plain .i64 0 (.x 9) (.x 9) (.const 0x20))) ∧
    decodeWord false 0x1C00010005006C0300000000 = .ok (.sra (plain .i32 0 (.x 5) (.x 6) (.const 0x3))) ∧
    decodeWord false 0x1D0003000500600700000000 = .ok (.min (plain .i8 0 (.x 5) (.x 6) (.x 7))) ∧
    decodeWord false 0x1E0005000500600700000000 = .ok (.max (plain .n32 0 (.x 5) (.x 6) (.x 7))) ∧
    decodeWord false 0x1F00042005006E0000000000 = .ok (.bits (plain .n64 2 (.x 5) (.x 6) .none)) := by
  decide +kernel

theorem test_decode_scalar :
    decodeWord false 0x200001240500600700000000 = .ok (.cmp (plain .i32 2 (.p 5) (.x 6) (.x 7))) ∧
    decodeWord false 0x210000000500600700000003 = .ok (.sel (plain .i64 0 (.x 5) (.x 6) (.x 7) 0x3)) ∧
    decodeWord false 0x2200000404006E0000000000 = .ok (.mov (plain .i64 0 (.p 4) (.x 6) .none)) ∧
    decodeWord false 0x2300000005005E0000000012 = .ok (.movhi (plain .i64 0 (.x 5) (.x 5) .none 0x12)) ∧
    decodeWord false 0x2400040005006E0000000B08 = .ok (.ext (plain .n64 0 (.x 5) (.x 6) .none 0xB08)) ∧
    decodeWord false 0x2500000005006E0000000B08 = .ok (.ins (plain .i64 0 (.x 5) (.x 6) .none 0xB08)) ∧
    decodeWord false 0x260000340540640700000000 = .ok (.plog (plain .i64 3 (.p 5) (.p 6) (.p 7))) ∧
    decodeWord false 0x270000000500600700000003 = .ok (.addr (plain .i64 0 (.x 5) (.x 6) (.x 7) 0x3)) := by
  decide +kernel

theorem test_decode_csr_float :
    decodeWord false 0x2800000005A0DE0000000000 = .ok (.csrr (plain .i64 0 (.x 5) (.csr .tidle) .none)) ∧
    decodeWord false 0x2900000A0D006E0000000000 = .ok (.csrw (plain .i64 0 (.csr .tidle) (.x 6) .none)) ∧
    decodeWord false 0x2A00000A02006E0000000000 = .ok (.csrs (plain .i64 0 (.csr .ienab) (.x 6) .none)) ∧
    decodeWord false 0x2B00000A01C04E0000000000 = .ok (.csrc (plain .i64 0 (.csr .ipend) (.const 0x4) .none)) ∧
    decodeWord false 0x2C00080011012E0000000001 = .ok (.cvt (plain .fp32 0 (.x 17) (.x 18) .none 0x1)) ∧
    decodeWord false 0x2D0008001101201300000000 = .ok (.fadd (plain .fp32 0 (.x 17) (.x 18) (.x 19))) ∧
    decodeWord false 0x2E0009101101201300000000 = .ok (.fmul (plain .bf16 1 (.x 17) (.x 18) (.x 19))) ∧
    decodeWord false 0x2F000A001101201300000000 = .ok (.fma (plain .fp16 0 (.x 17) (.x 18) (.x 19))) := by
  decide +kernel

theorem test_decode_memory :
    decodeWord false 0x300000000C005E0000000000 = .ok (.ld (plain .i64 0 (.x 12) (.x 5) .none)) ∧
    decodeWord false 0x3100000E0000500900000000 = .ok (.st (plain .i64 0 .none (.x 5) (.x 9))) ∧
    decodeWord false 0x3200000006005E0000000010 = .ok (.ldp (plain .i64 0 (.x 6) (.x 5) .none 0x10)) ∧
    decodeWord false 0x3300001E0000500600000010 = .ok (.stp (plain .i64 1 .none (.x 5) (.x 6) 0x10)) ∧
    decodeWord false 0x3400000E00005E0000000040 = .ok (.pref (plain .i64 0 .none (.x 5) .none 0x40)) ∧
    decodeWord false 0x3400001E00005E0000000040 = .ok (.prefRow (plain .i64 1 .none (.x 5) .none 0x40)) ∧
    decodeWord false 0x350000600A00600900000014 = .ok (.amo (plain .i64 6 (.x 10) (.x 6) (.x 9) 0x14)) ∧
    decodeWord false 0x36000000050060070000000C = .ok (.cas (plain .i64 0 (.x 5) (.x 6) (.x 7) 0xC)) ∧
    decodeWord false 0x370000000700500600000005 = .ok (.amored (plain .i64 0 (.x 7) (.x 5) (.x 6) 0x5)) ∧
    decodeWord false 0x3800000E000060070000000A = .ok (.waitw (plain .i64 0 .none (.x 6) (.x 7) 0xA)) := by
  decide +kernel

theorem test_decode_ordering :
    decodeWord false 0x3900000E00E00E0000000019 = .ok (.phase (plain .i64 0 .none .none .none 0x19)) ∧
    decodeWord false 0x3A00000E00E00E0000000011 = .ok (.rel (plain .i64 0 .none .none .none 0x11)) ∧
    decodeWord false 0x3B00000E00E00E0000000008 = .ok (.acq (plain .i64 0 .none .none .none 0x8)) ∧
    decodeWord false 0x3C00000E00E00E0000000001 = .ok (.fenceSc (plain .i64 0 .none .none .none 0x1)) ∧
    decodeWord false 0x3C00001E00E00E0000000001 = .ok (.fenceIo (plain .i64 1 .none .none .none 0x1)) ∧
    decodeWord false 0x3D00000E00005E0000000000 = .ok (.cinvLine (plain .i64 0 .none (.x 5) .none)) ∧
    decodeWord false 0x3D00001E00E00E0000000000 = .ok (.cinvAll (plain .i64 1 .none .none .none)) := by
  decide +kernel

theorem test_decode_queue :
    decodeWord false 0x4000000640006E0000000000 = .ok (.qpush (plain .i64 0 (.q 2 0) (.x 6) .none)) ∧
    decodeWord false 0x4100000005620E0000000000 = .ok (.qpop (plain .i64 0 (.x 5) (.q 1 0) .none)) ∧
    decodeWord false 0x4200000E00620C0200000000 = .ok (.qadv (plain .i64 0 .none (.q 1 0) (.const 0x2))) ∧
    decodeWord false 0x4300000E00640C0100000000 = .ok (.qprod (plain .i64 0 .none (.q 2 0) (.const 0x1))) ∧
    decodeWord false 0x4400000E00620C0400000000 = .ok (.qwaitFill (plain .i64 0 .none (.q 1 0) (.const 0x4))) ∧
    decodeWord false 0x4400001E00620C0400000000 = .ok (.qwaitRoom (plain .i64 1 .none (.q 1 0) (.const 0x4))) ∧
    decodeWord false 0x4500000E00620E0000000000 = .ok (.qfree (plain .i64 0 .none (.q 1 0) .none)) ∧
    decodeWord false 0x460000000562000600000000 = .ok (.qbind (plain .i64 0 (.x 5) (.q 1 0) (.x 6))) ∧
    decodeWord false 0x4700000005620E0000000000 = .ok (.qstat (plain .i64 0 (.x 5) (.q 1 0) .none)) ∧
    decodeWord false 0x4700001005620E0000000000 = .ok (.qstatHead (plain .i64 1 (.x 5) (.q 1 0) .none)) ∧
    decodeWord false 0x4700002005620E0000000000 = .ok (.qstatTail (plain .i64 2 (.x 5) (.q 1 0) .none)) := by
  decide +kernel

theorem test_decode_tour_splice :
    decodeWord false 0x4800000008009E0000000000 = .ok (.tour (plain .i64 0 (.x 8) (.x 9) .none)) ∧
    decodeWord false 0x4800001007620E0000000000 = .ok (.tourBind (plain .i64 1 (.x 7) (.q 1 0) .none)) ∧
    decodeWord false 0x490000000B620E0000000000 = .ok (.trel (plain .i64 0 (.x 11) (.q 1 0) .none)) ∧
    decodeWord false 0x490000100B62000C00000000 = .ok (.trelEnd (plain .i64 1 (.x 11) (.q 1 0) (.x 12))) ∧
    decodeWord false 0x4A00000005006E0000000000 = .ok (.tstat (plain .i64 0 (.x 5) (.x 6) .none)) ∧
    decodeWord false 0x4A00001005620E0000000000 = .ok (.tstatHead (plain .i64 1 (.x 5) (.q 1 0) .none)) ∧
    decodeWord false 0x4B0000000700666000000000 = .ok (.splprepOpen (plain .i64 0 (.x 7) (.x 6) (.q 3 0))) ∧
    decodeWord false 0x4B0000100820200A00000000 = .ok (.splprepStage (plain .i64 1 (.x 8) (.v 2) (.x 10))) ∧
    decodeWord false 0x4B0000200762064000000000 = .ok (.splprepBind (plain .i64 2 (.x 7) (.q 1 0) (.q 2 0))) ∧
    decodeWord false 0x4B0000300500600700000000 = .ok (.splprepDrop (plain .i64 3 (.x 5) (.x 6) (.x 7))) ∧
    decodeWord false 0x4C0000000B20366000000000 = .ok (.splinj (plain .i64 0 (.x 11) (.v 3) (.q 3 0))) ∧
    decodeWord false 0x4D00000005006E0000000000 = .ok (.splstat (plain .i64 0 (.x 5) (.x 6) .none)) ∧
    decodeWord false 0x4D00001008620E0000000000 = .ok (.splstatTake (plain .i64 1 (.x 8) (.q 1 0) .none)) ∧
    decodeWord false 0x4D00002005620E0000000000 = .ok (.splstatInh (plain .i64 2 (.x 5) (.q 1 0) .none)) := by
  decide +kernel

theorem test_decode_sowing :
    decodeWord false 0x4E00000005202E0000000003 = .ok (.rngset (plain .i64 0 (.x 5) (.v 2) .none 0x3)) ∧
    decodeWord false 0x4F00000006E00E0000000003 = .ok (.rngget (plain .i64 0 (.x 6) .none .none 0x3)) ∧
    decodeWord false 0x4F00001006E00E0000000003 = .ok (.rnggetLeft (plain .i64 1 (.x 6) .none .none 0x3)) := by
  decide +kernel

theorem test_decode_vector_arith :
    decodeWord false 0x500001020320420500000000 = .ok (.vadd (plain .i32 0 (.v 3) (.v 4) (.v 5))) ∧
    decodeWord false 0x510008020320420500000000 = .ok (.vsub (plain .fp32 0 (.v 3) (.v 4) (.v 5))) ∧
    decodeWord false 0x520006020320420500000000 = .ok (.vmul (plain .n16 0 (.v 3) (.v 4) (.v 5))) ∧
    decodeWord false 0x535009020320420500000000 = .ok (.vfma (guarded 5 (plain .bf16 0 (.v 3) (.v 4) (.v 5)))) ∧
    decodeWord false 0x540009020320420500000000 = .ok (.vfms (plain .bf16 0 (.v 3) (.v 4) (.v 5))) ∧
    decodeWord false 0x5500030203204DFF00000000 = .ok (.vmin (plain .i8 0 (.v 3) (.v 4) (.const 0x1FF))) ∧
    decodeWord false 0x56000A020320401100000000 = .ok (.vmax (plain .fp16 0 (.v 3) (.v 4) (.x 17))) ∧
    decodeWord false 0x570004020320420500000000 = .ok (.vand (plain .n64 0 (.v 3) (.v 4) (.v 5))) ∧
    decodeWord false 0x580005020320420500000000 = .ok (.vor (plain .n32 0 (.v 3) (.v 4) (.v 5))) ∧
    decodeWord false 0x590007020320420500000000 = .ok (.vxor (plain .n8 0 (.v 3) (.v 4) (.v 5))) ∧
    decodeWord false 0x5A00060203204C0300000000 = .ok (.vshl (plain .n16 0 (.v 3) (.v 4) (.const 0x3))) ∧
    decodeWord false 0x5B0005020320420500000000 = .ok (.vshr (plain .n32 0 (.v 3) (.v 4) (.v 5))) ∧
    decodeWord false 0x5C0002020320401100000000 = .ok (.vsra (plain .i16 0 (.v 3) (.v 4) (.x 17))) ∧
    decodeWord false 0x5D0008240520420500000000 = .ok (.vcmp (plain .fp32 2 (.p 5) (.v 4) (.v 5))) ∧
    decodeWord false 0x5E0002020320420500000006 = .ok (.vsel (plain .i16 0 (.v 3) (.v 4) (.v 5) 0x6)) ∧
    decodeWord false 0x5F00021203204E0000000000 = .ok (.vun (plain .i16 1 (.v 3) (.v 4) .none)) := by
  decide +kernel

theorem test_decode_vector_move :
    decodeWord false 0x6000010203011E0000000000 = .ok (.vmov (plain .i32 0 (.v 3) (.x 17) .none)) ∧
    decodeWord false 0x6100020011204C0500000000 = .ok (.vext (plain .i16 0 (.x 17) (.v 4) (.const 0x5))) ∧
    decodeWord false 0x6200010203011C0200000000 = .ok (.vins (plain .i32 0 (.v 3) (.x 17) (.const 0x2))) ∧
    decodeWord false 0x630003120320420500000000 = .ok (.vperm (plain .i8 1 (.v 3) (.v 4) (.v 5))) ∧
    decodeWord false 0x640001020320420500000003 = .ok (.vslide (plain .i32 0 (.v 3) (.v 4) (.v 5) 0x3)) ∧
    decodeWord false 0x656008001120401200000000 = .ok (.vred (guarded 6 (plain .fp32 0 (.x 17) (.v 4) (.x 18)))) ∧
    decodeWord false 0x6660080203204E0000000000 = .ok (.vscan (guarded 6 (plain .fp32 0 (.v 3) (.v 4) .none))) ∧
    decodeWord false 0x6700031011406E0000000000 = .ok (.vpopc (plain .i8 1 (.x 17) (.p 6) .none)) ∧
    decodeWord false 0x680001020320440600000000 = .ok (.vcompr (plain .i32 0 (.v 3) (.v 4) (.p 6))) ∧
    decodeWord false 0x690001020320440600000000 = .ok (.vexpnd (plain .i32 0 (.v 3) (.v 4) (.p 6))) ∧
    decodeWord false 0x6A0002020320420500000000 = .ok (.vzip (plain .i16 0 (.v 3) (.v 4) (.v 5))) ∧
    decodeWord false 0x6B0002120320420500000000 = .ok (.vunzip (plain .i16 1 (.v 3) (.v 4) (.v 5))) ∧
    decodeWord false 0x6C00010203406E0000000000 = .ok (.viota (plain .i32 0 (.v 3) (.p 6) .none)) := by
  decide +kernel

theorem test_decode_vector_memory :
    decodeWord false 0x6D00091203005E0000000040 = .ok (.vld (plain .bf16 1 (.v 3) (.x 5) .none 0x40)) ∧
    decodeWord false 0x6E000A1E0000520300000040 = .ok (.vst (plain .fp16 1 .none (.x 5) (.v 3) 0x40)) ∧
    decodeWord false 0x6F0001020300520400000000 = .ok (.vldx (plain .i32 0 (.v 3) (.x 5) (.v 4))) ∧
    decodeWord false 0x700001020400520300000000 = .ok (.vstx (plain .i32 0 (.v 4) (.x 5) (.v 3))) ∧
    decodeWord false 0x710000020300500600000008 = .ok (.vlds (plain .i64 0 (.v 3) (.x 5) (.x 6) 0x8)) ∧
    decodeWord false 0x720000000600520300000008 = .ok (.vsts (plain .i64 0 (.x 6) (.x 5) (.v 3) 0x8)) := by
  decide +kernel

theorem test_decode_vector_convert :
    decodeWord false 0x7300090203204E0000000008 = .ok (.vcvt (plain .bf16 0 (.v 3) (.v 4) .none 0x8)) ∧
    decodeWord false 0x74000802032040060000010B = .ok (.vcvtp (plain .fp32 0 (.v 3) (.v 4) (.x 6) 0x10B)) ∧
    decodeWord false 0x75000B820320400600000000 = .ok (.vrequ (plain .e4m3 8 (.v 3) (.v 4) (.x 6))) ∧
    decodeWord false 0x760008020320420500000000 = .ok (.vscacc (plain .fp32 0 (.v 3) (.v 4) (.v 5))) ∧
    decodeWord false 0x7700090203204E0000000005 = .ok (.vbexp (plain .bf16 0 (.v 3) (.v 4) .none 0x5)) ∧
    decodeWord false 0x780001020320400600000000 = .ok (.vclip (plain .i32 0 (.v 3) (.v 4) (.x 6))) ∧
    decodeWord false 0x79000E0203204E0000000109 = .ok (.vpod (plain .pod8 0 (.v 3) (.v 4) .none 0x109)) ∧
    decodeWord false 0x7A00080203204E0000000300 = .ok (.vpodd (plain .fp32 0 (.v 3) (.v 4) .none 0x300)) ∧
    decodeWord false 0x7B0003020320420500000000 = .ok (.vdot (plain .i8 0 (.v 3) (.v 4) (.v 5))) ∧
    decodeWord false 0x7C0009020320420500000000 = .ok (.vlut (plain .bf16 0 (.v 3) (.v 4) (.v 5))) ∧
    decodeWord false 0x7D00070203204E0000000000 = .ok (.vplane (plain .n8 0 (.v 3) (.v 4) .none)) ∧
    decodeWord false 0x7E00020203204E0000000000 = .ok (.vunpl (plain .i16 0 (.v 3) (.v 4) .none)) := by
  decide +kernel

theorem test_decode_matrix :
    decodeWord false 0x8000000E00201E0000000000 = .ok (.mxq (plain .i64 0 .none (.v 1) .none)) ∧
    decodeWord false 0x8100000005801E0000000000 = .ok (.mxwm (plain .i64 0 (.x 5) (.tile 1) .none)) ∧
    decodeWord false 0x8100001E00800C8000000000 = .ok (.mxwmWait (plain .i64 1 .none (.tile 0) (.const 0x80))) ∧
    decodeWord false 0x8200010214800C5000000000 = .ok (.mxrd (plain .i32 0 (.v 20) (.tile 0) (.const 0x50))) ∧
    decodeWord false 0x830001080100620300000000 = .ok (.mxwr (plain .i32 0 (.tile 1) (.x 6) (.v 3))) ∧
    decodeWord false 0x8400000202E00E0000000000 = .ok (.mxcont (plain .i64 0 (.v 2) .none .none)) ∧
    decodeWord false 0x8500000005E00E0000000000 = .ok (.mxstat (plain .i64 0 (.x 5) .none .none)) ∧
    decodeWord false 0x8500001005801E0000000001 = .ok (.mxstatSticky (plain .i64 1 (.x 5) (.tile 1) .none 0x1)) := by
  decide +kernel

theorem test_decode_engines :
    decodeWord false 0x9000000E00201E0000000000 = .ok (.cpq (plain .i64 0 .none (.v 1) .none)) ∧
    decodeWord false 0x9100000E00009E0000000002 = .ok (.cpchn (plain .i64 0 .none (.x 9) .none 0x2)) ∧
    decodeWord false 0x9200000005E00E0000000001 = .ok (.cpwm (plain .i64 0 (.x 5) .none .none 0x1)) ∧
    decodeWord false 0x9300000005E00E0000000003 = .ok (.cpstat (plain .i64 0 (.x 5) .none .none 0x3)) ∧
    decodeWord false 0x9300001005E00E0000000000 = .ok (.cpstatLog (plain .i64 1 (.x 5) .none .none)) ∧
    decodeWord false 0x9400000E00202E0000000000 = .ok (.exq (plain .i64 0 .none (.v 2) .none)) ∧
    decodeWord false 0x9500000E0000500600000000 = .ok (.hstart (plain .i64 0 .none (.x 5) (.x 6))) ∧
    decodeWord false 0x9600000005E00E0000000000 = .ok (.hstat (plain .i64 0 (.x 5) .none .none)) ∧
    decodeWord false 0x9600001005E00E0000000002 = .ok (.hstatH (plain .i64 1 (.x 5) .none .none 0x2)) ∧
    decodeWord false 0x9700000E0000500600000000 = .ok (.hloadCode (plain .i64 0 .none (.x 5) (.x 6))) ∧
    decodeWord false 0x9700001E0000500600000000 = .ok (.hloadTmpl (plain .i64 1 .none (.x 5) (.x 6))) := by
  decide +kernel

theorem test_decode_tables :
    decodeWord false 0x990000000500600700000000 = .ok (.kvmap (plain .i64 0 (.x 5) (.x 6) (.x 7))) ∧
    decodeWord false 0x990000100500600700000000 = .ok (.kvmapApp (plain .i64 1 (.x 5) (.x 6) (.x 7))) ∧
    decodeWord false 0x990000200500600700000000 = .ok (.kvmapWr (plain .i64 2 (.x 5) (.x 6) (.x 7))) ∧
    decodeWord false 0x9A0000000500600700000000 = .ok (.kvswapFork (plain .i64 0 (.x 5) (.x 6) (.x 7))) ∧
    decodeWord false 0x9A0000100500600700000000 = .ok (.kvswapAccept (plain .i64 1 (.x 5) (.x 6) (.x 7))) ∧
    decodeWord false 0x9A0000200500600700000000 = .ok (.kvswapReject (plain .i64 2 (.x 5) (.x 6) (.x 7))) ∧
    decodeWord false 0x9B0000000500600700000000 = .ok (.kvtrunc (plain .i64 0 (.x 5) (.x 6) (.x 7))) ∧
    decodeWord false 0x9C0000000500600700000000 = .ok (.kvwin (plain .i64 0 (.x 5) (.x 6) (.x 7))) ∧
    decodeWord false 0x9D0000000400600700000000 = .ok (.stframe (plain .i64 0 (.x 4) (.x 6) (.x 7))) ∧
    decodeWord false 0x9E0000000500600700000000 = .ok (.stadvGen (plain .i64 0 (.x 5) (.x 6) (.x 7))) ∧
    decodeWord false 0x9E0000100500600700000000 = .ok (.stadvPlay (plain .i64 1 (.x 5) (.x 6) (.x 7))) := by
  decide +kernel

theorem test_decode_collective :
    decodeWord false 0xA000000005006E0000000000 = .ok (.coll (plain .i64 0 (.x 5) (.x 6) .none)) ∧
    decodeWord false 0xA100000005006E0000000000 = .ok (.cstat (plain .i64 0 (.x 5) (.x 6) .none)) ∧
    decodeWord false 0xA100001005006E0000000000 = .ok (.cstatClr (plain .i64 1 (.x 5) (.x 6) .none)) := by
  decide +kernel

theorem test_decode_task :
    decodeWord false 0xB000000005202E0000000000 = .ok (.tspawn (plain .i64 0 (.x 5) (.v 2) .none)) ∧
    decodeWord false 0xB100000E00E00E0000000000 = .ok (.tend (plain .i64 0 .none .none .none)) ∧
    decodeWord false 0xB200000E00006E0000000000 = .ok (.tyield (plain .i64 0 .none (.x 6) .none)) ∧
    decodeWord false 0xB300000005006E0000000000 = .ok (.tdl (plain .i64 0 (.x 5) (.x 6) .none)) ∧
    decodeWord false 0xB400000005006E0000000000 = .ok (.tlaunch (plain .i64 0 (.x 5) (.x 6) .none)) := by
  decide +kernel

theorem test_decode_system :
    decodeWord false 0xB500000E00E00E0000000000 = .ok (.ecall (plain .i64 0 .none .none .none)) ∧
    decodeWord false 0xB600000E00E00E0000000000 = .ok (.eret (plain .i64 0 .none .none .none)) ∧
    decodeWord false 0xB700000E00E00E0000000000 = .ok (.wfi (plain .i64 0 .none .none .none)) ∧
    decodeWord false 0xB800000005E00E000000000B = .ok (.mtrd (plain .i64 0 (.x 5) .none .none 0xB)) ∧
    decodeWord false 0xB900000E0000500600000000 = .ok (.tlbinvPage (plain .i64 0 .none (.x 5) (.x 6))) ∧
    decodeWord false 0xB900001E00E0000600000000 = .ok (.tlbinvCtx (plain .i64 1 .none .none (.x 6))) ∧
    decodeWord false 0xB900002E00E00E0000000000 = .ok (.tlbinvAll (plain .i64 2 .none .none .none)) ∧
    decodeWord false 0xBA0000000500600700000000 = .ok (.keyld (plain .i64 0 (.x 5) (.x 6) (.x 7))) ∧
    decodeWord false 0xBA00001005006E0000000000 = .ok (.keyldClear (plain .i64 1 (.x 5) (.x 6) .none)) ∧
    decodeWord false 0xBB00000005E00E0000000000 = .ok (.rdtime (plain .i64 0 (.x 5) .none .none)) ∧
    decodeWord false 0xBC0000000500600700000000 = .ok (.ctxsw (plain .i64 0 (.x 5) (.x 6) (.x 7))) ∧
    decodeWord false 0xBC00001005006E0000000000 = .ok (.ctxswStat (plain .i64 1 (.x 5) (.x 6) .none)) := by
  decide +kernel

/-! Ill-formed terms: one for each check of R197. -/

theorem test_wf_refuses :
    (Instr.add (guarded 8 (f3 .i64))).wf = false ∧                                     -- the guard ?!p0
    (Instr.add (f3 .bf16)).wf = false ∧                                                -- a type
    (Instr.add (f3 .i64 1)).wf = false ∧                                               -- a variant
    (Instr.add (plain .i64 0 (.v 3) (.x 1) (.x 2))).wf = false ∧                       -- operand D
    (Instr.add (plain .i64 0 (.x 3) (.tile 1) (.x 2))).wf = false ∧                    -- operand A
    (Instr.add (plain .i64 0 (.x 3) (.x 1) (.csr .status))).wf = false ∧               -- operand B
    (Instr.add (f3 .i64 0 5)).wf = false ∧                                             -- an immediate nothing reads
    (Instr.add (f3 .i64)).wf = true ∧
    (Instr.brk (plain .i64 0 .none .none .none 1)).wf = true ∧
    (Instr.brk (plain .i64 0 .none .none .none 1)).wfInBody = false ∧                  -- barred in a rep body (R232)
    (let f := f3 .i64
     (Instr.add { f with hint := { f.hint with stagA := true } }).wfInBody = true ∧
     (Instr.add { plain .i64 0 (.x 3) (.const 1) (.x 2) with hint := { f.hint with stagA := true } }).wfInBody = false) := by
  decide +kernel

/-- The words that spec/10 gives as not accepted. -/
theorem test_decode_refuses :
    decodeWord false 0xC00000000000000000000000 = .error .opcode ∧
    decodeWord false 0x980000000000000000000000 = .error .opcode ∧
    decodeWord false 0x0080030E00E00E0000000000 = .error .guard ∧
    decodeWord false 0x3C00080E0000000000000001 = .error .ty := by
  decide +kernel

/-! Integers, logic and control. -/

theorem meets_IntegerResults :
    Sourced (f3 .n8) (xs 0x180 0x90) 0x180 0x90 ∧ x3 (.add (f3 .n8)) (xs 0x180 0x90) 0x10 = true ∧
    x3 (.add (f3 .n8 8)) (xs 0x180 0x90) 0xFF = true ∧ x3 (.sub (f3 .n8 8)) (xs 0x80 0x90) 0 = true ∧
    x3 (.sub (f3 .i32)) (xs 0 1) 0xFFFFFFFFFFFFFFFF = true ∧ x3 (.mul (f3 .i16)) (xs 0x4000 2) 0xFFFFFFFFFFFF8000 = true ∧
    x3 (.mulh (f3 .i8)) (xs 0x80 0x80) 0x40 = true ∧ x3 (.div (f3 .i64)) (xs 7 0) 0xFFFFFFFFFFFFFFFF = true ∧
    x3 (.rem (f3 .i64)) (xs 7 0) 7 = true ∧ x3 (.div (f3 .i64)) (xs 0xFFFFFFFFFFFFFFF9 2) 0xFFFFFFFFFFFFFFFD = true ∧
    x3 (.rem (f3 .i64)) (xs 0xFFFFFFFFFFFFFFF9 2) 0xFFFFFFFFFFFFFFFF = true ∧
    x3 (.div (f3 .i8)) (xs 0x80 0xFF) 0xFFFFFFFFFFFFFF80 = true ∧
    x3 (.and (f3 .n64)) (xs 0xC 0xA) 8 = true ∧ x3 (.or (f3 .n64)) (xs 0xC 0xA) 0xE = true ∧
    x3 (.xor (f3 .n64)) (xs 0xC 0xA) 6 = true ∧ x3 (.andn (f3 .n64)) (xs 0xC 0xA) 4 = true ∧
    x3 (.shl (f3 .n8)) (xs 0x81 9) 2 = true ∧ x3 (.shr (f3 .n8)) (xs 0x81 1) 0x40 = true ∧
    x3 (.sra (f3 .i8)) (xs 0x81 1) 0xFFFFFFFFFFFFFFC0 = true ∧ x3 (.min (f3 .i8)) (xs 0x80 1) 0xFFFFFFFFFFFFFF80 = true ∧
    x3 (.max (f3 .n8)) (xs 0x80 1) 0x80 = true := by
  unfold Sourced; decide +kernel

theorem meets_ScalarLogicResults :
    SourcedA (f2 .i64) (xs 0xF0 2) 0xF0 ∧
    runs (.cmp (plain .i64 2 (.p 3) (.x 1) (.x 2))) (xs 0xFFFFFFFFFFFFFFFF 2) (fun t => t.me.rp 3 == BitVec.allOnes 64) = true ∧
    x3 (.cmp (f3 .n64 2)) (xs 0xFFFFFFFFFFFFFFFF 2) 0 = true ∧ x3 (.cmp (f3 .i64 0)) (xs 2 2) 1 = true ∧
    x3 (.sel (f3 .i64 0 3)) (withP (xs 5 6) 3 1) 5 = true ∧ x3 (.sel (f3 .i64 0 0xB)) (withP (xs 5 6) 3 1) 6 = true ∧
    runs (.plog (plain .i64 4 (.p 3) (.p 1) (.p 2))) (withP (withP lab 1 0xC) 2 0xA)
      (fun t => t.me.rp 3 == 0xFFFFFFFFFFFFFFFD) = true ∧
    x3 (.addr (f3 .i64 0 3)) (xs 0x1000 2) 0x1010 = true ∧
    x3 (.addr (f3 .i64 1)) (xs 0x401 8) 0xFF80000200100008 = true ∧
    x3 (.addr (plain .i64 2 (.x 3) .none (.x 2))) (xs 0 8) 0xFF80000100000008 = true ∧
    x3 (.mov (f2 .i8)) (xs 0x80 0) 0xFFFFFFFFFFFFFF80 = true ∧
    x3 (.bits (f2 .i32 0)) (xs 0x10 0) 27 = true ∧ x3 (.bits (f2 .i32 1)) (xs 0x10 0) 4 = true ∧
    x3 (.bits (f2 .i32 2)) (xs 0x113 0) 4 = true ∧ x3 (.bits (f2 .n8 3)) (xs 0x13 0) 0xC8 = true ∧
    x3 (.movhi (f2 .i64 0 7)) (xs 0x1FFFFFFFF 0) 0x7FFFFFFFF = true ∧
    x3 (.movhi (plain .i64 0 (.x 3) .none .none 7)) lab 0x700000000 = true ∧
    x3 (.ext (f2 .i64 0 0x704)) (xs 0xF80 0) 0xFFFFFFFFFFFFFFF8 = true ∧
    x3 (.ext (f2 .n64 0 0x704)) (xs 0xF80 0) 0xF8 = true ∧
    x3 (.ins (f2 .i64 0 0x704)) (withX (xs 0x1A5 0) 3 0xFFFF) 0xFA5F = true := by
  unfold SourcedA; decide +kernel
def pcAfter (i : Instr) (s : State) (a : W64) : Bool := runs i s (fun t => t.me.pc == a)

theorem meets_ControlTransferResults :
    guardOn (plain .i64 0 .none .none .none) lab = true ∧ repActive lab.me.repst = false ∧
    pcAfter (.nop (plain .i64 0 .none .none .none)) lab 0x5000C = true ∧
    pcAfter (.j (plain .i64 0 .none .none .none 0xFFFFFFFF)) lab 0x4FFF4 = true ∧
    runs (.jal (plain .i64 0 (.x 1) .none .none 2)) lab (fun t => t.me.pc == 0x50018 && t.me.rx 1 == 0x5000C) = true ∧
    runs (.jr (plain .i64 0 (.x 1) (.x 1) .none)) (xs 0x70000 0)
      (fun t => t.me.pc == 0x70000 && t.me.rx 1 == 0x5000C) = true ∧
    pcAfter (.jr (plain .i64 0 .none (.x 2) .none)) (xs 0 0x60000) 0x60000 = true ∧
    runs (.call (plain .i64 0 (.x 1) .none .none 2)) ((withX lab 20 5).modMe (fun h => { h with cmask := 0x100000 }))
      (fun t => t.me.pc == 0x50018 && t.me.rx 1 == 0x5000C && t.me.rx 20 == 0) = true ∧
    pcAfter (.call (plain .i64 0 .none .none .none 2)) lab 0x50018 = true ∧
    pcAfter (.call (plain .i64 0 (.x 1) (.x 2) .none)) (xs 0 0x60000) 0x60000 = true ∧
    pcAfter (.call (plain .i64 0 .none (.x 2) .none)) (xs 0 0x60000) 0x60000 = true ∧
    pcAfter (.ret (plain .i64 0 .none (.x 1) .none)) (xs 0x60000 0) 0x60000 = true ∧
    runs (.loop (plain .i64 0 (.x 1) .none .none 0xFFFFFFFF)) (xs 2 0)
      (fun t => t.me.pc == 0x4FFF4 && t.me.rx 1 == 1) = true ∧
    runs (.loop (plain .i64 0 (.x 1) .none .none 0xFFFFFFFF)) (xs 1 0)
      (fun t => t.me.pc == 0x5000C && t.me.rx 1 == 0) = true ∧
    runs (.loop (plain .i64 0 (.x 1) .none .none 0xFFFFFFFF)) (xs 0 0)
      (fun t => t.me.pc == 0x4FFF4 && t.me.rx 1 == 0xFFFFFFFFFFFFFFFF) = true ∧
    runs (.rep (plain .i64 0 .none .none .none 0x71)) lab
      (fun t => t.me.pc == 0x5000C && repActive t.me.repst) = true ∧
    runs (.rep (plain .i64 0 .none (.x 1) .none 1)) (xs 0x10000 0) (fun t => repActive t.me.repst) = true ∧
    pcAfter (.rep (plain .i64 0 .none (.x 1) .none 1)) (xs 0 0) 0x50024 = true ∧
    runs (.brk (plain .i64 0 .none .none .none 0x2A)) lab (fun t => t.me.frozen && t.me.pc == 0x5000C) = true := by
  decide +kernel

theorem meets_ScalarFloatResults :
    Open (f3 .fp32) lab ∧ good (srcAt lab (cvtSource (f2 .fp32 0 0x1)) (.x 1)) = true ∧
    x3 (.cvt (f2 .fp32 0 0x1)) (xs 3 0) 0x40400000 = true ∧
    x3 (.fadd (f3 .fp32)) (xs 0x3F800000 0x40000000) 0x40400000 = true ∧
    x3 (.fmul (f3 .fp32)) (xs 0x40000000 0x40400000) 0x40C00000 = true ∧
    x3 (.fma (f3 .fp32)) (withX (xs 0x40000000 0x40400000) 3 0x3F800000) 0x40E00000 = true := by
  unfold Open; decide +kernel

/-! Vectors: v1, v2 and v3 of 64 eight-bit lanes. -/
def ramp : V512 := ofLanes 8 (List.range 64)
def vs : State := withV (withV (withV lab 1 ramp) 2 (ofLanes 8 (List.replicate 64 3))) 3 (ofLanes 8 (List.replicate 64 1))
def w3 (ty : Ty) (var : Fin 16 := 0) (imm : W32 := 0) : Fmt := plain ty var (.v 3) (.v 1) (.v 2) imm
def w2 (ty : Ty) (var : Fin 16 := 0) (imm : W32 := 0) : Fmt := plain ty var (.v 3) (.v 1) .none imm
/-- Lane k of v3 after an instruction, eight-bit lanes. -/
def v3 (i : Instr) (s : State) (k v : Nat) : Bool := runs i s (fun t => lane (lanesOf 8 (t.me.rv 3)) k == v)
/-- p1 enables lane 5 alone. -/
def one5 : State := withP vs 1 0x20

theorem meets_VectorArithmeticResults :
    good (srcLanes vs .n8 (.v 1) 0) = true ∧ good (srcLanes vs .n8 (.v 2) 0) = true ∧ dstReady vs (.v 3) = .ok () ∧
    v3 (.vadd (w3 .n8)) vs 63 66 = true ∧ v3 (.vsub (w3 .n8)) vs 2 0xFF = true ∧ v3 (.vmul (w3 .n8)) vs 5 15 = true ∧
    v3 (.vfma (w3 .n8)) vs 5 16 = true ∧ v3 (.vmin (w3 .n8)) vs 5 3 = true ∧ v3 (.vmax (w3 .n8)) vs 5 5 = true ∧
    v3 (.vand (w3 .n8)) vs 6 2 = true ∧ v3 (.vor (w3 .n8)) vs 4 7 = true ∧ v3 (.vxor (w3 .n8)) vs 6 5 = true ∧
    v3 (.vshl (w3 .n8)) vs 63 0xF8 = true ∧ v3 (.vshr (w3 .n8)) vs 63 7 = true ∧ v3 (.vsra (w3 .i8)) vs 63 7 = true ∧
    v3 (.vclip (w3 .i8)) vs 63 3 = true ∧
    v3 (.vadd (guarded 1 (w3 .n8))) one5 5 8 = true ∧ v3 (.vadd (guarded 1 (w3 .n8))) one5 6 1 = true ∧
    runs (.vfms (w3 .fp32)) (withV (withV (withV lab 1 0x40000000) 2 0x40400000) 3 0x3F800000)
      (fun t => lane (lanesOf 32 (t.me.rv 3)) 0 == 0xC0A00000) = true := by
  decide +kernel
/-- v1 of 32-bit lanes. -/
def v1w (l : List Nat) : State := withV lab 1 (ofLanes 32 l)
def v3w (i : Instr) (s : State) (k v : Nat) : Bool := runs i s (fun t => lane (lanesOf 32 (t.me.rv 3)) k == v)

theorem meets_VectorMoveResults :
    v3 (.vmov (w2 .n8)) vs 63 63 = true ∧ v3 (.vun (w2 .i8 0)) vs 63 0xC1 = true ∧
    v3 (.vcompr (plain .n8 0 (.v 3) (.v 1) (.p 2))) (withP vs 2 0x8000000000000020) 1 63 = true ∧
    v3 (.vcompr (plain .n8 0 (.v 3) (.v 1) (.p 2))) (withP vs 2 0x8000000000000020) 2 0 = true ∧
    v3 (.vexpnd (plain .n8 0 (.v 3) (.v 1) (.p 2))) (withP vs 2 0x8000000000000020) 63 1 = true ∧
    runs (.vcmp (plain .n8 3 (.p 3) (.v 1) (.v 2))) vs (fun t => t.me.rp 3 == 0xF) = true ∧
    runs (.vcmp (guarded 1 (plain .n8 3 (.p 3) (.v 1) (.v 2)))) (withP one5 3 2) (fun t => t.me.rp 3 == 2) = true ∧
    v3 (.vsel (w3 .n8 0 2)) (withP vs 2 0x20) 5 5 = true ∧ v3 (.vsel (w2 .n8 0 2)) (withP vs 2 0x20) 6 0 = true ∧
    v3 (.vperm (w3 .n8)) vs 9 3 = true ∧ v3 (.vperm (plain .n8 1 (.v 3) (.v 1) (.v 1))) vs 63 63 = true ∧
    v3 (.vslide (w3 .n8 0 63)) vs 63 0 = true ∧ v3 (.vslide (w3 .n8 1 63)) vs 0 63 = true ∧
    v3 (.vslide (w2 .n8 0 1)) vs 0 0 = true ∧ v3 (.vslide (w2 .n8 1 1)) vs 63 0 = true ∧
    v3 (.vzip (w3 .n8 0)) vs 62 31 = true ∧ v3 (.vzip (w3 .n8 1)) vs 62 63 = true ∧
    v3 (.vunzip (w3 .n8 1)) vs 31 63 = true ∧ v3 (.vunzip (w3 .n8 0)) vs 32 3 = true ∧
    v3 (.vins (plain .n8 0 (.v 3) (.x 1) (.x 2))) (withX (withX vs 1 0x1AA) 2 69) 5 0xAA = true ∧
    runs (.vext (plain .i8 0 (.x 3) (.v 1) (.const 0x3F))) vs (fun t => t.me.rx 3 == 63) = true ∧
    x3 (.vext (guarded 1 (plain .i8 0 (.x 3) (.v 1) (.const 6)))) (withX one5 3 99) 99 = true ∧
    v3 (.viota (plain .n8 0 (.v 3) (.p 2) .none)) (withP vs 2 7) 63 3 = true ∧
    v3 (.viota (plain .n8 0 (.v 3) .none .none)) vs 63 63 = true ∧
    x3 (.vpopc (plain .n32 0 (.x 3) (.p 2) .none)) (withP vs 2 0xF8000) 1 = true ∧
    x3 (.vpopc (plain .n8 1 (.x 3) (.p 2) .none)) (withP vs 2 0) 64 = true ∧
    x3 (.vpopc (plain .n8 1 (.x 3) (.p 2) .none)) (withP vs 2 0x8000) 15 = true := by
  decide +kernel

/-- The worked case of R289: 2^24, three ones and twelve fives; p6 enables the first four lanes, x18 holds 1.0. -/
def sumCase : State :=
  withX (withP (withV (withV lab 1 (ofLanes 32 ([0x4B800000, 0x3F800000, 0x3F800000, 0x3F800000] ++
    List.replicate 12 0x40A00000))) 3 (ofLanes 32 (List.replicate 16 7))) 6 0xF) 2 0x3F800000

theorem meets_VectorReductionResults :
    good (srcLanes vs .n8 (.v 1) 0) = true ∧ dstReady vs (.x 3) = .ok () ∧
    x3 (.vred (guarded 6 (plain .fp32 0 (.x 3) (.v 1) (.x 2)))) sumCase 0x4B800002 = true ∧
    v3w (.vscan (guarded 6 (plain .fp32 0 (.v 3) (.v 1) .none))) sumCase 2 0x4B800000 = true ∧
    v3w (.vscan (guarded 6 (plain .fp32 0 (.v 3) (.v 1) .none))) sumCase 3 0x4B800001 = true ∧
    v3w (.vscan (guarded 6 (plain .fp32 0 (.v 3) (.v 1) .none))) sumCase 4 7 = true ∧
    x3 (.vred (plain .n8 0 (.x 3) (.v 1) .none 2)) vs 63 = true ∧
    x3 (.vred (guarded 1 (plain .n8 0 (.x 3) (.v 1) .none 3))) (withP vs 1 0) 0xFF = true ∧
    x3 (.vred (guarded 1 (plain .n8 0 (.x 3) (.v 1) (.x 2)))) (withX (withP vs 1 0) 2 5) 5 = true ∧
    x3 (.vred (guarded 1 (plain .n8 0 (.x 3) (.v 1) (.x 2) 1))) (withX (withP vs 1 0) 2 5) 5 = true ∧
    v3w (.vdot (w3 .n8)) (withV vs 3 0) 1 66 = true := by
  decide +kernel

theorem meets_VectorConversionResults :
    v3w (.vcvt (plain .fp32 0 (.v 3) (.v 1) .none 0x207)) vs 0 0x42000000 = true ∧
    runs (.vcvt (plain .n8 0 (.v 3) (.v 1) .none 0x108)) (withV vs 1 (ofLanes 32 [0x40A00000]))
      (fun t => lane (lanesOf 8 (t.me.rv 3)) 16 == 5 && lane (lanesOf 8 (t.me.rv 3)) 15 == 1) = true ∧
    runs (.vpod (plain .pod8 0 (.v 3) (.v 1) .none 0x8)) (v1w [0x41300000]) (fun t => lane (lanesOf 8 (t.me.rv 3)) 0 == 0x31) = true ∧
    v3w (.vpodd (plain .fp32 0 (.v 3) (.v 1) .none)) (withV lab 1 0x31) 0 0x41200000 = true ∧
    runs (.vcvtp (plain .fp32 0 (.v 3) (.v 1) (.x 2) 0x107)) (withX (withV vs 1 (ofLanes 32 [0x40A00000])) 2 127)
      (fun t => lane (lanesOf 8 (t.me.rv 3)) 16 == 5 && lane (lanesOf 8 (t.me.rv 3)) 15 == 1) = true ∧
    v3 (.vrequ (plain .n8 0 (.v 3) (.v 1) (.x 2))) (withX vs 2 0x7F80) 5 10 = true ∧
    v3w (.vscacc (plain .fp32 0 (.v 3) (.v 1) (.v 2)))
      (withV (withV (v1w [1000]) 2 (ofLanes 32 [130 + 120 * 256])) 3 (ofLanes 32 [0x3F000000])) 0 0x427C0000 = true ∧
    runs (.vbexp (plain .bf16 0 (.v 3) (.v 1) .none 5)) vs (fun _ => true) = true ∧
    runs (.vbexp (plain .bf16 1 (.x 3) (.v 1) .none 4)) vs (fun _ => true) = true ∧
    runs (.vplane (plain .n8 0 (.v 3) (.v 1) .none)) (withV lab 1 (ofLanes 8 [5, 0xFD, 0, 127]))
      (fun t => [0, 1, 2, 7].map (fun p => lane (lanesOf 64 (t.me.rv 3)) p) == [0xB, 8, 0xB, 2]) = true ∧
    v3 (.vunpl (plain .n8 0 (.v 3) (.v 1) .none)) (withV lab 1 (ofLanes 64 [0xB, 8, 0xB, 10, 10, 10, 10, 2])) 1 0xFD = true ∧
    v3 (.vlut (plain .n8 0 (.v 3) (.v 1) (.v 2))) (withV (withV lab 1 0xF3) 2 ramp) 1 15 = true := by
  decide +kernel
/-! Memory. -/

/-- The own scratchpad holds 1, 2, 3 ... from its start, and x1 points at it. -/
def padded : State := withX (spadWrite lab 0 0 0 ((List.range 128).map (fun i => BitVec.ofNat 8 (i + 1)))) 1 0xFF80000000000000
/-- Device memory behind page 2 holds the same, and x1 points at it. -/
def paged : State := withX (memWrite lab 0 0x30000 ((List.range 128).map (fun i => BitVec.ofNat 8 (i + 1)))) 1 0x20000
/-- The answer that a request gets from the bytes at its place. -/
def reply (s : State) (r : Request) : Response :=
  { kind := r.kind, agent := r.agent, ctx := r.ctx, place := r.place, size := r.size, job := r.job, status := .ok
    data := match r.place with
      | .mem a => v512 (Mem.readN s.mem a r.size)
      | .spad c o => v512 (spadRead s c r.ctx o r.size)
      | _ => 0 }
/-- What a step asked for has been answered. -/
def allAnswered (o : Host.Outcome State Fault Refusal) (s : State) : State :=
  match o with
  | .next t => { t with
      reqNet := t.inFlight.filter (·.posted), inbound := [], bankQ := []
      inbox := t.inbox ++ (t.inFlight.filter (!·.posted)).map (reply t) }
  | _ => s
/-- The state after an instruction's first issue, answered. -/
def served (i : Instr) (s : State) : State := allAnswered (exec i s) s
/-- The state an instruction or event leaves. -/
def went (i : Instr) (s : State) : State := match exec i s with | .next t => t | _ => s
/-- Several issues of an instruction or event, each answered. -/
def rounds : Nat → Instr → State → State
  | 0, _, s => s
  | n + 1, i, s => rounds n i (served i s)
/-- The writes that the current hart has on their way: their places, masks, and bytes from a 64-bit word. -/
def leaves (t : State) : List (Place × Nat × Nat) :=
  t.inFlight.map (fun r => (r.place, r.mask.toNat, r.data.toNat % 2 ^ 64))
/-- A load's access succeeds and leaves room. -/
def loadable (s : State) (va : W64) (n : Nat) (eager : Bool) (d : Operand) : Bool :=
  good (resolve s s.iAm .load va) fun t => good (scalarLoad s t va n eager) fun r => good (dstReady r.1 d)
def storable (s : State) (va : W64) (n v : Nat) (eager : Bool) : Bool :=
  good (resolve s s.iAm .store va) fun t => good (scalarStore s t va n v eager)
def ldp4 : Fmt := plain .i64 0 (.x 4) (.x 1) .none 0x10

theorem meets_LoadResults :
    Open (f2 .i64 0 8) padded ∧ aligned padded 0xFF80000000000008 8 = .ok () ∧ Quiet padded ∧
    resolve padded padded.iAm .load 0xFF80000000000008 = .ok (.spad 0 8) ∧
    loadBlocked padded.myUnit.jobs (va56 0xFF80000000000008) 8 = false ∧
    x3 (.ld (f2 .i64 0 8)) padded 0x100F0E0D0C0B0A09 = true ∧
    (let s := served (.ld (f2 .n16 1 8)) paged
     good (resolve s s.iAm .load 0x20008) (fun t => match t with
       | .mem dpa e => dpa == 0x30008 && eagerPath s true e && placeOf s dpa == some (.mem 0x30008) &&
           ((s.inbox.find? (s.hartRead (.mem 0x30008) 2 e 0x20008).answeredBy).map (·.status)) == some .ok
       | _ => false) = true ∧
     fabricRefusal s (.mem 0x30008) s.myCtx = none ∧ s.me.waited = [] ∧ x3 (.ld (f2 .n16 1 8)) s 0x0A09 = true) ∧
    loadable (served (.ld (f2 .n16 0 8)) paged) 0x20008 2 false (.x 3) = true ∧
    x3 (.ld (f2 .n16 0 8)) (served (.ld (f2 .n16 0 8)) paged) 0x0A09 = true ∧
    loadable padded 0xFF80000000000010 16 false (.x 4) = true ∧
    runs (.ldp ldp4) padded (fun t => t.me.rx 4 == 0x1817161514131211 && t.me.rx 5 == 0x201F1E1D1C1B1A19) = true := by
  unfold Open Quiet; decide +kernel

/-- x1 points at a phase page. -/
def phased : State := withX lab 1 0x30000
theorem meets_LoadResults_prefetches :
    prefTarget padded 0xFF80000000000000 = none ∧ prefTarget paged 0x20000 = none ∧
    (prefTarget phased 0x30000).map (·.1) = some (0x40000 / 64) ∧
    (let s := served (.pref (plain .i64 0 .none (.x 1) .none)) phased
     (match prefTarget s 0x30000 with
      | some (line, e) => good (loadLine s line 0 e 0x30000)
      | none => false) = true ∧
     runs (.pref (plain .i64 0 .none (.x 1) .none)) s (fun t => (t.cset 0 (0x40000 / 64)).length == 1) = true) ∧
    (let s := served (.pref (plain .i64 0 .none (.x 1) .none)) phased
     let s : State := { s with inbox := s.inbox.map (fun q => { q with status := .integrity }) }
     runs (.pref (plain .i64 0 .none (.x 1) .none)) s (fun t => t.cset 0 (0x40000 / 64) == [] && !t.me.frozen) = true) ∧
    runs (.prefRow (plain .i64 1 .none (.x 1) .none)) paged = true := by
  decide +kernel

/-- Every check of a vector load passes. -/
def vloads (f : Fmt) (s : State) (unit : Bool) (offs : List Int) : Bool :=
  let vas := laneVas f s offs
  good (dstReady s f.d) && good (checkLanes s .load (wholeReg f unit f.d vas) (eagerVar f) (laneBytes f) vas) fun c =>
    let gs := groupLanes unit c.2
    good (loadGroups c.1 (laneBytes f) (eagerVar f) (gs.length == 1) gs) fun r => good (dstReady r.1 f.d)

theorem meets_VectorLoadResults :
    (let f := plain .n8 0 (.v 3) (.x 1) .none 64
     vloads f padded true (unitOffs f) = true ∧ v3 (.vld f) padded 63 128 = true) ∧
    (let f := plain .n64 1 (.v 3) (.x 1) (.x 2)
     let s := served (.vlds f) (served (.vlds f) (withX paged 2 64))
     vloads (guarded 1 f) (withP s 1 3) false (strideOffs f 64) = true ∧
     runs (.vlds (guarded 1 f)) (withP s 1 3) (fun t => lane (lanesOf 64 (t.me.rv 3)) 1 == 0x4847464544434241) = true) ∧
    (let f := guarded 1 (plain .n32 0 (.v 3) (.x 1) (.v 2))
     let s := withP (withV padded 2 0x3C) 1 1
     good (src512 s (.v 2)) = true ∧ vloads f s false (indexOffs f 0x3C) = true ∧ v3w (.vldx f) s 0 0x403F3E3D = true) := by
  decide +kernel

/-- What the hypotheses of a vector store ask, for an instruction none of whose accesses is performed. -/
def vstores (f : Fmt) (s : State) (unit : Bool) (offs : List Int) : Bool :=
  let vas := laneVas f s offs
  let m := laneBytes f
  good (srcLanes s f.ty f.b f.imm) fun data =>
    good (checkLanes s .store (wholeReg f unit f.b vas) (eagerVar f) m vas) fun c =>
      let gs := groupLanes unit c.2
      if c.1.me.groupsDone.isEmpty then
        good (allocGroups c.1 (gs.filter (fun g => g.any (·.phase c.1 (eagerVar f))))) fun v =>
          good (storeGroups v m data (eagerVar f) [] 0 gs)
      else good (storeGroups c.1 m data (eagerVar f) [] 0 gs)

theorem meets_StoreResults :
    storable padded 0xFF80000000000008 8 5 false = true ∧ storable paged 0x20008 8 5 true = true ∧
    storable padded 0xFF80000000000010 16 5 false = true ∧
    runs (.st (plain .n16 0 .none (.x 1) (.x 2) 8)) (withX padded 2 0xABCD)
      (fun t => leaves t == [(.spad 0 8, 0, 0xABCD)] && t.inFlight.map (·.size) == [2]) = true ∧
    runs (.stp (plain .i64 0 .none (.x 1) (.x 2) 16)) (withX (withX padded 2 1) 3 0x77)
      (fun t => t.inFlight.map (fun r => (r.size, r.data.toNat)) == [(16, 0x77 * 2 ^ 64 + 1)]) = true ∧
    runs (.st (plain .n16 1 .none (.x 1) (.x 2) 8)) (withX paged 2 0xABCD)
      (fun t => leaves t == [(.mem 0x30008, 0, 0xABCD)]) = true ∧
    (let s := served (.st (plain .n16 0 .none (.x 1) (.x 2) 8)) (withX phased 2 0xABCD)
     storable s 0x30008 2 0xABCD false = true ∧
     runs (.st (plain .n16 0 .none (.x 1) (.x 2) 8)) s
       (fun t => (t.cset 0 (0x40000 / 64)).map (fun c => (c.owner, c.mask)) == [(some 0, 0x300)]) = true) := by
  decide +kernel

theorem meets_StoreResults_vectors :
    (let f := plain .n8 0 .none (.x 1) (.v 3) 64
     let s := withV padded 3 ramp
     vstores f s true (unitOffs f) = true ∧
     runs (.vst f) s (fun t => t.inFlight.map (fun r => (r.place, r.mask, r.data)) == [(.spad 0 64, BitVec.allOnes 64, ramp)]) = true) ∧
    (let f := plain .n64 1 (.x 2) (.x 1) (.v 3)
     let s := withV (withX paged 2 64) 3 ramp
     vstores f s false (strideOffs f 64) = true ∧
     runs (.vsts f) s (fun t => t.inFlight.map (·.place) == (List.range 8).map (fun k => .mem (0x30000 + 64 * k)) &&
       t.inFlight.map (·.mask) == List.replicate 8 0xFF) = true ∧
     (let again := s.modMe (fun h => { h with groupsDone := [0, 1, 3, 4, 5, 6] })
      vstores f again false (strideOffs f 64) = true ∧
      runs (.vsts f) again (fun t => t.inFlight.map (·.place) == [.mem (0x30000 + 128), .mem (0x30000 + 448)] &&
        t.me.groupsDone == []) = true)) ∧
    (let f := plain .n32 0 (.v 2) (.x 1) (.v 3)
     let s := withV (withV padded 2 (ofLanes 32 ((List.range 16).map (4 * ·)))) 3 ramp
     vstores f s false (indexOffs f (indexReg s f.d)) = true ∧
     runs (.vstx f) s (fun t => t.inFlight.map (·.mask.toNat) == (List.range 16).map (fun k => 0xF * 16 ^ k)) = true) ∧
    (let f := plain .n8 0 .none (.x 1) (.v 3)
     let s := served (.vst f) (withV phased 3 ramp)
     vstores f s true (unitOffs f) = true ∧
     runs (.vst f) s (fun t => (t.cset 0 (0x40000 / 64)).map (fun c => (c.data, c.mask)) == [(ramp, BitVec.allOnes 64)]) = true) := by
  decide +kernel

/-- A byte of the own scratchpad after an instruction. -/
def padByte (i : Instr) (s : State) (off v : Nat) : Bool := runs i s (fun t => spadRead t 0 0 off 1 == [BitVec.ofNat 8 v])
/-- An atomic at a byte of page 2 has been answered. -/
def answered (i : Instr) (old : Nat) : State :=
  let s := served i (withX paged 2 7)
  { s with inbox := s.inbox.map (fun q => { q with data := BitVec.ofNat 512 old }) }

theorem meets_AtomicResults :
    rmwIssued padded = false ∧ atomicTarget padded 0xFF80000000000000 4 false = .ok (.spad 0 0) ∧
    good (rmwAt padded (.spad 0 0) 0xFF80000000000000 (amoOp 0) .i32 7) (fun r => r.2 == 0x04030201) = true ∧
    x3 (.amo (f3 .i32)) (withX padded 2 7) 0x04030201 = true ∧
    padByte (.amo (f3 .i32)) (withX padded 2 7) 0 8 = true ∧
    x3 (.cas (f3 .i32)) (withX (withX padded 2 7) 3 0x04030201) 0x04030201 = true ∧
    padByte (.cas (f3 .i32)) (withX (withX padded 2 7) 3 0x04030201) 0 7 = true ∧
    padByte (.cas (f3 .i32)) (withX (withX padded 2 7) 3 0x04030200) 0 1 = true ∧
    rmwIssued (answered (.amo (f3 .i32)) 0x99) = true ∧
    good (rmwAnswer (answered (.amo (f3 .i32)) 0x99) 0x20000 .i32) (fun r => r.2 == 0x99) = true ∧
    x3 (.amo (f3 .i32)) (answered (.amo (f3 .i32)) 0x99) 0x99 = true ∧
    good (atomicTarget paged 0x20000 4 true) = true ∧ interlock paged .atomic 0x20000 4 = .ok () ∧
    fabricRefusal paged (.mem 0x30000) 0 = none ∧
    runs (.amored (plain .i32 0 .none (.x 1) (.x 2))) (withX paged 2 7)
      (fun t => t.inFlight.map (fun r => (r.place, r.tag, r.reduce, r.data.toNat)) == [(.mem 0x30000, none, true, 7)]) = true ∧
    runs (.amored (plain .i32 0 (.x 3) (.x 1) (.x 2))) (withX (withX paged 2 7) 3 0x99)
      (fun t => t.inFlight.map (·.tag) == [some 0x99]) = true ∧
    (let f := plain .i32 0 .none (.x 1) (.x 2)
     slotFlying padded 0 0 = false ∧
     runs (.amored f) (withX padded 2 7) (fun t => t.inFlight.map (·.place) == [.spad 0 0]) = true) ∧
    runs (.waitw (plain .i32 1 .none (.x 1) (.x 2))) (withX padded 2 0x04030201) (fun t => t.me.waiting) = true ∧
    runs (.waitw (plain .i32 1 .none (.x 1) (.x 2))) (withX padded 2 7) (fun t => !t.me.waiting) = true ∧
    (let f := plain .i32 0 .none (.x 1) (.x 2)
     runs (.waitw f) (served (.waitw f) (withX paged 2 7)) (fun t => t.me.waiting && t.me.sleep.isSome) = true) := by
  decide +kernel

theorem meets_ScratchpadAccessesAct :
    (let s := withX padded 2 7
     Mem.wf s.spad = true ∧ src64 s (.x 2) 0 = .ok 7 ∧ aligned s 0xFF8000000005FFF8 8 = .ok () ∧
     resolve s s.iAm .store 0xFF8000000005FFF8 = .ok (.spad 0 0x5FFF8) ∧ s.me.waited = [] ∧
     storeBlocked s.myUnit.jobs (va56 0xFF8000000005FFF8) 8 = false ∧ slotFlying s 0 0x5FFF8 = false) ∧
    (let r : Request := (withX padded 2 7).hartWrite (.spad 0 8) 8 0 7 0xFF80000000000008
     let s : State := { padded with reqNet := [r] }
     leavesNow s 0 r = true ∧ regionReady s 0 8 = true ∧ r.ctx ≠ sysCtx ∧
     runs (.scratch 0) s (fun t => Mem.read t.spad (spadKey 0 0 8) == 7 && Mem.read t.spad (spadKey 0 0 16) == 17 &&
       Mem.read t.spad (spadKey 0 0 7) == 8) = true) ∧
    Quiet padded ∧ storeBlocked padded.myUnit.jobs (va56 0xFF80000000000000) 4 = false ∧
    rmwNew .add .i32 0x04030201 7 = some 0x04030208 ∧ leNat (spadRead padded 0 0 0 4) ≠ (5 : W64).toNat := by
  unfold Quiet; decide +kernel

theorem meets_OrderingResults :
    paged.me.inRel = false ∧ good (release (acquire paged) 0) = true ∧ good (release paged 3) = true ∧
    good (fenceAt paged 4) = true ∧ localWrites paged = false ∧
    runs (.phase (plain .i64 0 .none .none .none)) paged = true ∧ runs (.rel (plain .i64 0 .none .none .none)) paged = true ∧
    runs (.acq (plain .i64 0 .none .none .none)) paged = true ∧ runs (.fenceSc (plain .i64 0 .none .none .none)) paged = true ∧
    runs (.fenceIo (plain .i64 1 .none .none .none)) paged = true ∧
    runs (.cinvLine (plain .i64 0 .none (.x 1) .none)) paged = true ∧
    runs (.cinvLine (plain .i64 0 .none (.x 1) .none)) padded = true ∧
    runs (.cinvAll (plain .i64 1 .none .none .none)) paged = true ∧
    (let s := lab.setCore 0 { lab.core 0 with dcache :=
      [(0, [{ ctx := 0, line := 0, owner := none, data := 0, mask := 0 }, { ctx := 1, line := 0, owner := none, data := 0, mask := 0 },
            { ctx := 0, line := 0, owner := some 0, data := 5, mask := 1 }])] }
     (Tab.get [] ((acquire s).core 0).dcache 0).map (fun c => (c.ctx, c.owner)) = [(1, none), (0, some 0)]) := by
  decide +kernel

/-- A phase store's line is published by a release, whose write is then on its way, and DEV waits for the flush. -/
theorem test_release_publishes :
    (let i := Instr.st (plain .n16 0 .none (.x 1) (.x 2) 8)
     let s := went i (served i (withX phased 2 0xABCD))
     runs (.rel (plain .i64 0 .none .none .none)) s (fun t =>
       t.inFlight.map (fun r => (r.place, r.mask.toNat)) == [(.mem 0x40000, 0x300)] && !t.me.waiting &&
         (t.cset 0 (0x40000 / 64)).map (·.owner) == [none]) = true ∧
     runs (.rel (plain .i64 0 .none .none .none 4)) s (fun t => t.me.waiting && t.me.inRel) = true) := by
  decide +kernel

/-! Queues: handle 0 is bound to ring 0 of the own core, four 64-byte slots from byte 0x1000, with this many filled. -/
def ringed (filled : Nat) : State :=
  (lab.modMe (fun h => { h with qbind := h.qbind.set (0 : Fin 16) (mkQbind true false 0 0 0) })).setRing 0 0 0
    { decl := true, base := 0x1000, slotBytes := 64, count := 4, pp := filled, cp := 0 }
/-- With 5 in x1 and 9 in the slot at the consumer pointer. -/
def queued (filled : Nat) : State := withX (spadWrite (ringed filled) 0 0 0x1000 (leBytes 8 9)) 1 5
/-- Handle 1 of slot 0 produces for ring 0 of core 1, with one free slot known. -/
def peered : State :=
  let s := lab.modMe (fun h => { h with qbind := h.qbind.set (1 : Fin 16) (mkQbind true false 1 0 1) })
  (s.setRing 1 0 0 { decl := true, base := 0x1000, slotBytes := 64, count := 4, peer := some (0, linkKey 0 1) }).setLink 0 0
    (linkKey 0 1) { core := 1, ring := 0, base := 0x1000, slotBytes := 64, count := 4, pp := 0, credit := 1 }

theorem meets_QueueMoveResults :
    (let f := plain .i64 0 (.q 0 0) (.x 1) .none
     good (pushBytes (queued 3) f) (fun _ => good (producerEnd (queued 3) 0) fun h =>
       hasRoom (queued 3) h 1 && slotFree (queued 3) (h.slotAt (queued 3) false 0) && mayPublish (queued 3) h) = true ∧
     runs (.qpush f) (queued 3) (fun t => (t.ring 0 0 0).pp == 4 && spadRead t 0 0 0x10C0 8 == leBytes 8 5) = true) ∧
    (let f := plain .i64 0 (.x 3) (.q 0 0) .none
     good (popEnd (queued 1) 0) (fun h => mayFree (queued 1) h 1 && good (queueRead (queued 1) 0 0) fun _ => good (dstReady (freeAt (queued 1) h 1) f.d)) = true ∧
     runs (.qpop f) (queued 1) (fun t => t.me.rx 3 == 9 && (t.ring 0 0 0).cp == 1) = true ∧
     runs (.qpop (plain .i64 0 (.v 3) (.q 0 0) .none)) (queued 1) (fun t => t.me.rv 3 == 9) = true ∧
     runs (.qpop f) (queued 0) (fun t => t.me.waiting) = true) ∧
    (let f := plain .i64 0 .none (.q 0 0) (.const 4)
     good (countOf (queued 4) f f.b) (fun n => good (popEnd (queued 4) 0) fun h => n ≤ h.count && n ≤ h.ready && mayFree (queued 4) h n) = true ∧
     good (consumerEnd (queued 4) 0) (fun h => h.ready == 4) = true ∧
     runs (.qadv f) (queued 4) (fun t => (t.ring 0 0 0).cp == 4) = true ∧
     good (producerEnd (queued 0) 0) (fun h => hasRoom (queued 0) h 4 && mayPublish (queued 0) h) = true ∧
     good (roomEnd (queued 0) 0) (fun h => h.free == 4) = true ∧
     runs (.qprod f) (queued 0) (fun t => (t.ring 0 0 0).pp == 4) = true ∧
     runs (.qprod (plain .i64 0 .none (.q 0 0) .none)) (queued 4) (fun t => (t.ring 0 0 0).pp == 4) = true ∧
     runs (.qwaitFill f) (queued 4) (fun t => !t.me.waiting) = true ∧ runs (.qwaitFill f) (queued 3) (fun t => t.me.waiting) = true ∧
     runs (.qwaitRoom (plain .i64 1 .none (.q 0 0) (.const 4))) (queued 0) (fun t => !t.me.waiting) = true) ∧
    Mem.wf (queued 0).spad = true ∧ good (producerEnd (queued 0) 0) = true ∧ ((queued 0).ring 0 0 0).pp = ((queued 0).ring 0 0 0).cp ∧
    slotFree (queued 0) (0, ((queued 0).ring 0 0 0).slotOff 0) = true := by
  decide +kernel

theorem meets_QueueBindingResults :
    unitsReady lab = .ok () ∧
    (let f := plain .i64 0 (.x 3) (.q 0 0) (.x 1)
     let good0 := withX ((lab.setRing 0 0 0 { (ringed 0).ring 0 0 0 with pp := 0 })) 1 0
     bindStatus good0 0 0 = 0 ∧ dstReady (bindHandle good0 0 0) f.d = .ok () ∧ x3 (.qbind f) good0 0 = true ∧
     bindStatus (queued 0) 0 5 ≠ 0 ∧ x3 (.qbind f) (queued 0) 0 = false) ∧
    qbBound lab.me.qbind[(0 : Fin 16)] = false ∧ runs (.qfree (plain .i64 0 .none (.q 0 0) .none)) lab = true ∧
    qbBound (queued 1).me.qbind[(0 : Fin 16)] = true ∧ qbMode (queued 1).me.qbind[(0 : Fin 16)] = 0 ∧
    runs (.qfree (plain .i64 0 .none (.q 0 0) .none)) (queued 1) (fun t => t.me.qbind[(0 : Fin 16)] == 0) = true ∧
    qbMode peered.me.qbind[(1 : Fin 16)] = 1 ∧ (peered.link 0 0 (linkKey 0 1)).map (·.flying) = some 0 ∧
    runs (.qfree (plain .i64 0 .none (.q 1 0) .none)) peered (fun t => (t.link 0 0 (linkKey 0 1)).isNone) = true ∧
    x3 (.qstat (plain .i64 0 (.x 3) (.q 0 0) .none)) (withX lab 3 5) 0 = true ∧
    good (statEnd (queued 1) 0) = true ∧
    runs (.qstat (plain .i64 0 (.x 3) (.q 0 0) .none)) (queued 1) = true ∧
    x3 (.qstatHead (plain .i64 1 (.x 3) (.q 0 0) .none)) (queued 1) 0xFF80000000001000 = true ∧
    x3 (.qstatTail (plain .i64 2 (.x 3) (.q 0 0) .none)) (queued 1) 0xFF80000000001040 = true := by
  decide +kernel
/-! Tours, pipelines and ranges. -/

/-- A record of doublewords, least significant first. -/
def dws (l : List Nat) : List Byte := l.flatMap (leBytes 8)
/-- Ring 0 of core 0 has the tour role and one slot filled by stop 0 of tour 7, whose origin is core 0. -/
def touring (hold : Nat) (mg ended : Bool := false) : State :=
  let s := lab.modMe (fun h => { h with qbind := h.qbind.set (0 : Fin 16) (mkQbind true false 2 0 0) })
  let s := s.setRing 0 0 0 { decl := true, base := 0x1000, slotBytes := 64, count := 4, pp := 1, tour := true,
                              visits := [{ arr := 0, origin := 0, tourId := 7, stop := 0, mg := mg, since := 0, hold := hold,
                                              ended := ended }] }
  let u := s.unit 0 0
  s.setUnit 0 0 { u with tours := [(7, { src := 0x20000, bytes := 64, key := 0, nstop := 1, stops := [(0, 0, 10)], makegood := true,
                                            loop := false, irq := true, cword := 0, cvalue := 5, wd := 0, hart := 0,
                                            st := .travelling, open_ := 1, finished := true })] }
/-- Ring 0 is empty and tour 7 has this much to do. -/
def toTour (g : Tour → Tour) : State :=
  ((touring 10).modTour 0 0 7 (fun t => g { t with open_ := 0, finished := false })).setRing 0 0 0
    { decl := true, base := 0x1000, slotBytes := 64, count := 4, tour := true }
def itinerary (bytes core : Nat) : List Byte := dws [9 + 2 ^ 16 + core * 2 ^ 38, 0x20000, bytes, 0, core + 10 * 2 ^ 16]
def offering (bytes core : Nat) : State := withX (spadWrite (touring 10) 0 0 0 (itinerary bytes core)) 1 0xFF80000000000000
def tf : Fmt := plain .i64 0 (.x 3) (.x 1) .none
def qf (b : Operand := .none) (var : Fin 16 := 0) : Fmt := plain .i64 var (.x 3) (.q 0 0) b

theorem meets_TourInstructionResults :
    aligned (offering 64 0) 0xFF80000000000000 64 = .ok () ∧
    good (loadWords (offering 64 0) 0xFF80000000000000 64 2) (fun r => itCheck r.1 r.1.myCtx (leNat r.2) == 0) = true ∧
    x3 (.tour tf) (offering 64 0) 0 = true ∧ x3 (.tour tf) (offering 65 0) 0x201 = true ∧
    x3 (.tour tf) (offering 64 9) 0xF02 = true ∧
    x3 (.tourBind (qf .none 1)) (touring 10) 0 = true ∧ x3 (.tourBind (qf .none 1)) (queued 1) 2 = true ∧
    x3 (.tourBind (plain .i64 1 (.x 3) (.q 1 0) .none)) peered 1 = true ∧
    runs (.tourBind (qf .none 1)) (queued 0) (fun t => (t.ring 0 0 0).tour && qbMode t.me.qbind[(0 : Fin 16)] == 2) = true ∧
    good (tourHandle (touring 10) 0) (fun r => (headVisit r).isSome) = true ∧
    x3 (.trel (qf (.x 1))) (withX (touring 10) 1 1) 1 = true ∧ x3 (.trelEnd (qf (.x 1) 1)) (withX (touring 10) 1 1) 1 = true ∧
    x3 (.trel (qf (.x 1))) (withX (touring 10) 1 0) 0 = true ∧ x3 (.trelEnd (qf .none 1)) (touring 10) 0 = true ∧
    x3 (.trel (qf)) (touring 10 false true) 2 = true ∧ x3 (.trelEnd (qf .none 1)) (touring 10 false true) 2 = true ∧
    runs (.tstatHead (qf .none 1)) (touring 10) (fun t => t.me.rx 3 != 0) = true ∧
    x3 (.tstatHead (qf .none 1)) (withX (toTour id) 3 9) 0 = true ∧
    runs (.tstat tf) (withX (touring 10) 1 7) (fun t => t.me.rx 3 != 0) = true ∧
    x3 (.tstat tf) (withX (withX (touring 10) 1 8) 3 9) 0 = true := by
  decide +kernel

def tourOf (s : State) : Tour := ((s.tour? 0 0 7).getD (newTour 0 0))
/-- A leg sends its tile, which its stop can take. -/
def tileLands (i : Instr) (s : State) : Bool :=
  runs i (served i s) fun t => match t.ringNet with
    | m :: _ => ringFirst t 0 m && ringArrives t m && !stageWaits t m &&
        match m.body with
        | .tile o id stop mg into _ => o == 0 && id == 7 &&
            ((tourOf t).legs.find? (fun l => l.sent && l.stop == stop && l.mg == mg && l.into == into)).isSome
        | _ => false
    | [] => false
/-- A tour event after what it read or wrote has been answered. -/
def tourRuns (i : Instr) (s : State) (k : State → Bool) : Bool := runs i (served i s) k

theorem meets_TourEventsAct :
    (let s := toTour (fun t => { t with legs := [{ stop := 0, source := .src }] })
     (runningTour s 0 7).isSome = true ∧ stopReady s 0 (0, 0, 10) = true ∧ tileLands (.tourLeg 0 7) s = true ∧
     runs (.ringPublish 0) (went (.tourLeg 0 7) (served (.tourLeg 0 7) s)) (fun t => (t.ring 0 0 0).pp == 1 &&
       (t.ring 0 0 0).reserved == 0 && (t.ring 0 0 0).visits.map (·.hold) == [10]) = true) ∧
    (let s := toTour (fun t => { t with bytes := 128, legs := [{ stop := 0, source := .src }] })
     let s1 := served (.tourLeg 0 7) s
     (s1.tour? 0 0 7).map (fun t => t.legs.map (·.reserved)) = some [true] ∧
     runs (.tourLeg 0 7) s1 (fun t => (t.ring 0 0 0).pp == 0 &&
       (t.tour? 0 0 7).map (fun t => t.legs.map (·.got.length)) == some [64]) = true ∧
     good (legStep (reserveLeg (toTour id) 0 0 7 (tourOf (toTour id)) { stop := 0, source := .slot 0 0 0 }).1 0 0 7 (tourOf (toTour id))
       { stop := 0, source := .slot 0 0 0, reserved := true }) = true) ∧
    (let s := toTour (fun t => { t with legs := [{ stop := 0, source := .src, mg := true }] })
     let s1 := served (.makeGood 0 7) s
     (tourOf s1).legs.find? (fun l => l.mg && !l.sent && (l.reserved || goodReady s1 0 (tourOf s1) l)) =
       some { stop := 0, source := .src, mg := true, reserved := true } ∧
     runs (.ringPublish 0) (went (.makeGood 0 7) s1) (fun t => (t.ring 0 0 0).visits.map (·.mg) == [true]) = true) ∧
    (let s := toTour (fun t => { t with goods := [0], finished := true, owed := 1, legs := [] })
     runs (.makeGood 0 7) s (fun t => ((t.tour? 0 0 7).map (fun t => (t.goods.length, t.legs.map (·.mg)))) == some (0, [true])) = true) ∧
    (let s := toTour (fun t => { t with finished := true, legs := [] })
     runs (.tourComplete 0 7) s (fun t => (t.tour? 0 0 7).isNone && t.me.ipend == 8) = true ∧
     tourRuns (.tourComplete 0 7) (toTour (fun t => { t with finished := true, legs := [], cword := 0x20000 }))
       (fun t => (t.tour? 0 0 7).isNone) = true) ∧
    (let s := (touring 10).modTour 0 0 7 (fun t => { t with dog := 2 ^ 20 })
     runs (.tourWatchdog 0 7) s (fun t => ((t.tour? 0 0 7).map (·.status)) == some 10) = true) ∧
    runs (.holdExpiry 0 0 0) { touring 10 with clock := 10 } (fun t => (t.ring 0 0 0).cp == 0) = true ∧
    runs (.holdExpiry 0 0 0) { touring 10 with clock := 11 } (fun t => (t.ring 0 0 0).cp == 1) = true := by
  decide +kernel

/-- A tile in transit from ring 0 whose next stop, ring 1, holds this many of its four slots. -/
def moving (filled : Nat) : State :=
  let s := (touring 10).modTour 0 0 7 (fun t =>
    { t with stops := [(0, 0, 10), (0, 1, 10)], nstop := 2, legs := [{ stop := 1, source := .slot 0 0 0 }] })
  let s := s.setRing 0 0 1 { decl := true, base := 0x2000, slotBytes := 64, count := 4, pp := filled, tour := true }
  let r := s.ring 0 0 0
  { s.setRing 0 0 0 { r with visits := [], cp := 1, transit :=
    [{ arr := 0, origin := 0, tourId := 7, hold := 10, data := 0x55 }] } with clock := 10 }
theorem meets_TourEventsAct_drop :
    noRoom (moving 4) 0 0 0 { arr := 0, origin := 0, tourId := 7, hold := 10, data := 0x55 } = true ∧
    ((countDogs (moving 4) 9).ring 0 0 0).transit.map (·.waited) = [9] ∧
    ((countDogs (moving 3) 9).ring 0 0 0).transit.map (·.waited) = [0] ∧
    runs (.transitDrop 0 0 0) (countDogs (moving 4) 10) (fun t => (t.ring 0 0 0).transit.isEmpty) = true ∧
    runs (.transitDrop 0 0 0) (countDogs (moving 4) 9) (fun t => (t.ring 0 0 0).transit.length == 1) = true ∧
    (let l : Leg := { stop := 1, source := .slot 0 0 0 }
     (overdueSlot (countDogs (moving 4) 10) 0 l).isSome = true ∧ overdueSlot (moving 3) 0 l = none ∧
     runs (.tourLeg 0 7) (countDogs (moving 4) 10) (fun t => (t.ring 0 0 0).transit.isEmpty && t.ringNet.isEmpty) = true) ∧
    runs (.tourLeg 0 7) (moving 3) (fun t => (t.ring 0 0 1).reserved == 1 && (t.ring 0 0 0).transit.isEmpty &&
      runs (.ringPublish 0) t (fun v => (v.ring 0 0 1).pp == 4 && spadRead v 0 0 (((v.ring 0 0 1).slotOff 3)) 8 == leBytes 8 0x55)) = true := by
  decide +kernel

/-- Pipeline 5 of core 0: rings 0, 1 and 2, ring 3 reserved as stage 3, this splice, and its marker at ring 0. -/
def piped (opk target aux : Nat) (taken : Bool := false) : State :=
  let stage (n next : Nat) : Stage := { core := 0, ring := n, code := 0x60000, region := 0x99, next := next }
  let ring (n : Nat) (ms : List Marker) : Ring :=
    { decl := true, base := 0x1000 * (n + 1), slotBytes := 64, count := 4, stage := true, markers := ms,
      outKey := some (linkKey 0 (8 + n)), member := some (5, n) }
  let s := (List.range 4).foldl (fun s n =>
    s.setRing 0 0 n (ring n (if n = 0 then [{ pos := 0, pipe := 5, taken := taken }] else []))) lab
  let s := s.setLink 0 0 (linkKey 0 8) { core := 0, ring := 1, base := 0x2000, slotBytes := 64, count := 4, pp := 0, credit := 4 }
  let s := s.modMe (fun h => { h with
    qbind := (h.qbind.set (0 : Fin 16) (mkQbind true false 3 0 0)).set (4 : Fin 16) (mkQbind true false 3 0 0),
    roles := [(0, 1), (4, 3)] })
  let u := s.unit 0 0
  s.setUnit 0 0 { u with pipes := [(5, { scope := 1, stages := [(0, stage 0 1), (1, stage 1 2), (2, stage 2 31)], first := 0,
                                            head := linkKey 0 4, reserved := some (3, stage 3 31),
                                            splice := if opk = 9 then none else some
                                              { opk := opk, target := target, aux := aux, code := 0x70000, cword := 0, cvalue := 1,
                                                irq := true, hart := 0 } })] }

/-- A message on the ring network from the first core to core 0. -/
def message (src link : Nat) (b : RingPayload) : RingMsg := { src := src, dst := 0, ctx := 0, ring := 0, link := link, body := b }

theorem meets_RingAndSpliceEventsAct :
    (let s : State := { queued 0 with ringNet := [message 0 0 (.slot 1 9)] }
     ringFirst s 0 (message 0 0 (.slot 1 9)) = true ∧ ringArrives s (message 0 0 (.slot 1 9)) = true ∧
     stageWaits s (message 0 0 (.slot 1 9)) = false ∧
     runs (.ringPublish 0) s (fun t => spadRead t 0 0 0x1040 8 == leBytes 8 9 && t.ringNet.isEmpty) = true) ∧
    (let s : State := { queued 0 with ringNet := [message 0 0 (.publish 2)] }
     ringFirst s 0 (message 0 0 (.publish 2)) = true ∧ ringArrives s (message 0 0 (.publish 2)) = true ∧
     stageWaits s (message 0 0 (.publish 2)) = false ∧ runs (.ringPublish 0) s (fun t => (t.ring 0 0 0).pp == 2) = true) ∧
    (let s : State := { peered with ringNet := [message 1 (linkKey 0 1) (.credit 3)] }
     ringFirst s 0 (message 1 (linkKey 0 1) (.credit 3)) = true ∧
     runs (.creditReturn 0) s (fun t => (t.link 0 0 (linkKey 0 1)).map (·.credit) == some 4) = true) ∧
    (let s := piped 0 1 3
     lostMarker s 0 5 = none ∧
     (standing s 0 5).map (fun h => h.atEffect || awaitsStage s 0 h.ring h.m) = some false ∧
     runs (.markerPass 0 5) s (fun t => (t.ring 0 0 0).markers.isEmpty) = true) ∧
    (let r := (piped 0 1 3).ring 0 0 0
     let s : State := { (piped 0 1 3).setRing 0 0 0 { r with markers := [], member := none } with
       ringNet := [message 0 0 (.marker { pos := 0, pipe := 5 })] }
     (lostMarker s 0 5).isSome = true ∧ runs (.markerPass 0 5) s (fun t => t.ringNet.map (·.ring) == [1]) = true) := by
  decide +kernel

/-- The plan of a splice at its effect point is to go on, and no acknowledgement is awaited. -/
def goes (s : State) : Bool :=
  match standing s 0 5 with
  | some h => h.atEffect && h.settled s 0 0 && (splicePlan s 0 5 h.p h.x == .goes)
  | none => false
/-- The removal of stage 0 at the head handle. -/
def heading : State :=
  let r := (piped 1 0 0).ring 0 0 0
  let s := ((piped 1 0 0).setRing 0 0 0 { r with markers := [] }).modSplice 0 5 (fun x => { x with atHead := true })
  s.setLink 0 0 (linkKey 0 4) { core := 0, ring := 0, base := 0x1000, slotBytes := 64, count := 4, pp := 0, credit := 4, held := true }

theorem meets_RingAndSpliceEventsAct_splices :
    goes (piped 0 0 3) = true ∧
    runs (.spliceInsert 0 5) (piped 0 0 3) (fun t => ((t.pipe? 0 5).map (fun p => p.stages.length)) == some 4) = true ∧
    goes (piped 1 1 0) = true ∧
    runs (.spliceRemove 0 5) (piped 1 1 0) (fun t => ((t.pipe? 0 5).map (fun p => p.stages.length)) == some 2) = true ∧
    goes (piped 2 0 0 true) = true ∧
    runs (.spliceRebind 0 5) (piped 2 0 0 true)
      (fun t => ((t.pipe? 0 5).bind (fun p => p.stage? 0)).map (·.code) == some 0x70000) = true ∧
    unitsLive heading 0 = true ∧ ((heading.pipe? 0 5).bind (fun p => p.splice.map (fun x =>
      x.atHead && (splicePlan heading 0 5 p x == .goes) && (p.stage? x.target).isSome))) = some true ∧
    runs (.spliceRemove 0 5) heading (fun t => ((t.pipe? 0 5).map (fun p => p.stages.length)) == some 2) = true ∧
    (let l : Link := { core := 0, ring := 1, base := 0x2000, slotBytes := 64, count := 4, pp := 0, credit := 4, held := true, ackOf := some 5 }
     let s := (piped 2 0 0 true).setLink 0 0 (linkKey 0 8) l
     (s.unit 0 0).links.find? (fun e => e.2.ackOf == some 5) = some (linkKey 0 8, l) ∧ swapIdle s 0 = true ∧
     runs (.drainAcknowledgement 0 5) s (fun t => (t.link 0 0 (linkKey 0 8)).map (·.held) == some false) = true) ∧
    (let done (c : W64) := (piped 2 0 0 true).modSplice 0 5 (fun x => { x with cword := c, tailPassed := true, phase := 2 })
     runs (.spliceComplete 0 5) (done 0) (fun t => ((t.pipe? 0 5).bind (·.splice)).isNone && t.me.ipend == 16) = true ∧
     tourRuns (.spliceComplete 0 5) (done 0x20000) (fun t => ((t.pipe? 0 5).bind (·.splice)).isNone) = true) := by
  decide +kernel

/-- A pipeline descriptor of one stage: ring 0 of core 0. -/
def opening : State :=
  withX (spadWrite (lab.setRing 0 0 0 { decl := true, base := 0x1000, slotBytes := 64, count := 4, stage := true }) 0 0 0
    (dws [6 + 2 ^ 16, 0, 0, 0, 0x60000, 0, 31 * 2 ^ 16, 0])) 1 0xFF80000000000000
/-- A splice record: OPK 0 after stage 0, with the reserved stage 3. -/
def spliceRec (opk : Nat) : V512 := BitVec.ofNat 512 (48 * 2 ^ 16 + 1 + 2 ^ 128 * (opk + 3 * 2 ^ 8))

theorem meets_PipelineInstructionResults :
    x3 (.splprepOpen (plain .i64 0 (.x 3) (.x 1) (.q 4 0))) opening 0 = true ∧
    runs (.splprepOpen (plain .i64 0 (.x 3) (.x 1) (.q 4 0))) opening (fun t => (t.pipe? 0 6).isSome) = true ∧
    x3 (.splprepOpen (plain .i64 0 (.x 3) (.x 1) (.q 4 0))) (spadWrite opening 0 0 0 (dws [6])) 1 = true ∧
    (let r : Ring := { decl := true, base := 0x7000, slotBytes := 64, count := 4, stage := true }
     let s := ((piped 9 0 0).modPipe 0 5 (fun p => { p with reserved := none })).setRing 0 0 6 r
     runs (.splprepStage (plain .i64 1 (.x 3) (.v 1) (.x 2)))
       (withX (withV s 1 (BitVec.ofNat 512 (0x60000 + 2 ^ 128 * (6 * 2 ^ 10)))) 2 5) (fun t => t.me.rx 3 == 0x30000) = true) ∧
    runs (.splprepBind (plain .i64 2 (.x 3) (.q 0 0) (.q 2 0))) (queued 0) (fun t => (t.ring 0 0 0).stage) = true ∧
    x3 (.splprepDrop (plain .i64 3 (.x 3) (.x 1) (.x 2))) (withX (withX (piped 9 0 0) 1 5) 2 3) 0 = true ∧
    injectStatus (piped 9 0 0) 0 ((piped 9 0 0).pipe? 0 5) (spliceRec 0).toNat = 0 ∧
    x3 (.splinj (plain .i64 0 (.x 3) (.v 1) (.q 4 0))) (withV (piped 9 0 0) 1 (spliceRec 0)) 0 = true ∧
    runs (.splstat (plain .i64 0 (.x 3) (.x 1) .none)) (withX (piped 9 0 0) 1 5) (fun t => t.me.rx 3 != 0) = true ∧
    x3 (.splstat (plain .i64 0 (.x 3) (.x 1) .none)) (withX (piped 9 0 0) 1 6) 0 = true ∧
    (let r := (piped 9 0 0).ring 0 0 0
     x3 (.splstatTake (qf .none 1)) ((piped 9 0 0).setRing 0 0 0 { r with inherit := some 0x99 }) 3 = true ∧
     x3 (.splstatTake (qf .none 1)) ((piped 9 0 0).setRing 0 0 0 { r with markers := [], pp := 1 }) 0 = true ∧
     x3 (.splstatTake (qf .none 1)) (went (.spliceRebind 0 5) (piped 2 0 0 true)) 0x70002 = true ∧
     runs (.splstatTake (qf .none 1)) (piped 2 0 0) (fun t => t.me.waiting &&
       (t.ring 0 0 0).markers.map (·.taken) == [true]) = true ∧
     (let leaving := ((piped 1 0 0).setRing 0 0 0 { r with markers := [{ pos := 0, pipe := 5, live := false }] }).modPipe 0 5 (fun p =>
        { p with stages := p.stages.drop 1, splice := p.splice.map (fun x => { x with leaver := p.stage? 0, phase := 2 }) })
      good (release leaving 1) = true ∧ x3 (.splstatTake (qf .none 1)) leaving 1 = true ∧
      runs (.splstatTake (qf .none 1)) leaving (fun t => (t.ring 0 0 0).member.isNone) = true) ∧
     x3 (.splstatInh (qf .none 2)) ((piped 9 0 0).setRing 0 0 0 { r with inherit := some 0x99 }) 0x99 = true) := by
  decide +kernel

/-- A range descriptor: from, to, least chunk, K, P. -/
def rangeDesc (a b m k p : Nat) : V512 := BitVec.ofNat 512 (a + 2 ^ 64 * b + 2 ^ 128 * m + 2 ^ 192 * k + 2 ^ 208 * p)
def ranged : State := lab.setSow 0 [{ ctx := 0, id := 3, next := 10, last := 100, k := 2, min := 4, p := 3 }]

theorem meets_TaskInstructionResults_ranges :
    sowBad (rangeDesc 10 5 4 2 3) = true ∧ x3 (.rngset (plain .i64 0 (.x 3) (.v 1) .none 3)) (withV lab 1 (rangeDesc 10 5 4 2 3)) 1 = true ∧
    runs (.rngset (plain .i64 0 (.x 3) (.v 1) .none 3)) (withV lab 1 (rangeDesc 10 100 4 2 3))
      (fun t => t.me.rx 3 == 0 && t.sow 0 == ranged.sow 0) = true ∧
    (let full := lab.setSow 0 ((List.range 16).map (fun i => { ctx := 1, id := i, next := 0, last := 5, k := 1, min := 1, p := 1 }))
     x3 (.rngset (plain .i64 0 (.x 3) (.v 1) .none 3)) (withV full 1 (rangeDesc 10 100 4 2 3)) 2 = true) ∧
    runs (.rngget (plain .i64 0 (.x 4) .none .none 2)) (withX ranged 5 9) (fun t => t.me.rx 4 == 0 && t.me.rx 5 == 0) = true ∧
    runs (.rngget (plain .i64 0 (.x 4) .none .none 3)) ranged (fun t => t.me.rx 4 == 10 && t.me.rx 5 == 15) = true ∧
    x3 (.rnggetLeft (plain .i64 1 (.x 3) .none .none 3)) ranged 90 = true ∧
    x3 (.rnggetLeft (plain .i64 1 (.x 3) .none .none 2)) (withX ranged 3 9) 0 = true := by
  decide +kernel
/-! The engines. -/

/-- 64 bytes of doublewords in a register. -/
def row (l : List Nat) : V512 := BitVec.ofNat 512 (packLanes 64 l)
/-- The matrix engine of core 0 runs this card on one of its units. -/
def mxRun (s : State) (x : MxUnit) (c : V512) (cap : Nat := 0) (layout : Option Nat := none) : State :=
  s.modMatrix 0 (fun m => m.setUnitRun x (some { c := { job := 0, card := c, cap := cap }, layout := layout }))
/-- A layout record of rank 2 and kind 0: base, type, extents, row stride, windows. -/
def layoutRec (base ty e0 e1 stride w0 w1 : Nat) (rank : Nat := 2) : Nat :=
  packLanes 64 [base, ty * 2 ^ 16 + (rank - 1) * 2 ^ 24 + 4 * 2 ^ 32, e0 + e1 * 2 ^ 32, 0, stride, 0, 0, w0 + w1 * 2 ^ 16, 0, 0, 0, 0]
def zeroCard : V512 := row [0x10]
def drainCard (off : Nat) : V512 := row [3, 1 + 2 * 2 ^ 8, off, 64 * 2 ^ 32]
def runaCard : V512 := row [2, 1 + 1 * 2 ^ 8 + 8 * 2 ^ 17, 0, 32 + 32 * 2 ^ 32]
def loadCard : V512 := row [1 + 7 * 2 ^ 32, 2 * 2 ^ 8 + 2 * 2 ^ 17, 0x20000]
def tourCard (op : Nat) : V512 := row [if op = 4 then 4 + 2 ^ 14 else 1, 2 * 2 ^ 8 + 2 * 2 ^ 17, 2 ^ 63]
/-- Slot 0 holds 5 at (0, 0), tile 0 holds 9 at (0, 1), tile 1's watermark is 3. -/
def matrixed : State := padded.modMatrix 0 (fun m => { m with
  slots := m.slots.set (0 : Fin 2) [(0, 5)], tiles := m.tiles.set (0 : Fin 2) [(1, 9)], wm := m.wm.set (1 : Fin 2) 3 })

/-- An element of slot 0. -/
def slotCell (s : State) (k n : Nat) : Int := Tab.get 0 (s.unit 0 0).matrix.slots[(0 : Fin 2)] (256 * k + n)

theorem meets_MatrixInstructionResults :
    good (pushMatrix lab zeroCard) = true ∧ runs (.mxpush zeroCard) lab (fun t => (t.unit 0 0).matrix.queue.length == 1) = true ∧
    runs (.mxq (plain .i64 0 .none (.v 1) .none)) (withV lab 1 zeroCard) (fun t => (t.unit 0 0).matrix.queue.length == 1) = true ∧
    runs (.mxwmWait (plain .i32 1 .none (.tile 1) (.const 3))) matrixed (fun t => !t.me.waiting) = true ∧
    runs (.mxwmWait (plain .i32 1 .none (.tile 1) (.const 4))) matrixed (fun t => t.me.waiting) = true ∧
    runs (.mxwr (plain .i32 0 (.tile 0) (.const 0x7F) (.v 1))) (withV matrixed 1 7)
      (fun t => (t.unit 0 0).matrix.tileAt 0 7 240 == 7) = true ∧
    x3 (.mxwm (plain .i32 0 (.x 3) (.tile 1) .none)) matrixed 3 = true ∧
    v3w (.mxrd (plain .i32 0 (.v 3) (.tile 0) (.const 0))) matrixed 1 9 = true ∧
    runs (.mxcont (plain .i64 0 (.v 3) .none .none)) lab (fun t => t.me.rv 3 == 0xF) = true ∧
    runs (.mxcont (plain .i64 0 (.v 3) .none .none)) (lab.modMatrix 0 (fun m => { m with stop := .stopped, cont := 5 }))
      (fun t => t.me.rv 3 == 5 && (t.unit 0 0).matrix.stop == .held) = true ∧
    runs (.mxstat (plain .i64 0 (.x 3) .none .none)) lab = true ∧
    x3 (.mxstatSticky (plain .i64 1 (.x 3) (.tile 0) .none 1)) (lab.modMatrix 0 (fun m => { m with
      sticky := m.sticky.set (0 : Fin 2) (BitVec.ofNat 128 (2 ^ 64)) })) 1 = true := by
  decide +kernel

theorem meets_MatrixEventsAct :
    lowestReport (cardChecks zeroCard) = none ∧
    runs (.zero 0) (mxRun (matrixed.modMatrix 0 (fun m => { m with tiles := m.tiles.set (1 : Fin 2) [(1, 9)] })) .port zeroCard)
      (fun t => (t.unit 0 0).matrix.tileAt 1 0 1 == 0 && (endedUnit (t.unit 0 0).matrix).isSome) = true ∧
    lowestReport (cardChecks (drainCard 0x5FFF8)) = none ∧
    runs (.drain 0) (mxRun matrixed .port (drainCard 0x5FFF8)) (fun t => spadRead t 0 0 0x5FFFC 1 == [9]) = true ∧
    lowestReport (cardChecks runaCard) = none ∧ runaRefusal runaCard = none ∧
    runs (.runa 0) (mxRun matrixed .array runaCard) (fun t => (t.unit 0 0).matrix.tileAt 0 0 0 == 5) = true ∧
    lowestReport (cardChecks loadCard) = none ∧
    runs (.loadb 0) (rounds 2 (.loadb 0) (mxRun padded .loader loadCard 0 (some (layoutRec 0xFF80000000000000 3 4 4 64 2 2))))
      (fun t => slotCell t 1 1 == 66 && (endedUnit (t.unit 0 0).matrix).isSome) = true ∧
    lowestReport (cardChecks (tourCard 1)) = none ∧ lowestReport (cardChecks (tourCard 4)) = none ∧
    (let s := spadWrite (touring 10) 0 0 0x1000 (leBytes 8 0x0201)
     slotFilled (mxRun s .loader (tourCard 1)) 0 (tourCard 1) 0 = true ∧
     runs (.loadb 0) (mxRun s .loader (tourCard 1)) (fun t => slotCell t 0 1 == 2) = true ∧
     runs (.cont 0) (mxRun s .loader (tourCard 4)) (fun t => slotCell t 0 1 == 2) = true) ∧
    runs (.matrixStop 0) ((mxRun lab .loader loadCard).modMatrix 0 (fun m => { m with xlate := some { code := .xlate } }))
      (fun t => (t.unit 0 0).matrix.stop == .stopped && t.heldPackets.length == 1) = true ∧
    (let s := lab.modMatrix 0 (fun m => { m with stop := .stopped, heldJob := some { c := { job := 0, card := loadCard } } })
     let m (t : State) := (t.unit 0 0).matrix
     runs (.mxcmdResume 0 0) s (fun t => (m t).loader.isSome && (m t).stop == .running && (m t).heldJob.isNone) = true ∧
     runs (.mxcmdKill 0 0) s (fun t => (m t).loader.map (·.ended) == some true && (m t).stop == .running) = true ∧
     runs (.mxcmdKill 0 5) s (fun t => (t.unit 0 5).matrix.cmd == some .kill) = true) ∧
    runs (.matrixJobComplete 0) (lab.modMatrix 0 (fun m =>
      m.setUnitRun .port (some { c := { job := 0, card := zeroCard }, ended := true }))) (fun t => (endedUnit (t.unit 0 0).matrix).isNone) = true := by
  decide +kernel

/-- Channel 0 of core 0 runs a record of this operation over these layout records. -/
def copying (s : State) (op src dst : Nat) (acc : List Nat := []) (stage : CopyStage := .move) (d2 d3 : Nat := 0) : State :=
  let r : CopyRun := { r := { job := 0, words := row [0, 1 + op * 16, d2, d3] }, stage := stage, src := src, dst := dst, acc := acc }
  s.setChan 0 0 { chan s 0 0 with st := .running, run := some r }
/-- The record's next unit has been done. -/
def moved (i : Instr) (s : State) : Bool := runs i s (fun t => ((chan t 0 0).run.map (fun r => decide (0 < r.pos))).getD false)
/-- The start of the own scratchpad. -/
def pad : Nat := 0xFF80000000000000
def bytesRec (base n : Nat) : Nat := layoutRec base 7 n 1 64 n 1
/-- A table at page 2 with two blocks and two pages, no entry valid. -/
def tabled : State := withX (memWrite lab 0 0x30000 (dws [0x24000, 2 + 2 * 2 ^ 32, 0, 0x26000, 0, 0x27000, 4])) 1 0x20000

theorem meets_CopyInstructionResults :
    good (pushCopy lab 0 (row [0, 1])) = true ∧
    runs (.cppush 3 (row [0, 1])) lab (fun t => (chan t 0 3).queue.length == 1) = true ∧
    good (startChain lab 0 0x20000) = true ∧ runs (.cphead 1 0x20000) lab (fun t => (chan t 0 1).head == 0x20000) = true ∧
    runs (.cpq (plain .i64 0 .none (.v 1) .none 3)) (withV lab 1 (row [0, 1])) (fun t => (chan t 0 3).queue.length == 1) = true ∧
    runs (.cpchn (plain .i64 0 .none (.x 1) .none 2)) (xs 0x20000 0) (fun t => (chan t 0 2).st == .running) = true ∧
    x3 (.cpwm (plain .i64 0 (.x 3) .none .none)) (withX lab 3 9) 0 = true ∧
    x3 (.cpwm (plain .i64 0 (.x 3) .none .none)) (lab.setChan 0 0 { chan lab 0 0 with st := .running, wm := 2 ^ 55 })
      0xFF80000000000000 = true ∧
    runs (.cpstat (plain .i64 0 (.x 3) .none .none)) lab = true ∧
    runs (.cpstatLog (plain .i64 1 (.x 3) .none .none)) (lab.modCopy 0 (·.logEntry 2 5 7))
      (fun t => t.me.rx 3 != 0 && (t.unit 0 0).copy.log.isEmpty) = true := by
  decide +kernel

theorem meets_CopyEventsAct :
    (let s := copying paged 0 (bytesRec 0x20000 4) (bytesRec 0x20040 4)
     moved (.copy 0 0) (rounds 2 (.copy 0 0) s) = true) ∧
    (let s := copying padded 0 (bytesRec pad 4) (bytesRec (pad + 64) 4)
     runs (.copy 0 0) s (fun t => spadRead t 0 0 64 4 == [1, 2, 3, 4]) = true) ∧
    moved (.fill 0 0) (copying padded 1 0 (bytesRec pad 4)) = true ∧
    moved (.plane 0 0) (copying padded 2 (bytesRec pad 8) (bytesRec (pad + 0x100) 8 + 2 ^ 84)) = true ∧
    moved (.unplane 0 0) (copying padded 3 (bytesRec pad 8 + 2 ^ 84) (bytesRec (pad + 0x100) 8)) = true ∧
    moved (.fprint 0 0) (copying padded 4 (layoutRec pad 4 512 1 0 512 1 1) (layoutRec (pad + 0x2000) 4 1 1 0 1 1 1)) = true ∧
    moved (.dedup 0 0) (rounds 1 (.dedup 0 0)
      (copying tabled 5 (leNat (Mem.readN tabled.mem 0x30000 128)) 0 [] .move 0x20000 (2 ^ 32))) = true ∧
    moved (.kvpack 0 0) (copying tabled 6 (layoutRec 0x21000 7 256 1 256 256 1) 0 [0] .move 0 0x20000) = true ∧
    moved (.gather 0 0) (copying padded 7 (bytesRec pad 4 + 2 ^ 640 * pad) (bytesRec (pad + 64) 4) [0, 0]) = true := by
  decide +kernel

theorem meets_CopyEventsAct_records :
    (let r : CopyRun := { r := { job := 0, words := row [0, 1, pad, pad + 128] }, stage := .check }
     let s := padded.setChan 0 0 { chan padded 0 0 with st := .running, run := some r }
     jobFree (s.unit 0 0).jobs 0 = true ∧ runs (.copy 0 0) s (fun t => (chan t 0 0).run.map (·.stage) != some .check) = true) ∧
    runs (.copy 0 0) (let s := copying padded 0 (bytesRec pad 4) (bytesRec pad 4)
      s.setRun 0 0 ((chan s 0 0).run.map (fun r => { r with pos := 4 }))) (fun t => (chan t 0 0).run.map (·.stage) == some .complete) = true ∧
    (let s := (memWrite lab 0 0x30000 (dws [0, 1])).setChan 0 0 { chan lab 0 0 with st := .running, head := 0x20000 }
     runs (.chainRecordRead 0 0) (rounds 1 (.chainRecordRead 0 0) s) (fun t => (chan t 0 0).run.isSome) = true) ∧
    (let r : CopyRun := { r := { job := 0, words := row [0, 1], inmem := some 0x20000 }, stage := .back }
     let s := lab.setChan 0 0 { chan lab 0 0 with st := .running, run := some r }
     runs (.copyRecordComplete 0 0) (rounds 1 (.copyRecordComplete 0 0) s)
      (fun t => (chan t 0 0).run.map (·.stage) == some .complete) = true) ∧
    runs (.copyRecordComplete 0 0) (copying lab 0 0 0 [] .complete) (fun t => (chan t 0 0).run.isNone) = true ∧
    runs (.copyChannelStop 0 0) ((copying lab 0 0 0).setChan 0 0
      { chan (copying lab 0 0 0) 0 0 with xlate := some { code := .xlate } })
      (fun t => (chan t 0 0).st == .stopped && t.heldPackets.length == 1) = true := by
  decide +kernel

/-- An exponent card over FP32 (type 8): operation, elements, rows less one, source, destination, scale 1.0. -/
def exCard (op n rows src dst : Nat) (types : Nat := 0x88) : V512 :=
  row [op + types * 16, n + rows * 2 ^ 16 + 0x3F800000 * 2 ^ 32, src + dst * 2 ^ 32, 0x200]
def exRun (s : State) (c : V512) : State := s.modExponent 0 (fun e => { e with run := some { c := { job := 0, card := c } } })
/-- Two floats at the start of the own scratchpad. -/
def floats (a b : Nat) : State := spadWrite lab 0 0 0 (leBytes 4 a ++ leBytes 4 b)
def exGives (i : Instr) (c : V512) (s : State) (v : Nat) : Bool := runs i (exRun s c) (fun t => leNat (spadRead t 0 0 0x100 4) == v)

theorem meets_ExponentResults :
    good (pushExponent lab (exCard 0 1 0 0 0x100)) = true ∧
    runs (.expush (exCard 0 1 0 0 0x100)) lab (fun t => (t.unit 0 0).exponent.queue.length == 1) = true ∧
    runs (.exq (plain .i64 0 .none (.v 1) .none)) (withV lab 1 (exCard 0 1 0 0 0x100))
      (fun t => (t.unit 0 0).exponent.queue.length == 1) = true ∧
    lowestReport (exChecks (exCard 0 1 0 0 0x100)) = none ∧ exRefusal (exCard 0 1 0 0 0x100) = none ∧
    exGives (.exp2 0) (exCard 0 1 0 0 0x100) (floats 0x40400000 0) 0x41000000 = true ∧
    exGives (.exp2 0) (exCard 0 1 1 0 0x100) (floats 0x40400000 0) 0x41000000 = true ∧
    exGives (.expe 0) (exCard 1 1 0 0 0x100) (floats 0xFF800000 0) 0 = true ∧
    exGives (.recip 0) (exCard 2 1 0 0 0x100) (floats 0x40800000 0) 0x3E800000 = true ∧
    exGives (.rsqrt 0) (exCard 3 1 0 0 0x100) (floats 0x40800000 0) 0x3F000000 = true ∧
    lowestReport (exChecks (exCard 4 1 0 0 0x100 0x98)) = none ∧
    runs (.softrow 0) (exRun (floats 0x40800000 0) (exCard 4 1 0 0 0x100 0x98)) (fun t => (t.unit 0 0).exponent.run.isSome) = true ∧
    (let r : Running := { c := { job := 0, card := exCard 0 1 0 0 0x100 }, ended := true }
     runs (.expCardComplete 0) (lab.modExponent 0 (fun e => { e with run := some r })) (fun t => (t.unit 0 0).exponent.run.isNone) = true) := by
  decide +kernel
/-- A microword: operation, HA, HB, X, Y, IMM. -/
def word (op ha hb x y imm : Nat) : W64 :=
  BitVec.ofNat 64 (op * 2 ^ 58 + ha * 2 ^ 55 + hb * 2 ^ 52 + x * 2 ^ 48 + y * 2 ^ 32 + imm)
/-- The Harrow of core 0 runs this microword: h1 = 3, h2 = 3, h3 = 0, and h4 points at the first page. -/
def harrowed (w : W64) (stack : List (Nat × W64) := []) : State :=
  matrixed.modHarrow 0 (fun h =>
    { h with st := .running, code := [(0, w)], stack := stack, starter := 0, tmpl := [(0, zeroCard)],
             h := #v[0, 3, 3, 0, 0x20000, 0, 0, 0] })
def hAfter (i : Instr) (s : State) (k : Harrow → Bool) : Bool := runs i s (fun t => k (t.unit 0 0).harrow)

theorem meets_HarrowInstructionResults :
    (BitVec.ofNat 192 2).toNat / 2 ^ 138 = 0 ∧
    good (startHarrow lab 0 0 0) = true ∧ hAfter (.hstartRegister 5) lab (fun h => h.st == .running) = true ∧
    hAfter (.hstart (plain .i64 0 .none (.x 1) (.x 2))) lab (fun h => h.st == .running) = true ∧
    x3 (.hstat (plain .i64 0 (.x 3) .none .none)) (withX lab 3 9) 0 = true ∧
    x3 (.hstatH (plain .i64 1 (.x 3) .none .none 1)) (harrowed 0) 3 = true ∧
    hAfter (.hloadCode (plain .i64 0 .none (.x 1) (.x 2))) (withX padded 2 (3 + 2 ^ 16))
      (fun h => Tab.get 0 h.code 4 == 0x100F0E0D0C0B0A09) = true ∧
    hAfter (.hloadTmpl (plain .i64 1 .none (.x 1) (.x 2))) (withX padded 2 (15))
      (fun h => (Tab.get 0 h.tmpl 15).extractLsb' 0 8 == 1) = true := by
  decide +kernel

theorem meets_HarrowEventsAct :
    unitsStart (harrowed 0) 0 = true ∧ hwBad (word 0 0 0 0 0 0) = false ∧ hwBad (word 1 0 0 0 0 0) = false ∧
    hAfter (.harrowNop 0) (harrowed (word 0 0 0 0 0 0)) (fun h => h.pc == 1) = true ∧
    hAfter (.harrowSeti 0) (harrowed (word 5 1 0 0 0 0xFFFFFFFF)) (fun h => h.h[1] == 0xFFFFFFFFFFFFFFFF && h.pc == 1) = true ∧
    hAfter (.harrowAddi 0) (harrowed (word 6 5 1 0 0 2)) (fun h => h.h[5] == 5) = true ∧
    hAfter (.harrowCmpb 0) (harrowed (word 7 1 2 0 0 9)) (fun h => h.pc == 9) = true ∧
    hAfter (.harrowCmpb 0) (harrowed (word 7 1 2 1 0 9)) (fun h => h.pc == 1) = true ∧
    hAfter (.harrowLoop 0) (harrowed (word 8 3 0 0 0 9)) (fun h => h.pc == 10) = true ∧
    hAfter (.harrowLoop 0) (harrowed (word 8 1 0 0 0 9)) (fun h => h.stack == [(1, 3)]) = true ∧
    hAfter (.harrowEndl 0) (harrowed (word 9 0 0 0 0 0) [(7, 1)]) (fun h => h.stack == [] && h.pc == 1) = true ∧
    hAfter (.harrowEndl 0) (harrowed (word 9 0 0 0 0 0) [(7, 2)]) (fun h => h.stack == [(7, 1)] && h.pc == 7) = true ∧
    hAfter (.harrowTrap 0) (harrowed (word 11 0 0 0 0 0x7FFF)) (fun h => h.st == .trapped && h.trapCode == 0x7FFF) = true ∧
    hAfter (.harrowEnd 0) (harrowed (word 12 0 0 0 0 0)) (fun h => h.st == .idle) = true ∧
    hAfter (.harrowWaitq 0) (harrowed (word 2 0 0 0 0x8000 0)) (fun h => h.pc == 1) = true ∧
    hAfter (.harrowWaitwm 0) (harrowed (word 3 1 0 1 0 0)) (fun h => h.pc == 1) = true ∧
    hAfter (.harrowWaitwm 0) (harrowed (word 3 1 0 1 0 1)) (fun h => h.pc == 0) = true ∧
    hAfter (.harrowWaitc 0) (rounds 1 (.harrowWaitc 0) (harrowed (word 4 4 3 0 0 0))) (fun h => h.pc == 1) = true ∧
    hAfter (.harrowSignal 0) (rounds 1 (.harrowSignal 0) (harrowed (word 10 4 1 5 0 0))) (fun h => h.pc == 1) = true ∧
    runs (.harrowIssue 0) (harrowed (word 1 0 0 0 0 0)) (fun t => (t.unit 0 0).matrix.queue.length == 1) = true := by
  decide +kernel

/-- A stream record at 0x20400: G 70, PB 3, SEQ 2, LW 1, over the table at page 2. -/
def streamed : State := withX (memWrite tabled 0 0x30400 (dws [70, 3, 2, 1, 0x20000])) 1 0x20400

/-- The instruction has sent its operation, and the table's unit has taken this many turns, each answered, its writes performed. -/
def unitNo (s : State) : Nat := ((s.tableOps.head?).bind (·.unit)).getD 0
def unitTurns (u : Nat) : Nat → State → State
  | 0, s => s
  | n + 1, s => unitTurns u n { allAnswered (execTableOperation 0 u s) s with reqNet := [] }
def decided (i : Instr) (s : State) (n : Nat := 7) : State := unitTurns (unitNo (served i s)) n (served i s)
/-- The value that an operation writes to x3. -/
def tabGives (i : Instr) (s : State) (v : W64) : Bool := x3 i (decided i s) v

theorem meets_TableInstructionResults :
    (let f := f3 .i64
     tabGives (.kvmap f) (withX (withX tabled 3 9) 2 128) 0 = true ∧ tabGives (.kvmapApp f) (withX (withX tabled 3 9) 2 5) 0 = true ∧
     tabGives (.kvmapWr f) (withX (withX tabled 3 9) 2 5) 0 = true ∧ tabGives (.kvswapFork f) (withX tabled 2 0) 1 = true ∧
     tabGives (.kvswapAccept f) (withX tabled 2 0) 1 = true ∧ tabGives (.kvswapReject f) (withX tabled 2 2) 1 = true ∧
     tabGives (.kvtrunc f) (withX (withX tabled 3 9) 2 64) 0 = true ∧ tabGives (.kvwin f) (withX tabled 2 64) 64 = true) := by
  decide +kernel

theorem meets_TableInstructionResults_streams :
    (let f := f3 .i64
     tabGives (.stadvGen f) (withX streamed 2 (2 ^ 32 * 3)) 0xFFFFFFFFFFFFFFFF = true ∧
     tabGives (.stadvGen f) (withX streamed 2 (2 ^ 32 * 2)) 0xFFFFFFFFFFFFFFFE = true ∧
     tabGives (.stadvPlay f) (withX streamed 2 99) 70 = true) ∧
    (let i := Instr.stframe (plain .i64 0 (.x 4) (.x 1) (.x 2))
     runs i (decided i (withX streamed 2 2) 12) (fun t => t.me.rx 4 == 0 && t.me.rx 5 == 3) = true ∧
     runs i (decided i (withX streamed 2 1)) (fun t => t.me.frozen) = true) := by
  decide +kernel

/-- A run of a table operation by hart 0 in a unit. -/
def tabRun (unit : Option Nat) : TableRun :=
  { unit := unit, agent := some (.hart 0), core := 0, ctx := 0, va := 0x20000, op := .map 5 0 }
theorem meets_TableInstructionResults_units :
    (tabled.runsOf (.hart 0) 0).isEmpty = true ∧ good (tableAt tabled tabled.iAm 0x20000) = true ∧ good (release tabled 4) = true ∧
    good (tableAt tabled tabled.iAm 0x20000) (fun p =>
      (tabled.unitRun (unitOfPlace tabled p)).isNone &&
        (({ tabled with tableOps := [{ tabRun (some (unitOfPlace tabled p)) with agent := none }] } : State).unitRun
          (unitOfPlace tabled p)).isSome) = true ∧
    (let s : State := { tabled with tableOps := [tabRun (some 3)] }
     s.unitRun 3 = some (tabRun (some 3)) ∧ s.unitRun 4 = none ∧ (s.runsOf (.hart 0) 0).length = 1 ∧
     (unitTurns 3 5 s).tableOps.map (fun r => (r.unit, r.vals)) = [(none, [0])]) ∧
    (let s : State := { tabled with tableOps := [{ tabRun none with vals := [7] }] }
     x3 (.kvmap (f3 .i64)) s 7 = true) ∧
    (let s : State := { tabled with tableOps := [{ tabRun none with fault := some { code := .integrity } }] }
     runs (.kvmap (f3 .i64)) s (·.me.frozen) = true) ∧
    runs (.kvmap (f3 .i64)) { tabled with tableOps := [tabRun (some 3)] } (·.me.waiting) = true := by
  decide +kernel

/-- Reads of device memory by channel 0 have been answered. -/
def informed (s : State) (ps : List (Nat × Nat)) : State :=
  { s with inbox := ps.map (fun p => reply s { kind := .read, agent := .copy 0 0, ctx := 0, place := .mem p.1, size := p.2 }) }

theorem meets_TableOperationValues :
    (let h : Header := { t := 0x20000, r := leNat (dws [0x24000, 2 + 2 * 2 ^ 32, 1, 0x26000, 0x28000]) }
     let st : TabSt := { s := informed tabled [(0x30080, 32), (0x38000, 32)], run := tabRun (some 0), w := engineWho tabled 0, ag := .copy 0 0 }
     h.nblk * 64 = 128 ∧ h.edge = 1 ∧ (5 : Nat) < h.nblk * 64 ∧ h.edge ≤ 5 ∧ h.dw 4 ≠ 0 ∧ (0 : Nat) < h.nblk ∧
     good (rdEntry (h.entry 0) st) (fun r => !r.1.valid) = true ∧ good (rdTab (h.shadow 0) 32 st) (fun r => !(entryOf r.1).valid) = true ∧
     (let live := { st with s := informed (memWrite tabled 0 0x30080 (dws [2, 0, 0x20, 1])) [(0x30080, 32)] }
      good (rdEntry (h.entry 0) live) (fun r => r.1.valid && bitOf r.1.surv 5 && (r.1.pages[0]?).getD 0 == 2 && decide (2 ≤ h.npage)) = true ∧
      good (kvMap h 5 0 live) (fun r => r.1 == 0x26000) = true)) := by
  decide +kernel

/-- A header: pages from 0x24000, two of them, two blocks, EDGE 1, counts at 0x20800, shadows at 0x20C00, this FPROD over the free
ring at 0x20900, and the return ring at 0x20A00. -/
def valued (fprod : Nat) : Header :=
  { t := 0x20000, r := leNat (dws [0x24000, 2 + 2 * 2 ^ 32, 1, 0x20800, 0x20C00, 0, 4 * 2 ^ 8 + 4 * 2 ^ 16, 0x20900, fprod, 0, 0x20A00]) }
/-- Entry 0 maps position 5 to page 2, whose count is this; page 1 has this count and is next on the free ring; shadow 0. -/
def counted (two one next : Nat) (shadow : List Nat) : TabSt :=
  let s := memWrite (memWrite (memWrite (memWrite lab 0 0x30080 (dws [2, 0, 0x20, 1])) 0 0x30804 (leBytes 4 one ++ leBytes 4 two))
    0 0x30900 (leBytes 4 next)) 0 0x30C00 (dws shadow)
  let once := [(0x30080, 32), (0x300A0, 32), (0x30C00, 32), (0x30C20, 32), (0x30804, 4), (0x30808, 4), (0x30900, 4)]
  { s := informed s (once ++ once ++ (List.range 64).map (fun i => (0x36000 + 64 * i, 64)))
    run := tabRun (some 0), w := engineWho lab 0, ag := .copy 0 0 }

theorem meets_TableOperationValues_writes :
    (let gives (m : TabM W64) (st : TabSt) (v : W64) : Bool := good (m st) (·.1 == v)
     gives (kvMap (valued 1) 5 2) (counted 1 0 1 []) 0x26000 = true ∧ gives (kvMap (valued 0) 5 2) (counted 2 0 1 []) 1 = true ∧
     gives (kvMap (valued 1) 5 2) (counted 2 0 0 []) 2 = true ∧ gives (kvMap (valued 1) 5 2) (counted 2 3 1 []) 2 = true ∧
     gives (kvMap (valued 1) 5 2) (counted 2 0 1 []) 0x25000 = true ∧
     gives (kvWin (valued 1) 64) (counted 1 0 1 []) 64 = true ∧ gives (kvWin (valued 1) 0) (counted 1 0 1 []) 1 = true ∧
     gives (kvSwap (valued 1) 0 0) (counted 1 0 1 []) 0 = true ∧ gives (kvSwap (valued 1) 0 1) (counted 1 0 1 []) 2 = true ∧
     gives (kvSwap (valued 1) 0 1) (counted 1 1 1 [1, 0, 0, 1]) 0 = true ∧
     gives (kvSwap (valued 1) 0 2) (counted 1 1 1 [1, 0, 0, 1]) 0 = true ∧
     gives (kvTrunc (valued 1) 3) (counted 1 0 1 []) 0 = true ∧ gives (kvTrunc (valued 1) 0) (counted 1 0 1 []) 1 = true) := by
  decide +kernel

/-- Graph 9 is active in context 0 on core 0; hart 0 runs a slice of it with a deadline and budget. -/
def theLaunch : Launch :=
  { ctx := 0, mask := [0], text := 0x50000, textSize := 24, entry := 0x50000, patches := [], params := [], budget := 50,
    scope := 4, dword := 0, dvalue := 0, tqres := 2, spill := 0, own := 1 }
def taskRec (graph : Nat) (code : Nat := 0x50000) : V512 := row [code, 11, 0, 0, 0, graph * 2 ^ 8, 22, 33]
def tasked : State :=
  let s : State := { lab with launches := [(9, theLaunch)] }
  (s.modMe (fun h =>
    { h with deadline := 700, slice := some { record := taskRec 9, launch := 9, d0 := 500, counting := true } })).setHead 9 0 { records := 1 }

/-- tlaunch of a packet at x1. -/
def tl : Instr := .tlaunch (plain .i64 0 (.x 3) (.x 1) .none)

theorem meets_TaskInstructionResults :
    checkRecord tasked 0 (taskRec 8) = 3 ∧ x3 (.tspawn (plain .i64 0 (.x 3) (.v 1) .none)) (withV tasked 1 (taskRec 8)) 3 = true ∧
    checkRecord tasked 0 (taskRec 9) = 0 ∧
    runs (.tspawn (plain .i64 0 (.x 3) (.v 1) .none)) (withV (withX tasked 3 9) 1 (taskRec 9))
      (fun t => t.me.rx 3 == 0 && (t.queue (.normal 0)).length == 1) = true ∧
    x3 (.tspawn (plain .i64 0 (.x 3) (.v 1) .none))
      (withV { tasked with normalQ := [(0, [{ record := taskRec 9 }, { record := taskRec 9 }])] } 1 (taskRec 9)) 4 = true ∧
    runs (.tdl (plain .i64 0 (.x 3) (.x 1) .none)) (withX tasked 1 600) (fun t => t.me.rx 3 == 700 && t.me.deadline == 600) = true ∧
    runs (.tend (plain .i64 0 .none .none .none)) tasked (fun t => !t.me.running) = true ∧
    runs (.tyield (plain .i64 0 .none (.x 1) .none)) (withX tasked 1 77)
      (fun t => !t.me.running && (t.queue (.normal 0)).map (fun e => (recCode e.record, recFrame e.record)) == [(0x5000C, 77)]) = true ∧
    (let s := served tl (withX lab 1 0xFF80000000000000)
     good (packetTargets s 0xFF80000000000000 4) = true ∧ x3 tl (rounds 3 tl s) 0x301 = true) ∧
    (let s := served tl (withX lab 1 0x20000)
     let bad : State := { s with inbox := s.inbox.map (fun q => { q with status := .integrity }) }
     good (packetTargets bad 0x20000 4) (fun ts => match launchRead (readPacket bad 0x20000 ts) with
       | .error (.refuse _ _ _) => true
       | _ => false) = true ∧ x3 tl bad 0x3 = true) := by
  decide +kernel

/-- Hart 0 in S mode. -/
def super (s : State) : State := s.modMe (fun h => { h with status := 1 })
theorem meets_SystemInstructionResults :
    runs (.csrr (plain .i64 0 (.x 3) (.csr .cmask) .none)) (lab.modMe (fun h => { h with cmask := 5 })) (fun t => t.me.rx 3 == 5) = true ∧
    x3 (.rdtime (plain .i64 0 (.x 3) .none .none)) { lab with time := 77 } 77 = true ∧
    (CReg.cmask).userWritable = true ∧ (CReg.ivec).userWritable = false ∧
    runs (.csrw (plain .i64 0 (.csr .cmask) (.x 1) .none)) (xs 6 0) (fun t => t.me.cmask == 6) = true ∧
    runs (.csrs (plain .i64 0 (.csr .cmask) (.x 1) .none)) ((xs 0x60 0).modMe (fun h => { h with cmask := 0x30 })) (fun t => t.me.cmask == 0x70) = true ∧
    runs (.csrc (plain .i64 0 (.csr .cmask) (.x 1) .none)) ((xs 0x60 0).modMe (fun h => { h with cmask := 0x30 })) (fun t => t.me.cmask == 0x10) = true ∧
    runs (.ecall (plain .i64 0 .none .none .none)) (lab.modMe (fun h => { h with ivec := 0x90000 }))
      (fun t => t.me.pc == 0x90060 && t.me.modeS && t.me.ipc == 0x5000C) = true ∧
    runs (.eret (plain .i64 0 .none .none .none)) (super (lab.modMe (fun h => { h with ipc := 0x70000 }))) (fun t => t.me.pc == 0x70000) = true ∧
    runs (.wfi (plain .i64 0 .none .none .none)) (lab.modMe (fun h => { h with ipend := 4, ienab := 4 })) (fun t => t.me.pc == 0x5000C) = true ∧
    runs (.wfi (plain .i64 0 .none .none .none)) (lab.modMe (fun h => { h with ipend := 4, ienab := 8 })) (fun t => t.me.waiting) = true ∧
    lab.myCtx ≠ sysCtx ∧
    x3 (.mtrd (plain .i64 0 (.x 3) .none .none 2)) { lab with meters := [(2, 9)] } 9 = true ∧
    x3 (.mtrd (plain .i64 0 (.x 3) .none (.x 2) 2)) { xs 0 0 with meters := [(2, 9)] } 9 = true := by
  decide +kernel

/-- Hart 0 of the supervisor core of cluster 0, in S mode, a key ticket 5 for context 2 imported. -/
def supervisor : State :=
  let s : State := { lab with cur := 4096, tickets := [(5, { ctx := 2, key := 99 })] }
  s.modMe (fun h => { h with running := true, status := 1 })
def sup2 (a b : W64) : State := withX (withX supervisor 1 a) 2 b

theorem meets_SupervisorInstructionResults :
    isSup supervisor.cur = true ∧ supervisor.me.modeS = true ∧
    x3 (.keyld (f3 .i64)) (sup2 (2 ^ 22) 5) 3 = true ∧ x3 (.keyld (f3 .i64)) (sup2 (2 * 2 ^ 16 + 4095) 6) 1 = true ∧
    runs (.keyld (f3 .i64)) (sup2 (2 * 2 ^ 16 + 4095) 5)
      (fun t => t.me.rx 3 == 0 && (t.keySlot 4095).owner == 2 && t.tickets.isEmpty) = true ∧
    x3 (.keyld (f3 .i64)) ((sup2 (2 * 2 ^ 16) 5).setKeySlot 0 { key := 1, owner := 2, st := .loaded }) 2 = true ∧
    x3 (.keyldClear (plain .i64 1 (.x 3) (.x 1) .none)) (sup2 (2 ^ 12) 0) 3 = true ∧
    x3 (.keyldClear (plain .i64 1 (.x 3) (.x 1) .none)) (sup2 0 0) 0 = true ∧
    x3 (.ctxsw (f3 .i64)) (sup2 16 0) 5 = true ∧
    x3 (.ctxsw (f3 .i64)) ({ sup2 1 0 with boot := { supervisor.boot with fusedOff := [1] } }) 2 = true ∧
    x3 (.ctxsw (f3 .i64)) ((sup2 0 1).setCore 0 { lab.core 0 with swapTo := some 3 }) 1 = true ∧
    x3 (.ctxsw (f3 .i64)) (sup2 0 0) 4 = true ∧ x3 (.ctxsw (f3 .i64)) (sup2 0 1) 3 = true ∧
    runs (.ctxsw (f3 .i64)) ((sup2 0 1).setCore 0 { lab.core 0 with shadow := some 1 }) (fun t => (t.core 0).swapTo == some 1) = true ∧
    x3 (.ctxswStat (plain .i64 1 (.x 3) (.x 1) .none)) (sup2 16 0) 0x8000 = true ∧
    x3 (.ctxswStat (plain .i64 1 (.x 3) (.x 1) .none)) ((sup2 0 0).setCore 0 { lab.core 0 with active := some 3 }) 0x303 = true ∧
    x3 (.ctxswStat (plain .i64 1 (.x 3) (.x 1) .none)) ((sup2 0 0).setCore 0 { lab.core 0 with swapTo := some 3 }) 0x340 = true ∧
    good (release (super lab) 4) (fun u => good (fenceAt u 4) fun w => !heldSegment (invalidate w (.page 0x20000 0)) (.page 0x20000 0)) = true ∧
    runs (.tlbinvPage (plain .i64 0 .none (.x 1) (.x 2))) (super (xs 0x20000 0)) (fun t => (t.core 0).tlb.length == 2) = true ∧
    runs (.tlbinvCtx (plain .i64 1 .none .none (.x 2))) (super (xs 0 0)) (fun t => (t.core 0).tlb.isEmpty) = true ∧
    runs (.tlbinvAll (plain .i64 2 .none .none .none)) supervisor (fun t => (t.core 0).tlb.isEmpty) = true := by
  decide +kernel

/-- A check of a slot after an event. -/
def slotIs (i : Instr) (s : State) (k : Nat) (p : CtxSlot → Bool) : Bool := runs i s (fun t => p (t.slot k))
def ready : State := lab.setSlot 3 { busy := false }
def settled : State := lab.setSlot 3 { st := .active, busy := false }

theorem meets_HostRegisterResults :
    slotIs (.doorbell 3) lab 3 (·.overrun) = true ∧
    slotIs (.doorbell 3) ready 3 (fun c => c.busy && c.rung) = true ∧
    slotIs (.doorbell 3) (lab.setSlot 3 { busy := false, tdi := .run }) 3 (·.rung) = true ∧
    slotIs (.doorbell 3) (lab.setSlot 3 { busy := false, tdi := .locked }) 3 (fun c => !c.rung && !c.busy) = true ∧
    slotIs (.doorbell 3) (lab.setSlot 3 { busy := false, tdi := .error }) 3 (fun c => !c.rung) = true ∧
    slotIs (.mstatusClear 3 0x200000000) (lab.setSlot 3 { overrun := true }) 3 (fun c => !c.overrun) = true ∧
    slotIs (.mstatusClear 3 1) (lab.setSlot 3 { overrun := true }) 3 (·.overrun) = true ∧
    slotIs (.tdispRequest 63 .run) lab 63 (fun c => c.tdi == .run && c.ide) = true ∧
    slotIs (.registerWrite (.packet 3 31) 9) ready 3 (fun c => c.packet[31] == 9) = true ∧
    slotIs (.registerWrite (.packet 3 31) 9) lab 3 (fun c => c.packet[31] == 0) = true ∧
    runs (.registerWrite (.root 3) 0x10000) lab (fun t => Tab.get 0 t.roots 3 == 0x10000) = true ∧
    slotIs (.registerWrite (.handler 3) 4) lab 3 (·.handler == 4) = true ∧
    slotIs (.registerWrite (.handler 3) 4) settled 3 (·.handler == 0) = true ∧
    slotIs (.registerWrite (.pool 3) 64) lab 3 (·.pool == 64) = true ∧
    slotIs (.registerWrite (.qbase 3) 64) lab 3 (·.qbase == 64) = true ∧
    slotIs (.registerWrite (.qback 3) 0x1FFFF) lab 3 (·.qback == 0xFFFF) = true ∧
    slotIs (.registerWrite (.migrate 3) 5) settled 3 (·.migrate == 5) = true ∧
    slotIs (.registerWrite (.reldl 3 15) 5) settled 3 (fun c => c.reldl[15] == 5) = true ∧
    runs (.registerWrite .sysroot 8) lab (·.sysroot == 8) = true ∧
    runs (.registerWrite .sysentry 8) { lab with sysgo := true } (·.sysentry == 0) = true ∧
    runs (.registerWrite .sysivec 8) lab (·.sysivec == 8) = true ∧
    runs (.registerWrite .unlisted 8) lab (· == lab) = true ∧
    runs (.mstatusClear 3 0x200000000) (lab.setSlot 3 { overrun := true, result := 5 })
      (fun t => mailboxRead t 3 0x108 == 0x100000005) = true ∧
    runs (.doorbell 3) (lab.setSlot 3 { busy := false, result := 5 }) (fun t => mailboxRead t 3 0x108 == 0x100000005) = true ∧
    runs (.doorbell 3) (lab.setSlot 3 { result := 5 }) (fun t => mailboxRead t 3 0x108 == 0x300000005) = true ∧
    runs (.registerWrite .sysroot 8) lab (fun t => systemRead t 0 == 8) = true ∧
    runs (.registerWrite .sysentry 8) lab (fun t => systemRead t 8 == 8) = true ∧
    runs (.registerWrite .sysivec 8) lab (fun t => systemRead t 0x10 == 8) = true ∧
    runs (.sysgo 1) { lab with bootStep := 7 } (fun t => systemRead t 0x18 == 1) = true ∧
    runs (.sysgo 2) { lab with bootStep := 7 } (fun t => systemRead t 0x18 == 0) = true ∧
    runs (.registerWrite (.packet 3 31) 9) ready (fun t => mailboxRead t 3 248 == 9) = true ∧
    runs (.registerWrite (.reldl 3 15) 5) settled (fun t => slotRead t 3 0xB8 == 5 && slotRead t 3 0xC8 == 0) = true ∧
    runs (.registerWrite (.qback 3) 0x1FFFF) lab (fun t => slotRead t 3 0x28 == 0xFFFF) = true ∧
    runs (.setup 3) lab (fun t => slotRead t 3 0 == 4) = true ∧ runs (.setup 3) settled (fun t => slotRead t 3 0 == 0x304) = true ∧
    runs (.setup 3) (lab.setSlot 3 { handler := 2 }) (fun t => slotRead t 3 0 == 0x100) = true := by
  decide +kernel

/-- A launch of a context that has nothing left to run. -/
def aLaunch (ctx : Nat) : Launch :=
  { ctx := ctx, mask := [0], text := 0, textSize := 0, entry := 0, patches := [], params := [], budget := 500, scope := 0,
    dword := 0, dvalue := 0, tqres := 0, spill := 0, own := 0 }

theorem meets_SlotAndBootResults :
    slotIs (.setup 3) settled 3 (·.err == 3) = true ∧
    slotIs (.setup 3) (lab.setSlot 3 { handler := 2 }) 3 (fun c => c.err == 1 && c.st == .free) = true ∧
    slotGood lab 3 = true ∧
    runs (.setup 3) { lab with meters := [(96, 7)] } (fun t => (t.slot 3).st == .active && t.meter 3 0 == 0) = true ∧
    slotIs (.teardown 3) lab 3 (·.err == 3) = true ∧
    slotIs (.teardown 3) { settled with launches := [(1, aLaunch 3)] } 3
      (fun c => c.err == 2 && c.st == .active) = true ∧
    contextQuiet settled 3 = true ∧
    runs (.teardown 3) { settled with tickets := [(5, { ctx := 3, key := 9 })] }
      (fun t => (t.slot 3).st == .free && t.tickets.isEmpty) = true ∧
    (let s : State := { (settled.setCore 0 { lab.core 0 with shadow := some 3 }).setKeySlot 7 { key := 1, owner := 3, st := .loaded } with
       roots := [(3, 0x10000)], meters := [(96, 7)] }
     runs (.teardown 3) s (fun t => Tab.get 0 t.roots 3 == 0 && (t.core 0).shadow.isNone && (t.keySlot 7).st == .empty &&
       t.snapshots.map (fun e => (e.1, e.2.take 1)) == [(3, [7])]) = true) ∧
    (let r : Request := { kind := .write, agent := .hart 0, ctx := 3, place := .mem 0, size := 8 }
     let s : State := { settled with reqNet := [r] }
     contextQuiet s 3 = false ∧ slotIs (.teardown 3) s 3 (·.st == .tearing) = true) ∧
    runs (.reset { imageOk := false }) lab (fun t => t.bootStep == 1 && t.recovering && (t.slot 3).busy) = true ∧
    runs (.reset {}) lab (fun t => t.bootStep == 7 && !(t.slot 3).busy && !t.recovering) = true ∧
    runs (.recoveryDoorbell {}) lab (· == lab) = true ∧
    runs (.recoveryDoorbell { imageOk := false }) { lab with recovering := true } (·.recovering) = true ∧
    runs (.recoveryDoorbell {}) { lab with recovering := true, recoveryWin := [(8, 5)] }
      (fun t => t.bootStep == 7 && t.firmware == .window [(8, 5)]) = true ∧
    runs (.sysgo 2) { lab with bootStep := 7 } (fun t => !t.sysgo) = true ∧
    runs (.sysgo 1) { lab with sysentry := 0x9000, sysivec := 0xA000, bootStep := 7 } (fun t => t.sysgo &&
      (t.bank 4351 sysCtx).pc == 0x9000 && (t.bank 4351 sysCtx).ivec == 0xA000 && (t.bank 4351 sysCtx).running) = true := by
  decide +kernel

def replied (i : Instr) (s : State) (p : Reply → Bool) : Bool := runs i s (fun t => p t.reply)

theorem meets_ManagementCommandResults :
    replied (.readMeters 64) lab (· == .invalid) = true ∧
    replied (.readMeters 3) { lab with meters := [(96, 7)], time := 5 } (fun r => match r with
      | .meters c ms t => c == 3 && t == 5 && ms.take 11 == 7 :: List.replicate 10 0
      | _ => false) = true ∧
    runs (.readMeters 3) { lab with meters := [(96, 7)], snapshots := [(3, [1])] }
      (fun t => t.reply == .meters 3 [1] 0 && t.meter 3 0 == 0 && t.snapshots.isEmpty) = true ∧
    runs (.readMeters 3) { settled with meters := [(96, 7)], snapshots := [(3, [1])] } (fun t => t.meter 3 0 == 7) = true ∧
    runs (.writeTrkctl 0x20030051) lab (fun t => t.trkctl == { thresh := 0x2003, epoch := 5, en := true }) = true ∧
    replied (.writeTrapbase 64 64) lab (· == .invalid) = true ∧ replied (.writeTrapbase 0 1) lab (· == .invalid) = true ∧
    replied (.writeTrapbase 8 64) lab (· == .invalid) = true ∧
    replied (.writeTrapbase 0 64) (lab.modMe (fun h => { h with frozen := true })) (· == .notReady) = true ∧
    runs (.writeTrapbase 0 64) lab (fun t => Tab.get 0 t.trapBase 0 == 64) = true ∧
    runs (.writeReserve 9 2) lab (fun t => t.hi == 9 && t.lo == 2) = true ∧
    replied (.readEventlog 1) { lab with events := [.retire 5, .retire 6] } (· == .eventLog [.retire 5]) = true ∧
    runs (.raiseMgmt 0) lab (fun t => t.me.ipend == 0x80 && t.reply == .ok) = true ∧
    replied (.raiseMgmt 4352) lab (· == .invalid) = true ∧
    replied (.firmwareUpdate .malformed) lab (· == .invalid) = true ∧ replied (.firmwareUpdate (.typed 1)) lab (· == .invalid) = true ∧
    replied (.firmwareUpdate (.typed 2)) lab (fun r => match r with | .pldm ty _ => ty == 2 | _ => false) = true ∧
    replied (.installSchedule 3 false) lab (· == .invalid) = true ∧ replied (.setDevidx none) lab (· == .devidx 0) = true ∧
    replied (.setDevidx (some 576)) lab (· == .invalid) = true ∧
    replied (.setDevidx (some 575)) settled (· == .notReady) = true ∧
    replied (.setDevidx (some 575)) { lab with domain := [1] } (· == .notReady) = true ∧
    runs (.setDevidx (some 575)) lab (·.devidx == 575) = true ∧
    replied (.keyImport 64 9) settled (· == .noImport) = true ∧ replied (.keyImport 2 9) settled (· == .noImport) = true ∧
    runs (.keyImport 3 9) settled (fun t => t.tickets.length == 1) = true := by
  decide +kernel

theorem meets_DomainAndHealthResults :
    runs (.domainJoin [7, 8] true) lab (·.joined == [7, 8]) = true ∧
    runs (.domainJoin [7, 7] true) lab (·.joined == []) = true ∧ runs (.domainJoin [7] false) lab (·.joined == []) = true ∧
    fabricBusy (endLeaving lab [7]) = false ∧
    runs (.domainBarrier { members := [7], finals := [(896, 3)] } 100) { lab with joined := [7], epoch := 0xFFFFFFFF, time := 200 }
      (fun t => t.domain == [7] && t.epoch == 0 && t.time == 200 && t.events == [.fabric 7] && t.barrier.isNone) = true ∧
    (let r : Request := { kind := .read, agent := .peer 7, ctx := 0, place := .mem 0, size := 8 }
     let s : State := { lab with joined := [7], reqNet := [r] }
     fabricBusy (endLeaving s [7]) = true ∧ runs (.domainBarrier { members := [7] } 100) s (fun t => t.domain == [] && t.barrier == some [7]) = true) ∧
    runs (.healthMeasure 2 40) lab (fun t => Tab.get 0 t.margins 2 == 40) = true ∧
    present lab 1023 = true ∧ 1023 / 128 = 7 := by
  decide +kernel

theorem meets_UnitCommandResults :
    (lab.core 0).active = some 0 ∧ (lab.core 0).active ≠ some 1 ∧
    runs (.hcmdResume 0 0 0) (lab.modMe (fun h => { h with frozen := true })) (fun t => !t.me.frozen) = true ∧
    runs (.hcmdKill 0 0 1) lab (fun t => (t.bank 0 1).cmd == some .kill) = true ∧
    runs (.mxcmdKill 0 1) lab (fun t => (t.unit 0 1).matrix.cmd == some .kill) = true ∧
    runs (.cpcmdResume 0 3 1) lab (fun t => (t.unit 0 1).copy.chans[3].cmd == some .resume) = true ∧
    runs (.hrcmdKill 0 1) lab (fun t => (t.unit 0 1).harrow.cmd == some .kill) = true ∧
    runs (.hrcmdKill 0 0) (lab.setUnit 0 0 { lab.unit 0 0 with harrow := { st := .stopped } })
      (fun t => (t.unit 0 0).harrow.st == .trapped && (t.unit 0 0).harrow.trapCode == 0x8006) = true ∧
    runs (.tourcmdResume 0 5 0) lab (· == lab) = true ∧
    isSup lab.cur = false ∧ runs (.debugWindowWrite 0 0 0) lab (·.me.frozen) = true ∧
    isSup supervisor.cur = true ∧ supervisor.me.modeS = true ∧ present supervisor (memberCore (clusterOf supervisor.myCore) 0) = true ∧
    (let s := supervisor.setBank 0 0 { lab.bank 0 0 with frozen := true }
     let r := s.hartWrite (.debug 0 8) 8 0 7 0xFF80000400000008
     runs (.debugWindowWrite 0 8 7) s (fun t => t.reqNet == [r] && (t.bank 0 0).rx 1 == 0) = true ∧
     leavesNow { s with reqNet := [r] } 0 r = true ∧
     runs (.write 0) { s with reqNet := [r] } (fun t => (t.bank 0 0).rx 1 == 7) = true) ∧
    debugSpot 0x4000 = some (.hcmd 0) ∧ spotWrite supervisor 0 (.hcmd 0) 0xFFFF = none ∧
    runs (.debugWindowWrite 0 0x4000 0xFFFF) supervisor (·.me.frozen) = true ∧
    debugSpot 0x4038 = none := by
  decide +kernel

def hartIs (i : Instr) (s : State) (p : Hart → Bool) : Bool := runs i s (fun t => p t.me)
def mod0 (g : Hart → Hart) : State := lab.modMe g

theorem meets_HartHardwareResults :
    midAccess lab 0 0 = false ∧ lab.me.running = true ∧
    hartIs (.interruptEntry 0) (mod0 (fun h => { h with ipend := 6, ienab := 4, ivec := 0x90000 }))
      (fun h => h.pc == 0x90000 && h.ipc == 0x50000 && h.modeS && h.icause == 2) = true ∧
    runs (.interruptEntry 0) lab (· == lab) = true ∧
    hartIs (.timerMatch 0) { mod0 (fun h => { h with tcmp := 5 }) with time := 5 } (fun h => h.ipend == 2 && h.timerSeen) = true ∧
    hartIs (.timerMatch 0) (mod0 (fun h => { h with timerSeen := true })) (fun h => !h.timerSeen) = true ∧
    hartIs (.timerMatch 0) { mod0 (fun h => { h with tcmp := 5, timerSeen := true }) with time := 9 } (fun h => h.ipend == 0) = true ∧
    runs (.issueQuantumSwitch 0) ((lab.setCore 0 { lab.core 0 with issued := 2048 }).setBank 2 0 { running := true })
      (fun t => (t.core 0).runSlot == 2 && (t.core 0).issued == 0) = true ∧
    runs (.issueQuantumSwitch 0) (lab.setCore 0 { lab.core 0 with issued := 2047 }) (fun t => (t.core 0).issued == 2047) = true ∧
    hartIs (.deadPowerDown 0) (mod0 (fun h => { h with waiting := true, dead := 2, x := h.x.set 1 7 }))
      (fun h => h.poweredDown && h.rx 1 == 0) = true ∧
    lab.me.counting = true ∧ hartIs (.budgetExpiry 0) (mod0 (fun h => { h with budget := 0 })) (·.frozen) = true ∧
    hartIs (.budgetExpiry 0) lab (fun h => !h.frozen) = true ∧
    lab.me.joined = true ∧
    hartIs (.waitwWake 0) (mod0 (fun h => { h with sleep := some (.mem 0, true), waiting := true }))
      (fun h => h.sleep.isNone && !h.waiting) = true ∧
    hartIs (.waitwPoll 0) (mod0 (fun h => { h with sleep := some (.mem 0, false), waiting := true }))
      (fun h => h.sleep.isNone && !h.waiting) = true := by
  decide +kernel

/-- Core 0 holds context 1 in its shadow bank, and a swap to it is asked for. -/
def swapping : State := lab.setCore 0 { lab.core 0 with shadow := some 1, swapTo := some 1 }
theorem meets_SwapEventResults :
    (lab.core 0).swapTo = none ∧ swapReady swapping 0 = true ∧ swapReady lab 0 = false ∧
    runs (.swapExchange 0) swapping (fun t => (t.core 0).active == some 1 && (t.core 0).shadow == some 0) = true ∧
    runs (.swapExchange 0) (swapping.modMe (fun h => { h with inRel := true })) (fun t => (t.core 0).active == some 0) = true ∧
    runs (.thresherTransfer 0) lab (· == lab) = true ∧
    (let s : State := { lab.setCore 0 { lab.core 0 with todo := [0, 1], active := some 1, shadow := some 0 } with
       reqNet := [{ kind := .read, agent := .hart 0, ctx := 0, place := .mem 0, size := 8 }] }
     bankBusy s 0 0 = true ∧ runs (.thresherTransfer 0) s (· == s) = true) ∧
    runs (.thresherTransfer 0) (lab.setCore 0 { lab.core 0 with todo := [0, 1] }) (fun t => (t.core 0).todo == [1]) = true ∧
    runs (.thresherTransfer 0) (lab.setCore 0 { lab.core 0 with todo := [1, 2], shadow := some 1 })
      (fun t => (t.core 0).todo == [2]) = true ∧
    (let s : State := { (lab.setCore 0 { lab.core 0 with todo := [3] }) with spad := [(spadKey 0 0 4096, 5)] }
     runs (.thresherTransfer 0) s (fun t => t.spad.isEmpty) = true ∧
     runs (.thresherTransfer 0) (s.setUnit 0 0 { s.unit 0 0 with dirty := [1] }) (fun t => t.spad == s.spad) = true) := by
  decide +kernel

/-- FIPS 197's example of AES-256 (appendix C.3). -/
theorem test_aes256 :
    Aes.encrypt 0x000102030405060708090a0b0c0d0e0f101112131415161718191a1b1c1d1e1f 0x00112233445566778899aabbccddeeff =
      0x8ea2b7ca516745bfeafc49904b496089 := by
  decide +kernel

/-- R476's region: its code as the rule writes it out. -/
theorem test_region_code :
    (let w : List Byte := [0x80, 0x3F, 0x80, 0x3F]
     let g4 : List Byte := (List.range 64).map (BitVec.ofNat 8)
     let z : List Byte := List.replicate 64 0
     let gs := [z, z, (List.replicate 16 w).flatten, (List.replicate 16 w).flatten, g4] ++ List.replicate 59 z
     codeRegion none gs = [0, 0, 2, 0x80, 0x3F, 0x80, 0x3F, 1, 3] ++ g4 ++ List.replicate 59 0) := by
  decide +kernel

/-- Context 0 has three levels of tables at 0x10000, 0x20000 and 0x30000, and an eager leaf for a page below 8,192. -/
def mapped (s : State) (vpn : Nat) : State :=
  let s1 := memWrite { s with roots := [(0, 0x10000)] } 0 0x10000 (leBytes 8 (2 * 2 ^ 24 + 1))
  memWrite (memWrite s1 0 0x20000 (leBytes 8 (3 * 2 ^ 24 + 1))) 0 (0x30000 + 8 * vpn) (leBytes 8 (7 * 2 ^ 24 + 0x17))
def walkers : State := { lab with walkQ := [{ cluster := 0, ctx := 0, vpn := 9, cores := [0] }] }

/-- Hart 1 of core 0 is idle, and a record of graph 9 waits for it. -/
def asking : State := { tasked with normalQ := [(0, [{ record := taskRec 9 }])] }
def noticed (acked : Bool) (origin : Nat) : State :=
  let s : State := { tasked with notices := [{ graph := 9, origin := origin, ender := 1, acked := acked }] }
  s.setHead 9 1 { notices := 1 }

theorem meets_SchedulingEventResults :
    runs (.launchUnitProcess 3) lab (· == lab) = true ∧
    good (runLaunch lab (.launcher 3) 3 false ((lab.slot 3).packet.set 0 1).toList) = true ∧
    runs (.launchUnitProcess 3) (lab.setSlot 3 { rung := true }) (fun t => !(t.slot 3).busy && (t.slot 3).msix == 1) = true ∧
    mayAsk lab 0 = false ∧ mayAsk asking 1 = true ∧
    (match ask asking 0 0 with
      | (u, some e) => (u.launchFor (recGraph e.record) 0).isSome
      | _ => false) = true ∧
    runs (.taskDispatch 1) asking (fun t =>
      let h := t.bank 1 0
      h.running && h.pc == 0x50000 && h.rx 1 == 11 && h.rx 2 == 22 && h.rx 3 == 33 && h.rx 4 == 0 && h.budget == 50) = true ∧
    abandoned tasked 0 0 = false ∧
    (let s : State := { (tasked.setCore 0 { lab.core 0 with shadow := some 0, active := none }).setSlot 0 { migrate := 5 } with time := 5 }
     abandoned s 0 0 = true ∧ runs (.migrateAbandon 0 0) s (fun t => (t.bank 0 0).slice.isNone) = true) ∧
    runs (.endNotice 0) (noticed false 0) (fun t => (t.head 9 0).records == 0) = true ∧
    runs (.endNotice 0) (noticed false originLaunch) (fun t => (t.launch 9).map (·.own) == some 0) = true ∧
    runs (.endNotice 0) (noticed true 0) (fun t => (t.head 9 0).records == 1) = true ∧
    runs (.endNoticeAck 0) (noticed false 0) (fun t => t.notices.length == 1) = true ∧
    runs (.endNoticeAck 0) (noticed true 0) (fun t => t.notices.isEmpty && (t.head 9 1).notices == 0) = true ∧
    graphDone tasked 9 theLaunch = false ∧
    (let l := aLaunch 0
     let s : State := { lab.modMe (fun h => { h with running := false, slice := none }) with launches := [(9, l)] }
     graphDone s 9 l = true ∧ runs (.graphEnd 9) s (fun t => (t.launch 9).isNone) = true ∧
     (let u := rounds 4 (.graphEnd 9) { mapped s 2 with launches := [(9, { l with dword := 0x20000, dvalue := 7 })] }
      graphDone u 9 { l with dword := 0x20000, dvalue := 7 } = true ∧ good (devWrite1 u (.launcher 0) 0 0x20000 (leBytes 8 7)) = true ∧
      runs (.graphEnd 9) u (fun t => (t.launch 9).isNone) = true)) ∧
    runs (.reserveAdjust 0 0) { lab with time := 65536 } (fun t => Tab.get 0 t.reserve 0 == 1 && Tab.get 0 t.reserveAt 0 == 1) = true ∧
    runs (.reserveAdjust 0 0) { lab with time := 65535 } (fun t => t.reserve.isEmpty) = true := by
  decide +kernel

def req (k : ReqKind) (p : Place) (agent : Agent := .hart 0) : Request :=
  { kind := k, agent := agent, ctx := 0, place := p, size := 8, data := 0x55 }
def meshed (r : Request) : State := { lab with reqNet := [r] }
def banked (rs : List Request) : State := { lab with bankQ := [(bankOf lab 0, rs)] }
def answered_ (k : ReqKind) : State :=
  { lab with respNet := [{ kind := k, agent := .hart 0, ctx := 0, place := .mem 0, size := 8, data := 0, status := .ok }] }
def asked (k : ReqKind) : State := { lab with outbox := [req k (.peer 7 0)] }

theorem meets_MeshEventResults :
    leavesNow (meshed (req .read (.mem 0))) 0 (req .read (.mem 0)) = true ∧
    runs (.read 0) (meshed (req .read (.mem 0))) (fun t => t.reqNet.isEmpty) = true ∧
    runs (.write 0) (meshed (req .write (.mem 0))) (fun t => t.reqNet.isEmpty) = true ∧
    runs (.atomic 0) (meshed (req .atomic (.mem 0))) (fun t => t.reqNet.isEmpty) = true ∧
    leavesNow (meshed (req .flush (.port 0))) 0 (req .flush (.port 0)) = true ∧
    runs (.flush 0) (meshed (req .flush (.port 0))) (fun t => t.respNet.length == 1) = true ∧
    runs (.flush 0) { meshed (req .flush (.port 0) (.peer 7)) with
        gathers := [{ src := 7, ctx := 0, hart := 0, rel := 1, arrived := 1, ports := some [0, 5] }] }
      (fun t => t.gathers.map (·.ports) == [some [5]] && t.respNet.isEmpty) = true ∧
    (let s : State := { meshed (req .read (.mem 0)) with bankQ := [(bankOf lab 0, List.replicate 16 (req .read (.mem 0)))] }
     portOf s (channelOf s 0) = 0 ∧ runs (.read 0) s (fun t => t.reqNet.length == 1) = true) ∧
    runs (.read 0) (meshed (req .read (.mem 0) (.hart 4))) (fun t => (Tab.get [] t.bankQ (bankOf lab 0)).length == 1) = true ∧
    regionReady lab 1 8 = true ∧
    runs (.scratch 0) (meshed (req .scratch (.spad 1 8))) (fun t => Mem.read t.spad (spadKey 1 (t.ctxOf 1) 8) == 0x55) = true ∧
    mayPerform (banked [req .write (.mem 0)]) [req .write (.mem 0)] 0 = true ∧
    runs (.columnCommand (bankOf lab 0) 0) (banked [req .write (.mem 0)]) (fun t => Mem.read t.mem 0 == 0x55) = true ∧
    (let r : Request := { req .write (.mem 0) with mask := 2, data := 0x1234 }
     let s : State := { banked [r] with mem := [(0, 7)] }
     mayPerform s [r] 0 = true ∧ badAt s 0 64 = false ∧
     runs (.columnCommand (bankOf lab 0) 0) s (fun t => Mem.read t.mem 0 == 7 && Mem.read t.mem 1 == 0x12) = true) ∧
    mayPerform lab [req .write (.mem 0), req .read (.mem 4) (.hart 4)] 1 = false ∧
    runs (.columnCommand (bankOf lab 0) 1) (banked [req .write (.mem 0), req .read (.mem 4) (.hart 4)])
      (fun t => t.respNet.isEmpty) = true ∧
    (let s : State := { lab with rowBufs := [(0, { row := some 5, timer := 8 })], time := 1 }
     runs (.refresh 0) s (fun t => (Tab.get {} t.rowBufs 0).row.isNone) = true ∧
     runs (.tidleExpiry 0) s (fun t => (Tab.get {} t.rowBufs 0).row.isNone) = true ∧
     runs (.tidleExpiry 0) { s with time := 0 } (fun t => (Tab.get {} t.rowBufs 0).row == some 5) = true) ∧
    runs (.tidleExpiry 0) lab (· == lab) = true ∧
    runs (.readData 0) (answered_ .read) (fun t => t.respNet.isEmpty) = true ∧
    runs (.atomicData 0) (answered_ .atomic) (fun t => t.respNet.isEmpty) = true ∧
    runs (.writeAck 0) (answered_ .write) (fun t => t.respNet.isEmpty) = true ∧
    runs (.writeAck 0) (answered_ .scratch) (fun t => t.respNet.isEmpty) = true ∧
    (asked .read).respNet[0]? = none ∧ (asked .read).outbox[0]? = some (req .read (.peer 7 0)) ∧
    (asked .atomic).outbox[0]? = some (req .atomic (.peer 7 0)) ∧ (asked .write).outbox[0]? = some (req .write (.peer 7 0)) ∧
    walkerFor walkers 0 { cluster := 0, ctx := 0, vpn := 9, cores := [0] } = some 0 ∧
    (rootStop walkers (rootOf walkers 0)).isSome = true ∧
    runs (.pageWalk 0) walkers (fun t => t.walkQ.isEmpty && t.walkMisses.length == 1) = true := by
  decide +kernel

/-- The third level's entry of page 9 has been read by walker 0, or a table entry above it. -/
def walked (level table : Nat) : State :=
  let r : WalkReq := { cluster := 0, ctx := 0, vpn := 9, cores := [0], walker := some 0, table := table, level := level }
  let s : State := { mapped walkers 9 with walkQ := [r] }
  let q : Request := { kind := .read, agent := r.agent, ctx := 0, place := .mem (table + 8 * levelIndex 9 level), size := 8 }
  { s with inbox := [reply s q] }
theorem meets_MeshEventResults_walks :
    runs (.pageWalk 0) (walked 1 0x10000) (fun t => t.walkQ.map (fun r => (r.level, r.table)) == [(2, 0x20000)]) = true ∧
    runs (.pageWalk 0) (walked 3 0x30000)
      (fun t => t.walkQ.isEmpty && (t.core 0).tlb.any (fun e => e.vpn == 9 && e.entry == 0x30048)) = true ∧
    runs (.pageWalk 0) { walked 3 0x30000 with inbox := [] } (fun t => t.walkQ.length == 1 && !t.inFlight.isEmpty) = true ∧
    (let bad (s : State) : State := { s with inbox := s.inbox.map (fun q => { q with status := .integrity }) }
     runs (.pageWalk 0) (bad (walked 3 0x30000)) (fun t => t.walkQ.isEmpty && (t.core 0).tlb.length == 3) = true) ∧
    runs (.pageWalk 0) (walked 3 0x40000) (fun t => t.walkQ.isEmpty && (t.core 0).tlb.length == 3) = true := by
  decide +kernel

def joined : State := { lab with domain := [7], devidx := 0 }
def pkt (k : ReqKind) (seq : Nat := 0) : FabricPacket :=
  { src := 7, ctx := 0, epoch := 0, seq := seq, tagOk := true, kind := k, dpa := 56, size := 16, data := 2 ^ 64 * 9 + 5 }

def flushed : State :=
  let q : Response := { kind := .flush, agent := .hart 0, ctx := 0, place := .port 0, size := 0, data := 0, status := .ok }
  { lab with respNet := [q] }
def flushReq : Request := { kind := .flush, agent := .hart 0, ctx := 0, place := .peer 7 0, size := 0 }

theorem meets_FabricEventResults :
    runs (.fabricPacketReceive (pkt .read)) lab (· == lab) = true ∧
    runs (.fabricPacketReceive { pkt .read with tagOk := false }) joined (fun t => t.refused == [7 * 128]) = true ∧
    runs (.fabricPacketReceive (pkt .read 4096)) joined (fun t => t.refused == [7 * 128]) = true ∧
    runs (.fabricPacketReceive (pkt .read 4095)) joined (fun t => t.refused == []) = true ∧
    runs (.fabricPacketReceive (pkt .write)) joined (fun t => t.reqNet.map (fun r => (r.size, r.data.toNat)) == [(8, 5), (8, 9)]) = true ∧
    runs (.fabricPacketReceive (pkt .atomic)) joined (fun t => t.reqNet.length == 1) = true ∧
    runs (.fabricPacketReceive (pkt .flush)) joined (fun t => (Tab.get {} t.streams (7 * 128)).low == 1) = true ∧
    runs (.marker 7 0 0 1 2 0) lab (· == lab) = true ∧
    runs (.marker 7 0 0 1 2 0) joined (fun t => t.gathers.length == 1) = true ∧
    runs (.marker 7 0 0 1 1 1) joined (fun t => t.refused == [7 * 128]) = true ∧
    runs (.marker 7 0 0 1 1 0) { joined with bankQ := [(bankOf lab 0, [req .write (.mem 0) (.peer 7)])] }
      (fun t => t.gathers.map (·.ports) == [some [0]] && t.reqNet.map (·.place) == [.port 0]) = true ∧
    runs (.flushAck 0 0) flushed (fun t => t.respNet.isEmpty && t.inbox.length == 1) = true ∧
    runs (.flushAck 7 0) { joined with gathers := [{ src := 7, ctx := 0, hart := 0, rel := 1, arrived := 1, ports := some [] }] }
      (fun t => t.gathers.isEmpty) = true ∧
    ({ lab with outbox := [flushReq] } : State).outbox.find? (fun r => r.kind == .flush && r.agent.flushId == 0 && r.ctx == 0 &&
      r.place == .peer 7 0) = some flushReq ∧ flushReq.posted = false := by
  decide +kernel

def hot : HotPage := { ctx := 0, vpn := 9, entry := 0x30048, pte := leafOf 0x1000000 0x2F, count := 5000 }
/-- Context 0 has a pool at 0x10000: a free ring at 0x20000 that holds one frame of PLACE 0, and a return ring at 0x24000. -/
def pooled : State :=
  let s : State := { lab with promoQ := [hot], trkctl := { en := true } }
  memWrite (memWrite (s.setSlot 0 { pool := 0x10000 }) 0 0x10000 (dws [0x20000, 0, 1, 0, 0x24000, 0, 0, 0])) 0 0x20000 (dws [0x50000])
def emptied : State := memWrite pooled 0 0x10010 (dws [0])
/-- The page's promotion to frame 0x50000 has come to this stage, and its leaf is as it was. -/
def promoting1 (g : PromoStage) : State :=
  memWrite { pooled with promoQ := [], promos := [{ page := hot, frame := 0x50000, place := 0, stage := g }] } 0 0x30048 (dws [hot.pte.toNat])
def stages (t : State) : List PromoStage := t.promos.map (·.stage)

/-- Entry 0 of the tracker of I/O die 0 counts the page. -/
def tracked (g : HotPage → HotPage := id) : State := { pooled with promoQ := [], trackers := [(0, g hot)] }

theorem meets_PromotionEventResults :
    runs (.trackerEpochEnd 0) tracked (fun t => t.trackers == tracked.trackers) = true ∧
    runs (.trackerEpochEnd 0) { tracked with clock := 2 ^ 20 } (fun t => t.trackers.map (·.2.count) == [2500]) = true ∧
    runs (.trackerEpochEnd 0) { tracked (fun p => { p with due := true }) with clock := 2 ^ 20 }
      (fun t => t.trackers.map (·.2.count) == [5000]) = true ∧
    runs (.hotPageSelect 0 1) tracked (fun t => t.promoQ.isEmpty) = true ∧
    runs (.hotPageSelect 0 0) tracked (fun t => t.promoQ == [hot] && t.trackers.isEmpty) = true ∧
    runs (.hotPageSelect 0 0) (tracked (fun p => { p with count := 5 })) (fun t => t.promoQ.isEmpty) = true ∧
    runs (.hotPageSelect 0 0) { tracked with promoQ := (List.range 32).map (fun i => { hot with vpn := 100 + i }) }
      (fun t => t.promoQ.length == 32 && t.events.length == 1) = true ∧
    runs .promotionStart { pooled with promoQ := [] } (fun t => t.promos.isEmpty) = true ∧
    runs .promotionStart pooled (fun t => stages t == [.pop] && t.promoQ.isEmpty) = true ∧
    (let begun (s : State) : State := rounds 3 .promotionStart (went .promotionStart s)
     (promoting1 .pop).promos.find? (fun p => p.stage == .pop) = some { page := hot, frame := 0x50000, place := 0 } ∧
     good (poolOf (begun pooled) 0 (some 9)) (fun r => match r.2 with
       | some d => !d.freeEmpty && !d.retFull && good (promoRead r.1 0 (some 9) 0x20000 8) (fun q => match q.2 with
           | some e => e == 0x50000 && !entryBad r.1 e && good (promoWrite q.1 0 (some 9) (d.field 3) (d.next 3))
           | none => false)
       | none => false) = true ∧
     runs .promotionStart (begun pooled) (fun t => t.promos.map (·.frame) == [0x50000] && stages t == [.copy 0]) = true ∧
     runs .promotionStart (begun (memWrite pooled 0 0x20000 (dws [0x50003])))
       (fun t => t.returnsDue.map (·.kind) == [2] && stages t == [.pop]) = true ∧
     runs .promotionStart { begun pooled with returnsDue := [{ ctx := 0, frame := 0, kind := 2 }] } (fun t => stages t == [.pop]) = true ∧
     runs .promotionStart (begun emptied) (fun t => t.promos.isEmpty && t.promoQ.isEmpty && t.events.length == 1) = true ∧
     runs .promotionStart (went .promotionStart (pooled.setSlot 0 {})) (fun t => t.promos.isEmpty && t.events.length == 1) = true) := by
  decide +kernel

theorem meets_PromotionEventResults_moves :
    (let goes (s : State) : State := served (.promotionComplete 0) s
     let next (g : PromoStage) (k : State → Bool) : Bool := runs (.promotionComplete 0) (goes (promoting1 g)) k
     next (.copy 0) (fun t => stages t == [.put 0 0]) = true ∧
     next (.put 0 7) (fun t => stages t == [.copy 1]) = true ∧ next (.put 1023 7) (fun t => stages t == [.swap]) = true ∧
     next .swap (fun t => t.promos.isEmpty && t.returnsDue.map (·.kind) == [0]) = true ∧
     runs (.promotionComplete 0) (goes (memWrite (promoting1 .swap) 0 0x30048 (dws [1]))) (fun t => stages t == [.failed]) = true ∧
     (let bad (s : State) : State := { s with inbox := s.inbox.map (fun q => { q with status := .integrity }) }
      runs (.promotionComplete 0) (bad (goes (promoting1 (.copy 5)))) (fun t => stages t == [.failed]) = true) ∧
     runs (.promotionAbandon 0) (promoting1 .swap) (· == promoting1 .swap) = true ∧
     runs (.promotionAbandon 0) (promoting1 .failed) (fun t => t.promos.isEmpty && t.returnsDue.map (·.frame) == [0x50000]) = true ∧
     (let s : State := { pooled with returnsDue := [{ ctx := 0, frame := 0x50000, kind := 1 }] }
      runs (.promotionComplete 0) (rounds 3 (.promotionComplete 0) s) (fun t => t.returnsDue.isEmpty) = true ∧
      runs (.promotionComplete 0) (rounds 3 (.promotionComplete 0) (memWrite s 0 0x10030 (dws [16])))
        (fun t => t.returnsDue.length == 1) = true)) := by
  decide +kernel

/-- A parameter block of this operation over two ranks, rank 0 here: N32, one element, SEND and RECV in page 2. -/
def block (op : Nat) (count : Nat := 1) (dtype : Nat := 5) : List W64 :=
  ([dtype * 2 ^ 8 + op, 2 ^ 16, 0x20080, if count = 0 then 0 else 0x20100, if count = 0 then 0 else 0x20200, count, 4096, 0, 0, 0,
    0, 0, 0, 0, 0, 0] : List Nat).map (BitVec.ofNat 64)
def coll (op : Nat) (own : Option (List Nat)) (work : List (Nat × CollWork) := []) : Coll :=
  { ctx := 0, core := 0, hart := 0, block := block op (if op = 6 then 0 else 1), group := [0, 7], ordinal := 0, seg := 0, own := own
    work := work }
/-- What rank 1 sent for a unit, in a buffer. -/
def inBuf (unit stage : Nat) (data : List Nat) : CollBuf :=
  { port := 0, key := 0, ordinal := 0, out := false, peer := 7, unit := unit, stage := stage, data := data }
def grouped (c : Coll) (bufs : List CollBuf := []) : State := { joined with colls := [c], comms := [(0, { vc := some 0 })], collBufs := bufs }
def stepMsg (failed : Nat := 0) (ordinal : Nat := 0) : CollMsg :=
  { peer := 7, epoch := 0, seq := 0, ordinal := ordinal, op := 0, dtype := 5, mode := 0, count := 1, data := [4], failed := failed }
def collIs (i : Instr) (s : State) (p : Coll → Bool) : Bool := runs i s (fun t => (t.colls.map p) == [true])

/-- Beside the communicator of a broadcast, communicator 1 at priority 3. -/
def rivals : State :=
  let d := coll 3 (some [5])
  { grouped d with
    colls := [d, { d with block := (d.block.set 1 0x10001).set 0 (d.block.getD 0 0 ||| 0x30000) }]
    comms := [(0, { vc := some 0 }), (1, { vc := some 1 })] }

def collAfter (n : Nat) (i : Instr) (c : Coll) (p : Coll → Bool) : Bool := collIs i (rounds n i (grouped c)) p

theorem meets_CollectiveResults :
    (let s := memWrite { joined with badLines := [] } 0 0x30000 (((block 0).flatMap (fun w => leBytes 8 w.toNat)) ++ dws [0, 7])
     let i := Instr.coll (plain .i64 0 (.x 3) (.x 1) .none)
     runs i (rounds 4 i (withX (withX s 1 0x20000) 3 9)) (fun t => t.me.rx 3 == 0 && t.colls.map (·.group) == [[0, 7]]) = true ∧
     x3 i (rounds 4 i (withX { s with domain := [] } 1 0x20000)) 0x202 = true ∧
     good (release s 5) = true) ∧
    x3 (.cstat (plain .i64 0 (.x 3) (.x 1) .none)) { xs 2 0 with comms := [(2, { lstatus := 8, sat := true })] } 0x100000008 = true ∧
    runs (.cstatClr (plain .i64 1 (.x 3) (.x 1) .none)) { xs 2 0 with comms := [(2, { lstatus := 8, sat := true })] }
      (fun t => t.me.rx 3 == 0x100000008 && !(t.comm 2).sat) = true := by
  decide +kernel

theorem meets_CollectiveResults_work :
    (let c5 := coll 0 (some [5])
     let ended : Coll := { c5 with work := [(0, { stage := 2, acc := [9] })] }
     let b5 := { coll 0 none with block := (coll 0 none).block.set 9 5 }
     ([0, 1, 2, 3, 4, 5, 6].map (fun k => (collRuns (grouped (coll k none)) 0).map (fun c => cbOp c.block))) =
       [some 0, some 1, some 2, some 3, some 4, some 5, some 6] ∧
     (coll 0 none).cut (grouped (coll 0 none)) = false ∧ keyOk (grouped (coll 0 none)) 0 0 = true ∧ keyOk (grouped b5) 0 5 = false ∧
     collIs (.allreduce 0) (grouped b5) (fun c => c.status == 4) = true ∧
     c5.cut { grouped c5 with refused := [7 * 128] } = true ∧
     collIs (.allreduce 0) { grouped c5 with refused := [7 * 128] } (fun c => c.status == 8) = true ∧
     good (collRead (rounds 1 (.allreduce 0) (grouped (coll 0 none))) 0 (coll 0 none)) = true ∧
     collAfter 2 (.allreduce 0) (coll 0 none) (fun c => c.own == some [0]) = true ∧
     collAfter 2 (.reducescatter 0) (coll 1 none) (fun c => c.own == some [0, 0]) = true ∧
     runs (.allreduce 0) (grouped c5 [inBuf 0 0 [4]])
       (fun t => t.collBufs.isEmpty && t.colls.map (·.work) == [[(0, { stage := 1, acc := [9] })]]) = true ∧
     runs (.reduce 0) (grouped (coll 4 (some [5])) [inBuf 0 0 [4]]) (fun t => t.colls.map (·.work) == [[(0, { stage := 1, acc := [9] })]]) = true ∧
     runs (.allgather 0) (grouped (coll 2 (some [5])) [inBuf 1 0 [4]]) (fun t => t.colls.map (·.work) == [[(1, { stage := 1, acc := [4] })]]) = true ∧
     c5.total = 1 ∧ c5.unitOver [5] 0 = false ∧ runs (.allreduce 0) (grouped c5) (fun t => t.colls == [c5]) = true ∧
     ended.unitOver [5] 0 = true ∧ good (collWrite (rounds 1 (.allreduce 0) (grouped ended)) 0 ended [5]) = true ∧
     runs (.allreduce 0) (grouped ended) (fun t => t.inFlight.map (fun r => (r.place, r.data.toNat)) == [(.mem 0x30200, 9)]) = true ∧
     collAfter 1 (.allreduce 0) ended (fun c => c.sent == 4) = true ∧
     collIs (.allreduce 0) (grouped { ended with sent := 4 }) (fun c => c.unit == 1) = true ∧
     collIs (.allreduce 0) (grouped { c5 with unit := 1 }) (·.done) = true ∧
     collIs (.allreduce 0) (grouped { c5 with unit := 1 } [{ inBuf 0 0 [] with out := true }]) (fun c => !c.done) = true ∧
     collIs (.barrier 0) (grouped { coll 6 (some []) with unit := 1 }) (·.done) = true ∧
     (coll 5 (some [5, 6])).unitOver [5, 6] 0 = true ∧
     collIs (.alltoall 0) (grouped { coll 5 (some [5, 6]) with unit := 3 }) (fun c => c.unit == 4) = true) := by
  decide +kernel

theorem meets_CollectiveResults_packets :
    (let c5 := coll 0 (some [5])
     let takes (m : CollMsg) (s : State) (k : State → Bool) : Bool := runs (.collStep 0 (.takes m)) s k
     inDomain joined 7 = true ∧ c5.mismatch (grouped c5) stepMsg = false ∧ c5.mismatch (grouped c5) { stepMsg with op := 4 } = true ∧
     takes { stepMsg with tagOk := false } (grouped c5) (fun t => t.refused == [7 * 128]) = true ∧
     (let s : State := { grouped c5 with streams := [(7 * 128, { low := 0, got := [5], paths := [(2, 6)] })] }
      (FabricStream.passedOn { low := 0, got := [5], paths := [(2, 6)] } 2 0) = true ∧
      takes { stepMsg with path := 2 } s (· == s) = true) ∧
     takes (stepMsg 12) (grouped c5) (fun t => t.colls.map (·.status) == [12]) = true ∧
     takes (stepMsg 1) (grouped c5) (fun t => t.colls.map (·.status) == [11]) = true ∧
     takes (stepMsg 0 1) (grouped c5) (· == grouped c5) = true ∧
     takes { stepMsg with op := 4 } (grouped c5) (fun t => t.colls.map (·.status) == [12] && t.collBufs.map (·.note) == [12]) = true ∧
     (let late := { c5 with ordinal := 1 }
      let s : State := { grouped late with comms := [(0, { vc := some 0, lstatus := 8 })] }
      late.mismatch s stepMsg = false ∧ takes stepMsg s (fun t => t.colls == [late] && t.collBufs.isEmpty) = true) ∧
     takes stepMsg (grouped c5) (fun t => t.collBufs == [inBuf 0 0 [4]]) = true ∧
     c5.awaits [5] 0 1 ≠ some 1 ∧ takes { stepMsg with stage := 1 } (grouped c5) (· == grouped c5) = true ∧
     (let s := grouped c5 [{ inBuf 0 0 [] with out := true }]
      runs (.collStep 0 (.answered 0 true)) s (fun t => t.collBufs.isEmpty && t.refused.isEmpty) = true ∧
      runs (.collStep 0 (.answered 0 false)) s (fun t => t.collBufs.isEmpty && t.refused == [7 * 128]) = true)) := by
  decide +kernel

theorem meets_CollectiveResults_ports :
    (let d := coll 3 (some [5])
     let s := grouped d
     lanesOfPort s 35 = 8 ∧ chunkGoesOn s 35 = none ∧ chunkReady s 35 (0, 7) = some (d, 0) ∧ fabricRefusal s (.peer 7 0) 0 = none ∧
     runs (.collStep 35 (.boundary [(0, 7)])) s (fun t => t.collBufs.map (fun b => (b.peer, b.unit, b.data)) == [(7, 0, [5])] &&
       (Tab.get {} t.portTurns 35).last == some 0 &&
       (Tab.get {} t.portTurns 35).now == some { key := 0, ordinal := 0, peer := 7, chunk := (0, 0) }) = true ∧
     runs (.collStep 35 (.boundary [(0, 7), (1, 7)])) rivals
       (fun t => t.collBufs.map (·.key) == [1] && (Tab.get {} t.portTurns 35).passed == [(0, 1)]) = true ∧
     runs (.collStep 35 (.boundary [(0, 7), (1, 7)])) { rivals with portTurns := [(35, { last := some 128, passed := [(0, 64)] })] }
       (fun t => t.collBufs.map (·.key) == [0]) = true ∧
     (let s : State := { rivals with portTurns := [(35, { now := some { key := 0, ordinal := 0, peer := 7, chunk := (0, 0) } })] }
      chunkGoesOn s 35 = some (0, 7, d, 0) ∧
      runs (.collStep 35 (.boundary [(1, 7)])) s (fun t => t.collBufs.map (·.key) == [0]) = true)) ∧
    runs (.collComplete 0) (grouped (coll 0 none)) (fun t => t.colls.length == 1) = true ∧
    runs (.collComplete 0) (grouped { coll 0 none with done := true }) (fun t => t.colls.isEmpty) = true ∧
    (let s := grouped { coll 0 none with status := 8, block := (coll 0 none).block.set 7 0x20300 }
     runs (.collComplete 0) (rounds 3 (.collComplete 0) s) (fun t => t.colls.isEmpty) = true) := by
  decide +kernel

def held1 : Packet := { src := .hart 0, dw := packetWords (.hart 0) 0 0 0 { code := .budget } }
/-- Cluster 0's trap queue lies at 0x40000, and one packet is held for it. -/
def trapped : State := { lab with trapBase := [(0, 0x40000)], heldPackets := [held1] }
def knows (u : TrapUnit) (s : State := trapped) : State := { s with trapUnits := [(0, u)] }
theorem meets_TrapQueueResults :
    trapQueueAt trapped 0 = some 0x40000 ∧ trapEntryAt trapped 0 0 = some 0x40040 ∧ held1.cluster = 0 ∧
    oldestOfSource trapped 0 held1 = true ∧ ({ } : TrapUnit).fits held1 = true ∧ ({ prod := 240 } : TrapUnit).fits held1 = false ∧
    (let s := memWrite trapped 0 0x40000 (dws [9, 4])
     runs (.trapPacketAdmit 0) (served (.trapPacketAdmit 0) s) (fun t => t.trapUnits == [(0, { prod := 9, cons := 4 })]) = true) ∧
    runs (.trapPacketAdmit 0) (knows {}) (fun t => t.trapUnits == [(0, { busy := some held1 })]) = true ∧
    runs (.trapPacketAdmit 1) (knows {} { trapped with heldPackets := [held1, held1] }) (fun t => t.trapUnits == [(0, {})]) = true ∧
    (let s := knows { prod := 240 } (memWrite trapped 0 0x40008 [5])
     runs (.trapPacketAdmit 0) (served (.trapPacketAdmit 0) s) (fun t => t.trapUnits == [(0, { prod := 240, cons := 5 })]) = true ∧
     runs (.trapConsPoll 0) (served (.trapConsPoll 0) s) (fun t => t.trapUnits == [(0, { prod := 240, cons := 5 })]) = true) ∧
    (let other : Packet := { src := .hart 1, dw := held1.dw }
     runs (.trapPacketAdmit 0) (knows { busy := some other }) (· == knows { busy := some other }) = true) ∧
    (let s := rounds 2 (.trapPacketAdmit 0) (knows { busy := some held1 })
     (went (.trapPacketAdmit 0) (knows { busy := some held1 })).inFlight.map (fun r => (r.place, r.size)) = [(.mem 0x40040, 64)] ∧
     runs (.trapPacketAdmit 0) s (fun t => t.heldPackets.isEmpty && t.trapUnits == [(0, { prod := 1, live := [held1] })]) = true) ∧
    runs (.trapConsPoll 0) lab (· == lab) = true ∧
    admits [(3, true)] 0 3 true = true ∧ admits [] 239 0 true = true ∧ admits [(1, false)] 238 0 false = true ∧
    admits [(1, false)] 239 0 false = false ∧
    (let p : Packet := { src := .hart 4096, dw := packetWords (.hart 4096) 0 0 0 { code := .budget } }
     let s : State := { lab with heldPackets := [p] }
     p.cluster = 64 ∧ admits [] 0 (entryMember p.low) (entryFatal p.low) = true ∧ oldestOfSource s 0 p = true ∧
     runs (.trapPacketAdmit 0) s (fun t => t.steadingQ == [p] && t.steadingProd == 1 && t.heldPackets.isEmpty) = true ∧
     runs (.trapConsPoll 64) { lab with steadingQ := [p] } (fun t => t.steadingQ.isEmpty && t.steadingCons == 1) = true) := by
  decide +kernel

theorem meets_EncodingRoundTrip :
    (Instr.add (f3 .i64)).parts.isSome = true ∧ (Instr.add (f3 .i64)).wf = true ∧ (Instr.add (f3 .i64)).wfInBody = true ∧
    (Instr.vst (plain .fp16 1 .none (.x 5) (.v 3) 0x40)).wf = true ∧
    decode false (wordBytes (encode (.vst (plain .fp16 1 .none (.x 5) (.v 3) 0x40)))) = .ok (.vst (plain .fp16 1 .none (.x 5) (.v 3) 0x40)) := by
  decide +kernel

/-- Reset with add.i64 x3, x1, x2 placed, x1 = 5. -/
def placed : State :=
  let s := State.reset.withFetchWord 96 0x100000000300100200000000
  s.setBank 0 0 ((s.bank 0 0).wx 1 5)
def turning : State := { advanceTime placed with turns := [], cur := 0 }

theorem meets_StepRunsTheDecodedInstruction :
    placed.turns = [.hart 0] ∧ turning.me.running = true ∧ turning.me.frozen = false ∧ turning.me.lag = [] ∧ (boundary turning).isNone = true ∧
    turning.me.sleep.isNone = true ∧ turning.me.pend = [] ∧ pickHart turning 0 = some 0 ∧ pickHart turning 0 ≠ some 1 ∧
    after (step { placed with turns := [.hart 1] }) (fun t => t.me.pc == 0x10000 && t.turns.isEmpty) = true ∧
    good (fetchBytes turning) (fun r => good (decodeFor r.1.me.repst (overlay r.1 r.2)) (· == .add (f3 .i64))) = true ∧
    after (step placed) (fun t => t.me.rx 3 == 5 && t.me.pc == 0x1000C) = true ∧
    (match nextAgent (advanceTime { placed with turns := [] }) with
      | (a, .core c) => pickHart a c == some 0
      | _ => false) = true ∧
    after (step { placed with turns := [] }) (fun t => t.me.rx 3 == 5) = true ∧
    (Instr.refresh 0).parts.isNone = true ∧ after (step { placed with turns := [.event (.refresh 0)] }) = true := by
  decide +kernel

/-- The access stream's turn on an instruction passes it, and a check holds of the hart. -/
def passes (i : Instr) (op : Nat) (f : Fmt) (s : State) (k : Hart → Bool) : Bool :=
  match passTurn s i op f with
  | some (.next t) => k t.me
  | _ => false
/-- Instructions that the access stream may pass: an execute instruction that reads x1, one of its own, a load into v3,
and a jump through x1. -/
def toV : Fmt := plain .n8 0 (.v 3) (.x 1) .none
def apart : State := lab.modMe (fun h => { h with lag := [.vmov toV], copyAE := [.ready 7], epc := 0x4FFF4 })

theorem meets_StreamsRunApart :
    (Instr.vmov toV).parts.map (·.1) = some 0x60 ∧ streamOf 0x60 toV = .execute ∧ mayPass 0x60 toV = true ∧
    passes (.vmov toV) 0x60 toV (withX lab 1 9) (fun h => h.lag == [.vmov toV] && h.copyAE == [.ready 9] && h.epc == 0x50000 &&
      h.apc == 0x5000C && h.rv 3 == 0) = true ∧
    streamOf 0x10 (f3 .i64) = .access ∧ mayPass 0x10 (f3 .i64) = true ∧
    passes (.add (f3 .i64)) 0x10 (f3 .i64) (xs 2 3) (fun h => h.rx 3 == 5 && h.lag.length == 1 && h.copyAE == []) = true ∧
    (let f := plain .n8 0 (.v 3) (.x 1) .none 64
     mayPass 0x6D f = true ∧ passes (.vld f) 0x6D f padded (fun h => h.rv 3 == 0 && h.copyAE.length == 1) = true) ∧
    (let f := plain .i64 0 .none (.x 1) .none
     queuedBranch 0x04 f = true ∧ passes (.jr f) 0x04 f (xs 0x60000 0) (fun h => h.branchQ == [0x60000] && h.apc == 0x60000) = true) ∧
    mayPass 0x01 (f3 .i64) = false ∧ lab.me.parted.queueRoom 3 = true ∧ lab.me.pend = [] ∧
    entriesOf (withX lab 1 9) [.x 1] = .ok [.ready 9] ∧
    (let f := plain .n8 0 (.v 3) (.q 0 0) .none
     mayPass 0x60 f = true ∧ passes (.vmov f) 0x60 f (queued 1) (fun h => h.copyAE == [.ready 9]) = true ∧
     passes (.vmov f) 0x60 f (queued 0) (fun h => h.waiting && h.lag == []) = true) ∧
    (let f := guarded 1 (plain .fp32 0 (.x 17) (.x 1) (.x 2))
     let g := { f with hint := { f.hint with lastA := true } }
     let s := lab.modMe (fun h => { h with x := h.x.set 1 9 })
     passes (.fadd g) 0x2D g s (fun h => h.copyAE == [.ready 0] && h.rx 1 == 9 && h.lag == [.fadd g]) = true) ∧
    ((apart.modMe (fun h => { h with copyAE := [.awaits 4] })).me.handed 1 = none) ∧
    (let k : Hart := { pend := [{ id := 4, reg := 3, ty := .i8 }], copyAE := [.awaits 4, .ready 2] }
     let l := k.loaded 4 0x1FF
     l.pend = [] ∧ l.rx 3 = 0xFFFFFFFFFFFFFFFF ∧ l.copyAE = [.ready 0xFFFFFFFFFFFFFFFF, .ready 2]) ∧
    (let s := lab.modMe (fun h => { h with lag := [.vmov toV], copyAE := List.replicate 16 (.ready 7) })
     (passTurn s (.vmov toV) 0x60 toV).isNone = true) ∧
    (followTurn apart).me.lag = [] ∧ (followTurn apart).me.epc = 0x50000 ∧ (followTurn apart).me.copyAE = [] ∧
    lane (lanesOf 8 ((followTurn apart).me.rv 3)) 63 = 7 := by
  decide +kernel

theorem meets_MemoryStaysCanonical :
    Mem.wf placed.mem = true ∧ Mem.wf placed.spad = true ∧ placed.mem.length = 4 ∧ after (step placed) = true := by
  decide +kernel

/-- p1 is zero: a guard of p1 is false, one of !p1 holds. -/
theorem meets_GuardedOffSkips :
    guardOn (guarded 1 (f3 .i64)) lab = false ∧ guardOn (guarded 9 (f3 .i64)) lab = true ∧ (super lab).me.modeS = true ∧
    runs (.add (guarded 1 (f3 .i64))) (super lab) (fun t => t.me.rx 3 == 0 && t.me.pc == 0x5000C) = true ∧
    guardOn (guarded 1 (f3 .i64)) supervisor = false ∧ isSup supervisor.cur = true ∧ supervisor.me.modeS = true ∧
    lab.me.modeS = false ∧ isSup lab.cur = false ∧
    runs (.add (guarded 1 (f3 .i64))) lab (fun t => t.me.rx 3 == 0 && t.me.pc == 0x5000C) = true ∧
    runs (.tour (guarded 1 tf)) lab (fun t => t.me.pc == 0x5000C) = true ∧
    runs (.csrw (guarded 1 (plain .i64 0 (.csr .ivec) (.x 1) .none))) (super lab) (fun t => t.me.pc == 0x5000C) = true ∧
    runs (.keyld (guarded 1 (f3 .i64))) supervisor (fun t => t.me.pc == 12) = true := by
  decide +kernel

theorem meets_ScalarFrame :
    runs (.add (f3 .i64)) (xs 2 3) (fun t => t.me.rx 1 == 2 && t.me.rx 2 == 3 && t.cores == (xs 2 3).cores && t.mem == []) = true := by
  decide +kernel

theorem meets_VectorFrame :
    runs (.vadd (w3 .n8)) vs (fun t => t.me.rv 1 == ramp && t.spad == vs.spad) = true := by
  decide +kernel

theorem meets_StoresTouchOnlyTheirBytes :
    Mem.wf padded.spad = true ∧ Mem.wf padded.mem = true ∧ Mem.wf paged.mem = true ∧
    resolve padded padded.iAm .store 0xFF80000000000008 = .ok (.spad padded.myCore 8) ∧
    runs (.st (plain .i64 1 .none (.x 1) (.x 2) 8)) padded (fun t => t.spad == padded.spad && t.reqNet.length == 1) = true ∧
    runs (.scratch 0) { padded with reqNet := [req .write (.spad 0 8)] } (fun t =>
      Mem.read t.spad (spadKey 0 0 7) == 8 && Mem.read t.spad (spadKey 0 0 8) == 0x55 && Mem.read t.spad (spadKey 0 0 16) == 17) = true ∧
    good (resolve paged paged.iAm .store 0x20000) (fun t => match t with
      | .mem _ _ => true
      | _ => false) = true ∧
    runs (.st (plain .i64 1 .none (.x 1) (.x 2))) paged (fun t => t.mem == paged.mem && t.spad == paged.spad) = true ∧
    runs (.vst (plain .i64 1 .none (.x 1) (.v 2))) paged (fun t => t.mem == paged.mem) = true ∧
    runs (.columnCommand (bankOf lab 0) 0) (banked [req .write (.mem 0)]) (fun t => t.mem.length == 1) = true ∧
    good (atomicTarget paged 0x20000 8 false) (fun t => match t with
      | .mem dpa _ => placeOf paged dpa == some (.mem 0x30000)
      | _ => false) = true ∧
    runs (.amo (plain .i64 0 .none (.x 1) (.x 2))) (withX paged 2 1) (fun t => t.mem == paged.mem && t.inFlight.length == 1) = true ∧
    runs (.columnCommand (bankOf lab 0) 0) (banked [req .atomic (.mem 0)])
      (fun t => Mem.read t.mem 0 == 0x55 && t.mem.length == 1) = true ∧
    good (atomicTarget padded 0xFF80000000000008 8 false) (· == .spad 0 8) = true ∧
    runs (.amo (plain .i64 0 .none (.x 1) (.x 2))) (withX (withX padded 1 0xFF80000000000008) 2 1)
      (fun t => Mem.read t.spad (spadKey 0 0 8) == 10 && Mem.read t.spad (spadKey 0 0 16) == 17) = true := by
  decide +kernel

theorem meets_PrivilegeChecks :
    lab.me.modeS = false ∧ isSup lab.cur = false ∧ (super lab).me.modeS = true ∧ (CReg.ivec).userWritable = false ∧
    runs (.eret (f3 .i64)) lab (fun t => t.me.frozen && t.me.pc == 0x50000) = true ∧
    runs (.csrw (plain .i64 0 (.csr .ivec) (.x 1) .none)) lab (·.me.frozen) = true ∧
    runs (.keyld (f3 .i64)) (super lab) (·.me.frozen) = true ∧
    runs (.ecall (plain .i64 0 .none .none .none)) (super lab) (·.me.frozen) = true := by
  decide +kernel

theorem meets_FaultsFreezeTheHart :
    isSup lab.cur = false ∧ isSup supervisor.cur = true ∧
    (lab.takeFault (illegal causeBreak)).heldPackets.length = 1 ∧ (supervisor.takeFault (illegal causeBreak)).heldPackets.map (·.cluster) = [64] ∧
    (0 : Nat) * 128 + 1 ≠ lab.cur * 128 + lab.myCtx := by
  decide +kernel

theorem meets_ConstantAndDeadRegisters :
    ({ dead := 2 ^ 31 + 2 ^ 32 } : Hart).dead.getLsbD 31 = true ∧ ({ dead := 2 ^ 31 + 2 ^ 32 } : Hart).dead.getLsbD (32 + 0) = true ∧
    ({ dead := 2 ^ 31, x := Vector.replicate 32 5 } : Hart).rx 31 = 0 ∧
    (({ dead := 2 ^ 31, x := Vector.replicate 32 5 } : Hart).wx 31 6).rx 31 = 6 ∧
    (({ x := Vector.replicate 32 5 } : Hart).kill 31).rx 30 = 5 := by
  decide +kernel

/-- An address whose bits 63:56 are not those of bit 55, and hart 0 about to fetch there. -/
def astray : W64 := 0x0180000000000000
theorem meets_NoncanonicalAddressesFault :
    astray.extractLsb 63 56 ≠ (if astray.getLsbD 55 = true then 0xFF else 0) ∧
    (let s := xs astray 0
     guardOn (plain .i64 1 (.x 3) (.x 1) .none) s = true ∧ effAddr (s.me.rx 1) 0 = astray ∧ astray.toNat % 16 = 0 ∧ rmwIssued s = false ∧
     runs (.ld (plain .i64 1 (.x 3) (.x 1) .none)) s (·.me.frozen) = true ∧
     runs (.amo (plain .i64 0 (.x 3) (.x 1) (.x 2))) s (·.me.frozen) = true) ∧
    (let s := lab.modMe (fun h => h.setPc astray)
     s.me.pc = astray ∧ s.me.lag = [] ∧ (boundary s).isNone = true ∧ astray.toNat % 4 = 0 ∧ s.me.sleep.isNone = true ∧
     after (hartTurn s) (·.me.frozen) = true) := by
  decide +kernel

theorem meets_CoreNumbersGiveClusters :
    clusterOf (7 * 128 + (7 * 16 + 15)) = 63 ∧ memberOf (7 * 128 + (7 * 16 + 15)) = 15 := by
  decide +kernel

end Sys2Proof.Tests
end

section
/-! PROOFS. The numbering of compute cores (R12, R13): the die, cluster and member index of a core below 1,024, and the
core that a cluster and a member index name. -/

namespace Sys2Proof.Machine

/-- The core ids of R12 end before the supervisor cores of R14. -/
theorem coreNumber_lt {d ly lx : Nat} (hd : d < 8) (hly : ly < 8) (hlx : lx < 16) :
    d * 128 + (ly * 16 + lx) < 1024 := by
  omega

theorem supCore_eq_false {core : Nat} (h : core < 1024) : supCore core = false := by
  simp [supCore, h]

theorem dieOf_compute {core : Nat} (h : core < 1024) : dieOf core = core / 128 := by
  simp [dieOf, supCore_eq_false h]

theorem clusterOf_compute {core : Nat} (h : core < 1024) :
    clusterOf core = core / 128 * 8 + core % 128 / 16 / 4 * 4 + core % 16 / 4 := by
  simp [clusterOf, supCore_eq_false h]

theorem memberOf_compute {core : Nat} (h : core < 1024) :
    memberOf core = core % 128 / 16 % 4 * 4 + core % 4 := by
  simp [memberOf, supCore_eq_false h]

theorem clusterOf_lt {core : Nat} (h : core < 1024) : clusterOf core < 64 := by
  rw [clusterOf_compute h]
  omega

theorem memberOf_lt {core : Nat} (h : core < 1024) : memberOf core < 16 := by
  rw [memberOf_compute h]
  omega

/-- Die `d`, rows `4 * a` to `4 * a + 3` and columns `4 * b` to `4 * b + 3` make a cluster, and member `4 * i + j` of it
stands at row `i` and column `j` of that square. -/
theorem memberCore_of_square (d : Nat) {a b j : Nat} (i : Nat) (ha : a < 2) (hb : b < 4) (hj : j < 4) :
    memberCore (d * 8 + a * 4 + b) (i * 4 + j) = d * 128 + (a * 4 + i) * 16 + b * 4 + j := by
  have hdie : (d * 8 + a * 4 + b) / 8 = d := by omega
  have hrows : (d * 8 + a * 4 + b) % 8 / 4 = a := by omega
  have hcols : (d * 8 + a * 4 + b) % 4 = b := by omega
  have hrow : (i * 4 + j) / 4 = i := by omega
  have hcol : (i * 4 + j) % 4 = j := by omega
  simp only [memberCore, hdie, hrows, hcols, hrow, hcol]

/-- Cluster and member index together determine a compute core. -/
theorem memberCore_clusterOf_memberOf {core : Nat} (h : core < 1024) :
    memberCore (clusterOf core) (memberOf core) = core := by
  have ha : core % 128 / 16 / 4 < 2 := by omega
  have hb : core % 16 / 4 < 4 := by omega
  have hj : core % 4 < 4 := by omega
  rw [clusterOf_compute h, memberOf_compute h, memberCore_of_square _ _ ha hb hj]
  omega

theorem dieOf_coreNumber {d ly lx : Nat} (hd : d < 8) (hly : ly < 8) (hlx : lx < 16) :
    dieOf (d * 128 + (ly * 16 + lx)) = d := by
  rw [dieOf_compute (coreNumber_lt hd hly hlx)]
  omega

theorem clusterOf_coreNumber {d ly lx : Nat} (hd : d < 8) (hly : ly < 8) (hlx : lx < 16) :
    clusterOf (d * 128 + (ly * 16 + lx)) = d * 8 + ly / 4 * 4 + lx / 4 := by
  rw [clusterOf_compute (coreNumber_lt hd hly hlx)]
  omega

theorem memberOf_coreNumber {d ly lx : Nat} (hd : d < 8) (hly : ly < 8) (hlx : lx < 16) :
    memberOf (d * 128 + (ly * 16 + lx)) = ly % 4 * 4 + lx % 4 := by
  rw [memberOf_compute (coreNumber_lt hd hly hlx)]
  omega

/-- Settles O59: R13's two formulae, their ranges and the core they name, from the equations of the numbering below
1,024. -/
theorem coreNumbersGiveClusters : Obligations.CoreNumbersGiveClusters := by
  unfold Obligations.CoreNumbersGiveClusters
  intro d ly lx hd hly hlx c
  have hc : c < 1024 := coreNumber_lt hd hly hlx
  exact ⟨clusterOf_coreNumber hd hly hlx, memberOf_coreNumber hd hly hlx, clusterOf_lt hc, memberOf_lt hc,
    memberCore_clusterOf_memberOf hc, dieOf_coreNumber hd hly hlx⟩

end Sys2Proof.Machine
end

section
/-! PROOFS. The privilege check (R162, R197, R240): a reserved instruction is refused before its guard and its body. -/

namespace Sys2Proof.Machine

theorem privileged_true {s : State} {ok : Bool} (h : ok = true) (r : Result) : privileged ok s r = r := by
  simp [privileged, h]

/-- An instruction whose privilege check fails is refused, whatever its body. -/
theorem refused_of_privileged {i : Instr} {s : State} {ok : Bool} {r : Result} (hx : exec i s = privileged ok s r)
    (h : ok = false) : exec i s = .next (s.takeFault (illegal causePrivilege)) := by
  simp [hx, privileged, h]

theorem mayWriteCsr_eq_false {h : Hart} {o : Operand} {r : CReg} (hm : h.modeS = false) (ho : o = .csr r)
    (hr : r.userWritable = false) : mayWriteCsr h o = false := by
  simp [mayWriteCsr, ho, hm, hr]

theorem keyldMay_iff {s : State} : keyldMay s = true ↔ isSup s.cur = true ∧ s.me.modeS = true := by
  simp [keyldMay]

theorem keyldMay_eq_false {s : State} (h : s.me.modeS = false ∨ isSup s.cur = false) : keyldMay s = false := by
  rcases h with h | h <;> simp [keyldMay, h]

/-- An ecall in S mode faults (R378). -/
theorem execEcall_modeS {f : Fmt} {s : State} (hm : s.me.modeS = true) (hg : guardOn f s = true) :
    execEcall f s = .next (s.dropAnswers.takeFault (illegal causeEcall)) := by
  rw [execEcall, scalarRun_on hg, if_pos hm]
  exact settle_fault s _

/-- Settles O55: the reserved instructions are guarded by `privileged`, and their conditions fail. -/
theorem privilegeChecks : Obligations.PrivilegeChecks := by
  unfold Obligations.PrivilegeChecks
  intro f s refused
  refine ⟨fun hm => ⟨?_, ?_, ?_, ?_, fun r hd hr => ?_⟩, fun h => ?_, execEcall_modeS⟩
  · exact refused_of_privileged (i := .eret f) rfl hm
  · exact refused_of_privileged (i := .tlbinvPage f) rfl hm
  · exact refused_of_privileged (i := .tlbinvCtx f) rfl hm
  · exact refused_of_privileged (i := .tlbinvAll f) rfl hm
  · have hw := mayWriteCsr_eq_false hm hd hr
    exact ⟨refused_of_privileged (i := .csrw f) rfl hw, refused_of_privileged (i := .csrs f) rfl hw,
      refused_of_privileged (i := .csrc f) rfl hw⟩
  · have hk := keyldMay_eq_false h
    exact ⟨refused_of_privileged (i := .keyld f) rfl hk, refused_of_privileged (i := .keyldClear f) rfl hk,
      refused_of_privileged (i := .ctxsw f) rfl hk, refused_of_privileged (i := .ctxswStat f) rfl hk⟩

end Sys2Proof.Machine
end

section
/-! PROOFS. Noncanonical addresses (R27): what finds one before anything is performed, and that its fault touches no
memory. -/

namespace Sys2Proof.Machine

-- A fault touches no memory (R463).

@[simp] theorem State.takeFault_mem (s : State) (f : TrapInfo) : (s.takeFault f).mem = s.mem := rfl
@[simp] theorem State.takeFault_spad (s : State) (f : TrapInfo) : (s.takeFault f).spad = s.spad := rfl

-- Noncanonical addresses (R27).

theorem toNat_extractLsb_eq_slice (va : W64) : (va.extractLsb 63 56).toNat = slice va.toNat 63 56 := by
  simp [slice, Nat.shiftRight_eq_div_pow]

theorem canonical_eq_false {va : W64} (h : va.extractLsb 63 56 ≠ if va.getLsbD 55 = true then 0xFF else 0) :
    canonical va = false := by
  refine beq_false_of_ne fun hs => h (BitVec.eq_of_toNat_eq ?_)
  rw [toNat_extractLsb_eq_slice, hs]
  split <;> rfl

section Noncanonical

variable {s : State} {va : W64} (hc : canonical va = false)
include hc

theorem alignedIn_noncanonical {n : Nat} (windows : Bool) (hn : va.toNat % n = 0) :
    alignedIn windows s va n = .ok () := by
  simp [alignedIn, debugWindow, hc, hn, need, bind, Except.bind]

theorem resolve_noncanonical (w : Who) (a : Acc) : resolve s w a va = fail s (accessFault causeNoncanonical va) := by
  simp [resolve, hc]

theorem atomicTarget_noncanonical {n : Nat} (tagged : Bool) (hn : va.toNat % n = 0) :
    atomicTarget s va n tagged = fail s (accessFault causeNoncanonical va) := by
  simp [atomicTarget, alignedIn_noncanonical hc false hn, hc, need, fail, bind, Except.bind]

theorem atomicRun_noncanonical {f : Fmt} (op : RmwOp) (b : Nat) (ha : xval s f.a = va)
    (hn : va.toNat % (f.ty.width / 8) = 0) (hr : rmwIssued s = false) :
    atomicRun f s op b = fail s (accessFault causeNoncanonical va) := by
  simp [atomicRun, ha, hr, atomicTarget_noncanonical hc false hn, fail, bind, Except.bind]

theorem fetchInstr_noncanonical (hpc : s.me.pc = va) (hn : va.toNat % 4 = 0) :
    fetchInstr s = fail s (accessFault causeNoncanonical va) := by
  simp [fetchInstr, fetchBytes, fetchLine, hpc, hn, hc, fail, bind, Except.bind]

end Noncanonical

/-- What ends in the fault of R27 answers the state that takes it, with both memories as they were. -/
theorem faults_of_settle {r : Result} {s : State} {va : W64}
    (h : r = settle (fail s (accessFault causeNoncanonical va))) :
    r = .next (s.dropAnswers.takeFault { code := .access, cause := causeNoncanonical, va := va }) ∧
      (s.dropAnswers.takeFault { code := .access, cause := causeNoncanonical, va := va }).mem = s.mem ∧
      (s.dropAnswers.takeFault { code := .access, cause := causeNoncanonical, va := va }).spad = s.spad :=
  ⟨h.trans (settle_fault s _), by simp, by simp⟩

section Accesses

variable {f : Fmt} {s : State} {va : W64} (hc : canonical va = false) (hg : guardOn f s = true)
include hc hg

theorem execLd_noncanonical (hd : dstReady s f.d = .ok ()) (ha : effAddr (xval s f.a) f.imm = va)
    (hn : va.toNat % (f.ty.width / 8) = 0) : execLd f s = settle (fail s (accessFault causeNoncanonical va)) := by
  simp [execLd, scalarRun_on hg, hd, ha, aligned, alignedIn_noncanonical hc true hn, resolve_noncanonical hc, fail,
    bind, Except.bind]

theorem execSt_noncanonical {b : W64} (hb : src64 s f.b 0 = .ok b) (ha : effAddr (xval s f.a) f.imm = va)
    (hn : va.toNat % (f.ty.width / 8) = 0) : execSt f s = settle (fail s (accessFault causeNoncanonical va)) := by
  rw [execSt, scalarRun_on hg, hb]
  simp [ha, aligned, alignedIn_noncanonical hc true hn, resolve_noncanonical hc, fail, bind, Except.bind]

theorem execLdp_noncanonical (ha : effAddr (xval s f.a) f.imm = va) (hn : va.toNat % 16 = 0) :
    execLdp f s = settle (fail s (accessFault causeNoncanonical va)) := by
  simp [execLdp, scalarRun_on hg, ha, aligned, alignedIn_noncanonical hc true hn, resolve_noncanonical hc, fail, bind,
    Except.bind]

theorem execStp_noncanonical (ha : effAddr (xval s f.a) f.imm = va) (hn : va.toNat % 16 = 0) :
    execStp f s = settle (fail s (accessFault causeNoncanonical va)) := by
  simp [execStp, scalarRun_on hg, ha, aligned, alignedIn_noncanonical hc true hn, resolve_noncanonical hc, fail, bind,
    Except.bind]

theorem execAmo_noncanonical {b : W64} (hb : src64 s f.b f.imm = .ok b) (hd : dstReady s f.d = .ok ())
    (ha : xval s f.a = va) (hn : va.toNat % (f.ty.width / 8) = 0) (hr : rmwIssued s = false) :
    execAmo f s = settle (fail s (accessFault causeNoncanonical va)) := by
  simp [execAmo, scalarRun_on hg, hb, hd, atomicRun_noncanonical hc _ _ ha hn hr, bind, Except.bind]

theorem execCas_noncanonical {b : W64} (hb : src64 s f.b f.imm = .ok b) (ha : xval s f.a = va)
    (hn : va.toNat % (f.ty.width / 8) = 0) (hr : rmwIssued s = false) :
    execCas f s = settle (fail s (accessFault causeNoncanonical va)) := by
  simp [execCas, scalarRun_on hg, hb, atomicRun_noncanonical hc _ _ ha hn hr, bind, Except.bind]

theorem execWaitw_noncanonical {b : W64} (hb : src64 s f.b f.imm = .ok b) (ha : xval s f.a = va)
    (hn : va.toNat % (f.ty.width / 8) = 0) : execWaitw f s = settle (fail s (accessFault causeNoncanonical va)) := by
  simp [execWaitw, scalarRun_on hg, hb, ha, alignedIn_noncanonical hc false hn, hc, need, fail, bind, Except.bind]

theorem execAmored_noncanonical {b : Nat} (hb : srcAt s f.ty f.b = .ok b) (ha : xval s f.a = va)
    (hn : va.toNat % (f.ty.width / 8) = 0) : execAmored f s = settle (fail s (accessFault causeNoncanonical va)) := by
  simp [execAmored, scalarRun_on hg, hb, ha, atomicTarget_noncanonical hc _ hn, fail, bind, Except.bind]

end Accesses

/-- A joined hart about to issue whose fetch faults takes that fault (R199, R463). -/
theorem hartTurn_fetch_fault {s : State} {t : TrapInfo} (hrun : s.me.running = true) (hfrozen : s.me.frozen = false)
    (hlag : s.me.lag = []) (hpend : s.me.pend = []) (hbound : boundary s = none) (hsleep : s.me.sleep = none)
    (hfetch : fetchInstr s = fail s t) : hartTurn s = settle (fail s t) := by
  simp [hartTurn, joinedTurn, hartIssue, Hart.awake, hrun, hfrozen, hlag, hpend, hbound, hsleep, hfetch, fail]

/-- Settles O58: before anything is performed, each access finds its address noncanonical, and so does the fetch. -/
theorem noncanonicalAddressesFault : Obligations.NoncanonicalAddressesFault := by
  unfold Obligations.NoncanonicalAddressesFault
  intro f s va hva faults
  have hc : canonical va = false := canonical_eq_false hva
  refine ⟨fun hg hd => ⟨fun ha hn => ⟨?_, fun b hb => ?_⟩, fun ha hn => ⟨?_, ?_⟩, fun b ha hn hb hr => ⟨?_, ?_, ?_⟩,
    fun b ha hn hb => ?_⟩, fun hrun hfrozen hlag hpend hbound hsleep hpc hn => ?_, resolve_noncanonical hc⟩
  · exact faults_of_settle (execLd_noncanonical hc hg hd ha hn)
  · exact faults_of_settle (execSt_noncanonical hc hg hb ha hn)
  · exact faults_of_settle (execLdp_noncanonical hc hg ha hn)
  · exact faults_of_settle (execStp_noncanonical hc hg ha hn)
  · exact faults_of_settle (execAmo_noncanonical hc hg hb hd ha hn hr)
  · exact faults_of_settle (execCas_noncanonical hc hg hb ha hn hr)
  · exact faults_of_settle (execWaitw_noncanonical hc hg hb ha hn)
  · exact faults_of_settle (execAmored_noncanonical hc hg hb ha hn)
  · exact faults_of_settle (hartTurn_fetch_fault hrun hfrozen hlag hpend hbound hsleep
      (fetchInstr_noncanonical hc hpc hn))

end Sys2Proof.Machine
end

section
/-! PROOFS. The supervisor core's instructions in S mode (R381, R383): the status of each from the first condition that
holds. The translation invalidations (R51, R52): the removal, and what they wait for. -/

namespace Sys2Proof.Machine

open Sys2Proof.Safety

/-- The upper bits of a word are what is left past the lower ones. -/
theorem slice_63 (v : W64) {lo : Nat} (h : lo ≤ 64) : slice v.toNat 63 lo = v.toNat / 2 ^ lo := by
  refine Nat.mod_eq_of_lt (Nat.div_lt_of_lt_mul ?_)
  rw [← Nat.pow_add, show lo + (63 + 1 - lo) = 64 by omega]
  exact v.isLt

theorem slice_eq_zero {x lo : Nat} (hi : Nat) (h : x / 2 ^ lo = 0) : slice x hi lo = 0 := by
  rw [slice, h, Nat.zero_mod]

/-- A destination register has room in every state. -/
theorem dstReady_x {o : Operand} {d : Fin 32} (h : o = .x d) (t : State) : dstReady t o = .ok () := by
  rw [h]
  rfl

-- keyld (R381).

section Keyld

variable {s : State} {a b : W64}

theorem execKeyldCode_badword
    (h : a.toNat / 2 ^ 22 ≠ 0 ∨ slice a.toNat 15 12 ≠ 0 ∨ b.toNat / 2 ^ 16 ≠ 0) : execKeyldCode s a b = (3, s) := by
  refine if_pos ?_
  simpa [slice_63, or_assoc] using h

variable (hw : ¬ (a.toNat / 2 ^ 22 ≠ 0 ∨ slice a.toNat 15 12 ≠ 0 ∨ b.toNat / 2 ^ 16 ≠ 0))
include hw

theorem execKeyldCode_slotbusy (hs : (s.keySlot (a.toNat % 4096)).st ≠ .empty) : execKeyldCode s a b = (2, s) := by
  simp only [not_or, not_not] at hw
  obtain ⟨ha, ha', hb⟩ := hw
  simp [execKeyldCode, slice_eq_zero _ ha, ha', slice_eq_zero _ hb, hs]

variable (hs : (s.keySlot (a.toNat % 4096)).st = .empty)
include hs

theorem execKeyldCode_noticket
    (ht : s.tickets.find? (fun t => t.1 == b.toNat && t.2.ctx == slice a.toNat 21 16) = none) :
    execKeyldCode s a b = (1, s) := by
  simp only [not_or, not_not] at hw
  obtain ⟨ha, ha', hb⟩ := hw
  simp only [execKeyldCode, slice_eq_zero _ ha, ha', slice_eq_zero _ hb, hs, ht, bne_self_eq_false, Bool.or_self,
    Bool.false_eq_true, if_false]

theorem execKeyldCode_loads {t : Nat × Ticket}
    (ht : s.tickets.find? (fun t => t.1 == b.toNat && t.2.ctx == slice a.toNat 21 16) = some t) :
    execKeyldCode s a b = (0, { (s.setKeySlot (a.toNat % 4096)
      { key := t.2.key, owner := slice a.toNat 21 16, st := .loaded }) with tickets := Tab.drop s.tickets t.1 }) := by
  simp only [not_or, not_not] at hw
  obtain ⟨ha, ha', hb⟩ := hw
  simp only [execKeyldCode, slice_eq_zero _ ha, ha', slice_eq_zero _ hb, hs, ht, bne_self_eq_false, Bool.or_self,
    Bool.false_eq_true, if_false]

end Keyld

-- ctxsw (R383).

section Ctxsw

variable {s : State} {a b : W64}

theorem ctxswStatus_badword (h : a.toNat / 2 ^ 4 ≠ 0 ∨ b.toNat / 2 ^ 6 ≠ 0) : ctxswStatus s a b = 5 := by
  refine if_pos ?_
  simpa [slice_63] using h

variable (hw : ¬ (a.toNat / 2 ^ 4 ≠ 0 ∨ b.toNat / 2 ^ 6 ≠ 0))
include hw

/-- Past the check of its words, the status is the first of the others that holds. -/
theorem ctxswStatus_of_words : ctxswStatus s a b =
    if present s (memberNamed s a) = false then 2
    else if (s.core (memberNamed s a)).swapTo.isSome then 1
    else if (s.core (memberNamed s a)).active = some (b.toNat % 64) then 4
    else if granted s (memberNamed s a) (b.toNat % 64) = false then 3
    else 0 := by
  simp only [not_or, not_not] at hw
  obtain ⟨ha, hb⟩ := hw
  simp [ctxswStatus, slice_eq_zero _ ha, slice_eq_zero _ hb]

theorem ctxswStatus_absent (hp : present s (memberNamed s a) = false) : ctxswStatus s a b = 2 := by
  rw [ctxswStatus_of_words hw, if_pos hp]

variable (hp : present s (memberNamed s a) = true)
include hp

theorem ctxswStatus_swapping (hk : (s.core (memberNamed s a)).swapTo ≠ none) : ctxswStatus s a b = 1 := by
  simp [ctxswStatus_of_words hw, hp, Option.isSome_iff_ne_none, hk]

variable (hk : (s.core (memberNamed s a)).swapTo = none)
include hk

theorem ctxswStatus_active (hc : (s.core (memberNamed s a)).active = some (b.toNat % 64)) : ctxswStatus s a b = 4 := by
  simp [ctxswStatus_of_words hw, hp, hk, hc]

variable (hc : (s.core (memberNamed s a)).active ≠ some (b.toNat % 64))
include hc

theorem ctxswStatus_notGranted (hg : granted s (memberNamed s a) (b.toNat % 64) = false) : ctxswStatus s a b = 3 := by
  simp [ctxswStatus_of_words hw, hp, hk, hc, hg]

theorem ctxswStatus_asked (hg : granted s (memberNamed s a) (b.toNat % 64) = true) : ctxswStatus s a b = 0 := by
  simp [ctxswStatus_of_words hw, hp, hk, hc, hg]

end Ctxsw

theorem ctxswWord_badword {s : State} {a : W64} (h : a.toNat / 2 ^ 4 ≠ 0) : ctxswWord s a = 0x8000 := by
  refine if_pos ?_
  simpa [slice_63] using h

theorem ctxswWord_idle {s : State} {a : W64} (h : a.toNat / 2 ^ 4 = 0) (hk : (s.core (memberNamed s a)).swapTo = none) :
    ctxswWord s a = BitVec.ofNat 64 ((s.core (memberNamed s a)).active.getD 0 +
      (s.core (memberNamed s a)).active.getD 0 * 2 ^ 8) := by
  simp [ctxswWord, slice_eq_zero _ h, hk]

theorem ctxswWord_swapping {s : State} {a : W64} {c : Nat} (h : a.toNat / 2 ^ 4 = 0)
    (hk : (s.core (memberNamed s a)).swapTo = some c) :
    ctxswWord s a = BitVec.ofNat 64 ((s.core (memberNamed s a)).active.getD 0 + 2 ^ 6 + c * 2 ^ 8) := by
  simp [ctxswWord, slice_eq_zero _ h, hk]

-- How these instructions end in S mode.

/-- An instruction whose privilege check passes runs its body under its guard. -/
theorem exec_of_privileged {i : Instr} {f : Fmt} {s : State} {ok : Bool} {body : Act State}
    (hx : exec i s = privileged ok s (scalarRun f s body)) (hok : ok = true) (hg : guardOn f s = true) :
    exec i s = settle body := by
  rw [hx, privileged_true hok, scalarRun_on hg]

section Supervisor

variable {f : Fmt} {s : State} (hg : guardOn f s = true) (hk : keyldMay s = true)
include hg hk

theorem keyld_gives {t : State} {n : Nat} (hc : execKeyldCode s (xval s f.a) (xval s f.b) = (n, t))
    (hd : dstReady t f.d = .ok ()) : Gives64 (.keyld f) f s t (BitVec.ofNat 64 n) := by
  refine gives64_of_put ?_ hd
  rw [exec_of_privileged (i := .keyld f) rfl hk hg, hc]

theorem keyldClear_badword (h : (xval s f.a).toNat / 2 ^ 22 ≠ 0 ∨ slice (xval s f.a).toNat 15 12 ≠ 0)
    (hd : dstReady s f.d = .ok ()) : Gives64 (.keyldClear f) f s s 3 := by
  refine gives64_of_put ?_ hd
  rw [exec_of_privileged (i := .keyldClear f) rfl hk hg, if_pos]
  simpa [slice_63] using h

theorem keyldClear_clears {d : Fin 32} (hd : f.d = .x d) (ha : (xval s f.a).toNat / 2 ^ 22 = 0)
    (ha' : slice (xval s f.a).toNat 15 12 = 0) (hu : keyInUse s ((xval s f.a).toNat % 4096) = false) :
    Gives64 (.keyldClear f) f s (s.setKeySlot ((xval s f.a).toNat % 4096) {}) 0 := by
  refine gives64_of_put ?_ (dstReady_x hd _)
  rw [exec_of_privileged (i := .keyldClear f) rfl hk hg]
  simp [slice_eq_zero _ ha, ha', hu, waitFor, bind, Except.bind]

theorem ctxsw_refused {n : Nat} (hn : n ≠ 0) (hst : ctxswStatus s (xval s f.a) (xval s f.b) = n)
    (hd : dstReady s f.d = .ok ()) : Gives64 (.ctxsw f) f s s (BitVec.ofNat 64 n) := by
  refine gives64_of_put ?_ hd
  rw [exec_of_privileged (i := .ctxsw f) rfl hk hg]
  simp only [hst, if_neg hn]

theorem ctxsw_asks {d : Fin 32} (hd : f.d = .x d) (hst : ctxswStatus s (xval s f.a) (xval s f.b) = 0) :
    Gives64 (.ctxsw f) f s (s.setCore (memberNamed s (xval s f.a))
      { s.core (memberNamed s (xval s f.a)) with swapTo := some ((xval s f.b).toNat % 64) }) 0 := by
  refine gives64_of_put ?_ (dstReady_x hd _)
  rw [exec_of_privileged (i := .ctxsw f) rfl hk hg]
  simp only [hst, if_pos, BitVec.ofNat_eq_ofNat]

theorem ctxswStat_gives {v : W64} (hv : ctxswWord s (xval s f.a) = v) (hd : dstReady s f.d = .ok ()) :
    Gives64 (.ctxswStat f) f s s v :=
  gives64_of_put (by rw [exec_of_privileged (i := .ctxswStat f) rfl hk hg, hv]) hd

end Supervisor

-- tlbinv (R51, R52).

/-- The context that x[B] names may be named: the hart's own, or on a supervisor core any. -/
theorem tlbinvCtx_ok {f : Fmt} {s : State} (hown : (xval s f.b).toNat = s.myCtx ∨ isSup s.cur = true)
    (hc : (xval s f.b).toNat < 64 ∨ ((xval s f.b).toNat = 64 ∧ isSup s.cur = true)) :
    tlbinvCtx f s = .ok (xval s f.b).toNat := by
  have hnames : (!(decide ((xval s f.b).toNat > 64) || (decide ((xval s f.b).toNat = 64) && !isSup s.cur))) = true := by
    rcases hc with hc | ⟨hc, hsup⟩
    · simp; omega
    · simp [hc, hsup]
  have hmay : (isSup s.cur || decide ((xval s f.b).toNat = s.myCtx)) = true := by
    simpa using hown.symm
  exact bind_ok.2 ⟨(), need_ok.2 hnames, bind_ok.2 ⟨(), need_ok.2 hmay, rfl⟩⟩

section Invalidation

variable {f : Fmt} {s u w : State} (v : Inval) (hu : release s 4 = .ok u) (hw : fenceAt u 4 = .ok w)
include hu hw

/-- After the release and the fence, the instruction ends once nothing translated through what it removed is left. -/
theorem tlbinvRun_ok (ha : heldAccess (invalidate w v) v = false) (hs : heldSegment (invalidate w v) v = false) :
    tlbinvRun f s v = .ok (passed (used f (invalidate w v))) := by
  simp [tlbinvRun, hu, hw, ha, hs, waitFor, putNone_ok, bind, Except.bind]

theorem tlbinvRun_wait (h : heldAccess (invalidate w v) v = true ∨ heldSegment (invalidate w v) v = true) :
    tlbinvRun f s v = .error (.wait (invalidate w v)) := by
  by_cases ha : heldAccess (invalidate w v) v = true
  · simp [tlbinvRun, hu, hw, ha, waitFor, hold, bind, Except.bind]
  · have hs := h.resolve_left ha
    simp [tlbinvRun, hu, hw, ha, hs, waitFor, hold, bind, Except.bind]

theorem ends_of_tlbinvRun {i : Instr} (hx : exec i s = settle (tlbinvRun f s v)) :
    (heldAccess (invalidate w v) v = false → heldSegment (invalidate w v) v = false →
      Ends i s (passed (used f (invalidate w v)))) ∧
    (heldAccess (invalidate w v) v = true ∨ heldSegment (invalidate w v) v = true →
      exec i s = settle (.error (.wait (invalidate w v)))) := by
  refine ⟨fun ha hs => ?_, fun h => ?_⟩
  · rw [Ends, hx, tlbinvRun_ok v hu hw ha hs, settle_ok]
  · rw [hx, tlbinvRun_wait v hu hw h]

end Invalidation

/-- Settles O32: each status from the first condition that holds; the invalidations from the release and the fence that
have ended and the two waits that follow. -/
theorem supervisorInstructionResults : Obligations.SupervisorInstructionResults := by
  unfold Obligations.SupervisorInstructionResults
  refine ⟨fun f s hg hsup hm hd => ?_, fun f s u w v hg hm hu hw => ⟨fun hown hc => ⟨?_, ?_⟩, ?_⟩⟩
  · have hk : keyldMay s = true := keyldMay_iff.2 ⟨hsup, hm⟩
    refine ⟨⟨?_, ?_, ?_, ?_, ?_, ?_⟩, ?_, ?_, ?_, ?_, ?_, ?_, ?_, ?_, ?_⟩
    · exact fun hw => keyld_gives hg hk (execKeyldCode_badword hw) hd
    · exact fun hw hs => keyld_gives hg hk (execKeyldCode_slotbusy hw hs) hd
    · exact fun hw hs ht => keyld_gives hg hk (execKeyldCode_noticket hw hs ht) hd
    · exact fun t d hx hw hs ht => keyld_gives hg hk (execKeyldCode_loads hw hs ht) (dstReady_x hx _)
    · exact fun ha => keyldClear_badword hg hk ha hd
    · exact fun d hx ha ha' hu => keyldClear_clears hg hk hx ha ha' hu
    · exact fun hw => ctxsw_refused hg hk (by decide) (ctxswStatus_badword hw) hd
    · exact fun hw hp => ctxsw_refused hg hk (by decide) (ctxswStatus_absent hw hp) hd
    · exact fun hw hp hs => ctxsw_refused hg hk (by decide) (ctxswStatus_swapping hw hp hs) hd
    · exact fun hw hp hs hc => ctxsw_refused hg hk (by decide) (ctxswStatus_active hw hp hs hc) hd
    · exact fun hw hp hs hc hn => ctxsw_refused hg hk (by decide) (ctxswStatus_notGranted hw hp hs hc hn) hd
    · exact fun d hx hw hp hs hc hy => ctxsw_asks hg hk hx (ctxswStatus_asked hw hp hs hc hy)
    · exact fun ha => ctxswStat_gives hg hk (ctxswWord_badword ha) hd
    · exact fun ha hs => ctxswStat_gives hg hk (ctxswWord_idle ha hs) hd
    · exact fun c ha hs => ctxswStat_gives hg hk (ctxswWord_swapping ha hs) hd
  · rintro rfl
    refine ends_of_tlbinvRun _ hu hw ?_
    rw [exec_of_privileged (i := .tlbinvPage f) rfl hm hg, tlbinvCtx_ok hown hc]
    rfl
  · rintro rfl
    refine ends_of_tlbinvRun _ hu hw ?_
    rw [exec_of_privileged (i := .tlbinvCtx f) rfl hm hg, tlbinvCtx_ok hown hc]
    rfl
  · rintro hsup rfl
    refine ends_of_tlbinvRun _ hu hw ?_
    rw [exec_of_privileged (i := .tlbinvAll f) rfl hm hg, hsup]
    rfl

end Sys2Proof.Machine
end

section
/-! PROOFS. Events of the mesh and of page walks (R47, R71 to R78, R146): what each does to the request, response or
walk that it takes. -/

namespace Sys2Proof.Machine

-- Requests reach their ports (R71, R75, R76).

section Requests

variable {s : State} {n p : Nat} {r : Request} (hr : s.reqNet[n]? = some r) (hp : r.place = .mem p)
include hr hp

/-- A request that may leave goes to its bank queue from the port's own core and to the port's inbound buffer from
another, where there is room. -/
theorem reachPort_eq (hl : leavesNow s n r = true) : reachPort s n r.kind =
    if r.agent.coreId = some (portOf s (channelOf s p)) then
      if (Tab.get [] s.bankQ (bankOf s p)).length < 16 then
        { s with
          reqNet := s.reqNet.eraseIdx n
          bankQ := Tab.put s.bankQ (bankOf s p) (Tab.get [] s.bankQ (bankOf s p) ++ [r]) }
      else s
    else if (Tab.get [] s.inbound (portOf s (channelOf s p))).length < 256 then
      pullBank { s with
        reqNet := s.reqNet.eraseIdx n
        inbound := Tab.put s.inbound (portOf s (channelOf s p))
          (Tab.get [] s.inbound (portOf s (channelOf s p)) ++ [r]) } (portOf s (channelOf s p)) (bankOf s p)
    else s := by
  simp [reachPort, hr, hp, hl]

/-- A write to memory reaches its port as the other requests do: it is for no debug window. -/
theorem reachWindow_mem : reachWindow s n = reachPort s n .write := by
  simp [reachWindow, hr, hp]

/-- The event that a request's kind names takes it to its port. -/
theorem portEvents_of_reachPort {t : State} (h : reachPort s n r.kind = t) :
    (r.kind = .read → exec (.read n) s = .next t) ∧ (r.kind = .write → exec (.write n) s = .next t) ∧
      (r.kind = .atomic → exec (.atomic n) s = .next t) := by
  subst h
  refine ⟨fun hk => ?_, fun hk => ?_, fun hk => ?_⟩ <;> rw [hk]
  · rfl
  · exact congrArg _ (reachWindow_mem hr hp)
  · rfl

end Requests

/-- A FLUSH that may leave, with no request of its hart left at its port, is answered: among the markers of a peer, or
by a response (R146). -/
theorem execFlush_answers {s : State} {n : Nat} {f : Request} (hf : s.reqNet[n]? = some f) (hk : f.kind = .flush)
    (hl : leavesNow s n f = true)
    (hq : ∀ r ∈ queued s.bankQ ++ queued s.inbound ++ s.heldAt ++ s.reqNet.take n, r.kind ≠ .flush →
      ¬ (r.ofHart f = true ∧ r.place.router s = f.place.router s))
    (hh : ∀ r ∈ s.inFlight, ¬ (r.ofHart f = true ∧ r.home = some (f.place.router s))) :
    (∀ src, f.agent = .peer src → execFlush n s = .next { s with
      reqNet := s.reqNet.eraseIdx n
      gathers := s.gathers.map (fun g =>
        if g.src == src && g.ctx == f.ctx && g.hart == f.origin then
          { g with ports := g.ports.map (fun l => l.filter (fun p => f.place != .port p)) }
        else g) }) ∧
    ((∀ src, f.agent ≠ .peer src) →
      execFlush n s = .next (respond { s with reqNet := s.reqNet.eraseIdx n } f 0 .ok)) := by
  have hhere : (queued s.bankQ ++ queued s.inbound ++ s.heldAt ++ s.reqNet.take n).any
      (fun r => r.ofHart f && r.kind != .flush && r.place.router s == f.place.router s) = false := by
    refine List.any_eq_false.2 fun r hr hits => ?_
    simp only [Bool.and_eq_true, bne_iff_ne, beq_iff_eq] at hits
    obtain ⟨⟨hof, hkind⟩, hport⟩ := hits
    exact hq r hr hkind ⟨hof, hport⟩
  have hsent : s.inFlight.any (fun r => r.ofHart f && r.home == some (f.place.router s)) = false := by
    refine List.any_eq_false.2 fun r hr hits => ?_
    simp only [Bool.and_eq_true, beq_iff_eq] at hits
    exact hh r hr hits
  refine ⟨fun src ha => ?_, fun ha => ?_⟩
  · simp only [execFlush, hf, hk, hl, hhere, hsent, ha, Bool.not_false, Bool.and_self]
  · cases hag : f.agent with
    | peer src => exact absurd hag (ha src)
    | _ => simp only [execFlush, hf, hk, hl, hhere, hsent, hag, Bool.not_false, Bool.and_self]

/-- An access to a scratchpad that may leave is performed where its region is there (R75, R474). -/
theorem execScratch_performs {s : State} {n core off : Nat} {r : Request} (hr : s.reqNet[n]? = some r)
    (hp : r.place = .spad core off) (hl : leavesNow s n r = true)
    (hready : s.ctxOf core ≠ (if r.ctx = sysCtx then s.ctxOf core else r.ctx) ∨ regionReady s core off = true) :
    execScratch n s = .next (performSpad { s with reqNet := s.reqNet.eraseIdx n } core
      (if r.ctx = sysCtx then s.ctxOf core else r.ctx) off r) := by
  have hgoes : (leavesNow s n r && (s.ctxOf core != (if r.ctx = sysCtx then s.ctxOf core else r.ctx) ||
      regionReady s core off)) = true := by
    rw [hl, Bool.true_and, Bool.or_eq_true, bne_iff_ne]
    exact hready
  simp only [execScratch, hr, hp, hgoes, if_true]

-- Bank queues and rows (R72, R73, R77, R78).

section Banks

variable {s : State} {bank n p : Nat} {r : Request} (hr : (Tab.get [] s.bankQ bank)[n]? = some r)
  (hp : r.place = .mem p)
include hr hp

theorem execColumnCommand_performs (hm : mayPerform s (Tab.get [] s.bankQ bank) n = true) :
    let q := Tab.get [] s.bankQ bank
    let rest := (q.take n).map (fun e => { e with passed := e.passed + 1 }) ++ q.drop (n + 1)
    let t := openRow (performAt { s with bankQ := Tab.put s.bankQ bank rest } p r) p rest.isEmpty
    execColumnCommand bank n s = .next (pullBank t (portOf t (channelOf t p)) bank) := by
  simp only [execColumnCommand, hr, hp, hm, if_true]

theorem execColumnCommand_stays (hm : mayPerform s (Tab.get [] s.bankQ bank) n = false) :
    execColumnCommand bank n s = .next s := by
  simp only [execColumnCommand, hr, hp, hm, Bool.false_eq_true, if_false]

end Banks

theorem execTidleExpiry_closes {s : State} {bank : Nat} (hrow : (Tab.get {} s.rowBufs bank).row.isSome = true)
    (ht : (Tab.get {} s.rowBufs bank).timer ≤ rowNow s) (hq : rowHitQueued s bank = false) :
    execTidleExpiry bank s = .next (closeRow s bank) := by
  simp [execTidleExpiry, hrow, ht, hq]

theorem execTidleExpiry_stays {s : State} {bank : Nat} (h : (Tab.get {} s.rowBufs bank).row = none ∨
    rowNow s < (Tab.get {} s.rowBufs bank).timer ∨ rowHitQueued s bank = true) : execTidleExpiry bank s = .next s := by
  refine if_neg fun hall => ?_
  simp only [Bool.and_eq_true, decide_eq_true_eq, Bool.not_eq_true'] at hall
  obtain ⟨⟨hrow, ht⟩, hq⟩ := hall
  rcases h with h | h | h
  · simp [h] at hrow
  · omega
  · simp [h] at hq

-- Answers (R75).

/-- A response that may leave arrives. -/
theorem answerNth_response {s : State} {n : Nat} {q : Response} {ks : List ReqKind} (hq : s.respNet[n]? = some q)
    (hl : answerLeaves s n q = true) (hk : ks.contains q.kind = true) :
    answerNth s n ks = arrive { s with respNet := s.respNet.eraseIdx n } q := by
  simp only [answerNth, hq, hk, hl, Bool.and_self, if_true]

/-- A request to a peer is answered by it. -/
theorem answerNth_peer {s : State} {n : Nat} {r : Request} {ks : List ReqKind} (hn : s.respNet[n]? = none)
    (hr : s.outbox[n - s.respNet.length]? = some r) (hk : ks.contains r.kind = true) :
    answerNth s n ks = peerAnswers s r (answersOf r) := by
  simp only [answerNth, hn, hr, hk, if_true]

-- Page walks (R47).

section Walks

variable {s : State} {n : Nat} {r : WalkReq} (hr : s.walkQ[n]? = some r)
include hr

theorem walkTurn_stays (hw : r.walker = none) (hf : walkerFor s n r = none) : walkTurn s n = s := by
  simp [walkTurn, hr, hw, hf]

theorem walkTurn_root_stops {w c : Nat} (hw : r.walker = none) (hf : walkerFor s n r = some w)
    (hc : rootStop s (rootOf s r.ctx) = some c) :
    walkTurn s n = walkFails s r (xlateFault c (BitVec.ofNat 64 (r.vpn * 2 ^ 16))) := by
  simp [walkTurn, hr, hw, hf, hc]

theorem walkTurn_goes_on (hw : r.walker.isSome = true) : walkTurn s n = walkStep s r := by
  simp [walkTurn, hr, hw]

end Walks

theorem walkStep_absent {s : State} {r : WalkReq}
    (ha : physOf s (r.table % 2 ^ 46 + 8 * levelIndex r.vpn r.level) = none) :
    walkStep s r = walkFails s r (xlateFault xAbsent (BitVec.ofNat 64 (r.vpn * 2 ^ 16))) := by
  simp only [walkStep, ha]

section WalkStep

variable {s t : State} {r : WalkReq} {a : Nat}
  (ha : physOf s (r.table % 2 ^ 46 + 8 * levelIndex r.vpn r.level) = some a)
include ha

theorem walkStep_waits
    (ht : trip s { kind := .read, agent := r.agent, ctx := r.ctx, place := .mem a, size := 8 } = .error (.wait t)) :
    walkStep s r = t := by
  simp only [walkStep, ha, ht]

variable {q : Response}
  (ht : trip s { kind := .read, agent := r.agent, ctx := r.ctx, place := .mem a, size := 8 } = .ok (t, q))
include ht

theorem walkStep_integrity (hst : q.status ≠ .ok) :
    walkStep s r = walkFails t r { code := .integrity, va := BitVec.ofNat 64 (r.vpn * 2 ^ 16) } := by
  simp only [walkStep, ha, ht, bne_iff_ne.2 hst, if_true]

variable (hst : q.status = .ok)
include hst

theorem walkStep_entry_stops {c : Nat} (hp : pteStop t r.level (BitVec.ofNat 64 q.data.toNat) = some c) :
    walkStep s r = walkFails t r (xlateFault c (BitVec.ofNat 64 (r.vpn * 2 ^ 16))) := by
  simp only [walkStep, ha, ht, hst, hp, bne_self_eq_false, Bool.false_eq_true, if_false]

variable (hp : pteStop t r.level (BitVec.ofNat 64 q.data.toNat) = none)
include hp

theorem walkStep_leaf (hleaf : pteLeaf (BitVec.ofNat 64 q.data.toNat) = true) :
    walkStep s r = walkLeaf t r { ctx := r.ctx, big := r.level == 2,
                                  vpn := if r.level = 2 then r.vpn / 2 ^ 13 else r.vpn,
                                  pte := BitVec.ofNat 64 q.data.toNat, entry := a } := by
  simp only [walkStep, ha, ht, hst, hp, hleaf, bne_self_eq_false, Bool.false_eq_true, if_false, if_true, beq_iff_eq]

/-- A pointer leads the walk to the next level's table, and touches no memory. -/
theorem walkStep_pointer (hleaf : pteLeaf (BitVec.ofNat 64 q.data.toNat) = false) :
    (walkStep s r).mem = t.mem ∧ (walkStep s r).walkQ = t.walkQ.map (fun w =>
      if w == r then { w with table := pteFrame (BitVec.ofNat 64 q.data.toNat) * 2 ^ 16, level := r.level + 1 }
      else w) := by
  simp only [walkStep, ha, ht, hst, hp, hleaf, bne_self_eq_false, Bool.false_eq_true, if_false, and_self]

end WalkStep

/-- Settles O41: each event from what it does to the request, response, row or walk that it takes. -/
theorem meshEventResults : Obligations.MeshEventResults := by
  unfold Obligations.MeshEventResults
  intro s n bank
  refine ⟨fun r p hr hp hl => ?_, fun f hf hk hl hq hh => ?_, fun r core off hr hp hl hready => ?_, fun r p hr hp => ?_,
    ⟨?_, ?_, ?_⟩, fun q hq hl => ?_, fun r hn hr => ?_,
    fun r hr => ⟨fun hw hf => ?_, fun w c hw hf hc => ?_, fun hw => ?_⟩⟩
  · have hreach := reachPort_eq hr hp hl
    refine ⟨fun hown hroom => ?_, fun hown hroom => ?_, fun hown hfull => ?_, fun hown hfull => ?_⟩
    · exact portEvents_of_reachPort hr hp (by rw [hreach, if_pos hown, if_pos hroom])
    · exact portEvents_of_reachPort hr hp (by rw [hreach, if_neg hown, if_pos hroom])
    · exact portEvents_of_reachPort hr hp (by rw [hreach, if_pos hown, if_neg (Nat.not_lt.2 hfull)])
    · exact portEvents_of_reachPort hr hp (by rw [hreach, if_neg hown, if_neg (Nat.not_lt.2 hfull)])
  · exact execFlush_answers hf hk hl hq hh
  · exact execScratch_performs hr hp hl hready
  · exact ⟨execColumnCommand_performs hr hp, execColumnCommand_stays hr hp⟩
  · rfl
  · exact execTidleExpiry_closes
  · exact execTidleExpiry_stays
  · refine ⟨fun hk => ?_, fun hk => ?_, fun hk => ?_⟩
    · exact congrArg _ (answerNth_response hq hl (by simp [hk]))
    · exact congrArg _ (answerNth_response hq hl (by simp [hk]))
    · exact congrArg _ (answerNth_response hq hl (by simpa using hk))
  · refine ⟨fun hk => ?_, fun hk => ?_, fun hk => ?_⟩
    · exact congrArg _ (answerNth_peer hn hr (by simp [hk]))
    · exact congrArg _ (answerNth_peer hn hr (by simp [hk]))
    · exact congrArg _ (answerNth_peer hn hr (by simp [hk]))
  · exact congrArg _ (walkTurn_stays hr hw hf)
  · exact congrArg _ (walkTurn_root_stops hr hw hf hc)
  · have hstep : exec (.pageWalk n) s = .next (walkStep s r) := congrArg _ (walkTurn_goes_on hr hw)
    rw [hstep]
    refine ⟨fun ha => ?_, fun a t ha ht => ?_, fun a t q ha ht => ⟨fun hst => ?_, fun c hst hp => ?_,
      fun hst hp hleaf => ?_, fun hst hp hleaf => ?_⟩⟩
    · rw [walkStep_absent ha]
    · rw [walkStep_waits ha ht]
    · rw [walkStep_integrity ha ht hst]
    · rw [walkStep_entry_stops ha ht hst hp]
    · rw [walkStep_leaf ha ht hst hp hleaf]
    · exact ⟨_, rfl, walkStep_pointer ha ht hst hp hleaf⟩

end Sys2Proof.Machine
end

section
/-! PROOFS. Properties of the two memories (device memory and the scratchpads) that the machine keeps: what it means
that a state, a stop or a result has one, the rules of sequences, and the canonical form (log entries 1 and 52) with the
operations that write a memory. A lemma `f_keeps` says that `f` keeps every property of the memories, or, where `f`
writes one of them, that it keeps the canonical form. -/

namespace Sys2Proof.Machine

/-- A property of device memory, and one of the scratchpads. -/
structure MemInv where
  mem : Mem → Prop
  spad : Mem → Prop

/-- The memories of a state have a property. -/
def MemInv.On (I : MemInv) (s : State) : Prop := I.mem s.mem ∧ I.spad s.spad

/-- What stops an instruction leaves memories that have it. -/
def MemInv.stop (I : MemInv) : Stop → Prop
  | .wait s => I.On s
  | .fault s _ => I.On s

/-- What stops an engine's work leaves memories that have it. -/
def MemInv.eng (I : MemInv) : EStop → Prop
  | .wait s => I.On s
  | .xlate s _ => I.On s
  | .bad s _ _ _ => I.On s

/-- What stops a launch leaves memories that have it. -/
def MemInv.launch (I : MemInv) : LaunchStop → Prop
  | .wait s => I.On s
  | .refuse s _ _ => I.On s

/-- The next state, if there is one, has it. -/
inductive MemInv.Next (I : MemInv) : Result → Prop
  | next {s : State} (h : I.On s) : I.Next (.next s)
  | fault (r : Fault) : I.Next (.fault r)
  | refused (r : Refusal) : I.Next (.refused r)

/-- A sequence's value has one property, or what stops it has another. -/
inductive Sat {ε α : Type} (E : ε → Prop) (Q : α → Prop) : Except ε α → Prop
  | ok {a : α} (h : Q a) : Sat E Q (.ok a)
  | error {e : ε} (h : E e) : Sat E Q (.error e)

section
variable {ε α β : Type} {E : ε → Prop} {R : α → Prop} {Q : β → Prop} {x : Except ε α} {k : α → Except ε β}

theorem Sat.bind (hx : Sat E R x) (hk : ∀ a, R a → Sat E Q (k a)) : Sat E Q (x >>= k) := by
  cases hx with
  | ok h => exact hk _ h
  | error h => exact .error h

theorem Sat.raise {e : ε} (h : E e) : Sat E Q ((.error e : Except ε α) >>= k) := .error h

theorem Sat.ite {c : Prop} [Decidable c] {y : Except ε α} (hx : Sat E R x) (hy : Sat E R y) :
    Sat E R (if c then x else y) := by
  split
  · exact hx
  · exact hy

theorem Sat.of_ok {a : α} (hx : Sat E R x) (h : x = .ok a) : R a := by
  subst h
  cases hx
  assumption

theorem Sat.of_error {e : ε} (hx : Sat E R x) (h : x = .error e) : E e := by
  subst h
  cases hx
  assumption

end

/-- The value, if there is one, has a property. -/
inductive Maybe {α : Type} (Q : α → Prop) : Option α → Prop
  | none : Maybe Q none
  | some {a : α} (h : Q a) : Maybe Q (some a)

theorem Maybe.of_some {α : Type} {Q : α → Prop} {o : Option α} {a : α} (h : Maybe Q o) (e : o = .some a) : Q a := by
  subst e
  cases h
  assumption

theorem Maybe.map {α β : Type} {Q : β → Prop} {o : Option α} {f : α → β} (h : ∀ a, Q (f a)) : Maybe Q (o.map f) := by
  cases o with
  | none => exact .none
  | some a => exact .some (h a)

section
variable {I : MemInv} {α : Type} {s t : State}

theorem MemInv.On.fst {x : State × α} {a : α} (hx : I.On x.1) (h : x = (t, a)) : I.On t := by
  subst h; exact hx

theorem MemInv.On.ite {c : Prop} [Decidable c] (hs : I.On s) (ht : I.On t) : I.On (if c then s else t) := by
  split
  · exact hs
  · exact ht

theorem MemInv.On.foldl {f : State → α → State} {l : List α} (h : I.On s) (hf : ∀ t a, I.On t → I.On (f t a)) :
    I.On (l.foldl f s) := by
  induction l generalizing s with
  | nil => exact h
  | cons a l ih => exact ih (hf _ _ h)

end

/-- Both memories in their canonical form. -/
def canonForm : MemInv where
  mem m := Mem.wf m = true
  spad m := Mem.wf m = true

section
variable {I : MemInv} {s : State} {c x i : Nat}

theorem State.setCore_keeps {k : Core} (hs : I.On s) : I.On (s.setCore c k) := hs
theorem State.setUnit_keeps {u : Units} (hs : I.On s) : I.On (s.setUnit c x u) := hs
theorem State.setBank_keeps {k : Hart} (hs : I.On s) : I.On (s.setBank i x k) := hs
theorem State.modMe_keeps {g : Hart → Hart} (hs : I.On s) : I.On (s.modMe g) := hs
theorem State.endSegments_keeps {j : Nat} (hs : I.On s) : I.On (s.endSegments c x j) := hs
theorem State.forsakeJob_keeps {ag : Agent} {j : Option Nat} (hs : I.On s) : I.On (s.forsakeJob ag x j) := hs
theorem State.forsakeRuns_keeps {ag : Agent} (hs : I.On s) : I.On (s.forsakeRuns ag x) := hs
theorem State.forsakeAll_keeps {ag : Agent} (hs : I.On s) : I.On (s.forsakeAll ag x) := hs

end

section
variable {I : MemInv} {s : State} {α : Type} {Q : α → Prop}

theorem fail_keeps {f : TrapInfo} (h : I.On s) : Sat I.stop Q (fail s f) := .error h

theorem hold_keeps (h : I.On s) : Sat I.stop Q (hold s) := .error h

theorem need_keeps {b : Bool} {f : TrapInfo} (h : I.On s) : Sat I.stop (fun _ => True) (need b s f) := by
  cases b
  · exact fail_keeps h
  · exact .ok trivial

theorem waitFor_keeps {b : Bool} (h : I.On s) : Sat I.stop (fun _ => True) (waitFor b s) := by
  cases b
  · exact hold_keeps h
  · exact .ok trivial

theorem State.dropAnswers_keeps (hs : I.On s) : I.On s.dropAnswers := by
  unfold State.dropAnswers
  split <;> exact hs

theorem settle_keeps {r : Act State} (h : Sat I.stop I.On r) : I.Next (settle r) := by
  cases h with
  | @ok t h => exact .next (State.dropAnswers_keeps h : I.On t.dropAnswers)
  | @error e h =>
    cases e with
    | wait t => exact .next h
    | fault t f => exact .next (State.dropAnswers_keeps h : I.On t.dropAnswers)

theorem scalarRun_keeps {f : Fmt} {body : Act State} (hs : I.On s) (h : Sat I.stop I.On body) :
    I.Next (scalarRun f s body) := by
  unfold scalarRun
  split
  · exact settle_keeps h
  · exact .next hs

theorem inRelease_keeps {r : Act α} (h : Sat I.stop Q r) : Sat I.stop Q (inRelease r) := by
  match r, h with
  | .ok _, .ok h => exact .ok h
  | .error (.wait _), .error h => exact .error h
  | .error (.fault _ _), .error h => exact .error h

theorem engFault_keeps {f : TrapInfo} (hs : I.On s) : I.eng (engFault s f) := by
  unfold engFault
  split <;> exact hs

theorem engOf_keeps {r : Act α} (h : Sat I.stop Q r) : Sat I.eng Q (engOf r) := by
  match r, h with
  | .ok _, .ok h => exact .ok h
  | .error (.wait _), .error h => exact .error h
  | .error (.fault _ _), .error h => exact .error (engFault_keeps h)

theorem keepAnswers_keeps {r : Act α} (h : Sat I.stop Q r) : Sat I.stop Q (keepAnswers s r) := by
  match r, h with
  | .ok _, .ok h => exact .ok h
  | .error (.wait _), .error h => exact .error h
  | .error (.fault _ _), .error h => exact .error h

theorem agentEvent_keeps {r : Act State} (h : Sat I.stop I.On r) : I.Next (agentEvent s r) := by
  unfold agentEvent
  match keepAnswers s r, keepAnswers_keeps (s := s) h with
  | .ok _, .ok h => exact .next h
  | .error (.wait _), .error h => exact .next h
  | .error (.fault _ _), .error h => exact .next h

theorem privileged_keeps {ok : Bool} {r : Result} (hs : I.On s) (hr : I.Next r) : I.Next (privileged ok s r) := by
  unfold privileged
  split
  · exact hr
  · exact .next hs

end

section
variable {s : State}

theorem memWrite_keeps {ctx phys : Nat} {bs : List Byte} (hs : canonForm.On s) : canonForm.On
    (memWrite s ctx phys bs) :=
  ⟨Mem.writeL_wf _ _ hs.1, hs.2⟩

theorem writeMasked_keeps {ctx phys : Nat} {d : V512} {m : W64} (hs : canonForm.On s) :
    canonForm.On (writeMasked s ctx phys d m) :=
  ⟨Mem.foldl_write_wf _ _ _ hs.1, hs.2⟩

theorem spadWrite_keeps {core ctx off : Nat} {bs : List Byte} (hs : canonForm.On s) :
    canonForm.On (spadWrite s core ctx off bs) :=
  ⟨hs.1, Mem.writeL_wf _ _ hs.2⟩

theorem storeLine_keeps {h phys major minor : Nat} {plain : V512} (hs : canonForm.On s) :
    canonForm.On (storeLine s h phys major minor plain) := by
  unfold storeLine
  dsimp only
  generalize leBytes 64 _ = bs
  exact ⟨Mem.writeL_wf _ _ hs.1, hs.2⟩

theorem spadZero_keeps {core ctx : Nat} (hs : canonForm.On s) : canonForm.On (spadZero s core ctx) :=
  ⟨hs.1, Mem.clear_wf _ _ hs.2⟩

end

end Sys2Proof.Machine
end

section
/-! PROOFS. The memories under the functions of Machine/Ops.lean. -/

namespace Sys2Proof.Machine

theorem skip_keeps {I : MemInv} {s : State} (hs : I.On s) : I.Next (skip s) := by
  unfold skip
  exact .next hs

end Sys2Proof.Machine
end

section
/-! PROOFS. The memories under the functions of Machine/Memory.lean. -/

namespace Sys2Proof.Machine

theorem pullBank_keeps {I : MemInv} {s : State} {port bank : Nat} (hs : I.On s) : I.On (pullBank s port bank) := by
  unfold pullBank
  dsimp only
  split
  · exact hs
  · split
    · exact hs
    · split <;> exact hs

theorem State.dropAhead_keeps {I : MemInv} {s : State} {ag : Agent} {ctx : Nat} {pl : Place} (hs : I.On s) :
    I.On (s.dropAhead ag ctx pl) := by
  unfold State.dropAhead
  dsimp only
  split <;> exact hs

theorem State.dropCoreAheads_keeps {I : MemInv} {s : State} {core ctx : Nat} (hs : I.On s) :
    I.On (s.dropCoreAheads core ctx) := by
  unfold State.dropCoreAheads
  dsimp only
  split <;> exact hs

theorem State.sendSeq_keeps {I : MemInv} {s : State} {p : Place} {ctx : Nat} (hs : I.On s) :
    I.On (s.sendSeq p ctx) := by
  unfold State.sendSeq
  split <;> exact hs

theorem pathFor_keeps {I : MemInv} {s : State} {r : Request} (hs : I.On s) : I.On (pathFor s r).1 := by
  unfold pathFor
  split <;> exact hs

theorem State.noteDest_keeps {I : MemInv} {s : State} {r : Request} (hs : I.On s) : I.On (s.noteDest r) := by
  unfold State.noteDest
  split
  · split
    · dsimp only
      exact hs
    · exact hs
    · exact hs
    · exact hs
  · exact hs

theorem State.sendReq_keeps {I : MemInv} {s : State} {r : Request} (hs : I.On s) : I.On (s.sendReq r) := by
  unfold State.sendReq
  dsimp only
  split
  · exact State.noteDest_keeps (MemInv.On.ite (State.dropAhead_keeps hs) (State.dropAhead_keeps hs))
  · exact State.noteDest_keeps (State.sendSeq_keeps (pathFor_keeps (State.dropAhead_keeps hs)))
  · exact State.dropAhead_keeps hs

theorem trip_keeps {I : MemInv} {s : State} {r : Request} (hs : I.On s) :
    Sat I.stop (fun p => I.On p.1) (trip s r) := by
  unfold trip
  split
  · exact .ok hs
  · split
    · exact .ok (State.dropAhead_keeps hs)
    · exact hold_keeps (MemInv.On.ite hs (MemInv.On.ite hs (State.sendReq_keeps hs)))

theorem memRead_keeps {I : MemInv} {s : State} {ctx phys n : Nat} (hs : I.On s) : I.On (memRead s ctx phys n).1 := by
  unfold memRead
  exact hs

end Sys2Proof.Machine
end

section
/-! PROOFS. The memories under the functions of Machine/Crypt.lean. -/

namespace Sys2Proof.Machine

theorem reencrypt_keeps {s : State} {h phys : Nat} (hs : canonForm.On s) : canonForm.On (reencrypt s h phys) := by
  unfold reencrypt
  dsimp only
  exact MemInv.On.foldl hs (fun t a ht => MemInv.On.ite ht (storeLine_keeps ht))

theorem encWrite_keeps {s : State} {h phys : Nat} {bs : List Byte} (hs : canonForm.On s) :
    canonForm.On (encWrite s h phys bs).1 := by
  unfold encWrite
  split
  · dsimp only
    exact hs
  · split
    · exact hs
    · dsimp only
      exact storeLine_keeps (MemInv.On.ite (reencrypt_keeps hs) hs)

theorem renewBlock_keeps {s : State} {h phys : Nat} (hs : canonForm.On s) : canonForm.On (renewBlock s h phys) := by
  unfold renewBlock
  split
  · exact hs
  · dsimp only
    exact MemInv.On.foldl hs (fun t a ht => storeLine_keeps ht)

end Sys2Proof.Machine
end

section
/-! PROOFS. The memories under the functions of Machine/Translate.lean. -/

namespace Sys2Proof.Machine

theorem requestWalk_keeps {I : MemInv} {s : State} {core ctx vpn : Nat} (hs : I.On s) :
    I.On (requestWalk s core ctx vpn) := by
  unfold requestWalk
  dsimp only
  split <;> split <;> exact hs

theorem lookup_keeps {I : MemInv} {s : State} {core ctx : Nat} {va : W64} (hs : I.On s) :
    Sat I.stop (fun _ => True) (lookup s core ctx va) := by
  unfold lookup
  dsimp only
  split
  · exact .ok trivial
  · split
    · exact hold_keeps hs
    · split
      · exact fail_keeps hs
      · exact hold_keeps (requestWalk_keeps hs)

theorem spadOf_keeps {I : MemInv} {s : State} {w : Who} {core off : Nat} {va : W64} (hs : I.On s) :
    Sat I.stop (fun _ => True) (spadOf s w core off va) := by
  unfold spadOf
  dsimp only
  split
  · exact fail_keeps hs
  · split
    · split
      · exact .ok trivial
      · exact hold_keeps hs
    · split
      · exact hold_keeps hs
      · split
        · exact fail_keeps hs
        · split
          · exact .ok trivial
          · exact hold_keeps hs

theorem window_keeps {I : MemInv} {s : State} {w : Who} {va : W64} (hs : I.On s) :
    Sat I.stop (fun _ => True) (window s w va) := by
  unfold window
  dsimp only
  split
  · split
    · exact fail_keeps hs
    · split
      · exact .ok trivial
      · exact hold_keeps hs
  · split
    · exact fail_keeps hs
    · exact spadOf_keeps hs
  · split
    · exact fail_keeps hs
    · exact spadOf_keeps hs
  · split
    · exact .ok trivial
    · exact fail_keeps hs
  · split
    · exact fail_keeps hs
    · split
      · exact fail_keeps hs
      · split
        · exact fail_keeps hs
        · exact .ok trivial
  · exact fail_keeps hs

theorem State.awaiting_keeps {I : MemInv} {s : State} {w : Who} {a : Acc} (hs : I.On s) : I.On (s.awaiting w a) := by
  unfold State.awaiting
  split <;> exact hs

theorem resolve_keeps {I : MemInv} {s : State} {w : Who} {a : Acc} {va : W64} (hs : I.On s) :
    Sat I.stop (fun _ => True) (resolve s w a va) := by
  unfold resolve
  split
  · exact fail_keeps hs
  · split
    · split
      · exact fail_keeps hs
      · exact window_keeps hs
    · dsimp only
      split
      next b t hq2 =>
        have ht := Sat.of_error (lookup_keeps hs) hq2
        refine Sat.bind (R := fun _ => True) (hold_keeps (State.awaiting_keeps ht)) fun c _ => ?_
        split
        · exact .ok trivial
        · exact fail_keeps hs
      · refine Sat.bind (lookup_keeps hs) fun c _ => ?_
        split
        · exact .ok trivial
        · exact fail_keeps hs

theorem engResolve_keeps {I : MemInv} {s : State} {w : Who} {a : Acc} {va : W64} (hs : I.On s) :
    Sat I.stop (fun p => I.On p.1) (engResolve s w a va) := by
  unfold engResolve
  split
  · exact Sat.bind (resolve_keeps hs) fun c _ => .ok hs
  · dsimp only
    split
    · split
      · exact .ok hs
      · exact Sat.bind (resolve_keeps hs) fun a1 _ => .ok hs
    · refine Sat.bind (resolve_keeps hs) fun e _ => ?_
      split <;> exact .ok hs

theorem alignedIn_keeps {I : MemInv} {windows : Bool} {s : State} {va : W64} {n : Nat} (hs : I.On s) :
    Sat I.stop (fun _ => True) (alignedIn windows s va n) := by
  unfold alignedIn
  exact Sat.bind (need_keeps hs) fun _ _ => need_keeps hs

theorem aligned_keeps {I : MemInv} {s : State} {va : W64} {n : Nat} (hs : I.On s) :
    Sat I.stop (fun _ => True) (aligned s va n) := by
  unfold aligned
  exact alignedIn_keeps hs

theorem endWalks_keeps {I : MemInv} {s : State} {test : WalkReq → Bool} (hs : I.On s) : I.On (endWalks s test) := by
  unfold endWalks
  dsimp only
  exact MemInv.On.foldl hs (fun t a ht => ht)

theorem walkLeaf_keeps {I : MemInv} {s : State} {r : WalkReq} {e : TlbEntry} (hs : I.On s) :
    I.On (walkLeaf s r e) := by
  unfold walkLeaf
  dsimp only
  exact endWalks_keeps (MemInv.On.foldl (MemInv.On.foldl hs (fun t a ht => ht)) (fun t a ht => ht))

theorem walkFails_keeps {I : MemInv} {s : State} {r : WalkReq} {f : TrapInfo} (hs : I.On s) :
    I.On (walkFails s r f) := by
  unfold walkFails
  dsimp only
  exact endWalks_keeps hs

theorem walkStep_keeps {I : MemInv} {s : State} {r : WalkReq} (hs : I.On s) : I.On (walkStep s r) := by
  unfold walkStep
  dsimp only
  split
  · exact walkFails_keeps hs
  · split
    next c t hq1 =>
      have ht := Sat.of_error (trip_keeps hs) hq1
      exact ht
    next c t d hq1 =>
      have ht := Sat.of_error (trip_keeps hs) hq1
      exact ht
    next c t d hq1 =>
      have hp := Sat.of_ok (trip_keeps hs) hq1
      split
      · exact walkFails_keeps hp
      · split
        · exact walkFails_keeps hp
        · split
          · exact walkLeaf_keeps hp
          · exact hp

theorem walkTurn_keeps {I : MemInv} {s : State} {n : Nat} (hs : I.On s) : I.On (walkTurn s n) := by
  unfold walkTurn
  split
  · exact hs
  · split
    · exact walkStep_keeps hs
    · split
      · exact hs
      · dsimp only
        split
        · exact walkFails_keeps hs
        · exact walkStep_keeps hs

theorem restartWalks_keeps {I : MemInv} {s : State} {v : Inval} (hs : I.On s) : I.On (restartWalks s v) := by
  unfold restartWalks
  dsimp only
  exact MemInv.On.foldl hs (fun t a ht => ht)

theorem dropWalked_keeps {I : MemInv} {v : Inval} {s : State} (hs : I.On s) : I.On (dropWalked v s) := by
  unfold dropWalked
  dsimp only
  split <;> exact hs

theorem invalidate_keeps {I : MemInv} {s : State} {v : Inval} (hs : I.On s) : I.On (invalidate s v) := by
  unfold invalidate
  dsimp only
  exact dropWalked_keeps (restartWalks_keeps hs)

end Sys2Proof.Machine
end

section
/-! PROOFS. The memories under the functions of Machine/Access.lean. -/

namespace Sys2Proof.Machine

theorem State.countHot_keeps {I : MemInv} {s : State} {e : TlbEntry} {phys n : Nat} (hs : I.On s) :
    I.On (s.countHot e phys n) := by
  unfold State.countHot
  split
  · dsimp only
    split <;> exact hs
  · exact hs

theorem interlock_keeps {I : MemInv} {s : State} {a : Acc} {va : W64} {n : Nat} (hs : I.On s) :
    Sat I.stop (fun _ => True) (interlock s a va n) := by
  unfold interlock
  dsimp only
  split
  · split
    · exact hold_keeps hs
    · exact .ok trivial
  · split
    · exact hold_keeps hs
    · exact .ok trivial

theorem spillOut_keeps {I : MemInv} {s : State} {core : Nat} {c : CacheLine} (hs : I.On s) :
    I.On (spillOut s core c) := by
  unfold spillOut
  split
  · exact hs
  · dsimp only
    exact hs

theorem noWay_keeps {I : MemInv} {α : Type} {Q : α → Prop} {s0 s : State} {core line : Nat} {me : Fin 4}
    (hs : I.On s0) : Sat I.stop Q (noWay s0 s core line me) := by
  unfold noWay
  dsimp only
  split
  · exact fail_keeps hs
  · split
    · exact hold_keeps hs
    · split
      · split <;> exact hold_keeps hs
      · exact hold_keeps hs

theorem wayFound_keeps {I : MemInv} {s : State} {core line : Nat} {me : Fin 4} (hs : I.On s) :
    I.On (wayFound s core line me) := by
  unfold wayFound
  refine MemInv.On.foldl hs (fun t a ht => ?_)
  split
  · exact ht
  · dsimp only
    split <;> exact ht

theorem wayFree_keeps {I : MemInv} {s : State} {core line : Nat} (hs : I.On s) :
    Maybe I.On (wayFree s core line) := by
  unfold wayFree
  dsimp only
  split
  · exact .some hs
  · split
    · exact .some hs
    · split
      · exact Maybe.map (fun d => spillOut_keeps hs)
      · exact .none

theorem freeWay_keeps {I : MemInv} {s0 s : State} {core line : Nat} {me : Fin 4} (hs0 : I.On s0) (hs : I.On s) :
    Sat I.stop I.On (freeWay s0 s core line me) := by
  unfold freeWay
  split
  next a t hq =>
    have ht := Maybe.of_some (wayFree_keeps hs) hq
    exact .ok (wayFound_keeps ht)
  · exact noWay_keeps hs0

theorem peerCheck_keeps {I : MemInv} {s : State} {st : RespStatus} {va : W64} (hs : I.On s) :
    Sat I.stop (fun _ => True) (peerCheck s st va) := by
  unfold peerCheck
  split
  · exact .ok trivial
  · exact fail_keeps hs

theorem readTrip_keeps {I : MemInv} {s : State} {dpa n : Nat} {e : TlbEntry} {va : W64} {ahead : Bool} (hs : I.On s) :
    Sat I.stop (fun p => I.On p.1) (readTrip s dpa n e va ahead) := by
  unfold readTrip
  split
  · exact fail_keeps hs
  · exact Sat.bind (trip_keeps hs) fun ⟨t, c⟩ ht => Sat.bind (peerCheck_keeps ht) fun _ _ => .ok ht

theorem eagerRead_keeps {I : MemInv} {s : State} {dpa n : Nat} {e : TlbEntry} {va : W64} (hs : I.On s) :
    Sat I.stop (fun p => I.On p.1) (eagerRead s dpa n e va) := by
  unfold eagerRead
  exact Sat.bind (readTrip_keeps hs) fun ⟨t, a⟩ ht => .ok ht

theorem State.post_keeps {I : MemInv} {s : State} {p : Place} {size : Nat} {mask : W64} {d : V512} {va : W64}
    (hs : I.On s) : I.On (s.post p size mask d va) := by
  unfold State.post
  exact State.sendReq_keeps hs

theorem chooseStatus_keeps {I : MemInv} {s : State} {l : List RespStatus} (hs : I.On s) :
    I.On (chooseStatus s l).1 := by
  unfold chooseStatus
  exact hs

theorem storeAbsent_keeps {I : MemInv} {s : State} {p : Place} {va : W64} (hs : I.On s) :
    I.On (storeAbsent s p va).1 := by
  unfold storeAbsent
  split
  · split <;> exact hs
  · exact hs

theorem storeRefusal_keeps {I : MemInv} {s : State} {p : Place} {n : Nat} {va : W64} (hs : I.On s) :
    I.On (storeRefusal s p n va).1 := by
  unfold storeRefusal
  split
  · split <;> exact hs
  · split <;> exact hs
  · exact hs

theorem refusedAs_keeps {I : MemInv} {r : State × Option TrapInfo} (hs : I.On r.1) : Sat I.stop I.On (refusedAs r) := by
  match r with
  | (_, some _) => exact fail_keeps hs
  | (_, none) => exact .ok hs

theorem sendStore_keeps {I : MemInv} {s : State} {r : Request} (hs : I.On s) : I.On (sendStore s r) := by
  unfold sendStore
  split
  · exact hs
  · exact State.sendReq_keeps hs

theorem eagerWrite_keeps {I : MemInv} {s : State} {dpa : Nat} {e : TlbEntry} {va : W64} {bs : List Byte}
    (hs : I.On s) : Sat I.stop I.On (eagerWrite s dpa e va bs) := by
  unfold eagerWrite
  split
  · exact fail_keeps hs
  · refine Sat.bind (waitFor_keeps hs) fun _ _ => ?_
    refine Sat.bind (refusedAs_keeps (storeAbsent_keeps hs)) fun t ht => ?_
    exact Sat.bind (refusedAs_keeps (storeRefusal_keeps ht)) fun u hu => .ok (sendStore_keeps hu)

theorem takeSpilled_keeps {I : MemInv} {s : State} {line : Nat} (hs : I.On s) :
    Maybe (fun p => I.On p.1) (takeSpilled s line) := by
  unfold takeSpilled
  split
  · exact .none
  · exact .some hs

theorem State.newer_keeps {I : MemInv} {s : State} {line : Nat} (hs : I.On s) : I.On (s.newer line) := by
  unfold State.newer
  dsimp only
  split
  · exact hs
  · exact MemInv.On.foldl hs (fun t c ht => MemInv.On.ite ht ht)

theorem fillLine_keeps {I : MemInv} {s : State} {line : Nat} {e : TlbEntry} {va : W64} (hs : I.On s) :
    Sat I.stop (fun p => I.On p.1) (fillLine s line e va) := by
  unfold fillLine
  exact Sat.bind (readTrip_keeps hs) fun ⟨t, a⟩ ht => .ok (State.newer_keeps ht)

theorem refresh_keeps {I : MemInv} {s : State} {c : CacheLine} {want : W64} {e : TlbEntry} {va : W64} (hs : I.On s) :
    Sat I.stop (fun p => I.On p.1) (refresh s c want e va) := by
  unfold refresh
  dsimp only
  split
  · exact .ok hs
  · split
    · split
      · exact .ok hs
      · exact Sat.bind (fillLine_keeps hs) fun ⟨t, d⟩ ht => .ok ht
    · split
      · exact .ok hs
      · exact Sat.bind (fillLine_keeps hs) fun ⟨t, b⟩ ht => .ok ht

theorem State.dropLineAheads_keeps {I : MemInv} {s : State} {line : Nat} (hs : I.On s) :
    I.On (s.dropLineAheads line) := by
  unfold State.dropLineAheads
  split
  · split <;> exact hs
  · exact hs

theorem loadLine_keeps {I : MemInv} {s : State} {line : Nat} {want : W64} {e : TlbEntry} {va : W64} (hs : I.On s) :
    Sat I.stop (fun p => I.On p.1) (loadLine s line want e va) := by
  unfold loadLine
  dsimp only
  refine Sat.bind (waitFor_keeps hs) fun _ _ => ?_
  split
  · exact Sat.bind (refresh_keeps hs) fun ⟨t, c⟩ ht => .ok (State.dropLineAheads_keeps ht)
  · split
    next b t c hq1 =>
      have hp := Maybe.of_some (takeSpilled_keeps hs) hq1
      refine Sat.bind (refresh_keeps hp) fun ⟨u, d⟩ hu => ?_
      exact Sat.bind (freeWay_keeps hs hu) fun v hv => .ok (State.dropLineAheads_keeps hv)
    · split
      · exact Sat.bind (refresh_keeps hs) fun ⟨t, a1⟩ ht => .ok (State.dropLineAheads_keeps ht)
      · refine Sat.bind (fillLine_keeps hs) fun ⟨t, d⟩ ht => ?_
        split
        · exact Sat.bind (freeWay_keeps hs ht) fun u hu => .ok hu
        · exact .ok ht

theorem phaseLine_keeps {I : MemInv} {s : State} {line : Nat} {e : TlbEntry} {va : W64} (hs : I.On s) :
    Sat I.stop (fun p => I.On p.1) (phaseLine s line e va) := by
  unfold phaseLine
  dsimp only
  refine Sat.bind (waitFor_keeps hs) fun _ _ => ?_
  split
  · exact .ok hs
  · split
    next b t c hq1 =>
      have hp := Maybe.of_some (takeSpilled_keeps hs) hq1
      exact Sat.bind (freeWay_keeps hs hp) fun u hu => .ok hu
    · split
      · exact Sat.bind (freeWay_keeps hs hs) fun t ht => .ok ht
      · exact Sat.bind (fillLine_keeps hs) fun ⟨t, d⟩ ht => Sat.bind (freeWay_keeps hs ht) fun u hu => .ok hu

theorem phaseStore_keeps {I : MemInv} {s : State} {dpa : Nat} {e : TlbEntry} {va : W64} {bs : List Byte}
    (hs : I.On s) : Sat I.stop I.On (phaseStore s dpa e va bs) := by
  unfold phaseStore
  dsimp only
  exact Sat.bind (phaseLine_keeps hs) fun ⟨t, a⟩ ht => .ok ht

theorem dropRegion_keeps {I : MemInv} {s : State} {core ctx : Nat} {r : Region} (hs : I.On s) :
    I.On (dropRegion s core ctx r) := by
  unfold dropRegion
  dsimp only
  split <;> exact hs

theorem afterInterlock_keeps {I : MemInv} {s : State} (hs : I.On s) : I.On (afterInterlock s) := by
  unfold afterInterlock
  split
  · exact hs
  · dsimp only
    exact MemInv.On.foldl hs (fun t a ht => dropRegion_keeps ht)

theorem spadLoad_keeps {I : MemInv} {s : State} {core off n : Nat} {va : W64} (hs : I.On s) :
    Sat I.stop (fun p => I.On p.1) (spadLoad s core off n va) := by
  unfold spadLoad
  dsimp only
  refine Sat.bind (waitFor_keeps hs) fun _ _ => ?_
  split
  · exact Sat.bind (waitFor_keeps hs) fun _ _ => .ok (State.dropAhead_keeps hs)
  · exact Sat.bind (trip_keeps hs) fun ⟨t, a⟩ ht => .ok ht

theorem loadAt_keeps {I : MemInv} {s : State} {t : Target} {va : W64} {n : Nat} {eager : Bool} (hs : I.On s) :
    Sat I.stop (fun p => I.On p.1) (loadAt s t va n eager) := by
  unfold loadAt
  refine Sat.bind (interlock_keeps hs) fun _ _ => ?_
  split
  · exact spadLoad_keeps (afterInterlock_keeps hs)
  · dsimp only
    split
    · exact eagerRead_keeps (afterInterlock_keeps hs)
    · exact Sat.bind (loadLine_keeps (afterInterlock_keeps hs)) fun ⟨t, d⟩ ht => .ok ht
  · exact fail_keeps hs

theorem storeAt_keeps {I : MemInv} {s : State} {t : Target} {va : W64} {bs : List Byte} {eager : Bool} (hs : I.On s) :
    Sat I.stop I.On (storeAt s t va bs eager) := by
  unfold storeAt
  split
  · refine Sat.bind (interlock_keeps hs) fun _ _ => ?_
    exact Sat.bind (waitFor_keeps hs) fun _ _ => .ok (State.post_keeps (afterInterlock_keeps hs))
  · refine Sat.bind (need_keeps hs) fun _ _ => ?_
    refine Sat.bind (interlock_keeps hs) fun _ _ => ?_
    split
    · exact eagerWrite_keeps (afterInterlock_keeps hs)
    · exact phaseStore_keeps (afterInterlock_keeps hs)
  · exact fail_keeps hs

theorem loadBytes_keeps {I : MemInv} {s : State} {va : W64} {n : Nat} {eager : Bool} (hs : I.On s) :
    Sat I.stop (fun p => I.On p.1) (loadBytes s va n eager) := by
  unfold loadBytes
  exact Sat.bind (resolve_keeps hs) fun a _ => loadAt_keeps hs

theorem loadWords_keeps {I : MemInv} {s : State} {va : W64} {step n : Nat} (hs : I.On s) :
    Sat I.stop (fun p => I.On p.1) (loadWords s va step n) := by
  induction n generalizing s va with
  | zero => exact .ok hs
  | succ n ih => exact Sat.bind (loadBytes_keeps hs) fun _ ht => Sat.bind (ih ht) fun _ hu => .ok hu

theorem publish_keeps {I : MemInv} {s : State} {line vline : Nat} {d : V512} {m : W64} {leaves : List TlbEntry}
    (hs : I.On s) : I.On (publish s line vline d m leaves) := by
  unfold publish
  split
  · exact hs
  · dsimp only
    split
    · exact hs
    · exact State.newer_keeps (sendStore_keeps hs)

theorem settleLine_keeps {I : MemInv} {s : State} {core : Nat} {c : CacheLine} (hs : I.On s) :
    I.On (settleLine s core c) := by
  unfold settleLine
  dsimp only
  split <;> exact hs

theorem publishLines_keeps {I : MemInv} {s : State} {l : List CacheLine} (hs : I.On s) : I.On (publishLines s l) := by
  induction l generalizing s with
  | nil => exact hs
  | cons c l ih => exact ih (settleLine_keeps (publish_keeps hs))

theorem settleSpill_keeps {I : MemInv} {s : State} {q : SpillLine} (hs : I.On s) : I.On (settleSpill s q) := by
  unfold settleSpill
  dsimp only
  split
  · exact hs
  · split
    next a t hq1 =>
      have ht := Maybe.of_some (wayFree_keeps hs) hq1
      exact ht
    · exact hs

theorem publishSpills_keeps {I : MemInv} {s : State} {l : List SpillLine} (hs : I.On s) :
    I.On (publishSpills s l) := by
  induction l generalizing s with
  | nil => exact hs
  | cons q l ih => exact ih (settleSpill_keeps (publish_keeps hs))

theorem publishAll_keeps {I : MemInv} {s : State} {sel : Nat → Nat → Bool} (hs : I.On s) :
    Sat I.stop I.On (publishAll s sel) := by
  unfold publishAll
  refine Sat.bind (waitFor_keeps hs) fun _ _ => ?_
  dsimp only
  split
  · exact fail_keeps hs
  · exact .ok (publishSpills_keeps (publishLines_keeps hs))

theorem takeRefusal_keeps {I : MemInv} {s : State} (hs : I.On s) : Sat I.stop (fun _ => True) (takeRefusal s) := by
  unfold takeRefusal
  split
  · exact .ok trivial
  · exact fail_keeps hs

theorem coverWait_keeps {I : MemInv} {s : State} {scope : Nat} (hs : I.On s) :
    Sat I.stop (fun _ => True) (coverWait s scope) := by
  unfold coverWait
  split
  · exact Sat.bind (waitFor_keeps hs) fun _ _ => takeRefusal_keeps hs
  · exact waitFor_keeps hs

theorem sendFlush_keeps {I : MemInv} {d : DestSet} {s : State} {r : Request} (hs : I.On s) :
    I.On (sendFlush d s r) := by
  unfold sendFlush
  split
  · dsimp only
    exact MemInv.On.foldl hs (fun t e ht => State.sendSeq_keeps ht)
  · exact hs

theorem flushFor_keeps {I : MemInv} {s : State} {ag : Agent} {ctx : Nat} {job : Option Nat} {rel : Nat} {d : DestSet}
    (hs : I.On s) : Sat I.stop I.On (flushFor s ag ctx job rel d) := by
  unfold flushFor
  dsimp only
  split
  · exact fail_keeps hs
  · split
    · exact .ok hs
    · exact hold_keeps (MemInv.On.foldl hs (fun t a ht => MemInv.On.ite ht (sendFlush_keeps ht)))

theorem flushRound_keeps {I : MemInv} {s : State} (hs : I.On s) : Sat I.stop I.On (flushRound s) := by
  unfold flushRound
  exact Sat.bind (flushFor_keeps hs) fun t ht => .ok ht

theorem performedAt_keeps {I : MemInv} {s : State} {scope : Nat} (hs : I.On s) :
    Sat I.stop I.On (performedAt s scope) := by
  unfold performedAt
  split
  · refine Sat.bind (waitFor_keeps hs) fun _ _ => ?_
    refine Sat.bind (flushRound_keeps hs) fun t ht => ?_
    exact Sat.bind (waitFor_keeps ht) fun _ _ => Sat.bind (takeRefusal_keeps ht) fun _ _ => .ok ht
  · exact Sat.bind (coverWait_keeps hs) fun _ _ => .ok hs

theorem barrierWait_keeps {I : MemInv} {s : State} {away : Bool} (hs : I.On s) :
    Sat I.stop (fun _ => True) (barrierWait s away) := by
  unfold barrierWait
  exact waitFor_keeps hs

theorem release_keeps {I : MemInv} {s : State} {scope : Nat} (hs : I.On s) : Sat I.stop I.On (release s scope) := by
  unfold release
  refine Sat.bind (barrierWait_keeps hs) fun _ _ => ?_
  refine inRelease_keeps ?_
  dsimp only
  split
  · exact Sat.bind (performedAt_keeps hs) fun t ht => Sat.bind (publishAll_keeps ht) fun u hu => performedAt_keeps hu
  · exact Sat.bind (R := I.On) (.ok hs) fun t ht => Sat.bind (publishAll_keeps ht) fun u hu => performedAt_keeps hu

theorem staleLines_keeps {I : MemInv} {s : State} {hid ctx : Nat} (hs : I.On s) : I.On (staleLines s hid ctx) := by
  unfold staleLines
  dsimp only
  exact MemInv.On.foldl (MemInv.On.ite hs hs) (fun t a ht => MemInv.On.ite ht ht)

theorem acquireFor_keeps {I : MemInv} {s : State} {hid ctx : Nat} (hs : I.On s) : I.On (acquireFor s hid ctx) := by
  unfold acquireFor
  exact staleLines_keeps hs

theorem acquire_keeps {I : MemInv} {s : State} (hs : I.On s) : I.On (acquire s) := by
  unfold acquire
  exact acquireFor_keeps hs

theorem fenceAt_keeps {I : MemInv} {s : State} {scope : Nat} (hs : I.On s) : Sat I.stop I.On (fenceAt s scope) := by
  unfold fenceAt
  exact Sat.bind (coverWait_keeps hs) fun _ _ => .ok hs

end Sys2Proof.Machine
end

section
/-! PROOFS. The memories under the functions of Machine/Rings.lean. -/

namespace Sys2Proof.Machine

theorem ringRose_keeps {I : MemInv} {s : State} {core ctx n : Nat} (hs : I.On s) : I.On (ringRose s core ctx n) := by
  unfold ringRose
  exact MemInv.On.foldl hs (fun t a ht => MemInv.On.ite ht ht)

theorem creditRose_keeps {I : MemInv} {s : State} {core ctx key : Nat} (hs : I.On s) :
    I.On (creditRose s core ctx key) := by
  unfold creditRose
  dsimp only
  split <;> exact hs

theorem unitsReady_keeps {I : MemInv} {s : State} (hs : I.On s) : Sat I.stop (fun _ => True) (unitsReady s) := by
  unfold unitsReady
  exact waitFor_keeps hs

theorem consumerEnd_keeps {I : MemInv} {s : State} {n : Fin 16} (hs : I.On s) :
    Sat I.stop (fun _ => True) (consumerEnd s n) := by
  unfold consumerEnd
  refine Sat.bind (unitsReady_keeps hs) fun _ _ => ?_
  dsimp only
  refine Sat.bind (need_keeps hs) fun _ _ => ?_
  split
  · split
    · exact fail_keeps hs
    · exact .ok trivial
  · exact fail_keeps hs
  · exact .ok trivial
  · split
    · exact .ok trivial
    · exact fail_keeps hs

theorem linkEnd_keeps {I : MemInv} {s : State} {n : Fin 16} (hs : I.On s) :
    Sat I.stop (fun _ => True) (linkEnd s n) := by
  unfold linkEnd
  dsimp only
  split
  · exact fail_keeps hs
  · split
    · exact hold_keeps hs
    · exact .ok trivial

theorem producerEnd_keeps {I : MemInv} {s : State} {n : Fin 16} (hs : I.On s) :
    Sat I.stop (fun _ => True) (producerEnd s n) := by
  unfold producerEnd
  refine Sat.bind (unitsReady_keeps hs) fun _ _ => ?_
  dsimp only
  refine Sat.bind (need_keeps hs) fun _ _ => ?_
  split
  · split
    · exact fail_keeps hs
    · exact .ok trivial
  · exact linkEnd_keeps hs
  · exact fail_keeps hs
  · split
    · exact fail_keeps hs
    · exact linkEnd_keeps hs

theorem qslot_keeps {I : MemInv} {s : State} {h : Handle} {c : Nat} (hs : I.On s) :
    Sat I.stop (fun _ => True) (qslot s h c) := by
  unfold qslot
  exact need_keeps hs

theorem qcount_keeps {I : MemInv} {s : State} {h : Handle} {n : Nat} (hs : I.On s) :
    Sat I.stop (fun _ => True) (qcount s h n) := by
  unfold qcount
  exact need_keeps hs

theorem queueRead_keeps {I : MemInv} {s : State} {n : Fin 16} {c : Fin 32} (hs : I.On s) :
    Sat I.stop (fun _ => True) (queueRead s n c) := by
  unfold queueRead
  split
  · exact .ok trivial
  · refine Sat.bind (consumerEnd_keeps hs) fun b _ => ?_
    refine Sat.bind (qslot_keeps hs) fun _ _ => ?_
    split
    · exact fail_keeps hs
    · exact Sat.bind (waitFor_keeps hs) fun _ _ => .ok trivial

theorem queueReady_keeps {I : MemInv} {s : State} {n : Fin 16} {c : Fin 32} (hs : I.On s) :
    Sat I.stop (fun _ => True) (queueReady s n c) := by
  unfold queueReady
  refine Sat.bind (producerEnd_keeps hs) fun a _ => ?_
  exact Sat.bind (qslot_keeps hs) fun _ _ => Sat.bind (waitFor_keeps hs) fun _ _ => .ok trivial

theorem slotWrite_keeps {s : State} {h : Handle} {c : Nat} {v : V512} (hs : canonForm.On s) :
    canonForm.On (slotWrite s h c v) := by
  unfold slotWrite
  split
  · exact spadWrite_keeps hs
  · exact hs

theorem publishSlots_keeps {I : MemInv} {s : State} {h : Handle} {n : Nat} (hs : I.On s) :
    I.On (publishSlots s h n) := by
  unfold publishSlots
  split
  · dsimp only
    split
    · exact ringRose_keeps hs
    · exact hs
  · dsimp only
    exact hs

theorem returnCredit_keeps {I : MemInv} {s : State} {core ctx n k : Nat} (hs : I.On s) :
    I.On (returnCredit s core ctx n k) := by
  unfold returnCredit
  split <;> exact hs

theorem markerBell_keeps {I : MemInv} {s : State} {core ctx n : Nat} (hs : I.On s) :
    I.On (markerBell s core ctx n) := by
  unfold markerBell
  dsimp only
  split
  · split <;> exact hs
  · exact hs

theorem freeSlots_keeps {I : MemInv} {s : State} {k n : Nat} (hs : I.On s) : I.On (freeSlots s k n) := by
  unfold freeSlots
  dsimp only
  exact markerBell_keeps (returnCredit_keeps hs)

theorem ringArrive_keeps {s : State} {n : Nat} (hs : canonForm.On s) : canonForm.On (ringArrive s n) := by
  unfold ringArrive
  split
  · exact hs
  · split
    · exact hs
    · dsimp only
      split
      · exact spadWrite_keeps hs
      · split
        · refine ringRose_keeps ?_
          split
          · split <;> exact hs
          · exact hs
        · split
          · split <;> exact hs
          · exact hs
      · exact markerBell_keeps hs
      · exact hs

theorem creditArrive_keeps {I : MemInv} {s : State} {n : Nat} (hs : I.On s) : I.On (creditArrive s n) := by
  unfold creditArrive
  split
  · exact hs
  · split
    · split
      · exact hs
      · dsimp only
        split
        · exact hs
        · split
          · exact hs
          · split
            · exact creditRose_keeps hs
            · exact hs
    · exact hs

end Sys2Proof.Machine
end

section
/-! PROOFS. The memories under the functions of Machine/Fetch.lean. -/

namespace Sys2Proof.Machine

theorem fetchLine_keeps {I : MemInv} {s : State} {va : W64} (hs : I.On s) :
    Sat I.stop (fun p => I.On p.1) (fetchLine s va) := by
  unfold fetchLine
  dsimp only
  split
  · exact fail_keeps hs
  · split
    · exact fail_keeps hs
    · split
      · exact .ok hs
      · refine Sat.bind (resolve_keeps hs) fun b _ => ?_
        split
        · exact Sat.bind (readTrip_keeps hs) fun ⟨t, e⟩ ht => .ok ht
        · exact fail_keeps hs

theorem fetchBytes_keeps {I : MemInv} {s : State} (hs : I.On s) : Sat I.stop (fun p => I.On p.1) (fetchBytes s) := by
  unfold fetchBytes
  dsimp only
  split
  · exact fail_keeps hs
  · refine Sat.bind (fetchLine_keeps hs) fun ⟨t, a⟩ ht => ?_
    split
    · exact .ok ht
    · exact Sat.bind (fetchLine_keeps ht) fun ⟨u, b⟩ hu => .ok hu

theorem fetchInstr_keeps {I : MemInv} {s : State} (hs : I.On s) : Sat I.stop (fun p => I.On p.1) (fetchInstr s) := by
  unfold fetchInstr
  refine Sat.bind (fetchBytes_keeps hs) fun ⟨t, a⟩ ht => ?_
  dsimp only
  split
  · exact .ok ht
  · exact fail_keeps ht

end Sys2Proof.Machine
end

section
/-! PROOFS. The memories under the functions of Machine/Graph.lean. -/

namespace Sys2Proof.Machine

theorem State.setQueue_keeps {I : MemInv} {s : State} {q : QueueId} {l : List QRec} (hs : I.On s) :
    I.On (s.setQueue q l) := by
  unfold State.setQueue
  split <;> exact hs

theorem enqueueAt_keeps {I : MemInv} {s : State} {q : QueueId} {e : QRec} (hs : I.On s) : I.On (enqueueAt s q e) := by
  unfold enqueueAt
  exact State.setQueue_keeps hs

theorem State.report_keeps {I : MemInv} {s : State} {rises : Bool} {l : List Nat} (hs : I.On s) :
    I.On (s.report rises l) := by
  induction l generalizing s with
  | nil => exact hs
  | cons k l ih =>
    unfold State.report
    dsimp only
    split <;> split
    · exact hs
    · exact ih hs
    · exact hs
    · exact ih hs

theorem State.setHead_keeps {I : MemInv} {s : State} {g core : Nat} {h : Headland} (hs : I.On s) :
    I.On (s.setHead g core h) := by
  unfold State.setHead
  dsimp only
  split
  · exact hs
  · exact State.report_keeps hs

theorem headlandAdd_keeps {I : MemInv} {s : State} {g core : Nat} (hs : I.On s) : I.On (headlandAdd s g core) := by
  unfold headlandAdd
  dsimp only
  exact State.setHead_keeps hs

theorem endRecord_keeps {I : MemInv} {s : State} {core : Nat} {r : V512} (hs : I.On s) :
    I.On (endRecord s core r) := by
  unfold endRecord
  dsimp only
  exact State.setHead_keeps hs

theorem noticeArrives_keeps {I : MemInv} {s : State} {n : Nat} (hs : I.On s) : I.On (noticeArrives s n) := by
  unfold noticeArrives
  split
  · exact hs
  · split
    · exact hs
    · dsimp only
      split
      · split <;> exact hs
      · exact State.setHead_keeps hs

theorem noticeAcked_keeps {I : MemInv} {s : State} {n : Nat} (hs : I.On s) : I.On (noticeAcked s n) := by
  unfold noticeAcked
  split
  · exact hs
  · split
    · exact hs
    · dsimp only
      exact State.setHead_keeps hs

theorem noteLate_keeps {I : MemInv} {s : State} {ctx : Nat} {deadline : W64} {r : V512} (hs : I.On s) :
    I.On (noteLate s ctx deadline r) := by
  unfold noteLate
  split
  · dsimp only
    exact hs
  · exact hs

theorem leaveSlice_keeps {I : MemInv} {s : State} {hid ctx : Nat} (hs : I.On s) : I.On (leaveSlice s hid ctx) := by
  unfold leaveSlice
  dsimp only
  split
  · exact noteLate_keeps hs
  · exact hs

theorem loseSlice_keeps {I : MemInv} {s : State} {hid ctx : Nat} (hs : I.On s) : I.On (loseSlice s hid ctx) := by
  unfold loseSlice
  dsimp only
  split
  · exact hs
  · generalize ht : (s.forsakeAll (.hart hid) ctx).setBank hid ctx _ = t
    have ht : I.On t := ht ▸ State.setBank_keeps (State.forsakeAll_keeps hs)
    split
    · split
      · exact ht
      · refine enqueueAt_keeps ?_
        split <;> exact ht
    · exact endRecord_keeps ht

theorem closeLoss_keeps {I : MemInv} {s : State} {loss : Option Nat} (hs : I.On s) : I.On (closeLoss s loss) := by
  unfold closeLoss
  split <;> exact hs

theorem discardLines_keeps {I : MemInv} {s : State} {hid ctx : Nat} (hs : I.On s) :
    I.On (discardLines s hid ctx) := by
  unfold discardLines
  dsimp only
  exact MemInv.On.ite hs hs

theorem killHart_keeps {I : MemInv} {s : State} {hid ctx : Nat} (hs : I.On s) : I.On (killHart s hid ctx) := by
  unfold killHart
  dsimp only
  exact loseSlice_keeps (discardLines_keeps hs)

theorem startSlice_keeps {I : MemInv} {s : State} {hid ctx : Nat} {e : QRec} {l : Launch} (hs : I.On s) :
    I.On (startSlice s hid ctx e l) := by
  unfold startSlice
  dsimp only
  exact acquireFor_keeps (noteLate_keeps hs)

theorem steal_keeps {I : MemInv} {s : State} {cluster : Nat} {x0 : List Nat} (hs : I.On s) :
    I.On (steal s cluster x0) := by
  induction x0 generalizing s cluster with
  | nil =>
    unfold steal
    exact hs
  | cons a l ih =>
    unfold steal
    split
    · exact enqueueAt_keeps (State.setQueue_keeps hs)
    · exact ih hs

theorem takeFrom_keeps {I : MemInv} {s : State} {q : QueueId} {test : V512 → Bool} (hs : I.On s) :
    Maybe (fun p => I.On p.1) (takeFrom s q test) := by
  unfold takeFrom
  exact Maybe.map (fun a => State.setQueue_keeps hs)

theorem ask_keeps {I : MemInv} {s : State} {core ctx : Nat} (hs : I.On s) : I.On (ask s core ctx).1 := by
  have htake {t : State} {q : QueueId} {test : V512 → Bool} {u : State} {e : QRec} (ht : I.On t)
      (h : takeFrom t q test = some (u, e)) : I.On u := (takeFrom_keeps ht).of_some h
  unfold ask
  dsimp only
  split
  next u e h =>
    split at h
    · exact htake hs h
    · cases h
  · split
    · split
      next u e h => exact htake hs h
      · exact hs
    · split
      · exact hs
      · split
        next u e h => exact htake hs h
        · split
          next u e h => exact htake (steal_keeps hs) h
          · exact steal_keeps hs

theorem dispatch_keeps {I : MemInv} {s : State} {hid : Nat} (hs : I.On s) : I.On (dispatch s hid) := by
  unfold dispatch
  split
  · dsimp only
    split
    next a t b hq1 =>
      have ht := MemInv.On.fst (ask_keeps hs) hq1
      split
      · exact startSlice_keeps ht
      · exact ht
    next a t hq1 =>
      have ht := MemInv.On.fst (ask_keeps hs) hq1
      exact ht
  · exact hs

end Sys2Proof.Machine
end

section
/-! PROOFS. The memories under the functions of Machine/Operands.lean. -/

namespace Sys2Proof.Machine

theorem src64_keeps {I : MemInv} {s : State} {o : Operand} {imm : W32} (hs : I.On s) :
    Sat I.stop (fun _ => True) (src64 s o imm) := by
  unfold src64
  split
  · exact .ok trivial
  · exact .ok trivial
  · exact .ok trivial
  · exact Sat.bind (queueRead_keeps hs) fun d _ => .ok trivial
  · exact .ok trivial
  · exact .ok trivial

theorem src512_keeps {I : MemInv} {s : State} {o : Operand} (hs : I.On s) :
    Sat I.stop (fun _ => True) (src512 s o) := by
  unfold src512
  split
  · exact .ok trivial
  · exact queueRead_keeps hs
  · exact .ok trivial

theorem dstReady_keeps {I : MemInv} {s : State} {o : Operand} (hs : I.On s) :
    Sat I.stop (fun _ => True) (dstReady s o) := by
  unfold dstReady
  split
  · exact Sat.bind (queueReady_keeps hs) fun d _ => .ok trivial
  · exact .ok trivial

theorem dst64_keeps {s : State} {o : Operand} {v : W64} (hs : canonForm.On s) :
    Sat canonForm.stop canonForm.On (dst64 s o v) := by
  unfold dst64
  split
  · exact .ok hs
  · exact .ok hs
  · exact Sat.bind (queueReady_keeps hs) fun d _ => .ok (slotWrite_keeps hs)
  · exact .ok hs

theorem dst512_keeps {s : State} {o : Operand} {v : V512} (hs : canonForm.On s) :
    Sat canonForm.stop canonForm.On (dst512 s o v) := by
  unfold dst512
  split
  · exact .ok hs
  · exact Sat.bind (queueReady_keeps hs) fun d _ => .ok (slotWrite_keeps hs)
  · exact .ok hs

theorem put64_keeps {f : Fmt} {s : State} {v : W64} (hs : canonForm.On s) :
    Sat canonForm.stop canonForm.On (put64 f s v) := by
  unfold put64
  exact Sat.bind (dstReady_keeps hs) fun _ _ => Sat.bind (dst64_keeps hs) fun t ht => .ok ht

theorem put512_keeps {f : Fmt} {s : State} {v : V512} (hs : canonForm.On s) :
    Sat canonForm.stop canonForm.On (put512 f s v) := by
  unfold put512
  exact Sat.bind (dstReady_keeps hs) fun _ _ => Sat.bind (dst512_keeps hs) fun t ht => .ok ht

theorem putNone_keeps {I : MemInv} {f : Fmt} {s : State} (hs : I.On s) : Sat I.stop I.On (putNone f s) := by
  unfold putNone
  exact .ok hs

theorem binary_keeps {f : Fmt} {s : State} {op : Nat → Nat → Nat} (hs : canonForm.On s) :
    Sat canonForm.stop canonForm.On (binary f s op) := by
  unfold binary
  exact Sat.bind (src64_keeps hs) fun a _ => Sat.bind (src64_keeps hs) fun b _ => put64_keeps hs

theorem unary_keeps {f : Fmt} {s : State} {op : Nat → Nat} (hs : canonForm.On s) :
    Sat canonForm.stop canonForm.On (unary f s op) := by
  unfold unary
  exact Sat.bind (src64_keeps hs) fun a _ => put64_keeps hs

end Sys2Proof.Machine
end

section
/-! PROOFS. The memories under the functions of Machine/Numbers.lean. -/

namespace Sys2Proof.Machine

theorem srcAt_keeps {I : MemInv} {s : State} {t : Ty} {o : Operand} (hs : I.On s) :
    Sat I.stop (fun _ => True) (srcAt s t o) := by
  unfold srcAt
  split
  · exact .ok trivial
  · exact Sat.bind (src64_keeps hs) fun b _ => .ok trivial

end Sys2Proof.Machine
end

section
/-! PROOFS. The memories under the functions of Machine/Lanes.lean. -/

namespace Sys2Proof.Machine

theorem srcLanes_keeps {I : MemInv} {s : State} {t : Ty} {o : Operand} {imm : W32} (hs : I.On s) :
    Sat I.stop (fun _ => True) (srcLanes s t o imm) := by
  unfold srcLanes
  split
  · exact .ok trivial
  · exact Sat.bind (queueRead_keeps hs) fun d _ => .ok trivial
  · exact .ok trivial
  · exact .ok trivial
  · exact .ok trivial

theorem putLanes_keeps {f : Fmt} {s : State} {w : Nat} {new : List Nat} (hs : canonForm.On s) :
    Sat canonForm.stop canonForm.On (putLanes f s w new) := by
  unfold putLanes
  dsimp only
  exact put512_keeps hs

theorem lanewise_keeps {f : Fmt} {s : State} {op : Nat → Nat → Nat} (hs : canonForm.On s) :
    Sat canonForm.stop canonForm.On (lanewise f s op) := by
  unfold lanewise
  exact Sat.bind (srcLanes_keeps hs) fun a _ => Sat.bind (srcLanes_keeps hs) fun b _ => putLanes_keeps hs

theorem lanewise1_keeps {f : Fmt} {s : State} {op : Nat → Nat} (hs : canonForm.On s) :
    Sat canonForm.stop canonForm.On (lanewise1 f s op) := by
  unfold lanewise1
  exact Sat.bind (srcLanes_keeps hs) fun a _ => putLanes_keeps hs

end Sys2Proof.Machine
end

section
/-! PROOFS. The memories under the functions of Machine/Atomics.lean. -/

namespace Sys2Proof.Machine

theorem atomicTarget_keeps {I : MemInv} {s : State} {va : W64} {n : Nat} {tagged : Bool} (hs : I.On s) :
    Sat I.stop (fun _ => True) (atomicTarget s va n tagged) := by
  unfold atomicTarget
  refine Sat.bind (alignedIn_keeps hs) fun _ _ => ?_
  refine Sat.bind (need_keeps hs) fun _ _ => ?_
  refine Sat.bind (need_keeps hs) fun _ _ => ?_
  refine Sat.bind (resolve_keeps hs) fun a _ => ?_
  split
  · exact Sat.bind (need_keeps hs) fun _ _ => .ok trivial
  · exact .ok trivial

theorem rmwTrip_keeps {I : MemInv} {s : State} {p : Place} {leaf : Option TlbEntry} {va : W64} {op : RmwOp}
    {ty : Ty} {b : Nat}
    (hs : I.On s) : Sat I.stop (fun p => I.On p.1) (rmwTrip s p leaf va op ty b) := by
  unfold rmwTrip
  exact Sat.bind (trip_keeps hs) fun ⟨t, a⟩ ht => Sat.bind (peerCheck_keeps ht) fun _ _ => .ok ht

theorem rmwOwn_keeps {s : State} {off : Nat} {op : RmwOp} {ty : Ty} {b : Nat} (hs : canonForm.On s) :
    Sat canonForm.stop (fun p => canonForm.On p.1) (rmwOwn s off op ty b) := by
  unfold rmwOwn
  dsimp only
  refine Sat.bind (waitFor_keeps hs) fun _ _ => ?_
  split
  · exact .ok (spadWrite_keeps (State.dropAhead_keeps hs))
  · exact .ok (State.dropAhead_keeps hs)

theorem rmwAt_keeps {s : State} {t : Target} {va : W64} {op : RmwOp} {ty : Ty} {b : Nat} (hs : canonForm.On s) :
    Sat canonForm.stop (fun p => canonForm.On p.1) (rmwAt s t va op ty b) := by
  unfold rmwAt
  refine Sat.bind (interlock_keeps hs) fun _ _ => ?_
  dsimp only
  split
  · split
    · exact rmwOwn_keeps (afterInterlock_keeps hs)
    · exact Sat.bind (waitFor_keeps (afterInterlock_keeps hs)) fun _ _ => rmwTrip_keeps (afterInterlock_keeps hs)
  · split
    · exact rmwTrip_keeps (afterInterlock_keeps hs)
    · exact fail_keeps (afterInterlock_keeps hs)
  · exact fail_keeps (afterInterlock_keeps hs)

theorem rmwAnswer_keeps {I : MemInv} {s : State} {va : W64} {ty : Ty} (hs : I.On s) :
    Sat I.stop (fun p => I.On p.1) (rmwAnswer s va ty) := by
  unfold rmwAnswer
  split
  · exact hold_keeps hs
  · dsimp only
    exact Sat.bind (peerCheck_keeps hs) fun _ _ => .ok hs

theorem afterRelease_keeps {I : MemInv} {α : Type} {Q : α → Prop} {f : Fmt} {s : State} {body : State → Act α}
    (hs : I.On s) (hb : ∀ t, I.On t → Sat I.stop Q (body t)) : Sat I.stop Q (afterRelease f s body) := by
  unfold afterRelease
  split
  · refine Sat.bind (release_keeps hs) fun t ht => ?_
    split
    · exact inRelease_keeps (hb t ht)
    · exact hb t ht
  · exact hb s hs

theorem atomicRun_keeps {f : Fmt} {s : State} {op : RmwOp} {b : Nat} (hs : canonForm.On s) :
    Sat canonForm.stop canonForm.On (atomicRun f s op b) := by
  unfold atomicRun
  dsimp only
  split
  · exact Sat.bind (rmwAnswer_keeps hs) fun ⟨t, a⟩ ht => put64_keeps (MemInv.On.ite (acquire_keeps ht) ht)
  · refine Sat.bind (atomicTarget_keeps hs) fun a _ => ?_
    refine Sat.bind (R := fun p => canonForm.On p.1) (afterRelease_keeps hs (fun t ht => rmwAt_keeps ht))
      fun ⟨t, c⟩ ht => ?_
    exact put64_keeps (MemInv.On.ite (acquire_keeps ht) ht)

theorem execAmo_keeps {f : Fmt} {s : State} (hs : canonForm.On s) : canonForm.Next (execAmo f s) := by
  unfold execAmo
  refine scalarRun_keeps hs ?_
  exact Sat.bind (src64_keeps hs) fun a _ => Sat.bind (dstReady_keeps hs) fun _ _ => atomicRun_keeps hs

theorem execCas_keeps {f : Fmt} {s : State} (hs : canonForm.On s) : canonForm.Next (execCas f s) := by
  unfold execCas
  refine scalarRun_keeps hs ?_
  refine Sat.bind (src64_keeps hs) fun a _ => ?_
  dsimp only
  exact atomicRun_keeps hs

theorem enterTag_keeps {I : MemInv} {s : State} {home ctx : Nat} {tag : W64} {place : Place} {op : RmwOp} {ty : Ty}
    (hs : I.On s) : I.On (enterTag s home ctx tag place op ty) := by
  unfold enterTag
  dsimp only
  split
  · exact hs
  · split <;> exact hs

theorem reduceAt_keeps {s : State} {ctx phys : Nat} {tag : Option W64} {op : RmwOp} {ty : Ty} {b : Nat}
    (hs : canonForm.On s) : canonForm.On (reduceAt s ctx phys tag op ty b).1 := by
  unfold reduceAt
  dsimp only
  split
  · split
    · exact memWrite_keeps (memRead_keeps hs)
    · exact memRead_keeps hs
  · split
    · exact hs
    · refine enterTag_keeps ?_
      split
      · exact memWrite_keeps (memRead_keeps hs)
      · exact memRead_keeps hs

theorem execAmored_keeps {I : MemInv} {f : Fmt} {s : State} (hs : I.On s) : I.Next (execAmored f s) := by
  unfold execAmored
  refine scalarRun_keeps hs ?_
  refine Sat.bind (srcAt_keeps hs) fun a _ => ?_
  dsimp only
  refine Sat.bind (atomicTarget_keeps hs) fun b _ => ?_
  refine afterRelease_keeps hs (fun t ht => ?_)
  split
  · refine Sat.bind (interlock_keeps ht) fun _ _ => ?_
    split
    · exact fail_keeps (afterInterlock_keeps ht)
    · split
      · exact fail_keeps (afterInterlock_keeps ht)
      · exact putNone_keeps (afterInterlock_keeps ht)
      · refine Sat.bind (waitFor_keeps (afterInterlock_keeps ht)) fun _ _ => ?_
        exact putNone_keeps (State.sendReq_keeps (afterInterlock_keeps ht))
  · refine Sat.bind (interlock_keeps ht) fun _ _ => ?_
    exact Sat.bind (waitFor_keeps ht) fun _ _ => putNone_keeps (State.sendReq_keeps (afterInterlock_keeps ht))
  · exact fail_keeps ht

theorem execWaitw_keeps {I : MemInv} {f : Fmt} {s : State} (hs : I.On s) : I.Next (execWaitw f s) := by
  unfold execWaitw
  refine scalarRun_keeps hs ?_
  refine Sat.bind (src64_keeps hs) fun a _ => ?_
  dsimp only
  refine Sat.bind (alignedIn_keeps hs) fun _ _ => ?_
  refine Sat.bind (need_keeps hs) fun _ _ => ?_
  refine Sat.bind (need_keeps hs) fun _ _ => ?_
  refine Sat.bind (resolve_keeps hs) fun b _ => ?_
  refine Sat.bind (loadAt_keeps hs) fun ⟨t, c⟩ ht => ?_
  split
  · exact putNone_keeps (MemInv.On.ite (acquire_keeps ht) ht)
  · exact hold_keeps ht

theorem execWaitwWake_keeps {I : MemInv} {hart : Nat} {s : State} (hs : I.On s) : I.Next (execWaitwWake hart s) := by
  unfold execWaitwWake
  dsimp only
  split <;> exact .next hs

theorem execWaitwPoll_keeps {I : MemInv} {hart : Nat} {s : State} (hs : I.On s) : I.Next (execWaitwPoll hart s) := by
  unfold execWaitwPoll
  dsimp only
  split <;> exact .next hs

theorem execPhase_keeps {I : MemInv} {f : Fmt} {s : State} (hs : I.On s) : I.Next (execPhase f s) := by
  unfold execPhase
  refine scalarRun_keeps hs ?_
  exact Sat.bind (release_keeps (MemInv.On.ite hs (acquire_keeps hs))) fun t ht => putNone_keeps ht

theorem execRel_keeps {I : MemInv} {f : Fmt} {s : State} (hs : I.On s) : I.Next (execRel f s) := by
  unfold execRel
  refine scalarRun_keeps hs ?_
  exact Sat.bind (release_keeps hs) fun t ht => putNone_keeps ht

theorem execAcq_keeps {I : MemInv} {f : Fmt} {s : State} (hs : I.On s) : I.Next (execAcq f s) := by
  unfold execAcq
  exact scalarRun_keeps hs (putNone_keeps (acquire_keeps hs))

theorem execFenceSc_keeps {I : MemInv} {f : Fmt} {s : State} (hs : I.On s) : I.Next (execFenceSc f s) := by
  unfold execFenceSc
  refine scalarRun_keeps hs ?_
  exact Sat.bind (fenceAt_keeps hs) fun t ht => putNone_keeps ht

theorem execFenceIo_keeps {I : MemInv} {f : Fmt} {s : State} (hs : I.On s) : I.Next (execFenceIo f s) := by
  unfold execFenceIo
  refine scalarRun_keeps hs ?_
  exact Sat.bind (waitFor_keeps hs) fun _ _ => Sat.bind (fenceAt_keeps hs) fun t ht => putNone_keeps ht

theorem execCinvLine_keeps {I : MemInv} {f : Fmt} {s : State} (hs : I.On s) : I.Next (execCinvLine f s) := by
  unfold execCinvLine
  dsimp only
  exact scalarRun_keeps hs (.ok (MemInv.On.ite hs hs))

theorem execCinvAll_keeps {I : MemInv} {f : Fmt} {s : State} (hs : I.On s) : I.Next (execCinvAll f s) := by
  unfold execCinvAll
  exact scalarRun_keeps hs (.ok hs)

theorem tlbinvCtx_keeps {I : MemInv} {f : Fmt} {s : State} (hs : I.On s) :
    Sat I.stop (fun _ => True) (tlbinvCtx f s) := by
  unfold tlbinvCtx
  dsimp only
  exact Sat.bind (need_keeps hs) fun _ _ => Sat.bind (need_keeps hs) fun _ _ => .ok trivial

theorem tlbinvRun_keeps {I : MemInv} {f : Fmt} {s : State} {v : Inval} (hs : I.On s) :
    Sat I.stop I.On (tlbinvRun f s v) := by
  unfold tlbinvRun
  refine Sat.bind (release_keeps hs) fun t ht => ?_
  refine Sat.bind (fenceAt_keeps ht) fun u hu => ?_
  dsimp only
  refine Sat.bind (waitFor_keeps (invalidate_keeps hu)) fun _ _ => ?_
  exact Sat.bind (waitFor_keeps (invalidate_keeps hu)) fun _ _ => putNone_keeps (invalidate_keeps hu)

theorem execTlbinvPage_keeps {I : MemInv} {f : Fmt} {s : State} (hs : I.On s) : I.Next (execTlbinvPage f s) := by
  unfold execTlbinvPage
  refine privileged_keeps hs (scalarRun_keeps hs ?_)
  exact Sat.bind (tlbinvCtx_keeps hs) fun a _ => tlbinvRun_keeps hs

theorem execTlbinvCtx_keeps {I : MemInv} {f : Fmt} {s : State} (hs : I.On s) : I.Next (execTlbinvCtx f s) := by
  unfold execTlbinvCtx
  refine privileged_keeps hs (scalarRun_keeps hs ?_)
  exact Sat.bind (tlbinvCtx_keeps hs) fun a _ => tlbinvRun_keeps hs

theorem execTlbinvAll_keeps {I : MemInv} {f : Fmt} {s : State} (hs : I.On s) : I.Next (execTlbinvAll f s) := by
  unfold execTlbinvAll
  refine privileged_keeps hs (scalarRun_keeps hs ?_)
  exact Sat.bind (need_keeps hs) fun _ _ => tlbinvRun_keeps hs

end Sys2Proof.Machine
end

section
/-! PROOFS. The memories under the functions of Machine/Csr.lean. -/

namespace Sys2Proof.Machine

theorem writeCsr_keeps {I : MemInv} {s : State} {hid ctx : Nat} {r : CReg} {v : W64} {mode : Bool} (hs : I.On s) :
    I.On (writeCsr s hid ctx r v mode) := by
  unfold writeCsr
  dsimp only
  split <;> exact hs

theorem csrUpdate_keeps {I : MemInv} {f : Fmt} {s : State} {op : W64 → W64 → W64} (hs : I.On s) :
    I.Next (csrUpdate f s op) := by
  unfold csrUpdate
  refine privileged_keeps hs (scalarRun_keeps hs ?_)
  refine Sat.bind (src64_keeps hs) fun a _ => ?_
  split
  · dsimp only
    exact .ok (writeCsr_keeps hs)
  · exact .ok hs

theorem execCsrr_keeps {f : Fmt} {s : State} (hs : canonForm.On s) : canonForm.Next (execCsrr f s) := by
  unfold execCsrr
  refine scalarRun_keeps hs ?_
  split <;> exact put64_keeps hs

theorem execCsrw_keeps {I : MemInv} {f : Fmt} {s : State} (hs : I.On s) : I.Next (execCsrw f s) := by
  unfold execCsrw
  exact csrUpdate_keeps hs

theorem execCsrs_keeps {I : MemInv} {f : Fmt} {s : State} (hs : I.On s) : I.Next (execCsrs f s) := by
  unfold execCsrs
  exact csrUpdate_keeps hs

theorem execCsrc_keeps {I : MemInv} {f : Fmt} {s : State} (hs : I.On s) : I.Next (execCsrc f s) := by
  unfold execCsrc
  exact csrUpdate_keeps hs

end Sys2Proof.Machine
end

section
/-! PROOFS. The memories under the functions of Machine/Sched.lean. -/

namespace Sys2Proof.Machine

theorem boundary_keeps {I : MemInv} {s : State} (hs : I.On s) : Maybe I.On (boundary s) := by
  unfold boundary
  dsimp only
  split
  · exact .none
  · split
    · exact .some (killHart_keeps hs)
    · split
      · exact .some hs
      · split
        · exact .some hs
        · split
          · exact .some hs
          · exact .none

theorem clearXlate_keeps {I : MemInv} {s : State} {hid : Nat} (hs : I.On s) : I.On (clearXlate s hid) := by
  unfold clearXlate
  dsimp only
  split
  · exact hs
  · split <;> exact hs

theorem noteIssue_keeps {I : MemInv} {s : State} {hid : Nat} {yield : Bool} (hs : I.On s) :
    I.On (noteIssue s hid yield) := by
  unfold noteIssue
  dsimp only
  exact clearXlate_keeps hs

theorem waitLoads_keeps {I : MemInv} {s : State} (hs : I.On s) : I.Next (waitLoads s) := by
  unfold waitLoads
  exact .next hs

end Sys2Proof.Machine
end

section
/-! PROOFS. The memories under the functions of Machine/System.lean. -/

namespace Sys2Proof.Machine

theorem execEcall_keeps {I : MemInv} {f : Fmt} {s : State} (hs : I.On s) : I.Next (execEcall f s) := by
  unfold execEcall
  exact scalarRun_keeps hs (Sat.ite (fail_keeps hs) (.ok hs))

theorem execEret_keeps {I : MemInv} {f : Fmt} {s : State} (hs : I.On s) : I.Next (execEret f s) := by
  unfold execEret
  exact privileged_keeps hs (scalarRun_keeps hs (.ok hs))

theorem execWfi_keeps {I : MemInv} {f : Fmt} {s : State} (hs : I.On s) : I.Next (execWfi f s) := by
  unfold execWfi
  exact scalarRun_keeps hs (Sat.ite (putNone_keeps hs) (hold_keeps hs))

theorem execRdtime_keeps {f : Fmt} {s : State} (hs : canonForm.On s) : canonForm.Next (execRdtime f s) := by
  unfold execRdtime
  exact scalarRun_keeps hs (put64_keeps hs)

theorem execMtrd_keeps {f : Fmt} {s : State} (hs : canonForm.On s) : canonForm.Next (execMtrd f s) := by
  unfold execMtrd
  refine scalarRun_keeps hs ?_
  dsimp only
  exact Sat.bind (dstReady_keeps hs) fun _ _ => Sat.bind (need_keeps hs) fun _ _ => put64_keeps hs

theorem execKeyldCode_keeps {I : MemInv} {s : State} {a b : W64} (hs : I.On s) : I.On (execKeyldCode s a b).2 := by
  unfold execKeyldCode
  dsimp only
  split
  · exact hs
  · split
    · exact hs
    · split <;> exact hs

theorem execKeyld_keeps {f : Fmt} {s : State} (hs : canonForm.On s) : canonForm.Next (execKeyld f s) := by
  unfold execKeyld
  exact privileged_keeps hs (scalarRun_keeps hs (put64_keeps (execKeyldCode_keeps hs)))

theorem execKeyldClear_keeps {f : Fmt} {s : State} (hs : canonForm.On s) : canonForm.Next (execKeyldClear f s) := by
  unfold execKeyldClear
  refine privileged_keeps hs (scalarRun_keeps hs ?_)
  dsimp only
  split
  · exact put64_keeps hs
  · exact Sat.bind (waitFor_keeps hs) fun _ _ => put64_keeps hs

theorem execCtxsw_keeps {f : Fmt} {s : State} (hs : canonForm.On s) : canonForm.Next (execCtxsw f s) := by
  unfold execCtxsw
  exact privileged_keeps hs (scalarRun_keeps hs (put64_keeps (MemInv.On.ite hs hs)))

theorem execCtxswStat_keeps {f : Fmt} {s : State} (hs : canonForm.On s) : canonForm.Next (execCtxswStat f s) := by
  unfold execCtxswStat
  exact privileged_keeps hs (scalarRun_keeps hs (put64_keeps hs))

theorem execInterruptEntry_keeps {I : MemInv} {hart : Nat} {s : State} (hs : I.On s) :
    I.Next (execInterruptEntry hart s) := by
  unfold execInterruptEntry
  dsimp only
  exact .next (MemInv.On.ite hs hs)

theorem execTimerMatch_keeps {I : MemInv} {hart : Nat} {s : State} (hs : I.On s) :
    I.Next (execTimerMatch hart s) := by
  unfold execTimerMatch
  exact .next hs

theorem execIssueQuantumSwitch_keeps {I : MemInv} {core : Nat} {s : State} (hs : I.On s) :
    I.Next (execIssueQuantumSwitch core s) := by
  unfold execIssueQuantumSwitch
  dsimp only
  split
  · exact .next hs
  · split <;> exact .next hs

theorem execDeadPowerDown_keeps {I : MemInv} {hart : Nat} {s : State} (hs : I.On s) :
    I.Next (execDeadPowerDown hart s) := by
  unfold execDeadPowerDown
  dsimp only
  exact .next (MemInv.On.ite hs hs)

theorem execBudgetExpiry_keeps {I : MemInv} {hart : Nat} {s : State} (hs : I.On s) :
    I.Next (execBudgetExpiry hart s) := by
  unfold execBudgetExpiry
  dsimp only
  exact .next (MemInv.On.ite hs hs)

theorem execRaiseMgmt_keeps {I : MemInv} {hart : Nat} {s : State} (hs : I.On s) : I.Next (execRaiseMgmt hart s) := by
  unfold execRaiseMgmt
  split <;> exact .next hs

end Sys2Proof.Machine
end

section
/-! PROOFS. The memories under the functions of Machine/Engines.lean. -/

namespace Sys2Proof.Machine

theorem retry_keeps {I : MemInv} {s t : State} (hs : I.On s) (ht : I.On t) : I.On (retry s t) := by
  unfold retry
  exact ⟨ht.1, hs.2⟩

theorem State.sendPosts_keeps {I : MemInv} {s : State} (hs : I.On s) : I.On (s.sendPosts) := by
  unfold State.sendPosts
  exact MemInv.On.foldl hs (fun t a ht => State.sendReq_keeps ht)

theorem engTrip_keeps {I : MemInv} {s : State} {w : Who} {r : Request} {va : W64} (hs : I.On s) :
    Sat I.eng (fun p => I.On p.1) (engTrip s w r va) := by
  unfold engTrip
  exact Sat.bind (R := fun p => I.On p.1) (engOf_keeps (trip_keeps hs)) fun ⟨t, a⟩ ht => .ok ht

theorem engRead1_keeps {I : MemInv} {s : State} {w : Who} {ag : Agent} {key : Nat} {va : W64} {n : Nat}
    (hs : I.On s) : Sat I.eng (fun p => I.On p.1) (engRead1 s w ag key va n) := by
  unfold engRead1
  refine Sat.bind (R := fun p => I.On p.1) (engOf_keeps (engResolve_keeps hs)) fun ⟨t, a⟩ ht => ?_
  dsimp only
  split
  · split
    · split
      · exact .ok ht
      · exact .error ht
    · exact Sat.bind (engTrip_keeps ht) fun ⟨u, d⟩ hu => .ok hu
  · split
    · exact .error ht
    · refine Sat.bind (engTrip_keeps ht) fun ⟨u, a1⟩ hu => ?_
      split
      · exact .ok hu
      · exact Sat.bind (R := fun _ => True) (engOf_keeps (peerCheck_keeps hu)) fun _ _ => .ok hu
  · exact .error ht

theorem engWrite1_keeps {s : State} {w : Who} {ag : Agent} {key : Nat} {va : W64} {bs : List Byte}
    (hs : canonForm.On s) : Sat canonForm.eng canonForm.On (engWrite1 s w ag key va bs) := by
  unfold engWrite1
  refine Sat.bind (R := fun p => canonForm.On p.1) (engOf_keeps (engResolve_keeps hs)) fun ⟨t, a⟩ ht => ?_
  dsimp only
  split
  · split
    · split
      · exact .ok (spadWrite_keeps ht)
      · exact .error ht
    · exact Sat.bind (engTrip_keeps ht) fun ⟨u, d⟩ hu => .ok hu
  · split
    · exact .error ht
    · split
      · exact .error ht
      · refine Sat.bind (engTrip_keeps ht) fun ⟨u, a1⟩ hu => ?_
        exact Sat.bind (R := fun _ => True) (engOf_keeps (peerCheck_keeps hu)) fun _ _ => .ok hu
  · exact .error ht

theorem engPost1_keeps {s : State} {w : Who} {ag : Agent} {key : Nat} {va : W64} {bs : List Byte}
    (hs : canonForm.On s) : Sat canonForm.eng canonForm.On (engPost1 s w ag key va bs) := by
  unfold engPost1
  refine Sat.bind (R := fun p => canonForm.On p.1) (engOf_keeps (engResolve_keeps hs)) fun ⟨t, a⟩ ht => ?_
  dsimp only
  split
  · split
    · split
      · exact engWrite1_keeps hs
      · exact .ok ht
    · exact engWrite1_keeps hs
  · exact engWrite1_keeps hs

theorem engRead_keeps {I : MemInv} {s : State} {w : Who} {ag : Agent} {key : Nat} {va : W64} {n x0 : Nat}
    (hs : I.On s) : Sat I.eng (fun p => I.On p.1) (engRead s w ag key va n x0) := by
  induction x0 generalizing s w ag key va n with
  | zero =>
    unfold engRead
    exact .ok hs
  | succ k ih =>
    unfold engRead
    split
    · exact .ok hs
    · dsimp only
      exact Sat.bind (engRead1_keeps hs) fun ⟨t, a⟩ ht => Sat.bind (ih ht) fun ⟨u, b⟩ hu => .ok hu

theorem engReadNat_keeps {I : MemInv} {s : State} {w : Who} {ag : Agent} {key : Nat} {va : W64} {n : Nat}
    (hs : I.On s) : Sat I.eng (fun p => I.On p.1) (engReadNat s w ag key va n) := by
  unfold engReadNat
  refine Sat.bind (engRead_keeps hs) fun ⟨t, a⟩ ht => ?_
  dsimp only
  split
  · exact .ok ht
  · exact .error ht

theorem State.endJob_keeps {I : MemInv} {s : State} {core : Nat} {ag : Agent} {id : Nat} (hs : I.On s) :
    I.On (s.endJob core ag id) := by
  unfold State.endJob
  dsimp only
  exact State.setUnit_keeps (State.forsakeRuns_keeps (State.forsakeJob_keeps hs))

theorem pushRelease_keeps {I : MemInv} {s : State} {reads writes : List Region} (hs : I.On s) :
    Sat I.stop I.On (pushRelease s reads writes) := by
  unfold pushRelease
  refine Sat.bind (barrierWait_keeps hs) fun _ _ => ?_
  refine inRelease_keeps ?_
  dsimp only
  refine Sat.bind (publishAll_keeps hs) fun t ht => ?_
  exact Sat.bind (waitFor_keeps ht) fun _ _ => .ok (State.dropCoreAheads_keeps ht)

theorem chainRelease_keeps {I : MemInv} {s : State} (hs : I.On s) : Sat I.stop I.On (chainRelease s) := by
  unfold chainRelease
  refine Sat.bind (barrierWait_keeps hs) fun _ _ => ?_
  exact inRelease_keeps (Sat.bind (publishAll_keeps hs) fun t ht => Sat.bind (waitFor_keeps ht) fun _ _ => .ok ht)

theorem pushCword_keeps {I : MemInv} {s : State} {cw : W64} {align : Nat} (hs : I.On s) :
    Sat I.stop (fun _ => True) (pushCword s cw align) := by
  unfold pushCword
  split
  · exact .ok trivial
  · refine Sat.bind (need_keeps hs) fun _ _ => ?_
    dsimp only
    refine Sat.bind (resolve_keeps hs) fun a _ => ?_
    split
    · exact .ok trivial
    · refine Sat.bind (need_keeps hs) fun _ _ => ?_
      split
      · exact .ok trivial
      · exact fail_keeps hs
    · exact fail_keeps hs

theorem payloadDone_keeps {I : MemInv} {s : State} {ag : Agent} {core job scope : Nat} (hs : I.On s) :
    Sat I.eng I.On (payloadDone s ag core job scope) := by
  unfold payloadDone
  dsimp only
  split
  · exact .ok hs
  · split
    · exact .error hs
    · split
      · refine Sat.bind (R := I.On) (engOf_keeps (flushFor_keeps hs)) fun t ht => ?_
        split
        · exact .error (engFault_keeps ht)
        · exact .ok (MemInv.On.ite ht ht)
      · refine Sat.bind (R := I.On) (.ok hs) fun t ht => ?_
        split
        · exact .error (engFault_keeps ht)
        · exact .ok (MemInv.On.ite ht ht)

theorem completeAt_keeps {s : State} {core : Nat} {ag : Agent} {job : Nat} {cd : Option CDest} {bs : List Byte}
    (hs : canonForm.On s) : Sat canonForm.eng canonForm.On (completeAt s core ag job cd bs) := by
  unfold completeAt
  split
  · exact .ok hs
  · dsimp only
    split
    · split
      · split
        · exact .ok (spadWrite_keeps hs)
        · exact .error hs
      · exact Sat.bind (engTrip_keeps hs) fun ⟨t, a1⟩ ht => .ok ht
    · exact Sat.bind (engTrip_keeps hs) fun ⟨t, d⟩ ht => .ok ht

/-- An event of an engine keeps what its work keeps, if what follows a stop does. -/
theorem engineEvent_keeps {I : MemInv} {s : State} {ag : Agent} {job : Option Nat} {r : Eng State}
    {onXlate : State → TrapInfo → State} {onBad : State → Nat → Nat → W64 → State} (hs : I.On s)
    (hr : Sat I.eng I.On r) (hx : ∀ t f, I.On t → I.On (onXlate t f))
    (hb : ∀ t c d va, I.On t → I.On (onBad t c d va)) : I.Next (engineEvent s ag job r onXlate onBad) := by
  have hdrop {t : State} (ht : I.On t) : I.On
      (match if ag.isDrill then none else ag.coreId with
      | some core =>
        match job with
        | some id => (t.forsakeJob ag (s.ctxOf core) job).endSegments core (s.ctxOf core) id
        | none => t.forsakeJob ag (s.ctxOf core) job
      | none => t) := by
    split
    · split <;> exact ht
    · exact ht
  unfold engineEvent
  match r, hr with
  | .ok _, .ok h => exact .next (State.sendPosts_keeps h)
  | .error (.wait _), .error h => exact .next (retry_keeps hs h)
  | .error (.xlate _ _), .error h => exact .next (hx _ _ (hdrop (retry_keeps hs h)))
  | .error (.bad _ _ _ _), .error h => exact .next (hb _ _ _ _ (hdrop (State.sendPosts_keeps h)))

end Sys2Proof.Machine
end

section
/-! PROOFS. The memories under the functions of Machine/Table.lean. -/

namespace Sys2Proof.Machine

/-- The memories of an operation's state have a property, those of the write that cannot be placed too. -/
def MemInv.Tab (I : MemInv) (t : TabSt) : Prop := I.On t.s ∧ ∀ e, t.late = some e → I.eng e

/-- A part of an operation keeps a property of the memories. -/
def MemInv.Decides (I : MemInv) {α : Type} (m : TabM α) : Prop :=
  ∀ t, I.Tab t → Sat I.eng (fun p => I.Tab p.2) (m t)

section
variable {I : MemInv} {α β : Type}

theorem TabM.pure_keeps {a : α} : I.Decides (TabM.pure a) := fun _ h => .ok h

theorem TabM.bind_keeps {x : TabM α} {g : α → TabM β} (hx : I.Decides x) (hg : ∀ a, I.Decides (g a)) :
    I.Decides (TabM.bind x g) := by
  intro t h
  unfold TabM.bind
  split
  next e => exact hg _ _ ((hx t h).of_ok e)
  next e => exact .error ((hx t h).of_error e)

theorem MemInv.Decides.ite {c : Prop} [Decidable c] {x y : TabM α} (hx : I.Decides x) (hy : I.Decides y) :
    I.Decides (if c then x else y) := by
  split
  · exact hx
  · exact hy

theorem rdTab_keeps {va : W64} {n : Nat} : I.Decides (rdTab va n) := by
  intro t h
  unfold rdTab
  split
  next e => exact .error ((engReadNat_keeps h.1).of_error e)
  next e =>
    have ht := (engReadNat_keeps h.1).of_ok e
    split <;> exact .ok ⟨ht, h.2⟩

theorem lateTab_keeps {e : EStop} (he : I.eng e) : I.Decides (lateTab e) := by
  intro t h
  refine .ok ⟨h.1, fun e' h' => ?_⟩
  cases hl : t.late with
  | none => rw [hl] at h'; cases h'; exact he
  | some f => rw [hl] at h'; cases h'; exact h.2 _ hl

theorem placeTab_keeps {va : W64} : I.Decides (placeTab va) := by
  intro t h
  have hbad (code detail : Nat) : I.eng (.bad t.s code detail va) := h.1
  unfold placeTab
  split
  next e => exact .error ((engOf_keeps (resolve_keeps h.1)).of_error e)
  next e => exact lateTab_keeps ((engOf_keeps (resolve_keeps h.1)).of_error e) t h
  · split
    · split
      · exact lateTab_keeps (hbad _ _) t h
      · split
        · exact lateTab_keeps (engFault_keeps h.1) t h
        · exact .ok h
    · exact .ok h
    · exact lateTab_keeps (hbad _ _) t h
    · exact lateTab_keeps (hbad _ _) t h

theorem emit_keeps {a : TabAct} : I.Decides (emit a) := fun _ h => .ok h

theorem seen_keeps {p : Place} {bs : List Byte} : I.Decides (seen p bs) := fun _ h => .ok h

theorem badTab_keeps {code detail : Nat} {va : W64} : I.Decides (badTab (α := α) code detail va) :=
  fun _ h => .error h.1

theorem wrTab_keeps {va : W64} {bs : List Byte} : I.Decides (wrTab va bs) :=
  TabM.bind_keeps placeTab_keeps fun _ => TabM.bind_keeps emit_keeps fun _ => seen_keeps

theorem wrNat_keeps {va : W64} {n v : Nat} : I.Decides (wrNat va n v) := wrTab_keeps

theorem forTab_keeps {g : Nat → TabM Nat} {l : List Nat} (hg : ∀ j, I.Decides (g j)) : I.Decides (forTab g l) := by
  induction l with
  | nil => exact TabM.pure_keeps
  | cons j js ih => exact TabM.bind_keeps (hg j) fun _ => TabM.bind_keeps ih fun _ => TabM.pure_keeps

end

section
variable {I : MemInv} {h : Header}

theorem headerAt_keeps {va : W64} : I.Decides (headerAt va) := by
  refine TabM.bind_keeps rdTab_keeps fun r => ?_
  dsimp only
  split
  · exact badTab_keeps
  · exact fun _ ht => .ok ht

theorem rdEntry_keeps {va : W64} : I.Decides (rdEntry va) := TabM.bind_keeps rdTab_keeps fun _ => TabM.pure_keeps

theorem ringTab_keeps : I.Decides (ringTab h) := by
  intro t ht
  unfold ringTab
  split
  · exact .ok ht
  · exact TabM.bind_keeps placeTab_keeps (fun _ => TabM.bind_keeps placeTab_keeps fun _ => TabM.pure_keeps) t ht

theorem slotTab_keeps : I.Decides (slotTab h) :=
  TabM.bind_keeps ringTab_keeps fun _ => TabM.bind_keeps placeTab_keeps fun _ _ ht => .ok ht

theorem pushPage_keeps {pg : Nat} : I.Decides (pushPage h pg) := TabM.bind_keeps slotTab_keeps fun _ => emit_keeps

theorem releasePage_keeps {pg : Nat} : I.Decides (releasePage h pg) :=
  .ite TabM.pure_keeps <| TabM.bind_keeps rdTab_keeps fun _ => .ite TabM.pure_keeps <|
    TabM.bind_keeps placeTab_keeps fun _ => TabM.bind_keeps (.ite slotTab_keeps TabM.pure_keeps) fun _ =>
      TabM.bind_keeps emit_keeps fun _ => seen_keeps

theorem addRef_keeps {pg : Nat} : I.Decides (addRef h pg) :=
  TabM.bind_keeps rdTab_keeps fun _ => TabM.bind_keeps placeTab_keeps fun _ =>
    TabM.bind_keeps emit_keeps fun _ => seen_keeps

theorem releaseEntry_keeps {e : Entry} : I.Decides (releaseEntry h e) :=
  .ite (forTab_keeps fun _ => .ite TabM.pure_keeps (TabM.bind_keeps releasePage_keeps fun _ => TabM.pure_keeps))
    TabM.pure_keeps

theorem freeEntry_keeps {va : W64} : I.Decides (freeEntry h va) :=
  TabM.bind_keeps rdEntry_keeps fun _ => .ite
    (TabM.bind_keeps releaseEntry_keeps fun _ => TabM.bind_keeps wrNat_keeps fun _ => TabM.pure_keeps) TabM.pure_keeps

theorem discard_keeps {va : W64} : I.Decides (discard h va) :=
  TabM.bind_keeps rdEntry_keeps fun _ => TabM.bind_keeps releaseEntry_keeps fun _ =>
    TabM.bind_keeps wrNat_keeps fun _ => TabM.pure_keeps

theorem copyPage_keeps {src dst : W64} {l : List Nat} : I.Decides (copyPage src dst l) := by
  induction l with
  | nil => exact TabM.pure_keeps
  | cons i is ih => exact TabM.bind_keeps rdTab_keeps fun _ => TabM.bind_keeps wrNat_keeps fun _ => ih

theorem orReturn_keeps {x : TabM Unit} {f : Nat} {go : TabM W64} (hx : I.Decides x) (hgo : I.Decides go) :
    I.Decides (orReturn x h f go) := by
  intro t ht
  have hplace := TabM.bind_keeps placeTab_keeps (fun _ => hgo) (g := fun _ => go) (x := placeTab (h.page f)) t ht
  unfold orReturn
  split
  next e => exact hgo _ ((hx t ht).of_ok e)
  · split
    next e => exact .error (hplace.of_error e)
    next e =>
      exact TabM.bind_keeps pushPage_keeps (fun _ _ hu => .ok hu) _ ⟨ht.1, (hplace.of_ok e).2⟩
  next e => exact .error ((hx t ht).of_error e)

theorem kvMap_keeps {p var : Nat} : I.Decides (kvMap h p var) := by
  unfold kvMap
  refine .ite TabM.pure_keeps (TabM.bind_keeps rdEntry_keeps fun e => ?_)
  refine .ite TabM.pure_keeps (.ite TabM.pure_keeps (TabM.bind_keeps rdTab_keeps fun c => ?_))
  refine .ite TabM.pure_keeps (.ite TabM.pure_keeps (TabM.bind_keeps rdTab_keeps fun f => ?_))
  refine TabM.bind_keeps wrNat_keeps fun _ => .ite TabM.pure_keeps (TabM.bind_keeps rdTab_keeps fun n => ?_)
  refine .ite TabM.pure_keeps (orReturn_keeps copyPage_keeps (TabM.bind_keeps wrNat_keeps fun _ => ?_))
  exact TabM.bind_keeps wrNat_keeps fun _ => TabM.bind_keeps releasePage_keeps fun _ => TabM.pure_keeps

theorem kvWin_keeps {b : Nat} : I.Decides (kvWin h b) := by
  unfold kvWin
  refine TabM.bind_keeps (.ite wrNat_keeps TabM.pure_keeps) fun _ => TabM.bind_keeps (forTab_keeps fun j => ?_) fun _ =>
    TabM.pure_keeps
  exact TabM.bind_keeps freeEntry_keeps fun _ => .ite TabM.pure_keeps freeEntry_keeps

theorem addRefs_keeps {e : Entry} : I.Decides (addRefs h e) :=
  forTab_keeps fun _ => .ite TabM.pure_keeps (TabM.bind_keeps addRef_keeps fun _ => TabM.pure_keeps)

theorem kvSwap_keeps {j var : Nat} : I.Decides (kvSwap h j var) := by
  unfold kvSwap
  refine .ite TabM.pure_keeps ?_
  dsimp only
  split
  · exact TabM.bind_keeps discard_keeps fun _ => TabM.bind_keeps rdTab_keeps fun _ =>
      TabM.bind_keeps wrNat_keeps fun _ => TabM.bind_keeps (.ite addRefs_keeps TabM.pure_keeps) fun _ => TabM.pure_keeps
  · exact TabM.bind_keeps rdTab_keeps fun _ => .ite TabM.pure_keeps <| TabM.bind_keeps rdTab_keeps fun _ =>
      TabM.bind_keeps wrNat_keeps fun _ => TabM.bind_keeps wrNat_keeps fun _ =>
        TabM.bind_keeps discard_keeps fun _ => TabM.pure_keeps
  · exact TabM.bind_keeps rdEntry_keeps fun _ => .ite TabM.pure_keeps <|
      TabM.bind_keeps discard_keeps fun _ => TabM.pure_keeps

theorem kvTrunc_keeps {n : Nat} : I.Decides (kvTrunc h n) := by
  unfold kvTrunc
  refine TabM.bind_keeps (forTab_keeps fun j => ?_) fun _ => TabM.pure_keeps
  refine TabM.bind_keeps (.ite freeEntry_keeps ?_) fun _ => .ite TabM.pure_keeps ?_
  · exact TabM.bind_keeps rdEntry_keeps fun _ => TabM.bind_keeps wrNat_keeps fun _ => TabM.pure_keeps
  · exact TabM.bind_keeps freeEntry_keeps fun _ => TabM.pure_keeps

theorem kvShare_keeps {j r p q : Nat} : I.Decides (kvShare h j r p q) :=
  TabM.bind_keeps rdEntry_keeps fun _ => TabM.bind_keeps (.ite TabM.pure_keeps rdTab_keeps) fun _ =>
    .ite (TabM.bind_keeps addRef_keeps fun _ => TabM.bind_keeps wrNat_keeps fun _ =>
      TabM.bind_keeps releasePage_keeps fun _ => TabM.pure_keeps) TabM.pure_keeps

theorem surviveBit_keeps {g : Nat} : I.Decides (surviveBit h g) :=
  TabM.bind_keeps rdEntry_keeps fun _ => TabM.bind_keeps wrNat_keeps fun _ => TabM.pure_keeps

end

section
variable {I : MemInv} {x : Stream} {a b : W64}

theorem streamAt_keeps : I.Decides (streamAt a) := by
  refine TabM.bind_keeps rdTab_keeps fun r => ?_
  dsimp only
  split
  · exact badTab_keeps
  · exact TabM.pure_keeps

theorem casInsert_keeps {d new : Nat} : I.Decides (casInsert a d new) :=
  TabM.bind_keeps rdTab_keeps fun _ => .ite (TabM.bind_keeps wrNat_keeps fun _ => TabM.pure_keeps) TabM.pure_keeps

theorem tableAt_keeps {s : State} {w : Who} (hs : I.On s) : Sat I.stop (fun _ => True) (tableAt s w a) := by
  unfold tableAt
  refine Sat.bind (need_keeps hs) fun _ _ => Sat.bind (need_keeps hs) fun _ _ => Sat.bind (need_keeps hs) fun _ _ => ?_
  refine Sat.bind (resolve_keeps hs) fun t _ => ?_
  split
  · refine Sat.bind (need_keeps hs) fun _ _ => ?_
    split
    · exact .ok trivial
    · exact fail_keeps hs
  · exact fail_keeps hs

theorem placeTable_keeps : I.Decides (placeTable x) := by
  intro t h
  unfold placeTable
  split
  · exact .ok h
  next e => exact .error ((engOf_keeps (tableAt_keeps h.1)).of_error e)

theorem sendOp_keeps {op : TabOp} : I.Decides (sendOp x op) := by
  intro t h
  unfold sendOp
  split
  next e =>
    have hu : I.Tab _ := (placeTable_keeps t h).of_ok e
    exact .ok hu
  next e => exact .error ((placeTable_keeps t h).of_error e)
  · exact .ok h
  · exact .ok h

theorem stFrame_keeps {stamp ctx : Nat} : I.Decides (stFrame a stamp ctx) := by
  refine TabM.bind_keeps streamAt_keeps fun x => .ite badTab_keeps <| TabM.bind_keeps wrNat_keeps fun _ => ?_
  refine TabM.bind_keeps wrNat_keeps fun _ => TabM.bind_keeps (.ite emit_keeps TabM.pure_keeps) fun _ => ?_
  refine TabM.bind_keeps (forTab_keeps fun i => ?_) fun _ => TabM.bind_keeps sendOp_keeps fun _ => TabM.pure_keeps
  exact .ite (TabM.bind_keeps wrNat_keeps fun _ => TabM.pure_keeps) TabM.pure_keeps

theorem stGen_keeps : I.Decides (stGen a b) := by
  refine TabM.bind_keeps streamAt_keeps fun x => .ite TabM.pure_keeps <| TabM.bind_keeps placeTable_keeps fun _ => ?_
  refine TabM.bind_keeps headerAt_keeps fun h => .ite TabM.pure_keeps <| TabM.bind_keeps rdEntry_keeps fun e => ?_
  refine .ite TabM.pure_keeps <| TabM.bind_keeps sendOp_keeps fun _ => ?_
  exact TabM.bind_keeps (.ite TabM.pure_keeps wrNat_keeps) fun _ => TabM.bind_keeps wrNat_keeps fun _ => TabM.pure_keeps

theorem stPlay_keeps : I.Decides (stPlay a b) :=
  TabM.bind_keeps streamAt_keeps fun _ => TabM.bind_keeps wrNat_keeps fun _ => TabM.pure_keeps

theorem TabOp.decide_keeps {ctx : Nat} {op : TabOp} : I.Decides (op.decide a ctx) := by
  have htable {g : Header → TabM W64} (hg : ∀ h, I.Decides (g h)) :
      I.Decides (TabM.bind (headerAt a) fun h => TabM.bind (g h) fun v => TabM.pure [v]) :=
    TabM.bind_keeps headerAt_keeps fun h => TabM.bind_keeps (hg h) fun _ => TabM.pure_keeps
  cases op with
  | map p var => exact htable fun _ => kvMap_keeps
  | win b => exact htable fun _ => kvWin_keeps
  | swap j var => exact htable fun _ => kvSwap_keeps
  | trunc t => exact htable fun _ => kvTrunc_keeps
  | share j r p q => exact htable fun _ => kvShare_keeps
  | insert at_ d new => exact TabM.bind_keeps casInsert_keeps fun _ => TabM.pure_keeps
  | frame stamp => exact stFrame_keeps
  | gen b => exact stGen_keeps
  | play b => exact stPlay_keeps
  | survive g => exact htable fun _ => surviveBit_keeps

theorem EStop.asFault_keeps {α : Type} {Q : α → Prop} {e : EStop} (he : I.eng e) : Sat I.stop Q e.asFault := by
  cases e with
  | wait s => exact hold_keeps he
  | xlate s f => exact fail_keeps he
  | bad s code detail va => exact fail_keeps he

/-- An operation begins on a unit's state. -/
theorem MemInv.Tab.init {s : State} {r : TableRun} {w : Who} {ag : Agent} (hs : I.On s) :
    I.Tab { s := s, run := r, w := w, ag := ag } := ⟨hs, fun _ h => by cases h⟩

theorem RetRing.next_keeps {g : RetRing} {s : State} {w : Who} (hs : I.On s) :
    Sat I.stop (fun _ => True) (g.next s w) := by
  unfold RetRing.next
  split
  · exact .ok trivial
  · split
    · exact .ok trivial
    next e => exact .error ((resolve_keeps hs).of_error e)
    · exact .ok trivial

theorem TableRun.findRing_keeps {r : TableRun} {s : State} {u : Nat} (hs : I.On s) :
    Sat I.stop (fun p => I.On p.1) (r.findRing s u) := by
  have hslot := slotTab_keeps (h := { t := r.table, r := r.header })
    { s := s, run := r, w := r.who, ag := .table u } (MemInv.Tab.init hs)
  unfold TableRun.findRing
  split
  next e =>
    obtain ⟨ht, hlate⟩ := hslot.of_ok e
    split
    · exact .ok ht
    next e => exact EStop.asFault_keeps (hlate _ e)
  next e => exact EStop.asFault_keeps (hslot.of_error e)

end

end Sys2Proof.Machine
end

section
/-! PROOFS. The memories under the functions of Machine/Layout.lean. -/

namespace Sys2Proof.Machine

theorem readElem_keeps {I : MemInv} {s : State} {w : Who} {ag : Agent} {r : Nat} {i : List Int} (hs : I.On s) :
    Sat I.eng (fun p => I.On p.1) (readElem s w ag r i) := by
  unfold readElem
  dsimp only
  refine Sat.bind (engRead_keeps hs) fun ⟨t, a⟩ ht => ?_
  split <;> exact .ok ht

theorem windowElem_keeps {I : MemInv} {s : State} {w : Who} {ag : Agent} {r : Nat} {i : List Int} (hs : I.On s) :
    Sat I.eng (fun p => I.On p.1) (windowElem s w ag r i) := by
  unfold windowElem
  split
  · exact readElem_keeps hs
  · split
    · exact .ok hs
    · exact readElem_keeps hs

/-- A part of a run of elements leaves memories with a property, at what stops it too. -/
def MemInv.Part (I : MemInv) {α : Type} (p : State × α × Option EStop) : Prop :=
  I.On p.1 ∧ ∀ e, p.2.2 = some e → I.eng e

theorem MemInv.Part.whole {I : MemInv} {α : Type} {s : State} {a : α} (h : I.On s) : I.Part (s, a, none) :=
  ⟨h, fun _ h => by cases h⟩

theorem MemInv.Part.stopped {I : MemInv} {α : Type} {s : State} {a : α} {e : EStop} (h : I.On s) (he : I.eng e) :
    I.Part (s, a, some e) := ⟨h, fun _ h => by cases h; exact he⟩

theorem MemInv.Part.on {I : MemInv} {α : Type} {p : State × α × Option EStop} {t : State} {a : α} {o : Option EStop}
    (h : I.Part p) (e : p = (t, a, o)) : I.On t := by
  subst e; exact h.1

theorem MemInv.Part.stop {I : MemInv} {α : Type} {p : State × α × Option EStop} {t : State} {a : α} {e : EStop}
    (h : I.Part p) (hp : p = (t, a, some e)) : I.eng e := by
  subst hp; exact h.2 _ rfl

theorem MemInv.Part.ite {I : MemInv} {α : Type} {p q : State × α × Option EStop} {c : Prop} [Decidable c]
    (hp : I.Part p) (hq : I.Part q) : I.Part (if c then p else q) := by
  split
  · exact hp
  · exact hq

theorem MemInv.Part.map {I : MemInv} {α β : Type} {p : State × α × Option EStop} {b : β} (h : I.Part p) :
    I.Part (p.1, b, p.2.2) := h

/-- What stopped a part stops the whole. -/
theorem MemInv.Part.stops {I : MemInv} {α β : Type} {p : State × α × Option EStop} {b : β} {e : EStop} (h : I.Part p)
    (hp : p.2.2 = some e) : I.Part (p.1, b, some e) := ⟨h.1, fun _ h' => by cases h'; exact h.2 _ hp⟩

theorem readRun_keeps {I : MemInv} {s : State} {w : Who} {ag : Agent} {key : Nat} {va : W64} {n fuel : Nat}
    (hs : I.On s) : I.Part (readRun s w ag key va n fuel) := by
  induction fuel generalizing s va n with
  | zero => exact .whole hs
  | succ fuel ih =>
    unfold readRun
    split
    · exact .whole hs
    · dsimp only
      split
      next e => exact .stopped hs ((engRead1_keeps hs).of_error e)
      next e =>
        have ht := (engRead1_keeps hs).of_ok e
        exact .map (ih ht)

theorem deliverEach_keeps {I : MemInv} {s : State} {f : State → Nat → Eng (State × Option Nat)} {l : List Nat}
    (hs : I.On s) (hf : ∀ t p, I.On t → Sat I.eng (fun p => I.On p.1) (f t p)) : I.Part (deliverEach s f l) := by
  induction l generalizing s with
  | nil => exact .whole hs
  | cons p ps ih =>
    unfold deliverEach
    split
    next e => exact .stopped hs ((hf _ _ hs).of_error e)
    next e =>
      have ht := (hf _ _ hs).of_ok e
      exact .map (ih ht)

theorem rowElems_keeps {I : MemInv} {s : State} {w : Who} {ag : Agent} {r : Nat} {i : List Int} {n : Nat}
    (hs : I.On s) : I.Part (rowElems s w ag r i n) := by
  have hone {t : State} (l : List Nat) (ht : I.On t) :=
    deliverEach_keeps (I := I) (f := fun s p => windowElem s w ag r ((idx i 0 + p) :: i.drop 1)) (l := l) ht
      fun _ _ h => windowElem_keeps h
  unfold rowElems
  dsimp only
  split
  next e => exact (hone _ hs).stops e
  · split
    next e => exact .stops (.ite (readRun_keeps (hone _ hs).1) (.whole (hone _ hs).1)) e
    · exact .map (hone _ (MemInv.Part.ite (readRun_keeps (hone _ hs).1) (.whole (hone _ hs).1)).1)

theorem readRecord_keeps {I : MemInv} {s : State} {w : Who} {ag : Agent} {va : W64} (hs : I.On s) :
    Sat I.eng (fun p => I.On p.1) (readRecord s w ag va) := by
  unfold readRecord
  exact engReadNat_keeps hs

end Sys2Proof.Machine
end

section
/-! PROOFS. The memories under the functions of Machine/Table.lean. -/

namespace Sys2Proof.Machine

theorem noteLine_keeps {I : MemInv} {s : State} {hid ctx : Nat} (hs : I.On s) : I.On (noteLine s hid ctx) := by
  unfold noteLine
  split
  · exact hs
  · split <;> exact hs

theorem TableRun.sends_keeps {I : MemInv} {r : TableRun} {u : Nat} {s : State} {va : W64} {p : Place}
    {leaf : Option TlbEntry} {bs : List Byte}
    (hs : I.On s) : I.On (TableRun.sends r u s va p leaf bs) := by
  unfold TableRun.sends
  exact State.sendReq_keeps hs

theorem actStep_keeps {I : MemInv} {s : State} {u : Nat} {r : TableRun} (hs : I.On s) : I.On (actStep s u r).1 := by
  unfold actStep
  split
  · exact hs
  · dsimp only
    split
    · split
      · exact hs
      · exact TableRun.sends_keeps hs
    · split
      · exact hs
      · exact State.sendReq_keeps hs
    · exact noteLine_keeps hs
    · split
      next a3 t a4 hq1 =>
        have hp := Sat.of_ok (trip_keeps hs) hq1
        exact hp
      next a3 t hq1 =>
        have ht := Sat.of_error (trip_keeps hs) hq1
        exact ht
      next a3 t a4 hq1 =>
        have ht := Sat.of_error (trip_keeps hs) hq1
        exact ht
    · split
      · split
        next a1 t hq2 =>
          have ht := Sat.of_error (TableRun.findRing_keeps hs) hq2
          exact ht
        next a1 t a2 hq2 =>
          have ht := Sat.of_error (TableRun.findRing_keeps hs) hq2
          exact ht
        next a1 t a2 hq2 =>
          have hp := Sat.of_ok (TableRun.findRing_keeps hs) hq2
          exact hp
      · split
        next a2 t hq2 =>
          have ht := Sat.of_error (trip_keeps hs) hq2
          exact ht
        next a2 t a3 hq2 =>
          have ht := Sat.of_error (trip_keeps hs) hq2
          exact ht
        next a2 t a3 hq2 =>
          have hp := Sat.of_ok (trip_keeps hs) hq2
          split
          · exact hp
          · split
            · exact hp
            · split
              · exact hp
              · split
                next a4 v hq6 =>
                  have hv := Sat.of_error (RetRing.next_keeps hp) hq6
                  exact hv
                next a4 v a5 hq6 =>
                  have hv := Sat.of_error (RetRing.next_keeps hp) hq6
                  exact hv
                · exact hp
                · exact TableRun.sends_keeps (TableRun.sends_keeps hp)

theorem runActs_keeps {I : MemInv} {s : State} {u : Nat} {r : TableRun} {w0 : Nat} (hs : I.On s) :
    I.On (runActs s u r w0).1 := by
  induction w0 generalizing s u r with
  | zero =>
    unfold runActs
    exact hs
  | succ k ih =>
    unfold runActs
    split
    next a t b hq =>
      have ht := MemInv.On.fst (actStep_keeps hs) hq
      exact ih ht
    next a t b hq =>
      have ht := MemInv.On.fst (actStep_keeps hs) hq
      exact ht

theorem endRun_keeps {I : MemInv} {s : State} {u : Nat} {r : TableRun} (hs : I.On s) : I.On (endRun s u r) := by
  unfold endRun
  dsimp only
  exact hs

theorem failRun_keeps {I : MemInv} {s : State} {u : Nat} {r : TableRun} {f : TrapInfo} (hs : I.On s) :
    I.On (failRun s u r f) := by
  unfold failRun
  exact endRun_keeps hs

theorem decideRun_keeps {I : MemInv} {s : State} {u : Nat} {r : TableRun} (hs : I.On s) : I.On (decideRun s u r) := by
  have hop := TabOp.decide_keeps (a := r.va) (ctx := r.ctx) (op := r.op) _
    (MemInv.Tab.init (r := r) (w := r.who) (ag := .table u) hs)
  unfold decideRun
  extract_lets decided
  have hd : Sat I.eng (fun p => I.Tab p.2) decided := by
    unfold decided
    split
    next e => exact .error (hop.of_error e)
    next e =>
      split
      next e' => exact .error ((hop.of_ok e).2 _ e')
      · exact .ok (hop.of_ok e)
  match decided, hd with
  | .error (.wait _), .error h => exact retry_keeps hs h
  | .error (.xlate _ _), .error h => exact failRun_keeps h
  | .error (.bad _ _ _ _), .error h => exact failRun_keeps h
  | .ok (_, t), .ok h =>
    have ht : I.On t.s := h.1
    dsimp only
    split <;> exact ht

theorem peerRun_keeps {I : MemInv} {s : State} {u : Nat} {r : TableRun} (hs : I.On s) : I.On (peerRun s u r) := by
  unfold peerRun
  extract_lets answer
  have ha : Sat I.stop (fun p => I.On p.1) answer := Sat.bind (tableAt_keeps hs) fun _ _ => trip_keeps hs
  match answer, ha with
  | .error (.wait _), .error h => exact h
  | .error (.fault _ _), .error h => exact failRun_keeps h
  | .ok (_, _), .ok h =>
    dsimp only
    split
    · exact failRun_keeps h
    · exact endRun_keeps h

theorem execTableOperation_keeps {I : MemInv} {device port : Nat} {s : State} (hs : I.On s) :
    I.Next (execTableOperation device port s) := by
  unfold execTableOperation
  dsimp only
  split
  · exact .next hs
  · split
    · exact .next (peerRun_keeps hs)
    · split
      · exact .next (decideRun_keeps hs)
      · split
        · exact .next (endRun_keeps (runActs_keeps hs))
        · exact .next (runActs_keeps hs)

/-- What an operation has come to leaves memories that have a property. -/
def MemInv.Ended (I : MemInv) : TabEnd → Prop
  | .waits s => I.On s
  | .done s _ _ => I.On s

theorem tableOp_keeps {I : MemInv} {s : State} {w : Who} {ag : Agent} {p : Place} {va : W64} {op : TabOp}
    (hs : I.On s) : I.Ended (tableOp s w ag p va op) := by
  unfold tableOp
  split
  · dsimp only
    split <;> exact hs
  · split <;> exact hs

theorem tableAct_keeps {I : MemInv} {s : State} {va : W64} {op : TabOp} (hs : I.On s) :
    Sat I.stop (fun p => I.On p.1) (tableAct s va op) := by
  unfold tableAct
  extract_lets ag w sends
  have hsends {t : State} (ht : I.On t) : Sat I.stop (fun p => I.On p.1) (sends t) := by
    have hend {p : Place} := tableOp_keeps (w := w) (ag := ag) (p := p) (va := va) (op := op) ht
    unfold sends
    extract_lets asks
    have hasks {p : Place} : Sat I.stop (fun p => I.On p.1) (asks p) := by
      unfold asks
      split
      next e =>
        have hu : I.Ended _ := e ▸ hend
        split <;> exact hold_keeps hu
      next e =>
        have hu : I.Ended _ := e ▸ hend
        exact fail_keeps hu
      next e =>
        have hu : I.Ended _ := e ▸ hend
        exact .ok (acquire_keeps hu)
    split
    · exact Sat.bind (tableAt_keeps ht) fun _ _ => hasks
    · exact hasks
  split
  · exact Sat.bind (tableAt_keeps hs) fun _ _ => Sat.bind (release_keeps hs) fun _ ht => hsends ht
  · exact hsends hs

theorem tableInstr_keeps {f : Fmt} {s : State} {op : W64 → TabOp} (hs : canonForm.On s) :
    canonForm.Next (tableInstr f s op) := by
  unfold tableInstr
  refine scalarRun_keeps hs ?_
  refine Sat.bind (src64_keeps hs) fun a _ => ?_
  exact Sat.bind (dstReady_keeps hs) fun _ _ => Sat.bind (tableAct_keeps hs) fun ⟨t, b⟩ ht => put64_keeps ht

theorem execKvmap_keeps {f : Fmt} {s : State} (hs : canonForm.On s) : canonForm.Next (execKvmap f s) := by
  unfold execKvmap
  exact tableInstr_keeps hs

theorem execKvmapApp_keeps {f : Fmt} {s : State} (hs : canonForm.On s) : canonForm.Next (execKvmapApp f s) := by
  unfold execKvmapApp
  exact tableInstr_keeps hs

theorem execKvmapWr_keeps {f : Fmt} {s : State} (hs : canonForm.On s) : canonForm.Next (execKvmapWr f s) := by
  unfold execKvmapWr
  exact tableInstr_keeps hs

theorem execKvswapFork_keeps {f : Fmt} {s : State} (hs : canonForm.On s) : canonForm.Next (execKvswapFork f s) := by
  unfold execKvswapFork
  exact tableInstr_keeps hs

theorem execKvswapAccept_keeps {f : Fmt} {s : State} (hs : canonForm.On s) :
    canonForm.Next (execKvswapAccept f s) := by
  unfold execKvswapAccept
  exact tableInstr_keeps hs

theorem execKvswapReject_keeps {f : Fmt} {s : State} (hs : canonForm.On s) :
    canonForm.Next (execKvswapReject f s) := by
  unfold execKvswapReject
  exact tableInstr_keeps hs

theorem execKvtrunc_keeps {f : Fmt} {s : State} (hs : canonForm.On s) : canonForm.Next (execKvtrunc f s) := by
  unfold execKvtrunc
  exact tableInstr_keeps hs

theorem execKvwin_keeps {f : Fmt} {s : State} (hs : canonForm.On s) : canonForm.Next (execKvwin f s) := by
  unfold execKvwin
  exact tableInstr_keeps hs

theorem execStframe_keeps {f : Fmt} {s : State} (hs : canonForm.On s) : canonForm.Next (execStframe f s) := by
  unfold execStframe
  refine scalarRun_keeps hs ?_
  refine Sat.bind (src64_keeps hs) fun a _ => ?_
  refine Sat.bind (tableAct_keeps hs) fun ⟨t, b⟩ ht => ?_
  exact Sat.bind (dst64_keeps ht) fun u hu => Sat.bind (dst64_keeps hu) fun v hv => .ok hv

theorem execStadvGen_keeps {f : Fmt} {s : State} (hs : canonForm.On s) : canonForm.Next (execStadvGen f s) := by
  unfold execStadvGen
  exact tableInstr_keeps hs

theorem execStadvPlay_keeps {f : Fmt} {s : State} (hs : canonForm.On s) : canonForm.Next (execStadvPlay f s) := by
  unfold execStadvPlay
  exact tableInstr_keeps hs

end Sys2Proof.Machine
end

section
/-! PROOFS. The memories under the functions of Machine/CopyWork.lean. -/

namespace Sys2Proof.Machine

theorem writeRuns_keeps {s : State} {w : Who} {ag : Agent} {key : Nat} {va : W64} {l : List (Option Byte)} {fuel : Nat}
    (hs : canonForm.On s) : Sat canonForm.eng (fun p => canonForm.On p.1) (writeRuns s w ag key va l fuel) := by
  induction fuel generalizing s va l with
  | zero => exact .ok hs
  | succ fuel ih =>
    unfold writeRuns
    split
    · exact .ok hs
    · exact ih hs
    · dsimp only
      split
      next e => exact ih ((engPost1_keeps hs).of_ok e)
      next e =>
        have ht := (engPost1_keeps hs).of_error e
        split
        · exact Sat.bind (ih ht) fun ⟨u, _⟩ hu => .ok hu
        · exact .error ht
      next e => exact .error ((engPost1_keeps hs).of_error e)

theorem putElems_keeps {s : State} {w : Who} {ag : Agent} {r : CopyRun} {p : Nat} {es : List (Option Nat)}
    (hs : canonForm.On s) : Sat canonForm.eng (fun p => canonForm.On p.1) (putElems s w ag r p es) := by
  unfold putElems
  dsimp only
  exact Sat.bind (writeRuns_keeps hs) fun ⟨t, a⟩ ht => .ok ht

theorem denseUnit_keeps {s : State} {w : Who} {ag : Agent} {r : CopyRun}
    {deliver : State → Nat → Nat → State × List (Option Nat) × Option EStop} (hs : canonForm.On s)
    (hd : ∀ p n, canonForm.Part (deliver s p n)) :
    Sat canonForm.eng (fun p => canonForm.On p.1) (denseUnit s w ag r deliver) := by
  unfold denseUnit
  dsimp only
  split
  · exact .ok hs
  · split
    next e => exact .error ((hd _ _).stop e)
    next e => exact .error ((hd _ _).stop e)
    next e => exact putElems_keeps ((hd _ _).on e)

theorem copyUnit_keeps {s : State} {w : Who} {ag : Agent} {r : CopyRun} (hs : canonForm.On s) :
    Sat canonForm.eng (fun p => canonForm.On p.1) (copyUnit s w ag r) :=
  denseUnit_keeps hs fun _ _ => rowElems_keeps hs

theorem fillUnit_keeps {s : State} {w : Who} {ag : Agent} {r : CopyRun} (hs : canonForm.On s) :
    Sat canonForm.eng (fun p => canonForm.On p.1) (fillUnit s w ag r) :=
  denseUnit_keeps hs fun _ _ => .whole hs

theorem gatherEntry_keeps {I : MemInv} {s : State} {w : Who} {ag : Agent} {r : CopyRun} {j1 : Nat} (hs : I.On s) :
    Sat I.eng (fun p => I.On p.1) (gatherEntry s w ag r j1) := by
  unfold gatherEntry
  refine Sat.bind (engRead_keeps hs) fun ⟨t, a⟩ ht => ?_
  dsimp only
  split
  · exact .ok ht
  · split
    · exact .error ht
    · exact .ok ht

theorem gatherUnit_keeps {s : State} {w : Who} {ag : Agent} {r : CopyRun} (hs : canonForm.On s) :
    Sat canonForm.eng (fun p => canonForm.On p.1) (gatherUnit s w ag r) := by
  unfold gatherUnit
  dsimp only
  split
  · split
    · exact .ok hs
    · split
      · exact .ok hs
      · refine denseUnit_keeps hs fun _ _ => ?_
        split
        · exact .whole hs
        · exact rowElems_keeps hs
  · exact gatherEntry_keeps hs

theorem putPlanes_keeps {s : State} {w : Who} {ag : Agent} {dst : Nat} {i : List Int} {ints : List (Option Nat)}
    {x0 : List Nat}
    (hs : canonForm.On s) : Sat canonForm.eng (fun p => canonForm.On p.1) (putPlanes s w ag dst i ints x0) := by
  induction x0 generalizing s w ag dst i ints with
  | nil =>
    unfold putPlanes
    exact .ok hs
  | cons a l ih =>
    unfold putPlanes
    dsimp only
    split
    · refine Sat.bind (R := (fun p => canonForm.On p.1)) (.ok hs) fun ⟨t, b⟩ ht => ?_
      exact Sat.bind (writeRuns_keeps ht) fun ⟨u, c⟩ hu => Sat.bind (ih hu) fun ⟨v, d⟩ hv => .ok hv
    · refine Sat.bind (engRead_keeps hs) fun ⟨t, b⟩ ht => ?_
      refine Sat.bind (R := (fun p => canonForm.On p.1)) (.ok ht) fun ⟨u, c⟩ hu => ?_
      exact Sat.bind (writeRuns_keeps hu) fun ⟨v, d⟩ hv => Sat.bind (ih hv) fun ⟨t1, e⟩ ht1 => .ok ht1

theorem putGroup_keeps {s : State} {w : Who} {ag : Agent} {r : CopyRun} {p n : Nat} {es : List (Option Nat)}
    (hs : canonForm.On s) : Sat canonForm.eng (fun p => canonForm.On p.1) (putGroup s w ag r p n es) := by
  unfold putGroup
  dsimp only
  exact Sat.bind (putPlanes_keeps hs) fun ⟨t, a⟩ ht => .ok ht

theorem planeUnit_keeps {s : State} {w : Who} {ag : Agent} {r : CopyRun} (hs : canonForm.On s) :
    Sat canonForm.eng (fun p => canonForm.On p.1) (planeUnit s w ag r) := by
  unfold planeUnit
  dsimp only
  split
  · exact .ok hs
  · split
    next e => exact .error ((rowElems_keeps hs).stop e)
    next e =>
      have ht := (rowElems_keeps hs).on e
      split
      · exact .error ((rowElems_keeps hs).stop e)
      · exact putGroup_keeps ht
    next e =>
      have ht := (rowElems_keeps hs).on e
      split
      · split
        · exact .ok ht
        · refine Sat.bind (putPlanes_keeps ht) fun ⟨u, _⟩ hu => ?_
          exact Sat.bind (writeRuns_keeps hu) fun ⟨v, _⟩ hv => .ok hv
      · exact putGroup_keeps ht

theorem readPlanes_keeps {I : MemInv} {s : State} {w : Who} {ag : Agent} {r : Nat} {i : List Int} {n : Nat}
    {x0 : List Nat}
    (hs : I.On s) : Sat I.eng (fun p => I.On p.1) (readPlanes s w ag r i n x0) := by
  induction x0 generalizing s w ag r i n with
  | nil =>
    unfold readPlanes
    exact .ok hs
  | cons a l ih =>
    unfold readPlanes
    dsimp only
    exact Sat.bind (engRead_keeps hs) fun ⟨t, b⟩ ht => Sat.bind (ih ht) fun ⟨u, c⟩ hu => .ok hu

theorem planeElems_keeps {I : MemInv} {s : State} {w : Who} {ag : Agent} {r : Nat} {i : List Int} {n : Nat}
    (hs : I.On s) : Sat I.eng (fun p => I.On p.1) (planeElems s w ag r i n) := by
  unfold planeElems
  dsimp only
  refine Sat.bind (readPlanes_keeps hs) fun ⟨t, a⟩ ht => ?_
  split
  · exact Sat.bind (engRead_keeps ht) fun ⟨u, b⟩ hu => .ok hu
  · exact Sat.bind (R := (fun p => I.On p.1)) (.ok ht) fun ⟨u, b⟩ hu => .ok hu

theorem planeFills_keeps {I : MemInv} {s : State} {w : Who} {ag : Agent} {r : Nat} {i : List Int} {y0 : List Nat}
    (hs : I.On s) : Sat I.eng (fun p => I.On p.1) (planeFills s w ag r i y0) := by
  induction y0 generalizing s w ag r i with
  | nil =>
    unfold planeFills
    exact .ok hs
  | cons a l ih =>
    unfold planeFills
    dsimp only
    split
    · exact Sat.bind (R := (fun p => I.On p.1)) (.ok hs) fun ⟨t, d⟩ ht => Sat.bind (ih ht) fun ⟨u, e⟩ hu => .ok hu
    · exact Sat.bind (planeElems_keeps hs) fun ⟨t, d⟩ ht => Sat.bind (ih ht) fun ⟨u, e⟩ hu => .ok hu

theorem planeRow_keeps {I : MemInv} {s : State} {w : Who} {ag : Agent} {r : Nat} {i : List Int} {n : Nat}
    (hs : I.On s) : Sat I.eng (fun p => I.On p.1) (planeRow s w ag r i n) := by
  unfold planeRow
  dsimp only
  refine Sat.bind (planeFills_keeps hs) fun ⟨t, a⟩ ht => ?_
  split
  · split
    · exact Sat.bind (planeElems_keeps ht) fun ⟨u, b⟩ hu => Sat.bind (planeFills_keeps hu) fun ⟨v, c⟩ hv => .ok hv
    · refine Sat.bind (R := (fun p => I.On p.1)) (.ok ht) fun ⟨u, b⟩ hu => ?_
      exact Sat.bind (planeFills_keeps hu) fun ⟨v, c⟩ hv => .ok hv
  · split
    · exact Sat.bind (planeElems_keeps ht) fun ⟨u, b⟩ hu => Sat.bind (planeFills_keeps hu) fun ⟨v, c⟩ hv => .ok hv
    · refine Sat.bind (R := (fun p => I.On p.1)) (.ok ht) fun ⟨u, b⟩ hu => ?_
      exact Sat.bind (planeFills_keeps hu) fun ⟨v, c⟩ hv => .ok hv

theorem unplaneUnit_keeps {s : State} {w : Who} {ag : Agent} {r : CopyRun} (hs : canonForm.On s) :
    Sat canonForm.eng (fun p => canonForm.On p.1) (unplaneUnit s w ag r) := by
  refine denseUnit_keeps hs fun p n => ?_
  dsimp only
  split
  next e => exact .whole ((planeRow_keeps hs).of_ok e)
  next e => exact .stopped hs ((planeRow_keeps hs).of_error e)
  next e =>
    split
    · exact .stopped hs ((planeRow_keeps hs).of_error e)
    · exact deliverEach_keeps hs fun t k ht => Sat.bind (planeRow_keeps ht) fun ⟨u, _⟩ hu => .ok hu

theorem fprintUnit_keeps {s : State} {w : Who} {ag : Agent} {r : CopyRun} (hs : canonForm.On s) :
    Sat canonForm.eng (fun p => canonForm.On p.1) (fprintUnit s w ag r) := by
  unfold fprintUnit
  dsimp only
  split
  · exact .ok hs
  · split
    next e => exact .error ((rowElems_keeps hs).stop e)
    next e =>
      have ht := (rowElems_keeps hs).on e
      split
      · exact .ok ht
      · exact putElems_keeps ht

theorem tabStop_keeps {I : MemInv} {s : State} {f : TrapInfo} (hs : I.On s) : I.eng (tabStop s f) := by
  unfold tabStop
  split
  · exact hs
  · exact engFault_keeps hs

/-- A channel's table operation, under way or answered, leaves memories that have a property. -/
def MemInv.Either (I : MemInv) {α : Type} : Sum State (State × α) → Prop
  | .inl s => I.On s
  | .inr (s, _) => I.On s

theorem jobTable_keeps {I : MemInv} {s : State} {w : Who} {ag : Agent} {table : W64} {op : TabOp} (hs : I.On s) :
    Sat I.eng I.Either (jobTable s w ag table op) := by
  have hend {p : Place} := tableOp_keeps (w := w) (ag := ag) (p := p) (va := table) (op := op) hs
  unfold jobTable
  extract_lets asks
  have hasks {p : Place} : Sat I.eng I.Either (asks p) := by
    unfold asks
    split
    next e =>
      have hu : I.Ended _ := e ▸ hend
      exact .ok hu
    next e =>
      have hu : I.Ended _ := e ▸ hend
      split
      · exact .ok hu
      · exact .error (tabStop_keeps hu)
    next e =>
      have hu : I.Ended _ := e ▸ hend
      exact .ok hu
  split
  · exact Sat.bind (engOf_keeps (tableAt_keeps hs)) fun _ _ => hasks
  · exact hasks

theorem engReadOr_keeps {I : MemInv} {s : State} {w : Who} {ag : Agent} {va : W64} {n : Nat} (hs : I.On s) :
    Sat I.eng (fun p => I.On p.1) (engReadOr s w ag va n) := by
  unfold engReadOr
  exact Sat.bind (engRead_keeps hs) fun ⟨t, a⟩ ht => .ok ht

theorem readPage_keeps {I : MemInv} {s : State} {w : Who} {ag : Agent} {va : W64} (hs : I.On s) :
    Sat I.eng (fun p => I.On p.1) (readPage s w ag va) := by
  unfold readPage
  refine Sat.bind (engRead_keeps hs) fun ⟨t, a⟩ ht => ?_
  dsimp only
  split <;> exact .ok ht

theorem probes_keeps {I : MemInv} {s : State} {w : Who} {ag : Agent} {h : Header} {j k p fp : Nat} {ds y0 : List Nat}
    (hs : I.On s) : Sat I.eng (fun p => I.On p.1) (probes s w ag h j k p fp ds y0) := by
  induction y0 generalizing s w ag h j k p fp ds with
  | nil =>
    unfold probes
    exact .ok hs
  | cons a l ih =>
    unfold probes
    dsimp only
    refine Sat.bind (engReadOr_keeps hs) fun ⟨t, b⟩ ht => ?_
    split
    · refine Sat.bind (R := (fun p => I.On p.1)) (.ok ht) fun ⟨u, c⟩ hu => ?_
      split
      · split
        · exact .ok hu
        · split
          · exact .ok hu
          · split
            · exact ih hu
            · refine Sat.bind (readPage_keeps hu) fun ⟨v, a3⟩ hv => ?_
              split
              · exact Sat.bind (ih hv) fun ⟨t1, a5⟩ ht1 => .ok ht1
              · split
                · exact .ok hv
                · exact ih hv
      · exact .ok hu
    · refine Sat.bind (engReadOr_keeps ht) fun ⟨u, c⟩ hu => ?_
      split
      · split
        · exact .ok hu
        · split
          · exact .ok hu
          · split
            · exact ih hu
            · refine Sat.bind (readPage_keeps hu) fun ⟨v, a3⟩ hv => ?_
              split
              · exact Sat.bind (ih hv) fun ⟨t1, a5⟩ ht1 => .ok ht1
              · split
                · exact .ok hv
                · exact ih hv
      · exact .ok hu

theorem dedupUnit_keeps {I : MemInv} {s : State} {w : Who} {ag : Agent} {r : CopyRun} (hs : I.On s) :
    Sat I.eng (fun p => I.On p.1) (dedupUnit s w ag r) := by
  unfold dedupUnit
  dsimp only
  split
  · split
    · exact .ok hs
    · refine Sat.bind (jobTable_keeps hs) fun a ha => ?_
      split
      · exact .error ha
      · exact .ok ha
  · refine Sat.bind (engReadOr_keeps hs) fun ⟨t, raw⟩ ht => ?_
    dsimp only
    split
    · exact .ok ht
    · refine Sat.bind (readPage_keeps ht) fun ⟨u, page⟩ hu => ?_
      dsimp only
      split
      · exact .ok hu
      · refine Sat.bind (probes_keeps hu) fun ⟨v, o, bad⟩ hv => ?_
        dsimp only
        split
        · exact .ok hv
        · refine Sat.bind (jobTable_keeps hv) fun a ha => ?_
          split
          · split
            · exact .error ha
            · exact .ok ha
          · exact .ok ha

theorem packWrite_keeps {s : State} {w : Who} {ag : Agent} {r : CopyRun} {slot k : Nat} {es : List (Option Nat)}
    (hs : canonForm.On s) : Sat canonForm.eng (fun p => canonForm.On p.1) (packWrite s w ag r slot k es) := by
  unfold packWrite
  dsimp only
  exact Sat.bind (writeRuns_keeps hs) fun ⟨t, a⟩ ht => .ok ht

theorem kvpackUnit_keeps {s : State} {w : Who} {ag : Agent} {r : CopyRun} (hs : canonForm.On s) :
    Sat canonForm.eng (fun p => canonForm.On p.1) (kvpackUnit s w ag r) := by
  unfold kvpackUnit
  dsimp only
  split
  · exact .ok hs
  · split
    · split
      · exact .ok hs
      · split
        · exact .error hs
        · split
          next e => exact .error ((rowElems_keeps hs).stop e)
          next e =>
            split
            · exact .error ((rowElems_keeps hs).stop e)
            · exact packWrite_keeps ((rowElems_keeps hs).on e)
          next e => exact packWrite_keeps ((rowElems_keeps hs).on e)
    · refine Sat.bind (jobTable_keeps hs) fun a ha => ?_
      split
      · exact .error ha
      · exact .ok ha
      · exact .ok ha

end Sys2Proof.Machine
end

section
/-! PROOFS. The memories under the functions of Machine/Queues.lean. -/

namespace Sys2Proof.Machine

theorem countOf_keeps {I : MemInv} {s : State} {f : Fmt} {o : Operand} (hs : I.On s) :
    Sat I.stop (fun _ => True) (countOf s f o) := by
  unfold countOf
  exact Sat.bind (src64_keeps hs) fun a _ => .ok trivial

theorem popEnd_keeps {I : MemInv} {s : State} {n : Fin 16} (hs : I.On s) :
    Sat I.stop (fun _ => True) (popEnd s n) := by
  unfold popEnd
  refine Sat.bind (unitsReady_keeps hs) fun _ _ => ?_
  exact Sat.bind (need_keeps hs) fun _ _ => Sat.bind (need_keeps hs) fun _ _ => consumerEnd_keeps hs

theorem linkWait_keeps {I : MemInv} {s : State} {n : Fin 16} (hs : I.On s) :
    Sat I.stop (fun _ => True) (linkWait s n) := by
  unfold linkWait
  refine Sat.bind (unitsReady_keeps hs) fun _ _ => ?_
  dsimp only
  split
  · exact .ok trivial
  · exact hold_keeps hs

theorem roomEnd_keeps {I : MemInv} {s : State} {n : Fin 16} (hs : I.On s) :
    Sat I.stop (fun _ => True) (roomEnd s n) := by
  unfold roomEnd
  refine Sat.bind (unitsReady_keeps hs) fun _ _ => ?_
  dsimp only
  refine Sat.bind (need_keeps hs) fun _ _ => ?_
  split
  · exact .ok trivial
  · split
    · exact fail_keeps hs
    · exact linkWait_keeps hs
  · exact producerEnd_keeps hs

theorem freeAt_keeps {I : MemInv} {s : State} {h : Handle} {n : Nat} (hs : I.On s) : I.On (freeAt s h n) := by
  unfold freeAt
  split
  · exact hs
  · split
    · exact freeSlots_keeps hs
    · exact hs

theorem pushBytes_keeps {I : MemInv} {s : State} {f : Fmt} (hs : I.On s) :
    Sat I.stop (fun _ => True) (pushBytes s f) := by
  unfold pushBytes
  split
  · exact .ok trivial
  · exact Sat.bind (src64_keeps hs) fun b _ => .ok trivial

theorem execQpush_keeps {f : Fmt} {s : State} (hs : canonForm.On s) : canonForm.Next (execQpush f s) := by
  unfold execQpush
  refine scalarRun_keeps hs ?_
  refine Sat.bind (pushBytes_keeps hs) fun a _ => ?_
  refine Sat.bind (producerEnd_keeps hs) fun b _ => ?_
  exact Sat.bind (waitFor_keeps hs) fun _ _ => .ok (publishSlots_keeps (slotWrite_keeps hs))

theorem execQpop_keeps {f : Fmt} {s : State} (hs : canonForm.On s) : canonForm.Next (execQpop f s) := by
  unfold execQpop
  refine scalarRun_keeps hs ?_
  refine Sat.bind (popEnd_keeps hs) fun a _ => ?_
  refine Sat.bind (queueRead_keeps hs) fun b _ => ?_
  refine Sat.bind (dstReady_keeps hs) fun _ _ => ?_
  refine Sat.bind (waitFor_keeps hs) fun _ _ => ?_
  dsimp only
  split
  · exact put512_keeps (freeAt_keeps hs)
  · exact put64_keeps (freeAt_keeps hs)

theorem execQadv_keeps {I : MemInv} {f : Fmt} {s : State} (hs : I.On s) : I.Next (execQadv f s) := by
  unfold execQadv
  refine scalarRun_keeps hs ?_
  refine Sat.bind (countOf_keeps hs) fun a _ => ?_
  refine Sat.bind (popEnd_keeps hs) fun b _ => ?_
  exact Sat.bind (qcount_keeps hs) fun _ _ => Sat.bind (waitFor_keeps hs) fun _ _ => .ok (freeAt_keeps hs)

theorem execQprod_keeps {I : MemInv} {f : Fmt} {s : State} (hs : I.On s) : I.Next (execQprod f s) := by
  unfold execQprod
  refine scalarRun_keeps hs ?_
  refine Sat.bind (countOf_keeps hs) fun a _ => ?_
  refine Sat.bind (producerEnd_keeps hs) fun b _ => ?_
  refine Sat.bind (qcount_keeps hs) fun _ _ => ?_
  exact Sat.bind (waitFor_keeps hs) fun _ _ => .ok (MemInv.On.ite hs (publishSlots_keeps hs))

theorem execQwaitFill_keeps {I : MemInv} {f : Fmt} {s : State} (hs : I.On s) : I.Next (execQwaitFill f s) := by
  unfold execQwaitFill
  refine scalarRun_keeps hs ?_
  refine Sat.bind (countOf_keeps hs) fun a _ => ?_
  refine Sat.bind (consumerEnd_keeps hs) fun b _ => ?_
  exact Sat.bind (qcount_keeps hs) fun _ _ => Sat.bind (waitFor_keeps hs) fun _ _ => putNone_keeps hs

theorem execQwaitRoom_keeps {I : MemInv} {f : Fmt} {s : State} (hs : I.On s) : I.Next (execQwaitRoom f s) := by
  unfold execQwaitRoom
  refine scalarRun_keeps hs ?_
  refine Sat.bind (countOf_keeps hs) fun a _ => ?_
  refine Sat.bind (roomEnd_keeps hs) fun b _ => ?_
  exact Sat.bind (qcount_keeps hs) fun _ _ => Sat.bind (waitFor_keeps hs) fun _ _ => putNone_keeps hs

theorem execQfree_keeps {I : MemInv} {f : Fmt} {s : State} (hs : I.On s) : I.Next (execQfree f s) := by
  unfold execQfree
  refine scalarRun_keeps hs ?_
  refine Sat.bind (unitsReady_keeps hs) fun _ _ => ?_
  dsimp only
  split
  · exact putNone_keeps hs
  · split
    · exact putNone_keeps hs
    · split
      · exact putNone_keeps hs
      · exact Sat.bind (waitFor_keeps hs) fun _ _ => putNone_keeps hs
    · exact fail_keeps hs

theorem bindHandle_keeps {I : MemInv} {s : State} {n : Fin 16} {w : W64} (hs : I.On s) : I.On (bindHandle s n w) := by
  unfold bindHandle
  dsimp only
  split <;> exact hs

theorem execQbind_keeps {f : Fmt} {s : State} (hs : canonForm.On s) : canonForm.Next (execQbind f s) := by
  unfold execQbind
  refine scalarRun_keeps hs ?_
  refine Sat.bind (unitsReady_keeps hs) fun _ _ => ?_
  dsimp only
  exact put64_keeps (MemInv.On.ite (bindHandle_keeps hs) hs)

theorem statEnd_keeps {I : MemInv} {s : State} {n : Fin 16} (hs : I.On s) :
    Sat I.stop (fun _ => True) (statEnd s n) := by
  unfold statEnd
  refine Sat.bind (unitsReady_keeps hs) fun _ _ => ?_
  dsimp only
  split
  · exact linkWait_keeps hs
  · split
    · exact Sat.bind (waitFor_keeps hs) fun _ _ => .ok trivial
    · exact linkWait_keeps hs
  · exact Sat.bind (waitFor_keeps hs) fun _ _ => .ok trivial

theorem execQstat_keeps {f : Fmt} {s : State} (hs : canonForm.On s) : canonForm.Next (execQstat f s) := by
  unfold execQstat
  refine scalarRun_keeps hs ?_
  dsimp only
  split
  · exact put64_keeps hs
  · exact Sat.bind (statEnd_keeps hs) fun a _ => put64_keeps hs

theorem execQstatHead_keeps {f : Fmt} {s : State} (hs : canonForm.On s) : canonForm.Next (execQstatHead f s) := by
  unfold execQstatHead
  refine scalarRun_keeps hs ?_
  dsimp only
  exact Sat.bind (need_keeps hs) fun _ _ => Sat.bind (statEnd_keeps hs) fun a _ => put64_keeps hs

theorem execQstatTail_keeps {f : Fmt} {s : State} (hs : canonForm.On s) : canonForm.Next (execQstatTail f s) := by
  unfold execQstatTail
  refine scalarRun_keeps hs ?_
  dsimp only
  exact Sat.bind (need_keeps hs) fun _ _ => Sat.bind (statEnd_keeps hs) fun a _ => put64_keeps hs

end Sys2Proof.Machine
end

section
/-! PROOFS. The memories under the functions of Machine/Matrix.lean. -/

namespace Sys2Proof.Machine

theorem onCompute_keeps {I : MemInv} {s : State} {r : Result} (hs : I.On s) (hr : I.Next r) :
    I.Next (onCompute s r) := by
  unfold onCompute
  split
  · exact .next hs
  · exact hr

theorem onPort_keeps {I : MemInv} {off : Nat} {s : State} {r : Result} (hs : I.On s) (hr : I.Next r) :
    I.Next (onPort off s r) := by
  unfold onPort
  split
  · exact .next hs
  · exact hr

theorem captureSlot_keeps {I : MemInv} {s : State} {c : V512} (hs : I.On s) :
    Sat I.stop (fun _ => True) (captureSlot s c) := by
  unfold captureSlot
  split
  · dsimp only
    exact Sat.bind (need_keeps hs) fun _ _ => .ok trivial
  · exact .ok trivial

theorem pushHeld_keeps {I : MemInv} {s : State} {c : V512} {cap : Nat} {cd : Option CDest} (hs : I.On s) :
    I.On (pushHeld s c cap cd) := by
  unfold pushHeld
  dsimp only
  split <;> exact hs

theorem pushMatrix_keeps {I : MemInv} {s : State} {c : V512} (hs : I.On s) : Sat I.stop I.On (pushMatrix s c) := by
  unfold pushMatrix
  refine Sat.bind (unitsReady_keeps hs) fun _ _ => ?_
  refine Sat.bind (captureSlot_keeps hs) fun a _ => ?_
  refine Sat.bind (pushCword_keeps hs) fun b _ => ?_
  dsimp only
  split
  · exact Sat.bind (pushRelease_keeps hs) fun t ht => .ok (pushHeld_keeps ht)
  · exact Sat.bind (waitFor_keeps hs) fun _ _ => Sat.bind (pushRelease_keeps hs) fun t ht => .ok ht

theorem mxStart_keeps {I : MemInv} {s : State} {core : Nat} {x : MxUnit} (hs : I.On s) :
    Maybe (fun p => I.On p.1) (mxStart s core x) := by
  unfold mxStart
  dsimp only
  split
  · split
    · exact .none
    · exact .some hs
  · split
    · split
      · exact .some hs
      · exact .none
    · exact .none
    · split
      · exact .some hs
      · exact .none

theorem mxJob_keeps {I : MemInv} {s : State} {core : Nat} {x : MxUnit} {body : State → Running → Result} (hs : I.On s)
    (hb : ∀ t r, I.On t → I.Next (body t r)) : I.Next (mxJob s core x body) := by
  unfold mxJob
  split
  · exact .next hs
  next e =>
    have ht := Maybe.of_some (mxStart_keeps hs) e
    split
    · exact .next ht
    · exact hb _ _ ht

theorem execZero_keeps {I : MemInv} {core : Nat} {s : State} (hs : I.On s) : I.Next (execZero core s) := by
  unfold execZero
  refine mxJob_keeps hs (fun t a ht => ?_)
  split <;> exact .next ht

theorem drain_keeps {s : State} {core : Nat} {r : Running} (hs : canonForm.On s) : canonForm.On (drain s core r) := by
  unfold drain
  dsimp only
  split
  · exact hs
  · split
    · exact hs
    · split
      · exact hs
      · split
        · exact hs
        · exact spadWrite_keeps hs

theorem execDrain_keeps {core : Nat} {s : State} (hs : canonForm.On s) : canonForm.Next (execDrain core s) := by
  unfold execDrain
  refine mxJob_keeps hs (fun t a ht => ?_)
  split
  · exact .next (drain_keeps ht)
  · exact .next ht

theorem runaRow_keeps {I : MemInv} {s : State} {core : Nat} {r : Running} (hs : I.On s) :
    I.On (runaRow s core r) := by
  unfold runaRow
  dsimp only
  split
  · exact hs
  · split <;> exact hs

theorem execRuna_keeps {I : MemInv} {core : Nat} {s : State} (hs : I.On s) : I.Next (execRuna core s) := by
  unfold execRuna
  refine mxJob_keeps hs (fun t a ht => ?_)
  split
  · exact .next ht
  · exact .next (runaRow_keeps ht)

theorem loadbRecord_keeps {I : MemInv} {s : State} {core : Nat} {r : Running} (hs : I.On s) :
    Sat I.eng (fun p => I.On p.1) (loadbRecord s core r) := by
  unfold loadbRecord
  split
  · exact .ok hs
  · dsimp only
    split
    · exact Sat.raise hs
    · exact readRecord_keeps hs

theorem loadbFetch_keeps {I : MemInv} {s : State} {core : Nat} {r : Running} (hs : I.On s) :
    Sat I.eng I.On (loadbFetch s core r) := by
  unfold loadbFetch
  dsimp only
  split
  · refine Sat.bind (loadbRecord_keeps hs) fun ⟨t, b⟩ ht => ?_
    split
    · exact .ok (MemInv.On.ite ht ht)
    · exact .ok ht
  · split
    · exact .ok hs
    · split
      next c t d e hq2 =>
        have ht := (rowElems_keeps hs).on hq2
        have hstop := (rowElems_keeps hs).stop hq2
        exact .error hstop
      next c t d hq2 =>
        have ht := (rowElems_keeps hs).on hq2
        exact .ok ht

theorem loadbTour_keeps {I : MemInv} {s : State} {core : Nat} {r : Running} (hs : I.On s) :
    I.On (loadbTour s core r) := by
  unfold loadbTour
  dsimp only
  split
  · exact hs
  · split
    · exact hs
    · split <;> exact hs

theorem loadbRun_keeps {I : MemInv} {core : Nat} {s : State} {r : Running} (hs : I.On s) :
    I.Next (loadbRun core s r) := by
  unfold loadbRun
  dsimp only
  split
  · exact .next (loadbTour_keeps hs)
  · split
    · exact .next hs
    · exact engineEvent_keeps hs (loadbFetch_keeps hs) (fun t a ht => ht) (fun t a b c ht => ht)

theorem execLoadb_keeps {I : MemInv} {core : Nat} {s : State} (hs : I.On s) : I.Next (execLoadb core s) := by
  unfold execLoadb
  refine mxJob_keeps hs (fun t a ht => ?_)
  split
  · exact loadbRun_keeps ht
  · exact .next ht

theorem execCont_keeps {I : MemInv} {core : Nat} {s : State} (hs : I.On s) : I.Next (execCont core s) := by
  unfold execCont
  refine mxJob_keeps hs (fun t a ht => ?_)
  split
  · exact loadbRun_keeps ht
  · exact .next ht

theorem execMatrixStop_keeps {I : MemInv} {core : Nat} {s : State} (hs : I.On s) :
    I.Next (execMatrixStop core s) := by
  unfold execMatrixStop
  dsimp only
  split <;> exact .next hs

theorem mxCommand_keeps {I : MemInv} {s : State} {core ctx : Nat} {k : UnitCmd} (hs : I.On s) :
    I.On (mxCommand s core ctx k) := by
  unfold mxCommand
  dsimp only
  split <;> exact hs

theorem execMxcmdResume_keeps {I : MemInv} {core ctx : Nat} {s : State} (hs : I.On s) :
    I.Next (execMxcmdResume core ctx s) := by
  unfold execMxcmdResume
  exact .next (mxCommand_keeps hs)

theorem execMxcmdKill_keeps {I : MemInv} {core ctx : Nat} {s : State} (hs : I.On s) :
    I.Next (execMxcmdKill core ctx s) := by
  unfold execMxcmdKill
  exact .next (mxCommand_keeps hs)

theorem execMatrixJobComplete_keeps {core : Nat} {s : State} (hs : canonForm.On s) :
    canonForm.Next (execMatrixJobComplete core s) := by
  unfold execMatrixJobComplete
  split
  · exact .next hs
  · dsimp only
    split
    · exact .next hs
    · refine engineEvent_keeps hs ?_ (fun t d ht => ht) (fun t d e a1 ht => ht)
      refine Sat.bind (payloadDone_keeps hs) fun t ht => ?_
      exact Sat.bind (completeAt_keeps ht) fun u hu => .ok (State.endJob_keeps hu)

theorem cardOperand_keeps {I : MemInv} {s : State} {f : Fmt} (hs : I.On s) :
    Sat I.stop (fun _ => True) (cardOperand s f) := by
  unfold cardOperand
  exact src512_keeps hs

theorem execMxq_keeps {I : MemInv} {f : Fmt} {s : State} (hs : I.On s) : I.Next (execMxq f s) := by
  unfold execMxq
  refine onCompute_keeps hs (scalarRun_keeps hs ?_)
  exact Sat.bind (cardOperand_keeps hs) fun a _ => Sat.bind (pushMatrix_keeps hs) fun t ht => putNone_keeps ht

theorem execMxpush_keeps {I : MemInv} {card : V512} {s : State} (hs : I.On s) : I.Next (execMxpush card s) := by
  unfold execMxpush
  exact onPort_keeps hs (settle_keeps (pushMatrix_keeps hs))

theorem execMxwm_keeps {f : Fmt} {s : State} (hs : canonForm.On s) : canonForm.Next (execMxwm f s) := by
  unfold execMxwm
  refine onCompute_keeps hs (scalarRun_keeps hs ?_)
  exact Sat.bind (unitsReady_keeps hs) fun _ _ => put64_keeps hs

theorem execMxwmWait_keeps {I : MemInv} {f : Fmt} {s : State} (hs : I.On s) : I.Next (execMxwmWait f s) := by
  unfold execMxwmWait
  refine onCompute_keeps hs (scalarRun_keeps hs ?_)
  refine Sat.bind (src64_keeps hs) fun a _ => ?_
  exact Sat.bind (unitsReady_keeps hs) fun _ _ => Sat.bind (waitFor_keeps hs) fun _ _ => putNone_keeps hs

theorem execMxrd_keeps {f : Fmt} {s : State} (hs : canonForm.On s) : canonForm.Next (execMxrd f s) := by
  unfold execMxrd
  refine onCompute_keeps hs (scalarRun_keeps hs ?_)
  refine Sat.bind (src64_keeps hs) fun a _ => ?_
  refine Sat.bind (unitsReady_keeps hs) fun _ _ => ?_
  refine Sat.bind (dstReady_keeps hs) fun _ _ => ?_
  dsimp only
  exact Sat.bind (waitFor_keeps hs) fun _ _ => put512_keeps hs

theorem execMxwr_keeps {I : MemInv} {f : Fmt} {s : State} (hs : I.On s) : I.Next (execMxwr f s) := by
  unfold execMxwr
  refine onCompute_keeps hs (scalarRun_keeps hs ?_)
  refine Sat.bind (src64_keeps hs) fun a _ => ?_
  refine Sat.bind (src512_keeps hs) fun b _ => ?_
  refine Sat.bind (unitsReady_keeps hs) fun _ _ => ?_
  dsimp only
  exact Sat.bind (waitFor_keeps hs) fun _ _ => putNone_keeps hs

theorem execMxcont_keeps {f : Fmt} {s : State} (hs : canonForm.On s) : canonForm.Next (execMxcont f s) := by
  unfold execMxcont
  refine onCompute_keeps hs (scalarRun_keeps hs ?_)
  refine Sat.bind (unitsReady_keeps hs) fun _ _ => ?_
  refine Sat.bind (dstReady_keeps hs) fun _ _ => ?_
  dsimp only
  split <;> exact put512_keeps hs

theorem execMxstat_keeps {f : Fmt} {s : State} (hs : canonForm.On s) : canonForm.Next (execMxstat f s) := by
  unfold execMxstat
  refine onCompute_keeps hs (scalarRun_keeps hs ?_)
  exact Sat.bind (unitsReady_keeps hs) fun _ _ => put64_keeps hs

theorem execMxstatSticky_keeps {f : Fmt} {s : State} (hs : canonForm.On s) :
    canonForm.Next (execMxstatSticky f s) := by
  unfold execMxstatSticky
  refine onCompute_keeps hs (scalarRun_keeps hs ?_)
  refine Sat.bind (unitsReady_keeps hs) fun _ _ => ?_
  dsimp only
  exact put64_keeps hs

end Sys2Proof.Machine
end

section
/-! PROOFS. The memories under the functions of Machine/Copy.lean. -/

namespace Sys2Proof.Machine

theorem pushCopy_keeps {I : MemInv} {s : State} {ch : Fin 4} {w : V512} (hs : I.On s) :
    Sat I.stop I.On (pushCopy s ch w) := by
  unfold pushCopy
  refine Sat.bind (unitsReady_keeps hs) fun _ _ => ?_
  refine Sat.bind (pushCword_keeps hs) fun a _ => ?_
  dsimp only
  exact Sat.bind (waitFor_keeps hs) fun _ _ => Sat.bind (pushRelease_keeps hs) fun t ht => .ok ht

theorem startChain_keeps {I : MemInv} {s : State} {ch : Fin 4} {v : W64} (hs : I.On s) :
    Sat I.stop I.On (startChain s ch v) := by
  unfold startChain
  refine Sat.bind (need_keeps hs) fun _ _ => ?_
  refine Sat.bind (need_keeps hs) fun _ _ => ?_
  refine Sat.bind (unitsReady_keeps hs) fun _ _ => ?_
  refine Sat.bind (waitFor_keeps hs) fun _ _ => ?_
  refine Sat.bind (chainRelease_keeps hs) fun t ht => ?_
  dsimp only
  exact .ok ht

theorem runningRecord_keeps {I : MemInv} {s : State} {core : Nat} {ch : Fin 4} {mine : Nat → Bool} (hs : I.On s) :
    Maybe (fun p => I.On p.1) (runningRecord s core ch mine) := by
  unfold runningRecord
  dsimp only
  split
  · exact .none
  · split
    · split
      · exact .some hs
      · exact .none
    · split
      · exact .none
      · split
        · exact .some hs
        · exact .none

theorem onStop_keeps {I : MemInv} {core : Nat} {ch : Fin 4} {r : CopyRun} {e : Eng State} {s : State} (hs : I.On s)
    (he : Sat I.eng I.On e) : I.Next (onStop core ch r e s) := by
  unfold onStop
  refine engineEvent_keeps hs he (fun _ _ ht => ht) fun t code d va ht => ?_
  dsimp only
  split <;> exact ht

theorem layoutAt_keeps {I : MemInv} {s : State} {w : Who} {ag : Agent} {va : W64} (hs : I.On s) :
    Sat I.eng (fun p => I.On p.1) (layoutAt s w ag va) := by
  unfold layoutAt
  split
  · exact .error hs
  · exact readRecord_keeps hs

theorem checkStep_keeps {I : MemInv} {s : State} {core : Nat} {ch : Fin 4} {r : CopyRun} (hs : I.On s) :
    Sat I.eng I.On (checkStep s core ch r) := by
  unfold checkStep
  extract_lets w ag words op ends keep bad checked
  have hends {t : State} {st : Nat} (ht : I.On t) : Sat I.eng I.On (ends t st) := .ok ht
  have hkeep {t : State} {r : CopyRun} (ht : I.On t) : Sat I.eng I.On (keep t r) := .ok ht
  have hchecked {p : State × Nat} (ht : I.On p.1) : Sat I.eng I.On (checked p) := by
    unfold checked
    dsimp only
    split
    · exact hends ht
    · split
      · exact hends ht
      · exact .ok ht
  clear_value ends keep checked
  split
  · split
    · have hread := engReadNat_keeps (w := w) (ag := ag) (key := 0) (va := xferSrec words) (n := 128) hs
      split
      next e => exact .error (hread.of_error e)
      next e _ => exact .error (hread.of_error e)
      · exact hends hs
      next e =>
        have ht := hread.of_ok e
        extract_lets h
        split
        · exact hends ht
        · split
          · exact hends ht
          · exact .ok ht
    · split
      · exact hends hs
      · split
        · refine Sat.bind (layoutAt_keeps hs) fun ⟨t, v⟩ ht => ?_
          dsimp only
          split
          · exact hends ht
          · exact hkeep ht
        · exact hkeep hs
  · split
    · exact Sat.bind (layoutAt_keeps hs) fun _ ht => hchecked ht
    · exact hchecked (p := (s, 0)) hs

theorem copyEvent_keeps {core ch : Nat} {mine : Nat → Bool} {unit : State → Who → Agent → CopyRun → Unit_}
    {s : State} (hs : canonForm.On s)
    (hu : ∀ t w ag r, canonForm.On t → Sat canonForm.eng (fun p => canonForm.On p.1) (unit t w ag r)) :
    canonForm.Next (copyEvent core ch mine unit s) := by
  unfold copyEvent
  dsimp only
  split
  · exact .next hs
  next e =>
    have ht := Maybe.of_some (runningRecord_keeps hs) e
    split
    · split
      · exact onStop_keeps ht (checkStep_keeps ht)
      · exact .next ht
    · split
      · exact .next ht
      · exact onStop_keeps ht (Sat.bind (hu _ _ _ _ ht) fun ⟨u, _⟩ h => .ok h)
    · exact .next ht

theorem execCopy_keeps {core ch : Nat} {s : State} (hs : canonForm.On s) : canonForm.Next (execCopy core ch s) := by
  unfold execCopy
  exact copyEvent_keeps hs (fun t a b c ht => copyUnit_keeps ht)

theorem execFill_keeps {core ch : Nat} {s : State} (hs : canonForm.On s) : canonForm.Next (execFill core ch s) := by
  unfold execFill
  exact copyEvent_keeps hs (fun t a b c ht => fillUnit_keeps ht)

theorem execPlane_keeps {core ch : Nat} {s : State} (hs : canonForm.On s) : canonForm.Next (execPlane core ch s) := by
  unfold execPlane
  exact copyEvent_keeps hs (fun t a b c ht => planeUnit_keeps ht)

theorem execUnplane_keeps {core ch : Nat} {s : State} (hs : canonForm.On s) :
    canonForm.Next (execUnplane core ch s) := by
  unfold execUnplane
  exact copyEvent_keeps hs (fun t a b c ht => unplaneUnit_keeps ht)

theorem execFprint_keeps {core ch : Nat} {s : State} (hs : canonForm.On s) :
    canonForm.Next (execFprint core ch s) := by
  unfold execFprint
  exact copyEvent_keeps hs (fun t a b c ht => fprintUnit_keeps ht)

theorem execDedup_keeps {core ch : Nat} {s : State} (hs : canonForm.On s) : canonForm.Next (execDedup core ch s) := by
  unfold execDedup
  exact copyEvent_keeps hs (fun t a b c ht => dedupUnit_keeps ht)

theorem execKvpack_keeps {core ch : Nat} {s : State} (hs : canonForm.On s) :
    canonForm.Next (execKvpack core ch s) := by
  unfold execKvpack
  exact copyEvent_keeps hs (fun t a b c ht => kvpackUnit_keeps ht)

theorem execGather_keeps {core ch : Nat} {s : State} (hs : canonForm.On s) :
    canonForm.Next (execGather core ch s) := by
  unfold execGather
  exact copyEvent_keeps hs (fun t a b c ht => gatherUnit_keeps ht)

theorem takeChained_keeps {I : MemInv} {s : State} {core : Nat} {ch : Fin 4} {at_ v : Nat} (hs : I.On s) :
    I.On (takeChained s core ch at_ v) := by
  unfold takeChained
  dsimp only
  split
  · exact hs
  · exact State.dropCoreAheads_keeps hs

theorem execChainRecordRead_keeps {I : MemInv} {core ch : Nat} {s : State} (hs : I.On s) :
    I.Next (execChainRecordRead core ch s) := by
  unfold execChainRecordRead
  dsimp only
  split
  · exact .next hs
  · split
    · exact .next hs
    · split
      · exact .next hs
      · split
        · exact .next hs
        · refine engineEvent_keeps hs ?_ (fun t a ht => ht) (fun t a b c ht => ht)
          exact Sat.bind (engReadNat_keeps hs) fun ⟨t, a⟩ ht => .ok (takeChained_keeps ht)

theorem leaveRecord_keeps {I : MemInv} {s : State} {core : Nat} {ch : Fin 4} {r : CopyRun} (hs : I.On s) :
    I.On (leaveRecord s core ch r) := by
  unfold leaveRecord
  dsimp only
  exact State.endJob_keeps (MemInv.On.ite hs hs)

theorem backStep_keeps {s : State} {core : Nat} {ch : Fin 4} {r : CopyRun} {at_ : Nat} (hs : canonForm.On s) :
    Sat canonForm.eng canonForm.On (backStep s core ch r at_) := by
  unfold backStep
  dsimp only
  split
  next a t hq =>
    have ht := Sat.of_ok (engWrite1_keeps hs) hq
    exact .ok ht
  next a t b hq =>
    have ht := Sat.of_error (engWrite1_keeps hs) hq
    exact .error ht
  next a t b c d hq =>
    have ht := Sat.of_error (engWrite1_keeps hs) hq
    exact .ok ht
  next a b hq hq1 hq2 =>
    have hp := Sat.of_error (engWrite1_keeps hs) hq2
    exact .error hp

theorem wordStep_keeps {s : State} {core : Nat} {ch : Fin 4} {r : CopyRun} (hs : canonForm.On s) :
    Sat canonForm.eng canonForm.On (wordStep s core ch r) := by
  unfold wordStep
  dsimp only
  split
  · exact completeAt_keeps hs
  · split
    · exact .ok hs
    · split
      next a t b c d hq2 =>
        have ht := Sat.of_error (engWrite1_keeps hs) hq2
        exact .ok ht
      · exact engWrite1_keeps hs

theorem execCopyRecordComplete_keeps {core ch : Nat} {s : State} (hs : canonForm.On s) :
    canonForm.Next (execCopyRecordComplete core ch s) := by
  unfold execCopyRecordComplete
  dsimp only
  split
  · exact .next hs
  next a t b hq =>
    have hp := Maybe.of_some (runningRecord_keeps hs) hq
    split
    · refine engineEvent_keeps hs ?_ (fun u a1 hu => hu) (fun u a1 a2 a3 hu => hu)
      exact Sat.bind (payloadDone_keeps hs) fun u hu => backStep_keeps hu
    · refine engineEvent_keeps hs ?_ (fun u e hu => hu) (fun u e a1 a2 hu => hu)
      refine Sat.bind (payloadDone_keeps hs) fun u hu => ?_
      exact Sat.bind (wordStep_keeps hu) fun v hv => .ok (leaveRecord_keeps hv)
    · exact .next hs

theorem execCopyChannelStop_keeps {I : MemInv} {core ch : Nat} {s : State} (hs : I.On s) :
    I.Next (execCopyChannelStop core ch s) := by
  unfold execCopyChannelStop
  dsimp only
  split <;> exact .next hs

theorem cpCommand_keeps {I : MemInv} {s : State} {core ch ctx : Nat} {cmd : UnitCmd} (hs : I.On s) :
    I.On (cpCommand s core ch ctx cmd) := by
  unfold cpCommand
  dsimp only
  split <;> exact hs

theorem execCpcmdResume_keeps {I : MemInv} {core ch ctx : Nat} {s : State} (hs : I.On s) :
    I.Next (execCpcmdResume core ch ctx s) := by
  unfold execCpcmdResume
  exact .next (cpCommand_keeps hs)

theorem execCpcmdKill_keeps {I : MemInv} {core ch ctx : Nat} {s : State} (hs : I.On s) :
    I.Next (execCpcmdKill core ch ctx s) := by
  unfold execCpcmdKill
  exact .next (cpCommand_keeps hs)

theorem execCpq_keeps {I : MemInv} {f : Fmt} {s : State} (hs : I.On s) : I.Next (execCpq f s) := by
  unfold execCpq
  refine scalarRun_keeps hs ?_
  exact Sat.bind (src512_keeps hs) fun a _ => Sat.bind (pushCopy_keeps hs) fun t ht => putNone_keeps ht

theorem execCpchn_keeps {I : MemInv} {f : Fmt} {s : State} (hs : I.On s) : I.Next (execCpchn f s) := by
  unfold execCpchn
  refine scalarRun_keeps hs ?_
  exact Sat.bind (src64_keeps hs) fun a _ => Sat.bind (startChain_keeps hs) fun t ht => putNone_keeps ht

theorem execCppush_keeps {I : MemInv} {ch : Fin 4} {w : V512} {s : State} (hs : I.On s) :
    I.Next (execCppush ch w s) := by
  unfold execCppush
  exact settle_keeps (pushCopy_keeps hs)

theorem execCphead_keeps {I : MemInv} {ch : Fin 4} {v : W64} {s : State} (hs : I.On s) :
    I.Next (execCphead ch v s) := by
  unfold execCphead
  exact settle_keeps (startChain_keeps hs)

theorem execCpwm_keeps {f : Fmt} {s : State} (hs : canonForm.On s) : canonForm.Next (execCpwm f s) := by
  unfold execCpwm
  refine scalarRun_keeps hs ?_
  exact Sat.bind (unitsReady_keeps hs) fun _ _ => put64_keeps hs

theorem execCpstat_keeps {f : Fmt} {s : State} (hs : canonForm.On s) : canonForm.Next (execCpstat f s) := by
  unfold execCpstat
  refine scalarRun_keeps hs ?_
  exact Sat.bind (unitsReady_keeps hs) fun _ _ => put64_keeps hs

theorem execCpstatLog_keeps {f : Fmt} {s : State} (hs : canonForm.On s) : canonForm.Next (execCpstatLog f s) := by
  unfold execCpstatLog
  refine scalarRun_keeps hs ?_
  refine Sat.bind (unitsReady_keeps hs) fun _ _ => ?_
  refine Sat.bind (dstReady_keeps hs) fun _ _ => ?_
  dsimp only
  exact put64_keeps hs

end Sys2Proof.Machine
end

section
/-! PROOFS. The memories under the functions of Machine/Exponent.lean. -/

namespace Sys2Proof.Machine

theorem spadPut_keeps {s : State} {core off n v : Nat} (hs : canonForm.On s) :
    canonForm.On (spadPut s core off n v) := by
  unfold spadPut
  exact spadWrite_keeps hs

theorem exOutput_keeps {s : State} {core : Nat} {c : V512} {k v : Nat} (hs : canonForm.On s) :
    canonForm.On (exOutput s core c k v) := by
  unfold exOutput
  dsimp only
  exact spadPut_keeps hs

theorem exPut_keeps {s : State} {core : Nat} {c : V512} {k : Nat} {qs : List Nat} (hs : canonForm.On s) :
    canonForm.On (exPut s core c k qs) := by
  unfold exPut
  exact MemInv.On.foldl hs (fun t a ht => exOutput_keeps ht)

theorem exStep_keeps {s : State} {core : Nat} {r : Running} (hs : canonForm.On s) :
    canonForm.On (exStep s core r).1 := by
  unfold exStep
  dsimp only
  exact exPut_keeps hs

theorem softStep_keeps {s : State} {core : Nat} {r : Running} (hs : canonForm.On s) :
    canonForm.On (softStep s core r).1 := by
  unfold softStep
  dsimp only
  split
  · exact hs
  · split
    · exact exPut_keeps hs
    · exact spadPut_keeps (exPut_keeps hs)

theorem pushExponent_keeps {I : MemInv} {s : State} {c : V512} (hs : I.On s) :
    Sat I.stop I.On (pushExponent s c) := by
  unfold pushExponent
  refine Sat.bind (unitsReady_keeps hs) fun _ _ => ?_
  refine Sat.bind (pushCword_keeps hs) fun a _ => ?_
  dsimp only
  exact Sat.bind (waitFor_keeps hs) fun _ _ => Sat.bind (pushRelease_keeps hs) fun t ht => .ok ht

theorem runningCard_keeps {I : MemInv} {s : State} {core : Nat} {mine : Nat → Bool} (hs : I.On s) :
    Maybe (fun p => I.On p.1) (runningCard s core mine) := by
  unfold runningCard
  dsimp only
  split
  · exact .none
  · split
    · split
      · exact .some hs
      · exact .none
    · split
      · exact .none
      · split
        · exact .some hs
        · exact .none

theorem exEvent_keeps {core : Nat} {mine : Nat → Bool} {part : State → Nat → Running → State × Running} {s : State}
    (hs : canonForm.On s) (hp : ∀ t c r, canonForm.On t → canonForm.On (part t c r).1) :
    canonForm.Next (exEvent core mine part s) := by
  unfold exEvent
  split
  · exact .next hs
  next e =>
    have ht := Maybe.of_some (runningCard_keeps hs) e
    dsimp only
    split
    · exact .next ht
    · split
      · exact .next ht
      · split
        · exact .next ht
        · split
          · exact .next ht
          · split
            · exact .next (hp _ _ _ ht)
            · exact .next (hp _ _ _ ht)

theorem execExp2_keeps {core : Nat} {s : State} (hs : canonForm.On s) : canonForm.Next (execExp2 core s) := by
  unfold execExp2
  exact exEvent_keeps hs (fun t a b ht => exStep_keeps ht)

theorem execExpe_keeps {core : Nat} {s : State} (hs : canonForm.On s) : canonForm.Next (execExpe core s) := by
  unfold execExpe
  exact exEvent_keeps hs (fun t a b ht => exStep_keeps ht)

theorem execRecip_keeps {core : Nat} {s : State} (hs : canonForm.On s) : canonForm.Next (execRecip core s) := by
  unfold execRecip
  exact exEvent_keeps hs (fun t a b ht => exStep_keeps ht)

theorem execRsqrt_keeps {core : Nat} {s : State} (hs : canonForm.On s) : canonForm.Next (execRsqrt core s) := by
  unfold execRsqrt
  exact exEvent_keeps hs (fun t a b ht => exStep_keeps ht)

theorem execSoftrow_keeps {core : Nat} {s : State} (hs : canonForm.On s) : canonForm.Next (execSoftrow core s) := by
  unfold execSoftrow
  exact exEvent_keeps hs (fun t a b ht => softStep_keeps ht)

theorem execExpCardComplete_keeps {core : Nat} {s : State} (hs : canonForm.On s) :
    canonForm.Next (execExpCardComplete core s) := by
  unfold execExpCardComplete
  dsimp only
  split
  · split
    · exact .next hs
    · refine engineEvent_keeps hs ?_ (fun t c ht => ht) (fun t c d e ht => ht)
      exact Sat.bind (completeAt_keeps hs) fun t ht => .ok (State.endJob_keeps ht)
  · exact .next hs

theorem execExq_keeps {I : MemInv} {f : Fmt} {s : State} (hs : I.On s) : I.Next (execExq f s) := by
  unfold execExq
  refine onCompute_keeps hs (scalarRun_keeps hs ?_)
  exact Sat.bind (cardOperand_keeps hs) fun a _ => Sat.bind (pushExponent_keeps hs) fun t ht => putNone_keeps ht

theorem execExpush_keeps {I : MemInv} {card : V512} {s : State} (hs : I.On s) : I.Next (execExpush card s) := by
  unfold execExpush
  exact onPort_keeps hs (settle_keeps (pushExponent_keeps hs))

end Sys2Proof.Machine
end

section
/-! PROOFS. The memories under the functions of Machine/Harrow.lean. -/

namespace Sys2Proof.Machine

theorem harrowRun_keeps {I : MemInv} {core op : Nat} {body : State → Harrow → W64 → Result} {s : State} (hs : I.On s)
    (hb : ∀ t h w, I.On t → I.Next (body t h w)) : I.Next (harrowRun core op body s) := by
  unfold harrowRun
  dsimp only
  split
  · exact .next hs
  · split
    · exact .next hs
    · split
      · exact .next hs
      · exact hb _ _ _ hs

theorem harrowPure_keeps {I : MemInv} {core op : Nat} {g : Harrow → W64 → Harrow} {s : State} (hs : I.On s) :
    I.Next (harrowPure core op g s) := by
  unfold harrowPure
  exact harrowRun_keeps hs (fun t a b ht => .next ht)

theorem execHarrowNop_keeps {I : MemInv} {core : Nat} {s : State} (hs : I.On s) : I.Next (execHarrowNop core s) := by
  unfold execHarrowNop
  exact harrowPure_keeps hs

theorem execHarrowSeti_keeps {I : MemInv} {core : Nat} {s : State} (hs : I.On s) :
    I.Next (execHarrowSeti core s) := by
  unfold execHarrowSeti
  exact harrowPure_keeps hs

theorem execHarrowAddi_keeps {I : MemInv} {core : Nat} {s : State} (hs : I.On s) :
    I.Next (execHarrowAddi core s) := by
  unfold execHarrowAddi
  exact harrowPure_keeps hs

theorem execHarrowCmpb_keeps {I : MemInv} {core : Nat} {s : State} (hs : I.On s) :
    I.Next (execHarrowCmpb core s) := by
  unfold execHarrowCmpb
  exact harrowPure_keeps hs

theorem execHarrowLoop_keeps {I : MemInv} {core : Nat} {s : State} (hs : I.On s) :
    I.Next (execHarrowLoop core s) := by
  unfold execHarrowLoop
  exact harrowPure_keeps hs

theorem execHarrowEndl_keeps {I : MemInv} {core : Nat} {s : State} (hs : I.On s) :
    I.Next (execHarrowEndl core s) := by
  unfold execHarrowEndl
  exact harrowPure_keeps hs

theorem execHarrowTrap_keeps {I : MemInv} {core : Nat} {s : State} (hs : I.On s) :
    I.Next (execHarrowTrap core s) := by
  unfold execHarrowTrap
  exact harrowPure_keeps hs

theorem execHarrowEnd_keeps {I : MemInv} {core : Nat} {s : State} (hs : I.On s) : I.Next (execHarrowEnd core s) := by
  unfold execHarrowEnd
  exact harrowPure_keeps hs

theorem execHarrowWaitq_keeps {I : MemInv} {core : Nat} {s : State} (hs : I.On s) :
    I.Next (execHarrowWaitq core s) := by
  unfold execHarrowWaitq
  refine harrowRun_keeps hs (fun t a b ht => ?_)
  split <;> exact .next ht

theorem execHarrowWaitwm_keeps {I : MemInv} {core : Nat} {s : State} (hs : I.On s) :
    I.Next (execHarrowWaitwm core s) := by
  unfold execHarrowWaitwm
  refine harrowRun_keeps hs (fun t a b ht => ?_)
  dsimp only
  split <;> exact .next ht

theorem harrowAccess_keeps {I : MemInv} {core : Nat} {r : Eng State} {s : State} (hs : I.On s)
    (hr : Sat I.eng I.On r) : I.Next (harrowAccess core r s) :=
  engineEvent_keeps hs hr (fun _ _ ht => ht) fun _ _ _ _ ht => ht

theorem harrowAligned_keeps {I : MemInv} {s : State} {va : W64} (hs : I.On s) :
    Sat I.eng (fun _ => True) (harrowAligned s va) := by
  unfold harrowAligned
  split
  · exact .ok trivial
  · exact .error hs

theorem execHarrowWaitc_keeps {I : MemInv} {core : Nat} {s : State} (hs : I.On s) :
    I.Next (execHarrowWaitc core s) := by
  unfold execHarrowWaitc
  refine harrowRun_keeps hs (fun t a b ht => harrowAccess_keeps ht ?_)
  refine Sat.bind (harrowAligned_keeps ht) fun _ _ => ?_
  refine Sat.bind (engReadNat_keeps ht) fun ⟨u, c⟩ hu => ?_
  dsimp only
  split <;> exact .ok hu

theorem execHarrowSignal_keeps {core : Nat} {s : State} (hs : canonForm.On s) :
    canonForm.Next (execHarrowSignal core s) := by
  unfold execHarrowSignal
  refine harrowRun_keeps hs (fun t a b ht => harrowAccess_keeps ht ?_)
  dsimp only
  split
  · exact Sat.raise ht
  · exact Sat.bind (harrowAligned_keeps ht) fun _ _ => Sat.bind (engWrite1_keeps ht) fun u hu => .ok hu

theorem issueTrap_keeps {I : MemInv} {s : State} {f : TrapInfo} (hs : I.On s) : I.On (issueTrap s f).1 := by
  unfold issueTrap
  split
  · exact hs
  · split <;> exact hs

theorem execHarrowIssue_keeps {I : MemInv} {core : Nat} {s : State} (hs : I.On s) :
    I.Next (execHarrowIssue core s) := by
  unfold execHarrowIssue
  refine harrowRun_keeps hs fun t h w ht => ?_
  extract_lets c s1 back r
  have hs1 : I.On s1 := ht
  have hback {u : State} (hu : I.On u) : I.On (back u) := hu
  have hr : Sat I.stop I.On r := by
    unfold r
    split
    · exact pushMatrix_keeps hs1
    · exact pushExponent_keeps hs1
    · exact pushCopy_keeps hs1
  clear_value back
  match r, hr with
  | .ok _, .ok h => exact .next (hback h)
  | .error (.wait _), .error h => exact .next (hback h)
  | .error (.fault _ _), .error h =>
    dsimp only
    split
    · exact .next (hback h)
    · exact .next (issueTrap_keeps (hback h))

theorem hrCommand_keeps {I : MemInv} {s : State} {core ctx : Nat} {k : UnitCmd} (hs : I.On s) :
    I.On (hrCommand s core ctx k) := by
  unfold hrCommand
  dsimp only
  split <;> exact hs

theorem execHrcmdResume_keeps {I : MemInv} {core ctx : Nat} {s : State} (hs : I.On s) :
    I.Next (execHrcmdResume core ctx s) := by
  unfold execHrcmdResume
  exact .next (hrCommand_keeps hs)

theorem execHrcmdKill_keeps {I : MemInv} {core ctx : Nat} {s : State} (hs : I.On s) :
    I.Next (execHrcmdKill core ctx s) := by
  unfold execHrcmdKill
  exact .next (hrCommand_keeps hs)

theorem startHarrow_keeps {I : MemInv} {s : State} {a b : W64} {entry : Nat} (hs : I.On s) :
    Sat I.stop I.On (startHarrow s a b entry) := by
  unfold startHarrow
  refine Sat.bind (unitsReady_keeps hs) fun _ _ => ?_
  dsimp only
  exact Sat.bind (waitFor_keeps hs) fun _ _ => .ok hs

theorem execHstart_keeps {I : MemInv} {f : Fmt} {s : State} (hs : I.On s) : I.Next (execHstart f s) := by
  unfold execHstart
  refine onCompute_keeps hs (scalarRun_keeps hs ?_)
  refine Sat.bind (src64_keeps hs) fun a _ => ?_
  exact Sat.bind (src64_keeps hs) fun b _ => Sat.bind (startHarrow_keeps hs) fun t ht => putNone_keeps ht

theorem execHstartRegister_keeps {I : MemInv} {w : V512} {s : State} (hs : I.On s) :
    I.Next (execHstartRegister w s) := by
  unfold execHstartRegister
  refine onPort_keeps hs (settle_keeps ?_)
  exact Sat.bind (need_keeps hs) fun _ _ => startHarrow_keeps hs

theorem execHstat_keeps {f : Fmt} {s : State} (hs : canonForm.On s) : canonForm.Next (execHstat f s) := by
  unfold execHstat
  refine onCompute_keeps hs (scalarRun_keeps hs ?_)
  exact Sat.bind (unitsReady_keeps hs) fun _ _ => put64_keeps hs

theorem execHstatH_keeps {f : Fmt} {s : State} (hs : canonForm.On s) : canonForm.Next (execHstatH f s) := by
  unfold execHstatH
  refine onCompute_keeps hs (scalarRun_keeps hs ?_)
  exact Sat.bind (unitsReady_keeps hs) fun _ _ => put64_keeps hs

theorem loadHarrow_keeps {I : MemInv} {f : Fmt} {s : State} {b first count used limit size : Nat}
    {put : Harrow → Nat → Nat → Harrow}
    (hs : I.On s) : Sat I.stop I.On (loadHarrow f s b first count used limit size put) := by
  unfold loadHarrow
  refine Sat.bind (need_keeps hs) fun _ _ => ?_
  refine Sat.bind (unitsReady_keeps hs) fun _ _ => ?_
  refine Sat.bind (waitFor_keeps hs) fun _ _ => ?_
  dsimp only
  refine Sat.bind (aligned_keeps hs) fun _ _ => ?_
  exact Sat.bind (R := fun p => I.On p.1) (keepAnswers_keeps (loadWords_keeps hs)) fun ⟨t, a⟩ ht => putNone_keeps ht

theorem execHloadCode_keeps {I : MemInv} {f : Fmt} {s : State} (hs : I.On s) : I.Next (execHloadCode f s) := by
  unfold execHloadCode
  refine onCompute_keeps hs (scalarRun_keeps hs ?_)
  refine Sat.bind (src64_keeps hs) fun a _ => ?_
  dsimp only
  exact Sat.bind (need_keeps hs) fun _ _ => loadHarrow_keeps hs

theorem execHloadTmpl_keeps {I : MemInv} {f : Fmt} {s : State} (hs : I.On s) : I.Next (execHloadTmpl f s) := by
  unfold execHloadTmpl
  refine onCompute_keeps hs (scalarRun_keeps hs ?_)
  refine Sat.bind (src64_keeps hs) fun a _ => ?_
  dsimp only
  exact Sat.bind (need_keeps hs) fun _ _ => loadHarrow_keeps hs

end Sys2Proof.Machine
end

section
/-! PROOFS. The memories under the functions of Machine/Launch.lean. -/

namespace Sys2Proof.Machine

theorem devWalk_keeps {I : MemInv} {s : State} {ag : Agent} {ctx : Nat} {va : W64} {table level x0 : Nat}
    (hs : I.On s) : Sat I.eng (fun p => I.On p.1) (devWalk s ag ctx va table level x0) := by
  induction x0 generalizing s ag ctx va table level with
  | zero =>
    unfold devWalk
    exact .error hs
  | succ k ih =>
    unfold devWalk
    dsimp only
    split
    · exact .error hs
    · refine Sat.bind (R := fun p => I.On p.1) (engOf_keeps (trip_keeps hs)) fun ⟨t, c⟩ ht => ?_
      refine Sat.bind (R := fun _ => True) (engOf_keeps (peerCheck_keeps ht)) fun _ _ => ?_
      split
      · exact .error ht
      · split
        · exact .ok ht
        · exact ih ht

theorem devResolve_keeps {I : MemInv} {s : State} {ag : Agent} {ctx : Nat} {a : Acc} {va : W64} {held : Option TlbEntry}
    (hs : I.On s) : Sat I.eng (fun p => I.On p.1) (devResolve s ag ctx a va held) := by
  unfold devResolve
  dsimp only
  split
  · exact Sat.raise hs
  · split
    · exact Sat.raise hs
    · refine Sat.bind (R := (fun p => I.On p.1)) ?_ fun ⟨t, b⟩ ht => ?_
      · split
        · exact .ok hs
        · exact .error hs
        · exact devWalk_keeps hs
      · split
        · exact .ok ht
        · exact .error ht

theorem placeRead_keeps {I : MemInv} {s : State} {ag : Agent} {ctx : Nat} {p : Option Place}
    {leaf : Option TlbEntry} {va : W64} {n : Nat}
    (hs : I.On s) : Sat I.eng (fun p => I.On p.1) (placeRead s ag ctx p leaf va n) := by
  unfold placeRead
  split
  · exact .error hs
  · dsimp only
    refine Sat.bind (R := fun p => I.On p.1) (engOf_keeps (trip_keeps hs)) fun ⟨t, c⟩ ht => ?_
    exact Sat.bind (R := fun _ => True) (engOf_keeps (peerCheck_keeps ht)) fun _ _ => .ok ht

theorem devRead_keeps {I : MemInv} {s : State} {ag : Agent} {ctx : Nat} {va : W64} {n : Nat}
    {held : Option TlbEntry} {x0 : Nat}
    (hs : I.On s) : Sat I.eng (fun p => I.On p.1) (devRead s ag ctx va n held x0) := by
  induction x0 generalizing s ag ctx va n held with
  | zero =>
    unfold devRead
    exact .ok hs
  | succ k ih =>
    unfold devRead
    split
    · exact .ok hs
    · dsimp only
      refine Sat.bind (devResolve_keeps hs) fun ⟨t, a⟩ ht => ?_
      exact Sat.bind (placeRead_keeps ht) fun ⟨u, b⟩ hu => Sat.bind (ih hu) fun ⟨v, c⟩ hv => .ok hv

theorem devWrite1_keeps {I : MemInv} {s : State} {ag : Agent} {ctx : Nat} {va : W64} {bs : List Byte} (hs : I.On s) :
    Sat I.eng I.On (devWrite1 s ag ctx va bs) := by
  unfold devWrite1
  refine Sat.bind (devResolve_keeps hs) fun p ht => ?_
  split
  extract_lets writes
  have hwrites (a : PUnit) : Sat I.eng I.On (writes a) := by
    unfold writes
    split
    · exact .error ht
    · refine Sat.bind (R := fun p => I.On p.1) (engOf_keeps (trip_keeps ht)) fun ⟨u, d⟩ hu => ?_
      exact Sat.bind (R := fun _ => True) (engOf_keeps (peerCheck_keeps hu)) fun _ _ => .ok hu
  split
  · exact Sat.raise ht
  · exact hwrites ()

theorem refuseIf_keeps {I : MemInv} {b : Bool} {s : State} {code detail : Nat} (hs : I.On s) :
    Sat I.launch (fun _ => True) (refuseIf b s code detail) := by
  unfold refuseIf
  split
  · exact .error hs
  · exact .ok trivial

theorem launchRead_keeps {I : MemInv} {α : Type} {Q : α → Prop} {r : Eng α} (h : Sat I.eng Q r) :
    Sat I.launch Q (launchRead r) := by
  match r, h with
  | .ok _, .ok h => exact .ok h
  | .error (.wait _), .error h => exact .error h
  | .error (.xlate _ _), .error h => exact .error h
  | .error (.bad _ _ _ _), .error h => exact .error h

theorem readKernel_keeps {I : MemInv} {s : State} {ag : Agent} {p : List W64} (hs : I.On s) :
    Sat I.launch (fun p => I.On p.1) (readKernel s ag p) := by
  unfold readKernel
  dsimp only
  refine Sat.bind (R := fun p => I.On p.1) (launchRead_keeps (devRead_keeps hs)) fun ⟨t, a⟩ ht => ?_
  refine Sat.bind (R := fun p => I.On p.1) (launchRead_keeps (devRead_keeps ht)) fun ⟨u, b⟩ hu => ?_
  exact Sat.bind (R := fun p => I.On p.1) (launchRead_keeps (devRead_keeps hu)) fun ⟨v, c⟩ hv => .ok hv

theorem launchChecks_keeps {I : MemInv} {s : State} {ag : Agent} {issuer : Nat} {sup : Bool} {p : List W64}
    (hs : I.On s) : Sat I.launch (fun p => I.On p.1) (launchChecks s ag issuer sup p) := by
  unfold launchChecks
  split
  · exact .error hs
  · dsimp only
    refine Sat.bind (refuseIf_keeps hs) fun _ _ => ?_
    refine Sat.bind (readKernel_keeps hs) fun ⟨t, b⟩ ht => ?_
    split
    · exact .error ht
    · refine Sat.bind (refuseIf_keeps ht) fun _ _ => ?_
      refine Sat.bind (refuseIf_keeps ht) fun _ _ => ?_
      refine Sat.bind (refuseIf_keeps ht) fun _ _ => ?_
      refine Sat.bind (refuseIf_keeps ht) fun _ _ => ?_
      refine Sat.bind (refuseIf_keeps ht) fun _ _ => ?_
      refine Sat.bind (refuseIf_keeps ht) fun _ _ => ?_
      exact Sat.bind (refuseIf_keeps ht) fun _ _ => Sat.bind (refuseIf_keeps ht) fun _ _ => .ok ht

theorem clearBank_keeps {s : State} {core ctx : Nat} (hs : canonForm.On s) : canonForm.On (clearBank s core ctx) := by
  unfold clearBank
  dsimp only
  exact spadZero_keeps hs

theorem grantCore_keeps {s : State} {ctx core : Nat} (hs : canonForm.On s) : canonForm.On (grantCore s ctx core) := by
  unfold grantCore
  dsimp only
  split
  · exact hs
  · split <;> exact clearBank_keeps hs

theorem askSwap_keeps {I : MemInv} {s : State} {ctx core : Nat} (hs : I.On s) : I.On (askSwap s ctx core) := by
  unfold askSwap
  dsimp only
  split
  · split <;> exact hs
  · exact hs

theorem enqueueInitial_keeps {I : MemInv} {s : State} {l : Launch} {t : V512} {stride : Nat} {cls : List Nat}
    {i x0 : Nat}
    (hs : I.On s) : I.On (enqueueInitial s l t stride cls i x0) := by
  induction x0 generalizing s l t stride cls i with
  | zero =>
    unfold enqueueInitial
    exact hs
  | succ k ih =>
    unfold enqueueInitial
    dsimp only
    exact ih (enqueueAt_keeps hs)

theorem launchCore_on {I : MemInv} {s : State} {ctx core : Nat} {k : Kernel} (hs : I.On s) :
    I.On (launchCore s ctx k core) := by
  unfold launchCore
  exact MemInv.On.foldl (State.setUnit_keeps hs) fun _ _ ht => State.setBank_keeps ht

theorem acceptLaunch_keeps {s : State} {p : List W64} {k : Kernel} (hs : canonForm.On s) :
    canonForm.On (acceptLaunch s p k).1 := by
  unfold acceptLaunch
  extract_lets ctx mask s1 s2 s3
  have h1 : canonForm.On s1 := MemInv.On.foldl hs fun _ _ ht => grantCore_keeps ht
  clear_value s1
  have h2 : canonForm.On s2 := MemInv.On.foldl h1 fun _ _ ht => launchCore_on ht
  clear_value s2
  have h3 : canonForm.On s3 := MemInv.On.foldl h2 fun _ _ ht => askSwap_keeps ht
  clear_value s3
  exact enqueueInitial_keeps h3

theorem runLaunch_keeps {s : State} {ag : Agent} {issuer : Nat} {sup : Bool} {p : List W64}
    (hs : canonForm.On s) : Sat canonForm.eng (fun p => canonForm.On p.1) (runLaunch s ag issuer sup p) := by
  have hchecks := launchChecks_keeps (ag := ag) (issuer := issuer) (sup := sup) (p := p) hs
  unfold runLaunch
  split
  next e =>
    split
    next e' => exact .ok (MemInv.On.fst (acceptLaunch_keeps (hchecks.of_ok e)) e')
  next e =>
    have ht := hchecks.of_error e
    exact .ok ht
  next e => exact .error (retry_keeps hs (hchecks.of_error e))

theorem execLaunchUnitProcess_keeps {slot : Nat} {s : State} (hs : canonForm.On s) :
    canonForm.Next (execLaunchUnitProcess slot s) := by
  unfold execLaunchUnitProcess
  dsimp only
  split
  · exact .next hs
  · split
    next a t b hq1 =>
      have hp := Sat.of_ok (runLaunch_keeps hs) hq1
      exact .next hp
    next a t hq1 =>
      have ht := Sat.of_error (runLaunch_keeps hs) hq1
      exact .next ht
    next a b hq1 hq2 =>
      have hp := Sat.of_error (runLaunch_keeps hs) hq2
      exact .next hs

theorem execTaskDispatch_keeps {I : MemInv} {hart : Nat} {s : State} (hs : I.On s) :
    I.Next (execTaskDispatch hart s) := by
  unfold execTaskDispatch
  exact .next (dispatch_keeps hs)

theorem execMigrateAbandon_keeps {I : MemInv} {hart ctx : Nat} {s : State} (hs : I.On s) :
    I.Next (execMigrateAbandon hart ctx s) := by
  unfold execMigrateAbandon
  split
  · dsimp only
    exact .next (loseSlice_keeps (discardLines_keeps hs))
  · exact .next hs

theorem execEndNotice_keeps {I : MemInv} {n : Nat} {s : State} (hs : I.On s) : I.Next (execEndNotice n s) := by
  unfold execEndNotice
  exact .next (noticeArrives_keeps hs)

theorem execEndNoticeAck_keeps {I : MemInv} {n : Nat} {s : State} (hs : I.On s) : I.Next (execEndNoticeAck n s) := by
  unfold execEndNoticeAck
  exact .next (noticeAcked_keeps hs)

theorem endPipe_keeps {I : MemInv} {s : State} {ctx core : Nat} {e : Nat × Pipe} (hs : I.On s) :
    I.On (endPipe s ctx core e) := by
  unfold endPipe
  dsimp only
  split
  · split
    · exact MemInv.On.foldl hs (fun t a2 ht => ht)
    · exact MemInv.On.foldl hs (fun t a1 ht => ht)
  · exact MemInv.On.foldl hs (fun t b ht => ht)

theorem freeCore_keeps {I : MemInv} {s : State} {ctx core : Nat} (hs : I.On s) : I.On (freeCore s ctx core) := by
  unfold freeCore
  dsimp only
  refine MemInv.On.foldl (MemInv.On.foldl (MemInv.On.foldl hs fun t a ht => endPipe_keeps ht) ?_) fun t a ht => ht
  exact fun t a ht => MemInv.On.ite ht ht

theorem freeLaunch_keeps {I : MemInv} {s : State} {g : Nat} {l : Launch} (hs : I.On s) : I.On (freeLaunch s g l) := by
  unfold freeLaunch
  dsimp only
  exact MemInv.On.foldl hs (fun t a ht => freeCore_keeps ht)

theorem execGraphEnd_keeps {I : MemInv} {g : Nat} {s : State} (hs : I.On s) : I.Next (execGraphEnd g s) := by
  unfold execGraphEnd
  split
  · exact .next hs
  · split
    · exact .next hs
    · split
      · exact .next (freeLaunch_keeps hs)
      · split
        next c t hq3 =>
          have ht := Sat.of_ok (devWrite1_keeps hs) hq3
          exact .next (freeLaunch_keeps ht)
        next c t hq3 =>
          have ht := Sat.of_error (devWrite1_keeps hs) hq3
          exact .next (retry_keeps hs ht)
        next c t d hq3 =>
          have ht := Sat.of_error (devWrite1_keeps hs) hq3
          exact .next (freeLaunch_keeps ht)
        next c t d e a1 hq3 =>
          have ht := Sat.of_error (devWrite1_keeps hs) hq3
          exact .next (freeLaunch_keeps ht)

theorem execReserveAdjust_keeps {I : MemInv} {die ctx : Nat} {s : State} (hs : I.On s) :
    I.Next (execReserveAdjust die ctx s) := by
  unfold execReserveAdjust
  dsimp only
  split <;> exact .next hs

end Sys2Proof.Machine
end

section
/-! PROOFS. The memories under the functions of Machine/Traps.lean. -/

namespace Sys2Proof.Machine

theorem steadingTake_keeps {I : MemInv} {s : State} {n : Nat} {p : Packet} (hs : I.On s) :
    I.On (steadingTake s n p) := by
  unfold steadingTake
  split <;> exact hs

theorem steadingConsume_keeps {I : MemInv} {s : State} (hs : I.On s) : I.On (steadingConsume s) := by
  unfold steadingConsume
  split <;> exact hs

theorem trapTrip_keeps {I : MemInv} {s : State} {cluster : Nat} {k : ReqKind} {a n : Nat} {d : V512} (hs : I.On s) :
    Sat I.stop (fun p => I.On p.1) (trapTrip s cluster k a n d) := by
  unfold trapTrip
  exact trip_keeps hs

theorem trapReads_keeps {I : MemInv} {s : State} {cluster a : Nat} (hs : I.On s) :
    Sat I.stop I.On (trapReads s cluster a) := by
  unfold trapReads
  split
  · exact Sat.bind (trapTrip_keeps hs) fun ⟨t, c⟩ ht => .ok (MemInv.On.ite ht ht)
  · exact Sat.bind (trapTrip_keeps hs) fun ⟨t, d⟩ ht => .ok (MemInv.On.ite ht ht)

theorem trapWrites_keeps {I : MemInv} {s : State} {cluster a : Nat} {u : TrapUnit} {p : Packet} (hs : I.On s) :
    Sat I.stop I.On (trapWrites s cluster a u p) := by
  unfold trapWrites
  split
  · exact .ok hs
  · dsimp only
    refine Sat.bind (trapTrip_keeps hs) fun ⟨t, d⟩ ht => ?_
    exact Sat.bind (trapTrip_keeps ht) fun ⟨v, e⟩ hv => .ok (MemInv.On.ite hv hv)

theorem execTrapPacketAdmit_keeps {I : MemInv} {n : Nat} {s : State} (hs : I.On s) :
    I.Next (execTrapPacketAdmit n s) := by
  unfold execTrapPacketAdmit
  split
  · exact .next hs
  · split
    · exact .next (steadingTake_keeps hs)
    · split
      · exact .next hs
      · split
        · exact agentEvent_keeps (trapReads_keeps hs)
        · split
          · split
            · exact agentEvent_keeps (trapWrites_keeps hs)
            · exact .next hs
          · split
            · exact .next hs
            · split
              · exact .next hs
              · exact agentEvent_keeps (trapReads_keeps hs)

theorem execTrapConsPoll_keeps {I : MemInv} {cluster : Nat} {s : State} (hs : I.On s) :
    I.Next (execTrapConsPoll cluster s) := by
  unfold execTrapConsPoll
  split
  · exact .next (steadingConsume_keeps hs)
  · split
    · exact .next hs
    · split
      · exact agentEvent_keeps (trapReads_keeps hs)
      · exact .next hs

end Sys2Proof.Machine
end

section
/-! PROOFS. The memories under the functions of Machine/Tours.lean. -/

namespace Sys2Proof.Machine

theorem State.popHead_keeps {I : MemInv} {s : State} {core ctx n : Nat} (hs : I.On s) :
    I.On (s.popHead core ctx n) := by
  unfold State.popHead
  dsimp only
  exact MemInv.On.foldl hs (fun t a ht => ht)

theorem finishTour_keeps {I : MemInv} {s : State} {origin ctx id : Nat} (hs : I.On s) :
    I.On (finishTour s origin ctx id) := by
  unfold finishTour
  split
  · exact hs
  · dsimp only
    exact hs

theorem afterStop_keeps {I : MemInv} {s : State} {origin ctx id i : Nat} {end_ : Bool} {from_ : LegFrom}
    (hs : I.On s) : I.On (afterStop s origin ctx id i end_ from_) := by
  unfold afterStop
  split
  · exact hs
  · split
    · exact finishTour_keeps hs
    · dsimp only
      exact hs

theorem reclaim_keeps {I : MemInv} {s : State} {core ctx ring : Nat} {v : Visit} (hs : I.On s) :
    I.On (reclaim s core ctx ring v) := by
  unfold reclaim
  dsimp only
  exact afterStop_keeps (MemInv.On.ite hs (MemInv.On.ite (State.popHead_keeps hs) hs))

theorem tourSwap_keeps {I : MemInv} {s : State} {core ctx : Nat} (hs : I.On s) : I.On (tourSwap s core ctx) := by
  unfold tourSwap
  refine MemInv.On.foldl hs fun t a ht => MemInv.On.foldl (MemInv.On.foldl ht fun u b hu => hu) ?_
  exact fun u b hu => reclaim_keeps hu

theorem unreserve_keeps {I : MemInv} {s : State} {ctx : Nat} {t : Tour} {l : Leg} (hs : I.On s) :
    I.On (unreserve s ctx t l) := by
  unfold unreserve
  split
  · dsimp only
    exact hs
  · exact hs

theorem endTour_keeps {I : MemInv} {s : State} {origin ctx id status : Nat} (hs : I.On s) :
    I.On (endTour s origin ctx id status) := by
  unfold endTour
  split
  · exact hs
  · dsimp only
    exact MemInv.On.foldl (MemInv.On.foldl hs (fun t c ht => unreserve_keeps ht)) (fun t c ht => ht)

theorem tourEvent_keeps {I : MemInv} {s : State} {origin ctx id : Nat} {r : Eng State} (hs : I.On s)
    (hr : Sat I.eng I.On r) : I.Next (tourEvent s origin ctx id r) := by
  unfold tourEvent
  exact engineEvent_keeps hs hr (fun _ _ ht => ht) fun _ _ _ _ ht => endTour_keeps ht

theorem readSrc_keeps {I : MemInv} {s : State} {origin id : Nat} {t : Tour} {at_ : Nat} (hs : I.On s) :
    Sat I.eng (fun p => I.On p.1) (readSrc s origin id t at_) := by
  unfold readSrc
  extract_lets va reads spans keys
  have hreads (a : PUnit) : Sat I.eng (fun p => I.On p.1) (reads a) := by
    refine Sat.bind (engRead1_keeps hs) fun p hp => ?_
    split
    · exact .ok hp
    · exact .error hp
  have hspans (a : PUnit) : Sat I.eng (fun p => I.On p.1) (spans a) := by
    unfold spans
    split
    · exact Sat.raise hs
    · exact hreads ()
  have hkeys (a : PUnit) : Sat I.eng (fun p => I.On p.1) (keys a) := by
    unfold keys
    split
    · exact Sat.raise hs
    · exact hspans ()
  split
  · exact Sat.raise hs
  · exact hkeys ()

theorem legStep_keeps {I : MemInv} {s : State} {origin ctx id : Nat} {t : Tour} {l : Leg} (hs : I.On s) :
    Sat I.eng I.On (legStep s origin ctx id t l) := by
  unfold legStep
  split
  · refine Sat.bind (readSrc_keeps hs) fun ⟨u, b⟩ hu => ?_
    dsimp only
    split <;> exact .ok hu
  · dsimp only
    exact .ok hs

theorem reserveLeg_keeps {I : MemInv} {s : State} {origin ctx id : Nat} {t : Tour} {l : Leg} (hs : I.On s) :
    I.On (reserveLeg s origin ctx id t l).1 := by
  unfold reserveLeg
  dsimp only
  exact MemInv.On.ite hs hs

theorem State.modTour_on {I : MemInv} {s : State} {origin ctx id : Nat} {g : Tour → Tour} (hs : I.On s) :
    I.On (s.modTour origin ctx id g) := hs

theorem publishTile_keeps {s : State} {origin ctx id : Nat} {t : Tour} {i : Nat} {mg : Bool} {d : Nat}
    (hs : canonForm.On s) : canonForm.On (publishTile s origin ctx id t i mg d) := by
  unfold publishTile
  extract_lets p r s1 v s2 s3
  have h1 : canonForm.On s1 := spadWrite_keeps hs
  clear_value s1
  have h2 : canonForm.On s2 := h1
  clear_value s2
  have h3 : canonForm.On s3 := MemInv.On.ite (ringRose_keeps h2) h2
  clear_value s3
  exact State.modTour_on h3

theorem execTourLeg_keeps {I : MemInv} {origin tour : Nat} {s : State} (hs : I.On s) :
    I.Next (execTourLeg origin tour s) := by
  unfold execTourLeg
  dsimp only
  split
  · exact .next hs
  · split
    · exact .next hs
    · split
      · exact .next (State.modTour_on hs)
      · split
        · exact tourEvent_keeps hs (legStep_keeps hs)
        · split
          · exact .next hs
          · exact tourEvent_keeps (reserveLeg_keeps hs) (legStep_keeps (reserveLeg_keeps hs))

theorem refillSlot_keeps {s : State} {origin ctx id : Nat} {t : Tour} {stop arr d : Nat} (hs : canonForm.On s) :
    canonForm.On (refillSlot s origin ctx id t stop arr d) := by
  unfold refillSlot
  dsimp only
  exact State.modTour_on (spadWrite_keeps hs)

theorem landTile_keeps {s : State} {origin ctx id : Nat} {t : Tour} {l : Leg} {d : Nat} (hs : canonForm.On s) :
    canonForm.On (landTile s origin ctx id t l d) := by
  unfold landTile
  dsimp only
  split
  · exact refillSlot_keeps (unreserve_keeps (State.modTour_on hs))
  · exact publishTile_keeps (unreserve_keeps (State.modTour_on hs))

theorem tileArrive_keeps {s : State} {n : Nat} (hs : canonForm.On s) : canonForm.On (tileArrive s n) := by
  unfold tileArrive
  split
  · exact hs
  · split
    · split
      · exact hs
      · dsimp only
        split
        · exact hs
        · split
          · exact hs
          · exact landTile_keeps hs
    · exact hs

theorem execMakeGood_keeps {I : MemInv} {origin tour : Nat} {s : State} (hs : I.On s) :
    I.Next (execMakeGood origin tour s) := by
  unfold execMakeGood
  dsimp only
  split
  · exact .next hs
  · split
    · split
      · exact tourEvent_keeps hs (legStep_keeps hs)
      · exact tourEvent_keeps (reserveLeg_keeps hs) (legStep_keeps (reserveLeg_keeps hs))
    · exact .next hs
    · split
      · exact .next hs
      · exact .next (State.modTour_on hs)

theorem expire_keeps {I : MemInv} {s : State} {core ctx ring : Nat} {v : Visit} (hs : I.On s) :
    I.On (expire s core ctx ring v) := by
  unfold expire
  split
  · exact reclaim_keeps hs
  · exact hs

theorem execHoldExpiry_keeps {I : MemInv} {core ring slotNo : Nat} {s : State} (hs : I.On s) :
    I.Next (execHoldExpiry core ring slotNo s) := by
  unfold execHoldExpiry
  dsimp only
  split
  · exact .next hs
  · split
    · exact .next (expire_keeps hs)
    · exact .next hs

theorem execTransitDrop_keeps {I : MemInv} {core ring slotNo : Nat} {s : State} (hs : I.On s) :
    I.Next (execTransitDrop core ring slotNo s) := by
  unfold execTransitDrop
  dsimp only
  split
  · exact .next hs
  · split
    · split
      · exact .next (State.modTour_on hs)
      · exact .next hs
    · exact .next hs

theorem execTourComplete_keeps {origin tour : Nat} {s : State} (hs : canonForm.On s) :
    canonForm.Next (execTourComplete origin tour s) := by
  unfold execTourComplete
  dsimp only
  split
  · exact .next hs
  · split
    · exact .next hs
    · split
      · exact .next hs
      · split
        · exact .next (MemInv.On.ite hs hs)
        · refine engineEvent_keeps hs ?_ (fun t c ht => MemInv.On.ite ht ht) (fun t c d e ht => MemInv.On.ite ht ht)
          exact Sat.bind (engWrite1_keeps hs) fun t ht => .ok (MemInv.On.ite ht ht)

theorem countDogs_keeps {I : MemInv} {s : State} {n : Nat} (hs : I.On s) : I.On (countDogs s n) := by
  unfold countDogs
  split <;> exact hs

theorem execTourWatchdog_keeps {I : MemInv} {origin tour : Nat} {s : State} (hs : I.On s) :
    I.Next (execTourWatchdog origin tour s) := by
  unfold execTourWatchdog
  dsimp only
  split
  · exact .next hs
  · split
    · exact .next hs
    · exact .next (endTour_keeps hs)

theorem tourCommand_keeps {I : MemInv} {s : State} {core ctx tour : Nat} {k : UnitCmd} (hs : I.On s) :
    I.On (tourCommand s core ctx tour k) := by
  unfold tourCommand
  split
  · exact hs
  · split
    · exact hs
    · dsimp only
      split
      · exact State.modTour_on hs
      · exact endTour_keeps (State.modTour_on hs)

theorem tourCmd_keeps {I : MemInv} {s : State} {core ctx tour : Nat} {k : UnitCmd} (hs : I.On s) :
    I.On (tourCmd s core ctx tour k) := by
  unfold tourCmd
  split
  · exact tourCommand_keeps hs
  · exact State.modTour_on hs

theorem execTourcmdResume_keeps {I : MemInv} {core tour ctx : Nat} {s : State} (hs : I.On s) :
    I.Next (execTourcmdResume core tour ctx s) := by
  unfold execTourcmdResume
  exact .next (tourCmd_keeps hs)

theorem execTourcmdKill_keeps {I : MemInv} {core tour ctx : Nat} {s : State} (hs : I.On s) :
    I.Next (execTourcmdKill core tour ctx s) := by
  unfold execTourcmdKill
  exact .next (tourCmd_keeps hs)

theorem startTour_keeps {I : MemInv} {s : State} {origin id : Nat} {t : Tour} (hs : I.On s) :
    Sat I.stop (fun p => I.On p.1) (startTour s origin id t) := by
  unfold startTour
  extract_lets reads released
  have hr : Sat I.stop I.On released := Sat.bind (pushRelease_keeps hs) fun u hu =>
    Sat.bind (R := fun _ => True) (inRelease_keeps (waitFor_keeps hu)) fun _ _ => .ok hu
  match released, hr with
  | .ok _, .ok h => exact .ok h
  | .error (.wait u), .error h =>
    have hu : I.On u := h
    exact hold_keeps (MemInv.On.ite hu hu)
  | .error (.fault _ _), .error h => exact fail_keeps h

theorem offerTour_keeps {I : MemInv} {s : State} {r : Nat} (hs : I.On s) :
    Sat I.stop (fun p => I.On p.1) (offerTour s r) := by
  unfold offerTour
  dsimp only
  refine Sat.bind (waitFor_keeps hs) fun _ _ => ?_
  split
  · exact startTour_keeps hs
  · split
    · exact .ok hs
    · split
      · exact .ok hs
      · exact Sat.bind (waitFor_keeps hs) fun _ _ => startTour_keeps hs

theorem execTour_keeps {f : Fmt} {s : State} (hs : canonForm.On s) : canonForm.Next (execTour f s) := by
  unfold execTour
  refine onCompute_keeps hs (scalarRun_keeps hs ?_)
  refine Sat.bind (unitsReady_keeps hs) fun _ _ => ?_
  dsimp only
  refine Sat.bind (need_keeps hs) fun _ _ => ?_
  refine keepAnswers_keeps ?_
  refine Sat.bind (loadWords_keeps hs) fun ⟨t, a⟩ ht => ?_
  split
  · exact Sat.bind (offerTour_keeps ht) fun ⟨u, c⟩ hu => put64_keeps hu
  · exact put64_keeps ht

theorem boundHandle_keeps {I : MemInv} {s : State} {h : Fin 16} (hs : I.On s) :
    Sat I.stop (fun _ => True) (boundHandle s h) := by
  unfold boundHandle
  dsimp only
  exact Sat.bind (need_keeps hs) fun _ _ => .ok trivial

theorem execTourBind_keeps {f : Fmt} {s : State} (hs : canonForm.On s) : canonForm.Next (execTourBind f s) := by
  unfold execTourBind
  refine onCompute_keeps hs (scalarRun_keeps hs ?_)
  refine Sat.bind (unitsReady_keeps hs) fun _ _ => ?_
  dsimp only
  refine Sat.bind (boundHandle_keeps hs) fun a _ => ?_
  split
  · exact put64_keeps hs
  · split
    · exact put64_keeps hs
    · split <;> exact put64_keeps hs

theorem tourHandle_keeps {I : MemInv} {s : State} {h : Fin 16} (hs : I.On s) :
    Sat I.stop (fun _ => True) (tourHandle s h) := by
  unfold tourHandle
  refine Sat.bind (unitsReady_keeps hs) fun _ _ => ?_
  exact Sat.bind (boundHandle_keeps hs) fun a _ => Sat.bind (need_keeps hs) fun _ _ => .ok trivial

theorem releaseVisit_keeps {I : MemInv} {s : State} {core ctx n : Nat} {v : Visit} {end_ : Bool} (hs : I.On s) :
    I.On (releaseVisit s core ctx n v end_) := by
  unfold releaseVisit
  dsimp only
  split
  · exact State.popHead_keeps hs
  · split
    · exact State.modTour_on (State.popHead_keeps (State.modTour_on hs))
    · split <;> exact afterStop_keeps (State.popHead_keeps (State.modTour_on hs))

theorem trelRun_keeps {f : Fmt} {s : State} {end_ : Bool} (hs : canonForm.On s) :
    Sat canonForm.stop canonForm.On (trelRun f s end_) := by
  unfold trelRun
  dsimp only
  refine Sat.bind (tourHandle_keeps hs) fun a _ => ?_
  split
  · exact hold_keeps hs
  · split
    · exact hold_keeps (expire_keeps hs)
    · split
      · exact put64_keeps hs
      · split
        · exact put64_keeps (State.popHead_keeps hs)
        · exact Sat.bind (waitFor_keeps hs) fun _ _ => put64_keeps (releaseVisit_keeps hs)

theorem execTrel_keeps {f : Fmt} {s : State} (hs : canonForm.On s) : canonForm.Next (execTrel f s) := by
  unfold execTrel
  exact onCompute_keeps hs (scalarRun_keeps hs (trelRun_keeps hs))

theorem execTrelEnd_keeps {f : Fmt} {s : State} (hs : canonForm.On s) : canonForm.Next (execTrelEnd f s) := by
  unfold execTrelEnd
  exact onCompute_keeps hs (scalarRun_keeps hs (trelRun_keeps hs))

theorem execTstat_keeps {f : Fmt} {s : State} (hs : canonForm.On s) : canonForm.Next (execTstat f s) := by
  unfold execTstat
  exact onCompute_keeps hs (scalarRun_keeps hs (put64_keeps hs))

theorem execTstatHead_keeps {f : Fmt} {s : State} (hs : canonForm.On s) : canonForm.Next (execTstatHead f s) := by
  unfold execTstatHead
  refine onCompute_keeps hs (scalarRun_keeps hs ?_)
  dsimp only
  refine Sat.bind (tourHandle_keeps hs) fun a _ => ?_
  refine put64_keeps ?_
  split
  · exact expire_keeps hs
  · exact hs

theorem execRingPublish_keeps {n : Nat} {s : State} (hs : canonForm.On s) : canonForm.Next (execRingPublish n s) := by
  unfold execRingPublish
  split
  · exact .next hs
  · split
    · exact .next (tileArrive_keeps hs)
    · exact .next (ringArrive_keeps hs)

theorem execCreditReturn_keeps {I : MemInv} {n : Nat} {s : State} (hs : I.On s) : I.Next (execCreditReturn n s) := by
  unfold execCreditReturn
  exact .next (creditArrive_keeps hs)

end Sys2Proof.Machine
end

section
/-! PROOFS. The memories under the functions of Machine/Splices.lean. -/

namespace Sys2Proof.Machine

theorem pointAt_keeps {I : MemInv} {s : State} {core ctx key : Nat} {dst : Option (Nat × Nat)} {held : Bool}
    (hs : I.On s) : I.On (pointAt s core ctx key dst held) := by
  unfold pointAt
  dsimp only
  split <;> exact hs

theorem linkStage_keeps {I : MemInv} {s : State} {ctx : Nat} {p : Pipe} {i : Nat} (hs : I.On s) :
    I.On (linkStage s ctx p i) := by
  unfold linkStage
  split
  · exact hs
  · split
    · exact hs
    · exact pointAt_keeps hs

theorem holdLink_keeps {I : MemInv} {s : State} {ctx key core : Nat} {out : Option Nat} (hs : I.On s) :
    I.On (holdLink s ctx key core out) := by
  unfold holdLink
  split <;> exact hs

theorem effectInsert_keeps {I : MemInv} {s : State} {ctx key : Nat} {x : Splice} {st new_ : Stage} (hs : I.On s) :
    I.On (effectInsert s ctx key x st new_) := by
  unfold effectInsert
  dsimp only
  split
  · exact holdLink_keeps hs
  · refine holdLink_keeps (pointAt_keeps ?_)
    split <;> exact hs

theorem effectRemove_keeps {I : MemInv} {s : State} {ctx key : Nat} {p : Pipe} {x : Splice} {core : Nat}
    {out : Option Nat}
    (hs : I.On s) : I.On (effectRemove s ctx key p x core out) := by
  unfold effectRemove
  split
  · exact hs
  · dsimp only
    split
    · split <;> exact holdLink_keeps hs
    · exact holdLink_keeps hs

theorem bequeath_keeps {I : MemInv} {s : State} {ctx : Nat} {p : Pipe} {x : Splice} (hs : I.On s) :
    I.On (bequeath s ctx p x) := by
  unfold bequeath
  split
  · split
    · dsimp only
      exact hs
    · exact hs
  · exact hs

theorem tailEnd_keeps {I : MemInv} {s : State} {ctx key : Nat} (hs : I.On s) : I.On (tailEnd s ctx key) := by
  unfold tailEnd
  dsimp only
  split
  · split
    · exact hs
    · split
      · split <;> exact bequeath_keeps hs
      · exact bequeath_keeps hs
  · exact hs

theorem forward_keeps {I : MemInv} {s : State} {core ctx link next : Nat} {m : Marker} (hs : I.On s) :
    I.On (forward s core ctx link next m) := by
  unfold forward
  split
  · exact tailEnd_keeps hs
  · split <;> exact hs

theorem passOn_keeps {I : MemInv} {s : State} {core ctx n next : Nat} {m : Marker} (hs : I.On s) :
    I.On (passOn s core ctx n next m) := by
  unfold passOn
  dsimp only
  exact forward_keeps hs

theorem abortSplice_keeps {I : MemInv} {s : State} {ctx key reason : Nat} (hs : I.On s) :
    I.On (abortSplice s ctx key reason) := by
  unfold abortSplice
  split
  · exact hs
  · dsimp only
    split
    · exact MemInv.On.ite (MemInv.On.ite hs hs) hs
    · exact hs

theorem effectEvent_keeps {I : MemInv} {core pipe opk : Nat} {ready : Standing → Bool}
    {change : State → Nat → Standing → Stage → State} {s : State} (hs : I.On s)
    (hc : ∀ t c x st, I.On t → I.On (change t c x st)) : I.Next (effectEvent core pipe opk ready change s) := by
  have hpass {t : State} {n next : Nat} {mk : Marker} (ht : I.On t) :
      I.Next (.next (passOn t core (s.ctxOf core) n next mk)) :=
    .next (passOn_keeps ht)
  unfold effectEvent
  dsimp only
  split
  · exact .next hs
  · split
    · exact .next hs
    · split
      · exact .next hs
      · exact hpass (abortSplice_keeps hs)
      · exact hpass (hc _ _ _ _ hs)
      · exact .next hs

theorem execSpliceInsert_keeps {I : MemInv} {core pipe : Nat} {s : State} (hs : I.On s) :
    I.Next (execSpliceInsert core pipe s) := by
  unfold execSpliceInsert
  refine effectEvent_keeps hs (fun t a b c ht => ?_)
  split
  · exact effectInsert_keeps ht
  · exact ht

theorem headRemove_keeps {I : MemInv} {pipe : Nat} {s : State} (hs : I.On s) : I.Next (headRemove pipe s) := by
  unfold headRemove
  dsimp only
  split
  · exact .next hs
  · split
    · exact .next hs
    · split
      · exact .next hs
      · split
        · exact .next hs
        · split <;> exact .next (abortSplice_keeps hs)
        · exact .next (effectRemove_keeps hs)

theorem execSpliceRemove_keeps {I : MemInv} {core pipe : Nat} {s : State} (hs : I.On s) :
    I.Next (execSpliceRemove core pipe s) := by
  unfold execSpliceRemove
  split
  · exact .next hs
  · split
    · split
      · exact headRemove_keeps hs
      · exact .next hs
    · exact effectEvent_keeps hs (fun t c d e ht => effectRemove_keeps ht)

theorem execSpliceRebind_keeps {I : MemInv} {core pipe : Nat} {s : State} (hs : I.On s) :
    I.Next (execSpliceRebind core pipe s) := by
  unfold execSpliceRebind
  exact effectEvent_keeps hs (fun t a b c ht => holdLink_keeps ht)

theorem passLost_keeps {I : MemInv} {s : State} {core ctx : Nat} {e : Nat × Marker × Nat × Stage} (hs : I.On s) :
    I.On (passLost s core ctx e) := by
  unfold passLost
  dsimp only
  split
  · split
    · exact forward_keeps (abortSplice_keeps hs)
    · exact forward_keeps hs
  · split
    · exact forward_keeps (abortSplice_keeps hs)
    · exact forward_keeps hs

theorem execMarkerPass_keeps {I : MemInv} {core pipe : Nat} {s : State} (hs : I.On s) :
    I.Next (execMarkerPass core pipe s) := by
  unfold execMarkerPass
  dsimp only
  split
  · exact .next (passLost_keeps hs)
  · split
    · exact .next hs
    · split
      · exact .next hs
      · exact .next (passOn_keeps hs)

theorem endHold_keeps {I : MemInv} {s : State} {ctx core key : Nat} {l : Link} (hs : I.On s) :
    I.On (endHold s ctx core key l) := by
  unfold endHold
  split
  · dsimp only
    exact hs
  · exact hs

theorem execDrainAcknowledgement_keeps {I : MemInv} {core pipe : Nat} {s : State} (hs : I.On s) :
    I.Next (execDrainAcknowledgement core pipe s) := by
  unfold execDrainAcknowledgement
  dsimp only
  split
  · exact .next hs
  · split
    · exact .next (endHold_keeps hs)
    · exact .next hs

theorem ackHere_keeps {I : MemInv} {s : State} {core ctx pipe : Nat} {x : Splice} (hs : I.On s) :
    I.On (ackHere s core ctx pipe x) := by
  unfold ackHere
  split
  · split
    · split
      · exact endHold_keeps hs
      · exact hs
    · exact hs
  · exact hs

theorem execSpliceComplete_keeps {core pipe : Nat} {s : State} (hs : canonForm.On s) :
    canonForm.Next (execSpliceComplete core pipe s) := by
  unfold execSpliceComplete
  dsimp only
  split
  · exact .next hs
  · split
    · exact .next hs
    · split
      · exact .next (MemInv.On.ite (ackHere_keeps hs) (ackHere_keeps hs))
      · refine engineEvent_keeps hs ?_ (fun t c ht => MemInv.On.ite (ackHere_keeps ht) (ackHere_keeps ht))
          (fun t c d e ht => MemInv.On.ite (ackHere_keeps ht) (ackHere_keeps ht))
        exact Sat.bind (engWrite1_keeps hs) fun t ht => .ok (MemInv.On.ite (ackHere_keeps ht) (ackHere_keeps ht))

theorem leftOver_keeps {I : MemInv} {s : State} {ctx core n : Nat} (hs : I.On s) : I.On (leftOver s ctx core n) := by
  unfold leftOver
  dsimp only
  split
  · split
    · exact pointAt_keeps hs
    · exact hs
  · split
    · split
      · exact pointAt_keeps hs
      · exact hs
    · refine pointAt_keeps ?_
      split
      · split <;> exact pointAt_keeps hs
      · split <;> exact hs

theorem openPipe_keeps {I : MemInv} {s : State} {r : Nat} {h : Fin 16} (hs : I.On s) : I.On (openPipe s r h) := by
  unfold openPipe
  dsimp only
  refine MemInv.On.foldl ?_ (fun t a ht => linkStage_keeps ht)
  split
  · exact pointAt_keeps (MemInv.On.foldl hs (fun t c ht => leftOver_keeps ht))
  · exact MemInv.On.foldl hs (fun t b ht => leftOver_keeps ht)

theorem execSplprepOpen_keeps {f : Fmt} {s : State} (hs : canonForm.On s) : canonForm.Next (execSplprepOpen f s) := by
  unfold execSplprepOpen
  refine onCompute_keeps hs (scalarRun_keeps hs ?_)
  refine Sat.bind (unitsReady_keeps hs) fun _ _ => ?_
  dsimp only
  refine Sat.bind (aligned_keeps hs) fun _ _ => ?_
  refine keepAnswers_keeps ?_
  refine Sat.bind (loadWords_keeps hs) fun ⟨t, a⟩ ht => ?_
  exact Sat.bind (loadWords_keeps ht) fun ⟨u, b⟩ hu => put64_keeps (MemInv.On.ite (openPipe_keeps hu) hu)

theorem execSplprepStage_keeps {f : Fmt} {s : State} (hs : canonForm.On s) :
    canonForm.Next (execSplprepStage f s) := by
  unfold execSplprepStage
  refine onCompute_keeps hs (scalarRun_keeps hs ?_)
  refine Sat.bind (src512_keeps hs) fun a _ => ?_
  refine Sat.bind (unitsReady_keeps hs) fun _ _ => ?_
  dsimp only
  split
  · exact put64_keeps hs
  · split
    · exact put64_keeps hs
    · refine Sat.bind (waitFor_keeps hs) fun _ _ => ?_
      split
      · exact put64_keeps hs
      · split
        · exact put64_keeps hs
        · split
          · exact put64_keeps hs
          · split
            · exact put64_keeps hs
            · exact put64_keeps (leftOver_keeps hs)

theorem execSplprepBind_keeps {f : Fmt} {s : State} (hs : canonForm.On s) : canonForm.Next (execSplprepBind f s) := by
  unfold execSplprepBind
  refine onCompute_keeps hs (scalarRun_keeps hs ?_)
  refine Sat.bind (unitsReady_keeps hs) fun _ _ => ?_
  dsimp only
  split
  · exact put64_keeps hs
  · split
    · exact put64_keeps hs
    · refine put64_keeps ?_
      split
      · split
        · exact linkStage_keeps hs
        · exact hs
      · exact hs

theorem execSplprepDrop_keeps {f : Fmt} {s : State} (hs : canonForm.On s) : canonForm.Next (execSplprepDrop f s) := by
  unfold execSplprepDrop
  refine onCompute_keeps hs (scalarRun_keeps hs ?_)
  dsimp only
  split
  · exact put64_keeps hs
  · split <;> split <;> exact put64_keeps hs

theorem inject_keeps {I : MemInv} {s : State} {key : Nat} {p : Pipe} {r : Nat} (hs : I.On s) :
    I.On (inject s key p r) := by
  unfold inject
  dsimp only
  split
  · exact hs
  · split <;> exact hs

theorem execSplinj_keeps {f : Fmt} {s : State} (hs : canonForm.On s) : canonForm.Next (execSplinj f s) := by
  unfold execSplinj
  refine onCompute_keeps hs (scalarRun_keeps hs ?_)
  refine Sat.bind (src512_keeps hs) fun a _ => ?_
  refine Sat.bind (unitsReady_keeps hs) fun _ _ => ?_
  dsimp only
  split
  · split
    · exact Sat.bind (release_keeps hs) fun t ht => put64_keeps (inject_keeps ht)
    · exact put64_keeps hs
  · exact put64_keeps hs

theorem execSplstat_keeps {f : Fmt} {s : State} (hs : canonForm.On s) : canonForm.Next (execSplstat f s) := by
  unfold execSplstat
  exact onCompute_keeps hs (scalarRun_keeps hs (put64_keeps hs))

theorem inHandle_keeps {I : MemInv} {s : State} {h : Fin 16} (hs : I.On s) :
    Sat I.stop (fun _ => True) (inHandle s h) := by
  unfold inHandle
  refine Sat.bind (unitsReady_keeps hs) fun _ _ => ?_
  exact Sat.bind (boundHandle_keeps hs) fun a _ => Sat.bind (need_keeps hs) fun _ _ => .ok trivial

theorem leaverGone_on {I : MemInv} {s : State} {ctx pipe i : Nat} {m : Marker} (hs : I.On s) :
    I.On (leaverGone s ctx pipe i m) := hs

theorem leavePipe_keeps {I : MemInv} {s : State} {n : Nat} {r : Ring} {p : Pipe} {x : Splice} {m : Marker}
    (hs : I.On s) :
    I.On (leavePipe s n r p x m) := by
  unfold leavePipe
  extract_lets core ctx key next s1 s2 s3
  have h1 : I.On s1 := leaverGone_on (passOn_keeps hs)
  clear_value s1
  have h2 : I.On s2 := by
    unfold s2
    split <;> exact h1
  clear_value s2
  exact h2

theorem takeMarker_keeps {f : Fmt} {s : State} {n : Nat} {r : Ring} {p : Pipe} {x : Splice} {m : Marker}
    (hs : canonForm.On s) : Sat canonForm.stop canonForm.On (takeMarker f s n r p x m) := by
  unfold takeMarker
  split
  · exact Sat.bind (release_keeps hs) fun t ht => put64_keeps (acquire_keeps (leavePipe_keeps ht))
  · split
    · exact inRelease_keeps (hold_keeps hs)
    · exact hold_keeps hs

theorem execSplstatTake_keeps {f : Fmt} {s : State} (hs : canonForm.On s) : canonForm.Next (execSplstatTake f s) := by
  unfold execSplstatTake
  refine onCompute_keeps hs (scalarRun_keeps hs ?_)
  refine Sat.bind (dstReady_keeps hs) fun _ _ => ?_
  dsimp only
  refine Sat.bind (inHandle_keeps hs) fun a _ => ?_
  split
  · exact put64_keeps (acquire_keeps hs)
  · split
    · exact put64_keeps (acquire_keeps hs)
    · split
      · split
        · split
          · exact takeMarker_keeps hs
          · exact hold_keeps hs
        · exact hold_keeps hs
      · split
        · exact put64_keeps hs
        · exact hold_keeps hs

theorem execSplstatInh_keeps {f : Fmt} {s : State} (hs : canonForm.On s) : canonForm.Next (execSplstatInh f s) := by
  unfold execSplstatInh
  refine onCompute_keeps hs (scalarRun_keeps hs ?_)
  refine Sat.bind (dstReady_keeps hs) fun _ _ => ?_
  dsimp only
  exact Sat.bind (inHandle_keeps hs) fun a _ => put64_keeps hs

end Sys2Proof.Machine
end

section
/-! PROOFS. The memories under the functions of Machine/Swap.lean. -/

namespace Sys2Proof.Machine

theorem hartCommand_keeps {I : MemInv} {s : State} {hid ctx : Nat} {k : UnitCmd} (hs : I.On s) :
    I.On (hartCommand s hid ctx k) := by
  unfold hartCommand
  dsimp only
  split
  · split <;> exact hs
  · split
    · exact killHart_keeps hs
    · exact hs

theorem hcmd_keeps {I : MemInv} {s : State} {core slot ctx : Nat} {k : UnitCmd} (hs : I.On s) :
    I.On (hcmd s core slot ctx k) := by
  unfold hcmd
  dsimp only
  split
  · exact hartCommand_keeps hs
  · split
    · exact hartCommand_keeps hs
    · exact hs

theorem execHcmdResume_keeps {I : MemInv} {core slot ctx : Nat} {s : State} (hs : I.On s) :
    I.Next (execHcmdResume core slot ctx s) := by
  unfold execHcmdResume
  exact .next (hcmd_keeps hs)

theorem execHcmdKill_keeps {I : MemInv} {core slot ctx : Nat} {s : State} (hs : I.On s) :
    I.Next (execHcmdKill core slot ctx s) := by
  unfold execHcmdKill
  exact .next (hcmd_keeps hs)

theorem State.addMeter_on {I : MemInv} {s : State} {ctx k n : Nat} (hs : I.On s) : I.On (s.addMeter ctx k n) := hs

theorem swapOut_keeps {I : MemInv} {s : State} {core old : Nat} (hs : I.On s) : I.On (swapOut s core old) := by
  unfold swapOut
  extract_lets u s1 s2 s3
  have h1 : I.On s1 := by
    unfold s1
    split <;> exact hs
  clear_value s1
  have h2 : I.On s2 := h1
  clear_value s2
  have h3 : I.On s3 := State.addMeter_on (tourSwap_keeps h2)
  clear_value s3
  exact MemInv.On.foldl h3 fun _ _ ht => State.setBank_keeps ht

theorem swapInHart_keeps {I : MemInv} {s : State} {ctx hid : Nat} (hs : I.On s) : I.On (swapInHart s ctx hid) := by
  unfold swapInHart
  dsimp only
  split
  · exact hs
  · exact hartCommand_keeps hs

theorem unitsIn_keeps {I : MemInv} {s : State} {core ctx : Nat} (hs : I.On s) : I.On (unitsIn s core ctx) := by
  unfold unitsIn
  dsimp only
  refine MemInv.On.foldl hs (fun t a ht => ?_)
  split
  · exact ht
  · exact tourCommand_keeps (State.modTour_on ht)

theorem execSwapExchange_keeps {I : MemInv} {core : Nat} {s : State} (hs : I.On s) :
    I.Next (execSwapExchange core s) := by
  unfold execSwapExchange
  extract_lets k s1 todo
  split
  · exact .next hs
  next t _ =>
    split
    · exact .next hs
    · extract_lets s2 s3
      have h1 : I.On s1 := by
        unfold s1
        split
        · exact swapOut_keeps hs
        · exact hs
      clear_value s1
      have h2 : I.On s2 := h1
      have h3 : I.On s3 := MemInv.On.ite h2 (unitsIn_keeps h2)
      clear_value s3
      exact .next (MemInv.On.foldl h3 fun _ _ ht => swapInHart_keeps ht)

theorem linesIn_keeps {I : MemInv} {s : State} {core ctx : Nat} (hs : I.On s) : I.On (linesIn s core ctx) := by
  unfold linesIn
  dsimp only
  exact MemInv.On.foldl hs (fun t a ht => ht)

theorem regionIn_keeps {s : State} {core ctx r : Nat} (hs : canonForm.On s) : canonForm.On (regionIn s core ctx r) := by
  unfold regionIn
  extract_lets at0 old bs
  have hbs : canonForm.On { s with spad := Mem.writeL s.spad at0 bs } := ⟨hs.1, Mem.writeL_wf _ _ hs.2⟩
  split
  · exact MemInv.On.ite hs hbs
  · exact ⟨hs.1, Mem.clear_wf _ _ hs.2⟩

theorem execThresherTransfer_keeps {core : Nat} {s : State} (hs : canonForm.On s) :
    canonForm.Next (execThresherTransfer core s) := by
  unfold execThresherTransfer
  dsimp only
  split
  · exact .next hs
  · split
    · exact .next hs
    · split
      · exact .next (unitsIn_keeps hs)
      · refine .next (linesIn_keeps ?_)
        split <;> exact hs
      · exact .next (regionIn_keeps hs)

end Sys2Proof.Machine
end

section
/-! PROOFS. The memories under the functions of Machine/Debug.lean. -/

namespace Sys2Proof.Machine

theorem spotSet_keeps {I : MemInv} {s : State} {hid : Nat} {d : DebugSpot} {v : W64} (hs : I.On s) :
    I.On (spotSet s hid d v) := by
  unfold spotSet
  dsimp only
  split
  · exact hs
  · exact hs
  · exact hs
  · exact hs
  · exact writeCsr_keeps hs
  · exact hs

theorem spotWrite_keeps {I : MemInv} {s : State} {core : Nat} {d : DebugSpot} {v : W64} (hs : I.On s) :
    Maybe I.On (spotWrite s core d v) := by
  unfold spotWrite
  split
  · exact Maybe.map (fun c => hcmd_keeps hs)
  · exact Maybe.map (fun b => mxCommand_keeps hs)
  · exact Maybe.map (fun c => cpCommand_keeps hs)
  · exact Maybe.map (fun b => hrCommand_keeps hs)
  · exact Maybe.map (fun b => tourCmd_keeps hs)
  · dsimp only
    exact .some (MemInv.On.ite (spotSet_keeps hs) hs)

theorem debugPost_keeps {I : MemInv} {s : State} {core off n : Nat} {v : V512} {va : W64} (hs : I.On s) :
    I.On (debugPost s core off n v va) := by
  unfold debugPost
  exact State.post_keeps hs

theorem debugOrder_keeps {I : MemInv} {s : State} {core off n : Nat} (hs : I.On s) :
    Sat I.stop (fun _ => True) (debugOrder s core off n) := by
  unfold debugOrder
  exact waitFor_keeps hs

theorem debugMember_keeps {I : MemInv} {s : State} {m : Nat} {va : W64} (hs : I.On s) :
    Sat I.stop (fun _ => True) (debugMember s m va) := by
  unfold debugMember
  dsimp only
  exact Sat.bind (need_keeps hs) fun _ _ => .ok trivial

theorem debugLoad_keeps {I : MemInv} {s : State} {m off : Nat} {va : W64} {n : Nat} (hs : I.On s) :
    Sat I.stop (fun _ => True) (debugLoad s m off va n) := by
  unfold debugLoad
  refine Sat.bind (debugMember_keeps hs) fun a _ => ?_
  split
  · exact Sat.bind (need_keeps hs) fun _ _ => Sat.bind (debugOrder_keeps hs) fun _ _ => .ok trivial
  · exact fail_keeps hs

theorem debugStore_keeps {I : MemInv} {s : State} {m off : Nat} {va : W64} {n : Nat} {v : W64} (hs : I.On s) :
    Sat I.stop I.On (debugStore s m off va n v) := by
  unfold debugStore
  refine Sat.bind (debugMember_keeps hs) fun a _ => ?_
  split
  · exact Sat.bind (need_keeps hs) fun _ _ => .ok (debugPost_keeps hs)
  · exact fail_keeps hs

theorem debugLoadV_keeps {I : MemInv} {s : State} {m off : Nat} {va : W64} (hs : I.On s) :
    Sat I.stop (fun _ => True) (debugLoadV s m off va) := by
  unfold debugLoadV
  refine Sat.bind (debugMember_keeps hs) fun a _ => ?_
  split
  · refine Sat.bind (debugOrder_keeps hs) fun _ _ => ?_
    dsimp only
    exact .ok trivial
  · exact fail_keeps hs

theorem debugStoreV_keeps {I : MemInv} {s : State} {m off : Nat} {va : W64} {v : V512} (hs : I.On s) :
    Sat I.stop I.On (debugStoreV s m off va v) := by
  unfold debugStoreV
  refine Sat.bind (debugMember_keeps hs) fun a _ => ?_
  split
  · exact .ok (debugPost_keeps hs)
  · exact fail_keeps hs

theorem debugPerform_keeps {I : MemInv} {s : State} {core off n : Nat} {v : V512} (hs : I.On s) :
    I.On (debugPerform s core off n v) := by
  unfold debugPerform
  split
  · split
    · exact MemInv.On.ite hs hs
    · exact hs
  · cases hp : (debugSpot off).bind fun d => spotWrite s core d (dwordOf v 0) with
    | none => exact hs
    | some t =>
      obtain ⟨d, _, hd⟩ := Option.bind_eq_some_iff.mp hp
      exact (spotWrite_keeps hs).of_some hd

theorem execDebugWindowWrite_keeps {I : MemInv} {member : Fin 16} {off : Nat} {v : W64} {s : State} (hs : I.On s) :
    I.Next (execDebugWindowWrite member off v s) := by
  unfold execDebugWindowWrite
  dsimp only
  split
  · exact settle_keeps (debugStore_keeps hs)
  · exact settle_keeps (fail_keeps hs)

theorem portLoad_keeps {I : MemInv} {s : State} {off : Nat} {va : W64} {n : Nat} (hs : I.On s) :
    Sat I.stop (fun _ => True) (portLoad s off va n) := by
  unfold portLoad
  refine Sat.bind (need_keeps hs) fun _ _ => ?_
  split
  · exact fail_keeps hs
  · exact Sat.bind (unitsReady_keeps hs) fun _ _ => .ok trivial

theorem portStore_keeps {I : MemInv} {s : State} {off : Nat} {va : W64} {n : Nat} {v : W64} (hs : I.On s) :
    Sat I.stop I.On (portStore s off va n v) := by
  unfold portStore
  exact Sat.bind (need_keeps hs) fun _ _ => startChain_keeps hs

theorem hstartPort_keeps {I : MemInv} {s : State} {w : V512} {va : W64} (hs : I.On s) :
    Sat I.stop I.On (hstartPort s w va) := by
  unfold hstartPort
  exact Sat.bind (need_keeps hs) fun _ _ => startHarrow_keeps hs

theorem portPush_keeps {I : MemInv} {s : State} {off : Nat} {va : W64} {w : V512} (hs : I.On s) :
    Sat I.stop I.On (portPush s off va w) := by
  unfold portPush
  split
  · exact pushMatrix_keeps hs
  · exact pushCopy_keeps hs
  · exact pushExponent_keeps hs
  · exact hstartPort_keeps hs
  · exact fail_keeps hs

end Sys2Proof.Machine
end

section
/-! PROOFS. The memories under the functions of Machine/Sowing.lean. -/

namespace Sys2Proof.Machine

theorem State.draw_keeps {I : MemInv} {s : State} (hs : I.On s) : I.On (s.draw).1 := by
  unfold State.draw
  exact hs

theorem enterRange_keeps {I : MemInv} {s : State} {cl : Nat} {e : SowRange} (hs : I.On s) :
    Maybe I.On (enterRange s cl e) := by
  unfold enterRange
  dsimp only
  split
  · exact .some hs
  · split
    · exact .some hs
    · split
      · exact .none
      · exact .some (State.draw_keeps hs)

theorem execRngset_keeps {f : Fmt} {s : State} (hs : canonForm.On s) : canonForm.Next (execRngset f s) := by
  unfold execRngset
  refine scalarRun_keeps hs ?_
  refine Sat.bind (src512_keeps hs) fun a _ => ?_
  split
  · exact put64_keeps hs
  · split
    next b t hq1 =>
      have ht := Maybe.of_some (enterRange_keeps hs) hq1
      exact put64_keeps ht
    · exact put64_keeps hs

theorem execRngget_keeps {f : Fmt} {s : State} (hs : canonForm.On s) : canonForm.Next (execRngget f s) := by
  unfold execRngget
  dsimp only
  refine scalarRun_keeps hs ?_
  split <;> exact put64_keeps hs

theorem execRnggetLeft_keeps {f : Fmt} {s : State} (hs : canonForm.On s) : canonForm.Next (execRnggetLeft f s) := by
  unfold execRnggetLeft
  refine scalarRun_keeps hs ?_
  split <;> exact put64_keeps hs

end Sys2Proof.Machine
end

section
/-! PROOFS. The memories under the functions of Machine/Mesh.lean. -/

namespace Sys2Proof.Machine

theorem execPageWalk_keeps {I : MemInv} {n : Nat} {s : State} (hs : I.On s) : I.Next (execPageWalk n s) := by
  unfold execPageWalk
  exact .next (walkTurn_keeps hs)

theorem reachPort_keeps {I : MemInv} {s : State} {n : Nat} {k : ReqKind} (hs : I.On s) : I.On (reachPort s n k) := by
  unfold reachPort
  split
  · exact hs
  · split
    · dsimp only
      split
      · split
        · split <;> exact hs
        · split
          · exact pullBank_keeps hs
          · exact hs
      · exact hs
    · exact hs

theorem execRead_keeps {I : MemInv} {n : Nat} {s : State} (hs : I.On s) : I.Next (execRead n s) := by
  unfold execRead
  exact .next (reachPort_keeps hs)

theorem execAtomic_keeps {I : MemInv} {n : Nat} {s : State} (hs : I.On s) : I.Next (execAtomic n s) := by
  unfold execAtomic
  exact .next (reachPort_keeps hs)

theorem reachWindow_keeps {I : MemInv} {s : State} {n : Nat} (hs : I.On s) : I.On (reachWindow s n) := by
  unfold reachWindow
  split
  · exact hs
  · split
    · split
      · exact debugPerform_keeps hs
      · exact hs
    · exact reachPort_keeps hs

theorem execWrite_keeps {I : MemInv} {n : Nat} {s : State} (hs : I.On s) : I.Next (execWrite n s) := by
  unfold execWrite
  exact .next (reachWindow_keeps hs)

theorem execFlush_keeps {I : MemInv} {n : Nat} {s : State} (hs : I.On s) : I.Next (execFlush n s) := by
  unfold execFlush
  split
  · exact .next hs
  · dsimp only
    split
    · split <;> exact .next hs
    · exact .next hs

theorem spadMasked_keeps {s : State} {core ctx off : Nat} {r : Request} (hs : canonForm.On s) :
    canonForm.On (spadMasked s core ctx off r) := by
  unfold spadMasked
  split
  · exact spadWrite_keeps hs
  · exact MemInv.On.foldl hs (fun t a ht => spadWrite_keeps ht)

theorem performSpad_keeps {s : State} {core ctx off : Nat} {r : Request} (hs : canonForm.On s) :
    canonForm.On (performSpad s core ctx off r) := by
  unfold performSpad
  split
  · exact hs
  · dsimp only
    split
    · exact spadWrite_keeps hs
    · exact hs
  · exact spadMasked_keeps hs

theorem execScratch_keeps {n : Nat} {s : State} (hs : canonForm.On s) : canonForm.Next (execScratch n s) := by
  unfold execScratch
  split
  · exact .next hs
  · split
    · dsimp only
      split
      · split
        · exact .next (performSpad_keeps hs)
        · exact .next hs
      · split
        · exact .next (performSpad_keeps hs)
        · exact .next hs
    · exact .next hs

theorem performRead_keeps {I : MemInv} {s : State} {p : Nat} {r : Request} (hs : I.On s) :
    I.On (performRead s p r) := by
  unfold performRead
  split
  · split <;> exact hs
  · split <;> split <;> exact hs

theorem performWrite_keeps {s : State} {p : Nat} {r : Request} (hs : canonForm.On s) :
    canonForm.On (performWrite s p r) := by
  unfold performWrite
  split
  · split
    · exact hs
    · split
      next a t b hq2 =>
        have ht := MemInv.On.fst (encWrite_keeps hs) hq2
        exact MemInv.On.ite ht ht
  · split
    · split
      · exact hs
      · exact memWrite_keeps hs
    · split
      · exact hs
      · exact writeMasked_keeps hs

theorem performAtomic_keeps {s : State} {p : Nat} {r : Request} (hs : canonForm.On s) :
    canonForm.On (performAtomic s p r) := by
  unfold performAtomic
  split
  · exact hs
  · split
    · split
      next a t b hq2 =>
        have ht := MemInv.On.fst (reduceAt_keeps hs) hq2
        exact ht
    · split
      next a t b hq2 =>
        have ht := MemInv.On.fst (memRead_keeps hs) hq2
        dsimp only
        split
        · exact memWrite_keeps ht
        · exact ht

theorem performAt_keeps {s : State} {p : Nat} {r : Request} (hs : canonForm.On s) :
    canonForm.On (performAt s p r) := by
  unfold performAt
  dsimp only
  split
  · refine performRead_keeps ?_
    split
    · exact State.countHot_keeps hs
    · exact hs
  · refine performWrite_keeps ?_
    split
    · exact State.countHot_keeps hs
    · exact hs
  · refine performAtomic_keeps ?_
    split
    · exact State.countHot_keeps hs
    · exact hs
  · split
    · exact State.countHot_keeps hs
    · exact hs

theorem openRow_keeps {I : MemInv} {s : State} {p : Nat} {last : Bool} (hs : I.On s) : I.On (openRow s p last) := by
  unfold openRow
  split
  · dsimp only
    exact hs
  · exact hs

theorem execColumnCommand_keeps {bank n : Nat} {s : State} (hs : canonForm.On s) :
    canonForm.Next (execColumnCommand bank n s) := by
  unfold execColumnCommand
  dsimp only
  split
  · exact .next hs
  · split
    · split
      · exact .next (pullBank_keeps (openRow_keeps (performAt_keeps hs)))
      · exact .next hs
    · exact .next hs

theorem execTidleExpiry_keeps {I : MemInv} {bank : Nat} {s : State} (hs : I.On s) :
    I.Next (execTidleExpiry bank s) := by
  unfold execTidleExpiry
  dsimp only
  split <;> exact .next hs

theorem execRefresh_keeps {I : MemInv} {bank : Nat} {s : State} (hs : I.On s) : I.Next (execRefresh bank s) := by
  unfold execRefresh
  exact .next hs

theorem refuseStream_keeps {I : MemInv} {s : State} {dev ctx : Nat} (hs : I.On s) :
    I.On (refuseStream s dev ctx) := by
  unfold refuseStream
  split <;> exact hs

theorem State.failTable_keeps {I : MemInv} {s : State} {u : Nat} {f : TrapInfo} (hs : I.On s) :
    I.On (s.failTable u f) := by
  unfold State.failTable
  split <;> exact hs

theorem noteRefusal_keeps {I : MemInv} {s : State} {q : Response} (hs : I.On s) : I.On (noteRefusal s q) := by
  unfold noteRefusal
  split
  · exact hs
  · split
    · dsimp only
      exact hs
    · exact State.failTable_keeps hs
    · exact hs
    · exact hs

theorem Agent.wake_keeps {I : MemInv} {ag : Agent} {s : State} {ctx : Nat} (hs : I.On s) :
    I.On (Agent.wake ag s ctx) := by
  unfold Agent.wake
  split
  · dsimp only
    split <;> exact hs
  · exact hs

theorem arrive_keeps {I : MemInv} {s : State} {q : Response} (hs : I.On s) : I.On (arrive s q) := by
  unfold arrive
  split
  · split <;> exact hs
  · dsimp only
    split
    · exact Agent.wake_keeps hs
    · split
      · exact Agent.wake_keeps hs
      · split
        · exact Agent.wake_keeps hs
        · exact noteRefusal_keeps (Agent.wake_keeps hs)

theorem drawLine_keeps {I : MemInv} {s : State} (hs : I.On s) : I.On (drawLine s).1 := by
  unfold drawLine
  refine List.foldlRecOn (motive := fun a : State × V512 => I.On a.1) (List.range 8) _ hs fun a ha i _ => ?_
  exact State.draw_keeps ha

theorem peerAnswers_keeps {I : MemInv} {s : State} {r : Request} {l : List RespStatus} (hs : I.On s) :
    I.On (peerAnswers s r l) := by
  unfold peerAnswers
  split
  next t st e =>
    have ht := MemInv.On.fst (chooseStatus_keeps hs) e
    split
    next u d e' =>
      have hu := MemInv.On.fst (drawLine_keeps ht) e'
      extract_lets s1 s2 s3 s4
      have h1 : I.On s1 := hu
      clear_value s1
      have h2 : I.On s2 := by
        unfold s2
        split
        · exact refuseStream_keeps h1
        · exact h1
      clear_value s2
      have h3 : I.On s3 := MemInv.On.ite h2 h2
      clear_value s3
      have h4 : I.On s4 := MemInv.On.ite h3 h3
      clear_value s4
      exact arrive_keeps h4

theorem answerNth_keeps {I : MemInv} {s : State} {n : Nat} {ks : List ReqKind} (hs : I.On s) :
    I.On (answerNth s n ks) := by
  unfold answerNth
  split
  · split
    · exact arrive_keeps hs
    · exact hs
  · split
    · split
      · exact peerAnswers_keeps hs
      · exact hs
    · exact hs

theorem execReadData_keeps {I : MemInv} {n : Nat} {s : State} (hs : I.On s) : I.Next (execReadData n s) := by
  unfold execReadData
  exact .next (answerNth_keeps hs)

theorem execWriteAck_keeps {I : MemInv} {n : Nat} {s : State} (hs : I.On s) : I.Next (execWriteAck n s) := by
  unfold execWriteAck
  exact .next (answerNth_keeps hs)

theorem execAtomicData_keeps {I : MemInv} {n : Nat} {s : State} (hs : I.On s) : I.Next (execAtomicData n s) := by
  unfold execAtomicData
  exact .next (answerNth_keeps hs)

theorem execFlushAck_keeps {I : MemInv} {dev rel : Nat} {s : State} (hs : I.On s) :
    I.Next (execFlushAck dev rel s) := by
  unfold execFlushAck
  split
  · dsimp only
    split
    · exact .next hs
    · split
      · exact .next (arrive_keeps hs)
      · exact .next hs
  · split
    · exact .next hs
    · split
      · exact .next hs
      · exact .next (MemInv.On.ite (refuseStream_keeps (MemInv.On.ite hs hs)) (MemInv.On.ite hs hs))

theorem admitPacket_keeps {I : MemInv} {s : State} {p : FabricPacket} {dpa size data : Nat} (hs : I.On s) :
    I.On (admitPacket s p dpa size data) := by
  unfold admitPacket
  dsimp only
  split
  · exact hs
  · split <;> exact hs

theorem admitAll_keeps {I : MemInv} {s : State} {p : FabricPacket} {dpa size data y0 : Nat} (hs : I.On s) :
    I.On (admitAll s p dpa size data y0) := by
  induction y0 generalizing s p dpa size data with
  | zero =>
    unfold admitAll
    exact hs
  | succ k ih =>
    unfold admitAll
    split
    · exact hs
    · dsimp only
      exact ih (admitPacket_keeps (MemInv.On.ite hs hs))

theorem packetFails_keeps {I : MemInv} {s : State} {src ctx : Nat} {k : ReqKind} (hs : I.On s) :
    I.On (packetFails s src ctx k) := by
  unfold packetFails
  exact refuseStream_keeps hs

theorem execFabricPacketReceive_keeps {I : MemInv} {p : FabricPacket} {s : State} (hs : I.On s) :
    I.Next (execFabricPacketReceive p s) := by
  unfold execFabricPacketReceive
  dsimp only
  split
  · exact .next hs
  · split
    · exact .next (packetFails_keeps hs)
    · split
      · exact .next hs
      · split
        · exact .next (admitAll_keeps hs)
        · exact .next (admitAll_keeps hs)
        · exact .next (admitPacket_keeps hs)
        · exact .next hs

theorem execMarker_keeps {I : MemInv} {src ctx hart rel total sent : Nat} {s : State} (hs : I.On s) :
    I.Next (execMarker src ctx hart rel total sent s) := by
  unfold execMarker
  split
  · exact .next hs
  · dsimp only
    split
    · exact .next hs
    · split
      · exact .next (packetFails_keeps hs)
      · exact .next hs

end Sys2Proof.Machine
end

section
/-! PROOFS. The memories under the functions of Machine/Collective.lean. -/

namespace Sys2Proof.Machine

theorem giveChannel_keeps {I : MemInv} {s : State} (hs : I.On s) : I.On (giveChannel s) := by
  unfold giveChannel
  split <;> exact hs

theorem admitColl_keeps {I : MemInv} {s : State} {b g : List W64} (hs : I.On s) : I.On (admitColl s b g) := by
  unfold admitColl
  dsimp only
  exact giveChannel_keeps hs

theorem execColl_keeps {f : Fmt} {s : State} (hs : canonForm.On s) : canonForm.Next (execColl f s) := by
  unfold execColl
  refine scalarRun_keeps hs ?_
  dsimp only
  refine Sat.bind (need_keeps hs) fun _ _ => ?_
  refine keepAnswers_keeps ?_
  refine Sat.bind (loadWords_keeps hs) fun ⟨t, a⟩ ht => ?_
  split
  · refine Sat.bind (loadWords_keeps ht) fun ⟨u, b⟩ hu => ?_
    split
    · refine Sat.bind (dstReady_keeps hu) fun _ _ => ?_
      refine Sat.bind (release_keeps hu) fun v hv => ?_
      exact Sat.bind (waitFor_keeps hv) fun _ _ => put64_keeps (admitColl_keeps hv)
    · exact put64_keeps hu
  · refine Sat.bind (R := (fun p => canonForm.On p.1)) (.ok ht) fun ⟨u, b⟩ hu => ?_
    split
    · refine Sat.bind (dstReady_keeps hu) fun _ _ => ?_
      refine Sat.bind (release_keeps hu) fun v hv => ?_
      exact Sat.bind (waitFor_keeps hv) fun _ _ => put64_keeps (admitColl_keeps hv)
    · exact put64_keeps hu

theorem execCstat_keeps {f : Fmt} {s : State} (hs : canonForm.On s) : canonForm.Next (execCstat f s) := by
  unfold execCstat
  refine scalarRun_keeps hs ?_
  exact Sat.bind (src64_keeps hs) fun a _ => put64_keeps hs

theorem execCstatClr_keeps {f : Fmt} {s : State} (hs : canonForm.On s) : canonForm.Next (execCstatClr f s) := by
  unfold execCstatClr
  refine scalarRun_keeps hs ?_
  refine Sat.bind (src64_keeps hs) fun a _ => ?_
  dsimp only
  exact Sat.bind (dstReady_keeps hs) fun _ _ => put64_keeps hs

theorem endRank_keeps {I : MemInv} {s : State} {n : Nat} {c : Coll} {code : Nat} (hs : I.On s) :
    I.On (endRank s n c code) := by
  unfold endRank
  dsimp only
  exact MemInv.On.foldl hs (fun t a ht => State.sendSeq_keeps ht)

theorem collFail_keeps {I : MemInv} {n : Nat} {s : State} {code cause : Nat} (hs : I.On s) :
    I.On (collFail n s code cause) := by
  unfold collFail
  split
  · exact hs
  · exact endRank_keeps hs

theorem admitStep_keeps {I : MemInv} {s u : State} {n : Nat} {c : Coll} {own : List Nat} {m : CollMsg}
    (hs : I.On s) (hu : I.On u) : I.On (admitStep s u n c own m) := by
  unfold admitStep
  split
  · exact hu
  · exact hs

theorem goodStep_keeps {I : MemInv} {s u : State} {n : Nat} {c : Coll} {m : CollMsg} (hs : I.On s) (hu : I.On u) :
    I.On (goodStep s u n c m) := by
  unfold goodStep
  split
  · exact hu
  · split
    · exact hs
    · split
      · exact endRank_keeps hu
      · split
        · exact hu
        · split
          · exact admitStep_keeps hs hu
          · exact hs

theorem takeStep_keeps {I : MemInv} {n : Nat} {m : CollMsg} {s : State} (hs : I.On s) : I.Next (takeStep n m s) := by
  unfold takeStep
  split
  · exact .next hs
  · dsimp only
    split
    · exact .next hs
    · split
      · exact .next (packetFails_keeps hs)
      · split
        · exact .next hs
        · split
          · exact .next hs
          · split
            · exact .next hs
            · exact .next (goodStep_keeps hs hs)

theorem packetAnswered_keeps {I : MemInv} {k : Nat} {ok : Bool} {s : State} (hs : I.On s) :
    I.Next (packetAnswered k ok s) := by
  unfold packetAnswered
  split
  · exact .next hs
  · split
    · exact .next hs
    · dsimp only
      exact .next (MemInv.On.ite hs (refuseStream_keeps hs))

theorem sendUnit_keeps {I : MemInv} {s : State} {port n peer : Nat} {c : Coll} {i : Nat} (hs : I.On s) :
    I.On (sendUnit s port n peer c i) := by
  unfold sendUnit
  dsimp only
  split
  · exact collFail_keeps hs
  · exact State.sendSeq_keeps hs

theorem portTurn_keeps {I : MemInv} {port : Nat} {ready : List (Nat × Nat)} {s : State} (hs : I.On s) :
    I.Next (portTurn port ready s) := by
  unfold portTurn
  dsimp only
  split
  · exact .next hs
  · split
    · exact .next (sendUnit_keeps hs)
    · exact .next hs
    · exact .next (sendUnit_keeps hs)

theorem execCollStep_keeps {I : MemInv} {n : Nat} {step : CollStep} {s : State} (hs : I.On s) :
    I.Next (execCollStep n step s) := by
  unfold execCollStep
  split
  · exact takeStep_keeps hs
  · exact portTurn_keeps hs
  · exact packetAnswered_keeps hs

theorem collRead_keeps {I : MemInv} {s : State} {n : Nat} {c : Coll} (hs : I.On s) :
    Sat I.eng I.On (collRead s n c) := by
  unfold collRead
  dsimp only
  split
  · exact .ok hs
  · refine Sat.bind (engRead1_keeps hs) fun ⟨t, a⟩ ht => ?_
    split
    · exact .error ht
    · exact .ok ht

theorem collWrite_keeps {s : State} {n : Nat} {c : Coll} {own : List Nat} (hs : canonForm.On s) :
    Sat canonForm.eng canonForm.On (collWrite s n c own) := by
  unfold collWrite
  dsimp only
  split
  · split
    · exact .ok hs
    · refine Sat.bind (engWrite1_keeps hs) fun t ht => ?_
      split <;> exact .ok ht
  · split
    · exact .ok hs
    · refine Sat.bind (engWrite1_keeps hs) fun t ht => ?_
      split <;> exact .ok ht

theorem collWork_keeps {s : State} {n : Nat} {c : Coll} {own : List Nat} (hs : canonForm.On s) :
    Sat canonForm.eng canonForm.On (collWork s n c own) := by
  unfold collWork
  split
  · exact .ok hs
  · split
    · split
      · exact collWrite_keeps hs
      · exact .ok hs
    · exact .ok (MemInv.On.ite hs hs)

theorem collRun_keeps {n op : Nat} {s : State} (hs : canonForm.On s) : canonForm.Next (collRun n op s) := by
  unfold collRun
  split
  · exact .next hs
  · split
    · exact .next hs
    · split
      · exact .next (collFail_keeps hs)
      · split
        · exact .next (collFail_keeps hs)
        · refine engineEvent_keeps hs ?_ (fun t c ht => collFail_keeps ht) (fun t c d e ht => collFail_keeps ht)
          split
          · exact collRead_keeps hs
          · exact collWork_keeps hs

theorem execAllreduce_keeps {n : Nat} {s : State} (hs : canonForm.On s) : canonForm.Next (execAllreduce n s) := by
  unfold execAllreduce
  exact collRun_keeps hs

theorem execReducescatter_keeps {n : Nat} {s : State} (hs : canonForm.On s) :
    canonForm.Next (execReducescatter n s) := by
  unfold execReducescatter
  exact collRun_keeps hs

theorem execAllgather_keeps {n : Nat} {s : State} (hs : canonForm.On s) : canonForm.Next (execAllgather n s) := by
  unfold execAllgather
  exact collRun_keeps hs

theorem execBroadcast_keeps {n : Nat} {s : State} (hs : canonForm.On s) : canonForm.Next (execBroadcast n s) := by
  unfold execBroadcast
  exact collRun_keeps hs

theorem execReduce_keeps {n : Nat} {s : State} (hs : canonForm.On s) : canonForm.Next (execReduce n s) := by
  unfold execReduce
  exact collRun_keeps hs

theorem execAlltoall_keeps {n : Nat} {s : State} (hs : canonForm.On s) : canonForm.Next (execAlltoall n s) := by
  unfold execAlltoall
  exact collRun_keeps hs

theorem execBarrier_keeps {n : Nat} {s : State} (hs : canonForm.On s) : canonForm.Next (execBarrier n s) := by
  unfold execBarrier
  exact collRun_keeps hs

theorem idleInstall_keeps {I : MemInv} {s : State} (hs : I.On s) : I.On (idleInstall s) := by
  unfold idleInstall
  split
  · split <;> exact hs
  · exact hs

theorem endColl_keeps {I : MemInv} {s : State} {n : Nat} {c : Coll} (hs : I.On s) : I.On (endColl s n c) := by
  unfold endColl
  extract_lets s1 s2 k last s3 s4
  have h1 : I.On s1 := State.endSegments_keeps (State.forsakeJob_keeps hs)
  clear_value s1
  have h2 : I.On s2 := h1
  clear_value s2
  have h3 : I.On s3 := h2
  clear_value s3
  have h4 : I.On s4 := MemInv.On.ite h3 h3
  clear_value s4
  exact idleInstall_keeps (giveChannel_keeps h4)

theorem execCollComplete_keeps {n : Nat} {s : State} (hs : canonForm.On s) :
    canonForm.Next (execCollComplete n s) := by
  unfold execCollComplete
  split
  · exact .next hs
  · split
    · exact .next hs
    · split
      · exact .next (endColl_keeps hs)
      · refine engineEvent_keeps hs ?_ (fun t c ht => endColl_keeps ht) (fun t c d e ht => endColl_keeps ht)
        refine Sat.bind (R := canonForm.On) (engOf_keeps (flushFor_keeps hs)) fun t ht => ?_
        exact Sat.bind (engWrite1_keeps ht) fun u hu => .ok (endColl_keeps hu)

end Sys2Proof.Machine
end

section
/-! PROOFS. The memories under the functions of Machine/Host.lean. -/

namespace Sys2Proof.Machine

theorem execDoorbell_keeps {I : MemInv} {slot : Nat} {s : State} (hs : I.On s) : I.Next (execDoorbell slot s) := by
  unfold execDoorbell
  dsimp only
  split
  · exact .next hs
  · split
    · exact .next hs
    · split <;> exact .next hs

theorem execMstatusClear_keeps {I : MemInv} {slot : Nat} {v : W64} {s : State} (hs : I.On s) :
    I.Next (execMstatusClear slot v s) := by
  unfold execMstatusClear
  split <;> exact .next hs

theorem execTdispRequest_keeps {I : MemInv} {slot : Nat} {wanted : Tdi} {s : State} (hs : I.On s) :
    I.Next (execTdispRequest slot wanted s) := by
  unfold execTdispRequest
  split <;> exact .next hs

theorem whileFree_keeps {I : MemInv} {s : State} {slot : Nat} {g : CtxSlot → CtxSlot} (hs : I.On s) :
    I.On (whileFree s slot g) := by
  unfold whileFree
  split <;> exact hs

theorem untilSysgo_keeps {I : MemInv} {s t : State} (hs : I.On s) (ht : I.On t) : I.On (untilSysgo s t) := by
  unfold untilSysgo
  split
  · exact hs
  · exact ht

theorem writeReg_keeps {r : HostReg} {v : W64} {s : State} (hs : canonForm.On s) : canonForm.On (writeReg r v s) := by
  unfold writeReg
  split
  · dsimp only
    split
    · split <;> exact hs
    · exact hs
  · split <;> exact hs
  · exact whileFree_keeps hs
  · exact whileFree_keeps hs
  · exact whileFree_keeps hs
  · exact whileFree_keeps hs
  · split <;> exact hs
  · split
    · split <;> exact hs
    · exact hs
  · exact untilSysgo_keeps hs hs
  · exact untilSysgo_keeps hs hs
  · exact untilSysgo_keeps hs hs
  · split <;> exact hs
  · exact hs

theorem execRegisterWrite_keeps {r : HostReg} {v : W64} {s : State} (hs : canonForm.On s) :
    canonForm.Next (execRegisterWrite r v s) := by
  unfold execRegisterWrite
  exact .next (writeReg_keeps hs)

theorem execSetup_keeps {I : MemInv} {slot : Nat} {s : State} (hs : I.On s) : I.Next (execSetup slot s) := by
  unfold execSetup
  dsimp only
  split
  · exact .next hs
  · split
    · exact .next hs
    · split <;> exact .next hs

theorem ungrant_keeps {s : State} {ctx core : Nat} (hs : canonForm.On s) : canonForm.On (ungrant s ctx core) := by
  unfold ungrant
  dsimp only
  split
  · exact clearBank_keeps hs
  · exact hs

theorem tearDown_keeps {s : State} {ctx : Nat} (hs : canonForm.On s) : canonForm.On (tearDown s ctx) := by
  unfold tearDown
  extract_lets s1 s2 s3 s4 s5 c
  have h1 : canonForm.On s1 := MemInv.On.foldl hs fun _ _ ht => ungrant_keeps ht
  clear_value s1
  have h2 : canonForm.On s2 := invalidate_keeps h1
  clear_value s2
  have h3 : canonForm.On s3 := h2
  clear_value s3
  have h4 : canonForm.On s4 := h3
  clear_value s4
  have h5 : canonForm.On s5 := h4
  clear_value s5
  exact h5

theorem execTeardown_keeps {slot : Nat} {s : State} (hs : canonForm.On s) : canonForm.Next (execTeardown slot s) := by
  unfold execTeardown
  dsimp only
  split
  · exact .next hs
  · split
    · exact .next hs
    · split
      · exact .next hs
      · split
        · exact .next hs
        · exact .next (tearDown_keeps hs)

theorem teardownEnd_keeps {slot : Nat} {s : State} (hs : canonForm.On s) : canonForm.Next (teardownEnd slot s) := by
  unfold teardownEnd
  split
  · exact .next (tearDown_keeps hs)
  · exact .next hs

theorem execSysgo_keeps {I : MemInv} {v : W64} {s : State} (hs : I.On s) : I.Next (execSysgo v s) := by
  have hgo {t : State} (ht : I.On t) : I.On { t with sysgo := true } := ht
  unfold execSysgo
  split
  · refine .next (hgo (MemInv.On.foldl (MemInv.On.foldl hs ?_) ?_))
    · exact fun _ _ ht => State.setCore_keeps ht
    · exact fun _ _ ht => State.setBank_keeps ht
  · exact .next hs

end Sys2Proof.Machine
end

section
/-! PROOFS. The memories under the functions of Machine/Promotion.lean. -/

namespace Sys2Proof.Machine

theorem execTrackerEpochEnd_keeps {I : MemInv} {io : Nat} {s : State} (hs : I.On s) :
    I.Next (execTrackerEpochEnd io s) := by
  unfold execTrackerEpochEnd
  dsimp only
  split <;> exact .next hs

theorem execHotPageSelect_keeps {I : MemInv} {io n : Nat} {s : State} (hs : I.On s) :
    I.Next (execHotPageSelect io n s) := by
  unfold execHotPageSelect
  split
  · exact .next hs
  · split
    · dsimp only
      split <;> exact .next hs
    · exact .next hs

theorem promoTrip_keeps {I : MemInv} {s : State} {ctx : Nat} {job : Option Nat} {k : ReqKind} {dpa n data : Nat}
    (hs : I.On s) : Sat I.stop (fun p => I.On p.1) (promoTrip s ctx job k dpa n data) := by
  unfold promoTrip
  split
  · exact .ok hs
  · split
    · exact .ok hs
    · exact Sat.bind (trip_keeps hs) fun ⟨t, c⟩ ht => .ok ht

theorem promoRead_keeps {I : MemInv} {s : State} {ctx : Nat} {job : Option Nat} {dpa n : Nat} (hs : I.On s) :
    Sat I.stop (fun p => I.On p.1) (promoRead s ctx job dpa n) := by
  unfold promoRead
  exact Sat.bind (promoTrip_keeps hs) fun ⟨t, a⟩ ht => .ok ht

theorem promoWrite_keeps {I : MemInv} {s : State} {ctx : Nat} {job : Option Nat} {dpa v : Nat} (hs : I.On s) :
    Sat I.stop I.On (promoWrite s ctx job dpa v) := by
  unfold promoWrite
  exact Sat.bind (promoTrip_keeps hs) fun ⟨t, a⟩ ht => .ok ht

theorem poolOf_keeps {I : MemInv} {s : State} {ctx : Nat} {job : Option Nat} (hs : I.On s) :
    Sat I.stop (fun p => I.On p.1) (poolOf s ctx job) := by
  unfold poolOf
  dsimp only
  split
  · exact .ok hs
  · exact Sat.bind (promoRead_keeps hs) fun ⟨t, a⟩ ht => .ok ht

theorem releaseHeld_keeps {I : MemInv} {s : State} (hs : I.On s) : I.On (releaseHeld s) := by
  unfold releaseHeld
  extract_lets place front enter
  have hfront (r : Request) {t : State} (ht : I.On t) : I.On (front r t) := by
    unfold front
    split <;> exact ht
  have henter {t : State} (r : Request) (ht : I.On t) : I.On (enter t r) := by
    unfold enter
    split
    · exact pullBank_keeps ht
    · exact ht
  refine MemInv.On.foldl ?_ fun t r ht => henter r ht
  exact List.foldrRecOn (motive := I.On) s.heldAt front hs fun t ht r _ => hfront r ht

theorem dropSelection_keeps {I : MemInv} {s : State} {p : Promotion} (hs : I.On s) : I.On (dropSelection s p) := by
  unfold dropSelection
  exact releaseHeld_keeps hs

theorem popFree_keeps {I : MemInv} {s : State} {p : Promotion} (hs : I.On s) : Sat I.stop I.On (popFree s p) := by
  unfold popFree
  dsimp only
  refine Sat.bind (poolOf_keeps hs) fun ⟨t, a⟩ ht => ?_
  split
  · exact .ok (dropSelection_keeps ht)
  · split
    · exact .ok (dropSelection_keeps ht)
    · split
      · exact .ok ht
      · refine Sat.bind (promoRead_keeps ht) fun ⟨u, d⟩ hu => ?_
        split
        · exact .ok (dropSelection_keeps hu)
        · refine Sat.bind (promoWrite_keeps hu) fun v hv => ?_
          split <;> exact .ok hv

theorem execPromotionStart_keeps {I : MemInv} {s : State} (hs : I.On s) : I.Next (execPromotionStart s) := by
  unfold execPromotionStart
  split
  · exact agentEvent_keeps (popFree_keeps hs)
  · split
    · exact .next hs
    · split <;> exact .next hs

theorem Promotion.retranslate_keeps {I : MemInv} {s : State} {p : Promotion} (hs : I.On s) :
    I.On (Promotion.retranslate s p) := by
  unfold Promotion.retranslate
  dsimp only
  exact MemInv.On.foldl hs (fun t a ht => State.noteDest_keeps ht)

theorem State.endPromo_on {I : MemInv} {s : State} {p : Promotion} (hs : I.On s) : I.On (s.endPromo p) := hs

theorem Promotion.finish_keeps {I : MemInv} {p : Promotion} {s : State} (hs : I.On s) : I.On (p.finish s) := by
  unfold Promotion.finish
  extract_lets t
  have ht : I.On t := releaseHeld_keeps (Promotion.retranslate_keeps (invalidate_keeps (State.endPromo_on hs)))
  clear_value t
  exact ht

theorem Promotion.step_keeps {I : MemInv} {p : Promotion} {s : State} (hs : I.On s) :
    Sat I.stop I.On (Promotion.step p s) := by
  unfold Promotion.step
  split
  · exact Sat.bind (trip_keeps hs) fun ⟨t, c⟩ ht => .ok ht
  · exact Sat.bind (trip_keeps hs) fun ⟨t, d⟩ ht => .ok ht
  · refine Sat.bind (trip_keeps hs) fun ⟨t, b⟩ ht => ?_
    dsimp only
    split
    · exact .ok (Promotion.finish_keeps ht)
    · exact .ok ht
  · exact .ok hs

theorem pushReturn_keeps {I : MemInv} {s : State} {r : Returned} (hs : I.On s) :
    Sat I.stop I.On (pushReturn s r) := by
  unfold pushReturn
  refine Sat.bind (poolOf_keeps hs) fun ⟨t, a⟩ ht => ?_
  dsimp only
  split
  · exact .ok ht
  · split
    · exact .ok ht
    · exact Sat.bind (promoWrite_keeps ht) fun u hu => Sat.bind (promoWrite_keeps hu) fun v hv => .ok hv

theorem execPromotionComplete_keeps {I : MemInv} {n : Nat} {s : State} (hs : I.On s) :
    I.Next (execPromotionComplete n s) := by
  unfold execPromotionComplete
  split
  · exact agentEvent_keeps (Promotion.step_keeps hs)
  · split
    · exact .next hs
    · split
      · exact .next hs
      · exact agentEvent_keeps (pushReturn_keeps hs)

theorem execPromotionAbandon_keeps {I : MemInv} {n : Nat} {s : State} (hs : I.On s) :
    I.Next (execPromotionAbandon n s) := by
  unfold execPromotionAbandon
  split
  · exact .next hs
  · split
    · dsimp only
      exact .next (releaseHeld_keeps hs)
    · exact .next hs

end Sys2Proof.Machine
end

section
/-! PROOFS. The memories under the functions of Machine/Agenda.lean. -/

namespace Sys2Proof.Machine

/-- An event keeps the memories canonical. -/
def EventKeeps (f : Event) : Prop := ∀ s, canonForm.On s → canonForm.Next (f s)

/-- Every event of a list does. -/
def EventsKeep (l : List Event) : Prop := ∀ f ∈ l, EventKeeps f

section
variable {l m : List Event} {α : Type}

theorem EventsKeep.nil : EventsKeep [] := fun _ h => by cases h

theorem EventsKeep.cons {f : Event} (hf : EventKeeps f) (hl : EventsKeep l) : EventsKeep (f :: l) :=
  List.forall_mem_cons.mpr ⟨hf, hl⟩

theorem EventsKeep.append (hl : EventsKeep l) (hm : EventsKeep m) : EventsKeep (l ++ m) :=
  List.forall_mem_append.mpr ⟨hl, hm⟩

theorem EventsKeep.map {f : α → Event} {as : List α} (hf : ∀ a, EventKeeps (f a)) : EventsKeep (as.map f) :=
  List.forall_mem_map.mpr fun a _ => hf a

theorem EventsKeep.flatten {f : α → List Event} {as : List α} (hf : ∀ a, EventsKeep (f a)) :
    EventsKeep (as.map f).flatten := by
  intro g hg
  obtain ⟨_, hl, hg⟩ := List.mem_flatten.mp hg
  obtain ⟨a, _, rfl⟩ := List.mem_map.mp hl
  exact hf a g hg

theorem EventsKeep.ite {c : Prop} [Decidable c] (hl : EventsKeep l) (hm : EventsKeep m) :
    EventsKeep (if c then l else m) := by
  split
  · exact hl
  · exact hm

end

theorem requestEvent_keeps {n : Nat} {r : Request} : EventKeeps (requestEvent n r) := by
  unfold requestEvent
  split
  · exact fun _ hs => execScratch_keeps hs
  · exact fun _ hs => execFlush_keeps hs
  · exact fun _ hs => execRead_keeps hs
  · exact fun _ hs => execAtomic_keeps hs
  · exact fun _ hs => execWrite_keeps hs

theorem answerEvent_keeps {n dev ctx : Nat} {k : ReqKind} {ag : Agent} : EventKeeps (answerEvent n dev k ag ctx) := by
  unfold answerEvent
  split
  · exact fun _ hs => execReadData_keeps hs
  · exact fun _ hs => execAtomicData_keeps hs
  · exact fun _ hs => execFlushAck_keeps hs
  · exact fun _ hs => execWriteAck_keeps hs

theorem memoryEvents_keep {s : State} : EventsKeep (memoryEvents s) := by
  unfold memoryEvents
  refine .append (.append (.append (.append (.append (.append ?_ ?_) ?_) ?_) ?_) ?_) ?_
  · exact .map fun _ => requestEvent_keeps
  · exact .map fun _ _ hs => execColumnCommand_keeps hs
  · exact .map fun _ => answerEvent_keeps
  · exact .map fun _ => answerEvent_keeps
  · exact .map fun _ _ hs => execFlushAck_keeps hs
  · exact .map fun _ _ hs => execPageWalk_keeps hs
  · exact .map fun _ _ hs => execTidleExpiry_keeps hs

theorem promotionEvents_keep {s : State} : EventsKeep (promotionEvents s) := by
  unfold promotionEvents
  refine .append (.append (.append (.ite (.append ?_ ?_) .nil) (.ite .nil (.cons ?_ .nil))) ?_) ?_
  · exact .map fun _ _ hs => execTrackerEpochEnd_keeps hs
  · exact .map fun _ _ hs => execHotPageSelect_keeps hs
  · exact fun _ hs => execPromotionStart_keeps hs
  · exact .flatten fun n => .cons (fun _ hs => execPromotionComplete_keeps hs) <|
      .cons (fun _ hs => execPromotionAbandon_keeps hs) .nil
  · exact .map fun _ _ hs => execPromotionComplete_keeps hs

theorem engineEvents_keep {c : Nat} : EventsKeep (engineEvents c) := by
  have hmatrix : EventsKeep [execZero c, execLoadb c, execRuna c, execDrain c, execCont c, execMatrixStop c,
      execMatrixJobComplete c] :=
    .cons (fun _ hs => execZero_keeps hs) <| .cons (fun _ hs => execLoadb_keeps hs) <|
    .cons (fun _ hs => execRuna_keeps hs) <| .cons (fun _ hs => execDrain_keeps hs) <|
    .cons (fun _ hs => execCont_keeps hs) <| .cons (fun _ hs => execMatrixStop_keeps hs) <|
    .cons (fun _ hs => execMatrixJobComplete_keeps hs) .nil
  have hcopy (ch : Nat) : EventsKeep [execChainRecordRead c ch, execCopy c ch, execFill c ch, execPlane c ch,
      execUnplane c ch, execFprint c ch, execDedup c ch, execKvpack c ch, execGather c ch,
      execCopyRecordComplete c ch, execCopyChannelStop c ch] :=
    .cons (fun _ hs => execChainRecordRead_keeps hs) <| .cons (fun _ hs => execCopy_keeps hs) <|
    .cons (fun _ hs => execFill_keeps hs) <| .cons (fun _ hs => execPlane_keeps hs) <|
    .cons (fun _ hs => execUnplane_keeps hs) <| .cons (fun _ hs => execFprint_keeps hs) <|
    .cons (fun _ hs => execDedup_keeps hs) <| .cons (fun _ hs => execKvpack_keeps hs) <|
    .cons (fun _ hs => execGather_keeps hs) <| .cons (fun _ hs => execCopyRecordComplete_keeps hs) <|
    .cons (fun _ hs => execCopyChannelStop_keeps hs) .nil
  have hexponent : EventsKeep [execExp2 c, execExpe c, execRecip c, execRsqrt c, execSoftrow c,
      execExpCardComplete c] :=
    .cons (fun _ hs => execExp2_keeps hs) <| .cons (fun _ hs => execExpe_keeps hs) <|
    .cons (fun _ hs => execRecip_keeps hs) <| .cons (fun _ hs => execRsqrt_keeps hs) <|
    .cons (fun _ hs => execSoftrow_keeps hs) <| .cons (fun _ hs => execExpCardComplete_keeps hs) .nil
  have hharrow : EventsKeep [execHarrowNop c, execHarrowIssue c, execHarrowWaitq c, execHarrowWaitwm c,
      execHarrowWaitc c, execHarrowSeti c, execHarrowAddi c, execHarrowCmpb c, execHarrowLoop c, execHarrowEndl c, execHarrowSignal c,
      execHarrowTrap c, execHarrowEnd c] :=
    .cons (fun _ hs => execHarrowNop_keeps hs) <| .cons (fun _ hs => execHarrowIssue_keeps hs) <|
    .cons (fun _ hs => execHarrowWaitq_keeps hs) <| .cons (fun _ hs => execHarrowWaitwm_keeps hs) <|
    .cons (fun _ hs => execHarrowWaitc_keeps hs) <| .cons (fun _ hs => execHarrowSeti_keeps hs) <|
    .cons (fun _ hs => execHarrowAddi_keeps hs) <| .cons (fun _ hs => execHarrowCmpb_keeps hs) <|
    .cons (fun _ hs => execHarrowLoop_keeps hs) <| .cons (fun _ hs => execHarrowEndl_keeps hs) <|
    .cons (fun _ hs => execHarrowSignal_keeps hs) <| .cons (fun _ hs => execHarrowTrap_keeps hs) <|
    .cons (fun _ hs => execHarrowEnd_keeps hs) .nil
  exact .append (.append (.append hmatrix (.flatten hcopy)) hexponent) hharrow

theorem tourEvents_keep {u : Units} {c : Nat} : EventsKeep (tourEvents u c) := by
  unfold tourEvents
  refine .append (.flatten fun t => ?_) (.flatten fun r => ?_)
  · exact .cons (fun _ hs => execTourLeg_keeps hs) <| .cons (fun _ hs => execMakeGood_keeps hs) <|
      .cons (fun _ hs => execTourComplete_keeps hs) <| .cons (fun _ hs => execTourWatchdog_keeps hs) .nil
  · cases u.rings.toList[r]? with
    | none => exact .nil
    | some q =>
      exact .append (.map fun _ _ hs => execHoldExpiry_keeps hs) (.map fun _ _ hs => execTransitDrop_keeps hs)

theorem spliceEvents_keep {s : State} {c : Nat} : EventsKeep (spliceEvents s c) :=
  .flatten fun _ =>
    .cons (fun _ hs => execMarkerPass_keeps hs) <| .cons (fun _ hs => execSpliceInsert_keeps hs) <|
    .cons (fun _ hs => execSpliceRemove_keeps hs) <| .cons (fun _ hs => execSpliceRebind_keeps hs) <|
    .cons (fun _ hs => execDrainAcknowledgement_keeps hs) <| .cons (fun _ hs => execSpliceComplete_keeps hs) .nil

theorem coreEvents_keep {s : State} : EventsKeep (coreEvents s) := by
  refine .flatten fun c => ?_
  refine .append (.append (.append (.append (.append (.ite engineEvents_keep .nil) tourEvents_keep) spliceEvents_keep)
    (.ite (.cons ?_ .nil) .nil)) (.ite .nil (.cons ?_ .nil))) (.flatten fun i => .append ?_ (.ite .nil (.cons ?_ .nil)))
  · exact fun _ hs => execSwapExchange_keeps hs
  · exact fun _ hs => execThresherTransfer_keeps hs
  · split
    · exact .cons (fun _ hs => execWaitwWake_keeps hs) .nil
    · exact .cons (fun _ hs => execWaitwPoll_keeps hs) .nil
    · exact .nil
  · exact fun _ hs => execTaskDispatch_keeps hs

theorem graphEvents_keep {s : State} : EventsKeep (graphEvents s) := by
  unfold graphEvents
  refine .append (.append (.append (.append (.append (.append ?_ ?_) ?_) ?_) ?_) ?_) ?_
  · exact .map fun _ _ hs => execLaunchUnitProcess_keeps hs
  · exact .map fun _ _ hs => teardownEnd_keeps hs
  · exact .map fun _ _ hs => execEndNotice_keeps hs
  · exact .map fun _ _ hs => execEndNoticeAck_keeps hs
  · exact .map fun _ _ hs => execGraphEnd_keeps hs
  · exact .flatten fun _ => .map fun _ _ hs => execReserveAdjust_keeps hs
  · exact .map fun _ _ hs => execMigrateAbandon_keeps hs

theorem collEvent_keeps {n op : Nat} : EventKeeps (collEvent n op) := by
  unfold collEvent
  split
  · exact fun _ hs => execAllreduce_keeps hs
  · exact fun _ hs => execReducescatter_keeps hs
  · exact fun _ hs => execAllgather_keeps hs
  · exact fun _ hs => execBroadcast_keeps hs
  · exact fun _ hs => execReduce_keeps hs
  · exact fun _ hs => execAlltoall_keeps hs
  · exact fun _ hs => execBarrier_keeps hs

theorem deviceEvents_keep {s : State} : EventsKeep (deviceEvents s) := by
  unfold deviceEvents
  refine .append (.append (.append (.append (.append (.append (.append ?_ ?_) ?_) ?_) ?_) ?_) ?_) ?_
  · exact .map fun _ _ hs => execRingPublish_keeps hs
  · exact .map fun _ _ hs => execCreditReturn_keeps hs
  · exact .flatten fun _ => .cons collEvent_keeps (.cons (fun _ hs => execCollComplete_keeps hs) .nil)
  · exact .ite .nil (.map fun _ _ hs => portTurn_keeps hs)
  · exact .map fun _ _ hs => packetAnswered_keeps hs
  · exact .map fun _ _ hs => execTableOperation_keeps hs
  · exact .map fun _ _ hs => execTrapPacketAdmit_keeps hs
  · exact .map fun _ _ hs => execTrapConsPoll_keeps hs

theorem ownEvents_keep {s : State} : EventsKeep (ownEvents s) :=
  .append (.append (.append (.append memoryEvents_keep promotionEvents_keep) coreEvents_keep) graphEvents_keep)
    deviceEvents_keep

theorem ownEvent_keeps {n : Nat} {s : State} (hs : canonForm.On s) : canonForm.Next (ownEvent n s) := by
  unfold ownEvent
  split
  next f h => exact ownEvents_keep f (List.mem_of_getElem? h) s hs
  · exact .next hs

theorem nextAgent_keeps {s : State} (hs : canonForm.On s) : canonForm.On (nextAgent s).1 := by
  unfold nextAgent
  dsimp only
  split <;> exact hs

end Sys2Proof.Machine
end

section
/-! PROOFS. The memories under the functions of Machine/Control.lean. -/

namespace Sys2Proof.Machine

theorem linkTo_keeps {f : Fmt} {s : State} {g : Hart → Hart} {target : W64} (hs : canonForm.On s) :
    Sat canonForm.stop canonForm.On (linkTo f s g target) := by
  unfold linkTo
  exact Sat.bind (dstReady_keeps hs) fun _ _ => Sat.bind (dst64_keeps hs) fun t ht => .ok ht

theorem execNop_keeps {I : MemInv} {f : Fmt} {s : State} (hs : I.On s) : I.Next (execNop f s) := by
  unfold execNop
  exact scalarRun_keeps hs (putNone_keeps hs)

theorem execBrk_keeps {I : MemInv} {f : Fmt} {s : State} (hs : I.On s) : I.Next (execBrk f s) := by
  unfold execBrk
  exact scalarRun_keeps hs (fail_keeps hs)

theorem execJ_keeps {I : MemInv} {f : Fmt} {s : State} (hs : I.On s) : I.Next (execJ f s) := by
  unfold execJ
  exact scalarRun_keeps hs (.ok hs)

theorem execJal_keeps {f : Fmt} {s : State} (hs : canonForm.On s) : canonForm.Next (execJal f s) := by
  unfold execJal
  exact scalarRun_keeps hs (linkTo_keeps hs)

theorem execJr_keeps {f : Fmt} {s : State} (hs : canonForm.On s) : canonForm.Next (execJr f s) := by
  unfold execJr
  exact scalarRun_keeps hs (linkTo_keeps hs)

theorem execCall_keeps {f : Fmt} {s : State} (hs : canonForm.On s) : canonForm.Next (execCall f s) := by
  unfold execCall
  dsimp only
  exact scalarRun_keeps hs (linkTo_keeps hs)

theorem execRet_keeps {I : MemInv} {f : Fmt} {s : State} (hs : I.On s) : I.Next (execRet f s) := by
  unfold execRet
  exact scalarRun_keeps hs (.ok hs)

theorem execLoop_keeps {I : MemInv} {f : Fmt} {s : State} (hs : I.On s) : I.Next (execLoop f s) := by
  unfold execLoop
  dsimp only
  exact scalarRun_keeps hs (.ok hs)

theorem execRep_keeps {I : MemInv} {f : Fmt} {s : State} (hs : I.On s) : I.Next (execRep f s) := by
  unfold execRep
  dsimp only
  refine scalarRun_keeps hs ?_
  refine Sat.bind (src64_keeps hs) fun a _ => ?_
  split <;> split <;> exact .ok hs

end Sys2Proof.Machine
end

section
/-! PROOFS. The memories under the functions of Machine/Convert.lean. -/

namespace Sys2Proof.Machine

theorem widen_keeps {f : Fmt} {s : State} {src : Ty} {g : Nat → Nat} (hs : canonForm.On s) :
    Sat canonForm.stop canonForm.On (widen f s src g) := by
  unfold widen
  refine Sat.bind (srcLanes_keeps hs) fun a _ => ?_
  dsimp only
  exact putLanes_keeps hs

theorem execVcvt_keeps {f : Fmt} {s : State} (hs : canonForm.On s) : canonForm.Next (execVcvt f s) := by
  unfold execVcvt
  exact settle_keeps (widen_keeps hs)

theorem execVpod_keeps {f : Fmt} {s : State} (hs : canonForm.On s) : canonForm.Next (execVpod f s) := by
  unfold execVpod
  exact settle_keeps (widen_keeps hs)

theorem execVpodd_keeps {f : Fmt} {s : State} (hs : canonForm.On s) : canonForm.Next (execVpodd f s) := by
  unfold execVpodd
  exact settle_keeps (widen_keeps hs)

theorem execVcvtp_keeps {f : Fmt} {s : State} (hs : canonForm.On s) : canonForm.Next (execVcvtp f s) := by
  unfold execVcvtp
  refine settle_keeps ?_
  refine Sat.bind (srcLanes_keeps hs) fun a _ => ?_
  refine Sat.bind (src64_keeps hs) fun b _ => ?_
  dsimp only
  exact put512_keeps hs

theorem execVrequ_keeps {f : Fmt} {s : State} (hs : canonForm.On s) : canonForm.Next (execVrequ f s) := by
  unfold execVrequ
  refine settle_keeps ?_
  refine Sat.bind (src512_keeps hs) fun a _ => ?_
  refine Sat.bind (src64_keeps hs) fun b _ => ?_
  dsimp only
  exact putLanes_keeps hs

theorem execVscacc_keeps {f : Fmt} {s : State} (hs : canonForm.On s) : canonForm.Next (execVscacc f s) := by
  unfold execVscacc
  refine settle_keeps ?_
  refine Sat.bind (srcLanes_keeps hs) fun a _ => ?_
  refine Sat.bind (srcLanes_keeps hs) fun b _ => ?_
  dsimp only
  exact putLanes_keeps hs

theorem execVbexp_keeps {f : Fmt} {s : State} (hs : canonForm.On s) : canonForm.Next (execVbexp f s) := by
  unfold execVbexp
  refine settle_keeps ?_
  refine Sat.bind (srcLanes_keeps hs) fun a _ => ?_
  dsimp only
  split
  · exact putLanes_keeps hs
  · exact put64_keeps hs

theorem execVplane_keeps {f : Fmt} {s : State} (hs : canonForm.On s) : canonForm.Next (execVplane f s) := by
  unfold execVplane
  refine settle_keeps ?_
  refine Sat.bind (srcLanes_keeps hs) fun a _ => ?_
  dsimp only
  exact put512_keeps hs

theorem execVunpl_keeps {f : Fmt} {s : State} (hs : canonForm.On s) : canonForm.Next (execVunpl f s) := by
  unfold execVunpl
  refine settle_keeps ?_
  refine Sat.bind (src512_keeps hs) fun a _ => ?_
  dsimp only
  exact putLanes_keeps hs

end Sys2Proof.Machine
end

section
/-! PROOFS. The memories under the functions of Machine/Float.lean. -/

namespace Sys2Proof.Machine

theorem execCvt_keeps {f : Fmt} {s : State} (hs : canonForm.On s) : canonForm.Next (execCvt f s) := by
  unfold execCvt
  refine scalarRun_keeps hs ?_
  exact Sat.bind (srcAt_keeps hs) fun a _ => put64_keeps hs

theorem floatBinary_keeps {f : Fmt} {s : State} {op : Mode → Val → Val → Val} (hs : canonForm.On s) :
    Sat canonForm.stop canonForm.On (floatBinary f s op) := by
  unfold floatBinary
  refine Sat.bind (srcAt_keeps hs) fun a _ => ?_
  refine Sat.bind (srcAt_keeps hs) fun b _ => ?_
  dsimp only
  exact put64_keeps hs

theorem execFadd_keeps {f : Fmt} {s : State} (hs : canonForm.On s) : canonForm.Next (execFadd f s) := by
  unfold execFadd
  exact scalarRun_keeps hs (floatBinary_keeps hs)

theorem execFmul_keeps {f : Fmt} {s : State} (hs : canonForm.On s) : canonForm.Next (execFmul f s) := by
  unfold execFmul
  exact scalarRun_keeps hs (floatBinary_keeps hs)

theorem execFma_keeps {f : Fmt} {s : State} (hs : canonForm.On s) : canonForm.Next (execFma f s) := by
  unfold execFma
  exact scalarRun_keeps hs (floatBinary_keeps hs)

end Sys2Proof.Machine
end

section
/-! PROOFS. The memories under the functions of Machine/Integer.lean. -/

namespace Sys2Proof.Machine

theorem intBinary_keeps {f : Fmt} {s : State} {sat : Bool} {op : Int → Int → Int} (hs : canonForm.On s) :
    Sat canonForm.stop canonForm.On (intBinary f s sat op) := by
  unfold intBinary
  exact binary_keeps hs

theorem execAdd_keeps {f : Fmt} {s : State} (hs : canonForm.On s) : canonForm.Next (execAdd f s) := by
  unfold execAdd
  exact scalarRun_keeps hs (intBinary_keeps hs)

theorem execSub_keeps {f : Fmt} {s : State} (hs : canonForm.On s) : canonForm.Next (execSub f s) := by
  unfold execSub
  exact scalarRun_keeps hs (intBinary_keeps hs)

theorem execMul_keeps {f : Fmt} {s : State} (hs : canonForm.On s) : canonForm.Next (execMul f s) := by
  unfold execMul
  exact scalarRun_keeps hs (intBinary_keeps hs)

theorem execMulh_keeps {f : Fmt} {s : State} (hs : canonForm.On s) : canonForm.Next (execMulh f s) := by
  unfold execMulh
  exact scalarRun_keeps hs (intBinary_keeps hs)

theorem execDiv_keeps {f : Fmt} {s : State} (hs : canonForm.On s) : canonForm.Next (execDiv f s) := by
  unfold execDiv
  exact scalarRun_keeps hs (intBinary_keeps hs)

theorem execRem_keeps {f : Fmt} {s : State} (hs : canonForm.On s) : canonForm.Next (execRem f s) := by
  unfold execRem
  exact scalarRun_keeps hs (intBinary_keeps hs)

theorem execAnd_keeps {f : Fmt} {s : State} (hs : canonForm.On s) : canonForm.Next (execAnd f s) := by
  unfold execAnd
  exact scalarRun_keeps hs (binary_keeps hs)

theorem execOr_keeps {f : Fmt} {s : State} (hs : canonForm.On s) : canonForm.Next (execOr f s) := by
  unfold execOr
  exact scalarRun_keeps hs (binary_keeps hs)

theorem execXor_keeps {f : Fmt} {s : State} (hs : canonForm.On s) : canonForm.Next (execXor f s) := by
  unfold execXor
  exact scalarRun_keeps hs (binary_keeps hs)

theorem execAndn_keeps {f : Fmt} {s : State} (hs : canonForm.On s) : canonForm.Next (execAndn f s) := by
  unfold execAndn
  exact scalarRun_keeps hs (binary_keeps hs)

theorem execShl_keeps {f : Fmt} {s : State} (hs : canonForm.On s) : canonForm.Next (execShl f s) := by
  unfold execShl
  exact scalarRun_keeps hs (binary_keeps hs)

theorem execShr_keeps {f : Fmt} {s : State} (hs : canonForm.On s) : canonForm.Next (execShr f s) := by
  unfold execShr
  exact scalarRun_keeps hs (binary_keeps hs)

theorem execSra_keeps {f : Fmt} {s : State} (hs : canonForm.On s) : canonForm.Next (execSra f s) := by
  unfold execSra
  exact scalarRun_keeps hs (binary_keeps hs)

theorem execMin_keeps {f : Fmt} {s : State} (hs : canonForm.On s) : canonForm.Next (execMin f s) := by
  unfold execMin
  exact scalarRun_keeps hs (intBinary_keeps hs)

theorem execMax_keeps {f : Fmt} {s : State} (hs : canonForm.On s) : canonForm.Next (execMax f s) := by
  unfold execMax
  exact scalarRun_keeps hs (intBinary_keeps hs)

theorem execBits_keeps {f : Fmt} {s : State} (hs : canonForm.On s) : canonForm.Next (execBits f s) := by
  unfold execBits
  exact scalarRun_keeps hs (unary_keeps hs)

theorem execCmp_keeps {f : Fmt} {s : State} (hs : canonForm.On s) : canonForm.Next (execCmp f s) := by
  unfold execCmp
  refine scalarRun_keeps hs ?_
  refine Sat.bind (src64_keeps hs) fun a _ => ?_
  refine Sat.bind (src64_keeps hs) fun b _ => ?_
  dsimp only
  exact put64_keeps hs

theorem execSel_keeps {f : Fmt} {s : State} (hs : canonForm.On s) : canonForm.Next (execSel f s) := by
  unfold execSel
  refine scalarRun_keeps hs ?_
  exact Sat.bind (src64_keeps hs) fun a _ => Sat.bind (src64_keeps hs) fun b _ => put64_keeps hs

theorem execMov_keeps {f : Fmt} {s : State} (hs : canonForm.On s) : canonForm.Next (execMov f s) := by
  unfold execMov
  exact scalarRun_keeps hs (unary_keeps hs)

theorem execMovhi_keeps {f : Fmt} {s : State} (hs : canonForm.On s) : canonForm.Next (execMovhi f s) := by
  unfold execMovhi
  refine scalarRun_keeps hs ?_
  refine Sat.bind (R := (fun _ => True)) ?_ fun _ _ => ?_
  · split
    · exact .ok trivial
    · exact src64_keeps hs
  · exact put64_keeps hs

theorem execExt_keeps {f : Fmt} {s : State} (hs : canonForm.On s) : canonForm.Next (execExt f s) := by
  unfold execExt
  refine scalarRun_keeps hs ?_
  refine Sat.bind (src64_keeps hs) fun a _ => ?_
  dsimp only
  exact put64_keeps hs

theorem execIns_keeps {f : Fmt} {s : State} (hs : canonForm.On s) : canonForm.Next (execIns f s) := by
  unfold execIns
  refine scalarRun_keeps hs ?_
  refine Sat.bind (src64_keeps hs) fun a _ => ?_
  dsimp only
  exact put64_keeps hs

theorem execPlog_keeps {f : Fmt} {s : State} (hs : canonForm.On s) : canonForm.Next (execPlog f s) := by
  unfold execPlog
  refine scalarRun_keeps hs ?_
  exact Sat.bind (src64_keeps hs) fun a _ => Sat.bind (src64_keeps hs) fun b _ => put64_keeps hs

theorem execAddr_keeps {f : Fmt} {s : State} (hs : canonForm.On s) : canonForm.Next (execAddr f s) := by
  unfold execAddr
  refine scalarRun_keeps hs ?_
  exact Sat.bind (src64_keeps hs) fun a _ => Sat.bind (src64_keeps hs) fun b _ => put64_keeps hs

end Sys2Proof.Machine
end

section
/-! PROOFS. The memories under the functions of Machine/LoadStore.lean. -/

namespace Sys2Proof.Machine

theorem scalarLoad_keeps {I : MemInv} {s : State} {t : Target} {va : W64} {n : Nat} {eager : Bool} (hs : I.On s) :
    Sat I.stop (fun p => I.On p.1) (scalarLoad s t va n eager) := by
  unfold scalarLoad
  split
  · exact Sat.bind (portLoad_keeps hs) fun c _ => .ok hs
  · exact Sat.bind (debugLoad_keeps hs) fun d _ => .ok hs
  · exact Sat.bind (loadAt_keeps hs) fun ⟨u, b⟩ hu => .ok hu

theorem scalarStore_keeps {I : MemInv} {s : State} {t : Target} {va : W64} {n v : Nat} {eager : Bool} (hs : I.On s) :
    Sat I.stop I.On (scalarStore s t va n v eager) := by
  unfold scalarStore
  split
  · exact portStore_keeps hs
  · exact debugStore_keeps hs
  · exact storeAt_keeps hs

theorem execLd_keeps {f : Fmt} {s : State} (hs : canonForm.On s) : canonForm.Next (execLd f s) := by
  unfold execLd
  refine scalarRun_keeps hs ?_
  dsimp only
  refine Sat.bind (dstReady_keeps hs) fun _ _ => ?_
  refine Sat.bind (aligned_keeps hs) fun _ _ => ?_
  exact Sat.bind (resolve_keeps hs) fun a _ => Sat.bind (scalarLoad_keeps hs) fun ⟨t, b⟩ ht => put64_keeps ht

theorem execSt_keeps {I : MemInv} {f : Fmt} {s : State} (hs : I.On s) : I.Next (execSt f s) := by
  unfold execSt
  refine scalarRun_keeps hs ?_
  dsimp only
  refine Sat.bind (src64_keeps hs) fun a _ => ?_
  refine Sat.bind (aligned_keeps hs) fun _ _ => ?_
  exact Sat.bind (resolve_keeps hs) fun b _ => Sat.bind (scalarStore_keeps hs) fun t ht => putNone_keeps ht

theorem execLdp_keeps {f : Fmt} {s : State} (hs : canonForm.On s) : canonForm.Next (execLdp f s) := by
  unfold execLdp
  refine scalarRun_keeps hs ?_
  dsimp only
  refine Sat.bind (aligned_keeps hs) fun _ _ => ?_
  refine Sat.bind (resolve_keeps hs) fun a _ => ?_
  exact Sat.bind (scalarLoad_keeps hs) fun ⟨t, b⟩ ht => Sat.bind (dst64_keeps ht) fun u hu => .ok hu

theorem execStp_keeps {I : MemInv} {f : Fmt} {s : State} (hs : I.On s) : I.Next (execStp f s) := by
  unfold execStp
  refine scalarRun_keeps hs ?_
  dsimp only
  refine Sat.bind (aligned_keeps hs) fun _ _ => ?_
  exact Sat.bind (resolve_keeps hs) fun a _ => Sat.bind (scalarStore_keeps hs) fun t ht => putNone_keeps ht

theorem execPref_keeps {I : MemInv} {f : Fmt} {s : State} (hs : I.On s) : I.Next (execPref f s) := by
  unfold execPref
  refine scalarRun_keeps hs ?_
  dsimp only
  split
  · exact putNone_keeps hs
  · split
    next d t e hq1 =>
      have hp := Sat.of_ok (loadLine_keeps hs) hq1
      exact putNone_keeps hp
    next d t hq1 =>
      have ht := Sat.of_error (loadLine_keeps hs) hq1
      exact hold_keeps ht
    next d t e hq1 =>
      have ht := Sat.of_error (loadLine_keeps hs) hq1
      exact putNone_keeps hs

theorem execPrefRow_keeps {I : MemInv} {f : Fmt} {s : State} (hs : I.On s) : I.Next (execPrefRow f s) := by
  unfold execPrefRow
  exact scalarRun_keeps hs (putNone_keeps hs)

theorem namingLane_keeps {I : MemInv} {α : Type} {Q : α → Prop} {i : Nat} {r : Act α} (h : Sat I.stop Q r) :
    Sat I.stop Q (namingLane i r) := by
  match r, h with
  | .ok _, .ok h => exact .ok h
  | .error (.wait _), .error h => exact .error h
  | .error (.fault _ _), .error h => exact .error h

theorem checkLane_keeps {I : MemInv} {s : State} {a : Acc} {whole eager : Bool} {n : Nat} {va : W64} (hs : I.On s) :
    Sat I.stop (fun p => I.On p.1) (checkLane s a whole eager n va) := by
  unfold checkLane
  refine Sat.bind (aligned_keeps hs) fun _ _ => ?_
  refine Sat.bind (resolve_keeps hs) fun b _ => ?_
  refine Sat.bind (need_keeps hs) fun _ _ => ?_
  split
  · split
    · dsimp only
      split
      · split
        · refine Sat.bind (refusedAs_keeps (storeAbsent_keeps hs)) fun t ht => ?_
          exact Sat.bind (need_keeps ht) fun _ _ => .ok ht
        · exact Sat.bind (R := I.On) (fail_keeps hs) fun t ht => Sat.bind (need_keeps ht) fun _ _ => .ok ht
      · exact Sat.bind (R := I.On) (.ok hs) fun t ht => Sat.bind (need_keeps ht) fun _ _ => .ok ht
    · exact .ok hs
  · exact .ok hs

theorem checkLanes_keeps {I : MemInv} {s : State} {a : Acc} {whole eager : Bool} {n : Nat} {l : List (Nat × W64)}
    (hs : I.On s) : Sat I.stop (fun p => I.On p.1) (checkLanes s a whole eager n l) := by
  induction l generalizing s with
  | nil => exact .ok hs
  | cons p l ih =>
    exact Sat.bind (namingLane_keeps (checkLane_keeps hs)) fun _ ht => Sat.bind (ih ht) fun _ hu => .ok hu

theorem groupLocks_keeps {I : MemInv} {s : State} {a : Acc} {n : Nat} {w0 : List LaneAt} (hs : I.On s) :
    Sat I.stop I.On (groupLocks s a n w0) := by
  induction w0 generalizing s a n with
  | nil =>
    unfold groupLocks
    exact .ok (afterInterlock_keeps hs)
  | cons a l ih =>
    unfold groupLocks
    exact Sat.bind (interlock_keeps hs) fun _ _ => ih hs

theorem spadWord_keeps {I : MemInv} {s : State} {core off : Nat} {alone : Bool} {va : W64} (hs : I.On s) :
    Sat I.stop (fun p => I.On p.1) (spadWord s core off alone va) := by
  unfold spadWord
  split
  · exact spadLoad_keeps hs
  · exact Sat.bind (waitFor_keeps hs) fun _ _ => Sat.bind (trip_keeps hs) fun ⟨t, a⟩ ht => .ok ht

theorem loadGroup_keeps {I : MemInv} {s : State} {n : Nat} {eager alone : Bool} {g : List LaneAt} (hs : I.On s) :
    Sat I.stop (fun p => I.On p.1) (loadGroup s n eager alone g) := by
  unfold loadGroup
  split
  · exact .ok hs
  · refine namingLane_keeps (Sat.bind (groupLocks_keeps hs) fun t ht => ?_)
    split
    · exact Sat.bind (spadWord_keeps ht) fun _ hu => .ok hu
    · exact Sat.ite (Sat.bind (eagerRead_keeps ht) fun _ hu => .ok hu) (Sat.bind (loadLine_keeps ht) fun _ hu => .ok hu)
    · exact Sat.bind (debugLoadV_keeps ht) fun _ _ => .ok ht
    · exact fail_keeps ht

theorem loadGroups_keeps {I : MemInv} {s : State} {n : Nat} {eager alone : Bool} {z0 : List (List LaneAt)}
    (hs : I.On s) : Sat I.stop (fun p => I.On p.1) (loadGroups s n eager alone z0) := by
  induction z0 generalizing s n eager alone with
  | nil =>
    unfold loadGroups
    exact .ok hs
  | cons a l ih =>
    unfold loadGroups
    exact Sat.bind (loadGroup_keeps hs) fun ⟨t, b⟩ ht => Sat.bind (ih ht) fun ⟨u, c⟩ hu => .ok hu

theorem vectorLoad_keeps {f : Fmt} {s : State} {unit : Bool} {offs : List Int} (hs : canonForm.On s) :
    Sat canonForm.stop canonForm.On (vectorLoad f s unit offs) := by
  unfold vectorLoad
  refine Sat.bind (dstReady_keeps hs) fun _ _ => ?_
  dsimp only
  refine Sat.bind (checkLanes_keeps hs) fun ⟨t, a⟩ ht => ?_
  exact keepAnswers_keeps (Sat.bind (loadGroups_keeps ht) fun ⟨u, b⟩ hu => putLanes_keeps hu)

theorem allocGroups_keeps {I : MemInv} {s : State} {l : List (List LaneAt)} (hs : I.On s) :
    Sat I.stop I.On (allocGroups s l) := by
  induction l generalizing s with
  | nil => exact .ok hs
  | cons g l ih =>
    cases g with
    | nil => exact ih hs
    | cons a g =>
      unfold allocGroups
      split
      · exact Sat.bind (namingLane_keeps (phaseLine_keeps hs)) fun _ ht => ih ht
      · exact ih hs

theorem phaseGroup_keeps {I : MemInv} {s : State} {n : Nat} {data : List Nat} {g : List LaneAt} (hs : I.On s) :
    I.On (phaseGroup s n data g) := by
  unfold phaseGroup
  split
  · exact hs
  · split
    · dsimp only
      exact hs
    · exact hs

theorem storeGroup_keeps {I : MemInv} {s : State} {n : Nat} {data : List Nat} {eager : Bool} {g : List LaneAt}
    (hs : I.On s) : Sat I.stop I.On (storeGroup s n data eager g) := by
  unfold storeGroup
  split
  · exact .ok hs
  · dsimp only
    split
    · exact portPush_keeps hs
    · exact debugStoreV_keeps hs
    · refine Sat.bind (groupLocks_keeps hs) fun t ht => ?_
      exact Sat.bind (waitFor_keeps ht) fun _ _ => .ok (State.post_keeps ht)
    · refine Sat.bind (groupLocks_keeps hs) fun t ht => ?_
      split
      · exact .ok (phaseGroup_keeps ht)
      · split
        · refine Sat.bind (waitFor_keeps ht) fun _ _ => ?_
          refine Sat.bind (namingLane_keeps (refusedAs_keeps (storeRefusal_keeps ht))) fun u hu => ?_
          exact .ok (sendStore_keeps hu)
        · exact .ok ht

theorem storeGroups_keeps {I : MemInv} {s : State} {n : Nat} {data : List Nat} {eager : Bool}
    {held : List (Option (Nat × Nat))} {k : Nat} {l : List (List LaneAt)} (hs : I.On s) :
    Sat I.stop I.On (storeGroups s n data eager held k l) := by
  induction l generalizing s held k with
  | nil => exact Sat.ite (.ok hs) (hold_keeps hs)
  | cons g l ih =>
    unfold storeGroups
    dsimp only
    split
    · exact ih hs
    · split
      · exact ih hs
      · split
        next e => exact ih (State.modMe_keeps ((storeGroup_keeps hs).of_ok e))
        next e => exact ih ((storeGroup_keeps hs).of_error e)
        next e => exact fail_keeps ((storeGroup_keeps hs).of_error e)

theorem vectorStore_keeps {I : MemInv} {f : Fmt} {s : State} {unit : Bool} {offs : List Int} (hs : I.On s) :
    Sat I.stop I.On (vectorStore f s unit offs) := by
  unfold vectorStore
  refine Sat.bind (srcLanes_keeps hs) fun a _ => ?_
  dsimp only
  refine Sat.bind (checkLanes_keeps hs) fun ⟨t, b⟩ ht => ?_
  split
  · refine Sat.bind (R := I.On) (keepAnswers_keeps (allocGroups_keeps ht)) fun u hu => ?_
    exact Sat.bind (storeGroups_keeps hu) fun v hv => putNone_keeps hv
  · exact Sat.bind (R := I.On) (.ok ht) fun u hu => Sat.bind (storeGroups_keeps hu) fun v hv => putNone_keeps hv

theorem execVld_keeps {f : Fmt} {s : State} (hs : canonForm.On s) : canonForm.Next (execVld f s) := by
  unfold execVld
  exact settle_keeps (vectorLoad_keeps hs)

theorem execVst_keeps {I : MemInv} {f : Fmt} {s : State} (hs : I.On s) : I.Next (execVst f s) := by
  unfold execVst
  exact settle_keeps (vectorStore_keeps hs)

theorem execVldx_keeps {f : Fmt} {s : State} (hs : canonForm.On s) : canonForm.Next (execVldx f s) := by
  unfold execVldx
  exact settle_keeps (Sat.bind (src512_keeps hs) fun a _ => vectorLoad_keeps hs)

theorem execVstx_keeps {I : MemInv} {f : Fmt} {s : State} (hs : I.On s) : I.Next (execVstx f s) := by
  unfold execVstx
  exact settle_keeps (vectorStore_keeps hs)

theorem execVlds_keeps {f : Fmt} {s : State} (hs : canonForm.On s) : canonForm.Next (execVlds f s) := by
  unfold execVlds
  exact settle_keeps (Sat.bind (src64_keeps hs) fun a _ => vectorLoad_keeps hs)

theorem execVsts_keeps {I : MemInv} {f : Fmt} {s : State} (hs : I.On s) : I.Next (execVsts f s) := by
  unfold execVsts
  exact settle_keeps (vectorStore_keeps hs)

end Sys2Proof.Machine
end

section
/-! PROOFS. The memories under the functions of Machine/Steading.lean. -/

namespace Sys2Proof.Machine

theorem bootOn_keeps {I : MemInv} {s : State} {b : BootInput} (hs : I.On s) : I.On (bootOn s b) := by
  unfold bootOn
  dsimp only
  split
  · exact hs
  · split
    · exact hs
    · split
      · exact hs
      · split <;> exact hs

theorem execReset_keeps {b : BootInput} {s : State} : canonForm.Next (execReset b s) := by
  unfold execReset
  extract_lets t
  have ht : canonForm.On t := ⟨rfl, rfl⟩
  clear_value t
  split
  · exact .next (bootOn_keeps ht)
  · exact .next ht

theorem execRecoveryDoorbell_keeps {I : MemInv} {b : BootInput} {s : State} (hs : I.On s) :
    I.Next (execRecoveryDoorbell b s) := by
  unfold execRecoveryDoorbell
  split
  · exact .next (bootOn_keeps hs)
  · exact .next hs

theorem execReadPresence_keeps {I : MemInv} {s : State} (hs : I.On s) : I.Next (execReadPresence s) := by
  unfold execReadPresence
  exact .next hs

theorem execReadMeters_keeps {I : MemInv} {ctx : Nat} {s : State} (hs : I.On s) : I.Next (execReadMeters ctx s) := by
  unfold execReadMeters
  split
  · exact .next hs
  · split
    · dsimp only
      exact .next (MemInv.On.ite hs hs)
    · exact .next hs

theorem execWriteTrkctl_keeps {I : MemInv} {v : W64} {s : State} (hs : I.On s) : I.Next (execWriteTrkctl v s) := by
  unfold execWriteTrkctl
  dsimp only
  exact .next hs

theorem execWriteTrapbase_keeps {I : MemInv} {cluster : Nat} {v : W64} {s : State} (hs : I.On s) :
    I.Next (execWriteTrapbase cluster v s) := by
  unfold execWriteTrapbase
  extract_lets t
  have ht : I.On t := State.forsakeAll_keeps hs
  clear_value t
  split
  · exact .next hs
  · split
    · exact .next hs
    · exact .next ht

theorem execWriteReserve_keeps {I : MemInv} {hi lo : Nat} {s : State} (hs : I.On s) :
    I.Next (execWriteReserve hi lo s) := by
  unfold execWriteReserve
  exact .next hs

theorem execReadEventlog_keeps {I : MemInv} {n : Nat} {s : State} (hs : I.On s) : I.Next (execReadEventlog n s) := by
  unfold execReadEventlog
  exact .next hs

theorem execInstallSchedule_keeps {I : MemInv} {image : Nat} {signed : Bool} {s : State} (hs : I.On s) :
    I.Next (execInstallSchedule image signed s) := by
  unfold execInstallSchedule
  split
  · exact .next (idleInstall_keeps hs)
  · exact .next hs

theorem execSetDevidx_keeps {I : MemInv} {v : Option Nat} {s : State} (hs : I.On s) : I.Next (execSetDevidx v s) := by
  unfold execSetDevidx
  split
  · exact .next hs
  · split
    · exact .next hs
    · split <;> exact .next hs

theorem execFirmwareUpdate_keeps {I : MemInv} {req : Pldm} {s : State} (hs : I.On s) :
    I.Next (execFirmwareUpdate req s) := by
  unfold execFirmwareUpdate
  split
  · exact .next hs
  · dsimp only
    split
    · exact .next (State.draw_keeps hs)
    · exact .next hs
  · exact .next hs

theorem newTicket_keeps {I : MemInv} {s : State} (hs : I.On s) : I.On (newTicket s).1 := by
  unfold newTicket
  exact hs

theorem execKeyImport_keeps {I : MemInv} {ctx : Nat} {key : BitVec 256} {s : State} (hs : I.On s) :
    I.Next (execKeyImport ctx key s) := by
  unfold execKeyImport
  split <;> exact .next hs

theorem execDomainJoin_keeps {I : MemInv} {members : List Nat} {ok : Bool} {s : State} (hs : I.On s) :
    I.Next (execDomainJoin members ok s) := by
  unfold execDomainJoin
  dsimp only
  split <;> exact .next hs

theorem execDomainBarrier_keeps {I : MemInv} {agreed : Agreed} {timeBase : Nat} {s : State} (hs : I.On s) :
    I.Next (execDomainBarrier agreed timeBase s) := by
  unfold execDomainBarrier
  dsimp only
  split
  · exact .next hs
  · split
    · exact .next hs
    · exact .next (MemInv.On.foldl hs (fun t a ht => ht))

theorem execHealthMeasure_keeps {I : MemInv} {die margin : Nat} {s : State} (hs : I.On s) :
    I.Next (execHealthMeasure die margin s) := by
  unfold execHealthMeasure
  exact .next hs

theorem alertDie_keeps {I : MemInv} {s : State} {die : Nat} (hs : I.On s) : I.On (alertDie s die) := by
  unfold alertDie
  exact MemInv.On.foldl hs (fun t a ht => ht)

theorem execVoltageReplan_keeps {I : MemInv} {die : Nat} {s : State} (hs : I.On s) :
    I.Next (execVoltageReplan die s) := by
  unfold execVoltageReplan
  dsimp only
  split
  · split
    · exact .next (alertDie_keeps (State.draw_keeps hs))
    · exact .next hs
  · exact .next (State.draw_keeps hs)

end Sys2Proof.Machine
end

section
/-! PROOFS. The memories under the functions of Machine/Tasks.lean. -/

namespace Sys2Proof.Machine

theorem enqueueCounted_keeps {I : MemInv} {s : State} {core : Nat} {r : V512} {l : Launch} (hs : I.On s) :
    I.On (enqueueCounted s core r l) := by
  unfold enqueueCounted
  dsimp only
  exact enqueueAt_keeps (headlandAdd_keeps hs)

theorem execTspawn_keeps {f : Fmt} {s : State} (hs : canonForm.On s) : canonForm.Next (execTspawn f s) := by
  unfold execTspawn
  refine scalarRun_keeps hs ?_
  refine Sat.bind (src512_keeps hs) fun a _ => ?_
  dsimp only
  split
  · refine Sat.bind (release_keeps hs) fun t ht => ?_
    split
    · exact put64_keeps ht
    · exact put64_keeps (enqueueCounted_keeps ht)
  · exact put64_keeps hs

theorem mySlice_keeps {I : MemInv} {s : State} (hs : I.On s) : Sat I.stop (fun _ => True) (mySlice s) := by
  unfold mySlice
  split
  · exact .ok trivial
  · exact fail_keeps hs

theorem enqueueContinuation_keeps {I : MemInv} {s : State} {r : V512} (hs : I.On s) :
    I.On (enqueueContinuation s r) := by
  unfold enqueueContinuation
  split
  · exact enqueueCounted_keeps hs
  · exact hs

theorem joinCount_keeps {s : State} {join : W64} (hs : canonForm.On s) :
    Sat canonForm.stop (fun p => canonForm.On p.1) (joinCount s join) := by
  unfold joinCount
  split
  · exact rmwAnswer_keeps hs
  · refine Sat.bind (atomicTarget_keeps hs) fun a _ => ?_
    refine Sat.bind (interlock_keeps hs) fun _ _ => ?_
    split
    · exact Sat.bind (waitFor_keeps hs) fun _ _ => rmwTrip_keeps (afterInterlock_keeps hs)
    · exact rmwAt_keeps hs

theorem joinStep_keeps {s : State} {join : W64} (hs : canonForm.On s) :
    Sat canonForm.stop canonForm.On (joinStep s join) := by
  unfold joinStep
  refine keepAnswers_keeps ?_
  refine Sat.bind (joinCount_keeps hs) fun ⟨t, a⟩ ht => ?_
  dsimp only
  split
  · exact Sat.bind (loadBytes_keeps (acquire_keeps ht)) fun ⟨u, b⟩ hu => .ok (enqueueContinuation_keeps hu)
  · exact .ok (acquire_keeps ht)

theorem execTend_keeps {f : Fmt} {s : State} (hs : canonForm.On s) : canonForm.Next (execTend f s) := by
  unfold execTend
  refine scalarRun_keeps hs ?_
  refine Sat.bind (mySlice_keeps hs) fun a _ => ?_
  dsimp only
  split
  · refine Sat.bind (R := canonForm.On) (.ok hs) fun t ht => ?_
    split
    · refine Sat.bind (R := canonForm.On) (.ok ht) fun u hu => ?_
      exact .ok (leaveSlice_keeps (closeLoss_keeps (endRecord_keeps hu)))
    · exact Sat.bind (joinStep_keeps ht) fun u hu => .ok (leaveSlice_keeps (closeLoss_keeps (endRecord_keeps hu)))
  · refine Sat.bind (release_keeps hs) fun t ht => ?_
    split
    · refine Sat.bind (R := canonForm.On) (.ok ht) fun u hu => ?_
      exact .ok (leaveSlice_keeps (closeLoss_keeps (endRecord_keeps hu)))
    · exact Sat.bind (joinStep_keeps ht) fun u hu => .ok (leaveSlice_keeps (closeLoss_keeps (endRecord_keeps hu)))

theorem execTyield_keeps {I : MemInv} {f : Fmt} {s : State} (hs : I.On s) : I.Next (execTyield f s) := by
  unfold execTyield
  refine scalarRun_keeps hs ?_
  refine Sat.bind (mySlice_keeps hs) fun a _ => ?_
  refine Sat.bind (release_keeps hs) fun t ht => ?_
  dsimp only
  split
  · exact .ok (leaveSlice_keeps ht)
  · exact .ok (enqueueAt_keeps (leaveSlice_keeps ht))

theorem execTdl_keeps {f : Fmt} {s : State} (hs : canonForm.On s) : canonForm.Next (execTdl f s) := by
  unfold execTdl
  refine scalarRun_keeps hs ?_
  refine Sat.bind (mySlice_keeps hs) fun a _ => ?_
  dsimp only
  exact put64_keeps hs

theorem packetTargets_keeps {I : MemInv} {s : State} {va : W64} {x0 : Nat} (hs : I.On s) :
    Sat I.stop (fun _ => True) (packetTargets s va x0) := by
  induction x0 generalizing s va with
  | zero =>
    unfold packetTargets
    exact .ok trivial
  | succ k ih =>
    unfold packetTargets
    refine Sat.bind (resolve_keeps hs) fun a _ => ?_
    split
    · exact fail_keeps hs
    · exact fail_keeps hs
    · exact Sat.bind (ih hs) fun c _ => .ok trivial

theorem readPacket_keeps {I : MemInv} {s : State} {va : W64} {x0 : List Target} (hs : I.On s) :
    Sat I.eng (fun p => I.On p.1) (readPacket s va x0) := by
  induction x0 generalizing s va with
  | nil =>
    unfold readPacket
    exact .ok hs
  | cons a l ih =>
    unfold readPacket
    exact Sat.bind (placeRead_keeps hs) fun ⟨t, b⟩ ht => Sat.bind (ih ht) fun ⟨u, c⟩ hu => .ok hu

theorem tlaunchRun_keeps {f : Fmt} {s : State} {va : W64} {ts : List Target} (hs : canonForm.On s) :
    Sat canonForm.stop canonForm.On (tlaunchRun f s va ts) := by
  unfold tlaunchRun
  split
  next a t hq =>
    have ht := Sat.of_error (launchRead_keeps (readPacket_keeps hs)) hq
    exact hold_keeps (retry_keeps hs ht)
  next a t b c hq =>
    have ht := Sat.of_error (launchRead_keeps (readPacket_keeps hs)) hq
    exact put64_keeps ht
  next a t b hq =>
    have hp := Sat.of_ok (launchRead_keeps (readPacket_keeps hs)) hq
    split
    next c u d hq1 =>
      have hp1 := Sat.of_ok (runLaunch_keeps hp) hq1
      exact put64_keeps hp1
    next c u hq1 =>
      have hu := Sat.of_error (runLaunch_keeps hp) hq1
      exact hold_keeps (retry_keeps hs hu)
    next c d hq1 hq2 =>
      have hp1 := Sat.of_error (runLaunch_keeps hp) hq2
      exact hold_keeps hs

theorem execTlaunch_keeps {f : Fmt} {s : State} (hs : canonForm.On s) : canonForm.Next (execTlaunch f s) := by
  unfold execTlaunch
  refine scalarRun_keeps hs ?_
  dsimp only
  refine Sat.bind (alignedIn_keeps hs) fun _ _ => ?_
  exact Sat.bind (packetTargets_keeps hs) fun a _ => Sat.bind (release_keeps hs) fun t ht => tlaunchRun_keeps ht

end Sys2Proof.Machine
end

section
/-! PROOFS. The memories under the functions of Machine/Vector.lean. -/

namespace Sys2Proof.Machine

theorem execVadd_keeps {f : Fmt} {s : State} (hs : canonForm.On s) : canonForm.Next (execVadd f s) := by
  unfold execVadd
  exact settle_keeps (lanewise_keeps hs)

theorem execVsub_keeps {f : Fmt} {s : State} (hs : canonForm.On s) : canonForm.Next (execVsub f s) := by
  unfold execVsub
  exact settle_keeps (lanewise_keeps hs)

theorem execVmul_keeps {f : Fmt} {s : State} (hs : canonForm.On s) : canonForm.Next (execVmul f s) := by
  unfold execVmul
  exact settle_keeps (lanewise_keeps hs)

theorem fmaLanes_keeps {f : Fmt} {s : State} {neg : Bool} (hs : canonForm.On s) :
    Sat canonForm.stop canonForm.On (fmaLanes f s neg) := by
  unfold fmaLanes
  refine Sat.bind (srcLanes_keeps hs) fun a _ => ?_
  refine Sat.bind (srcLanes_keeps hs) fun b _ => ?_
  dsimp only
  exact putLanes_keeps hs

theorem execVfma_keeps {f : Fmt} {s : State} (hs : canonForm.On s) : canonForm.Next (execVfma f s) := by
  unfold execVfma
  exact settle_keeps (fmaLanes_keeps hs)

theorem execVfms_keeps {f : Fmt} {s : State} (hs : canonForm.On s) : canonForm.Next (execVfms f s) := by
  unfold execVfms
  exact settle_keeps (fmaLanes_keeps hs)

theorem execVmin_keeps {f : Fmt} {s : State} (hs : canonForm.On s) : canonForm.Next (execVmin f s) := by
  unfold execVmin
  exact settle_keeps (lanewise_keeps hs)

theorem execVmax_keeps {f : Fmt} {s : State} (hs : canonForm.On s) : canonForm.Next (execVmax f s) := by
  unfold execVmax
  exact settle_keeps (lanewise_keeps hs)

theorem execVand_keeps {f : Fmt} {s : State} (hs : canonForm.On s) : canonForm.Next (execVand f s) := by
  unfold execVand
  exact settle_keeps (lanewise_keeps hs)

theorem execVor_keeps {f : Fmt} {s : State} (hs : canonForm.On s) : canonForm.Next (execVor f s) := by
  unfold execVor
  exact settle_keeps (lanewise_keeps hs)

theorem execVxor_keeps {f : Fmt} {s : State} (hs : canonForm.On s) : canonForm.Next (execVxor f s) := by
  unfold execVxor
  exact settle_keeps (lanewise_keeps hs)

theorem execVshl_keeps {f : Fmt} {s : State} (hs : canonForm.On s) : canonForm.Next (execVshl f s) := by
  unfold execVshl
  exact settle_keeps (lanewise_keeps hs)

theorem execVshr_keeps {f : Fmt} {s : State} (hs : canonForm.On s) : canonForm.Next (execVshr f s) := by
  unfold execVshr
  exact settle_keeps (lanewise_keeps hs)

theorem execVsra_keeps {f : Fmt} {s : State} (hs : canonForm.On s) : canonForm.Next (execVsra f s) := by
  unfold execVsra
  exact settle_keeps (lanewise_keeps hs)

theorem execVun_keeps {f : Fmt} {s : State} (hs : canonForm.On s) : canonForm.Next (execVun f s) := by
  unfold execVun
  exact settle_keeps (lanewise1_keeps hs)

theorem execVcmp_keeps {f : Fmt} {s : State} (hs : canonForm.On s) : canonForm.Next (execVcmp f s) := by
  unfold execVcmp
  refine settle_keeps ?_
  refine Sat.bind (srcLanes_keeps hs) fun a _ => ?_
  refine Sat.bind (srcLanes_keeps hs) fun b _ => ?_
  dsimp only
  exact put64_keeps hs

theorem execVsel_keeps {f : Fmt} {s : State} (hs : canonForm.On s) : canonForm.Next (execVsel f s) := by
  unfold execVsel
  refine settle_keeps ?_
  refine Sat.bind (srcLanes_keeps hs) fun a _ => ?_
  refine Sat.bind (R := (fun _ => True)) ?_ fun _ _ => ?_
  · split
    · exact .ok trivial
    · exact srcLanes_keeps hs
  · exact putLanes_keeps hs

theorem execVmov_keeps {f : Fmt} {s : State} (hs : canonForm.On s) : canonForm.Next (execVmov f s) := by
  unfold execVmov
  exact settle_keeps (lanewise1_keeps hs)

theorem laneIndex_keeps {I : MemInv} {f : Fmt} {s : State} (hs : I.On s) :
    Sat I.stop (fun _ => True) (laneIndex f s) := by
  unfold laneIndex
  exact Sat.bind (src64_keeps hs) fun a _ => .ok trivial

theorem execVext_keeps {f : Fmt} {s : State} (hs : canonForm.On s) : canonForm.Next (execVext f s) := by
  unfold execVext
  refine settle_keeps ?_
  refine Sat.bind (src512_keeps hs) fun a _ => ?_
  refine Sat.bind (laneIndex_keeps hs) fun b _ => ?_
  split
  · exact put64_keeps hs
  · split
    · exact put64_keeps hs
    · exact putNone_keeps hs

theorem execVins_keeps {f : Fmt} {s : State} (hs : canonForm.On s) : canonForm.Next (execVins f s) := by
  unfold execVins
  refine settle_keeps ?_
  refine Sat.bind (R := (fun _ => True)) ?_ fun _ _ => ?_
  · split
    · exact Sat.bind (queueRead_keeps hs) fun d _ => .ok trivial
    · exact Sat.bind (srcLanes_keeps hs) fun b _ => .ok trivial
  · refine Sat.bind (laneIndex_keeps hs) fun a _ => ?_
    dsimp only
    exact putLanes_keeps hs

theorem execVperm_keeps {f : Fmt} {s : State} (hs : canonForm.On s) : canonForm.Next (execVperm f s) := by
  unfold execVperm
  refine settle_keeps ?_
  refine Sat.bind (srcLanes_keeps hs) fun a _ => ?_
  refine Sat.bind (srcLanes_keeps hs) fun b _ => ?_
  dsimp only
  exact putLanes_keeps hs

theorem execVslide_keeps {f : Fmt} {s : State} (hs : canonForm.On s) : canonForm.Next (execVslide f s) := by
  unfold execVslide
  refine settle_keeps ?_
  refine Sat.bind (srcLanes_keeps hs) fun a _ => ?_
  refine Sat.bind (R := (fun _ => True)) ?_ fun _ _ => ?_
  · split
    · exact .ok trivial
    · exact srcLanes_keeps hs
  · dsimp only
    exact putLanes_keeps hs

theorem execVzip_keeps {f : Fmt} {s : State} (hs : canonForm.On s) : canonForm.Next (execVzip f s) := by
  unfold execVzip
  refine settle_keeps ?_
  refine Sat.bind (srcLanes_keeps hs) fun a _ => ?_
  refine Sat.bind (srcLanes_keeps hs) fun b _ => ?_
  dsimp only
  exact putLanes_keeps hs

theorem execVunzip_keeps {f : Fmt} {s : State} (hs : canonForm.On s) : canonForm.Next (execVunzip f s) := by
  unfold execVunzip
  refine settle_keeps ?_
  exact Sat.bind (srcLanes_keeps hs) fun a _ => Sat.bind (srcLanes_keeps hs) fun b _ => putLanes_keeps hs

theorem execVcompr_keeps {f : Fmt} {s : State} (hs : canonForm.On s) : canonForm.Next (execVcompr f s) := by
  unfold execVcompr
  refine settle_keeps ?_
  refine Sat.bind (srcLanes_keeps hs) fun a _ => ?_
  dsimp only
  exact putLanes_keeps hs

theorem execVexpnd_keeps {f : Fmt} {s : State} (hs : canonForm.On s) : canonForm.Next (execVexpnd f s) := by
  unfold execVexpnd
  refine settle_keeps ?_
  refine Sat.bind (srcLanes_keeps hs) fun a _ => ?_
  dsimp only
  exact putLanes_keeps hs

theorem execViota_keeps {f : Fmt} {s : State} (hs : canonForm.On s) : canonForm.Next (execViota f s) := by
  unfold execViota
  exact settle_keeps (putLanes_keeps hs)

theorem execVpopc_keeps {f : Fmt} {s : State} (hs : canonForm.On s) : canonForm.Next (execVpopc f s) := by
  unfold execVpopc
  exact settle_keeps (put64_keeps hs)

theorem presentLanes_keeps {I : MemInv} {f : Fmt} {s : State} (hs : I.On s) :
    Sat I.stop (fun _ => True) (presentLanes f s) := by
  unfold presentLanes
  exact Sat.bind (srcLanes_keeps hs) fun a _ => .ok trivial

theorem execVred_keeps {f : Fmt} {s : State} (hs : canonForm.On s) : canonForm.Next (execVred f s) := by
  unfold execVred
  refine settle_keeps ?_
  refine Sat.bind (presentLanes_keeps hs) fun a _ => ?_
  dsimp only
  split
  · exact put64_keeps hs
  · exact Sat.bind (src64_keeps hs) fun b _ => put64_keeps hs

theorem execVscan_keeps {f : Fmt} {s : State} (hs : canonForm.On s) : canonForm.Next (execVscan f s) := by
  unfold execVscan
  refine settle_keeps ?_
  refine Sat.bind (presentLanes_keeps hs) fun a _ => ?_
  dsimp only
  exact putLanes_keeps hs

theorem execVdot_keeps {f : Fmt} {s : State} (hs : canonForm.On s) : canonForm.Next (execVdot f s) := by
  unfold execVdot
  refine settle_keeps ?_
  refine Sat.bind (srcLanes_keeps hs) fun a _ => ?_
  refine Sat.bind (srcLanes_keeps hs) fun b _ => ?_
  dsimp only
  exact put512_keeps hs

theorem execVlut_keeps {f : Fmt} {s : State} (hs : canonForm.On s) : canonForm.Next (execVlut f s) := by
  unfold execVlut
  exact settle_keeps (Sat.bind (src512_keeps hs) fun a _ => Sat.bind (srcLanes_keeps hs) fun b _ => putLanes_keeps hs)

theorem execVclip_keeps {f : Fmt} {s : State} (hs : canonForm.On s) : canonForm.Next (execVclip f s) := by
  unfold execVclip
  exact settle_keeps (lanewise_keeps hs)

end Sys2Proof.Machine
end

section
/-! PROOFS. The memories under the functions of Machine/Dispatch.lean. -/

namespace Sys2Proof.Machine

theorem exec_keeps {i : Instr} {s : State} (hs : canonForm.On s) : canonForm.Next (exec i s) := by
  cases i with
  | nop _ => exact execNop_keeps hs
  | brk _ => exact execBrk_keeps hs
  | j _ => exact execJ_keeps hs
  | jal _ => exact execJal_keeps hs
  | jr _ => exact execJr_keeps hs
  | call _ => exact execCall_keeps hs
  | ret _ => exact execRet_keeps hs
  | loop _ => exact execLoop_keeps hs
  | rep _ => exact execRep_keeps hs
  | add _ => exact execAdd_keeps hs
  | sub _ => exact execSub_keeps hs
  | mul _ => exact execMul_keeps hs
  | mulh _ => exact execMulh_keeps hs
  | div _ => exact execDiv_keeps hs
  | rem _ => exact execRem_keeps hs
  | and _ => exact execAnd_keeps hs
  | or _ => exact execOr_keeps hs
  | xor _ => exact execXor_keeps hs
  | andn _ => exact execAndn_keeps hs
  | shl _ => exact execShl_keeps hs
  | shr _ => exact execShr_keeps hs
  | sra _ => exact execSra_keeps hs
  | min _ => exact execMin_keeps hs
  | max _ => exact execMax_keeps hs
  | bits _ => exact execBits_keeps hs
  | cmp _ => exact execCmp_keeps hs
  | sel _ => exact execSel_keeps hs
  | mov _ => exact execMov_keeps hs
  | movhi _ => exact execMovhi_keeps hs
  | ext _ => exact execExt_keeps hs
  | ins _ => exact execIns_keeps hs
  | plog _ => exact execPlog_keeps hs
  | addr _ => exact execAddr_keeps hs
  | csrr _ => exact execCsrr_keeps hs
  | csrw _ => exact execCsrw_keeps hs
  | csrs _ => exact execCsrs_keeps hs
  | csrc _ => exact execCsrc_keeps hs
  | cvt _ => exact execCvt_keeps hs
  | fadd _ => exact execFadd_keeps hs
  | fmul _ => exact execFmul_keeps hs
  | fma _ => exact execFma_keeps hs
  | ld _ => exact execLd_keeps hs
  | st _ => exact execSt_keeps hs
  | ldp _ => exact execLdp_keeps hs
  | stp _ => exact execStp_keeps hs
  | pref _ => exact execPref_keeps hs
  | prefRow _ => exact execPrefRow_keeps hs
  | amo _ => exact execAmo_keeps hs
  | cas _ => exact execCas_keeps hs
  | amored _ => exact execAmored_keeps hs
  | waitw _ => exact execWaitw_keeps hs
  | phase _ => exact execPhase_keeps hs
  | rel _ => exact execRel_keeps hs
  | acq _ => exact execAcq_keeps hs
  | fenceSc _ => exact execFenceSc_keeps hs
  | fenceIo _ => exact execFenceIo_keeps hs
  | cinvLine _ => exact execCinvLine_keeps hs
  | cinvAll _ => exact execCinvAll_keeps hs
  | qpush _ => exact execQpush_keeps hs
  | qpop _ => exact execQpop_keeps hs
  | qadv _ => exact execQadv_keeps hs
  | qprod _ => exact execQprod_keeps hs
  | qwaitFill _ => exact execQwaitFill_keeps hs
  | qwaitRoom _ => exact execQwaitRoom_keeps hs
  | qfree _ => exact execQfree_keeps hs
  | qbind _ => exact execQbind_keeps hs
  | qstat _ => exact execQstat_keeps hs
  | qstatHead _ => exact execQstatHead_keeps hs
  | qstatTail _ => exact execQstatTail_keeps hs
  | tour _ => exact execTour_keeps hs
  | tourBind _ => exact execTourBind_keeps hs
  | trel _ => exact execTrel_keeps hs
  | trelEnd _ => exact execTrelEnd_keeps hs
  | tstat _ => exact execTstat_keeps hs
  | tstatHead _ => exact execTstatHead_keeps hs
  | splprepOpen _ => exact execSplprepOpen_keeps hs
  | splprepStage _ => exact execSplprepStage_keeps hs
  | splprepBind _ => exact execSplprepBind_keeps hs
  | splprepDrop _ => exact execSplprepDrop_keeps hs
  | splinj _ => exact execSplinj_keeps hs
  | splstat _ => exact execSplstat_keeps hs
  | splstatTake _ => exact execSplstatTake_keeps hs
  | splstatInh _ => exact execSplstatInh_keeps hs
  | rngset _ => exact execRngset_keeps hs
  | rngget _ => exact execRngget_keeps hs
  | rnggetLeft _ => exact execRnggetLeft_keeps hs
  | vadd _ => exact execVadd_keeps hs
  | vsub _ => exact execVsub_keeps hs
  | vmul _ => exact execVmul_keeps hs
  | vfma _ => exact execVfma_keeps hs
  | vfms _ => exact execVfms_keeps hs
  | vmin _ => exact execVmin_keeps hs
  | vmax _ => exact execVmax_keeps hs
  | vand _ => exact execVand_keeps hs
  | vor _ => exact execVor_keeps hs
  | vxor _ => exact execVxor_keeps hs
  | vshl _ => exact execVshl_keeps hs
  | vshr _ => exact execVshr_keeps hs
  | vsra _ => exact execVsra_keeps hs
  | vcmp _ => exact execVcmp_keeps hs
  | vsel _ => exact execVsel_keeps hs
  | vun _ => exact execVun_keeps hs
  | vmov _ => exact execVmov_keeps hs
  | vext _ => exact execVext_keeps hs
  | vins _ => exact execVins_keeps hs
  | vperm _ => exact execVperm_keeps hs
  | vslide _ => exact execVslide_keeps hs
  | vred _ => exact execVred_keeps hs
  | vscan _ => exact execVscan_keeps hs
  | vpopc _ => exact execVpopc_keeps hs
  | vcompr _ => exact execVcompr_keeps hs
  | vexpnd _ => exact execVexpnd_keeps hs
  | vzip _ => exact execVzip_keeps hs
  | vunzip _ => exact execVunzip_keeps hs
  | viota _ => exact execViota_keeps hs
  | vld _ => exact execVld_keeps hs
  | vst _ => exact execVst_keeps hs
  | vldx _ => exact execVldx_keeps hs
  | vstx _ => exact execVstx_keeps hs
  | vlds _ => exact execVlds_keeps hs
  | vsts _ => exact execVsts_keeps hs
  | vcvt _ => exact execVcvt_keeps hs
  | vcvtp _ => exact execVcvtp_keeps hs
  | vrequ _ => exact execVrequ_keeps hs
  | vscacc _ => exact execVscacc_keeps hs
  | vbexp _ => exact execVbexp_keeps hs
  | vclip _ => exact execVclip_keeps hs
  | vpod _ => exact execVpod_keeps hs
  | vpodd _ => exact execVpodd_keeps hs
  | vdot _ => exact execVdot_keeps hs
  | vlut _ => exact execVlut_keeps hs
  | vplane _ => exact execVplane_keeps hs
  | vunpl _ => exact execVunpl_keeps hs
  | mxq _ => exact execMxq_keeps hs
  | mxwm _ => exact execMxwm_keeps hs
  | mxwmWait _ => exact execMxwmWait_keeps hs
  | mxrd _ => exact execMxrd_keeps hs
  | mxwr _ => exact execMxwr_keeps hs
  | mxcont _ => exact execMxcont_keeps hs
  | mxstat _ => exact execMxstat_keeps hs
  | mxstatSticky _ => exact execMxstatSticky_keeps hs
  | cpq _ => exact execCpq_keeps hs
  | cpchn _ => exact execCpchn_keeps hs
  | cpwm _ => exact execCpwm_keeps hs
  | cpstat _ => exact execCpstat_keeps hs
  | cpstatLog _ => exact execCpstatLog_keeps hs
  | exq _ => exact execExq_keeps hs
  | hstart _ => exact execHstart_keeps hs
  | hstat _ => exact execHstat_keeps hs
  | hstatH _ => exact execHstatH_keeps hs
  | hloadCode _ => exact execHloadCode_keeps hs
  | hloadTmpl _ => exact execHloadTmpl_keeps hs
  | kvmap _ => exact execKvmap_keeps hs
  | kvmapApp _ => exact execKvmapApp_keeps hs
  | kvmapWr _ => exact execKvmapWr_keeps hs
  | kvswapFork _ => exact execKvswapFork_keeps hs
  | kvswapAccept _ => exact execKvswapAccept_keeps hs
  | kvswapReject _ => exact execKvswapReject_keeps hs
  | kvtrunc _ => exact execKvtrunc_keeps hs
  | kvwin _ => exact execKvwin_keeps hs
  | stframe _ => exact execStframe_keeps hs
  | stadvGen _ => exact execStadvGen_keeps hs
  | stadvPlay _ => exact execStadvPlay_keeps hs
  | coll _ => exact execColl_keeps hs
  | cstat _ => exact execCstat_keeps hs
  | cstatClr _ => exact execCstatClr_keeps hs
  | tspawn _ => exact execTspawn_keeps hs
  | tend _ => exact execTend_keeps hs
  | tyield _ => exact execTyield_keeps hs
  | tdl _ => exact execTdl_keeps hs
  | tlaunch _ => exact execTlaunch_keeps hs
  | ecall _ => exact execEcall_keeps hs
  | eret _ => exact execEret_keeps hs
  | wfi _ => exact execWfi_keeps hs
  | mtrd _ => exact execMtrd_keeps hs
  | tlbinvPage _ => exact execTlbinvPage_keeps hs
  | tlbinvCtx _ => exact execTlbinvCtx_keeps hs
  | tlbinvAll _ => exact execTlbinvAll_keeps hs
  | keyld _ => exact execKeyld_keeps hs
  | keyldClear _ => exact execKeyldClear_keeps hs
  | rdtime _ => exact execRdtime_keeps hs
  | ctxsw _ => exact execCtxsw_keeps hs
  | ctxswStat _ => exact execCtxswStat_keeps hs
  | reset _ => exact execReset_keeps
  | recoveryDoorbell _ => exact execRecoveryDoorbell_keeps hs
  | doorbell _ => exact execDoorbell_keeps hs
  | mstatusClear _ _ => exact execMstatusClear_keeps hs
  | setup _ => exact execSetup_keeps hs
  | teardown _ => exact execTeardown_keeps hs
  | sysgo _ => exact execSysgo_keeps hs
  | registerWrite _ _ => exact execRegisterWrite_keeps hs
  | mxpush _ => exact execMxpush_keeps hs
  | cppush _ _ => exact execCppush_keeps hs
  | expush _ => exact execExpush_keeps hs
  | hstartRegister _ => exact execHstartRegister_keeps hs
  | cphead _ _ => exact execCphead_keeps hs
  | debugWindowWrite _ _ _ => exact execDebugWindowWrite_keeps hs
  | hcmdResume _ _ _ => exact execHcmdResume_keeps hs
  | hcmdKill _ _ _ => exact execHcmdKill_keeps hs
  | mxcmdResume _ _ => exact execMxcmdResume_keeps hs
  | mxcmdKill _ _ => exact execMxcmdKill_keeps hs
  | cpcmdResume _ _ _ => exact execCpcmdResume_keeps hs
  | cpcmdKill _ _ _ => exact execCpcmdKill_keeps hs
  | hrcmdResume _ _ => exact execHrcmdResume_keeps hs
  | hrcmdKill _ _ => exact execHrcmdKill_keeps hs
  | tourcmdResume _ _ _ => exact execTourcmdResume_keeps hs
  | tourcmdKill _ _ _ => exact execTourcmdKill_keeps hs
  | readMeters _ => exact execReadMeters_keeps hs
  | readPresence => exact execReadPresence_keeps hs
  | writeTrkctl _ => exact execWriteTrkctl_keeps hs
  | writeTrapbase _ _ => exact execWriteTrapbase_keeps hs
  | writeReserve _ _ => exact execWriteReserve_keeps hs
  | readEventlog _ => exact execReadEventlog_keeps hs
  | raiseMgmt _ => exact execRaiseMgmt_keeps hs
  | installSchedule _ _ => exact execInstallSchedule_keeps hs
  | setDevidx _ => exact execSetDevidx_keeps hs
  | firmwareUpdate _ => exact execFirmwareUpdate_keeps hs
  | keyImport _ _ => exact execKeyImport_keeps hs
  | domainJoin _ _ => exact execDomainJoin_keeps hs
  | domainBarrier _ _ => exact execDomainBarrier_keeps hs
  | interruptEntry _ => exact execInterruptEntry_keeps hs
  | timerMatch _ => exact execTimerMatch_keeps hs
  | issueQuantumSwitch _ => exact execIssueQuantumSwitch_keeps hs
  | deadPowerDown _ => exact execDeadPowerDown_keeps hs
  | budgetExpiry _ => exact execBudgetExpiry_keeps hs
  | waitwWake _ => exact execWaitwWake_keeps hs
  | waitwPoll _ => exact execWaitwPoll_keeps hs
  | swapExchange _ => exact execSwapExchange_keeps hs
  | thresherTransfer _ => exact execThresherTransfer_keeps hs
  | launchUnitProcess _ => exact execLaunchUnitProcess_keeps hs
  | taskDispatch _ => exact execTaskDispatch_keeps hs
  | migrateAbandon _ _ => exact execMigrateAbandon_keeps hs
  | endNotice _ => exact execEndNotice_keeps hs
  | endNoticeAck _ => exact execEndNoticeAck_keeps hs
  | graphEnd _ => exact execGraphEnd_keeps hs
  | reserveAdjust _ _ => exact execReserveAdjust_keeps hs
  | pageWalk _ => exact execPageWalk_keeps hs
  | read _ => exact execRead_keeps hs
  | write _ => exact execWrite_keeps hs
  | atomic _ => exact execAtomic_keeps hs
  | flush _ => exact execFlush_keeps hs
  | scratch _ => exact execScratch_keeps hs
  | readData _ => exact execReadData_keeps hs
  | writeAck _ => exact execWriteAck_keeps hs
  | atomicData _ => exact execAtomicData_keeps hs
  | columnCommand _ _ => exact execColumnCommand_keeps hs
  | tidleExpiry _ => exact execTidleExpiry_keeps hs
  | refresh _ => exact execRefresh_keeps hs
  | marker _ _ _ _ _ _ => exact execMarker_keeps hs
  | flushAck _ _ => exact execFlushAck_keeps hs
  | fabricPacketReceive _ => exact execFabricPacketReceive_keeps hs
  | trackerEpochEnd _ => exact execTrackerEpochEnd_keeps hs
  | hotPageSelect _ _ => exact execHotPageSelect_keeps hs
  | promotionStart => exact execPromotionStart_keeps hs
  | promotionComplete _ => exact execPromotionComplete_keeps hs
  | promotionAbandon _ => exact execPromotionAbandon_keeps hs
  | zero _ => exact execZero_keeps hs
  | loadb _ => exact execLoadb_keeps hs
  | runa _ => exact execRuna_keeps hs
  | drain _ => exact execDrain_keeps hs
  | cont _ => exact execCont_keeps hs
  | matrixStop _ => exact execMatrixStop_keeps hs
  | matrixJobComplete _ => exact execMatrixJobComplete_keeps hs
  | copy _ _ => exact execCopy_keeps hs
  | fill _ _ => exact execFill_keeps hs
  | plane _ _ => exact execPlane_keeps hs
  | unplane _ _ => exact execUnplane_keeps hs
  | fprint _ _ => exact execFprint_keeps hs
  | dedup _ _ => exact execDedup_keeps hs
  | kvpack _ _ => exact execKvpack_keeps hs
  | gather _ _ => exact execGather_keeps hs
  | chainRecordRead _ _ => exact execChainRecordRead_keeps hs
  | copyRecordComplete _ _ => exact execCopyRecordComplete_keeps hs
  | copyChannelStop _ _ => exact execCopyChannelStop_keeps hs
  | exp2 _ => exact execExp2_keeps hs
  | expe _ => exact execExpe_keeps hs
  | recip _ => exact execRecip_keeps hs
  | rsqrt _ => exact execRsqrt_keeps hs
  | softrow _ => exact execSoftrow_keeps hs
  | expCardComplete _ => exact execExpCardComplete_keeps hs
  | harrowNop _ => exact execHarrowNop_keeps hs
  | harrowIssue _ => exact execHarrowIssue_keeps hs
  | harrowWaitq _ => exact execHarrowWaitq_keeps hs
  | harrowWaitwm _ => exact execHarrowWaitwm_keeps hs
  | harrowWaitc _ => exact execHarrowWaitc_keeps hs
  | harrowSeti _ => exact execHarrowSeti_keeps hs
  | harrowAddi _ => exact execHarrowAddi_keeps hs
  | harrowCmpb _ => exact execHarrowCmpb_keeps hs
  | harrowLoop _ => exact execHarrowLoop_keeps hs
  | harrowEndl _ => exact execHarrowEndl_keeps hs
  | harrowSignal _ => exact execHarrowSignal_keeps hs
  | harrowTrap _ => exact execHarrowTrap_keeps hs
  | harrowEnd _ => exact execHarrowEnd_keeps hs
  | tourLeg _ _ => exact execTourLeg_keeps hs
  | holdExpiry _ _ _ => exact execHoldExpiry_keeps hs
  | transitDrop _ _ _ => exact execTransitDrop_keeps hs
  | makeGood _ _ => exact execMakeGood_keeps hs
  | tourComplete _ _ => exact execTourComplete_keeps hs
  | tourWatchdog _ _ => exact execTourWatchdog_keeps hs
  | ringPublish _ => exact execRingPublish_keeps hs
  | creditReturn _ => exact execCreditReturn_keeps hs
  | markerPass _ _ => exact execMarkerPass_keeps hs
  | spliceInsert _ _ => exact execSpliceInsert_keeps hs
  | spliceRemove _ _ => exact execSpliceRemove_keeps hs
  | spliceRebind _ _ => exact execSpliceRebind_keeps hs
  | drainAcknowledgement _ _ => exact execDrainAcknowledgement_keeps hs
  | spliceComplete _ _ => exact execSpliceComplete_keeps hs
  | tableOperation _ _ => exact execTableOperation_keeps hs
  | allreduce _ => exact execAllreduce_keeps hs
  | reducescatter _ => exact execReducescatter_keeps hs
  | allgather _ => exact execAllgather_keeps hs
  | broadcast _ => exact execBroadcast_keeps hs
  | reduce _ => exact execReduce_keeps hs
  | alltoall _ => exact execAlltoall_keeps hs
  | barrier _ => exact execBarrier_keeps hs
  | collStep _ _ => exact execCollStep_keeps hs
  | collComplete _ => exact execCollComplete_keeps hs
  | trapPacketAdmit _ => exact execTrapPacketAdmit_keeps hs
  | trapConsPoll _ => exact execTrapConsPoll_keeps hs
  | healthMeasure _ _ => exact execHealthMeasure_keeps hs
  | voltageReplan _ => exact execVoltageReplan_keeps hs
  | tdispRequest _ _ => exact execTdispRequest_keeps hs

end Sys2Proof.Machine
end

section
/-! PROOFS. The memories under the functions of Machine/Streams.lean. -/

namespace Sys2Proof.Machine

theorem runPending_keeps {I : MemInv} {s : State} {op : Nat} {f : Fmt} {r : Result} (hs : I.On s) (hr : I.Next r) :
    I.Next (runPending s op f r) := by
  unfold runPending
  split
  · exact hr
  · split
    · exact waitLoads_keeps hs
    · split
      · split
        · exact waitLoads_keeps hs
        · exact hr
      · exact hr

theorem entriesOf_keeps {I : MemInv} {s : State} {y0 : List Operand} (hs : I.On s) :
    Sat I.stop (fun _ => True) (entriesOf s y0) := by
  induction y0 generalizing s with
  | nil =>
    unfold entriesOf
    exact .ok trivial
  | cons a l ih =>
    unfold entriesOf
    dsimp only
    split
    · refine Sat.bind (queueRead_keeps hs) fun d _ => ?_
      exact Sat.bind (R := (fun _ => True)) (.ok trivial) fun _ _ => Sat.bind (ih hs) fun e _ => .ok trivial
    · exact Sat.bind (R := (fun _ => True)) (.ok trivial) fun _ _ => Sat.bind (ih hs) fun c _ => .ok trivial

theorem MemInv.Next.on {I : MemInv} {s : State} (h : I.Next (.next s)) : I.On s := by
  cases h
  assumption

theorem passIssued_keeps {I : MemInv} {s : State} {h : Hart} {i : Instr} {op : Nat} {f : Fmt} {r : Result}
    (hs : I.On s) (hr : I.Next r) : Maybe I.Next (passIssued s h i op f r) := by
  unfold passIssued
  split
  · have hu := hr.on
    dsimp only
    split
    · exact .none
    · split
      · exact .some (.next (State.setBank_keeps hu))
      · exact .some (.next (State.setBank_keeps hu))
  · exact .some (.next hs)

theorem passExecute_keeps {I : MemInv} {s : State} {h : Hart} {i : Instr} {op : Nat} {f : Fmt} (hs : I.On s) :
    Maybe I.Next (passExecute s h i op f) := by
  unfold passExecute
  dsimp only
  split
  · exact .some (.next hs)
  next a t hq =>
    have ht := Sat.of_error (entriesOf_keeps hs) hq
    exact .some (.next ht)
  next a t b hq =>
    have ht := Sat.of_error (entriesOf_keeps hs) hq
    exact .none

theorem passTurn_keeps {s : State} {i : Instr} {op : Nat} {f : Fmt} (hs : canonForm.On s) :
    Maybe canonForm.Next (passTurn s i op f) := by
  unfold passTurn
  dsimp only
  split
  · split
    · exact .none
    · exact passExecute_keeps hs
  · split
    · exact .none
    · exact passIssued_keeps hs (runPending_keeps hs (exec_keeps hs))

theorem pendLoad_keeps {I : MemInv} {s : State} {i : Instr} {op : Nat} {f : Fmt} (hs : I.On s) :
    Maybe I.On (pendLoad s i op f) := by
  unfold pendLoad
  dsimp only
  split
  · split
    · split
      · split
        · exact .none
        · split
          · exact .none
          · exact .some (State.sendReq_keeps hs)
      · exact .none
    · exact .none
  · exact .none

theorem followOne_keeps {s : State} {h : Hart} {i : Instr} {op : Nat} {f : Fmt} (hs : canonForm.On s) :
    canonForm.On (followOne s h i op f) := by
  unfold followOne
  dsimp only
  split <;> split <;> exact hs

theorem followTurn_keeps {s : State} (hs : canonForm.On s) : canonForm.On (followTurn s) := by
  unfold followTurn
  dsimp only
  split
  · exact hs
  · split
    · exact followOne_keeps hs
    · exact hs

theorem handOver_keeps {s : State} {i : Instr} {op : Nat} {f : Fmt} (hs : canonForm.On s) :
    canonForm.On (handOver s i op f) := by
  unfold handOver
  dsimp only
  split <;> exact hs

/-- What a hart does in its turn leaves memories with a property. -/
def MemInv.Issues (I : MemInv) : Issue → Prop
  | .whole r => I.Next r
  | .run _ s => I.On s

theorem hartIssue_keeps {I : MemInv} {s : State} (hs : I.On s) : I.Issues (hartIssue s) := by
  unfold hartIssue
  split
  · exact .next hs
  · split
    next t e =>
      have ht := (boundary_keeps hs).of_some e
      have h : I.Next (if s.me.pend.isEmpty then .next t else waitLoads s) := by
        split
        · exact .next ht
        · exact waitLoads_keeps hs
      exact h
    · split
      · exact .next hs
      · split
        next e => exact noteIssue_keeps ((fetchInstr_keeps hs).of_ok e)
        next t f e =>
          have ht : I.On t := (fetchInstr_keeps hs).of_error e
          have h : I.Next (if s.me.pend.isEmpty then settle (.error (.fault t f)) else waitLoads s) := by
            split
            · exact settle_keeps (.error ht)
            · exact waitLoads_keeps hs
          exact h
        next t e =>
          have ht : I.On t := (fetchInstr_keeps hs).of_error e
          exact settle_keeps (.error ht)

theorem hartIssue_run_keeps {I : MemInv} {s t : State} {i : Instr} (hs : I.On s) (h : hartIssue s = .run i t) :
    I.On t := by
  have hi := hartIssue_keeps hs
  rwa [h] at hi

theorem hartIssue_whole_keeps {I : MemInv} {s : State} {r : Result} (hs : I.On s) (h : hartIssue s = .whole r) :
    I.Next r := by
  have hi := hartIssue_keeps hs
  rwa [h] at hi

theorem joinedTurn_keeps {s : State} (hs : canonForm.On s) : canonForm.Next (joinedTurn s) := by
  unfold joinedTurn
  split
  next e => exact hartIssue_whole_keeps hs e
  next i t e =>
    have ht : canonForm.On t := hartIssue_run_keeps hs e
    extract_lets u
    have hu : canonForm.On u := MemInv.On.ite ht ht
    clear_value u
    split
    · exact runPending_keeps hu (exec_keeps hu)
    · exact exec_keeps hu

theorem hartTurn_keeps {s : State} (hs : canonForm.On s) : canonForm.Next (hartTurn s) := by
  unfold hartTurn
  split
  · exact joinedTurn_keeps hs
  · exact .next (followTurn_keeps hs)

theorem accessTurn_keeps {s : State} (hs : canonForm.On s) : canonForm.Next (accessTurn s) := by
  unfold accessTurn
  split
  · exact hartTurn_keeps hs
  next i t e =>
    have ht : canonForm.On t := hartIssue_run_keeps hs e
    split
    · exact .next hs
    · split
      next e => exact (passTurn_keeps ht).of_some e
      · exact hartTurn_keeps hs

theorem pendTurn_keeps {s : State} (hs : canonForm.On s) : canonForm.Next (pendTurn s) := by
  unfold pendTurn
  split
  · exact hartTurn_keeps hs
  next i t e =>
    have ht : canonForm.On t := hartIssue_run_keeps hs e
    split
    · exact .next hs
    · split
      next e => exact .next ((pendLoad_keeps ht).of_some e)
      · exact accessTurn_keeps hs

theorem executeTurn_keeps {s : State} (hs : canonForm.On s) : canonForm.Next (executeTurn s) := by
  unfold executeTurn
  split
  · exact .next (followTurn_keeps hs)
  · split
    · exact .next hs
    · split
      · exact .next (handOver_keeps hs)
      · exact .next hs

end Sys2Proof.Machine
end

section
/-! PROOFS. The memories under the functions of Machine/Time.lean. -/

namespace Sys2Proof.Machine

theorem countBusy_keeps {I : MemInv} {s : State} {n : Nat} (hs : I.On s) : I.On (countBusy s n) := by
  unfold countBusy
  exact MemInv.On.foldl hs (fun t a ht => MemInv.On.ite (MemInv.On.foldl ht (fun u b hu => MemInv.On.ite hu hu)) ht)

theorem advanceTime_keeps {I : MemInv} {s : State} (hs : I.On s) : I.On (advanceTime s) := by
  unfold advanceTime
  dsimp only
  refine countDogs_keeps (countBusy_keeps (MemInv.On.foldl (MemInv.On.foldl hs (fun t a ht => ht)) (fun t a ht => ?_)))
  split <;> exact ht

end Sys2Proof.Machine
end

section
/-! PROOFS. The memories under the functions of Machine/Turn.lean. -/

namespace Sys2Proof.Machine

theorem eventTurn_keeps {i : Instr} {s : State} (hs : canonForm.On s) : canonForm.Next (eventTurn i s) := by
  unfold eventTurn
  split
  · exact .next hs
  · exact exec_keeps hs

theorem ownTurn_keeps {s : State} (hs : canonForm.On s) : canonForm.Next (ownTurn s) := by
  unfold ownTurn
  split
  next a t b hq =>
    have ht := MemInv.On.fst (nextAgent_keeps hs) hq
    split
    · exact hartTurn_keeps ht
    · exact .next ht
  next a t b hq =>
    have ht := MemInv.On.fst (nextAgent_keeps hs) hq
    exact ownEvent_keeps ht

theorem aheadWalk_keeps {I : MemInv} {s : State} {va : W64} {t : State} (ht : I.On t) :
    I.On (aheadWalk s va t) := by
  unfold aheadWalk
  dsimp only
  exact ht

theorem loadAhead_keeps {I : MemInv} {s : State} {va : W64} {n : Nat} (hs : I.On s) : I.On (loadAhead s va n) := by
  unfold loadAhead
  dsimp only
  split
  · exact hs
  · split
    · split
      · split
        · split
          · exact hs
          · exact State.sendReq_keeps hs
        · split
          · exact hs
          · exact State.sendReq_keeps hs
      · exact hs
    · split
      · exact hs
      · split
        · exact hs
        · exact State.sendReq_keeps hs
    next a t hq1 =>
      have ht := Sat.of_error (resolve_keeps hs) hq1
      split
      · exact hs
      · exact aheadWalk_keeps ht
    next a t b hq1 =>
      have ht := Sat.of_error (resolve_keeps hs) hq1
      split
      · exact aheadWalk_keeps ht
      · exact hs
    · exact hs

theorem upset_keeps {I : MemInv} {s : State} {y0 : Upset} (hs : I.On s) : I.On (upset s y0) := by
  unfold upset
  split
  · exact hs
  · split <;> exact hs
  · exact hs

theorem turnOf_keeps {I : MemInv} {s : State} {id : Nat} {turn : State → Result} (hs : I.On s)
    (ht : ∀ t, I.On t → I.Next (turn t)) : I.Next (turnOf s id turn) := by
  unfold turnOf
  split
  · exact ht _ hs
  · exact .next hs

theorem takeTurn_keeps {s : State} (hs : canonForm.On s) : canonForm.Next (takeTurn s) := by
  unfold takeTurn
  dsimp only
  split
  · exact turnOf_keeps (advanceTime_keeps hs) (fun t ht => hartTurn_keeps ht)
  · exact eventTurn_keeps (advanceTime_keeps hs)
  · exact turnOf_keeps (advanceTime_keeps hs) (fun t ht => accessTurn_keeps ht)
  · exact turnOf_keeps (advanceTime_keeps hs) (fun t ht => executeTurn_keeps ht)
  · exact turnOf_keeps (advanceTime_keeps hs) (fun t ht => pendTurn_keeps ht)
  · exact .next (loadAhead_keeps (advanceTime_keeps hs))
  · exact .next (upset_keeps (advanceTime_keeps hs))
  · exact .next (renewBlock_keeps (advanceTime_keeps hs))
  · exact ownTurn_keeps (advanceTime_keeps hs)

end Sys2Proof.Machine
end

section
/-! PROOFS. The memories under the functions of Machine/Step.lean. -/

namespace Sys2Proof.Machine

theorem step_keeps {s : State} (hs : canonForm.On s) : canonForm.Next (step s) := by
  unfold step
  exact takeTurn_keeps hs

/-- Settles O50: a turn of the machine keeps both memories canonical, whatever it runs. -/
theorem memoryStaysCanonical : Obligations.MemoryStaysCanonical := by
  unfold Obligations.MemoryStaysCanonical
  intro s t hmem hspad h
  have hnext : canonForm.Next (.next t) := h ▸ step_keeps ⟨hmem, hspad⟩
  exact hnext.on

end Sys2Proof.Machine
end

section
/-! PROOFS. Right after reset: no table of the state lists anything, and a hart's bank differs from an empty one only in
the mode of a supervisor hart. -/

namespace Sys2Proof.Machine

theorem reset_bank (hid ctx : Nat) : State.reset.bank hid ctx = { status := BitVec.ofNat 4 (isSup hid).toNat } := by
  show Hart.atReset hid = _
  unfold Hart.atReset
  cases isSup hid <;> rfl

/-- Settles O49: the tables of the reset state are empty, so each register reads its default. -/
theorem resetState : Obligations.ResetState := by
  unfold Obligations.ResetState
  refine ⟨rfl, rfl, rfl, rfl, rfl, rfl, rfl, rfl, rfl, rfl, rfl, rfl, fun _ _ => rfl, fun _ => ⟨rfl, rfl, rfl, rfl, rfl⟩,
    fun hid ctx => ?_⟩
  have hstatus (b : Bool) : (BitVec.ofNat 4 b.toNat).getLsbD 0 = b ∧ (BitVec.ofNat 4 b.toNat).getLsbD 1 = false ∧
      (BitVec.ofNat 4 b.toNat).getLsbD 2 = false ∧ (BitVec.ofNat 4 b.toNat).getLsbD 3 = false := by
    cases b <;> decide
  obtain ⟨hmode, hie, hpie, hpmode⟩ := hstatus (isSup hid)
  rw [reset_bank]
  exact ⟨hmode, hie, hpie, hpmode, rfl, rfl, rfl, rfl, rfl, rfl, rfl, rfl, rfl, rfl, rfl, rfl,
    fun n => Vector.getElem_replicate n.isLt, rfl, rfl, rfl, rfl⟩

end Sys2Proof.Machine
end

section
/-! PROOFS. Scalar loads (R244 to R246): what an access of the hart's own scratchpad does while nothing of its core is on
its way, and how the loads and prefetches end. -/

namespace Sys2Proof.Machine

open Sys2Proof.Safety

section
variable {s : State} (h : Quiet s)
include h

theorem quiet_waited : s.me.waited = [] := h.2.2.2

theorem quiet_coreId_ne {r : Request} (hr : r ∈ s.inFlight ++ s.outbox) : r.agent.coreId ≠ some s.myCore := h.1 r hr

theorem quiet_agent_ne {r : Request} (hr : r ∈ s.inFlight ++ s.outbox) : r.agent ≠ .hart s.cur :=
  fun e => quiet_coreId_ne h hr (by rw [e]; rfl)

theorem quiet_answer_ne {q : Response} (hq : q ∈ s.respNet ++ s.inbox) : q.agent ≠ .hart s.cur := h.2.1 q hq

theorem quiet_orderBusy (p : Place) (n : Nat) : orderBusy s (.hart s.cur) p n = false := by
  refine List.any_eq_false.mpr fun r hr => ?_
  have hmem : r ∈ s.inFlight ++ s.outbox := List.mem_append_left _ hr
  have hcore : r.agent.coreId ≠ (Agent.hart s.cur).coreId := quiet_coreId_ne h hmem
  simp [Request.before, quiet_agent_ne h hmem, hcore]

theorem quiet_slotFlying (core off : Nat) : slotFlying s core off = false :=
  List.any_eq_false.mpr fun m hm => by simp [h.2.2.1 m hm]

theorem quiet_dropAhead (ctx : Nat) (p : Place) : s.dropAhead (.hart s.cur) ctx p = s := by
  have hreq : s.inFlight.any (fun r => r.ahead && r.agent == .hart s.cur) = false :=
    List.any_eq_false.mpr fun r hr => by simp [quiet_agent_ne h (List.mem_append_left _ hr)]
  have hresp : (s.respNet ++ s.inbox).any (fun q => q.ahead && q.agent == .hart s.cur) = false :=
    List.any_eq_false.mpr fun q hq => by simp [quiet_answer_ne h hq]
  simp [State.dropAhead, hreq, hresp]

theorem quiet_asked {r : Request} (hr : r.agent = .hart s.cur) : s.asked r = false := by
  have hreq : (s.inFlight ++ s.outbox).any r.asks = false :=
    List.any_eq_false.mpr fun q hq => by simp [Request.asks, hr, quiet_agent_ne h hq]
  have hresp : (s.respNet ++ s.inbox).any r.answeredBy = false :=
    List.any_eq_false.mpr fun q hq => by simp [Request.answeredBy, hr, quiet_answer_ne h hq]
  simp [State.asked, hreq, hresp]

theorem spadLoad_quiet (off n : Nat) (va : W64) :
    spadLoad s s.myCore off n va = .ok (s, spadRead s s.myCore s.myCtx off n) := by
  unfold spadLoad
  refine bind_ok.mpr ⟨(), waitFor_ok.mpr (by rw [quiet_slotFlying h]; rfl), ?_⟩
  rw [if_pos (by simp [quiet_asked h])]
  refine bind_ok.mpr ⟨(), waitFor_ok.mpr (by rw [quiet_orderBusy h]; rfl), ?_⟩
  rw [quiet_dropAhead h]

end

section
variable {f : Fmt} {s u : State} {t : Target} {v : Nat}

theorem exec_ld_eq (f : Fmt) (s : State) : exec (.ld f) s = execLd f s := rfl
theorem exec_ldp_eq (f : Fmt) (s : State) : exec (.ldp f) s = execLdp f s := rfl
theorem exec_pref_eq (f : Fmt) (s : State) : exec (.pref f) s = execPref f s := rfl
theorem exec_prefRow_eq (f : Fmt) (s : State) : exec (.prefRow f) s = execPrefRow f s := rfl

/-- A load whose access completes delivers what it read. -/
theorem ld_gives (ho : Open f s) (ha : aligned s (effAddr (xval s f.a) f.imm) (f.ty.width / 8) = .ok ())
    (hr : resolve s s.iAm .load (effAddr (xval s f.a) f.imm) = .ok t)
    (hl : scalarLoad s t (effAddr (xval s f.a) f.imm) (f.ty.width / 8) (eagerVar f) = .ok (u, v))
    (hd : dstReady u f.d = .ok ()) : Gives64 (.ld f) f s u (extend f.ty v) := by
  refine gives64_of_put ?_ hd
  rw [exec_ld_eq, execLd, scalarRun_on ho.1]
  congr 1
  simp only [ho.2, ha, hr, hl, bind, Except.bind]

theorem ld_spad {off : Nat} (ho : Open f s) (hq : Quiet s)
    (ha : aligned s (effAddr (xval s f.a) f.imm) (f.ty.width / 8) = .ok ())
    (hr : resolve s s.iAm .load (effAddr (xval s f.a) f.imm) = .ok (.spad s.myCore off))
    (hb : loadBlocked s.myUnit.jobs (va56 (effAddr (xval s f.a) f.imm)) (f.ty.width / 8) = false) :
    Gives64 (.ld f) f s s (extend f.ty (leNat (spadRead s s.myCore s.myCtx off (f.ty.width / 8)))) := by
  refine ld_gives ho ha hr ?_ ho.2
  have hi : interlock s .load (effAddr (xval s f.a) f.imm) (f.ty.width / 8) = .ok () := interlock_ok.mpr (by simpa using hb)
  simp only [scalarLoad, loadAt, hi, afterInterlock_none (quiet_waited hq), spadLoad_quiet hq, bind, Except.bind]

/-- An answered read of memory on the eager path. -/
theorem ld_eager {dpa : Nat} {e : TlbEntry} {p : Place} {q : Response} (ho : Open f s)
    (ha : aligned s (effAddr (xval s f.a) f.imm) (f.ty.width / 8) = .ok ())
    (hr : resolve s s.iAm .load (effAddr (xval s f.a) f.imm) = .ok (.mem dpa e))
    (hpath : eagerPath s (eagerVar f) e = true) (hp : placeOf s dpa = some p)
    (hf : fabricRefusal s p s.myCtx = none) (hw : s.me.waited = [])
    (hb : loadBlocked s.myUnit.jobs (va56 (effAddr (xval s f.a) f.imm)) (f.ty.width / 8) = false)
    (hq : s.inbox.find? (s.hartRead p (f.ty.width / 8) e (effAddr (xval s f.a) f.imm)).answeredBy = some q)
    (hok : q.status = .ok)
    (hd : dstReady (({ s with inbox := s.inbox.erase q } : State).dropAhead (.hart s.cur) s.myCtx p) f.d = .ok ()) :
    Gives64 (.ld f) f s (({ s with inbox := s.inbox.erase q } : State).dropAhead (.hart s.cur) s.myCtx p)
      (extend f.ty (leNat (leBytes (f.ty.width / 8) q.data.toNat))) := by
  refine ld_gives ho ha hr ?_ hd
  have hi : interlock s .load (effAddr (xval s f.a) f.imm) (f.ty.width / 8) = .ok () := interlock_ok.mpr (by simpa using hb)
  have htrip := trip_answered (s := s) (r := s.hartRead p (f.ty.width / 8) e (effAddr (xval s f.a) f.imm)) hf hq
  have hcheck {u : State} {va : W64} : peerCheck u q.status va = .ok () := peerCheck_ok.mpr (.inl hok)
  have hread : readTrip s dpa (f.ty.width / 8) e (effAddr (xval s f.a) f.imm) false =
      .ok (({ s with inbox := s.inbox.erase q } : State).dropAhead (.hart s.cur) s.myCtx p, q) := by
    unfold readTrip
    rw [hp]
    refine bind_ok.mpr ⟨_, htrip, bind_ok.mpr ⟨(), hcheck, rfl⟩⟩
  simp only [scalarLoad, loadAt, hi, afterInterlock_none hw, hpath, if_true, eagerRead, hread, bind, Except.bind]

theorem ldp_ends {d : Fin 32} (hg : guardOn f s = true) (hx : f.d = .x d)
    (ha : aligned s (effAddr (xval s f.a) f.imm) 16 = .ok ())
    (hr : resolve s s.iAm .load (effAddr (xval s f.a) f.imm) = .ok t)
    (hl : scalarLoad s t (effAddr (xval s f.a) f.imm) 16 (eagerVar f) = .ok (u, v)) :
    Ends (.ldp f) s (((used f u).modMe (fun h => h.wx d (BitVec.ofNat 64 v))).modMe
      (fun h => (h.wx (pairReg f.d) (BitVec.ofNat 64 (v / 2 ^ 64))).advance)) := by
  unfold Ends
  rw [exec_ldp_eq, execLdp, scalarRun_on hg, ← settle_ok]
  congr 1
  simp only [ha, hr, hl, hx, dst64, bind, Except.bind, used]

theorem pref_nowhere (hg : guardOn f s = true) (hp : prefTarget s (effAddr (xval s f.a) f.imm) = none) :
    Ends (.pref f) s (passed (used f s)) := by
  unfold Ends
  rw [exec_pref_eq, execPref, scalarRun_on hg, ← settle_ok, ← putNone_ok]
  simp only [hp]

theorem pref_loads {line : Nat} {e : TlbEntry} {d : V512} (hg : guardOn f s = true)
    (hp : prefTarget s (effAddr (xval s f.a) f.imm) = some (line, e))
    (hl : loadLine s line 0 e (effAddr (xval s f.a) f.imm) = .ok (u, d)) : Ends (.pref f) s (passed (used f u)) := by
  unfold Ends
  rw [exec_pref_eq, execPref, scalarRun_on hg, ← settle_ok, ← putNone_ok]
  simp only [hp, hl]

/-- A fault of a prefetch's access is dropped. -/
theorem pref_faults {line : Nat} {e : TlbEntry} {x : TrapInfo} (hg : guardOn f s = true)
    (hp : prefTarget s (effAddr (xval s f.a) f.imm) = some (line, e))
    (hl : loadLine s line 0 e (effAddr (xval s f.a) f.imm) = .error (.fault u x)) :
    Ends (.pref f) s (passed (used f s)) := by
  unfold Ends
  rw [exec_pref_eq, execPref, scalarRun_on hg, ← settle_ok, ← putNone_ok]
  simp only [hp, hl]

end

/-- Settles O9: each load from the access it makes, by the rule of its kind. -/
theorem loadResults : Obligations.LoadResults := by
  unfold Obligations.LoadResults
  intro f s ho
  refine ⟨fun off ha hr hq hb => ld_spad ho hq ha hr hb,
    fun dpa e p q ha hr hpath hp hf hw hb hq hok hd => ld_eager ho ha hr hpath hp hf hw hb hq hok hd,
    fun t u v ha hr hl hd => ld_gives ho ha hr hl hd,
    fun d t u v hx ha hr hl => ldp_ends ho.1 hx ha hr hl, fun hp => pref_nowhere ho.1 hp,
    fun line e hp => ⟨fun u d hl => pref_loads ho.1 hp hl, fun u x hl => pref_faults ho.1 hp hl⟩, ?_⟩
  unfold Ends
  rw [exec_prefRow_eq, execPrefRow, scalarRun_on ho.1, putNone_ok, settle_ok]

end Sys2Proof.Machine
end

section
/-! PROOFS. Accesses performed where their bytes are (R56, R73, R75, R363): what a store, a masked store and an atomic leave
at each byte of the memory they are performed in. -/

namespace Sys2Proof

@[simp] theorem leBytes_length (n v : Nat) : (leBytes n v).length = n := by
  induction n generalizing v with
  | zero => rfl
  | succ n ih => simp [leBytes, ih]

theorem leBytes_getElem (n v i : Nat) (hi : i < (leBytes n v).length) :
    (leBytes n v)[i] = BitVec.ofNat 8 (v / 256 ^ i) := by
  induction n generalizing v i with
  | zero => simp [leBytes] at hi
  | succ n ih =>
    cases i with
    | zero => simp [leBytes]
    | succ i => simp [leBytes, ih, Nat.div_div_eq_div_mul, Nat.pow_succ, Nat.mul_comm]

/-- A value stored whole: each of its bytes is at its place. -/
theorem Mem.read_writeL_leBytes {m : Mem} (h : Mem.wf m = true) (p n v i : Nat) (hi : i < n) :
    Mem.read (Mem.writeL m p (leBytes n v)) (p + i) = BitVec.ofNat 8 (v / 256 ^ i) := by
  rw [Mem.read_writeL_inside p _ h i (by simpa using hi), leBytes_getElem]

/-- Bytes written at chosen places: a byte that none of them names reads as before. -/
theorem Mem.read_foldl_write_other {m : Mem} (p j : Nat) (l : List (Nat × Byte)) (h : Mem.wf m = true)
    (hj : ∀ e ∈ l, p + e.1 ≠ j) : Mem.read (l.foldl (fun mm e => Mem.write mm (p + e.1) e.2) m) j = Mem.read m j := by
  induction l generalizing m with
  | nil => rfl
  | cons e l ih =>
    rw [List.foldl_cons, ih (Mem.write_wf _ _ h) fun x hx => hj x (List.mem_cons_of_mem _ hx),
      Mem.read_write _ _ _ (by simp_all [Mem.wf]), if_neg fun e' => hj e (List.mem_cons_self ..) e'.symm]

/-- Bytes written at chosen places, no place twice: each is there. -/
theorem Mem.read_foldl_write_mem {m : Mem} (p : Nat) (l : List (Nat × Byte)) (h : Mem.wf m = true)
    (hd : (l.map Prod.fst).Nodup) {e : Nat × Byte} (he : e ∈ l) :
    Mem.read (l.foldl (fun mm e => Mem.write mm (p + e.1) e.2) m) (p + e.1) = e.2 := by
  induction l generalizing m with
  | nil => cases he
  | cons x l ih =>
    obtain ⟨hx, hd⟩ := List.nodup_cons.mp hd
    rw [List.foldl_cons]
    rcases List.mem_cons.mp he with rfl | he
    · have hother : ∀ y ∈ l, p + y.1 ≠ p + e.1 := fun y hy hye =>
        hx (List.mem_map.mpr ⟨y, hy, by omega⟩)
      rw [Mem.read_foldl_write_other p _ l (Mem.write_wf _ _ h) hother, Mem.read_write _ _ _ (by simp_all [Mem.wf]),
        if_pos rfl]
    · exact ih (Mem.write_wf _ _ h) hd he

/-- The numbered bytes of a line. -/
def lineBytes (v : Nat) : List (Nat × Byte) := (List.range 64).zip (leBytes 64 v)

theorem mem_lineBytes {v i : Nat} {b : Byte} : (i, b) ∈ lineBytes v ↔ i < 64 ∧ b = BitVec.ofNat 8 (v / 256 ^ i) := by
  constructor
  · intro h
    obtain ⟨k, hk, e⟩ := List.getElem_of_mem h
    simp only [lineBytes, List.getElem_zip, List.getElem_range, Prod.mk.injEq] at e
    obtain ⟨rfl, rfl⟩ := e
    have hk : k < 64 := by simpa [lineBytes] using hk
    exact ⟨hk, leBytes_getElem _ _ _ _⟩
  · rintro ⟨hi, rfl⟩
    refine List.mem_iff_getElem.mpr ⟨i, by simpa [lineBytes] using hi, ?_⟩
    simp [lineBytes, leBytes_getElem]

theorem lineBytes_nodup (v : Nat) : ((lineBytes v).map Prod.fst).Nodup := by
  rw [lineBytes, List.map_fst_zip (by simp)]
  exact List.nodup_range

end Sys2Proof

namespace Sys2Proof.Machine

open Sys2Proof.Safety

section
variable {s : State} {ctx p i j : Nat} {d : V512} {m : W64}

/-- A byte under the mask is the line's. -/
theorem writeMasked_read_on (h : Mem.wf s.mem = true) (hi : i < 64) (hm : m.getLsbD i = true) :
    Mem.read (writeMasked s ctx p d m).mem (p + i) = BitVec.ofNat 8 (d.toNat / 256 ^ i) := by
  have hmem : (i, BitVec.ofNat 8 (d.toNat / 256 ^ i)) ∈ (lineBytes d.toNat).filter (fun e => m.getLsbD e.1) :=
    List.mem_filter.mpr ⟨mem_lineBytes.mpr ⟨hi, rfl⟩, hm⟩
  have hd : (((lineBytes d.toNat).filter (fun e => m.getLsbD e.1)).map Prod.fst).Nodup :=
    (lineBytes_nodup d.toNat).sublist (List.filter_sublist.map _)
  exact Mem.read_foldl_write_mem p _ h hd hmem

/-- Any other byte reads as before. -/
theorem writeMasked_read_off (h : Mem.wf s.mem = true) (hj : ∀ i, i < 64 → m.getLsbD i = true → j ≠ p + i) :
    Mem.read (writeMasked s ctx p d m).mem j = Mem.read s.mem j := by
  refine Mem.read_foldl_write_other p j _ h fun e he => ?_
  obtain ⟨hl, hm⟩ := List.mem_filter.mp he
  exact (hj e.1 (mem_lineBytes.mp hl).1 hm).symm

end

/-- The memories of a state, as they are. -/
def MemInv.same (s : State) : MemInv := ⟨(· = s.mem), (· = s.spad)⟩

theorem MemInv.same_on (s : State) : (MemInv.same s).On s := ⟨rfl, rfl⟩

section
variable {s : State} {bank n p core off : Nat} {r : Request}

/-- A write that a column command performs finds the memories and their checks as they are. -/
theorem performAt_write (hk : r.kind = .write) (s : State) (p : Nat) : ∃ u : State, performAt s p r = performWrite u p r ∧
    u.mem = s.mem ∧ u.spad = s.spad ∧ u.badLines = s.badLines ∧ u.macs = s.macs := by
  cases hl : r.leaf with
  | none => exact ⟨s, by simp only [performAt, hl, hk], rfl, rfl, rfl, rfl⟩
  | some e =>
    refine ⟨s.countHot e p r.size, by simp only [performAt, hl, hk], ?_⟩
    unfold State.countHot
    split
    · dsimp only
      split <;> exact ⟨rfl, rfl, rfl, rfl⟩
    · exact ⟨rfl, rfl, rfl, rfl⟩

theorem pullBank_openRow_mem (s : State) (p port bank : Nat) (last : Bool) :
    (pullBank (openRow s p last) port bank).mem = s.mem ∧ (pullBank (openRow s p last) port bank).spad = s.spad :=
  pullBank_keeps (I := .same s) (openRow_keeps (MemInv.same_on s))

/-- A column command leaves the memories as performing its request does. -/
theorem columnCommand_performs (hr : (Tab.get [] s.bankQ bank)[n]? = some r) (hp : r.place = .mem p)
    (hm : mayPerform s (Tab.get [] s.bankQ bank) n = true) : ∃ q t, exec (.columnCommand bank n) s = .next t ∧
      t.mem = (performAt { s with bankQ := q } p r).mem ∧ t.spad = (performAt { s with bankQ := q } p r).spad := by
  change ∃ q t, execColumnCommand bank n s = .next t ∧ _
  simp only [execColumnCommand, hr, hp, hm, if_true]
  refine ⟨Tab.put s.bankQ bank (((Tab.get [] s.bankQ bank).take n).map (fun e => { e with passed := e.passed + 1 }) ++
    (Tab.get [] s.bankQ bank).drop (n + 1)), ?_⟩
  exact ⟨_, rfl, pullBank_openRow_mem _ _ _ _ _⟩

theorem performWrite_spad (hr : r.enc = false) : (performWrite s p r).spad = s.spad := by
  unfold performWrite
  rw [if_neg (by simp [hr])]
  split
  · split <;> rfl
  · split <;> rfl

theorem performWrite_whole (hr : r.enc = false) (hm : r.mask = 0) (hw : writeRefused s p r.size = false) :
    (performWrite s p r).mem = Mem.writeL s.mem p (leBytes r.size r.data.toNat) := by
  unfold performWrite
  rw [if_neg (by simp [hr]), if_pos hm, if_neg (by simp [hw])]
  rfl

theorem performWrite_masked (hr : r.enc = false) (hm : r.mask ≠ 0) (hb : badAt s p 64 = false) :
    (performWrite s p r).mem = (writeMasked s r.ctx p r.data r.mask).mem := by
  unfold performWrite
  rw [if_neg (by simp [hr]), if_neg hm, if_neg (by simp [hb])]
  rfl

/-- What a column command's write leaves in device memory (R73, R86). -/
theorem columnCommand_write (hwf : Mem.wf s.mem = true) (hr : (Tab.get [] s.bankQ bank)[n]? = some r)
    (hp : r.place = .mem p) (hm : mayPerform s (Tab.get [] s.bankQ bank) n = true) (hk : r.kind = .write)
    (he : r.enc = false) : ∃ t, exec (.columnCommand bank n) s = .next t ∧ t.spad = s.spad ∧
      (r.mask = 0 → writeRefused s p r.size = false →
        (∀ i, i < r.size → Mem.read t.mem (p + i) = BitVec.ofNat 8 (r.data.toNat / 256 ^ i)) ∧
        (∀ k, (k < p ∨ p + r.size ≤ k) → Mem.read t.mem k = Mem.read s.mem k)) ∧
      (r.mask ≠ 0 → badAt s p 64 = false →
        (∀ i, i < 64 → Mem.read t.mem (p + i) =
          if r.mask.getLsbD i then BitVec.ofNat 8 (r.data.toNat / 256 ^ i) else Mem.read s.mem (p + i)) ∧
        (∀ k, (k < p ∨ p + 64 ≤ k) → Mem.read t.mem k = Mem.read s.mem k)) := by
  obtain ⟨q, t, ht, hmem, hspad⟩ := columnCommand_performs hr hp hm
  obtain ⟨u, hu, humem, huspad, hubad, humacs⟩ := performAt_write hk { s with bankQ := q } p
  rw [hu] at hmem hspad
  have hbad {k : Nat} : badAt u p k = badAt s p k := by simp only [badAt, lineBad, encTagged, hubad, humacs]
  have hwu : Mem.wf u.mem = true := by rw [humem]; exact hwf
  refine ⟨t, ht, hspad.trans ((performWrite_spad he).trans huspad), fun h0 hw => ?_, fun h0 hb => ?_⟩
  · rw [hmem, performWrite_whole he h0 (by rw [writeRefused, hbad]; exact hw), humem]
    exact ⟨fun i hi => Mem.read_writeL_leBytes hwf p _ _ i hi,
      fun k hk => Mem.read_writeL_outside p _ hwf k (by simpa using hk)⟩
  · rw [hmem, performWrite_masked he h0 (by rw [hbad]; exact hb)]
    refine ⟨fun i hi => ?_, fun k hk => ?_⟩
    · split
      next hon => exact writeMasked_read_on hwu hi hon
      next hoff =>
        have hother : ∀ j, j < 64 → r.mask.getLsbD j = true → p + i ≠ p + j := fun j _ hj e =>
          hoff (by rw [show i = j by omega]; exact hj)
        rw [writeMasked_read_off hwu hother, humem]
    · rw [writeMasked_read_off hwu fun j hj _ => by omega, humem]

/-- A request performed at a scratchpad's bank. -/
theorem scratch_performs (hr : s.reqNet[n]? = some r) (hp : r.place = .spad core off) (hl : leavesNow s n r = true)
    (hc : r.ctx ≠ sysCtx) (hready : regionReady s core off = true) :
    exec (.scratch n) s = .next (performSpad { s with reqNet := s.reqNet.eraseIdx n } core r.ctx off r) := by
  change execScratch n s = _
  simp only [execScratch, hr, hp, hl, hready, if_neg hc, Bool.or_true, Bool.and_self, if_true]

theorem performSpad_write (hk : r.kind = .write) (hm : r.mask = 0) (ctx : Nat) : performSpad s core ctx off r =
    respond (spadWrite s core ctx off (leBytes r.size r.data.toNat)) r 0 .ok := by
  simp only [performSpad, hk, spadMasked, if_pos hm, bytesOf]

/-- A store to a scratchpad leaves with its bytes (R56, R125). -/
theorem st_spad {f : Fmt} {b : W64} (hg : guardOn f s = true) (hb : src64 s f.b 0 = .ok b)
    (ha : aligned s (effAddr (xval s f.a) f.imm) (f.ty.width / 8) = .ok ())
    (hr : resolve s s.iAm .store (effAddr (xval s f.a) f.imm) = .ok (.spad core off)) (hw : s.me.waited = [])
    (hj : storeBlocked s.myUnit.jobs (va56 (effAddr (xval s f.a) f.imm)) (f.ty.width / 8) = false)
    (hf : slotFlying s core off = false) :
    Ends (.st f) s (passed (used f (s.post (.spad core off) (f.ty.width / 8) 0
      (v512 (leBytes (f.ty.width / 8) (lowBits f.ty b))) (effAddr (xval s f.a) f.imm)))) := by
  have hi : interlock s .store (effAddr (xval s f.a) f.imm) (leBytes (f.ty.width / 8) (lowBits f.ty b)).length = .ok () :=
    interlock_ok.mpr (by simpa using hj)
  have hstore : storeAt s (.spad core off) (effAddr (xval s f.a) f.imm) (leBytes (f.ty.width / 8) (lowBits f.ty b))
      (eagerVar f) = .ok (s.post (.spad core off) (f.ty.width / 8) 0
        (v512 (leBytes (f.ty.width / 8) (lowBits f.ty b))) (effAddr (xval s f.a) f.imm)) := by
    unfold storeAt
    refine bind_ok.mpr ⟨(), hi, bind_ok.mpr ⟨(), waitFor_ok.mpr (by simp [hf]), ?_⟩⟩
    rw [afterInterlock_none hw, leBytes_length]
  unfold Ends
  change execSt f s = _
  rw [execSt, scalarRun_on hg, ← settle_ok, ← putNone_ok]
  congr 1
  exact bind_ok.mpr ⟨b, hb, bind_ok.mpr ⟨(), ha, bind_ok.mpr ⟨_, hr, bind_ok.mpr ⟨_, hstore, putNone_ok _ _⟩⟩⟩⟩ |>.trans
    (putNone_ok _ _).symm

/-- An atomic of a quiet hart on its core's own scratchpad is performed at its step (R363, log entry 19). -/
theorem rmwAt_own {va : W64} {op : RmwOp} {ty : Ty} {b : Nat} (hq : Quiet s)
    (hj : storeBlocked s.myUnit.jobs (va56 va) (ty.width / 8) = false) :
    rmwAt s (.spad s.myCore off) va op ty b =
      .ok ((rmwNew op ty (leNat (spadRead s s.myCore s.myCtx off (ty.width / 8))) b).elim s
        (fun v => spadWrite s s.myCore s.myCtx off (leBytes (ty.width / 8) v)),
      leNat (spadRead s s.myCore s.myCtx off (ty.width / 8))) := by
  unfold rmwAt
  refine bind_ok.mpr ⟨(), interlock_ok.mpr (by simpa using hj), ?_⟩
  rw [afterInterlock_none (quiet_waited hq)]
  dsimp only
  rw [if_pos rfl]
  unfold rmwOwn
  refine bind_ok.mpr ⟨(), waitFor_ok.mpr (by rw [quiet_orderBusy hq, quiet_slotFlying hq]; rfl), ?_⟩
  dsimp only
  rw [quiet_dropAhead hq]
  cases rmwNew op ty (leNat (spadRead s s.myCore s.myCtx off (ty.width / 8))) b <;> rfl

end

/-- Settles O13: the store by its posting, the requests by what performing them writes, the atomic by its one step. -/
theorem scratchpadAccessesAct : Obligations.ScratchpadAccessesAct := by
  unfold Obligations.ScratchpadAccessesAct
  refine ⟨fun f s b core off hg hb ha hr hw hj hf => st_spad hg hb ha hr hw hj hf, ?_,
    fun s bank n p r hwf hr hp hm hk he => columnCommand_write hwf hr hp hm hk he, ?_⟩
  · intro s n core off r hwf hr hp hl hk hm hc hready
    have hx := scratch_performs hr hp hl hc hready
    rw [performSpad_write hk hm] at hx
    refine ⟨_, hx, rfl, rfl, fun i hi => Mem.read_writeL_leBytes hwf _ _ _ i hi, fun k hk =>
      Mem.read_writeL_outside _ _ hwf k ?_⟩
    simpa using hk
  · intro s va op ty b off hq hj
    refine ⟨fun v hv => ?_, fun e he hne => ?_⟩
    · rw [rmwAt_own hq hj, hv]; rfl
    · rw [rmwAt_own hq hj, he, rmwNew, if_neg hne]; rfl

end Sys2Proof.Machine

end

section
/-! PROOFS. Trap queues (R463 to R468): what a trap unit's reads and writes leave, and which packets are admitted. -/

namespace Sys2Proof.Machine

/-- A hardware agent's work that completes is the event. -/
theorem agentEvent_ok {s t : State} {r : Act State} (h : r = .ok t) : agentEvent s r = .next t := by
  subst h
  rfl

/-- A packet that stands first of its member's FATAL ones takes no general entry; without FATAL packets every one does. -/
theorem generalUsed_plain {q : List (Nat × Bool)} (h : q.all (fun e => !e.2) = true) (held : List Nat) :
    generalUsed q held = q.length := by
  induction q with
  | nil => rfl
  | cons e q ih =>
    obtain ⟨m, fatal⟩ := e
    simp only [List.all_cons, Bool.and_eq_true, Bool.not_eq_true'] at h
    obtain ⟨rfl, hq⟩ := h
    simp [generalUsed, ih hq]

theorem admits_first_fatal {q : List (Nat × Bool)} {m : Nat} (older : Nat)
    (h : q.any (fun e => e.1 == m && e.2) = false) : admits q older m true = true := by simp [admits, h]

theorem admits_plain {q : List (Nat × Bool)} (older m : Nat) (h : q.all (fun e => !e.2) = true) :
    admits q older m false = decide (older + q.length < 240) := by simp [admits, generalUsed_plain h]

section
variable {s t u : State} {cluster n a e : Nat} {p b : Packet} {k : Nat × TrapUnit} {q r : Response}

theorem trapReads_first (hu : s.trapUnits.find? (fun e => e.1 == cluster) = none)
    (ht : trapTrip s cluster .read a 64 0 = .ok (t, q)) (hq : q.status = .ok) : trapReads s cluster a =
      .ok (t.setTrap cluster { prod := (dwordOf q.data 0).toNat, cons := (dwordOf q.data 1).toNat }) := by
  unfold trapReads
  rw [hu]
  exact bind_ok.mpr ⟨_, ht, by simp [hq]⟩

theorem trapReads_cons (hu : s.trapUnits.find? (fun e => e.1 == cluster) = some k)
    (ht : trapTrip s cluster .read (a + 8) 8 0 = .ok (t, q)) (hq : q.status = .ok) :
    trapReads s cluster a = .ok (t.setTrap cluster (k.2.consAt (q.data.toNat % 2 ^ 64))) := by
  unfold trapReads
  rw [hu]
  exact bind_ok.mpr ⟨_, ht, by simp [hq]⟩

/-- The entry is written, and then PROD (R468). -/
theorem trapWrites_entry {v : TrapUnit} (he : trapEntryAt s cluster v.prod = some e)
    (ht : trapTrip s cluster .write e 64 (v512 p.bytes) = .ok (t, q))
    (hu : trapTrip t cluster .write a 8 (BitVec.ofNat 512 ((v.prod + 1) % 2 ^ 64)) = .ok (u, r)) (hr : r.status = .ok) :
    trapWrites s cluster a v p =
      .ok { u.setTrap cluster { v with prod := (v.prod + 1) % 2 ^ 64, live := v.live ++ [p], busy := none } with
        heldPackets := u.heldPackets.erase p } := by
  unfold trapWrites
  rw [he]
  exact bind_ok.mpr ⟨_, ht, bind_ok.mpr ⟨_, hu, by simp [hr]⟩⟩

section
variable (hp : s.heldPackets[n]? = some p) (hc : p.cluster ≠ 64) (ha : trapQueueAt s p.cluster = some a)
include hp hc ha

theorem trapPacketAdmit_unknown (hu : s.trapUnits.find? (fun e => e.1 == p.cluster) = none) :
    exec (.trapPacketAdmit n) s = agentEvent s (trapReads s p.cluster a) := by
  change execTrapPacketAdmit n s = _
  simp only [execTrapPacketAdmit, steadingQueue, hp, ha, hu, if_neg hc]

section
variable (hu : s.trapUnits.find? (fun e => e.1 == p.cluster) = some k)
include hu

theorem trapPacketAdmit_free (hb : k.2.busy = none) : exec (.trapPacketAdmit n) s =
    if !oldestOfSource s n p then .next s
    else if k.2.fits p then .next (s.setTrap p.cluster { k.2 with busy := some p })
    else agentEvent s (trapReads s p.cluster a) := by
  change execTrapPacketAdmit n s = _
  simp only [execTrapPacketAdmit, steadingQueue, hp, ha, hu, hb, if_neg hc]

theorem trapPacketAdmit_busy (hb : k.2.busy = some b) : exec (.trapPacketAdmit n) s =
    if b == p then agentEvent s (trapWrites s p.cluster a k.2 p) else .next s := by
  change execTrapPacketAdmit n s = _
  simp only [execTrapPacketAdmit, steadingQueue, hp, ha, hu, hb, if_neg hc]

end

end

theorem trapPacketAdmit_steading (hp : s.heldPackets[n]? = some p) (hc : p.cluster = 64) :
    exec (.trapPacketAdmit n) s = .next (steadingTake s n p) := by
  change execTrapPacketAdmit n s = _
  simp only [execTrapPacketAdmit, steadingQueue, hp, if_pos hc]

theorem trapConsPoll_cluster (hc : cluster ≠ 64) (ha : trapQueueAt s cluster = some a) :
    exec (.trapConsPoll cluster) s =
      if s.heldPackets.any (fun p => p.cluster == cluster) then agentEvent s (trapReads s cluster a) else .next s := by
  change execTrapConsPoll cluster s = _
  simp only [execTrapConsPoll, steadingQueue, ha, if_neg hc]

theorem trapConsPoll_idle (hc : cluster ≠ 64) (hw : s.heldPackets.any (fun p => p.cluster == cluster) = false) :
    exec (.trapConsPoll cluster) s = .next s := by
  cases ha : trapQueueAt s cluster with
  | none =>
    change execTrapConsPoll cluster s = _
    simp only [execTrapConsPoll, steadingQueue, ha, if_neg hc]
  | some a => rw [trapConsPoll_cluster hc ha, hw]; rfl

end

/-- Settles O45: by what the unit knows of its queue and whether it is writing a packet. -/
theorem trapQueueResults : Obligations.TrapQueueResults := by
  unfold Obligations.TrapQueueResults
  intro s n cluster
  refine ⟨fun p hp => ⟨fun a hc ha => ⟨?_, fun e hu => ⟨?_, ?_, ?_, ?_, ?_⟩⟩, fun hc => ⟨?_, ?_⟩⟩,
    fun q older m => ⟨admits_first_fatal older, admits_plain older m⟩, fun hc => ⟨?_, trapConsPoll_idle hc⟩, ?_⟩
  · intro t q hu ht hq
    rw [trapPacketAdmit_unknown hp hc ha hu]
    exact agentEvent_ok (trapReads_first hu ht hq)
  · intro hb ho hf
    rw [trapPacketAdmit_free hp hc ha hu hb, ho, hf]
    rfl
  · intro hb ho
    rw [trapPacketAdmit_free hp hc ha hu hb, ho]
    rfl
  · intro t q hb ho hf ht hq
    rw [trapPacketAdmit_free hp hc ha hu hb, ho, hf]
    exact agentEvent_ok (trapReads_cons hu ht hq)
  · intro b hb hne
    rw [trapPacketAdmit_busy hp hc ha hu hb, if_neg (by simpa using hne)]
  · intro at_ t u q r hb he next ht hw hr
    rw [trapPacketAdmit_busy hp hc ha hu hb, if_pos (by simp)]
    exact agentEvent_ok (trapWrites_entry he ht hw hr)
  · intro hok ho
    rw [trapPacketAdmit_steading hp hc, steadingTake, hok, ho]
    rfl
  · intro hno
    rw [trapPacketAdmit_steading hp hc, steadingTake, if_neg (by rcases hno with h | h <;> simp [h])]
  · intro a e t q ha hw hu ht hq
    rw [trapConsPoll_cluster hc ha, hw]
    exact agentEvent_ok (trapReads_cons hu ht hq)
  · intro p rest hq
    change Host.Outcome.next (steadingConsume s) = _
    simp [steadingConsume, hq]

end Sys2Proof.Machine

end

section
/-! PROOFS. Promotions (R89 to R95): the tracker's epochs and selections, the free ring's entries, the steps of a
promotion, and the return of frames. -/

namespace Sys2Proof.Machine

section
variable {s t u w : State} {io n id i : Nat} {page : HotPage} {p : Promotion} {pool : Pool} {q : Response} {r : Returned}

/-- What the table's entry must be for its page to be selected. -/
def selects (s : State) (page : HotPage) : Bool :=
  s.trkctl.en && s.trkctl.thresh != 0 && (page.due || decide (s.trkctl.thresh ≤ page.count)) &&
    (s.slot page.ctx).pool != 0 && !promoting s page

theorem trackerEpochEnd_early (h : s.clock < Tab.get 0 s.epochAt io + 2 ^ (16 + s.trkctl.epoch)) :
    exec (.trackerEpochEnd io) s = .next s := if_pos h

theorem trackerEpochEnd_halves (h : Tab.get 0 s.epochAt io + 2 ^ (16 + s.trkctl.epoch) ≤ s.clock) :
    exec (.trackerEpochEnd io) s = .next { s with
      trackers := s.trackers.map (fun e =>
        if e.1 / 16384 == io && !e.2.due then (e.1, { e.2 with count := e.2.count / 2 }) else e)
      epochAt := Tab.put s.epochAt io s.clock } := if_neg (Nat.not_lt.mpr h)

theorem hotPageSelect_entry (h : s.trackers.find? (fun e => e.1 == io * 16384 + n) = some (id, page)) :
    exec (.hotPageSelect io n) s =
      if selects s page then
        if s.promoQ.length < 32 then
          .next { s with trackers := Tab.drop s.trackers id, promoQ := s.promoQ ++ [page] }
        else .next (State.log { s with trackers := Tab.drop s.trackers id } (.promoBusy page.ctx))
      else .next s := by
  change execHotPageSelect io n s = _
  rw [execHotPageSelect, h]
  rfl

theorem promotionStart_none (h : ∀ p ∈ s.promos, p.stage ≠ .pop) : s.promos.find? (fun p => p.stage == .pop) = none := by
  simpa using h

theorem promotionStart_idle (h : s.promos.find? (fun p => p.stage == .pop) = none) (hq : s.promoQ = []) :
    exec .promotionStart s = .next s := by
  change execPromotionStart s = _
  simp only [execPromotionStart, h, hq]

theorem promotionStart_queued {rest : List HotPage} (h : s.promos.find? (fun p => p.stage == .pop) = none)
    (hq : s.promoQ = page :: rest) : exec .promotionStart s =
      if s.promos.length < 8 then .next { s with promoQ := rest, promos := s.promos ++ [{ page := page }] } else .next s := by
  change execPromotionStart s = _
  simp only [execPromotionStart, h, hq]

theorem promotionStart_pops (h : s.promos.find? (fun p => p.stage == .pop) = some p) (hp : popFree s p = .ok t) :
    exec .promotionStart s = .next t := by
  change execPromotionStart s = _
  rw [execPromotionStart, h]
  exact agentEvent_ok hp

theorem popFree_no_pool (h : poolOf s p.page.ctx (some p.page.vpn) = .ok (t, none)) :
    popFree s p = .ok (dropSelection t p) := bind_ok.mpr ⟨_, h, rfl⟩

section
variable (h : poolOf s p.page.ctx (some p.page.vpn) = .ok (t, some pool))
include h

theorem popFree_no_frame (hp : pool.freeEmpty = true ∨ pool.retFull = true) :
    popFree s p = .ok (dropSelection t p) := by
  refine bind_ok.mpr ⟨_, h, ?_⟩
  dsimp only
  rw [if_pos (by simpa using hp)]

variable (he : pool.freeEmpty = false) (hf : pool.retFull = false)
include he hf

theorem popFree_waits (hw : t.returnsDue.any (fun r => r.ctx == p.page.ctx) = true) : popFree s p = .ok t := by
  refine bind_ok.mpr ⟨_, h, ?_⟩
  dsimp only
  rw [if_neg (by simp [he, hf]), if_pos hw]

/-- An entry of the free ring becomes the promotion's frame, or goes to the return ring (R92). -/
theorem popFree_entry {e : Nat} (hw : t.returnsDue.any (fun r => r.ctx == p.page.ctx) = false)
    (hr : promoRead t p.page.ctx (some p.page.vpn) (pool.word 0 + 8 * (pool.word 3 % pool.freeSize)) 8 = .ok (u, some e))
    (hn : promoWrite u p.page.ctx (some p.page.vpn) (pool.field 3) (pool.next 3) = .ok w) : popFree s p =
      if entryBad w e then .ok { w with returnsDue := w.returnsDue ++ [{ ctx := p.page.ctx, frame := e, kind := 2 }] }
      else .ok (w.setPromo p (fun q => { q with frame := slice e 55 16 * 2 ^ 16, place := e % 4, stage := .copy 0 })) := by
  unfold popFree
  dsimp only
  rw [h]
  change (if pool.freeEmpty || pool.retFull then _ else _) = _
  rw [if_neg (by simp [he, hf]), if_neg (by simp [hw]), hr]
  change (promoWrite u p.page.ctx (some p.page.vpn) (pool.field 3) (pool.next 3) >>= fun s => _) = _
  rw [hn]
  rfl

end

theorem step_copy (hs : p.stage = .copy i) (h : trip s (p.reads i) = .ok (t, q)) : p.step s =
    .ok (t.setPromo p (fun r => { r with stage := if q.status = .ok then .put i q.data else .failed })) := by
  unfold Promotion.step
  rw [hs]
  exact bind_ok.mpr ⟨_, h, by simp⟩

theorem step_put {d : V512} (hs : p.stage = .put i d) (h : trip s (p.writes s i d) = .ok (t, q)) : p.step s =
    .ok (t.setPromo p (fun r => { r with stage := if i < 1023 then .copy (i + 1) else .swap })) := by
  unfold Promotion.step
  rw [hs]
  exact bind_ok.mpr ⟨_, h, rfl⟩

section
variable (hs : p.stage = .swap) (h : trip s p.swaps = .ok (t, q))
include hs h

theorem step_swap_done (hq : q.status = .ok) (hv : q.data.toNat % 2 ^ 64 = p.page.pte.toNat) :
    p.step s = .ok (p.finish t) := by
  unfold Promotion.step
  rw [hs]
  exact bind_ok.mpr ⟨_, h, if_pos (by rw [hq, hv]; simp)⟩

theorem step_swap_fails (hq : q.status ≠ .ok ∨ q.data.toNat % 2 ^ 64 ≠ p.page.pte.toNat) :
    p.step s = .ok (t.setPromo p (fun r => { r with stage := .failed })) := by
  unfold Promotion.step
  rw [hs]
  exact bind_ok.mpr ⟨_, h, if_neg (by simpa only [Bool.and_eq_true, beq_iff_eq, not_and_or] using hq)⟩

end

theorem promotionComplete_steps (hp : s.promos[n]? = some p) (h : p.step s = .ok t) :
    exec (.promotionComplete n) s = .next t := by
  change execPromotionComplete n s = _
  rw [execPromotionComplete, hp]
  exact agentEvent_ok h

theorem promotionComplete_returns (hn : s.promos.length ≤ n) (hr : s.returnsDue[n - s.promos.length]? = some r)
    (ho : (s.returnsDue.take (n - s.promos.length)).any (fun q => q.ctx == r.ctx) = false) (h : pushReturn s r = .ok t) :
    exec (.promotionComplete n) s = .next t := by
  change execPromotionComplete n s = _
  rw [execPromotionComplete, List.getElem?_eq_none hn, hr]
  change (if (s.returnsDue.take (n - s.promos.length)).any (fun q => q.ctx == r.ctx) then _ else _) = _
  rw [if_neg (by simp [ho])]
  exact agentEvent_ok h

theorem pushReturn_full (h : poolOf s r.ctx none = .ok (t, some pool)) (hf : pool.retFull = true) :
    pushReturn s r = .ok t := bind_ok.mpr ⟨_, h, if_pos hf⟩

/-- The entry is written before the index (R92). -/
theorem pushReturn_entry (h : poolOf s r.ctx none = .ok (t, some pool)) (hf : pool.retFull = false)
    (hw : promoWrite t r.ctx none (pool.word 4 + 8 * (pool.word 6 % pool.retSize))
      (r.frame / 2 ^ 16 * 2 ^ 16 % 2 ^ 56 + r.kind) = .ok u)
    (hn : promoWrite u r.ctx none (pool.field 6) (pool.next 6) = .ok w) :
    pushReturn s r = .ok { w with returnsDue := w.returnsDue.erase r } := by
  refine bind_ok.mpr ⟨_, h, ?_⟩
  dsimp only
  rw [if_neg (by simp [hf])]
  exact bind_ok.mpr ⟨_, hw, bind_ok.mpr ⟨_, hn, rfl⟩⟩

theorem promotionAbandon_eq (hp : s.promos[n]? = some p) : exec (.promotionAbandon n) s =
    if p.stage == .failed then .next { releaseHeld (s.endPromo p) with
      returnsDue := (releaseHeld (s.endPromo p)).returnsDue ++ [{ ctx := p.page.ctx, frame := p.frame, kind := 1 }] }
    else .next s := by
  change execPromotionAbandon n s = _
  rw [execPromotionAbandon, hp]

end

/-- Settles O43: by the tracker's table, the free ring, the promotion's stage and the return ring. -/
theorem promotionEventResults : Obligations.PromotionEventResults := by
  unfold Obligations.PromotionEventResults
  intro s io n
  refine ⟨trackerEpochEnd_early, trackerEpochEnd_halves, fun h => ?_, fun id p hp => ⟨?_, ?_, ?_⟩,
    fun hpop => ⟨promotionStart_idle (promotionStart_none hpop), fun p rest hq => ⟨?_, ?_⟩⟩,
    fun p hp => ⟨fun t h => promotionStart_pops hp (popFree_no_pool h), fun t d h => ⟨?_, fun he hf => ⟨?_, ?_⟩⟩⟩,
    fun p hp => ⟨?_, ?_, fun t q hs h => ⟨?_, ?_⟩, ?_, ?_⟩, fun r hn hr ho t d h => ⟨?_, ?_⟩⟩
  · change execHotPageSelect io n s = _
    rw [execHotPageSelect, h]
  · intro hsel
    rw [hotPageSelect_entry hp]
    exact if_neg (by rw [Bool.not_eq_true]; exact hsel)
  · intro hsel hlen
    rw [hotPageSelect_entry hp]
    exact (if_pos hsel).trans (if_pos hlen)
  · intro hsel hlen
    rw [hotPageSelect_entry hp]
    exact (if_pos hsel).trans (if_neg (Nat.not_lt.mpr hlen))
  · intro hlen
    rw [promotionStart_queued (promotionStart_none hpop) hq, if_neg (Nat.not_lt.mpr hlen)]
  · intro hlen
    rw [promotionStart_queued (promotionStart_none hpop) hq, if_pos hlen]
  · exact fun hd => promotionStart_pops hp (popFree_no_frame h hd)
  · exact fun hw => promotionStart_pops hp (popFree_waits h he hf hw)
  · intro u e w hw hr hn
    have hpop := popFree_entry h he hf hw hr hn
    exact ⟨fun hb => promotionStart_pops hp (hpop.trans (if_pos hb)),
      fun hb => promotionStart_pops hp (hpop.trans (if_neg (by simp [hb])))⟩
  · exact fun i t q hs h => promotionComplete_steps hp (step_copy hs h)
  · exact fun i d t q hs h => promotionComplete_steps hp (step_put hs h)
  · exact fun hq hv => promotionComplete_steps hp (step_swap_done hs h hq hv)
  · exact fun hq => promotionComplete_steps hp (step_swap_fails hs h hq)
  · intro hs
    rw [promotionAbandon_eq hp, hs]
    rfl
  · intro hs
    rw [promotionAbandon_eq hp, if_neg (by simpa using hs)]
  · exact fun hf => promotionComplete_returns hn hr ho (pushReturn_full h hf)
  · exact fun u w hf hw hx => promotionComplete_returns hn hr ho (pushReturn_entry h hf hw hx)

end Sys2Proof.Machine

end

section
/-! PROOFS. Swaps (R169, R170, R473 to R477): what the functions of an exchange leave of the cores' banks, and how an
exchange and a transfer of the thresher end. -/

namespace Sys2Proof.Machine

/-- A property of the state that each element's work leaves. -/
theorem foldl_leaves {α β : Type} (g : State → β) {f : State → α → State} (hf : ∀ s a, g (f s a) = g s) (l : List α)
    (s : State) : g (l.foldl f s) = g s := by
  induction l generalizing s with
  | nil => rfl
  | cons a l ih => exact (ih _).trans (hf s a)

/-- What a swap changes of a core, and what counts its issue. -/
structure Banks where
  active : Option Nat
  shadow : Option Nat
  outSince : Nat
  swapTo : Option Nat
  todo : List Nat
  issued : Nat

def Core.banks (k : Core) : Banks :=
  { active := k.active, shadow := k.shadow, outSince := k.outSince, swapTo := k.swapTo, todo := k.todo, issued := k.issued }

/-- The time, and the banks of every core. -/
def State.banks (s : State) : Nat × (Nat → Banks) := (s.time, fun c => (s.core c).banks)

theorem core_setCore_same (s : State) (c : Nat) (k : Core) : (s.setCore c k).core c = k := Tab.get_put_same _ _ _ _

theorem setCore_banks {s : State} {c : Nat} {k : Core} (h : k.banks = (s.core c).banks) :
    (s.setCore c k).banks = s.banks := by
  refine Prod.ext rfl (funext fun d => ?_)
  change (Tab.get {} (Tab.put s.cores c k) d).banks = (Tab.get {} s.cores d).banks
  rw [Tab.get_put]
  split
  next e => rw [e]; exact h
  next => rfl

-- Tours.

theorem setRing_banks (s : State) (core ctx n : Nat) (r : Ring) : (s.setRing core ctx n r).banks = s.banks := rfl
theorem modTour_banks (s : State) (origin ctx id : Nat) (g : Tour → Tour) : (s.modTour origin ctx id g).banks = s.banks := rfl
theorem setBank_banks (s : State) (hid ctx : Nat) (h : Hart) : (s.setBank hid ctx h).banks = s.banks := rfl

theorem popHead_banks (s : State) (core ctx n : Nat) : (s.popHead core ctx n).banks = s.banks := by
  unfold State.popHead
  exact (foldl_leaves State.banks (fun _ _ => modTour_banks _ _ _ _ _) _ _).trans (setRing_banks _ _ _ _ _)

theorem dropTransit_banks (s : State) (core ctx ring : Nat) (x : Transit) :
    (dropTransit s core ctx ring x).banks = s.banks := rfl

theorem finishTour_banks (s : State) (origin ctx id : Nat) : (finishTour s origin ctx id).banks = s.banks := by
  unfold finishTour
  split <;> rfl

theorem afterStop_banks (s : State) (origin ctx id i : Nat) (last : Bool) (l : LegFrom) :
    (afterStop s origin ctx id i last l).banks = s.banks := by
  unfold afterStop
  split
  · rfl
  · split
    · exact finishTour_banks _ _ _ _
    · rfl

theorem reclaim_banks (s : State) (core ctx ring : Nat) (v : Visit) : (reclaim s core ctx ring v).banks = s.banks := by
  unfold reclaim
  refine (afterStop_banks _ _ _ _ _ _ _).trans ?_
  dsimp only
  split
  · rfl
  · split
    · exact popHead_banks _ _ _ _
    · rfl

theorem tourSwap_banks (s : State) (core ctx : Nat) : (tourSwap s core ctx).banks = s.banks := by
  unfold tourSwap
  refine foldl_leaves State.banks (fun t n => ?_) _ _
  exact (foldl_leaves State.banks (fun u v => reclaim_banks u core ctx n v) _ _).trans
    (foldl_leaves State.banks (fun u x => dropTransit_banks u core ctx n x) _ _)

theorem unreserve_banks (s : State) (ctx : Nat) (t : Tour) (l : Leg) : (unreserve s ctx t l).banks = s.banks := by
  unfold unreserve
  split <;> rfl

theorem endTour_banks (s : State) (origin ctx id status : Nat) : (endTour s origin ctx id status).banks = s.banks := by
  unfold endTour
  split
  · rfl
  next t _ =>
    refine (foldl_leaves State.banks (fun _ _ => setRing_banks _ _ _ _ _) _ _).trans ?_
    exact (modTour_banks _ _ _ _ _).trans (foldl_leaves State.banks (fun u l => unreserve_banks u ctx t l) _ _)

theorem tourCommand_banks (s : State) (core ctx tour : Nat) (k : UnitCmd) :
    (tourCommand s core ctx tour k).banks = s.banks := by
  unfold tourCommand
  split
  · rfl
  · split
    · rfl
    · cases k with
      | resume => rfl
      | kill => exact endTour_banks _ _ _ _ _

theorem unitsIn_banks (s : State) (core ctx : Nat) : (unitsIn s core ctx).banks = s.banks := by
  unfold unitsIn
  refine foldl_leaves State.banks (fun t e => ?_) _ _
  split
  · rfl
  · exact tourCommand_banks _ _ _ _ _

-- A hart's recorded command.

theorem discardLines_banks (s : State) (hid ctx : Nat) : (discardLines s hid ctx).banks = s.banks := by
  unfold discardLines
  extract_lets core k s1 u s2
  have h1 : s1.banks = s.banks := setCore_banks rfl
  have h2 : s2.banks = s1.banks := by unfold s2; split <;> rfl
  exact h2.trans h1

theorem report_banks (s : State) (rises : Bool) (l : List Nat) : (s.report rises l).banks = s.banks := by
  induction l generalizing s with
  | nil => rfl
  | cons k ks ih =>
    unfold State.report
    extract_lets n m t
    split
    · rfl
    · exact ih t

theorem setHead_banks (s : State) (g core : Nat) (h : Headland) : (s.setHead g core h).banks = s.banks := by
  unfold State.setHead
  extract_lets was t
  split
  · rfl
  · exact report_banks _ _ _

theorem enqueueAt_banks (s : State) (q : QueueId) (e : QRec) : (enqueueAt s q e).banks = s.banks := by
  cases q <;> rfl

theorem endRecord_banks (s : State) (core : Nat) (r : V512) : (endRecord s core r).banks = s.banks :=
  setHead_banks s _ _ _

theorem forsakeAll_banks (s : State) (ag : Agent) (ctx : Nat) : (s.forsakeAll ag ctx).banks = s.banks := rfl

theorem loseSlice_banks (s : State) (hid ctx : Nat) : (loseSlice s hid ctx).banks = s.banks := by
  unfold loseSlice
  extract_lets h old s1
  have hb : s1.banks = s.banks := (setBank_banks _ _ _ _).trans (forsakeAll_banks s _ _)
  clear_value s1
  split
  · rfl
  · split
    · split
      · exact hb
      · refine ((enqueueAt_banks _ _ _).trans ?_).trans hb
        split <;> rfl
    · exact (endRecord_banks _ _ _).trans hb

theorem killHart_banks (s : State) (hid ctx : Nat) : (killHart s hid ctx).banks = s.banks :=
  (loseSlice_banks (discardLines s hid ctx) hid ctx).trans (discardLines_banks s hid ctx)

theorem hartCommand_banks (s : State) (hid ctx : Nat) (k : UnitCmd) : (hartCommand s hid ctx k).banks = s.banks := by
  cases k with
  | resume =>
    simp only [hartCommand]
    split <;> rfl
  | kill =>
    simp only [hartCommand]
    split
    · exact killHart_banks _ _ _
    · rfl

theorem swapInHart_banks (s : State) (ctx hid : Nat) : (swapInHart s ctx hid).banks = s.banks := by
  unfold swapInHart
  extract_lets h
  split
  · rfl
  · exact hartCommand_banks _ _ _ _

theorem addMeter_banks (s : State) (ctx idx n : Nat) : (s.addMeter ctx idx n).banks = s.banks := rfl

theorem swapOut_time (s : State) (core old : Nat) : (swapOut s core old).time = s.time := by
  unfold swapOut
  extract_lets u s1 s2 s3
  have h1 : s1.banks = s.banks := by unfold s1; split <;> rfl
  clear_value s1
  have h2 : s2.banks = s1.banks := rfl
  clear_value s2
  have h3 : s3.banks = s1.banks := (addMeter_banks _ _ _ _).trans ((tourSwap_banks s2 core old).trans h2)
  clear_value s3
  have h4 : ((hartsOf core).foldl (fun s h => s.setBank h old (abandonWaits (s.bank h old))) s3).banks = s3.banks :=
    foldl_leaves State.banks (fun t h => setBank_banks t h old _) _ _
  exact congrArg Prod.fst ((h4.trans h3).trans h1)

-- The exchange and the thresher.

/-- What an exchange makes of a core's banks. -/
def Banks.exchanged (b : Banks) (t time : Nat) : Banks :=
  { active := some t, shadow := b.active, swapTo := none, outSince := time, issued := 0
    todo := if b.todo = [] then allParts else allParts.filter (fun p => !b.todo.contains p) }

theorem swapExchange_banks {s : State} {core t : Nat} (ht : (s.core core).swapTo = some t)
    (hr : swapReady s core = true) : ∃ u, exec (.swapExchange core) s = .next u ∧
      (u.core core).banks = (s.core core).banks.exchanged t s.time := by
  change ∃ u, execSwapExchange core s = .next u ∧ _
  unfold execSwapExchange
  extract_lets k s1 todo old
  rw [show k.swapTo = some t from ht, hr]
  change ∃ u, (if !true then Host.Outcome.next s else _) = .next u ∧ _
  rw [if_neg (by decide)]
  extract_lets s2 s3
  have h1 : s1.time = s.time := by
    unfold s1
    split
    · exact swapOut_time _ _ _
    · rfl
  clear_value s1
  have h2 : (s2.core core).banks = (s.core core).banks.exchanged t s.time := by
    unfold s2 todo old
    rw [core_setCore_same, ← h1]
    simp [Core.banks, Banks.exchanged, k]
  clear_value s2
  have h3 : s3.banks = s2.banks := by
    unfold s3
    split
    · rfl
    · exact unitsIn_banks _ _ _
  clear_value s3
  have h4 := (foldl_leaves State.banks (fun u h => swapInHart_banks u t h) (hartsOf core) s3).trans h3
  exact ⟨_, rfl, (congrFun (congrArg Prod.snd h4) core).trans h2⟩

section
variable {s : State} {core p : Nat} {rest : List Nat}

/-- The thresher moves the next part, once the outgoing bank's accesses are performed (R170, R474). -/
theorem thresherTransfer_moves (h : (s.core core).todo = p :: rest)
    (hb : ∀ old, (s.core core).shadow = some old → bankBusy s core old = false) :
    let ctx := (s.core core).active.getD 0
    let moved := if p = 0 then unitsIn s core ctx
      else if p = 1 then linesIn (((s.core core).shadow.map (linesOut s core)).getD s) core ctx
      else if (s.unit core ctx).dirty.contains (p - 2) then s
      else { s with spad := Mem.clear s.spad (spadKey core ctx (4096 * (p - 2))) 4096 }
    exec (.thresherTransfer core) s = .next (moved.setCore core { moved.core core with todo := rest }) := by
  have hbusy : ((s.core core).shadow.map (bankBusy s core)).getD false = false := by
    cases hs : (s.core core).shadow with
    | none => rfl
    | some old => exact hb old hs
  intro ctx moved
  change execThresherTransfer core s = _
  simp only [execThresherTransfer, h, hbusy, Bool.false_eq_true, if_false]
  refine congrArg (fun x : State => Host.Outcome.next (x.setCore core { x.core core with todo := rest })) ?_
  unfold moved
  match p with
  | 0 => rfl
  | 1 => cases (s.core core).shadow <;> rfl
  | r + 2 =>
    cases hd : (s.unit core ctx).dirty.contains r with
    | true => exact (regionIn_saved hd).trans (if_pos hd).symm
    | false => exact (regionIn_unsaved hd).trans (if_neg (by rw [Bool.not_eq_true]; exact hd)).symm

theorem thresherTransfer_done (h : (s.core core).todo = []) : exec (.thresherTransfer core) s = .next s := by
  change execThresherTransfer core s = _
  simp only [execThresherTransfer, h]

theorem thresherTransfer_waits {old : Nat} (h : (s.core core).shadow = some old) (hb : bankBusy s core old = true) :
    exec (.thresherTransfer core) s = .next s := by
  change execThresherTransfer core s = _
  simp only [execThresherTransfer, h, Option.map_some, hb, Option.getD_some, if_true]
  cases (s.core core).todo <;> rfl

theorem swapExchange_none (h : (s.core core).swapTo = none) : exec (.swapExchange core) s = .next s := by
  change execSwapExchange core s = _
  simp only [execSwapExchange, h]

theorem swapExchange_waits (h : swapReady s core = false) : exec (.swapExchange core) s = .next s := by
  change execSwapExchange core s = _
  simp only [execSwapExchange, h]
  cases (s.core core).swapTo <;> rfl

theorem swapExchange_mem {u : State} (h : exec (.swapExchange core) s = .next u) : u.mem = s.mem := by
  have hk : (MemInv.same s).Next (exec (.swapExchange core) s) := execSwapExchange_keeps (MemInv.same_on s)
  rw [h] at hk
  exact hk.on.1

end

/-- Settles O39: by whether the exchange may happen, and by the part the thresher moves. -/
theorem swapEventResults : Obligations.SwapEventResults := by
  unfold Obligations.SwapEventResults
  intro s core k
  refine ⟨swapExchange_none, swapExchange_waits, fun t ht hr => ?_, thresherTransfer_done,
    fun old hs hb => thresherTransfer_waits hs hb, fun p rest hp hb => thresherTransfer_moves hp hb⟩
  obtain ⟨u, hu, hbanks⟩ := swapExchange_banks ht hr
  have hmem := swapExchange_mem hu
  injection hbanks with hactive hshadow hout hto htodo hissued
  exact ⟨u, hu, hactive, hshadow, hto, hout, hissued, hmem, htodo⟩

end Sys2Proof.Machine

end

section
/-! PROOFS. The events of tours (R409 to R418): a leg goes on, a tile lands, a visit is made good or reclaimed, and a tour
completes. -/

namespace Sys2Proof.Machine

section
variable {s u w : State} {origin id n core ring slot : Nat} {t : Tour} {l m : Leg}

theorem tourEvent_ok {r : Eng State} (origin ctx id : Nat) (h : r = .ok u) :
    tourEvent s origin ctx id r = .next u.sendPosts := by
  subst h
  rfl

/-- What a leg's event does once the leg may go on: a reserved leg copies, and another reserves its slot first (R409). -/
def legGoes (s : State) (origin ctx id : Nat) (t : Tour) (l : Leg) : Result :=
  if l.reserved then tourEvent s origin ctx id (legStep s origin ctx id t l)
  else tourEvent (reserveLeg s origin ctx id t l).1 origin ctx id
    (legStep (reserveLeg s origin ctx id t l).1 origin ctx id t (reserveLeg s origin ctx id t l).2)

theorem legGoes_reserved {ctx : Nat} (hl : l.reserved = true) (h : legStep s origin ctx id t l = .ok u) :
    legGoes s origin ctx id t l = .next u.sendPosts := (if_pos hl).trans (tourEvent_ok _ _ _ h)

theorem legGoes_reserves {ctx : Nat} (hl : l.reserved = false) (hr : reserveLeg s origin ctx id t l = (w, m))
    (h : legStep w origin ctx id t m = .ok u) : legGoes s origin ctx id t l = .next u.sendPosts := by
  unfold legGoes
  rw [if_neg (by simp [hl]), hr]
  exact tourEvent_ok _ _ _ h

section
variable (ht : runningTour s origin id = some t)
include ht

section
variable (hl : t.legs.find? (fun l => !l.mg && !l.sent) = some l)
include hl

theorem tourLeg_overdue {x : Transit} (ho : overdueSlot s (s.ctxOf origin) l = some (core, ring, x)) :
    exec (.tourLeg origin id) s = .next (dropTransit s core (s.ctxOf origin) ring x) := by
  change execTourLeg origin id s = _
  simp only [execTourLeg, ht, hl, ho]

theorem tourLeg_goes (ho : overdueSlot s (s.ctxOf origin) l = none)
    (hr : l.reserved = true ∨ stopReady s (s.ctxOf origin) (t.stopAt l.stop) = true) :
    exec (.tourLeg origin id) s = legGoes s origin (s.ctxOf origin) id t l := by
  change execTourLeg origin id s = _
  simp only [execTourLeg, ht, hl, ho, legGoes]
  cases hres : l.reserved with
  | true => rfl
  | false =>
    have hready : stopReady s (s.ctxOf origin) (t.stopAt l.stop) = true := hr.resolve_left (by simp [hres])
    rw [hready]
    rfl

end

theorem makeGood_goes (hl : t.legs.find? (fun l => l.mg && !l.sent && (l.reserved ||
    goodReady s (s.ctxOf origin) t l)) = some l) :
    exec (.makeGood origin id) s = legGoes s origin (s.ctxOf origin) id t l := by
  change execMakeGood origin id s = _
  simp only [execMakeGood, ht, hl, legGoes]

/-- An owed visit becomes a leg, one after another (R414). -/
theorem makeGood_next {i : Nat} {rest : List Nat}
    (hb : t.legs.any (fun l => l.mg && l.into.isNone) = false)
    (hl : t.legs.find? (fun l => l.mg && !l.sent && (l.reserved || goodReady s (s.ctxOf origin) t l)) = none)
    (hg : t.goods = i :: rest) : exec (.makeGood origin id) s = .next (s.modTour origin (s.ctxOf origin) id (fun t =>
      { t with goods := rest, legs := t.legs ++ [{ stop := i, source := .src, mg := true }] })) := by
  change execMakeGood origin id s = _
  simp only [execMakeGood, ht, hl, hg, hb, Bool.false_eq_true, if_false]

theorem tourWatchdog_ends (hw : t.limit ≤ t.dog) (hc : t.complete = false) : exec (.tourWatchdog origin id) s =
    .next ((endTour s origin (s.ctxOf origin) id 10).sendPacket (.ring origin) (s.ctxOf origin) 0
      { code := .tourWatchdog, tag := id }) := by
  change execTourWatchdog origin id s = _
  simp only [execTourWatchdog, ht]
  rw [if_neg (by simp [hc, hw])]

end

/-- A tile reaches its stop and lands there (R75, R408). -/
theorem ringPublish_lands {r : RingMsg} {stop d : Nat} {mg : Bool} {into : Option Nat} (hr : s.ringNet[n]? = some r)
    (hb : r.body = .tile origin id stop mg into d) (hf : ringFirst s n r = true) (ha : ringArrives s r = true)
    (hw : stageWaits s r = false) (ht : s.tour? origin r.ctx id = some t)
    (hl : t.legs.find? (fun l => l.sent && l.stop == stop && l.mg == mg && l.into == into) = some l) :
    exec (.ringPublish n) s = .next (landTile { s with ringNet := s.ringNet.eraseIdx n } origin r.ctx id t l d) := by
  have ht' : State.tour? { s with ringNet := s.ringNet.eraseIdx n } origin r.ctx id = some t := ht
  change execRingPublish n s = _
  simp only [execRingPublish, tileArrive, hr, hb, hf, ha, hw, dropNth, ht', hl, Bool.not_true, Bool.or_self,
    Bool.false_eq_true, if_false]

section
variable (hu : unitsLive s origin = true) (ht : s.tour? origin (s.ctxOf origin) id = some t) (hc : t.complete = true)
include hu ht hc

/-- A completed tour leaves its unit, and raises its interrupt (R415). -/
def tourEnds (u : State) (origin ctx id : Nat) (t : Tour) : State :=
  if t.irq then raiseIn (dropTour u origin ctx id t) t.hart ctx 3 else dropTour u origin ctx id t

theorem tourComplete_quiet (hw : t.cword = 0) :
    exec (.tourComplete origin id) s = .next (tourEnds s origin (s.ctxOf origin) id t) := by
  change execTourComplete origin id s = _
  simp only [execTourComplete, hu, ht, hc, hw, Bool.not_true, Bool.false_eq_true, if_false, if_true]
  rfl

theorem tourComplete_writes (hw : t.cword ≠ 0)
    (h : engWrite1 s (jobWho s origin (tourJob id)) (.ring origin) 0 t.cword (leBytes 8 (tourWord t)) = .ok u) :
    exec (.tourComplete origin id) s = .next (tourEnds u origin (s.ctxOf origin) id t).sendPosts := by
  change execTourComplete origin id s = _
  simp only [execTourComplete, hu, ht, hc, Bool.not_true, Bool.false_eq_true, if_false, if_neg hw, h]
  rfl

end

theorem holdExpiry_visit {v : Visit} (ha : (s.core origin).active.isSome = true)
    (hv : (s.ring origin (s.ctxOf origin) ring).visits.find? (fun v => v.arr == slot) = some v) :
    exec (.holdExpiry origin ring slot) s = .next (expire s origin (s.ctxOf origin) ring v) := by
  change execHoldExpiry origin ring slot s = _
  simp only [execHoldExpiry, Option.isNone_eq_false_iff.mpr ha, hv, Bool.false_eq_true, if_false]

theorem transitDrop_overdue {x : Transit} (ha : (s.core origin).active.isSome = true)
    (hx : (s.ring origin (s.ctxOf origin) ring).transit.find? (fun x => x.arr == slot) = some x) (hh : x.hold ≠ 0)
    (ho : x.hold ≤ x.waited) :
    exec (.transitDrop origin ring slot) s = .next (dropTransit s origin (s.ctxOf origin) ring x) := by
  have hover : x.overdue = true := by simp [Transit.overdue, hh, ho]
  change execTransitDrop origin ring slot s = _
  simp only [execTransitDrop, Option.isNone_eq_false_iff.mpr ha, hx, hover, Bool.false_eq_true, if_false,
    if_true]

end

/-- Settles O19: one rule for each event, and for each thing it may find. -/
theorem tourEventsAct : Obligations.TourEventsAct := by
  unfold Obligations.TourEventsAct
  intro s origin id t ctx goesOn
  refine ⟨fun l ht hl => ⟨fun core ring x ho => tourLeg_overdue ht hl ho, fun ho => ⟨?_, ?_⟩⟩,
    fun n m stop mg into d l hr hb hf ha hw ht hl => ringPublish_lands hr hb hf ha hw ht hl,
    fun l ht hl => ⟨?_, ?_⟩, fun i rest ht hb hl hg => makeGood_next ht hb hl hg,
    fun hu ht hc => ⟨tourComplete_quiet hu ht hc, fun u => tourComplete_writes hu ht hc⟩,
    fun ht hw hc => tourWatchdog_ends ht hw hc, fun ring slot v ha hv => ⟨?_, ?_⟩,
    fun ring slot x ha hx hh ho => transitDrop_overdue ha hx hh ho⟩
  · exact fun u hres h => (tourLeg_goes ht hl ho (.inl hres)).trans (legGoes_reserved hres h)
  · exact fun w m u hres hready hr h => (tourLeg_goes ht hl ho (.inr hready)).trans (legGoes_reserves hres hr h)
  · exact fun u hres h => (makeGood_goes ht hl).trans (legGoes_reserved hres h)
  · exact fun w m u hres _ hr h => (makeGood_goes ht hl).trans (legGoes_reserves hres hr h)
  · intro he hb
    rw [holdExpiry_visit ha hv, expire, he, hb]
    rfl
  · intro he
    rw [holdExpiry_visit ha hv, expire, he]
    rfl

end Sys2Proof.Machine

end

section
/-! PROOFS. The bytes that stores and performed requests touch (R56, R73, R75, R293): a memory that is as it was outside a
range stays so under writes within the range. -/

namespace Sys2Proof

/-- A memory in its canonical form reads as another outside the `n` bytes from `p` up. -/
def Mem.AsOutside (old : Mem) (p n : Nat) (m : Mem) : Prop :=
  Mem.wf m = true ∧ ∀ a, (a < p ∨ p + n ≤ a) → Mem.read m a = Mem.read old a

theorem Mem.asOutside_self {m : Mem} (h : Mem.wf m = true) (p n : Nat) : Mem.AsOutside m p n m := ⟨h, fun _ _ => rfl⟩

theorem Mem.AsOutside.writeL {old m : Mem} {p n q : Nat} {bs : List Byte} (h : Mem.AsOutside old p n m) (hq : p ≤ q)
    (hl : q + bs.length ≤ p + n) : Mem.AsOutside old p n (Mem.writeL m q bs) :=
  ⟨Mem.writeL_wf q bs h.1, fun a ha => (Mem.read_writeL_outside q bs h.1 a (by omega)).trans (h.2 a ha)⟩

namespace Machine

open Sys2Proof.Safety

/-- Device memory keeps its property under writes within the `n` bytes from `p` up. -/
def MemInv.MemWithin (I : MemInv) (p n : Nat) : Prop :=
  ∀ (m : Mem) (q : Nat) (bs : List Byte), p ≤ q → q + bs.length ≤ p + n → I.mem m → I.mem (Mem.writeL m q bs)

/-- The same of the scratchpads. -/
def MemInv.SpadWithin (I : MemInv) (p n : Nat) : Prop :=
  ∀ (m : Mem) (q : Nat) (bs : List Byte), p ≤ q → q + bs.length ≤ p + n → I.spad m → I.spad (Mem.writeL m q bs)

section
variable {I : MemInv} {s : State} {ctx core off p n : Nat}

theorem memWrite_within {bs : List Byte} (hw : I.MemWithin p n) (hl : bs.length ≤ n) (hs : I.On s) :
    I.On (memWrite s ctx p bs) := ⟨hw _ _ _ le_rfl (by omega) hs.1, hs.2⟩

theorem spadWrite_within {d : Nat} {bs : List Byte} (hw : I.SpadWithin (spadKey core ctx off) n)
    (hl : d + bs.length ≤ n) (hs : I.On s) : I.On (spadWrite s core ctx (off + d) bs) :=
  ⟨hs.1, hw _ _ _ (by simp only [spadKey]; omega) (by simp only [spadKey]; omega) hs.2⟩

theorem foldl_write_within {l : List (Nat × Byte)} {m : Mem} (hw : I.MemWithin p n) (hl : ∀ e ∈ l, e.1 < n)
    (hm : I.mem m) : I.mem (l.foldl (fun mm e => Mem.write mm (p + e.1) e.2) m) := by
  induction l generalizing m with
  | nil => exact hm
  | cons e l ih =>
    have he : e.1 < n := hl e (List.mem_cons_self ..)
    refine ih (fun x hx => hl x (List.mem_cons_of_mem _ hx)) ?_
    exact hw m (p + e.1) [e.2] (by omega) (by simp; omega) hm

theorem writeMasked_within {d : V512} {m : W64} (hw : I.MemWithin p 64) (hs : I.On s) : I.On (writeMasked s ctx p d m) :=
  ⟨foldl_write_within (l := (lineBytes d.toNat).filter (fun e => m.getLsbD e.1)) hw
    (fun _ he => (mem_lineBytes.mp (List.mem_filter.mp he).1).1) hs.1, hs.2⟩

section
variable {tag : Option W64} {op : RmwOp} {ty : Ty} {b : Nat} {r : Request}

theorem reduceAt_within (hw : I.MemWithin p (ty.width / 8)) (hs : I.On s) : I.On (reduceAt s ctx p tag op ty b).1 := by
  unfold reduceAt
  extract_lets k home apply
  have happ : I.On (apply s) := by
    unfold apply
    split
    next t bs hq =>
      have ht := MemInv.On.fst (memRead_keeps hs) hq
      split
      · exact memWrite_within hw (by simp [bytesOf, k]) ht
      · exact ht
  clear_value apply
  split
  · exact happ
  · split
    · exact hs
    · exact enterTag_keeps happ

/-- How many bytes from its place up a request that a column command performs may write. -/
def memSpan (r : Request) : Nat :=
  if r.kind = .read then 0 else if r.kind = .write then (if r.mask = 0 then r.size else 64)
  else if r.reduce = true then r.ty.width / 8 else r.size

theorem memSpan_write (hk : r.kind = .write) : memSpan r = if r.mask = 0 then r.size else 64 := by
  rw [memSpan, hk]
  rfl

theorem memSpan_atomic (hk : r.kind = .atomic) : memSpan r = if r.reduce = true then r.ty.width / 8 else r.size := by
  rw [memSpan, hk]
  rfl

theorem performWrite_within (hk : r.kind = .write) (he : r.enc = false) (hw : I.MemWithin p (memSpan r)) (hs : I.On s) :
    I.On (performWrite s p r) := by
  unfold performWrite
  rw [if_neg (by simp [he])]
  rw [memSpan_write hk] at hw
  split
  next h0 =>
    rw [if_pos h0] at hw
    split
    · exact hs
    · exact memWrite_within (n := r.size) hw (by simp [bytesOf]) hs
  next h0 =>
    rw [if_neg h0] at hw
    split
    · exact hs
    · exact writeMasked_within hw hs

theorem performAtomic_within (hk : r.kind = .atomic) (hw : I.MemWithin p (memSpan r)) (hs : I.On s) :
    I.On (performAtomic s p r) := by
  unfold performAtomic
  rw [memSpan_atomic hk] at hw
  split
  · exact hs
  · split
    next hr =>
      rw [if_pos hr] at hw
      split
      next t st hq =>
        have ht : I.On t := MemInv.On.fst (reduceAt_within hw hs) hq
        exact ht
    next hr =>
      rw [if_neg hr] at hw
      split
      next t bs hq =>
        have ht := MemInv.On.fst (memRead_keeps hs) hq
        dsimp only
        split
        · exact memWrite_within (n := r.size) hw (by simp [bytesOf]) ht
        · exact ht

theorem performAt_within (he : r.enc = false) (hw : I.MemWithin p (memSpan r)) (hs : I.On s) : I.On (performAt s p r) := by
  unfold performAt
  extract_lets u
  have hu : I.On u := by
    unfold u
    split
    · exact State.countHot_keeps hs
    · exact hs
  clear_value u
  split
  next => exact performRead_keeps hu
  next hk => exact performWrite_within hk he hw hu
  next hk => exact performAtomic_within hk hw hu
  next => exact hu

theorem columnCommand_within {bank k : Nat} (hr : (Tab.get [] s.bankQ bank)[k]? = some r) (hp : r.place = .mem p)
    (he : r.enc = false) (hw : I.MemWithin p (memSpan r)) (hs : I.On s) : I.Next (exec (.columnCommand bank k) s) := by
  change I.Next (execColumnCommand bank k s)
  unfold execColumnCommand
  dsimp only
  rw [hr]
  dsimp only
  rw [hp]
  dsimp only
  split
  · exact .next (pullBank_keeps (openRow_keeps (performAt_within he hw hs)))
  · exact .next hs

/-- How many bytes from its place up a request performed in a scratchpad may write. -/
def spadSpan (r : Request) : Nat :=
  if r.kind = .read then 0 else if r.kind ≠ .atomic ∧ r.mask ≠ 0 then 64 else r.size

theorem spadMasked_within (hw : I.SpadWithin (spadKey core ctx off) (if r.mask ≠ 0 then 64 else r.size)) (hs : I.On s) :
    I.On (spadMasked s core ctx off r) := by
  unfold spadMasked
  split
  next h0 =>
    rw [if_neg (by simp [h0])] at hw
    exact spadWrite_within (d := 0) hw (by simp [bytesOf]) hs
  next h0 =>
    rw [if_pos h0] at hw
    have hlt : ∀ i ∈ (List.range 64).filter (fun i => r.mask.getLsbD i), i < 64 := fun i hi =>
      List.mem_range.mp (List.mem_filter.mp hi).1
    generalize (List.range 64).filter (fun i => r.mask.getLsbD i) = l at hlt
    induction l generalizing s with
    | nil => exact hs
    | cons i l ih =>
      have hi : i < 64 := hlt i (List.mem_cons_self ..)
      refine ih (spadWrite_within hw ?_ hs) fun x hx => hlt x (List.mem_cons_of_mem _ hx)
      rw [lineGet, leBytes_length]
      exact hi

theorem performSpad_within (hw : I.SpadWithin (spadKey core ctx off) (spadSpan r)) (hs : I.On s) :
    I.On (performSpad s core ctx off r) := by
  unfold performSpad
  split
  next => exact hs
  next hk =>
    simp only [spadSpan, hk] at hw
    dsimp only
    split
    · exact spadWrite_within (d := 0) (n := r.size) (by simpa using hw) (by simp [bytesOf]) hs
    · exact hs
  next hread hatomic =>
    refine spadMasked_within ?_ hs
    have hspan : spadSpan r = if r.mask ≠ 0 then 64 else r.size := by
      rw [spadSpan, if_neg hread]
      simp only [ne_eq, eq_false hatomic, not_false_eq_true, true_and]
    rwa [hspan] at hw

theorem scratch_within {k : Nat} (hr : s.reqNet[k]? = some r) (hp : r.place = .spad core off)
    (hw : I.SpadWithin (spadKey core (if r.ctx = sysCtx then s.ctxOf core else r.ctx) off) (spadSpan r)) (hs : I.On s) :
    I.Next (exec (.scratch k) s) := by
  change I.Next (execScratch k s)
  unfold execScratch
  rw [hr]
  dsimp only
  rw [hp]
  dsimp only
  generalize (if r.ctx = sysCtx then s.ctxOf core else r.ctx) = c at hw ⊢
  split
  · exact .next (performSpad_within hw hs)
  · exact .next hs

end

end

end Machine

end Sys2Proof

end

section
/-! PROOFS. What a producer slot's place and room rest on (R171, R178, R251), and that what goes before an atomic's result
leaves it: the same handles, rings and regions, and every request still under way. -/

namespace Sys2Proof.Machine

/-- What a handle's local slot is found by. -/
structure SlotView where
  cur : Nat
  active : Nat → Option Nat
  todo : Nat → List Nat
  rings : Nat → Nat → Vector Ring 16
  qbind : Nat → Nat → Vector W64 16

def State.slotView (s : State) : SlotView :=
  { cur := s.cur, active := fun c => (s.core c).active, todo := fun c => (s.core c).todo
    rings := fun c x => (s.unit c x).rings, qbind := fun i x => (s.bank i x).qbind }

/-- What an order between requests rests on, of each request under way. -/
def State.flights (s : State) : List (Agent × Place × Nat) := s.inFlight.map (fun r => (r.agent, r.place, r.size))

/-- The second state has the first one's slots, and every request of it still under way. -/
structure Onward (s t : State) : Prop where
  view : t.slotView = s.slotView
  flights : s.flights ⊆ t.flights

namespace Onward

theorem refl (s : State) : Onward s s := ⟨rfl, List.Subset.refl _⟩

theorem trans {s t u : State} (h : Onward s t) (k : Onward t u) : Onward s u :=
  ⟨k.view.trans h.view, List.Subset.trans h.flights k.flights⟩

theorem of_eq {s t : State} (h : t.slotView = s.slotView) (hf : t.flights = s.flights) : Onward s t :=
  ⟨h, hf ▸ List.Subset.refl _⟩

theorem foldl {α : Type} {f : State → α → State} (hf : ∀ s a, Onward s (f s a)) (l : List α) (s : State) :
    Onward s (l.foldl f s) := by
  induction l generalizing s with
  | nil => exact refl s
  | cons a l ih => exact (hf s a).trans (ih _)

theorem ite {s t u : State} {c : Prop} [Decidable c] (ht : Onward s t) (hu : Onward s u) :
    Onward s (if c then t else u) := by
  split
  · exact ht
  · exact hu

section
variable {s t : State} (h : Onward s t)
include h

theorem cur : t.cur = s.cur := congrArg SlotView.cur h.view
theorem todo (c : Nat) : (t.core c).todo = (s.core c).todo := congrFun (congrArg SlotView.todo h.view) c
theorem active (c : Nat) : (t.core c).active = (s.core c).active := congrFun (congrArg SlotView.active h.view) c
theorem rings (c x : Nat) : (t.unit c x).rings = (s.unit c x).rings :=
  congrFun (congrFun (congrArg SlotView.rings h.view) c) x
theorem qbind (i x : Nat) : (t.bank i x).qbind = (s.bank i x).qbind :=
  congrFun (congrFun (congrArg SlotView.qbind h.view) i) x

theorem ctxOf (c : Nat) : t.ctxOf c = s.ctxOf c := by simp only [State.ctxOf, h.active]

theorem myCore : t.myCore = s.myCore := by simp only [State.myCore, h.cur]

theorem myCtx : t.myCtx = s.myCtx := by simp only [State.myCtx, h.ctxOf, h.myCore]

theorem me_qbind : t.me.qbind = s.me.qbind := by
  change (t.bank t.cur (t.ctxOf (coreOf t.cur))).qbind = (s.bank s.cur (s.ctxOf (coreOf s.cur))).qbind
  rw [h.ctxOf, h.cur, h.qbind]

end

end Onward

-- The state's operations.

section
variable {s : State}

/-- A hart's bindings do not depend on what a bank without an entry is. -/
theorem get_qbind {t : Tab Hart} {d e : Hart} (h : d.qbind = e.qbind) (k : Nat) :
    (Tab.get d t k).qbind = (Tab.get e t k).qbind := by
  induction t with
  | nil => exact h
  | cons x t ih =>
    unfold Tab.get
    split
    · rfl
    · exact ih

theorem atReset_qbind (i : Nat) : (Hart.atReset i).qbind = ({} : Hart).qbind := by
  unfold Hart.atReset
  split <;> rfl

theorem setBank_onward {i x : Nat} {k : Hart} (h : k.qbind = (s.bank i x).qbind) : Onward s (s.setBank i x k) := by
  refine .of_eq ?_ rfl
  refine congrArg (fun q => { s.slotView with qbind := q }) (funext fun j => funext fun y => ?_)
  change (Tab.get (Hart.atReset j) (Tab.put s.harts (i * 128 + x) k) (j * 128 + y)).qbind = (s.bank j y).qbind
  rw [Tab.get_put]
  split
  next e =>
    rw [h]
    change (Tab.get (Hart.atReset i) s.harts (i * 128 + x)).qbind = (Tab.get (Hart.atReset j) s.harts (j * 128 + y)).qbind
    rw [e]
    exact get_qbind ((atReset_qbind i).trans (atReset_qbind j).symm) _
  next => rfl

theorem modMe_onward {g : Hart → Hart} (h : ∀ m, (g m).qbind = m.qbind) : Onward s (s.modMe g) :=
  setBank_onward (h _)

theorem setCore_onward {c : Nat} {k : Core} (ha : k.active = (s.core c).active) (ht : k.todo = (s.core c).todo) :
    Onward s (s.setCore c k) := by
  have hcore : ∀ d, (s.setCore c k).core d = if d = c then k else s.core d := fun d => Tab.get_put _ _ _ _ _
  refine .of_eq ?_ rfl
  change { s.slotView with active := fun d => ((s.setCore c k).core d).active, todo := fun d => ((s.setCore c k).core d).todo }
    = s.slotView
  simp only [hcore]
  congr 1
  · funext d; split
    next e => rw [e]; exact ha
    next => rfl
  · funext d; split
    next e => rw [e]; exact ht
    next => rfl

theorem setUnit_onward {c x : Nat} {u : Units} (h : u.rings = (s.unit c x).rings) : Onward s (s.setUnit c x u) := by
  refine .of_eq ?_ rfl
  refine congrArg (fun q => { s.slotView with rings := q }) (funext fun d => funext fun y => ?_)
  change (Tab.get {} (Tab.put s.units (c * 128 + x) u) (d * 128 + y)).rings = (Tab.get {} s.units (d * 128 + y)).rings
  rw [Tab.get_put]
  split
  next e => rw [e]; exact h
  next => rfl

theorem queued_map (t : Tab (List Request)) (g : Request → Request) :
    queued (t.map (fun b => (b.1, b.2.map g))) = (queued t).map g := by
  simp [queued, List.map_flatten, Function.comp_def]

theorem mapAccess_onward {g : Request → Request} {b : Response → Response}
    (hg : ∀ r, ((g r).agent, (g r).place, (g r).size) = (r.agent, r.place, r.size)) : Onward s (s.mapAccess g b) := by
  refine .of_eq rfl ?_
  have hmap : (s.mapAccess g b).inFlight = s.inFlight.map g := by
    simp only [State.inFlight, State.mapAccess, queued_map, List.map_append]
  simp only [State.flights, hmap, List.map_map, Function.comp_def, hg]

/-- A table's queue that only grows loses no request. -/
theorem queued_put {t : Tab (List Request)} {k : Nat} {l : List Request} (h : Tab.get [] t k ⊆ l) :
    queued t ⊆ queued (Tab.put t k l) := by
  induction t with
  | nil => exact List.nil_subset _
  | cons e t ih =>
    obtain ⟨a, w⟩ := e
    unfold Tab.put
    unfold Tab.get at h
    split
    next hk =>
      rw [if_pos hk] at h
      simp only [queued, List.map_cons, List.flatten_cons]
      exact List.append_subset.mpr ⟨List.Subset.trans h (List.subset_append_left ..), List.subset_append_right ..⟩
    next hk =>
      rw [if_neg hk] at h
      split
      · exact List.subset_append_right ..
      · simp only [queued, List.map_cons, List.flatten_cons]
        exact List.append_subset.mpr ⟨List.subset_append_left .., List.Subset.trans (ih h) (List.subset_append_right ..)⟩

theorem forsake_onward (test : Agent → Nat → Place → Nat → ReqKind → Bool → Bool) : Onward s (s.forsake test) := by
  unfold State.forsake
  extract_lets out back t
  have ht : Onward s t := mapAccess_onward fun r => by split <;> rfl
  exact ht.trans (.of_eq rfl rfl)

theorem dropAhead_onward (ag : Agent) (ctx : Nat) (pl : Place) : Onward s (s.dropAhead ag ctx pl) := by
  unfold State.dropAhead
  exact .ite (forsake_onward _) (.refl s)

theorem reqNet_onward (r : Request) : Onward s { s with reqNet := s.reqNet ++ [r] } := by
  refine ⟨rfl, List.map_subset _ ?_⟩
  exact List.append_subset.mpr ⟨List.subset_append_left ..,
    List.Subset.trans (List.subset_append_left ..) (List.subset_append_right ..)⟩

theorem bankQ_onward {b : Nat} {r : Request} :
    Onward s { s with bankQ := Tab.put s.bankQ b (Tab.get [] s.bankQ b ++ [r]) } := by
  refine ⟨rfl, List.map_subset _ ?_⟩
  have hq : queued s.bankQ ⊆ queued (Tab.put s.bankQ b (Tab.get [] s.bankQ b ++ [r])) :=
    queued_put (List.subset_append_left ..)
  unfold State.inFlight
  simp only [List.append_assoc]
  exact List.append_subset.mpr ⟨List.Subset.trans hq (List.subset_append_left ..), List.subset_append_right ..⟩

theorem noteDest_onward {r : Request} : Onward s (s.noteDest r) := by
  unfold State.noteDest
  split
  · split
    · exact setBank_onward rfl
    · exact .of_eq rfl rfl
    · exact setUnit_onward rfl
    · exact .refl s
  · exact .refl s

theorem pathFor_onward (r : Request) : Onward s (pathFor s r).1 := by
  unfold pathFor
  split
  · exact .refl s
  · exact .of_eq rfl rfl

theorem sendSeq_onward (p : Place) (ctx : Nat) : Onward s (s.sendSeq p ctx) := by
  unfold State.sendSeq
  split
  · exact .of_eq rfl rfl
  · exact .refl s

theorem sendReq_onward (r : Request) : Onward s (s.sendReq r) := by
  unfold State.sendReq
  extract_lets u
  have hu : Onward s u := dropAhead_onward _ _ _
  clear_value u
  refine hu.trans ?_
  split
  next p =>
    extract_lets q own v
    have hv : Onward u v := by
      unfold v
      split
      · exact bankQ_onward
      · exact reqNet_onward r
    clear_value v
    exact hv.trans noteDest_onward
  next =>
    split
    next v path hp =>
      have hv : Onward u v := by
        have h := pathFor_onward (s := u) r
        rwa [hp] at h
      have hw : Onward v (v.sendSeq r.place r.ctx) := sendSeq_onward _ _
      refine .trans ?_ noteDest_onward
      exact (hv.trans hw).trans (.of_eq rfl rfl)
  next => exact reqNet_onward r

-- Publishing.

theorem setCset_onward {core line : Nat} {l : List CacheLine} : Onward s (s.setCset core line l) := setCore_onward rfl rfl

theorem newer_onward (line : Nat) : Onward s (s.newer line) := by
  unfold State.newer
  extract_lets core ctx
  split
  · exact .refl s
  · extract_lets mate u other v
    have hu : Onward s u := mapAccess_onward fun r => by split <;> rfl
    clear_value u
    have hv : Onward u v := setCset_onward
    clear_value v
    refine (hu.trans hv).trans (.foldl (fun w i => ?_) _ _)
    exact .ite (.refl w) (setBank_onward rfl)

theorem sendStore_onward (r : Request) : Onward s (sendStore s r) := by
  unfold sendStore
  exact .ite (modMe_onward fun _ => rfl) (sendReq_onward r)

theorem publish_onward (line vline : Nat) (d : V512) (m : W64) (leaves : List TlbEntry) :
    Onward s (publish s line vline d m leaves) := by
  unfold publish
  split
  · exact .refl s
  · extract_lets va
    split
    · exact .refl s
    · exact (sendStore_onward _).trans (newer_onward _)

theorem settleLine_onward (core : Nat) (c : CacheLine) : Onward s (settleLine s core c) := by
  unfold settleLine
  extract_lets l
  split <;> exact setCset_onward

theorem publishLines_onward (l : List CacheLine) : Onward s (publishLines s l) := by
  induction l generalizing s with
  | nil => exact .refl s
  | cons c l ih => exact ((publish_onward _ _ _ _ _).trans (settleLine_onward _ _)).trans ih

theorem spillOut_onward (core : Nat) (c : CacheLine) : Onward s (spillOut s core c) := by
  unfold spillOut
  split
  · exact .refl s
  · exact setBank_onward rfl

theorem wayFree_onward {t : State} {core line : Nat} (h : wayFree s core line = some t) : Onward s t := by
  unfold wayFree at h
  dsimp only at h
  split at h
  · cases h; exact .refl s
  · split at h
    · cases h; exact setCset_onward
    · split at h
      · obtain ⟨c, -, rfl⟩ := Option.map_eq_some_iff.mp h
        exact setCset_onward.trans (spillOut_onward _ _)
      · cases h

theorem settleSpill_onward (q : SpillLine) : Onward s (settleSpill s q) := by
  unfold settleSpill
  extract_lets line core c l
  split
  · exact setCset_onward
  · split
    next t ht => exact (wayFree_onward ht).trans setCset_onward
    next => exact .refl s

theorem publishSpills_onward (l : List SpillLine) : Onward s (publishSpills s l) := by
  induction l generalizing s with
  | nil => exact .refl s
  | cons q l ih =>
    exact ((publish_onward _ _ _ _ _).trans ((modMe_onward (g := fun h => { h with spill := h.spill.erase q }) fun _ => rfl).trans
      (settleSpill_onward _))).trans ih

theorem publishAll_onward {t : State} {sel : Nat → Nat → Bool} (h : publishAll s sel = .ok t) : Onward s t := by
  obtain ⟨_, -, h⟩ := bind_ok.mp h
  dsimp only at h
  split at h
  · cases h
  · cases h
    exact (publishLines_onward _).trans (publishSpills_onward _)

-- Releases and acquires.

theorem flushRound_onward {t : State} (h : flushRound s = .ok t) : Onward s t := by
  obtain ⟨u, hu, h⟩ := bind_ok.mp h
  cases h
  refine .trans ?_ (modMe_onward fun _ => rfl)
  unfold flushFor at hu
  dsimp only at hu
  split at hu
  · cases hu
  · split at hu
    · cases hu; exact .of_eq rfl rfl
    · cases hu

theorem performedAt_onward {t : State} {scope : Nat} (h : performedAt s scope = .ok t) : Onward s t := by
  unfold performedAt at h
  split at h
  · obtain ⟨_, -, h⟩ := bind_ok.mp h
    obtain ⟨u, hu, h⟩ := bind_ok.mp h
    obtain ⟨_, -, h⟩ := bind_ok.mp h
    obtain ⟨_, -, h⟩ := bind_ok.mp h
    cases h
    exact flushRound_onward hu
  · obtain ⟨_, -, h⟩ := bind_ok.mp h
    cases h
    exact .refl s

theorem inRelease_ok {α : Type} {r : Act α} {a : α} : inRelease r = .ok a ↔ r = .ok a := by
  match r with
  | .ok _ => exact Iff.rfl
  | .error (.wait _) => simp [inRelease]
  | .error (.fault _ _) => simp [inRelease]

theorem release_onward {t : State} {scope : Nat} (h : release s scope = .ok t) : Onward s t := by
  obtain ⟨_, -, h⟩ := bind_ok.mp h
  have h := inRelease_ok.mp h
  dsimp only at h
  split at h
  · obtain ⟨u, hu, h⟩ := bind_ok.mp h
    obtain ⟨v, hv, h⟩ := bind_ok.mp h
    exact ((performedAt_onward hu).trans (publishAll_onward hv)).trans (performedAt_onward h)
  · obtain ⟨u, hu, h⟩ := bind_ok.mp h
    cases hu
    obtain ⟨v, hv, h⟩ := bind_ok.mp h
    exact (publishAll_onward hv).trans (performedAt_onward h)

theorem dropCleanAll_onward (hid ctx : Nat) : Onward s (dropCleanAll s hid ctx) := by
  unfold dropCleanAll
  extract_lets core k u mine v
  have hu : Onward s u := setCore_onward rfl rfl
  clear_value u
  have hv : Onward u v := .of_eq rfl rfl
  clear_value v
  exact (hu.trans hv).trans (.of_eq rfl rfl)

theorem staleLines_onward (hid ctx : Nat) : Onward s (staleLines s hid ctx) := by
  unfold staleLines
  extract_lets core o k old u v w
  have hu : Onward s u := setCore_onward rfl rfl
  clear_value u
  have hw : Onward u w := by
    unfold w
    split
    · exact .refl u
    · exact setUnit_onward rfl
  clear_value w
  refine (hu.trans hw).trans (.foldl (fun x i => ?_) _ _)
  exact .ite (.refl x) (setBank_onward rfl)

theorem acquire_onward : Onward s (acquire s) := by
  unfold acquire acquireFor
  exact (dropCleanAll_onward _ _).trans (staleLines_onward _ _)

-- Read-modify-writes.

theorem dropRegion_onward (core ctx : Nat) (r : Region) : Onward s (dropRegion s core ctx r) := by
  unfold dropRegion
  extract_lets k clean
  exact .ite (setCore_onward rfl rfl) (.refl s)

theorem afterInterlock_onward : Onward s (afterInterlock s) := by
  unfold afterInterlock
  refine .ite (.refl s) ?_
  refine .trans (t := s.modMe (fun h => { h with waited := [] })) (modMe_onward fun _ => rfl) (.foldl (fun u w => ?_) _ _)
  exact dropRegion_onward _ _ _

theorem trip_onward {t : State} {r : Request} {q : Response} (h : trip s r = .ok (t, q)) : Onward s t := by
  rcases trip_ok h with ⟨_, _, rfl, _⟩ | ⟨_, _, rfl⟩
  · exact .refl _
  · exact .trans (t := { s with inbox := s.inbox.erase q }) (.of_eq rfl rfl) (dropAhead_onward _ _ _)

theorem spadWrite_onward (core ctx off : Nat) (bs : List Byte) : Onward s (spadWrite s core ctx off bs) :=
  .trans (t := { s with spad := Mem.writeL s.spad (spadKey core ctx off) bs }) (.of_eq rfl rfl) (setUnit_onward rfl)

end

end Sys2Proof.Machine

end

section
/-! PROOFS. Where an atomic and its result write (R189, R361 to R365), and the obligation on the bytes of stores, atomics
and performed requests. -/

namespace Sys2Proof.Machine

open Sys2Proof.Safety

theorem Sat.and_ok {ε α : Type} {E : ε → Prop} {Q R : α → Prop} {x : Except ε α} (hx : Sat E Q x)
    (hr : ∀ a, x = .ok a → R a) : Sat E (fun a => Q a ∧ R a) x := by
  cases hx with
  | ok h => exact .ok ⟨h, hr _ rfl⟩
  | error h => exact .error h

-- The local slot of a producer handle.

theorem linkEnd_not_local {s : State} {n : Fin 16} {k : Nat} {r : Ring} : linkEnd s n ≠ .ok (.local_ k r) := by
  intro h
  unfold linkEnd at h
  dsimp only at h
  split at h
  · cases h
  · split at h
    · cases h
    · simp at h

/-- A producer handle is local when it is bound so to a ring of neither a tour nor a stage. -/
theorem producerEnd_local {s : State} {n : Fin 16} {k : Nat} {r : Ring} : producerEnd s n = .ok (.local_ k r) ↔
    (s.core s.myCore).todo.contains 0 = false ∧ qbBound s.me.qbind[n] = true ∧ qbMode s.me.qbind[n] = 0 ∧
      (r.tour || r.stage) = false ∧ k = n.val ∧ r = s.ring s.myCore s.myCtx n.val := by
  unfold producerEnd unitsReady
  simp only [bind_ok, waitFor_ok, need_ok, Bool.not_eq_true', exists_and_left, exists_const]
  refine and_congr_right fun _ => and_congr_right fun _ => ?_
  match qbMode s.me.qbind[n] with
  | 0 =>
    by_cases ht : ((s.ring s.myCore s.myCtx n.val).tour || (s.ring s.myCore s.myCtx n.val).stage) = true
    · rw [if_pos ht]
      constructor
      · intro h; cases h
      · rintro ⟨-, hr, -, rfl⟩; rw [ht] at hr; cases hr
    · rw [if_neg ht]
      constructor
      · intro h; cases h; exact ⟨rfl, by simpa using ht, rfl, rfl⟩
      · rintro ⟨-, -, rfl, rfl⟩; rfl
  | 1 => simp [linkEnd_not_local]
  | 2 => simp [fail]
  | m + 3 =>
    change (if roleOf s.me n == 1 then fail s (queueFault 1) else linkEnd s n) = .ok (.local_ k r) ↔ _
    split <;> simp [fail, linkEnd_not_local]

theorem queueReady_local {s : State} {n : Fin 16} {c : Fin 32} {k : Nat} {r : Ring} :
    queueReady s n c = .ok (.local_ k r) ↔ producerEnd s n = .ok (.local_ k r) ∧ c.val < r.count ∧ c.val + 1 ≤ r.free ∧
      slotFree s (s.myCore, r.slotOff (r.pp + c.val)) = true := by
  constructor
  · intro h
    obtain ⟨e, he, h⟩ := bind_ok.mp h
    obtain ⟨_, hq, h⟩ := bind_ok.mp h
    obtain ⟨_, hw, h⟩ := bind_ok.mp h
    cases h
    have hw := waitFor_ok.mp hw
    simp only [hasRoom, Handle.slotAt, Bool.and_eq_true, decide_eq_true_eq] at hw
    exact ⟨he, of_decide_eq_true (need_ok.mp hq), hw.1, hw.2⟩
  · rintro ⟨he, hc, hroom, hfree⟩
    refine bind_ok.mpr ⟨_, he, bind_ok.mpr ⟨(), need_ok.mpr (decide_eq_true hc), bind_ok.mpr ⟨(), waitFor_ok.mpr ?_, rfl⟩⟩⟩
    simp only [hasRoom, Handle.slotAt, Bool.and_eq_true, decide_eq_true_eq]
    exact ⟨hroom, hfree⟩

/-- Whether requests go to one bank of a scratchpad does not depend on the state. -/
theorem bankAt_spad (s t : State) (p : Place) (c o : Nat) :
    (bankAt s p == bankAt s (.spad c o)) = (bankAt t p == bankAt t (.spad c o)) := by
  cases p with
  | mem a => simp [bankAt]
  | _ => rfl

namespace Onward

section
variable {s t : State} (h : Onward s t)
include h

theorem orderBusy {ag : Agent} {c o n : Nat} (hb : orderBusy t ag (.spad c o) n = false) :
    Machine.orderBusy s ag (.spad c o) n = false := by
  refine List.any_eq_false.mpr fun r hr hbefore => ?_
  obtain ⟨q, hq, e⟩ := List.mem_map.mp (h.flights (List.mem_map.mpr ⟨r, hr, rfl⟩))
  obtain ⟨hag, hpl, hsz⟩ : q.agent = r.agent ∧ q.place = r.place ∧ q.size = r.size := by simpa using e
  refine List.any_eq_false.mp hb q hq ?_
  rw [Request.before, hag, hpl, hsz, bankAt_spad t s]
  exact hbefore

theorem slotFree {c o : Nat} (hf : slotFree t (c, o) = true) : Machine.slotFree s (c, o) = true := by
  unfold Machine.slotFree at hf ⊢
  simp only [Bool.and_eq_true, Bool.not_eq_true', regionReady, h.todo, h.cur] at hf ⊢
  exact ⟨h.orderBusy hf.1, hf.2⟩

/-- A local slot that has room later had it before, and is the same slot. -/
theorem queueReady {n : Fin 16} {c : Fin 32} {k : Nat} {r : Ring} (hq : queueReady t n c = .ok (.local_ k r)) :
    Machine.queueReady s n c = .ok (.local_ k r) := by
  obtain ⟨hp, hc, hroom, hfree⟩ := queueReady_local.mp hq
  refine queueReady_local.mpr ⟨?_, hc, hroom, h.slotFree (by rwa [← h.myCore])⟩
  rw [producerEnd_local] at hp ⊢
  have hring : t.ring t.myCore t.myCtx n.val = s.ring s.myCore s.myCtx n.val := by
    simp only [State.ring, h.rings, h.myCore, h.myCtx]
  rwa [h.todo, h.me_qbind, hring, h.myCore] at hp

end

end Onward

-- Results.

section
variable {I : MemInv} {f : Fmt} {s u : State}

/-- A property of the scratchpads survives a write of the slot that an instruction's destination names. -/
def MemInv.SlotWithin (I : MemInv) (f : Fmt) (s : State) : Prop :=
  ∀ n c k r, f.d = .q n c → queueReady s n c = .ok (.local_ k r) →
    I.SpadWithin (spadKey s.myCore s.myCtx (r.slotOff (r.pp + c.val))) 64

theorem dst64_within {v : W64} (hw : I.SlotWithin f s) (h : Onward s u) (hu : I.On u) :
    Sat I.stop I.On (dst64 u f.d v) := by
  unfold dst64
  split
  next => exact .ok hu
  next => exact .ok hu
  next n c hd =>
    refine Sat.bind ((queueReady_keeps hu).and_ok fun _ he => he) fun e ⟨_, he⟩ => .ok ?_
    cases e with
    | local_ k r =>
      have hslot := hw n c k r hd (h.queueReady he)
      rw [← h.myCore, ← h.myCtx] at hslot
      exact spadWrite_within (d := 0) hslot (by simp only [bytesOf, leBytes_length, le_refl, Nat.zero_add]) hu
    | link key l => exact hu
  next => exact .ok hu

theorem put64_within {v : W64} (hw : I.SlotWithin f s) (h : Onward s u) (hu : I.On u) :
    Sat I.stop I.On (put64 f u v) := by
  unfold put64
  refine Sat.bind (dstReady_keeps hu) fun _ _ => Sat.bind (dst64_within hw ?_ ?_) fun t ht => .ok ht
  · exact h.trans (modMe_onward fun m => Hart.lastUse_qbind m f)
  · exact hu

-- Atomics.

section
variable {t : Target} {va : W64} {op : RmwOp} {ty : Ty} {b off : Nat}

theorem rmwOwn_within (hw : I.SpadWithin (spadKey s.myCore s.myCtx off) (ty.width / 8)) (hs : I.On s) :
    Sat I.stop (fun p => I.On p.1) (rmwOwn s off op ty b) := by
  unfold rmwOwn
  extract_lets n pl u old
  refine Sat.bind (waitFor_keeps hs) fun _ _ => ?_
  have hd : I.On u := State.dropAhead_keeps hs
  have ho : Onward s u := dropAhead_onward _ _ _
  clear_value old u
  split
  · rw [ho.myCore, ho.myCtx]
    exact .ok (spadWrite_within (d := 0) hw (by simp [bytesOf, n]) hd)
  · exact .ok hd

theorem rmwOwn_onward {p : State × Nat} (h : rmwOwn s off op ty b = .ok p) : Onward s p.1 := by
  unfold rmwOwn at h
  obtain ⟨_, -, h⟩ := bind_ok.mp h
  dsimp only at h
  split at h
  · cases h
    exact (dropAhead_onward _ _ _).trans (spadWrite_onward _ _ _ _)
  · cases h
    exact dropAhead_onward _ _ _

theorem rmwTrip_onward {pl : Place} {leaf : Option TlbEntry} {p : State × Nat}
    (h : rmwTrip s pl leaf va op ty b = .ok p) : Onward s p.1 := by
  obtain ⟨⟨u, q⟩, hu, h⟩ := bind_ok.mp h
  obtain ⟨_, -, h⟩ := bind_ok.mp h
  cases h
  exact trip_onward hu

theorem rmwAt_within (hw : ∀ off, t = .spad s.myCore off → I.SpadWithin (spadKey s.myCore s.myCtx off) (ty.width / 8))
    (hs : I.On s) : Sat I.stop (fun p => I.On p.1) (rmwAt s t va op ty b) := by
  unfold rmwAt
  refine Sat.bind (interlock_keeps hs) fun _ _ => ?_
  have hd : I.On (afterInterlock s) := afterInterlock_keeps hs
  have ho : Onward s (afterInterlock s) := afterInterlock_onward
  generalize afterInterlock s = u at hd ho
  dsimp only
  split
  next core off =>
    split
    next hc =>
      refine rmwOwn_within ?_ hd
      rw [ho.myCore, ho.myCtx]
      exact hw off (by rw [hc, ho.myCore])
    next => exact Sat.bind (waitFor_keeps hd) fun _ _ => rmwTrip_keeps hd
  next =>
    split
    · exact rmwTrip_keeps hd
    · exact fail_keeps hd
  next => exact fail_keeps hd

theorem rmwAt_onward {p : State × Nat} (h : rmwAt s t va op ty b = .ok p) : Onward s p.1 := by
  unfold rmwAt at h
  obtain ⟨_, -, h⟩ := bind_ok.mp h
  refine afterInterlock_onward.trans ?_
  dsimp only at h
  split at h
  · split at h
    · exact rmwOwn_onward h
    · obtain ⟨_, -, h⟩ := bind_ok.mp h
      exact rmwTrip_onward h
  · split at h
    · exact rmwTrip_onward h
    · cases h
  · cases h

theorem rmwAnswer_onward {p : State × Nat} (h : rmwAnswer s va ty = .ok p) : Onward s p.1 := by
  unfold rmwAnswer at h
  split at h
  · cases h
  · obtain ⟨_, -, h⟩ := bind_ok.mp h
    cases h
    exact .of_eq rfl rfl

end

/-- What follows an atomic's release starts from a state further on. -/
theorem afterRelease_within {Q : State × Nat → Prop} {body : State → Act (State × Nat)} (hs : I.On s)
    (hb : ∀ u, Onward s u → I.On u → Sat I.stop Q (body u)) : Sat I.stop Q (afterRelease f s body) := by
  unfold afterRelease
  split
  · refine Sat.bind ((release_keeps hs).and_ok fun _ h => release_onward h) fun u ⟨hu, ho⟩ => ?_
    split
    · exact inRelease_keeps (hb u ho hu)
    · exact hb u ho hu
  · exact hb s (.refl s) hs

/-- A property of the scratchpads survives a write of the bytes that an atomic of the own core names. -/
def MemInv.OwnWithin (I : MemInv) (f : Fmt) (s : State) : Prop :=
  ∀ off, atomicTarget s (xval s f.a) (f.ty.width / 8) false = .ok (.spad s.myCore off) →
    I.SpadWithin (spadKey s.myCore s.myCtx off) (f.ty.width / 8)

theorem atomicRun_within {op : RmwOp} {b : Nat} (hslot : I.SlotWithin f s) (hown : I.OwnWithin f s) (hs : I.On s) :
    Sat I.stop I.On (atomicRun f s op b) := by
  have hput : ∀ p : State × Nat, I.On p.1 ∧ Onward s p.1 →
      Sat I.stop I.On (put64 f (if immAcq f then acquire p.1 else p.1) (extend f.ty p.2)) := fun p ⟨hp, ho⟩ =>
    put64_within hslot (.ite (ho.trans acquire_onward) ho) (MemInv.On.ite (acquire_keeps hp) hp)
  unfold atomicRun
  dsimp only
  split
  · exact Sat.bind ((rmwAnswer_keeps hs).and_ok fun _ h => rmwAnswer_onward h) hput
  · refine Sat.bind ((atomicTarget_keeps hs).and_ok fun _ h => h) fun t ⟨_, ht⟩ => ?_
    refine Sat.bind (afterRelease_within hs fun u ho hu => ?_) hput
    refine Sat.and_ok ?_ fun p hp => ho.trans (rmwAt_onward hp)
    refine rmwAt_within (fun off e => ?_) hu
    rw [ho.myCore, ho.myCtx]
    exact hown off (by rw [ht, e, ho.myCore])

/-- The two forms of an atomic run by the same body. -/
theorem atomic_within {mk : Fmt → Instr} (hmk : mk ∈ [Instr.amo, .cas]) (hslot : I.SlotWithin f s)
    (hown : I.OwnWithin f s) (hs : I.On s) : I.Next (exec (mk f) s) := by
  simp only [List.mem_cons, List.not_mem_nil, or_false] at hmk
  rcases hmk with rfl | rfl
  · change I.Next (execAmo f s)
    unfold execAmo
    refine scalarRun_keeps hs (Sat.bind (src64_keeps hs) fun _ _ => ?_)
    exact Sat.bind (dstReady_keeps hs) fun _ _ => atomicRun_within hslot hown hs
  · change I.Next (execCas f s)
    unfold execCas
    exact scalarRun_keeps hs (Sat.bind (src64_keeps hs) fun _ _ => atomicRun_within hslot hown hs)

/-- A store leaves the memories to its request. -/
theorem store_keeps {mk : Fmt → Instr} (hmk : mk ∈ [Instr.st, .stp, .vst, .vstx, .vsts, .amored]) (hs : I.On s) :
    I.Next (exec (mk f) s) := by
  simp only [List.mem_cons, List.not_mem_nil, or_false] at hmk
  rcases hmk with rfl | rfl | rfl | rfl | rfl | rfl
  · exact execSt_keeps hs
  · exact execStp_keeps hs
  · exact execVst_keeps hs
  · exact execVstx_keeps hs
  · exact execVsts_keeps hs
  · exact execAmored_keeps hs

end

theorem MemInv.Next.of_next {I : MemInv} {r : Result} {t : State} (h : I.Next r) (e : r = .next t) : I.On t := by
  rw [e] at h
  exact h.on

/-- The scratchpads in their canonical form, with one byte as it was. -/
def MemInv.spadByte (s : State) (a : Nat) : MemInv where
  mem _ := True
  spad m := Mem.wf m = true ∧ Mem.read m a = Mem.read s.spad a

theorem MemInv.spadByte_within {s : State} {a p n : Nat} (ha : a < p ∨ p + n ≤ a) : (MemInv.spadByte s a).SpadWithin p n :=
  fun m q bs hq hl hm =>
    ⟨Mem.writeL_wf q bs hm.1, (Mem.read_writeL_outside q bs hm.1 a (by omega)).trans hm.2⟩

/-- Device memory as it is. -/
def MemInv.memSame (s : State) : MemInv where
  mem := (· = s.mem)
  spad _ := True

/-- Device memory as it is outside the `n` bytes from `p` up, and the scratchpads as they are. -/
def MemInv.memOutside (s : State) (p n : Nat) : MemInv where
  mem := Mem.AsOutside s.mem p n
  spad := (· = s.spad)

theorem MemInv.memOutside_within (s : State) (p n : Nat) : (MemInv.memOutside s p n).MemWithin p n :=
  fun _ _ _ hq hl hm => hm.writeL hq hl

/-- The scratchpads as they are outside the `n` bytes from `p` up, and device memory as it is. -/
def MemInv.spadOutside (s : State) (p n : Nat) : MemInv where
  mem := (· = s.mem)
  spad := Mem.AsOutside s.spad p n

theorem MemInv.spadOutside_within (s : State) (p n : Nat) : (MemInv.spadOutside s p n).SpadWithin p n :=
  fun _ _ _ hq hl hm => hm.writeL hq hl

/-- An atomic leaves device memory to its request. -/
theorem atomic_mem {mk : Fmt → Instr} {f : Fmt} {s t : State} (hmk : mk ∈ [Instr.amo, .cas])
    (h : exec (mk f) s = .next t) : t.mem = s.mem := by
  have hw : ∀ p n, (MemInv.memSame s).SpadWithin p n := fun _ _ _ _ _ _ _ _ => trivial
  have hs : (MemInv.memSame s).On s := ⟨rfl, trivial⟩
  exact ((atomic_within hmk (fun _ _ _ _ _ _ => hw _ _) (fun _ _ => hw _ _) hs).of_next h).1

/-- An atomic of a scratchpad touches the bytes that it names and its result's slot alone. -/
theorem atomic_spad {mk : Fmt → Instr} {f : Fmt} {s t : State} {core off a : Nat} (hwf : Mem.wf s.spad = true)
    (hmk : mk ∈ [Instr.amo, .cas]) (h : exec (mk f) s = .next t)
    (ht : atomicTarget s (xval s f.a) (f.ty.width / 8) false = .ok (.spad core off)) (hslot : OffSlot f s a)
    (ha : a < spadKey core (s.ctxOf core) off ∨ spadKey core (s.ctxOf core) off + f.ty.width / 8 ≤ a) :
    Mem.read t.spad a = Mem.read s.spad a := by
  have hown : (MemInv.spadByte s a).OwnWithin f s := fun off' ht' => by
    rw [ht] at ht'
    injection ht' with e
    injection e with hc ho
    subst ho hc
    exact MemInv.spadByte_within ha
  have hs : (MemInv.spadByte s a).On s := ⟨trivial, hwf, rfl⟩
  exact ((atomic_within hmk (fun n c k r hd hq => MemInv.spadByte_within (hslot n c k r hd hq)) hown hs).of_next h).2.2

/-- Settles O54: stores leave the memories as they are; a performed request and an atomic write within their bytes. -/
theorem storesTouchOnlyTheirBytes : Obligations.StoresTouchOnlyTheirBytes := by
  unfold Obligations.StoresTouchOnlyTheirBytes
  intro f s t hmem hspad outside
  refine ⟨fun mk hmk h => (store_keeps hmk (MemInv.same_on s)).of_next h, fun bank n p r hr hp he h => ?_,
    fun n core off r hr hp h => ?_, fun mk hmk h => ⟨atomic_mem hmk h, fun core off ht a hslot ha =>
      atomic_spad hspad hmk h ht hslot ha⟩⟩
  · have hs : (MemInv.memOutside s p (memSpan r)).On s := ⟨Mem.asOutside_self hmem _ _, rfl⟩
    obtain ⟨hm, hsp⟩ := (columnCommand_within hr hp he (MemInv.memOutside_within s p _) hs).of_next h
    exact ⟨hsp, hm.2⟩
  · have hs : (MemInv.spadOutside s (spadKey core (if r.ctx = sysCtx then s.ctxOf core else r.ctx) off) (spadSpan r)).On s :=
      ⟨rfl, Mem.asOutside_self hspad _ _⟩
    obtain ⟨hm, hsp⟩ := (scratch_within hr hp (MemInv.spadOutside_within s _ _) hs).of_next h
    exact ⟨hm, hsp.2⟩

end Sys2Proof.Machine

end

section
/-! PROOFS. The steading's management commands (R507 to R511): a ticket that is not in use, a context's meters zeroed, and
what each command answers. -/

namespace Sys2Proof

/-- A key that a table's filter refuses reads as the default. -/
theorem Tab.get_filter_refused {α : Type} (d : α) (t : Tab α) {p : Nat × α → Bool} {k : Nat} (h : ∀ v, p (k, v) = false) :
    Tab.get d (t.filter p) k = d := by
  induction t with
  | nil => rfl
  | cons e t ih =>
    obtain ⟨a, w⟩ := e
    by_cases ha : a = k
    · rw [List.filter_cons_of_neg (by simp [ha, h]), ih]
    · rw [List.filter_cons]
      split
      · rw [Tab.get, if_neg ha, ih]
      · exact ih

/-- Of more different keys than a table has entries, one is not in use. -/
theorem Tab.exists_unused {α : Type} {t : Tab α} {l : List Nat} (hl : l.Nodup) (h : t.length < l.length) :
    ∃ n ∈ l, t.any (fun e => e.1 == n) = false := by
  by_contra hall
  have hsub : l ⊆ t.map Prod.fst := fun n hn => by
    have hused : t.any (fun e => e.1 == n) = true := by
      by_contra hu
      exact hall ⟨n, hn, eq_false_of_ne_true hu⟩
    obtain ⟨e, he, hk⟩ := List.any_eq_true.mp hused
    exact List.mem_map.mpr ⟨e, he, beq_iff_eq.mp hk⟩
  have hle := (List.subperm_of_subset hl hsub).length_le
  rw [List.length_map] at hle
  omega

namespace Machine

-- Meters zeroed (R510).

/-- Without counted activity and without a static share there is no energy. -/
theorem energy_eq_zero {s : State} {ctx : Nat} (h : ∀ i, i < 12 → s.count ctx i = 0) : s.energy ctx = 0 := by
  have hsum : ∀ l : List Nat, (∀ i ∈ l, i < 11) →
      l.foldl (fun e i => e + Config.energyPer i * s.count ctx i) 0 = 0 := fun l => by
    induction l with
    | nil => exact fun _ => rfl
    | cons i l ih =>
      intro hl
      have hi : s.count ctx i = 0 := h i (by have := hl i (List.mem_cons_self ..); omega)
      rw [List.foldl_cons, hi]
      exact ih fun j hj => hl j (List.mem_cons_of_mem _ hj)
  rw [State.energy, h 11 (by omega), hsum _ fun i hi => List.mem_range.mp hi, Nat.zero_div]

section
variable (s : State) {ctx i : Nat}

theorem zeroMeters_count (hi : i < 32) : (zeroMeters s ctx).count ctx i = 0 := by
  refine Tab.get_filter_refused 0 s.meters fun v => ?_
  have hctx : (ctx * 32 + i) / 32 = ctx := by omega
  simp [hctx]

theorem zeroMeters_meter (hi : i < 32) : (zeroMeters s ctx).meter ctx i = 0 := by
  unfold State.meter
  split
  · exact energy_eq_zero fun j hj => zeroMeters_count s (by omega)
  · exact zeroMeters_count s hi

end

-- READ_METERS (R510, R511).

/-- The machine once a context's final snapshot has been read: a slot that is free has its meters zeroed (R511). -/
def snapshotRead (s : State) (ctx : Nat) : State :=
  let t : State := { s with snapshots := Tab.drop s.snapshots ctx }
  if (s.slot ctx).st == .free then zeroMeters t ctx else t

theorem snapshotRead_time (s : State) (ctx : Nat) : (snapshotRead s ctx).time = s.time := by
  unfold snapshotRead
  split <;> rfl

theorem snapshotRead_snapshots (s : State) (ctx : Nat) : (snapshotRead s ctx).snapshots = Tab.drop s.snapshots ctx := by
  unfold snapshotRead
  split <;> rfl

theorem snapshotRead_free {s : State} {ctx : Nat} (h : (s.slot ctx).st = .free) :
    snapshotRead s ctx = zeroMeters { s with snapshots := Tab.drop s.snapshots ctx } ctx := if_pos (beq_iff_eq.mpr h)

theorem snapshotRead_kept {s : State} {ctx : Nat} (h : (s.slot ctx).st ≠ .free) :
    snapshotRead s ctx = { s with snapshots := Tab.drop s.snapshots ctx } := if_neg (by simpa using h)

section
variable {s : State} {ctx : Nat}

theorem readMeters_no_context (h : 64 ≤ ctx) : exec (.readMeters ctx) s = .next (answer s .invalid) := if_pos h

theorem readMeters_live (hc : ctx < 64) (h : s.snapshots.find? (fun e => e.1 == ctx) = none) :
    exec (.readMeters ctx) s = .next (answer s (.meters ctx (meterList s ctx) s.time)) := by
  change execReadMeters ctx s = _
  rw [execReadMeters, if_neg (Nat.not_le.mpr hc), h]

theorem readMeters_snapshot {e : Nat × List Nat} (hc : ctx < 64)
    (h : s.snapshots.find? (fun e => e.1 == ctx) = some e) :
    exec (.readMeters ctx) s = .next (answer (snapshotRead s ctx) (.meters ctx e.2 s.time)) := by
  change execReadMeters ctx s = _
  rw [execReadMeters, if_neg (Nat.not_le.mpr hc), h]
  exact congrArg (fun n => Host.Outcome.next (answer (snapshotRead s ctx) (.meters ctx e.2 n))) (snapshotRead_time s ctx)

end

-- WRITE_TRKCTL (R89).

theorem writeTrkctl_fields {s : State} {v : W64} : exec (.writeTrkctl v) s = .next (answer { s with
    trkctl := { thresh := slice v.toNat 31 16, epoch := slice v.toNat 7 4, en := v.getLsbD 0 } } .ok) := by
  have hen : v.getLsbD 0 = bitOf v.toNat 0 := Nat.testBit_eq_decide_div_mod_eq
  rw [hen]
  rfl

-- WRITE_TRAPBASE (R466, R507).

section
variable {s : State} {c : Nat} {v : W64}

theorem writeTrapbase_malformed (h : 64 ≤ c ∨ inHbm s v 64 = false ∨ dieOfLocal (v.toNat % 2 ^ 46) ≠ c / 8) :
    exec (.writeTrapbase c v) s = .next (answer s .invalid) := by
  refine if_pos ?_
  simpa [or_assoc] using h

theorem writeTrapbase_placed (hc : c < 64) (hb : inHbm s v 64 = true) (hd : dieOfLocal (v.toNat % 2 ^ 46) = c / 8) :
    exec (.writeTrapbase c v) s =
      if clusterFrozen s c then .next (answer s .notReady)
      else .next (answer { s.forsakeAll (.trap c) sysCtx with
        trapBase := Tab.put s.trapBase c v, trapUnits := Tab.drop s.trapUnits c } .ok) := by
  refine if_neg ?_
  rw [hb, hd]
  simpa using hc

end

-- RAISE_MGMT (R507) and SET_DEVIDX (R508).

section
variable {s : State} {h d : Nat}

theorem raiseMgmt_hart (hh : h < 4352) :
    exec (.raiseMgmt h) s = .next (answer (s.setHart h ((s.hart h).raise 7)) .ok) := if_pos hh

theorem raiseMgmt_no_hart (hh : 4352 ≤ h) : exec (.raiseMgmt h) s = .next (answer s .invalid) :=
  if_neg (Nat.not_lt.mpr hh)

theorem setDevidx_out (hd : 576 ≤ d) : exec (.setDevidx (some d)) s = .next (answer s .invalid) := if_pos hd

theorem setDevidx_index (hd : d < 576) : exec (.setDevidx (some d)) s =
    if s.slots.any (fun c => c.2.st == .active) || !s.domain.isEmpty then .next (answer s .notReady)
    else .next (answer { s with devidx := d } .ok) := if_neg (Nat.not_le.mpr hd)

end

-- FIRMWARE_UPDATE (R507).

theorem firmwareUpdate_malformed_type (s : State) {ty : Nat} (h0 : ty ≠ 0) (h2 : ty ≠ 2) :
    exec (.firmwareUpdate (.typed ty)) s = .next (answer s .invalid) := if_neg (by simp [h0, h2])

theorem firmwareUpdate_answered (s : State) {ty : Nat} (h : ty = 0 ∨ ty = 2) :
    exec (.firmwareUpdate (.typed ty)) s = .next (answer s.draw.1 (.pldm ty s.draw.2)) := if_pos (by simpa using h)

-- KEY_IMPORT (R509).

/-- The tickets that an import tries in order: 65 in a row, from one after the free choice, within 1 to 65535. -/
def ticketsFrom (base : Nat) : List Nat := (List.range 65).map (fun i => (base + i) % 65535 + 1)

theorem ticketsFrom_nodup (base : Nat) : (ticketsFrom base).Nodup := by
  refine List.Nodup.map_on (fun i hi j hj h => ?_) List.nodup_range
  rw [List.mem_range] at hi hj
  omega

theorem ticketsFrom_range {base n : Nat} (h : n ∈ ticketsFrom base) : 1 ≤ n ∧ n ≤ 65535 := by
  obtain ⟨i, _, rfl⟩ := List.mem_map.mp h
  omega

theorem newTicket_eq_find (s : State) : (newTicket s).2 = ((ticketsFrom (s.draw.2.toNat % 65535)).find?
    (fun n => !s.tickets.any (fun e => e.1 == n))).getD 1 := rfl

/-- While the import buffer has room, the first unused one of the tickets tried is given. -/
theorem newTicket_unused {s : State} (h : s.tickets.length < 64) :
    (newTicket s).2 ∈ ticketsFrom (s.draw.2.toNat % 65535) ∧ s.tickets.any (fun e => e.1 == (newTicket s).2) = false := by
  have hlen : s.tickets.length < (ticketsFrom (s.draw.2.toNat % 65535)).length := by
    rw [ticketsFrom, List.length_map, List.length_range]
    omega
  obtain ⟨m, hm, hu⟩ := Tab.exists_unused (ticketsFrom_nodup _) hlen
  have hsome : ((ticketsFrom _).find? (fun n => !s.tickets.any (fun e => e.1 == n))).isSome :=
    List.find?_isSome.mpr ⟨m, hm, by rw [hu]; rfl⟩
  obtain ⟨n, hn⟩ := Option.isSome_iff_exists.mp hsome
  rw [newTicket_eq_find, hn, Option.getD_some]
  exact ⟨List.mem_of_find?_eq_some hn, by simpa using List.find?_some hn⟩

section
variable {s : State} {ctx : Nat} (k : BitVec 256)

theorem keyImport_refused (h : 64 ≤ ctx ∨ (s.slot ctx).st ≠ .active ∨ 64 ≤ s.tickets.length) :
    exec (.keyImport ctx k) s = .next (answer s .noImport) := by
  refine if_pos ?_
  simpa [or_assoc] using h

theorem keyImport_given (hc : ctx < 64) (ha : (s.slot ctx).st = .active) (ht : s.tickets.length < 64) :
    exec (.keyImport ctx k) s = .next (answer { (newTicket s).1 with
      tickets := Tab.put s.tickets (newTicket s).2 { ctx := ctx, key := k } } (.ticket (newTicket s).2)) := by
  refine if_neg ?_
  simp [hc, ha, ht]

end

/-- Settles O35: one equation for each command and each answer it can give; a ticket is unused because the buffer of 64
holds fewer than the 65 that are tried. -/
theorem managementCommandResults : Obligations.ManagementCommandResults := by
  unfold Obligations.ManagementCommandResults
  intro s
  refine ⟨fun _ => readMeters_no_context, fun _ => readMeters_live, fun ctx e hc he => ?_, rfl, fun _ => writeTrkctl_fields,
    fun _ _ => writeTrapbase_malformed, fun c v hc hb hd => ⟨fun hf => ?_, fun hf => ?_⟩, fun _ _ => rfl, fun _ => rfl,
    fun _ => raiseMgmt_hart, fun _ => raiseMgmt_no_hart, fun _ => ⟨rfl, rfl, rfl⟩, rfl,
    fun _ => firmwareUpdate_malformed_type s, fun ty h => ?_, rfl, fun _ => setDevidx_out, fun d hd h => ?_,
    fun d hd hs hdom => ?_, fun _ k => keyImport_refused k, fun ctx k hc ha ht => ?_⟩
  · refine ⟨_, readMeters_snapshot hc he, rfl, snapshotRead_snapshots s ctx, fun hf i hi => ?_, fun hf => ?_⟩
    · rw [snapshotRead_free hf]
      exact zeroMeters_meter _ hi
    · rw [snapshotRead_kept hf]
      rfl
  · rw [writeTrapbase_placed hc hb hd, if_pos hf]
  · rw [writeTrapbase_placed hc hb hd, if_neg (by simp [hf])]
  · exact ⟨_, _, firmwareUpdate_answered s h, rfl, rfl, rfl⟩
  · rw [setDevidx_index hd, if_pos (by simpa using h)]
  · rw [setDevidx_index hd, if_neg (by simp [hs, hdom])]
  · obtain ⟨hmem, hfree⟩ := newTicket_unused ht
    obtain ⟨hlo, hhi⟩ := ticketsFrom_range hmem
    refine ⟨_, _, keyImport_given k hc ha ht, rfl, hlo, hhi, ?_, Tab.get_put_same _ _ _ _⟩
    simpa using hfree

end Machine

end Sys2Proof

end

section
/-! PROOFS. How an instruction without a result ends, the ordering instructions and cinv (R127 to R130, R247, R371), and
the lines that an acquire leaves in the data cache (R128). -/

namespace Sys2Proof

/-- A function of a table's values is applied to the one that is read. -/
theorem Tab.get_map_snd {α β : Type} (d : α) (g : α → β) (t : Tab α) (k : Nat) :
    Tab.get (g d) (t.map (fun e => (e.1, g e.2))) k = g (Tab.get d t k) := by
  induction t with
  | nil => rfl
  | cons e t ih =>
    simp only [List.map_cons, Tab.get]
    split
    · rfl
    · exact ih

namespace Machine

open Sys2Proof.Safety

-- How an instruction without a result ends.

section
variable {i : Instr} {f : Fmt} {s u : State} {b : Act State}

theorem ends_of_settle (hx : exec i s = settle b) (hb : b = .ok (passed (used f u))) : Ends i s (passed (used f u)) := by
  rw [Ends, hx, hb, settle_ok]

theorem ends_of_scalarRun (hx : exec i s = scalarRun f s b) (hg : guardOn f s = true) (hb : b = .ok (passed (used f u))) :
    Ends i s (passed (used f u)) :=
  ends_of_settle (hx.trans (scalarRun_on hg b)) hb

/-- A scalar instruction that does its part and delivers nothing. -/
theorem ends_of_part {part : Act State} (hx : exec i s = scalarRun f s (part >>= putNone f)) (hg : guardOn f s = true)
    (hp : part = .ok u) : Ends i s (passed (used f u)) :=
  ends_of_scalarRun hx hg (bind_ok.mpr ⟨u, hp, putNone_ok f u⟩)

end

-- The ordering instructions.

section
variable {f : Fmt} {s u : State} (hg : guardOn f s = true)
include hg

theorem phase_ends (h : release (if s.me.inRel then s else acquire s) (immScope f) = .ok u) :
    Ends (.phase f) s (passed (used f u)) := ends_of_part rfl hg h

theorem rel_ends (h : release s (immScope f) = .ok u) : Ends (.rel f) s (passed (used f u)) := ends_of_part rfl hg h

theorem acq_ends : Ends (.acq f) s (passed (used f (acquire s))) := ends_of_scalarRun rfl hg (putNone_ok f _)

theorem fenceSc_ends (h : fenceAt s (immScope f) = .ok u) : Ends (.fenceSc f) s (passed (used f u)) :=
  ends_of_part rfl hg h

theorem fenceIo_ends (hl : localWrites s = false) (h : fenceAt s (immScope f) = .ok u) :
    Ends (.fenceIo f) s (passed (used f u)) :=
  ends_of_scalarRun rfl hg
    (bind_ok.mpr ⟨(), waitFor_ok.mpr (by simp [hl]), bind_ok.mpr ⟨u, h, putNone_ok f u⟩⟩)

-- cinv (R247).

theorem cinvLine_ends (hc : canonical (effAddr (xval s f.a) f.imm) = true)
    (hd : (effAddr (xval s f.a) f.imm).getLsbD 55 = false) :
    Ends (.cinvLine f) s (passed (used f (keepILines s (fun l =>
      !(l.ctx == s.myCtx && l.line == (effAddr (xval s f.a) f.imm).toNat % 2 ^ 56 / 64))))) := by
  refine ends_of_scalarRun rfl hg ?_
  rw [← putNone_ok, if_pos (by rw [hc, hd]; rfl)]
  rfl

/-- A cinv of an address that no line has changes no line. -/
theorem cinvLine_nowhere
    (h : canonical (effAddr (xval s f.a) f.imm) = false ∨ (effAddr (xval s f.a) f.imm).getLsbD 55 = true) :
    Ends (.cinvLine f) s (passed (used f s)) := by
  refine ends_of_scalarRun rfl hg ?_
  rw [← putNone_ok, if_neg (by rcases h with h | h <;> simp [h])]
  rfl

theorem cinvAll_ends : Ends (.cinvAll f) s (passed (used f (keepILines s (fun l => l.ctx != s.myCtx)))) :=
  ends_of_scalarRun rfl hg (putNone_ok f _)

end

-- The lines that an acquire leaves (R128).

/-- Two cache lines of one place and owner, with the same data and dirty bytes. -/
def CacheLine.Alike (d c : CacheLine) : Prop :=
  d.ctx = c.ctx ∧ d.line = c.line ∧ d.owner = c.owner ∧ d.data = c.data ∧ d.mask = c.mask

theorem mem_dcache_dropCleanAll {s : State} {hid ctx k : Nat} {c : CacheLine} :
    c ∈ Tab.get [] ((dropCleanAll s hid ctx).core (coreOf hid)).dcache k ↔
      c ∈ Tab.get [] (s.core (coreOf hid)).dcache k ∧ ¬(c.ctx = ctx ∧ c.owner = none) := by
  have hcore : ((dropCleanAll s hid ctx).core (coreOf hid)).dcache = (s.core (coreOf hid)).dcache.map
      (fun e => (e.1, e.2.filter (fun c => !(c.ctx == ctx && c.owner == none)))) :=
    congrArg Core.dcache (core_setCore_same s _ _)
  rw [hcore, ← List.filter_nil, Tab.get_map_snd, List.mem_filter]
  simp [← imp_iff_not_or, Option.isSome_iff_ne_none]

/-- A step that leaves the cores alone, taken for each element of a list, does too. -/
theorem foldl_cores {α : Type} {g : State → α → State} (hg : ∀ s a, (g s a).cores = s.cores) (l : List α) (s : State) :
    (l.foldl g s).cores = s.cores := by
  induction l generalizing s with
  | nil => rfl
  | cons a l ih => exact (ih _).trans (hg s a)

/-- Lines that become stale stay in their core's cache, with their owners and bytes. -/
theorem staleLines_dcache (s : State) (hid ctx : Nat) : ∃ g : CacheLine → CacheLine, (∀ c : CacheLine, c.Alike (g c)) ∧
    ((staleLines s hid ctx).core (coreOf hid)).dcache =
      (s.core (coreOf hid)).dcache.map (fun e => (e.1, e.2.map g)) := by
  unfold staleLines
  extract_lets core o k old u v w
  have hold (c : CacheLine) : c.Alike (old c) := by
    unfold old
    split <;> exact ⟨rfl, rfl, rfl, rfl, rfl⟩
  refine ⟨fun c => if c.ctx == ctx && c.owner.isSome then old c else c, fun c => ?_, ?_⟩
  · dsimp only
    split
    · exact hold c
    · exact ⟨rfl, rfl, rfl, rfl, rfl⟩
  · have hw : w.cores = u.cores := by
      unfold w
      split <;> rfl
    have hcore : (u.core core).dcache = k.dcache.map (fun e =>
        (e.1, e.2.map (fun c => if c.ctx == ctx && c.owner.isSome then old c else c))) :=
      congrArg Core.dcache (core_setCore_same s _ _)
    refine (congrArg (fun t => (Tab.get {} t core).dcache) ((foldl_cores (fun x i => ?_) _ w).trans hw)).trans hcore
    dsimp only
    split <;> rfl

theorem mem_dcache_staleLines {s : State} {hid ctx k : Nat} {c : CacheLine}
    (h : c ∈ Tab.get [] ((staleLines s hid ctx).core (coreOf hid)).dcache k) :
    ∃ d ∈ Tab.get [] (s.core (coreOf hid)).dcache k, d.Alike c := by
  obtain ⟨g, hg, hcache⟩ := staleLines_dcache s hid ctx
  rw [hcache, ← List.map_nil (f := g), Tab.get_map_snd] at h
  obtain ⟨d, hd, rfl⟩ := List.mem_map.mp h
  exact ⟨d, hd, hg d⟩

/-- An acquire leaves no Clean line of its context, and every line that it leaves was there (R128). -/
theorem mem_dcache_acquireFor {s : State} {hid ctx k : Nat} {c : CacheLine}
    (h : c ∈ Tab.get [] ((acquireFor s hid ctx).core (coreOf hid)).dcache k) :
    ¬(c.ctx = ctx ∧ c.owner = none) ∧ ∃ d ∈ Tab.get [] (s.core (coreOf hid)).dcache k, d.Alike c := by
  obtain ⟨d, hd, halike⟩ := mem_dcache_staleLines h
  obtain ⟨hmem, hkept⟩ := mem_dcache_dropCleanAll.mp hd
  refine ⟨?_, d, hmem, halike⟩
  obtain ⟨hctx, -, howner, -, -⟩ := halike
  rwa [← hctx, ← howner]

/-- Settles O14: each instruction ends with the part it performs, and an acquire only drops Clean lines and marks Phase
lines stale. -/
theorem orderingResults : Obligations.OrderingResults := by
  unfold Obligations.OrderingResults
  exact ⟨fun f s hg => ⟨fun u => phase_ends hg, fun u => rel_ends hg, acq_ends hg, fun u => fenceSc_ends hg,
    fun u => fenceIo_ends hg, cinvLine_ends hg, cinvLine_nowhere hg, cinvAll_ends hg⟩,
    fun s k c => mem_dcache_acquireFor⟩

end Machine

end Sys2Proof

end

section
/-! PROOFS. Stores (R244, R245, R293 to R297): a store ends once its accesses are performed. -/

namespace Sys2Proof.Machine

open Sys2Proof.Safety

section
variable {f : Fmt} {s u : State} {t : Target}

theorem st_ends {b : W64} (hg : guardOn f s = true) (hb : src64 s f.b 0 = .ok b)
    (ha : aligned s (effAddr (xval s f.a) f.imm) (f.ty.width / 8) = .ok ())
    (hr : resolve s s.iAm .store (effAddr (xval s f.a) f.imm) = .ok t)
    (hs : scalarStore s t (effAddr (xval s f.a) f.imm) (f.ty.width / 8) (lowBits f.ty b) (eagerVar f) = .ok u) :
    Ends (.st f) s (passed (used f u)) :=
  ends_of_scalarRun rfl hg
    (bind_ok.mpr ⟨b, hb, bind_ok.mpr ⟨(), ha, bind_ok.mpr ⟨t, hr, bind_ok.mpr ⟨u, hs, putNone_ok f u⟩⟩⟩⟩)

theorem stp_ends (hg : guardOn f s = true) (ha : aligned s (effAddr (xval s f.a) f.imm) 16 = .ok ())
    (hr : resolve s s.iAm .store (effAddr (xval s f.a) f.imm) = .ok t)
    (hs : scalarStore s t (effAddr (xval s f.a) f.imm) 16
      ((xval s f.b).toNat + 2 ^ 64 * (s.me.rx (pairReg f.b)).toNat) (eagerVar f) = .ok u) :
    Ends (.stp f) s (passed (used f u)) :=
  ends_of_scalarRun rfl hg (bind_ok.mpr ⟨(), ha, bind_ok.mpr ⟨t, hr, bind_ok.mpr ⟨u, hs, putNone_ok f u⟩⟩⟩)

end

section
variable {f : Fmt} {s u : State} {unit : Bool} {offs : List Int} {data : List Nat} {ls : List LaneAt}
  (hdata : srcLanes s f.ty f.b f.imm = .ok data)
  (hls : checkLanes s .store (wholeReg f unit f.b (laneVas f s offs)) (eagerVar f) (laneBytes f) (laneVas f s offs) =
    .ok (u, ls))
include hdata hls

/-- The first issue of a vector store: its Phase lines are allocated, then its accesses are performed (R296). -/
theorem vectorStore_first {v w : State} (hnew : u.me.groupsDone = [])
    (halloc : allocGroups u ((groupLanes unit ls).filter (fun g => g.any (·.phase u (eagerVar f)))) = .ok v)
    (hstore : storeGroups v (laneBytes f) data (eagerVar f) [] 0 (groupLanes unit ls) = .ok w) :
    vectorStore f s unit offs = .ok (passed (used f w)) := by
  refine bind_ok.mpr ⟨data, hdata, bind_ok.mpr ⟨(u, ls), hls, (if_pos (by simp [hnew])).trans ?_⟩⟩
  exact bind_ok.mpr ⟨v, keepAnswers_ok.mpr halloc, bind_ok.mpr ⟨w, hstore, putNone_ok f w⟩⟩

/-- A later issue, some of whose accesses are performed: the others are (R297). -/
theorem vectorStore_again {w : State} (hdone : u.me.groupsDone ≠ [])
    (hstore : storeGroups u (laneBytes f) data (eagerVar f) [] 0 (groupLanes unit ls) = .ok w) :
    vectorStore f s unit offs = .ok (passed (used f w)) := by
  refine bind_ok.mpr ⟨data, hdata, bind_ok.mpr ⟨(u, ls), hls, (if_neg (by simpa using hdone)).trans ?_⟩⟩
  exact bind_ok.mpr ⟨u, rfl, bind_ok.mpr ⟨w, hstore, putNone_ok f w⟩⟩

theorem vectorStore_ends {i : Instr} (hx : exec i s = settle (vectorStore f s unit offs)) :
    (∀ v w, u.me.groupsDone = [] →
      allocGroups u ((groupLanes unit ls).filter (fun g => g.any (·.phase u (eagerVar f)))) = .ok v →
      storeGroups v (laneBytes f) data (eagerVar f) [] 0 (groupLanes unit ls) = .ok w →
      Ends i s (passed (used f w))) ∧
    (∀ w, u.me.groupsDone ≠ [] → storeGroups u (laneBytes f) data (eagerVar f) [] 0 (groupLanes unit ls) = .ok w →
      Ends i s (passed (used f w))) :=
  ⟨fun _ _ hnew halloc hstore => ends_of_settle hx (vectorStore_first hdata hls hnew halloc hstore),
    fun _ hdone hstore => ends_of_settle hx (vectorStore_again hdata hls hdone hstore)⟩

end

/-- Settles O11: a store is the sequence of its checks and accesses; the vector stores differ in their offsets alone. -/
theorem storeResults : Obligations.StoreResults := by
  unfold Obligations.StoreResults
  intro f s
  exact ⟨fun b t u hg hb ha hr hs => st_ends hg hb ha hr hs, fun t u hg ha hr hs => stp_ends hg ha hr hs,
    fun _ _ _ hdata hls => vectorStore_ends hdata hls rfl, fun _ _ _ hdata hls => vectorStore_ends hdata hls rfl,
    fun _ _ _ hdata hls => vectorStore_ends hdata hls rfl⟩

end Sys2Proof.Machine

end

section
/-! PROOFS. What arrives from the fabric (R146, R494, R495): a peer's packet is taken or refuses its stream, the markers
of a release gather, and a flush acknowledgement leaves for its peer or reaches the releasing agent. -/

namespace Sys2Proof

/-- The packet's tag, epoch and number are good (R494). -/
def FabricPacket.holds (p : FabricPacket) (s : Machine.State) : Bool :=
  p.tagOk && p.epoch == s.epoch && Machine.seqGood (Tab.get {} s.streams (p.src * 128 + p.ctx)) p.seq

namespace Machine

-- Whether anything may come from a device and on a stream (R494, R495).

section Streams

variable {s : State} {src key : Nat}

theorem stream_shut (h : s.domain.contains src = false ∨ s.refused.contains key = true) :
    (!s.domain.contains src || s.refused.contains key) = true := by
  rcases h with h | h
  · rw [h]; rfl
  · rw [h, Bool.or_true]

theorem stream_open (hd : s.domain.contains src = true) (hr : s.refused.contains key = false) :
    ¬ (!s.domain.contains src || s.refused.contains key) = true := by
  rw [hd, hr]
  exact Bool.false_ne_true

end Streams

-- Packets of a peer (R494, R495).

section Packets

/-- The packet's number is taken in its stream. -/
def State.countPacket (s : State) (p : FabricPacket) : State :=
  { s with streams := Tab.put s.streams (p.src * 128 + p.ctx)
             ((Tab.get {} s.streams (p.src * 128 + p.ctx)).take p.path p.seq) }

/-- What a packet that is taken brings: the requests of its granules, an atomic, or, for a marker's packet, nothing. -/
def State.takePacket (s : State) (p : FabricPacket) : State :=
  match p.kind with
  | .read | .write => admitAll s p p.dpa (Nat.min p.size 4096) p.data 65
  | .atomic => admitPacket (s.fabricMoved p.ctx false 1) p p.dpa (p.ty.width / 8) p.data
  | .flush | .scratch => s

variable {s : State} {p : FabricPacket}

theorem fabricPacketReceive_shut
    (h : s.domain.contains p.src = false ∨ s.refused.contains (p.src * 128 + p.ctx) = true) :
    exec (.fabricPacketReceive p) s = .next s :=
  if_pos (stream_shut h)

section
variable (hd : s.domain.contains p.src = true) (hr : s.refused.contains (p.src * 128 + p.ctx) = false)
include hd hr

/-- On an open stream a packet fails its check, comes too late on its path (R143), or is taken. -/
theorem fabricPacketReceive_open : exec (.fabricPacketReceive p) s =
    if !p.holds s then .next (packetFails s p.src p.ctx p.kind)
    else if (Tab.get {} s.streams (p.src * 128 + p.ctx)).passedOn p.path p.seq then .next s
    else .next ((s.countPacket p).takePacket p) := by
  change execFabricPacketReceive p s = _
  refine (if_neg (stream_open hd hr)).trans ?_
  unfold State.takePacket
  cases p.kind <;> rfl

theorem fabricPacketReceive_fails (hp : p.holds s = false) :
    exec (.fabricPacketReceive p) s = .next (packetFails s p.src p.ctx p.kind) :=
  (fabricPacketReceive_open hd hr).trans (if_pos (by simp [hp]))

theorem fabricPacketReceive_late (hp : p.holds s = true)
    (hl : (Tab.get {} s.streams (p.src * 128 + p.ctx)).passedOn p.path p.seq = true) :
    exec (.fabricPacketReceive p) s = .next s :=
  (fabricPacketReceive_open hd hr).trans ((if_neg (by simp [hp])).trans (if_pos hl))

theorem fabricPacketReceive_taken (hp : p.holds s = true)
    (hl : (Tab.get {} s.streams (p.src * 128 + p.ctx)).passedOn p.path p.seq = false) :
    exec (.fabricPacketReceive p) s = .next ((s.countPacket p).takePacket p) :=
  (fabricPacketReceive_open hd hr).trans ((if_neg (by simp [hp])).trans (if_neg (by simp [hl])))

end

theorem State.takePacket_granules (h : p.kind = .read ∨ p.kind = .write) :
    s.takePacket p = admitAll s p p.dpa (Nat.min p.size 4096) p.data 65 := by
  rcases h with h | h <;> simp only [State.takePacket, h]

theorem State.takePacket_atomic (h : p.kind = .atomic) :
    s.takePacket p = admitPacket (s.fabricMoved p.ctx false 1) p p.dpa (p.ty.width / 8) p.data := by
  simp only [State.takePacket, h]

theorem State.takePacket_flush (h : p.kind = .flush) : s.takePacket p = s := by simp only [State.takePacket, h]

end Packets

-- Markers of a peer's release (R146, R494).

section Markers

/-- The markers of this release (R146). -/
def Gather.isOf (src ctx hart rel : Nat) (g : Gather) : Bool :=
  g.src == src && g.ctx == ctx && g.hart == hart && g.rel == rel

/-- The count of the release's markers with the one that arrives. -/
def State.markersHere (s : State) (src ctx hart rel : Nat) : Nat :=
  ((s.gathers.find? (Gather.isOf src ctx hart rel)).map (·.arrived)).getD 0 + 1

def State.otherGathers (s : State) (src ctx hart rel : Nat) : List Gather :=
  s.gathers.filter (fun g => !g.isOf src ctx hart rel)

/-- The release's entry with the marker that arrives. -/
def State.gatherHere (s : State) (src ctx hart rel : Nat) : Gather :=
  { src := src, ctx := ctx, hart := hart, rel := rel, arrived := s.markersHere src ctx hart rel }

/-- The FLUSH of a peer's hart to a port (R146). -/
def peerFlush (src ctx hart port : Nat) : Request :=
  { kind := .flush, agent := .peer src, ctx := ctx, place := .port port, size := 0, origin := hart }

variable {s : State} {src ctx hart rel total sent : Nat}

theorem marker_shut (h : s.domain.contains src = false ∨ s.refused.contains (src * 128 + ctx) = true) :
    exec (.marker src ctx hart rel total sent) s = .next s :=
  if_pos (stream_shut h)

variable (hd : s.domain.contains src = true) (hr : s.refused.contains (src * 128 + ctx) = false)
include hd hr

/-- On an open stream a marker gathers; the last one fails where a number is missing, and else sends FLUSH. -/
theorem marker_open : exec (.marker src ctx hart rel total sent) s =
    if s.markersHere src ctx hart rel < total then
      .next { s with gathers := s.otherGathers src ctx hart rel ++ [s.gatherHere src ctx hart rel] }
    else if (Tab.get {} s.streams (src * 128 + ctx)).low < sent then
      .next (packetFails { s with gathers := s.otherGathers src ctx hart rel } src ctx .flush)
    else .next { s with
      gathers := s.otherGathers src ctx hart rel ++
        [{ s.gatherHere src ctx hart rel with ports := some (portsOf s src ctx hart) }]
      reqNet := s.reqNet ++ (portsOf s src ctx hart).map (peerFlush src ctx hart) } :=
  if_neg (stream_open hd hr)

theorem marker_gathers (h : s.markersHere src ctx hart rel < total) : exec (.marker src ctx hart rel total sent) s =
    .next { s with gathers := s.otherGathers src ctx hart rel ++ [s.gatherHere src ctx hart rel] } :=
  (marker_open hd hr).trans (if_pos h)

theorem marker_fails (h : total ≤ s.markersHere src ctx hart rel)
    (hm : (Tab.get {} s.streams (src * 128 + ctx)).low < sent) : exec (.marker src ctx hart rel total sent) s =
    .next (packetFails { s with gathers := s.otherGathers src ctx hart rel } src ctx .flush) :=
  (marker_open hd hr).trans ((if_neg h.not_gt).trans (if_pos hm))

theorem marker_flushes (h : total ≤ s.markersHere src ctx hart rel)
    (hm : sent ≤ (Tab.get {} s.streams (src * 128 + ctx)).low) : exec (.marker src ctx hart rel total sent) s =
    .next { s with
      gathers := s.otherGathers src ctx hart rel ++
        [{ s.gatherHere src ctx hart rel with ports := some (portsOf s src ctx hart) }]
      reqNet := s.reqNet ++ (portsOf s src ctx hart).map (peerFlush src ctx hart) } :=
  (marker_open hd hr).trans ((if_neg h.not_gt).trans (if_neg hm.not_gt))

end Markers

-- Flush acknowledgements (R146, R147).

/-- A peer answers with one of the statuses that it may. -/
theorem chooseStatus_mem (s : State) {l : List RespStatus} (hl : l ≠ []) : (chooseStatus s l).2 ∈ l := by
  have hlt := Nat.mod_lt (Config.freeValue s.draws).toNat (List.length_pos_iff.mpr hl)
  change (l[(Config.freeValue s.draws).toNat % l.length]?).getD .ok ∈ l
  rw [List.getElem?_eq_getElem hlt]
  exact List.getElem_mem hlt

@[simp] theorem refuseStream_outbox (s : State) (dev ctx : Nat) : (refuseStream s dev ctx).outbox = s.outbox := by
  unfold refuseStream
  split <;> rfl

@[simp] theorem refuseStream_inbox (s : State) (dev ctx : Nat) : (refuseStream s dev ctx).inbox = s.inbox := by
  unfold refuseStream
  split <;> rfl

/-- The peer's acknowledgement of a FLUSH. -/
def flushResponse (r : Request) (st : RespStatus) : Response :=
  { kind := .flush, agent := r.agent, ctx := r.ctx, place := r.place, size := 0, data := 0, status := st, job := r.job }

/-- The acknowledgement is there for the agent that released. -/
def State.peerFlushed (s : State) (r : Request) (st : RespStatus) : State :=
  { (chooseStatus s [.ok, .fabric]).1 with
    outbox := s.outbox.erase r
    inbox := s.inbox ++ [flushResponse r st] }

section FlushAcks

/-- A peer's release whose ports have all answered: its acknowledgement may leave. -/
def Gather.flushed (dev rel : Nat) (g : Gather) : Bool :=
  g.src == dev && g.hart == rel / 128 && g.ctx == rel % 128 && g.ports == some []

/-- A FLUSH of this device's release to the peer. -/
def Request.flushTo (dev rel : Nat) (r : Request) : Bool :=
  r.kind == .flush && r.agent.flushId == rel / 128 && r.ctx == rel % 128 && r.place == .peer dev 0

/-- The i-th response answers a FLUSH of the release, and may arrive. -/
def State.FlushResponse (s : State) (rel i : Nat) (q : Response) : Prop :=
  q.kind = .flush ∧ q.agent.flushId = rel / 128 ∧ q.ctx = rel % 128 ∧ answerLeaves s i q = true

variable {s : State} {dev rel : Nat}

/-- The first response that may arrive and answers a FLUSH of the release reaches its agent. -/
theorem flushAck_here {i : Nat} {q : Response} (hq : s.respNet[i]? = some q) (hi : s.FlushResponse rel i q)
    (hfirst : ∀ j e, j < i → s.respNet[j]? = some e → ¬ s.FlushResponse rel j e) :
    exec (.flushAck s.devidx rel) s = .next (arrive { s with respNet := s.respNet.eraseIdx i } q) := by
  obtain ⟨hlt, -⟩ := List.getElem?_eq_some_iff.mp hq
  change execFlushAck s.devidx rel s = _
  unfold execFlushAck
  rw [if_pos rfl]
  extract_lets mine
  have hmine : ∀ j e, s.respNet[j]? = some e → (mine j = true ↔ s.FlushResponse rel j e) := fun j e he => by
    simp only [mine, he, State.FlushResponse, Bool.and_eq_true, beq_iff_eq, and_assoc]
  have hfind : (List.range s.respNet.length).find? mine = some i := by
    refine List.find?_range_eq_some.mpr ⟨(hmine i q hq).mpr hi, List.mem_range.mpr hlt, fun j hj => ?_⟩
    have he := List.getElem?_eq_getElem (hj.trans hlt)
    simpa using mt (hmine j _ he).mp (hfirst j _ hj he)
  simp only [hfind, hq]

section
variable (hdev : dev ≠ s.devidx)
include hdev

/-- The acknowledgement of a peer's release leaves, and its entry with it. -/
theorem flushAck_leaves (h : s.gathers.any (Gather.flushed dev rel) = true) :
    exec (.flushAck dev rel) s = .next { s with gathers := s.gathers.filter (fun g => !g.flushed dev rel) } :=
  (if_neg hdev).trans (if_pos h)

/-- A peer's acknowledgement answers the releasing agent, with success or, where its number fails, with FABRIC. -/
theorem flushAck_arrives {r : Request} (h : s.gathers.any (Gather.flushed dev rel) = false)
    (hr : s.outbox.find? (Request.flushTo dev rel) = some r) (hp : r.posted = false) :
    ∃ t st, exec (.flushAck dev rel) s = .next t ∧ (st = .ok ∨ st = .fabric) ∧ t.outbox = s.outbox.erase r ∧
      t.inbox = s.inbox ++ [flushResponse r st] := by
  have hto := List.find?_some hr
  simp only [Request.flushTo, Bool.and_eq_true, beq_iff_eq] at hto
  obtain ⟨⟨⟨hk, -⟩, -⟩, -⟩ := hto
  have hst := chooseStatus_mem s (l := [.ok, .fabric]) (List.cons_ne_nil _ _)
  generalize hchosen : (chooseStatus s [.ok, .fabric]).2 = st at hst
  have hexec : exec (.flushAck dev rel) s = .next (if st == .fabric then
      (refuseStream (s.peerFlushed r st) dev r.ctx).log (.fabric dev) else s.peerFlushed r st) := by
    change execFlushAck dev rel s = _
    subst hchosen
    unfold Gather.flushed at h
    unfold Request.flushTo at hr
    simp only [execFlushAck, if_neg hdev, h, hr, hp, hk, Bool.false_eq_true, if_false]
    rfl
  refine ⟨_, st, hexec, by simpa using hst, ?_⟩
  split
  · exact ⟨refuseStream_outbox _ _ _, refuseStream_inbox _ _ _⟩
  · exact ⟨rfl, rfl⟩

end

end FlushAcks

/-- Settles O42: each event by what it finds, the open or refused stream, the count of markers, or whose flush it is. -/
theorem fabricEventResults : Obligations.FabricEventResults := by
  unfold Obligations.FabricEventResults
  intro s
  refine ⟨fun p => ⟨fabricPacketReceive_shut, fun hd hr => ⟨fabricPacketReceive_fails hd hr,
      fabricPacketReceive_late hd hr, fun hp hl hk => ?_, fun hp hl hk => ?_, fun hp hl hk => ?_⟩⟩,
    fun src ctx hart rel total sent => ⟨marker_shut, fun hd hr =>
      ⟨marker_gathers hd hr, marker_fails hd hr, marker_flushes hd hr⟩⟩,
    fun rel i q hq => flushAck_here hq, fun dev rel hdev => ⟨flushAck_leaves hdev, fun r => flushAck_arrives hdev⟩⟩
  · exact (fabricPacketReceive_taken hd hr hp hl).trans (congrArg _ (State.takePacket_granules hk))
  · exact (fabricPacketReceive_taken hd hr hp hl).trans (congrArg _ (State.takePacket_atomic hk))
  · exact (fabricPacketReceive_taken hd hr hp hl).trans (congrArg _ (State.takePacket_flush hk))

end Machine

end Sys2Proof

end

section
/-! PROOFS. The registers of a hart (R161, R181, R182): what a read gives after a write, and after a register is marked
dead. -/

namespace Sys2Proof.Machine

namespace Hart

variable (h : Hart)

-- The marks of dead registers.

theorem isDead_kill (i j : Nat) : (h.kill i).isDead j = (h.isDead j || decide (j < 64 ∧ j = i)) := by
  simp only [isDead, kill, BitVec.getLsbD_or, BitVec.getLsbD_shiftLeft, BitVec.getLsbD_one]
  congr 1
  rw [Bool.eq_iff_iff]
  simp
  omega

theorem isDead_revive (i j : Nat) : (h.revive i).isDead j = (h.isDead j && decide (j ≠ i)) := by
  simp only [isDead, revive, BitVec.getLsbD_and, BitVec.getLsbD_not, BitVec.getLsbD_shiftLeft, BitVec.getLsbD_one]
  by_cases hj : j < 64
  · congr 1
    rw [Bool.eq_iff_iff]
    simp [hj]
    omega
  · simp [BitVec.getLsbD_of_ge h.dead j (by omega)]

-- Reads.

theorem rx_zero : h.rx 0 = 0 := if_pos (.inl rfl)

theorem rp_zero : h.rp 0 = BitVec.allOnes 64 := if_pos rfl

theorem rx_dead {r : Fin 32} (hd : h.isDead r.val = true) : h.rx r = 0 := if_pos (.inr hd)

theorem rv_dead {r : Fin 32} (hd : h.isDead (32 + r.val) = true) : h.rv r = 0 := if_pos hd

/-- An x register's value rests on its place in the file and on its mark. -/
theorem rx_congr {k : Hart} {r : Fin 32} (hx : k.x[r] = h.x[r]) (hd : k.isDead r.val = h.isDead r.val) :
    k.rx r = h.rx r := by
  simp only [rx, hx, hd]

theorem rv_congr {k : Hart} {r : Fin 32} (hv : k.v[r] = h.v[r]) (hd : k.isDead (32 + r.val) = h.isDead (32 + r.val)) :
    k.rv r = h.rv r := by
  simp only [rv, hv, hd]

theorem rp_congr {k : Hart} {r : Fin 8} (hp : k.p[r] = h.p[r]) : k.rp r = h.rp r := by
  simp only [rp, hp]

-- Writes.

variable (v : W64) (w : V512)

theorem wx_zero : h.wx 0 v = h := if_pos rfl

theorem wp_zero : h.wp 0 v = h := if_pos rfl

theorem isDead_wx_same {r : Fin 32} (hr : r ≠ 0) : (h.wx r v).isDead r.val = false := by
  rw [wx, if_neg hr, isDead_revive]
  simp

theorem rx_wx_same {r : Fin 32} (hr : r ≠ 0) : (h.wx r v).rx r = v := by
  have hd := h.isDead_wx_same v hr
  rw [rx, if_neg (by simp [hr, hd]), wx, if_neg hr]
  simp [revive]

theorem rx_wx_other {r q : Fin 32} (hq : q ≠ r) : (h.wx r v).rx q = h.rx q := by
  have hne : q.val ≠ r.val := fun e => hq (Fin.ext e)
  unfold wx
  split
  · rfl
  · refine rx_congr _ ?_ ?_
    · simp [revive, Ne.symm hne]
    · rw [isDead_revive]
      simp [hne, isDead]

theorem rv_wx (r q : Fin 32) : (h.wx r v).rv q = h.rv q := by
  unfold wx
  split
  · rfl
  · refine rv_congr _ rfl ?_
    rw [isDead_revive]
    simp [isDead, show 32 + q.val ≠ r.val by omega]

theorem isDead_wv_same (r : Fin 32) : (h.wv r w).isDead (32 + r.val) = false := by
  rw [wv, isDead_revive]
  simp

theorem rv_wv_same (r : Fin 32) : (h.wv r w).rv r = w := by
  rw [rv, h.isDead_wv_same w r]
  simp [wv, revive]

theorem rv_wv_other {r q : Fin 32} (hq : q ≠ r) : (h.wv r w).rv q = h.rv q := by
  have hne : q.val ≠ r.val := fun e => hq (Fin.ext e)
  refine rv_congr _ ?_ ?_
  · simp [wv, revive, Ne.symm hne]
  · rw [wv, isDead_revive]
    simp [hne, isDead]

theorem rx_wv (r q : Fin 32) : (h.wv r w).rx q = h.rx q := by
  refine rx_congr _ rfl ?_
  rw [wv, isDead_revive]
  simp [isDead, show q.val ≠ 32 + r.val by omega]

theorem rp_wp_same {r : Fin 8} (hr : r ≠ 0) : (h.wp r v).rp r = v := by
  rw [rp, if_neg hr, wp, if_neg hr]
  simp

theorem rp_wp_other {r q : Fin 8} (hq : q ≠ r) : (h.wp r v).rp q = h.rp q := by
  have hne : q.val ≠ r.val := fun e => hq (Fin.ext e)
  unfold wp
  split
  · rfl
  · exact rp_congr _ (by simp [Ne.symm hne])

-- Marks.

theorem rx_kill_same (r : Fin 32) : (h.kill r.val).rx r = 0 := by
  refine rx_dead _ ?_
  rw [isDead_kill]
  simp [show r.val < 64 by omega]

/-- A mark leaves every other register as it was. -/
theorem rx_kill_other {i : Nat} {q : Fin 32} (hq : q.val ≠ i) : (h.kill i).rx q = h.rx q := by
  refine rx_congr _ rfl ?_
  rw [isDead_kill]
  simp [hq]

theorem rv_kill_other {i : Nat} {q : Fin 32} (hq : 32 + q.val ≠ i) : (h.kill i).rv q = h.rv q := by
  refine rv_congr _ rfl ?_
  rw [isDead_kill]
  simp [hq]

end Hart

/-- Settles O57: each read of a register after a write of it, of another one, and after a mark. -/
theorem constantAndDeadRegisters : Obligations.ConstantAndDeadRegisters := by
  unfold Obligations.ConstantAndDeadRegisters
  intro h v w
  refine ⟨h.rx_zero, h.rp_zero, h.wx_zero v, h.wp_zero v, fun r => h.rx_dead, fun r => h.rv_dead, fun r hr => ?_,
    fun r => ?_, fun r hr => ?_, fun r _ => ?_⟩
  · exact ⟨h.rx_wx_same v hr, h.isDead_wx_same v hr, fun q => h.rx_wx_other v⟩
  · exact ⟨h.rv_wv_same w r, h.isDead_wv_same w r, fun q => h.rv_wv_other w⟩
  · exact ⟨h.rp_wp_same v hr, fun q => h.rp_wp_other v⟩
  · exact ⟨h.rx_kill_same r, fun q hq => h.rx_kill_other fun e => hq (Fin.ext e), fun q => h.rv_kill_other (by omega)⟩

end Sys2Proof.Machine

end

section
/-! PROOFS. What the hardware of a hart does by itself (R165 to R167, R182, R369, R397): interrupts, the timer line, the
quantum, dead registers, budgets, and sleeping waitws. -/

namespace Sys2Proof.Machine

-- The status word (R163).

theorem mkStatus_bits (mode ie pie pmode : Bool) : (mkStatus mode ie pie pmode).getLsbD 0 = mode ∧
    (mkStatus mode ie pie pmode).getLsbD 1 = ie ∧ (mkStatus mode ie pie pmode).getLsbD 2 = pie ∧
    (mkStatus mode ie pie pmode).getLsbD 3 = pmode := by
  revert mode ie pie pmode
  decide

namespace Hart

theorem takesInterrupt_iff (h : Hart) : h.takesInterrupt = true ↔
    h.running = true ∧ h.frozen = false ∧ h.inWfi = false ∧ h.ipend &&& h.ienab ≠ 0 ∧ (h.modeS = false ∨ h.ie = true) := by
  simp [takesInterrupt, and_assoc]

theorem budgetDue_iff (h : Hart) : h.budgetDue = true ↔ h.counting = true ∧ h.budget = 0 := by
  simp [budgetDue]

theorem awake_iff (h : Hart) : h.awake = true ↔ h.running = true ∧ h.frozen = false := by
  simp [awake]

theorem enterInterrupt_status (h : Hart) (line : Nat) :
    (h.enterInterrupt line).status = mkStatus true false h.ie h.modeS := rfl

-- Dead registers lose their values (R182).

theorem rx_zeroDead (h : Hart) (r : Fin 32) : h.zeroDead.rx r = h.rx r := by
  have hdead : h.zeroDead.isDead r.val = h.isDead r.val := rfl
  unfold rx
  rw [hdead]
  split
  · rfl
  next hlive => simp only [zeroDead, Fin.getElem_fin, Vector.getElem_mapIdx, Bool.eq_false_iff.mpr (not_or.mp hlive).2,
    Bool.false_eq_true, if_false]

theorem rv_zeroDead (h : Hart) (r : Fin 32) : h.zeroDead.rv r = h.rv r := by
  have hdead : h.zeroDead.isDead (32 + r.val) = h.isDead (32 + r.val) := rfl
  unfold rv
  rw [hdead]
  split
  · rfl
  next hlive => simp only [zeroDead, Fin.getElem_fin, Vector.getElem_mapIdx, Bool.eq_false_iff.mpr hlive, Bool.false_eq_true,
    if_false]

end Hart

section
variable {s : State} {hart core : Nat}

-- Interrupts (R166).

theorem interruptEntry_enters (ht : (s.hart hart).takesInterrupt = true) (hj : (s.hart hart).joined = true)
    (hm : midAccess s hart (s.ctxOf (coreOf hart)) = false) : exec (.interruptEntry hart) s = .next (s.setHart hart
      ((s.hart hart).enterInterrupt (lowestLine ((s.hart hart).ipend &&& (s.hart hart).ienab)))) := by
  change execInterruptEntry hart s = _
  simp only [execInterruptEntry, ht, hj, hm, Bool.not_false, Bool.and_self, if_true]

theorem interruptEntry_none (ht : (s.hart hart).takesInterrupt = false) : exec (.interruptEntry hart) s = .next s := by
  change execInterruptEntry hart s = _
  simp [execInterruptEntry, ht]

-- The timer line (R165).

theorem timerStands_iff {now : Nat} {h : Hart} : timerStands now h = true ↔ h.tcmp ≠ 0 ∧ h.tcmp.toNat ≤ now := by
  simp [timerStands]

theorem timerCheck_stands {now : Nat} {h : Hart} (hs : timerStands now h = true) :
    timerCheck now h = if h.timerSeen then h else { h with ipend := h.ipend ||| 2, timerSeen := true } := by
  simp only [timerCheck, hs, if_true]
  rfl

theorem timerCheck_rests {now : Nat} {h : Hart} (hs : timerStands now h = false) :
    timerCheck now h = { h with timerSeen := false } := by
  simp only [timerCheck, hs, Bool.false_eq_true, if_false]
  split
  · rfl
  next hseen => rw [← Bool.eq_false_iff.mpr hseen]

theorem timerMatch_eq {g : Hart} (hg : timerCheck s.time (s.hart hart) = g) :
    exec (.timerMatch hart) s = .next (s.setHart hart g) := by
  subst hg
  rfl

-- The quantum (R167).

theorem issueQuantumSwitch_turns {slot : Nat} (hi : 2048 ≤ (s.core core).issued)
    (hf : ([1, 2, 3].map (fun i => ((s.core core).runSlot + i) % 4)).find? (fun n => (s.hart (core * 4 + n)).stirs) =
      some slot) : exec (.issueQuantumSwitch core) s =
        .next (s.setCore core { s.core core with runSlot := slot, issued := 0 }) := by
  change execIssueQuantumSwitch core s = _
  simp only [execIssueQuantumSwitch, quantum, if_neg (Nat.not_lt.mpr hi), hf]

theorem issueQuantumSwitch_stays (hi : (s.core core).issued < 2048) : exec (.issueQuantumSwitch core) s = .next s :=
  if_pos hi

-- Power (R182).

theorem deadPowerDown_waiting (hw : (s.hart hart).waiting = true) : exec (.deadPowerDown hart) s =
    .next (s.setHart hart { (s.hart hart).zeroDead with poweredDown := true }) := by
  change execDeadPowerDown hart s = _
  simp only [execDeadPowerDown, hw, if_true]

-- Budgets (R397).

theorem budgetExpiry_faults (ha : (s.hart hart).awake = true) (hd : (s.hart hart).budgetDue = true)
    (hj : (s.hart hart).joined = true) (hm : midAccess s hart (s.ctxOf (coreOf hart)) = false) :
    exec (.budgetExpiry hart) s = .next (s.takeFaultOn hart { code := .budget }) := by
  change execBudgetExpiry hart s = _
  simp only [execBudgetExpiry, ha, hd, hj, hm, Bool.not_false, Bool.and_self, if_true]

theorem budgetExpiry_none (hd : (s.hart hart).budgetDue = false) : exec (.budgetExpiry hart) s = .next s := by
  change execBudgetExpiry hart s = _
  simp [execBudgetExpiry, hd]

-- Sleeping waitws (R369).

theorem waitwWake_wakes {g : Place} (hs : (s.hart hart).sleep = some (g, true)) : exec (.waitwWake hart) s =
    .next (s.setHart hart { s.hart hart with sleep := none, waiting := false }) := by
  change execWaitwWake hart s = _
  simp only [execWaitwWake, hs]

theorem waitwPoll_wakes {g : Place} (hs : (s.hart hart).sleep = some (g, false)) : exec (.waitwPoll hart) s =
    .next (s.setHart hart { s.hart hart with sleep := none, waiting := false }) := by
  change execWaitwPoll hart s = _
  simp only [execWaitwPoll, hs]

end

/-- Settles O38: each event by the condition that it looks for in its hart or core. -/
theorem hartHardwareResults : Obligations.HartHardwareResults := by
  unfold Obligations.HartHardwareResults
  intro s hart core h set
  refine ⟨fun hrun hfrozen hwfi hj hline hmode hmid => ?_, fun hnone => interruptEntry_none ?_, fun h0 hnow hseen => ?_,
    fun hrest => ?_, fun h0 hnow hseen => ?_, fun slot => issueQuantumSwitch_turns, issueQuantumSwitch_stays,
    fun hw => ?_, fun hrun hfrozen hj hcount hzero hmid => ?_, fun hno => budgetExpiry_none ?_,
    fun g => waitwWake_wakes, fun g => waitwPoll_wakes⟩
  · have htakes : h.takesInterrupt = true := h.takesInterrupt_iff.mpr ⟨hrun, hfrozen, hwfi, hline, hmode⟩
    obtain ⟨hm, hie, hpie, hpm⟩ := mkStatus_bits true false h.ie h.modeS
    exact ⟨_, interruptEntry_enters htakes hj hmid, rfl, rfl, rfl, hpm, hpie, hm, hie, rfl, rfl, rfl, rfl, rfl, rfl, rfl⟩
  · refine Bool.eq_false_iff.mpr fun ht => ?_
    obtain ⟨-, hfrozen, -, hline, hmode⟩ := h.takesInterrupt_iff.mp ht
    rcases hnone with hn | ⟨hs, hi⟩ | hf
    · exact hline hn
    · rcases hmode with hm | hm
      · exact absurd (hs.symm.trans hm) (by decide)
      · exact absurd (hi.symm.trans hm) (by decide)
    · exact absurd (hf.symm.trans hfrozen) (by decide)
  · refine timerMatch_eq ((timerCheck_stands (timerStands_iff.mpr ⟨h0, hnow⟩)).trans (if_neg ?_))
    exact Bool.eq_false_iff.mp hseen
  · refine timerMatch_eq (timerCheck_rests (Bool.eq_false_iff.mpr fun hstands => ?_))
    obtain ⟨h0, hnow⟩ := timerStands_iff.mp hstands
    rcases hrest with hz | hlt
    · exact h0 hz
    · exact Nat.not_lt.mpr hnow hlt
  · exact timerMatch_eq ((timerCheck_stands (timerStands_iff.mpr ⟨h0, hnow⟩)).trans (if_pos hseen))
  · exact ⟨_, deadPowerDown_waiting hw, h.rx_zeroDead, h.rv_zeroDead, rfl, rfl, rfl⟩
  · exact budgetExpiry_faults (h.awake_iff.mpr ⟨hrun, hfrozen⟩) (h.budgetDue_iff.mpr ⟨hcount, hzero⟩) hj hmid
  · refine Bool.eq_false_iff.mpr fun hd => ?_
    obtain ⟨hcount, hzero⟩ := h.budgetDue_iff.mp hd
    rcases hno with hn | hn
    · exact absurd (hn.symm.trans hcount) (by decide)
    · exact hn hzero

end Sys2Proof.Machine

end

section
/-! PROOFS. Control transfers, rep and brk (R180, R228 to R231, R463, R464): where each goes, what a rep starts, and the
packet of a brk. -/

namespace Sys2Proof.Machine

open Sys2Proof.Safety

theorem operand_isNone_iff {o : Operand} : o.isNone = true ↔ o = .none := by
  cases o <;> simp [Operand.isNone, Operand.fits]

section
variable {i : Instr} {f : Fmt} {s : State} (hg : guardOn f s = true)
include hg

/-- A scalar instruction whose body completes. -/
theorem ends_of_on {b : Act State} {u : State} (hx : exec i s = scalarRun f s b) (hb : b = .ok u) : Ends i s u := by
  rw [Ends, hx, scalarRun_on hg, hb, settle_ok]

-- Links (R189, R229).

/-- A transfer with a link delivers the link where the destination says, and then goes to its target. -/
theorem links_of_linkTo {g : Hart → Hart} {target : W64} (hx : exec i s = scalarRun f s (linkTo f s g target))
    (hq : ∀ h : Hart, (g h).qbind = h.qbind) (hr : ∀ h : Hart, (g h).roles = h.roles)
    (hd : dstReady s f.d = .ok ()) : Links i f s g target := by
  unfold Links
  extract_lets u link goes
  have hgo : ∀ t, dst64 u f.d link = .ok t → goes t := fun t ht =>
    ends_of_on hg hx (bind_ok.mpr ⟨(), hd, bind_ok.mpr ⟨t, ht, rfl⟩⟩)
  cases hf : f.d with
  | q n c =>
    intro e he
    have hu : queueReady u n c = .ok e :=
      queueReady_modMe (g := fun h => g (h.lastUse f)) n c ((hq _).trans (Hart.lastUse_qbind _ _)) ((hr _).trans (Hart.lastUse_roles _ _)) he
    exact hgo _ (by rw [hf, dst64, hu]; rfl)
  | _ => exact hgo _ (by rw [hf]; rfl)

theorem call_links {target : W64} (ht : (if f.a.isNone then immTarget f s else xval s f.a) = target)
    (hd : dstReady s f.d = .ok ()) : Links (.call f) f s markDead target := by
  subst ht
  exact links_of_linkTo hg rfl (fun _ => rfl) (fun _ => rfl) hd

-- Loops (R229).

theorem loop_ends {d : Fin 32} {target : W64} (hf : f.d = .x d)
    (ht : (if s.me.rx d - 1 != 0 then immTarget f s else linkAddr s) = target) :
    Ends (.loop f) s (s.modMe (fun h => ((h.lastUse f).wx d (s.me.rx d - 1)).setPc target)) := by
  subst ht
  refine ends_of_on hg rfl ?_
  simp only [hf]
  rfl

-- Repetition (R180, R231).

/-- A body that is repeated starts with its first pass. -/
theorem rep_starts {a : W64} {m : Nat} (ha : src64 s f.a f.imm = .ok a)
    (hm : (if f.a.isNone then slice f.imm.toNat 15 4 + 1 else Nat.min a.toNat 4096) = m) (h0 : m ≠ 0) :
    Ends (.rep f) s (s.modMe (fun h => { h.lastUse f with
      repst := mkRep 0 0 true (slice f.imm.toNat 18 16) (m - 1) (slice f.imm.toNat 3 0) }.setPc (s.me.pc + 12))) := by
  subst hm
  exact ends_of_on hg rfl (bind_ok.mpr ⟨a, ha, if_neg h0⟩)

/-- A body repeated zero times is skipped. -/
theorem rep_skips (ha : f.a ≠ .none) (h0 : src64 s f.a f.imm = .ok 0) :
    Ends (.rep f) s
      (s.modMe (fun h => (h.lastUse f).setPc (s.me.pc + BitVec.ofNat 64 (12 * (2 + slice f.imm.toNat 3 0))))) := by
  refine ends_of_on hg rfl (bind_ok.mpr ⟨0, h0, if_pos ?_⟩)
  rw [if_neg (mt operand_isNone_iff.mp ha)]
  rfl

end

-- Breaks (R230, R463, R464).

theorem Hart.advance_pc {h : Hart} (hr : repActive h.repst = false) : h.advance.pc = h.pc + 12 := by
  simp only [Hart.advance, hr, Bool.false_eq_true, if_false, Hart.setPc_pc]

theorem State.dropAnswers_me (s : State) : s.dropAnswers.me = s.me := by
  unfold State.dropAnswers
  split <;> rfl

theorem State.dropAnswers_myCtx (s : State) : s.dropAnswers.myCtx = s.myCtx := by
  unfold State.dropAnswers
  split <;> rfl

theorem State.dropAnswers_nextSeq (s : State) (src : Source) : s.dropAnswers.nextSeq src = s.nextSeq src := by
  simp only [State.nextSeq, State.dropAnswers_seqs]

theorem State.takeFault_me (s : State) (t : TrapInfo) : (s.takeFault t).me = { s.me.join.awaken with
    frozen := true, lastPacket := packetWords (.hart s.cur) s.myCtx (s.nextSeq (.hart s.cur)) (faultPc s.me t) t } :=
  State.me_setMe s _

/-- The packet of a brk names the instruction before the one on which its hart stands. -/
theorem faultPc_break {h : Hart} {t : TrapInfo} (hc : t.code = .illegal) (hb : t.cause = causeBreak) :
    faultPc h t = h.pc - 12 := by
  simp [faultPc, hc, hb]

/-- Outside a rep body a brk completes, and its hart freezes on the next instruction. -/
theorem brk_freezes {f : Fmt} {s : State} (hg : guardOn f s = true) (hr : repActive s.me.repst = false) :
    ∃ t, exec (.brk f) s = .next t ∧ t.me.frozen = true ∧ t.me.pc = s.me.pc + 12 ∧
      t.me.lastPacket = packetWords (.hart s.cur) s.myCtx (s.nextSeq (.hart s.cur)) s.me.pc
        { illegal causeBreak with brk := f.imm.toNat % 2 ^ 16 } := by
  have hpc : ((s.me.lastUse f).advance).pc = s.me.pc + 12 := by
    rw [Hart.advance_pc (by rw [Hart.lastUse_repst, hr])]
    exact congrArg (· + 12) (Hart.lastUse_apc s.me f)
  have hme : (done f s id).dropAnswers.me = (s.me.lastUse f).advance := by
    rw [State.dropAnswers_me]
    exact State.me_modMe s _
  refine ⟨_, (scalarRun_on hg _).trans (settle_fault _ _), ?_, ?_, ?_⟩
  · rw [State.takeFault_me]
  · rw [State.takeFault_me, hme]
    exact hpc
  · rw [State.takeFault_me, hme, State.dropAnswers_myCtx, State.dropAnswers_nextSeq, State.dropAnswers_cur,
      faultPc_break rfl rfl, hpc, BitVec.add_sub_cancel]
    rfl

/-- Settles O3: each transfer from what its body does once its guard holds. -/
theorem controlTransferResults : Obligations.ControlTransferResults := by
  unfold Obligations.ControlTransferResults
  refine ⟨fun f s hg => ?_, fun f s hg => ?_, fun f s => brk_freezes⟩
  · intro here far
    refine ⟨ends_of_on hg rfl (putNone_ok f s), ends_of_on hg rfl rfl, ends_of_on hg rfl rfl, fun hd => ⟨?_, ?_, ?_, ?_⟩,
      fun d hf => ⟨fun h1 => ?_, fun h1 => ?_⟩⟩
    · exact links_of_linkTo hg rfl (fun _ => rfl) (fun _ => rfl) hd
    · exact links_of_linkTo hg rfl (fun _ => rfl) (fun _ => rfl) hd
    · exact fun ha => call_links hg (if_neg (mt operand_isNone_iff.mp ha)) hd
    · exact fun ha => call_links hg (if_pos (operand_isNone_iff.mpr ha)) hd
    · exact loop_ends hg hf (if_pos (bne_iff_ne.mpr fun h0 => h1 (by bv_omega)))
    · have h0 : s.me.rx d - 1 = 0 := by rw [h1]; rfl
      exact h0 ▸ loop_ends hg hf (if_neg (by rw [h0]; decide))
  · intro nn starts
    refine ⟨fun ha => ?_, fun n ha hn => ⟨fun h0 => ?_, fun h0 => rep_skips hg ha (h0 ▸ hn)⟩⟩
    · exact rep_starts hg (a := f.imm.signExtend 64) (by rw [ha]; rfl) (if_pos (operand_isNone_iff.mpr ha)) (Nat.succ_ne_zero _)
    · refine rep_starts hg hn (if_neg (mt operand_isNone_iff.mp ha)) fun hm => ?_
      rcases Nat.min_eq_zero_iff.mp hm with hz | hz
      · exact h0 (BitVec.eq_of_toNat_eq hz)
      · exact absurd hz (by decide)

end Sys2Proof.Machine

end

section
/-! PROOFS. Pushes, pops, advances and waits on queue handles (R178, R251): how each completes, and that a slot pushed on a
local handle of an empty ring is the slot that its consumer reads. -/

namespace Sys2Proof

-- Bytes stored and read back (R1).

theorem leNat_leBytes (n v : Nat) : leNat (leBytes n v) = v % 256 ^ n := by
  induction n generalizing v with
  | zero => simp [leBytes, leNat, Nat.mod_one]
  | succ n ih =>
    have hmod : v % 256 ^ (n + 1) = v % 256 + 256 * (v / 256 % 256 ^ n) := by rw [Nat.pow_succ', Nat.mod_mul]
    rw [leBytes, leNat, ih, BitVec.toNat_ofNat, hmod]

/-- A value that n bytes hold is what they give back. -/
theorem ofNat_leNat_leBytes {n : Nat} (v : BitVec (8 * n)) : BitVec.ofNat (8 * n) (leNat (leBytes n v.toNat)) = v := by
  have h : v.toNat % 256 ^ n = v.toNat := Nat.mod_eq_of_lt (lt_of_lt_of_eq v.isLt (Nat.pow_mul 2 8 n))
  rw [leNat_leBytes, h, BitVec.ofNat_toNat, BitVec.setWidth_eq]

theorem Mem.readN_writeL {m : Mem} (a : Nat) (bs : List Byte) (h : Mem.wf m = true) :
    Mem.readN (Mem.writeL m a bs) a bs.length = bs := by
  induction bs generalizing m a with
  | nil => rfl
  | cons b bs ih =>
    have hfirst := Mem.read_writeL_inside a (b :: bs) h 0 (Nat.succ_pos _)
    exact congrArg₂ List.cons hfirst (ih (a + 1) (Mem.write_wf a b h))

/-- A projection of a table's value does not depend on what else an absent key stands for. -/
theorem Tab.get_proj {α β : Type} (g : α → β) {d e : α} (h : g d = g e) (t : Tab α) (k : Nat) :
    g (Tab.get d t k) = g (Tab.get e t k) := by
  rw [← Tab.get_map_snd d g, ← Tab.get_map_snd e g, h]

namespace Machine

open Sys2Proof.Safety

theorem v512_bytesOf (v : V512) : v512 (bytesOf 64 v.toNat) = v := ofNat_leNat_leBytes (n := 64) v

/-- A sequence whose first part completes goes on with its value. -/
theorem bind_of_ok {ε α β : Type} {x : Except ε α} {a : α} (hx : x = .ok a) (k : α → Except ε β) :
    (x >>= k) = k a := by
  rw [hx]
  rfl

section
variable {f : Fmt} {s : State} (hg : guardOn f s = true)
include hg

-- How each completes (R251).

theorem qpush_ends {v : V512} {h : Handle} (hv : pushBytes s f = .ok v) (hh : producerEnd s (handleOf f.d) = .ok h)
    (hroom : hasRoom s h 1 = true) (hfree : slotFree s (h.slotAt s false 0) = true) (hmay : mayPublish s h = true) :
    Ends (.qpush f) s (passed (used f (publishSlots (slotWrite s h 0 v) h 1))) := by
  refine ends_of_scalarRun rfl hg ?_
  rw [← putNone_ok]
  exact bind_ok.mpr ⟨v, hv, bind_ok.mpr ⟨h, hh, bind_ok.mpr ⟨(), waitFor_ok.mpr (by rw [hroom, hfree, hmay]; rfl), rfl⟩⟩⟩

section
variable {h : Handle} {v : V512} (hh : popEnd s (handleOf f.a) = .ok h) (hv : queueRead s (handleOf f.a) 0 = .ok v)
  (hd : dstReady s f.d = .ok ()) (hmay : mayFree s h 1 = true)
include hh hv hd hmay

/-- A pop into a v register delivers the slot once it is freed. -/
theorem qpop_whole {r : Fin 32} (hr : f.d = .v r) : exec (.qpop f) s = settle (put512 f (freeAt s h 1) v) := by
  refine (scalarRun_on hg _).trans (congrArg settle ?_)
  refine (bind_of_ok hh _).trans ((bind_of_ok hv _).trans ((bind_of_ok hd _).trans
    ((bind_of_ok (waitFor_ok (u := ()) |>.mpr hmay) _).trans ?_)))
  rw [hr]

/-- Any other pop delivers the slot's first 8 bytes. -/
theorem qpop_first (hno : ∀ r, f.d ≠ .v r) : exec (.qpop f) s = settle (put64 f (freeAt s h 1) (dwordOf v 0)) := by
  refine (scalarRun_on hg _).trans (congrArg settle ?_)
  refine (bind_of_ok hh _).trans ((bind_of_ok hv _).trans ((bind_of_ok hd _).trans
    ((bind_of_ok (waitFor_ok (u := ()) |>.mpr hmay) _).trans ?_)))
  cases hf : f.d with
  | v r => exact absurd hf (hno r)
  | _ => rfl

end

theorem qadv_ends {n : Nat} {h : Handle} (hn : countOf s f f.b = .ok n) (hh : popEnd s (handleOf f.a) = .ok h)
    (hc : n ≤ h.count) (hr : n ≤ h.ready) (hmay : mayFree s h n = true) :
    Ends (.qadv f) s (passed (used f (freeAt s h n))) := by
  refine ends_of_scalarRun rfl hg ?_
  rw [← putNone_ok]
  exact bind_ok.mpr ⟨n, hn, bind_ok.mpr ⟨h, hh, bind_ok.mpr ⟨(), need_ok.mpr (decide_eq_true hc),
    bind_ok.mpr ⟨(), waitFor_ok.mpr (by rw [decide_eq_true hr, hmay]; rfl), rfl⟩⟩⟩⟩

/-- A publication of n slots: of none, nothing changes. -/
theorem qprod_ends {n : Nat} {h : Handle} {u : State} (hn : countOf s f f.b = .ok n) (hh : producerEnd s (handleOf f.a) = .ok h)
    (hc : n ≤ h.count) (hw : n = 0 ∨ (hasRoom s h n = true ∧ mayPublish s h = true))
    (hu : (if n = 0 then s else publishSlots s h n) = u) : Ends (.qprod f) s (passed (used f u)) := by
  subst hu
  refine ends_of_scalarRun rfl hg ?_
  rw [← putNone_ok]
  exact bind_ok.mpr ⟨n, hn, bind_ok.mpr ⟨h, hh, bind_ok.mpr ⟨(), need_ok.mpr (decide_eq_true hc),
    bind_ok.mpr ⟨(), waitFor_ok.mpr (by simpa using hw), rfl⟩⟩⟩⟩

theorem qwaitFill_ends {n : Nat} {h : Handle} (hn : countOf s f f.b = .ok n)
    (hh : consumerEnd s (handleOf f.a) = .ok h) (hc : n ≤ h.count) (hr : n ≤ h.ready)
    (hdue : holdsDue s s.myCore s.myCtx (handleOf f.a).val = false) :
    Ends (.qwaitFill f) s (passed (used f s)) := by
  refine ends_of_scalarRun rfl hg ?_
  rw [← putNone_ok]
  exact bind_ok.mpr ⟨n, hn, bind_ok.mpr ⟨h, hh, bind_ok.mpr ⟨(), need_ok.mpr (decide_eq_true hc),
    bind_ok.mpr ⟨(), waitFor_ok.mpr (by rw [decide_eq_true hr, hdue]; rfl), rfl⟩⟩⟩⟩

theorem qwaitRoom_ends {n : Nat} {h : Handle} (hn : countOf s f f.b = .ok n) (hh : roomEnd s (handleOf f.a) = .ok h)
    (hc : n ≤ h.count) (hr : n ≤ h.free) : Ends (.qwaitRoom f) s (passed (used f s)) := by
  refine ends_of_scalarRun rfl hg ?_
  rw [← putNone_ok]
  exact bind_ok.mpr ⟨n, hn, bind_ok.mpr ⟨h, hh, bind_ok.mpr ⟨(), need_ok.mpr (decide_eq_true hc),
    bind_ok.mpr ⟨(), waitFor_ok.mpr (decide_eq_true hr), rfl⟩⟩⟩⟩

end

-- Interrupts of a ring (R255).

/-- What no interrupt line of a bank changes, a ring that fills leaves as it was. -/
theorem ringRose_leaves {β : Type} (g : State → β) (hg : ∀ s hid ctx line, g (raiseIn s hid ctx line) = g s)
    (s : State) (core ctx n : Nat) : g (ringRose s core ctx n) = g s := by
  refine foldl_leaves g (fun t k => ?_) _ s
  dsimp only
  split
  · exact hg _ _ _ _
  · rfl

/-- A raised line leaves of every bank all but its pending lines. -/
theorem bank_raiseIn {β : Type} (g : Hart → β) (hr : ∀ h line, g (h.raise line) = g h)
    (h0 : ∀ i j, g (Hart.atReset i) = g (Hart.atReset j)) (s : State) (hid ctx line i c : Nat) :
    g ((raiseIn s hid ctx line).bank i c) = g (s.bank i c) := by
  change g (Tab.get _ (Tab.put s.harts (hid * 128 + ctx) _) (i * 128 + c)) = _
  rw [Tab.get_put]
  split
  next e =>
    rw [hr, State.bank, State.bank, e]
    exact Tab.get_proj g (h0 _ _) _ _
  next => rfl

theorem atReset_feed (i j : Nat) : (Hart.atReset i).feed = (Hart.atReset j).feed := by
  have h : ∀ k, (Hart.atReset k).feed = [] := fun k => by
    unfold Hart.atReset
    split <;> rfl
  rw [h, h]

/-- What no interrupt line changes of the current hart. -/
theorem me_ringRose {β : Type} (g : Hart → β) (hr : ∀ h line, g (h.raise line) = g h)
    (h0 : ∀ i j, g (Hart.atReset i) = g (Hart.atReset j)) (s : State) (core ctx n : Nat) :
    g (ringRose s core ctx n).me = g s.me :=
  ringRose_leaves (fun t => g t.me) (fun t _ _ _ => bank_raiseIn g hr h0 t _ _ _ t.cur t.myCtx) s core ctx n

-- A slot pushed and read (R178, R251).

/-- A ring after one slot more is published. -/
def Ring.published (r : Ring) : Ring := { r with pp := (r.pp + 1) % 2 ^ 32 }

/-- An empty ring has one filled slot after a publication. -/
theorem Ring.filled_published {r : Ring} (he : r.pp = r.cp) (hc : r.cp < 2 ^ 32) : r.published.filled = 1 := by
  simp only [Ring.filled, Ring.published, he]
  omega

theorem Ring.visible_published {r : Ring} (he : r.pp = r.cp) (hc : r.cp < 2 ^ 32) (hm : r.markers = []) :
    r.published.visible = 1 := by
  have hm' : r.published.markers = [] := hm
  rw [Ring.visible, hm', Ring.filled_published he hc]

/-- Which context the current hart runs in rests on which hart it is and on the cores. -/
theorem myCtx_congr {s t : State} (hcur : t.cur = s.cur) (hcores : t.cores = s.cores) : t.myCtx = s.myCtx := by
  unfold State.myCtx State.ctxOf State.core State.myCore
  rw [hcur, hcores]

/-- A state in which a hart's ring has taken a slot's bytes and their publication, seen by the hart's consumer end. -/
structure SlotPushed (s t : State) (n : Fin 16) (r : Ring) (v : V512) : Prop where
  cur : t.cur = s.cur
  cores : t.cores = s.cores
  inFlight : t.inFlight = s.inFlight
  spad : t.spad = Mem.writeL s.spad (spadKey s.myCore s.myCtx (r.slotOff r.pp)) (bytesOf 64 v.toNat)
  ring : t.ring s.myCore s.myCtx n.val = r.published
  feed : t.me.feed = s.me.feed
  qbind : t.me.qbind = s.me.qbind

namespace SlotPushed

variable {s t : State} {n : Fin 16} {r : Ring} {v : V512} (h : SlotPushed s t n r v)
include h

theorem myCore : t.myCore = s.myCore := by rw [State.myCore, h.cur, State.myCore]

theorem myCtx : t.myCtx = s.myCtx := myCtx_congr h.cur h.cores

theorem todo (c : Nat) : (t.core c).todo = (s.core c).todo := by rw [State.core, h.cores, State.core]

theorem slotFree (c o : Nat) : Machine.slotFree t (c, o) = Machine.slotFree s (c, o) := by
  have hbefore : ∀ q : Request, q.before t (.hart s.cur) (.spad c o) 64 = q.before s (.hart s.cur) (.spad c o) 64 := fun q => by
    simp only [Request.before, bankAt_spad t s]
  simp only [Machine.slotFree, orderBusy, regionReady, h.inFlight, h.cur, h.todo, hbefore]

theorem spadRead (hwf : Mem.wf s.spad = true) :
    v512 (Machine.spadRead t s.myCore s.myCtx (r.slotOff r.pp) 64) = v := by
  have hl : (bytesOf 64 v.toNat).length = 64 := leBytes_length _ _
  have hread := Mem.readN_writeL (spadKey s.myCore s.myCtx (r.slotOff r.pp)) (bytesOf 64 v.toNat) hwf
  rw [hl] at hread
  rw [Machine.spadRead, h.spad, hread, v512_bytesOf]

/-- The consumer end of the handle is the ring with the slot. -/
theorem consumerEnd (hp : producerEnd s n = .ok (.local_ n.val r)) :
    Machine.consumerEnd t n = .ok (.local_ n.val r.published) := by
  obtain ⟨htodo, hbound, hmode, hno, -⟩ := producerEnd_local.mp hp
  have htour : r.published.tour = false := (Bool.or_eq_false_iff.mp hno).1
  refine bind_ok.mpr ⟨(), waitFor_ok.mpr (by rw [h.todo, h.myCore, htodo]; rfl), bind_ok.mpr ⟨(), need_ok.mpr ?_, ?_⟩⟩
  · rw [h.qbind]; exact hbound
  · rw [h.qbind, hmode, h.myCore, h.myCtx, h.ring]
    exact if_neg (by rw [htour]; decide)

/-- The slot pushed is the slot read. -/
theorem queueRead (hwf : Mem.wf s.spad = true) (hp : producerEnd s n = .ok (.local_ n.val r)) (he : r.pp = r.cp)
    (hc : r.cp < 2 ^ 32) (hcount : 0 < r.count) (hm : r.markers = []) (hv : r.visits = []) (hfeed : s.me.feed = [])
    (hfree : Machine.slotFree s (s.myCore, r.slotOff r.pp) = true) : Machine.queueRead t n 0 = .ok v := by
  have hnext : r.published.slotOff (r.published.cp + 0) = r.slotOff r.pp := by
    change r.slotOff r.cp = r.slotOff r.pp
    rw [he]
  have hvoid : r.published.voidAt t.clock 0 = false := by
    have hv' : r.published.visits = [] := hv
    rw [Ring.voidAt, hv']
    rfl
  have hready : (decide (0 < r.published.visible) && !r.published.voidAt t.clock 0 &&
      Machine.slotFree t (t.myCore, r.published.slotOff (r.published.cp + 0))) = true := by
    rw [hvoid, Ring.visible_published he hc hm, hnext, h.myCore, h.slotFree, hfree]
    rfl
  have hread : v512 (Machine.spadRead t t.myCore t.myCtx (r.published.slotOff (r.published.cp + 0)) 64) = v := by
    rw [hnext, h.myCore, h.myCtx, h.spadRead hwf]
  unfold Machine.queueRead
  rw [h.feed, hfeed]
  exact bind_ok.mpr ⟨_, h.consumerEnd hp, bind_ok.mpr ⟨(), need_ok.mpr (decide_eq_true hcount),
    bind_ok.mpr ⟨(), waitFor_ok.mpr hready, congrArg Except.ok hread⟩⟩⟩

/-- An interrupt of the ring changes nothing of it. -/
theorem ringRose (core ctx k : Nat) : SlotPushed s (ringRose t core ctx k) n r v where
  cur := (ringRose_leaves State.cur (fun _ _ _ _ => rfl) t core ctx k).trans h.cur
  cores := (ringRose_leaves State.cores (fun _ _ _ _ => rfl) t core ctx k).trans h.cores
  inFlight := (ringRose_leaves State.inFlight (fun _ _ _ _ => rfl) t core ctx k).trans h.inFlight
  spad := (ringRose_leaves State.spad (fun _ _ _ _ => rfl) t core ctx k).trans h.spad
  ring := (ringRose_leaves (fun u => u.ring s.myCore s.myCtx n.val) (fun _ _ _ _ => rfl) t core ctx k).trans h.ring
  feed := (me_ringRose Hart.feed (fun _ _ => rfl) atReset_feed t core ctx k).trans h.feed
  qbind := (me_ringRose Hart.qbind (fun _ _ => rfl) (fun i j => (atReset_qbind i).trans (atReset_qbind j).symm)
    t core ctx k).trans h.qbind

end SlotPushed

theorem ring_setRing_same (s : State) (core ctx : Nat) (n : Fin 16) (r : Ring) :
    (s.setRing core ctx n.val r).ring core ctx n.val = r := by
  have hu : (s.setRing core ctx n.val r).unit core ctx =
      { s.unit core ctx with rings := (s.unit core ctx).rings.set (Fin.ofNat 16 n.val) r } := Tab.get_put_same _ _ _ _
  rw [State.ring, hu]
  exact Vector.getElem_set_self _

/-- A slot's bytes change no ring. -/
theorem ring_slotWrite_local (s : State) (k c : Nat) (r : Ring) (v : V512) (core ctx n : Nat) :
    (slotWrite s (.local_ k r) c v).ring core ctx n = s.ring core ctx n := by
  have h : Onward s (slotWrite s (.local_ k r) c v) := spadWrite_onward _ _ _ _
  rw [State.ring, h.rings, State.ring]

theorem spad_slotWrite_local (s : State) (k c : Nat) (r : Ring) (v : V512) : (slotWrite s (.local_ k r) c v).spad =
    Mem.writeL s.spad (spadKey s.myCore s.myCtx (r.slotOff (r.pp + c))) (bytesOf 64 v.toNat) := by
  simp only [slotWrite, spadWrite, State.setUnit_spad]

theorem setRing_spad (s : State) (core ctx n : Nat) (r : Ring) : (s.setRing core ctx n r).spad = s.spad := rfl

/-- A push on a local handle leaves its slot to the consumer end. -/
theorem slotPushed {s : State} {n : Fin 16} {r : Ring} (v : V512) (hp : producerEnd s n = .ok (.local_ n.val r)) :
    SlotPushed s (publishSlots (slotWrite s (.local_ n.val r) 0 v) (.local_ n.val r) 1) n r v := by
  obtain ⟨-, -, -, -, -, hring⟩ := producerEnd_local.mp hp
  have hkeep : (slotWrite s (.local_ n.val r) 0 v).ring s.myCore s.myCtx n.val = r :=
    (ring_slotWrite_local _ _ _ _ _ _ _ _).trans hring.symm
  have hset : SlotPushed s ((slotWrite s (.local_ n.val r) 0 v).setRing s.myCore s.myCtx n.val
      { (slotWrite s (.local_ n.val r) 0 v).ring s.myCore s.myCtx n.val with
        pp := (((slotWrite s (.local_ n.val r) 0 v).ring s.myCore s.myCtx n.val).pp + 1) % 2 ^ 32 }) n r v :=
    { cur := rfl, cores := rfl, inFlight := rfl, spad := by rw [setRing_spad, spad_slotWrite_local, Nat.add_zero]
      feed := rfl, qbind := rfl
      ring := by rw [ring_setRing_same, hkeep]; rfl }
  change SlotPushed s (if _ then _ else _) n r v
  split
  · exact hset.ringRose _ _ _
  · exact hset

/-- Settles O15: each instruction from what its body asks for in turn; a slot pushed is read back through the state that
its publication leaves. -/
theorem queueMoveResults : Obligations.QueueMoveResults := by
  unfold Obligations.QueueMoveResults
  refine ⟨fun f s hg => ⟨fun v h => qpush_ends hg, fun h v hh hv hd hmay hd' => ⟨fun r hr => ?_, fun hno => ?_⟩,
    fun n h hn => ⟨fun hh => qadv_ends hg hn hh, fun hh hc h0 => ?_, fun hh hc h0 hroom hmay => ?_,
      fun hh => qwaitFill_ends hg hn hh, fun hh => qwaitRoom_ends hg hn hh⟩⟩,
    fun s n r v hwf hp he hc hcount hm hv hfeed hfree => (slotPushed v hp).queueRead hwf hp he hc hcount hm hv hfeed hfree⟩
  · exact gives512_of_put (qpop_whole hg hh hv hd hmay hr) hd'
  · exact gives64_of_put (qpop_first hg hh hv hd hmay hno) hd'
  · exact qprod_ends hg hn hh hc (.inl h0) (if_pos h0)
  · exact qprod_ends hg hn hh hc (.inr ⟨hroom, hmay⟩) (if_neg h0)

end Machine

end Sys2Proof

end

section
/-! PROOFS. A turn of step (R167, R176, R183, R199): a joined hart that stands at no boundary performs the instruction that
it fetches, and a turn of an event performs the event. -/

namespace Sys2Proof.Machine

open Sys2Proof.Safety

-- What a fetch and an issue leave of the current hart.

/-- The current hart rests on the banks, on which hart it is and on the context of its core. -/
theorem me_congr {s t : State} (hh : t.harts = s.harts) (hc : t.cur = s.cur)
    (ha : (t.core t.myCore).active = (s.core s.myCore).active) : t.me = s.me := by
  have hx : t.myCtx = s.myCtx := by
    have hcore : t.myCore = s.myCore := congrArg coreOf hc
    rw [State.myCtx, State.ctxOf, ha, hcore]
    rfl
  change Tab.get (Hart.atReset t.cur) t.harts (t.cur * 128 + t.myCtx) = Tab.get (Hart.atReset s.cur) s.harts _
  rw [hh, hc, hx]
  rfl

/-- A core's change of all but its context changes no hart. -/
theorem me_setCore {s : State} {c : Nat} {k : Core} (ha : k.active = (s.core c).active) : (s.setCore c k).me = s.me :=
  me_congr rfl rfl ((setCore_active ha) _)
where
  setCore_active {s : State} {c : Nat} {k : Core} (ha : k.active = (s.core c).active) (d : Nat) :
      ((s.setCore c k).core d).active = (s.core d).active := by
    change (Tab.get {} (Tab.put s.cores c k) d).active = _
    rw [Tab.get_put]
    split
    next e => rw [e, ha]
    next => rfl

theorem me_dropAhead (s : State) (ag : Agent) (ctx : Nat) (pl : Place) : (s.dropAhead ag ctx pl).me = s.me := by
  unfold State.dropAhead
  dsimp only
  split <;> rfl

theorem me_trip {s t : State} {r : Request} {q : Response} (h : trip s r = .ok (t, q)) : t.me = s.me := by
  rcases trip_ok h with ⟨_, _, rfl, _⟩ | ⟨_, _, rfl⟩
  · rfl
  · exact me_dropAhead _ _ _ _

theorem me_readTrip {s t : State} {dpa n : Nat} {e : TlbEntry} {va : W64} {ahead : Bool} {q : Response}
    (h : readTrip s dpa n e va ahead = .ok (t, q)) : t.me = s.me := by
  unfold readTrip at h
  split at h
  · cases h
  · obtain ⟨⟨u, r⟩, htrip, h⟩ := bind_ok.mp h
    obtain ⟨_, -, h⟩ := bind_ok.mp h
    cases h
    exact me_trip htrip

theorem me_fillILine (s : State) (core : Nat) (l : ILine) : (fillILine s core l).me = s.me := me_setCore rfl

theorem me_fetchLine {s t : State} {va : W64} {l : V512} (h : fetchLine s va = .ok (t, l)) : t.me = s.me := by
  unfold fetchLine at h
  dsimp only at h
  split at h
  · cases h
  · split at h
    · cases h
    · split at h
      · cases h; rfl
      · obtain ⟨target, -, h⟩ := bind_ok.mp h
        split at h
        · obtain ⟨⟨u, q⟩, hread, h⟩ := bind_ok.mp h
          cases h
          exact (me_fillILine _ _ _).trans (me_readTrip hread)
        · cases h

theorem me_fetchBytes {s t : State} {bytes : List Byte} (h : fetchBytes s = .ok (t, bytes)) : t.me = s.me := by
  unfold fetchBytes at h
  dsimp only at h
  split at h
  · cases h
  · obtain ⟨⟨u, l⟩, hl, h⟩ := bind_ok.mp h
    dsimp only at h
    split at h
    · cases h
      exact me_fetchLine hl
    · obtain ⟨⟨w, m⟩, hm, h⟩ := bind_ok.mp h
      cases h
      exact (me_fetchLine hm).trans (me_fetchLine hl)

/-- A translation that begins anew leaves the loads on their way. -/
theorem clearXlate_pend (s : State) : (clearXlate s s.cur).me.pend = s.me.pend := by
  unfold clearXlate
  dsimp only
  split
  · change (s.setMe { s.me with xlating := false, aheadVpn := none }).me.pend = s.me.pend
    rw [State.me_setMe]
  · split
    · change (s.setMe { s.me with xlating := false }).me.pend = s.me.pend
      rw [State.me_setMe]
    · rfl

theorem clearXlate_core (s : State) (hid c : Nat) : (clearXlate s hid).core c = s.core c := by
  unfold clearXlate
  dsimp only
  split
  · rfl
  · split <;> rfl

theorem noteIssue_pend (s : State) (yield : Bool) : (noteIssue s s.cur yield).me.pend = s.me.pend := by
  unfold noteIssue
  extract_lets core k rival n
  have ha : k.active = ((clearXlate s s.cur).core core).active := by rw [clearXlate_core]
  refine (congrArg Hart.pend (me_setCore ?_)).trans (clearXlate_pend s)
  exact ha

-- An instruction issued.

theorem fetchInstr_decodes {s u : State} {bytes : List Byte} {i : Instr} (hf : fetchBytes s = .ok (u, bytes))
    (hd : decodeFor u.me.repst (overlay u bytes) = .ok i) : fetchInstr s = .ok (u, i) := by
  unfold fetchInstr
  rw [hf]
  simp only [bind, Except.bind, hd]

/-- A hart that may act and stands at no boundary issues the instruction that it fetches. -/
theorem hartIssue_runs {s u : State} {i : Instr} (ha : s.me.awake = true) (hb : boundary s = none)
    (hs : s.me.sleep = none) (hf : fetchInstr s = .ok (u, i)) :
    hartIssue s = .run i (noteIssue u u.cur (yieldHint i)) := by
  simp only [hartIssue, ha, hb, hs, hf, Bool.not_true, Bool.false_eq_true, if_false, Option.isSome_none]

theorem runPending_none {s : State} (hp : s.me.pend = []) (op : Nat) (f : Fmt) (r : Result) : runPending s op f r = r := by
  simp only [runPending, hp, List.isEmpty_nil, if_true]

/-- The values that the execute stream has handed over are taken. -/
def State.taken (t : State) : State := if t.me.copyEA = [] then t else t.modMe (fun h => { h with copyEA := [] })

theorem State.taken_pend (t : State) : t.taken.me.pend = t.me.pend := by
  unfold State.taken
  split
  · rfl
  · rw [State.me_modMe]

/-- A joined hart's turn performs the instruction that it issues, while no load of it is on its way. -/
theorem joinedTurn_runs {s t : State} {i : Instr} (hi : hartIssue s = .run i t) (hp : t.me.pend = []) :
    joinedTurn s = exec i t.taken := by
  have htaken : (if t.me.copyEA.isEmpty then t else t.modMe (fun h => { h with copyEA := [] })) = t.taken := by
    simp only [State.taken, List.isEmpty_iff]
  unfold joinedTurn
  rw [hi]
  dsimp only
  rw [htaken]
  split
  · exact runPending_none (by rw [State.taken_pend, hp]) _ _ _
  · rfl

theorem hartTurn_runs {s u : State} {bytes : List Byte} {i : Instr} (hrun : s.me.running = true)
    (hfrozen : s.me.frozen = false) (hlag : s.me.lag = []) (hpend : s.me.pend = []) (hb : boundary s = none)
    (hsleep : s.me.sleep = none) (hf : fetchBytes s = .ok (u, bytes))
    (hd : decodeFor u.me.repst (overlay u bytes) = .ok i) :
    hartTurn s = exec i (noteIssue u u.cur (yieldHint i)).taken := by
  have hissue := hartIssue_runs (s.me.awake_iff.mpr ⟨hrun, hfrozen⟩) hb hsleep (fetchInstr_decodes hf hd)
  rw [hartTurn, hlag]
  exact joinedTurn_runs hissue (by rw [noteIssue_pend, me_fetchBytes hf, hpend])

-- The turns of step (log entry 7).

theorem addMeter_turns (s : State) (ctx k n : Nat) : (s.addMeter ctx k n).turns = s.turns := rfl

theorem countBusy_turns (s : State) (n : Nat) : (countBusy s n).turns = s.turns := by
  unfold countBusy
  refine foldl_leaves State.turns (fun t e => ?_) _ _
  split
  · refine foldl_leaves State.turns (fun u b => ?_) _ _
    split <;> rfl
  · rfl

theorem countDogs_turns (s : State) (n : Nat) : (countDogs s n).turns = s.turns := by
  unfold countDogs
  split <;> rfl

theorem advanceTime_turns (s : State) : (advanceTime s).turns = s.turns := by
  unfold advanceTime
  extract_lets now n working s1 s2 s3
  have h1 : s1.turns = s.turns := foldl_leaves State.turns (fun t k => addMeter_turns t _ _ _) working s
  have h2 : s2.turns = s1.turns := foldl_leaves State.turns (fun t c => by split <;> rfl) _ _
  have h3 : s3.turns = s2.turns := (countDogs_turns _ _).trans (countBusy_turns _ _)
  exact h3.trans (h2.trans h1)

section
variable {s : State}

theorem step_hart {id : Nat} {ts : List Turn} (h : s.turns = .hart id :: ts) :
    step s = turnOf { advanceTime s with turns := ts } id hartTurn := by
  simp only [step, takeTurn, advanceTime_turns, h]

theorem step_event {e : Instr} {ts : List Turn} (h : s.turns = .event e :: ts) :
    step s = eventTurn e { advanceTime s with turns := ts } := by
  simp only [step, takeTurn, advanceTime_turns, h]

theorem step_own (h : s.turns = []) : step s = ownTurn (advanceTime s) := by
  simp only [step, takeTurn, advanceTime_turns, h]

theorem turnOf_picked {id : Nat} {turn : State → Result} (h : pickHart s (coreOf id) = some id) :
    turnOf s id turn = turn { s with cur := id } := by
  simp only [turnOf, h, beq_self_eq_true, if_true]

theorem turnOf_other {id : Nat} {turn : State → Result} (h : pickHart s (coreOf id) ≠ some id) :
    turnOf s id turn = .next s := if_neg (by simpa using h)

theorem ownTurn_picked {a : State} {c id : Nat} (hn : nextAgent s = (a, .core c)) (hp : pickHart a c = some id) :
    ownTurn s = hartTurn { a with cur := id } := by
  simp only [ownTurn, hn, hp]

end

/-- Settles O48: the turn of the schedule or of the machine is the hart's own turn, which issues what it fetches. -/
theorem stepRunsTheDecodedInstruction : Obligations.StepRunsTheDecodedInstruction := by
  unfold Obligations.StepRunsTheDecodedInstruction
  intro s
  refine ⟨?_, fun e ts ht he => ?_⟩
  · intro runs
    have hruns : ∀ a, step s = hartTurn a → runs a :=
      fun a hstep u bytes i hrun hfrozen hlag hpend hb hsleep hf hd =>
        hstep.trans (hartTurn_runs hrun hfrozen hlag hpend hb hsleep hf hd)
    refine ⟨fun id ts ht => ⟨fun hp => ?_, fun hp => ?_⟩, fun a c id ht hn hp => ?_⟩
    · exact hruns _ ((step_hart ht).trans (turnOf_picked hp))
    · exact (step_hart ht).trans (turnOf_other hp)
    · exact hruns _ ((step_own ht).trans (ownTurn_picked hn hp))
  · rw [step_event ht, eventTurn, he]

end Sys2Proof.Machine

end

section
/-! PROOFS. The two streams of a hart apart (R161, R171 to R176, R178): what the access stream passes and keeps, what the
execute stream takes and changes, and what the data of a load become. -/

namespace Sys2Proof.Machine

open Sys2Proof.Safety

-- The queues between the streams (R172, R173).

theorem Hart.queueRoom_iff (h : Hart) (n : Nat) : h.queueRoom n = true ↔
    h.copyAE.length < 16 ∧ h.copyAE.length + n ≤ 16 ∧ h.branchQ.length < 32 := by
  simp [queueRoom, and_assoc]

/-- Operands that name no queue have their entries at once. -/
theorem entriesOf_registers (s : State) {os : List Operand} (hos : ∀ o ∈ os, isQueue o = false) :
    entriesOf s os = .ok (os.map s.me.entryOf) := by
  induction os with
  | nil => rfl
  | cons o os ih =>
    have htail := ih fun p hp => hos p (List.mem_cons_of_mem _ hp)
    have hhead := hos o (List.mem_cons_self ..)
    unfold entriesOf
    rw [htail]
    cases o with
    | q n c => cases hhead
    | _ => rfl

-- A hart as one of its streams leaves it (R161, R171).

namespace Hart

/-- The execute stream's marks of a merged hart are those of its execute side, the rest those of its access side. -/
theorem isDead_withExec (h e : Hart) (j : Nat) (hj : j < 64) :
    (h.withExec e).isDead j = if 16 ≤ j then e.isDead j else h.isDead j := by
  have hmask : ∀ k < 64, execDead.getLsbD k = decide (16 ≤ k) := by decide
  simp only [isDead, withExec, BitVec.getLsbD_or, BitVec.getLsbD_and, BitVec.getLsbD_not, hmask j hj, hj]
  split
  next h16 => simp [h16]
  next h16 => simp [h16]

/-- A merged hart reads its access-owned registers as its access side does. -/
theorem rx_withExec_access (h e : Hart) {r : Fin 32} (hr : r.val < 16) : (h.withExec e).rx r = h.rx r := by
  refine rx_congr _ ?_ ?_
  · simp [withExec, execX, Nat.not_le.mpr hr]
  · rw [isDead_withExec _ _ _ (by omega), if_neg (Nat.not_le.mpr hr)]

/-- A merged hart reads its execute-owned registers as its execute side does. -/
theorem rx_withExec_execute (h e : Hart) {r : Fin 32} (hr : 16 ≤ r.val) : (h.withExec e).rx r = e.rx r := by
  refine rx_congr _ ?_ ?_
  · simp [withExec, execX, hr]
  · rw [isDead_withExec _ _ _ (by omega), if_pos hr]

section
variable (h a : Hart) (i : Instr) (entries : List CopyEntry) (target : List W64) (taken : Nat) (branch : Bool)

theorem passedBy_x : (h.passedBy a i entries target).x = (a.withExec h).x := rfl
theorem passedBy_dead : (h.passedBy a i entries target).dead = (a.withExec h).dead := rfl
theorem passedBy_lag : (h.passedBy a i entries target).lag = h.lag ++ [i] := by simp only [passedBy]
theorem passedBy_epc : (h.passedBy a i entries target).epc = h.epc := by simp only [passedBy]
theorem passedBy_apc : (h.passedBy a i entries target).apc = a.apc := by simp only [passedBy, withExec]
theorem passedBy_v : (h.passedBy a i entries target).v = h.v := by simp only [passedBy, withExec]
theorem followed_x : (h.followed a taken branch).x = (h.withExec a).x := rfl
theorem followed_dead : (h.followed a taken branch).dead = (h.withExec a).dead := rfl

end

/-- A file of x registers and its marks give its reads. -/
theorem rx_of_file {h k : Hart} (hx : k.x = h.x) (hd : k.dead = h.dead) (r : Fin 32) : k.rx r = h.rx r :=
  rx_congr _ (by rw [hx]) (by rw [isDead, hd, isDead])

theorem rx_passedBy_access (h a : Hart) (i : Instr) (entries : List CopyEntry) (target : List W64) {r : Fin 32}
    (hr : r.val < 16) : (h.passedBy a i entries target).rx r = a.rx r :=
  (rx_of_file (passedBy_x ..) (passedBy_dead ..) r).trans (rx_withExec_access a h hr)

theorem rx_passedBy_execute (h a : Hart) (i : Instr) (entries : List CopyEntry) (target : List W64) {r : Fin 32}
    (hr : 16 ≤ r.val) : (h.passedBy a i entries target).rx r = h.rx r :=
  (rx_of_file (passedBy_x ..) (passedBy_dead ..) r).trans (rx_withExec_execute a h hr)

theorem rx_followed_access (h e : Hart) (taken : Nat) (branch : Bool) {r : Fin 32} (hr : r.val < 16) :
    (h.followed e taken branch).rx r = h.rx r :=
  (rx_of_file (followed_x ..) (followed_dead ..) r).trans (rx_withExec_access h e hr)

end Hart

-- The access stream's turn (R172 to R174).

section
variable {s : State} {i : Instr} {op : Nat} {f : Fmt}

/-- What an instruction takes of the queue toward the execute stream. -/
def passOps (op : Nat) (f : Fmt) : List Operand := if streamOf op f = .execute then entryOps op f else destOps op f

/-- Where the access stream may pass an instruction and there is room, it passes it as its stream asks. -/
theorem passTurn_passes (hm : mayPass op f = true) (hr : s.me.parted.queueRoom (passOps op f).length = true) :
    passTurn s i op f = if streamOf op f = .execute then passExecute s s.me.parted i op f
      else passIssued s s.me.parted i op f (runPending s op f (exec i (s.setMe s.me.parted))) := by
  have hlen : (if streamOf op f = .execute then (entryOps op f).length else (destOps op f).length) =
      (passOps op f).length := (apply_ite List.length _ _ _).symm
  simp only [passTurn, beq_iff_eq, hlen, hm, hr, Bool.and_self, Bool.not_true, Bool.false_eq_true, if_false]

theorem passTurn_waits (h : mayPass op f = false ∨ s.me.parted.queueRoom (passOps op f).length = false) :
    passTurn s i op f = none := by
  have hlen : (if streamOf op f = .execute then (entryOps op f).length else (destOps op f).length) =
      (passOps op f).length := (apply_ite List.length _ _ _).symm
  unfold passTurn
  dsimp only
  refine if_pos ?_
  simp only [beq_iff_eq, hlen]
  rcases h with h | h <;> simp [h]

/-- An execute instruction whose entries are there enters the queue with them. -/
theorem passExecute_ok {h : Hart} {off : Bool} {es : List CopyEntry}
    (hoff : (guardedOff h op f && !inExec (guardOp f)) = off) (he : entriesOf s (takenOps op f off) = .ok es) :
    passExecute s h i op f =
      some (.next (s.setMe (h.passedBy (if off then h else h.lastUse f).advance.awaken i es []))) := by
  subst hoff
  simp only [passExecute, he]

theorem passExecute_wait {h : Hart} {off : Bool} {t : State}
    (hoff : (guardedOff h op f && !inExec (guardOp f)) = off)
    (he : entriesOf s (takenOps op f off) = .error (.wait t)) :
    passExecute s h i op f = some (.next (t.modMe (fun h => { h with waiting := true }))) := by
  subst hoff
  simp only [passExecute, he]

/-- What stops the hart is left until the streams are joined. -/
theorem passIssued_frozen {h : Hart} {t : State} (hf : t.me.frozen = true) : passIssued s h i op f (.next t) = none := by
  simp only [passIssued, hf, if_true]

theorem passIssued_passes {h : Hart} {t : State} (hf : t.me.frozen = false) (hw : t.me.waiting = false) :
    passIssued s h i op f (.next t) = some (.next (t.setMe (h.passedBy t.me i ((destOps op f).map t.me.entryOf)
      (if queuedBranch op f then [t.me.apc] else [])))) := by
  simp only [passIssued, hf, hw, Bool.false_eq_true, if_false]

end

-- The execute stream's turn (R171, R173).

section
variable {s : State} {i : Instr} {op : Nat} {φ : Form} {f : Fmt} {rest : List Instr}
  (hi : i.parts = some (op, φ, f)) (hl : s.me.lag = i :: rest) (hx : streamOf op f = .execute)
include hi hl hx

theorem followTurn_waits (hv : s.me.handed (takenOps op f (offByEntry s.me op f)).length = none) : followTurn s = s := by
  simp only [followTurn, hl, hi, followOne, hx, hv]

theorem followTurn_issues {vs : List V512} {t : State}
    (hv : s.me.handed (takenOps op f (offByEntry s.me op f)).length = some vs)
    (ht : exec i (s.setMe (s.me.execView.withEntries ((takenOps op f (offByEntry s.me op f)).zip vs))) = .next t) :
    followTurn s = s.setMe (s.me.followed t.me (takenOps op f (offByEntry s.me op f)).length false) := by
  simp only [followTurn, hl, hi, followOne, hx, hv, ht]

end

-- The data of a load (R125, R173).

section
variable {k : Hart} {p : Pending} (data : Nat)

theorem Hart.loaded_only (hk : k.pend = [p]) : k.loaded p.id data = { k with
    pend := []
    x := if 16 ≤ p.reg.val then k.x else k.x.set p.reg (extend p.ty (data % 2 ^ p.ty.width))
    copyAE := k.copyAE.map (fun e =>
      if e == .awaits p.id then .ready ((extend p.ty (data % 2 ^ p.ty.width)).setWidth 512) else e) } := by
  simp [Hart.loaded, hk]

/-- The data of a load whose register the access stream owns come to the register. -/
theorem Hart.rx_loaded (hk : k.pend = [p]) (h0 : p.reg ≠ 0) (hr : p.reg.val < 16)
    (hd : k.isDead p.reg.val = false) : (k.loaded p.id data).rx p.reg = extend p.ty (data % 2 ^ p.ty.width) := by
  have hlive : (k.loaded p.id data).isDead p.reg.val = false := by
    rw [Hart.loaded_only data hk]
    exact hd
  rw [Hart.rx, if_neg (by simp [h0, hlive]), Hart.loaded_only data hk]
  simp [Nat.not_le.mpr hr]

end

/-- Settles O60: the access stream's turn by its stream and its queues, the execute stream's by the values that it is
handed, and the registers that each leaves to the other. -/
theorem streamsRunApart : Obligations.StreamsRunApart := by
  unfold Obligations.StreamsRunApart
  intro s i op φ f hi h off
  refine ⟨h.queueRoom_iff, fun hx hm hr => ?_, fun os => entriesOf_registers s, fun t hx hm hr hp ht hw => ?_,
    fun hm => passTurn_waits (.inl hm), fun hr => passTurn_waits (.inr hr), fun rest hl hx => ?_,
    fun k p data hk => ?_, fun g entries target => ?_⟩
  · have hpass : passTurn s i op f = passExecute s h i op f :=
      (passTurn_passes hm (by rw [passOps, if_pos hx]; exact hr)).trans (if_pos hx)
    exact ⟨fun es he => hpass.trans (passExecute_ok rfl he), fun t he => hpass.trans (passExecute_wait rfl he)⟩
  · have hpass : passTurn s i op f = passIssued s h i op f (.next t) := by
      rw [passTurn_passes hm (by rw [passOps, if_neg hx]; exact hr), if_neg hx, runPending_none hp, ht]
    exact ⟨fun hf => hpass.trans (passIssued_frozen hf), fun hf => hpass.trans (passIssued_passes hf hw)⟩
  · intro ops
    refine ⟨followTurn_waits hi hl hx, fun vs hv => ?_⟩
    intro view t ht
    have hturn := followTurn_issues hi hl hx hv ht
    have hme : (followTurn s).me = s.me.followed t.me ops.length false := by rw [hturn, State.me_setMe]
    refine ⟨hturn, ?_, ?_, ?_, fun r hr => ?_⟩
    · rw [hme]
      change s.me.lag.drop 1 = rest
      rw [hl, List.drop_one, List.tail_cons]
    · rw [hturn, State.setMe_mem]
    · rw [hturn, State.setMe_spad]
    · rw [hme, Hart.rx_followed_access _ _ _ _ hr]
  · intro l
    have hload : l = _ := Hart.loaded_only data hk
    refine ⟨?_, ?_, ?_, fun h0 hr hd => Hart.rx_loaded data hk h0 hr hd, ?_⟩
    · rw [hload]
    · rw [hload]
    · rw [hload]
    · rw [hload]
      simp only [beq_iff_eq]
  · intro k
    exact ⟨h.passedBy_lag .., h.passedBy_epc .., h.passedBy_apc .., h.passedBy_v ..,
      fun r => Hart.rx_passedBy_execute h g i entries target, fun r => Hart.rx_passedBy_access h g i entries target⟩

end Sys2Proof.Machine

end

section
/-! PROOFS. The frame of an instruction that computes from its operands to its destination (R181, R189, R226): where it
stops, its state is as it was, and where it completes, it has changed its destination, the marks of last-use hints and the
hart's progress alone. -/

namespace Sys2Proof.Machine

open Sys2Proof.Safety

-- What is kept of the current hart.

/-- The control and exception registers, and the handle bindings. -/
structure Controls where
  status : BitVec 4
  ipend : BitVec 8
  ienab : BitVec 8
  ivec : W64
  ipc : W64
  icause : BitVec 3
  irep : BitVec 36
  tcmp : W64
  cmask : W64
  budget : W64
  deadline : W64
  qbind : Vector W64 16

def Hart.controls (h : Hart) : Controls :=
  { status := h.status, ipend := h.ipend, ienab := h.ienab, ivec := h.ivec, ipc := h.ipc, icause := h.icause
    irep := h.irep, tcmp := h.tcmp, cmask := h.cmask, budget := h.budget, deadline := h.deadline, qbind := h.qbind }

/-- The second hart reads as the first, but for an instruction's destination and the registers of its last-use hints. -/
structure HartKept (f : Fmt) (h k : Hart) : Prop where
  x : ∀ r, f.d ≠ .x r → NotLast f (.x r) → k.rx r = h.rx r
  v : ∀ r, f.d ≠ .v r → NotLast f (.v r) → k.rv r = h.rv r
  p : ∀ r, f.d ≠ .p r → k.rp r = h.rp r
  controls : k.controls = h.controls

/-- The registers, their marks and the control registers of a hart. -/
def Hart.file (h : Hart) : Vector W64 32 × Vector V512 32 × Vector W64 8 × W64 × Controls :=
  (h.x, h.v, h.p, h.dead, h.controls)

namespace HartKept

variable {f : Fmt} {h k l : Hart}

theorem trans (hk : HartKept f h k) (kl : HartKept f k l) : HartKept f h l where
  x r hd hn := (kl.x r hd hn).trans (hk.x r hd hn)
  v r hd hn := (kl.v r hd hn).trans (hk.v r hd hn)
  p r hd := (kl.p r hd).trans (hk.p r hd)
  controls := kl.controls.trans hk.controls

/-- What changes no register keeps every read. -/
theorem of_file (e : k.file = h.file) : HartKept f h k := by
  obtain ⟨hx, hv, hp, hd, hc⟩ : k.x = h.x ∧ k.v = h.v ∧ k.p = h.p ∧ k.dead = h.dead ∧ k.controls = h.controls := by
    simpa [Hart.file] using e
  refine ⟨fun r _ _ => Hart.rx_of_file hx hd r, fun r _ _ => Hart.rv_congr _ ?_ ?_, fun r _ => Hart.rp_congr _ ?_, hc⟩
  · rw [hv]
  · rw [Hart.isDead, hd, Hart.isDead]
  · rw [hp]

theorem advance : HartKept f h h.advance := .of_file (by simp [Hart.file, Hart.controls])

theorem awaken : HartKept f h h.awaken := .of_file rfl

theorem wx {r : Fin 32} (v : W64) (hd : f.d = .x r) : HartKept f h (h.wx r v) where
  x q hq _ := h.rx_wx_other v fun e => hq (e ▸ hd)
  v q _ _ := h.rv_wx v r q
  p _ _ := Hart.rp_congr _ (by rw [Hart.wx_p])
  controls := by simp [Hart.controls]

theorem wv {r : Fin 32} (w : V512) (hd : f.d = .v r) : HartKept f h (h.wv r w) where
  x q _ _ := h.rx_wv w r q
  v _ hq _ := h.rv_wv_other w fun e => hq (e ▸ hd)
  p _ _ := rfl
  controls := rfl

theorem wp {r : Fin 8} (v : W64) (hd : f.d = .p r) : HartKept f h (h.wp r v) where
  x q _ _ := Hart.rx_of_file (by simp) (by simp) q
  v q _ _ := Hart.rv_congr _ (by simp) (by simp [Hart.isDead])
  p q hq := h.rp_wp_other v fun e => hq (e ▸ hd)
  controls := by simp [Hart.controls]

/-- The mark of one operand of an instruction (R181). -/
def mark (on : Bool) (o : Operand) (h : Hart) : Hart :=
  match on, o with
  | true, .x r => if r = 0 then h else h.kill r.val
  | true, .v r => h.kill (32 + r.val)
  | _, _ => h

theorem lastUse_eq (h : Hart) (f : Fmt) : h.lastUse f = mark f.hint.lastB f.b (mark f.hint.lastA f.a h) := rfl

theorem rx_mark {on : Bool} {o : Operand} {q : Fin 32} (hn : ¬ (on = true ∧ o = .x q)) (h : Hart) :
    (mark on o h).rx q = h.rx q := by
  unfold mark
  split
  next r =>
    split
    · rfl
    · exact h.rx_kill_other fun e => hn ⟨rfl, by rw [Fin.ext e]⟩
  next r => exact h.rx_kill_other (by omega)
  next => rfl

theorem rv_mark {on : Bool} {o : Operand} {q : Fin 32} (hn : ¬ (on = true ∧ o = .v q)) (h : Hart) :
    (mark on o h).rv q = h.rv q := by
  unfold mark
  split
  next r =>
    split
    · rfl
    · exact h.rv_kill_other (by omega)
  next r => exact h.rv_kill_other fun e => hn ⟨rfl, by rw [Fin.ext (Nat.add_left_cancel e)]⟩
  next => rfl

theorem lastUse : HartKept f h (h.lastUse f) where
  x r _ hn := by rw [lastUse_eq, rx_mark hn.2, rx_mark hn.1]
  v r _ hn := by rw [lastUse_eq, rv_mark hn.2, rv_mark hn.1]
  p r _ := Hart.rp_congr _ (by rw [Hart.lastUse_p])
  controls := by simp [Hart.controls]

end HartKept

-- What is kept of the state.

/-- The second state is the first but for the current hart, the packets it sends, and what is on its way. -/
structure OnlyHart (s t : State) : Prop where
  cur : t.cur = s.cur
  mem : t.mem = s.mem
  spad : t.spad = s.spad
  cores : t.cores = s.cores
  units : t.units = s.units
  ringNet : t.ringNet = s.ringNet
  launches : t.launches = s.launches
  meters : t.meters = s.meters
  time : t.time = s.time
  bank : ∀ hid ctx, hid * 128 + ctx ≠ s.cur * 128 + s.myCtx → t.bank hid ctx = s.bank hid ctx

namespace OnlyHart

variable {s t u : State}

theorem myCtx (h : OnlyHart s t) : t.myCtx = s.myCtx := myCtx_congr h.cur h.cores

theorem trans (h : OnlyHart s t) (k : OnlyHart t u) : OnlyHart s u where
  cur := k.cur.trans h.cur
  mem := k.mem.trans h.mem
  spad := k.spad.trans h.spad
  cores := k.cores.trans h.cores
  units := k.units.trans h.units
  ringNet := k.ringNet.trans h.ringNet
  launches := k.launches.trans h.launches
  meters := k.meters.trans h.meters
  time := k.time.trans h.time
  bank hid ctx hne := (k.bank hid ctx (by rwa [h.cur, h.myCtx])).trans (h.bank hid ctx hne)

theorem setMe (s : State) (h : Hart) : OnlyHart s (s.setMe h) :=
  ⟨rfl, rfl, rfl, rfl, rfl, rfl, rfl, rfl, rfl, fun _ _ hne => State.bank_setBank_other _ _ _ _ _ _ hne⟩

theorem dropAnswers (s : State) : OnlyHart s s.dropAnswers := by
  unfold State.dropAnswers
  split
  · exact ⟨rfl, rfl, rfl, rfl, rfl, rfl, rfl, rfl, rfl, fun _ _ _ => rfl⟩
  · exact ⟨rfl, rfl, rfl, rfl, rfl, rfl, rfl, rfl, rfl, fun _ _ _ => rfl⟩

theorem sendPacket (s : State) (src : Source) (ctx : Nat) (pc : W64) (f : TrapInfo) : OnlyHart s (s.sendPacket src ctx pc f) :=
  ⟨rfl, rfl, rfl, rfl, rfl, rfl, rfl, rfl, rfl, fun _ _ _ => rfl⟩

theorem takeFault (s : State) (f : TrapInfo) : OnlyHart s (s.takeFault f) := (setMe s _).trans (sendPacket _ _ _ _ _)

theorem ended (s : State) : OnlyHart s (ended s) := (dropAnswers s).trans (setMe _ _)

end OnlyHart

section
variable {f : Fmt} {s t : State}

theorem ended_me (s : State) : (ended s).me = s.me.awaken := by
  rw [ended, State.me_modMe, State.dropAnswers_me]

/-- What changes the current hart alone changes nothing but what that hart's registers show. -/
theorem onlyWrites_of_hart (h : OnlyHart s t) (hk : HartKept f s.me t.me) : OnlyWrites f s t := by
  have hc := hk.controls
  simp only [Hart.controls, Controls.mk.injEq] at hc
  exact ⟨h.mem, h.cores, h.launches, h.meters, h.time, fun _ a _ => by rw [h.spad], fun _ => ⟨h.spad, h.ringNet, h.units⟩,
    h.bank, hk.x, hk.v, hk.p, hc⟩

/-- A producer slot's bytes change of the scratchpads those bytes alone. -/
theorem read_slotWrite {n : Fin 16} {c : Fin 32} {e : Handle} (v : V512) (hd : f.d = .q n c)
    (he : queueReady s n c = .ok e) (hwf : Mem.wf s.spad = true) {a : Nat} (ha : OffSlot f s a) :
    Mem.read (slotWrite s e c.val v).spad a = Mem.read s.spad a := by
  cases e with
  | local_ k r =>
    rw [spad_slotWrite_local]
    exact Mem.read_writeL_outside _ _ hwf a (by simpa [bytesOf] using ha n c k r hd he)
  | link key l => rfl

/-- A slot write and what follows it of the current hart: what the slot's bytes, or their message, leave alone. -/
theorem onlyWrites_of_slot {n : Fin 16} {c : Fin 32} {e : Handle} {v : V512} (hd : f.d = .q n c)
    (he : queueReady s n c = .ok e) (h : OnlyHart (slotWrite s e c.val v) t) (hk : HartKept f s.me t.me) :
    OnlyWrites f s t := by
  have hc := hk.controls
  simp only [Hart.controls, Controls.mk.injEq] at hc
  have hslot : (slotWrite s e c.val v).mem = s.mem ∧ (slotWrite s e c.val v).cores = s.cores ∧
      (slotWrite s e c.val v).launches = s.launches ∧ (slotWrite s e c.val v).meters = s.meters ∧
      (slotWrite s e c.val v).time = s.time ∧ (slotWrite s e c.val v).harts = s.harts ∧
      (slotWrite s e c.val v).cur = s.cur := by
    cases e <;> exact ⟨rfl, rfl, rfl, rfl, rfl, rfl, rfl⟩
  obtain ⟨hmem, hcores, hlaunches, hmeters, htime, hharts, hcur⟩ := hslot
  have hctx := myCtx_congr hcur hcores
  refine ⟨h.mem.trans hmem, h.cores.trans hcores, h.launches.trans hlaunches, h.meters.trans hmeters, h.time.trans htime,
    fun hwf a ha => ?_, fun hno => absurd hd (hno n c), fun hid ctx hne => ?_, hk.x, hk.v, hk.p, hc⟩
  · rw [h.spad, read_slotWrite v hd he hwf ha]
  · refine (h.bank hid ctx (by rwa [hcur, hctx])).trans ?_
    rw [State.bank, hharts, State.bank]

end

end Sys2Proof.Machine

end

section
/-! PROOFS. The bodies of the instructions that compute: each stops with its state as it was, or delivers a result
(R178, R185, R189, R226). -/

namespace Sys2Proof.Machine

open Sys2Proof.Safety

/-- What stops an instruction leaves the state as it was. -/
def StopsAt (s : State) : Stop → Prop
  | .wait t => t = s
  | .fault t _ => t = s

/-- The body of an instruction at a state stops there, or, once ended, has changed its destination, the registers of
last-use hints and the hart's progress alone. -/
def Computes (f : Fmt) (s : State) (r : Act State) : Prop := Sat (StopsAt s) (fun t => OnlyWrites f s (ended t)) r

/-- A part of a body stops at its state or gives a value. -/
def Asks {α : Type} (s : State) (r : Act α) : Prop := Sat (StopsAt s) (fun _ => True) r

section
variable {s : State} {α : Type}

-- Sources (R178, R189).

theorem Asks.ok (a : α) : Asks s (.ok a : Act α) := Sat.ok trivial
theorem asks_fail (f : TrapInfo) : Asks s (fail s f : Act α) := Sat.error rfl
theorem asks_hold : Asks s (hold s : Act α) := Sat.error rfl

theorem Asks.bind {β : Type} {x : Act α} {k : α → Act β} (hx : Asks s x) (hk : ∀ a, Asks s (k a)) : Asks s (x >>= k) :=
  Sat.bind hx fun a _ => hk a

theorem Asks.ite {c : Prop} [Decidable c] {x y : Act α} (hx : Asks s x) (hy : Asks s y) : Asks s (if c then x else y) :=
  Sat.ite hx hy

theorem asks_need (b : Bool) (f : TrapInfo) : Asks s (need b s f) := .ite (.ok ()) (asks_fail f)
theorem asks_waitFor (b : Bool) : Asks s (waitFor b s) := .ite (.ok ()) asks_hold

theorem asks_consumerEnd (n : Fin 16) : Asks s (consumerEnd s n) := by
  refine .bind (asks_waitFor _) fun _ => .bind (asks_need _ _) fun _ => ?_
  split
  · exact .ite (asks_fail _) (.ok _)
  · exact asks_fail _
  · exact .ok _
  · exact .ite (.ok _) (asks_fail _)

theorem asks_linkEnd (n : Fin 16) : Asks s (linkEnd s n) := by
  unfold linkEnd
  dsimp only
  split
  · exact asks_fail _
  · exact .ite asks_hold (.ok _)

theorem asks_producerEnd (n : Fin 16) : Asks s (producerEnd s n) := by
  refine .bind (asks_waitFor _) fun _ => .bind (asks_need _ _) fun _ => ?_
  split
  · exact .ite (asks_fail _) (.ok _)
  · exact asks_linkEnd n
  · exact asks_fail _
  · exact .ite (asks_fail _) (asks_linkEnd n)

theorem asks_queueRead (n : Fin 16) (c : Fin 32) : Asks s (queueRead s n c) := by
  unfold queueRead
  split
  · exact .ok _
  · refine .bind (asks_consumerEnd n) fun h => .bind (asks_need _ _) fun _ => ?_
    split
    · exact asks_fail _
    · exact .bind (asks_waitFor _) fun _ => .ok _

theorem asks_queueReady (n : Fin 16) (c : Fin 32) : Asks s (queueReady s n c) :=
  .bind (asks_producerEnd n) fun _ => .bind (asks_need _ _) fun _ => .bind (asks_waitFor _) fun _ => .ok _

theorem asks_dstReady (o : Operand) : Asks s (dstReady s o) := by
  unfold dstReady
  split
  · exact .bind (asks_queueReady _ _) fun _ => .ok _
  · exact .ok _

theorem asks_src64 (o : Operand) (imm : W32) : Asks s (src64 s o imm) := by
  unfold src64
  split
  case h_4 => exact .bind (asks_queueRead _ _) fun _ => .ok _
  all_goals exact .ok _

theorem asks_src512 (o : Operand) : Asks s (src512 s o) := by
  unfold src512
  split
  · exact .ok _
  · exact asks_queueRead _ _
  · exact .ok _

theorem asks_srcAt (t : Ty) (o : Operand) : Asks s (srcAt s t o) := by
  unfold srcAt
  split
  · exact .ok _
  · exact .bind (asks_src64 _ _) fun _ => .ok _

theorem asks_srcLanes (t : Ty) (o : Operand) (imm : W32) : Asks s (srcLanes s t o imm) := by
  unfold srcLanes
  split
  case h_2 => exact .bind (asks_queueRead _ _) fun _ => .ok _
  all_goals exact .ok _

theorem asks_laneIndex (f : Fmt) : Asks s (laneIndex f s) := .bind (asks_src64 _ _) fun _ => .ok _

theorem asks_presentLanes (f : Fmt) : Asks s (presentLanes f s) := .bind (asks_srcLanes _ _ _) fun _ => .ok _

end

-- Results (R181, R189, R226).

section
variable {f : Fmt} {s : State}

/-- A change of the current hart and its progress. -/
theorem onlyWrites_of_modMe {g : Hart → Hart} (hg : HartKept f s.me (g s.me)) : OnlyWrites f s (ended (passed (s.modMe g))) := by
  refine onlyWrites_of_hart (((OnlyHart.setMe s _).trans (OnlyHart.setMe _ _)).trans (OnlyHart.ended _)) ?_
  rw [ended_me, passed, State.me_modMe, State.me_modMe]
  exact (hg.trans .advance).trans .awaken

theorem onlyWrites_passed : OnlyWrites f s (ended (passed (used f s))) := onlyWrites_of_modMe .lastUse

/-- A register written and the last uses marked. -/
theorem onlyWrites_register {g : Hart → Hart} (hg : ∀ h, HartKept f h (g h)) :
    OnlyWrites f s (ended (passed ((used f s).modMe g))) := by
  rw [used, State.modMe_modMe]
  exact onlyWrites_of_modMe (HartKept.lastUse.trans (hg _))

theorem spadWrite_modMe (g : Hart → Hart) (core ctx off : Nat) (bs : List Byte) :
    spadWrite (s.modMe g) core ctx off bs = (spadWrite s core ctx off bs).modMe g := rfl

theorem send_modMe (g : Hart → Hart) (m : RingMsg) : (s.modMe g).send m = (s.send m).modMe g := rfl

/-- Marks of last uses and a producer slot's bytes do not meet. -/
theorem slotWrite_used (e : Handle) (c : Nat) (v : V512) : slotWrite (used f s) e c v = used f (slotWrite s e c v) := by
  cases e with
  | local_ k r => exact spadWrite_modMe _ _ _ _ _
  | link key l =>
    have hstaged : stagedKey (used f s) key = stagedKey s key := by
      rw [stagedKey, used, State.me_modMe, Hart.lastUse_qbind, stagedKey]
    simp only [slotWrite, hstaged]
    exact send_modMe _ _

theorem slotWrite_me (e : Handle) (c : Nat) (v : V512) : (slotWrite s e c v).me = s.me := by
  cases e <;> rfl

/-- A producer slot written and the last uses marked. -/
theorem onlyWrites_slot {n : Fin 16} {c : Fin 32} {e : Handle} (v : V512) (hd : f.d = .q n c)
    (he : queueReady s n c = .ok e) : OnlyWrites f s (ended (passed (slotWrite (used f s) e c.val v))) := by
  rw [slotWrite_used]
  refine onlyWrites_of_slot hd he (((OnlyHart.setMe _ _).trans (OnlyHart.setMe _ _)).trans (OnlyHart.ended _)) ?_
  rw [ended_me, passed, State.me_modMe, used, State.me_modMe, slotWrite_me]
  exact (HartKept.lastUse.trans .advance).trans .awaken

theorem onlyWrites_wrote64 {v : W64} {t : State} (h : Wrote64 f s v t) : OnlyWrites f s t := by
  unfold Wrote64 at h
  split at h
  next r hd => exact h ▸ onlyWrites_register fun _ => .wx v hd
  next r hd => exact h ▸ onlyWrites_register fun _ => .wp v hd
  next n c hd =>
    obtain ⟨e, he, rfl⟩ := h
    exact onlyWrites_slot _ hd he
  next => exact h ▸ onlyWrites_passed

theorem onlyWrites_wrote512 {v : V512} {t : State} (h : Wrote512 f s v t) : OnlyWrites f s t := by
  unfold Wrote512 at h
  split at h
  next r hd => exact h ▸ onlyWrites_register fun _ => .wv v hd
  next n c hd =>
    obtain ⟨e, he, rfl⟩ := h
    exact onlyWrites_slot _ hd he
  next => exact h ▸ onlyWrites_passed

/-- A result is delivered where there is room, and where there is none yet the body stops. -/
theorem put64_computes (v : W64) : Computes f s (put64 f s v) := by
  have hask := asks_dstReady (s := s) f.d
  cases hd : dstReady s f.d with
  | ok u =>
    obtain ⟨t, ht, hw⟩ := put64_ok v hd
    rw [ht]
    exact .ok (onlyWrites_wrote64 hw)
  | error e =>
    rw [put64, hd]
    exact .raise (hask.of_error hd)

theorem put512_computes (v : V512) : Computes f s (put512 f s v) := by
  have hask := asks_dstReady (s := s) f.d
  cases hd : dstReady s f.d with
  | ok u =>
    obtain ⟨t, ht, hw⟩ := put512_ok v hd
    rw [ht]
    exact .ok (onlyWrites_wrote512 hw)
  | error e =>
    rw [put512, hd]
    exact .raise (hask.of_error hd)

theorem putLanes_computes (w : Nat) (new : List Nat) : Computes f s (putLanes f s w new) := put512_computes _

theorem putNone_computes : Computes f s (putNone f s) := by
  rw [putNone_ok]
  exact .ok onlyWrites_passed

theorem Computes.bind {α : Type} {x : Act α} {k : α → Act State} (hx : Asks s x) (hk : ∀ a, Computes f s (k a)) :
    Computes f s (x >>= k) := Sat.bind hx fun a _ => hk a

theorem Computes.ite {c : Prop} [Decidable c] {x y : Act State} (hx : Computes f s x) (hy : Computes f s y) :
    Computes f s (if c then x else y) := Sat.ite hx hy

-- How an instruction ends, whatever it ends in.

theorem onlyWrites_settle {r : Act State} {t : State} (h : Computes f s r) (ht : settle r = .next t) : OnlyWrites f s t := by
  cases h with
  | ok h =>
    rw [settle_ok] at ht
    cases ht
    exact h
  | @error e h =>
    cases e with
    | wait u =>
      cases h
      rw [settle_wait] at ht
      cases ht
      refine onlyWrites_of_hart (OnlyHart.setMe _ _) (.of_file ?_)
      rw [State.me_modMe]
      rfl
    | fault u i =>
      cases h
      rw [settle_fault] at ht
      cases ht
      refine onlyWrites_of_hart ((OnlyHart.dropAnswers _).trans (OnlyHart.takeFault _ _)) (.of_file ?_)
      rw [State.takeFault_me, State.dropAnswers_me]
      rfl

theorem onlyWrites_skip {t : State} (ht : skip s = .next t) : OnlyWrites f s t := by
  cases ht
  refine onlyWrites_of_hart (OnlyHart.setMe _ _) ?_
  rw [State.me_modMe]
  exact HartKept.advance.trans .awaken

theorem onlyWrites_scalarRun {b : Act State} {t : State} (h : Computes f s b) (ht : scalarRun f s b = .next t) :
    OnlyWrites f s t := by
  unfold scalarRun at ht
  split at ht
  · exact onlyWrites_settle h ht
  · exact onlyWrites_skip ht

end

end Sys2Proof.Machine

end

section
/-! PROOFS. The frame of the scalar instructions that compute (R233 to R243, R380, R382), and of the vector instructions
that access no memory (R259 to R308): what each asks of its sources, and the result that it delivers. -/

namespace Sys2Proof.Machine

open Sys2Proof.Safety

/-- An instruction under the scalar guard whose body computes. -/
def ScalarBody (mk : Fmt → Instr) : Prop := ∀ f s, ∃ b, exec (mk f) s = scalarRun f s b ∧ Computes f s b

/-- An instruction that always issues and whose body computes. -/
def VectorBody (mk : Fmt → Instr) : Prop := ∀ f s, ∃ b, exec (mk f) s = settle b ∧ Computes f s b

section
variable {mk : Fmt → Instr} {f : Fmt} {s t : State}

theorem ScalarBody.frame (h : ScalarBody mk) (ht : exec (mk f) s = .next t) : OnlyWrites f s t := by
  obtain ⟨b, hx, hb⟩ := h f s
  exact onlyWrites_scalarRun hb (hx.symm.trans ht)

theorem VectorBody.frame (h : VectorBody mk) (ht : exec (mk f) s = .next t) : OnlyWrites f s t := by
  obtain ⟨b, hx, hb⟩ := h f s
  exact onlyWrites_settle hb (hx.symm.trans ht)

-- Scalar bodies that differ in their result alone.

theorem ScalarBody.immediate {v : Fmt → State → W64} (hx : ∀ f s, exec (mk f) s = scalarRun f s (put64 f s (v f s))) :
    ScalarBody mk := fun f s => ⟨_, hx f s, put64_computes _⟩

theorem ScalarBody.unary {v : Fmt → State → W64 → W64}
    (hx : ∀ f s, exec (mk f) s = scalarRun f s (src64 s f.a f.imm >>= fun a => put64 f s (v f s a))) : ScalarBody mk :=
  fun f s => ⟨_, hx f s, .bind (asks_src64 _ _) fun _ => put64_computes _⟩

theorem ScalarBody.binary {v : Fmt → State → W64 → W64 → W64}
    (hx : ∀ f s, exec (mk f) s = scalarRun f s
      (src64 s f.a f.imm >>= fun a => src64 s f.b f.imm >>= fun b => put64 f s (v f s a b))) : ScalarBody mk :=
  fun f s => ⟨_, hx f s, .bind (asks_src64 _ _) fun _ => .bind (asks_src64 _ _) fun _ => put64_computes _⟩

theorem ScalarBody.float {op : Fmt → State → Mode → Val → Val → Val}
    (hx : ∀ f s, exec (mk f) s = scalarRun f s (floatBinary f s (op f s))) : ScalarBody mk :=
  fun f s => ⟨_, hx f s, .bind (asks_srcAt _ _) fun _ => .bind (asks_srcAt _ _) fun _ => put64_computes _⟩

-- Scalar bodies of their own.

theorem nop_body : ScalarBody .nop := fun _ _ => ⟨_, rfl, putNone_computes⟩

/-- An A of none is not read. -/
theorem movhi_body : ScalarBody .movhi := fun _ _ =>
  ⟨_, rfl, .bind (.ite (.ok _) (asks_src64 _ _)) fun _ => put64_computes _⟩

theorem csrr_body : ScalarBody .csrr := fun f s => ⟨_, rfl, by split <;> exact put64_computes _⟩

theorem cvt_body : ScalarBody .cvt := fun _ _ => ⟨_, rfl, .bind (asks_srcAt _ _) fun _ => put64_computes _⟩

/-- A meter of another context is asked for before it is read. -/
theorem mtrd_body : ScalarBody .mtrd := fun _ _ =>
  ⟨_, rfl, .bind (asks_dstReady _) fun _ => .bind (asks_need _ _) fun _ => put64_computes _⟩

-- Vector bodies that differ in their result alone.

theorem VectorBody.lanes1 {ty : Fmt → Ty} {w : Fmt → State → Nat} {v : Fmt → State → List Nat → List Nat}
    (hx : ∀ f s, exec (mk f) s = settle (srcLanes s (ty f) f.a f.imm >>= fun a => putLanes f s (w f s) (v f s a))) :
    VectorBody mk := fun f s => ⟨_, hx f s, .bind (asks_srcLanes _ _ _) fun _ => putLanes_computes _ _⟩

theorem VectorBody.lanes2 {ty : Fmt → Ty} {w : Fmt → State → Nat} {v : Fmt → State → List Nat → List Nat → List Nat}
    (hx : ∀ f s, exec (mk f) s = settle (srcLanes s (ty f) f.a f.imm >>= fun a => srcLanes s (ty f) f.b f.imm >>= fun b =>
      putLanes f s (w f s) (v f s a b))) : VectorBody mk :=
  fun f s => ⟨_, hx f s, .bind (asks_srcLanes _ _ _) fun _ => .bind (asks_srcLanes _ _ _) fun _ => putLanes_computes _ _⟩

end

-- Vector bodies of their own.

section
variable {f : Fmt} {s : State}

/-- A second vector source of which none gives zeros. -/
theorem asks_lanesOrZero : Asks s
    (if f.b.isNone then .ok (List.replicate f.ty.lanes 0) else srcLanes s f.ty f.b f.imm : Act (List Nat)) :=
  .ite (.ok _) (asks_srcLanes _ _ _)

end

theorem vcmp_body : VectorBody .vcmp := fun _ _ =>
  ⟨_, rfl, .bind (asks_srcLanes _ _ _) fun _ => .bind (asks_srcLanes _ _ _) fun _ => put64_computes _⟩

theorem vsel_body : VectorBody .vsel := fun _ _ =>
  ⟨_, rfl, .bind (asks_srcLanes _ _ _) fun _ => .bind asks_lanesOrZero fun _ => putLanes_computes _ _⟩

theorem vslide_body : VectorBody .vslide := fun _ _ =>
  ⟨_, rfl, .bind (asks_srcLanes _ _ _) fun _ => .bind asks_lanesOrZero fun _ => putLanes_computes _ _⟩

/-- A lane that is guarded off gives zero to a producer slot, and nothing to a register (R285). -/
theorem vext_body : VectorBody .vext := fun f s => by
  refine ⟨_, rfl, .bind (asks_src512 _) fun v => .bind (asks_laneIndex f) fun i => .ite (put64_computes _) ?_⟩
  split
  · exact put64_computes _
  · exact putNone_computes

/-- The value inserted is that of a slot's first 8 bytes, or lane 0 of the source (R285). -/
theorem vins_body : VectorBody .vins := fun f s => by
  refine ⟨_, rfl, .bind ?_ fun a => .bind (asks_laneIndex f) fun i => putLanes_computes _ _⟩
  split
  · exact .bind (asks_queueRead _ _) fun _ => .ok _
  · exact .bind (asks_srcLanes _ _ _) fun _ => .ok _

theorem viota_body : VectorBody .viota := fun _ _ => ⟨_, rfl, putLanes_computes _ _⟩

theorem vpopc_body : VectorBody .vpopc := fun _ _ => ⟨_, rfl, put64_computes _⟩

/-- A reduction reads a start value where B names one (R288). -/
theorem vred_body : VectorBody .vred := fun f _ =>
  ⟨_, rfl, .bind (asks_presentLanes f) fun _ =>
    .ite (put64_computes _) (.bind (asks_src64 _ _) fun _ => put64_computes _)⟩

theorem vscan_body : VectorBody .vscan := fun f _ =>
  ⟨_, rfl, .bind (asks_presentLanes f) fun _ => putLanes_computes _ _⟩

theorem vdot_body : VectorBody .vdot := fun _ _ =>
  ⟨_, rfl, .bind (asks_srcLanes _ _ _) fun _ => .bind (asks_srcLanes _ _ _) fun _ => put512_computes _⟩

theorem vlut_body : VectorBody .vlut := fun _ _ =>
  ⟨_, rfl, .bind (asks_src512 _) fun _ => .bind (asks_srcLanes _ _ _) fun _ => putLanes_computes _ _⟩

theorem vcvtp_body : VectorBody .vcvtp := fun _ _ =>
  ⟨_, rfl, .bind (asks_srcLanes _ _ _) fun _ => .bind (asks_src64 _ _) fun _ => put512_computes _⟩

theorem vrequ_body : VectorBody .vrequ := fun _ _ =>
  ⟨_, rfl, .bind (asks_src512 _) fun _ => .bind (asks_src64 _ _) fun _ => putLanes_computes _ _⟩

/-- Variant 0 of vbexp gives the mantissas, the other one the scale bytes (R304). -/
theorem vbexp_body : VectorBody .vbexp := fun _ _ =>
  ⟨_, rfl, .bind (asks_srcLanes _ _ _) fun _ => .ite (putLanes_computes _ _) (put64_computes _)⟩

theorem vplane_body : VectorBody .vplane := fun _ _ =>
  ⟨_, rfl, .bind (asks_srcLanes _ _ _) fun _ => put512_computes _⟩

theorem vunpl_body : VectorBody .vunpl := fun _ _ => ⟨_, rfl, .bind (asks_src512 _) fun _ => putLanes_computes _ _⟩

/-- Settles O52: each scalar instruction asks for its sources and delivers a result. -/
theorem scalarFrame : Obligations.ScalarFrame := by
  unfold Obligations.ScalarFrame
  intro mk f s t hmk ht
  refine ScalarBody.frame ?_ ht
  clear ht
  revert mk
  simp only [List.forall_mem_cons, List.not_mem_nil, false_imp_iff, implies_true, and_true]
  exact ⟨nop_body, .binary fun _ _ => rfl, .binary fun _ _ => rfl, .binary fun _ _ => rfl, .binary fun _ _ => rfl,
    .binary fun _ _ => rfl, .binary fun _ _ => rfl, .binary fun _ _ => rfl, .binary fun _ _ => rfl,
    .binary fun _ _ => rfl, .binary fun _ _ => rfl, .binary fun _ _ => rfl, .binary fun _ _ => rfl,
    .binary fun _ _ => rfl, .binary fun _ _ => rfl, .binary fun _ _ => rfl, .unary fun _ _ => rfl,
    .binary fun _ _ => rfl, .binary fun _ _ => rfl, .unary fun _ _ => rfl, movhi_body, .unary fun _ _ => rfl,
    .unary fun _ _ => rfl, .binary fun _ _ => rfl, .binary fun _ _ => rfl, csrr_body, cvt_body,
    .float fun _ _ => rfl, .float fun _ _ => rfl, .float fun _ _ => rfl, .immediate fun _ _ => rfl, mtrd_body⟩

/-- Settles O53: each vector instruction asks for its lanes and delivers a result. -/
theorem vectorFrame : Obligations.VectorFrame := by
  unfold Obligations.VectorFrame
  intro mk f s t hmk ht
  refine VectorBody.frame ?_ ht
  clear ht
  revert mk
  simp only [List.forall_mem_cons, List.not_mem_nil, false_imp_iff, implies_true, and_true]
  exact ⟨.lanes2 fun _ _ => rfl, .lanes2 fun _ _ => rfl, .lanes2 fun _ _ => rfl, .lanes2 fun _ _ => rfl,
    .lanes2 fun _ _ => rfl, .lanes2 fun _ _ => rfl, .lanes2 fun _ _ => rfl, .lanes2 fun _ _ => rfl,
    .lanes2 fun _ _ => rfl, .lanes2 fun _ _ => rfl, .lanes2 fun _ _ => rfl, .lanes2 fun _ _ => rfl,
    .lanes2 fun _ _ => rfl, vcmp_body, vsel_body, .lanes1 fun _ _ => rfl, .lanes1 fun _ _ => rfl, vext_body,
    vins_body, .lanes2 fun _ _ => rfl, vslide_body, vred_body, vscan_body, vpopc_body, .lanes1 fun _ _ => rfl,
    .lanes1 fun _ _ => rfl, .lanes2 fun _ _ => rfl, .lanes2 fun _ _ => rfl, viota_body, .lanes1 fun _ _ => rfl,
    vcvtp_body, vrequ_body, .lanes2 fun _ _ => rfl, vbexp_body, .lanes2 fun _ _ => rfl, .lanes1 fun _ _ => rfl,
    .lanes1 fun _ _ => rfl, vdot_body, vlut_body, vplane_body, vunpl_body⟩

end Sys2Proof.Machine

end

section
/-! PROOFS. The encoder and the decoder (R183 to R201): each field of an instruction word is read back as it was written,
and a word's opcode and variant name the constructor that was encoded. -/

namespace Sys2Proof

-- The bytes of an instruction (R183).

theorem leNat_append (xs ys : List Byte) : leNat (xs ++ ys) = leNat xs + 256 ^ xs.length * leNat ys := by
  induction xs with
  | nil => simp [leNat]
  | cons b xs ih =>
    simp only [List.cons_append, leNat, ih, List.length_cons, pow_succ]
    ring

theorem wordBytes_length (ws : List W32) : (wordBytes ws).length = 4 * ws.length := by
  induction ws with
  | nil => rfl
  | cons w ws ih => rw [wordBytes, List.length_append, leBytes_length, ih, List.length_cons]; ring

theorem leNat_wordBytes_cons (w : W32) (ws : List W32) :
    leNat (wordBytes (w :: ws)) = w.toNat + 2 ^ 32 * leNat (wordBytes ws) := by
  have hw : w.toNat % 256 ^ 4 = w.toNat := Nat.mod_eq_of_lt w.isLt
  rw [wordBytes, leNat_append, leNat_leBytes, leBytes_length, hw]
  rfl

theorem leNat_wordBytes_nil : leNat (wordBytes []) = 0 := rfl

theorem encodeWord_of_parts {i : Instr} {op : Nat} {φ : Form} {f : Fmt} (hp : i.parts = some (op, φ, f)) :
    encodeWord i = some (f.word op) := by
  rw [encodeWord, hp]
  rfl

/-- The decoder reads from the bytes of an encoded instruction the word that was encoded. -/
theorem decode_wordBytes_encode {i : Instr} {w : Nat} (hi : encodeWord i = some w) (hw : w < 2 ^ 96) (inBody : Bool) :
    decode inBody (wordBytes (encode i)) = decodeWord inBody w := by
  have hlen : (wordBytes (encode i)).length = 12 := by rw [wordBytes_length, encode, hi]; rfl
  have hnat : leNat (wordBytes (encode i)) = w := by
    simp only [encode, hi, leNat_wordBytes_cons, BitVec.toNat_ofNat, leNat_wordBytes_nil]
    omega
  rw [decode, ← hlen, List.take_length, hnat]

-- The fields of a word (R184 to R187, R190).

theorem guardOf_bits (g : Guard) : guardOf g.bits = g := by
  obtain ⟨neg, p⟩ := g
  revert neg p
  decide

theorem hintOf_bits (h : Hint) : hintOf h.bits = h := by
  obtain ⟨yield, stagD, stagA, stagB, lastA, lastB, stall⟩ := h
  revert yield stagD stagA stagB lastA lastB stall
  decide

theorem Ty.ofCode_code (t : Ty) : Ty.ofCode t.code = t := by
  cases t <;> rfl

theorem CReg.num_lt (r : CReg) : r.num < 512 := by
  cases r with
  | qbind n => have := n.isLt; simp only [CReg.num]; omega
  | _ => decide

theorem CReg.ofNum_num (r : CReg) : CReg.ofNum r.num = some r := by
  cases r with
  | qbind n => revert n; decide
  | _ => rfl

/-- An operand field splits into its kind and its index (R187). -/
theorem operandField (k i : Nat) (hk : k < 8) (hi : i < 512) : (k * 512 + i) / 512 % 8 = k ∧ (k * 512 + i) % 512 = i := by
  omega

theorem operandOf_bits (o : Operand) : operandOf o.bits = some o := by
  cases o with
  | x r => revert r; decide
  | v r => revert r; decide
  | p r => revert r; decide
  | q h c =>
    obtain ⟨hk, hi⟩ := operandField 3 (h.val * 32 + c.val) (by omega) (by omega)
    have hh : (h.val * 32 + c.val) / 32 = h.val := by omega
    simp [operandOf, Operand.bits, Nat.add_assoc, hk, hi, hh, Fin.ofNat, Fin.ext_iff]
  | tile t => revert t; decide
  | csr r =>
    obtain ⟨hk, hi⟩ := operandField 5 r.num (by omega) r.num_lt
    simp [operandOf, Operand.bits, hk, hi, CReg.ofNum_num]
  | const c =>
    obtain ⟨hk, hi⟩ := operandField 6 c.toNat (by omega) c.isLt
    simp [operandOf, Operand.bits, hk, hi]
  | none => rfl

theorem operandOf_bits_accepted {ks : List Kind} {t : Ty} {o : Operand} (h : accepted ks t o = true) :
    (operandOf o.bits).filter (accepted ks t) = some o := by
  rw [operandOf_bits, Option.filter_some, if_pos h]

theorem Guard.bits_lt (g : Guard) : g.bits < 16 := by
  have := g.p.isLt
  unfold Guard.bits
  split <;> omega

theorem Hint.bits_lt (h : Hint) : h.bits < 256 := by
  obtain ⟨yield, stagD, stagA, stagB, lastA, lastB, stall⟩ := h
  revert yield stagD stagA stagB lastA lastB stall
  decide

theorem Ty.code_lt (t : Ty) : t.code < 16 := by
  cases t <;> decide

theorem Operand.bits_lt (o : Operand) : o.bits < 4096 := by
  cases o with
  | csr r => have := r.num_lt; simp only [Operand.bits]; omega
  | const c => have := c.isLt; simp only [Operand.bits]; omega
  | _ => simp only [Operand.bits]; omega

theorem Fmt.fields_lt (f : Fmt) : f.guard.bits < 16 ∧ f.hint.bits < 256 ∧ f.ty.code < 16 ∧ f.var.val < 16 ∧
    f.d.bits < 4096 ∧ f.a.bits < 4096 ∧ f.b.bits < 4096 ∧ f.imm.toNat < 2 ^ 32 :=
  ⟨f.guard.bits_lt, f.hint.bits_lt, f.ty.code_lt, f.var.isLt, f.d.bits_lt, f.a.bits_lt, f.b.bits_lt, f.imm.isLt⟩

/-- A word holds an opcode and an instruction's fields, each in the bits of R184. -/
structure Fmt.HeldBy (f : Fmt) (op w : Nat) : Prop where
  opcode : slice w 95 88 = op
  guard : slice w 87 84 = f.guard.bits
  hint : slice w 83 76 = f.hint.bits
  ty : slice w 75 72 = f.ty.code
  var : slice w 71 68 = f.var.val
  d : slice w 67 56 = f.d.bits
  a : slice w 55 44 = f.a.bits
  b : slice w 43 32 = f.b.bits
  imm : w % 2 ^ 32 = f.imm.toNat

theorem Fmt.word_lt {op : Nat} (hop : op < 256) (f : Fmt) : f.word op < 2 ^ 96 := by
  obtain ⟨hg, hh, ht, hv, hd, ha, hb, hm⟩ := f.fields_lt
  unfold Fmt.word
  omega

theorem Fmt.heldBy_word {op : Nat} (hop : op < 256) (f : Fmt) : f.HeldBy op (f.word op) := by
  obtain ⟨hg, hh, ht, hv, hd, ha, hb, hm⟩ := f.fields_lt
  constructor <;> simp only [Fmt.word, slice] <;> omega

-- The constructors of an opcode (R201).

/-- `mk` is the constructor that the decoder takes for an opcode and a variant, `i` is `mk` of its fields, and `mk` of
other fields has the same opcode and accepts the same. -/
def Instr.BuiltBy (i : Instr) (op : Nat) (φ : Form) (f : Fmt) (mk : Fmt → Instr) : Prop :=
  ctorOf op f.var.val = some mk ∧ i = mk f ∧ ∀ g, (mk g).parts = some (op, φ, g)

/-- Where an opcode has several constructors, the variant that each accepts is the one that names it. -/
theorem exists_builtBy {i : Instr} {op : Nat} {φ : Form} {f : Fmt} (hp : i.parts = some (op, φ, f))
    (hv : φ.var f.ty f.var.val f.imm.toNat = true) : ∃ mk, i.BuiltBy op φ f mk := by
  cases i with
  | pref | fenceSc | cinvLine | qwaitFill | qstat | tour | trel | tstat | splprepOpen | splstat | rngget | mxwm | mxstat
  | cpstat | hstat | hloadCode | kvmap | kvswapFork | stadvGen | cstat | tlbinvPage | keyld | ctxsw =>
    cases hp
    have hvar : f.var.val = 0 := eq_of_beq hv
    exact ⟨_, by rw [hvar]; rfl, rfl, fun _ => rfl⟩
  | prefRow | fenceIo | cinvAll | qwaitRoom | qstatHead | tourBind | trelEnd | tstatHead | splprepStage | splstatTake
  | rnggetLeft | mxwmWait | mxstatSticky | cpstatLog | hstatH | hloadTmpl | kvmapApp | kvswapAccept | stadvPlay | cstatClr
  | tlbinvCtx | keyldClear | ctxswStat =>
    cases hp
    have hvar : f.var.val = 1 := eq_of_beq hv
    exact ⟨_, by rw [hvar]; rfl, rfl, fun _ => rfl⟩
  | qstatTail | splprepBind | splstatInh | kvmapWr | kvswapReject | tlbinvAll =>
    cases hp
    have hvar : f.var.val = 2 := eq_of_beq hv
    exact ⟨_, by rw [hvar]; rfl, rfl, fun _ => rfl⟩
  | splprepDrop =>
    cases hp
    have hvar : f.var.val = 3 := eq_of_beq hv
    exact ⟨_, by rw [hvar]; rfl, rfl, fun _ => rfl⟩
  -- The other opcodes have one constructor each; the events have no parts.
  | _ => cases hp <;> exact ⟨_, rfl, rfl, fun _ => rfl⟩

theorem Instr.opcode_lt {i : Instr} {op : Nat} {φ : Form} {f : Fmt} (hp : i.parts = some (op, φ, f)) : op < 256 := by
  cases i <;> cases hp <;> decide

-- What a well-formed instruction's fields pass (R197).

theorem Form.operandFault_eq_zero {φ : Form} {f : Fmt} : φ.operandFault f = 0 ↔
    accepted (φ.d f.var.val) f.ty f.d = true ∧ accepted (φ.a f.var.val) f.ty f.a = true ∧
      accepted (φ.b f.var.val) f.ty f.b = true := by
  unfold Form.operandFault
  grind

theorem Form.ok_iff {φ : Form} {f : Fmt} : φ.ok f = true ↔
    f.guard.ok = true ∧ φ.ty f.ty = true ∧ φ.var f.ty f.var.val f.imm.toNat = true ∧
      (accepted (φ.d f.var.val) f.ty f.d = true ∧ accepted (φ.a f.var.val) f.ty f.a = true ∧
        accepted (φ.b f.var.val) f.ty f.b = true) ∧ φ.imm f = true := by
  simp only [Form.ok, Bool.and_eq_true, beq_iff_eq, Form.operandFault_eq_zero, and_assoc]

-- Decoding a word.

section
variable {f : Fmt} {op w : Nat} (hw : f.HeldBy op w)
include hw

theorem rawFmt_of_heldBy (d a b : Operand) : rawFmt w d a b = { f with d := d, a := a, b := b } := by
  have himm : BitVec.ofNat 32 w = f.imm := BitVec.eq_of_toNat_eq ((BitVec.toNat_ofNat _ _).trans hw.imm)
  rw [rawFmt, hw.guard, hw.hint, hw.ty, hw.var, guardOf_bits, hintOf_bits, Ty.ofCode_code, Fin.ofNat_val_eq_self, himm]

/-- The checks of R197 pass, one by one, on a word that holds well-formed fields. -/
theorem decodeAs_of_heldBy {inBody : Bool} {φ : Form} (mk : Fmt → Instr) (hok : φ.ok f = true)
    (hbody : inBody = true → barredInBody op = false ∧ f.staggerFault = 0) : decodeAs inBody w mk φ = .ok (mk f) := by
  obtain ⟨hguard, hty, hvar, ⟨hd, ha, hb⟩, himm⟩ := Form.ok_iff.mp hok
  have hbar : (inBody && barredInBody op) = false := by
    cases inBody with
    | false => rfl
    | true => exact (hbody rfl).1
  have hstag : (inBody && f.staggerFault != 0) = false := by
    cases inBody with
    | false => rfl
    | true => rw [(hbody rfl).2]; rfl
  simp only [decodeAs, rawFmt_of_heldBy hw, hw.opcode, hw.d, hw.a, hw.b, operandOf_bits_accepted hd,
    operandOf_bits_accepted ha, operandOf_bits_accepted hb, hguard, hty, hvar, himm, hbar, hstag, Bool.not_true,
    Bool.false_eq_true, if_false]

theorem decodeWord_of_heldBy {i : Instr} {φ : Form} {mk : Fmt → Instr} (h : i.BuiltBy op φ f mk) (inBody : Bool) :
    decodeWord inBody w = decodeAs inBody w mk φ := by
  obtain ⟨hmk, -, hparts⟩ := h
  simp only [decodeWord, hw.opcode, hw.var, hmk, hparts]

end

/-- A program instruction whose fields are well-formed, and allowed in a rep body where one is in progress, is decoded
from its word. -/
theorem decodeWord_word {i : Instr} {op : Nat} {φ : Form} {f : Fmt} {inBody : Bool} (hp : i.parts = some (op, φ, f))
    (hok : φ.ok f = true) (hbody : inBody = true → barredInBody op = false ∧ f.staggerFault = 0) :
    decodeWord inBody (f.word op) = .ok i := by
  obtain ⟨-, -, hvar, -⟩ := Form.ok_iff.mp hok
  obtain ⟨mk, hmk⟩ := exists_builtBy hp hvar
  have hheld := f.heldBy_word (Instr.opcode_lt hp)
  rw [decodeWord_of_heldBy hheld hmk, decodeAs_of_heldBy hheld mk hok hbody]
  obtain ⟨-, hi, -⟩ := hmk
  rw [hi]

/-- The same from its bytes. -/
theorem decode_encode {i : Instr} {op : Nat} {φ : Form} {f : Fmt} {inBody : Bool} (hp : i.parts = some (op, φ, f))
    (hok : φ.ok f = true) (hbody : inBody = true → barredInBody op = false ∧ f.staggerFault = 0) :
    decode inBody (wordBytes (encode i)) = .ok i := by
  rw [decode_wordBytes_encode (encodeWord_of_parts hp) (f.word_lt (Instr.opcode_lt hp)), decodeWord_word hp hok hbody]

/-- A word that encodes a well-formed instruction decodes to it. -/
theorem decodeWord_of_encodeWord {i : Instr} {w : Nat} (hw : encodeWord i = some w) (hwf : i.wf = true) :
    decodeWord false w = .ok i := by
  obtain ⟨⟨op, φ, f⟩, hp, rfl⟩ := Option.map_eq_some_iff.mp hw
  rw [Instr.wf, hp] at hwf
  exact decodeWord_word hp hwf nofun

/-- Settles O46: the fields of the word are those that were encoded, and pass the checks of the decoder. -/
theorem encodingRoundTrip : Obligations.EncodingRoundTrip := by
  unfold Obligations.EncodingRoundTrip
  intro i op φ f hp
  refine ⟨fun h => ?_, fun h => ?_⟩
  · rw [Instr.wf, hp] at h
    exact decode_encode hp h nofun
  · simp only [Instr.wfInBody, hp, Bool.and_eq_true, Bool.not_eq_true', beq_iff_eq] at h
    obtain ⟨⟨hok, hbar⟩, hstag⟩ := h
    exact decode_encode hp hok fun _ => ⟨hbar, hstag⟩

/-- Settles O47: the accepted words encode well-formed instructions; each of the others fails the check that names it. -/
theorem decodedWords : Obligations.DecodedWords := by
  unfold Obligations.DecodedWords
  intro at3
  refine ⟨?_, ?_, ?_, ?_, ?_, ?_, ?_, ?_, ?_, ?_, ?_, ?_, ?_, ?_, ?_, ?_, by decide, by decide, by decide⟩
  all_goals exact decodeWord_of_encodeWord (by decide) (by decide)

end Sys2Proof

end

section
/-! PROOFS. Integer arithmetic (R200, R226, R233): what the narrowing of an exact result to w bits leaves of the values of
the operands' low w bits. -/

namespace Sys2Proof

-- Signed readings and wrapping.

theorem toSigned_modEq (w x : Nat) : toSigned w x ≡ x [ZMOD ((2 ^ w : Nat) : Int)] := by
  have hlow : ((x % 2 ^ w : Nat) : Int) ≡ x [ZMOD ((2 ^ w : Nat) : Int)] :=
    Int.natCast_modEq_iff.mpr (Nat.mod_modEq _ _)
  unfold toSigned
  dsimp only
  split
  · exact (Int.modEq_iff_dvd.mpr ⟨1, by ring⟩).trans hlow
  · exact hlow

theorem toSigned_zero (w : Nat) : toSigned w 0 = 0 := by
  simp [toSigned]

theorem wrapInt_natCast (w n : Nat) : wrapInt w n = n % 2 ^ w := by
  rw [wrapInt, ← Int.natCast_mod, Int.toNat_natCast]

theorem wrapInt_eq_of_modEq {w n : Nat} {x : Int} (h : x ≡ n [ZMOD ((2 ^ w : Nat) : Int)]) : wrapInt w x = n % 2 ^ w := by
  rw [← wrapInt_natCast, wrapInt, h, wrapInt]

namespace Machine

open Sys2Proof.Safety

-- The values of the low bits (R190, R226).

theorem lowBits_lt (t : Ty) (v : W64) : lowBits t v < 2 ^ t.width :=
  Nat.mod_lt _ (by positivity)

/-- Either class's value of w bits is the same number modulo 2^w. -/
theorem valueOf_modEq (t : Ty) (x : Nat) : valueOf t x ≡ x [ZMOD ((2 ^ t.width : Nat) : Int)] := by
  unfold valueOf
  split
  · exact toSigned_modEq _ _
  · exact Int.natCast_modEq_iff.mpr (Nat.mod_modEq _ _)

theorem valueOf_zero (t : Ty) : valueOf t 0 = 0 := by
  simp [valueOf, toSigned_zero]

theorem wrapInt_valueOf (t : Ty) {x : Nat} (h : x < 2 ^ t.width) : wrapInt t.width (valueOf t x) = x := by
  rw [wrapInt_eq_of_modEq (valueOf_modEq t x), Nat.mod_eq_of_lt h]

theorem valueOf_ne_zero {t : Ty} {x : Nat} (h : x < 2 ^ t.width) (hx : x ≠ 0) : valueOf t x ≠ 0 := by
  intro h0
  have hmod := wrapInt_valueOf t h
  rw [h0] at hmod
  exact hx (hmod.symm.trans ((wrapInt_natCast _ 0).trans (Nat.zero_mod _)))

-- Exact results narrowed (R233).

section
variable (t : Ty) (x y : Nat)

theorem wrapInt_valueOf_add : wrapInt t.width (valueOf t x + valueOf t y) = (x + y) % 2 ^ t.width := by
  refine wrapInt_eq_of_modEq ?_
  push_cast
  exact (valueOf_modEq t x).add (valueOf_modEq t y)

theorem wrapInt_valueOf_sub {y : Nat} (h : y < 2 ^ t.width) :
    wrapInt t.width (valueOf t x - valueOf t y) = (x + (2 ^ t.width - y)) % 2 ^ t.width := by
  refine wrapInt_eq_of_modEq (((valueOf_modEq t x).sub (valueOf_modEq t y)).trans (Int.modEq_iff_dvd.mpr ⟨1, ?_⟩))
  rw [Nat.cast_add, Nat.cast_sub h.le]
  ring

theorem wrapInt_valueOf_mul : wrapInt t.width (valueOf t x * valueOf t y) = x * y % 2 ^ t.width := by
  refine wrapInt_eq_of_modEq ?_
  push_cast
  exact (valueOf_modEq t x).mul (valueOf_modEq t y)

/-- The choice between two values is the choice between the operands. -/
theorem wrapInt_ite_valueOf {x y : Nat} (hx : x < 2 ^ t.width) (hy : y < 2 ^ t.width) (p : Prop) [Decidable p] :
    wrapInt t.width (if p then valueOf t x else valueOf t y) = if p then x else y := by
  rw [apply_ite (wrapInt t.width), wrapInt_valueOf t hx, wrapInt_valueOf t hy]

/-- The quotient of a division by zero: all ones (R200, R233). -/
theorem wrapInt_divide_zero (a : Int) : wrapInt t.width (divide t a 0) = 2 ^ t.width - 1 := by
  have hpos : 0 < 2 ^ t.width := by positivity
  have hcast : ((2 ^ t.width : Nat) : Int) - 1 = ((2 ^ t.width - 1 : Nat) : Int) := (Nat.cast_pred hpos).symm
  rw [divide, if_pos rfl, hcast, wrapInt_natCast, Nat.mod_eq_of_lt (by omega)]

end

theorem divide_of_ne_zero {t : Ty} {b : Int} (a : Int) (h : b ≠ 0) : divide t a b = a.tdiv b := if_neg h

theorem remainder_zero (a : Int) : remainder a 0 = a := if_pos rfl

theorem remainder_of_ne_zero {b : Int} (a : Int) (h : b ≠ 0) : remainder a b = a.tmod b := by
  rw [remainder, if_neg h, Int.tmod_def]

theorem narrow_false (t : Ty) (x : Int) : narrow t false x = wrapInt t.width x := rfl

theorem narrow_sat (t : Ty) (x : Int) : narrow t true x = wrapInt t.width (clampInt (tyMin t) (tyMax t) x) := rfl

-- Two-operand instructions.

section
variable {i : Instr} {f : Fmt} {s : State} {a b : W64} (h : Sourced f s a b)
include h

/-- A two-operand instruction gives what its operation makes of the low bits of its sources. -/
theorem gives64_binary {op : Nat → Nat → Nat} {r : Nat} (hx : exec i s = scalarRun f s (binary f s op))
    (hr : op (lowBits f.ty a) (lowBits f.ty b) = r) : Gives64 i f s s (extend f.ty r) := by
  obtain ⟨hg, ha, hb, hd⟩ := h
  refine gives64_of_put ?_ hd
  rw [hx, scalarRun_on hg, binary, ha, hb, ← hr]
  rfl

/-- The same of an operation on their values, whose exact result is narrowed. -/
theorem gives64_intBinary {sat : Bool} {op : Int → Int → Int} {r : Nat}
    (hx : exec i s = scalarRun f s (intBinary f s sat op))
    (hr : narrow f.ty sat (op (valueOf f.ty (lowBits f.ty a)) (valueOf f.ty (lowBits f.ty b))) = r) :
    Gives64 i f s s (extend f.ty r) := by
  unfold intBinary at hx
  exact gives64_binary h hx hr

end

/-- Settles O1: each operation on the low bits or on their values, the exact result narrowed to w bits. -/
theorem integerResults : Obligations.IntegerResults := by
  unfold Obligations.IntegerResults
  refine ⟨fun f s a b h => ?_, fun f s a b h => ?_⟩
  all_goals
    have hx := lowBits_lt f.ty a
    have hy := lowBits_lt f.ty b
    intro w x y sx sy
  · refine ⟨fun hv => gives64_intBinary h rfl ?_, fun hv => gives64_intBinary h rfl ?_,
      fun hv => gives64_intBinary h rfl ?_, fun hv => gives64_intBinary h rfl ?_,
      gives64_intBinary h rfl (wrapInt_valueOf_mul f.ty x y), gives64_intBinary h rfl rfl,
      gives64_binary h rfl rfl, gives64_binary h rfl rfl, gives64_binary h rfl rfl, gives64_binary h rfl rfl,
      gives64_binary h rfl rfl, gives64_binary h rfl rfl, gives64_binary h rfl rfl,
      gives64_intBinary h rfl (wrapInt_ite_valueOf f.ty hx hy _),
      gives64_intBinary h rfl (wrapInt_ite_valueOf f.ty hy hx _)⟩
    · rw [beq_false_of_ne hv]; exact wrapInt_valueOf_add f.ty x y
    · rw [beq_of_eq hv]; exact narrow_sat f.ty _
    · rw [beq_false_of_ne hv]; exact wrapInt_valueOf_sub f.ty x hy
    · rw [beq_of_eq hv]; exact narrow_sat f.ty _
  · refine ⟨fun h0 => gives64_intBinary h rfl ?_, fun h0 => gives64_intBinary h rfl ?_,
      fun h0 => gives64_intBinary h rfl ?_, fun h0 => gives64_intBinary h rfl ?_⟩
    · rw [narrow_false, show lowBits f.ty b = 0 from h0, valueOf_zero, wrapInt_divide_zero]
    · rw [narrow_false, show lowBits f.ty b = 0 from h0, valueOf_zero, remainder_zero, wrapInt_valueOf f.ty hx]
    · rw [narrow_false, divide_of_ne_zero _ (valueOf_ne_zero hy h0)]
    · rw [narrow_false, remainder_of_ne_zero _ (valueOf_ne_zero hy h0)]

end Machine

end Sys2Proof

end

section
/-! PROOFS. Instructions whose guard is false (R185, R197): which check, if any, stands before the scalar guard. -/

namespace Sys2Proof.Machine

section
variable {i : Instr} {f : Fmt} {s : State} (hg : guardOn f s = false)
include hg

theorem skips_of_scalarRun (hx : ∃ b, exec i s = scalarRun f s b) : exec i s = skip s := by
  obtain ⟨b, hx⟩ := hx
  rw [hx, scalarRun_off hg]

theorem skips_of_privileged {ok : Bool} (hok : ok = true) (hx : ∃ b, exec i s = privileged ok s (scalarRun f s b)) :
    exec i s = skip s := by
  obtain ⟨b, hx⟩ := hx
  rw [hx, privileged_true hok, scalarRun_off hg]

theorem skips_of_onCompute (hc : isSup s.cur = false) (hx : ∃ b, exec i s = onCompute s (scalarRun f s b)) :
    exec i s = skip s := by
  obtain ⟨b, hx⟩ := hx
  rw [hx, onCompute, if_neg (by simp [hc]), scalarRun_off hg]

end

/-- A control register may be written in S mode, and in U mode where it is open to it (R240). -/
theorem mayWriteCsr_of {h : Hart} {o : Operand} (hm : ∀ r, o = .csr r → r.userWritable = false → h.modeS = true) :
    mayWriteCsr h o = true := by
  cases o with
  | csr r =>
    cases hr : r.userWritable with
    | true => simp [mayWriteCsr, hr]
    | false => simp [mayWriteCsr, hm r rfl hr]
  | _ => rfl

/-- Settles O51: by the check that stands before the guard, the privilege check, the one for a compute core, or none. -/
theorem guardedOffSkips : Obligations.GuardedOffSkips := by
  unfold Obligations.GuardedOffSkips
  intro i op φ f s hp hvec hg hmode hcsr hsup hcore
  cases i with
  | eret | tlbinvPage | tlbinvCtx | tlbinvAll =>
    cases hp
    exact skips_of_privileged hg (hmode (by decide)) ⟨_, rfl⟩
  | keyld | keyldClear | ctxsw | ctxswStat =>
    cases hp
    exact skips_of_privileged hg (keyldMay_iff.mpr ⟨hsup (by decide), hmode (by decide)⟩) ⟨_, rfl⟩
  | csrw | csrs | csrc =>
    cases hp
    exact skips_of_privileged hg (mayWriteCsr_of (fun r => hcsr r (by decide))) ⟨_, rfl⟩
  | tour | tourBind | trel | trelEnd | tstat | tstatHead | splprepOpen | splprepStage | splprepBind | splprepDrop | splinj
  | splstat | splstatTake | splstatInh | mxq | mxwm | mxwmWait | mxrd | mxwr | mxcont | mxstat | mxstatSticky | exq | hstart
  | hstat | hstatH | hloadCode | hloadTmpl =>
    cases hp
    exact skips_of_onCompute hg (hcore (by decide)) ⟨_, rfl⟩
  | vadd | vsub | vmul | vfma | vfms | vmin | vmax | vand | vor | vxor | vshl | vshr | vsra | vcmp | vsel | vun | vmov | vext
  | vins | vperm | vslide | vred | vscan | vpopc | vcompr | vexpnd | vzip | vunzip | viota | vld | vst | vldx | vstx | vlds
  | vsts | vcvt | vcvtp | vrequ | vscacc | vbexp | vclip | vpod | vpodd | vdot | vlut | vplane | vunpl =>
    cases hp
    exact absurd (by decide) hvec
  -- No check stands before the guard of the others; the events have no parts.
  | _ => cases hp <;> exact skips_of_scalarRun hg ⟨_, rfl⟩

end Sys2Proof.Machine

end

section
/-! PROOFS. Bit counts, comparison, selection, moves, bit fields, predicate logic and addresses (R233 to R239), and scalar
floats and conversions (R242, R243): an instruction whose sources are read and whose destination has room delivers what
its operation makes of the sources. -/

namespace Sys2Proof.Machine

open Sys2Proof.Safety

section
variable {i : Instr} {f : Fmt} {s : State} {a b v : W64}

/-- A scalar instruction whose guard holds and whose body comes to the delivery of a result. -/
theorem gives64_of_body {body : Act State} {u : State} (hg : guardOn f s = true) (hx : exec i s = scalarRun f s body)
    (hb : body = put64 f u v) (hd : dstReady u f.d = .ok ()) : Gives64 i f s u v :=
  gives64_of_put (hx.trans ((scalarRun_on hg body).trans (congrArg settle hb))) hd

/-- An instruction of two sources delivers its result of both. -/
theorem gives64_of_sourced {r : W64 → W64 → W64} (h : Sourced f s a b)
    (hx : exec i s = scalarRun f s (src64 s f.a f.imm >>= fun a => src64 s f.b f.imm >>= fun b => put64 f s (r a b)))
    (hr : r a b = v) : Gives64 i f s s v := by
  obtain ⟨hg, ha, hb, hd⟩ := h
  exact gives64_of_body hg hx ((bind_of_ok ha _).trans ((bind_of_ok hb _).trans (congrArg (put64 f s) hr))) hd

/-- An instruction of one source delivers its result of it. -/
theorem gives64_of_sourcedA {r : W64 → W64} (h : SourcedA f s a)
    (hx : exec i s = scalarRun f s (src64 s f.a f.imm >>= fun a => put64 f s (r a))) (hr : r a = v) :
    Gives64 i f s s v := by
  obtain ⟨hg, ha, hd⟩ := h
  exact gives64_of_body hg hx ((bind_of_ok ha _).trans (congrArg (put64 f s) hr)) hd

-- Moves of the high half (R236).

theorem movhi_gives (h : SourcedA f s a) (hn : f.a ≠ .none) :
    Gives64 (.movhi f) f s s (BitVec.ofNat 64 (a.toNat % 2 ^ 32 + f.imm.toNat * 2 ^ 32)) := by
  obtain ⟨hg, ha, hd⟩ := h
  have hsrc : (if f.a.isNone then .ok 0 else src64 s f.a f.imm : Act W64) = .ok a :=
    (if_neg (mt operand_isNone_iff.mp hn)).trans ha
  exact gives64_of_body hg rfl (bind_of_ok hsrc _) hd

/-- Without an A operand the low half is zero. -/
theorem movhi_gives_of_none (h : SourcedA f s a) (hn : f.a = .none) :
    Gives64 (.movhi f) f s s (BitVec.ofNat 64 (f.imm.toNat * 2 ^ 32)) := by
  obtain ⟨hg, -, hd⟩ := h
  have hsrc : (if f.a.isNone then .ok 0 else src64 s f.a f.imm : Act W64) = .ok 0 :=
    if_pos (operand_isNone_iff.mpr hn)
  refine gives64_of_body hg rfl ((bind_of_ok hsrc _).trans ?_) hd
  congr 2
  exact Nat.zero_add _

end

/-- Settles O2: each instruction's operation on its sources; a comparison is told by its destination, a bit field by its
class, and the others by their variant. -/
theorem scalarLogicResults : Obligations.ScalarLogicResults := by
  unfold Obligations.ScalarLogicResults
  intro f s
  refine ⟨fun a b h => ⟨fun r hd => gives64_of_sourced h rfl ?_, fun r hd => gives64_of_sourced h rfl ?_,
      gives64_of_sourced h rfl rfl, gives64_of_sourced h rfl rfl, fun hv => gives64_of_sourced h rfl ?_,
      fun hv => gives64_of_sourced h rfl ?_, fun hv => gives64_of_sourced h rfl ?_⟩,
    fun a h => ⟨gives64_of_sourcedA h rfl rfl, fun hv => gives64_of_sourcedA h rfl ?_,
      fun hv => gives64_of_sourcedA h rfl ?_, fun hv => gives64_of_sourcedA h rfl ?_,
      fun hv => gives64_of_sourcedA h rfl ?_, movhi_gives h, movhi_gives_of_none h,
      fun ht => gives64_of_sourcedA h rfl ?_, fun ht => gives64_of_sourcedA h rfl ?_,
      fun r hd => gives64_of_sourcedA h rfl ?_⟩⟩
  -- cmp (R234)
  · rw [hd]; rfl
  · rw [hd]; rfl
  -- addr (R239)
  · rw [hv]; rfl
  · rw [hv]; rfl
  · rw [hv]; rfl
  -- bits (R233)
  · rw [hv]; rfl
  · rw [hv]; rfl
  · rw [hv]; rfl
  · rw [hv]; rfl
  -- ext and ins (R237)
  · rw [ht]; rfl
  · rw [ht]; rfl
  · rw [hd]; rfl

-- Scalar floats and conversions (R242, R243).

section
variable {f : Fmt} {s : State}

/-- A float instruction of two sources rounds its exact result once. -/
theorem gives64_floatBinary {i : Instr} {a b : Nat} {op : Mode → Val → Val → Val} (h : Open f s)
    (hx : exec i s = scalarRun f s (floatBinary f s op)) (ha : srcAt s f.ty f.a = .ok a) (hb : srcAt s f.ty f.b = .ok b) :
    Gives64 i f s s (extend f.ty (roundFloat (floatForm f.ty) (modeOf f.var.val) (satOf f.var.val)
      (op (modeOf f.var.val) (elemVal f.ty a) (elemVal f.ty b)))) := by
  obtain ⟨hg, hd⟩ := h
  exact gives64_of_body hg hx ((bind_of_ok ha _).trans (bind_of_ok hb _)) hd

theorem cvt_gives {a : Nat} (h : Open f s) (ha : srcAt s (cvtSource f) f.a = .ok a) : Gives64 (.cvt f) f s s
    (extend f.ty (convert (cvtSource f) f.ty (modeOf f.var.val) (satOf f.var.val) a)) := by
  obtain ⟨hg, hd⟩ := h
  exact gives64_of_body hg rfl (bind_of_ok ha _) hd

/-- The addend of an fma is its destination register (R243). -/
theorem fma_gives {a b : Nat} {d : Fin 32} (h : Open f s) (ha : srcAt s f.ty f.a = .ok a) (hb : srcAt s f.ty f.b = .ok b)
    (hf : f.d = .x d) : Gives64 (.fma f) f s s (extend f.ty (roundFloat (floatForm f.ty) (modeOf f.var.val) (satOf f.var.val)
      (addVal (modeOf f.var.val) (mulVal (elemVal f.ty a) (elemVal f.ty b))
        (elemVal f.ty (lowBits f.ty (s.me.rx d)))))) := by
  have hd : s.me.rx d = xval s f.d := by rw [hf]; rfl
  rw [hd]
  exact gives64_floatBinary (op := fun md a b => addVal md (mulVal a b) (elemVal f.ty (lowBits f.ty (xval s f.d)))) h rfl ha hb

end

/-- Settles O4: the exact value of each operation goes to one rounding. -/
theorem scalarFloatResults : Obligations.ScalarFloatResults := by
  unfold Obligations.ScalarFloatResults
  intro f s h md sat φ
  exact ⟨fun a => cvt_gives h, fun a b ha hb => ⟨gives64_floatBinary (op := addVal) h rfl ha hb,
    gives64_floatBinary (op := fun _ => mulVal) h rfl ha hb, fun d => fma_gives h ha hb⟩⟩

end Sys2Proof.Machine

end

section
/-! PROOFS. Handles bound, freed and looked at (R252 to R254). -/

namespace Sys2Proof.Machine

open Sys2Proof.Safety

section
variable {f : Fmt} {s u : State} (hg : guardOn f s = true)
include hg

section
variable (hu : unitsReady s = .ok ())
include hu

/-- A qbind answers its status from the state in which it has bound the handle, or from the one that it found. -/
theorem qbind_gives {r : Fin 32} {st : Nat} (hf : f.b = .x r) (hst : bindStatus s (handleOf f.a) (s.me.rx r) = st)
    (hs : (if st = 0 then bindHandle s (handleOf f.a) (s.me.rx r) else s) = u) (hd : dstReady u f.d = .ok ()) :
    Gives64 (.qbind f) f s u (BitVec.ofNat 64 st) := by
  refine gives64_of_body hg rfl ((bind_of_ok hu _).trans ?_) hd
  rw [hf, ← hs, ← hst]
  rfl

/-- An unbound handle is free already (R253). -/
theorem qfree_unbound (hb : qbBound s.me.qbind[handleOf f.a] = false) : Ends (.qfree f) s (passed (used f s)) := by
  refine ends_of_scalarRun rfl hg ((bind_of_ok hu _).trans ?_)
  rw [← putNone_ok]
  exact if_pos (by rw [hb]; rfl)

section
variable (hb : qbBound s.me.qbind[handleOf f.a] = true)
include hb

theorem qfree_local (hm : qbMode s.me.qbind[handleOf f.a] = 0) :
    Ends (.qfree f) s (passed (used f (setQbind s (handleOf f.a) 0))) := by
  refine ends_of_scalarRun rfl hg ((bind_of_ok hu _).trans ?_)
  rw [← putNone_ok]
  simp only [hb, hm, Bool.not_true, Bool.false_eq_true, if_false]

section
variable (hm : qbMode s.me.qbind[handleOf f.a] = 1)
include hm

theorem qfree_unlinked (hl : s.link s.myCore s.myCtx (linkKey (slotOf s.cur) (handleOf f.a).val) = none) :
    Ends (.qfree f) s (passed (used f (setQbind s (handleOf f.a) 0))) := by
  refine ends_of_scalarRun rfl hg ((bind_of_ok hu _).trans ?_)
  rw [← putNone_ok]
  simp only [hb, hm, hl, Bool.not_true, Bool.false_eq_true, if_false]

/-- A peer handle with nothing on its way leaves its ring to another producer. -/
theorem qfree_linked {l : Link} (hl : s.link s.myCore s.myCtx (linkKey (slotOf s.cur) (handleOf f.a).val) = some l)
    (h0 : l.flying = 0) :
    Ends (.qfree f) s (passed (used f (setQbind
      ((dropCredits (releasePeer s s.myCtx l) s.myCtx l.core l.ring s.myCore
        (linkKey (slotOf s.cur) (handleOf f.a).val)).dropLink s.myCore s.myCtx
        (linkKey (slotOf s.cur) (handleOf f.a).val)) (handleOf f.a) 0))) := by
  refine ends_of_scalarRun rfl hg ((bind_of_ok hu _).trans ?_)
  rw [← putNone_ok]
  simp only [hb, hm, hl, Bool.not_true, Bool.false_eq_true, if_false]
  exact bind_of_ok (waitFor_ok (u := ()) |>.mpr (decide_eq_true h0)) _

end

end

end

section
variable (hd : dstReady s f.d = .ok ())
include hd

/-- The status of an unbound handle is zero (R254). -/
theorem qstat_unbound (hb : qbBound s.me.qbind[handleOf f.a] = false) : Gives64 (.qstat f) f s s 0 :=
  gives64_of_body hg rfl (if_pos (by rw [hb]; rfl)) hd

section
variable {h : Handle} (hb : qbBound s.me.qbind[handleOf f.a] = true) (hh : statEnd s (handleOf f.a) = .ok h)
include hb hh

theorem qstat_bound : Gives64 (.qstat f) f s s (qstatWord s.me.qbind[handleOf f.a] h) :=
  gives64_of_body hg rfl ((if_neg (by rw [hb]; decide)).trans (bind_of_ok hh _)) hd

theorem qstatHead_bound : Gives64 (.qstatHead f) f s s (headAddr h) :=
  gives64_of_body hg rfl ((bind_of_ok (need_ok (u := ()) |>.mpr hb) _).trans (bind_of_ok hh _)) hd

theorem qstatTail_bound : Gives64 (.qstatTail f) f s s (tailAddr h) :=
  gives64_of_body hg rfl ((bind_of_ok (need_ok (u := ()) |>.mpr hb) _).trans (bind_of_ok hh _)) hd

end

end

end

/-- Settles O16: a bind by its status, a free by the handle's mode and link, and a status by what the handle looks at. -/
theorem queueBindingResults : Obligations.QueueBindingResults := by
  unfold Obligations.QueueBindingResults
  intro f s hg hu n b key
  refine ⟨fun r hf hd => ⟨fun h0 hd' => qbind_gives hg hu hf h0 (if_pos rfl) hd',
      fun h0 => qbind_gives hg hu hf rfl (if_neg h0) hd⟩,
    qfree_unbound hg hu, qfree_local hg hu, qfree_unlinked hg hu, fun l hb hm hl h0 => qfree_linked hg hu hb hm hl h0,
    fun hd => ⟨qstat_unbound hg hd, fun h hb hh =>
      ⟨qstat_bound hg hd hb hh, qstatHead_bound hg hd hb hh, qstatTail_bound hg hd hb hh⟩⟩⟩

end Sys2Proof.Machine

end

section
/-! PROOFS. Control registers (R240, R241), ecall, eret and wfi (R378, R379), and the meters and the time base (R380,
R382). -/

namespace Sys2Proof.Machine

open Sys2Proof.Safety

section
variable {f : Fmt} {s : State} (hg : guardOn f s = true)
include hg

-- Control registers.

theorem csrr_gives {r : CReg} (hf : f.a = .csr r) (hd : dstReady s f.d = .ok ()) :
    Gives64 (.csrr f) f s s (readCsr s s.cur s.myCtx r) := by
  refine gives64_of_body hg rfl ?_ hd
  rw [hf]

/-- A write of a control register takes effect past the instruction, in the mode that it ran in (R241). -/
theorem csrUpdate_ends {i : Instr} {r : CReg} {a : W64} {op : W64 → W64 → W64} (hx : exec i s = csrUpdate f s op)
    (hf : f.d = .csr r) (ha : src64 s f.a f.imm = .ok a) (hm : (s.me.modeS || r.userWritable) = true) :
    Ends i s (writeCsr (passed (used f s)) s.cur s.myCtx r (op (readCsr (used f s) s.cur s.myCtx r) a) s.me.modeS) := by
  have hmay : mayWriteCsr s.me f.d = true := by rw [hf]; exact hm
  have hmode : (passed (used f s)).me.modeS = s.me.modeS := by
    simp only [passed, used, State.me_modMe, Hart.modeS, Hart.advance_status, Hart.lastUse_status]
  refine ends_of_on hg (hx.trans (privileged_true hmay _)) ((bind_of_ok ha _).trans ?_)
  rw [hf, ← hmode]
  rfl

-- Entry, return and waiting.

theorem ecall_ends (hm : s.me.modeS = false) : Ends (.ecall f) s (s.modMe (fun h => (h.lastUse f).enterCall)) :=
  ends_of_on hg rfl (if_neg (by simp [hm]))

theorem eret_ends (hm : s.me.modeS = true) : Ends (.eret f) s (s.modMe (fun h => (h.lastUse f).leaveHandler)) :=
  ends_of_on hg (privileged_true hm _) rfl

theorem wfi_ends (h : s.me.ipend &&& s.me.ienab ≠ 0) : Ends (.wfi f) s (passed (used f s)) :=
  ends_of_scalarRun rfl hg ((if_pos (bne_iff_ne.mpr h)).trans (putNone_ok f s))

theorem wfi_waits (h : s.me.ipend &&& s.me.ienab = 0) :
    exec (.wfi f) s = .next (s.modMe (fun h => { h with inWfi := true, waiting := true })) := by
  refine (scalarRun_on hg _).trans ((congrArg settle (if_neg (by simp [h]))).trans ?_)
  rw [hold, settle_wait, State.modMe_modMe]

-- Meters.

/-- A meter of a context that the hart may read (R380). -/
theorem mtrd_gives {c : Nat} (hd : dstReady s f.d = .ok ())
    (hc : (if f.b.isNone then s.myCtx else (xval s f.b).toNat) = c) (hs : c ≠ sysCtx)
    (hm : (f.b.isNone || (decide (c < 64) && (decide (c = s.myCtx) || (isSup s.cur && s.me.modeS)))) = true) :
    Gives64 (.mtrd f) f s s (BitVec.ofNat 64 (s.meter c (f.imm.toNat % 32))) := by
  subst hc
  refine gives64_of_body hg rfl ((bind_of_ok hd _).trans ((bind_of_ok (need_ok (u := ()) |>.mpr hm) _).trans ?_)) hd
  rw [if_neg hs]

theorem mtrd_own (hd : dstReady s f.d = .ok ()) (hb : f.b = .none) (hs : s.myCtx ≠ sysCtx) :
    Gives64 (.mtrd f) f s s (BitVec.ofNat 64 (s.meter s.myCtx (f.imm.toNat % 32))) := by
  have hn : f.b.isNone = true := operand_isNone_iff.mpr hb
  exact mtrd_gives hg hd (if_pos hn) hs (by rw [hn]; rfl)

/-- A context is named by B: the hart's own, or any to a supervisor hart in S mode. -/
theorem mtrd_named (hd : dstReady s f.d = .ok ()) (hb : f.b ≠ .none) (h64 : (xval s f.b).toNat < 64)
    (hm : (xval s f.b).toNat = s.myCtx ∨ (isSup s.cur = true ∧ s.me.modeS = true)) :
    Gives64 (.mtrd f) f s s (BitVec.ofNat 64 (s.meter (xval s f.b).toNat (f.imm.toNat % 32))) :=
  mtrd_gives hg hd (if_neg (mt operand_isNone_iff.mp hb)) h64.ne (by simp [h64, hm])

end

/-- Settles O31: each instruction from what its body does once its privilege and its guard hold. -/
theorem systemInstructionResults : Obligations.SystemInstructionResults := by
  unfold Obligations.SystemInstructionResults
  refine ⟨fun f s hg => ⟨fun r => csrr_gives hg, gives64_of_body hg rfl rfl, fun r a hf ha hm => ?_⟩,
    fun f s hg => ⟨ecall_ends hg, eret_ends hg, wfi_ends hg, wfi_waits hg, mtrd_own hg, mtrd_named hg⟩⟩
  exact ⟨csrUpdate_ends (op := fun _ a => a) hg rfl hf ha hm, csrUpdate_ends (op := fun old a => old ||| a) hg rfl hf ha hm,
    csrUpdate_ends (op := fun old a => old &&& ~~~a) hg rfl hf ha hm⟩

end Sys2Proof.Machine

end

section
/-! PROOFS. Messages of the ring network where they arrive (R250, R425, R428), and the events of a splice (R428 to R434): a
marker passes, a change is made at its effect point, a drain is acknowledged, and a splice completes. -/

namespace Sys2Proof

/-- The first entry at a key is the one that was put there. -/
theorem Tab.find?_put_same {α : Type} (t : Tab α) (k : Nat) (v : α) :
    (Tab.put t k v).find? (fun e => e.1 == k) = some (k, v) := by
  induction t with
  | nil => simp [Tab.put]
  | cons e t ih =>
    obtain ⟨a, w⟩ := e
    simp only [Tab.put]
    split
    · simp
    · split
      · simp
      next hne _ => rw [List.find?_cons_of_neg (by simpa using hne), ih]

namespace Machine

-- Links and rings of a unit.

theorem link_setLink_same (s : State) (core ctx key : Nat) (l : Link) :
    (s.setLink core ctx key l).link core ctx key = some l := by
  have hu : (s.setLink core ctx key l).unit core ctx =
      { s.unit core ctx with links := Tab.put (s.unit core ctx).links key l } := Tab.get_put_same _ _ _ _
  rw [State.link, hu, Tab.find?_put_same]
  rfl

/-- What is put at a ring's index is read there, the index taken modulo the 16 rings of a unit. -/
theorem ring_setRing (s : State) (core ctx n : Nat) (r : Ring) : (s.setRing core ctx n r).ring core ctx n = r := by
  have hn : Fin.ofNat 16 (Fin.ofNat 16 n).val = Fin.ofNat 16 n := Fin.ofNat_val_eq_self _
  have h := ring_setRing_same s core ctx (Fin.ofNat 16 n) r
  simpa only [State.setRing, State.ring, hn] using h

/-- A link's counters change no ring. -/
theorem ring_setLink (s : State) (core ctx key : Nat) (l : Link) (c x n : Nat) :
    (s.setLink core ctx key l).ring c x n = s.ring c x n := by
  have h : Onward s (s.setLink core ctx key l) := setUnit_onward rfl
  rw [State.ring, h.rings, State.ring]

-- Arrivals (R250, R425).

/-- What a publication of k slots changes at its ring's owner and at its producer. -/
def publicationLands (s : State) (m : RingMsg) (k : Nat) : State :=
  let r := s.ring m.dst m.ctx m.ring
  let u := s.setRing m.dst m.ctx m.ring { r with pp := (r.pp + k) % 2 ^ 32 }
  let v := match u.link m.src m.ctx m.link with
    | some l => if l.core = m.dst ∧ l.ring = m.ring then u.setLink m.src m.ctx m.link { l with flying := l.flying - k } else u
    | none => u
  if r.filled = 0 && k > 0 then ringRose v m.dst m.ctx m.ring else v

/-- What a credit changes of the producer's link that it reaches. -/
def creditLands (s : State) (m : RingMsg) (l : Link) (k : Nat) : State :=
  let u := s.setLink m.dst m.ctx m.link { l with credit := l.credit + k }
  if l.credit = 0 && k > 0 then creditRose u m.dst m.ctx m.link else u

section
variable {s : State} {n : Nat} {m : RingMsg} (hr : s.ringNet[n]? = some m) (hf : ringFirst s n m = true)
include hr hf

section
variable (ha : ringArrives s m = true) (hw : stageWaits s m = false)
include ha hw

theorem ringPublish_slot {idx : Nat} {v : V512} (hb : m.body = .slot idx v) :
    exec (.ringPublish n) s = .next (spadWrite { s with ringNet := s.ringNet.eraseIdx n } m.dst m.ctx
      ((s.ring m.dst m.ctx m.ring).slotOff idx) (bytesOf 64 v.toNat)) := by
  change execRingPublish n s = _
  simp only [execRingPublish, ringArrive, hr, hb, hf, ha, hw, dropNth, Bool.not_true, Bool.or_self, Bool.false_eq_true,
    if_false]

theorem ringPublish_publish {k : Nat} (hb : m.body = .publish k) :
    exec (.ringPublish n) s = .next (publicationLands { s with ringNet := s.ringNet.eraseIdx n } m k) := by
  change execRingPublish n s = _
  simp only [execRingPublish, ringArrive, hr, hb, hf, ha, hw, dropNth, Bool.not_true, Bool.or_self, Bool.false_eq_true,
    if_false]
  rfl

end

theorem creditReturn_credit {k : Nat} {l : Link} (hb : m.body = .credit k)
    (hl : State.link { s with ringNet := s.ringNet.eraseIdx n } m.dst m.ctx m.link = some l) (hc : l.core = m.src)
    (hn : l.ring = m.ring) :
    exec (.creditReturn n) s = .next (creditLands { s with ringNet := s.ringNet.eraseIdx n } m l k) := by
  have hown : (l.core != m.src || l.ring != m.ring) = false := by simp [hc, hn]
  change execCreditReturn n s = _
  simp only [execCreditReturn, creditArrive, hr, hb, hf, hl, hown, dropNth, Bool.not_true, Bool.false_eq_true, if_false]
  rfl

end

/-- What no interrupt line and no link changes, a publication leaves as its ring's producer pointer left it. -/
theorem publicationLands_leaves {β : Type} (g : State → β) (hi : ∀ s hid ctx line, g (raiseIn s hid ctx line) = g s)
    (hl : ∀ s core ctx key l, g (s.setLink core ctx key l) = g s) (s : State) (m : RingMsg) (k : Nat) :
    g (publicationLands s m k) = g (s.setRing m.dst m.ctx m.ring { s.ring m.dst m.ctx m.ring with
      pp := ((s.ring m.dst m.ctx m.ring).pp + k) % 2 ^ 32 }) := by
  unfold publicationLands
  extract_lets r u v
  have hv : g v = g u := by
    unfold v
    split
    · split
      · exact hl _ _ _ _ _
      · rfl
    · rfl
  split
  · exact (ringRose_leaves g hi _ _ _ _).trans hv
  · exact hv

/-- What no interrupt line changes, a credit leaves as its link's counter left it. -/
theorem creditLands_leaves {β : Type} (g : State → β) (hi : ∀ s hid ctx line, g (raiseIn s hid ctx line) = g s)
    (s : State) (m : RingMsg) (l : Link) (k : Nat) :
    g (creditLands s m l k) = g (s.setLink m.dst m.ctx m.link { l with credit := l.credit + k }) := by
  unfold creditLands
  extract_lets u
  split
  · unfold creditRose
    extract_lets hid b
    split
    · exact hi _ _ _ _
    · rfl
  · rfl

theorem publicationLands_ring (s : State) (m : RingMsg) (k : Nat) :
    (publicationLands s m k).ring m.dst m.ctx m.ring = { s.ring m.dst m.ctx m.ring with
      pp := ((s.ring m.dst m.ctx m.ring).pp + k) % 2 ^ 32 } :=
  (publicationLands_leaves (fun t => t.ring m.dst m.ctx m.ring) (fun _ _ _ _ => rfl)
    (fun _ _ _ _ _ => ring_setLink _ _ _ _ _ _ _ _) s m k).trans (ring_setRing _ _ _ _ _)

theorem creditLands_link (s : State) (m : RingMsg) (l : Link) (k : Nat) :
    (creditLands s m l k).link m.dst m.ctx m.link = some { l with credit := l.credit + k } :=
  (creditLands_leaves (fun t => t.link m.dst m.ctx m.link) (fun _ _ _ _ => rfl) s m l k).trans
    (link_setLink_same _ _ _ _ _)

-- Markers that pass (R428, R433).

section
variable {s u : State} {core pipe : Nat} {h : Standing} {st : Stage} {p : Pipe} {x : Splice}

theorem markerPass_lost {e : Nat × Marker × Nat × Stage} (hm : lostMarker s core pipe = some e) :
    exec (.markerPass core pipe) s = .next (passLost s core (s.ctxOf core) e) := by
  change execMarkerPass core pipe s = _
  simp only [execMarkerPass, hm]

theorem markerPass_stands (hm : lostMarker s core pipe = none) (hs : standing s core pipe = some h)
    (he : h.atEffect = false) (hw : awaitsStage s (s.ctxOf core) h.ring h.m = false) :
    exec (.markerPass core pipe) s = .next (passOn s core (s.ctxOf core) h.n h.next h.m) := by
  change execMarkerPass core pipe s = _
  simp only [execMarkerPass, hm, hs, he, hw, Bool.or_self, Bool.false_eq_true, if_false]

-- Changes at their effect points (R430, R431).

section
variable (hs : standing s core pipe = some h) (he : h.atEffect = true) (hd : h.settled s core (s.ctxOf core) = true)
  (hp : splicePlan s (s.ctxOf core) pipe h.p h.x = .goes) (hi : h.p.stage? h.i = some st)
include hs he hd hp hi

/-- A settled marker at the effect point of its own operation, whose stages are all there, makes its change and passes. -/
theorem effectEvent_goes {opk : Nat} {ready : Standing → Bool} {change : State → Nat → Standing → Stage → State}
    (ho : h.x.opk = opk) (hr : ready h = true) :
    effectEvent core pipe opk ready change s =
      .next (passOn (change s (s.ctxOf core) h st) core (s.ctxOf core) h.n h.next { h.m with live := false }) := by
  simp only [effectEvent, hs, ho, he, hr, hd, hp, hi, bne_self_eq_false, Bool.not_true, Bool.or_self,
    Bool.false_eq_true, if_false]

theorem spliceInsert_goes {i : Nat} {new : Stage} (ho : h.x.opk = 0) (hn : h.p.reserved = some (i, new)) :
    exec (.spliceInsert core pipe) s = .next (passOn (effectInsert s (s.ctxOf core) pipe h.x st new) core (s.ctxOf core)
      h.n h.next { h.m with live := false }) := by
  change execSpliceInsert core pipe s = _
  rw [execSpliceInsert, effectEvent_goes hs he hd hp hi ho, hn]
  rfl

theorem spliceRemove_goes (ho : h.x.opk = 1) (hx : (s.pipe? (s.ctxOf core) pipe).bind (·.splice) = some h.x)
    (hh : h.x.atHead = false) :
    exec (.spliceRemove core pipe) s = .next (passOn
      (effectRemove s (s.ctxOf core) pipe h.p h.x core (s.ring st.core (s.ctxOf core) st.ring).outKey) core (s.ctxOf core)
      h.n h.next { h.m with live := false }) := by
  change execSpliceRemove core pipe s = _
  simp only [execSpliceRemove, hx, hh, Bool.false_eq_true, if_false]
  rw [effectEvent_goes hs he hd hp hi ho]
  rfl

theorem spliceRebind_goes (ho : h.x.opk = 2) (ht : h.m.taken = true) :
    let ctx := s.ctxOf core
    let r := s.ring st.core ctx st.ring
    let u := s.setRing st.core ctx st.ring { r with rebound := some h.x.code }
    exec (.spliceRebind core pipe) s = .next (passOn
      (holdLink (u.modPipe ctx pipe (fun p => p.modStage h.i (fun y => { y with code := h.x.code }))) ctx pipe core
        r.outKey) core ctx h.n h.next { h.m with live := false }) := by
  change execSpliceRebind core pipe s = _
  rw [execSpliceRebind, effectEvent_goes hs he hd hp hi ho ht]

end

-- The controller's events (R429, R431, R434).

/-- A completed splice: a hold that its acknowledgement still ends, the status kept, and the interrupt (R434). -/
def spliceEnds (u : State) (core ctx pipe : Nat) (x : Splice) : State :=
  let t := (ackHere u core ctx pipe x).modPipe ctx pipe (fun p => { p with splice := none, lstatus := x.status })
  if x.irq then raiseIn t x.hart ctx 4 else t

section
variable (hq : s.pipe? (s.ctxOf core) pipe = some p) (hx : p.splice = some x) (hc : core = pipe / 2 ^ 16)
  (hu : unitsLive s core = true)
include hq hx hc hu

/-- The first stage is removed at the head handle, and only then is the marker sent. -/
theorem spliceRemove_head {t : Stage} (hh : x.atHead = true) (ht : p.stage? x.target = some t)
    (hp : splicePlan s (s.ctxOf core) pipe p x = .goes) :
    exec (.spliceRemove core pipe) s = .next (sendMarker (effectRemove s (s.ctxOf core) pipe p x core (some p.head))
      (s.ctxOf core) core p.head (t.core, t.ring) { pos := 0, pipe := pipe, live := false }) := by
  subst hc
  change execSpliceRemove (pipe / 2 ^ 16) pipe s = _
  simp only [execSpliceRemove, headRemove, hq, hx, hh, hu, ht, hp, Option.bind_some, Option.map_some, if_true,
    Bool.not_true, Bool.or_self, Bool.false_eq_true, if_false]

section
variable (ht : x.tailPassed = true)
include ht

theorem spliceComplete_quiet (hw : x.cword = 0) :
    exec (.spliceComplete core pipe) s = .next (spliceEnds s core (s.ctxOf core) pipe x) := by
  have hown : (core != pipe / 2 ^ 16) = false := by simp [hc]
  change execSpliceComplete core pipe s = _
  simp only [execSpliceComplete, hq, hx, hown, hu, ht, hw, Option.bind_some, Bool.not_true, Bool.or_self,
    Bool.false_eq_true, if_false, if_true]
  rfl

theorem spliceComplete_writes (hw : x.cword ≠ 0)
    (h : engWrite1 s (engineWho s core) (.ring core) 0 x.cword (leBytes 8 (spliceWord x)) = .ok u) :
    exec (.spliceComplete core pipe) s = .next (spliceEnds u core (s.ctxOf core) pipe x).sendPosts := by
  have hown : (core != pipe / 2 ^ 16) = false := by simp [hc]
  change execSpliceComplete core pipe s = _
  simp only [execSpliceComplete, hq, hx, hown, hu, ht, h, if_neg hw, Option.bind_some, Bool.not_true, Bool.or_self,
    Bool.false_eq_true, if_false]
  rfl

end

end

theorem drainAcknowledgement_ends {key : Nat} {l : Link} (ha : (s.core core).active.isSome = true)
    (hs : swapIdle s core = true)
    (hl : (s.unit core (s.ctxOf core)).links.find? (fun e => e.2.ackOf == some pipe) = some (key, l)) :
    exec (.drainAcknowledgement core pipe) s = .next (endHold s (s.ctxOf core) core key l) := by
  change execDrainAcknowledgement core pipe s = _
  simp only [execDrainAcknowledgement, Option.isNone_eq_false_iff.mpr ha, hs, hl, Bool.not_true, Bool.or_self,
    Bool.false_eq_true, if_false]

end

/-- Settles O20: one rule for each message and each event. -/
theorem ringAndSpliceEventsAct : Obligations.RingAndSpliceEventsAct := by
  unfold Obligations.RingAndSpliceEventsAct
  refine ⟨fun s n m hr hf => ?_, fun s core pipe => ?_⟩
  · intro s1
    refine ⟨fun idx v hb ha hw => ringPublish_slot hr hf ha hw hb, fun k hb ha hw => ?_, fun k l hb hl hc hn => ?_⟩
    · exact ⟨publicationLands s1 m k, ringPublish_publish hr hf ha hw hb,
        publicationLands_leaves State.ringNet (fun _ _ _ _ => rfl) (fun _ _ _ _ _ => rfl) s1 m k,
        congrArg Ring.pp (publicationLands_ring s1 m k),
        publicationLands_leaves State.mem (fun _ _ _ _ => rfl) (fun _ _ _ _ _ => rfl) s1 m k,
        publicationLands_leaves State.spad (fun _ _ _ _ => rfl) (fun _ _ _ _ _ => rfl) s1 m k⟩
    · exact ⟨creditLands s1 m l k, creditReturn_credit hr hf hb hl hc hn,
        creditLands_leaves State.ringNet (fun _ _ _ _ => rfl) s1 m l k,
        creditLands_leaves State.mem (fun _ _ _ _ => rfl) s1 m l k,
        creditLands_leaves State.spad (fun _ _ _ _ => rfl) s1 m l k, creditLands_link s1 m l k⟩
  · intro ctx
    exact ⟨fun e => markerPass_lost, fun h => markerPass_stands,
      fun h st i n hs he hd hp hi => ⟨spliceInsert_goes hs he hd hp hi, spliceRemove_goes hs he hd hp hi,
        spliceRebind_goes hs he hd hp hi⟩,
      fun p x t hq hx hc hu hh ht hp => spliceRemove_head hq hx hc hu hh ht hp,
      fun key l => drainAcknowledgement_ends,
      fun p x hq hx hc hu ht => ⟨spliceComplete_quiet hq hx hc hu ht, fun u => spliceComplete_writes hq hx hc hu ht⟩⟩

end Machine

end Sys2Proof

end

section
/-! PROOFS. Reductions, scans and dot products (R273, R274, R288 to R290): what each delivers once its lanes are read. -/

namespace Sys2Proof.Machine

open Sys2Proof.Safety

/-- The leaves of the fixed tree: the enabled lanes of A, the others absent (R273). -/
def treeLeaves (f : Fmt) (s : State) (a : List Nat) : List (Option Nat) :=
  (List.range f.ty.lanes).map (fun i => if laneOn s f i then some (lane a i) else none)

/-- A root combined with a start value (R288): where every lane is absent, a sum adds it to +0, and any other operation
gives it as it is. -/
def joinStart (f : Fmt) (root : Option Nat) (x : Nat) : Nat :=
  match root with
  | some y => nodeOp f y x
  | none => if f.imm.toNat % 8 = 0 then nodeOp f 0 x else x

theorem joinStart_some (f : Fmt) (y x : Nat) : joinStart f (some y) x = nodeOp f y x := rfl

theorem joinStart_none_of_sum {f : Fmt} (h : f.imm.toNat % 8 = 0) (x : Nat) : joinStart f none x = nodeOp f 0 x :=
  if_pos h

theorem joinStart_none_of_not_sum {f : Fmt} (h : f.imm.toNat % 8 ≠ 0) (x : Nat) : joinStart f none x = x := if_neg h

/-- A masked result stated by what its lanes are. -/
theorem laneResult_of_putLanes {i : Instr} {f : Fmt} {s : State} {w : Nat} {new : List Nat} {g : Nat → Nat}
    (hx : exec i s = settle (putLanes f s w new)) (hd : dstReady s f.d = .ok ())
    (hg : ∀ k, k < 512 / w → lane new k = g k) : LaneResult i f s w g := by
  obtain ⟨r, hr, hl⟩ := putLanes_lanes hx hd
  exact ⟨r, hr, fun k hk => by simpa only [hg k hk] using hl k hk⟩

/-- A whole register of lanes, none of them masked. -/
theorem lanesAre_of_put512 {i : Instr} {f : Fmt} {s : State} {w : Nat} {new : List Nat} {g : Nat → Nat}
    (hx : exec i s = settle (put512 f s (ofLanes w new))) (hd : dstReady s f.d = .ok ()) (hn : new.length = 512 / w)
    (hg : ∀ k, k < 512 / w → lane new k = g k) : LanesAre i f s w g :=
  ⟨_, gives512_of_put hx hd, fun k hk => by rw [lane_ofLanes w new hn k hk, hg k hk]⟩

section
variable {f : Fmt} {s : State} {a : List Nat}

theorem presentLanes_eq (ha : srcLanes s f.ty f.a f.imm = .ok a) : presentLanes f s = .ok (treeLeaves f s a) :=
  bind_of_ok ha _

section
variable (h : LanedA f s a)
include h

-- Reductions (R288).

/-- Without a start value the root is the result, or the identity where every lane is absent. -/
theorem vred_gives (hb : f.b = .none) : Gives64 (.vred f) f s s
    (extend f.ty (canon f.ty ((treeRoot (nodeOp f) (treeLeaves f s a)).getD (nodeIdentity f)))) := by
  obtain ⟨ha, hd⟩ := h
  refine gives64_of_put (congrArg settle ?_) hd
  exact (bind_of_ok (presentLanes_eq ha) _).trans (if_pos (operand_isNone_iff.mpr hb))

/-- With a start value the root is joined with the low bits of B. -/
theorem vred_gives_start {b : W64} {root : Option Nat} {v : Nat} (hn : f.b ≠ .none) (hb : src64 s f.b f.imm = .ok b)
    (hr : treeRoot (nodeOp f) (treeLeaves f s a) = root) (hv : joinStart f root (lowBits f.ty b) = v) :
    Gives64 (.vred f) f s s (extend f.ty (canon f.ty v)) := by
  obtain ⟨ha, hd⟩ := h
  subst hr hv
  refine gives64_of_put (congrArg settle ?_) hd
  exact (bind_of_ok (presentLanes_eq ha) _).trans
    ((if_neg (mt operand_isNone_iff.mp hn)).trans (bind_of_ok hb _))

-- Scans (R289).

/-- Each enabled lane takes the prefix up to it, from the nodes of the tree. -/
theorem vscan_lanes : LaneResult (.vscan f) f s f.ty.laneWidth (fun k => canon f.ty ((treePrefix (nodeOp f)
    (treeLevels (nodeOp f) (treeLeaves f s a) (Nat.log2 (treeLeaves f s a).length)) k).getD 0)) := by
  obtain ⟨ha, hd⟩ := h
  exact laneResult_of_putLanes (congrArg settle (bind_of_ok (presentLanes_eq ha) _)) hd
    (fun k hk => lane_map_range _ _ k hk)

-- Dot products (R290).

theorem vdot_lanes {b : List Nat} (hb : srcLanes s f.ty f.b f.imm = .ok b) :
    LanesAre (.vdot f) f s 32 (fun k => dotLane f (laneOn s f) a b (lane (oldLanes s 32 f.d) k) k) := by
  obtain ⟨ha, hd⟩ := h
  exact lanesAre_of_put512 (congrArg settle ((bind_of_ok ha _).trans (bind_of_ok hb _))) hd (by simp)
    (fun k hk => lane_map_range _ _ k hk)

end

end

/-- Settles O7: the leaves of the tree are the enabled lanes, and a start value joins the root by whether there is one. -/
theorem vectorReductionResults : Obligations.VectorReductionResults := by
  unfold Obligations.VectorReductionResults
  intro f s a h present root levels
  exact ⟨vred_gives h, fun b y hn hb hr => vred_gives_start h hn hb hr (joinStart_some f y _),
    fun b hn hb hr h0 => vred_gives_start h hn hb hr (joinStart_none_of_sum h0 _),
    fun b hn hb hr h0 => vred_gives_start h hn hb hr (joinStart_none_of_not_sum h0 _),
    vscan_lanes h, fun b hb => vdot_lanes h hb⟩

end Sys2Proof.Machine

end

section
/-! PROOFS. Vector arithmetic lane by lane (R281, R282, R292): what each delivers once its lanes are read. -/

namespace Sys2Proof.Machine

open Sys2Proof.Safety

theorem oldLanes_length (s : State) (w : Nat) (o : Operand) : (oldLanes s w o).length = 512 / w := by
  unfold oldLanes
  split
  · exact lanesOf_length _ _
  · exact List.length_replicate

section
variable {i : Instr} {f : Fmt} {s : State} {a b : List Nat} (h : Laned f s a b)
include h

/-- An instruction that works on each lane of A and B by itself. -/
theorem laneResult_of_lanewise {op : Nat → Nat → Nat} {g : Nat → Nat} (hx : exec i s = settle (lanewise f s op))
    (hg : ∀ k, op (lane a k) (lane b k) = g k) : LaneResult i f s f.ty.laneWidth g := by
  obtain ⟨ha, hb, hd⟩ := h
  refine laneResult_of_putLanes
    (hx.trans (congrArg settle ((bind_of_ok ha _).trans (bind_of_ok hb _)))) hd fun k hk => ?_
  exact (lane_zipWith op a b k ((srcLanes_length ha).symm ▸ hk) ((srcLanes_length hb).symm ▸ hk)).trans (hg k)

/-- A product added to or subtracted from the lane D holds (R282). -/
theorem laneResult_of_fmaLanes {neg : Bool} (hx : exec i s = settle (fmaLanes f s neg)) :
    LaneResult i f s f.ty.laneWidth (fun k => fmaElem f.ty (vmode f) (vsat f) neg (lane a k) (lane b k)
      (lane (oldLanes s f.ty.laneWidth f.d) k)) := by
  obtain ⟨ha, hb, hd⟩ := h
  refine laneResult_of_putLanes
    (hx.trans (congrArg settle ((bind_of_ok ha _).trans (bind_of_ok hb _)))) hd fun k hk => ?_
  have hak : k < a.length := (srcLanes_length ha).symm ▸ hk
  have hbk : k < b.length := (srcLanes_length hb).symm ▸ hk
  have hdk : k < (oldLanes s f.ty.laneWidth f.d).length := (oldLanes_length s _ f.d).symm ▸ hk
  simp [lane, hak, hbk, hdk]

end

/-- Settles O5: every instruction of the family works on the same lanes of A and B, and the fused ones on that of D. -/
theorem vectorArithmeticResults : Obligations.VectorArithmeticResults := by
  unfold Obligations.VectorArithmeticResults
  intro f s a b h
  exact ⟨laneResult_of_lanewise h rfl fun _ => rfl,
    laneResult_of_lanewise h rfl fun _ => rfl, laneResult_of_lanewise h rfl fun _ => rfl,
    laneResult_of_fmaLanes h rfl, laneResult_of_fmaLanes h rfl,
    laneResult_of_lanewise h rfl fun _ => rfl, laneResult_of_lanewise h rfl fun _ => rfl,
    laneResult_of_lanewise h rfl fun _ => rfl, laneResult_of_lanewise h rfl fun _ => rfl,
    laneResult_of_lanewise h rfl fun _ => rfl, laneResult_of_lanewise h rfl fun _ => rfl,
    laneResult_of_lanewise h rfl fun _ => rfl, laneResult_of_lanewise h rfl fun _ => rfl,
    laneResult_of_lanewise h rfl fun _ => rfl⟩

end Sys2Proof.Machine

end

section
/-! PROOFS. Vector moves, selection, comparison, permutations and lane counts (R281, R283 to R287): which lane of its
sources, or which count, each lane of the result is. -/

namespace Sys2Proof.Machine

open Sys2Proof.Safety

-- Lanes and bits.

theorem lane_replicate_zero (n k : Nat) : lane (List.replicate n 0) k = 0 := by
  rw [lane, List.getElem?_replicate]
  split <;> rfl

theorem lane_set {l : List Nat} {j : Nat} (hj : j < l.length) (x k : Nat) :
    lane (l.set j x) k = if k = j then x else lane l k := by
  rw [lane, List.getElem?_set]
  by_cases hk : k = j
  · subst hk; simp [hj]
  · simp [hk, Ne.symm hk, lane]

/-- A predicate has at least as many bits as a register has lanes (R278). -/
theorem lanes_le_64 (t : Ty) : t.lanes ≤ 64 := by cases t <;> decide

theorem lanes_pos (t : Ty) : 0 < t.lanes := by cases t <;> decide

/-- Bits packed into a word are its bits, and the bits after them are clear. -/
theorem getLsbD_packLanes_bits (p : Nat → Bool) (n k : Nat) (hk : k < 64) :
    (BitVec.ofNat 64 (packLanes 1 ((List.range n).map (fun i => (p i).toNat)))).getLsbD k =
      (decide (k < n) && p k) := by
  have hbit := packLanes_div 1 ((List.range n).map (fun i => (p i).toNat)) k
  rw [Nat.one_mul, Nat.pow_one] at hbit
  rw [BitVec.getLsbD_ofNat, Nat.testBit_eq_decide_div_mod_eq, hbit]
  by_cases hn : k < n
  · rw [lane_map_range _ _ _ hn]
    cases p k <;> simp [hk, hn]
  · simp [lane, hn]

theorem popBelow_allOnes (k : Nat) (hk : k ≤ 64) : popBelow (BitVec.allOnes 64) k = k := by
  have hall : (List.range k).filter (fun i => (BitVec.allOnes 64).getLsbD i) = List.range k :=
    List.filter_eq_self.mpr fun i hi => by
      have := List.mem_range.mp hi
      simp only [BitVec.getLsbD_allOnes, decide_eq_true_eq]
      omega
  rw [popBelow, hall, List.length_range]

/-- The lanes of a B that may be `none`, which stands for zeros (R284, R286). -/
def lanesOrZeros (f : Fmt) (s : State) : Act (List Nat) :=
  if f.b.isNone then .ok (List.replicate f.ty.lanes 0) else srcLanes s f.ty f.b f.imm

theorem lanesOrZeros_of_ne {f : Fmt} {s : State} (hn : f.b ≠ .none) :
    lanesOrZeros f s = srcLanes s f.ty f.b f.imm := if_neg (mt operand_isNone_iff.mp hn)

theorem lanesOrZeros_of_none {f : Fmt} {s : State} (hn : f.b = .none) :
    lanesOrZeros f s = .ok (List.replicate f.ty.lanes 0) := if_pos (operand_isNone_iff.mpr hn)

theorem laneIndex_eq {f : Fmt} {s : State} {b : W64} (hb : src64 s f.b f.imm = .ok b) :
    laneIndex f s = .ok (b.toNat % f.ty.lanes) := bind_of_ok hb _

/-- A masked result given lane by lane. -/
theorem laneResult_of_map_range {i : Instr} {f : Fmt} {s : State} {new g : Nat → Nat}
    (hx : exec i s = settle (putLanes f s f.ty.laneWidth ((List.range f.ty.lanes).map new)))
    (hd : dstReady s f.d = .ok ()) (hg : ∀ k, k < f.ty.lanes → new k = g k) :
    LaneResult i f s f.ty.laneWidth g :=
  laneResult_of_putLanes hx hd fun k hk => (lane_map_range _ new k hk).trans (hg k hk)

section
variable {f : Fmt} {s : State} {a : List Nat} (h : LanedA f s a)
include h

/-- An instruction that works on each lane of A by itself. -/
theorem laneResult_of_lanewise1 {i : Instr} {op g : Nat → Nat} (hx : exec i s = settle (lanewise1 f s op))
    (hg : ∀ k, op (lane a k) = g k) : LaneResult i f s f.ty.laneWidth g := by
  obtain ⟨ha, hd⟩ := h
  exact laneResult_of_putLanes (hx.trans (congrArg settle (bind_of_ok ha _))) hd fun k hk =>
    (lane_map op a k ((srcLanes_length ha).symm ▸ hk)).trans (hg k)

-- Compressing and expanding under a predicate (R287).

theorem vcompr_lanes {r : Fin 8} (hb : f.b = .p r) : LaneResult (.vcompr f) f s f.ty.laneWidth (fun k =>
    lane (((List.range f.ty.lanes).filter (fun i => (s.me.rp r).getLsbD i)).map (fun i => lane a i)) k) := by
  obtain ⟨ha, hd⟩ := h
  have hp : predOf s f.b = s.me.rp r := by rw [hb]; rfl
  exact laneResult_of_map_range (congrArg settle (bind_of_ok ha _)) hd fun k _ => by rw [hp]

theorem vexpnd_lanes {r : Fin 8} (hb : f.b = .p r) : LaneResult (.vexpnd f) f s f.ty.laneWidth
    (fun k => if (s.me.rp r).getLsbD k then lane a (popBelow (s.me.rp r) k) else 0) := by
  obtain ⟨ha, hd⟩ := h
  have hp : predOf s f.b = s.me.rp r := by rw [hb]; rfl
  exact laneResult_of_map_range (congrArg settle (bind_of_ok ha _)) hd fun k _ => by rw [hp]

-- One lane put in (R285).

/-- The lane that B names takes the value if it is enabled; every other lane stays. -/
theorem vins_lanes {x : Fin 32} {j : Nat} (hb : f.b = .x x) (hj : j = (s.me.rx x).toNat % f.ty.lanes)
    (hq : ∀ h c, f.a ≠ .q h c) :
    ∃ r, Gives512 (.vins f) f s s r ∧ ∀ k, k < f.ty.lanes → lane (lanesOf f.ty.laneWidth r) k =
      if laneOn s f k = true ∧ k = j then lane a 0 % 2 ^ f.ty.laneWidth
      else lane (oldLanes s f.ty.laneWidth f.d) k := by
  obtain ⟨ha, hd⟩ := h
  have hi : laneIndex f s = .ok j := by rw [hj]; exact laneIndex_eq (by rw [hb]; rfl)
  have hv : (srcLanes s f.ty f.a f.imm >>= fun l => .ok (lane l 0)) = .ok (lane a 0) := bind_of_ok ha _
  have hx : exec (.vins f) s =
      settle (putLanes f s f.ty.laneWidth ((oldLanes s f.ty.laneWidth f.d).set j (lane a 0))) := by
    change execVins f s = _
    unfold execVins
    split
    next q c hqa => exact absurd hqa (hq q c)
    next => exact congrArg settle ((bind_of_ok hv _).trans (bind_of_ok hi _))
  have hlt : j < (oldLanes s f.ty.laneWidth f.d).length := by
    rw [oldLanes_length, hj]
    exact Nat.mod_lt _ (lanes_pos f.ty)
  obtain ⟨r, hr, hl⟩ := putLanes_lanes hx hd
  refine ⟨r, hr, fun k hk => ?_⟩
  rw [hl k hk]
  beta_reduce
  rw [lane_set hlt]
  by_cases hon : laneOn s f k = true
  · by_cases hkj : k = j
    · simp [hkj]
    · simp [hkj, lane_oldLanes_mod s _ f.d k hk]
  · simp [hon]

section
variable {b : List Nat} (hb : srcLanes s f.ty f.b f.imm = .ok b)
include hb

-- Comparison (R283).

/-- Enabled lanes give their comparison, disabled ones keep their bit, and the bits from L on are clear. -/
theorem vcmp_bits {r : Fin 8} (hr : f.d = .p r) : BitsAre (.vcmp f) f s (fun k => decide (k < f.ty.lanes) &&
    (if laneOn s f k then compareElem f.ty f.var.val (lane a k) (lane b k) else (s.me.rp r).getLsbD k)) := by
  obtain ⟨ha, hd⟩ := h
  refine ⟨_, gives64_of_put (congrArg settle ((bind_of_ok ha _).trans (bind_of_ok hb _))) hd, fun k hk => ?_⟩
  rw [hr]
  simp only [← apply_ite Bool.toNat]
  exact getLsbD_packLanes_bits _ _ k hk

-- Permutations (R286).

theorem vperm_lanes {g : Nat → Nat}
    (hg : ∀ t, (if f.var.val = 0 then lane a (t % f.ty.lanes) else lane a t) = g t) :
    LaneResult (.vperm f) f s f.ty.laneWidth (fun k => g (lane b k)) := by
  obtain ⟨ha, hd⟩ := h
  refine laneResult_of_putLanes (congrArg settle ((bind_of_ok ha _).trans (bind_of_ok hb _))) hd fun k hk => ?_
  exact (lane_map _ b k ((srcLanes_length hb).symm ▸ hk)).trans (hg _)

theorem vzip_lanes : LaneResult (.vzip f) f s f.ty.laneWidth (fun k =>
    lane (if k % 2 = 0 then a else b) ((if f.var.val = 0 then 0 else f.ty.lanes / 2) + k / 2)) := by
  obtain ⟨ha, hd⟩ := h
  exact laneResult_of_map_range (congrArg settle ((bind_of_ok ha _).trans (bind_of_ok hb _))) hd
    fun k _ => (apply_ite (fun l => lane l _) _ a b).symm

theorem vunzip_lanes :
    LaneResult (.vunzip f) f s f.ty.laneWidth (fun k => lane (a ++ b) (2 * k + f.var.val)) := by
  obtain ⟨ha, hd⟩ := h
  exact laneResult_of_map_range (congrArg settle ((bind_of_ok ha _).trans (bind_of_ok hb _))) hd fun _ _ => rfl

end

section
variable {b : List Nat} (hb : lanesOrZeros f s = .ok b)
include hb

-- Selection (R284).

theorem vsel_lanes {g : Nat → Nat} (hg : ∀ k, lane b k = g k) : LaneResult (.vsel f) f s f.ty.laneWidth
    (fun k => if selectBit s.me f.imm k then lane a k else g k) := by
  obtain ⟨ha, hd⟩ := h
  exact laneResult_of_map_range (congrArg settle ((bind_of_ok ha _).trans (bind_of_ok hb _))) hd
    fun k _ => by rw [hg]

-- Slides (R286).

theorem vslide_up_lanes (hv : f.var.val = 0) {g : Nat → Nat} (hg : ∀ k, lane b k = g k) :
    LaneResult (.vslide f) f s f.ty.laneWidth
      (fun k => if f.imm.toNat ≤ k then lane a (k - f.imm.toNat) else g (f.ty.lanes - f.imm.toNat + k)) := by
  obtain ⟨ha, hd⟩ := h
  exact laneResult_of_map_range (congrArg settle ((bind_of_ok ha _).trans (bind_of_ok hb _))) hd
    fun k _ => by rw [if_pos hv, hg]

theorem vslide_down_lanes (hv : f.var.val ≠ 0) {g : Nat → Nat} (hg : ∀ k, lane b k = g k) :
    LaneResult (.vslide f) f s f.ty.laneWidth
      (fun k => if k + f.imm.toNat < f.ty.lanes then lane a (k + f.imm.toNat)
        else g (k + f.imm.toNat - f.ty.lanes)) := by
  obtain ⟨ha, hd⟩ := h
  exact laneResult_of_map_range (congrArg settle ((bind_of_ok ha _).trans (bind_of_ok hb _))) hd
    fun k _ => by rw [if_neg hv, hg]

end

end

-- One lane taken out (R285).

/-- A disabled lane leaves an x register as it is. -/
theorem vext_disabled {f : Fmt} {s : State} {r : Fin 32} {v : V512} {b : W64} (hr : f.d = .x r)
    (hv : src512 s f.a = .ok v) (hb : src64 s f.b f.imm = .ok b) (hoff : laneOn s f (b.toNat % f.ty.lanes) = false) :
    Ends (.vext f) s (passed (used f s)) := by
  refine ends_of_settle rfl ((bind_of_ok hv _).trans ((bind_of_ok (laneIndex_eq hb) _).trans
    ((if_neg (by simp [hoff])).trans ?_)))
  rw [hr]
  exact putNone_ok f s

section
variable {f : Fmt} {s : State} (hd : dstReady s f.d = .ok ())
include hd

theorem vext_enabled {v : V512} {b : W64} (hv : src512 s f.a = .ok v) (hb : src64 s f.b f.imm = .ok b)
    (hon : laneOn s f (b.toNat % f.ty.lanes) = true) :
    Gives64 (.vext f) f s s (extendLane f.ty (lane (lanesOf f.ty.laneWidth v) (b.toNat % f.ty.lanes))) :=
  gives64_of_put (congrArg settle
    ((bind_of_ok hv _).trans ((bind_of_ok (laneIndex_eq hb) _).trans (if_pos hon)))) hd

-- Running counts and counts of a predicate (R287).

theorem viota_lanes_of_pred {r : Fin 8} (ha : f.a = .p r) :
    LaneResult (.viota f) f s f.ty.laneWidth (fun k => popBelow (s.me.rp r) k) :=
  laneResult_of_map_range rfl hd fun k _ => by rw [ha]; rfl

theorem viota_lanes_of_none (ha : f.a = .none) : LaneResult (.viota f) f s f.ty.laneWidth (fun k => k) :=
  laneResult_of_map_range rfl hd fun k hk => by
    rw [if_pos (operand_isNone_iff.mpr ha)]
    exact popBelow_allOnes k (hk.le.trans (lanes_le_64 f.ty))

/-- The count of the enabled set bits, or the place of the first. -/
theorem vpopc_gives {r : Fin 8} (ha : f.a = .p r) {n : Nat} (hn : (if f.var.val = 0
      then ((List.range f.ty.lanes).filter (fun i => (s.me.rp r).getLsbD i && laneOn s f i)).length
      else ((List.range f.ty.lanes).filter (fun i => (s.me.rp r).getLsbD i && laneOn s f i)).headD f.ty.lanes) = n) :
    Gives64 (.vpopc f) f s s (BitVec.ofNat 64 n) := by
  have hp : predOf s f.a = s.me.rp r := by rw [ha]; rfl
  subst hn
  rw [← hp]
  exact gives64_of_put rfl hd

end

/-- Settles O6: each lane of a result is one lane of a source, one count, or what was there; a B of `none` counts as
zero lanes. -/
theorem vectorMoveResults : Obligations.VectorMoveResults := by
  unfold Obligations.VectorMoveResults
  constructor
  · intro f s a h w l
    refine ⟨laneResult_of_lanewise1 h rfl fun _ => rfl, laneResult_of_lanewise1 h rfl fun _ => rfl,
      fun r hr => ⟨vcompr_lanes h hr, vexpnd_lanes h hr⟩, fun b hb => ?_,
      fun x i hx hi hq => vins_lanes h hx hi hq⟩
    have hz (hn : f.b ≠ .none) : lanesOrZeros f s = .ok b := (lanesOrZeros_of_ne hn).trans hb
    have h0 := lane_replicate_zero f.ty.lanes
    exact ⟨fun r hr => vcmp_bits h hb hr,
      fun hn => vsel_lanes h (hz hn) fun _ => rfl,
      fun hn => vsel_lanes h (lanesOrZeros_of_none hn) h0,
      fun hv => vperm_lanes h hb fun _ => if_pos hv,
      fun hv => vperm_lanes h hb fun _ => if_neg hv,
      fun hv hn => vslide_up_lanes h (hz hn) hv fun _ => rfl,
      fun hv hn => vslide_down_lanes h (hz hn) hv fun _ => rfl,
      fun hv hn => vslide_up_lanes h (lanesOrZeros_of_none hn) hv h0,
      fun hv hn => vslide_down_lanes h (lanesOrZeros_of_none hn) hv h0,
      vzip_lanes h hb, vunzip_lanes h hb⟩
  · intro f s hd w l
    exact ⟨fun v b hv hb hon => vext_enabled hd hv hb hon, fun r v b hr hv hb hoff => vext_disabled hr hv hb hoff,
      fun r ha => viota_lanes_of_pred hd ha, fun ha => viota_lanes_of_none hd ha,
      fun r ha hv => vpopc_gives hd ha (if_pos hv), fun r ha hv => vpopc_gives hd ha (if_neg hv)⟩

end Sys2Proof.Machine

end

section
/-! PROOFS. Vector conversions, block scales, lookup and bit planes (R291, R298 to R305): what each delivers once its
sources are read. -/

namespace Sys2Proof.Machine

open Sys2Proof.Safety

/-- A lane of a conversion between lane widths (R298): a converted lane of the part that the immediate names, or, where
no source lane gives it, the former lane. -/
def partLane (f : Fmt) (t : Ty) (old a : List Nat) (g : Nat → Nat) (k : Nat) : Nat :=
  if f.ty.lanes ≤ t.lanes then g (lane a (partOf f * f.ty.lanes + k))
  else if partOf f * t.lanes ≤ k ∧ k < partOf f * t.lanes + t.lanes then g (lane a (k - partOf f * t.lanes))
  else lane old k

section
variable {f : Fmt} {s : State} (hd : dstReady s f.d = .ok ())
include hd

-- Conversions between lane widths (R298 to R300).

theorem laneResult_of_widen {i : Instr} {t : Ty} {conv g : Nat → Nat} {a : List Nat}
    (hx : exec i s = settle (widen f s t conv)) (ha : srcLanes s t f.a f.imm = .ok a)
    (hg : ∀ k, partLane f t (oldLanes s f.ty.laneWidth f.d) a conv k = g k) : LaneResult i f s f.ty.laneWidth g :=
  laneResult_of_map_range (hx.trans (congrArg settle (bind_of_ok ha _))) hd fun k _ => by
    simp only [← hg, partLane, Bool.and_eq_true, decide_eq_true_eq]

-- Conversion to a narrower element under a block scale (R301).

theorem vcvtp_lanes {a : List Nat} {b : W64} (ha : srcLanes s f.ty f.a f.imm = .ok a)
    (hb : src64 s f.b f.imm = .ok b) : LanesAre (.vcvtp f) f s (cvtpWidth f) (fun k =>
      if partOf f * f.ty.lanes ≤ k ∧ k < partOf f * f.ty.lanes + f.ty.lanes ∧
        laneOn s f (k - partOf f * f.ty.lanes) = true
      then cvtpElem f (b.toNat % 256) (lane a (k - partOf f * f.ty.lanes))
      else lane (oldLanes s (cvtpWidth f) f.d) k) :=
  lanesAre_of_put512 (congrArg settle ((bind_of_ok ha _).trans (bind_of_ok hb _))) hd (by simp) fun k hk => by
    simp only [lane_map_range _ _ k hk, Bool.and_eq_true, decide_eq_true_eq, and_assoc]

-- Block scales (R302 to R304).

theorem vrequ_lanes {a : V512} {b : W64} (ha : src512 s f.a = .ok a) (hb : src64 s f.b f.imm = .ok b) :
    LaneResult (.vrequ f) f s f.ty.laneWidth (fun k => lane (lanesOf f.ty.laneWidth (ofLanes f.ty.width
      ((lanesOf f.ty.width a).map (requElem f (slice b.toNat 7 0) (slice b.toNat 15 8))))) k) :=
  laneResult_of_putLanes (congrArg settle ((bind_of_ok ha _).trans (bind_of_ok hb _))) hd fun _ _ => rfl

theorem vscacc_lanes {a b : List Nat} (ha : srcLanes s .i32 f.a f.imm = .ok a)
    (hb : srcLanes s .i32 f.b f.imm = .ok b) : LaneResult (.vscacc f) f s 32
      (fun k => scaccElem f (lane (oldLanes s 32 f.d) k) (lane a k) (lane b k)) :=
  laneResult_of_putLanes (congrArg settle ((bind_of_ok ha _).trans (bind_of_ok hb _))) hd
    fun k hk => lane_map_range _ _ k hk

section
variable {a : List Nat} (ha : srcLanes s f.ty f.a f.imm = .ok a)
include ha

theorem vbexp_mantissas (hv : f.var.val = 0) : LaneResult (.vbexp f) f s 16
    (fun k => lane ((bexpBlocks f s a).map (fun b => b.2.map (wrapInt 16))).flatten k) :=
  laneResult_of_putLanes (congrArg settle ((bind_of_ok ha _).trans (if_pos hv))) hd fun _ _ => rfl

theorem vbexp_scales (hv : f.var.val ≠ 0) : Gives64 (.vbexp f) f s s
    (BitVec.ofNat 64 (packLanes 8 ((bexpBlocks f s a).map (·.1)))) :=
  gives64_of_put (congrArg settle ((bind_of_ok ha _).trans (if_neg hv))) hd

-- Bit planes (R305) and lookup (R291).

theorem vplane_bits : LanesAre (.vplane f) f s 1 (fun k =>
    if laneOn s f (k % f.ty.lanes) then (bitOf (lane a (k % f.ty.lanes)) (k / f.ty.lanes)).toNat
    else lane (oldLanes s 1 f.d) k) :=
  lanesAre_of_put512 (congrArg settle (bind_of_ok ha _)) hd (by simp) fun k hk => lane_map_range _ _ k hk

end

section
variable {a : V512} (ha : src512 s f.a = .ok a)
include ha

theorem vunpl_lanes : LaneResult (.vunpl f) f s f.ty.laneWidth (fun k => packLanes 1
    ((List.range f.ty.width).map (fun p => (bitOf a.toNat (f.ty.lanes * p + k)).toNat))) :=
  laneResult_of_map_range (congrArg settle (bind_of_ok ha _)) hd fun _ _ => rfl

theorem vlut_lanes {b : List Nat} (hb : srcLanes s f.ty f.b f.imm = .ok b) : LaneResult (.vlut f) f s f.ty.laneWidth
    (fun k => lane b (slice a.toNat (4 * k + 3) (4 * k))) :=
  laneResult_of_map_range (congrArg settle ((bind_of_ok ha _).trans (bind_of_ok hb _))) hd fun _ _ => rfl

end

end

/-- Settles O8: the three conversions between lane widths are one masked write of the lanes of a part; every other
instruction of the family names each of its lanes. -/
theorem vectorConversionResults : Obligations.VectorConversionResults := by
  unfold Obligations.VectorConversionResults
  intro f s hd w ld src md sat part old taken
  exact ⟨fun a ha => ⟨laneResult_of_widen hd rfl ha fun _ => rfl, laneResult_of_widen hd rfl ha fun _ => rfl⟩,
    fun a ha => laneResult_of_widen hd rfl ha fun _ => rfl, fun a b ha hb => vcvtp_lanes hd ha hb,
    fun a b ha hb => vrequ_lanes hd ha hb, fun a b ha hb => vscacc_lanes hd ha hb,
    fun a ha => ⟨vbexp_mantissas hd ha, vbexp_scales hd ha, vplane_bits hd ha⟩,
    fun a ha => ⟨vunpl_lanes hd ha, fun b hb => vlut_lanes hd ha hb⟩⟩

end Sys2Proof.Machine

end

section
/-! PROOFS. Vector loads (R293 to R296): the enabled lanes are checked, the accesses performed, and each enabled lane
takes its own bytes. -/

namespace Sys2Proof.Machine

open Sys2Proof.Safety

section
variable {f : Fmt} {s s1 u : State} {unit : Bool} {offs : List Int} {ls : List LaneAt} {vs : List (Nat × Nat)}
  (hd : dstReady s f.d = .ok ())
  (hls : checkLanes s .load (wholeReg f unit f.d (laneVas f s offs)) (eagerVar f) (laneBytes f) (laneVas f s offs) =
    .ok (s1, ls))
  (hvs : loadGroups s1 (laneBytes f) (eagerVar f) ((groupLanes unit ls).length == 1) (groupLanes unit ls) = .ok (u, vs))
include hd hls hvs

/-- Once its lanes are checked and its accesses performed, a vector load is a masked write of what they brought, in the
state that the accesses leave (R296). -/
theorem vectorLoad_eq_putLanes (hu : dstReady u f.d = .ok ()) : ∃ t, vectorLoad f s unit offs = .ok t ∧
    putLanes f u f.ty.laneWidth ((List.range f.ty.lanes).map
      (fun k => ((vs.find? (fun v => v.1 == k)).map (·.2)).getD 0)) = .ok t := by
  obtain ⟨t, ht, -⟩ := put512_ok (f := f) _ hu
  exact ⟨t, bind_ok.mpr ⟨(), hd, bind_ok.mpr ⟨(s1, ls), hls,
    keepAnswers_ok.mpr (bind_ok.mpr ⟨(u, vs), hvs, ht⟩)⟩⟩, ht⟩

theorem vectorLoad_lanes {i : Instr} (hx : exec i s = settle (vectorLoad f s unit offs))
    (hu : dstReady u f.d = .ok ()) :
    LaneResultAt i f s u f.ty.laneWidth (fun k => ((vs.find? (fun v => v.1 == k)).map (·.2)).getD 0) := by
  obtain ⟨t, hload, hput⟩ := vectorLoad_eq_putLanes hd hls hvs hu
  obtain ⟨r, hr, hl⟩ := putLanes_lanes (hx.trans (congrArg settle (hload.trans hput.symm))) hu
  exact ⟨r, hr, fun k hk => by simpa only [lane_map_range f.ty.lanes _ k hk] using hl k hk⟩

end

/-- Settles O10: the three loads differ in the offsets of their lanes and in whether neighbours share an access. -/
theorem vectorLoadResults : Obligations.VectorLoadResults := by
  unfold Obligations.VectorLoadResults
  intro f s hd n loads
  exact ⟨fun _ _ _ _ hls hvs hu => vectorLoad_lanes hd hls hvs rfl hu,
    fun _ hstep _ _ _ _ hls hvs hu => vectorLoad_lanes hd hls hvs (congrArg settle (bind_of_ok hstep _)) hu,
    fun _ hidx _ _ _ _ hls hvs hu => vectorLoad_lanes hd hls hvs (congrArg settle (bind_of_ok hidx _)) hu⟩

end Sys2Proof.Machine

end

section
/-! PROOFS. The matrix instructions (R313, R330 to R334), and a card stored to the port window (R34). -/

namespace Sys2Proof.Machine

open Sys2Proof.Safety

-- Instructions of units that only compute cores have (R14).

theorem onCompute_compute {s : State} (hc : isSup s.cur = false) (r : Result) : onCompute s r = r := by
  simp [onCompute, hc]

theorem onPort_compute {s : State} (hc : isSup s.cur = false) (off : Nat) (r : Result) : onPort off s r = r := by
  simp [onPort, hc]

section
variable {i : Instr} {f : Fmt} {s u : State} {body : Act State} (hc : isSup s.cur = false) (hg : guardOn f s = true)
  (hx : exec i s = onCompute s (scalarRun f s body))
include hc hg hx

/-- On a compute core, an instruction of its units whose guard holds runs its body. -/
theorem exec_onCompute : exec i s = settle body := by
  rw [hx, onCompute_compute hc, scalarRun_on hg]

theorem ends_onCompute (hb : body = .ok (passed (used f u))) : Ends i s (passed (used f u)) :=
  ends_of_settle (exec_onCompute hc hg hx) hb

theorem gives64_onCompute {v : W64} (hb : body = put64 f u v) (hd : dstReady u f.d = .ok ()) : Gives64 i f s u v :=
  gives64_of_put ((exec_onCompute hc hg hx).trans (congrArg settle hb)) hd

theorem gives512_onCompute {v : V512} (hb : body = put512 f u v) (hd : dstReady u f.d = .ok ()) : Gives512 i f s u v :=
  gives512_of_put ((exec_onCompute hc hg hx).trans (congrArg settle hb)) hd

end

/-- A store to a register of the port window that a compute core performs. -/
theorem ends_onPort {i : Instr} {s t : State} {off : Nat} {body : Act State} (hc : isSup s.cur = false)
    (hx : exec i s = onPort off s (settle body)) (hb : body = .ok t) : Ends i s t := by
  rw [Ends, hx, onPort_compute hc, hb, settle_ok]

section
variable {f : Fmt} {s : State} (hc : isSup s.cur = false) (hg : guardOn f s = true)
include hc hg

theorem mxq_ends {c : V512} {t : State} (ha : src512 s f.a = .ok c) (hp : pushMatrix s c = .ok t) :
    Ends (.mxq f) s (passed (used f t)) :=
  ends_onCompute hc hg rfl ((bind_of_ok ha _).trans ((bind_of_ok hp _).trans (putNone_ok f t)))

variable (hu : unitsReady s = .ok ())
include hu

-- Watermarks (R330).

theorem mxwmWait_ends {b : W64} (hb : src64 s f.b f.imm = .ok b)
    (hw : min b.toNat 128 ≤ s.myUnit.matrix.wm[tileOf f.a]) : Ends (.mxwmWait f) s (passed (used f s)) :=
  ends_onCompute hc hg rfl ((bind_of_ok hb _).trans ((bind_of_ok hu _).trans
    ((bind_of_ok (waitFor_ok (u := ()) |>.mpr (decide_eq_true hw)) _).trans (putNone_ok f s))))

theorem mxwmWait_waits {b : W64} (hb : src64 s f.b f.imm = .ok b)
    (hw : s.myUnit.matrix.wm[tileOf f.a] < min b.toNat 128) : exec (.mxwmWait f) s = settle (.error (.wait s)) := by
  refine (exec_onCompute hc hg rfl).trans (congrArg settle ((bind_of_ok hb _).trans ((bind_of_ok hu _).trans ?_)))
  have hf : decide (Nat.min b.toNat 128 ≤ mxWm s (tileOf f.a)) = false := decide_eq_false (Nat.not_le.mpr hw)
  rw [hf]
  rfl

-- Tiles (R331, R332).

theorem mxwr_ends {a : W64} {b : V512} (ha : src64 s f.a f.imm = .ok a) (hb : src512 s f.b = .ok b)
    (hcards : s.myUnit.matrix.cards.any (usesTile (tileOf f.d)) = false) :
    Ends (.mxwr f) s (passed (used f (s.setMyUnit { s.myUnit with matrix := { s.myUnit.matrix with
      tiles := s.myUnit.matrix.tiles.set (tileOf f.d) ((indexed (lanesOf 32 b)).foldl (fun tb p => putCell tb
        (256 * (a.toNat % 2048 / 16) + 16 * (a.toNat % 2048 % 16) + p.1) (toSigned 32 p.2))
        s.myUnit.matrix.tiles[tileOf f.d]) } }))) :=
  ends_onCompute hc hg rfl ((bind_of_ok ha _).trans ((bind_of_ok hb _).trans ((bind_of_ok hu _).trans
    ((bind_of_ok (waitFor_ok (u := ()) |>.mpr (by rw [hcards]; rfl)) _).trans (putNone_ok f _)))))

section
variable (hd : dstReady s f.d = .ok ())
include hd

theorem mxrd_lanes {b : W64} (hb : src64 s f.b f.imm = .ok b)
    (hw : b.toNat % 2048 / 16 < s.myUnit.matrix.wm[tileOf f.a]) : LanesAre (.mxrd f) f s 32 (fun j =>
      wrapInt 32 (s.myUnit.matrix.tileAt (tileOf f.a) (b.toNat % 2048 / 16) (16 * (b.toNat % 2048 % 16) + j))) := by
  refine ⟨_, gives512_onCompute hc hg rfl ((bind_of_ok hb _).trans ((bind_of_ok hu _).trans ((bind_of_ok hd _).trans
    (bind_of_ok (waitFor_ok (u := ()) |>.mpr (decide_eq_true hw)) _)))) hd, fun k hk => ?_⟩
  rw [tileSegment, lane_ofLanes 32 _ (by simp) k hk, lane_map_range 16 _ k hk]

-- The continuation register and status (R327, R333, R334).

theorem mxcont_running (hs : s.myUnit.matrix.stop ≠ .stopped) : Gives512 (.mxcont f) f s s 0xF :=
  gives512_onCompute hc hg rfl ((bind_of_ok hu _).trans ((bind_of_ok hd _).trans (if_neg hs))) hd

end

theorem mxcont_stopped {d : Fin 32} (hf : f.d = .v d) (hs : s.myUnit.matrix.stop = .stopped) :
    Gives512 (.mxcont f) f s
      (s.setMyUnit { s.myUnit with matrix := { s.myUnit.matrix with stop := .held } }) s.myUnit.matrix.cont := by
  have hd (t : State) : dstReady t f.d = .ok () := by rw [hf]; rfl
  exact gives512_onCompute hc hg rfl ((bind_of_ok hu _).trans ((bind_of_ok (hd s) _).trans (if_pos hs))) (hd _)

end

/-- Settles O21: each instruction from the watermark, the tile, the stop or the status that it asks for. -/
theorem matrixInstructionResults : Obligations.MatrixInstructionResults := by
  unfold Obligations.MatrixInstructionResults
  intro f s hc
  exact ⟨fun c t => ends_onPort hc rfl, fun hg => ⟨fun c t => mxq_ends hc hg, fun hu => ⟨fun b => mxwmWait_ends hc hg hu,
    fun b => mxwmWait_waits hc hg hu, fun a b => mxwr_ends hc hg hu, fun hd =>
      ⟨gives64_onCompute hc hg rfl (bind_of_ok hu _) hd, fun b => mxrd_lanes hc hg hu hd, mxcont_running hc hg hu hd,
        fun d => mxcont_stopped hc hg hu, gives64_onCompute hc hg rfl (bind_of_ok hu _) hd,
        gives64_onCompute hc hg rfl (bind_of_ok hu _) hd⟩⟩⟩⟩

end Sys2Proof.Machine

end

section
/-! PROOFS. The matrix engine's jobs (R308, R312 to R327): a started job whose card passes its check does the next of its
operation, and the engine stops, takes a command and completes. -/

namespace Sys2Proof.Machine

open Sys2Proof.Safety

/-- An event of an engine whose work goes on: the payload writes that it made leave (R118). -/
theorem engineEvent_ok {s t : State} {r : Eng State} (ag : Agent) (job : Option Nat) (onXlate : State → TrapInfo → State)
    (onBad : State → Nat → Nat → W64 → State) (h : r = .ok t) :
    engineEvent s ag job r onXlate onBad = .next t.sendPosts := by
  subst h
  rfl

section
variable {s t u : State} {core : Nat} {r : Running}

/-- A started job whose card passes its check does its unit's work. -/
theorem mxJob_runs {x : MxUnit} (hs : mxStart s core x = some (t, r)) (hc : lowestReport (cardChecks r.c.card) = none)
    (body : State → Running → Result) : mxJob s core x body = body t r := by
  simp only [mxJob, hs, hc]

-- ZERO, DRAIN and RUNA (R308, R316, R319, R320).

section
variable (ha : cardOff r.c.card % 4 = 0)
  (he : rowsEnd (cardOff r.c.card) (cardVrows r.c.card) (cardRowPitch r.c.card) (4 * cardVcols r.c.card) ≤ spadSize)
include ha he

theorem drain_ends (h : cardVrows r.c.card ≤ r.row ∨ cardVcols r.c.card = 0) :
    drain t core r = mxEnd t core .port r 0 := by
  have hend : (decide (r.row ≥ cardVrows r.c.card) || decide (cardVcols r.c.card = 0)) = true := by simpa using h
  simp only [drain, ha, bne_self_eq_false, Bool.false_eq_true, if_false, if_neg (Nat.not_lt.mpr he), hend, if_true]

theorem drain_writes_row (hrow : r.row < cardVrows r.c.card) (hcols : cardVcols r.c.card ≠ 0)
    (hfree : spadFree t core (t.ctxOf core) (.matrix core) (cardOff r.c.card + r.row * cardRowPitch r.c.card)
      (4 * cardVcols r.c.card) = true) :
    drain t core r = (spadWrite t core (t.ctxOf core) (cardOff r.c.card + r.row * cardRowPitch r.c.card)
      (drainRow (t.liveUnit core).matrix r.c.card r.row)).modMatrix core
        (fun m => m.setUnitRun .port (some { r with row := r.row + 1 })) := by
  have hend : (decide (r.row ≥ cardVrows r.c.card) || decide (cardVcols r.c.card = 0)) = false := by simp [hrow, hcols]
  simp only [drain, ha, bne_self_eq_false, Bool.false_eq_true, if_false, if_neg (Nat.not_lt.mpr he), hend, hfree,
    Bool.not_true]

end

theorem runa_runs (hs : mxStart s core .array = some (t, r)) (hc : lowestReport (cardChecks r.c.card) = none)
    (hr : runaRefusal r.c.card = none) : exec (.runa core) s = .next (runaRow t core r) := by
  refine (mxJob_runs hs hc _).trans ?_
  simp only [hr]

-- LOADB and CONT (R312, R317, R318, R327).

/-- Either loader operation runs as a LOADB does, in its own event. -/
theorem loader_runs {i : Instr} (hs : mxStart s core .loader = some (t, r)) (hc : lowestReport (cardChecks r.c.card) = none)
    (hi : (i = .loadb core ∧ cardOp r.c.card = 1) ∨ (i = .cont core ∧ cardOp r.c.card = 4)) :
    exec i s = loadbRun core t r := by
  rcases hi with ⟨rfl, ho⟩ | ⟨rfl, ho⟩ <;> exact (mxJob_runs hs hc _).trans (if_pos ho)

theorem loadbRun_tour (h : cardTour r.c.card = true) : loadbRun core t r = .next (loadbTour t core r) := if_pos h

theorem loadbTour_waits (hrow : r.row = 0)
    (hf : slotFilled (invalidateSlot t core r.c.card) core r.c.card r.c.cap = false) :
    loadbTour t core r = invalidateSlot t core r.c.card := by
  simp [loadbTour, hrow, hf]

section
variable (hf : r.row ≠ 0 ∨ slotFilled (invalidateSlot t core r.c.card) core r.c.card r.c.cap = true)
include hf

theorem loadbTour_of_filled : loadbTour t core r =
    if r.row ≥ cardVk r.c.card then fillSlot (invalidateSlot t core r.c.card) core r (cardVk r.c.card)
    else match tourRow (invalidateSlot t core r.c.card) core r.c.card r.c.cap r.row with
      | some es => loadRow (invalidateSlot t core r.c.card) core r es
      | none => invalidateSlot t core r.c.card := by
  have hgo : (decide (r.row = 0) && !slotFilled (invalidateSlot t core r.c.card) core r.c.card r.c.cap) = false := by
    rcases hf with h | h <;> simp [h]
  unfold loadbTour
  dsimp only
  rw [hgo]
  rfl

theorem loadbTour_ends (hrow : cardVk r.c.card ≤ r.row) :
    loadbTour t core r = fillSlot (invalidateSlot t core r.c.card) core r (cardVk r.c.card) :=
  (loadbTour_of_filled hf).trans (if_pos hrow)

theorem loadbTour_row {es : List (Option Nat)} (hrow : r.row < cardVk r.c.card)
    (he : tourRow (invalidateSlot t core r.c.card) core r.c.card r.c.cap r.row = some es) :
    loadbTour t core r = loadRow (invalidateSlot t core r.c.card) core r es := by
  refine (loadbTour_of_filled hf).trans ((if_neg (Nat.not_le.mpr hrow)).trans ?_)
  rw [he]

end

/-- A block that comes from memory, while its engine has no translation error. -/
theorem loadbRun_fetches (h : cardTour r.c.card = false) (hx : (t.liveUnit core).matrix.xlate = none)
    (hf : loadbFetch t core r = .ok u) : loadbRun core t r = .next u.sendPosts := by
  refine (if_neg (by simp [h])).trans ((if_neg (by simp [hx])).trans ?_)
  exact engineEvent_ok _ _ _ _ hf

theorem loadbFetch_record {l : Nat} (hl : r.layout = none) (hr : loadbRecord t core r = .ok (u, l))
    (hn : loadbRefusal u core r.c.card l = none) : loadbFetch t core r =
      let w := invalidateSlot (u.modMatrix core (fun m => { m with loader := some { r with layout := some l } })) core
        r.c.card
      .ok (w.setLiveUnit core ((w.liveUnit core).modJob r.c.job (fun j => { j with keys := [cardKey r.c.card] }))) := by
  simp only [loadbFetch, hl, hr, hn, bind, Except.bind]

section
variable {l : Nat} (hl : r.layout = some l)
include hl

theorem loadbFetch_ends (hrow : min (cardVk r.c.card) (recWin l 1) ≤ r.row) :
    loadbFetch t core r = .ok (fillSlot t core r (min (cardVk r.c.card) (recWin l 1))) := by
  unfold loadbFetch
  rw [hl]
  exact if_pos hrow

theorem loadbFetch_row {es : List (Option Nat)} (hrow : r.row < min (cardVk r.c.card) (recWin l 1))
    (he : rowElems t (jobWho t core r.c.job) (.matrix core) l
      [recOrg l 0, recOrg l 1 + 256 * cardKbi r.c.card + r.row] (min (cardVcols r.c.card) (recWin l 0)) =
        (u, es, none)) : loadbFetch t core r = .ok (loadRow u core r es) := by
  unfold loadbFetch
  rw [hl]
  refine (if_neg (Nat.not_le.mpr hrow)).trans ?_
  change (match rowElems t (jobWho t core r.c.job) (.matrix core) l
      [recOrg l 0, recOrg l 1 + 256 * cardKbi r.c.card + r.row] (min (cardVcols r.c.card) (recWin l 0)) with
    | (_, _, some e) => (.error e : Eng State)
    | (s, es, none) => .ok (loadRow s core r es)) = _
  rw [he]

end

-- Stops, commands and completion (R322, R323, R325, R326).

theorem matrixStop_stops {f : TrapInfo} (hx : (s.liveUnit core).matrix.xlate = some f)
    (hl : (s.liveUnit core).matrix.loader = some r) : exec (.matrixStop core) s =
      .next ((s.modMatrix core (fun m => m.stopLoader false)).sendPacket (.matrix core)
        ((s.modMatrix core (fun m => m.stopLoader false)).ctxOf core) 0 { f with tag := cardTag r.c.card }) := by
  change execMatrixStop core s = _
  simp only [execMatrixStop, hx, hl]

theorem Matrix.resume_held {m : Matrix} (hj : m.heldJob = some r) (hs : m.stop ≠ .running) :
    m.command .resume = { m with loader := some r, heldJob := none, stop := .running, swapped := false } := by
  simp only [Matrix.command, Matrix.resume, hj, if_neg hs]

theorem Matrix.kill_held {m : Matrix} (hj : m.heldJob = some r) (hs : m.stop ≠ .running) :
    m.command .kill = { m with
      loader := some { r with status := codeStatus stKilled 0, ended := true }
      heldJob := none, stop := .running, swapped := false, cont := 0
      valid := m.valid.set (cardSlot r.c.card) false } := by
  simp only [Matrix.command, Matrix.kill, hj, if_neg hs]

theorem mxCommand_active {ctx : Nat} (ha : (s.core core).active = some ctx) (k : UnitCmd) : mxCommand s core ctx k =
    s.setUnit core ctx { s.unit core ctx with matrix := (s.unit core ctx).matrix.command k } := if_pos ha

theorem mxCommand_inactive {ctx : Nat} (ha : (s.core core).active ≠ some ctx) (k : UnitCmd) : mxCommand s core ctx k =
    s.setUnit core ctx { s.unit core ctx with matrix := { (s.unit core ctx).matrix with cmd := some k } } := if_neg ha

theorem matrixJobComplete_completes {x : MxUnit} (hlive : unitsLive s core = true)
    (he : endedUnit (s.liveUnit core).matrix = some (x, r))
    (hp : payloadDone s (.matrix core) core r.c.job (if 5 < cardScope r.c.card then 4 else cardScope r.c.card) = .ok t)
    (hw : completeAt t core (.matrix core) r.c.job ((((s.liveUnit core).job r.c.job).map (·.cdest)).getD none)
      (completionBytes r.c.card r.status) = .ok u) : exec (.matrixJobComplete core) s = .next
        (((u.modMatrix core (fun m => (m.setUnitRun x none).tileDone r.c)).endJob core (.matrix core) r.c.job).sendPosts) := by
  change execMatrixJobComplete core s = _
  simp only [execMatrixJobComplete, hlive, he, Bool.not_true, Bool.false_eq_true, if_false]
  exact engineEvent_ok _ _ _ _ ((bind_of_ok hp _).trans (bind_of_ok hw _))

end

/-- Settles O22: a job's event is its unit's work on the card that started; a LOADB's is the record, a row or the end. -/
theorem matrixEventsAct : Obligations.MatrixEventsAct := by
  unfold Obligations.MatrixEventsAct
  refine fun s core => ⟨fun t r hs hc => ⟨fun ho => ?_, fun ho ha he => ⟨fun h => ?_, fun hrow hcols hfree => ?_⟩⟩,
    fun t r => runa_runs, fun t r i hs hc hi => ?_, fun f r => matrixStop_stops,
    fun ctx h => ⟨fun ha hj hs => ⟨?_, ?_⟩, fun ha => ⟨?_, ?_⟩⟩, fun x r t u => matrixJobComplete_completes⟩
  · exact (mxJob_runs hs hc _).trans (if_pos ho)
  · exact (mxJob_runs hs hc _).trans ((if_pos ho).trans (congrArg _ (drain_ends ha he h)))
  · exact (mxJob_runs hs hc _).trans ((if_pos ho).trans (congrArg _ (drain_writes_row ha he hrow hcols hfree)))
  · rw [loader_runs hs hc hi]
    refine ⟨fun htour => ?_, fun htour hx => ⟨fun u l hl hr hn => ?_, fun l hl => ⟨fun hrow => ?_, fun u es hrow he => ?_⟩⟩⟩
    · rw [loadbRun_tour htour]
      exact ⟨fun hrow hf => congrArg _ (loadbTour_waits hrow hf), fun hf => ⟨fun hrow => congrArg _ (loadbTour_ends hf hrow),
        fun es hrow he => congrArg _ (loadbTour_row hf hrow he)⟩⟩
    · exact loadbRun_fetches htour hx (loadbFetch_record hl hr hn)
    · exact loadbRun_fetches htour hx (loadbFetch_ends hl hrow)
    · exact loadbRun_fetches htour hx (loadbFetch_row hl hrow he)
  · exact congrArg _ ((mxCommand_active ha _).trans (by rw [Matrix.resume_held hj hs]))
  · exact congrArg _ ((mxCommand_active ha _).trans (by rw [Matrix.kill_held hj hs]))
  · exact congrArg _ (mxCommand_inactive ha _)
  · exact congrArg _ (mxCommand_inactive ha _)

end Sys2Proof.Machine

end

section
/-! PROOFS. Command words (R326, R348, R359, R417, R472), and stores to debug windows (R469 to R472). -/

namespace Sys2Proof.Machine

open Sys2Proof.Safety

section
variable {s : State} {core ctx : Nat}

-- Command words: for the active context at once, for another recorded.

theorem hcmd_supervisor (h : supCore core = true) (slot : Nat) (k : UnitCmd) :
    hcmd s core slot ctx k = hartCommand s (core * 4 + slot % 4) sysCtx k := if_pos h

section
variable (h : supCore core = false) (slot : Nat) (k : UnitCmd)
include h

theorem hcmd_active (ha : (s.core core).active = some ctx) :
    hcmd s core slot ctx k = hartCommand s (core * 4 + slot % 4) ctx k :=
  (if_neg (by simp [h])).trans (if_pos (by simp [ha]))

theorem hcmd_inactive (ha : (s.core core).active ≠ some ctx) : hcmd s core slot ctx k =
    s.setBank (core * 4 + slot % 4) ctx { s.bank (core * 4 + slot % 4) ctx with cmd := some k } :=
  (if_neg (by simp [h])).trans (if_neg (by simp [ha]))

end

section
variable (ha : (s.core core).active = some ctx) (k : UnitCmd)
include ha

theorem cpCommand_active (ch : Nat) : cpCommand s core ch ctx k = s.setUnit core ctx
    { s.unit core ctx with copy := (s.unit core ctx).copy.command (Fin.ofNat 4 ch) k } := if_pos ha

theorem hrCommand_active : hrCommand s core ctx k =
    s.setUnit core ctx { s.unit core ctx with harrow := (s.unit core ctx).harrow.command k } := if_pos ha

theorem tourCmd_active (tour : Nat) : tourCmd s core ctx tour k = tourCommand s core ctx tour k := if_pos ha

end

section
variable (ha : (s.core core).active ≠ some ctx) (k : UnitCmd)
include ha

theorem cpCommand_inactive (ch : Nat) : cpCommand s core ch ctx k = s.setUnit core ctx { s.unit core ctx with
    copy := (s.unit core ctx).copy.setChan (Fin.ofNat 4 ch)
      { (s.unit core ctx).copy.chans[(Fin.ofNat 4 ch : Fin 4)] with cmd := some k } } := if_neg ha

theorem hrCommand_inactive : hrCommand s core ctx k =
    s.setUnit core ctx { s.unit core ctx with harrow := { (s.unit core ctx).harrow with cmd := some k } } := if_neg ha

theorem tourCmd_inactive (tour : Nat) :
    tourCmd s core ctx tour k = s.modTour core ctx tour (fun t => { t with cmd := some k }) := if_neg ha

end

-- Debug windows.

/-- The address of an offset of a member's debug window (R31). -/
def debugVa (m : Fin 16) (off : Nat) : W64 := BitVec.ofNat 64 (2 ^ 64 - 2 ^ 55 + 4 * 2 ^ 32 + m.val * 2 ^ 16 + off)

section
variable {m : Fin 16} {off : Nat} {v : W64}

theorem debugWindowWrite_unprivileged (h : (isSup s.cur && s.me.modeS) = false) :
    exec (.debugWindowWrite m off v) s = settle (fail s (accessFault causeAccPrivilege (debugVa m off))) :=
  if_neg (by simp [h])

variable (hs : isSup s.cur = true) (hm : s.me.modeS = true)

section
include hs hm

theorem debugWindowWrite_stores : exec (.debugWindowWrite m off v) s =
    settle (debugStore s m.val off (debugVa m off) 8 v) := if_pos (by rw [hs, hm]; rfl)

theorem debugWindowWrite_absent (hp : present s (memberCore (clusterOf s.myCore) m.val) = false) :
    exec (.debugWindowWrite m off v) s = settle (fail s (accessFault causeForeign (debugVa m off))) := by
  rw [debugWindowWrite_stores hs hm]
  simp only [debugStore, debugMember, hp, need, bind, Except.bind, Bool.false_eq_true, if_false, fail]

end

variable (hp : present s (memberCore (clusterOf s.myCore) m.val) = true)

include hp in
theorem debugMember_ok (va : W64) : debugMember s m.val va = .ok (memberCore (clusterOf s.myCore) m.val) :=
  bind_of_ok (need_ok (u := ()) |>.mpr hp) _

include hs hm hp

theorem debugWindowWrite_leaves {d : DebugSpot} {t : State} (ho : off % 8 = 0) (hd : debugSpot off = some d)
    (hw : spotWrite s (memberCore (clusterOf s.myCore) m.val) d v = some t) : Ends (.debugWindowWrite m off v) s
      (s.post (.debug (memberCore (clusterOf s.myCore) m.val) off) 8 0 (v.setWidth 512) (debugVa m off)) := by
  rw [Ends, debugWindowWrite_stores hs hm, ← settle_ok]
  refine congrArg settle ((bind_of_ok (debugMember_ok hp _) _).trans ?_)
  rw [hd]
  exact bind_of_ok (need_ok (u := ()) |>.mpr (by simp [ho, hw])) _

/-- A store to an unassigned place, or one that is no write there, is no access of the window. -/
theorem debugWindowWrite_refused (h : ∀ d, debugSpot off = some d → off % 8 ≠ 0 ∨
      spotWrite s (memberCore (clusterOf s.myCore) m.val) d v = none) :
    exec (.debugWindowWrite m off v) s = settle (fail s (accessFault causeWindow (debugVa m off))) := by
  rw [debugWindowWrite_stores hs hm]
  refine congrArg settle ((bind_of_ok (debugMember_ok hp _) _).trans ?_)
  cases hd : debugSpot off with
  | none => rfl
  | some d =>
    have hno : (decide (8 = 8) && decide (off % 8 = 0) &&
        (spotWrite s (memberCore (clusterOf s.myCore) m.val) d v).isSome) = false := by
      rcases h d hd with ho | hw
      · simp [ho]
      · simp [hw]
    dsimp only
    rw [hno]
    rfl

end

/-- A store to a debug window is performed at the window's block. -/
theorem write_debug {n o : Nat} {r : Request} (hr : s.reqNet[n]? = some r) (hp : r.place = .debug core o)
    (hl : leavesNow s n r = true) : exec (.write n) s =
      .next (respond (debugPerform { s with reqNet := s.reqNet.eraseIdx n } core o r.size r.data) r 0 .ok) := by
  refine congrArg Host.Outcome.next ?_
  simp only [reachWindow, hr, hp, hl, if_true]

end

/-- Settles O37: each command word by whether its context is active; a store to a debug window by the first check that
fails. -/
theorem unitCommandResults : Obligations.UnitCommandResults := by
  unfold Obligations.UnitCommandResults
  intro s core slot ch tour ctx k u c hid cmds hc mc cc rc tc
  have hhc : cmds hc (hcmd s core slot ctx k) := by cases k <;> rfl
  have hmc : cmds mc (mxCommand s core ctx k) := by cases k <;> rfl
  have hcc : cmds cc (cpCommand s core ch ctx k) := by cases k <;> rfl
  have hrc : cmds rc (hrCommand s core ctx k) := by cases k <;> rfl
  have htc : cmds tc (tourCmd s core ctx tour k) := by cases k <;> rfl
  refine ⟨fun h => hcmd_supervisor h slot k ▸ hhc,
    fun ha => ⟨fun h => hcmd_active h slot k ha ▸ hhc, mxCommand_active ha k ▸ hmc, cpCommand_active ha k ch ▸ hcc,
      hrCommand_active ha k ▸ hrc, tourCmd_active ha k tour ▸ htc⟩,
    fun ha => ⟨fun h => hcmd_inactive h slot k ha ▸ hhc, mxCommand_inactive ha k ▸ hmc, cpCommand_inactive ha k ch ▸ hcc,
      hrCommand_inactive ha k ▸ hrc, tourCmd_inactive ha k tour ▸ htc⟩,
    fun h => if_pos h, fun h => if_neg (by simp [h]), fun m off v => ⟨debugWindowWrite_unprivileged, fun hs hm =>
      ⟨debugWindowWrite_absent hs hm, fun hp => ⟨fun d t => debugWindowWrite_leaves hs hm hp,
        fun d ho hd hw => debugWindowWrite_refused hs hm hp fun e he => .inr ?_,
        fun ho => debugWindowWrite_refused hs hm hp fun _ _ => .inl ho,
        fun hd => debugWindowWrite_refused hs hm hp fun e he => ?_⟩⟩⟩,
    fun n r o => write_debug⟩
  · cases hd.symm.trans he
    exact hw
  · cases hd.symm.trans he

end Sys2Proof.Machine

end

section
/-! PROOFS. The copy instructions (R343 to R350), and records and heads stored to the port window (R34). -/

namespace Sys2Proof.Machine

open Sys2Proof.Safety

section
variable {f : Fmt} {s : State} (hg : guardOn f s = true)
include hg

theorem cpq_ends {w : V512} {t : State} (hw : src512 s f.a = .ok w) (hp : pushCopy s (chanOf f) w = .ok t) :
    Ends (.cpq f) s (passed (used f t)) :=
  ends_of_scalarRun rfl hg ((bind_of_ok hw _).trans ((bind_of_ok hp _).trans (putNone_ok f t)))

theorem cpchn_ends {a : W64} {t : State} (ha : src64 s f.a 0 = .ok a) (hp : startChain s (chanOf f) a = .ok t) :
    Ends (.cpchn f) s (passed (used f t)) :=
  ends_of_scalarRun rfl hg ((bind_of_ok ha _).trans ((bind_of_ok hp _).trans (putNone_ok f t)))

variable (hu : unitsReady s = .ok ())
include hu

section
variable (hd : dstReady s f.d = .ok ())
include hd

/-- The watermark of a channel is zero while it is idle (R350). -/
theorem cpwm_gives {v : W64} (hv : wmWord s.myUnit.copy.chans[chanOf f] = v) : Gives64 (.cpwm f) f s s v :=
  gives64_of_body hg rfl ((bind_of_ok hu _).trans (congrArg (put64 f s) hv)) hd

theorem cpstat_gives : Gives64 (.cpstat f) f s s (chanWord s.myUnit.copy.chans[chanOf f]) :=
  gives64_of_body hg rfl (bind_of_ok hu _) hd

end

theorem cpstatLog_gives {d : Fin 32} (hf : f.d = .x d) : Gives64 (.cpstatLog f) f s
    (s.setMyUnit { s.myUnit with copy := (popLog s.myUnit.copy).1 }) (popLog s.myUnit.copy).2 :=
  gives64_of_body hg rfl ((bind_of_ok hu _).trans (bind_of_ok (dstReady_x hf s) _)) (dstReady_x hf _)

end

/-- Settles O23: pushes and chains end with what they leave, and the words are the channel's and the log's. -/
theorem copyInstructionResults : Obligations.CopyInstructionResults := by
  unfold Obligations.CopyInstructionResults
  exact fun f s => ⟨fun ch w t hp => congrArg settle hp, fun ch v t hp => congrArg settle hp, fun hg =>
    ⟨fun w t => cpq_ends hg, fun a t => cpchn_ends hg, fun hu hd => ⟨fun hs => cpwm_gives hg hu hd (if_pos hs),
      fun hs => cpwm_gives hg hu hd (if_neg hs), cpstat_gives hg hu hd, fun d => cpstatLog_gives hg hu⟩⟩⟩

end Sys2Proof.Machine

end

section
/-! PROOFS. The events of a copy channel (R336 to R348): a record's checks, its next unit and its end, the read of a chain's
next record, a write-back and a completion, and a stop. -/

namespace Sys2Proof.Machine

open Sys2Proof.Safety

section
variable {s t u : State} {core ch : Nat} {r : CopyRun}

/-- A record goes on from where it stands: its checks, its next unit, or its end (R345). -/
theorem copyEvent_moves {mine : Nat → Bool} {unit : State → Who → Agent → CopyRun → Unit_}
    (hr : runningRecord s core (Fin.ofNat 4 ch) mine = some (t, r)) :
    (∀ u, r.stage = .check → jobFree (t.liveUnit core).jobs r.r.job = true → checkStep t core (Fin.ofNat 4 ch) r = .ok u →
      copyEvent core ch mine unit s = .next u.sendPosts) ∧
    (∀ u r1, r.stage = .move → r.pos < unitCount r → unit t (jobWho t core r.r.job) (.copy core ch) r = .ok (u, r1) →
      copyEvent core ch mine unit s = .next (progress u core (Fin.ofNat 4 ch) r1).sendPosts) ∧
    (r.stage = .move → unitCount r ≤ r.pos → copyEvent core ch mine unit s =
      .next (finishRecord t core (Fin.ofNat 4 ch) r (if r.hurt then xferStatus stIntegrity 0 0 0 else 0))) := by
  unfold copyEvent
  dsimp only
  rw [hr]
  dsimp only
  refine ⟨fun u hs hj hc => ?_, fun u r1 hs hn hu => ?_, fun hs hn => ?_⟩
  · rw [hs]
    exact (if_pos hj).trans (engineEvent_ok _ _ _ _ hc)
  · rw [hs]
    exact (if_neg (Nat.not_le.mpr hn)).trans (engineEvent_ok _ _ _ _ (bind_of_ok hu _))
  · rw [hs]
    exact if_pos hn

/-- The next record of a chain is read at its head (R343). -/
theorem chainRecordRead_reads {v : Nat} (hstart : unitsStart s core = true)
    (hst : (chan s core (Fin.ofNat 4 ch)).st = .running) (hx : (chan s core (Fin.ofNat 4 ch)).xlate = none)
    (hrun : (chan s core (Fin.ofNat 4 ch)).run = none) (hq : (chan s core (Fin.ofNat 4 ch)).queue = [])
    (h0 : (chan s core (Fin.ofNat 4 ch)).head ≠ 0) (h64 : (chan s core (Fin.ofNat 4 ch)).head % 64 = 0)
    (hroom : hazardRoom (s.liveUnit core) = true)
    (hread : engReadNat s (engineWho s core) (.copy core ch) 0
      (BitVec.ofNat 64 (chan s core (Fin.ofNat 4 ch)).head) 64 = .ok (t, v)) :
    exec (.chainRecordRead core ch) s =
      .next (takeChained t core (Fin.ofNat 4 ch) (chan s core (Fin.ofNat 4 ch)).head v).sendPosts := by
  change execChainRecordRead core ch s = _
  simp only [execChainRecordRead, hstart, hst, hx, hrun, hq, h64, hroom, if_neg h0, Bool.not_true, bne_self_eq_false,
    Option.isSome_none, List.isEmpty_nil, Bool.or_self, Bool.false_eq_true, if_false]
  exact engineEvent_ok _ _ _ _ (bind_of_ok hread _)

section
variable (hr : runningRecord s core (Fin.ofNat 4 ch) (fun _ => true) = some (t, r))
  (hp : payloadDone s (.copy core ch) core r.r.job (if 5 < xferScope r.r.words then 4 else xferScope r.r.words) = .ok u)
include hr hp

theorem copyRecordComplete_writes_back {a : Nat} {w : State} (hs : r.stage = .back) (ha : r.r.inmem = some a)
    (hb : backStep u core (Fin.ofNat 4 ch) r a = .ok w) : exec (.copyRecordComplete core ch) s = .next w.sendPosts := by
  change execCopyRecordComplete core ch s = _
  simp only [execCopyRecordComplete, hr, hs, ha]
  exact engineEvent_ok _ _ _ _ ((bind_of_ok hp _).trans hb)

theorem copyRecordComplete_leaves {w : State} (hs : r.stage = .complete)
    (hw : wordStep u core (Fin.ofNat 4 ch) r = .ok w) :
    exec (.copyRecordComplete core ch) s = .next (leaveRecord w core (Fin.ofNat 4 ch) r).sendPosts := by
  change execCopyRecordComplete core ch s = _
  simp only [execCopyRecordComplete, hr, hs]
  exact engineEvent_ok _ _ _ _ ((bind_of_ok hp _).trans (bind_of_ok hw _))

end

theorem copyChannelStop_stops {f : TrapInfo} (hx : (chan s core (Fin.ofNat 4 ch)).xlate = some f)
    (hr : (chan s core (Fin.ofNat 4 ch)).run = some r) : exec (.copyChannelStop core ch) s =
      let w := s.setChan core (Fin.ofNat 4 ch) { chan s core (Fin.ofNat 4 ch) with xlate := none, st := .stopped }
      .next (w.sendPacket (.copy core ch) (w.ctxOf core) 0 { f with tag := xferTag r.r.words }) := by
  change execCopyChannelStop core ch s = _
  simp only [execCopyChannelStop, hx, hr]

end

/-- Settles O24: the operations share one event, which goes on from the stage of the record. -/
theorem copyEventsAct : Obligations.CopyEventsAct := by
  unfold Obligations.CopyEventsAct
  intro s core ch c moves
  exact ⟨fun t r => copyEvent_moves, fun t r => copyEvent_moves, fun t r => copyEvent_moves, fun t r => copyEvent_moves,
    fun t r => copyEvent_moves, fun t r => copyEvent_moves, fun t r => copyEvent_moves, fun t r => copyEvent_moves,
    fun t v => chainRecordRead_reads, fun t r hr u hp => ⟨fun a w => copyRecordComplete_writes_back hr hp,
      fun w => copyRecordComplete_leaves hr hp⟩, fun f r => copyChannelStop_stops⟩

end Sys2Proof.Machine

end

section
/-! PROOFS. The exponent engine (R351 to R355): its pushes, the parts of a card's operation, and its completion. -/

namespace Sys2Proof.Machine

open Sys2Proof.Safety

section
variable {s t u : State} {core : Nat} {r q : Running}

theorem exq_ends {f : Fmt} {c : V512} (hc : isSup s.cur = false) (hg : guardOn f s = true) (ha : src512 s f.a = .ok c)
    (hp : pushExponent s c = .ok t) : Ends (.exq f) s (passed (used f t)) :=
  ends_onCompute hc hg rfl ((bind_of_ok ha _).trans ((bind_of_ok hp _).trans (putNone_ok f t)))

/-- A card that its checks accept does its next part, and ends with the last of its elements. -/
theorem exEvent_part {mine : Nat → Bool} {part : State → Nat → Running → State × Running}
    (hr : runningCard s core mine = some (t, r)) (hc : lowestReport (exChecks r.c.card) = none)
    (hn : exCount r.c.card ≠ 0) (ho : exRefusal r.c.card = none) (hf : exFree t core r = true)
    (hp : part t core r = (u, q)) :
    (exRows r.c.card * exCount r.c.card ≤ q.row → exEvent core mine part s = .next (exEnd u core q 0)) ∧
    (q.row < exRows r.c.card * exCount r.c.card →
      exEvent core mine part s = .next (u.modExponent core (fun e => { e with run := some q }))) := by
  simp only [exEvent, hr, hc, if_neg hn, ho, hf, hp, Bool.not_true, Bool.false_eq_true, if_false]
  exact ⟨fun h => if_pos h, fun h => if_neg (Nat.not_le.mpr h)⟩

theorem expCardComplete_completes (hr : (s.liveUnit core).exponent.run = some r) (he : r.ended = true)
    (hlive : unitsLive s core = true)
    (hw : completeAt s core (.exponent core) r.c.job ((((s.liveUnit core).job r.c.job).map (·.cdest)).getD none)
      (completionBytes r.c.card r.status) = .ok t) : exec (.expCardComplete core) s = .next
        (((t.modExponent core (fun e => { e with run := none })).endJob core (.exponent core) r.c.job).sendPosts) := by
  change execExpCardComplete core s = _
  simp only [execExpCardComplete, hr, he, hlive, Bool.not_true, Bool.or_self, Bool.false_eq_true, if_false]
  exact engineEvent_ok _ _ _ _ (bind_of_ok hw _)

end

/-- Settles O25: the five operations share one event, and differ in the part that it does. -/
theorem exponentResults : Obligations.ExponentResults := by
  unfold Obligations.ExponentResults
  exact fun f s core => ⟨fun c t hc => ends_onPort hc rfl, fun c t hg hc => exq_ends hc hg,
    ⟨fun t r u q => exEvent_part, fun t r u q => exEvent_part, fun t r u q => exEvent_part, fun t r u q => exEvent_part,
      fun t r u q => exEvent_part⟩, fun r t => expCardComplete_completes⟩

end Sys2Proof.Machine

end

section
/-! PROOFS. The Harrow's instructions, and a start stored to the port window (R34, R356, R360). -/

namespace Sys2Proof.Machine

open Sys2Proof.Safety

/-- A start whose unused bits are zero is performed (R34). -/
theorem hstartRegister_ends {s t : State} {w : V512} (hc : isSup s.cur = false) (hw : w.toNat / 2 ^ 138 = 0)
    (ht : startHarrow s (dwordOf w 0) (dwordOf w 1) (dwordOf w 2).toNat = .ok t) : Ends (.hstartRegister w) s t :=
  ends_onPort hc rfl ((bind_of_ok (need_ok (u := ()) |>.mpr (decide_eq_true hw)) _).trans ht)

section
variable {f : Fmt} {s t : State} (hc : isSup s.cur = false) (hg : guardOn f s = true)

section
include hc hg

theorem hstart_ends {a b : W64} (ha : src64 s f.a 0 = .ok a) (hb : src64 s f.b 0 = .ok b)
    (ht : startHarrow s a b f.imm.toNat = .ok t) : Ends (.hstart f) s (passed (used f t)) :=
  ends_onCompute hc hg rfl
    ((bind_of_ok ha _).trans ((bind_of_ok hb _).trans ((bind_of_ok ht _).trans (putNone_ok f t))))

end

variable (hu : unitsReady s = .ok ())
include hu

/-- What an hload loads goes to entry after entry. -/
theorem loadHarrow_ok {b first count used limit size : Nat} {put : Harrow → Nat → Nat → Harrow} {bs : List Byte}
    (hr : s.myUnit.harrow.st ≠ .running) (hb : b / 2 ^ used = 0) (hn : first + count ≤ limit)
    (ha : aligned s (xval s f.a) size = .ok ()) (hl : loadWords s (xval s f.a) size count = .ok (t, bs)) :
    loadHarrow f s b first count used limit size put = .ok (passed (Safety.used f (t.setMyUnit { t.myUnit with
      harrow := (List.range count).foldl (fun h i => put h (first + i) (leNat ((bs.drop (size * i)).take size)))
        t.myUnit.harrow }))) := by
  have hwait : (s.myUnit.harrow.st != .running) = true := bne_iff_ne.mpr hr
  have hfits : (decide (b / 2 ^ used = 0) && decide (first + count ≤ limit)) = true := by simp [hb, hn]
  exact (bind_of_ok (need_ok (u := ()) |>.mpr hfits) _).trans ((bind_of_ok hu _).trans
    ((bind_of_ok (waitFor_ok (u := ()) |>.mpr hwait) _).trans ((bind_of_ok ha _).trans
      ((bind_of_ok (keepAnswers_ok.mpr hl) _).trans (putNone_ok f _)))))

section
variable {v : W64} {bs : List Byte} (hr : s.myUnit.harrow.st ≠ .running) (hv : src64 s f.b 0 = .ok v)
include hc hg hr hv

theorem hloadCode_ends (h0 : slice v.toNat 15 10 = 0) (hb : v.toNat / 2 ^ 27 = 0)
    (hn : slice v.toNat 9 0 + (slice v.toNat 26 16 + 1) ≤ 1024) (ha : aligned s (xval s f.a) 8 = .ok ())
    (hl : loadWords s (xval s f.a) 8 (slice v.toNat 26 16 + 1) = .ok (t, bs)) :
    Ends (.hloadCode f) s (passed (used f (t.setMyUnit { t.myUnit with
      harrow := (List.range (slice v.toNat 26 16 + 1)).foldl (fun h i => { h with
        code := Tab.put h.code (slice v.toNat 9 0 + i) (BitVec.ofNat 64 (leNat ((bs.drop (8 * i)).take 8))) })
        t.myUnit.harrow }))) :=
  ends_onCompute hc hg rfl ((bind_of_ok hv _).trans
    ((bind_of_ok (need_ok (u := ()) |>.mpr (decide_eq_true h0)) _).trans (loadHarrow_ok hu hr hb hn ha hl)))

theorem hloadTmpl_ends (h0 : slice v.toNat 15 4 = 0) (hb : v.toNat / 2 ^ 21 = 0)
    (hn : slice v.toNat 3 0 + (slice v.toNat 20 16 + 1) ≤ 16) (ha : aligned s (xval s f.a) 64 = .ok ())
    (hl : loadWords s (xval s f.a) 64 (slice v.toNat 20 16 + 1) = .ok (t, bs)) :
    Ends (.hloadTmpl f) s (passed (used f (t.setMyUnit { t.myUnit with
      harrow := (List.range (slice v.toNat 20 16 + 1)).foldl (fun h i => { h with
        tmpl := Tab.put h.tmpl (slice v.toNat 3 0 + i) (BitVec.ofNat 512 (leNat ((bs.drop (64 * i)).take 64))) })
        t.myUnit.harrow }))) :=
  ends_onCompute hc hg rfl ((bind_of_ok hv _).trans
    ((bind_of_ok (need_ok (u := ()) |>.mpr (decide_eq_true h0)) _).trans (loadHarrow_ok hu hr hb hn ha hl)))

end

end

/-- Settles O26: a start ends with the run that it starts, the words are the Harrow's, and the two loads are one. -/
theorem harrowInstructionResults : Obligations.HarrowInstructionResults := by
  unfold Obligations.HarrowInstructionResults
  exact fun f s hc => ⟨fun w t => hstartRegister_ends hc, fun hg => ⟨fun a b t => hstart_ends hc hg, fun hu =>
    ⟨fun hd => ⟨gives64_onCompute hc hg rfl (bind_of_ok hu _) hd, gives64_onCompute hc hg rfl (bind_of_ok hu _) hd⟩,
      fun v t bs hr hv => ⟨hloadCode_ends hc hg hu hr hv, hloadTmpl_ends hc hg hu hr hv⟩⟩⟩⟩

end Sys2Proof.Machine

end

section
/-! PROOFS. The Harrow's microwords (R357 to R359), each in its own event. -/

namespace Sys2Proof.Machine

open Sys2Proof.Safety

section
variable {s t : State} {core : Nat} {h : Harrow} {w : W64} (hstart : unitsStart s core = true)
  (hh : (s.liveUnit core).harrow = h) (hw : Tab.get 0 h.code h.pc = w) (hrun : h.st = .running) (hgood : hwBad w = false)
include hstart hh hw hrun hgood

/-- A running Harrow performs the microword at its pc in the event of its operation. -/
theorem harrowRun_runs {x : Result} {op : Nat} {body : State → Harrow → W64 → Result}
    (hx : x = harrowRun core op body s) (hop : hwOp w = op) : x = body s h w := by
  subst hh hw hop
  simp only [hx, harrowRun, hstart, hrun, hgood, Bool.not_true, bne_self_eq_false, Bool.or_self, Bool.false_and,
    Bool.false_eq_true, if_false]

theorem harrowPure_sets {x : Result} {op : Nat} {g : Harrow} {change : Harrow → W64 → Harrow}
    (hx : x = harrowPure core op change s) (hop : hwOp w = op) (hg : change h w = g) :
    x = .next (s.modHarrow core (fun _ => g)) := by
  subst hg
  exact harrowRun_runs hstart hh hw hrun hgood hx hop

-- Waits.

theorem waitq_goes_on (hop : hwOp w = 2) (hi : engineIdle (s.liveUnit core) (hwY w 47 46) (hwY w 45 44) = true) :
    exec (.harrowWaitq core) s = .next (s.modHarrow core (·.bump)) := by
  refine (harrowRun_runs hstart hh hw hrun hgood (rfl : execHarrowWaitq core s = _) hop).trans ?_
  exact if_pos hi

theorem waitwm_goes_on (hop : hwOp w = 3) (hi : Nat.min (h.h[hwHa w] + hwSimm w).toNat 128 ≤
    (s.liveUnit core).matrix.wm[(Fin.ofNat 2 (hwX w) : Fin 2)]) :
    exec (.harrowWaitwm core) s = .next (s.modHarrow core (·.bump)) := by
  refine (harrowRun_runs hstart hh hw hrun hgood (rfl : execHarrowWaitwm core s = _) hop).trans ?_
  exact if_pos hi

-- Accesses.

/-- WAITC goes on once the doubleword that it reads is the one that it waits for. -/
theorem waitc_reads {v : Nat} (hop : hwOp w = 4) (ha : (h.h[hwHa w] + hwSimm w).toNat % 8 = 0)
    (hr : engReadNat s (engineWho s core) (.harrow core) 0 (h.h[hwHa w] + hwSimm w) 8 = .ok (t, v)) :
    exec (.harrowWaitc core) s =
      .next (if v = (h.h[hwHb w]).toNat then t.modHarrow core (·.bump) else t).sendPosts := by
  refine (harrowRun_runs hstart hh hw hrun hgood (rfl : execHarrowWaitc core s = _) hop).trans ?_
  refine engineEvent_ok _ _ _ _ ?_
  refine (bind_of_ok (if_pos ha : harrowAligned s _ = .ok ()) _).trans ((bind_of_ok hr _).trans ?_)
  dsimp only
  split <;> rfl

theorem signal_writes (hop : hwOp w = 10) (hx : hwX w ≤ 5) (ha : (h.h[hwHa w] + hwSimm w).toNat % 8 = 0)
    (hwr : engWrite1 s (engineWho s core) (.harrow core) 0 (h.h[hwHa w] + hwSimm w)
      (leBytes 8 (h.h[hwHb w]).toNat) = .ok t) :
    exec (.harrowSignal core) s = .next (t.modHarrow core (·.bump)).sendPosts := by
  refine (harrowRun_runs hstart hh hw hrun hgood (rfl : execHarrowSignal core s = _) hop).trans ?_
  refine engineEvent_ok _ _ _ _ ?_
  rw [if_neg (Nat.not_lt.mpr hx)]
  exact (bind_of_ok (if_pos ha : harrowAligned s _ = .ok ()) _).trans (bind_of_ok hwr _)

-- ISSUE (R358).

/-- The push of an ISSUE, made for the starter hart, leaves the hart's release and the current hart as they were. -/
theorem issue_pushes (hop : hwOp w = 1)
    (hp : (hwY w 47 46 = 0 ∧ pushMatrix { s with cur := h.starter } (issueCard h w) = .ok t) ∨
      (hwY w 47 46 = 1 ∧ pushExponent { s with cur := h.starter } (issueCard h w) = .ok t) ∨
      (hwY w 47 46 = 2 ∧ pushCopy { s with cur := h.starter } (Fin.ofNat 4 (hwY w 45 44)) (issueCard h w) = .ok t)) :
    exec (.harrowIssue core) s = .next (State.modHarrow { t.setHart h.starter
      { t.hart h.starter with inRel := (s.hart h.starter).inRel } with cur := s.cur } core (·.bump)) := by
  refine (harrowRun_runs hstart hh hw hrun hgood (rfl : execHarrowIssue core s = _) hop).trans ?_
  rcases hp with ⟨he, hp⟩ | ⟨he, hp⟩ | ⟨he, hp⟩ <;> simp only [he, hp]

end

/-- Settles O27: the microword at the pc is its event's, and each operation does what its body does of it. -/
theorem harrowEventsAct : Obligations.HarrowEventsAct := by
  unfold Obligations.HarrowEventsAct
  intro s core h w hstart hrun hgood set va
  have pure {x} {op : Nat} {change : Harrow → W64 → Harrow} (hx : x = harrowPure core op change s)
      (hop : hwOp w = op) {g : Harrow} (hg : change h w = g) : x = set g :=
    harrowPure_sets hstart rfl rfl hrun hgood hx hop hg
  have cmpb := @pure _ _ _ (rfl : execHarrowCmpb core s = _)
  have loop := @pure _ _ _ (rfl : execHarrowLoop core s = _)
  have endl := @pure _ _ _ (rfl : execHarrowEndl core s = _)
  refine ⟨fun ho => pure (rfl : execHarrowNop core s = _) ho rfl, fun ho => pure (rfl : execHarrowSeti core s = _) ho rfl,
    fun ho => pure (rfl : execHarrowAddi core s = _) ho rfl, fun ho hc => cmpb ho (if_pos hc),
    fun ho hc => cmpb ho (if_neg (Bool.eq_false_iff.mp hc)), fun ho hl => loop ho (if_pos hl),
    fun ho hl hn => loop ho ((if_neg (Nat.not_le.mpr hl)).trans (if_pos hn)),
    fun ho hl hn => loop ho ((if_neg (Nat.not_le.mpr hl)).trans (if_neg hn)),
    fun ho hs => endl ho ?_, fun start n rest ho hs => ⟨fun hn => endl ho ?_, fun hn => endl ho ?_⟩,
    fun ho => pure (rfl : execHarrowTrap core s = _) ho rfl, fun ho => pure (rfl : execHarrowEnd core s = _) ho rfl,
    waitq_goes_on hstart rfl rfl hrun hgood, waitwm_goes_on hstart rfl rfl hrun hgood,
    fun t v => waitc_reads hstart rfl rfl hrun hgood, fun t => signal_writes hstart rfl rfl hrun hgood,
    fun t => issue_pushes hstart rfl rfl hrun hgood⟩
  -- ENDL, by the loop stack
  · simp only [hs]
  · simp only [hs, if_pos hn]
  · simp only [hs, if_neg hn]

end Sys2Proof.Machine

end

section
/-! PROOFS. Atomics, reduce-stores and waitw (R361 to R369): what each does once what it asks for is given. -/

namespace Sys2Proof.Machine

open Sys2Proof.Safety

/-- The acquire that an atomic's order bits ask for (R193). -/
def acquired (f : Fmt) (s : State) : State := if immAcq f then acquire s else s

/-- What follows the release of an atomic goes on from the released state (R137, R177). -/
theorem afterRelease_ok {α : Type} {f : Fmt} {s s1 : State} {body : State → Act α} {a : α}
    (hr : (if immRel f then release s (immScope f) else .ok s) = .ok s1) (hb : body s1 = .ok a) :
    afterRelease f s body = .ok a := by
  unfold afterRelease
  by_cases hrel : immRel f = true
  · rw [if_pos hrel] at hr ⊢
    refine (bind_of_ok hr _).trans ?_
    split
    · exact inRelease_ok.mpr hb
    · exact hb
  · rw [if_neg hrel] at hr ⊢
    cases hr
    exact hb

-- amo and cas (R361 to R365).

section
variable {f : Fmt} {s u : State} {op : RmwOp} {b old : Nat}

theorem atomicRun_performed {t : Target} {s1 : State} (hi : rmwIssued s = false)
    (ht : atomicTarget s (xval s f.a) (f.ty.width / 8) false = .ok t)
    (hr : (if immRel f then release s (immScope f) else .ok s) = .ok s1)
    (hm : rmwAt s1 t (xval s f.a) op f.ty b = .ok (u, old)) :
    atomicRun f s op b = put64 f (acquired f u) (extend f.ty old) := by
  have hop : afterRelease f s (fun s1 => rmwAt s1 t (xval s f.a) op f.ty b) = .ok (u, old) := afterRelease_ok hr hm
  unfold atomicRun
  dsimp only
  rw [if_neg (Bool.eq_false_iff.mp hi)]
  refine (bind_of_ok ht _).trans ?_
  rw [hop]
  rfl

theorem atomicRun_answered (hi : rmwIssued s = true) (hm : rmwAnswer s (xval s f.a) f.ty = .ok (u, old)) :
    atomicRun f s op b = put64 f (acquired f u) (extend f.ty old) := by
  unfold atomicRun
  dsimp only
  rw [if_pos hi, hm]
  rfl

variable {v : W64} (hg : guardOn f s = true) (hb : src64 s f.b f.imm = .ok v)
include hg hb

theorem amo_gives (hd : dstReady s f.d = .ok ()) (hu : dstReady u f.d = .ok ()) {w : W64}
    (hrun : atomicRun f s (amoOp f.var.val) (lowBits f.ty v) = put64 f u w) : Gives64 (.amo f) f s u w :=
  gives64_of_body hg rfl ((bind_of_ok hb _).trans ((bind_of_ok hd _).trans hrun)) hu

theorem cas_gives {d : Fin 32} (hf : f.d = .x d) (hu : dstReady u f.d = .ok ()) {w : W64}
    (hrun : atomicRun f s (.cas (BitVec.ofNat 64 (lowBits f.ty (s.me.rx d)))) (lowBits f.ty v) = put64 f u w) :
    Gives64 (.cas f) f s u w := by
  have he : xval s f.d = s.me.rx d := by rw [hf]; rfl
  refine gives64_of_body hg rfl ((bind_of_ok hb _).trans (Eq.trans ?_ hrun)) hu
  rw [he]

end

-- Reduce-stores (R366, R367).

/-- The request of a reduce-store to memory. -/
def reduceRequest (f : Fmt) (s : State) (va : W64) (b : Nat) (tag : Option W64) (p : Place) (e : TlbEntry) : Request :=
  { kind := .atomic, agent := .hart s.cur, ctx := s.myCtx, place := p, size := f.ty.width / 8, data := BitVec.ofNat 512 b
    op := amoOp f.var.val, ty := f.ty, tag := tag, reduce := true, rerun := s.reruns, va := va, leaf := some e
    posted := true }

/-- A reduce-store to memory past its interlock: refused by the fabric at once or later, or sent. -/
def reduceToMemory (f : Fmt) (s : State) (p : Place) (r : Request) : Act State :=
  match fabricRefusal s p s.myCtx with
  | some .foreign => fail s (accessFault causeForeign r.va)
  | some _ => putNone f (deferFabric s r.va)
  | none => do
    waitFor (!s.fabricWaits p) s
    putNone f (s.sendReq r)

section
variable {f : Fmt} {s s1 : State} {b : Nat} (hg : guardOn f s = true) (hb : srcAt s f.ty f.b = .ok b)
  (hr : (if immRel f then release s (immScope f) else .ok s) = .ok s1)
  (hi : interlock s1 .atomic (xval s f.a) (f.ty.width / 8) = .ok ())
include hg hb hr hi

section
variable {dpa : Nat} {e : TlbEntry} {p : Place} {tag : Option W64}
  (ht : (f.d = .none ∧ tag = none) ∨ ∃ r, f.d = .x r ∧ tag = some (s.me.rx r))
  (ha : atomicTarget s (xval s f.a) (f.ty.width / 8) tag.isSome = .ok (.mem dpa e))
  (hp : placeOf (afterInterlock s1) dpa = some p)
include ht ha hp

theorem amored_mem {u : State} (h : reduceToMemory f (afterInterlock s1) p
    (reduceRequest f (afterInterlock s1) (xval s f.a) b tag p e) = .ok (passed (used f u))) :
    Ends (.amored f) s (passed (used f u)) := by
  refine ends_of_scalarRun rfl hg ((bind_of_ok hb _).trans ?_)
  rcases ht with ⟨hd, rfl⟩ | ⟨r, hd, rfl⟩ <;> rw [hd] <;>
    refine (bind_of_ok ha _).trans (afterRelease_ok hr ((bind_of_ok hi _).trans (Eq.trans ?_ h))) <;>
    dsimp only <;> rw [hp] <;> rfl

/-- A reduce-store to memory leaves as a request (R366). -/
theorem amored_leaves (hn : fabricRefusal (afterInterlock s1) p (afterInterlock s1).myCtx = none)
    (hw : (afterInterlock s1).fabricWaits p = false) : Ends (.amored f) s (passed (used f ((afterInterlock s1).sendReq
      (reduceRequest f (afterInterlock s1) (xval s f.a) b tag p e)))) := by
  refine amored_mem hg hb hr hi ht ha hp ?_
  simp only [reduceToMemory, hn]
  exact (bind_of_ok (waitFor_ok (u := ()) |>.mpr (by rw [hw]; rfl)) _).trans (putNone_ok f _)

/-- A refusal by the fabric is taken later (R367). -/
theorem amored_defers (hn : fabricRefusal (afterInterlock s1) p (afterInterlock s1).myCtx = some .fabric) :
    Ends (.amored f) s (passed (used f (deferFabric (afterInterlock s1) (xval s f.a)))) := by
  refine amored_mem hg hb hr hi ht ha hp ?_
  simp only [reduceToMemory, hn]
  exact putNone_ok f _

end

/-- A reduce-store to a scratchpad leaves as a request too. -/
theorem amored_spad {core off : Nat} (hd : f.d = .none)
    (ha : atomicTarget s (xval s f.a) (f.ty.width / 8) false = .ok (.spad core off))
    (hf : slotFlying s1 core off = false) : Ends (.amored f) s (passed (used f ((afterInterlock s1).sendReq
      { kind := .atomic, agent := .hart (afterInterlock s1).cur, ctx := (afterInterlock s1).myCtx, place := .spad core off
        size := f.ty.width / 8, data := BitVec.ofNat 512 b, op := amoOp f.var.val, ty := f.ty, reduce := true
        va := xval s f.a, posted := true }))) := by
  rw [(afterInterlock_onward (s := s1)).cur, (afterInterlock_onward (s := s1)).myCtx]
  refine ends_of_scalarRun rfl hg ((bind_of_ok hb _).trans ?_)
  rw [hd]
  refine (bind_of_ok ha _).trans (afterRelease_ok hr ?_)
  exact (bind_of_ok hi _).trans ((bind_of_ok (waitFor_ok (u := ()) |>.mpr (by rw [hf]; rfl)) _).trans (putNone_ok f _))

end

-- waitw (R368, R369).

section
variable {f : Fmt} {s u : State} {b : W64} {t : Target} {bs : List Byte} (hg : guardOn f s = true)
  (hb : src64 s f.b f.imm = .ok b) (ha : alignedIn false s (xval s f.a) (f.ty.width / 8) = .ok ())
  (hc : canonical (xval s f.a) = true)
  (hw : (xval s f.a).getLsbD 55 = true → (xval s f.a).toNat % 2 ^ 55 / 2 ^ 32 < 3)
  (ht : resolve s s.iAm .load (xval s f.a) = .ok t) (hl : loadAt s t (xval s f.a) (f.ty.width / 8) true = .ok (u, bs))
include hg hb ha hc hw ht hl

/-- A waitw whose load is performed goes on or sleeps by its comparison. -/
theorem waitw_compares : exec (.waitw f) s = settle
    (if (leNat bs == lowBits f.ty b) != (f.var.val == 1) then putNone f (acquired f u)
      else hold (sleepOn u (granuleOf u t))) := by
  have hport : (!((xval s f.a).getLsbD 55 && decide ((xval s f.a).toNat % 2 ^ 55 / 2 ^ 32 ≥ 3))) = true := by
    cases h : (xval s f.a).getLsbD 55 with
    | false => rfl
    | true => rw [decide_eq_false (Nat.not_le.mpr (hw h))]; rfl
  refine (scalarRun_on hg _).trans (congrArg settle ?_)
  exact (bind_of_ok hb _).trans ((bind_of_ok ha _).trans ((bind_of_ok (need_ok (u := ()) |>.mpr hc) _).trans
    ((bind_of_ok (need_ok (u := ()) |>.mpr hport) _).trans ((bind_of_ok ht _).trans (bind_of_ok hl _)))))

theorem waitw_goes_on (h : decide (leNat bs = lowBits f.ty b) ≠ decide (f.var.val = 1)) :
    Ends (.waitw f) s (passed (used f (acquired f u))) := by
  refine ends_of_settle (waitw_compares hg hb ha hc hw ht hl) ?_
  exact (if_pos (bne_iff_ne.mpr h)).trans (putNone_ok f _)

theorem waitw_sleeps (h : decide (leNat bs = lowBits f.ty b) = decide (f.var.val = 1)) :
    exec (.waitw f) s = .next ((sleepOn u (granuleOf u t)).modMe (fun h => { h with waiting := true })) := by
  refine (waitw_compares hg hb ha hc hw ht hl).trans ?_
  exact congrArg settle (if_neg fun hne => bne_iff_ne.mp hne h)

end

/-- Settles O12: amo and cas share what performs or awaits their operation; a reduce-store by its place; a waitw by its
comparison. -/
theorem atomicResults : Obligations.AtomicResults := by
  unfold Obligations.AtomicResults
  intro f s hg
  refine ⟨fun b hb => ⟨fun hd => ⟨fun t s1 u old hi ht hr hm hu => ?_, fun u old hi hm hu => ?_⟩,
    fun d hf => ⟨fun t s1 u old hi ht hr hm hu => ?_, fun u old hi hm hu => ?_⟩⟩,
    fun b dpa e s1 p tag hb ht ha hr hi hp => ⟨amored_leaves hg hb hr hi ht ha hp, amored_defers hg hb hr hi ht ha hp⟩,
    fun b core off s1 hb hd ha hr hi hf => amored_spad hg hb hr hi hd ha hf,
    fun b t u bs hb ha hc hw ht hl => ⟨waitw_goes_on hg hb ha hc hw ht hl, waitw_sleeps hg hb ha hc hw ht hl⟩⟩
  · exact amo_gives hg hb hd hu (atomicRun_performed hi ht hr hm)
  · exact amo_gives hg hb hd hu (atomicRun_answered hi hm)
  · exact cas_gives hg hb hf hu (atomicRun_performed hi ht hr hm)
  · exact cas_gives hg hb hf hu (atomicRun_answered hi hm)

end Sys2Proof.Machine

end

section
/-! PROOFS. The task instructions (R372 to R377), and sowing ranges (R402, R403). -/

namespace Sys2Proof.Machine

open Sys2Proof.Safety

-- Debug windows (R29, R32).

theorem debugWindow_iff {va : W64} : debugWindow va = true ↔
    canonical va = true ∧ slice va.toNat 55 32 = 2 ^ 23 + 4 ∧ slice va.toNat 31 20 = 0 := by
  simp only [debugWindow, Bool.and_eq_true, beq_iff_eq, and_assoc]

/-- What a load finds at an address in a debug window is a place of the window. -/
theorem resolve_debugWindow {s : State} {w : Who} {va : W64} {t : Target} (hd : debugWindow va = true)
    (ht : resolve s w .load va = .ok t) : ∃ m o, t = .debug m o := by
  obtain ⟨hc, hs, -⟩ := debugWindow_iff.mp hd
  have hs : va.toNat / 2 ^ 32 % 2 ^ 24 = 2 ^ 23 + 4 := hs
  have hbit : va.getLsbD 55 = true := by
    have hdiv : va.toNat / 2 ^ 55 % 2 = 1 := by omega
    rw [BitVec.getLsbD, Nat.testBit_eq_decide_div_mod_eq]
    exact decide_eq_true hdiv
  have hwindow : va.toNat % 2 ^ 55 / 2 ^ 32 = 4 := by omega
  simp only [resolve, hc, hbit, Bool.not_true, Bool.false_eq_true, if_false, if_true, reduceCtorEq, window, hwindow] at ht
  split at ht
  · cases ht
  · split at ht
    · cases ht
    · split at ht
      · cases ht
      · cases ht
        exact ⟨_, _, rfl⟩

theorem alignedIn_ok {s : State} {va : W64} {n : Nat} (hd : debugWindow va = false) (hn : va.toNat % n = 0)
    (windows : Bool) : alignedIn windows s va n = .ok () := by
  refine (bind_of_ok (need_ok (u := ()) |>.mpr ?_) _).trans (need_ok.mpr (decide_eq_true hn))
  rw [hd]
  rfl

/-- A part of a sequence that is one of two. -/
theorem bind_of_ite {ε α β : Type} {c : Prop} [Decidable c] {x y : Except ε α} {a : α}
    (h : (if c then x else y) = .ok a) (k : α → Except ε β) : (if c then x >>= k else y >>= k) = k a := by
  split at h
  · next hc => exact (if_pos hc).trans (bind_of_ok h k)
  · next hc => exact (if_neg hc).trans (bind_of_ok h k)

/-- The deadline that a tdl leaves (R376). -/
theorem later_eq (x d0 : W64) : later x d0 = if x = 0 ∨ (d0 ≠ 0 ∧ d0.toNat ≤ x.toNat) then x else d0 := by
  simp [later]

-- tspawn (R373).

section
variable {f : Fmt} {s t : State} {r : V512} {l : Launch} (hg : guardOn f s = true)
include hg

section
variable (hr : src512 s f.a = .ok r)
include hr

theorem tspawn_refused (hc : checkRecord s s.myCtx r ≠ 0) (hd : dstReady s f.d = .ok ()) :
    Gives64 (.tspawn f) f s s (BitVec.ofNat 64 (checkRecord s s.myCtx r)) := by
  obtain ⟨n, hn⟩ := Nat.exists_eq_succ_of_ne_zero hc
  refine gives64_of_body hg rfl ((bind_of_ok hr _).trans ?_) hd
  rw [hn]
  rfl

section
variable (hc : checkRecord s s.myCtx r = 0) (hl : s.launchFor (recGraph r) s.myCtx = some l) (ht : release s 4 = .ok t)
include hc hl ht

theorem tspawn_full (hq : queueFull t (recGraph r) l (queueFor l r t.myCore none) = true) (hd : dstReady t f.d = .ok ()) :
    Gives64 (.tspawn f) f s t 4 := by
  refine gives64_of_body hg rfl ((bind_of_ok hr _).trans ?_) hd
  simp only [hc, hl]
  exact (bind_of_ok ht _).trans (if_pos hq)

theorem tspawn_enqueues (hq : queueFull t (recGraph r) l (queueFor l r t.myCore none) = false)
    (hd : dstReady (enqueueCounted t t.myCore r l) f.d = .ok ()) :
    Gives64 (.tspawn f) f s (enqueueCounted t t.myCore r l) 0 := by
  refine gives64_of_body hg rfl ((bind_of_ok hr _).trans ?_) hd
  simp only [hc, hl]
  exact (bind_of_ok ht _).trans (if_neg (Bool.eq_false_iff.mp hq))

end

end

-- Slices (R374 to R376).

section
variable {sl : Slice} (hs : s.me.slice = some sl)

omit hg in
include hs in
theorem mySlice_ok : mySlice s = .ok sl := by
  unfold mySlice
  rw [hs]

include hs

theorem tdl_gives {w : State} (hw : s.modMe (fun h => { h with deadline := later (xval s f.a) sl.d0 }) = w)
    (hd : dstReady w f.d = .ok ()) : Gives64 (.tdl f) f s w s.me.deadline := by
  subst hw
  exact gives64_of_body hg rfl (bind_of_ok (mySlice_ok hs) _) hd

/-- A slice that ends counts its join, if it has one, and its record (R374, R388). -/
theorem tend_ends {u : State} (ht : if rmwIssued s = true then t = s else release s 4 = .ok t)
    (hu : recJoin sl.record = 0 ∧ u = t ∨ recJoin sl.record ≠ 0 ∧ joinStep t (recJoin sl.record) = .ok u) :
    Ends (.tend f) s (leaveSlice (closeLoss (endRecord u u.myCore sl.record) sl.loss)
      (closeLoss (endRecord u u.myCore sl.record) sl.loss).cur
      (closeLoss (endRecord u u.myCore sl.record) sl.loss).myCtx) := by
  have hrelease : (if rmwIssued s = true then .ok s else release s 4) = .ok t := by
    split at ht
    · next hi => rw [if_pos hi, ht]
    · next hi => rw [if_neg hi, ht]
  have hjoin : (if recJoin sl.record = 0 then .ok t else joinStep t (recJoin sl.record)) = .ok u := by
    rcases hu with ⟨hj, rfl⟩ | ⟨hj, hu⟩
    · exact if_pos hj
    · exact (if_neg hj).trans hu
  exact ends_of_on hg rfl ((bind_of_ok (mySlice_ok hs) _).trans ((bind_of_ite hrelease _).trans (bind_of_ite hjoin _)))

/-- The record that a tyield enqueues: it resumes past the instruction, with its deadline, and with x[A] where there is an
A (R375). -/
def yieldRecord (f : Fmt) (t : State) (r : V512) : V512 :=
  let r1 := recSetDword (recSetDword r 0 (t.me.pc + 12)) 3 t.me.deadline
  if f.a = .none then r1 else recSetDword r1 1 (xval t f.a)

/-- What a tyield leaves once its hart has left the slice. -/
def yielded (v : State) (r : V512) (loss : Option Nat) : State :=
  match v.launch (recGraph r) with
  | none => v
  | some l => enqueueAt v (queueFor l r v.myCore none) { record := r, loss := loss }

omit hg hs in
theorem yielded_launched {v : State} {q : V512} (h : v.launch (recGraph q) = some l) (loss : Option Nat) :
    yielded v q loss = enqueueAt v (queueFor l q v.myCore none) { record := q, loss := loss } := by
  simp only [yielded, h]

omit hg hs in
theorem yielded_gone {v : State} {q : V512} (h : v.launch (recGraph q) = none) (loss : Option Nat) :
    yielded v q loss = v := by
  simp only [yielded, h]

theorem tyield_ends (ht : release s 4 = .ok t) :
    Ends (.tyield f) s (yielded (leaveSlice t t.cur t.myCtx) (yieldRecord f t sl.record) sl.loss) := by
  refine ends_of_on hg rfl ((bind_of_ok (mySlice_ok hs) _).trans ((bind_of_ok ht _).trans ?_))
  have hrec : (if f.a.isNone = true then recSetDword (recSetDword sl.record 0 (t.me.pc + 12)) 3 t.me.deadline
      else recSetDword (recSetDword (recSetDword sl.record 0 (t.me.pc + 12)) 3 t.me.deadline) 1 (xval t f.a)) =
      yieldRecord f t sl.record := by
    unfold yieldRecord
    dsimp only
    simp only [operand_isNone_iff]
  dsimp only
  rw [hrec]
  unfold yielded
  split <;> simp only [*]

end

-- tlaunch (R377).

section
variable {ts : List Target} (hn : (xval s f.a).toNat % 64 = 0) (hp : packetTargets s (xval s f.a) 4 = .ok ts)
  (ht : release s 4 = .ok t)

omit hg in
include hp in
/-- A packet lies in no debug window. -/
theorem packet_debugWindow : debugWindow (xval s f.a) = false := by
  by_contra hd
  rw [Bool.not_eq_false] at hd
  obtain ⟨p, hr, hp⟩ := bind_ok.mp hp
  obtain ⟨m, o, rfl⟩ := resolve_debugWindow hd hr
  cases hp

include hn hp ht

theorem tlaunch_runs : exec (.tlaunch f) s = settle (tlaunchRun f t (xval s f.a) ts) :=
  (scalarRun_on hg _).trans (congrArg settle ((bind_of_ok (alignedIn_ok (packet_debugWindow hp) hn false) _).trans
    ((bind_of_ok hp _).trans (bind_of_ok ht _))))

theorem tlaunch_refused {u : State} {code d : Nat}
    (hr : launchRead (readPacket t (xval s f.a) ts) = .error (.refuse u code d)) (hd : dstReady u f.d = .ok ()) :
    Gives64 (.tlaunch f) f s u (BitVec.ofNat 64 (d % 256 * 2 ^ 8 + code)) := by
  refine gives64_of_put ((tlaunch_runs hg hn hp ht).trans (congrArg settle ?_)) hd
  simp only [tlaunchRun, hr]

theorem tlaunch_answers {u w : State} {bs : List Byte} {v : W64}
    (hr : launchRead (readPacket t (xval s f.a) ts) = .ok (u, bs))
    (hl : runLaunch u (.hart t.cur) t.myCtx (isSup t.cur && t.me.modeS) (dwords bs 32) = .ok (w, v))
    (hd : dstReady w f.d = .ok ()) : Gives64 (.tlaunch f) f s w v := by
  refine gives64_of_put ((tlaunch_runs hg hn hp ht).trans (congrArg settle ?_)) hd
  simp only [tlaunchRun, hr, hl]

end

-- Sowing ranges (R402, R403).

section
variable (hr : src512 s f.a = .ok r)
include hr

theorem rngset_bad (hb : sowBad r = true) (hd : dstReady s f.d = .ok ()) : Gives64 (.rngset f) f s s 1 :=
  gives64_of_body hg rfl ((bind_of_ok hr _).trans (if_pos hb)) hd

theorem rngset_enters (hb : sowBad r = false)
    (he : enterRange s (clusterOf s.myCore) (sowRange r s.myCtx (sowId f)) = some t) (hd : dstReady t f.d = .ok ()) :
    Gives64 (.rngset f) f s t 0 := by
  refine gives64_of_body hg rfl ((bind_of_ok hr _).trans ((if_neg (Bool.eq_false_iff.mp hb)).trans ?_)) hd
  simp only [he]

theorem rngset_full (hb : sowBad r = false)
    (he : enterRange s (clusterOf s.myCore) (sowRange r s.myCtx (sowId f)) = none) (hd : dstReady s f.d = .ok ()) :
    Gives64 (.rngset f) f s s 2 := by
  refine gives64_of_body hg rfl ((bind_of_ok hr _).trans ((if_neg (Bool.eq_false_iff.mp hb)).trans ?_)) hd
  simp only [he]

end

theorem rngget_none {d : Fin 32} (hd : f.d = .x d) (he : s.range? (clusterOf s.myCore) s.myCtx (sowId f) = none) :
    Gives64 (.rngget f) f s (s.modMe (fun h => h.wx (pairReg f.d) 0)) 0 := by
  refine gives64_of_body hg rfl ?_ (dstReady_x hd _)
  simp only [he]

theorem rngget_chunk {d : Fin 32} (hd : f.d = .x d) {e : SowRange}
    (he : s.range? (clusterOf s.myCore) s.myCtx (sowId f) = some e) : Gives64 (.rngget f) f s
      ((s.setSow (clusterOf s.myCore) ((s.sow (clusterOf s.myCore)).map
        (fun q => if q.is e.ctx e.id then { q with next := q.next + e.chunk } else q))).modMe
          (fun h => h.wx (pairReg f.d) (BitVec.ofNat 64 e.chunk))) (BitVec.ofInt 64 e.next) := by
  refine gives64_of_body hg rfl ?_ (dstReady_x hd _)
  simp only [he]

section
variable (hd : dstReady s f.d = .ok ())
include hd

theorem rnggetLeft_none (he : s.range? (clusterOf s.myCore) s.myCtx (sowId f) = none) :
    Gives64 (.rnggetLeft f) f s s 0 := by
  refine gives64_of_body hg rfl ?_ hd
  simp only [he]

theorem rnggetLeft_some {e : SowRange} (he : s.range? (clusterOf s.myCore) s.myCtx (sowId f) = some e) :
    Gives64 (.rnggetLeft f) f s s (BitVec.ofNat 64 e.left) := by
  refine gives64_of_body hg rfl ?_ hd
  simp only [he]

end

end

/-- Settles O30: a record by its check and its queue, a slice by what it leaves, a packet by what reading it and running
it give, and a range by whether it is there. -/
theorem taskInstructionResults : Obligations.TaskInstructionResults := by
  unfold Obligations.TaskInstructionResults
  refine ⟨fun f s t hg => ⟨fun r hr => ⟨tspawn_refused hg hr, fun l hc hl ht => ⟨tspawn_full hg hr hc hl ht,
      tspawn_enqueues hg hr hc hl ht⟩⟩,
    fun sl hs => ⟨fun hd => tdl_gives hg hs (by simp only [later_eq]) hd, fun ht u hu => tend_ends hg hs ht hu,
      fun ht => ⟨fun l hl => ?_, fun hl => ?_⟩⟩,
    fun ts hn hp ht => ⟨fun u code d => tlaunch_refused hg hn hp ht, fun u bs w v => tlaunch_answers hg hn hp ht⟩⟩,
    fun f s hg => ⟨fun r hr hd => ⟨fun hb => rngset_bad hg hr hb hd, fun t => rngset_enters hg hr,
        fun hb he => rngset_full hg hr hb he hd⟩,
      fun d hd => ⟨rngget_none hg hd, fun e => rngget_chunk hg hd⟩,
      fun hd => ⟨rnggetLeft_none hg hd, fun e => rnggetLeft_some hg hd⟩⟩⟩
  · exact yielded_launched (q := yieldRecord f t sl.record) hl sl.loss ▸ tyield_ends hg hs ht
  · exact yielded_gone (q := yieldRecord f t sl.record) hl sl.loss ▸ tyield_ends hg hs ht

end Sys2Proof.Machine

end

section
/-! PROOFS. The trust domain and the health of the dies (R493 to R497, R508, R512). -/

namespace Sys2Proof.Machine

open Sys2Proof.Safety

-- The state's log.

/-- One entry is logged for each element of a list, and nothing else changes. -/
theorem foldl_log {α : Type} (f : α → LogEntry) (l : List α) (s : State) :
    l.foldl (fun s a => s.log (f a)) s = { s with events := s.events ++ l.map f } := by
  induction l generalizing s with
  | nil => rw [List.map_nil, List.append_nil, List.foldl_nil]
  | cons a l ih =>
    rw [List.foldl_cons, ih, List.map_cons, ← List.singleton_append, ← List.append_assoc]
    rfl

-- DOMAIN_JOIN (R493, R508).

theorem domainJoin_joins {s : State} {ms : List Nat}
    (hone : (s.devidx :: (s.domain ++ ms)).eraseDups.length = (s.devidx :: (s.domain ++ ms)).length)
    (hlow : (s.devidx :: (s.domain ++ ms)).all (fun d => d < 576) = true) :
    execDomainJoin ms true s = .next { s with joined := s.joined ++ ms.filter (fun d => !s.joined.contains d) } :=
  if_pos (by simp only [hone, hlow, beq_self_eq_true, Bool.and_self])

theorem domainJoin_repeated {s : State} {ms : List Nat}
    (hone : (s.devidx :: (s.domain ++ ms)).eraseDups.length ≠ (s.devidx :: (s.domain ++ ms)).length) :
    execDomainJoin ms true s = .next s :=
  if_neg (by simp only [beq_eq_false_iff_ne.mpr hone, Bool.true_and, Bool.false_and, Bool.false_eq_true, not_false_eq_true])

-- DOMAIN_BARRIER (R382, R497).

/-- The barrier that was begun, or begins now, for these members. -/
def barrierBegun (s : State) (ms : List Nat) : State := { endLeaving s ms with barrier := some ms }

section
variable {s : State} {a : Agreed} (b : Nat) (hbar : s.barrier = none ∨ s.barrier = some a.members)
  (hin : a.members.all (fun d => s.domain.contains d || s.joined.contains d) = true)
  (hone : a.members.eraseDups.length = a.members.length) (hself : a.members.contains s.devidx = false)
include hbar hin hone hself

/-- What the barrier does for members that it may change the domain to. -/
theorem domainBarrier_begun : execDomainBarrier a b s =
    (let e := barrierBegun s a.members
     if fabricBusy e then .next e
     else
       let t := (gapStreams e a.finals).eraseDups.foldl (fun s d => s.log (.fabric d)) e
       .next { t with
         domain := a.members, joined := t.joined.filter (fun d => !a.members.contains d), epoch := (t.epoch + 1) % 2 ^ 32
         barrier := none, streams := [], sent := [], refused := [], gathers := []
         schedule := t.nextSchedule.getD t.schedule, nextSchedule := none
         time := Nat.max t.time b }) := by
  have hsame : (s.barrier.getD a.members != a.members) = false := by rcases hbar with h | h <;> simp [h]
  refine if_neg (Bool.not_eq_true _ ▸ ?_)
  rw [hin, hself, hsame, hone]
  simp

theorem domainBarrier_waits (hbusy : fabricBusy (barrierBegun s a.members) = true) :
    execDomainBarrier a b s = .next (barrierBegun s a.members) :=
  (domainBarrier_begun b hbar hin hone hself).trans (if_pos hbusy)

theorem domainBarrier_changes (hquiet : fabricBusy (barrierBegun s a.members) = false) :
    ∃ t, execDomainBarrier a b s = .next t ∧ t.domain = a.members ∧ t.barrier = none ∧
      (∀ d, (gapStreams (barrierBegun s a.members) a.finals).contains d = true → t.events.contains (.fabric d) = true) ∧
      t.epoch = (s.epoch + 1) % 2 ^ 32 ∧ t.streams = [] ∧ t.sent = [] ∧ t.refused = [] ∧ t.gathers = [] ∧
      t.schedule = s.nextSchedule.getD s.schedule ∧ t.nextSchedule = none ∧ t.time = Nat.max s.time b ∧
      s.time ≤ t.time ∧ t.mem = s.mem ∧ t.harts = s.harts := by
  refine ⟨_, (domainBarrier_begun b hbar hin hone hself).trans (if_neg (Bool.eq_false_iff.mp hquiet)), rfl, rfl, ?_⟩
  rw [foldl_log]
  refine ⟨fun d hd => ?_, rfl, rfl, rfl, rfl, rfl, rfl, rfl, rfl, Nat.le_max_left _ _, rfl, rfl⟩
  have hgap : d ∈ (gapStreams (barrierBegun s a.members) a.finals).eraseDups :=
    List.mem_eraseDups.mpr (List.contains_iff_mem.mp hd)
  exact List.contains_iff_mem.mpr (List.mem_append_right _ (List.mem_map_of_mem hgap))

end

-- VOLTAGE_REPLAN (R512).

/-- The cores of a die from which one to retire is chosen. -/
def retirable (s : State) (die : Nat) : List Nat :=
  ((List.range 128).map (fun l => die * 128 + l)).filter (fun c => present s c && !s.retired.contains c)

theorem mem_retirable {s : State} {die c : Nat} :
    c ∈ retirable s die ↔ c / 128 = die ∧ present s c = true ∧ s.retired.contains c = false := by
  simp only [retirable, List.mem_filter, List.mem_map, List.mem_range, Bool.and_eq_true, Bool.not_eq_true']
  refine and_congr_left fun _ => ⟨?_, fun h => ⟨c % 128, Nat.mod_lt _ (by decide), by omega⟩⟩
  rintro ⟨l, hl, rfl⟩
  omega

/-- Raising a supervisor's lines changes only harts. -/
theorem alertDie_leaves {β : Type} (g : State → β) (hg : ∀ s hs, g { s with harts := hs } = g s) (s : State) (die : Nat) :
    g (alertDie s die) = g s :=
  foldl_leaves g (fun _ _ => hg _ _) _ _

theorem voltageReplan_moves {s : State} {die : Nat}
    (h : ¬ (Tab.get 0 s.voltages die = Config.voltageCeiling die ∧ Tab.get 0 s.margins die < Config.marginFloor die)) :
    ∃ t, execVoltageReplan die s = .next t ∧ Tab.get 0 t.voltages die ≤ Config.voltageCeiling die ∧
      t.harts = s.harts ∧ t.mem = s.mem ∧ t.retired = s.retired := by
  refine ⟨_, if_neg (by simpa using h), ?_, rfl, rfl, rfl⟩
  exact (Tab.get_put_same _ _ _ _).trans_le (Nat.le_of_lt_succ (Nat.mod_lt _ (Nat.succ_pos _)))

theorem voltageReplan_retires {s : State} {die : Nat} (htop : Tab.get 0 s.voltages die = Config.voltageCeiling die)
    (hlow : Tab.get 0 s.margins die < Config.marginFloor die) (hc : ∃ c, c ∈ retirable s die) :
    ∃ t c, execVoltageReplan die s = .next t ∧ c ∈ retirable s die ∧ t.retired = s.retired ++ [c] ∧ t.boot = s.boot ∧
      t.mem = s.mem := by
  have hpos : 0 < (retirable s die).length := List.length_pos_iff_exists_mem.mpr hc
  have hlt := Nat.mod_lt s.draw.2.toNat hpos
  have hget := List.getElem?_eq_getElem hlt
  have heq : execVoltageReplan die s = (match (retirable s die)[s.draw.2.toNat % (retirable s die).length]? with
      | some c => .next (alertDie ({ s.draw.1 with retired := s.draw.1.retired ++ [c] }.log (.retire c)) die)
      | none => .next s) := if_pos (by simpa using ⟨htop, hlow⟩)
  rw [hget] at heq
  exact ⟨_, _, heq, List.getElem_mem hlt, alertDie_leaves State.retired (fun _ _ => rfl) _ _,
    alertDie_leaves State.boot (fun _ _ => rfl) _ _, alertDie_leaves State.mem (fun _ _ => rfl) _ _⟩

/-- Settles O36: each event is what its definition says once its checks are decided; the barrier's log of gaps is a map
over the streams, and a core to retire is a member of those the choice is made from. -/
theorem domainAndHealthResults : Obligations.DomainAndHealthResults := by
  intro s
  refine ⟨fun ms => ⟨domainJoin_joins, domainJoin_repeated, rfl⟩,
    fun ms b finals hbar hin hone hself =>
      ⟨domainBarrier_waits (a := { members := ms, finals := finals }) b hbar hin hone hself,
        domainBarrier_changes (a := { members := ms, finals := finals }) b hbar hin hone hself⟩,
    fun _ _ => rfl, fun die => voltageReplan_moves, fun die htop hlow hc => ?_⟩
  obtain ⟨t, c, hexec, hmem, hret⟩ := voltageReplan_retires htop hlow (hc.imp fun _ => mem_retirable.mpr)
  obtain ⟨hdie, hpresent, -⟩ := mem_retirable.mp hmem
  exact ⟨t, c, hexec, hdie, hpresent, hret⟩

end Sys2Proof.Machine

end

section
/-! PROOFS. Launches, dispatch, losses, notices and the end of graphs (R387, R390 to R392, R396, R399 to R401, R500). -/

namespace Sys2Proof.Machine

open Sys2Proof.Safety

-- The launch unit (R390, R500).

theorem launchUnitProcess_idle {s : State} {slot : Nat} (h : (s.slot slot).rung = false) :
    execLaunchUnitProcess slot s = .next s :=
  if_pos (by rw [h]; rfl)

theorem launchUnitProcess_answers {s t : State} {slot : Nat} {w : W64} (h : (s.slot slot).rung = true)
    (hrun : runLaunch s (.launcher slot) slot false (s.slot slot).packet.toList = .ok (t, w)) :
    execLaunchUnitProcess slot s = .next (t.setSlot slot
      { t.slot slot with busy := false, rung := false, result := w, msix := (t.slot slot).msix + 1 }) := by
  refine (if_neg (by simp [h])).trans ?_
  rw [hrun]

-- What an acquire leaves of the banks (R128).

/-- A bank that is given the value of a hart's projection which it had has that projection as before. -/
theorem bank_setBank_leaves {β : Type} (g : Hart → β) {s : State} {i c : Nat} {h : Hart} (hg : g h = g (s.bank i c))
    (j : Nat) : g ((s.setBank i c h).bank j c) = g (s.bank j c) := by
  by_cases hj : j = i
  · subst hj
    rw [State.bank_setBank_same, hg]
  · rw [State.bank_setBank_other _ _ _ _ _ _ (by omega)]

/-- An acquire changes of a bank its spilled lines alone. -/
theorem bank_acquireFor {β : Type} (g : Hart → β) (hg : ∀ h q, g { h with spill := q } = g h) (s : State)
    (hid ctx : Nat) : g ((acquireFor s hid ctx).bank hid ctx) = g (s.bank hid ctx) := by
  refine (foldl_leaves (fun t => g (t.bank hid ctx)) (fun t i => ?_) _ _).trans ?_
  · dsimp only
    split
    · rfl
    · exact bank_setBank_leaves g (hg _ _) hid
  · split <;> rfl

/-- An acquire changes neither the memory nor anything else that no bank, core, unit or answer holds. -/
theorem acquireFor_mem (s : State) (hid ctx : Nat) : (acquireFor s hid ctx).mem = s.mem := by
  refine (foldl_leaves State.mem (fun t i => ?_) _ _).trans ?_
  · dsimp only
    split <;> rfl
  · split <;> rfl

-- A slice's start (R387, R396).

theorem noteLate_bank (s : State) (ctx : Nat) (d : W64) (r : V512) (i c : Nat) :
    (noteLate s ctx d r).bank i c = s.bank i c := by
  unfold noteLate
  split <;> rfl

theorem noteLate_mem (s : State) (ctx : Nat) (d : W64) (r : V512) : (noteLate s ctx d r).mem = s.mem := by
  unfold noteLate
  split <;> rfl

/-- The registers a slice's record gives it: FRAME, ARG0 and ARG1 in x1 to x3, and every other register dead. -/
def Hart.withArgs (h : Hart) (r : V512) : Hart :=
  (((({ h with dead := allDead } : Hart).wx 1 (recFrame r)).wx 2 (recArg0 r)).wx 3 (recArg1 r))

theorem isDead_allDead (h : Hart) {n : Nat} (h0 : 0 < n) (hn : n < 64) :
    ({ h with dead := allDead } : Hart).isDead n = true := by
  have hbits : ∀ n : Fin 64, 0 < n.val → allDead.getLsbD n.val = true := by decide
  exact hbits ⟨n, hn⟩ h0

namespace Hart

variable (h : Hart) (r : V512)

theorem rx1_withArgs : (h.withArgs r).rx 1 = recFrame r :=
  (rx_wx_other _ _ (by decide)).trans ((rx_wx_other _ _ (by decide)).trans (rx_wx_same _ _ (by decide)))

theorem rx2_withArgs : (h.withArgs r).rx 2 = recArg0 r :=
  (rx_wx_other _ _ (by decide)).trans (rx_wx_same _ _ (by decide))

theorem rx3_withArgs : (h.withArgs r).rx 3 = recArg1 r := rx_wx_same _ _ (by decide)

theorem rx_withArgs {q : Fin 32} (hq : 3 < q.val) : (h.withArgs r).rx q = 0 := by
  have hne : ∀ k : Fin 32, k.val ≤ 3 → q ≠ k := fun k hk e => by subst e; omega
  rw [withArgs, rx_wx_other _ _ (hne 3 (by decide)), rx_wx_other _ _ (hne 2 (by decide)),
    rx_wx_other _ _ (hne 1 (by decide))]
  exact rx_dead _ (isDead_allDead h (by omega) (by omega))

theorem rv_withArgs (q : Fin 32) : (h.withArgs r).rv q = 0 := by
  rw [withArgs, rv_wx, rv_wx, rv_wx]
  exact rv_dead _ (isDead_allDead h (by omega) (by omega))

end Hart

/-- The bank of a hart as a slice starts on it, but for the hart's spilled lines. -/
def begun (s : State) (hid ctx : Nat) (e : QRec) (l : Launch) : Hart :=
  let h := s.bank hid ctx
  let r := e.record
  let budget := if recBudget r = 0 then l.budget else recBudget r
  Hart.setPc { h.withArgs r with
    status := mkStatus false h.ie h.pie h.pmode
    budget := budget, deadline := recDeadline r, cmask := 0, p := Vector.replicate 8 0, repst := 0
    branchQ := [], copyAE := [], copyEA := [], lag := []
    running := true, waiting := false
    slice := some { record := r, launch := recGraph r, d0 := recDeadline r, counting := budget != 0, loss := e.loss } }
    (recCode r)

theorem startSlice_eq (s : State) (hid ctx : Nat) (e : QRec) (l : Launch) :
    startSlice s hid ctx e l = acquireFor ((noteLate s ctx (recDeadline e.record) e.record).setBank hid ctx
      (begun (noteLate s ctx (recDeadline e.record) e.record) hid ctx e l)) hid ctx := rfl

/-- What is not a spilled line, a slice's start sets as it sets it. -/
theorem bank_startSlice {β : Type} (g : Hart → β) (hg : ∀ h q, g { h with spill := q } = g h) (s : State)
    (hid ctx : Nat) (e : QRec) (l : Launch) :
    g ((startSlice s hid ctx e l).bank hid ctx) = g (begun s hid ctx e l) := by
  rw [startSlice_eq, bank_acquireFor g hg, State.bank_setBank_same, begun, noteLate_bank]
  rfl

theorem startSlice_mem (s : State) (hid ctx : Nat) (e : QRec) (l : Launch) : (startSlice s hid ctx e l).mem = s.mem := by
  rw [startSlice_eq, acquireFor_mem]
  exact noteLate_mem _ _ _ _

theorem begun_rp (s : State) (hid ctx : Nat) (e : QRec) (l : Launch) (r : Fin 8) :
    (begun s hid ctx e l).rp r = if r = 0 then BitVec.allOnes 64 else 0 := by
  simp [begun, Hart.rp, Hart.setPc]

theorem taskDispatch_starts {s u : State} {hart : Nat} {e : QRec} {l : Launch} (hmay : mayAsk s hart = true)
    (hask : ask s (coreOf hart) (s.ctxOf (coreOf hart)) = (u, some e))
    (hl : u.launchFor (recGraph e.record) (s.ctxOf (coreOf hart)) = some l) :
    execTaskDispatch hart s = .next (startSlice u hart (s.ctxOf (coreOf hart)) e l) := by
  refine congrArg Host.Outcome.next ((if_pos hmay).trans ?_)
  dsimp only
  rw [hask]
  dsimp only
  rw [hl]

-- Notices (R400).

theorem report_leaves {β : Type} (g : State → β) (hg : ∀ s m, g { s with headAbove := m } = g s) (rises : Bool) (l : List Nat)
    (s : State) : g (s.report rises l) = g s := by
  induction l generalizing s with
  | nil => rfl
  | cons k l ih =>
    unfold State.report
    extract_lets n m t
    split
    · exact hg s _
    · exact (ih t).trans (hg s _)

/-- A core's counter that is set is told to its parents, which is all but its own value. -/
theorem setHead_leaves {β : Type} (g : State → β) (hg : ∀ s m, g { s with headAbove := m } = g s) (s : State)
    (gr core : Nat) (h : Headland) : g (s.setHead gr core h) = g { s with
      headland := if h = {} then Tab.drop s.headland (headKey gr core) else Tab.put s.headland (headKey gr core) h } := by
  unfold State.setHead
  dsimp only
  split
  · rfl
  · exact report_leaves g hg _ _ _

theorem head_setHead_same (s : State) (gr core : Nat) (h : Headland) : (s.setHead gr core h).head gr core = h := by
  refine (setHead_leaves (fun t => t.head gr core) (fun _ _ => rfl) s gr core h).trans ?_
  change Tab.get {} (if h = {} then _ else _) (headKey gr core) = h
  split
  next e => exact (Tab.get_filter_refused _ _ fun _ => by simp).trans e.symm
  next => exact Tab.get_put_same _ _ _ _

theorem setHead_notices (s : State) (gr core : Nat) (h : Headland) : (s.setHead gr core h).notices = s.notices :=
  setHead_leaves State.notices (fun _ _ => rfl) s gr core h

section
variable {s : State} {n : Nat} {m : Notice} (hm : s.notices[n]? = some m)
include hm

/-- The notice is acknowledged. -/
theorem endNotice_acked (ha : m.acked = true) : execEndNotice n s = .next s := by
  simp only [execEndNotice, noticeArrives, hm, ha, if_true]

theorem endNotice_core (ha : m.acked = false) (ho : m.origin ≠ originLaunch) :
    let u : State := { s with notices := s.notices.set n { m with acked := true } }
    execEndNotice n s = .next (u.setHead m.graph m.origin
      { s.head m.graph m.origin with records := (s.head m.graph m.origin).records - 1 }) := by
  simp only [execEndNotice, noticeArrives, hm, ha, ho, if_false, Bool.false_eq_true]
  rfl

theorem endNotice_launch {l : Launch} (ha : m.acked = false) (ho : m.origin = originLaunch)
    (hl : s.launch m.graph = some l) :
    let u : State := { s with notices := s.notices.set n { m with acked := true } }
    execEndNotice n s = .next (u.setLaunch m.graph { l with own := l.own - 1 }) := by
  unfold execEndNotice noticeArrives
  rw [hm]
  refine congrArg Host.Outcome.next ((if_neg (by simp [ha])).trans ((if_pos ho).trans ?_))
  simp only [State.launch] at hl ⊢
  rw [hl]

theorem endNoticeAck_waits (ha : m.acked = false) : execEndNoticeAck n s = .next s := by
  simp only [execEndNoticeAck, noticeAcked, hm, ha, Bool.not_false, if_true]

theorem endNoticeAck_counts (ha : m.acked = true) : ∃ t, execEndNoticeAck n s = .next t ∧
    t.notices = s.notices.eraseIdx n ∧ (t.head m.graph m.ender).notices = (s.head m.graph m.ender).notices - 1 := by
  have heq : noticeAcked s n = { s.setHead m.graph m.ender
      { s.head m.graph m.ender with notices := (s.head m.graph m.ender).notices - 1 } with
      notices := (s.setHead m.graph m.ender
        { s.head m.graph m.ender with notices := (s.head m.graph m.ender).notices - 1 }).notices.eraseIdx n } := by
    unfold noticeAcked
    rw [hm]
    exact if_neg (by simp [ha])
  refine ⟨_, congrArg Host.Outcome.next heq, ?_, ?_⟩
  · exact congrArg (List.eraseIdx · n) (setHead_notices _ _ _ _)
  · exact congrArg Headland.notices (head_setHead_same _ _ _ _)

end

-- Graph ends (R392).

section
variable {s : State} {g : Nat} {l : Launch} (hl : s.launch g = some l)
include hl

theorem graphEnd_waits (hd : graphDone s g l = false) : execGraphEnd g s = .next s := by
  simp only [execGraphEnd, hl, hd, Bool.not_false, if_true]

theorem graphEnd_frees (hd : graphDone s g l = true) (hw : l.dword = 0) : execGraphEnd g s = .next (freeLaunch s g l) := by
  simp only [execGraphEnd, hl, hd, hw, Bool.not_true, Bool.false_eq_true, if_false, if_true]

theorem graphEnd_writes {t : State} (hd : graphDone s g l = true) (hw : l.dword ≠ 0)
    (ht : devWrite1 s (.launcher l.ctx) l.ctx l.dword (leBytes 8 l.dvalue.toNat) = .ok t) :
    execGraphEnd g s = .next (freeLaunch t g l) := by
  simp only [execGraphEnd, hl, hd, hw, ht, Bool.not_true, Bool.false_eq_true, if_false]

end

-- The communication reserve (R401).

theorem reserveAdjust_moves {s : State} {die ctx : Nat} (hctx : ctx < 64)
    (hdue : Tab.get 0 s.reserveAt (die * 64 + ctx) < s.time / 65536) : execReserveAdjust die ctx s =
      (let key := die * 64 + ctx
       let n := (grantedOn s die ctx).length
       let waiting := ((s.queue (.comm die)).filter (fun e => recCtx e.record == ctx)).length
       let k := Tab.get 1 s.reserve key
       let k := if waiting > s.hi then k + 1 else if waiting < s.lo then k - 1 else k
       let k := Nat.max 1 (Nat.min k (Nat.min 16 (n - 1)))
       .next { s with reserve := Tab.put s.reserve key k, reserveAt := Tab.put s.reserveAt key (s.time / 65536) }) :=
  if_neg (by simp [hctx, hdue])

/-- Settles O40: each event decides its checks and then does what its clause says; a slice's start sets its bank, of
which the acquire that follows changes the spilled lines alone, and a counter that is set tells its parents. -/
theorem schedulingEventResults : Obligations.SchedulingEventResults := by
  intro s slot hart ctx n g die
  refine ⟨launchUnitProcess_idle, fun t w => launchUnitProcess_answers,
    fun h => congrArg Host.Outcome.next (if_neg (Bool.eq_false_iff.mp h)),
    fun u e l hmay hask hl => ⟨_, taskDispatch_starts hmay hask hl, ?_⟩, fun h => if_neg (Bool.eq_false_iff.mp h),
    fun h => if_pos h, fun m hm => ⟨endNotice_core hm, fun l => endNotice_launch hm, endNotice_acked hm,
      endNoticeAck_waits hm, endNoticeAck_counts hm⟩,
    fun l hl => ⟨graphEnd_waits hl, graphEnd_frees hl, fun t => graphEnd_writes hl⟩, ?_⟩
  · have hset {β : Type} (f : Hart → β) (hf : ∀ h q, f { h with spill := q } = f h) :=
      bank_startSlice f hf u hart (s.ctxOf (coreOf hart)) e l
    exact ⟨hset Hart.running fun _ _ => rfl, hset Hart.waiting fun _ _ => rfl, hset Hart.pc fun _ _ => rfl,
      (hset Hart.modeS fun _ _ => rfl).trans (mkStatus_bits _ _ _ _).1, hset Hart.repst fun _ _ => rfl,
      hset Hart.cmask fun _ _ => rfl, hset Hart.deadline fun _ _ => rfl, hset Hart.budget fun _ _ => rfl,
      (hset (Hart.rx · 1) fun _ _ => rfl).trans (Hart.rx1_withArgs _ _),
      (hset (Hart.rx · 2) fun _ _ => rfl).trans (Hart.rx2_withArgs _ _),
      (hset (Hart.rx · 3) fun _ _ => rfl).trans (Hart.rx3_withArgs _ _),
      fun r hr => (hset (Hart.rx · r) fun _ _ => rfl).trans (Hart.rx_withArgs _ _ hr),
      fun r => (hset (Hart.rv · r) fun _ _ => rfl).trans (Hart.rv_withArgs _ _ r),
      fun r => (hset (Hart.rp · r) fun _ _ => rfl).trans (begun_rp _ _ _ _ _ r),
      hset (fun h => h.slice.map (·.record)) fun _ _ => rfl, startSlice_mem _ _ _ _ _⟩
  · intro key waiting k bound w hw hctx hdue
    subst hw
    exact reserveAdjust_moves hctx hdue

end Sys2Proof.Machine

end

section
/-! PROOFS. The tour instructions (R407, R408, R410, R413, R416, R421, R422). -/

namespace Sys2Proof.Machine

open Sys2Proof.Safety

/-- Answers that are kept while an access waits are no matter once the instruction writes its result. -/
theorem keepAnswers_put64 {f : Fmt} {s u : State} {v : W64} {body : Act State} (hd : dstReady u f.d = .ok ())
    (hb : body = put64 f u v) : keepAnswers s body = put64 f u v := by
  obtain ⟨t, ht, -⟩ := put64_ok v hd
  rw [ht]
  exact keepAnswers_ok.mpr (hb.trans ht)

section
variable {f : Fmt} {s : State} (hc : isSup s.cur = false) (hg : guardOn f s = true)
include hc hg

-- tour (R421).

section
variable {u : State} {bs : List Byte} (hu : unitsReady s = .ok ()) (ha : (xval s f.a).toNat % 64 = 0)
  (hl : loadWords s (xval s f.a) 64 2 = .ok (u, bs))
include hu ha hl

theorem tour_refused (hk : itCheck u u.myCtx (leNat bs) ≠ 0) (hd : dstReady u f.d = .ok ()) :
    Gives64 (.tour f) f s u (BitVec.ofNat 64 (itCheck u u.myCtx (leNat bs))) := by
  refine gives64_onCompute hc hg rfl ((bind_of_ok hu _).trans ((bind_of_ok (need_ok (u := ()) |>.mpr
    (decide_eq_true ha)) _).trans (keepAnswers_put64 hd ((bind_of_ok hl _).trans ?_)))) hd
  dsimp only
  split
  next h0 => exact absurd h0 hk
  next => rfl

theorem tour_offered {w : State} {st : Nat} (hk : itCheck u u.myCtx (leNat bs) = 0)
    (ho : offerTour u (leNat bs) = .ok (w, st)) (hd : dstReady w f.d = .ok ()) :
    Gives64 (.tour f) f s w (BitVec.ofNat 64 st) := by
  refine gives64_onCompute hc hg rfl ((bind_of_ok hu _).trans ((bind_of_ok (need_ok (u := ()) |>.mpr
    (decide_eq_true ha)) _).trans (keepAnswers_put64 hd ((bind_of_ok hl _).trans ?_)))) hd
  dsimp only
  rw [hk]
  exact bind_of_ok ho _

end

-- tour.bind (R407, R421).

section
variable (hu : unitsReady s = .ok ()) (hb : qbBound s.me.qbind[handleOf f.a] = true)
include hu hb

omit hc hg hu in
theorem boundHandle_ok : boundHandle s (handleOf f.a) = .ok s.me.qbind[handleOf f.a] :=
  bind_of_ok (need_ok (u := ()) |>.mpr hb) _

/-- tour.bind of a bound handle, by the handle's mode and what its ring holds. -/
theorem exec_tourBind : exec (.tourBind f) s = settle
    (let h := handleOf f.a
     let b := s.me.qbind[h]
     let r := s.ring s.myCore s.myCtx h.val
     if qbMode b = 2 then put64 f s 0
     else if qbMode b != 0 then put64 f s 1
     else if r.filled != 0 || r.peer.isSome then put64 f s 2
     else put64 f ((s.modMe (fun m => { m with
       qbind := m.qbind.set h (mkQbind true (qbRint b) 2 (qbPhandle b) (qbPcore b)) })).setRing s.myCore s.myCtx h.val
       { r with tour := true }) 0) :=
  (exec_onCompute hc hg rfl).trans (congrArg settle ((bind_of_ok hu _).trans
    (bind_of_ok (boundHandle_ok hb) _)))

theorem tourBind_role (hd : dstReady s f.d = .ok ()) (hm : qbMode s.me.qbind[handleOf f.a] = 2) :
    Gives64 (.tourBind f) f s s 0 :=
  gives64_of_put ((exec_tourBind hc hg hu hb).trans (congrArg settle (if_pos hm))) hd

theorem tourBind_other (hd : dstReady s f.d = .ok ()) (hm : qbMode s.me.qbind[handleOf f.a] ≠ 2)
    (h0 : qbMode s.me.qbind[handleOf f.a] ≠ 0) : Gives64 (.tourBind f) f s s 1 :=
  gives64_of_put ((exec_tourBind hc hg hu hb).trans (congrArg settle ((if_neg hm).trans (if_pos (bne_iff_ne.mpr h0))))) hd

section
variable (hm : qbMode s.me.qbind[handleOf f.a] = 0)
include hm

theorem exec_tourBind_local : exec (.tourBind f) s = settle
    (let r := s.ring s.myCore s.myCtx (handleOf f.a).val
     let b := s.me.qbind[handleOf f.a]
     if r.filled != 0 || r.peer.isSome then put64 f s 2
     else put64 f ((s.modMe (fun m => { m with
       qbind := m.qbind.set (handleOf f.a) (mkQbind true (qbRint b) 2 (qbPhandle b) (qbPcore b)) })).setRing
       s.myCore s.myCtx (handleOf f.a).val { r with tour := true }) 0) :=
  (exec_tourBind hc hg hu hb).trans (congrArg settle ((if_neg (by rw [hm]; decide)).trans (if_neg (by rw [hm]; decide))))

theorem tourBind_used (hd : dstReady s f.d = .ok ()) (hr : (s.ring s.myCore s.myCtx (handleOf f.a).val).filled ≠ 0 ∨
    (s.ring s.myCore s.myCtx (handleOf f.a).val).peer.isSome = true) : Gives64 (.tourBind f) f s s 2 :=
  gives64_of_put ((exec_tourBind_local hc hg hu hb hm).trans (congrArg settle (if_pos (by simpa using hr)))) hd

theorem tourBind_binds {d : Fin 32} (hd : f.d = .x d)
    (hf : (s.ring s.myCore s.myCtx (handleOf f.a).val).filled = 0)
    (hp : (s.ring s.myCore s.myCtx (handleOf f.a).val).peer = none) :
    let b := s.me.qbind[handleOf f.a]
    Gives64 (.tourBind f) f s ((s.modMe (fun m => { m with
      qbind := m.qbind.set (handleOf f.a) (mkQbind true (qbRint b) 2 (qbPhandle b) (qbPcore b)) })).setRing
      s.myCore s.myCtx (handleOf f.a).val { s.ring s.myCore s.myCtx (handleOf f.a).val with tour := true }) 0 :=
  gives64_of_put ((exec_tourBind_local hc hg hu hb hm).trans (congrArg settle (if_neg (by simp [hf, hp]))))
    (dstReady_x hd _)

end

end

-- trel (R413, R422).

/-- The instruction that releases a visit, or ends its tour. -/
def trelOf (f : Fmt) : Bool → Instr
  | false => .trel f
  | true => .trelEnd f

section
variable {r : Ring} (hr : tourHandle s (handleOf f.a) = .ok r)
include hr

omit hc hg in
/-- A tour handle's ring is the ring of its name on the hart's core. -/
theorem tourHandle_ring : r = s.ring s.myCore s.myCtx (handleOf f.a).val := by
  obtain ⟨_, -, h⟩ := bind_ok.mp hr
  obtain ⟨_, -, h⟩ := bind_ok.mp h
  obtain ⟨_, -, h⟩ := bind_ok.mp h
  exact (Except.ok.inj h).symm

omit hc hg in
/-- What trel and trel.end do once their head visit is known. -/
theorem trelRun_visit {v : Visit} (hv : headVisit r = some v) (fin : Bool) : trelRun f s fin =
    (let h := handleOf f.a
     if v.expired s then hold (expire s s.myCore s.myCtx h.val v)
     else if f.b != .none && (xval s f.b).toNat % 2 ^ 32 != v.arr then put64 f s 1
     else if v.ended then put64 f (s.popHead s.myCore s.myCtx h.val) 2
     else do
       waitFor (!capturedBy s.myUnit.matrix h.val v.arr && !storesTo s s.myCore &&
         regionsReady s s.myCore (r.slotOff v.arr) r.slotBytes) s
       put64 f (releaseVisit s s.myCore s.myCtx h.val v fin) 0) := by
  refine (bind_of_ok hr _).trans ?_
  dsimp only
  rw [hv]

omit hr in
/-- trel and trel.end answer what their common body gives. -/
theorem gives64_trel {w : State} {a : W64} (fin : Bool) (hb : trelRun f s fin = put64 f w a)
    (hd : dstReady w f.d = .ok ()) : Gives64 (trelOf f fin) f s w a := by
  cases fin with
  | false => exact gives64_onCompute hc hg rfl hb hd
  | true => exact gives64_onCompute hc hg rfl hb hd

section
variable {v : Visit} (hv : headVisit r = some v)
include hv

theorem trel_expired (he : v.expired s = true) (fin : Bool) : exec (trelOf f fin) s =
    settle (.error (.wait (expire s s.myCore s.myCtx (handleOf f.a).val v))) := by
  have hb := (trelRun_visit hr hv fin).trans (if_pos he)
  cases fin with
  | false => exact (exec_onCompute hc hg rfl).trans (congrArg settle hb)
  | true => exact (exec_onCompute hc hg rfl).trans (congrArg settle hb)

variable (he : v.expired s = false)
include he

theorem trel_gone (hd : dstReady s f.d = .ok ()) (hb : f.b ≠ .none) (hn : (xval s f.b).toNat % 2 ^ 32 ≠ v.arr) (fin : Bool) :
    Gives64 (trelOf f fin) f s s 1 :=
  gives64_trel hc hg fin ((trelRun_visit hr hv fin).trans ((if_neg (Bool.eq_false_iff.mp he)).trans
    (if_pos (by rw [Bool.and_eq_true, bne_iff_ne, bne_iff_ne]; exact ⟨hb, hn⟩)))) hd

variable (hn : f.b = .none ∨ (xval s f.b).toNat % 2 ^ 32 = v.arr) {d : Fin 32} (hd : f.d = .x d)
include hn hd

omit hc hg hd in
/-- The visit that trel names is the one at the head. -/
theorem trelRun_named (fin : Bool) : trelRun f s fin =
    (let h := handleOf f.a
     if v.ended then put64 f (s.popHead s.myCore s.myCtx h.val) 2
     else do
       waitFor (!capturedBy s.myUnit.matrix h.val v.arr && !storesTo s s.myCore &&
         regionsReady s s.myCore (r.slotOff v.arr) r.slotBytes) s
       put64 f (releaseVisit s s.myCore s.myCtx h.val v fin) 0) :=
  (trelRun_visit hr hv fin).trans ((if_neg (Bool.eq_false_iff.mp he)).trans (if_neg (by
    rw [Bool.and_eq_true, bne_iff_ne, bne_iff_ne]
    exact fun h => hn.elim h.1 h.2)))

theorem trel_ended (h : v.ended = true) (fin : Bool) : Gives64 (trelOf f fin) f s
    (s.popHead s.myCore s.myCtx (handleOf f.a).val) 2 :=
  gives64_trel hc hg fin ((trelRun_named hr hv he hn fin).trans (if_pos h)) (dstReady_x hd _)

theorem trel_releases (h : v.ended = false) (hcap : capturedBy s.myUnit.matrix (handleOf f.a).val v.arr = false)
    (hst : storesTo s s.myCore = false) (hreg : regionsReady s s.myCore (r.slotOff v.arr) r.slotBytes = true) (fin : Bool) :
    Gives64 (trelOf f fin) f s
      (releaseVisit s s.myCore s.myCtx (handleOf f.a).val v fin) 0 :=
  gives64_trel hc hg fin ((trelRun_named hr hv he hn fin).trans ((if_neg (Bool.eq_false_iff.mp h)).trans
    (bind_of_ok (waitFor_ok (u := ()) |>.mpr (by rw [hcap, hst, hreg]; rfl)) _))) (dstReady_x hd _)

end

-- tstat.head (R408, R422).

omit hc hg hr in
theorem expire_unexpired {v : Visit} (he : v.expired s = false) (core ctx ring : Nat) : expire s core ctx ring v = s :=
  if_neg (by rw [he]; exact Bool.false_ne_true)

/-- The word of the visit that is at the head once an expired one is reclaimed. (The head visits stand under names of
their own: the kernel cannot compare two matches on them.) -/
theorem tstatHead_visit {v : Visit} {o : Option Visit} (hv : headVisit r = some v)
    (ho : headVisit ((expire s s.myCore s.myCtx (handleOf f.a).val v).ring
      (expire s s.myCore s.myCtx (handleOf f.a).val v).myCore (expire s s.myCore s.myCtx (handleOf f.a).val v).myCtx
      (handleOf f.a).val) = o)
    (hd : dstReady (expire s s.myCore s.myCtx (handleOf f.a).val v) f.d = .ok ()) :
    Gives64 (.tstatHead f) f s (expire s s.myCore s.myCtx (handleOf f.a).val v) (o.elim 0 visitWord) := by
  refine gives64_onCompute hc hg rfl ((bind_of_ok hr _).trans ?_) hd
  cases o with
  | none => simp only [hv, ho, Option.elim_none]
  | some v => simp only [hv, ho, Option.elim_some]

theorem tstatHead_none (hv : headVisit r = none) (hd : dstReady s f.d = .ok ()) : Gives64 (.tstatHead f) f s s 0 := by
  refine gives64_onCompute hc hg rfl ((bind_of_ok hr _).trans ?_) hd
  simp only [hv, ← tourHandle_ring hr]

theorem tstatHead_unexpired {v : Visit} (hv : headVisit r = some v) (he : v.expired s = false)
    (hd : dstReady s f.d = .ok ()) : Gives64 (.tstatHead f) f s s (visitWord v) := by
  have hs := expire_unexpired he s.myCore s.myCtx (handleOf f.a).val
  have h := tstatHead_visit hc hg hr hv (o := some v) (by rw [hs, ← tourHandle_ring hr, hv]) (by rwa [hs])
  rwa [hs] at h

end

-- tstat (R422).

section
variable (hd : dstReady s f.d = .ok ())
include hd

theorem tstat_kept {t : Tour}
    (ht : s.tour? (slice (xval s f.a).toNat 25 16) s.myCtx (slice (xval s f.a).toNat 15 0) = some t) :
    Gives64 (.tstat f) f s s (tourStat t (slice (xval s f.a).toNat 15 0)) := by
  refine gives64_onCompute hc hg rfl ?_ hd
  dsimp only
  rw [ht]

theorem tstat_none (ht : s.tour? (slice (xval s f.a).toNat 25 16) s.myCtx (slice (xval s f.a).toNat 15 0) = none) :
    Gives64 (.tstat f) f s s 0 := by
  refine gives64_onCompute hc hg rfl ?_ hd
  dsimp only
  rw [ht]

end

end

/-- Settles O17: each instruction by its status: what the itinerary's checks, the handle's mode and the head visit of its
ring give. -/
theorem tourInstructionResults : Obligations.TourInstructionResults := by
  intro f s hg hc
  refine ⟨fun u bs hu ha hl => ⟨tour_refused hc hg hu ha hl, fun w st => tour_offered hc hg hu ha hl⟩,
    fun hu hb hd => ⟨tourBind_role hc hg hu hb hd, tourBind_other hc hg hu hb hd,
      fun hm => tourBind_used hc hg hu hb hm hd, fun d hx hm => tourBind_binds hc hg hu hb hm hx⟩,
    fun r hr hd => ⟨fun v hv he => ⟨fun hb hn => ⟨trel_gone hc hg hr hv he hd hb hn false,
        trel_gone hc hg hr hv he hd hb hn true⟩, fun hn d hx => ⟨fun h => ⟨trel_ended hc hg hr hv he hn hx h false,
          trel_ended hc hg hr hv he hn hx h true⟩, fun h hcap hst hreg =>
            ⟨trel_releases hc hg hr hv he hn hx h hcap hst hreg false,
              trel_releases hc hg hr hv he hn hx h hcap hst hreg true⟩⟩, tstatHead_unexpired hc hg hr hv he hd⟩,
      fun v hv he => ⟨trel_expired hc hg hr hv he false, trel_expired hc hg hr hv he true, fun hw => ?_⟩,
      fun hv => tstatHead_none hc hg hr hv hd⟩,
    fun hd => ⟨fun t => tstat_kept hc hg hd, tstat_none hc hg hd⟩⟩
  split
  next v' h => exact tstatHead_visit hc hg hr hv (o := some v') h hw
  next h => exact tstatHead_visit hc hg hr hv (o := none) h hw

end Sys2Proof.Machine

end

section
/-! PROOFS. The pipeline instructions (R423 to R442). -/

namespace Sys2Proof.Machine

open Sys2Proof.Safety

section
variable {f : Fmt} {s : State} (hc : isSup s.cur = false) (hg : guardOn f s = true)
include hc hg

section
variable (hu : unitsReady s = .ok ()) {d : Fin 32} (hd : f.d = .x d)
include hu hd

-- splprep.open (R438).

/-- splprep.open answers the status of the descriptor it has read, and opens the pipeline where that is zero. -/
theorem splprepOpen_answers {u w : State} {b bs : List Byte} (ha : aligned s (xval s f.a) 32 = .ok ())
    (hb : loadWords s (xval s f.a) 32 1 = .ok (u, b))
    (hbs : loadWords u (plus (xval s f.a) 32) 32 (if rf (leNat b) 0 20 16 ≤ 16 then rf (leNat b) 0 20 16 else 0) =
      .ok (w, bs)) :
    let st := openStatus w (leNat (b ++ bs)) (handleOf f.b)
    Gives64 (.splprepOpen f) f s (if st = 0 then openPipe w (leNat (b ++ bs)) (handleOf f.b) else w) st :=
  gives64_onCompute hc hg rfl ((bind_of_ok hu _).trans ((bind_of_ok ha _).trans (keepAnswers_put64 (dstReady_x hd _)
    ((bind_of_ok hb _).trans (bind_of_ok hbs _))))) (dstReady_x hd _)

-- splprep.stage (R439).

theorem splprepStage_reserves {v : V512} {p : Pipe} {i : Nat} (ha : src512 s f.a = .ok v) (hv : stageChecks v.toNat = [])
    (hw : whereBad s s.myCtx [stageOf v.toNat 0] = none)
    (hg2 : (s.ring (stageOf v.toNat 0).core s.myCtx (stageOf v.toNat 0).ring).stage = true)
    (hp : pipeOf s s.myCtx (xval s f.b) = some p) (hr : p.reserved = none)
    (ht : ringTaken s s.myCtx (s.ring (stageOf v.toNat 0).core s.myCtx (stageOf v.toNat 0).ring) = false)
    (hi : (List.range 16).find? (fun i => !p.usedIndex i) = some i) :
    let st := stageOf v.toNat 0
    let key := xval s f.b
    let t := (leftOver s s.myCtx st.core st.ring).modPipe s.myCtx key.toNat (fun p => { p with reserved := some (i, st) })
    Gives64 (.splprepStage f) f s
      (t.setRing st.core s.myCtx st.ring { t.ring st.core s.myCtx st.ring with member := some (key.toNat, i) })
      (BitVec.ofNat 64 (i * 2 ^ 16)) := by
  refine gives64_onCompute hc hg rfl ((bind_of_ok ha _).trans ((bind_of_ok hu _).trans ?_)) (dstReady_x hd _)
  have hl : lowestNat (stageChecks v.toNat) = none := by rw [hv]; rfl
  simp only [hl, hw]
  refine (bind_of_ok (waitFor_ok (u := ()) |>.mpr hg2) _).trans ?_
  simp only [hp, hr, ht, hi, Option.isSome_none, Bool.false_eq_true, if_false]

-- splprep.bind (R424, R439).

/-- The IN and the OUT handle of a stage are bound. -/
def stageBound (f : Fmt) (s : State) : State :=
  let qi := handleOf f.a
  let qo := handleOf f.b
  (s.setRing s.myCore s.myCtx qi.val { s.ring s.myCore s.myCtx qi.val with
    stage := true, outKey := some (linkKey (slotOf s.cur) qo.val) }).modMe (fun m => { m with
      qbind := (m.qbind.set qi (mkQbind true (qbRint s.me.qbind[qi]) 3 qi.val s.myCore)).set qo (mkQbind true false 3 0 0)
      roles := Tab.put (Tab.put m.roles qi.val 1) qo.val 2 })

theorem splprepBind_binds {r : Ring} (hr : r = s.ring s.myCore s.myCtx (handleOf f.a).val)
    (hb : qbBound s.me.qbind[handleOf f.a] = true) (hm : qbMode s.me.qbind[handleOf f.a] = 0) (hdecl : r.decl = true)
    (htour : r.tour = false) (hstage : r.stage = false) (hfill : r.filled = 0) (hpeer : peerBound s s.myCtx r = false)
    (hmem : r.member = none) (hout : qbBound s.me.qbind[handleOf f.b] = false) :
    Gives64 (.splprepBind f) f s (stageBound f s) 0 := by
  subst hr
  refine gives64_onCompute hc hg rfl ((bind_of_ok hu _).trans ((if_neg ?_).trans ((if_neg ?_).trans ?_))) (dstReady_x hd _)
  · rw [hout, hstage, hfill, hpeer]
    simp
  · rw [hb, hm, hdecl, htour]
    decide
  · split
    next h => exact absurd (hmem.symm.trans h) (Option.some_ne_none _).symm
    next => rfl

omit hu

-- splprep.drop (R439).

theorem splprepDrop_drops {p : Pipe} {i : Nat} {st : Stage} (hp : pipeOf s s.myCtx (xval s f.a) = some p)
    (hr : p.reserved = some (i, st)) (hx : p.splice = none) (hi : (xval s f.b).toNat = i) :
    Gives64 (.splprepDrop f) f s ((s.modPipe s.myCtx (xval s f.a).toNat (fun p => { p with reserved := none })).setRing
      st.core s.myCtx st.ring { s.ring st.core s.myCtx st.ring with member := none }) 0 := by
  refine gives64_onCompute hc hg rfl ?_ (dstReady_x hd _)
  simp only [hp, hr, hx, hi, Option.bind_some, Option.map_some, bne_self_eq_false, Bool.or_self, Bool.false_eq_true,
    if_false]

include hu

-- splinj (R429, R441).

theorem splinj_injects {v : V512} {id : Nat} {q : Pipe} {u : State} (ha : src512 s f.a = .ok v)
    (hp : s.myUnit.pipes.find? (fun e => e.2.head == linkKey (slotOf s.cur) (handleOf f.b).val) = some (id, q))
    (hst : injectStatus s s.myCtx (some q) v.toNat = 0) (hrel : release s q.scope = .ok u) :
    Gives64 (.splinj f) f s (inject u (u.myCore * 2 ^ 16 + id) q v.toNat) 0 := by
  refine gives64_onCompute hc hg rfl ((bind_of_ok ha _).trans ((bind_of_ok hu _).trans ?_)) (dstReady_x hd _)
  simp only [hp, hst, Option.map_some, if_true]
  exact bind_of_ok hrel _

end

-- splstat (R442).

section
variable (hd : dstReady s f.d = .ok ())
include hd

theorem splstat_some {p : Pipe} (hp : pipeOf s s.myCtx (xval s f.a) = some p) :
    Gives64 (.splstat f) f s s (pipeWord p) := by
  refine gives64_onCompute hc hg rfl ?_ hd
  simp only [hp]

theorem splstat_none (hp : pipeOf s s.myCtx (xval s f.a) = none) : Gives64 (.splstat f) f s s 0 := by
  refine gives64_onCompute hc hg rfl ?_ hd
  simp only [hp]

end

-- splstat.take and splstat.inh (R432).

section
variable {r : Ring} {d : Fin 32} (hd : f.d = .x d) (hr : inHandle s (handleOf f.a) = .ok r)
include hd hr

theorem splstatTake_rebound {code : W64} (hb : r.rebound = some code) : Gives64 (.splstatTake f) f s
    (acquire (s.setRing s.myCore s.myCtx (handleOf f.a).val { r with rebound := none })) (code ||| 2) := by
  refine gives64_onCompute hc hg rfl ((bind_of_ok (dstReady_x hd s) _).trans ((bind_of_ok hr _).trans ?_)) (dstReady_x hd _)
  simp only [hb]

theorem splstatInh_takes : Gives64 (.splstatInh f) f s
    (s.setRing s.myCore s.myCtx (handleOf f.a).val { r with inherit := none }) (r.inherit.getD 0) :=
  gives64_onCompute hc hg rfl ((bind_of_ok (dstReady_x hd s) _).trans (bind_of_ok hr _)) (dstReady_x hd _)

variable (hb : r.rebound = none)
include hb

theorem splstatTake_inherits (hi : r.inherit.isSome = true) : Gives64 (.splstatTake f) f s (acquire s) 3 := by
  refine gives64_onCompute hc hg rfl ((bind_of_ok (dstReady_x hd s) _).trans ((bind_of_ok hr _).trans ?_)) (dstReady_x hd _)
  simp only [hb, hi, if_true]

variable (hi : r.inherit = none)
include hi

theorem splstatTake_data (hm : frontMarker r = none) (hv : 0 < r.visible) : Gives64 (.splstatTake f) f s s 0 := by
  refine gives64_onCompute hc hg rfl ((bind_of_ok (dstReady_x hd s) _).trans ((bind_of_ok hr _).trans ?_)) (dstReady_x hd _)
  simp only [hb, hi, hm, Option.isSome_none, Bool.false_eq_true, if_false]
  exact if_pos hv

section
variable {m : Marker} {p : Pipe} {x : Splice} (hm : frontMarker r = some m) (ha : awaitsStage s s.myCtx r m = true)
  (hp : s.pipe? s.myCtx m.pipe = some p) (hx : p.splice = some x)
include hm ha hp hx

/-- A marker that awaits its stage is taken. -/
theorem exec_splstatTake_marker : exec (.splstatTake f) s = settle (takeMarker f s (handleOf f.a).val r p x m) := by
  refine (exec_onCompute hc hg rfl).trans (congrArg settle ((bind_of_ok (dstReady_x hd s) _).trans
    ((bind_of_ok hr _).trans ?_)))
  simp only [hb, hi, hm, ha, hp, hx, Option.isSome_none, Bool.false_eq_true, if_false, if_true, Option.bind_some,
    Option.map_some]

theorem splstatTake_rebinds (ho : x.opk ≠ 1) (hmay : mayRebind s r p x m = true) :
    exec (.splstatTake f) s = settle (inRelease (hold (markTaken s (handleOf f.a).val))) :=
  (exec_splstatTake_marker hc hg hd hr hb hi hm ha hp hx).trans (congrArg settle ((if_neg ho).trans (if_pos hmay)))

theorem splstatTake_leaves {u : State} (ho : x.opk = 1) (hrel : release s p.scope = .ok u) :
    Gives64 (.splstatTake f) f s (acquire (leavePipe u (handleOf f.a).val r p x m)) 1 :=
  gives64_of_put ((exec_splstatTake_marker hc hg hd hr hb hi hm ha hp hx).trans
    (congrArg settle ((if_pos ho).trans (bind_of_ok hrel _)))) (dstReady_x hd _)

end

end

end

/-- Settles O18: each instruction once the records, the handles, the ring and the front marker that it asks for are
known. -/
theorem pipelineInstructionResults : Obligations.PipelineInstructionResults := by
  intro f s hg hc hu
  refine ⟨fun u b w bs d hd ha hb hbs => ?_,
    fun v p i d hd ha hv hw hg2 hp hr => splprepStage_reserves hc hg hu hd ha hv hw hg2 hp hr,
    fun d hd hb hm hdecl htour hstage hfill hpeer hmem hout =>
      splprepBind_binds hc hg hu hd rfl hb hm hdecl htour hstage hfill hpeer hmem hout,
    fun p i st d hd => splprepDrop_drops hc hg hd, fun v id q u d hd => splinj_injects hc hg hu hd,
    fun hd => ⟨fun p => splstat_some hc hg hd, splstat_none hc hg hd⟩,
    fun r d hd hr => ⟨fun code => splstatTake_rebound hc hg hd hr, splstatTake_inherits hc hg hd hr,
      splstatTake_data hc hg hd hr, fun m p x hb hi hm ha hp hx => splstatTake_rebinds hc hg hd hr hb hi hm ha hp hx,
      fun m p x u hb hi hm ha hp hx => splstatTake_leaves hc hg hd hr hb hi hm ha hp hx,
      splstatInh_takes hc hg hd hr⟩⟩
  have hopen := splprepOpen_answers hc hg hu hd ha hb hbs
  dsimp only at hopen
  refine ⟨fun h0 => ?_, fun h0 => ?_⟩
  · rwa [h0, if_pos rfl] at hopen
  · rwa [if_neg h0] at hopen

end Sys2Proof.Machine

end

section
/-! PROOFS. The table and stream instructions, and the table units (R446 to R452, R457, R458). -/

namespace Sys2Proof.Machine

open Sys2Proof.Safety

-- Instructions (R447, R457).

section
variable {f : Fmt} {s t : State} {b : W64} {vals : List W64} (hg : guardOn f s = true) (hb : src64 s f.b f.imm = .ok b)
include hg hb

/-- An instruction over one table or record answers the first value of its operation. -/
theorem gives64_tableInstr {i : Instr} {op : W64 → TabOp} (hx : exec i s = tableInstr f s op)
    (hd : dstReady s f.d = .ok ()) (ht : dstReady t f.d = .ok ()) (ha : tableAct s (xval s f.a) (op b) = .ok (t, vals)) :
    Gives64 i f s t (vals.headD 0) := by
  refine gives64_of_put (hx.trans ?_) ht
  refine (scalarRun_on hg _).trans (congrArg settle ?_)
  exact (bind_of_ok hb _).trans ((bind_of_ok hd _).trans (bind_of_ok ha _))

/-- stframe answers its two values in a register and the next one. -/
theorem stframe_ends {d : Fin 32} (hd : f.d = .x d) (ha : tableAct s (xval s f.a) (.frame b.toNat) = .ok (t, vals)) :
    Ends (.stframe f) s (passed (((used f t).modMe (fun h => h.wx d ((vals[0]?).getD 0))).modMe
      (fun h => h.wx (Fin.ofNat 32 (d.val + 1)) ((vals[1]?).getD 0)))) := by
  refine ((scalarRun_on hg _).trans (congrArg settle ((bind_of_ok hb _).trans ((bind_of_ok ha _).trans ?_)))).trans
    (settle_ok _)
  simp only [hd, nextReg, dst64, bind, Except.bind]
  rfl

end

-- An operation of the current hart (R446, R460).

section
variable {s t : State} {va : W64} {op : TabOp} {p : Place} (hnone : s.runsOf (.hart s.cur) s.myCtx = [])
  (hat : ∃ q, tableAt s s.iAm va = .ok q) (hrel : release s 4 = .ok t) (ht : t.runsOf (.hart s.cur) s.myCtx = [])
  (hctx : t.myCtx = s.myCtx) (hp : tableAt t t.iAm va = .ok p)
include hnone hat hrel ht hctx hp

/-- An instruction without an operation under way performs its release and asks the unit of its table. -/
theorem tableAct_waits {u : State} (hop : tableOp t (engineWho s s.myCore) (.hart s.cur) p va op = .waits u) :
    tableAct s va op = if (u.runsOf (.hart s.cur) u.myCtx).isEmpty then hold (u.modMe (fun h => { h with inRel := false }))
      else hold u := by
  obtain ⟨q, hq⟩ := hat
  unfold tableAct
  simp only [hnone, List.isEmpty_nil, if_true, hq, hrel, bind, Except.bind, ht, hctx, hp, hop]

theorem tableAct_busy (hu : (t.unitRun (unitOfPlace t p)).isSome = true) :
    tableAct s va op = .error (.wait (t.modMe (fun h => { h with inRel := false }))) := by
  have hop : tableOp t (engineWho s s.myCore) (.hart s.cur) p va op = .waits t := by
    unfold tableOp
    rw [show t.runsOf (.hart s.cur) (engineWho s s.myCore).ctx = [] from ht]
    exact if_pos hu
  refine (tableAct_waits hnone hat hrel ht hctx hp hop).trans (if_pos ?_)
  rw [hctx, ht]
  rfl

/-- The operation of the current hart as the unit of its table takes it. -/
def hartRun (s t : State) (va : W64) (op : TabOp) (p : Place) : TableRun :=
  { unit := some (unitOfPlace t p), agent := some (.hart s.cur), core := s.myCore, ctx := s.myCtx, va := va, op := op }

theorem tableAct_sent (hu : t.unitRun (unitOfPlace t p) = none) : tableAct s va op =
    .error (.wait { t with tableOps := t.tableOps ++ [hartRun s t va op p] }) := by
  have hop : tableOp t (engineWho s s.myCore) (.hart s.cur) p va op =
      .waits { t with tableOps := t.tableOps ++ [hartRun s t va op p] } := by
    unfold tableOp
    rw [show t.runsOf (.hart s.cur) (engineWho s s.myCore).ctx = [] from ht]
    exact if_neg (by simp [hu])
  refine (tableAct_waits hnone hat hrel ht hctx hp hop).trans (if_neg ?_)
  change ¬ ((t.tableOps ++ [hartRun s t va op p]).filter (fun r => r.agent == some (.hart s.cur) && r.ctx == t.myCtx)).isEmpty
  rw [List.filter_append, hctx]
  simp [hartRun]

end

section
variable {s : State} {va : W64} {op : TabOp} {r : TableRun} {rs : List TableRun}
  (hruns : s.runsOf (.hart s.cur) s.myCtx = r :: rs)
include hruns

theorem tableOp_waits (hq : ∃ q ∈ r :: rs, q.unit ≠ none) :
    tableOp s (engineWho s s.myCore) (.hart s.cur) (.port 0) va op = .waits s := by
  obtain ⟨q, hmem, hq⟩ := hq
  unfold tableOp
  rw [show s.runsOf (.hart s.cur) (engineWho s s.myCore).ctx = r :: rs from hruns]
  refine if_neg fun h => hq ?_
  exact Option.isNone_iff_eq_none.mp (List.all_eq_true.mp h q hmem)

theorem tableOp_done (hq : ∀ q ∈ r :: rs, q.unit = none) :
    tableOp s (engineWho s s.myCore) (.hart s.cur) (.port 0) va op =
      .done (s.forsakeRuns (.hart s.cur) s.myCtx) r.vals ((r :: rs).filterMap (·.fault)).head? := by
  unfold tableOp
  rw [show s.runsOf (.hart s.cur) (engineWho s s.myCore).ctx = r :: rs from hruns]
  exact if_pos (List.all_eq_true.mpr fun q hmem => Option.isNone_iff_eq_none.mpr (hq q hmem))

theorem tableAct_under_way (hq : ∃ q ∈ r :: rs, q.unit ≠ none) : tableAct s va op = .error (.wait s) := by
  have hop := tableOp_waits (va := va) (op := op) hruns hq
  unfold tableAct
  simp only [hruns, List.isEmpty_cons, Bool.false_eq_true, if_false, bind, Except.bind, hop]
  rfl

theorem tableAct_results (hq : ∀ q ∈ r :: rs, q.unit = none ∧ q.fault = none) :
    tableAct s va op = .ok (acquire (s.forsakeRuns (.hart s.cur) s.myCtx), r.vals) := by
  have hop := tableOp_done (va := va) (op := op) hruns fun q hmem => (hq q hmem).1
  have hf : (r :: rs).filterMap (·.fault) = [] := List.filterMap_eq_nil_iff.mpr fun q hmem => (hq q hmem).2
  rw [hf, List.head?_nil] at hop
  unfold tableAct
  simp only [hruns, List.isEmpty_cons, Bool.false_eq_true, if_false, bind, Except.bind, hop]

theorem tableAct_fault {g : TrapInfo} (hq : ∀ q ∈ r :: rs, q.unit = none)
    (hg : ((r :: rs).filterMap (·.fault)).head? = some g) :
    tableAct s va op = .error (.fault (s.forsakeRuns (.hart s.cur) s.myCtx) g) := by
  have hop := tableOp_done (va := va) (op := op) hruns hq
  rw [hg] at hop
  unfold tableAct
  simp only [hruns, List.isEmpty_cons, Bool.false_eq_true, if_false, bind, Except.bind, hop]
  rfl

end

-- The units (R446).

section
variable {s : State} {device port : Nat}

theorem tableOperation_none (h : s.unitRun (unitNumber device port) = none) :
    execTableOperation device port s = .next s := by
  simp only [execTableOperation, h]

section
variable {r : TableRun} (h : s.unitRun (unitNumber device port) = some r) (hu : unitNumber device port < 2 ^ 20)
include h hu

theorem tableOperation_decides (hd : r.decided = false) :
    execTableOperation device port s = .next (decideRun s (unitNumber device port) r) := by
  simp only [execTableOperation, h]
  exact (if_neg (Nat.not_le.mpr hu)).trans (if_pos (by rw [hd]; rfl))

section
variable (hd : r.decided = true) {t : State} {q : TableRun}
  (ha : runActs s (unitNumber device port) r (2 * r.acts.length + 1) = (t, q))
include hd ha

/-- A unit whose operation is decided performs its effects. -/
theorem tableOperation_performs : execTableOperation device port s =
    if q.acts.isEmpty && !unitWrites t (unitNumber device port) then .next (endRun t (unitNumber device port) q)
    else .next (t.setUnitRun (unitNumber device port) q) := by
  simp only [execTableOperation, h]
  refine (if_neg (Nat.not_le.mpr hu)).trans ((if_neg (by rw [hd]; decide)).trans ?_)
  rw [ha]

theorem tableOperation_goes_on (hq : q.acts ≠ [] ∨ unitWrites t (unitNumber device port) = true) :
    execTableOperation device port s = .next (t.setUnitRun (unitNumber device port) q) := by
  refine (tableOperation_performs h hu hd ha).trans (if_neg ?_)
  rw [Bool.and_eq_true, List.isEmpty_iff, Bool.not_eq_true']
  rintro ⟨hempty, hwrites⟩
  exact hq.elim (fun hne => hne hempty) (fun hw => Bool.false_ne_true (hwrites.symm.trans hw))

theorem tableOperation_ends (hq : q.acts = []) (hw : unitWrites t (unitNumber device port) = false) :
    execTableOperation device port s = .next (endRun t (unitNumber device port) q) :=
  (tableOperation_performs h hu hd ha).trans (if_pos (by rw [hq, hw]; rfl))

end

theorem tableOperation_decided {vals : List W64} {t : TabSt} (hd : r.decided = false)
    (hv : r.op.decide r.va r.ctx { s := s, run := r, w := r.who, ag := .table (unitNumber device port) } = .ok (vals, t))
    (hl : t.late = none) (hs : t.sub = none) : execTableOperation device port s =
      .next (t.s.setUnitRun (unitNumber device port) { t.run with decided := true, vals := vals }) := by
  refine (tableOperation_decides h hu hd).trans (congrArg Host.Outcome.next ?_)
  simp only [decideRun, hv, hl, hs]

end

end

/-- Settles O28: an instruction by what its operation has come to, and a unit by the step its operation stands at. -/
theorem tableInstructionResults : Obligations.TableInstructionResults := by
  refine ⟨fun f s t b vals hg hb hd ht => ?_,
    fun s t va op p hnone hat hrel ht hctx hp => ⟨tableAct_busy hnone hat hrel ht hctx hp,
      tableAct_sent hnone hat hrel ht hctx hp⟩,
    fun s va op r rs hruns => ⟨tableAct_under_way hruns, tableAct_results hruns, fun g => tableAct_fault hruns⟩,
    fun s device port => ⟨tableOperation_none, fun r h hu => ⟨tableOperation_decides h hu, fun hd t q ha =>
      ⟨tableOperation_goes_on h hu hd ha, tableOperation_ends h hu hd ha⟩⟩,
      fun r vals t h hu => tableOperation_decided h hu⟩⟩
  have hone {i : Instr} (op : W64 → TabOp) (hx : exec i s = tableInstr f s op) :
      tableAct s (xval s f.a) (op b) = .ok (t, vals) → Gives64 i f s t (vals.headD 0) :=
    gives64_tableInstr hg hb hx hd ht
  exact ⟨hone (fun b => .map b.toNat 0) rfl, hone (fun b => .map b.toNat 1) rfl, hone (fun b => .map b.toNat 2) rfl,
    hone (fun b => .swap b.toNat 0) rfl, hone (fun b => .swap b.toNat 1) rfl, hone (fun b => .swap b.toNat 2) rfl,
    hone (fun b => .trunc b.toNat) rfl, hone (fun b => .win b.toNat) rfl, hone .gen rfl, hone .play rfl,
    fun d hx => stframe_ends hg hb hx⟩

end Sys2Proof.Machine

end

section
/-! PROOFS. Operations over a table header: map, window, swap and truncation (R448, R450 to R452). -/

namespace Sys2Proof.Machine

open Sys2Proof.Safety

-- The decisions' monad.

/-- What is decided first goes on with what it has decided. -/
theorem TabM.bind_of_ok {α β : Type} {x : TabM α} {st st1 : TabSt} {a : α} (hx : x st = .ok (a, st1)) (g : α → TabM β) :
    TabM.bind x g st = g a st1 := by
  rw [TabM.bind, hx]

theorem TabM.bind_ok {α β : Type} {x : TabM α} {g : α → TabM β} {st st2 : TabSt} {b : β} :
    TabM.bind x g st = .ok (b, st2) ↔ ∃ a st1, x st = .ok (a, st1) ∧ g a st1 = .ok (b, st2) := by
  unfold TabM.bind
  split
  next a st1 h => simp [h]
  next e h => simp [h]

theorem TabM.pure_ok {α : Type} {a b : α} {st st1 : TabSt} : TabM.pure a st = .ok (b, st1) ↔ a = b ∧ st = st1 := by
  simp [TabM.pure]

-- kvmap (R448).

/-- The rank of a position among the survivors of its entry. -/
def slotRank (e : Entry) (p : Nat) : Nat := rankOf e.surv (p % 64)

/-- The page of a position's slot. -/
def slotPage (e : Entry) (p : Nat) : Nat := (e.pages[slotRank e p / 16]?).getD 0

/-- The address of a position's slot in a page. -/
def slotAddr (h : Header) (e : Entry) (p pg : Nat) : W64 := plus (h.page pg) (256 * (slotRank e p % 16))

/-- A shared page is copied to a page that the free ring gives, which takes its place. -/
def copyOnWrite (h : Header) (e : Entry) (p f : Nat) : TabM W64 :=
  if f = 0 || f > h.npage then TabM.pure 2
  else TabM.bind (rdTab (h.ref f) 4) fun n =>
    if n != 0 then TabM.pure 2
    else orReturn (copyPage (h.page (slotPage e p)) (h.page f) (List.range 64)) h f
      (TabM.bind (wrNat (h.ref f) 4 1) fun _ =>
        TabM.bind (wrNat (plus (h.entry (p / 64)) (4 * (slotRank e p / 16))) 4 f) fun _ =>
          TabM.bind (releasePage h (slotPage e p)) fun _ => TabM.pure (slotAddr h e p f))

section
variable {h : Header} {st : TabSt} {p var : Nat}

theorem kvMap_outside (hp : h.nblk * 64 ≤ p ∨ p < h.edge) : kvMap h p var st = .ok (0, st) :=
  congrFun (if_pos (by simpa using hp)) st

section
variable {e : Entry} {st1 : TabSt} (hin : p < h.nblk * 64) (hedge : h.edge ≤ p)
  (he : rdEntry (h.entry (p / 64)) st = .ok (e, st1))
include hin hedge he

/-- What a mapping in the table does with the entry it has read. -/
theorem kvMap_entry : kvMap h p var st =
    (if !e.valid || (var = 0 && !bitOf e.surv (p % 64)) || slotPage e p = 0 || slotPage e p > h.npage then TabM.pure 0
     else if var != 2 then TabM.pure (slotAddr h e p (slotPage e p))
     else TabM.bind (rdTab (h.ref (slotPage e p)) 4) fun c =>
       if c ≤ 1 then TabM.pure (slotAddr h e p (slotPage e p))
       else if h.dw 8 = h.dw 9 then TabM.pure 1
       else TabM.bind (rdTab (plus (h.dw 7) (4 * ((h.dw 9).toNat % 2 ^ h.flog))) 4) fun f =>
         TabM.bind (wrNat (plus h.t 72) 8 ((h.dw 9).toNat + 1)) fun _ => copyOnWrite h e p f) st1 :=
  (congrFun (if_neg (by simp [hin, hedge])) st).trans (TabM.bind_of_ok he _)

theorem kvMap_invalid (hv : e.valid = false) : kvMap h p var st = .ok (0, st1) :=
  (kvMap_entry hin hedge he).trans (congrFun (if_pos (by rw [hv]; rfl)) st1)

theorem kvMap_evicted (hs : bitOf e.surv (p % 64) = false) : kvMap h p 0 st = .ok (0, st1) :=
  (kvMap_entry hin hedge he).trans (congrFun (if_pos (by simp [hs])) st1)

variable (hv : e.valid = true) (h0 : slotPage e p ≠ 0) (hn : slotPage e p ≤ h.npage)
include hv h0 hn

/-- A position whose entry maps it, for a mapping that may use it. -/
theorem kvMap_mapped (hs : var = 0 → bitOf e.surv (p % 64) = true) (h2 : var ≠ 2) :
    kvMap h p var st = .ok (slotAddr h e p (slotPage e p), st1) := by
  refine (kvMap_entry hin hedge he).trans ((congrFun (if_neg ?_) st1).trans (congrFun (if_pos (bne_iff_ne.mpr h2)) st1))
  simp only [hv, h0, Bool.not_true, Bool.false_or, Bool.or_eq_true, Bool.and_eq_true, Bool.not_eq_true', decide_eq_true_eq,
    or_false, Nat.not_lt.mpr hn, not_and]
  exact fun hz => by simp [hs hz]

section
variable {c : Nat} {st2 : TabSt} (hc : rdTab (h.ref (slotPage e p)) 4 st1 = .ok (c, st2))
include hc

/-- What a mapping for writing does once it knows how often its page is referenced. -/
theorem kvMap_write : kvMap h p 2 st =
    (if c ≤ 1 then TabM.pure (slotAddr h e p (slotPage e p))
     else if h.dw 8 = h.dw 9 then TabM.pure 1
     else TabM.bind (rdTab (plus (h.dw 7) (4 * ((h.dw 9).toNat % 2 ^ h.flog))) 4) fun f =>
       TabM.bind (wrNat (plus h.t 72) 8 ((h.dw 9).toNat + 1)) fun _ => copyOnWrite h e p f) st2 := by
  refine (kvMap_entry hin hedge he).trans ((congrFun (if_neg ?_) st1).trans ((congrFun (if_neg (by decide)) st1).trans
    (TabM.bind_of_ok hc _)))
  simp [hv, h0, hn]

theorem kvMap_unshared (h1 : c ≤ 1) : kvMap h p 2 st = .ok (slotAddr h e p (slotPage e p), st2) :=
  (kvMap_write hin hedge he hv h0 hn hc).trans (congrFun (if_pos h1) st2)

variable (h1 : 1 < c)
include h1

theorem kvMap_no_free (hf : h.dw 8 = h.dw 9) : kvMap h p 2 st = .ok (1, st2) :=
  (kvMap_write hin hedge he hv h0 hn hc).trans
    ((congrFun (if_neg (Nat.not_le.mpr h1)) st2).trans (congrFun (if_pos hf) st2))

variable (hring : h.dw 8 ≠ h.dw 9) {f : Nat} {st3 st4 : TabSt}
  (hf : rdTab (plus (h.dw 7) (4 * ((h.dw 9).toNat % 2 ^ h.flog))) 4 st2 = .ok (f, st3))
  (hw : wrNat (plus h.t 72) 8 ((h.dw 9).toNat + 1) st3 = .ok ((), st4))
include hring hf hw

theorem kvMap_copies : kvMap h p 2 st = copyOnWrite h e p f st4 :=
  (kvMap_write hin hedge he hv h0 hn hc).trans ((congrFun (if_neg (Nat.not_le.mpr h1)) st2).trans
    ((congrFun (if_neg hring) st2).trans ((TabM.bind_of_ok hf _).trans (TabM.bind_of_ok hw _))))

end

end

section
variable {e : Entry} {f : Nat}

theorem copyOnWrite_no_page (hf : f = 0 ∨ h.npage < f) : copyOnWrite h e p f st = .ok (2, st) :=
  congrFun (if_pos (by simpa using hf)) st

variable {n : Nat} {st1 : TabSt} (h0 : f ≠ 0) (hle : f ≤ h.npage) (hn : rdTab (h.ref f) 4 st = .ok (n, st1))
include h0 hle hn

theorem copyOnWrite_used (hz : n ≠ 0) : copyOnWrite h e p f st = .ok (2, st1) :=
  (congrFun (if_neg (by simp [h0, hle])) st).trans ((TabM.bind_of_ok hn _).trans (congrFun (if_pos (bne_iff_ne.mpr hz)) st1))

theorem copyOnWrite_copies {st2 st3 st4 st5 : TabSt} (hz : n = 0)
    (hcopy : copyPage (h.page (slotPage e p)) (h.page f) (List.range 64) st1 = .ok ((), st2))
    (href : wrNat (h.ref f) 4 1 st2 = .ok ((), st3))
    (hentry : wrNat (plus (h.entry (p / 64)) (4 * (slotRank e p / 16))) 4 f st3 = .ok ((), st4))
    (hrel : releasePage h (slotPage e p) st4 = .ok ((), st5)) :
    copyOnWrite h e p f st = .ok (slotAddr h e p f, st5) := by
  refine (congrFun (if_neg (by simp [h0, hle])) st).trans ((TabM.bind_of_ok hn _).trans
    ((congrFun (if_neg (by simp [hz])) st1).trans ?_))
  rw [orReturn, hcopy]
  exact (TabM.bind_of_ok href _).trans ((TabM.bind_of_ok hentry _).trans (TabM.bind_of_ok hrel _))

end

end

-- Freed entries (R444, R450).

/-- Each element counts what `g` says of it. -/
theorem forTab_counts {g : Nat → TabM Nat} {k : Nat → Bool}
    (hg : ∀ j st a st1, g j st = .ok (a, st1) → a = (k j).toNat) {l : List Nat} {st st1 : TabSt} {n : Nat}
    (h : forTab g l st = .ok (n, st1)) : n = (l.filter k).length := by
  induction l generalizing st st1 n with
  | nil => exact (TabM.pure_ok.mp h).1.symm
  | cons j js ih =>
    obtain ⟨a, st2, ha, h⟩ := TabM.bind_ok.mp h
    obtain ⟨b, st3, hb, h⟩ := TabM.bind_ok.mp h
    obtain ⟨rfl, -⟩ := TabM.pure_ok.mp h
    rw [hg j st a st2 ha, ih hb, List.filter_cons]
    cases k j with
    | false => simp
    | true => simp [Nat.add_comm]

section
variable {h : Header} {va : W64} {e : Entry} {st st1 : TabSt}

theorem releaseEntry_counts (hv : e.valid = true) {n : Nat} (hr : releaseEntry h e st = .ok (n, st1)) :
    n = (e.pages.filter (fun q => q != 0)).length := by
  rw [releaseEntry, if_pos hv] at hr
  refine forTab_counts (fun j st a st1 hj => ?_) hr
  by_cases h0 : j = 0
  · rw [if_pos h0] at hj
    simp [h0, ← (TabM.pure_ok.mp hj).1]
  · rw [if_neg h0] at hj
    obtain ⟨_, _, -, hj⟩ := TabM.bind_ok.mp hj
    rw [← (TabM.pure_ok.mp hj).1, bne_iff_ne.mpr h0]
    rfl

variable (he : rdEntry va st = .ok (e, st1))
include he

theorem freeEntry_invalid (hv : e.valid = false) : freeEntry h va st = .ok (0, st1) :=
  (TabM.bind_of_ok he _).trans (congrFun (if_neg (by simp [hv])) st1)

theorem freeEntry_frees {n : Nat} {st2 st3 : TabSt} (hv : e.valid = true) (hr : releaseEntry h e st1 = .ok (n, st2))
    (hw : wrNat va 32 0 st2 = .ok ((), st3)) : freeEntry h va st = .ok (n, st3) :=
  (TabM.bind_of_ok he _).trans ((congrFun (if_pos hv) st1).trans ((TabM.bind_of_ok hr _).trans (TabM.bind_of_ok hw _)))

end

-- kvwin, kvswap, kvtrunc (R450 to R452).

section
variable {h : Header} {p : Nat} {st st1 : TabSt}

/-- The edge is written where it rises. -/
theorem kvWin_edge (hw : (h.edge < p ∧ wrNat (plus h.t 16) 8 p st = .ok ((), st1)) ∨ (p ≤ h.edge ∧ st1 = st)) :
    (if p > h.edge then wrNat (plus h.t 16) 8 p else TabM.pure ()) st = .ok ((), st1) := by
  rcases hw with ⟨hlt, hw⟩ | ⟨hle, rfl⟩
  · exact (congrFun (if_pos hlt) st).trans hw
  · exact congrFun (if_neg (Nat.not_lt.mpr hle)) _

theorem kvSwap_none {var : Nat} (hs : h.dw 4 = 0 ∨ h.nblk ≤ p) : kvSwap h p var st = .ok (1, st) :=
  congrFun (if_pos (by simpa using hs)) st

section
variable (h4 : h.dw 4 ≠ 0) (hp : p < h.nblk)
include h4 hp

/-- A fork, an accept or a reject of an entry that has a shadow. -/
theorem kvSwap_shadow {var : Nat} : kvSwap h p var st =
    (match var with
     | 0 => TabM.bind (discard h (h.shadow p)) fun _ => TabM.bind (rdTab (h.entry p) 32) fun r =>
        TabM.bind (wrNat (h.shadow p) 32 r) fun _ =>
        TabM.bind (if (entryOf r).valid then addRefs h (entryOf r) else TabM.pure 0) fun _ => TabM.pure 0
     | 1 => TabM.bind (rdTab (h.shadow p) 32) fun x =>
        if !(entryOf x).valid then TabM.pure 2
        else TabM.bind (rdTab (h.entry p) 32) fun y => TabM.bind (wrNat (h.entry p) 32 x) fun _ =>
          TabM.bind (wrNat (h.shadow p) 32 y) fun _ => TabM.bind (discard h (h.shadow p)) fun _ => TabM.pure 0
     | _ => TabM.bind (rdEntry (h.shadow p)) fun x =>
        if !x.valid then TabM.pure 2 else TabM.bind (discard h (h.shadow p)) fun _ => TabM.pure 0 : TabM W64) st := by
  refine (congrFun (if_neg ?_) st).trans rfl
  rw [Bool.or_eq_true, decide_eq_true_eq, decide_eq_true_eq]
  exact fun hor => hor.elim h4 (Nat.not_le.mpr hp)

theorem kvSwap_forks {n r m : Nat} {st2 st3 st4 : TabSt} (hd : discard h (h.shadow p) st = .ok (n, st1))
    (hr : rdTab (h.entry p) 32 st1 = .ok (r, st2)) (hw : wrNat (h.shadow p) 32 r st2 = .ok ((), st3))
    (ha : (if (entryOf r).valid then addRefs h (entryOf r) else TabM.pure 0) st3 = .ok (m, st4)) :
    kvSwap h p 0 st = .ok (0, st4) :=
  (kvSwap_shadow h4 hp).trans ((TabM.bind_of_ok hd _).trans ((TabM.bind_of_ok hr _).trans ((TabM.bind_of_ok hw _).trans
    (TabM.bind_of_ok ha _))))

section
variable {x : Nat} (hx : rdTab (h.shadow p) 32 st = .ok (x, st1))
include hx

omit h4 hp in
theorem rdEntry_of_rdTab : rdEntry (h.shadow p) st = .ok (entryOf x, st1) := TabM.bind_of_ok hx _

theorem kvSwap_no_shadow (hv : (entryOf x).valid = false) :
    kvSwap h p 1 st = .ok (2, st1) ∧ kvSwap h p 2 st = .ok (2, st1) :=
  ⟨(kvSwap_shadow h4 hp).trans ((TabM.bind_of_ok hx _).trans (congrFun (if_pos (by simp [hv])) st1)),
    (kvSwap_shadow h4 hp).trans ((TabM.bind_of_ok (rdEntry_of_rdTab hx) _).trans (congrFun (if_pos (by simp [hv])) st1))⟩

variable (hv : (entryOf x).valid = true)
include hv

theorem kvSwap_accepts {y n : Nat} {st2 st3 st4 st5 : TabSt} (hy : rdTab (h.entry p) 32 st1 = .ok (y, st2))
    (hw : wrNat (h.entry p) 32 x st2 = .ok ((), st3)) (hs : wrNat (h.shadow p) 32 y st3 = .ok ((), st4))
    (hd : discard h (h.shadow p) st4 = .ok (n, st5)) : kvSwap h p 1 st = .ok (0, st5) :=
  (kvSwap_shadow h4 hp).trans ((TabM.bind_of_ok hx _).trans ((congrFun (if_neg (by simp [hv])) st1).trans
    ((TabM.bind_of_ok hy _).trans ((TabM.bind_of_ok hw _).trans ((TabM.bind_of_ok hs _).trans (TabM.bind_of_ok hd _))))))

theorem kvSwap_rejects {n : Nat} {st2 : TabSt} (hd : discard h (h.shadow p) st1 = .ok (n, st2)) :
    kvSwap h p 2 st = .ok (0, st2) :=
  (kvSwap_shadow h4 hp).trans ((TabM.bind_of_ok (rdEntry_of_rdTab hx) _).trans
    ((congrFun (if_neg (by simp [hv])) st1).trans (TabM.bind_of_ok hd _)))

end

end

end

/-- Settles O29: each operation by what it reads, step after step. -/
theorem tableOperationValues : Obligations.TableOperationValues := by
  intro h st p var
  refine ⟨kvMap_outside, fun e st1 hin hedge he => ⟨kvMap_invalid hin hedge he, fun hv h0 hn =>
      ⟨fun hs => kvMap_mapped hin hedge he hv h0 hn (fun _ => hs) (by decide), kvMap_evicted hin hedge he,
        kvMap_mapped hin hedge he hv h0 hn (fun h => absurd h (by decide)) (by decide)⟩⟩,
    kvSwap_none, fun x st1 h4 hp hx => kvSwap_no_shadow h4 hp hx, fun e st1 c st2 hin hedge he hv h0 hn hc =>
      ⟨kvMap_unshared hin hedge he hv h0 hn hc, kvMap_no_free hin hedge he hv h0 hn hc,
        fun f st3 st4 h1 hring hf hw => ?_⟩,
    fun st1 n st2 hw hfor => (TabM.bind_of_ok (kvWin_edge hw) _).trans (TabM.bind_of_ok hfor _),
    fun va e st1 he => ⟨freeEntry_invalid he, fun n st2 st3 hv hr hw =>
      ⟨freeEntry_frees he hv hr hw, releaseEntry_counts hv hr⟩⟩,
    fun h4 hp => ⟨fun n st1 r st2 st3 hd hr hw => ⟨fun hv => ?_, fun m st4 hv ha => ?_⟩, fun x st1 hx hv =>
      ⟨fun y st2 st3 st4 n st5 => kvSwap_accepts h4 hp hx hv, fun n st2 => kvSwap_rejects h4 hp hx hv⟩⟩,
    fun n st1 hfor => TabM.bind_of_ok hfor _⟩
  · have hcow := kvMap_copies hin hedge he hv h0 hn hc h1 hring hf hw
    exact ⟨fun hbad => hcow.trans (copyOnWrite_no_page hbad), fun n st5 hf0 hle hn =>
      ⟨fun hz => hcow.trans (copyOnWrite_used hf0 hle hn hz), fun st6 st7 st8 st9 hz hcopy href hentry hrel =>
        hcow.trans (copyOnWrite_copies hf0 hle hn hz hcopy href hentry hrel)⟩⟩
  · exact kvSwap_forks h4 hp hd hr hw (m := 0) (congrFun (if_neg (by simp [hv])) st3)
  · exact kvSwap_forks h4 hp hd hr hw ((congrFun (if_pos hv) st3).trans ha)

end Sys2Proof.Machine

end

section
/-! PROOFS. Context slots and boot (R475, R501 to R505, R510): what a teardown leaves of a context, what boot sets, and the
start of the supervisor harts. -/

namespace Sys2Proof

/-- A key of no entry reads as the default. -/
theorem Tab.get_of_not_mem {α : Type} (d : α) {t : Tab α} {k : Nat} (h : k ∉ t.map Prod.fst) : Tab.get d t k = d := by
  have hfilter : t.filter (fun e => e.1 != k) = t :=
    List.filter_eq_self.mpr fun e he => bne_iff_ne.mpr fun hk => h (hk ▸ List.mem_map_of_mem he)
  rw [← hfilter]
  exact Tab.get_filter_refused d t fun _ => by simp

/-- A table of the values of a function reads as the function. -/
theorem Tab.get_map_keys {α : Type} (d : α) (g : Nat → α) {l : List Nat} {k : Nat} (h : k ∈ l) :
    Tab.get d (l.map (fun j => (j, g j))) k = g k := by
  induction l with
  | nil => cases h
  | cons j l ih =>
    by_cases hj : j = k
    · exact (if_pos hj).trans (congrArg g hj)
    · exact (if_neg hj).trans (ih ((List.mem_cons.mp h).resolve_left (Ne.symm hj)))

namespace Machine

open Sys2Proof.Safety

-- Cores given up (R502).

section
variable (s : State) (ctx : Nat)

theorem granted_ungrant (c d : Nat) : granted (ungrant s ctx c) d ctx = (granted s d ctx && d != c) := by
  unfold ungrant
  extract_lets k
  split
  next hg =>
    by_cases hd : d = c
    · subst hd
      rw [granted, core_setCore_same]
      by_cases ha : k.active = some ctx <;> by_cases hs : k.shadow = some ctx <;> simp [ha, hs]
    · have hcore : ((clearBank s c ctx).setCore c { k with
          active := if k.active == some ctx then none else k.active
          shadow := if k.shadow == some ctx then none else k.shadow
          swapTo := if k.swapTo == some ctx then none else k.swapTo }).core d = s.core d := Tab.get_put_other _ _ _ _ _ hd
      rw [granted, hcore, bne_iff_ne.mpr hd, Bool.and_true, granted]
  next hg =>
    by_cases hd : d = c
    · rw [hd, Bool.eq_false_iff.mpr hg, Bool.false_and]
    · rw [bne_iff_ne.mpr hd, Bool.and_true]

/-- What the clearing of a core's bank does not change, giving up the core leaves as it was. -/
theorem ungrant_leaves {β : Type} (g : State → β)
    (hg : ∀ (s : State) spad units harts cores,
      g { s with spad := spad, units := units, harts := harts, cores := cores } = g s)
    (c : Nat) : g (ungrant s ctx c) = g s := by
  unfold ungrant
  extract_lets k
  split
  · exact hg s _ _ _ _
  · rfl

/-- The context's cores are all given up. -/
def ungrantAll : State := (s.cores.map (·.1)).foldl (fun s c => ungrant s ctx c) s

theorem granted_foldl_ungrant (l : List Nat) (s : State) (d : Nat) :
    granted (l.foldl (fun s c => ungrant s ctx c) s) d ctx = (granted s d ctx && !l.contains d) := by
  induction l generalizing s with
  | nil => simp
  | cons c l ih => rw [List.foldl_cons, ih, granted_ungrant, List.contains_cons, Bool.not_or, Bool.and_assoc]; rfl

theorem granted_ungrantAll (d : Nat) : granted (ungrantAll s ctx) d ctx = false := by
  refine (granted_foldl_ungrant ctx _ s d).trans ?_
  by_cases hd : d ∈ s.cores.map (·.1)
  · rw [List.contains_iff_mem.mpr hd, Bool.not_true, Bool.and_false]
  · have hcore : s.core d = {} := Tab.get_of_not_mem _ hd
    rw [granted, hcore]
    rfl

end

-- Translations removed (R52).

/-- A state without the entries that an invalidation removes. -/
def swept (s : State) (v : Inval) : State :=
  let keep (e : TlbEntry) : Bool := !v.matchesPage e.ctx e.vpn e.big
  { s with
    cores := s.cores.map (fun c => (c.1, { c.2 with tlb := c.2.tlb.filter keep }))
    clusterTlb := s.clusterTlb.map (fun c => (c.1, c.2.filter keep))
    ptrCache := s.ptrCache.map (fun c => (c.1, c.2.filter (fun p => !v.matchesPtr p)))
    walkMisses := s.walkMisses.filter (fun m => !v.onPath m.ctx m.vpn) }

/-- What the accesses and the walks under way do not hold, an invalidation changes only in the entries it removes. -/
theorem invalidate_leaves {β : Type} (g : State → β) (hf : ∀ s test, g (State.forsake s test) = g s)
    (hr : ∀ s ag ctx, g (State.forsakeRuns s ag ctx) = g s) (hw : ∀ (s : State) q, g { s with walkQ := q } = g s)
    (s : State) (v : Inval) : g (invalidate s v) = g (swept s v) := by
  have hall (s : State) (ag : Agent) (ctx : Nat) : g (s.forsakeAll ag ctx) = g s :=
    (hf (s.forsakeRuns ag ctx) _).trans (hr s ag ctx)
  have hrestart (t : State) : g (restartWalks t v) = g t := by
    have hfold (l : List WalkReq) : g (l.foldl (fun s q => s.forsakeAll q.agent q.ctx) t) = g t := by
      apply foldl_leaves g
      exact fun s q => hall s q.agent q.ctx
    rw [restartWalks, hw, hfold]
  refine Eq.trans ?_ (hrestart (swept s v))
  change g (dropWalked v (restartWalks (swept s v) v)) = _
  generalize restartWalks (swept s v) v = t
  unfold dropWalked
  extract_lets unit writing
  split
  · exact hf _ _
  · rfl

theorem core_invalidate (s : State) (v : Inval) (c : Nat) : (invalidate s v).core c =
    { s.core c with tlb := (s.core c).tlb.filter (fun e => !v.matchesPage e.ctx e.vpn e.big) } := by
  refine (invalidate_leaves (fun t => t.core c) (fun _ _ => rfl) (fun _ _ _ => rfl) (fun _ _ => rfl) s v).trans ?_
  exact Tab.get_map_snd {} (fun k : Core => { k with tlb := k.tlb.filter (fun e => !v.matchesPage e.ctx e.vpn e.big) })
    s.cores c

/-- What a filter leaves meets what it asks for. -/
theorem all_filter_self {α : Type} (p : α → Bool) (l : List α) : (l.filter p).all p = true :=
  List.all_eq_true.mpr fun _ ha => (List.mem_filter.mp ha).2

/-- What is left in each part of a table meets what the filter of each part asks for. -/
theorem all_map_filter {α : Type} {p q : α → Bool} (h : ∀ a, p a = true → q a = true) (t : Tab (List α)) :
    (t.map (fun c => (c.1, c.2.filter p))).all (fun c => c.2.all q) = true := by
  rw [List.all_map]
  exact List.all_eq_true.mpr fun c _ => List.all_eq_true.mpr fun a ha => h a (List.mem_filter.mp ha).2

theorem ne_of_not_matchesCtx {ctx c : Nat} (h : (!(ctx == c)) = true) : (c != ctx) = true := by
  rw [bne_iff_ne]
  exact fun e => by simp [e] at h

-- SETUP and TEARDOWN (R502).

section
variable {s : State} {slot : Nat} (hlt : slot < 64)
include hlt

theorem setup_busy (h : (s.slot slot).st ≠ .free) :
    execSetup slot s = .next (s.setSlot slot { s.slot slot with err := 3 }) :=
  (if_neg (Nat.not_le.mpr hlt)).trans (if_pos (bne_iff_ne.mpr h))

section
variable (h : (s.slot slot).st = .free)
include h

theorem setup_bad (hb : slotGood s slot = false) :
    execSetup slot s = .next (s.setSlot slot { s.slot slot with err := 1 }) :=
  (if_neg (Nat.not_le.mpr hlt)).trans ((if_neg (by rw [h]; decide)).trans (if_pos (by rw [hb]; rfl)))

/-- A slot that has been set up. -/
def setUp (s : State) (slot : Nat) : State :=
  (emptyDups (zeroMeters s slot) slot).setSlot slot { s.slot slot with err := 0, st := .active, missed := 0 }

theorem setup_good (hb : slotGood s slot = true) : execSetup slot s = .next (setUp s slot) :=
  (if_neg (Nat.not_le.mpr hlt)).trans ((if_neg (by rw [h]; decide)).trans (if_neg (by rw [hb]; decide)))

end

theorem teardown_other (h : (s.slot slot).st ≠ .active) :
    execTeardown slot s = .next (s.setSlot slot { s.slot slot with err := 3 }) :=
  (if_neg (Nat.not_le.mpr hlt)).trans (if_pos (bne_iff_ne.mpr h))

section
variable (h : (s.slot slot).st = .active)
include h

theorem teardown_launched (hl : s.launches.any (fun l => l.2.ctx == slot) = true) :
    execTeardown slot s = .next (s.setSlot slot { s.slot slot with err := 2 }) :=
  (if_neg (Nat.not_le.mpr hlt)).trans ((if_neg (by rw [h]; decide)).trans (if_pos hl))

variable (hl : s.launches.any (fun l => l.2.ctx == slot) = false)
include hl

theorem teardown_waits (hq : contextQuiet s slot = false) :
    execTeardown slot s = .next (s.setSlot slot { s.slot slot with st := .tearing }) :=
  (if_neg (Nat.not_le.mpr hlt)).trans ((if_neg (by rw [h]; decide)).trans ((if_neg (Bool.eq_false_iff.mp hl)).trans
    (if_pos (by rw [hq]; rfl))))

theorem teardown_done (hq : contextQuiet s slot = true) : execTeardown slot s = .next (tearDown s slot) :=
  (if_neg (Nat.not_le.mpr hlt)).trans ((if_neg (by rw [h]; decide)).trans ((if_neg (Bool.eq_false_iff.mp hl)).trans
    (if_neg (by rw [hq]; decide))))

end

end

section
variable (s : State) (slot : Nat)

theorem setUp_meter {i : Nat} (hi : i < 32) : (setUp s slot).meter slot i = 0 := zeroMeters_meter s hi

/-- The last steps of a teardown: what the tables hold of the context goes, and the slot is FREE. -/
def closed (s : State) (ctx : Nat) : State :=
  let s : State := { s with
    keys := s.keys.map (fun k => if k.2.owner == ctx then (k.1, {}) else k)
    tickets := s.tickets.filter (fun t => t.2.ctx != ctx)
    sowing := s.sowing.map (fun q => (q.1, q.2.filter (fun r => r.ctx != ctx)))
    promoQ := s.promoQ.filter (fun p => p.ctx != ctx)
    trackers := s.trackers.filter (fun e => e.2.ctx != ctx)
    returnsDue := s.returnsDue.filter (fun r => r.ctx != ctx)
    segments := s.segments.filter (fun g => g.ctx != ctx)
    ringNet := s.ringNet.filter (fun m => m.ctx != ctx)
    respNet := s.respNet.map (fun q => if q.ctx == ctx then { q with posted := true } else q)
    inbox := s.inbox.filter (fun q => q.ctx != ctx) }
  let s := emptyDups s ctx
  let s : State := { s with
    snapshots := Tab.put s.snapshots ctx (meterList s ctx)
    roots := Tab.drop s.roots ctx }
  s.setSlot ctx { s.slot ctx with st := .free, err := errOk, handler := 0, pool := 0, qbase := 0, qback := 0 }

/-- A state without the cores and the translations of a context. -/
def withoutCores : State := invalidate (ungrantAll s slot) (.ctx slot)

theorem tearDown_eq : tearDown s slot = closed (withoutCores s slot) slot := rfl

/-- What neither a core nor a translation nor an access holds is left while a context loses its cores. -/
theorem withoutCores_leaves {β : Type} (g : State → β) (hf : ∀ s test, g (State.forsake s test) = g s)
    (hr : ∀ s ag ctx, g (State.forsakeRuns s ag ctx) = g s) (hw : ∀ (s : State) q, g { s with walkQ := q } = g s)
    (hs : ∀ s v, g (swept s v) = g s)
    (hg : ∀ (s : State) spad units harts cores,
      g { s with spad := spad, units := units, harts := harts, cores := cores } = g s) :
    g (withoutCores s slot) = g s :=
  (invalidate_leaves g hf hr hw (ungrantAll s slot) (.ctx slot)).trans ((hs _ _).trans
    (foldl_leaves g (fun s c => ungrant_leaves s slot g hg c) _ s))

theorem withoutCores_granted (c : Nat) : granted (withoutCores s slot) c slot = false := by
  rw [granted, withoutCores, core_invalidate]
  exact granted_ungrantAll s slot c

theorem withoutCores_tlb (c : Nat) : ((withoutCores s slot).core c).tlb.all (fun e => e.ctx != slot) = true := by
  rw [withoutCores, core_invalidate]
  exact List.all_eq_true.mpr fun e he => ne_of_not_matchesCtx (List.mem_filter.mp he).2

theorem withoutCores_clusterTlb : (withoutCores s slot).clusterTlb.all (fun c => c.2.all (fun e => e.ctx != slot)) = true := by
  rw [withoutCores, invalidate_leaves State.clusterTlb (fun _ _ => rfl) (fun _ _ _ => rfl) (fun _ _ => rfl)]
  exact all_map_filter (fun _ => ne_of_not_matchesCtx) _

theorem withoutCores_ptrCache : (withoutCores s slot).ptrCache.all (fun c => c.2.all (fun e => e.ctx != slot)) = true := by
  rw [withoutCores, invalidate_leaves State.ptrCache (fun _ _ => rfl) (fun _ _ _ => rfl) (fun _ _ => rfl)]
  exact all_map_filter (fun _ => ne_of_not_matchesCtx) _

theorem withoutCores_mem : (withoutCores s slot).mem = s.mem :=
  withoutCores_leaves s slot State.mem (fun _ _ => rfl) (fun _ _ _ => rfl) (fun _ _ => rfl) (fun _ _ => rfl)
    fun _ _ _ _ _ => rfl

theorem withoutCores_meterList : meterList (withoutCores s slot) slot = meterList s slot := by
  have hmeters : (withoutCores s slot).meters = s.meters :=
    withoutCores_leaves s slot State.meters (fun _ _ => rfl) (fun _ _ _ => rfl) (fun _ _ => rfl) (fun _ _ => rfl)
      fun _ _ _ _ _ => rfl
  simp only [meterList, State.meter, State.energy, State.count, hmeters]

theorem closed_slot : (closed s slot).slot slot =
    { s.slot slot with st := .free, err := 0, handler := 0, pool := 0, qbase := 0, qback := 0 } :=
  Tab.get_put_same _ _ _ _

theorem closed_keys : (closed s slot).keys.all (fun k => k.2.owner != slot || k.2.st == .empty) = true := by
  refine List.all_map.trans (List.all_eq_true.mpr fun k _ => ?_)
  by_cases hk : k.2.owner = slot
  · simp [hk]
  · simp [hk]

theorem closed_mem : (closed s slot).mem = s.mem := rfl

theorem closed_core (c : Nat) : (closed s slot).core c = s.core c := rfl

theorem closed_clusterTlb : (closed s slot).clusterTlb = s.clusterTlb := rfl

theorem closed_ptrCache : (closed s slot).ptrCache = s.ptrCache := rfl

theorem closed_tickets : (closed s slot).tickets.all (fun k => k.2.ctx != slot) = true :=
  all_filter_self (fun k : Nat × Ticket => k.2.ctx != slot) s.tickets

theorem closed_sowing : (closed s slot).sowing.all (fun q => q.2.all (fun r => r.ctx != slot)) = true :=
  all_map_filter (p := fun r : SowRange => r.ctx != slot) (fun _ h => h) s.sowing

theorem closed_dups : (closed s slot).dups.all (fun d => d.1 % 128 != slot) = true :=
  all_filter_self (fun d : Nat × _ => d.1 % 128 != slot) s.dups

theorem closed_roots : Tab.get 0 (closed s slot).roots slot = 0 :=
  Tab.get_filter_refused 0 s.roots fun _ => by simp

theorem closed_snapshots : (closed s slot).snapshots.find? (fun e => e.1 == slot) = some (slot, meterList s slot) :=
  Tab.find?_put_same _ _ _

end

-- Boot (R504, R505).

/-- What boot does not set, it leaves. -/
theorem bootOn_leaves {β : Type} (g : State → β) (hg : ∀ (s : State) boot schedule step recovering reply slots events,
      g { s with
        boot := boot, schedule := schedule, bootStep := step, recovering := recovering, reply := reply, slots := slots
        events := events } = g s) (s : State) (b : BootInput) : g (bootOn s b) = g s := by
  unfold bootOn
  extract_lets off s3 s4 s5 s6
  split
  · exact hg s _ _ _ _ _ _ _
  · split
    · exact hg s _ _ _ _ _ _ _
    · split
      · exact hg s _ _ _ _ _ _ _
      · split
        · exact hg s _ _ _ _ _ _ _
        · exact hg s _ _ _ _ _ _ _

/-- A boot that ends has every mailbox ready. -/
theorem bootOn_ready {s : State} {b : BootInput} (h : (bootOn s b).bootStep = 7) {k : Nat} (hk : k < 64) :
    ((bootOn s b).slot k).busy = false := by
  unfold bootOn at h ⊢
  extract_lets off s3 s4 s5 s6 at h
  extract_lets
  split at h
  · cases h
  next h3 =>
    split at h
    · cases h
    next h4 =>
      split at h
      · cases h
      next h5 =>
        split at h
        · cases h
        next h6 =>
          rw [if_neg h3, if_neg h4, if_neg h5, if_neg h6]
          exact congrArg CtxSlot.busy (Tab.get_map_keys {} (fun k => { s6.slot k with busy := false }) (List.mem_range.mpr hk))

/-- The machine as a reset leaves it before its boot. -/
def resetFrom (s : State) : State := { State.reset with
  turns := s.turns, auto := s.auto, ticks := s.ticks, draws := s.draws, retired := s.retired
  firmware := (s.nextFirmware.map Firmware.numbered).getD s.firmware }

theorem reset_boots {b : BootInput} (h : b.imageOk = true) (s : State) : execReset b s = .next (bootOn (resetFrom s) b) :=
  if_pos h

theorem reset_recovers {b : BootInput} (h : b.imageOk = false) (s : State) : execReset b s =
    .next (({ resetFrom s with bootStep := 1, recovering := true } : State).log (.bootFailed 2)) :=
  if_neg (Bool.eq_false_iff.mp h)

theorem recoveryDoorbell_ignored {s : State} {b : BootInput} (h : (s.recovering && b.imageOk) = false) :
    execRecoveryDoorbell b s = .next s :=
  if_neg (Bool.eq_false_iff.mp h)

-- SYSGO (R503).

theorem sysgo_ignored {s : State} {v : W64} (h : v ≠ 1 ∨ s.sysgo = true ∨ s.bootStep ≠ 7) : execSysgo v s = .next s := by
  refine if_neg ?_
  simp only [Bool.and_eq_true, decide_eq_true_eq, Bool.not_eq_true', beq_iff_eq]
  rintro ⟨⟨hv, hgo⟩, hstep⟩
  rcases h with h | h | h
  · exact h hv
  · exact Bool.false_ne_true (hgo.symm.trans h)
  · exact h hstep

/-- A supervisor hart as SYSGO starts it. -/
def startedAs (s : State) (h : Hart) : Hart := Hart.setPc { h with
  running := true, status := mkStatus true false false false, ivec := s.sysivec } s.sysentry

/-- SYSGO starts one supervisor hart. -/
def startSup (s : State) (i : Nat) : State := s.setBank (4096 + i) sysCtx (startedAs s (s.bank (4096 + i) sysCtx))

theorem bank_startSup_other (s : State) {i j : Nat} (h : j ≠ i) :
    (startSup s i).bank (4096 + j) sysCtx = s.bank (4096 + j) sysCtx :=
  State.bank_setBank_other _ _ _ _ _ _ (by omega)

/-- Each hart of a list is started once, as it stood before. -/
theorem bank_foldl_startSup {l : List Nat} (hl : l.Nodup) (s : State) (i : Nat) :
    (l.foldl startSup s).bank (4096 + i) sysCtx =
      if i ∈ l then startedAs s (s.bank (4096 + i) sysCtx) else s.bank (4096 + i) sysCtx := by
  induction l generalizing s with
  | nil => rfl
  | cons j l ih =>
    obtain ⟨hj, hl⟩ := List.nodup_cons.mp hl
    rw [List.foldl_cons, ih hl]
    by_cases hij : i = j
    · subst hij
      rw [if_neg hj, if_pos (List.mem_cons_self ..)]
      exact State.bank_setBank_same _ _ _ _
    · rw [bank_startSup_other s hij]
      simp only [List.mem_cons, hij, false_or]
      rfl

theorem sysgo_starts {s : State} (hgo : s.sysgo = false) (hstep : s.bootStep = 7) : ∃ t, execSysgo 1 s = .next t ∧
    t.sysgo = true ∧ ∀ i, i < 256 → t.bank (4096 + i) sysCtx = startedAs s (s.bank (4096 + i) sysCtx) := by
  let u := (List.range 64).foldl (fun s c => s.setCore (1024 + c) (s.core (1024 + c))) s
  have hu {β : Type} (g : State → β) (hg : ∀ (s : State) cores, g { s with cores := cores } = g s) : g u = g s :=
    foldl_leaves g (fun s c => hg s _) _ s
  refine ⟨{ (List.range 256).foldl startSup u with sysgo := true }, if_pos (by rw [hgo, hstep]; rfl), rfl, fun i hi => ?_⟩
  have hbank := bank_foldl_startSup (l := List.range 256) List.nodup_range u i
  rw [if_pos (List.mem_range.mpr hi)] at hbank
  have hgone (x : State) : ({ x with sysgo := true } : State).bank (4096 + i) sysCtx = x.bank (4096 + i) sysCtx := rfl
  rw [hgone, hbank]
  exact hu (fun t => startedAs t (t.bank (4096 + i) sysCtx)) fun _ _ => rfl

/-- Settles O34: each command by the checks it makes; a teardown by what its grants, its invalidation and its filters
leave; boot by where it ends. -/
theorem slotAndBootResults : Obligations.SlotAndBootResults := by
  refine ⟨fun s slot hlt => ⟨setup_busy hlt, setup_bad hlt, fun h hb => ⟨_, setup_good hlt h hb, Tab.get_put_same _ _ _ _,
      fun i hi => setUp_meter s slot hi, all_filter_self _ _, rfl, rfl⟩,
      teardown_other hlt, teardown_launched hlt, teardown_waits hlt, fun h hl hq =>
        ⟨closed (withoutCores s slot) slot, teardown_done hlt h hl hq, ?_⟩⟩,
    fun s b => ⟨?_, fun h => recoveryDoorbell_ignored (by rw [h, Bool.false_and]),
      fun _ h => recoveryDoorbell_ignored (by rw [h, Bool.and_false]),
      fun h hb => if_pos (by rw [h, hb]; rfl), fun v => sysgo_ignored, sysgo_starts⟩⟩
  · have hslot := closed_slot (withoutCores s slot) slot
    refine ⟨congrArg CtxSlot.st hslot, congrArg CtxSlot.err hslot, congrArg CtxSlot.handler hslot,
      congrArg CtxSlot.pool hslot, congrArg CtxSlot.qbase hslot, congrArg CtxSlot.qback hslot, closed_tickets _ slot,
      (closed_mem _ slot).trans (withoutCores_mem s slot), closed_roots _ slot, fun c => ?_, closed_keys _ slot,
      fun c => ?_, ?_, ?_, closed_sowing _ slot, closed_dups _ slot,
      (closed_snapshots _ slot).trans (congrArg (fun l => some (slot, l)) (withoutCores_meterList s slot))⟩
    · rw [granted, closed_core]
      exact withoutCores_granted s slot c
    · rw [closed_core]
      exact withoutCores_tlb s slot c
    · rw [closed_clusterTlb]
      exact withoutCores_clusterTlb s slot
    · rw [closed_ptrCache]
      exact withoutCores_ptrCache s slot
  · by_cases hb : b.imageOk = true
    · exact ⟨_, reset_boots hb s, fun h => absurd hb (Bool.eq_false_iff.mp h), fun h k hk => bootOn_ready h hk,
        bootOn_leaves State.mem (fun _ _ _ _ _ _ _ _ => rfl) _ b, bootOn_leaves State.spad (fun _ _ _ _ _ _ _ _ => rfl) _ b,
        bootOn_leaves State.sysgo (fun _ _ _ _ _ _ _ _ => rfl) _ b⟩
    · exact ⟨_, reset_recovers (Bool.eq_false_iff.mpr hb) s, fun _ => ⟨rfl, rfl, fun _ => rfl⟩,
        fun h => absurd (show 1 = 7 from h) (by decide), rfl, rfl, rfl⟩

end Machine

end Sys2Proof

end

section
/-! PROOFS. Taking a fault (R463 to R465). -/

namespace Sys2Proof.Machine

open Sys2Proof.Safety

-- Turns of a frozen hart (R463).

theorem hartIssue_frozen {s : State} (h : s.me.frozen = true) : hartIssue s = .whole (.next s) :=
  if_pos (by rw [Hart.awake, h, Bool.not_true, Bool.and_false, Bool.not_false])

theorem hartTurn_frozen {s : State} (h : s.me.frozen = true) (hl : s.me.lag = []) : hartTurn s = .next s := by
  rw [hartTurn, hl, List.isEmpty_nil, if_pos rfl, joinedTurn, hartIssue_frozen h]

theorem executeTurn_frozen {s : State} (h : s.me.frozen = true) (hl : s.me.lag = []) : executeTurn s = .next s := by
  rw [executeTurn, hl, List.isEmpty_nil, Bool.not_true, if_neg Bool.false_ne_true, hartIssue_frozen h]

-- Packets (R464, R465).

/-- The number of a source's next packet follows the one it has sent. -/
theorem nextSeq_bumpSeq (s : State) (src : Source) : (s.bumpSeq src).nextSeq src = (s.nextSeq src + 1) % 2 ^ 32 := by
  have hfirst {v : Nat} {l : List (Source × Nat)} : ((src, v) :: l).find? (fun e => e.1 == src) = some (src, v) :=
    List.find?_cons_of_pos (beq_self_eq_true src)
  exact congrArg (fun o => (Option.map Prod.snd o).getD 0) hfirst

theorem faultPc_eq (h : Hart) (f : TrapInfo) :
    faultPc h f = if f.code = .illegal ∧ f.cause = causeBreak then h.pc - 12 else h.pc := by
  simp only [faultPc, Bool.and_eq_true, beq_iff_eq]

/-- A hart's packet goes to the queue of its cluster, a supervisor's to the steading's. -/
theorem cluster_of_hart (hid : Nat) (dw : List W64) :
    ({ src := .hart hid, dw := dw } : Packet).cluster = if isSup hid then 64 else clusterOf (coreOf hid) := rfl

/-- A fault changes the bank of the hart that takes it alone. -/
theorem bank_takeFault_other (s : State) (f : TrapInfo) {hid ctx : Nat} (h : hid * 128 + ctx ≠ s.cur * 128 + s.myCtx) :
    (s.takeFault f).bank hid ctx = s.bank hid ctx :=
  State.bank_setBank_other s _ _ _ _ _ h

/-- Settles O56: a fault sets its hart's bank, in which the streams are joined, and adds the hart's packet. -/
theorem faultsFreezeTheHart : Obligations.FaultsFreezeTheHart := by
  intro s f
  have hme := s.takeFault_me f
  have hfrozen : (s.takeFault f).me.frozen = true := by rw [hme]
  have hlag : (s.takeFault f).me.lag = [] := by rw [hme]; rfl
  have hfield {β : Type} (g : Hart → β) : g (s.takeFault f).me = g { s.me.join.awaken with
      frozen := true
      lastPacket := packetWords (.hart s.cur) s.myCtx (s.nextSeq (.hart s.cur)) (faultPc s.me f) f } := congrArg g hme
  dsimp only
  rw [← faultPc_eq]
  exact ⟨hfrozen, hfield Hart.pc, hfield Hart.epc, hlag, hfield Hart.waiting, hfield Hart.repst, hfield Hart.status,
    hfield Hart.ipend, hfield Hart.x, hfield Hart.v, hfield Hart.p, hfield Hart.lastPacket, nextSeq_bumpSeq _ _, rfl, rfl,
    rfl, rfl, rfl, cluster_of_hart _ _, fun hid ctx => bank_takeFault_other s f, hartTurn_frozen hfrozen hlag,
    executeTurn_frozen hfrozen hlag⟩

end Sys2Proof.Machine

end

section
/-! PROOFS. Collectives (R478 to R495): their instructions, the rank's own work, packets that come, the choice of a port
at a chunk boundary, and completion. -/

namespace Sys2Proof.Machine

open Sys2Proof.Safety

-- coll and cstat (R481, R482).

section
variable {f : Fmt} {s : State} (hg : guardOn f s = true)
include hg

section
variable {u v : State} {bs gs : List Byte} (ha : (xval s f.a).toNat % 64 = 0)
  (hl : loadWords s (xval s f.a) 64 2 = .ok (u, bs))
  (hgroup : (if (cbGroup (dwordList bs 16)).toNat % 8 = 0
    then loadWords u (cbGroup (dwordList bs 16)) 8 (cbRanks (dwordList bs 16)) else .ok (u, [])) = .ok (v, gs))
include ha hl hgroup

theorem coll_refused {st d : Nat}
    (hk : collCheck v v.myCtx (dwordList bs 16) (dwordList gs (cbRanks (dwordList bs 16))) = (st, d)) (h0 : st ≠ 0)
    (hd : dstReady v f.d = .ok ()) : Gives64 (.coll f) f s v (BitVec.ofNat 64 (d * 2 ^ 8 + st)) := by
  refine gives64_of_put ((scalarRun_on hg _).trans (congrArg settle ((bind_of_ok (need_ok (u := ()) |>.mpr
    (decide_eq_true ha)) _).trans (keepAnswers_put64 hd ((bind_of_ok hl _).trans ((bind_of_ite hgroup _).trans ?_)))))) hd
  dsimp only
  rw [hk]
  split
  next heq => exact absurd (congrArg Prod.fst heq) h0
  next heq =>
    cases heq
    rfl

theorem coll_admitted {w : State}
    (hk : (collCheck v v.myCtx (dwordList bs 16) (dwordList gs (cbRanks (dwordList bs 16)))).1 = 0)
    (hd : dstReady v f.d = .ok ()) (hrel : release v 5 = .ok w) (hlen : w.colls.length < 64) (hbar : w.barrier = none)
    (hw : dstReady (admitColl w (dwordList bs 16) (dwordList gs (cbRanks (dwordList bs 16)))) f.d = .ok ()) :
    Gives64 (.coll f) f s (admitColl w (dwordList bs 16) (dwordList gs (cbRanks (dwordList bs 16)))) 0 := by
  refine gives64_of_put ((scalarRun_on hg _).trans (congrArg settle ((bind_of_ok (need_ok (u := ()) |>.mpr
    (decide_eq_true ha)) _).trans (keepAnswers_put64 hw ((bind_of_ok hl _).trans ((bind_of_ite hgroup _).trans ?_)))))) hw
  dsimp only
  split
  next => exact (bind_of_ok hd _).trans ((bind_of_ok hrel _).trans (bind_of_ok (waitFor_ok (u := ()) |>.mpr
    (by rw [decide_eq_true hlen, hbar]; rfl)) _))
  next st d hne heq => exact absurd ((congrArg Prod.fst heq).symm.trans hk) hne

end

section
variable {a : W64} (ha : src64 s f.a 0 = .ok a) (hd : dstReady s f.d = .ok ())
include ha hd

theorem cstat_reads : Gives64 (.cstat f) f s s (commWord s (commKey s.myCtx (a.toNat % 2 ^ 16))) :=
  gives64_of_put ((scalarRun_on hg _).trans (congrArg settle (bind_of_ok ha _))) hd

theorem cstatClr_clears {key : Nat} (hkey : key = commKey s.myCtx (a.toNat % 2 ^ 16))
    (ht : dstReady (s.setComm key { s.comm key with sat := false }) f.d = .ok ()) :
    Gives64 (.cstatClr f) f s (s.setComm key { s.comm key with sat := false }) (commWord s key) := by
  subst hkey
  exact gives64_of_put ((scalarRun_on hg _).trans (congrArg settle ((bind_of_ok ha _).trans (bind_of_ok hd _)))) ht

end

end

-- The rank's own work (R483, R488).

section
variable {s : State} {n op : Nat} {c : Coll} (hr : collRuns s n = some c) (ho : cbOp c.block = op)
include hr ho

/-- The work of a collective that runs, by its operation. -/
theorem collRun_eq : collRun n op s =
    if c.cut s then .next (collFail n s stFabric 0)
    else if !c.began && !keyOk s c.ctx (cbKey c.block) then .next (collFail n s stKey 0)
    else engineEvent s c.agent (some c.seg) (c.own.elim (collRead s n c) (collWork s n c))
      (fun t _ => collFail n t stAccess causeAbsent) (fun t code d _ => collFail n t code d) := by
  unfold collRun
  rw [hr]
  refine (if_neg (by rw [ho, bne_self_eq_false]; exact Bool.false_ne_true)).trans ?_
  cases c.own with
  | none => rfl
  | some own => rfl

theorem collRun_cut (hcut : c.cut s = true) : collRun n op s = .next (collFail n s 8 0) :=
  (collRun_eq hr ho).trans (if_pos hcut)

variable (hcut : c.cut s = false)
include hcut

theorem collRun_no_key (hb : c.began = false) (hk : keyOk s c.ctx (cbKey c.block) = false) :
    collRun n op s = .next (collFail n s stKey 0) :=
  (collRun_eq hr ho).trans ((if_neg (Bool.eq_false_iff.mp hcut)).trans (if_pos (by rw [hb, hk]; rfl)))

variable (hk : c.began = true ∨ keyOk s c.ctx (cbKey c.block) = true)
include hk

theorem collRun_works {t : State} (ht : c.own.elim (collRead s n c) (collWork s n c) = .ok t) :
    collRun n op s = .next t.sendPosts :=
  (collRun_eq hr ho).trans ((if_neg (Bool.eq_false_iff.mp hcut)).trans
    ((if_neg (by rcases hk with hk | hk <;> simp [hk])).trans (engineEvent_ok _ _ _ _ ht)))

theorem collRun_reads {t : State} (hown : c.own = none) (ht : collRead s n c = .ok t) :
    collRun n op s = .next t.sendPosts :=
  collRun_works hr ho hcut hk (by rw [hown]; exact ht)

theorem collRun_goes_on {t : State} {own : List Nat} (hown : c.own = some own) (ht : collWork s n c own = .ok t) :
    collRun n op s = .next t.sendPosts :=
  collRun_works hr ho hcut hk (by rw [hown]; exact ht)

end

section
variable {s : State} {n : Nat} {c : Coll} {own : List Nat}

theorem collWork_combines {b : CollBuf} (hb : s.collBufs.find? (fun b => b.isOf c && !b.out) = some b) :
    collWork s n c own = .ok (collCombine s n c own b) := by
  rw [collWork, hb]

variable (hb : s.collBufs.find? (fun b => b.isOf c && !b.out) = none)
include hb

/-- Without a packet to combine the rank writes its units in order, and then ends. -/
theorem collWork_eq : collWork s n c own =
    if c.unit < c.total then (if c.unitOver own c.unit then collWrite s n c own else .ok s)
    else .ok (if s.collBufs.any (fun b => b.isOf c) then s else s.setColl n { c with done := true }) := by
  rw [collWork, hb]

theorem collWork_writes {t : State} (hu : c.unit < c.total) (hover : c.unitOver own c.unit = true)
    (ht : collWrite s n c own = .ok t) : collWork s n c own = .ok t :=
  (collWork_eq hb).trans ((if_pos hu).trans ((if_pos hover).trans ht))

theorem collWork_waits (hu : c.unit < c.total) (hover : c.unitOver own c.unit = false) : collWork s n c own = .ok s :=
  (collWork_eq hb).trans ((if_pos hu).trans (if_neg (Bool.eq_false_iff.mp hover)))

theorem collWork_held (hu : c.total ≤ c.unit) (hbuf : s.collBufs.any (fun b => b.isOf c) = true) :
    collWork s n c own = .ok s :=
  (collWork_eq hb).trans ((if_neg (Nat.not_lt.mpr hu)).trans (congrArg Except.ok (if_pos hbuf)))

theorem collWork_ends (hu : c.total ≤ c.unit) (hbuf : s.collBufs.any (fun b => b.isOf c) = false) :
    collWork s n c own = .ok (s.setColl n { c with done := true }) :=
  (collWork_eq hb).trans ((if_neg (Nat.not_lt.mpr hu)).trans (congrArg Except.ok (if_neg (Bool.eq_false_iff.mp hbuf))))

end

-- Packets that come (R483, R484, R494, R495).

/-- The stream that a packet of a step comes on. -/
def stepStream (s : State) (c : Coll) (m : CollMsg) : FabricStream := Tab.get {} s.streams (m.peer * 128 + c.ctx)

/-- The state in which a packet's number has been taken. -/
def stepTaken (s : State) (c : Coll) (m : CollMsg) : State :=
  { s with streams := Tab.put s.streams (m.peer * 128 + c.ctx) ((stepStream s c m).take m.path m.seq) }

/-- A packet's tag and number pass. -/
def stepGood (s : State) (c : Coll) (m : CollMsg) : Bool :=
  m.tagOk && m.epoch == s.epoch && seqGood (stepStream s c m) m.seq

theorem collRuns_live {s : State} {n : Nat} {c : Coll} (h : collRuns s n = some c) : c.done = false ∧ c.status = 0 := by
  unfold collRuns at h
  split at h
  · cases h
  · split at h
    · cases h
    next hlive =>
      cases h
      simp only [Bool.or_eq_true, not_or, Bool.not_eq_true, bne_eq_false_iff_eq] at hlive
      obtain ⟨⟨-, hdone⟩, hstatus⟩ := hlive
      exact ⟨hdone, hstatus⟩

section
variable {s : State} {n : Nat} {c : Coll} {m : CollMsg} (hc : s.colls[n]? = some c) (hpeer : m.peer ≠ s.devidx)
  (hgroup : c.group.contains m.peer = true) (hdom : s.domain.contains m.peer = true)
  (href : s.refused.contains (m.peer * 128 + c.ctx) = false) (hport : m.port < 36)
include hc hpeer hgroup hdom href hport

/-- A packet of a peer of the group whose stream is open: its tag and its number are checked, and then its step. -/
theorem takeStep_eq : takeStep n m s =
    if !stepGood s c m then .next (packetFails s m.peer c.ctx .write)
    else if (stepStream s c m).passedOn m.path m.seq then .next s
    else if c.done || c.status != 0 then .next (stepTaken s c m)
    else (collRuns s n).elim (.next s) (fun c => .next (goodStep s (stepTaken s c m) n c m)) := by
  unfold takeStep
  rw [hc]
  refine (if_neg ?_).trans ?_
  · simp only [hpeer, hgroup, hdom, href, decide_false, Bool.not_true, Bool.or_false, Bool.false_or, decide_eq_true_eq]
    omega
  · have hsame {d : Coll} (h : collRuns s n = some d) : d = c := by
      unfold collRuns at h
      rw [hc] at h
      dsimp only at h
      split at h
      · cases h
      · exact (Option.some.inj h).symm
    cases hr : collRuns s n with
    | none => rfl
    | some d =>
      cases hsame hr
      rfl

theorem takeStep_fails (h : stepGood s c m = false) : takeStep n m s = .next (packetFails s m.peer c.ctx .write) :=
  (takeStep_eq hc hpeer hgroup hdom href hport).trans (if_pos (by rw [h]; rfl))

variable (hgood : stepGood s c m = true)
include hgood

theorem takeStep_passed (h : (stepStream s c m).passedOn m.path m.seq = true) : takeStep n m s = .next s :=
  (takeStep_eq hc hpeer hgroup hdom href hport).trans ((if_neg (by rw [hgood]; decide)).trans (if_pos h))

theorem takeStep_good (h : (stepStream s c m).passedOn m.path m.seq = false) (hr : collRuns s n = some c) :
    takeStep n m s = .next (goodStep s (stepTaken s c m) n c m) := by
  obtain ⟨hdone, hstatus⟩ := collRuns_live hr
  refine (takeStep_eq hc hpeer hgroup hdom href hport).trans ((if_neg (by rw [hgood]; decide)).trans
    ((if_neg (Bool.eq_false_iff.mp h)).trans ((if_neg (by rw [hdone, hstatus]; decide)).trans ?_)))
  rw [hr, Option.elim_some]

end

section
variable {s u : State} {n : Nat} {c : Coll} {m : CollMsg}

theorem goodStep_failed (hf : m.failed ≠ 0) :
    goodStep s u n c m = u.setColl n { c with status := if m.failed = 12 then 12 else 11 } :=
  if_pos (bne_iff_ne.mpr hf)

section
variable (hf : m.failed = 0)
include hf

theorem goodStep_early (ho : c.ordinal < m.ordinal) : goodStep s u n c m = s :=
  (if_neg (by rw [hf]; decide)).trans (if_pos ho)

section
variable (ho : m.ordinal ≤ c.ordinal)
include ho

theorem goodStep_mismatch (hm : c.mismatch s m = true) : goodStep s u n c m = endRank u n c 12 :=
  (if_neg (by rw [hf]; decide)).trans ((if_neg (Nat.not_lt.mpr ho)).trans (if_pos hm))

end

theorem goodStep_late (ho : m.ordinal < c.ordinal) (hm : c.mismatch s m = false) : goodStep s u n c m = u :=
  (if_neg (by rw [hf]; decide)).trans ((if_neg (Nat.not_lt.mpr ho.le)).trans
    ((if_neg (Bool.eq_false_iff.mp hm)).trans (if_pos ho)))

theorem goodStep_admits {own : List Nat} (ho : m.ordinal = c.ordinal) (hm : c.mismatch s m = false)
    (hown : c.own = some own) : goodStep s u n c m = admitStep s u n c own m := by
  refine (if_neg (by rw [hf]; decide)).trans ((if_neg (Nat.not_lt.mpr ho.le)).trans
    ((if_neg (Bool.eq_false_iff.mp hm)).trans ((if_neg (Nat.not_lt.mpr ho.ge)).trans ?_)))
  rw [hown]

end

/-- The packet of a step is the next one that its unit awaits, and there is a buffer for it. -/
def stepAwaited (s : State) (c : Coll) (own : List Nat) (m : CollMsg) : Bool :=
  c.awaits own m.unit m.stage == some (c.group.idxOf m.peer) && bufferFree s m.port c.key &&
    !s.collBufs.any (fun b => b.isOf c && !b.out && b.unit == m.unit && b.stage == m.stage && b.peer == m.peer)

theorem admitStep_enters {own : List Nat} (h : stepAwaited s c own m = true) : admitStep s u n c own m =
    (({ u with collBufs := u.collBufs ++ [c.bufFor m] } : State).setColl n c).fabricMoved c.ctx false
      (c.flits (c.unitAt m.unit).n) :=
  if_pos h

theorem admitStep_waits {own : List Nat} (h : stepAwaited s c own m = false) : admitStep s u n c own m = s :=
  if_neg (Bool.eq_false_iff.mp h)

end

/-- An answer frees the buffer of its packet; an error refuses the stream (R495). -/
theorem packetAnswered_out {s : State} {k : Nat} {b : CollBuf} (hb : s.collBufs[k]? = some b) (ho : b.out = true) (ok : Bool) :
    packetAnswered k ok s = .next (if ok then { s with collBufs := s.collBufs.eraseIdx k }
      else refuseStream { s with collBufs := s.collBufs.eraseIdx k } b.peer (b.key / 65536)) := by
  unfold packetAnswered
  rw [hb]
  exact if_neg (by rw [ho]; decide)

-- A rank that fails (R484, R488).

/-- What a collective's packets and their numbers do not hold, packets that leave do not change. -/
theorem sendBuf_leaves {β : Type} (g : State → β)
    (hg : ∀ (s : State) bufs sent, g { s with collBufs := bufs, sent := sent } = g s) (s : State) (ctx : Nat) (b : CollBuf) :
    g (s.sendBuf ctx b) = g s :=
  hg s _ _

theorem sendBuf_collBufs (s : State) (ctx : Nat) (b : CollBuf) : (s.sendBuf ctx b).collBufs =
    s.collBufs ++ [{ b with out := true, seq := Tab.get 0 s.sent (b.peer * 128 + ctx) }] := rfl

section
variable {P : CollBuf → Prop} (ctx : Nat) (f : Nat → CollBuf)

/-- What is held in a buffer is held while packets leave. -/
theorem exists_foldl_sendBuf_of_held (l : List Nat) (s : State) (h : ∃ b, b ∈ s.collBufs ∧ P b) :
    ∃ b, b ∈ (l.foldl (fun s d => s.sendBuf ctx (f d)) s).collBufs ∧ P b := by
  induction l generalizing s with
  | nil => exact h
  | cons d l ih =>
    obtain ⟨b, hb, hp⟩ := h
    exact ih _ ⟨b, List.mem_append_left _ hb, hp⟩

/-- A packet to each peer of a list is held once it has left. -/
theorem exists_foldl_sendBuf {l : List Nat} {d : Nat} (hd : d ∈ l) (hp : ∀ q, P { f d with out := true, seq := q })
    (s : State) : ∃ b, b ∈ (l.foldl (fun s d => s.sendBuf ctx (f d)) s).collBufs ∧ P b := by
  induction l generalizing s with
  | nil => cases hd
  | cons e l ih =>
    rcases List.mem_cons.mp hd with rfl | hd
    · exact exists_foldl_sendBuf_of_held ctx f l _ ⟨_, List.mem_append_right _ (List.mem_singleton.mpr rfl), hp _⟩
    · exact ih hd _

end

section
variable (s : State) (n : Nat) (c : Coll) (code : Nat)

/-- The packet that tells a peer of a rank that has ended with a status. -/
def endNote (d : Nat) : CollBuf :=
  { port := 0, key := c.key, ordinal := c.ordinal, out := true, peer := d, note := if code = 12 then 12 else 11 }

/-- The peers that a rank tells. -/
def told : List Nat := c.group.filter (fun d => d != s.devidx && inDomain s d && !s.refused.contains (d * 128 + c.ctx))

/-- What neither the queue nor the buffers nor the packets' numbers hold, the end of a rank leaves. -/
theorem endRank_leaves {β : Type} (g : State → β)
    (hg : ∀ (s : State) bufs sent, g { s with collBufs := bufs, sent := sent } = g s) :
    g (endRank s n c code) = g (s.setColl n { c with status := code }) :=
  (foldl_leaves g (f := fun s d => s.sendBuf c.ctx (endNote c code d)) (fun s _ => sendBuf_leaves g hg s c.ctx _)
    (told s c) _).trans (hg _ _ _)

theorem endRank_tells {d : Nat} (hd : d ∈ c.group) (hself : d ≠ s.devidx) (hin : inDomain s d = true)
    (href : s.refused.contains (d * 128 + c.ctx) = false) : ∃ b, b ∈ (endRank s n c code).collBufs ∧ b.peer = d ∧
      b.out = true ∧ b.isOf c = true ∧ b.note = if code = 12 then 12 else 11 := by
  have hmem : d ∈ told s c := List.mem_filter.mpr ⟨hd, by rw [bne_iff_ne.mpr hself, hin, href]; rfl⟩
  exact exists_foldl_sendBuf c.ctx (endNote c code) hmem (fun q => ⟨rfl, rfl, by simp [CollBuf.isOf, endNote], rfl⟩) _

end

-- A port's choice at a chunk boundary (R490).

theorem cbPrio_lt (b : List W64) : cbPrio b < 4 := Nat.mod_lt _ (by decide)

namespace PortTurn

variable (t : PortTurn) {c d : Coll}

theorem rank_passed (h : 64 ≤ Tab.get 0 t.passed c.turn) : t.rank c = 4 := if_pos h

theorem rank_prio (h : Tab.get 0 t.passed c.turn < 64) : t.rank c = cbPrio c.block := if_neg (Nat.not_le.mpr h)

theorem prio_le_rank (c : Coll) : cbPrio c.block ≤ t.rank c := by
  unfold rank
  split
  · exact (cbPrio_lt _).le
  · exact Nat.le_refl _

theorem before_iff : t.before c d = true ↔
    t.rank d < t.rank c ∨ (t.rank c = t.rank d ∧ t.after c.turn < t.after d.turn) := by
  simp [before]

theorem before_of_rank_lt (h : t.rank d < t.rank c) : t.before c d = true := t.before_iff.mpr (.inl h)

/-- Of two collectives not both come first. -/
theorem before_asymm (h : t.before c d = true) : t.before d c = false := by
  rw [before_iff] at h
  rw [Bool.eq_false_iff, Ne, before_iff]
  omega

theorem before_irrefl (c : Coll) : t.before c c = false := by
  rw [Bool.eq_false_iff, Ne, before_iff]
  omega

end PortTurn

/-- The only element of a list that passes a test is found. -/
theorem find?_eq_some_of_unique {α : Type} {p : α → Bool} {l : List α} {a : α} (ha : a ∈ l) (hp : p a = true)
    (huniq : ∀ b ∈ l, p b = true → b = a) : l.find? p = some a := by
  obtain ⟨b, hb⟩ := Option.isSome_iff_exists.mp (List.find?_isSome.mpr ⟨a, ha, hp⟩)
  rw [hb, huniq b (List.mem_of_find?_eq_some hb) (List.find?_some hb)]

/-- The chunks ready at a port, each with its collective and its unit. -/
def chunksReady (s : State) (port : Nat) (ready : List (Nat × Nat)) : List ((Nat × Nat) × Coll × Nat) :=
  ready.filterMap (fun p => (chunkReady s port p).map (fun c => (p, c)))

section
variable {s : State} {port : Nat} {ready : List (Nat × Nat)} {p : Nat × Nat} {c : Coll} {i : Nat}

theorem mem_chunksReady {x : Coll × Nat} :
    (p, x) ∈ chunksReady s port ready ↔ p ∈ ready ∧ chunkReady s port p = some x := by
  simp only [chunksReady, List.mem_filterMap, Option.map_eq_some_iff, Prod.mk.injEq]
  constructor
  · rintro ⟨q, hq, y, hy, rfl, rfl⟩
    exact ⟨hq, hy⟩
  · rintro ⟨hp, hx⟩
    exact ⟨p, hp, x, hx, rfl, rfl⟩

/-- The port takes the chunk that comes before every other. -/
theorem portPick_eq {t : PortTurn} (hp : p ∈ ready) (hc : chunkReady s port p = some (c, i))
    (hfirst : ∀ q d j, q ∈ ready → chunkReady s port q = some (d, j) → (q, d) = (p, c) ∨ t.before c d = true) :
    portPick t (chunksReady s port ready) = some (p, c, i) := by
  have hmem : (p, c, i) ∈ chunksReady s port ready := mem_chunksReady.mpr ⟨hp, hc⟩
  refine find?_eq_some_of_unique hmem ?_ ?_
  · rw [Bool.not_eq_true', List.any_eq_false]
    rintro ⟨q, d, j⟩ hq
    obtain ⟨hq, hd⟩ := mem_chunksReady.mp hq
    refine Bool.eq_false_iff.mp ?_
    rcases hfirst q d j hq hd with h | h
    · rw [(Prod.mk.inj h).2]
      exact t.before_irrefl c
    · exact t.before_asymm h
  · rintro ⟨q, d, j⟩ hq hpass
    obtain ⟨hready, hd⟩ := mem_chunksReady.mp hq
    rcases hfirst q d j hready hd with h | h
    · obtain ⟨rfl, rfl⟩ := Prod.mk.inj h
      rw [(Prod.mk.inj (Option.some.inj (hd.symm.trans hc))).2]
    · rw [Bool.not_eq_true', List.any_eq_false] at hpass
      have hnot := hpass _ hmem
      dsimp only at hnot
      exact absurd h hnot

variable (hport : port < 36) (hlanes : lanesOfPort s port ≠ 0)
include hport hlanes

theorem boundary_goes_on {m peer : Nat} (h : chunkGoesOn s port = some (m, peer, c, i)) :
    portTurn port ready s = .next (sendUnit s port m peer c i) := by
  unfold portTurn
  refine (if_neg (by simp [hlanes, hport])).trans ?_
  rw [h]

/-- The port as a choice leaves it. -/
def portServed (s : State) (port : Nat) (ready : List (Nat × Nat)) (p : Nat × Nat) (c : Coll) (i : Nat) : State :=
  let t := (Tab.get {} s.portTurns port).serve ((chunksReady s port ready).map (·.2.1)) c
  let now := some { key := c.key, ordinal := c.ordinal, peer := p.2, chunk := c.chunkOf i }
  { s with portTurns := Tab.put s.portTurns port { t with now := now } }

theorem boundary_takes (hgo : chunkGoesOn s port = none)
    (hpick : portPick (Tab.get {} s.portTurns port) (chunksReady s port ready) = some (p, c, i)) :
    portTurn port ready s = .next (sendUnit (portServed s port ready p c i) port p.1 p.2 c i) := by
  unfold portTurn
  refine (if_neg (by simp [hlanes, hport])).trans ?_
  rw [hgo]
  unfold chunksReady at hpick
  rw [hpick]
  rfl

end

/-- A packet leaves where its stream is open. -/
theorem sendUnit_open {s : State} {peer : Nat} {c : Coll} (h : fabricRefusal s (.peer peer 0) c.ctx = none)
    (port n i : Nat) : sendUnit s port n peer c i =
      (let own := c.own.getD []
       let w := c.workAt own i
       ((s.setColl n (c.putWork own i { w with gone := w.gone + 1 })).sendBuf c.ctx
         { port := port, key := c.key, ordinal := c.ordinal, out := true, peer := peer, unit := i, stage := w.stage
           data := w.acc }).fabricMoved c.ctx true (c.flits w.acc.length)) :=
  if_neg (by rw [h]; exact Bool.false_ne_true)

/-- What neither the queue nor the buffers, the packets' numbers and the meters hold, a packet that leaves does not
change. -/
theorem sendUnit_leaves {β : Type} (g : State → β) (hg : ∀ (s : State) colls bufs sent meters,
    g { s with colls := colls, collBufs := bufs, sent := sent, meters := meters } = g s) {s : State} {peer : Nat} {c : Coll}
    (h : fabricRefusal s (.peer peer 0) c.ctx = none) (port n i : Nat) : g (sendUnit s port n peer c i) = g s := by
  rw [sendUnit_open h]
  exact hg s _ _ _ _

theorem sendUnit_colls {s : State} {peer : Nat} {c : Coll} (h : fabricRefusal s (.peer peer 0) c.ctx = none)
    (port n i : Nat) : (sendUnit s port n peer c i).colls =
      s.colls.set n (c.putWork (c.own.getD []) i
        { c.workAt (c.own.getD []) i with gone := (c.workAt (c.own.getD []) i).gone + 1 }) := by
  rw [sendUnit_open h]
  rfl

theorem sendUnit_collBufs {s : State} {peer : Nat} {c : Coll} (h : fabricRefusal s (.peer peer 0) c.ctx = none)
    (port n i : Nat) : (sendUnit s port n peer c i).collBufs =
      s.collBufs ++ [{ port := port, key := c.key, ordinal := c.ordinal, out := true, peer := peer, unit := i
                       stage := (c.workAt (c.own.getD []) i).stage, data := (c.workAt (c.own.getD []) i).acc
                       seq := Tab.get 0 s.sent (peer * 128 + c.ctx) }] := by
  rw [sendUnit_open h]
  rfl

/-- A communicator ready and not taken was passed over once more. -/
theorem passed_serve (t : PortTurn) {l : List Coll} {c d : Coll} (hd : d ∈ l) (hne : d.turn ≠ c.turn) :
    Tab.get 0 (t.serve l c).passed d.turn = Tab.get 0 t.passed d.turn + 1 := by
  refine Tab.get_map_keys 0 (fun k => Tab.get 0 t.passed k + 1) (List.mem_filter.mpr ⟨?_, bne_iff_ne.mpr hne⟩)
  exact List.mem_eraseDups.mpr (List.mem_map_of_mem hd)

-- Completion (R488).

section
variable {s : State} {n : Nat} {c : Coll} (hc : s.colls[n]? = some c)
include hc

theorem collComplete_waits (hd : c.done = false) (hs : c.status = 0) : execCollComplete n s = .next s := by
  unfold execCollComplete
  rw [hc]
  exact if_pos (by rw [hd, hs]; rfl)

variable (h : c.done = true ∨ c.status ≠ 0)
include h

theorem collComplete_no_word (hw : cbCword c.block = 0) : execCollComplete n s = .next (endColl s n c) := by
  unfold execCollComplete
  rw [hc]
  exact (if_neg (by rcases h with h | h <;> simp [h])).trans (if_pos hw)

theorem collComplete_writes {t u : State} (hw : cbCword c.block ≠ 0)
    (ht : engOf (flushFor s c.agent c.ctx (some c.seg) c.seg c.dest) = .ok t)
    (hu : engWrite1 (t.setColl n { c with dest := {} }) c.who c.agent 0 (cbCword c.block) (leBytes 8 c.word) = .ok u) :
    execCollComplete n s = .next (endColl u n c).sendPosts := by
  unfold execCollComplete
  rw [hc]
  exact (if_neg (by rcases h with h | h <;> simp [h])).trans ((if_neg hw).trans
    (engineEvent_ok _ _ _ _ ((bind_of_ok ht _).trans (bind_of_ok hu _))))

end

/-- Settles O44: the instructions by what they read; a rank's work and a packet by the first check that decides it; a
port takes the one chunk before which no other comes. -/
theorem collectiveResults : Obligations.CollectiveResults := by
  refine ⟨fun f s hg => ⟨fun u bs v gs ha hl hgroup => ⟨fun st d => coll_refused hg ha hl hgroup,
      fun w hk hd hrel hlen hbar => coll_admitted hg ha hl hgroup hk hd hrel hlen hbar⟩,
      fun a ha hd => ⟨cstat_reads hg ha hd, cstatClr_clears hg ha hd rfl⟩⟩,
    fun s n c => ⟨fun k hk hr ho => ?_, fun m hc hpeer hgroup hdom href hport => ?_,
      fun k b hb ho => ⟨packetAnswered_out hb ho true, packetAnswered_out hb ho false⟩,
      fun code => ⟨endRank_leaves s n c code State.colls fun _ _ _ => rfl, endRank_leaves s n c code State.mem fun _ _ _ => rfl,
        fun _ => endRank_tells s n c code⟩,
      fun port ready p i hport hlanes hgo hp hready hfirst href => ?_,
      fun port ready m peer d i hport hlanes => boundary_goes_on hport hlanes,
      fun turn c d => ⟨fun hprio hpass => ?_, fun hc hd => ?_⟩,
      fun hc => ⟨collComplete_waits hc, collComplete_no_word hc, fun t u h => collComplete_writes hc h⟩⟩⟩
  · have hexec : ∀ j, j ≤ 6 → exec (match j with
        | 0 => .allreduce n | 1 => .reducescatter n | 2 => .allgather n | 3 => .broadcast n | 4 => .reduce n
        | 5 => .alltoall n | _ => .barrier n) s = collRun n j s := fun j hj => by
      match j, hj with
      | 0, _ => rfl
      | 1, _ => rfl
      | 2, _ => rfl
      | 3, _ => rfl
      | 4, _ => rfl
      | 5, _ => rfl
      | 6, _ => rfl
    have hx {r : Host.Outcome State Fault Refusal} (h : collRun n k s = r) := (hexec k hk).trans h
    exact ⟨fun hcut => hx (collRun_cut hr ho hcut), fun hcut hb hkey => hx (collRun_no_key hr ho hcut hb hkey),
      fun hcut hkey => ⟨fun t hown ht => hx (collRun_reads hr ho hcut hkey hown ht), fun own hown =>
        ⟨fun b hb => hx (collRun_goes_on hr ho hcut hkey hown (collWork_combines hb)), fun hb =>
          ⟨fun t hu hover ht => hx (collRun_goes_on hr ho hcut hkey hown (collWork_writes hb hu hover ht)),
            fun hu hover => hx (collRun_goes_on hr ho hcut hkey hown (collWork_waits hb hu hover)),
            fun hu hbuf => hx (collRun_goes_on hr ho hcut hkey hown (collWork_held hb hu hbuf)),
            fun hu hbuf => hx (collRun_goes_on hr ho hcut hkey hown (collWork_ends hb hu hbuf))⟩⟩⟩⟩
  · refine ⟨takeStep_fails hc hpeer hgroup hdom href hport, takeStep_passed hc hpeer hgroup hdom href hport,
      fun hgood hpassed hr => ?_⟩
    have hx {t : State} (h : goodStep s (stepTaken s c m) n c m = t) : takeStep n m s = .next t :=
      (takeStep_good hc hpeer hgroup hdom href hport hgood hpassed hr).trans (congrArg Host.Outcome.next h)
    exact ⟨fun h12 => hx ((goodStep_failed (by rw [h12]; decide)).trans (by rw [if_pos h12]; rfl)),
      fun h0 h12 => hx ((goodStep_failed h0).trans (by rw [if_neg h12]; rfl)), fun hf ho => hx (goodStep_early hf ho),
      fun hf ho hm => hx (goodStep_mismatch hf ho hm), fun hf ho hm => hx (goodStep_late hf ho hm),
      fun own hf ho hm hown => ⟨fun hw => hx ((goodStep_admits hf ho hm hown).trans (admitStep_enters hw)),
        fun hw => hx ((goodStep_admits hf ho hm hown).trans (admitStep_waits hw))⟩⟩
  · have hpick := portPick_eq (t := Tab.get {} s.portTurns port) hp hready hfirst
    have hexec := boundary_takes hport hlanes hgo hpick
    have hopen : fabricRefusal (portServed s port ready p c i) (.peer p.2 0) c.ctx = none := href
    have hturn := (congrArg (fun l => Tab.get ({} : PortTurn) l port) (sendUnit_leaves State.portTurns
      (fun _ _ _ _ _ => rfl) hopen port p.1 i)).trans (Tab.get_put_same _ _ _ _)
    refine ⟨_, hexec, congrArg PortTurn.last hturn, congrArg PortTurn.now hturn, sendUnit_colls hopen _ _ _,
      sendUnit_collBufs hopen _ _ _, fun q d j hq hd hne => ?_, sendUnit_leaves State.mem (fun _ _ _ _ _ => rfl) hopen _ _ _⟩
    have hmem : d ∈ (chunksReady s port ready).map (·.2.1) := List.mem_map.mpr ⟨(q, d, j), mem_chunksReady.mpr ⟨hq, hd⟩, rfl⟩
    exact (congrArg (fun t : PortTurn => Tab.get 0 t.passed d.turn) hturn).trans (passed_serve _ hmem hne)
  · exact turn.before_of_rank_lt (by rw [turn.rank_prio hpass]; exact hprio.trans_le (turn.prio_le_rank c))
  · exact turn.before_of_rank_lt (by rw [turn.rank_prio hd, turn.rank_passed hc]; exact cbPrio_lt _)

end Sys2Proof.Machine

end

section
/-! PROOFS. The registers of the host (R498 to R503, R505): what a write changes, and what a read then gives. -/

namespace Sys2Proof.Machine

open Sys2Proof.Safety

theorem slot_setSlot (s : State) (slot : Nat) (c : CtxSlot) : (s.setSlot slot c).slot slot = c := Tab.get_put_same _ _ _ _

section
variable {s : State} {slot : Nat} (hlt : slot < 64)
include hlt

-- Doorbells (R499, R500).

theorem doorbell_busy (h : (s.slot slot).busy = true) :
    execDoorbell slot s = .next (s.setSlot slot { s.slot slot with overrun := true }) :=
  (if_neg (Nat.not_le.mpr hlt)).trans (if_pos h)

section
variable (h : (s.slot slot).busy = false)
include h

theorem doorbell_rings (ht : (s.slot slot).tdi = .run ∨ (s.slot slot).tdi = .unlocked) :
    execDoorbell slot s = .next (s.setSlot slot { s.slot slot with busy := true, rung := true }) :=
  (if_neg (Nat.not_le.mpr hlt)).trans ((if_neg (Bool.eq_false_iff.mp h)).trans (if_pos (by simpa using ht)))

theorem doorbell_ignored (ht : (s.slot slot).tdi = .locked ∨ (s.slot slot).tdi = .error) : execDoorbell slot s = .next s :=
  (if_neg (Nat.not_le.mpr hlt)).trans ((if_neg (Bool.eq_false_iff.mp h)).trans
    (if_neg (by rcases ht with ht | ht <;> rw [ht] <;> decide)))

end

theorem mstatusClear_clears {v : W64} (h : v.getLsbD 33 = true) :
    execMstatusClear slot v s = .next (s.setSlot slot { s.slot slot with overrun := false }) :=
  if_pos (by rw [h, decide_eq_true hlt]; rfl)

omit hlt in
theorem mstatusClear_ignored {v : W64} (h : v.getLsbD 33 = false) : execMstatusClear slot v s = .next s :=
  if_neg (by rw [h, Bool.and_false]; exact Bool.false_ne_true)

theorem tdispRequest_moves (w : Tdi) : execTdispRequest slot w s =
    .next (s.setSlot slot { s.slot slot with tdi := w, ide := w == .locked || w == .run }) :=
  if_pos hlt

-- Registers without behaviour of their own (R499, R501, R503, R505).

/-- A register that takes writes while its slot is FREE. -/
theorem whileFree_eq (g : CtxSlot → CtxSlot) : whileFree s slot g =
    if (s.slot slot).st = .free then s.setSlot slot (g (s.slot slot)) else s := by
  unfold whileFree
  rw [decide_eq_true hlt, Bool.true_and]
  simp only [beq_iff_eq]

theorem writeReg_whileFree {r : HostReg} {v : W64} {g : CtxSlot → CtxSlot} (hr : writeReg r v s = whileFree s slot g) :
    execRegisterWrite r v s =
      if (s.slot slot).st = .free then .next (s.setSlot slot (g (s.slot slot))) else .next s := by
  rw [execRegisterWrite, hr, whileFree_eq hlt]
  exact apply_ite Host.Outcome.next _ _ _

theorem writeReg_packet {i : Nat} (hi : i < 32) (v : W64) : execRegisterWrite (.packet slot i) v s =
    if (s.slot slot).busy = true then .next s
    else .next (s.setSlot slot { s.slot slot with packet := (s.slot slot).packet.set i v hi }) := by
  refine (congrArg Host.Outcome.next (dif_pos hi)).trans ?_
  by_cases hb : (s.slot slot).busy = true
  · exact (congrArg _ (if_neg (by simp [hb]))).trans (if_pos hb).symm
  · exact (congrArg _ (if_pos (by simp [hb, hlt]))).trans (if_neg hb).symm

theorem writeReg_root (v : W64) : execRegisterWrite (.root slot) v s =
    if (s.slot slot).st = .free then .next { s with roots := Tab.put s.roots slot v } else .next s := by
  refine (apply_ite Host.Outcome.next _ _ _).trans ?_
  rw [decide_eq_true hlt, Bool.true_and]
  simp only [beq_iff_eq]

theorem writeReg_migrate (v : W64) : execRegisterWrite (.migrate slot) v s =
    .next (s.setSlot slot { s.slot slot with migrate := v }) :=
  congrArg Host.Outcome.next (if_pos hlt)

theorem writeReg_reldl {k : Nat} (hk : k < 16) (v : W64) : execRegisterWrite (.reldl slot k) v s =
    .next (s.setSlot slot { s.slot slot with reldl := (s.slot slot).reldl.set k v hk }) :=
  congrArg Host.Outcome.next ((dif_pos hk).trans (if_pos hlt))

end

section
variable {s : State}

theorem writeReg_untilSysgo {r : HostReg} {v : W64} {t : State} (hr : writeReg r v s = untilSysgo s t) :
    execRegisterWrite r v s = if s.sysgo = true then .next s else .next t := by
  rw [execRegisterWrite, hr]
  exact apply_ite Host.Outcome.next _ _ _

theorem writeReg_recovery {off : Nat} (h : s.recovering = true) (hoff : off + 8 ≤ 2 ^ 26) (v : W64) :
    execRegisterWrite (.recovery off) v s =
      .next { s with recoveryWin := Mem.writeL s.recoveryWin off (leBytes 8 v.toNat) } :=
  congrArg Host.Outcome.next (if_pos (by rw [h, decide_eq_true hoff]; rfl))

theorem writeReg_recovery_shut (h : s.recovering = false) (off : Nat) (v : W64) :
    execRegisterWrite (.recovery off) v s = .next s :=
  congrArg Host.Outcome.next (if_neg (by rw [h, Bool.false_and]; exact Bool.false_ne_true))

end

-- Reads (R499, R501, R503).

theorem next_inj {s t : State} {r : Host.Outcome State Fault Refusal} (hs : r = .next s) (ht : r = .next t) : t = s := by
  cases hs.symm.trans ht
  rfl

theorem mailboxRead_mstatus (s : State) (slot : Nat) : mailboxRead s slot 0x108 = (s.slot slot).mstatus := rfl

theorem mailboxRead_packet (s : State) (slot : Nat) {i : Nat} (hi : i < 32) :
    mailboxRead s slot (8 * i) = (s.slot slot).packet[i] := by
  refine (if_pos (by simp; omega)).trans ?_
  rw [Nat.mul_div_cancel_left i (by decide)]
  simp [List.getD_eq_getElem?_getD, hi]

theorem slotRead_reldl (s : State) (slot : Nat) {k : Nat} (hk : k < 16) :
    slotRead s slot (0x40 + 8 * k) = (s.slot slot).reldl[k] := by
  refine (if_pos (by simp; omega)).trans ?_
  rw [Nat.add_sub_cancel_left, Nat.mul_div_cancel_left k (by decide)]
  simp [List.getD_eq_getElem?_getD, hk]

/-- SLOTCTL after a SETUP (R501, R502). -/
theorem slotRead_setup {s t : State} {slot : Nat} (hlt : slot < 64) (hst : (s.slot slot).st ≠ .tearing)
    (ht : execSetup slot s = .next t) : slotRead t slot 0 =
      BitVec.ofNat 64 (if (s.slot slot).st = .free then (if slotGood s slot = true then 0x4 else 0x100) else 0x304) := by
  have hread (u : State) : slotRead u slot 0 = (u.slot slot).slotctl := rfl
  by_cases hf : (s.slot slot).st = .free
  · rw [if_pos hf]
    by_cases hg : slotGood s slot = true
    · rw [if_pos hg, next_inj (setup_good hlt hf hg) ht, hread, setUp, slot_setSlot]
      simp [CtxSlot.slotctl, SlotState.code]
    · rw [if_neg hg, next_inj (setup_bad hlt hf (Bool.eq_false_iff.mpr hg)) ht, hread, slot_setSlot]
      simp [CtxSlot.slotctl, SlotState.code, hf]
  · have ha : (s.slot slot).st = .active := by
      cases hs : (s.slot slot).st with
      | free => exact absurd hs hf
      | active => rfl
      | tearing => exact absurd hs hst
    rw [if_neg hf, next_inj (setup_busy hlt hf) ht, hread, slot_setSlot]
    simp [CtxSlot.slotctl, SlotState.code, ha]

/-- MSTATUS after a doorbell that is not ignored (R499, R500). -/
theorem mailboxRead_doorbell {s t : State} {slot : Nat} (hlt : slot < 64)
    (h : (s.slot slot).busy = true ∨ (s.slot slot).tdi = .run ∨ (s.slot slot).tdi = .unlocked)
    (ht : execDoorbell slot s = .next t) : mailboxRead t slot 0x108 = BitVec.ofNat 64
      (((s.slot slot).busy || (s.slot slot).overrun).toNat * 2 ^ 33 + 2 ^ 32 + (s.slot slot).result.toNat % 2 ^ 22) := by
  cases hb : (s.slot slot).busy with
  | true =>
    rw [next_inj (doorbell_busy hlt hb) ht, mailboxRead_mstatus, slot_setSlot]
    simp [CtxSlot.mstatus, hb]
  | false =>
    have htdi := h.resolve_left (by rw [hb]; exact Bool.false_ne_true)
    rw [next_inj (doorbell_rings hlt hb htdi) ht, mailboxRead_mstatus, slot_setSlot]
    simp [CtxSlot.mstatus]

/-- SYSGO as it reads after a write of it (R503). -/
theorem systemRead_sysgo {s t : State} {v : W64} (ht : execSysgo v s = .next t) :
    systemRead t 0x18 = if s.sysgo = true ∨ (v = 1 ∧ s.bootStep = 7) then 1 else 0 := by
  have hread (u : State) : systemRead u 0x18 = BitVec.ofNat 64 u.sysgo.toNat := rfl
  by_cases hgo : s.sysgo = true
  · rw [next_inj (sysgo_ignored (.inr (.inl hgo))) ht, hread, hgo, if_pos (.inl rfl)]
    rfl
  · by_cases hv : v = 1 ∧ s.bootStep = 7
    · obtain ⟨rfl, hstep⟩ := hv
      obtain ⟨u, hu, hgone, -⟩ := sysgo_starts (Bool.eq_false_iff.mpr hgo) hstep
      rw [next_inj hu ht, hread, hgone, if_pos (.inr ⟨rfl, hstep⟩)]
      rfl
    · have hign : v ≠ 1 ∨ s.sysgo = true ∨ s.bootStep ≠ 7 := by
        by_cases h1 : v = 1
        · exact .inr (.inr fun h7 => hv ⟨h1, h7⟩)
        · exact .inl h1
      rw [next_inj (sysgo_ignored hign) ht, hread, Bool.eq_false_iff.mpr hgo, if_neg (by simpa using not_and.mp hv)]
      rfl

/-- Settles O33: each register by the condition under which it takes a write; what a read then gives is the field
written. -/
theorem hostRegisterResults : Obligations.HostRegisterResults := by
  intro s slot v hlt
  have hfree {r : HostReg} {g : CtxSlot → CtxSlot} (hr : writeReg r v s = whileFree s slot g) (hst : (s.slot slot).st = .free)
      {t : State} (ht : execRegisterWrite r v s = .next t) : t.slot slot = g (s.slot slot) := by
    rw [next_inj ((writeReg_whileFree hlt hr).trans (if_pos hst)) ht, slot_setSlot]
  have hsys {r : HostReg} {u : State} (hr : writeReg r v s = untilSysgo s u) (hgo : s.sysgo = false)
      {t : State} (ht : execRegisterWrite r v s = .next t) : t = u :=
    next_inj ((writeReg_untilSysgo hr).trans (if_neg (Bool.eq_false_iff.mp hgo))) ht
  refine ⟨doorbell_busy hlt, doorbell_rings hlt, doorbell_ignored hlt, mstatusClear_clears hlt, mstatusClear_ignored,
    tdispRequest_moves hlt, fun i hi => writeReg_packet hlt hi v, writeReg_root hlt v,
    writeReg_whileFree (g := fun c => { c with handler := v }) hlt rfl,
    writeReg_whileFree (g := fun c => { c with pool := v }) hlt rfl,
    writeReg_whileFree (g := fun c => { c with qbase := v }) hlt rfl,
    writeReg_whileFree (g := fun c => { c with qback := v &&& 0xFFFF }) hlt rfl, writeReg_migrate hlt v,
    fun k hk => writeReg_reldl hlt hk v, writeReg_untilSysgo rfl, writeReg_untilSysgo rfl, writeReg_untilSysgo rfl,
    fun off h hoff => writeReg_recovery h hoff v, fun off h => writeReg_recovery_shut h off v, rfl, fun t ht hv => ?_,
    fun i t hi hb ht => ?_, fun k t hk ht => ?_, fun t ht => ?_, fun hst t => ⟨fun ht => ?_, fun ht => ?_, fun ht => ?_,
      fun ht => ?_, fun ht => ?_⟩, fun hst t ht => slotRead_setup hlt hst ht, fun h t ht => mailboxRead_doorbell hlt h ht,
    fun hgo t => ⟨fun ht => ?_, fun ht => ?_, fun ht => ?_⟩, fun t ht => systemRead_sysgo ht⟩
  · rw [next_inj (mstatusClear_clears hlt hv) ht, mailboxRead_mstatus, slot_setSlot, CtxSlot.mstatus]
    simp
  · rw [next_inj ((writeReg_packet hlt hi v).trans (if_neg (Bool.eq_false_iff.mp hb))) ht, mailboxRead_packet _ _ hi,
      slot_setSlot]
    simp
  · rw [next_inj (writeReg_reldl hlt hk v) ht, slotRead_reldl _ _ hk, slot_setSlot]
    simp
  · have hslot : t.slot slot = _ :=
      (congrArg (State.slot · slot) (next_inj (writeReg_migrate hlt v) ht)).trans (slot_setSlot _ _ _)
    exact congrArg CtxSlot.migrate hslot
  · rw [next_inj ((writeReg_root hlt v).trans (if_pos hst)) ht]
    exact Tab.get_put_same _ _ _ _
  · exact congrArg CtxSlot.handler (hfree (g := fun c => { c with handler := v }) rfl hst ht)
  · exact congrArg CtxSlot.pool (hfree (g := fun c => { c with pool := v }) rfl hst ht)
  · exact congrArg CtxSlot.qbase (hfree (g := fun c => { c with qbase := v }) rfl hst ht)
  · exact congrArg CtxSlot.qback (hfree (g := fun c => { c with qback := v &&& 0xFFFF }) rfl hst ht)
  · exact congrArg State.sysroot (hsys rfl hgo ht)
  · exact congrArg State.sysentry (hsys rfl hgo ht)
  · exact congrArg State.sysivec (hsys rfl hgo ht)

end Sys2Proof.Machine

end
